-- ==== Sys2Proof/Word.lean ====
section
/-!
DEFINITION. The words of the Casad C840 and their plainest arithmetic (spec/00_scope.md R2, R5; spec/02_encoding.md R48, R58).
-/

namespace Sys2Proof

/-- A byte of memory. -/
abbrev Byte := BitVec 8
/-- A 64-bit register or doubleword. -/
abbrev Word := BitVec 64
/-- A vector register (R18). -/
abbrev Vec := BitVec 1024
/-- A predicate register of bundle form: one bit per byte position (R18). -/
abbrev Pred := BitVec 128
/-- A slot op (R58). -/
abbrev Op44 := BitVec 44

/-- Bits [hi:lo] of a natural number (R5). -/
def bits (n hi lo : Nat) : Nat := n / 2 ^ lo % 2 ^ (hi + 1 - lo)

/-- Bit [i] of a natural number (R5). -/
def bit (n i : Nat) : Bool := n / 2 ^ i % 2 == 1

/-- The value of a w-bit pattern as two's complement (R91). -/
def toSigned (w n : Nat) : Int :=
  if n % 2 ^ w < 2 ^ (w - 1) then (n % 2 ^ w : Nat) else (n % 2 ^ w : Nat) - (2 ^ w : Nat)

/-- The w-bit pattern of an integer, modulo 2^w (R91). -/
def ofInt (w : Nat) (x : Int) : Nat := (x % (2 ^ w : Nat)).toNat

/-- The number read little-endian from bytes, lowest address first (R2). -/
def leNat : List Byte → Nat
  | [] => 0
  | b :: bs => b.toNat + 256 * leNat bs

/-- The n little-endian bytes of a number (R2). -/
def leBytes : Nat → Nat → List Byte
  | 0, _ => []
  | n + 1, x => BitVec.ofNat 8 x :: leBytes n (x / 256)

/-- Element i of width w bits of a vector register (R141). -/
def vecElem (v : Vec) (w i : Nat) : Nat := v.toNat / 2 ^ (w * i) % 2 ^ w

/-- A vector register whose element i of width w bits is replaced (R141). -/
def vecSet (v : Vec) (w i x : Nat) : Vec :=
  let mask : Vec := BitVec.ofNat 1024 (2 ^ w - 1) <<< (w * i)
  (v &&& ~~~mask) ||| ((BitVec.ofNat 1024 (x % 2 ^ w) <<< (w * i)) &&& mask)

end Sys2Proof
end

