-- ==== Sys2Proof/Config.lean ====
section
/-!
DEFINITION. What the spec leaves open or names only by an outside standard, as constants with no body: nothing in Lean can
evaluate them, so a claim about them holds whatever they are (log 6 for the free values, log 7 for the standards).
-/
namespace Sys2Proof.Config

/-- The free values: draw k of a run. The value behind every choice the spec leaves to the hardware (log 6). -/
opaque free : Nat → BitVec 64

/-- The hint-table number of a query's coordinate on an axis whose lower bound is −∞, where R215's quotient has no value (log 20). -/
opaque hintCell : Nat → Nat

/-- SHAKE256 of a message, n bytes of output (FIPS 202, named by spec/13_boundary.md R447 to R451; log 7). -/
opaque shake256 : List Byte → Nat → List Byte

/-- Pure SLH-DSA-SHAKE-256s verification with an empty context: public key, message, signature (FIPS 205; R447; log 7). -/
opaque slhVerify : List Byte → List Byte → List Byte → Bool

/-- Pure SLH-DSA-SHAKE-256s signature: private seeds, message; 29,792 bytes (R451, R459; log 7). -/
opaque slhSign : List Byte → List Byte → List Byte

/-- The public key generated from three 32-byte seeds (R451; log 7). -/
opaque slhPublic : List Byte → List Byte

/-- The corrected 256-bit output of the die's SRAM PUF (R451; log 7). -/
opaque puf : List Byte

/-- The Mehorn digest held in ROM: 32 bytes (R447; log 7). -/
opaque romDigest : List Byte

/-- One of the XTS key pair that Reeve draws at a boot, 32 bytes (R402; log 7): the data key, or with `true` the tweak key. -/
opaque xtsKey : Nat → Bool → List Byte

/-- The integrity key that Reeve draws at a boot (R402; log 7). -/
opaque integrityKey : Nat → List Byte

/-- The 32-bit integrity tag of a secure sector under an integrity key: of its ciphertext and its physical address (R403; log 7, log 141). -/
opaque integrityTag : List Byte → List Byte → Nat → BitVec 32

/-- Where the control regions lie. The spec gives their physical ranges by capability record only (R383, R454, R457); the model puts
window k, 16 MB each, at this address + k × 2^24 (DESIGN CHOICE, log 17). -/
def ctlBase : Nat := 2 ^ 43

end Sys2Proof.Config
end

