-- ==== Sys2Proof/Machine/Aes.lean ====
section
/-!
DEFINITION. AES-256-XTS over a 64-byte sector (spec/11_isolation.md R402), as FIPS 197 and IEEE 1619 give it: the keys are the secret of a boot.
-/
namespace Sys2Proof.Machine

/-! ### The field of 256 elements -/

/-- A product by x, modulo x^8 + x^4 + x^3 + x + 1. -/
def aesDouble (a : Nat) : Nat := if a < 128 then 2 * a else (2 * a) ^^^ 0x11B

/-- A product of two elements, by the bits of the second from the top. -/
def aesMul (a b : Nat) : Nat :=
  [7, 6, 5, 4, 3, 2, 1, 0].foldl (fun r i => aesDouble r ^^^ (if b.testBit i then a else 0)) 0

/-- An element's inverse, its power 254; 0 for 0. -/
def aesInv (a : Nat) : Nat := (List.range 253).foldl (fun r _ => aesMul r a) a

/-- A byte rotated left. -/
def rotByte (a n : Nat) : Nat := (a * 2 ^ n) % 256 ^^^ a / 2 ^ (8 - n)

/-- SubBytes of one byte. -/
def aesSub (a : Nat) : Nat :=
  let b := aesInv a
  b ^^^ rotByte b 1 ^^^ rotByte b 2 ^^^ rotByte b 3 ^^^ rotByte b 4 ^^^ 0x63

/-! ### The cipher -/

/-- Bytes combined by exclusive or. -/
def xorBytes (a b : List Nat) : List Nat := List.zipWith (· ^^^ ·) a b

/-- The next word of the key schedule, from the words so far, newest first. -/
def aesKeyWord (i : Nat) (ws : List (List Nat)) : List Nat :=
  let t := ws.headD []
  let t :=
    if i % 8 = 0 then xorBytes (((t.drop 1) ++ t.take 1).map aesSub) [2 ^ (i / 8 - 1), 0, 0, 0]
    else if i % 8 = 4 then t.map aesSub
    else t
  xorBytes (ws.getD 7 []) t

/-- The 60 words of the key schedule of a 256-bit key. -/
def aesSchedule (key : List Nat) : List (List Nat) :=
  let first := (List.range 8).map fun i => (key.drop (4 * i)).take 4
  ((List.range 52).foldl (fun ws i => aesKeyWord (i + 8) ws :: ws) first.reverse).reverse

/-- The round key of a round. -/
def aesRoundKey (ws : List (List Nat)) (r : Nat) : List Nat := ((ws.drop (4 * r)).take 4).flatten

/-- ShiftRows of a state of 16 bytes, column by column. -/
def aesShift (s : List Nat) : List Nat := (List.range 16).map fun i => s.getD ((i + 4 * (i % 4)) % 16) 0

/-- MixColumns of one column. -/
def aesMixCol (c : List Nat) : List Nat :=
  (List.range 4).map fun i =>
    aesDouble (c.getD i 0) ^^^ aesMul (c.getD ((i + 1) % 4) 0) 3 ^^^ c.getD ((i + 2) % 4) 0 ^^^ c.getD ((i + 3) % 4) 0

/-- MixColumns. -/
def aesMix (s : List Nat) : List Nat := [0, 4, 8, 12].flatMap fun i => aesMixCol ((s.drop i).take 4)

/-- A block of 16 bytes encrypted under a key schedule: 14 rounds. -/
def aesBlock (ws : List (List Nat)) (p : List Nat) : List Nat :=
  let s := (List.range 13).foldl (fun s r => xorBytes (aesMix (aesShift (s.map aesSub))) (aesRoundKey ws (r + 1)))
    (xorBytes p (aesRoundKey ws 0))
  xorBytes (aesShift (s.map aesSub)) (aesRoundKey ws 14)

/-! ### XTS -/

/-- A little-endian number of 16 bytes. -/
def le16 (n : Nat) : List Nat := (List.range 16).map fun i => n / 2 ^ (8 * i) % 256
/-- 16 bytes as a little-endian number. -/
def ofLe16 (l : List Nat) : Nat := l.foldr (fun b a => b + 256 * a) 0

/-- The tweak of the next block: a product by x modulo x^128 + x^7 + x^2 + x + 1. -/
def xtsNext (t : Nat) : Nat := if t < 2 ^ 127 then 2 * t else (2 * t) % 2 ^ 128 ^^^ 0x87

/-- A 64-byte data unit encrypted under a key pair with a tweak number. -/
def xtsUnit (k1 k2 : List Nat) (tweak : Nat) (p : List Nat) : List Nat :=
  let w1 := aesSchedule k1
  let t0 := ofLe16 (aesBlock (aesSchedule k2) (le16 tweak))
  let ts := [t0, xtsNext t0, xtsNext (xtsNext t0), xtsNext (xtsNext (xtsNext t0))]
  (ts.zip [0, 16, 32, 48]).flatMap fun e =>
    let t := le16 e.1
    xorBytes (aesBlock w1 (xorBytes ((p.drop e.2).take 16) t)) t

/-- A secret of 32 bytes. -/
def key32 (k : List Byte) : List Nat := (List.range 32).map fun i => (k.getD i 0).toNat

/-- The ciphertext of a sector under the key pair of a boot: the tweak is the sector's number, PA[43:6] (R402). -/
def xtsSector (boot sector : Nat) (data : List Byte) : List Byte :=
  (xtsUnit (key32 (Config.xtsKey boot false)) (key32 (Config.xtsKey boot true)) sector (data.map (·.toNat))).map (BitVec.ofNat 8)

end Sys2Proof.Machine
end

