-- ==== Sys2Proof/Syntax.lean ====
section
/-!
DEFINITION. The operations and events of spec/opcode_table.json, one constructor of Instr per row.
Slot operations carry their operands already taken out of the 44-bit slot op (spec/02_encoding.md R58); device events carry what
the outside world, or the engine that acts, supplies with them.
-/
namespace Sys2Proof

/-- An operand code of R62. `sx` is s0-s63 in bundle form and x0-x63 in thread form; `imm` is an inline constant of R64. -/
inductive Opd where
  | sx (n : Fin 64)
  | vec (n : Fin 64)
  | acc (n : Fin 16)
  | kreg (n : Fin 160)
  | imm (c : Fin 32)
  deriving DecidableEq, Repr

/-- The two forms of code (R16, R17). -/
inductive Form where
  | bundle | thread
  deriving DecidableEq, Repr

/-- Element types (R67). -/
inductive Ty where
  | i8 | i16 | i32 | i64 | n8 | n16 | n32 | n64
  | f32 | f16 | bf16 | e4m3 | e5m2 | e3m2 | e2m3 | e2m1 | m8 | m6 | e8m0
  deriving DecidableEq, Repr

/-- Scalar FP types (R119). -/
inductive FpTy where
  | f32 | f16 | bf16
  deriving DecidableEq, Repr

/-- Vector widths (R60). -/
inductive VW where
  | w256 | w512 | w1024
  deriving DecidableEq, Repr

/-- Scopes (R233). -/
inductive Scope where
  | thread | core | cluster | die | device | peer | io
  deriving DecidableEq, Repr

/-- Orders (R235). -/
inductive Ord where
  | rlx | acq | rel | ar
  deriving DecidableEq, Repr

/-- The MOD fields of a vector-class op (R60). -/
structure VHdr where
  h : Bool
  w : VW
  p : Fin 8
  sat : Bool
  ty : Ty
  deriving DecidableEq, Repr

/-- The MOD fields of LD, ST, LDS and STS (R267). -/
structure MemMod where
  h : Bool
  scope : Scope
  ord : Ord
  size : Fin 4
  sx : Bool
  sh : Fin 8
  deriving DecidableEq, Repr

/-- The MOD fields of a vector-layout memory op (R267). -/
structure VMod where
  h : Bool
  w : VW
  p : Fin 8
  deriving DecidableEq, Repr

/-- The MOD fields of an atomic (R267, R285). -/
structure AtMod where
  scope : Scope
  ord : Ord
  wide : Bool
  loc : Bool
  deriving DecidableEq, Repr

/-- SEXT's type (R125). -/
inductive ExtTy where
  | i8 | i16 | i32 | n8 | n16 | n32
  deriving DecidableEq, Repr

/-- FSGN's variant (R130). -/
inductive SgnMode where
  | j | jn | jx | abs
  deriving DecidableEq, Repr

/-- PSET's mode (R131). -/
inductive PsetMode where
  | all | first | bits
  deriving DecidableEq, Repr

/-- PLOG's operation (R132). -/
inductive PlogOp where
  | and | or | xor | andn | orn | not
  deriving DecidableEq, Repr

/-- The step count of RNGJ: a register or an immediate (R139). -/
inductive RngK where
  | reg (a : Opd)
  | imm (k : Fin 128)
  deriving DecidableEq, Repr

/-- The condition of VCMP and VFCMP (R143). -/
inductive CmpC where
  | eq | ne | lt | le | gt | ge | un | or
  deriving DecidableEq, Repr

/-- The condition of BRC (R368). -/
inductive Cond where
  | z (a : Opd) | nz (a : Opd) | lt (a : Opd) | ge (a : Opd)
  | p (n : Fin 8) | np (n : Fin 8)
  deriving DecidableEq, Repr

/-- The condition of TRAP (R424). -/
inductive TrapCond where
  | cond (c : Cond)
  | always
  deriving DecidableEq, Repr

/-- CPY's direction (R279). -/
inductive CpyDir where
  | g2l | l2g | g2g | l2l
  deriving DecidableEq, Repr

/-- A reset domain: a matrix core or a vision unit (R380). -/
inductive Dom where
  | core (n : Fin 32)
  | unit (n : Fin 32)
  deriving DecidableEq, Repr

/-- A resident thread: its unit, its group's place on the unit and its index in the group (R26). -/
structure Tid where
  unit : Fin 32
  group : Nat
  thread : Nat
  deriving DecidableEq, Repr

/-- Who makes a request of a control region (R377, R383). -/
inductive Requester where
  /-- an application-core hart; `priv` is RISC-V M or HS mode -/
  | hart (h : Fin 16) (priv : Bool)
  | reeve
  /-- a job running in a partition and world -/
  | job (part : Fin 64) (world : Bool)
  | pcie
  deriving DecidableEq, Repr

/-- Engine classes (R330). -/
inductive EngClass where
  | matrix | vision
  deriving DecidableEq, Repr

/-- States of the time base (R305). -/
inductive TimeState where
  | free | locking | locked | holdover
  deriving DecidableEq, Repr

/-- Kinds of boot image (R447). -/
inductive ImageKind where
  | config | firmware | boot
  deriving DecidableEq, Repr

/-- Faults of a matrix array (R180): physical rows and columns faulty as a whole, and cells by row and column. -/
structure Faults where
  rows : BitVec 34
  cols : BitVec 34
  cells : List (Fin 34 × Fin 34)
  deriving DecidableEq, Repr

/-- What a self-test found (R439): faults of a matrix array, or the verdict on a vision unit. -/
structure TestResult where
  faults : Faults
  pass : Bool
  deriving DecidableEq, Repr

/-- Who is charged for a memory request (R351, R352). -/
inductive Payer where
  | job (slot : Nat)
  | pool (part : Fin 64)
  deriving DecidableEq, Repr

/-- Traffic at a memory channel, as R351 tells its requester. -/
inductive Traffic where
  /-- misses, write-backs, load-block fills, copies, atomics and page walks of a core, or of a unit for one of its groups -/
  | engine (d : Dom)
  /-- save, restore and spill of a resident slot's job -/
  | preempt (slot : Nat)
  /-- L2 evictions, trace writes, sensor ingress and application-core traffic, of the partition that owns the line or stream -/
  | pool (part : Fin 64)
  deriving DecidableEq, Repr

/-- Whose energy has been measured (R356). -/
inductive Meter where
  | engine (d : Dom)
  /-- memory and L2 -/
  | memory
  deriving DecidableEq, Repr

/-- Where an uncorrectable ECC error lies (R435). -/
inductive EccPlace where
  | engine (d : Dom)
  | localBlock (d : Dom) (offset : Nat)
  | sector (pa : Nat)
  deriving DecidableEq, Repr

/-- Which barrier completes (R374). -/
inductive BarPlace where
  | group (unit : Fin 32) (group : Nat) (id : Fin 16)
  | block (slot : Nat) (id : Fin 16)
  | job (slot : Nat) (id : Fin 16)
  deriving DecidableEq, Repr

/-- The engine whose scoreboarded or waiting op is meant: a core or a thread, and the op's position among those outstanding there. -/
inductive Waiter where
  | core (n : Fin 32) (idx : Nat)
  | thread (t : Tid) (idx : Nat)
  deriving DecidableEq, Repr

/-- Memory operations of RISC-V's A extension that PCI Express has no AtomicOp for (R252). -/
inductive AmoOp where
  | and | or | xor | min | max | minu | maxu
  deriving DecidableEq, Repr

/-- Accesses of harts and inbound masters (R252, R262, R460). -/
inductive OutKind where
  | load (n : Nat)
  | store (data : List Byte)
  /-- FetchAdd of the operand's width -/
  | fetchAdd (data : List Byte)
  | swap (data : List Byte)
  /-- compare-and-swap: expected and new -/
  | cas (expected new : List Byte)
  | amo (op : AmoOp) (data : List Byte)
  /-- load-reserved and store-conditional of a hart -/
  | lr (n : Nat)
  | sc (data : List Byte)
  deriving DecidableEq, Repr

/-- An access of a hart (R252): to memory or a PEER target, or to an IO target, which refuses atomics (R262). -/
structure HartAccess where
  io : Bool
  kind : OutKind
  deriving DecidableEq, Repr

/-- A CSI-2 packet in frame mode (R458, R461). -/
inductive CsiPacket where
  | frameStart (vc : Fin 16)
  | line (vc : Fin 16) (dt : Byte) (payload : List Byte)
  /-- a packet dropped for a header ECC or payload CRC error -/
  | errored
  deriving DecidableEq, Repr

/-- One event word of an event-camera packet (R458). -/
structure CamEvent where
  x : BitVec 14
  y : BitVec 14
  polarity : Bool
  deriving DecidableEq, Repr

/-- A CAN XL frame in the layout of SAFEFRAME bytes 8-95 (R465). -/
structure CanFrame where
  bytes : List Byte
  deriving DecidableEq, Repr

/-- The operations and events of spec/opcode_table.json. -/
inductive Instr where
  -- scalar class (R122-R140)
  | nop
  | add (d a b : Opd)
  | sub (d a b : Opd)
  | addi (d a : Opd) (imm : BitVec 20)
  | lih (d a : Opd) (imm : BitVec 20)
  | mul (d a b : Opd)
  | mulh (d a b : Opd)
  | mulhn (d a b : Opd)
  | div (d a b : Opd)
  | divn (d a b : Opd)
  | rem (d a b : Opd)
  | remn (d a b : Opd)
  | and (d a b : Opd)
  | or (d a b : Opd)
  | xor (d a b : Opd)
  | andi (d a : Opd) (imm : BitVec 12)
  | ori (d a : Opd) (imm : BitVec 12)
  | xori (d a : Opd) (imm : BitVec 12)
  | shl (d a b : Opd)
  | shr (d a b : Opd)
  | sra (d a b : Opd)
  | shli (d a : Opd) (sh : Fin 64)
  | shri (d a : Opd) (sh : Fin 64)
  | srai (d a : Opd) (sh : Fin 64)
  | rol (d a b : Opd)
  | ror (d a b : Opd)
  | min (d a b : Opd)
  | max (d a b : Opd)
  | minn (d a b : Opd)
  | maxn (d a b : Opd)
  | seq (d a b : Opd)
  | sne (d a b : Opd)
  | slt (d a b : Opd)
  | sltn (d a b : Opd)
  | slti (d a : Opd) (imm : BitVec 20)
  | sel (d a b : Opd) (n : Fin 8) (inv : Bool)
  | clz (d a : Opd)
  | ctz (d a : Opd)
  | popc (d a : Opd)
  | bfx (d a : Opd) (pos : Fin 64) (len1 : Fin 64)
  | bfi (d a : Opd) (pos : Fin 64) (len1 : Fin 64)
  | sext (d a : Opd) (t : ExtTy)
  | addsh (d a b : Opd) (sh : Fin 8)
  | fadd (t : FpTy) (d a b : Opd)
  | fsub (t : FpTy) (d a b : Opd)
  | fmul (t : FpTy) (d a b : Opd)
  | ffma (t : FpTy) (d a b : Opd)
  | fmin (t : FpTy) (d a b : Opd)
  | fmax (t : FpTy) (d a b : Opd)
  | feq (t : FpTy) (d a b : Opd)
  | flt (t : FpTy) (d a b : Opd)
  | fle (t : FpTy) (d a b : Opd)
  | fcvt (t2 t1 : Ty) (d a : Opd)
  | fsgn (m : SgnMode) (t : FpTy) (d a b : Opd)
  | fclass (t : FpTy) (d a : Opd)
  | pset (m : PsetMode) (e : Fin 4) (pd : Fin 8) (a : Opd)
  | plog (op : PlogOp) (pd pa pb : Fin 8)
  | check (a b : Opd)
  | srd (d : Opd) (n : BitVec 12)
  | swr (n : BitVec 12) (a : Opd)
  | rngn (d : Opd)
  | rngf (t : FpTy) (d : Opd)
  | rngj (d : Opd) (k : RngK)
  -- vector class (R141-R151)
  | vnop (h : Bool)
  | vadd (v : VHdr) (d a b : Opd)
  | vsub (v : VHdr) (d a b : Opd)
  | vmul (v : VHdr) (d a b : Opd)
  | vmulh (v : VHdr) (d a b : Opd)
  | vmin (v : VHdr) (d a b : Opd)
  | vmax (v : VHdr) (d a b : Opd)
  | vabs (v : VHdr) (d a : Opd)
  | vand (v : VHdr) (d a b : Opd)
  | vor (v : VHdr) (d a b : Opd)
  | vxor (v : VHdr) (d a b : Opd)
  | vshl (v : VHdr) (d a b : Opd)
  | vshr (v : VHdr) (d a b : Opd)
  | vsra (v : VHdr) (d a b : Opd)
  | vfadd (v : VHdr) (d a b : Opd)
  | vfsub (v : VHdr) (d a b : Opd)
  | vfmul (v : VHdr) (d a b : Opd)
  | vfma (v : VHdr) (d a b : Opd)
  | vfmin (v : VHdr) (d a b : Opd)
  | vfmax (v : VHdr) (d a b : Opd)
  | vcmp (v : VHdr) (c : CmpC) (pd : Fin 8) (a b : Opd)
  | vfcmp (v : VHdr) (c : CmpC) (pd : Fin 8) (a b : Opd)
  | vsel (v : VHdr) (d a b : Opd)
  | vcvt (v : VHdr) (t1 : Ty) (d a : Opd)
  | vsplat (v : VHdr) (d a : Opd)
  | vext (v : VHdr) (d a b : Opd)
  | vins (v : VHdr) (d a b : Opd)
  | vperm (v : VHdr) (d a b : Opd)
  | vslide (v : VHdr) (d a b : Opd)
  | vzip (v : VHdr) (d a b : Opd)
  | vunzip (v : VHdr) (d a b : Opd)
  | vcprs (v : VHdr) (d a : Opd)
  | vpcnt (v : VHdr) (d a : Opd)
  | viota (v : VHdr) (d : Opd)
  | vdot4 (v : VHdr) (d a b : Opd)
  | vaccrd (v : VHdr) (d a b : Opd)
  | vaccwr (v : VHdr) (d a b : Opd)
  | vmov (v : VHdr) (d a : Opd)
  | rdadd (v : VHdr) (ps : Fin 4) (a : Opd)
  | rdmax (v : VHdr) (ps : Fin 4) (a : Opd)
  | rdmin (v : VHdr) (ps : Fin 4) (a : Opd)
  | rdmov (v : VHdr) (d : Opd) (ps : Fin 4)
  -- matrix and special functions (R152-R192)
  | xnop (h : Bool)
  | mma (h cz sat : Bool) (d a b : Opd) (ct : Fin 16)
  | accz (h : Bool) (d : Opd)
  | acccp (h tr : Bool) (d a : Opd)
  | setfmt (a : Opd)
  | twb (h : Bool) (d a : Opd)
  | twn (h : Bool) (d : Opd)
  | twe (h : Bool) (d : Opd)
  | mstestQuick (d : Opd)
  | mstestFull (d : Opd)
  | fmaprd (h : Bool) (d : Opd) (n : Fin 4)
  | frcp (h : Bool) (p : Fin 8) (d a : Opd)
  | frsq (h : Bool) (p : Fin 8) (d a : Opd)
  | fsqrt (h : Bool) (p : Fin 8) (d a : Opd)
  | fdiv (h : Bool) (p : Fin 8) (d a b : Opd)
  | fexp2 (h : Bool) (p : Fin 8) (d a : Opd)
  | flog2 (h : Bool) (p : Fin 8) (d a : Opd)
  | fsin (h : Bool) (p : Fin 8) (d a : Opd)
  | fcos (h : Bool) (p : Fin 8) (d a : Opd)
  | ftanh (h : Bool) (p : Fin 8) (d a : Opd)
  | fsigm (h : Bool) (p : Fin 8) (d a : Opd)
  | flut (h : Bool) (p : Fin 8) (d a : Opd)
  | lutld (d a : Opd) (n : Fin 4)
  | lutsel (n : Fin 4)
  -- control, launch, wait, trap (R321-R324, R367-R376, R424-R428)
  | br (base : Option Opd) (off : BitVec 19)
  | brc (c : Cond) (off : BitVec 19)
  | call (base : Option Opd) (off : BitVec 19)
  | ret (a : Opd)
  | mark (id : Byte) (n : BitVec 19)
  | trcev (code : Byte) (a : Opd)
  | trcevFull (code : Byte) (a b : Opd)
  | leave (a : Opd) (n : BitVec 11)
  | launch (a : Opd)
  | jend
  | jendBlk
  | semsig (n : Byte) (a : Opd) (k : Fin 8) (rem : Bool)
  | semwait (n : Byte) (a : Opd)
  | yield
  | barGroup (id : Fin 16)
  | barBlock (id : Fin 16)
  | barJob (id : Fin 16)
  | trap (c : TrapCond) (code : BitVec 11)
  | tret
  | svc (code : BitVec 11)
  | bkpt (code : BitVec 11)
  -- traversal, sampling, cost maps (R200-R225)
  | rayqRay (q h : Opd) (fast nohint opq : Bool)
  | rayqSph (r q h : Opd) (fast nohint opq : Bool)
  | rayw (d : Opd)
  | rayahIgnore
  | rayahAccept
  | hintinv (a : Opd)
  | hintinvAll
  | isamp (d a b : Opd)
  | cmsamp (d a b : Opd)
  | cmseg (d a b : Opd)
  -- memory class (R270-R301, R406)
  | mnop (h : Bool)
  | ld (m : MemMod) (d a b : Opd)
  | st (m : MemMod) (d a b : Opd)
  | lds (m : MemMod) (d a b : Opd)
  | sts (m : MemMod) (d a b : Opd)
  | ldv (v : VMod) (d a b : Opd)
  | stv (v : VMod) (d a b : Opd)
  | ldvg (v : VMod) (e8 : Bool) (sh : Fin 4) (d a b : Opd)
  | stvs (v : VMod) (e8 : Bool) (sh : Fin 4) (d a b : Opd)
  | tld (v : VMod) (rows : Fin 4) (d a b : Opd)
  | tst (v : VMod) (rows : Fin 4) (d a b : Opd)
  | accst (h : Bool) (first count1 : Fin 32) (a b : Opd)
  | accld (h : Bool) (first count1 : Fin 32) (d a : Opd)
  | blkld (d a : Opd) (n1 : Fin 64)
  | blkrel (a : Opd)
  | cpy (h : Bool) (dir : CpyDir) (d a b : Opd)
  | cpym (h : Bool) (mask : Byte) (d a b : Opd)
  | syncset (a b : Opd)
  | swait (scope : Scope) (ord : Ord) (d a b : Opd)
  | aadd (m : AtMod) (d a b : Opd)
  | amin (m : AtMod) (sgn : Bool) (d a b : Opd)
  | amax (m : AtMod) (sgn : Bool) (d a b : Opd)
  | aand (m : AtMod) (d a b : Opd)
  | aor (m : AtMod) (d a b : Opd)
  | axor (m : AtMod) (d a b : Opd)
  | aswp (m : AtMod) (d a b : Opd)
  | acas (m : AtMod) (d a b : Opd)
  | acas2 (scope : Scope) (ord : Ord) (loc : Bool) (d a b : Opd)
  | afadd (scope : Scope) (ord : Ord) (loc : Bool) (t : FpTy) (d a b : Opd)
  | fence (scope : Scope) (ord : Ord)
  | drain (scope : Scope)
  | clean (a b : Opd)
  | inv (a b : Opd)
  | qpush (scope : Scope) (ord : Ord) (d a : Opd)
  | qpop (scope : Scope) (ord : Ord) (d a b : Opd)
  | qtry (scope : Scope) (ord : Ord) (d a b : Opd)
  | tgld (x16 : Bool) (d a : Opd)
  | tgst (x16 : Bool) (d a : Opd)
  | pref (h l2 : Bool) (a b : Opd)
  | tlbinvVa (a b : Opd)
  | tlbinvAsid (b : Opd)
  | tlbinvAll
  -- device events (spec/95_what_each_step_holds.md)
  | registerWrite (req : Requester) (pa : Nat) (v : Word)
  | powerOn
  | powerOff
  | thermalTrip (die : Fin 3)
  | imageVerify (kind : ImageKind)
  | memoryTrainingComplete (trained : BitVec 16)
  | stageFullEntry
  | selfTestComplete (d : Dom) (r : TestResult)
  | backgroundMstest (core : Fin 32) (found : Faults)
  | ptimeStep (ptp : Nat) (delta : Nat) (e : BitVec 64)
  | timebaseStateChange (next : TimeState)
  | ptpMessage (port : Fin 2) (frame : List Byte) (ppm : Int)
  | ppsEdge (ppm : Int)
  | clockChange (d : Dom) (mhz : BitVec 16)
  | register (req : Requester) (card : BitVec 44)
  | submit (req : Requester) (card : BitVec 44)
  | retire (req : Requester) (card : BitVec 44)
  | abort (req : Requester) (card : BitVec 44)
  | periodicRelease (slot : Nat)
  | deferredRelease (slot : Nat)
  | dispatch (cls : EngClass) (place : List (Fin 32))
  | advanceModeTimeout (core : Fin 32)
  | preemptionComplete (d : Dom)
  | serverWindowBoundary (cls : EngClass)
  | serverBudgetExhausted (cls : EngClass)
  | jobComplete (slot : Nat)
  | deadlineMiss (slot : Nat)
  | cyclesDemotion (slot : Nat)
  | beminWrite (req : Requester) (v : Word)
  | bewinWrite (req : Requester) (v : Word)
  | tgwinWrite (req : Requester) (v : Word)
  | tollgateWindowBoundary
  /-- of a unit's traffic, the place of the group whose it is -/
  | channelRequest (ch : Fin 16) (t : Traffic) (group : Nat)
  | leaveGrant (d : Dom)
  | powercapWrite (req : Requester) (v : Word)
  | energyUpdate (m : Meter) (microjoules : Nat)
  | bundleIssue (core : Fin 32)
  | traceRecordAccept (d : Dom)
  | taskBlockStart (core : Fin 32)
  | scoreboardResultLand (w : Waiter)
  | mmaResultLand (core : Fin 32)
  | mstestComplete (core : Fin 32) (found : Faults)
  | blkldFillComplete (core : Fin 32)
  | copyPieceLand (d : Dom) (copy : Nat) (piece : Nat)
  | copyError (d : Dom) (copy : Nat) (va : Word)
  | threadWordIssue (unit : Fin 32)
  | threadEnd (t : Tid)
  | drainComplete (t : Tid)
  | semwaitSatisfy (unit : Fin 32) (group : Nat) (sem : Nat)
  | swaitSatisfy (w : Waiter)
  | qpushRoom (q : BitVec 13)
  | barComplete (b : BarPlace)
  | queryReportReady (t : Tid) (choice : Nat)
  | tlbinvComplete (idx : Nat)
  | capturePreimageWritten (slot : Nat) (page : BitVec 64)
  | snapshotWrite (core : Fin 32)
  | heartbeatTimeout (d : Dom)
  | watchdogTimeout (d : Dom)
  | uncorrectableError (p : EccPlace)
  | correctableError (src : Byte) (count : Nat)
  | domainFailed (d : Dom) (reason : Fin 6)
  | reeveLockstepMismatch
  | safetyFrameRepeat
  | safetyTxReady (req : Requester) (slot : Fin 16)
  | safetyTxComplete (slot : Fin 16) (status : Fin 3)
  | safetyRxFrame (ctl : Bool) (f : CanFrame)
  | debugStop (req : Requester) (d : Dom)
  | debugStep (req : Requester) (d : Dom)
  | debugRun (req : Requester) (d : Dom)
  | traceRpWrite (req : Requester) (part : Fin 64) (v : Word)
  | traceDescriptorWrite (req : Requester) (part : Fin 64) (bytes : List Byte)
  | queueConfigure (req : Requester) (q : BitVec 13) (bytes : List Byte)
  | queueClose (req : Requester) (q : BitVec 13)
  | ingressFrameEnd (port : Fin 8) (vc : Fin 16)
  | ingressEventPacket (port : Fin 8) (vc : Fin 16) (events : List CamEvent)
  | ingressChannelEnable (req : Requester) (port : Fin 8) (vc : Fin 16) (bytes : List Byte)
  | regionEntryApply (req : Requester) (idx : Fin 64) (last : Word)
  | partitionEntryApply (req : Requester) (idx : Fin 64) (ctrl : Byte)
  | hartPartitionWrite (req : Requester) (hart : Fin 16) (v : Word)
  | invalidateWindowVa (req : Requester) (asid : BitVec 16)
  | invalidateWindowAsid (req : Requester) (asid : BitVec 16)
  | invalidateWindowAll (req : Requester)
  | attest (req : Requester)
  | extend (req : Requester) (reg : Fin 8)
  | attestComplete
  | pcieInboundRequest (pa : Nat) (k : OutKind)
  | pcieLinkChange (up : Bool) (rate : Fin 8) (lanes : Fin 16)
  | ethTailWrite (req : Requester) (mac : Fin 2) (tx : Bool) (ring : Fin 4) (v : Word)
  | ethTxComplete (mac : Fin 2) (ring : Fin 4)
  | ethRxFrame (mac : Fin 2) (frame : List Byte) (fcsOk : Bool)
  | ethLinkChange (mac : Fin 2) (up : Bool)
  | heartbeat (d : Dom)
  | hintinvComplete (t : Tid)
  | hartMemoryAccess (h : Fin 16) (pa : Nat) (k : HartAccess)
  | csi2Packet (port : Fin 8) (p : CsiPacket)
  deriving DecidableEq, Repr

end Sys2Proof
end

