-- ==== Sys2Proof/WellFormed.lean ====
section
/-!
DEFINITION. Which slot operations are well formed in a form of code: the forms of R80, the operand kinds of R62, R63, R65 and R117
with each op's own rule, the types each op accepts, and the value ranges that R77 tests by checks 0x0D, 0x1A and 0x11.
-/
namespace Sys2Proof

/-- The group of element types an op may accept (R141). -/
def Ty.isInt : Ty → Bool
  | .i8 | .i16 | .i32 | .i64 | .n8 | .n16 | .n32 | .n64 => true
  | _ => false

/-- Signed integer types (R91). -/
def Ty.isSigned : Ty → Bool
  | .i8 | .i16 | .i32 | .i64 => true
  | _ => false

/-- f32, f16 and bf16 (R92). -/
def Ty.isFp : Ty → Bool
  | .f32 | .f16 | .bf16 => true
  | _ => false

/-- The ten types that Convert rounds into (R115, R145). -/
def Ty.isFloat : Ty → Bool
  | .f32 | .f16 | .bf16 | .e4m3 | .e5m2 | .e3m2 | .e2m3 | .e2m1 | .m8 | .m6 => true
  | _ => false

/-- A scalar FP type as an element type (R119). -/
def FpTy.ty : FpTy → Ty
  | .f32 => .f32
  | .f16 => .f16
  | .bf16 => .bf16

/-- The inline constants that have a value for a source type (R64, R65). -/
def constOk (t : Ty) (c : Fin 32) : Bool :=
  if t.isInt then c.val < 16 || 30 ≤ c.val else if t.isFp then c.val < 30 else false

/-- A scalar destination: an s register, or an x register below the card's REGS count (R24, R62, R117). -/
def Opd.isDst (f : Form) (regs : Nat) : Opd → Bool
  | .sx n => match f with
    | .bundle => true
    | .thread => n.val < regs
  | _ => false

/-- A scalar source register: s in bundle form, x or k in thread form (R63, R117). -/
def Opd.isReg (f : Form) (regs : Nat) : Opd → Bool
  | .sx n => match f with
    | .bundle => true
    | .thread => n.val < regs
  | .kreg _ => f == .thread
  | _ => false

/-- A scalar source: a register or an inline constant of the type (R117, R118). -/
def Opd.isSrc (f : Form) (regs : Nat) (t : Ty) : Opd → Bool
  | .imm c => constOk t c
  | o => o.isReg f regs

/-- A field whose rule names a register: in thread form R63 also admits an inline constant (log 14). -/
def Opd.isRegC (f : Form) (regs : Nat) : Opd → Bool
  | .imm c => f == .thread && constOk .i64 c
  | o => o.isReg f regs

/-- A v register. -/
def Opd.isVec : Opd → Bool
  | .vec _ => true
  | _ => false

/-- A vector source: a v register or an inline constant of the type (R117). -/
def Opd.isVSrc (t : Ty) : Opd → Bool
  | .vec _ => true
  | .imm c => constOk t c
  | _ => false

/-- An accumulator tile. -/
def Opd.isAcc : Opd → Bool
  | .acc _ => true
  | _ => false

/-- An x register whose index is a multiple of `m`, at least `lo`, with `n` registers from it below the count. -/
def Opd.isGroup (regs m lo n : Nat) : Opd → Bool
  | .sx i => i.val % m == 0 && lo ≤ i.val && i.val + n ≤ regs
  | _ => false

/-- A register that begins an even pair (R285); k only where the pair is a source of thread form. -/
def Opd.isPair (f : Form) (regs : Nat) (src : Bool) : Opd → Bool
  | .sx i => i.val % 2 == 0 && (f == .bundle || i.val + 2 ≤ regs)
  | .kreg i => src && f == .thread && i.val % 2 == 0
  | _ => false

/-- The special registers: number, whether SWR may write it, presence in bundle form and in thread form (R29, R83). -/
def sregInfo (n : Nat) : Option (Bool × Bool × Bool) :=
  match n with
  | 0x000 => some (true, true, true)
  | 0x001 => some (false, true, false)
  | 0x002 => some (false, true, false)
  | 0x003 => some (true, true, false)
  | 0x004 => some (true, true, true)
  | 0x010 => some (false, true, true)
  | 0x011 => some (false, true, true)
  | 0x012 => some (false, true, true)
  | 0x013 => some (false, true, true)
  | 0x014 => some (false, true, true)
  | 0x015 => some (false, true, true)
  | 0x020 => some (false, true, true)
  | 0x021 => some (false, true, true)
  | 0x022 => some (false, true, true)
  | 0x030 => some (true, true, true)
  | 0x031 => some (true, true, true)
  | 0x032 => some (true, true, true)
  | 0x033 => some (false, false, true)
  | 0x034 => some (true, false, true)
  | 0x035 => some (true, true, true)
  | 0x040 => some (true, true, true)
  | 0x041 => some (true, true, true)
  | 0x042 => some (true, true, true)
  | 0x043 => some (false, true, true)
  | 0x044 => some (true, true, true)
  | _ => none

/-- The uses of SRD and SWR that R30 allows. -/
def sregOk (f : Form) (write : Bool) (n : Nat) : Bool :=
  match sregInfo n with
  | none => false
  | some (rw, b, t) => (!write || rw) && (match f with
    | .bundle => b
    | .thread => t)

/-- The forms in which an operation exists (R80); events are in neither. -/
def Instr.formOk (f : Form) (i : Instr) : Bool :=
  match i with
  | .nop | .add .. | .sub .. | .addi .. | .lih .. | .mul .. | .mulh .. | .mulhn .. | .div .. | .divn .. | .rem .. | .remn ..
  | .and .. | .or .. | .xor .. | .andi .. | .ori .. | .xori .. | .shl .. | .shr .. | .sra .. | .shli .. | .shri .. | .srai ..
  | .rol .. | .ror .. | .min .. | .max .. | .minn .. | .maxn .. | .seq .. | .sne .. | .slt .. | .sltn .. | .slti .. | .sel ..
  | .clz .. | .ctz .. | .popc .. | .bfx .. | .bfi .. | .sext .. | .addsh .. | .fadd .. | .fsub .. | .fmul .. | .ffma ..
  | .fmin .. | .fmax .. | .feq .. | .flt .. | .fle .. | .fcvt .. | .fsgn .. | .fclass .. | .pset .. | .plog .. | .check ..
  | .srd .. | .swr .. | .rngn .. | .rngf .. | .rngj .. | .xnop _ | .frcp .. | .frsq .. | .fsqrt .. | .fdiv .. | .fexp2 ..
  | .flog2 .. | .fsin .. | .fcos .. | .ftanh .. | .fsigm .. | .flut .. | .lutld .. | .lutsel _ | .br .. | .brc .. | .call ..
  | .ret _ | .mark .. | .trcev .. | .trcevFull .. | .leave .. | .launch _ | .jend | .jendBlk | .semsig .. | .barGroup _
  | .barBlock _ | .barJob _ | .trap .. | .svc _ | .bkpt _ | .mnop _ | .ld .. | .st .. | .lds .. | .sts .. | .cpy .. | .cpym ..
  | .syncset .. | .swait .. | .aadd .. | .amin .. | .amax .. | .aand .. | .aor .. | .axor .. | .aswp .. | .acas .. | .acas2 ..
  | .afadd .. | .fence .. | .drain _ | .clean .. | .inv .. | .qpush .. | .qpop .. | .qtry .. | .tgld .. | .tgst .. | .pref ..
  | .tlbinvVa .. | .tlbinvAsid _ | .tlbinvAll => true
  | .vnop _ | .vadd .. | .vsub .. | .vmul .. | .vmulh .. | .vmin .. | .vmax .. | .vabs .. | .vand .. | .vor .. | .vxor ..
  | .vshl .. | .vshr .. | .vsra .. | .vfadd .. | .vfsub .. | .vfmul .. | .vfma .. | .vfmin .. | .vfmax .. | .vcmp ..
  | .vfcmp .. | .vsel .. | .vcvt .. | .vsplat .. | .vext .. | .vins .. | .vperm .. | .vslide .. | .vzip .. | .vunzip ..
  | .vcprs .. | .vpcnt .. | .viota .. | .vdot4 .. | .vaccrd .. | .vaccwr .. | .vmov .. | .rdadd .. | .rdmax .. | .rdmin ..
  | .rdmov .. | .mma .. | .accz .. | .acccp .. | .setfmt _ | .twb .. | .twn .. | .twe .. | .mstestQuick _ | .mstestFull _
  | .fmaprd .. | .ldv .. | .stv .. | .ldvg .. | .stvs .. | .tld .. | .tst .. | .accst .. | .accld .. | .blkld .. | .blkrel _ =>
    f == .bundle
  | .semwait .. | .yield | .tret | .rayqRay .. | .rayqSph .. | .rayw _ | .rayahIgnore | .rayahAccept | .hintinv _
  | .hintinvAll | .isamp .. | .cmsamp .. | .cmseg .. => f == .thread
  | _ => false

/-- Check 0x0C: every operand field names a kind its op accepts (R62, R63, R65, R117 and the op's rule). -/
def Instr.kindsOk (f : Form) (regs : Nat) (i : Instr) : Bool :=
  let dst (o : Opd) := o.isDst f regs
  let src (o : Opd) := o.isSrc f regs .i64
  let srcn (o : Opd) := o.isSrc f regs .n64
  let fsrc (t : FpTy) (o : Opd) := o.isSrc f regs t.ty
  let regC (o : Opd) := o.isRegC f regs
  let reg (o : Opd) := o.isReg f regs
  let sfd (o : Opd) := match f with
    | .bundle => o.isVec
    | .thread => dst o
  let sfs (o : Opd) := match f with
    | .bundle => o.isVSrc .f32
    | .thread => o.isSrc f regs .f32
  let cond (c : Cond) := match c with
    | .z a | .nz a | .lt a | .ge a => regC a
    | .p _ | .np _ => true
  match i with
  | .nop | .vnop _ | .xnop _ | .mnop _ => true
  | .add d a b | .sub d a b | .mul d a b | .mulh d a b | .div d a b | .rem d a b | .and d a b | .or d a b
  | .xor d a b | .shl d a b | .shr d a b | .sra d a b | .rol d a b | .ror d a b | .min d a b | .max d a b | .seq d a b
  | .sne d a b | .slt d a b | .sel d a b _ _ | .addsh d a b _ => dst d && src a && src b
  | .mulhn d a b | .divn d a b | .remn d a b | .minn d a b | .maxn d a b | .sltn d a b => dst d && srcn a && srcn b
  | .addi d a _ | .lih d a _ | .slti d a _ | .andi d a _ | .ori d a _ | .xori d a _ | .shli d a _ | .shri d a _ | .srai d a _
  | .clz d a | .ctz d a | .popc d a | .bfx d a _ _ | .bfi d a _ _ | .sext d a _ => dst d && src a
  | .fadd t d a b | .fsub t d a b | .fmul t d a b | .ffma t d a b | .fmin t d a b | .fmax t d a b | .feq t d a b | .flt t d a b
  | .fle t d a b => dst d && fsrc t a && fsrc t b
  | .fsgn m t d a b => dst d && fsrc t a && (if m == .abs then b == .sx 0 else fsrc t b)
  | .fclass t d a => dst d && fsrc t a
  | .fcvt _ t1 d a => dst d && a.isSrc f regs t1
  | .pset _ _ _ a => src a
  | .plog op _ _ pb => op != .not || pb == 0
  | .check a b => src a && src b
  | .srd d _ | .rngn d | .rngf _ d => dst d
  | .swr _ a => src a
  | .rngj d k => dst d && (match k with
    | .reg a => src a
    | .imm _ => true)
  | .vadd v d a b | .vsub v d a b | .vmul v d a b | .vmulh v d a b | .vmin v d a b | .vmax v d a b | .vand v d a b
  | .vor v d a b | .vxor v d a b | .vshl v d a b | .vshr v d a b | .vsra v d a b | .vfadd v d a b | .vfsub v d a b
  | .vfmul v d a b | .vfma v d a b | .vfmin v d a b | .vfmax v d a b | .vsel v d a b | .vperm v d a b
  | .vzip v d a b | .vunzip v d a b | .vdot4 v d a b => d.isVec && a.isVSrc v.ty && b.isVSrc v.ty
  | .vabs v d a | .vmov v d a | .vpcnt v d a | .vcprs v d a => d.isVec && a.isVSrc v.ty
  | .vcmp v c _ a b => c != .un && c != .or && a.isVSrc v.ty && b.isVSrc v.ty
  | .vfcmp v _ _ a b => a.isVSrc v.ty && b.isVSrc v.ty
  | .vcvt _ t1 d a => d.isVec && a.isVSrc t1
  | .vsplat v d a => d.isVec && a.isSrc f regs v.ty
  | .vext v d a b => dst d && a.isVSrc v.ty && src b
  | .vins v d a b => d.isVec && a.isSrc f regs v.ty && src b
  | .vslide v d a b => d.isVec && a.isVSrc v.ty && src b
  | .viota _ d => d.isVec
  | .vaccrd _ d a b => d.isVec && a.isAcc && src b
  | .vaccwr v d a b => d.isAcc && a.isVSrc v.ty && src b
  | .rdadd v _ a | .rdmax v _ a | .rdmin v _ a => a.isVSrc v.ty
  | .rdmov _ d _ => d.isVec || dst d
  | .mma _ _ _ d a b _ => d.isAcc && reg a && reg b
  | .accz _ d => d.isAcc
  | .acccp _ _ d a => d.isAcc && a.isAcc
  | .setfmt a => src a
  | .twb _ d a => dst d && src a
  | .twn _ d | .twe _ d | .mstestQuick d | .mstestFull d | .fmaprd _ d _ => dst d
  | .frcp _ _ d a | .frsq _ _ d a | .fsqrt _ _ d a | .fexp2 _ _ d a | .flog2 _ _ d a | .fsin _ _ d a | .fcos _ _ d a
  | .ftanh _ _ d a | .fsigm _ _ d a | .flut _ _ d a => sfd d && sfs a
  | .fdiv _ _ d a b => sfd d && sfs a && sfs b
  | .lutld d a _ => dst d && src a
  | .lutsel _ => true
  | .br base _ => base.all regC
  | .call base _ => base.all regC && (f == .bundle || 64 ≤ regs)
  | .brc c _ => cond c
  | .ret a | .leave a _ | .launch a => regC a
  | .mark .. => true
  | .trcev code a => 128 ≤ code.toNat && src a
  | .trcevFull code a b => 128 ≤ code.toNat && src a && src b
  | .jend | .jendBlk | .yield | .barGroup _ | .barBlock _ | .barJob _ | .tret | .svc _ | .bkpt _ => true
  | .semsig _ a _ _ | .semwait _ a => src a
  | .trap c _ => match c with
    | .cond c => cond c
    | .always => true
  | .rayqRay q h .. => q.isGroup regs 4 0 4 && (reg h || h == .imm 0)
  | .rayqSph r q h .. => dst r && q.isGroup regs 4 0 4 && (reg h || h == .imm 0)
  | .rayw d => d.isGroup regs 4 4 4
  | .rayahIgnore | .rayahAccept | .hintinvAll => true
  | .hintinv a => reg a
  | .isamp d a b | .cmsamp d a b => d.isGroup regs 2 2 2 && reg a && reg b
  | .cmseg d a b => d.isGroup regs 2 2 2 && reg a && b.isGroup regs 2 0 2
  | .ld _ d a b | .lds _ d a b => dst d && src a && src b
  | .st _ d a b | .sts _ d a b => src d && src a && src b
  | .ldv _ d a b | .stv _ d a b | .tld _ _ d a b | .tst _ _ d a b => d.isVec && src a && src b
  | .ldvg _ _ _ d a b | .stvs _ _ _ d a b => d.isVec && src a && b.isVec
  | .accst _ _ _ a b => reg a && b.isAcc
  | .accld _ _ _ d a => d.isAcc && reg a
  | .blkld d a _ => dst d && src a
  | .blkrel a => src a
  | .cpy _ _ d a b | .cpym _ _ d a b => regC d && src a && src b
  | .syncset a b => src a && src b
  | .swait _ _ d a b => dst d && src a && src b
  | .aadd _ d a b | .amin _ _ d a b | .amax _ _ d a b | .aand _ d a b | .aor _ d a b | .axor _ d a b | .aswp _ d a b
  | .acas _ d a b => dst d && reg a && src b
  | .acas2 _ _ _ d a b => d.isPair f regs false && reg a && b.isPair f regs true
  | .afadd _ _ _ t d a b => dst d && reg a && fsrc t b
  | .fence .. | .drain _ | .tlbinvAll => true
  | .clean a b | .inv a b | .pref _ _ a b => src a && src b
  | .qpush _ _ d a => (match f with
    | .bundle => d.isVec
    | .thread => d.isGroup regs 8 8 8) && regC a
  | .qpop _ _ d a b | .qtry _ _ d a b => (match f with
    | .bundle => d.isVec
    | .thread => d.isGroup regs 8 8 8) && regC a && dst b
  | .tgld _ d a => dst d && src a
  | .tgst _ d a => src d && src a
  | .tlbinvVa a b => src a && src b
  | .tlbinvAsid b => src b
  | _ => false

/-- The pairs FCVT accepts (R129). -/
def fcvtPair (t2 t1 : Ty) : Bool :=
  t1 != t2 && (t1.isInt || t1.isFloat) && (t2.isInt || t2.isFloat) && (t1.isFp || t2.isFp)

/-- The pairs VCVT accepts (R145). -/
def vcvtPair (sat : Bool) (t2 t1 : Ty) : Bool :=
  t1 != t2 &&
  (if sat then t1.isInt && t2.isInt
   else (t1.isFloat && t2.isFloat) || (t1.isInt && t2.isFp) || (t1.isFp && t2.isInt) || (t1.isInt && t2.isInt))

/-- Check 0x0B: the op accepts its type code, SAT included (R67, R119, R129, R141 to R151). -/
def Instr.typesOk (i : Instr) : Bool :=
  match i with
  | .vadd v .. | .vsub v .. | .vmul v .. | .vshl v .. => v.ty.isInt
  | .vmulh v .. | .vmin v .. | .vmax v .. | .vand v .. | .vor v .. | .vxor v .. | .vshr v .. | .vsra v .. | .vcmp v ..
  | .vpcnt v .. | .viota v .. => v.ty.isInt && !v.sat
  | .vabs v .. => (v.ty.isInt || v.ty.isFp) && (!v.sat || v.ty.isSigned)
  | .vfadd v .. | .vfsub v .. | .vfmul v .. | .vfma v .. | .vfmin v .. | .vfmax v .. | .vfcmp v .. => v.ty.isFp && !v.sat
  | .vsel v .. | .vsplat v .. | .vext v .. | .vins v .. | .vperm v .. | .vslide v .. | .vzip v .. | .vunzip v .. | .vcprs v ..
  | .vmov v .. => !v.sat
  | .vcvt v t1 .. => vcvtPair v.sat v.ty t1
  | .vdot4 v .. => v.ty == .i8 || v.ty == .n8
  | .vaccrd v .. | .vaccwr v .. => (v.ty == .i32 || v.ty == .n32 || v.ty == .f32) && !v.sat
  | .rdadd v .. | .rdmax v .. | .rdmin v .. => v.ty.isInt || (v.ty.isFp && !v.sat)
  | .rdmov v .. => (v.ty == .i32 || v.ty == .n32 || v.ty == .i64 || v.ty == .n64 || v.ty == .f32) && !v.sat
  | .fcvt t2 t1 .. => fcvtPair t2 t1
  | _ => true

/-- The orders an op accepts (R268). -/
def ordIn (o : Ord) (l : List Ord) : Bool := l.contains o

/-- Check 0x0D on fields that have a value but no meaning (R58, R168, R268, R270, R275, R280, R287, R371, R372, R374). -/
def Instr.rangeOk (f : Form) (i : Instr) : Bool :=
  let local' (loc : Bool) (s : Scope) := !loc || s == .thread || s == .core
  match i with
  | .ld m .. => (!m.sx || m.size != 3) && (match f with
    | .bundle => m.scope == .thread && m.ord == .rlx
    | .thread => ordIn m.ord [.rlx, .acq])
  | .st m .. => !m.sx && (match f with
    | .bundle => m.scope == .thread && m.ord == .rlx
    | .thread => ordIn m.ord [.rlx, .rel])
  | .lds m .. => (!m.sx || m.size != 3) && m.scope == .thread && m.ord == .rlx
  | .sts m .. => !m.sx && m.scope == .thread && m.ord == .rlx
  | .mma _ cz _ _ _ _ ct => !cz || ct == 0
  | .accst _ first count1 .. | .accld _ first count1 .. => first.val + count1.val + 1 ≤ 32
  | .swait _ ord .. | .qpop _ ord .. | .qtry _ ord .. => ordIn ord [.rlx, .acq]
  | .qpush _ ord .. => ordIn ord [.rlx, .rel]
  | .fence _ ord => ordIn ord [.acq, .rel, .ar]
  | .aadd m .. | .amin m .. | .amax m .. | .aand m .. | .aor m .. | .axor m .. | .aswp m .. | .acas m .. => local' m.loc m.scope
  | .acas2 s _ loc .. | .afadd s _ loc .. => local' loc s
  | .cpym _ mask .. => f == .bundle || mask.toNat < 16
  | .jendBlk => f == .bundle
  | .semsig _ _ k rmt => if rmt then f == .bundle else k == 0
  | .barGroup _ | .barBlock _ => f == .thread
  | .barJob _ => f == .bundle
  | .frcp _ p _ _ | .frsq _ p _ _ | .fsqrt _ p _ _ | .fexp2 _ p _ _ | .flog2 _ p _ _ | .fsin _ p _ _ | .fcos _ p _ _
  | .ftanh _ p _ _ | .fsigm _ p _ _ | .flut _ p _ _ | .fdiv _ p _ _ _ => f == .bundle || p == 0
  | _ => true

/-- Check 0x1A: the semaphore lies in the group's run (R27). -/
def Instr.semOk (f : Form) (nsem : Nat) (i : Instr) : Bool :=
  match i with
  | .semsig n .. | .semwait n .. => f == .bundle || n.toNat < nsem
  | _ => true

/-- Check 0x11: SRD and SWR name a register of the form, and SWR one it may write (R30). -/
def Instr.sregUseOk (f : Form) (i : Instr) : Bool :=
  match i with
  | .srd _ n => sregOk f false n.toNat
  | .swr n _ => sregOk f true n.toNat
  | _ => true

/-- Is the hold bit set (R55)? -/
def Instr.held (i : Instr) : Bool :=
  match i with
  | .vnop h | .xnop h | .mnop h | .mma h .. | .accz h _ | .acccp h .. | .twb h .. | .twn h _ | .twe h _ | .fmaprd h .. | .frcp h ..
  | .frsq h .. | .fsqrt h .. | .fdiv h .. | .fexp2 h .. | .flog2 h .. | .fsin h .. | .fcos h .. | .ftanh h .. | .fsigm h ..
  | .flut h .. | .accst h .. | .accld h .. | .cpy h .. | .cpym h .. | .pref h .. => h
  | .ld m .. | .st m .. | .lds m .. | .sts m .. => m.h
  | .ldv v .. | .stv v .. | .ldvg v .. | .stvs v .. | .tld v .. | .tst v .. => v.h
  | .vadd v .. | .vsub v .. | .vmul v .. | .vmulh v .. | .vmin v .. | .vmax v .. | .vabs v .. | .vand v .. | .vor v .. | .vxor v ..
  | .vshl v .. | .vshr v .. | .vsra v .. | .vfadd v .. | .vfsub v .. | .vfmul v .. | .vfma v .. | .vfmin v .. | .vfmax v ..
  | .vcmp v .. | .vfcmp v .. | .vsel v .. | .vcvt v .. | .vsplat v .. | .vext v .. | .vins v .. | .vperm v .. | .vslide v ..
  | .vzip v .. | .vunzip v .. | .vcprs v .. | .vpcnt v .. | .viota v .. | .vdot4 v .. | .vaccrd v .. | .vaccwr v .. | .vmov v ..
  | .rdadd v .. | .rdmax v .. | .rdmin v .. | .rdmov v .. => v.h
  | _ => false

/-- A slot operation that passes every per-op check of R77 in the form, for a card with `regs` x registers and a group with `nsem`
semaphores. A held op exists in bundle form only (R76). -/
def WellFormed (f : Form) (regs nsem : Nat) (i : Instr) : Bool :=
  i.formOk f && (f == .bundle || !i.held) && i.typesOk && i.kindsOk f regs && i.rangeOk f && i.semOk f nsem && i.sregUseOk f

end Sys2Proof
end

