-- ==== Sys2Proof/Decode.lean ====
section
/-!
DEFINITION. Decoding and encoding of slot operations and thread words (spec/02_encoding.md R47 to R83, and the MOD layouts of
R60, R119, R122, R129 to R131, R139, R143, R145, R152, R168, R177, R183, R200, R267, R285, R321, R367, R406, R424), with the
per-op decode checks of R77. Total on every bit pattern; each refusal carries its check code.
-/
namespace Sys2Proof

/-- The fields of a slot op (R58). -/
structure RawOp where
  opc : Byte
  d : Byte
  a : Byte
  b : Byte
  mod : BitVec 12
  deriving DecidableEq, Repr

/-- The 44 bits of a slot op (R58). -/
def RawOp.toBits (r : RawOp) : Op44 := r.opc ++ (r.d ++ (r.a ++ (r.b ++ r.mod)))

/-- The fields of 44 bits (R58). -/
def RawOp.ofBits (w : Op44) : RawOp :=
  { opc := w.extractLsb' 36 8, d := w.extractLsb' 28 8, a := w.extractLsb' 20 8, b := w.extractLsb' 12 8, mod := w.extractLsb' 0 12 }

/-- Bits [hi:lo] of MOD. -/
def RawOp.m (r : RawOp) (hi lo : Nat) : Nat := bits r.mod.toNat hi lo

/-- A flag bit as a number. -/
def b2n (b : Bool) : Nat := if b then 1 else 0

/-- A number below a bound, reduced into Fin. -/
def fin (n x : Nat) (h : 0 < n := by decide) : Fin n := ⟨x % n, Nat.mod_lt _ h⟩

/-- The operand code of a field (R62): in bundle form 0x40-0x7F are v registers and 0x80-0x8F tiles; in thread form 0x40-0xDF are k
registers. Bundle codes 0x90-0xDF name nothing there; they are read as k registers, which no bundle field accepts. -/
def opdOf (f : Form) (c : Byte) : Opd :=
  let n := c.toNat
  if n < 64 then .sx (fin 64 n)
  else if 224 ≤ n then .imm (fin 32 (n - 224))
  else if f == .bundle && n < 128 then .vec (fin 64 (n - 64))
  else if f == .bundle && n < 144 then .acc (fin 16 (n - 128))
  else .kreg (fin 160 (n - 64))

/-- The operand code of an operand (R62). -/
def Opd.code : Opd → Byte
  | .sx n => BitVec.ofNat 8 n.val
  | .vec n => BitVec.ofNat 8 (64 + n.val)
  | .acc n => BitVec.ofNat 8 (128 + n.val)
  | .kreg n => BitVec.ofNat 8 (64 + n.val)
  | .imm c => BitVec.ofNat 8 (224 + c.val)

/-- TYPE of R67. -/
def Ty.code : Ty → Nat
  | .i8 => 0x00 | .i16 => 0x01 | .i32 => 0x02 | .i64 => 0x03 | .n8 => 0x04 | .n16 => 0x05 | .n32 => 0x06 | .n64 => 0x07
  | .f32 => 0x10 | .f16 => 0x11 | .bf16 => 0x12 | .e4m3 => 0x13 | .e5m2 => 0x14 | .e3m2 => 0x15 | .e2m3 => 0x16 | .e2m1 => 0x17
  | .m8 => 0x18 | .m6 => 0x19 | .e8m0 => 0x1A

/-- The type of a TYPE code; none for the illegal codes (R67). -/
def tyOf (n : Nat) : Option Ty :=
  match n with
  | 0x00 => some .i8 | 0x01 => some .i16 | 0x02 => some .i32 | 0x03 => some .i64 | 0x04 => some .n8 | 0x05 => some .n16
  | 0x06 => some .n32 | 0x07 => some .n64 | 0x10 => some .f32 | 0x11 => some .f16 | 0x12 => some .bf16 | 0x13 => some .e4m3
  | 0x14 => some .e5m2 | 0x15 => some .e3m2 | 0x16 => some .e2m3 | 0x17 => some .e2m1 | 0x18 => some .m8 | 0x19 => some .m6
  | 0x1A => some .e8m0 | _ => none

/-- W of R60. -/
def VW.code : VW → Nat
  | .w256 => 0 | .w512 => 1 | .w1024 => 2

/-- The width of a W code (R60, R267). -/
def vwOf (n : Nat) : Option VW :=
  match n with
  | 0 => some .w256 | 1 => some .w512 | 2 => some .w1024 | _ => none

/-- Scope codes (R233). -/
def Scope.code : Scope → Nat
  | .thread => 0 | .core => 1 | .cluster => 2 | .die => 3 | .device => 4 | .peer => 5 | .io => 6

/-- The scope of a code; 111 has none (R233). -/
def scopeOf (n : Nat) : Option Scope :=
  match n with
  | 0 => some .thread | 1 => some .core | 2 => some .cluster | 3 => some .die | 4 => some .device | 5 => some .peer
  | 6 => some .io | _ => none

/-- Order codes (R235). -/
def Ord.code : Ord → Nat
  | .rlx => 0 | .acq => 1 | .rel => 2 | .ar => 3

/-- The order of a two-bit code (R235). -/
def ordOf (n : Nat) : Ord :=
  match n with
  | 0 => .rlx | 1 => .acq | 2 => .rel | _ => .ar

/-- Scalar FP type codes (R119). -/
def FpTy.code : FpTy → Nat
  | .f32 => 0 | .f16 => 1 | .bf16 => 2

/-- The scalar FP type of a code; 11 has none (R119). -/
def fpOf (n : Nat) : Option FpTy :=
  match n with
  | 0 => some .f32 | 1 => some .f16 | 2 => some .bf16 | _ => none

/-- SEXT's type codes (R125). -/
def ExtTy.code : ExtTy → Nat
  | .i8 => 0 | .i16 => 1 | .i32 => 2 | .n8 => 4 | .n16 => 5 | .n32 => 6

/-- SEXT's type of a code; 011 and 111 have none (R125). -/
def extOf (n : Nat) : Option ExtTy :=
  match n with
  | 0 => some .i8 | 1 => some .i16 | 2 => some .i32 | 4 => some .n8 | 5 => some .n16 | 6 => some .n32 | _ => none

/-- FSGN's variant codes (R130). -/
def SgnMode.code : SgnMode → Nat
  | .j => 0 | .jn => 1 | .jx => 2 | .abs => 3

/-- FSGN's variant of a code (R130). -/
def sgnOf (n : Nat) : SgnMode :=
  match n with
  | 0 => .j | 1 => .jn | 2 => .jx | _ => .abs

/-- PSET's mode codes (R131). -/
def PsetMode.code : PsetMode → Nat
  | .all => 0 | .first => 1 | .bits => 2

/-- PSET's mode of a code; 11 has none (R131). -/
def psetOf (n : Nat) : Option PsetMode :=
  match n with
  | 0 => some .all | 1 => some .first | 2 => some .bits | _ => none

/-- PLOG's codes (R132). -/
def PlogOp.code : PlogOp → Nat
  | .and => 0 | .or => 1 | .xor => 2 | .andn => 3 | .orn => 4 | .not => 5

/-- PLOG's operation of a code; 110 and 111 have none (R132). -/
def plogOf (n : Nat) : Option PlogOp :=
  match n with
  | 0 => some .and | 1 => some .or | 2 => some .xor | 3 => some .andn | 4 => some .orn | 5 => some .not | _ => none

/-- Compare condition codes (R143). -/
def CmpC.code : CmpC → Nat
  | .eq => 0 | .ne => 1 | .lt => 2 | .le => 3 | .gt => 4 | .ge => 5 | .un => 6 | .or => 7

/-- The compare condition of a three-bit code (R143). -/
def cmpOf (n : Nat) : CmpC :=
  match n with
  | 0 => .eq | 1 => .ne | 2 => .lt | 3 => .le | 4 => .gt | 5 => .ge | 6 => .un | _ => .or

/-- CPY's direction codes (R279). -/
def CpyDir.code : CpyDir → Nat
  | .g2l => 0 | .l2g => 1 | .g2g => 2 | .l2l => 3

/-- CPY's direction of a code (R279). -/
def dirOf (n : Nat) : CpyDir :=
  match n with
  | 0 => .g2l | 1 => .l2g | 2 => .g2g | _ => .l2l

/-- MOD of a vector-class op (R60). -/
def VHdr.mod (v : VHdr) : Nat := b2n v.h * 2048 + v.w.code * 512 + v.p.val * 64 + b2n v.sat * 32 + v.ty.code

/-- MOD of LD, ST, LDS and STS (R267). -/
def MemMod.mod (m : MemMod) : Nat :=
  b2n m.h * 2048 + m.scope.code * 256 + m.ord.code * 64 + m.size.val * 16 + b2n m.sx * 8 + m.sh.val

/-- MOD bits [11:6] of a vector-layout memory op (R267): H, W and P. -/
def VMod.mod (v : VMod) : Nat := b2n v.h * 2048 + v.w.code * 512 + v.p.val * 64

/-- MOD of an atomic but ACAS2 and AFADD, without SGN (R285). -/
def AtMod.mod (m : AtMod) : Nat :=
  m.scope.code * 256 + m.ord.code * 64 + (if m.wide then 48 else 32) + b2n m.loc * 4

/-- MOD[11] and [8:6] of a special function (R152). -/
def sfMod (h : Bool) (p : Fin 8) : Nat := b2n h * 2048 + p.val * 64

/-- D of BRC and TRAP: the condition and its predicate number (R367, R424). -/
def Cond.d : Cond → Nat
  | .z _ => 0 | .nz _ => 1 | .lt _ => 2 | .ge _ => 3 | .p n => 4 + 8 * n.val | .np n => 5 + 8 * n.val

/-- A of BRC and TRAP: the register, or zero where a predicate is tested (R367, R424). -/
def Cond.a : Cond → Byte
  | .z a | .nz a | .lt a | .ge a => a.code
  | .p _ | .np _ => 0

/-- The condition of D and A (R368, R424); none for 110 and 111. -/
def condOf (d : Nat) (a : Opd) : Option Cond :=
  match d % 8 with
  | 0 => some (.z a) | 1 => some (.nz a) | 2 => some (.lt a) | 3 => some (.ge a)
  | 4 => some (.p (fin 8 (d / 8))) | 5 => some (.np (fin 8 (d / 8))) | _ => none

/-- AFADD's MOD[5:3]: SIZE and BF (R285). -/
def afCode : FpTy → Nat
  | .f32 => 32 | .f16 => 16 | .bf16 => 24

/-- AFADD's type of MOD[5:3]; any other value has none (R285). -/
def afOf (n : Nat) : Option FpTy :=
  match n with
  | 4 => some .f32 | 2 => some .f16 | 3 => some .bf16 | _ => none

/-- A slot op from its parts. -/
def mk (opc : Nat) (d a b : Byte) (mod : Nat) : Option RawOp := some ⟨BitVec.ofNat 8 opc, d, a, b, BitVec.ofNat 12 mod⟩

/-- The slot op of an operation, with every unused field zero (R58, R79); none for a device event, which has no encoding. -/
def encode (i : Instr) : Option RawOp :=
  match i with
  | .nop => mk 0x00 0 0 0 0
  | .add d a b => mk 0x01 d.code a.code b.code 0
  | .sub d a b => mk 0x02 d.code a.code b.code 0
  | .mul d a b => mk 0x05 d.code a.code b.code 0
  | .mulh d a b => mk 0x06 d.code a.code b.code 0
  | .mulhn d a b => mk 0x07 d.code a.code b.code 0
  | .div d a b => mk 0x08 d.code a.code b.code 0
  | .divn d a b => mk 0x09 d.code a.code b.code 0
  | .rem d a b => mk 0x0A d.code a.code b.code 0
  | .remn d a b => mk 0x0B d.code a.code b.code 0
  | .shl d a b => mk 0x12 d.code a.code b.code 0
  | .shr d a b => mk 0x13 d.code a.code b.code 0
  | .sra d a b => mk 0x14 d.code a.code b.code 0
  | .rol d a b => mk 0x18 d.code a.code b.code 0
  | .ror d a b => mk 0x19 d.code a.code b.code 0
  | .min d a b => mk 0x1A d.code a.code b.code 0
  | .max d a b => mk 0x1B d.code a.code b.code 0
  | .minn d a b => mk 0x1C d.code a.code b.code 0
  | .maxn d a b => mk 0x1D d.code a.code b.code 0
  | .seq d a b => mk 0x1E d.code a.code b.code 0
  | .sne d a b => mk 0x1F d.code a.code b.code 0
  | .slt d a b => mk 0x20 d.code a.code b.code 0
  | .sltn d a b => mk 0x21 d.code a.code b.code 0
  | .and d a b => mk 0x0C d.code a.code b.code 0
  | .or d a b => mk 0x0D d.code a.code b.code 0
  | .xor d a b => mk 0x0E d.code a.code b.code 0
  | .addi d a imm => mk 0x03 d.code a.code (imm.extractLsb' 12 8) (imm.toNat % 4096)
  | .lih d a imm => mk 0x04 d.code a.code (imm.extractLsb' 12 8) (imm.toNat % 4096)
  | .slti d a imm => mk 0x22 d.code a.code (imm.extractLsb' 12 8) (imm.toNat % 4096)
  | .andi d a imm => mk 0x0F d.code a.code 0 imm.toNat
  | .ori d a imm => mk 0x10 d.code a.code 0 imm.toNat
  | .xori d a imm => mk 0x11 d.code a.code 0 imm.toNat
  | .shli d a sh => mk 0x15 d.code a.code 0 sh.val
  | .shri d a sh => mk 0x16 d.code a.code 0 sh.val
  | .srai d a sh => mk 0x17 d.code a.code 0 sh.val
  | .sel d a b n inv => mk 0x23 d.code a.code b.code (n.val + b2n inv * 8)
  | .clz d a => mk 0x24 d.code a.code 0 0
  | .ctz d a => mk 0x25 d.code a.code 0 0
  | .popc d a => mk 0x26 d.code a.code 0 0
  | .bfx d a pos len1 => mk 0x27 d.code a.code 0 (pos.val + len1.val * 64)
  | .bfi d a pos len1 => mk 0x28 d.code a.code 0 (pos.val + len1.val * 64)
  | .sext d a t => mk 0x29 d.code a.code 0 t.code
  | .addsh d a b sh => mk 0x2A d.code a.code b.code sh.val
  | .fadd t d a b => mk 0x2B d.code a.code b.code t.code
  | .fsub t d a b => mk 0x2C d.code a.code b.code t.code
  | .fmul t d a b => mk 0x2D d.code a.code b.code t.code
  | .ffma t d a b => mk 0x2E d.code a.code b.code t.code
  | .fmin t d a b => mk 0x2F d.code a.code b.code t.code
  | .fmax t d a b => mk 0x30 d.code a.code b.code t.code
  | .feq t d a b => mk 0x31 d.code a.code b.code t.code
  | .flt t d a b => mk 0x32 d.code a.code b.code t.code
  | .fle t d a b => mk 0x33 d.code a.code b.code t.code
  | .fcvt t2 t1 d a => mk 0x34 d.code a.code 0 (t2.code + t1.code * 32)
  | .fsgn m t d a b => mk 0x35 d.code a.code (if m == .abs then 0 else b.code) (t.code + m.code * 4)
  | .fclass t d a => mk 0x36 d.code a.code 0 t.code
  | .pset m e pd a => mk 0x37 (BitVec.ofNat 8 pd.val) a.code 0 (e.val + m.code * 4)
  | .plog op pd pa pb => mk 0x38 (BitVec.ofNat 8 pd.val) (BitVec.ofNat 8 pa.val) (if op == .not then 0 else BitVec.ofNat 8 pb.val) op.code
  | .check a b => mk 0x39 0 a.code b.code 0
  | .srd d n => mk 0x3A d.code 0 0 n.toNat
  | .swr n a => mk 0x3B 0 a.code 0 n.toNat
  | .rngn d => mk 0x3C d.code 0 0 0
  | .rngf t d => mk 0x3D d.code 0 0 t.code
  | .rngj d (.reg a) => mk 0x3E d.code a.code 0 0
  | .rngj d (.imm k) => mk 0x3E d.code 0 0 (128 + k.val)
  | .vnop h => mk 0x40 0 0 0 (b2n h * 2048)
  | .vadd v d a b => mk 0x41 d.code a.code b.code v.mod
  | .vsub v d a b => mk 0x42 d.code a.code b.code v.mod
  | .vmul v d a b => mk 0x43 d.code a.code b.code v.mod
  | .vmulh v d a b => mk 0x44 d.code a.code b.code v.mod
  | .vmin v d a b => mk 0x45 d.code a.code b.code v.mod
  | .vmax v d a b => mk 0x46 d.code a.code b.code v.mod
  | .vand v d a b => mk 0x48 d.code a.code b.code v.mod
  | .vor v d a b => mk 0x49 d.code a.code b.code v.mod
  | .vxor v d a b => mk 0x4A d.code a.code b.code v.mod
  | .vshl v d a b => mk 0x4B d.code a.code b.code v.mod
  | .vshr v d a b => mk 0x4C d.code a.code b.code v.mod
  | .vsra v d a b => mk 0x4D d.code a.code b.code v.mod
  | .vfadd v d a b => mk 0x4E d.code a.code b.code v.mod
  | .vfsub v d a b => mk 0x4F d.code a.code b.code v.mod
  | .vfmul v d a b => mk 0x50 d.code a.code b.code v.mod
  | .vfma v d a b => mk 0x51 d.code a.code b.code v.mod
  | .vfmin v d a b => mk 0x52 d.code a.code b.code v.mod
  | .vfmax v d a b => mk 0x53 d.code a.code b.code v.mod
  | .vsel v d a b => mk 0x56 d.code a.code b.code v.mod
  | .vext v d a b => mk 0x59 d.code a.code b.code v.mod
  | .vins v d a b => mk 0x5A d.code a.code b.code v.mod
  | .vperm v d a b => mk 0x5B d.code a.code b.code v.mod
  | .vslide v d a b => mk 0x5C d.code a.code b.code v.mod
  | .vzip v d a b => mk 0x5D d.code a.code b.code v.mod
  | .vunzip v d a b => mk 0x5E d.code a.code b.code v.mod
  | .vdot4 v d a b => mk 0x62 d.code a.code b.code v.mod
  | .vaccrd v d a b => mk 0x63 d.code a.code b.code v.mod
  | .vaccwr v d a b => mk 0x64 d.code a.code b.code v.mod
  | .vabs v d a => mk 0x47 d.code a.code 0 v.mod
  | .vsplat v d a => mk 0x58 d.code a.code 0 v.mod
  | .vcprs v d a => mk 0x5F d.code a.code 0 v.mod
  | .vpcnt v d a => mk 0x60 d.code a.code 0 v.mod
  | .vmov v d a => mk 0x65 d.code a.code 0 v.mod
  | .vcmp v c pd a b => mk 0x54 (BitVec.ofNat 8 (pd.val + c.code * 8)) a.code b.code v.mod
  | .vfcmp v c pd a b => mk 0x55 (BitVec.ofNat 8 (pd.val + c.code * 8)) a.code b.code v.mod
  | .vcvt v t1 d a => mk 0x57 d.code a.code (BitVec.ofNat 8 t1.code) v.mod
  | .viota v d => mk 0x61 d.code 0 0 v.mod
  | .rdadd v ps a => mk 0x66 (BitVec.ofNat 8 ps.val) a.code 0 v.mod
  | .rdmax v ps a => mk 0x67 (BitVec.ofNat 8 ps.val) a.code 0 v.mod
  | .rdmin v ps a => mk 0x68 (BitVec.ofNat 8 ps.val) a.code 0 v.mod
  | .rdmov v d ps => mk 0x69 d.code (BitVec.ofNat 8 ps.val) 0 v.mod
  | .xnop h => mk 0x80 0 0 0 (b2n h * 2048)
  | .mma h cz sat d a b ct => mk 0x81 d.code a.code b.code (b2n h * 2048 + b2n cz * 1024 + ct.val * 64 + b2n sat * 32)
  | .accz h d => mk 0x82 d.code 0 0 (b2n h * 2048)
  | .acccp h tr d a => mk 0x83 d.code a.code 0 (b2n h * 2048 + b2n tr)
  | .setfmt a => mk 0x84 0 a.code 0 0
  | .twb h d a => mk 0x85 d.code a.code 0 (b2n h * 2048)
  | .twn h d => mk 0x86 d.code 0 0 (b2n h * 2048)
  | .twe h d => mk 0x87 d.code 0 0 (b2n h * 2048)
  | .mstestQuick d => mk 0x88 d.code 0 0 0
  | .mstestFull d => mk 0x88 d.code 0 0 1
  | .fmaprd h d n => mk 0x89 d.code 0 0 (b2n h * 2048 + n.val)
  | .frcp h p d a => mk 0x8A d.code a.code 0 (sfMod h p)
  | .frsq h p d a => mk 0x8B d.code a.code 0 (sfMod h p)
  | .fsqrt h p d a => mk 0x8C d.code a.code 0 (sfMod h p)
  | .fexp2 h p d a => mk 0x8E d.code a.code 0 (sfMod h p)
  | .flog2 h p d a => mk 0x8F d.code a.code 0 (sfMod h p)
  | .fsin h p d a => mk 0x90 d.code a.code 0 (sfMod h p)
  | .fcos h p d a => mk 0x91 d.code a.code 0 (sfMod h p)
  | .ftanh h p d a => mk 0x92 d.code a.code 0 (sfMod h p)
  | .fsigm h p d a => mk 0x93 d.code a.code 0 (sfMod h p)
  | .flut h p d a => mk 0x94 d.code a.code 0 (sfMod h p)
  | .fdiv h p d a b => mk 0x8D d.code a.code b.code (sfMod h p)
  | .lutld d a n => mk 0x95 d.code a.code 0 n.val
  | .lutsel n => mk 0x96 0 0 0 n.val
  | .br base off => mk 0x97 (if base.isSome then 1 else 0) ((base.map Opd.code).getD 0) (off.extractLsb' 11 8) (off.toNat % 2048)
  | .call base off => mk 0x99 (if base.isSome then 1 else 0) ((base.map Opd.code).getD 0) (off.extractLsb' 11 8) (off.toNat % 2048)
  | .brc c off => mk 0x98 (BitVec.ofNat 8 c.d) c.a (off.extractLsb' 11 8) (off.toNat % 2048)
  | .ret a => mk 0x9A 0 a.code 0 0
  | .mark id n => mk 0x9B id 0 (n.extractLsb' 11 8) (n.toNat % 2048)
  | .trcev code a => mk 0x9C 0 a.code 0 code.toNat
  | .trcevFull code a b => mk 0x9C 0 a.code b.code (1024 + code.toNat)
  | .leave a n => mk 0x9D 0 a.code 0 n.toNat
  | .launch a => mk 0x9E 0 a.code 0 0
  | .jend => mk 0x9F 0 0 0 0
  | .jendBlk => mk 0x9F 0 0 0 1
  | .semsig n a k rmt => mk 0xA0 n a.code 0 (k.val * 256 + b2n rmt * 128)
  | .semwait n a => mk 0xA1 n a.code 0 0
  | .yield => mk 0xA2 0 0 0 0
  | .barGroup id => mk 0xA3 0 0 0 id.val
  | .barBlock id => mk 0xA3 0 0 0 (16 + id.val)
  | .barJob id => mk 0xA3 0 0 0 (32 + id.val)
  | .trap (.cond c) code => mk 0xA4 (BitVec.ofNat 8 c.d) c.a 0 code.toNat
  | .trap .always code => mk 0xA4 6 0 0 code.toNat
  | .tret => mk 0xA5 0 0 0 0
  | .svc code => mk 0xA6 0 0 0 code.toNat
  | .bkpt code => mk 0xA7 0 0 0 code.toNat
  | .rayqRay q hd fast nohint opq => mk 0xA8 0 q.code hd.code (b2n fast * 512 + b2n nohint * 256 + b2n opq * 128)
  | .rayqSph rr q hd fast nohint opq => mk 0xA8 rr.code q.code hd.code (1024 + b2n fast * 512 + b2n nohint * 256 + b2n opq * 128)
  | .rayw d => mk 0xA9 d.code 0 0 0
  | .rayahIgnore => mk 0xAA 0 0 0 0
  | .rayahAccept => mk 0xAA 0 0 0 1
  | .hintinv a => mk 0xAB 0 a.code 0 0
  | .hintinvAll => mk 0xAB 0 0 0 1
  | .isamp d a b => mk 0xAC d.code a.code b.code 0
  | .cmsamp d a b => mk 0xAD d.code a.code b.code 0
  | .cmseg d a b => mk 0xAE d.code a.code b.code 0
  | .mnop h => mk 0xC0 0 0 0 (b2n h * 2048)
  | .ld m d a b => mk 0xC1 d.code a.code b.code m.mod
  | .st m d a b => mk 0xC2 d.code a.code b.code m.mod
  | .lds m d a b => mk 0xC3 d.code a.code b.code m.mod
  | .sts m d a b => mk 0xC4 d.code a.code b.code m.mod
  | .ldv v d a b => mk 0xC5 d.code a.code b.code v.mod
  | .stv v d a b => mk 0xC6 d.code a.code b.code v.mod
  | .ldvg v e8 sh d a b => mk 0xC7 d.code a.code b.code (v.mod + b2n e8 * 32 + sh.val * 8)
  | .stvs v e8 sh d a b => mk 0xC8 d.code a.code b.code (v.mod + b2n e8 * 32 + sh.val * 8)
  | .tld v rows d a b => mk 0xC9 d.code a.code b.code (v.mod + rows.val * 16)
  | .tst v rows d a b => mk 0xCA d.code a.code b.code (v.mod + rows.val * 16)
  | .accst h first count1 a b => mk 0xCB 0 a.code b.code (b2n h * 2048 + first.val * 64 + count1.val)
  | .accld h first count1 d a => mk 0xCC d.code a.code 0 (b2n h * 2048 + first.val * 64 + count1.val)
  | .blkld d a n1 => mk 0xCD d.code a.code 0 n1.val
  | .blkrel a => mk 0xCE 0 a.code 0 0
  | .cpy h dir d a b => mk 0xCF d.code a.code b.code (b2n h * 2048 + dir.code * 512)
  | .cpym h mask d a b => mk 0xD0 d.code a.code b.code (b2n h * 2048 + mask.toNat)
  | .syncset a b => mk 0xD1 0 a.code b.code 0
  | .swait s o d a b => mk 0xD2 d.code a.code b.code (s.code * 256 + o.code * 64)
  | .aadd m d a b => mk 0xD3 d.code a.code b.code m.mod
  | .aand m d a b => mk 0xD6 d.code a.code b.code m.mod
  | .aor m d a b => mk 0xD7 d.code a.code b.code m.mod
  | .axor m d a b => mk 0xD8 d.code a.code b.code m.mod
  | .aswp m d a b => mk 0xD9 d.code a.code b.code m.mod
  | .acas m d a b => mk 0xDA d.code a.code b.code m.mod
  | .amin m sgn d a b => mk 0xD4 d.code a.code b.code (m.mod + b2n sgn * 8)
  | .amax m sgn d a b => mk 0xD5 d.code a.code b.code (m.mod + b2n sgn * 8)
  | .acas2 s o loc d a b => mk 0xDB d.code a.code b.code (s.code * 256 + o.code * 64 + b2n loc * 4)
  | .afadd s o loc t d a b => mk 0xDC d.code a.code b.code (s.code * 256 + o.code * 64 + b2n loc * 4 + afCode t)
  | .fence s o => mk 0xDD 0 0 0 (s.code * 256 + o.code * 64)
  | .drain s => mk 0xDE 0 0 0 (s.code * 256)
  | .clean a b => mk 0xDF 0 a.code b.code 0
  | .inv a b => mk 0xE0 0 a.code b.code 0
  | .qpush s o d a => mk 0xE1 d.code a.code 0 (s.code * 256 + o.code * 64)
  | .qpop s o d a b => mk 0xE2 d.code a.code b.code (s.code * 256 + o.code * 64)
  | .qtry s o d a b => mk 0xE3 d.code a.code b.code (s.code * 256 + o.code * 64)
  | .tgld x16 d a => mk 0xE4 d.code a.code 0 (b2n x16)
  | .tgst x16 d a => mk 0xE5 d.code a.code 0 (b2n x16)
  | .pref h l2 a b => mk 0xE6 0 a.code b.code (b2n h * 2048 + b2n l2)
  | .tlbinvVa a b => mk 0xE7 0 a.code b.code 0
  | .tlbinvAsid b => mk 0xE7 0 0 b.code 1
  | .tlbinvAll => mk 0xE7 0 0 0 2
  | _ => none

/-- A parsed operation with the checks of R77 that its field codes fail; a failing field is read as some value of its kind. -/
abbrev Parsed := Instr × List Nat

/-- An operation none of whose field codes is without meaning. -/
def ok (i : Instr) : Parsed := (i, [])

/-- A field code that may have no meaning: where it has none, the check fails. -/
def need {α : Type} (chk : Nat) (x : Option α) (dflt : α) (k : α → Parsed) : Parsed :=
  match x with
  | some v => k v
  | none => let p := k dflt; (p.1, chk :: p.2)

/-- A register-number field whose bits from the bound up must be zero (check 0x0C). -/
def low (bound n : Nat) (p : Parsed) : Parsed := if n < bound then p else (p.1, 0x0C :: p.2)

/-- A field that must be zero under a check of its own. -/
def zero (chk : Nat) (c : Byte) (p : Parsed) : Parsed := if c == 0 then p else (p.1, chk :: p.2)

/-- The operation that a slot op's fields name in a form, or none where the opcode is unassigned (R79, R81). -/
def parse (f : Form) (r : RawOp) : Option Parsed :=
  let d := opdOf f r.d
  let a := opdOf f r.a
  let b := opdOf f r.b
  let dn := r.d.toNat
  let an := r.a.toNat
  let bn := r.b.toNat
  let h := bit r.mod.toNat 11
  let p := fin 8 (r.m 8 6)
  let i19 : BitVec 19 := r.b ++ r.mod.extractLsb' 0 11
  let fp (k : FpTy → Parsed) := need 0x0B (fpOf (r.m 1 0)) .f32 k
  let sc (k : Scope → Parsed) := need 0x0D (scopeOf (r.m 10 8)) .thread k
  let vh (k : VHdr → Parsed) := need 0x09 (vwOf (r.m 10 9)) .w256 fun w =>
    need 0x0B (tyOf (r.m 4 0)) .i8 fun t => k ⟨h, w, p, bit r.mod.toNat 5, t⟩
  let vm (k : VMod → Parsed) := need 0x0D (vwOf (r.m 10 9)) .w256 fun w => k ⟨h, w, p⟩
  let at' (k : AtMod → Parsed) := sc fun s =>
    need 0x0D (if r.m 5 4 = 2 then some false else if r.m 5 4 = 3 then some true else none) false fun w =>
      k ⟨s, ordOf (r.m 7 6), w, bit r.mod.toNat 2⟩
  (match r.opc.toNat with
  | 0x00 => some <| ok .nop
  | 0x01 => some <| ok (.add d a b)
  | 0x02 => some <| ok (.sub d a b)
  | 0x05 => some <| ok (.mul d a b)
  | 0x06 => some <| ok (.mulh d a b)
  | 0x07 => some <| ok (.mulhn d a b)
  | 0x08 => some <| ok (.div d a b)
  | 0x09 => some <| ok (.divn d a b)
  | 0x0A => some <| ok (.rem d a b)
  | 0x0B => some <| ok (.remn d a b)
  | 0x12 => some <| ok (.shl d a b)
  | 0x13 => some <| ok (.shr d a b)
  | 0x14 => some <| ok (.sra d a b)
  | 0x18 => some <| ok (.rol d a b)
  | 0x19 => some <| ok (.ror d a b)
  | 0x1A => some <| ok (.min d a b)
  | 0x1B => some <| ok (.max d a b)
  | 0x1C => some <| ok (.minn d a b)
  | 0x1D => some <| ok (.maxn d a b)
  | 0x1E => some <| ok (.seq d a b)
  | 0x1F => some <| ok (.sne d a b)
  | 0x20 => some <| ok (.slt d a b)
  | 0x21 => some <| ok (.sltn d a b)
  | 0x0C => some <| ok (.and d a b)
  | 0x0D => some <| ok (.or d a b)
  | 0x0E => some <| ok (.xor d a b)
  | 0x03 => some <| ok (.addi d a (r.b ++ r.mod))
  | 0x04 => some <| ok (.lih d a (r.b ++ r.mod))
  | 0x22 => some <| ok (.slti d a (r.b ++ r.mod))
  | 0x0F => some <| ok (.andi d a r.mod)
  | 0x10 => some <| ok (.ori d a r.mod)
  | 0x11 => some <| ok (.xori d a r.mod)
  | 0x15 => some <| ok (.shli d a (fin 64 (r.m 5 0)))
  | 0x16 => some <| ok (.shri d a (fin 64 (r.m 5 0)))
  | 0x17 => some <| ok (.srai d a (fin 64 (r.m 5 0)))
  | 0x23 => some <| ok (.sel d a b (fin 8 (r.m 2 0)) (bit r.mod.toNat 3))
  | 0x24 => some <| ok (.clz d a)
  | 0x25 => some <| ok (.ctz d a)
  | 0x26 => some <| ok (.popc d a)
  | 0x27 => some <| ok (.bfx d a (fin 64 (r.m 5 0)) (fin 64 (r.m 11 6)))
  | 0x28 => some <| ok (.bfi d a (fin 64 (r.m 5 0)) (fin 64 (r.m 11 6)))
  | 0x29 => some <| need 0x0D (extOf (r.m 2 0)) .i8 fun t => ok (.sext d a t)
  | 0x2A => some <| ok (.addsh d a b (fin 8 (r.m 2 0)))
  | 0x2B => some <| fp fun t => ok (.fadd t d a b)
  | 0x2C => some <| fp fun t => ok (.fsub t d a b)
  | 0x2D => some <| fp fun t => ok (.fmul t d a b)
  | 0x2E => some <| fp fun t => ok (.ffma t d a b)
  | 0x2F => some <| fp fun t => ok (.fmin t d a b)
  | 0x30 => some <| fp fun t => ok (.fmax t d a b)
  | 0x31 => some <| fp fun t => ok (.feq t d a b)
  | 0x32 => some <| fp fun t => ok (.flt t d a b)
  | 0x33 => some <| fp fun t => ok (.fle t d a b)
  | 0x34 => some <| need 0x0B (tyOf (r.m 4 0)) .i8 fun t2 => need 0x0B (tyOf (r.m 9 5)) .i8 fun t1 => ok (.fcvt t2 t1 d a)
  | 0x35 => some <| fp fun t => ok (.fsgn (sgnOf (r.m 3 2)) t d a (if sgnOf (r.m 3 2) == .abs then .sx 0 else b))
  | 0x36 => some <| fp fun t => ok (.fclass t d a)
  | 0x37 => some <| low 8 dn <| need 0x0D (psetOf (r.m 3 2)) .all fun m => ok (.pset m (fin 4 (r.m 1 0)) (fin 8 dn) a)
  | 0x38 => some <| low 8 dn <| low 8 an <| need 0x0D (plogOf (r.m 2 0)) .and fun op => if op == .not then ok (.plog op (fin 8 dn) (fin 8 an) 0) else low 8 bn <| ok (.plog op (fin 8 dn) (fin 8 an) (fin 8 bn))
  | 0x39 => some <| ok (.check a b)
  | 0x3A => some <| ok (.srd d r.mod)
  | 0x3B => some <| ok (.swr r.mod a)
  | 0x3C => some <| ok (.rngn d)
  | 0x3D => some <| fp fun t => ok (.rngf t d)
  | 0x3E => some <| ok (.rngj d (if bit r.mod.toNat 7 then .imm (fin 128 (r.m 6 0)) else .reg a))
  | 0x40 => some <| ok (.vnop (bit r.mod.toNat 11))
  | 0x41 => some <| vh fun v => ok (.vadd v d a b)
  | 0x42 => some <| vh fun v => ok (.vsub v d a b)
  | 0x43 => some <| vh fun v => ok (.vmul v d a b)
  | 0x44 => some <| vh fun v => ok (.vmulh v d a b)
  | 0x45 => some <| vh fun v => ok (.vmin v d a b)
  | 0x46 => some <| vh fun v => ok (.vmax v d a b)
  | 0x48 => some <| vh fun v => ok (.vand v d a b)
  | 0x49 => some <| vh fun v => ok (.vor v d a b)
  | 0x4A => some <| vh fun v => ok (.vxor v d a b)
  | 0x4B => some <| vh fun v => ok (.vshl v d a b)
  | 0x4C => some <| vh fun v => ok (.vshr v d a b)
  | 0x4D => some <| vh fun v => ok (.vsra v d a b)
  | 0x4E => some <| vh fun v => ok (.vfadd v d a b)
  | 0x4F => some <| vh fun v => ok (.vfsub v d a b)
  | 0x50 => some <| vh fun v => ok (.vfmul v d a b)
  | 0x51 => some <| vh fun v => ok (.vfma v d a b)
  | 0x52 => some <| vh fun v => ok (.vfmin v d a b)
  | 0x53 => some <| vh fun v => ok (.vfmax v d a b)
  | 0x56 => some <| vh fun v => ok (.vsel v d a b)
  | 0x59 => some <| vh fun v => ok (.vext v d a b)
  | 0x5A => some <| vh fun v => ok (.vins v d a b)
  | 0x5B => some <| vh fun v => ok (.vperm v d a b)
  | 0x5C => some <| vh fun v => ok (.vslide v d a b)
  | 0x5D => some <| vh fun v => ok (.vzip v d a b)
  | 0x5E => some <| vh fun v => ok (.vunzip v d a b)
  | 0x62 => some <| vh fun v => ok (.vdot4 v d a b)
  | 0x63 => some <| vh fun v => ok (.vaccrd v d a b)
  | 0x64 => some <| vh fun v => ok (.vaccwr v d a b)
  | 0x47 => some <| vh fun v => ok (.vabs v d a)
  | 0x58 => some <| vh fun v => ok (.vsplat v d a)
  | 0x5F => some <| vh fun v => ok (.vcprs v d a)
  | 0x60 => some <| vh fun v => ok (.vpcnt v d a)
  | 0x65 => some <| vh fun v => ok (.vmov v d a)
  | 0x54 => some <| low 64 dn <| vh fun v => ok (.vcmp v (cmpOf (dn / 8 % 8)) (fin 8 dn) a b)
  | 0x55 => some <| low 64 dn <| vh fun v => ok (.vfcmp v (cmpOf (dn / 8 % 8)) (fin 8 dn) a b)
  | 0x57 => some <| low 32 bn <| vh fun v => need 0x0B (tyOf (bn % 32)) .i8 fun t1 => ok (.vcvt v t1 d a)
  | 0x61 => some <| vh fun v => ok (.viota v d)
  | 0x66 => some <| low 4 dn <| vh fun v => ok (.rdadd v (fin 4 dn) a)
  | 0x67 => some <| low 4 dn <| vh fun v => ok (.rdmax v (fin 4 dn) a)
  | 0x68 => some <| low 4 dn <| vh fun v => ok (.rdmin v (fin 4 dn) a)
  | 0x69 => some <| low 4 an <| vh fun v => ok (.rdmov v d (fin 4 an))
  | 0x80 => some <| ok (.xnop h)
  | 0x81 => some <| ok (.mma h (bit r.mod.toNat 10) (bit r.mod.toNat 5) d a b (fin 16 (r.m 9 6)))
  | 0x82 => some <| ok (.accz h d)
  | 0x83 => some <| ok (.acccp h (bit r.mod.toNat 0) d a)
  | 0x84 => some <| ok (.setfmt a)
  | 0x85 => some <| ok (.twb h d a)
  | 0x86 => some <| ok (.twn h d)
  | 0x87 => some <| ok (.twe h d)
  | 0x88 => some <| ok (if bit r.mod.toNat 0 then .mstestFull d else .mstestQuick d)
  | 0x89 => some <| ok (.fmaprd h d (fin 4 (r.m 1 0)))
  | 0x8A => some <| ok (.frcp h p d a)
  | 0x8B => some <| ok (.frsq h p d a)
  | 0x8C => some <| ok (.fsqrt h p d a)
  | 0x8E => some <| ok (.fexp2 h p d a)
  | 0x8F => some <| ok (.flog2 h p d a)
  | 0x90 => some <| ok (.fsin h p d a)
  | 0x91 => some <| ok (.fcos h p d a)
  | 0x92 => some <| ok (.ftanh h p d a)
  | 0x93 => some <| ok (.fsigm h p d a)
  | 0x94 => some <| ok (.flut h p d a)
  | 0x8D => some <| ok (.fdiv h p d a b)
  | 0x95 => some <| ok (.lutld d a (fin 4 (r.m 1 0)))
  | 0x96 => some <| ok (.lutsel (fin 4 (r.m 1 0)))
  | 0x97 => some <| ok (.br (if bit dn 0 then some a else none) i19)
  | 0x99 => some <| ok (.call (if bit dn 0 then some a else none) i19)
  | 0x98 => some <| need 0x0D (condOf dn a) (.p 0) fun c => ok (.brc c i19)
  | 0x9A => some <| ok (.ret a)
  | 0x9B => some <| zero 0x0C r.a <| ok (.mark r.d i19)
  | 0x9C => some <| zero 0x0C r.d <| if bit r.mod.toNat 10 then ok (.trcevFull (BitVec.ofNat 8 (r.m 7 0)) a b) else zero 0x0C r.b <| ok (.trcev (BitVec.ofNat 8 (r.m 7 0)) a)
  | 0x9D => some <| ok (.leave a (BitVec.ofNat 11 (r.m 10 0)))
  | 0x9E => some <| ok (.launch a)
  | 0x9F => some <| ok (if bit r.mod.toNat 0 then .jendBlk else .jend)
  | 0xA0 => some <| ok (.semsig r.d a (fin 8 (r.m 10 8)) (bit r.mod.toNat 7))
  | 0xA1 => some <| ok (.semwait r.d a)
  | 0xA2 => some <| ok .yield
  | 0xA3 => some <| match r.m 5 4 with
    | 0 => ok (.barGroup (fin 16 (r.m 3 0)))
    | 1 => ok (.barBlock (fin 16 (r.m 3 0)))
    | 2 => ok (.barJob (fin 16 (r.m 3 0)))
    | _ => (.barGroup 0, [0x0D])
  | 0xA4 => some <| if dn % 8 == 6 then ok (.trap .always (BitVec.ofNat 11 (r.m 10 0))) else need 0x0D (condOf dn a) (.p 0) fun c => ok (.trap (.cond c) (BitVec.ofNat 11 (r.m 10 0)))
  | 0xA5 => some <| ok .tret
  | 0xA6 => some <| ok (.svc (BitVec.ofNat 11 (r.m 10 0)))
  | 0xA7 => some <| ok (.bkpt (BitVec.ofNat 11 (r.m 10 0)))
  | 0xA8 => some <| if bit r.mod.toNat 10 then ok (.rayqSph d a b (bit r.mod.toNat 9) (bit r.mod.toNat 8) (bit r.mod.toNat 7)) else zero 0x0C r.d <| ok (.rayqRay a b (bit r.mod.toNat 9) (bit r.mod.toNat 8) (bit r.mod.toNat 7))
  | 0xA9 => some <| ok (.rayw d)
  | 0xAA => some <| ok (if bit r.mod.toNat 0 then .rayahAccept else .rayahIgnore)
  | 0xAB => some <| ok (if bit r.mod.toNat 0 then .hintinvAll else .hintinv a)
  | 0xAC => some <| ok (.isamp d a b)
  | 0xAD => some <| ok (.cmsamp d a b)
  | 0xAE => some <| ok (.cmseg d a b)
  | 0xC0 => some <| ok (.mnop h)
  | 0xC1 => some <| sc fun s => ok (.ld ⟨h, s, ordOf (r.m 7 6), fin 4 (r.m 5 4), bit r.mod.toNat 3, fin 8 (r.m 2 0)⟩ d a b)
  | 0xC2 => some <| sc fun s => ok (.st ⟨h, s, ordOf (r.m 7 6), fin 4 (r.m 5 4), bit r.mod.toNat 3, fin 8 (r.m 2 0)⟩ d a b)
  | 0xC3 => some <| sc fun s => ok (.lds ⟨h, s, ordOf (r.m 7 6), fin 4 (r.m 5 4), bit r.mod.toNat 3, fin 8 (r.m 2 0)⟩ d a b)
  | 0xC4 => some <| sc fun s => ok (.sts ⟨h, s, ordOf (r.m 7 6), fin 4 (r.m 5 4), bit r.mod.toNat 3, fin 8 (r.m 2 0)⟩ d a b)
  | 0xC5 => some <| vm fun v => ok (.ldv v d a b)
  | 0xC6 => some <| vm fun v => ok (.stv v d a b)
  | 0xC7 => some <| vm fun v => ok (.ldvg v (bit r.mod.toNat 5) (fin 4 (r.m 4 3)) d a b)
  | 0xC8 => some <| vm fun v => ok (.stvs v (bit r.mod.toNat 5) (fin 4 (r.m 4 3)) d a b)
  | 0xC9 => some <| vm fun v => ok (.tld v (fin 4 (r.m 5 4)) d a b)
  | 0xCA => some <| vm fun v => ok (.tst v (fin 4 (r.m 5 4)) d a b)
  | 0xCB => some <| ok (.accst h (fin 32 (r.m 10 6)) (fin 32 (r.m 4 0)) a b)
  | 0xCC => some <| ok (.accld h (fin 32 (r.m 10 6)) (fin 32 (r.m 4 0)) d a)
  | 0xCD => some <| ok (.blkld d a (fin 64 (r.m 5 0)))
  | 0xCE => some <| ok (.blkrel a)
  | 0xCF => some <| ok (.cpy h (dirOf (r.m 10 9)) d a b)
  | 0xD0 => some <| ok (.cpym h (BitVec.ofNat 8 (r.m 7 0)) d a b)
  | 0xD1 => some <| ok (.syncset a b)
  | 0xD2 => some <| sc fun s => ok (.swait s (ordOf (r.m 7 6)) d a b)
  | 0xD3 => some <| at' fun m => ok (.aadd m d a b)
  | 0xD6 => some <| at' fun m => ok (.aand m d a b)
  | 0xD7 => some <| at' fun m => ok (.aor m d a b)
  | 0xD8 => some <| at' fun m => ok (.axor m d a b)
  | 0xD9 => some <| at' fun m => ok (.aswp m d a b)
  | 0xDA => some <| at' fun m => ok (.acas m d a b)
  | 0xD4 => some <| at' fun m => ok (.amin m (bit r.mod.toNat 3) d a b)
  | 0xD5 => some <| at' fun m => ok (.amax m (bit r.mod.toNat 3) d a b)
  | 0xDB => some <| sc fun s => ok (.acas2 s (ordOf (r.m 7 6)) (bit r.mod.toNat 2) d a b)
  | 0xDC => some <| sc fun s => need 0x0D (afOf (r.m 5 3)) .f32 fun t => ok (.afadd s (ordOf (r.m 7 6)) (bit r.mod.toNat 2) t d a b)
  | 0xDD => some <| sc fun s => ok (.fence s (ordOf (r.m 7 6)))
  | 0xDE => some <| sc fun s => ok (.drain s)
  | 0xDF => some <| ok (.clean a b)
  | 0xE0 => some <| ok (.inv a b)
  | 0xE1 => some <| sc fun s => ok (.qpush s (ordOf (r.m 7 6)) d a)
  | 0xE2 => some <| sc fun s => ok (.qpop s (ordOf (r.m 7 6)) d a b)
  | 0xE3 => some <| sc fun s => ok (.qtry s (ordOf (r.m 7 6)) d a b)
  | 0xE4 => some <| ok (.tgld (bit r.mod.toNat 0) d a)
  | 0xE5 => some <| ok (.tgst (bit r.mod.toNat 0) d a)
  | 0xE6 => some <| ok (.pref h (bit r.mod.toNat 0) a b)
  | 0xE7 => some <| match r.m 1 0 with
    | 0 => ok (.tlbinvVa a b)
    | 1 => ok (.tlbinvAsid b)
    | 2 => ok .tlbinvAll
    | _ => (.tlbinvAll, [0x0D])
  | _ => none : Option Parsed)

/-- The classes of bundle slot (R47): the opcode's two high bits. -/
def slotClass (slot : Nat) : Nat := if slot < 2 then 0 else if slot < 5 then 1 else if slot = 5 then 2 else 3

/-- The bundle slots an operation of its class may use (R80): the reduction ops only V2, and the ops of R47 only M0. -/
def Instr.slotOk (i : Instr) (slot : Nat) : Bool :=
  match i with
  | .rdadd .. | .rdmax .. | .rdmin .. | .rdmov .. => slot == 4
  | .aadd .. | .amin .. | .amax .. | .aand .. | .aor .. | .axor .. | .aswp .. | .acas .. | .acas2 .. | .afadd .. | .fence ..
  | .drain .. | .qpush .. | .qpop .. | .qtry .. | .tlbinvVa .. | .tlbinvAsid .. | .tlbinvAll => slot == 6
  | _ => true

/-- The operations that may be held: the H column of R80. -/
def Instr.holdOk (i : Instr) : Bool :=
  match i with
  | .setfmt _ | .mstestQuick _ | .mstestFull _ | .lutld .. | .lutsel _ | .br .. | .brc .. | .call .. | .ret _ | .mark .. | .trcev ..
  | .trcevFull .. | .leave .. | .launch _ | .jend | .jendBlk | .semsig .. | .semwait .. | .yield | .barGroup _ | .barBlock _
  | .barJob _ | .trap .. | .tret | .svc _ | .bkpt _ | .rayqRay .. | .rayqSph .. | .rayw _ | .rayahIgnore | .rayahAccept | .hintinv _
  | .hintinvAll | .isamp .. | .cmsamp .. | .cmseg .. | .blkld .. | .blkrel _ | .syncset .. | .swait .. | .aadd .. | .amin ..
  | .amax .. | .aand .. | .aor .. | .axor .. | .aswp .. | .acas .. | .acas2 .. | .afadd .. | .fence .. | .drain _ | .clean ..
  | .inv .. | .qpush .. | .qpop .. | .qtry .. | .tgld .. | .tgst .. | .tlbinvVa .. | .tlbinvAsid _ | .tlbinvAll => false
  | _ => true

/-- The four NOPs, exempt from the field checks (R77, R82). -/
def isNop (opc : Byte) : Bool := opc == 0x00 || opc == 0x40 || opc == 0x80 || opc == 0xC0

/-- Is check 0x08 broken? Scalar-class ops have no hold bit (R57, R76). -/
def holdBad (f : Form) (r : RawOp) (i : Instr) : Bool :=
  0x40 ≤ r.opc.toNat && bit r.mod.toNat 11 && (f == .thread || !i.holdOk)

/-- The order in which R77 makes its checks. -/
def checkOrder : List Nat :=
  [0x20, 0x21, 0x18, 0x19, 0x01, 0x02, 0x03, 0x04, 0x05, 0x06, 0x07, 0x08, 0x09, 0x0A, 0x0B, 0x0C, 0x0D, 0x0E, 0x0F, 0x1A, 0x11, 0x10]

/-- Every per-op check of R77 that a slot op fails, with the operation it is read as. In bundle form `slot` is its slot. -/
def opFails (f : Form) (regs nsem slot : Nat) (r : RawOp) : Instr × List Nat :=
  if f == .bundle && r.opc.toNat / 64 != slotClass slot then (.nop, [0x04])
  else match parse f r with
    | none => (.nop, [0x05])
    | some (i, errs) =>
      if !i.formOk f then (i, [0x06])
      else
        let c07 := if f == .bundle && !i.slotOk slot then [0x07] else []
        let c08 := if holdBad f r i then [0x08] else []
        if isNop r.opc then (i, c07 ++ c08)
        else
          let r' := if f == .thread && 0x40 ≤ r.opc.toNat then { r with mod := r.mod &&& 0x7FF } else r
          let c0D := if encode i == some r' || encode i == some r then [] else [0x0D]
          (i, c07 ++ c08 ++ errs ++ (if i.typesOk then [] else [0x0B]) ++ (if i.kindsOk f regs then [] else [0x0C]) ++ c0D
            ++ (if i.rangeOk f then [] else [0x0D]) ++ (if i.semOk f nsem then [] else [0x1A])
            ++ (if i.sregUseOk f then [] else [0x11]))

/-- The first check, in the order of R77, among those failed. -/
def firstCheck (l : List Nat) : Option Nat := checkOrder.find? fun c => l.contains c

/-- Decoding of one slot op in a form: the operation, or the first check of R77 that it fails. -/
def decodeOp (f : Form) (regs nsem slot : Nat) (r : RawOp) : Except Nat Instr :=
  let p := opFails f regs nsem slot r
  match firstCheck p.2 with
  | none => .ok p.1
  | some c => .error c

/-- A slot of bundle form that takes a class of opcode and any op of that class; V2 and M0 take every op of their classes. -/
def anySlot (r : RawOp) : Nat :=
  match r.opc.toNat / 64 with
  | 0 => 0
  | 1 => 4
  | 2 => 5
  | _ => 6

/-- The fields of a thread word (R73). -/
structure ThreadWord where
  p : BitVec 4
  y : Bool
  c : Bool
  zero : BitVec 14
  op : Op44
  deriving DecidableEq, Repr

/-- A 64-bit thread word taken apart (R73). -/
def ThreadWord.ofBits (w : Word) : ThreadWord :=
  { p := w.extractLsb' 60 4, y := w.getLsbD 59, c := w.getLsbD 58, zero := w.extractLsb' 44 14, op := w.extractLsb' 0 44 }

/-- The 64 bits of a thread word (R73). -/
def ThreadWord.toBits (t : ThreadWord) : Word :=
  t.p ++ (BitVec.ofBool t.y ++ (BitVec.ofBool t.c ++ (t.zero ++ t.op)))

/-- Decoding of a thread word: check 0x19 first, then its op (R76, R77). -/
def decodeWord (regs nsem : Nat) (w : Word) : Except Nat Instr :=
  let t := ThreadWord.ofBits w
  if t.zero != 0 then .error 0x19 else decodeOp .thread regs nsem 0 (RawOp.ofBits t.op)

/-- The header of a bundle (R50). -/
structure Header where
  pres : Byte
  wsem : Byte
  wth : Nat
  ssem : Byte
  sinc : Nat
  kind : Nat
  deriving DecidableEq, Repr

/-- The header of a bundle's 384 bits (R47, R50). -/
def headerOf (bundle : Nat) : Header :=
  { pres := BitVec.ofNat 8 (bits bundle 7 0), wsem := BitVec.ofNat 8 (bits bundle 15 8), wth := bits bundle 19 16,
    ssem := BitVec.ofNat 8 (bits bundle 27 20), sinc := bits bundle 29 28, kind := bits bundle 31 30 }

/-- The slot op in slot n of a bundle (R47). -/
def slotOf (bundle n : Nat) : Op44 := BitVec.ofNat 44 (bundle / 2 ^ (32 + 44 * n))

/-- The operation that the bits of a table row name. A word of 64 bits is a thread word (R73); a shorter one is a slot op (R58), read in
bundle form where its opcode exists there and in thread form otherwise. Device events have no bits. -/
def decodeTableWord (nbits w : Nat) : Option Instr :=
  if 48 < nbits then (decodeWord 64 256 (BitVec.ofNat 64 w)).toOption
  else
    let r := RawOp.ofBits (BitVec.ofNat 44 w)
    match decodeOp .bundle 64 256 (anySlot r) r with
    | .ok i => some i
    | .error _ => (decodeOp .thread 64 256 0 r).toOption

end Sys2Proof
end

