-- ==== Sys2Proof/Machine/State.lean ====
section
/-!
DEFINITION. The state of the device as plain data, the ways a step can stop, and the state after reset. Every piece of state the
spec names is here (INVENTORY.md, heading State, names the rule of each). Widths the spec fixes and software can see whole are bit
vectors; counts, sizes and addresses are natural numbers, bounded by the operations that write them.
-/
namespace Sys2Proof.Machine

/-- Sparse data by key: keys strictly rising, no entry equal to what an unlisted key reads as. -/
abbrev Map (β : Type) := List (Nat × β)

/-- Why a step stops with a fault. No path of the model raises one: every fault of the spec is a trap, a status or an ignored write,
which are next states. The type is kept for Host.Core. -/
inductive Fault where
  /-- No meaning raises this: the spec names no event after which the device has no next state. Safe. -/
  | deviceLost
  deriving DecidableEq, Repr

/-- Why a step is refused. -/
inductive Refusal where
  /-- An instruction whose meaning is not written yet; its arm of exec says so. Safe: nothing is claimed about it. -/
  | notModelled (mnemonic : String)
  deriving DecidableEq, Repr

/-- Whose word executes: a slot of a matrix core's bundle (R47), or a thread (R26). -/
inductive Agent where
  | core (c : Fin 32) (slot : Fin 8)
  | thr (t : Tid)
  deriving DecidableEq, Repr

/-- What a translation says of a page (R393, R396): log2 of its bytes, permissions, memory type, tag enable, global, control frame, secure
frame. -/
structure PageAttr where
  log : Nat
  r : Bool
  w : Bool
  x : Bool
  /-- 0 NORMAL, 1 PEER, 2 IO -/
  mt : Nat
  te : Bool
  g : Bool
  ctl : Bool
  sec : Bool
  deriving DecidableEq, Repr

/-- One byte's translation: virtual and physical address and the page's attributes. -/
structure XByte where
  va : Nat
  pa : Nat
  attr : PageAttr
  deriving DecidableEq, Repr

/-- A TLB entry (R396): the page of 2^log bytes at virtual base `vbase`, held for the 2 MB granule `gran` of it. -/
structure TlbEntry where
  vbase : Nat
  log : Nat
  gran : Nat
  pbase : Nat
  attr : PageAttr
  a : Bool
  d : Bool
  asid : Nat
  world : Bool
  deriving DecidableEq, Repr

/-- A walk-cache entry (R396): for an address space, the table of a level on the path of every address with the given upper bits. Level 3
is what the address-space entry names. -/
structure WalkEntry where
  lvl : Nat
  upper : Nat
  table : Nat
  asid : Nat
  world : Bool
  deriving DecidableEq, Repr

/-- An L1 line (R228): virtual and physical line number, ASID, world, the page's attributes, the tags of its two granules, 64 bytes
of data, one dirty mark and one poison mark per byte. -/
structure Line where
  vline : Nat
  pline : Nat
  asid : Nat
  world : Bool
  attr : PageAttr
  tags : Nat × Nat
  data : List Byte
  dirty : BitVec 64
  poison : Option Nat
  deriving DecidableEq, Repr

/-- A load-block (R231, R276): its lines, and whether the fill has completed. -/
structure Block where
  base : Nat
  count : Nat
  asid : Nat
  world : Bool
  lines : List Line
  filled : Bool
  deriving DecidableEq, Repr

/-- Who a copy or a slot belongs to: a matrix core's job part, or a group of a unit. -/
inductive Owner where
  | core (slot : Nat)
  | group (g : Nat)
  deriving DecidableEq, Repr

/-- An activation-table slot (R154, R434): its binding and its 1,600 bytes. -/
structure LutSlot where
  owner : Option Owner
  data : List Byte
  deriving DecidableEq, Repr

/-- A global or local place of a copy (R279): global bytes carry the translation made at issue. A share is named by its part of the job,
so that a copy reaches it wherever the part runs or is kept (R36, R281). -/
inductive CopyEnd where
  | glob (bytes : List XByte)
  /-- offset in the scratchpad share of the job's core of an index -/
  | core (idx : Nat) (off : Nat)
  /-- offset in the shared memory of a group -/
  | group (unit g : Nat) (off : Nat)
  deriving DecidableEq, Repr

/-- A copy in flight (R278 to R282): its command word, its source, its destinations, the pieces each destination has still to land,
and where it was issued. -/
structure Copy where
  cmd : Word
  src : CopyEnd
  dsts : List CopyEnd
  /-- sync words: one per destination for CPYM, else all count every landing (R280, R441) -/
  syncs : List CopyEnd
  /-- semaphores raised after the last landing, their index in the place of an offset (R256) -/
  sems : List CopyEnd
  /-- a copy of CPYM (R280) -/
  multi : Bool
  /-- pieces not yet landed, as (destination, piece) -/
  left : List (Nat × Nat)
  /-- source codes of pieces read for one destination and not yet landed at every other (R280) -/
  got : Map (List Nat)
  asid : Nat
  world : Bool
  job : Nat
  /-- the issuing part of the job: core index or group index -/
  part : Nat
  /-- program counter of the issuing word or bundle -/
  tpc : Word
  issuer : Agent
  /-- place in the issue order of its engine (R282) -/
  seq : Nat
  /-- set when a piece failed: the failing address; the copy lands no more (R282) -/
  failed : Option Nat
  deriving DecidableEq, Repr

/-- A result on its way to a matrix core's registers. -/
inductive Land where
  | sreg (n : Nat) (x : Word)
  /-- bits of a v register under a mask -/
  | vreg (n : Nat) (mask x : Vec)
  | preg (n : Nat) (mask x : Pred)
  /-- a row part of an accumulator tile: tile, first element, elements under a mask -/
  | acc (t : Nat) (elems : List (Nat × BitVec 32))
  /-- a reduction's tree value for a latch: operation (0 add, 1 max, 2 min), type, saturating; an f32 code or an exact integer (R150) -/
  | latch (n : Nat) (op : Nat) (ty : Ty) (sat : Bool) (x : Int)
  | flags (f : BitVec 5)
  deriving DecidableEq, Repr

/-- A scoreboarded result (R41): its lands, whether it waits on PEER, IO or Tollgate (R438), and the load-block whose fill it waits for. -/
structure SbEntry where
  lands : List Land
  ext : Bool
  blk : Option Nat
  deriving DecidableEq, Repr

/-- A tile result of the SM class (R159, R160): the tile, the elements it defines, the flags and SUSPECT bits found (R172, R173), the MX
bound trap's value and the program counter. -/
structure SmEntry where
  tile : Nat
  elems : List (Nat × BitVec 32)
  fl : BitVec 5
  suspect : BitVec 8
  /-- MX bound trap value, when the format asks for the trap -/
  bound : Option Word
  tpc : Word
  /-- ranges of the core's own scratchpad that an MMA reads, as offset and bytes (R164) -/
  reads : List (Nat × Nat)
  deriving DecidableEq, Repr

/-- A withheld effect of an interval (R243, R409). -/
inductive Eff where
  | store (bytes : List (XByte × Byte))
  | tags (cells : List (XByte × Nat))
  | signal (core : Nat) (idx n : Nat)
  /-- the header signal of an ordinary bundle (R52) -/
  | hsig (idx n : Nat)
  | copy (c : Copy)
  | launch (jobid : Word)
  | lutld (slot : Nat) (data : List Byte)
  | jend (blk : Bool)
  | bar (id : Nat)
  | svc (code : Nat)
  | drain (scope : Scope)
  /-- CLEAN of n bytes from an address (R290) -/
  | clean (lo n : Nat)
  | blkrel (n : Nat)
  /-- scratchpad bytes, logged for undo (R242, R412) -/
  | scr (cells : List Host.Cell)
  /-- bytes of a LOCAL atomic: taken out of the undo log (R287) -/
  | loc (cells : List Host.Cell)
  /-- bytes of a global atomic (R287) -/
  | atom (bytes : List (XByte × Byte))
  /-- a special register written (R137) -/
  | swr (n : Nat) (x : Word)
  deriving DecidableEq, Repr

/-- Released effects that a mark holds back until earlier stores to control registers have acted (R244): the core, whether it makes global
effects (R441), the effects, and whether they are a debug step's. -/
structure Marked where
  core : Nat
  own : Bool
  effs : List Eff
  step : Bool
  deriving DecidableEq, Repr

/-- What a removal of translations covers (R406): an address of an ASID, an ASID, or everything. -/
inductive InvForm where
  | va (a asid : Nat)
  | asid (n : Nat)
  | all
  deriving DecidableEq, Repr

/-- Tile-walker state (R188): dimensions and the tiles not yet returned, as (row, column, height, width). -/
structure Walker where
  active : Bool
  rows : Nat
  cols : Nat
  tiles : List (Nat × Nat × Nat × Nat)
  deriving DecidableEq, Repr

/-- The shadowed state of a matrix core: what R409 copies at each commit and restores at a rollback. -/
structure Arch where
  s : Map Word
  v : Map Vec
  p : Map Pred
  /-- reduction latches; none is the empty mark (R149) -/
  ps : Map (Option Word)
  fmt : BitVec 32
  /-- writes of FMT in their shadow: value and advance cycles left (R44) -/
  fmtPend : List (BitVec 32 × Nat)
  lutsel : BitVec 2
  lutPend : List (BitVec 2 × Nat)
  fflags : BitVec 5
  suspect : BitVec 8
  drift : BitVec 32
  rnga : Word
  rngb : Word
  walker : Walker
  held : Map (Option Op44)
  pc : BitVec 32
  /-- redirections of taken branches: target and advance cycles left (R368) -/
  redir : List (BitVec 32 × Nat)
  blkLive : BitVec 16
  blkRel : BitVec 16
  /-- advance cycles since job start, as the gang skew counts them (R35) -/
  adv : Nat
  deriving DecidableEq, Repr

/-- A fault map and self-test state of a matrix array (R179 to R184). -/
structure FaultMap where
  row : BitVec 34
  col : BitVec 34
  gen : BitVec 8
  last : BitVec 16
  deriving DecidableEq, Repr

/-- Why a part of a job does not run now. -/
inductive CoreWait where
  | none
  /-- the job barriers with these ids have been released (R374) -/
  | bar (ids : List Nat)
  /-- TLBINV has not completed (R407) -/
  | tlbinv
  /-- LEAVE waits for n units (R376) -/
  | leave (n : Nat)
  deriving DecidableEq, Repr

/-- The part of a job on a matrix core. -/
inductive Part where
  | idle
  /-- between task blocks: the entry to start (R361) -/
  | block (entry : Nat)
  | running
  | ended
  deriving DecidableEq, Repr

/-- What is kept for one engine, core or unit. -/
structure Eng where
  inService : Bool
  /-- declared failed, with the detection reason of R438 -/
  failed : Option Nat
  /-- clock in MHz -/
  mhz : Nat
  /-- engine cycles counted up to PTIME `since`, then at `mhz` (R29 CYCLE) -/
  cycAcc : Nat
  since : Nat
  /-- engine cycles counted up to PTIME `since` since the rails came on, which order issues across jobs (R354) -/
  clockAcc : Nat
  /-- cycle of its clock at which it last issued or froze -/
  lastIssue : Option Nat
  freeze : Word
  /-- current weights by cycle of its clock (R354) -/
  hist : List (Nat × Nat)
  /-- the freeze run now open, for its FREEZE record -/
  freezeRun : Nat
  world : Bool
  /-- partition and job last run, for CLOCK records and scrubs (R317, R381) -/
  lastPart : Option Nat
  l1 : List Line
  luts : Map LutSlot
  copies : List Copy
  /-- copies started, which orders their errors (R282) -/
  copySeq : Nat
  /-- stopped by debug, with the stop cause (R325) -/
  stopped : Option Nat
  stepStatus : Nat
  stepping : Bool
  tstop : Bool
  sel0 : BitVec 11
  seln : BitVec 11
  heartbeat : Nat
  progress : Nat
  /-- LEAVE units granted to a matrix core (R376) -/
  granted : Nat
  deriving DecidableEq, Repr

/-- A matrix core (R18, R21). -/
structure Core where
  eng : Eng
  /-- resident slot of the job it runs -/
  job : Option Nat
  /-- CYCLE when this run of its part began (R348) -/
  ranFrom : Nat
  /-- core index within the job, and gang position (R29 GPOS) -/
  idx : Nat
  gpos : Nat
  part : Part
  arch : Arch
  shadow : Arch
  acc : Map (List (BitVec 32))
  sem : Map Nat
  flight : List (Nat × Land)
  sb : List SbEntry
  sm : List SmEntry
  /-- MSTEST in flight: full, destination, program counter (R183) -/
  mstest : Option (Bool × Nat × Word)
  /-- engine cycle of the last MMA (R175) -/
  lastMma : Option Nat
  /-- the walker's latest choices at gang position 0: advance cycle and index chosen (R190) -/
  picks : List (Nat × Nat)
  scratch : List Host.Cell
  scratchSize : Nat
  /-- poisoned 64-byte blocks of scratchpad (R435) -/
  poison : List Nat
  blocks : Map (Option Block)
  /-- the resident slot whose dictionary image is loaded, and its entries (R70, R71) -/
  dict : Option Nat
  entries : List Nat
  withheld : List Eff
  /-- undo log, newest first: block offset and the bytes written with their earlier values (R412) -/
  undo : List (Nat × List Host.Cell)
  /-- copies of tiles first written in the interval (R413) -/
  tileCopies : Map (Option (List (BitVec 32)))
  gst : Nat
  cpy : Nat
  undoCount : Nat
  ssat : Bool
  /-- bundles issued in the interval: advance cycles (R411) -/
  intervalAdv : Nat
  /-- exposed results in flight at the last commit; some only after a stepped commit (R326) -/
  shadowFlight : List (Nat × Land)
  /-- a rollback reissues the checkpoint bundle's slot ops; not where no bundle of the job, block or step has committed (R53, R326) -/
  shadowReissue : Bool
  /-- task block: entry, advance cycles run, first bundle not yet issued (R34, R54) -/
  entry : Nat
  /-- DCYC and NEXT of the block (R360) -/
  dcyc : Nat
  nextEntry : Nat
  blockAdv : Nat
  blockFirst : Bool
  /-- stream length of the bundle issued last: 1, or 25 for a literal (R69) -/
  len : Nat
  /-- a snapshot is due before the next block starts (R443) -/
  snapDue : Bool
  /-- the checkpoint bundle's slot ops are to issue again, without its wait and signal (R53) -/
  reissue : Bool
  /-- the queue at whose QPUSH the core waits for room, and whether that queue has been closed since (R295, R296) -/
  pushOn : Option (Nat × Bool)
  /-- traps that wait for a commit: cause, TVAL, and for a copy error its place in issue order (R282, R414) -/
  waiting : List (Nat × Word × Nat)
  retries : Nat
  tcause : Byte
  tpc : Word
  tval : Word
  wait : CoreWait
  markRef : Option (Nat × Nat)
  armed : List Nat
  stallTrace : Bool
  /-- the stall run now open: its cause and the engine cycle at which it began (R323) -/
  stallRun : Option (Nat × Nat)
  /-- records not yet accepted by a lossless buffer (R319) -/
  trec : List (List Byte)
  fmap : FaultMap
  /-- results of the primary of a redundant pair, which its shadow receives one advance cycle later, oldest first (R441) -/
  mirrored : List SbEntry
  /-- PTIME from which a core issues the bundle that the first core of its gang has issued (R35) -/
  goAt : Option Nat
  /-- that bundle and its stream length, as position 0 of a shared-fetch gang forwards it (R362) -/
  forward : Option (Nat × Nat)
  /-- this core's advance-mode pre-emption is pending: requested at (R342) -/
  preempt : Option (Nat × Bool)
  /-- removals of translations that the core has asked for in the interval, and their worlds (R399, R407) -/
  invs : List (InvForm × Bool)
  deriving DecidableEq, Repr

/-- Why a thread is not ready (R343, R364, R371). -/
inductive Wait where
  | none
  | sem (idx k : Nat)
  /-- SWAIT: offset, generation, destination, acquire at a scope (R284) -/
  | sync (off gen d : Nat) (acq : Bool) (sc : Scope)
  /-- QPOP: queue, destinations of item and status, acquire at a scope (R298) -/
  | pop (q d st : Nat) (acq : Bool) (sc : Scope)
  | push (q : Nat)
  | bar (level id : Nat)
  | leave (n : Nat)
  | copySlot
  /-- RAYW: destination (R207) -/
  | query (d : Nat)
  | drain
  | tlbinv
  | hintinv
  | jend
  | yield (others : List Nat) (left : Nat)
  | trace
  deriving DecidableEq, Repr

/-- A candidate or hit of a query: t as an f32 code, GID, PID, b1, b2, leaf offset. -/
structure Hit where
  t : Nat
  gid : Nat
  pid : Nat
  b1 : Nat
  b2 : Nat
  leaf : Nat
  deriving DecidableEq, Repr

/-- What RAYW is to deliver (R207). -/
inductive Report where
  | candidate (h : Hit)
  | miss
  | hit (h : Hit)
  | malformed (offset : Nat)
  | bad
  /-- a structure read faulted: cause and address (R208, R436) -/
  | fault (cause va : Nat)
  deriving DecidableEq, Repr

/-- A word of a thread whose results are still to land (R364): the registers it writes, and the table image that its activation slot takes as
its status lands (R155). -/
structure Busy where
  regs : List Nat
  lut : Option (Nat × List Byte)
  deriving DecidableEq, Repr

/-- A thread's open query (R200 to R213). -/
structure Query where
  sphere : Bool
  radius : Nat
  o : Nat × Nat × Nat
  d : Nat × Nat × Nat
  tmin : Nat
  tmax : Nat
  handle : Word
  fast : Bool
  nohint : Bool
  opq : Bool
  /-- the header as read once at the start (R199) -/
  header : Option (List Byte)
  report : Option Report
  /-- the candidate that RAYW delivered and no RAYAH has resolved -/
  pending : Option Hit
  /-- (GID, PID) already delivered -/
  delivered : List (Nat × Nat)
  /-- accepted candidates' least -/
  accepted : Option Hit
  /-- FAST: the least opaque hit found so far (R211) -/
  best : Option Hit
  /-- the leaf that the hint table named at the start (R216) -/
  hint : Option Nat
  /-- the items read so far: (offset, length), bytes; a traversal that goes on reads none of them again (R208) -/
  seen : List ((Nat × Nat) × List Byte)
  count : Nat
  deriving DecidableEq, Repr

/-- A vision-unit thread (R23). -/
structure Thread where
  x : Map Word
  /-- bit j is pj, bit 0 read as 1 -/
  p : Byte
  pc : Word
  fmt : BitVec 32
  fflags : BitVec 5
  tcause : Byte
  tpc : Word
  tval : Word
  tmask : Word
  rnga : Word
  rngb : Word
  inHandler : Bool
  dePref : Bool
  /-- issue cycles of its lane since it arrived at its word (R366) -/
  arrived : Nat
  waitCount : Nat
  /-- order in which it became due (R365) -/
  due : Option Nat
  wait : Wait
  /-- the waiting word issues again (R431 byte 9 [2]) -/
  reissue : Bool
  query : Option Query
  markRef : Option (Nat × Nat)
  stallTrace : Bool
  /-- engine cycles at which the wait it is in, and its hold by trace, began (R323) -/
  waitSince : Nat
  heldSince : Nat
  /-- words whose results are still to land, and the engine cycles at which its next word was first found to wait for one (R364, R323) -/
  busy : List Busy
  opSince : Option Nat
  ended : Bool
  /-- traps to deliver at its next word: cause, TVAL, and for a copy error its place in issue order (R282, R349) -/
  pendTraps : List (Nat × Word × Nat)
  trec : List (List Byte)
  deriving DecidableEq, Repr

/-- A resident group of a vision unit (R23, R27, R28). -/
structure Group where
  job : Nat
  /-- group index in the block -/
  idx : Nat
  size : Nat
  regs : Nat
  k : Map Word
  nsem : Nat
  sem : Map Nat
  /-- SEMWAIT arrival order: semaphore, thread (R373) -/
  semq : List (Nat × Nat)
  thandler : Word
  lutsel : BitVec 2
  drift : BitVec 32
  granted : Nat
  ssat : Bool
  armed : List Nat
  smem : List Host.Cell
  smemSize : Nat
  poison : List Nat
  hslot : Nat
  threads : Map Thread
  /-- barrier arrivals: level, id, thread (R374) -/
  bars : List (Nat × Nat × Nat)
  /-- writes of group registers and stores staged to the end of the cycle (R137, R156, R239) -/
  staged : List (Nat × Nat × Word)
  /-- the unit's CYCLE when the group's run began (R348) -/
  ranFrom : Nat
  started : Bool
  deriving DecidableEq, Repr

/-- A leaf hint entry (R214, R215): the key's fields and the leaf's offset. -/
structure Hint where
  saddr : Nat
  gen : Nat
  part : Nat
  kind : Bool
  qo : Nat × Nat × Nat
  qd : Nat × Nat
  leaf : Nat
  deriving DecidableEq, Repr

/-- A vision unit. -/
structure VUnit where
  eng : Eng
  groups : Map (Option Group)
  hints : List Hint
  dueCount : Nat
  /-- threads that trapped in the issue under way: pc, group, thread (R420 TMASK) -/
  trapped : List (Word × Nat × Nat)
  /-- records that its threads hold, oldest first: group, thread, partition (R314, R319) -/
  traceq : List (Nat × Nat × Nat)
  deriving DecidableEq, Repr

/-- An edge of a resident card (R333): producer's slot, its regions, and whether a completion has arrived since the release
before the current one. -/
structure Edge where
  producer : Option Nat
  regions : List (Nat × Nat)
  satisfied : Bool
  /-- a completion has arrived since the consumer's last release -/
  fresh : Bool
  deriving DecidableEq, Repr

/-- Where a job of a resident card stands. -/
inductive JobState where
  | none
  | released
  | running
  /-- pre-emption requested of these engines, not yet complete -/
  | saving
  | saved
  deriving DecidableEq, Repr

/-- What the device keeps of a saved matrix core beside its area (R430 WALK; log 9): its shadowed state, of which the area's fields take
the place on resumption, where its sequencer stood, the retry count, the waits and traps of its last commit, records after the first. -/
structure KeptCore where
  arch : Arch
  part : Part
  entry : Nat
  dcyc : Nat
  nextEntry : Nat
  blockAdv : Nat
  blockFirst : Bool
  snapDue : Bool
  reissue : Bool
  flight : List (Nat × Land)
  retries : Nat
  wait : CoreWait
  waiting : List (Nat × Word × Nat)
  armed : List Nat
  stallTrace : Bool
  trec : List (List Byte)
  deriving DecidableEq, Repr

/-- What the device keeps of a saved thread beside its area: whether it has ended, its waiting traps, its open query, whether stall trace is
on, and the records it holds (R319, R322, R344). -/
structure KeptThread where
  ended : Bool
  pendTraps : List (Nat × Word × Nat)
  query : Option Query
  stallTrace : Bool
  trec : List (List Byte)
  deriving DecidableEq, Repr

/-- What the device keeps of a saved group beside its area: its armed set, the threads that hold records in the order of their records, and
its threads (R319, R322, R344). -/
structure KeptGroup where
  armed : List Nat
  order : List Nat
  threads : Map KeptThread
  deriving DecidableEq, Repr

/-- A scratchpad share kept while its job is saved (R344): the core whose array holds it, none once spilled; its bytes and poisoned
blocks. -/
structure Share where
  home : Option Nat
  cells : List Host.Cell
  poison : List Nat
  deriving DecidableEq, Repr

/-- What a job that replays a capture runs from: its pages, restored in a private address space, its argument block and its scratchpad shares
(R329). -/
structure Replay where
  pages : List Nat
  args : List Byte
  shares : List (List Byte)
  deriving DecidableEq, Repr

/-- A resident card and its job (R330 to R349). -/
structure Slot where
  card : List Byte
  edges : List Edge
  home : List Nat
  retiring : Bool
  skip : Nat
  /-- PTIME of the last release and of the next one due -/
  lastRelease : Option Nat
  nextRelease : Option Nat
  /-- instant and flow of the last release that the stage skipped, which entry to stage 5 in its tick makes after all (R452) -/
  turned : Option (Nat × Nat)
  /-- a sporadic release is pending (R337) -/
  deferred : Option Nat
  state : JobState
  release : Nat
  deadline : Nat
  bestEffort : Bool
  demoted : Bool
  overrun : Bool
  admissionLost : Bool
  restarted : Bool
  missed : Bool
  /-- resumed and without an issue since: its requests are still pre-emption traffic (R344) -/
  resuming : Bool
  /-- engines held, in order of index -/
  engines : List Nat
  /-- engines held before the last save, for MIGRATE (R313) -/
  lastEngines : List Nat
  /-- traps of R349 that wait for the job to run: cause and TVAL -/
  owed : List (Nat × Word)
  /-- saved areas hold the job's state -/
  rollbackSave : Bool
  /-- engine cycles of the release's earlier runs, by part (R348) -/
  cyclesRun : List Nat
  anyhit : Nat
  energy : Nat
  /-- PTIME since which a core of the job is frozen by trace (R319) -/
  frozen : Option Nat
  freezeTicks : Nat
  /-- those of them before the absolute deadline (R313) -/
  freezeEarly : Nat
  /-- engines that the job was pre-empted to leave to a gang (R363) -/
  gathered : List Nat
  /-- flow of the LAUNCH record that released it (R313) -/
  flow : Nat
  /-- LEAVE grants to request again on resumption, by part (R355) -/
  savedGrants : List Nat
  /-- the saved areas' device-layout fields and what the areas do not hold (R430 WALK, R431 open query; log 9), by core index -/
  keptCore : Map (Option KeptCore)
  /-- scratchpad shares while the job is saved, by core index (R344) -/
  shares : Map (Option Share)
  /-- the same by group index -/
  keptGroup : Map (Option KeptGroup)
  /-- the same of the last snapshot's cores (R443) -/
  snapCore : Map (Option KeptCore)
  snapshot : Bool
  /-- the next dispatch restores the snapshot (R442) -/
  fromSnap : Bool
  /-- status forced at the end: aborted, restart policy, shape (R346) -/
  endStatus : Option Nat
  /-- cores that released a BAR: id, core index (R374) -/
  bars : List (Nat × Nat)
  /-- pages of a capture already written (R328); none when not capturing -/
  capture : Option (List Nat)
  /-- pages first touched and not written yet, with their bytes before that access (R328) -/
  touched : List (Nat × List Byte)
  /-- the capture that the job replays (R329) -/
  replay : Option Replay
  deriving DecidableEq, Repr

/-- A channel queue (R293 to R299): its 64-byte descriptor, items, drop counts and waiters. -/
structure Queue where
  desc : List Byte
  items : List (List Byte)
  drops : Nat
  /-- waiting QPOPs in arrival order (R298) -/
  waiters : List Tid
  deriving DecidableEq, Repr

/-- A trace descriptor (R315) in effect. -/
structure TraceDesc where
  desc : List Byte
  wp : Word
  rp : Word
  faultva : Word
  lost : Nat
  gapLost : Nat
  /-- the next GAP follows a suspension and carries FAULTVA (R318) -/
  gapFault : Bool
  susp : Bool
  status : Nat
  rused : Nat
  deriving DecidableEq, Repr

/-- What a source keeps for a buffer (R307, R311): SEQ, last stamp, next record full. -/
structure TraceSrc where
  seq : Nat
  stamp : Nat
  full : Bool
  deriving DecidableEq, Repr

/-- A Tollgate requester's account at a channel in the window (R351, R352): bytes charged, and whether a request of it has been held. -/
structure Account where
  spent : Nat
  held : Bool
  deriving DecidableEq, Repr

/-- A LEAVE request waiting for units (R355). -/
structure LeaveReq where
  dom : Dom
  /-- group of a unit, and the thread that waits for the units (R376) -/
  group : Nat
  thread : Nat
  units : Nat
  at' : Nat
  /-- of a resumption: the engine's part issues nothing until it is granted -/
  resume : Bool
  deriving DecidableEq, Repr

/-- Who waits for a removal of translations (R407, R408). -/
inductive InvWaiter where
  | core (c : Fin 32)
  | thread (t : Tid)
  | window
  deriving DecidableEq, Repr

/-- A removal of translations in progress (R407): what it covers and for which world, who waits, and what used a removed entry and has not
performed: cores with withheld effects, copies by engine and place in issue order, load-block fills by core and block. -/
structure Removal where
  form : InvForm
  world : Bool
  waiter : InvWaiter
  cores : List Nat
  copies : List (Dom × Nat)
  fills : List (Nat × Nat)
  deriving DecidableEq, Repr

/-- An ingress port (R458, R461). -/
structure IngressPort where
  ctrl : Word
  frames : Word
  pkterr : Word
  /-- 32-byte channel entries -/
  chans : Map (List Byte)
  /-- per channel: frame number, ring slot, frame start PTIME, lines received -/
  frame : Map (Nat × Nat × Nat × Nat)
  deriving DecidableEq, Repr

/-- An Ethernet ring (R463). -/
structure EthRing where
  base : Word
  log2n : Word
  head : Nat
  tail : Nat
  msiaddr : Word
  msidata : Word
  drops : Word
  deriving DecidableEq, Repr

/-- An Ethernet MAC (R463). -/
structure Mac where
  ctrl : Word
  link : Bool
  macaddr : Word
  tx : Map EthRing
  rx : Map EthRing
  /-- PTP frames diverted to Reeve's ring (R464) -/
  reeve : List (List Byte)
  /-- frames sent -/
  sent : List (List Byte)
  /-- message-signalled interrupts written: address and data -/
  msi : List (Word × Word)
  deriving DecidableEq, Repr

/-- What the schedule and the outside world supply, as data: the event that comes next, or an act of hardware that the spec leaves
free in time (log 1). -/
inductive Act where
  | event (i : Instr)
  /-- an L1 line of an engine leaves (R246) -/
  | evictLine (d : Dom) (idx : Nat)
  /-- a TLB entry leaves (R396) -/
  | evictTlb (tlb idx : Nat)
  /-- a walk-cache entry leaves (R396) -/
  | evictWalk (tlb idx : Nat)
  /-- a hint entry leaves (R214) -/
  | evictHint (unit : Fin 32) (idx : Nat)
  /-- boot flash contents (R448) -/
  | flash (cells : List Host.Cell)
  /-- a fault of a matrix array's hardware, as a test would find it (R180) -/
  | defect (core : Fin 32) (found : Faults)
  /-- a target of PEER mappings takes AtomicOps at a 4 KB page, or completes them unsuccessfully (R262) -/
  | peerAtomic (page : Nat) (ok : Bool)
  /-- the DRAM's 64 bytes and 32-bit tag of a sector change, by other means than a write of the device (R403): of a secure sector, the data
  of which its new ciphertext is the encryption -/
  | dram (sector : Nat) (data : List Byte) (tag : BitVec 32)
  /-- a configuration write names another time reference (R462) -/
  | timeSource (src : Fin 4)
  /-- Reeve begins memory training (R446) -/
  | trainBegin
  /-- Reeve's clock sends a PTP message, given from its first header byte (R464) -/
  | ptpSend (msg : List Byte)
  /-- a resident sporadic card is submitted with the replay flag (R329), for a capture of some 64-byte units at a virtual address of the card's
  address space -/
  | replay (slot : Nat) (va units : Nat)
  deriving DecidableEq, Repr

/-- An entry of the schedule: PTIME ticks that pass first, then the act. -/
structure Stimulus where
  dt : Nat
  act : Act
  deriving DecidableEq, Repr

/-- A fetched word that has not executed yet. -/
structure Fetched where
  agent : Agent
  /-- thread form: the 64-bit word; bundle form: the 44-bit slot op in the low bits -/
  word : Word
  deriving DecidableEq, Repr

/-- Package time, stages and Reeve (R302 to R305, R437 to R453). -/
structure Reeve where
  rails : Bool
  halted : Bool
  /-- THERMTRIP_N and SAFESTATE_N outputs, true for high -/
  thermtripN : Bool
  safestateN : Bool
  boots : Nat
  stage : BitVec 3
  clust : BitVec 4
  vu : BitVec 32
  memrate : Byte
  failcode : BitVec 4
  mout : BitVec 32
  vout : BitVec 32
  timeState : TimeState
  esec : Word
  /-- PTIME may step no more: it has stepped, a deadline card was admitted, or the time base has left LOCKED (R304, R305) -/
  stepped : Bool
  /-- an engine has been released from reset since the rails came on, so PTIME counts (R303) -/
  counting : Bool
  /-- rate of the discipline loop in parts per million of nominal (R304) -/
  ppm : Int
  cfg : List Byte
  /-- the time reference in effect, as TIMESRC of R449 (R303, R462) -/
  timeSrc : Nat
  fwOk : Bool
  /-- the firmware payload, at offset 0 of Reeve's SRAM (R448) -/
  sram : List Byte
  meas : Map (List Byte)
  attStatus : Nat
  attReport : Word
  attNonce : List Byte
  attDigest : List Byte
  attPending : Option (Nat × List Byte × Bool)
  elogN : Nat
  elogS : Nat
  corrected : Map (Nat × Nat)
  trained : BitVec 16
  hartSec : BitVec 16
  hartsOn : Bool
  txSlots : Map (List Byte)
  rxSlots : Map (List Byte)
  rxDrops : Nat
  safetySent : Nat
  /-- CAN XL frames sent: controller, frame -/
  canOut : List (Nat × List Byte)
  deriving DecidableEq, Repr

/-- Beadle, Tollgate and the power manager (R330 to R359). -/
structure Beadle where
  slots : Map (Option Slot)
  bemin : BitVec 6
  bewin : Nat
  /-- server budget left and window start, matrix and vision -/
  budgetM : Nat
  budgetV : Nat
  windowM : Option Nat
  windowV : Option Nat
  /-- PTIME up to which each budget is counted -/
  sinceM : Nat
  sinceV : Nat
  tgwin : Nat
  tgStart : Nat
  accounts : Map Account
  /-- requests held until the next window, in arrival order: channel and requester (R352) -/
  heldReqs : List (Nat × Payer)
  /-- bytes charged to each requester since memory energy was last apportioned (R356) -/
  charged : Map Nat
  powercap : Byte
  powerStatus : Byte
  /-- LEAVE requests not yet granted, in arrival order -/
  leaves : List LeaveReq
  counters : Map Word
  flows : Nat
  deriving DecidableEq, Repr

/-- Isolation state (R378 to R408). -/
structure Iso where
  /-- region entries in effect, (FIRST, LAST) -/
  regions : Map (Word × Word)
  /-- FIRST as staged and not yet applied (R378) -/
  stagedFirst : Map (Option Word)
  /-- partition entries in effect, 32 bytes -/
  parts : Map (List Byte)
  /-- partition entries as staged and not yet applied (R386) -/
  stagedPart : Map (Option (List Byte))
  astN : Word
  astS : Word
  hartPart : Map Word
  invAddr : Word
  invCmd : Word
  invBusy : Bool
  /-- writes of CMD held while BUSY: ADDR, CMD and the writer's world -/
  invHeld : List (Word × Word × Bool)
  /-- removals in progress -/
  removals : List Removal
  tlbs : Map (List TlbEntry)
  /-- the walk caches, by TLB -/
  walks : Map (List WalkEntry)
  deriving DecidableEq, Repr

/-- Hedgerow (R307 to R328). -/
structure Hedge where
  desc : Map TraceDesc
  src : Map TraceSrc
  deriving DecidableEq, Repr

/-- The boundary: PCI Express, ingress, Ethernet (R458 to R464). -/
structure Boundary where
  pcieCtrl : Word
  pcieLink : Word
  peerld : Word
  peerst : Word
  peerat : Word
  ports : Map IngressPort
  macs : Map Mac
  /-- peer and IO target memory behind the mappings -/
  peer : List Host.Cell
  /-- 4 KB pages of targets that complete AtomicOps unsuccessfully (R262) -/
  noAtomic : List Nat
  /-- the reservations that harts hold: address and bytes (R252) -/
  reserve : Map (Nat × Nat)
  deriving DecidableEq, Repr

/-- No fault. -/
def noFaults : Faults := ⟨0, 0, []⟩
/-- Faults of either. -/
def joinFaults (a b : Faults) : Faults := ⟨a.rows ||| b.rows, a.cols ||| b.cols, a.cells ++ b.cells.filter fun q => !a.cells.contains q⟩

/-- The whole device. -/
structure State where
  ptime : Nat
  cores : Map Core
  units : Map VUnit
  mem : List Host.Cell
  /-- poisoned sectors by physical sector number: cause (R404) -/
  poisoned : Map Nat
  /-- secure sectors written whole as secure since they became so (R404, R405) -/
  sealed : List Nat
  flash : List Host.Cell
  queues : Map Queue
  reeve : Reeve
  beadle : Beadle
  iso : Iso
  hedge : Hedge
  bnd : Boundary
  /-- defects of the arrays as a test would find them -/
  defects : Map Faults
  /-- the copies of PTIME on the compute dies: the value last read, and the master's when it was read (R302, R306) -/
  dieClock : Map (Nat × Nat)
  inputs : List Stimulus
  /-- writes of control registers that an engine's stores have made and that act next, oldest first: requester, physical address of the
  8-byte word, its value (R263, R383) -/
  posted : List (Requester × Nat × Word)
  /-- released effects that act once those writes have (R244) -/
  marked : List Marked
  latch : List Fetched
  cur : Agent
  free : Nat
  /-- stores and other ends of the cycle under way, performed when the latch is empty (R241) -/
  deferred : List (Agent × Eff)
  /-- the cycle under way has been abandoned by a trap of this core -/
  aborted : Bool
  deriving DecidableEq, Repr

/-- An engine before bring-up: out of service until admitted (R446); values with no reset in the spec are zero (log 4). -/
def Eng.reset : Eng :=
  { inService := false, failed := none, mhz := 0, cycAcc := 0, since := 0, clockAcc := 0, lastIssue := none, freeze := 0,
    hist := [], freezeRun := 0, world := false, lastPart := none, l1 := [], luts := [], copies := [], copySeq := 0, stopped := none, stepStatus := 0,
    stepping := false, tstop := false, sel0 := 0, seln := 0, heartbeat := 0, progress := 0, granted := 0 }

/-- No walk in progress (R188). -/
def Walker.reset : Walker := { active := false, rows := 0, cols := 0, tiles := [] }

/-- The shadowed state at job start (R32). -/
def Arch.reset : Arch :=
  { s := [], v := [], p := [], ps := [], fmt := 0, fmtPend := [], lutsel := 0, lutPend := [], fflags := 0, suspect := 0, drift := 0,
    rnga := 0, rngb := 0, walker := Walker.reset, held := [], pc := 0, redir := [], blkLive := 0, blkRel := 0, adv := 0 }

/-- A matrix core before any job (R32; log 4). -/
def Core.reset : Core :=
  { eng := Eng.reset, job := none, ranFrom := 0, idx := 0, gpos := 0, part := .idle, arch := Arch.reset, shadow := Arch.reset, acc := [], sem := [],
    flight := [], sb := [], sm := [], mstest := none, lastMma := none, picks := [], scratch := [], scratchSize := 0, poison := [], blocks := [],
    dict := none, entries := [], withheld := [], undo := [], tileCopies := [], gst := 0, cpy := 0, undoCount := 0, ssat := false,
    intervalAdv := 0, shadowFlight := [], shadowReissue := false, entry := 0, dcyc := 0, nextEntry := 0, blockAdv := 0, blockFirst := false, len := 0, snapDue := false, reissue := false, waiting := [], retries := 0, tcause := 0,
    tpc := 0, tval := 0, wait := .none, markRef := none, armed := [], stallTrace := false, stallRun := none, trec := [],
    fmap := { row := 0, col := 0, gen := 0, last := 0 }, mirrored := [], pushOn := none, goAt := none, forward := none, preempt := none, invs := [] }

/-- A thread before its first word (R32). -/
def Thread.reset : Thread :=
  { x := [], p := 0, pc := 0, fmt := 0, fflags := 0, tcause := 0, tpc := 0, tval := 0, tmask := 0, rnga := 0, rngb := 0,
    inHandler := false, dePref := false, arrived := 0, waitCount := 0, due := none, wait := .none, reissue := false, query := none,
    markRef := none, stallTrace := false, waitSince := 0, heldSince := 0, busy := [], opSince := none, ended := false, pendTraps := [], trec := [] }

/-- A group with no card: every field zero. -/
def Group.reset : Group :=
  { job := 0, idx := 0, size := 0, regs := 64, k := [], nsem := 0, sem := [], semq := [], thandler := 0, lutsel := 0, drift := 0,
    granted := 0, ssat := false, armed := [], smem := [], smemSize := 0, poison := [], hslot := 0, threads := [], bars := [],
    staged := [], ranFrom := 0, started := false }

/-- A vision unit before any job. -/
def VUnit.reset : VUnit := { eng := Eng.reset, groups := [], hints := [], dueCount := 0, trapped := [], traceq := [] }

/-- Reeve as it leaves reset (R446, R450, R453). -/
def Reeve.reset : Reeve :=
  { rails := true, halted := false, thermtripN := true, safestateN := true, boots := 0, stage := 0, clust := 0, vu := 0, memrate := 72,
    failcode := 0, mout := 0, vout := 0, timeState := .free, esec := 0, stepped := false, counting := false, ppm := 0, cfg := [], timeSrc := 0, fwOk := false, sram := [], meas := [],
    attStatus := 0, attReport := 0, attNonce := [], attDigest := [], attPending := none, elogN := 0, elogS := 0, corrected := [],
    trained := 0, hartSec := 0, hartsOn := false, txSlots := [], rxSlots := [], rxDrops := 0, safetySent := 0, canOut := [] }

/-- Beadle with no resident card, its IO fields at their defaults (R340, R350, R467). -/
def Beadle.reset : Beadle :=
  { slots := [], bemin := 4, bewin := 16000000, budgetM := 0, budgetV := 0, windowM := none, windowV := none, sinceM := 0, sinceV := 0, tgwin := 160000, tgStart := 0,
    accounts := [], heldReqs := [], charged := [], powercap := 0, powerStatus := 0, leaves := [], counters := [], flows := 0 }

/-- No region, every partition disabled, no address-space table (R378, R386, R391). -/
def Iso.reset : Iso :=
  { regions := [], stagedFirst := [], parts := [], stagedPart := [], astN := 0, astS := 0, hartPart := [], invAddr := 0, invCmd := 0,
    invBusy := false, invHeld := [], removals := [], tlbs := [], walks := [] }

/-- The PCI Express block, the ports and the MACs at zero (log 4). -/
def Boundary.reset : Boundary :=
  { pcieCtrl := 0, pcieLink := 0, peerld := 0, peerst := 0, peerat := 0, ports := [], macs := [], peer := [], noAtomic := [], reserve := [] }

/-- The device right after reset: rails on, Reeve about to run its ROM at stage 0 (R446), PTIME 0 (R303), nothing resident, memory with
nothing listed. -/
def State.reset : State :=
  { ptime := 0, cores := [], units := [], mem := [], poisoned := [], sealed := [], flash := [], queues := [], reeve := Reeve.reset,
    beadle := Beadle.reset, iso := Iso.reset, hedge := { desc := [], src := [] }, bnd := Boundary.reset, defects := [], dieClock := [], inputs := [],
    posted := [], marked := [], latch := [], cur := .core 0 0, free := 0, deferred := [], aborted := false }

end Sys2Proof.Machine
end

