-- ==== Sys2Proof/Machine/Sparse.lean ====
section
/-!
DEFINITION. Sparse data by key in one canonical form: reading, writing, and reading and writing runs of bytes.
-/
namespace Sys2Proof.Machine

/-- The entry of a key, or the default that an unlisted key reads as. -/
def mget {β : Type} (d : β) : Map β → Nat → β
  | [], _ => d
  | (j, b) :: t, k => if j = k then b else mget d t k

/-- Every entry of a key removed. -/
def merase {β : Type} : Map β → Nat → Map β
  | [], _ => []
  | (j, b) :: t, k => if j = k then merase t k else (j, b) :: merase t k

/-- An entry put before the first greater key. -/
def minsert {β : Type} : Map β → Nat → β → Map β
  | [], k, b => [(k, b)]
  | (j, c) :: t, k, b => if k < j then (k, b) :: (j, c) :: t else (j, c) :: minsert t k b

/-- The map with a key's entry replaced; the default is not listed. -/
def mset {β : Type} [DecidableEq β] (d : β) (m : Map β) (k : Nat) (b : β) : Map β :=
  if b = d then merase m k else minsert (merase m k) k b

/-- Keys strictly rising. -/
def risingFrom {β : Type} : Nat → Map β → Bool
  | _, [] => true
  | lo, (j, _) :: t => decide (lo ≤ j) && risingFrom (j + 1) t

/-- No entry is the default. -/
def noDefault {β : Type} [DecidableEq β] (d : β) : Map β → Bool
  | [] => true
  | (_, b) :: t => decide (b ≠ d) && noDefault d t

/-- The canonical form of sparse data. -/
def mwf {β : Type} [DecidableEq β] (d : β) (m : Map β) : Bool := risingFrom 0 m && noDefault d m

/-- The canonical form of a memory: addresses strictly rising, no byte listed that reads as an unlisted one does (0, log 5). -/
def Memory.wf (m : List Host.Cell) : Bool := mwf (0 : Byte) m

/-- One byte; an address with nothing listed reads 0 (log 5). -/
def byteAt (m : List Host.Cell) (a : Nat) : Byte := mget 0 m a

/-- One byte written. -/
def setByte (m : List Host.Cell) (a : Nat) (b : Byte) : List Host.Cell := mset 0 m a b

/-- n bytes from an address up. -/
def readBytes (m : List Host.Cell) : Nat → Nat → List Byte
  | _, 0 => []
  | a, n + 1 => byteAt m a :: readBytes m (a + 1) n

/-- Bytes written from an address up. -/
def writeBytes (m : List Host.Cell) : Nat → List Byte → List Host.Cell
  | _, [] => m
  | a, b :: bs => writeBytes (setByte m a b) (a + 1) bs

/-- The bytes of a range removed: they read 0 again. -/
def clearRange (m : List Host.Cell) (lo n : Nat) : List Host.Cell := m.filter fun c => decide (c.1 < lo ∨ lo + n ≤ c.1)

/-- A number read little-endian from n bytes (R2). -/
def readNat (m : List Host.Cell) (a n : Nat) : Nat := leNat (readBytes m a n)

/-- A field of a record held as bytes: n bytes at an offset, little-endian; bytes past the end read 0. -/
def fieldAt (bs : List Byte) (off n : Nat) : Nat := leNat ((bs.drop off).take n)

/-- Bytes of a record replaced from an offset up. -/
def putBytes : List Byte → Nat → List Byte → List Byte
  | bs, 0, new => new ++ bs.drop new.length
  | [], k + 1, new => 0 :: putBytes [] k new
  | b :: bs, k + 1, new => b :: putBytes bs k new

/-- A field of a record replaced. -/
def putField (bs : List Byte) (off n x : Nat) : List Byte := putBytes bs off (leBytes n x)

/-- n zero bytes. -/
def zeros (n : Nat) : List Byte := List.replicate n 0

/-- Element i of a list replaced. -/
def setAt {α : Type} : List α → Nat → α → List α
  | [], _, _ => []
  | _ :: t, 0, a => a :: t
  | h :: t, i + 1, a => h :: setAt t i a

/-- Element i of a list removed. -/
def dropAt {α : Type} : List α → Nat → List α
  | [], _ => []
  | _ :: t, 0 => t
  | h :: t, i + 1 => h :: dropAt t i

/-- A number put among ascending numbers, once. -/
def insertNat (l : List Nat) (x : Nat) : List Nat :=
  match l with
  | [] => [x]
  | y :: t => if x = y then y :: t else if x < y then x :: y :: t else y :: insertNat t x

end Sys2Proof.Machine
end

