-- ==== Sys2Proof/Machine/Access.lean ====
section
/-!
DEFINITION. Reaching the parts of the state: cores, units, groups, threads, engines, resident cards and their fields (R330).
-/
namespace Sys2Proof

/-- SRC of an engine (R308). -/
def Dom.src : Dom → Nat
  | .core c => c.val
  | .unit u => 32 + u.val
/-- The compute die of an engine (R308). -/
def Dom.die : Dom → Nat
  | .core c => c.val / 16
  | .unit u => u.val / 16
/-- The cluster or quad whose TLB an engine uses (R15): clusters 0-3, then quads 4-11. -/
def Dom.tlb : Dom → Nat
  | .core c => c.val / 8
  | .unit u => 4 + u.val / 4

end Sys2Proof

namespace Sys2Proof.Machine

/-- A trap: cause code of R416 and TVAL. -/
structure Trap where
  cause : Nat
  tval : Word
  deriving DecidableEq, Repr

/-- A failed op: its trap, and the state with what its checks did to translations (R397). -/
structure Fail where
  trap : Trap
  st : State
  deriving DecidableEq, Repr

/-- The outcome of an op before the trap is taken. -/
abbrev Res := Except Fail State

/-- An op fails with a cause and a value. -/
def trapRes (s : State) (cause : Nat) (tval : Nat) : Res := .error ⟨⟨cause, BitVec.ofNat 64 tval⟩, s⟩

/-- Matrix core c. -/
def State.core (s : State) (c : Nat) : Core := mget Core.reset s.cores c
/-- Matrix core c replaced. -/
def State.setCore (s : State) (c : Nat) (x : Core) : State := { s with cores := mset Core.reset s.cores c x }
/-- Matrix core c changed. -/
def State.modCore (s : State) (c : Nat) (f : Core → Core) : State := s.setCore c (f (s.core c))
/-- The shadowed state of core c changed. -/
def State.modArch (s : State) (c : Nat) (f : Arch → Arch) : State := s.modCore c fun x => { x with arch := f x.arch }
/-- Vision unit u. -/
def State.unit (s : State) (u : Nat) : VUnit := mget VUnit.reset s.units u
/-- Vision unit u replaced. -/
def State.setUnit (s : State) (u : Nat) (x : VUnit) : State := { s with units := mset VUnit.reset s.units u x }
/-- Vision unit u changed. -/
def State.modUnit (s : State) (u : Nat) (f : VUnit → VUnit) : State := s.setUnit u (f (s.unit u))
/-- Group g of unit u; a place with no group reads as one with every field zero. -/
def State.group (s : State) (u g : Nat) : Group := (mget none (s.unit u).groups g).getD Group.reset
/-- Group g of unit u replaced. -/
def State.setGroup (s : State) (u g : Nat) (x : Group) : State :=
  s.modUnit u fun v => { v with groups := mset none v.groups g (some x) }
/-- Group g of unit u changed. -/
def State.modGroup (s : State) (u g : Nat) (f : Group → Group) : State := s.setGroup u g (f (s.group u g))
/-- A thread. -/
def State.thread (s : State) (t : Tid) : Thread := mget Thread.reset (s.group t.unit t.group).threads t.thread
/-- A thread replaced. -/
def State.setThread (s : State) (t : Tid) (x : Thread) : State :=
  s.modGroup t.unit t.group fun g => { g with threads := mset Thread.reset g.threads t.thread x }
/-- A thread changed. -/
def State.modThread (s : State) (t : Tid) (f : Thread → Thread) : State := s.setThread t (f (s.thread t))

/-- The engine of a reset domain. -/
def State.eng (s : State) (d : Dom) : Eng :=
  match d with
  | .core c => (s.core c).eng
  | .unit u => (s.unit u).eng
/-- The engine of a reset domain changed. -/
def State.modEng (s : State) (d : Dom) (f : Eng → Eng) : State :=
  match d with
  | .core c => s.modCore c fun x => { x with eng := f x.eng }
  | .unit u => s.modUnit u fun x => { x with eng := f x.eng }

/-- The reset domain of an agent. -/
def Agent.dom : Agent → Dom
  | .core c _ => .core c
  | .thr t => .unit t.unit
/-- The form of code an agent runs (R16, R17). -/
def Agent.form : Agent → Form
  | .core _ _ => .bundle
  | .thr _ => .thread
/-- The slot of the job an agent runs. -/
def State.jobOf (s : State) (a : Agent) : Option Nat :=
  match a with
  | .core c _ => (s.core c).job
  | .thr t => match mget none (s.unit t.unit).groups t.group with
    | some g => some g.job
    | none => none

/-- Resident slot n. -/
def State.slot (s : State) (n : Nat) : Option Slot := mget none s.beadle.slots n
/-- Resident slot n replaced. -/
def State.setSlot (s : State) (n : Nat) (x : Option Slot) : State :=
  { s with beadle := { s.beadle with slots := mset none s.beadle.slots n x } }
/-- Resident slot n changed, where a card is resident. -/
def State.modSlot (s : State) (n : Nat) (f : Slot → Slot) : State :=
  match s.slot n with
  | some x => s.setSlot n (some (f x))
  | none => s
/-- The card of slot n; no card reads as zero bytes. -/
def State.cardOf (s : State) (n : Nat) : List Byte :=
  match s.slot n with
  | some x => x.card
  | none => []
/-- The card of the job an agent runs. -/
def State.cardAt (s : State) (a : Agent) : List Byte :=
  match s.jobOf a with
  | some n => s.cardOf n
  | none => []

namespace Card
/-- Fields of a job card (R330). -/
def jobid (c : List Byte) : Nat := fieldAt c 0 4
/-- ENG. -/
def eng (c : List Byte) : Nat := bits (fieldAt c 4 1) 1 0
/-- GANG: log2 of the gang size. -/
def gang (c : List Byte) : Nat := bits (fieldAt c 4 1) 3 2
/-- FIXSHAPE. -/
def fixshape (c : List Byte) : Bool := bit (fieldAt c 4 1) 4
/-- EARLY. -/
def early (c : List Byte) : Bool := bit (fieldAt c 4 1) 5
/-- CAP. -/
def cap (c : List Byte) : Bool := bit (fieldAt c 4 1) 6
/-- SPOR. -/
def spor (c : List Byte) : Bool := bit (fieldAt c 4 1) 7
/-- PMODE: rollback. -/
def pmode (c : List Byte) : Bool := bit (fieldAt c 5 1) 0
/-- SPILL. -/
def spill (c : List Byte) : Bool := bit (fieldAt c 5 1) 1
/-- MISS. -/
def miss (c : List Byte) : Nat := bits (fieldAt c 5 1) 3 2
/-- RESTART. -/
def restart (c : List Byte) : Nat := bits (fieldAt c 5 1) 5 4
/-- OVRX. -/
def ovrx (c : List Byte) : Bool := bit (fieldAt c 5 1) 6
/-- TRACE. -/
def trace (c : List Byte) : Nat := fieldAt c 6 1
/-- PARTID. -/
def part (c : List Byte) : Nat := bits (fieldAt c 7 1) 5 0
/-- WORLD. -/
def world (c : List Byte) : Bool := bit (fieldAt c 7 1) 7
/-- ASID. -/
def asid (c : List Byte) : Nat := fieldAt c 8 2
/-- NENG. -/
def neng (c : List Byte) : Nat := fieldAt c 10 2
/-- LOCAL. -/
def loc (c : List Byte) : Nat := fieldAt c 12 4
/-- PERIOD. -/
def period (c : List Byte) : Nat := fieldAt c 16 8
/-- DEADLINE. -/
def deadline (c : List Byte) : Nat := fieldAt c 24 8
/-- CYCLES. -/
def cycles (c : List Byte) : Nat := fieldAt c 32 8
/-- BUDGET. -/
def budget (c : List Byte) : Nat := fieldAt c 40 4
/-- PBOUND. -/
def pbound (c : List Byte) : Nat := fieldAt c 44 4
/-- SPILLB. -/
def spillb (c : List Byte) : Nat := fieldAt c 48 4
/-- CKMAX. -/
def ckmax (c : List Byte) : Nat := fieldAt c 52 2 + 1
/-- ENIDX. -/
def enidx (c : List Byte) : Nat := fieldAt c 54 1
/-- NSEM. -/
def nsem (c : List Byte) : Nat := fieldAt c 55 1
/-- GSIZE. -/
def gsize (c : List Byte) : Nat := fieldAt c 56 2
/-- REGS. -/
def regs (c : List Byte) : Nat := fieldAt c 58 1
/-- LEAVEMAX. -/
def leavemax (c : List Byte) : Nat := fieldAt c 59 1
/-- BLOCK. -/
def block (c : List Byte) : Nat := fieldAt c 60 4
/-- CODE. -/
def code (c : List Byte) : Nat := fieldAt c 64 8
/-- DICT, or the initial THANDLER. -/
def dict (c : List Byte) : Nat := fieldAt c 72 8
/-- ARGS. -/
def args (c : List Byte) : Nat := fieldAt c 80 8
/-- COMPL. -/
def compl (c : List Byte) : Nat := fieldAt c 88 8
/-- EDGES. -/
def edges (c : List Byte) : Nat := fieldAt c 96 8
/-- NEDGE. -/
def nedge (c : List Byte) : Nat := bits (fieldAt c 104 1) 2 0
/-- TBLIST. -/
def tblist (c : List Byte) : Nat := fieldAt c 112 8
/-- G: groups of the block (R331). -/
def groups (c : List Byte) : Nat := (block c + gsize c - 1) / gsize c
end Card

/-- Rounded up to a multiple. -/
def roundUp (n k : Nat) : Nat := (n + k - 1) / k * k

/-- The scratchpad share of a card: LOCAL rounded up to 256 KB, at least one step (R21, R226, R330). -/
def scratchShare (loc : Nat) : Nat := max 262144 (roundUp loc 262144)

/-- Resident slots with their numbers. -/
def State.residents (s : State) : List (Nat × Slot) := s.beadle.slots.filterMap fun e => e.2.map fun z => (e.1, z)

/-- Engine cycles since job start: CYCLE (R29). -/
def Eng.cycle (e : Eng) (ptime : Nat) : Nat := e.cycAcc + (ptime - e.since) * e.mhz / 16000

/-- Engine cycles since the rails came on (R354). -/
def Eng.clock (e : Eng) (ptime : Nat) : Nat := e.clockAcc + (ptime - e.since) * e.mhz / 16000

/-- A free value drawn from the counter (log 6). -/
def State.draw (s : State) : Word × State := (Config.free s.free, { s with free := s.free + 1 })

/-- PTIME as an engine of a compute die reads it: the die's copy, within 32 ticks of the master; the offset is a free value (R302, log 6).
The copy has one value at one instant (R136), never runs back, and differs from one read at least 16 ticks before (R306). -/
def State.diePtime (s : State) (die : Nat) : Nat × State :=
  let last := mget (0, 0) s.dieClock die
  if last.2 = s.ptime then (last.1, s)
  else
    let (x, s) := s.draw
    let least := last.1 + (if last.2 + 16 ≤ s.ptime then 1 else 0)
    let t := max least (s.ptime + x.toNat % 65 - 32)
    (t, { s with dieClock := mset (0, 0) s.dieClock die (t, s.ptime) })

/-- A semaphore's new value and whether it saturated (R22). -/
def semAdd (v n : Nat) : Nat × Bool := if 65535 < v + n then (65535, true) else (v + n, false)

/-- A signal to semaphore idx of core c (R22). -/
def State.signalCore (s : State) (c idx n : Nat) : State :=
  s.modCore c fun x =>
    let r := semAdd (mget 0 x.sem idx) n
    { x with sem := mset 0 x.sem idx r.1, ssat := x.ssat || r.2 }

/-- A signal to semaphore idx of a group's run (R22, R27). -/
def State.signalGroup (s : State) (u g idx n : Nat) : State :=
  s.modGroup u g fun x =>
    let r := semAdd (mget 0 x.sem idx) n
    { x with sem := mset 0 x.sem idx r.1, ssat := x.ssat || r.2 }

end Sys2Proof.Machine
end

