-- ==== Sys2Proof/Machine/Formats.lean ====
section
/-!
DEFINITION. Number formats, exact values and rounding (spec/03_formats.md R90 to R116). Exact values are fractions; a result is formed
exactly and rounded once.
-/
namespace Sys2Proof.Machine

/-- An exact rational; the denominator is positive in every use. -/
structure Frac where
  num : Int
  den : Nat
  deriving DecidableEq, Repr

namespace Frac
/-- An integer. -/
def int (x : Int) : Frac := ⟨x, 1⟩
/-- 2^k. -/
def pow2 (k : Int) : Frac := if 0 ≤ k then ⟨(2 ^ k.toNat : Nat), 1⟩ else ⟨1, 2 ^ (-k).toNat⟩
/-- m × 2^k. -/
def scaled (m : Nat) (k : Int) : Frac := if 0 ≤ k then ⟨(m * 2 ^ k.toNat : Nat), 1⟩ else ⟨m, 2 ^ (-k).toNat⟩
/-- Product. -/
def mul (a b : Frac) : Frac := ⟨a.num * b.num, a.den * b.den⟩
/-- Sum; equal or nested denominators are not multiplied out. -/
def add (a b : Frac) : Frac :=
  if a.den = b.den then ⟨a.num + b.num, a.den⟩
  else if b.den % a.den = 0 then ⟨a.num * (b.den / a.den : Nat) + b.num, b.den⟩
  else if a.den % b.den = 0 then ⟨a.num + b.num * (a.den / b.den : Nat), a.den⟩
  else ⟨a.num * b.den + b.num * a.den, a.den * b.den⟩
/-- Negation. -/
def neg (a : Frac) : Frac := ⟨-a.num, a.den⟩
/-- Difference. -/
def sub (a b : Frac) : Frac := add a (neg b)
/-- Magnitude. -/
def abs (a : Frac) : Frac := ⟨a.num.natAbs, a.den⟩
/-- Strictly less. -/
def lt (a b : Frac) : Bool := decide (a.num * b.den < b.num * a.den)
/-- At most. -/
def le (a b : Frac) : Bool := decide (a.num * b.den ≤ b.num * a.den)
/-- Equal in value. -/
def eq (a b : Frac) : Bool := decide (a.num * b.den = b.num * a.den)
/-- Quotient by a nonzero fraction. -/
def div (a b : Frac) : Frac := ⟨if b.num < 0 then -(a.num * b.den) else a.num * b.den, a.den * b.num.natAbs⟩
/-- Greatest integer at most the value. -/
def floor (a : Frac) : Int := a.num / a.den
/-- Is the value negative? -/
def isNeg (a : Frac) : Bool := decide (a.num < 0)
/-- Is the value zero? -/
def isZero (a : Frac) : Bool := decide (a.num = 0)
/-- The greater. -/
def max (a b : Frac) : Frac := if lt a b then b else a
/-- The less. -/
def min (a b : Frac) : Frac := if lt b a then b else a
/-- Is the value an integer? -/
def isInt (a : Frac) : Bool := decide (a.num % (a.den : Int) = 0)
end Frac

/-- The value of a code: a NaN (quiet or signalling), an infinity, a zero, or a finite nonzero real (R92, R105). -/
inductive FVal where
  | nan (signalling : Bool)
  | inf (neg : Bool)
  | zero (neg : Bool)
  | fin (q : Frac)
  deriving DecidableEq, Repr

/-- Rounding modes (R105). -/
inductive RMode where
  | ne | tz | up | dn
  deriving DecidableEq, Repr

/-- RMODE of FMT[16:15] (R111). -/
def rmodeOf (n : Nat) : RMode :=
  match n % 4 with
  | 0 => .ne
  | 1 => .tz
  | 2 => .up
  | _ => .dn

/-- A code with the flags its making raises, in the bit order of FFLAGS (R29): 16 invalid, 8 divide-by-zero, 4 overflow, 2 underflow,
1 inexact. -/
structure Rnd where
  code : Nat
  fl : BitVec 5
  deriving DecidableEq, Repr

/-- Bits of an element's code (R91, R92, R95, R96, R98). -/
def width (t : Ty) : Nat :=
  match t with
  | .i8 | .n8 | .e4m3 | .e5m2 | .m8 | .e8m0 => 8
  | .i16 | .n16 | .f16 | .bf16 => 16
  | .i32 | .n32 | .f32 => 32
  | .i64 | .n64 => 64
  | .e3m2 | .e2m3 | .m6 => 6
  | .e2m1 => 4

/-- Fraction bits and bias of the IEEE-like types (R92, R95). -/
def fracBias (t : Ty) : Nat × Int :=
  match t with
  | .f32 => (23, 127)
  | .f16 => (10, 15)
  | .bf16 => (7, 127)
  | .e4m3 => (3, 7)
  | .e5m2 => (2, 15)
  | .e3m2 => (2, 3)
  | .e2m3 => (3, 1)
  | .e2m1 => (1, 1)
  | _ => (0, 0)

/-- The code of MaxF (R100). -/
def maxFCode (t : Ty) : Nat :=
  match t with
  | .f32 => 0x7F7FFFFF
  | .f16 => 0x7BFF
  | .bf16 => 0x7F7F
  | .e4m3 => 0x7E
  | .e5m2 => 0x7B
  | .e3m2 => 0x1F
  | .e2m3 => 0x1F
  | .e2m1 => 0x7
  | .m8 => 0x7F
  | .m6 => 0x1F
  | _ => 0

/-- Canon (R100); the types without one read +0 (R107). -/
def canon (t : Ty) : Nat :=
  match t with
  | .f32 => 0x7FC00000
  | .f16 => 0x7E00
  | .bf16 => 0x7FC0
  | .e4m3 => 0x7F
  | .e5m2 => 0x7E
  | .m8 => 0x80
  | .m6 => 0x20
  | .e8m0 => 0xFF
  | _ => 0

/-- The code of MinN: smallest positive normal, or smallest positive value of a tapered type (R100). -/
def minNCode (t : Ty) : Nat :=
  match t with
  | .f32 => 0x00800000
  | .f16 => 0x0400
  | .bf16 => 0x0080
  | .e4m3 => 0x08
  | .e5m2 => 0x04
  | .e3m2 => 0x04
  | .e2m3 => 0x08
  | .e2m1 => 0x2
  | _ => 0x01

/-- Types with infinities (R107). -/
def hasInf (t : Ty) : Bool := t == .f32 || t == .f16 || t == .bf16 || t == .e5m2

/-- The tapered types (R98). -/
def isTapered (t : Ty) : Bool := t == .m8 || t == .m6

/-- The sign bit's weight. -/
def signBit (t : Ty) : Nat := 2 ^ (width t - 1)

/-- Types with a code for -0 (R95, R98). -/
def hasNegZero (t : Ty) : Bool := !isTapered t

/-- The length of the run of bits equal to `b` from bit `i` - 1 of `m` downward (R98). -/
def runLen (m : Nat) (b : Bool) : Nat → Nat
  | 0 => 0
  | i + 1 => if bit m i == b then runLen m b i + 1 else 0

/-- The magnitude of a tapered magnitude field of w - 1 bits, m nonzero (R98). -/
def taperedMag (w m : Nat) : Frac :=
  let b := bit m (w - 2)
  let k := runLen m b (w - 1)
  let g : Int := if b then (k : Int) - 1 else -(k : Int)
  if k + 1 ≤ w - 2 then
    let n := w - 2 - k
    let e : Int := if bit m (n - 1) then 1 else 0
    Frac.scaled (2 ^ (n - 1) + m % 2 ^ (n - 1)) (2 * g + e - (n - 1 : Nat))
  else Frac.pow2 (2 * g)

/-- The magnitude of an IEEE-like magnitude code, read as finite (R92, R95); past MaxF it is the virtual value V(T) (R105). -/
def ieeeMag (t : Ty) (m : Nat) : Frac :=
  let (fb, bias) := fracBias t
  let e := m / 2 ^ fb
  let f := m % 2 ^ fb
  if e = 0 then Frac.scaled f (1 - bias - fb) else Frac.scaled (2 ^ fb + f) ((e : Int) - bias - fb)

/-- V(T) (R105). -/
def virtV (t : Ty) : Frac :=
  match t with
  | .m8 => Frac.pow2 14
  | .m6 => Frac.pow2 10
  | _ => ieeeMag t (maxFCode t + 1)

/-- The value of magnitude code m, for m up to MaxF. -/
def magVal (t : Ty) (m : Nat) : Frac :=
  if m = 0 then ⟨0, 1⟩ else if isTapered t then taperedMag (width t) m else ieeeMag t m

/-- ScaleOf for codes below 0xFF (R96). -/
def scaleOf (x : Nat) : Frac := Frac.pow2 ((x : Int) - 127)

/-- A finite value with a sign. -/
def signed (neg : Bool) (q : Frac) : Frac := if neg then q.neg else q

/-- Decode (R105): the value of a code of a type. Bits of the code above the type's width are ignored (R103). -/
def decode (t : Ty) (code : Nat) : FVal :=
  let w := width t
  let c := code % 2 ^ w
  if t.isInt then
    let x : Int := if t.isSigned then toSigned w c else c
    if x = 0 then .zero false else .fin (Frac.int x)
  else if t == .e8m0 then
    if c = 0xFF then .nan false else .fin (scaleOf c)
  else
    let neg := bit c (w - 1)
    let m := c % 2 ^ (w - 1)
    if isTapered t then
      if m = 0 then (if neg then .nan false else .zero false) else .fin (signed neg (taperedMag w m))
    else if m ≤ maxFCode t then
      if m = 0 then .zero neg else .fin (signed neg (ieeeMag t m))
    else if hasInf t && m == maxFCode t + 1 then .inf neg
    else .nan (hasInf t && !bit m ((fracBias t).1 - 1))

/-- The greatest magnitude code at most MaxF whose value is at most q, built from bit i - 1 downward. -/
def searchMag (t : Ty) (q : Frac) : Nat → Nat → Nat
  | 0, m => m
  | i + 1, m =>
    let m' := m + 2 ^ i
    searchMag t q i (if m' ≤ maxFCode t && (magVal t m').le q then m' else m)

/-- A magnitude code with a sign; -0 only where the type has it (R105). -/
def withSign (t : Ty) (neg : Bool) (m : Nat) : Nat :=
  if neg && (m != 0 || hasNegZero t) then signBit t + m else m

/-- The code of an infinity, or MaxF where the type has none. -/
def infCode (t : Ty) (neg : Bool) : Nat := withSign t neg (if hasInf t then maxFCode t + 1 else maxFCode t)

/-- Overflow (R106). -/
def overflow (t : Ty) (rm : RMode) (neg : Bool) : Rnd :=
  let toInf := match rm with
    | .ne => true
    | .tz => false
    | .up => !neg
    | .dn => neg
  { code := if hasInf t && toInf then infCode t neg else withSign t neg (maxFCode t), fl := 5 }

/-- Does the mode take the greater magnitude? Given the sides' distances compared and the parity of the lower code (R105). -/
def takeUpper (rm : RMode) (neg : Bool) (below : Ordering) (loOdd : Bool) : Bool :=
  match rm with
  | .ne => match below with
    | .lt => false
    | .gt => true
    | .eq => loOdd
  | .tz => false
  | .up => !neg
  | .dn => neg

/-- Comparison of fractions. -/
def Frac.cmp (a b : Frac) : Ordering := if a.lt b then .lt else if b.lt a then .gt else .eq

/-- Round (R105) of a finite nonzero value. -/
def round (t : Ty) (rm : RMode) (x : Frac) : Rnd :=
  let q := x.abs
  let neg := x.isNeg
  if (virtV t).le q then overflow t rm neg
  else
    let m := searchMag t q (width t - 1) 0
    let lo := magVal t m
    if lo.eq q then { code := withSign t neg m, fl := 0 }
    else
      let hi := if m = maxFCode t then virtV t else magVal t (m + 1)
      let up := takeUpper rm neg ((q.sub lo).cmp (hi.sub q)) (m % 2 == 1)
      let y := if up then m + 1 else m
      if maxFCode t < y then overflow t rm neg
      else { code := withSign t neg y, fl := if q.lt (magVal t (minNCode t)) then 3 else 1 }

/-- RoundInt (R105). -/
def roundInt (rm : RMode) (x : Frac) : Int :=
  let f := x.floor
  if (Frac.int f).eq x then f
  else match rm with
    | .dn => f
    | .up => f + 1
    | .tz => if f < 0 then f + 1 else f
    | .ne => match (x.sub (Frac.int f)).cmp ⟨1, 2⟩ with
      | .lt => f
      | .gt => f + 1
      | .eq => if f % 2 = 0 then f else f + 1

/-- The least and greatest value of an integer type (R91). -/
def minI (t : Ty) : Int := if t.isSigned then -(2 ^ (width t - 1) : Nat) else 0
/-- The greatest value of an integer type (R91). -/
def maxI (t : Ty) : Int := if t.isSigned then (2 ^ (width t - 1) : Nat) - 1 else (2 ^ width t : Nat) - 1
/-- Sat (R105). -/
def sat (t : Ty) (y : Int) : Int := if y < minI t then minI t else if maxI t < y then maxI t else y

/-- Convert (R105, R106, R107). -/
def convert (t : Ty) (rm : RMode) (v : FVal) : Rnd :=
  if t.isInt then
    match v with
    | .nan _ => { code := 0, fl := 16 }
    | .inf neg => { code := ofInt (width t) (if neg then minI t else maxI t), fl := 16 }
    | .zero _ => { code := 0, fl := 0 }
    | .fin x =>
      let y := roundInt rm x
      if y < minI t ∨ maxI t < y then { code := ofInt (width t) (sat t y), fl := 16 }
      else { code := ofInt (width t) y, fl := if (Frac.int y).eq x then 0 else 1 }
  else
    match v with
    | .nan sig =>
      { code := canon t, fl := if sig || (t == .e3m2 || t == .e2m3 || t == .e2m1) then 16 else 0 }
    | .inf neg => if hasInf t then { code := infCode t neg, fl := 0 } else { code := withSign t neg (maxFCode t), fl := 16 }
    | .zero neg => { code := withSign t neg 0, fl := 0 }
    | .fin x => round t rm x

/-- RoundNE (R105). -/
def roundNE (t : Ty) (v : FVal) : Rnd := convert t .ne v

/-- Is a finite value a value of the type? -/
def isValueOf (t : Ty) (x : Frac) : Bool :=
  let q := x.abs
  (magVal t (searchMag t q (width t - 1) 0)).eq q

/-- RoundStoch (R108), with a 32-bit draw. -/
def roundStoch (t : Ty) (v : FVal) (u : Nat) : Rnd :=
  match v with
  | .fin x =>
    let q := x.abs
    if isValueOf t x || (magVal t (maxFCode t)).le q then convert t .ne v
    else
      let m := searchMag t q (width t - 1) 0
      let a := magVal t m
      let b := magVal t (m + 1)
      let p := (((q.sub a).mul ⟨(2 ^ 32 : Nat), 1⟩).div (b.sub a)).floor
      { code := withSign t x.isNeg (if (u : Int) < p then m + 1 else m),
        fl := if q.lt (magVal t (minNCode t)) then 3 else 1 }
  | _ => convert t .ne v

/-- Is some value of the source type not a value of the destination type (R108)? Values are compared as reals, so -0 is 0. -/
def narrowing (src dst : Ty) : Bool :=
  match dst with
  | .f32 => src == .i32 || src == .n32 || src == .i64 || src == .n64
  | .f16 => !(src == .f16 || src == .i8 || src == .n8 || src == .e4m3 || src == .e5m2 || src == .e3m2 || src == .e2m3
      || src == .e2m1 || src == .m8 || src == .m6)
  | .bf16 => !(src == .bf16 || src == .i8 || src == .n8 || src == .e4m3 || src == .e5m2 || src == .e3m2 || src == .e2m3
      || src == .e2m1 || src == .m8 || src == .m6)
  | .e4m3 => !(src == .e4m3 || src == .e3m2 || src == .e2m3 || src == .e2m1 || src == .m6)
  | .e5m2 => !(src == .e5m2 || src == .e3m2 || src == .e2m1 || src == .m6)
  | .e3m2 => !(src == .e3m2 || src == .e2m1)
  | .e2m3 => !(src == .e2m3 || src == .e2m1)
  | .e2m1 => !(src == .e2m1)
  | .m8 => !(src == .m8 || src == .m6 || src == .e3m2 || src == .e2m3 || src == .e2m1)
  | .m6 => !(src == .m6 || src == .e2m1)
  | _ => false

/-- A conversion under FMT (R104, R108): RoundStoch when FMT.STOCH is set and the conversion is narrowing to a floating type, else
Convert under RMODE. -/
def convertFmt (fmt : BitVec 32) (src dst : Ty) (code draw : Nat) : Rnd :=
  let v := decode src code
  if bit fmt.toNat 17 && !dst.isInt && narrowing src dst then roundStoch dst v draw
  else convert dst (rmodeOf (bits fmt.toNat 16 15)) v

/-- An element converted on a copy or queue (R114, R115): integers by value or Sat, every other pair by Convert with NE. -/
def convertCopy (src dst : Ty) (code : Nat) : Nat :=
  if src = dst then code % 2 ^ width src
  else if src.isInt && dst.isInt then
    match decode src code with
    | .fin x => ofInt (width dst) (sat dst x.num)
    | _ => 0
  else (roundNE dst (decode src code)).code

/-- The pairs a copy or queue may convert (R115). -/
def copyPair (src dst : Ty) : Bool :=
  let smallInt (t : Ty) := t == .i8 || t == .i16 || t == .i32 || t == .n8 || t == .n16 || t == .n32
  src == dst || (src.isFloat && dst.isFloat) || (smallInt src && dst.isFp) || (src.isFp && smallInt dst)
    || (smallInt src && smallInt dst)

/-- Six-bit types (R102). -/
def isSix (t : Ty) : Bool := t == .e3m2 || t == .e2m3 || t == .m6

/-- Bytes that n elements occupy, six-bit elements packed or padded (R101 to R103, R116). -/
def layoutBytes (t : Ty) (packed : Bool) (n : Nat) : Nat :=
  if isSix t then (if packed then n * 3 / 4 else n) else if t == .e2m1 then n / 2 else n * (width t / 8)

/-- Bits between elements in a layout. -/
def layoutBits (t : Ty) (packed : Bool) : Nat := if isSix t && !packed then 8 else width t

/-- Element i of a layout held in bytes (R101 to R103). -/
def getElem (t : Ty) (packed : Bool) (bs : List Byte) (i : Nat) : Nat :=
  let b := layoutBits t packed
  leNat bs / 2 ^ (b * i) % 2 ^ width t

/-- The bytes of elements in a layout; padded six-bit elements have bits [7:6] zero (R103). -/
def packElems (t : Ty) (packed : Bool) (xs : List Nat) : List Byte :=
  let b := layoutBits t packed
  let n := xs.foldr (fun x acc => x % 2 ^ width t + acc * 2 ^ b) 0
  leBytes (layoutBytes t packed xs.length) n

/-- Does an element count break R116, each side packed or padded? -/
def countBreaks (src : Ty) (sp : Bool) (dst : Ty) (dp : Bool) (n : Nat) : Bool :=
  (((sp && isSix src) || (dp && isSix dst)) && n % 4 != 0) || ((src == .e2m1 || dst == .e2m1) && n % 2 != 0)

/-- The FMT values that a write refuses (R112). -/
def fmtRefused (f : BitVec 32) : Bool :=
  let okT (n : Nat) := n == 0x00 || n == 0x04 || (0x11 ≤ n && n ≤ 0x19)
  let x := f.toNat
  !okT (bits x 4 0) || !okT (bits x 9 5) || 2 ≤ bits x 11 10 || 4 ≤ bits x 14 12 || bits x 31 24 != 0

/-- The bits an inline constant supplies for a source type (R64, R65). -/
def constBits (t : Ty) (c : Nat) : Nat :=
  let ints : List Int := [0, 1, 2, 3, 4, 5, 6, 7, 8, 16, 32, 64, 128, 256, -1, -2]
  if t.isInt then
    if c < 16 then ofInt (width t) (ints.getD c 0)
    else if c = 30 then ofInt (width t) (minI t)
    else ofInt (width t) (maxI t)
  else
    let f32s : List Nat := [0x3F000000, 0x3E800000, 0x3E000000, 0xBF000000, 0x40490FDB, 0x3FC90FDB, 0x40C90FDB, 0x3F317218, 0x3FB8AA3B]
    let viaInt (x : Int) : Nat := if x = 0 then 0 else (round t .ne (Frac.int x)).code
    if c < 16 then viaInt (ints.getD c 0)
    else if c < 25 then
      if t == .f32 then f32s.getD (c - 16) 0
      else match c with
        | 20 => if t == .f16 then 0x4248 else 0x4049
        | 21 => if t == .f16 then 0x3E48 else 0x3FC9
        | 22 => if t == .f16 then 0x4648 else 0x40C9
        | 23 => if t == .f16 then 0x398C else 0x3F31
        | 24 => if t == .f16 then 0x3DC5 else 0x3FB9
        | _ => (roundNE t (decode .f32 (f32s.getD (c - 16) 0))).code
    else match c with
      | 25 => infCode t false
      | 26 => infCode t true
      | 27 => canon t
      | 28 => maxFCode t
      | _ => minNCode t

end Sys2Proof.Machine
end

