-- ==== Sys2Proof/Machine/Flags.lean ====
section
/-!
DEFINITION. Floating-point arithmetic on codes with the flags each op raises (spec/03_formats.md R94, R104; spec/04_scalar_vector.md
R119, R126 to R130, R149, R150).
-/
namespace Sys2Proof.Machine

/-- Invalid where an operand is a signalling NaN (R94). -/
def sigFlag (v : FVal) : BitVec 5 :=
  match v with
  | .nan true => 16
  | _ => 0

/-- Is the value a NaN? -/
def FVal.isNan : FVal → Bool
  | .nan _ => true
  | _ => false

/-- The real number of a zero or finite value. -/
def FVal.real : FVal → Frac
  | .fin q => q
  | _ => ⟨0, 1⟩

/-- The sign of a value that is no NaN. -/
def FVal.isNeg : FVal → Bool
  | .nan _ => false
  | .inf n => n
  | .zero n => n
  | .fin q => q.isNeg

/-- The canonical NaN with flags. -/
def nanRnd (t : Ty) (fl : BitVec 5) : Rnd := { code := canon t, fl := fl }

/-- A value with its sign changed. -/
def FVal.neg : FVal → FVal
  | .nan s => .nan s
  | .inf n => .inf !n
  | .zero n => .zero !n
  | .fin q => .fin q.neg

/-- A real as a value; an exact zero is +0 (R127). -/
def FVal.ofFrac (q : Frac) : FVal := if q.isZero then .zero false else .fin q

/-- a + b (R126, R127). -/
def addVal (t : Ty) (a b : FVal) : Rnd :=
  if a.isNan || b.isNan then nanRnd t (sigFlag a ||| sigFlag b)
  else match a, b with
    | .inf n, .inf m => if n = m then { code := infCode t n, fl := 0 } else nanRnd t 16
    | .inf n, _ => { code := infCode t n, fl := 0 }
    | _, .inf m => { code := infCode t m, fl := 0 }
    | .zero n, .zero m => { code := withSign t (n && m) 0, fl := 0 }
    | a, b => roundNE t (FVal.ofFrac (a.real.add b.real))

/-- a × b (R126, R127). -/
def mulVal (t : Ty) (a b : FVal) : Rnd :=
  if a.isNan || b.isNan then nanRnd t (sigFlag a ||| sigFlag b)
  else
    let neg := a.isNeg != b.isNeg
    match a, b with
    | .inf _, .zero _ => nanRnd t 16
    | .zero _, .inf _ => nanRnd t 16
    | .inf _, _ => { code := infCode t neg, fl := 0 }
    | _, .inf _ => { code := infCode t neg, fl := 0 }
    | .zero _, _ => { code := withSign t neg 0, fl := 0 }
    | _, .zero _ => { code := withSign t neg 0, fl := 0 }
    | a, b => roundNE t (.fin (a.real.mul b.real))

/-- The exact product as a value, none for 0 × ∞ (R127). -/
def prodVal (a b : FVal) : Option FVal :=
  let neg := a.isNeg != b.isNeg
  match a, b with
  | .inf _, .zero _ => none
  | .zero _, .inf _ => none
  | .inf _, _ => some (.inf neg)
  | _, .inf _ => some (.inf neg)
  | .zero _, _ => some (.zero neg)
  | _, .zero _ => some (.zero neg)
  | a, b => some (.fin (a.real.mul b.real))

/-- Is this pair 0 × ∞? -/
def zeroInf (a b : FVal) : Bool :=
  match a, b with
  | .inf _, .zero _ => true
  | .zero _, .inf _ => true
  | _, _ => false

/-- a × b + c with one rounding (R126, R127). -/
def fmaVal (t : Ty) (a b c : FVal) : Rnd :=
  if zeroInf a b then nanRnd t 16
  else if a.isNan || b.isNan || c.isNan then nanRnd t (sigFlag a ||| sigFlag b ||| sigFlag c)
  else match prodVal a b with
    | none => nanRnd t 16
    | some p => addVal t p c

/-- Comparison of values that are no NaN; zeros compare equal (R128). -/
def cmpVal (a b : FVal) : Ordering :=
  match a, b with
  | .inf n, .inf m => if n = m then .eq else if n then .lt else .gt
  | .inf n, _ => if n then .lt else .gt
  | _, .inf m => if m then .gt else .lt
  | a, b => a.real.cmp b.real

/-- Is a the lesser when -0 is below +0 (R128)? -/
def ltSigned (a b : FVal) : Bool :=
  match cmpVal a b with
  | .lt => true
  | .gt => false
  | .eq => a.isNeg && !b.isNeg

/-- FMIN and FMAX on codes: number wins (R128). -/
def minMaxCode (t : Ty) (wantMax : Bool) (a b : Nat) : Rnd :=
  let va := decode t a
  let vb := decode t b
  let fl := sigFlag va ||| sigFlag vb
  let m := 2 ^ width t
  if va.isNan && vb.isNan then nanRnd t fl
  else if va.isNan then { code := b % m, fl := fl }
  else if vb.isNan then { code := a % m, fl := fl }
  else if wantMax then { code := (if ltSigned va vb then b else a) % m, fl := fl }
  else { code := (if ltSigned vb va then b else a) % m, fl := fl }

/-- Compare conditions on codes: outcome and flags (R128, R143). -/
def fpCmp (t : Ty) (c : CmpC) (a b : Nat) : Bool × BitVec 5 :=
  let va := decode t a
  let vb := decode t b
  let un := va.isNan || vb.isNan
  let quiet := sigFlag va ||| sigFlag vb
  let sig : BitVec 5 := if un then 16 else 0
  let o := cmpVal va vb
  match c with
  | .eq => (!un && o == .eq, quiet)
  | .ne => (un || o != .eq, quiet)
  | .lt => (!un && o == .lt, sig)
  | .le => (!un && o != .gt, sig)
  | .gt => (!un && o == .gt, sig)
  | .ge => (!un && o != .lt, sig)
  | .un => (un, quiet)
  | .or => (!un, quiet)

/-- FADD (R126). -/
def fpAdd (t : Ty) (a b : Nat) : Rnd := addVal t (decode t a) (decode t b)
/-- FSUB (R126). -/
def fpSub (t : Ty) (a b : Nat) : Rnd := addVal t (decode t a) (decode t b).neg
/-- FMUL (R126). -/
def fpMul (t : Ty) (a b : Nat) : Rnd := mulVal t (decode t a) (decode t b)
/-- FFMA (R126). -/
def fpFma (t : Ty) (a b c : Nat) : Rnd := fmaVal t (decode t a) (decode t b) (decode t c)

/-- FSGN (R130): a's magnitude with the chosen sign. -/
def fpSgn (t : Ty) (m : SgnMode) (a b : Nat) : Rnd :=
  let va := decode t a
  if va.isNan then nanRnd t (sigFlag va)
  else
    let sa := bit a (width t - 1)
    let sb := bit b (width t - 1)
    let neg := match m with
      | .j => sb
      | .jn => !sb
      | .jx => sa != sb
      | .abs => false
    { code := a % signBit t + (if neg then signBit t else 0), fl := 0 }

/-- FCLASS (R130). -/
def fpClass (t : Ty) (a : Nat) : Nat :=
  match decode t a with
  | .nan s => if s then 2 ^ 8 else 2 ^ 9
  | .inf n => if n then 1 else 2 ^ 7
  | .zero n => if n then 2 ^ 3 else 2 ^ 4
  | .fin q =>
    let sub := q.abs.lt (magVal t (minNCode t))
    if q.isNeg then (if sub then 2 ^ 2 else 2) else if sub then 2 ^ 5 else 2 ^ 6

/-- A magnitude with sign 0 (R142 VABS on FP). -/
def fpAbs (t : Ty) (a : Nat) : Rnd := fpSgn t .abs a 0

end Sys2Proof.Machine
end

