-- ==== Sys2Proof/Machine/Operands.lean ====
section
/-!
DEFINITION. Operands: reading sources (R62 to R65, R117), writing destinations with their exposed latency in bundle form and at once
in thread form (R37 to R41), predicates, vector elements under a governing predicate (R20, R141), and program-counter advance.
-/
namespace Sys2Proof

/-- Bits of a vector width (R20, R60). -/
def VW.bits : VW → Nat
  | .w256 => 256
  | .w512 => 512
  | .w1024 => 1024

end Sys2Proof

namespace Sys2Proof.Machine

/-- Element width in a vector register: six-bit elements take eight bits (R141). -/
def vw (t : Ty) : Nat := layoutBits t false

/-- A value in every element of width w (R65). -/
def splat (w x : Nat) : Vec :=
  BitVec.ofNat 1024 ((List.range (1024 / w)).foldr (fun _ acc => x % 2 ^ w + acc * 2 ^ w) 0)

/-- A scalar source (R62 to R65): s0 and x0 read zero (R19, R23); a constant supplies the bits of the source type. -/
def State.rd (s : State) (t : Ty) (o : Opd) : Word :=
  match o with
  | .imm c => BitVec.ofNat 64 (constBits t c.val)
  | .sx n => if n = 0 then 0 else match s.cur with
    | .core c _ => mget 0 (s.core c).arch.s n
    | .thr u => mget 0 (s.thread u).x n
  | .kreg n => match s.cur with
    | .core _ _ => 0
    | .thr u => mget 0 (s.group u.unit u.group).k n
  | _ => 0

/-- A 64-bit integer source read as signed constants supply it (R118). -/
def State.ri (s : State) (o : Opd) : Word := s.rd .i64 o
/-- A 64-bit integer source of the unsigned ops (R118). -/
def State.rn (s : State) (o : Opd) : Word := s.rd .n64 o

/-- A vector source; a constant is supplied in every element (R117). -/
def State.rv (s : State) (t : Ty) (o : Opd) : Vec :=
  match o, s.cur with
  | .vec n, .core c _ => mget 0 (s.core c).arch.v n
  | .imm k, _ => splat (vw t) (constBits t k.val)
  | _, _ => 0

/-- A predicate of the running agent: p0 is all ones; in thread form its one bit fills every position (R18, R23). -/
def State.rp (s : State) (n : Fin 8) : Pred :=
  if n = 0 then BitVec.allOnes 128
  else match s.cur with
    | .core c _ => mget 0 (s.core c).arch.p n
    | .thr u => if bit (s.thread u).p.toNat n then BitVec.allOnes 128 else 0

/-- Bit [0] of a predicate (R124, R368). -/
def State.pb (s : State) (n : Fin 8) : Bool := (s.rp n).getLsbD 0

/-- FMT in effect for the running agent (R44, R113). -/
def State.fmt (s : State) : BitVec 32 :=
  match s.cur with
  | .core c _ => (s.core c).arch.fmt
  | .thr u => (s.thread u).fmt

/-- An exposed result put in flight: it lands n advance cycles on (R39). -/
def State.put (s : State) (c n : Nat) (l : Land) : State := s.modCore c fun x => { x with flight := x.flight ++ [(n, l)] }

/-- A scalar destination (R19, R39, R117): in flight for n advance cycles in bundle form, at once in thread form. -/
def State.wr (s : State) (n : Nat) (d : Opd) (x : Word) : State :=
  match d with
  | .sx i => if i = 0 then s else match s.cur with
    | .core c _ => s.put c n (.sreg i x)
    | .thr u => s.modThread u fun t => { t with x := mset 0 t.x i x }
  | _ => s

/-- A predicate destination (R19, R133): the positions under `mask` in bundle form, the single bit in thread form. -/
def State.wp (s : State) (n : Nat) (d : Fin 8) (mask x : Pred) : State :=
  if d = 0 then s
  else match s.cur with
    | .core c _ => s.put c n (.preg d mask x)
    | .thr u => s.modThread u fun t =>
        { t with p := if x.getLsbD 0 then t.p ||| ((1 : Byte) <<< d.val) else t.p &&& ~~~((1 : Byte) <<< d.val) }

/-- A vector destination: bits under `mask` (R20, R39). -/
def State.wv (s : State) (n : Nat) (d : Opd) (mask x : Vec) : State :=
  match d, s.cur with
  | .vec i, .core c _ => s.put c n (.vreg i mask x)
  | _, _ => s

/-- Flags ORed into FFLAGS: with the result's landing in bundle form, at once in thread form (R120). -/
def State.raise (s : State) (n : Nat) (f : BitVec 5) : State :=
  if f = 0 then s
  else match s.cur with
    | .core c _ => s.put c n (.flags f)
    | .thr u => s.modThread u fun t => { t with fflags := t.fflags ||| f }

/-- Where the running thread's next word is; a core's program counter moves once per bundle, at its end (R16, R17, R74). -/
def State.advance (s : State) : State :=
  match s.cur with
  | .core _ _ => s
  | .thr u => s.modThread u fun t => { t with pc := t.pc + 8 }

/-- An op that completes. -/
def State.done (s : State) : Res := .ok s.advance

/-- A scalar FP result with its flags; in thread form a flag whose TEN bit is set traps instead (R113, R119, R120). -/
def State.fpDone (s : State) (n : Nat) (d : Opd) (r : Rnd) : Res :=
  match s.cur with
  | .core _ _ => ((s.wr n d (BitVec.ofNat 64 r.code)).raise n r.fl).done
  | .thr u =>
    if BitVec.ofNat 5 (bits (s.thread u).fmt.toNat 23 19) &&& r.fl = 0 then
      ((s.wr n d (BitVec.ofNat 64 r.code)).raise n r.fl).done
    else trapRes s 0x19 r.fl.toNat

/-- Is element i of width w active under a predicate: its lowest byte position (R20, R141)? -/
def active (p : Pred) (w i : Nat) : Bool := p.getLsbD (w * i / 8)

/-- The elements of a vector. -/
def velems (v : Vec) (w n : Nat) : List Nat := (List.range n).map fun i => vecElem v w i

/-- A mask and bits from optional elements of width w: an absent element is kept (R20). -/
def vbuild (w : Nat) (xs : List (Option Nat)) : Vec × Vec :=
  let f (x : Option Nat) (acc : Nat × Nat) : Nat × Nat :=
    match x with
    | some v => (2 ^ w - 1 + acc.1 * 2 ^ w, v % 2 ^ w + acc.2 * 2 ^ w)
    | none => (acc.1 * 2 ^ w, acc.2 * 2 ^ w)
  let r := xs.foldr f (0, 0)
  (BitVec.ofNat 1024 r.1, BitVec.ofNat 1024 r.2)

/-- A vector result from optional elements. -/
def State.wvElems (s : State) (n : Nat) (d : Opd) (w : Nat) (xs : List (Option Nat)) : State :=
  let r := vbuild w xs
  s.wv n d r.1 r.2

/-- Number of elements of a vector op (R141). -/
def vcount (v : VHdr) : Nat := v.w.bits / vw v.ty

/-- Does a thread word execute under its P field (R73)? -/
def predOk (p : Byte) (field : Nat) : Bool :=
  let v := field % 8 == 0 || bit p.toNat (field % 8)
  if field < 8 then v else !v

end Sys2Proof.Machine
end

