-- ==== Sys2Proof/Machine/Control.lean ====
section
/-!
DEFINITION. What the control regions and the capability list read as (R378, R383, R384, R386, R454 to R459, R463, R465, R467), and the
figures that the configuration payload and the tables give: capacity, tag region, secure memory, partitions.
-/
namespace Sys2Proof.Machine

/-- Control windows (log 17), by number: 0 submission window, 1 BEMIN, 2 BEWIN, 3 TGWIN, 4 and 5 queue tables, 6 trace descriptors,
7 debug registers, 8 energy counters, 10 region table, 11 partition table, 12 and 13 address-space bases, 14 hart partition registers,
15 invalidation window, 16 POWERCAP, 17 PCI Express, 18 ingress, 19 attestation, 20 and 21 Ethernet, 22 safety mailbox, 31 the
capability list. -/
def windowOf (pa : Nat) : Nat := (pa - Config.ctlBase) / 2 ^ 24

/-- Is the address in the model's device windows? -/
def isWindow (pa : Nat) : Bool := Config.ctlBase ≤ pa && pa < Config.ctlBase + 32 * 2 ^ 24

/-- Is the address in a control region (R383)? The capability list is none. -/
def isControl (pa : Nat) : Bool := isWindow pa && windowOf pa != 31

/-- The physical address of a window. -/
def windowPa (k : Nat) : Nat := Config.ctlBase + 2 ^ 24 * k

/-- A field of the configuration payload in effect (R449). -/
def State.cfg (s : State) (off n : Nat) : Nat := fieldAt s.reeve.cfg off n

/-- Installed capacity in bytes (R390, R449). -/
def State.capacity (s : State) : Nat := 2 ^ 30 * s.cfg 6 2
/-- TAGBASE (R400). -/
def State.tagBase (s : State) : Nat := s.capacity - s.capacity / 64

/-- Does an address lie in a region entry (R378)? -/
def regionHas (e : Word × Word) (pa : Nat) : Bool :=
  let first := bits e.1.toNat 43 21 * 2 ^ 21
  let last := bits e.2.toNat 43 21 * 2 ^ 21
  bit e.2.toNat 0 && first ≤ pa && pa < last + 2 ^ 21

/-- Is the address secure memory (R378)? -/
def State.secure (s : State) (pa : Nat) : Bool := s.iso.regions.any fun e => bit e.2.2.toNat 1 && regionHas e.2 pa

/-- A partition's entry in effect (R386). -/
def State.part (s : State) (p : Nat) : List Byte := mget (zeros 32) s.iso.parts p
/-- EN. -/
def State.partEn (s : State) (p : Nat) : Bool := bit (fieldAt (s.part p) 0 1) 0
/-- WORLD of a partition. -/
def State.partWorld (s : State) (p : Nat) : Bool := bit (fieldAt (s.part p) 0 1) 1
/-- PRIV. -/
def State.partPriv (s : State) (p : Nat) : Bool := bit (fieldAt (s.part p) 0 1) 2
/-- HWAYS (R386). -/
def State.partHways (s : State) (p : Nat) : Nat := bits (fieldAt (s.part p) 2 1) 3 0
/-- WAYS (R386). -/
def State.partWays (s : State) (p : Nat) : Nat := fieldAt (s.part p) 4 4
/-- A partition pool's budget, rounded up to 64 bytes; a disabled partition counts zero (R352, R386). -/
def State.poolBudget (s : State) (p : Nat) : Nat := if s.partEn p then (fieldAt (s.part p) 8 4 + 63) / 64 * 64 else 0

/-- A trace descriptor with nothing configured (R315; log 4). -/
def TraceDesc.reset : TraceDesc :=
  { desc := zeros 64, wp := 0, rp := 0, faultva := 0, lost := 0, gapLost := 0, gapFault := false, susp := false, status := 0, rused := 0 }

/-- The 64-byte descriptor of a trace buffer as software reads it (R315). -/
def State.traceBytes (s : State) (p : Nat) (sec : Bool) : List Byte :=
  let d := mget TraceDesc.reset s.hedge.desc p
  let mode := fieldAt d.desc 9 1 % 8 + (if d.susp then 8 else 0)
  let mode := if sec then mode else mode % 4 + mode / 8 * 8
  let b := putField d.desc 9 1 mode
  let b := putField b 11 1 d.status
  let b := putField b 16 8 d.wp.toNat
  let b := putField b 24 8 d.rp.toNat
  let b := putField b 32 8 d.faultva.toNat
  let b := putField b 40 4 d.lost
  putField b 60 4 d.rused

/-- A queue with nothing configured (R293; log 4). -/
def Queue.reset : Queue := { desc := zeros 64, items := [], drops := 0, waiters := [] }
/-- A queue by its 13-bit ID: index and die (R293). -/
def State.queue (s : State) (q : Nat) : Queue := mget Queue.reset s.queues q
/-- A queue replaced. -/
def State.setQueue (s : State) (q : Nat) (x : Queue) : State := { s with queues := mset Queue.reset s.queues q x }

/-- The power pool in units (R467). -/
def poolUnits (cap : Nat) : Nat := (cap - 35) * 16

/-- The engines of a resident job's card, or of its home set: NENG cores, or G units (R339, R355). -/
def engCount (card : List Byte) : Nat := if Card.eng card = 0 then Card.neng card else Card.groups card

/-- Units that resident deadline cards reserve (R355). -/
def State.reservedUnits (s : State) : Nat :=
  (s.beadle.slots.map fun e => match e.2 with
    | some x => if Card.deadline x.card = 0 then 0 else engCount x.card * Card.leavemax x.card
    | none => 0).sum

/-- Units granted by LEAVE (R355). -/
def State.grantedUnits (s : State) : Nat :=
  (s.cores.map fun e => e.2.eng.granted).sum +
  (s.units.map fun e => (e.2.groups.map fun g => match g.2 with
    | some x => x.granted
    | none => 0).sum).sum

/-- Default of an ingress port. -/
def IngressPort.reset : IngressPort := { ctrl := 0, frames := 0, pkterr := 0, chans := [], frame := [] }
/-- Default of an Ethernet ring. -/
def EthRing.reset : EthRing := { base := 0, log2n := 0, head := 0, tail := 0, msiaddr := 0, msidata := 0, drops := 0 }
/-- Default of a MAC. -/
def Mac.reset : Mac := { ctrl := 0, link := false, macaddr := 0, tx := [], rx := [], reeve := [], sent := [], msi := [] }

/-- The two words of the stage record (R453). -/
def State.stageWords (s : State) : Nat × Nat :=
  let r := s.reeve
  (r.stage.toNat + r.clust.toNat * 2 ^ 8 + r.vu.toNat * 2 ^ 16 + r.memrate.toNat * 2 ^ 48 + r.failcode.toNat * 2 ^ 56,
   r.mout.toNat + r.vout.toNat * 2 ^ 32)

/-- A code of the time base's state (R305). -/
def timeCode : TimeState → Nat
  | .free => 0
  | .locking => 1
  | .locked => 2
  | .holdover => 3

/-- A capability record: ID, version 1, NEXT, LEN and the fields after the header (R454). -/
def capRecord (id len next : Nat) (body : List Byte) : List Byte :=
  putBytes (zeros len) 0 (leBytes 2 id ++ [1, 0] ++ leBytes 2 next ++ leBytes 2 len ++ body)

/-- 8-byte fields in a row. -/
def words (l : List Nat) : List Byte := l.flatMap (leBytes 8)

/-- The records of the capability list (R456, R457), as ID, LEN and contents. -/
def State.capRecords (s : State) : List (Nat × Nat × List Byte) :=
  let st := s.stageWords
  [ (0x01, 0x18, words [st.1, st.2]),
    (0x02, 0x20, leBytes 1 (timeCode s.reeve.timeState) ++ leBytes 1 s.reeve.timeSrc ++ zeros 6 ++ words [s.reeve.esec.toNat]),
    (0x03, 0x48, words [windowPa 0, windowPa 1, windowPa 2, s.cfg 0x28 8, s.cfg 0x30 8, s.cfg 0x38 8] ++ leBytes 4 (s.cfg 0x54 2)
      ++ zeros 4 ++ words [s.cfg 0x38 8 / 2]),
    (0x04, 0x10, words [windowPa 3]),
    (0x05, 0x18, words [windowPa 4, windowPa 5]),
    (0x06, 0x18, words [windowPa 6, windowPa 7]),
    (0x07, 0x10, words [windowPa 8]),
    (0x08, 0x20, words [s.cfg 0x40 8, s.cfg 0x48 8] ++ leBytes 4 (s.cfg 0x50 4)),
    (0x09, 0x38, words [windowPa 10, windowPa 11, windowPa 12, windowPa 13, windowPa 14, windowPa 15]),
    (0x0A, 0x18, words [s.capacity, s.tagBase]),
    (0x0B, 0x20, words [windowPa 16] ++ leBytes 4 (poolUnits s.beadle.powercap.toNat) ++ leBytes 4 s.reservedUnits
      ++ leBytes 4 s.grantedUnits),
    (0x0C, 0x10, words [windowPa 17]),
    (0x0D, 0x10, words [windowPa 18]),
    (0x0E, 0x10, words [windowPa 19]),
    (0x0F, 0x18, words [windowPa 20, windowPa 21]),
    (0x10, 0x10, words [windowPa 22]) ]

/-- The bytes of the capability list (R454, R455): NEXT is the record's length, 0 in the last. -/
def State.capList (s : State) : List Byte :=
  s.capRecords.flatMap fun r => capRecord r.1 r.2.1 (if r.1 == 0x10 then 0 else r.2.1) r.2.2

/-- An Ethernet ring's register (R463). -/
def EthRing.reg (r : EthRing) (off : Nat) : Nat :=
  match off / 8 with
  | 0 => r.base.toNat
  | 1 => r.log2n.toNat
  | 2 => r.head
  | 3 => r.tail
  | 4 => r.msiaddr.toNat
  | 5 => r.msidata.toNat
  | 6 => r.drops.toNat
  | _ => 0

/-- The 8-byte word at an offset of a window, as a requester of a world reads it (R384). -/
def State.ctlWord (s : State) (sec : Bool) (win off : Nat) : Nat :=
  match win with
  | 1 => s.beadle.bemin.toNat
  | 2 => s.beadle.bewin
  | 3 => s.beadle.tgwin
  | 4 => fieldAt (s.queue (off / 64)).desc (off % 64) 8
  | 5 => fieldAt (s.queue (4096 + off / 64)).desc (off % 64) 8
  | 6 => fieldAt (s.traceBytes (off / 64) sec) (off % 64) 8
  | 7 =>
    let src := off / 16
    let e := if src < 32 then (s.core src).eng else (s.unit (src - 32)).eng
    if off % 16 = 0 then (if e.tstop then 4 else 0) + e.sel0.toNat * 8 + e.seln.toNat * 2 ^ 14
    else match e.stopped with
      | some c => 1 + c * 2 + e.stepStatus * 16
      | none => e.stepStatus * 16
  | 8 => (mget 0 s.beadle.counters (off / 8)).toNat
  | 10 => if !sec then 0 else
    let e := mget (0, 0) s.iso.regions (off / 16)
    if off % 16 = 0 then e.1.toNat else e.2.toNat
  | 11 => if !sec && s.partWorld (off / 32) then 0 else fieldAt (s.part (off / 32)) (off % 32) 8
  | 12 => s.iso.astN.toNat
  | 13 => if sec then s.iso.astS.toNat else 0
  | 14 => (mget 0 s.iso.hartPart (off / 8)).toNat
  | 15 => if off = 0 then s.iso.invAddr.toNat else bits s.iso.invCmd.toNat 62 0 + (if s.iso.invBusy then 2 ^ 63 else 0)
  | 16 => s.beadle.powercap.toNat + s.beadle.powerStatus.toNat * 256
  | 17 => match off / 8 with
    | 0 => s.bnd.pcieCtrl.toNat
    | 1 => s.bnd.pcieLink.toNat
    | 2 => s.bnd.peerld.toNat
    | 3 => s.bnd.peerst.toNat
    | 4 => s.bnd.peerat.toNat
    | _ => 0
  | 18 =>
    let p := mget IngressPort.reset s.bnd.ports (off / 1024)
    let o := off % 1024
    if o = 0 then p.ctrl.toNat else if o = 8 then p.frames.toNat else if o = 16 then p.pkterr.toNat
    else if 0x100 ≤ o && o < 0x300 then fieldAt (mget (zeros 32) p.chans ((o - 0x100) / 32)) (o % 32) 8 else 0
  | 19 => if off = 8 then s.reeve.attStatus else if off = 16 then s.reeve.attReport.toNat
    else if 0x40 ≤ off && off < 0x80 then fieldAt s.reeve.attNonce (off - 0x40) 8
    else if 0x80 ≤ off && off < 0xC0 then fieldAt s.reeve.attDigest (off - 0x80) 8 else 0
  | 20 | 21 =>
    let m := mget Mac.reset s.bnd.macs (win - 20)
    if off = 0 then m.ctrl.toNat else if off = 8 then (if m.link then 1 else 0) else if off = 16 then m.macaddr.toNat
    else if 0x100 ≤ off && off < 0x200 then (mget EthRing.reset m.tx ((off - 0x100) / 64)).reg (off % 64)
    else if 0x200 ≤ off && off < 0x300 then (mget EthRing.reset m.rx ((off - 0x200) / 64)).reg (off % 64) else 0
  | 22 => if !sec then 0
    else if off < 0x800 then fieldAt (mget (zeros 128) s.reeve.txSlots (off / 128)) (off % 128) 8
    else if off < 0x1800 then fieldAt (mget (zeros 128) s.reeve.rxSlots ((off - 0x800) / 128)) (off % 128) 8
    else if off = 0x1800 then s.reeve.rxDrops else 0
  | 31 => fieldAt s.capList off 8
  | _ => 0

/-- One byte of a device window as a requester reads it; an unprivileged requester reads a control region as zero. -/
def State.ctlByte (s : State) (world : Bool) (_part : Nat) (priv : Bool) (pa : Nat) : Byte :=
  let win := windowOf pa
  let off := (pa - Config.ctlBase) % 2 ^ 24
  if win != 31 && !priv then 0
  else BitVec.ofNat 8 (s.ctlWord world win (off / 8 * 8) / 256 ^ (off % 8))

end Sys2Proof.Machine
end

