-- ==== Sys2Proof/Machine/Memory.lean ====
section
/-!
DEFINITION. Memory: worlds and regions (R377 to R379), encryption marks and poison (R402 to R405, R435), page walks and TLBs (R390 to
R399), tags (R400, R401), the checks of R265, the L1s (R228, R229, R246) and the home agent (R230).
-/
namespace Sys2Proof.Machine

/-! ### The home agent -/

/-- The 64 bytes that a sector's contents encrypt to (R402, R405). -/
@[irreducible] def State.cipherSector (s : State) (m : List Host.Cell) (sector : Nat) : List Byte :=
  let x := xtsSector s.reeve.boots sector (readBytes m (sector * 64) 64)
  (List.range 64).map fun i => x.getD i 0

/-- Is the address in the tag region, which only TGLD, TGST and tag checks reach (R390)? -/
def State.inTags (s : State) (pa : Nat) : Bool := s.tagBase ≤ pa && pa < s.capacity

/-- A physical byte as a request of a world reads it; the tag region reads 0 (R390, log 118), with the cause of its poison if it has one (R379, R402 to R405). -/
def State.homeByte (s : State) (world : Bool) (pa : Nat) : Byte × Option Nat :=
  let sec := s.secure pa
  if s.inTags pa then (0, none)
  else if sec && !world then (byteAt s.mem pa, some 0x12)
  else
    let p := mget 0 s.poisoned (pa / 64)
    if p != 0 then (byteAt s.mem pa, some p)
    else if sec && !s.sealed.contains (pa / 64) then (byteAt s.mem pa, some 0x11)
    else if !sec && s.sealed.contains (pa / 64) then
      ((s.cipherSector s.mem (pa / 64)).getD (pa % 64) 0, none)
    else (byteAt s.mem pa, none)

/-- n bytes read at the home agent, with the poison cause of the lowest poisoned byte and its offset. -/
def State.homeRead (s : State) (world : Bool) (pa : Nat) : Nat → List Byte × Option (Nat × Nat)
  | 0 => ([], none)
  | n + 1 =>
    let b := s.homeByte world pa
    let r := s.homeRead world (pa + 1) n
    (b.1 :: r.1, match b.2 with
      | some c => some (c, 0)
      | none => r.2.map fun x => (x.1, x.2 + 1))

/-- The bytes of one 64-byte sector written (R379, R404): discarded in the tag region (R390), from a non-secure requester in secure memory, and on a partial write
where the sector is poisoned or its merging read fails; a whole write clears poison and seals a secure sector. -/
def State.writeSector (s : State) (world : Bool) (sector : Nat) (cells : List Host.Cell) : State :=
  let sec := s.secure (sector * 64)
  if s.inTags (sector * 64) || (sec && !world) then s
  else
    let whole := (cells.map (·.1)).eraseDups.length == 64
    let bad := mget 0 s.poisoned sector != 0 || (sec && !s.sealed.contains sector)
    if bad && !whole then s
    else
      let cipher := !sec && s.sealed.contains sector
      let mem := if cipher && !whole then
          writeBytes s.mem (sector * 64) (s.cipherSector s.mem sector)
        else s.mem
      { s with mem := cells.foldl (fun m c => setByte m c.1 c.2) mem,
               poisoned := if whole then mset 0 s.poisoned sector 0 else s.poisoned,
               sealed := if sec then (if whole then insertNat s.sealed sector else s.sealed)
                         else if s.sealed.contains sector then s.sealed.filter (· != sector) else s.sealed }

/-- Physical bytes written at the home agent, sector by sector; reservations of harts that meet them end (R252). -/
def State.writeSectors (s : State) (world : Bool) (cells : List Host.Cell) : State :=
  let s := (cells.map fun c => c.1 / 64).eraseDups.foldl
    (fun s k => s.writeSector world k (cells.filter fun c => c.1 / 64 == k)) s
  { s with bnd := { s.bnd with reserve := s.bnd.reserve.filter fun e => !cells.any fun c => e.2.1 ≤ c.1 && c.1 < e.2.1 + e.2.2 } }

/-- Consecutive bytes as cells. -/
def cellsOf (pa : Nat) (bs : List Byte) : List Host.Cell := (List.range bs.length).map fun i => (pa + i, bs.getD i 0)

/-- Bytes that Reeve writes to memory of its own (R437, R448): a secure sector that it has never written whole is, with zeros beside them
(log 152). -/
def State.reeveWrite (s : State) (cells : List Host.Cell) : State :=
  let fresh := (cells.map fun c => c.1 / 64).eraseDups.filter fun k => s.secure (k * 64) && !s.sealed.contains k && mget 0 s.poisoned k = 0
  s.writeSectors true (fresh.flatMap (fun k => cellsOf (k * 64) (zeros 64)) ++ cells)

/-- An error-log record (R437): SRC, KIND, CAUSE, PART, JOBID, ADDR, INFO in the ring of a world; rings come with the configuration
payload, and none is kept before it. -/
def State.errorLog (s : State) (sec : Bool) (src kind cause part jobid addr info : Nat) : State :=
  let size := s.cfg 0x50 4
  if size = 0 then s
  else
    let base := if sec then s.cfg 0x48 8 else s.cfg 0x40 8
    let n := if sec then s.reeve.elogS else s.reeve.elogN
    let cap := (size - 64) / 32
    let bs := leBytes 8 s.ptime ++ leBytes 1 src ++ leBytes 1 kind ++ leBytes 1 cause ++ leBytes 1 part ++ leBytes 4 jobid
      ++ leBytes 8 addr ++ leBytes 8 info
    let s := s.reeveWrite (cellsOf (base + 64 + 32 * (n % cap)) bs)
    let s := s.reeveWrite (cellsOf base (leBytes 8 (n + 1) ++ leBytes 8 (n + 1 - cap) ++ zeros 48))
    { s with reeve := if sec then { s.reeve with elogS := n + 1 } else { s.reeve with elogN := n + 1 } }

/-- Both error logs begin, with headers that count nothing (R437, R457). -/
def State.openLogs (s : State) : State :=
  if s.cfg 0x50 4 = 0 then s else (s.reeveWrite (cellsOf (s.cfg 0x40 8) (zeros 64))).reeveWrite (cellsOf (s.cfg 0x48 8) (zeros 64))

/-- A request of a world for some bytes that fails the check of the region table is recorded by Reeve, at its lowest failing byte (R379;
log 119). -/
def State.noteWorld (s : State) (world : Bool) (pas : List Nat) : State :=
  match pas.filter fun pa => s.secure pa && !world with
  | [] => s
  | pa :: rest => s.errorLog true 0x61 2 0x12 0 0 (rest.foldl min pa) 0

/-- Physical bytes written at the home agent; a request that fails the check of the region table is recorded (R379). -/
def State.homeWrite (s : State) (world : Bool) (cells : List Host.Cell) : State :=
  (s.noteWorld world (cells.map (·.1))).writeSectors world cells

/-- n bytes that an engine reads at the home agent, a failed check of the region table recorded (R379). -/
def State.homeFetch (s : State) (world : Bool) (pa n : Nat) : (List Byte × Option (Nat × Nat)) × State :=
  (s.homeRead world pa n, s.noteWorld world ((List.range n).map (pa + ·)))

/-! ### Requesters -/

/-- Who accesses: engine, address space, world, privilege and partition (R377, R383). -/
structure Ctx where
  dom : Dom
  asid : Nat
  world : Bool
  priv : Bool
  part : Nat
  /-- JOBID of the job whose access it is, 0 for an access of the device itself -/
  job : Nat
  deriving DecidableEq, Repr

/-- The number of a resident slot's private address space, above every ASID (R329). -/
def privateAsid (slot : Nat) : Nat := 2 ^ 16 + slot
/-- The slot whose private address space has a number. -/
def privateSlot (asid : Nat) : Option Nat := if 2 ^ 16 ≤ asid then some (asid - 2 ^ 16) else none
/-- Where a private address space lies in the model: above every physical address (log 140). -/
def privatePa (slot va : Nat) : Nat := 2 ^ 48 * (slot + 1) + va % 2 ^ 48

/-- The address space of a card's job: the card's ASID, or a private one while the job replays a capture (R329). -/
def State.jobAsid (s : State) (card : List Byte) : Nat :=
  match s.beadle.slots.find? (fun e => match e.2 with
    | some z => z.replay.isSome && Card.jobid z.card == Card.jobid card
    | none => false) with
  | some e => privateAsid e.1
  | none => Card.asid card

/-- The device as a requester, in a card's address space and world. -/
def State.ctxDevice (s : State) (card : List Byte) : Ctx :=
  { dom := .core 0, asid := Card.asid card, world := Card.world card, priv := s.partPriv (Card.part card), part := Card.part card, job := 0 }

/-- The requester that a card's accesses are made for. -/
def State.ctxCard (s : State) (d : Dom) (card : List Byte) : Ctx :=
  { s.ctxDevice card with dom := d, asid := s.jobAsid card, job := Card.jobid card }

/-- The requester of an agent's accesses. -/
def State.ctx (s : State) (a : Agent) : Ctx := s.ctxCard a.dom (s.cardAt a)

/-! ### Translation -/

/-- The base of a world's address-space table, when valid (R391). -/
def State.astBase (s : State) (world : Bool) : Option Nat :=
  let r := if world then s.iso.astS else s.iso.astN
  if bit r.toNat 0 then some (bits r.toNat 43 19 * 2 ^ 19) else none

/-- An 8-byte walk read at the home agent; none where the requester's world may not reach it (R392, R394), nor any walk (R390). -/
def State.walkRead (s : State) (world : Bool) (pa : Nat) : Option Nat :=
  if (s.secure pa && !world) || s.inTags pa then none else some (leNat (s.homeRead world pa 8).1)

/-- A leaf that a walk finds: where the entry lies, the entry, log2 of the page, the page's physical base. -/
structure Leaf where
  entryPa : Nat
  entry : Nat
  log : Nat
  pbase : Nat
  deriving DecidableEq, Repr

/-- Is a leaf entry malformed at its level (R394)? -/
def leafBad (s : State) (lvl e : Nat) : Bool :=
  let ppn := bits e 43 12
  let mt := bits e 9 8
  (bit e 3 && !bit e 2) || mt == 3 || (bit e 10 && mt != 0) || (bit e 11 && lvl != 0) || ppn % 2 ^ (9 * lvl) != 0
    || (ppn * 4096 < s.capacity && s.tagBase < ppn * 4096 + 2 ^ (12 + 9 * lvl))

/-- The upper bits of an address that name the table of a level on its path (R392). -/
def walkUpper (lvl va : Nat) : Nat := va % 2 ^ 48 / 2 ^ (21 + 9 * lvl)

/-- Does a walk-cache entry lie on the path of an address (R396)? -/
def WalkEntry.hits (w : WalkEntry) (asid : Nat) (world : Bool) (va : Nat) : Bool :=
  w.asid == asid && w.world == world && w.upper == walkUpper w.lvl va

/-- The lowest table of an address's path that a walk cache holds (R396). -/
def walkFind (l : List WalkEntry) (asid : Nat) (world : Bool) (va : Nat) : Option WalkEntry :=
  (l.filter fun w => w.hits asid world va).foldl
    (fun best w => match best with
      | none => some w
      | some b => if w.lvl < b.lvl then some w else some b) none

/-- A walk from the table of a level down to level 0 (R392, R394), with the tables it found on its way, by level. -/
def State.walkFrom (s : State) (world : Bool) (va : Nat) : Nat → Nat → Option (Leaf × List (Nat × Nat))
  | lvl, tbl =>
    let pa := tbl + 8 * (va / 2 ^ (12 + 9 * lvl) % 512)
    match s.walkRead world pa with
    | none => none
    | some e =>
      if !bit e 0 || bits e 63 44 != 0 then none
      else if bit e 1 then
        if lvl = 3 || leafBad s lvl e then none
        else if bit e 11 then some (⟨pa, e, 16, bits e 43 16 * 65536⟩, [])
        else some (⟨pa, e, 12 + 9 * lvl, bits e 43 12 * 4096⟩, [])
      else if bits e 11 2 != 0 then none
      else match lvl with
        | 0 => none
        | l + 1 => (s.walkFrom world va l (bits e 43 12 * 4096)).map fun r => (r.1, r.2 ++ [(l, bits e 43 12 * 4096)])

/-- The table of the root of an address space (R391). -/
def State.walkRoot (s : State) (world : Bool) (asid : Nat) : Option Nat :=
  match s.astBase world with
  | none => none
  | some base =>
    match s.walkRead world (base + 8 * asid) with
    | none => none
    | some e => if !bit e 0 || bits e 63 44 != 0 then none else some (bits e 43 12 * 4096)

/-- The walk of an address (R391, R392): from the lowest table that the walk cache of a TLB holds, else from the root; with the leaf, the
tables found that the cache does not hold. -/
def State.walk (s : State) (n : Nat) (world : Bool) (asid va : Nat) : Option (Leaf × List WalkEntry) :=
  let entry (t : Nat × Nat) : WalkEntry := { lvl := t.1, upper := walkUpper t.1 va, table := t.2, asid := asid, world := world }
  match walkFind (mget [] s.iso.walks n) asid world va with
  | some w => (s.walkFrom world va w.lvl w.table).map fun r => (r.1, r.2.map entry)
  | none =>
    match s.walkRoot world asid with
    | none => none
    | some root => (s.walkFrom world va 3 root).map fun r => (r.1, r.2.map entry ++ [entry (3, root)])

/-- Table entries that a walk has read enter the walk cache of a TLB (R396). -/
def State.keepWalk (s : State) (n : Nat) (l : List WalkEntry) : State :=
  { s with iso := { s.iso with walks := mset [] s.iso.walks n ((l ++ mget [] s.iso.walks n).take 4096) } }

/-- Does a TLB entry translate an address for a requester (R396)? -/
def TlbEntry.hits (t : TlbEntry) (asid : Nat) (world : Bool) (va : Nat) : Bool :=
  (t.attr.g || t.asid == asid) && t.world == world && t.vbase ≤ va && va < t.vbase + 2 ^ t.log && t.gran == va / 2 ^ 21

/-- The matching entry of the smallest page (R398). -/
def tlbFind (l : List TlbEntry) (asid : Nat) (world : Bool) (va : Nat) : Option TlbEntry :=
  (l.filter fun t => t.hits asid world va).foldl
    (fun best t => match best with
      | none => some t
      | some b => if t.log < b.log then some t else some b) none

/-- What a TLB entry says of an address. -/
def TlbEntry.xbyte (t : TlbEntry) (va : Nat) : XByte := ⟨va, t.pbase + (va - t.vbase), t.attr⟩

/-- A leaf entry written back with A or D set, where it changes (R397). -/
def State.putLeaf (s : State) (world : Bool) (lf : Leaf) (e : Nat) : State :=
  if e = lf.entry then s else s.homeWrite world (cellsOf lf.entryPa (leBytes 8 e))

/-- A walk that fills TLB n, and sets A, and D for a write (R397). PREF sets neither. -/
def State.fillTlb (s : State) (n : Nat) (k : Ctx) (va : Nat) (write pref : Bool) : Option (XByte × State) :=
  match s.walk n k.world k.asid va with
  | none => none
  | some (lf, found) =>
    let s := s.keepWalk n found
    let e := if pref then lf.entry else lf.entry ||| 0x40 ||| (if write then 0x80 else 0)
    let s := s.putLeaf k.world lf e
    let pa := lf.pbase + va % 2 ^ lf.log
    let attr : PageAttr :=
      { log := lf.log, r := bit e 2, w := bit e 3, x := bit e 4, mt := bits e 9 8, te := bit e 10, g := bit e 5, ctl := isControl pa,
        sec := s.secure pa }
    let t : TlbEntry :=
      { vbase := va / 2 ^ lf.log * 2 ^ lf.log, log := lf.log, gran := va / 2 ^ 21, pbase := lf.pbase, attr := attr, a := bit e 6,
        d := bit e 7, asid := k.asid, world := k.world }
    some (t.xbyte va, { s with iso := { s.iso with tlbs := mset [] s.iso.tlbs n ((t :: mget [] s.iso.tlbs n).take 4096) } })

/-- A translation (R392 to R398): a TLB entry, or a walk that fills one; an entry without A, or without D for a write, causes a walk. -/
def State.translateIn (s : State) (k : Ctx) (va : Nat) (write pref : Bool) : Option (XByte × State) :=
  let n := k.dom.tlb
  let tlb := mget [] s.iso.tlbs n
  match tlbFind tlb k.asid k.world va with
  | some t =>
    if !pref && (!t.a || (write && !t.d)) then
      State.fillTlb { s with iso := { s.iso with tlbs := mset [] s.iso.tlbs n (tlb.filter (· != t)) } } n k va write pref
    else some (t.xbyte va, s)
  | none => s.fillTlb n k va write pref

/-- The attributes of a page of a private address space: NORMAL, open to every kind of access. -/
def privateAttr : PageAttr := { log := 12, r := true, w := true, x := true, mt := 0, te := false, g := false, ctl := false, sec := false }

/-- A translation: in a private address space a page of the capture, or a PEER or IO page of the card's own (R329); else of the address space's
tables. -/
def State.translate (s : State) (k : Ctx) (va : Nat) (write pref : Bool) : Option (XByte × State) :=
  match privateSlot k.asid with
  | none => s.translateIn k va write pref
  | some n =>
    match s.beadle.slots.find? (fun e => e.1 == n) |>.bind (·.2) with
    | none => none
    | some z =>
      if ((z.replay.map (·.pages)).getD []).contains (va / 4096) then some (⟨va, privatePa n va, privateAttr⟩, s)
      else match s.translateIn { k with asid := Card.asid z.card } va write pref with
        | some (x, s) => if x.attr.mt = 0 then none else some (x, s)
        | none => none

/-! ### Tags -/

/-- Where the tag of the granule at a physical address lies: byte and whether the high half (R400). -/
def State.tagPlace (s : State) (pa : Nat) : Nat × Bool := (s.tagBase + pa / 64, bit pa 5)

/-- The tag of the granule at a physical address as memory holds it (R400). -/
def State.tagMem (s : State) (pa : Nat) : Nat :=
  let p := s.tagPlace pa
  let b := (byteAt s.mem p.1).toNat
  if p.2 then b / 16 else b % 16

/-- A tag written to memory (R400). -/
def State.setTagMem (s : State) (pa tag : Nat) : State :=
  let p := s.tagPlace pa
  let b := (byteAt s.mem p.1).toNat
  let x := if p.2 then b % 16 + tag % 16 * 16 else b / 16 * 16 + tag % 16
  { s with mem := setByte s.mem p.1 (BitVec.ofNat 8 x) }

/-! ### The L1 -/

/-- Is a line the copy of a translated byte's physical line under its virtual tag (R228)? -/
def Line.isOf (l : Line) (asid : Nat) (world : Bool) (x : XByte) : Bool :=
  l.vline == x.va / 64 && l.asid == asid && l.world == world && l.pline == x.pa / 64

/-- The L1 line that holds a translated byte. -/
def Eng.lineAt (e : Eng) (k : Ctx) (x : XByte) : Option Line := e.l1.find? fun l => l.isOf k.asid k.world x

/-- The dirty bytes of a line as physical cells. -/
def Line.dirtyCells (l : Line) : List Host.Cell :=
  ((List.range 64).filter fun i => l.dirty.getLsbD i).map fun i => (l.pline * 64 + i, l.data.getD i 0)

/-- A line's dirty bytes written back (R228); poisoned bytes stay poisoned (R436). -/
def State.writeBack (s : State) (l : Line) : State := if l.dirty = 0 then s else s.homeWrite l.world l.dirtyCells

/-- Does a line meet n bytes from a virtual address, addresses modulo 2^48 (R290)? No line meets none. -/
def Line.meets (l : Line) (lo n : Nat) : Bool :=
  let a := lo % 2 ^ 48
  let v := l.vline * 64
  n != 0 && ((a < v + 64 && v < a + n) || (a < 2 ^ 48 + v + 64 && 2 ^ 48 + v < a + n))

/-- The lines of an engine that meet a test, written back and kept clean. -/
def State.cleanLines (s : State) (d : Dom) (p : Line → Bool) : State :=
  let s' := (((s.eng d).l1.filter p).foldl State.writeBack s)
  s'.modEng d fun e => { e with l1 := e.l1.map fun l => if p l then { l with dirty := 0 } else l }

/-- The lines of an engine that meet a test, written back and removed. -/
def State.dropLines (s : State) (d : Dom) (p : Line → Bool) : State :=
  let s' := (((s.eng d).l1.filter p).foldl State.writeBack s)
  s'.modEng d fun e => { e with l1 := e.l1.filter fun l => !p l }

/-- The filled load-blocks of a core that are live (R231, R276). -/
def Core.liveBlocks (x : Core) : List Block :=
  x.blocks.filterMap fun b => match b.2 with
    | some k => if x.arch.blkLive.getLsbD b.1 && k.filled then some k else none
    | none => none

/-- Physical lines of the live blocks of a core, filled or not. -/
def Core.blockLines (x : Core) : List Nat :=
  x.blocks.flatMap fun b => match b.2 with
    | some k => if x.arch.blkLive.getLsbD b.1 then k.lines.map (·.pline) else []
    | none => []

/-- The line of a live load-block of a core that holds a physical line (R231). -/
def Core.blockLine (x : Core) (pl : Nat) : Option Line := x.liveBlocks.findSome? fun k => k.lines.find? fun l => l.pline == pl

/-- Does a live load-block of an engine hold a physical line? Its one copy of the line is there (R229, R231). -/
def State.inBlock (s : State) (d : Dom) (pl : Nat) : Bool :=
  match d with
  | .core c => ((s.core c).blockLine pl).isSome
  | .unit _ => false

/-- The line of an engine that meets a test: of a live load-block, else of the rest of its L1 (R228, R231). -/
def State.heldLine (s : State) (d : Dom) (p : Line → Bool) : Option Line :=
  let blk := match d with
    | .core c => (s.core c).liveBlocks.findSome? fun k => k.lines.find? p
    | .unit _ => none
  match blk with
  | some l => some l
  | none => (s.eng d).l1.find? p

/-- Lines changed in the live load-blocks of a core. -/
def Core.mapBlocks (x : Core) (f : Line → Line) : Core :=
  { x with blocks := x.blocks.map fun e => (e.1, e.2.map fun b =>
      if x.arch.blkLive.getLsbD e.1 && b.filled then { b with lines := b.lines.map f } else b) }

/-- The lines of an engine's live load-blocks that meet a test, written back and kept: a block is part of the L1 (R226, R231). -/
def State.cleanBlocks (s : State) (d : Dom) (p : Line → Bool) : State :=
  match d with
  | .unit _ => s
  | .core c =>
    ((((s.core c).liveBlocks.flatMap (·.lines)).filter p).foldl State.writeBack s).modCore c fun x =>
      x.mapBlocks fun l => if p l then { l with dirty := 0 } else l

/-- Every dirty byte of an engine written back: a release or drain wider than CORE (R235, R244, R251). -/
def State.cleanAll (s : State) (d : Dom) : State := (s.cleanLines d fun _ => true).cleanBlocks d fun _ => true

/-- No later load is served from a line filled before: an acquire wider than CORE (R235). Log 123. -/
def State.dropAll (s : State) (d : Dom) : State := s.dropLines d fun _ => true

/-- Scratchpad bytes of a core that saved jobs keep there, those of one job apart (R344). -/
def State.keptBytes (s : State) (but : Option Nat) (c : Nat) : Nat :=
  (s.residents.map fun e => if some e.1 = but then 0 else
    (e.2.shares.map fun h => match h.2 with
      | some x => if x.home == some c then scratchShare (Card.loc e.2.card) else 0
      | none => 0).sum).sum

/-- Lines an engine's L1 holds under the current split, load-blocks among them: the rest of the local array beside the shares of the running
job and of saved jobs that stay resident (R21, R28, R226, R344). -/
def State.l1Cap (s : State) (d : Dom) : Nat :=
  match d with
  | .core c => (2097152 - (s.core c).scratchSize - s.keptBytes none c) / 64
  | .unit u => (262144 - (((s.unit u).groups.filterMap (·.2)).map (·.smemSize)).sum) / 64

/-- Lines of an engine's L1 that no load-block holds. -/
def State.l1Room (s : State) (d : Dom) : Nat :=
  s.l1Cap d - (match d with
    | .core c => (s.core c).blockLines.length
    | .unit _ => 0)

/-- The lines of an engine beyond n, the longest held ones, written back and gone (R28, R226). -/
def State.trimL1 (s : State) (d : Dom) (n : Nat) : State :=
  (((s.eng d).l1.drop n).foldl State.writeBack s).modEng d fun e => { e with l1 := e.l1.take n }

/-- The lines of an engine trimmed to what its load-blocks leave (R226). -/
def State.fitL1 (s : State) (d : Dom) : State := s.trimL1 d (s.l1Room d)

/-- The tags of a physical line's granules as a translation takes them (R228). -/
def State.lineTags (s : State) (a : PageAttr) (pl : Nat) : Nat × Nat :=
  if a.te then (s.tagMem (pl * 64), s.tagMem (pl * 64 + 32)) else (0, 0)

/-- A line filled from the home agent (R228), or the engine's own copy of the physical line moved with its dirty bytes (R229); what it
carries comes from the translation that fills it, another line under its virtual address leaves, and it is kept where the L1 has room. -/
def State.fillLine (s : State) (k : Ctx) (x : XByte) : Line × State :=
  let pl := x.pa / 64
  let s := s.dropLines k.dom fun l => l.vline == x.va / 64 && l.asid == k.asid && l.world == k.world && l.pline != pl
  let tags := s.lineTags x.attr pl
  match (s.eng k.dom).l1.find? fun l => l.pline == pl with
  | some l =>
    let l' := { l with vline := x.va / 64, asid := k.asid, world := k.world, attr := x.attr, tags := tags }
    (l', s.modEng k.dom fun e => { e with l1 := l' :: e.l1.filter fun m => m.pline != pl })
  | none =>
    let r := s.homeFetch k.world (pl * 64) 64
    let l : Line :=
      { vline := x.va / 64, pline := pl, asid := k.asid, world := k.world, attr := x.attr, tags := tags,
        data := r.1.1, dirty := 0, poison := r.1.2.map (·.1) }
    let n := s.l1Room k.dom
    let s := r.2.trimL1 k.dom (n - 1)
    (l, if n = 0 then s else s.modEng k.dom fun e => { e with l1 := l :: e.l1 })

/-- A line read from the home agent for a load-block, with the dirty bytes of the engine's own L1 copy, which is written back first and
dropped (R231, R246; log 147). -/
def State.fillBlockLine (s : State) (k : Ctx) (x : XByte) : Line × State :=
  let pl := x.pa / 64
  let s := s.dropLines k.dom fun l => l.pline == pl
  let r := s.homeFetch k.world (pl * 64) 64
  ({ vline := x.va / 64, pline := pl, asid := k.asid, world := k.world, attr := x.attr, tags := s.lineTags x.attr pl, data := r.1.1,
     dirty := 0, poison := r.1.2.map (·.1) }, r.2)

/-! ### The checks of R265 -/

/-- What an access requires (R395). -/
inductive AccKind where
  | load | store | atomic | fetch | tagLoad | tagStore | pref
  deriving DecidableEq, Repr

/-- Does the access write? -/
def AccKind.writes : AccKind → Bool
  | .store | .atomic | .tagStore => true
  | _ => false

/-- Do the permissions allow the access (R395)? -/
def AccKind.allowed (k : AccKind) (a : PageAttr) : Bool :=
  match k with
  | .load | .tagLoad | .pref => a.r
  | .store | .tagStore => a.w
  | .atomic => a.r && a.w
  | .fetch => a.x

/-- Is a 64-bit address canonical (R265 step 1)? -/
def canonical (p : Nat) : Bool :=
  bits p 63 60 == 0 && bits p 55 48 == (if bit p 47 then 255 else 0)

/-- A range cut at 64-byte lines: address and bytes of each piece, addresses modulo 2^64. -/
def chunks (p : Nat) : Nat → Nat → List (Nat × Nat)
  | _, 0 => []
  | 0, _ => []
  | fuel + 1, n =>
    let m := min n (64 - p % 64)
    (p, m) :: chunks ((p + m) % 2 ^ 64) fuel (n - m)

/-- A checked piece of an access: address as formed, bytes, its translation, and whether an L1 line carries it. -/
structure Piece where
  p : Nat
  n : Nat
  x : XByte
  hit : Bool
  deriving DecidableEq, Repr

/-- Does a piece lie in the page of an earlier one (R398)? -/
def samePage (x : XByte) (va : Nat) : Bool := x.va / 2 ^ x.attr.log == va / 2 ^ x.attr.log

/-- Step 3 of R265 piece by piece: an L1 line that holds the piece stands for the translation (R228); pieces of one page use one
translation whole (R398), so that of the piece before, where it is of the same page, with the world and the control mark of their own
2 MB granule (R379, R396). -/
def State.step3 (s : State) (k : Ctx) (kind : AccKind) (prev : Option XByte) :
    List (Nat × Nat) → Except (Nat × State) (List Piece × State)
  | [] => .ok ([], s)
  | (p, n) :: rest =>
    let va := p % 2 ^ 48
    let found : Option (XByte × State) :=
      match prev.filter fun x => samePage x va with
      | some x =>
        let pa := x.pa / 2 ^ x.attr.log * 2 ^ x.attr.log + va % 2 ^ x.attr.log
        some (⟨va, pa, if va / 2 ^ 21 = x.va / 2 ^ 21 then x.attr else { x.attr with ctl := isControl pa, sec := s.secure pa }⟩, s)
      | none => match s.heldLine k.dom fun l => l.vline == va / 64 && l.asid == k.asid && l.world == k.world with
        | some l => some (⟨va, l.pline * 64 + va % 64, l.attr⟩, s)
        | none => s.translate k va kind.writes (kind == .pref)
    match found with
    | none => .error (p, s)
    | some (x, s) =>
      match s.step3 k kind (some x) rest with
      | .ok (ps, s) => .ok (⟨p, n, x, (s.heldLine k.dom fun l => l.isOf k.asid k.world x).isSome⟩ :: ps, s)
      | .error e => .error e

/-- The latest withheld tag of a granule, if this core has written it (R292). -/
def withheldTag (l : List Eff) (pa : Nat) : Option Nat :=
  l.foldl (fun acc e => match e with
    | .tags cells => cells.foldl (fun acc c => if c.1.pa / 32 == pa / 32 then some c.2 else acc) acc
    | _ => acc) none

/-- The tag of the granule at a piece's offset, as it stands for the checking agent (R292, R401). -/
def State.tagFor (s : State) (k : Ctx) (pa va : Nat) : Nat :=
  let own := match k.dom with
    | .core c => withheldTag (s.core c).withheld pa
    | .unit _ => none
  match own with
  | some t => t
  | none => match s.heldLine k.dom fun l => l.vline == va / 64 && l.asid == k.asid && l.world == k.world && l.pline == pa / 64 with
    | some l => if bit pa 5 then l.tags.2 else l.tags.1
    | none => s.tagMem pa

/-- The lowest byte of a piece whose granule's tag differs from the pointer's (R265 step 5, R401). -/
def State.tagFails (s : State) (k : Ctx) (ptag : Nat) (q : Piece) : Option Nat :=
  if !q.x.attr.te then none
  else if s.tagFor k q.x.pa q.x.va != ptag then some q.p
  else if q.x.pa % 32 + q.n > 32 then
    let o := 32 - q.x.pa % 32
    if s.tagFor k (q.x.pa + o) (q.x.va + o) != ptag then some (q.p + o) else none
  else none

/-- The resident slot whose capture an access belongs to (R328). -/
def State.captureSlot (s : State) (k : Ctx) : Option Nat :=
  (s.beadle.slots.find? fun e => match e.2 with
    | some z => z.capture.isSome && k.job != 0 && Card.jobid z.card == k.job
    | none => false).map (·.1)

/-- The first pre-image that is due: nothing else happens before it is written (R328). -/
def State.preimage (s : State) : Option (Nat × Nat) :=
  s.beadle.slots.findSome? fun e => e.2.bind fun z => z.touched.head?.map fun q => (e.1, q.1)

/-- The state with no pre-image due. -/
def State.noPreimages (s : State) : State :=
  { s with beadle := { s.beadle with slots := s.beadle.slots.map fun e => (e.1, e.2.map fun z => { z with touched := [] }) } }

/-- A 4 KB frame as an engine's access finds it: memory under the engine's own dirty bytes (R228). -/
def State.frameBytes (s : State) (k : Ctx) (base : Nat) : List Byte :=
  let mine (ls : List Line) : List Host.Cell := (ls.filter fun l => l.pline / 64 == base / 4096).flatMap Line.dirtyCells
  let blk := match k.dom with
    | .core c => (s.core c).liveBlocks.flatMap (·.lines)
    | .unit _ => []
  (mine ((s.eng k.dom).l1 ++ blk)).foldl (fun bs c => setAt bs (c.1 - base) c.2) (s.homeRead k.world base 4096).1

/-- The 4 KB frames that an access of a captured job touches first, kept as they stand before it (R328). -/
def State.touch (s : State) (k : Ctx) (ps : List Piece) : State :=
  match s.captureSlot k with
  | none => s
  | some n => ps.foldl (fun s q =>
      if q.x.attr.mt != 0 || isWindow q.x.pa then s
      else
        let page := q.x.va / 4096
        let bs := s.frameBytes k (q.x.pa / 4096 * 4096)
        s.modSlot n fun z =>
          if (z.capture.getD []).contains page || z.touched.any (fun e => e.1 == page) then z
          else { z with touched := z.touched ++ [(page, bs)] }) s

/-- The checks of R265 on n bytes at an address, alignment (step 2) given as a number the address must be a multiple of: the pieces with
their translations, or the fault with its TVAL. -/
def State.access (s : State) (k : Ctx) (kind : AccKind) (addr n align : Nat) : Except Fail (List Piece × State) :=
  let cs := chunks addr (n / 64 + 2) n
  let fail (s : State) (cause va : Nat) : Except Fail (List Piece × State) := .error ⟨⟨cause, BitVec.ofNat 64 va⟩, s⟩
  match cs.find? fun c => !canonical c.1 with
  | some c => fail s 0x08 c.1
  | none =>
    if addr % align != 0 then fail s 0x09 addr
    else match s.step3 k kind none cs with
      | .error (va, s) => fail s 0x0A va
      | .ok (ps, s) =>
        match ps.find? fun q => !kind.allowed q.x.attr || (q.x.attr.sec && !k.world) || (q.x.attr.ctl && !k.priv) with
        | some q => fail s 0x0B q.p
        | none =>
          if kind == .tagLoad || kind == .tagStore || kind == .pref then .ok (ps, s.touch k ps)
          else match ps.findSome? (s.tagFails k (bits addr 59 56)) with
            | some va => fail s 0x0C va
            | none => .ok (ps, s.touch k ps)

/-- The bytes of checked pieces with their translations, in address order. -/
def pieceBytes (ps : List Piece) : List XByte :=
  ps.flatMap fun q => (List.range q.n).map fun i => ⟨q.x.va + i, q.x.pa + i, q.x.attr⟩

/-! ### Reading -/

/-- The latest withheld store of a core to a physical byte (R243). -/
def withheldByte (l : List Eff) (pa : Nat) : Option Byte :=
  l.foldl (fun acc e => match e with
    | .store bs => bs.foldl (fun acc c => if c.1.pa == pa then some c.2 else acc) acc
    | _ => acc) none

/-- The cause of the poison that a load of a line meets: stores clear it only where they cover the whole sector (R404, R436). -/
def Line.loadPoison (l : Line) : Option Nat := if l.dirty = BitVec.allOnes 64 then none else l.poison

/-- The cause of the poison that a load meets under bytes that a core has stored and withholds (R436): none once these, with the dirty bytes
of its line, cover the sector. -/
def State.poisonUnder (s : State) (k : Ctx) (own : List Eff) (pa : Nat) : Option Nat :=
  let l := s.heldLine k.dom fun l => l.pline == pa / 64
  let cause := match l with
    | some l => l.loadPoison
    | none => (s.homeByte k.world pa).2
  if cause.isSome && (List.range 64).all fun i =>
      (l.any fun l => l.dirty.getLsbD i) || (withheldByte own (pa / 64 * 64 + i)).isSome then none else cause

/-- One NORMAL byte as an engine's load reads it: its own withheld store, a live load-block, its L1 line, filled on a miss (R228, R231,
R243). The cause of a poison comes with it. -/
def State.loadByte (s : State) (k : Ctx) (x : XByte) : (Byte × Option Nat) × State :=
  let own := match k.dom with
    | .core c => (s.core c).withheld
    | .unit _ => []
  match withheldByte own x.pa with
  | some b => ((b, s.poisonUnder k own x.pa), s)
  | none =>
    let blk := match k.dom with
      | .core c => (s.core c).blockLine (x.pa / 64)
      | .unit _ => none
    match blk with
    | some l => ((l.data.getD (x.pa % 64) 0, l.loadPoison), s)
    | none =>
      match (s.eng k.dom).lineAt k x with
      | some l => ((l.data.getD (x.pa % 64) 0, l.loadPoison), s)
      | none =>
        let r := s.fillLine k x
        ((r.1.data.getD (x.pa % 64) 0, r.1.loadPoison), r.2)

/-- A word of a control window as stores already made to it leave it (R263): the latest of them, else what the requester reads. -/
def State.postedByte (s : State) (k : Ctx) (pa : Nat) : Byte :=
  match s.posted.reverse.find? fun w => w.2.1 == pa / 8 * 8 with
  | some w => (leBytes 8 w.2.2.toNat).getD (pa % 8) 0
  | none => s.ctlByte k.world k.part k.priv pa

/-- One byte of a PEER or IO mapping as an engine reads it (R232, R248, R263, R460): its own withheld store (R243), a control register,
target memory, or all ones while the link is down. -/
def State.loadExt (s : State) (k : Ctx) (x : XByte) : Byte :=
  let own := match k.dom with
    | .core c => withheldByte (s.core c).withheld x.pa
    | .unit _ => none
  match own with
  | some b => b
  | none => if isWindow x.pa then s.ctlByte k.world k.part k.priv x.pa
  else if x.attr.mt == 1 && !bit s.bnd.pcieLink.toNat 0 then 0xFF
  else byteAt s.bnd.peer x.pa

/-- Bytes read by an engine, with the first poisoned byte's cause and address (R436). -/
def State.loadBytes (s : State) (k : Ctx) : List XByte → (List Byte × Option (Nat × Nat)) × State
  | [] => (([], none), s)
  | x :: xs =>
    if x.attr.mt == 0 && !isWindow x.pa then
      let r := s.loadByte k x
      let rest := r.2.loadBytes k xs
      ((r.1.1 :: rest.1.1, match r.1.2 with
        | some c => some (c, x.va)
        | none => rest.1.2), rest.2)
    else
      let rest := s.loadBytes k xs
      ((s.loadExt k x :: rest.1.1, rest.1.2), rest.2)

/-- A saturating count raised (R460). -/
def satInc (x : Word) : Word := if x = BitVec.allOnes 64 then x else x + 1

/-- A PEER access lost with the link down, counted (R460): 0 load, 1 store, 2 atomic. -/
def State.peerLost (s : State) (what : Nat) : State :=
  match what with
  | 0 => { s with bnd := { s.bnd with peerld := satInc s.bnd.peerld } }
  | 1 => { s with bnd := { s.bnd with peerst := satInc s.bnd.peerst } }
  | _ => { s with bnd := { s.bnd with peerat := satInc s.bnd.peerat } }

/-- A PEER access made while the link is down is counted (R460): 0 load, 1 store, 2 atomic. -/
def State.countPeer (s : State) (xs : List XByte) (what : Nat) : State :=
  match xs.find? fun x => x.attr.mt == 1 && !isWindow x.pa with
  | none => s
  | some _ => if bit s.bnd.pcieLink.toNat 0 then s else s.peerLost what

/-- Does an access read WP of a trace descriptor, which is an acquire at DEVICE scope (R316)? -/
def readsWp (xs : List XByte) : Bool := xs.any fun x => isWindow x.pa && windowOf x.pa == 6 && x.pa % 64 / 8 == 2

/-- Is an access that reads some bytes an acquire at DEVICE scope: of WP of a trace descriptor (R316), or of CMD of the invalidation window
as BUSY reads 0 (R408)? -/
def State.acquiresBy (s : State) (xs : List XByte) : Bool :=
  readsWp xs || (!s.iso.invBusy && xs.any fun x => isWindow x.pa && windowOf x.pa == 15 && (x.pa - Config.ctlBase) % 2 ^ 24 / 8 == 1)

/-- Bytes of checked pieces read, or the poison trap (R436). -/
def State.readPieces (s : State) (k : Ctx) (ps : List Piece) : Except Fail (List Byte × State) :=
  let xs := pieceBytes ps
  let r := (s.countPeer xs 0).loadBytes k xs
  match r.1.2 with
  | some (c, va) => .error ⟨⟨c, BitVec.ofNat 64 va⟩, r.2⟩
  | none => .ok (r.1.1, if s.acquiresBy xs then r.2.dropAll k.dom else r.2)

/-- A checked load: the checks of R265, then the bytes, or the poison trap (R436). -/
def State.load (s : State) (k : Ctx) (addr n align : Nat) : Except Fail (List Byte × State) :=
  match s.access k .load addr n align with
  | .error e => .error e
  | .ok (ps, s) => s.readPieces k ps

/-! ### Writing -/

/-- A byte of an L1 line replaced and marked dirty. -/
def Line.setByte (l : Line) (i : Nat) (b : Byte) : Line :=
  { l with data := setAt l.data i b, dirty := l.dirty ||| ((1 : BitVec 64) <<< i) }

/-- One NORMAL byte stored at CORE scope: into a live load-block, or into the L1 line, filled on a miss (R228, R231); at the home agent
where the L1 has no room for a line. -/
def State.storeByte (s : State) (k : Ctx) (x : XByte) (b : Byte) : State :=
  let pl := x.pa / 64
  let blocked : Option (Fin 32) := match k.dom with
    | .core c => if ((s.core c).blockLine pl).isSome then some c else none
    | .unit _ => none
  match blocked with
  | some c => s.modCore c fun q => q.mapBlocks fun l => if l.pline == pl then l.setByte (x.pa % 64) b else l
  | none =>
    let s := match (s.eng k.dom).lineAt k x with
      | some _ => s
      | none => (s.fillLine k x).2
    match (s.eng k.dom).lineAt k x with
    | none => s.homeWrite k.world [(x.pa, b)]
    | some _ => s.modEng k.dom fun e => { e with l1 := e.l1.map fun l => if l.isOf k.asid k.world x then l.setByte (x.pa % 64) b else l }

/-- Stores to a control window become writes of its 8-byte words, in the order in which the store reaches them, which act next (R263,
R383); of bytes that overlap the last wins (R239), and the rest of a word is as it stands. -/
def State.postWords (s : State) (k : Ctx) (bs : List (XByte × Byte)) : State :=
  let word (base : Nat) : Word := BitVec.ofNat 64 (leNat ((List.range 8).map fun i => match bs.reverse.find? fun c => c.1.pa == base + i with
    | some c => c.2
    | none => s.postedByte k (base + i)))
  { s with posted := s.posted ++ ((bs.map fun c => c.1.pa / 8 * 8).eraseDups.map fun base => (.job (fin 64 k.part) k.world, base, word base)) }

/-- Stores to PEER and IO mappings: register writes (R383), and bytes at their target, of which those to a PEER target are discarded while
the link is down (R460, R463). -/
def State.storeExt (s : State) (k : Ctx) (bs : List (XByte × Byte)) : State :=
  let s := s.postWords k (bs.filter fun c => isWindow c.1.pa)
  let up := bit s.bnd.pcieLink.toNat 0
  let tgt := bs.filter fun c => !isWindow c.1.pa && (c.1.attr.mt != 1 || up)
  { s with bnd := { s.bnd with peer := tgt.foldl (fun m c => Machine.setByte m c.1.pa c.2) s.bnd.peer } }

/-- Bytes stored by an engine at CORE scope, to the physical bytes translated at issue (R243, R265). -/
def State.storeBytes (s : State) (k : Ctx) (bs : List (XByte × Byte)) : State :=
  let s := bs.foldl (fun s c => if c.1.attr.mt == 0 && !isWindow c.1.pa then s.storeByte k c.1 c.2 else s) s
  let ext := bs.filter fun c => !(c.1.attr.mt == 0 && !isWindow c.1.pa)
  (s.countPeer (ext.map (·.1)) 1).storeExt k ext

/-- An acquire wider than CORE leaves no line filled before it (R235). -/
def State.acquireAt (s : State) (d : Dom) (sc : Scope) : State :=
  if sc == .thread || sc == .core then s else s.dropAll d

/-- Has the order an acquire part (R235)? -/
def isAcq (o : Ord) : Bool := o == .acq || o == .ar
/-- Has the order a release part (R235)? -/
def isRel (o : Ord) : Bool := o == .rel || o == .ar

/-! ### Local memory -/

/-- The local memory of an agent: its bytes, share and poisoned 64-byte blocks. -/
def State.local' (s : State) (a : Agent) : List Host.Cell × Nat × List Nat :=
  match a with
  | .core c _ => ((s.core c).scratch, (s.core c).scratchSize, (s.core c).poison)
  | .thr t => let g := s.group t.unit t.group; (g.smem, g.smemSize, g.poison)

/-- The lowest poisoned byte of a local range (R436). -/
def localPoison (blocks : List Nat) (off n : Nat) : Option Nat :=
  ((List.range n).find? fun i => blocks.contains ((off + i) / 64)).map (off + ·)

/-- n local bytes at an offset, checked against the share (R266) and for poison (R436). -/
def State.loadLocal (s : State) (a : Agent) (off n : Nat) : Except Fail (List Byte) :=
  let (m, size, bad) := s.local' a
  if size < off + n then .error ⟨⟨0x0E, BitVec.ofNat 64 off⟩, s⟩
  else match localPoison bad off n with
    | some o => .error ⟨⟨0x13, BitVec.ofNat 64 o⟩, s⟩
    | none => .ok (readBytes m off n)

/-- Poisoned blocks left after a write: one that covers all 64 aligned bytes of a block clears it (R435). -/
def clearLocalPoison (blocks : List Nat) (off n : Nat) : List Nat :=
  blocks.filter fun b => !(off ≤ b * 64 && b * 64 + 64 ≤ off + n)

/-- Local bytes written by an agent, unlogged. -/
def State.storeLocal (s : State) (a : Agent) (off : Nat) (bs : List Byte) : State :=
  match a with
  | .core c _ => s.modCore c fun x =>
      { x with scratch := writeBytes x.scratch off bs, poison := clearLocalPoison x.poison off bs.length }
  | .thr t => s.modGroup t.unit t.group fun x =>
      { x with smem := writeBytes x.smem off bs, poison := clearLocalPoison x.poison off bs.length }

/-- The 128-byte blocks that a range meets. -/
def undoBlocks (off n : Nat) : List Nat :=
  if n = 0 then [] else (List.range ((off + n - 1) / 128 - off / 128 + 1)).map fun i => off / 128 + i

/-- Scratchpad bytes written by a core and logged for undo, one entry per 128-byte block (R412); cells in address order. -/
def State.storeScratch (s : State) (c : Nat) (cells : List Host.Cell) : State :=
  s.modCore c fun x =>
    let entry (b : Nat) : Nat × List Host.Cell :=
      (b, (cells.filter fun q => q.1 / 128 == b).map fun q => (q.1, byteAt x.scratch q.1))
    let bs := (cells.map fun q => q.1 / 128).eraseDups
    { x with scratch := cells.foldl (fun m q => Machine.setByte m q.1 q.2) x.scratch,
             undo := (bs.map entry).reverse ++ x.undo,
             undoCount := x.undoCount + bs.length,
             poison := x.poison.filter fun b => !((List.range 64).all fun i => cells.any fun q => q.1 == b * 64 + i) }

end Sys2Proof.Machine
end

