-- ==== Sys2Proof/Machine/Array.lean ====
section
/-!
DEFINITION. The matrix array's fault map and shape (R179 to R187) and the tile walker's grid (R188 to R191).
-/
namespace Sys2Proof.Machine

/-- Healthy lines of a mask of 34 (R179). -/
def healthy (m : BitVec 34) : Nat := ((List.range 34).filter fun i => !m.getLsbD i).length

/-- The logical size of a side: the largest of 32, 28, 24 and 16 that the healthy lines allow; 0 for none (R179). -/
def side (h : Nat) : Nat := if 32 ≤ h then 32 else if 28 ≤ h then 28 else if 24 ≤ h then 24 else if 16 ≤ h then 16 else 0

/-- M and N of a fault map (R179). -/
def FaultMap.shape (f : FaultMap) : Nat × Nat := (side (healthy f.row), side (healthy f.col))

/-- Has the map a legal shape (R180)? -/
def FaultMap.legal (f : FaultMap) : Bool := f.shape.1 != 0 && f.shape.2 != 0

/-- The cores of a core's gang: the aligned group of its job (R33, R363); a core with no job stands alone. -/
def State.gangOf (s : State) (c : Nat) : List Nat :=
  match (s.core c).job with
  | none => [c]
  | some n =>
    let g := 2 ^ Card.gang (s.cardOf n)
    ((List.range g).map fun i => c / g * g + i).filter fun j => (s.core j).job == some n

/-- The shape a core computes with: the least over its gang (R187). -/
def State.shape (s : State) (c : Nat) : Nat × Nat :=
  (s.gangOf c).foldl (fun m j => let f := (s.core j).fmap.shape; (min m.1 f.1, min m.2 f.2)) (32, 32)

/-- FMAPSTAT of a core (R181). -/
def Core.fmapstat (x : Core) (shape : Nat × Nat) : Nat :=
  healthy x.fmap.row + healthy x.fmap.col * 2 ^ 6 + (if x.mstest.isSome then 2 ^ 12 else 0)
    + (if shape.1 < 32 || shape.2 < 32 then 2 ^ 13 else 0) + x.fmap.gen.toNat * 2 ^ 16

/-- Tiles of at most m × n that cover h rows and w columns from an origin (R189). -/
def gridTiles (r0 c0 h w m n : Nat) : List (Nat × Nat × Nat × Nat) :=
  if m = 0 || n = 0 then []
  else (List.range ((h + m - 1) / m)).flatMap fun p =>
    (List.range ((w + n - 1) / n)).map fun q => (r0 + p * m, c0 + q * n, min m (h - p * m), min n (w - q * n))

/-- Tiles not yet returned, split for a new shape (R191). -/
def Walker.split (w : Walker) (m n : Nat) : Walker :=
  { w with tiles := w.tiles.flatMap fun t => gridTiles t.1 t.2.1 t.2.2.1 t.2.2.2 m n }

/-- The cores of a core's gang whose parts have not ended: they issue every bundle together (R35). -/
def State.gangLive (s : State) (c : Nat) : List Nat := (s.gangOf c).filter fun j => (s.core j).part != .ended && (s.core j).part != .idle

/-- The cycles by which a core issues a bundle after the first of its gang (R35). -/
def State.skew (s : State) (c : Nat) : Nat := c - (s.gangLive c).headD c

/-- Is the job's gang a redundant pair (R363)? -/
def redundantCard (card : List Byte) : Bool := Card.eng card == 0 && Card.gang card == 1 && Card.restart card == 2

/-- Is a core one of a redundant pair, and which position is it (R441)? -/
def State.pairPos (s : State) (c : Nat) : Option Nat :=
  match (s.core c).job with
  | none => none
  | some n => if redundantCard (s.cardOf n) then some (c % 2) else none

end Sys2Proof.Machine
end

