-- ==== Sys2Proof/Machine/Trace.lean ====
section
/-!
DEFINITION. Hedgerow's trace records (R307 to R320): building a record, the filters, writing it to its partition's ring, and what
happens when the ring is full or the write faults.
-/
namespace Sys2Proof.Machine

/-- A record before it is encoded (R307 to R313). -/
structure Rec where
  src : Nat
  part : Nat
  world : Bool
  evt : Nat
  /-- class bit of R317; none for the records no class filters -/
  cls : Option Nat
  /-- the job's class mask; none where the class is tested against CLASSES alone -/
  mask : Option Nat
  full : Bool
  slot : Nat
  thr : Nat
  /-- location for a short and for a full record -/
  locS : Nat
  locF : Nat
  arg : Nat
  jobid : Nat
  flow : Nat
  role : Nat
  deriving DecidableEq, Repr

/-- The 32-bit header (R307). -/
def recHeader (fmt part src evt slot : Nat) (world : Bool) (seq : Nat) : Nat :=
  fmt + part * 2 ^ 2 + src * 2 ^ 8 + evt * 2 ^ 16 + slot * 2 ^ 24 + (if world then 2 ^ 27 else 0) + seq % 16 * 2 ^ 28

/-- A short record (R309). -/
def shortRec (hdr delta thr loc arg : Nat) : List Byte :=
  leBytes 16 (hdr + delta % 2 ^ 24 * 2 ^ 32 + thr % 2 ^ 11 * 2 ^ 56 + loc % 2 ^ 32 * 2 ^ 72 + arg % 2 ^ 24 * 2 ^ 104)

/-- A full record (R310). -/
def fullRec (hdr arg stamp loc jobid thr role flow : Nat) : List Byte :=
  leBytes 32 (hdr + arg % 2 ^ 32 * 2 ^ 32 + stamp % 2 ^ 64 * 2 ^ 64 + loc % 2 ^ 64 * 2 ^ 128 + jobid % 2 ^ 32 * 2 ^ 192
    + thr % 2 ^ 11 * 2 ^ 224 + role % 2 * 2 ^ 235 + flow % 2 ^ 20 * 2 ^ 236)

/-- A source with nothing written to a buffer yet: its first record is full (R311). -/
def TraceSrc.reset : TraceSrc := { seq := 0, stamp := 0, full := true }

/-- A partition's descriptor. -/
def State.tdesc (s : State) (p : Nat) : TraceDesc := mget TraceDesc.reset s.hedge.desc p
/-- A partition's descriptor replaced. -/
def State.setTdesc (s : State) (p : Nat) (d : TraceDesc) : State :=
  { s with hedge := { s.hedge with desc := mset TraceDesc.reset s.hedge.desc p d } }
/-- What a source keeps for a buffer. -/
def State.tsrc (s : State) (p src : Nat) : TraceSrc := mget TraceSrc.reset s.hedge.src (p * 128 + src)
/-- What a source keeps for a buffer, replaced. -/
def State.setTsrc (s : State) (p src : Nat) (x : TraceSrc) : State :=
  { s with hedge := { s.hedge with src := mset TraceSrc.reset s.hedge.src (p * 128 + src) x } }

/-- MODE[1:0] (R315). -/
def TraceDesc.mode (d : TraceDesc) : Nat := bits (fieldAt d.desc 9 1) 1 0
/-- SECURE. -/
def TraceDesc.secure (d : TraceDesc) : Bool := bit (fieldAt d.desc 9 1) 2
/-- Ring size in bytes. -/
def TraceDesc.size (d : TraceDesc) : Nat := 2 ^ fieldAt d.desc 8 1
/-- CLASSES. -/
def TraceDesc.classes (d : TraceDesc) : Nat := fieldAt d.desc 10 1

/-- The engine whose TLB a source's trace writes use; shared sources use cluster 0's. -/
def srcDom (src : Nat) : Dom := if src < 32 then .core (fin 32 src) else if src < 64 then .unit (fin 32 (src - 32)) else .core 0

/-- The stamp of a record: a die's copy for an engine, the master for a source of the base die (R302, R311). -/
def State.stampFor (s : State) (src : Nat) : Nat × State := if src < 64 then s.diePtime (src / 16 % 2) else (s.ptime, s)

/-- Bytes stored by Hedgerow in a buffer's address space (R316, R318): NORMAL stores checked like an engine's, made at the home agent. The
faulting address otherwise. -/
def State.traceStore (s : State) (src asid part : Nat) (world : Bool) (va : Nat) (bs : List Byte) : Except Nat State :=
  let k : Ctx := { dom := srcDom src, asid := asid, world := world, priv := false, part := part, job := 0 }
  match s.access k .store va bs.length 1 with
  | .error f => .error f.trap.tval.toNat
  | .ok (ps, s) => .ok (s.homeWrite world ((pieceBytes ps).map (·.pa) |>.zip bs))

/-- Bytes put in a ring at WP, a padding record first where a full record would cross the end (R316). None where there is no room, an
error with the address where a write faults. -/
def State.ringWrite (s : State) (part src : Nat) (world : Bool) (bs : List Byte) : Except Nat (Option State) :=
  let d := s.tdesc part
  let off := d.wp.toNat % d.size
  let pad := if d.size < off + bs.length then d.size - off else 0
  if d.size < (d.wp - d.rp).toNat + pad + bs.length then .ok none
  else
    let base := fieldAt d.desc 0 8
    let asid := fieldAt d.desc 12 2
    let put (s : State) (o : Nat) (b : List Byte) := s.traceStore src asid part world (base + o % d.size) b
    let r := if pad = 0 then put s off bs else match put s off (zeros pad) with
      | .error e => .error e
      | .ok s => put s 0 bs
    match r with
    | .error e => .error e
    | .ok s =>
      let d := s.tdesc part
      .ok (some (s.setTdesc part { d with wp := d.wp + BitVec.ofNat 64 (pad + bs.length) }))

/-- A record lost: counted in LOST and for the next GAP (R315, R318, R319). -/
def State.loseRec (s : State) (part : Nat) : State :=
  let d := s.tdesc part
  s.setTdesc part { d with lost := min (d.lost + 1) (2 ^ 32 - 1), gapLost := min (d.gapLost + 1) (2 ^ 32 - 1) }

/-- A fault on a trace write suspends the buffer (R318). -/
def State.suspendTrace (s : State) (part va : Nat) : State :=
  let d := s.tdesc part
  s.setTdesc part { d with susp := true, status := 2, faultva := BitVec.ofNat 64 va, gapFault := true }

/-- What a source keeps for a buffer once a record of it is in the ring: its stamp is the base of the next DELTA, and the record after a
CLOCK is full (R309, R311). -/
def State.wroteRec (s : State) (part src : Nat) (bs : List Byte) : State :=
  let p := s.tsrc part src
  let t := if fieldAt bs 0 1 % 4 = 2 then fieldAt bs 8 8 else p.stamp + fieldAt bs 4 3
  s.setTsrc part src { p with stamp := t, full := fieldAt bs 2 1 == 2 }

/-- Encoded bytes offered to a ring, a GAP first where records were lost (R316, R318, R319): written, or not accepted. -/
def State.offer (s : State) (part src : Nat) (world : Bool) (bs : List Byte) : Bool × State :=
  let d := s.tdesc part
  if d.susp then (true, s.loseRec part)
  else
    let gap : Except Nat (Option State) :=
      if d.gapLost = 0 then .ok (some s)
      else
        let g := s.tsrc part 0x6A
        let b := fullRec (recHeader 2 part 0x6A 1 0 world g.seq) d.gapLost s.ptime (if d.gapFault then d.faultva.toNat else 0) 0 0 0 0
        match s.ringWrite part src world b with
        | .ok (some s) =>
          let s := (s.setTsrc part 0x6A { g with seq := (g.seq + 1) % 16 }).wroteRec part 0x6A b
          let d := s.tdesc part
          .ok (some (s.setTdesc part { d with gapLost := 0, gapFault := false }))
        | r => r
    match gap with
    | .error va => (true, (s.suspendTrace part va).loseRec part)
    | .ok none => (false, s)
    | .ok (some s) =>
      match s.ringWrite part src world bs with
      | .error va => (true, (s.suspendTrace part va).loseRec part)
      | .ok none => (false, s)
      | .ok (some s) => (true, s.wroteRec part src bs)

/-- Does a buffer take records of a world: it traces (R315), is on, and is SECURE for secure ones (R317)? -/
def TraceDesc.takes (d : TraceDesc) (world : Bool) : Bool := d.status != 1 && d.mode != 0 && (!world || d.secure)

/-- The buffer, source and world of an encoded record, as its header names them (R307). -/
def recPlace (bs : List Byte) : Nat × Nat × Bool := (fieldAt bs 0 1 / 4, fieldAt bs 1 1, bit (fieldAt bs 3 1) 3)

/-- A held record offered to its ring (R319), under the filters as they stand now (R315, R317): one that they do not pass any more is not
written, and one that a buffer which is lossless no longer cannot take is lost. -/
def State.offerHeld (s : State) (bs : List Byte) : Bool × State :=
  let p := recPlace bs
  let d := s.tdesc p.1
  if !d.takes p.2.2 then (true, s)
  else
    let w := s.offer p.1 p.2.1 p.2.2 bs
    if !w.1 && d.mode != 2 then (true, w.2.loseRec p.1) else w

/-- Held records that are never to be written are lost (R319), those that their buffer would take. -/
def State.loseHeld (s : State) (l : List (List Byte)) : State :=
  l.foldl (fun s bs => if (s.tdesc (recPlace bs).1).takes (recPlace bs).2.2 then s.loseRec (recPlace bs).1 else s) s

/-- Do the filters of R317 pass a record? -/
def State.recPasses (s : State) (r : Rec) : Bool :=
  let d := s.tdesc r.part
  d.takes r.world && (match r.cls with
    | none => true
    | some c => bit d.classes c && (match r.mask with
      | none => true
      | some m => bit m c))

/-- The bytes of a record with a stamp and a count, full or short (R309, R310). -/
def Rec.bytes (r : Rec) (full : Bool) (t seq last : Nat) : List Byte :=
  let hdr := recHeader (if full then 2 else 1) r.part r.src r.evt r.slot r.world seq
  if full then fullRec hdr r.arg t r.locF r.jobid r.thr r.role r.flow else shortRec hdr (t - last) r.thr r.locS r.arg

/-- Must a record be full: the event asks for it, nothing of its source stands before it in the buffer, or the delta is too wide (R311)? -/
def TraceSrc.needsFull (p : TraceSrc) (r : Rec) (t : Nat) : Bool := r.full || p.full || 0xFFFFFF < t - p.stamp

/-- Does an agent hold records that a new one of a partition must not overtake (R314, R319)? -/
def State.holdsRecs (s : State) (part : Nat) : Agent → Bool
  | .core c _ => (s.core c).trec != []
  | .thr t => (s.unit t.unit).traceq.any fun e => e.2.2 == part

/-- The trace freeze of a job begins, or ends and is added to its time, as its cores now hold records (R319). -/
def State.settleFreeze (s : State) (slot : Nat) : State :=
  let now := s.cores.any fun e => e.2.job == some slot && e.2.trec != []
  s.modSlot slot fun z => match z.frozen with
    | some t => if now then z else
      { z with frozen := none, freezeTicks := z.freezeTicks + (s.ptime - t), freezeEarly := z.freezeEarly + (min s.ptime z.deadline - t) }
    | none => if now then { z with frozen := some s.ptime } else z

/-- The freeze of the job of a core settled. -/
def State.settleCore (s : State) (c : Nat) : State :=
  match (s.core c).job with
  | some j => s.settleFreeze j
  | none => s

/-- A record kept by the matrix core that emits it, which then freezes, or by the emitting thread, which is then held (R319). -/
def State.holdRec (s : State) (part : Nat) (bs : List Byte) : Agent → State
  | .core c _ => (s.modCore c fun x => { x with trec := x.trec ++ [bs] }).settleCore c
  | .thr t =>
    let now := (s.eng (.unit t.unit)).cycle s.ptime
    (s.modThread t fun x => { x with trec := x.trec ++ [bs], heldSince := if x.trec = [] then now else x.heldSince }).modUnit t.unit fun v =>
      { v with traceq := v.traceq ++ [(t.group, t.thread, part)] }

/-- A record is emitted (R316 to R319): filtered, written, lost, or kept by its emitter where the buffer is lossless; a record kept is full,
so that it means the same whenever it is written. SEQ counts lost records too (R307). -/
def State.emit (s : State) (r : Rec) (who : Option Agent) : State :=
  if !s.recPasses r then s
  else
    let st := s.stampFor r.src
    let p := st.2.tsrc r.part r.src
    let s := st.2.setTsrc r.part r.src { p with seq := (p.seq + 1) % 16 }
    let kept (s : State) (a : Agent) : State := s.holdRec r.part (r.bytes true st.1 p.seq p.stamp) a
    match who.filter (s.holdsRecs r.part) with
    | some a => kept s a
    | none =>
      let w := s.offer r.part r.src r.world (r.bytes (p.needsFull r st.1) st.1 p.seq p.stamp)
      if w.1 then w.2
      else match who with
        | some a => if (s.tdesc r.part).mode == 2 then kept w.2 a else w.2.loseRec r.part
        | none => w.2.loseRec r.part

/-- HSLOT of a thread (R312). -/
def State.hslotOf (s : State) (t : Tid) : Nat := (s.group t.unit t.group).hslot + t.thread

/-- A record of the job an agent runs (R313, R317). -/
def State.emitAt (s : State) (a : Agent) (evt cls : Nat) (full : Bool) (arg flow role : Nat) : State :=
  let card := s.cardAt a
  match s.jobOf a with
  | none => s
  | some _ =>
    let pc := match a with
      | .core c _ => (s.core c).arch.pc.toNat
      | .thr t => (s.thread t).pc.toNat
    s.emit
      { src := a.dom.src, part := Card.part card, world := Card.world card, evt := evt, cls := some cls, mask := some (Card.trace card),
        full := full, slot := match a with
          | .core _ n => n.val
          | .thr _ => 0,
        thr := match a with
          | .core _ _ => 0
          | .thr t => s.hslotOf t,
        locS := match a with
          | .core _ _ => pc
          | .thr _ => pc / 8,
        locF := pc, arg := arg, jobid := Card.jobid card, flow := flow, role := role } (some a)

/-- A record of a resident card's job by a source: one that no buffer holds up, or an engine at the job's start (R317, R319). -/
def State.emitJobBy (s : State) (who : Option Agent) (src : Nat) (card : List Byte) (evt cls arg flow role : Nat) : State :=
  s.emit { src := src, part := Card.part card, world := Card.world card, evt := evt, cls := some cls, mask := some (Card.trace card),
           full := true, slot := 0, thr := 0, locS := 0, locF := 0, arg := arg, jobid := Card.jobid card, flow := flow, role := role } who

/-- A record of a resident card's job by a source that no buffer holds up: Beadle, Tollgate (R317, R319). -/
def State.emitJob (s : State) (src : Nat) (card : List Byte) (evt cls arg flow role : Nat) : State :=
  s.emitJobBy none src card evt cls arg flow role

/-- A record that no class filters and no job masks, to one partition's buffer (R317). -/
def State.emitFree (s : State) (who : Option Agent) (src part : Nat) (world : Bool) (evt arg : Nat) : State :=
  s.emit { src := src, part := part, world := world, evt := evt, cls := none, mask := none, full := true, slot := 0, thr := 0, locS := 0,
           locF := 0, arg := arg, jobid := 0, flow := 0, role := 0 } who

/-- Who holds a record of an engine's own that a lossless buffer does not take (R319): a matrix core; of a unit the first thread of its
lowest group, and where it has none the record is lost (log 120). -/
def State.recHolder (s : State) (d : Dom) : Option Agent :=
  match d with
  | .core c => some (.core c 0)
  | .unit u => ((s.unit u).groups.find? fun g => g.2.isSome).map fun g => .thr ⟨u, g.1, 0⟩

/-- The next record of a source is full, in every buffer (R320). -/
def State.fullNext (s : State) (src : Nat) : State :=
  let m := (s.hedge.src.map fun e => (e.1, if e.1 % 128 == src then { e.2 with full := true } else e.2)).filter fun e => e.2 != TraceSrc.reset
  { s with hedge := { s.hedge with src := m } }

/-- An engine's clock set (R320): a CLOCK record to the buffer of the partition it last ran a job of, then the change. -/
def State.setClock (s : State) (d : Dom) (mhz : Nat) : State :=
  let e := s.eng d
  if e.mhz = mhz then s
  else
    let s := match e.lastPart with
      | some p => s.emitFree (s.recHolder d) d.src p e.world 0x02 mhz
      | none => s
    (s.fullNext d.src).modEng d fun e => { e with cycAcc := e.cycle s.ptime, clockAcc := e.clock s.ptime, since := s.ptime, mhz := mhz }

/-- Beadle's next flow ID (R310, R370). -/
def State.newFlow (s : State) : Nat × State :=
  (0x80000 + s.beadle.flows % 0x80000, { s with beadle := { s.beadle with flows := s.beadle.flows + 1 } })

end Sys2Proof.Machine
end

