-- ==== Sys2Proof/Machine/Save.lean ====
section
/-!
DEFINITION. The save areas of pre-emption, snapshots and debug stops (R429 to R432, R443): their bytes, and what a resumption restores.
-/
namespace Sys2Proof.Machine

/-- The base of a slot's save area, or of its snapshot area (R429, R449). -/
def State.saveBase (s : State) (slot : Nat) (world snap : Bool) : Nat :=
  (if world then s.cfg 0x30 8 else s.cfg 0x28 8) + slot * s.cfg 0x38 8 + (if snap then s.cfg 0x38 8 / 2 else 0)

/-- Bytes of a matrix core's area (R429). -/
def coreAreaSize : Nat := 98304

/-- Bytes of a vision group's area before rounding (R431). -/
def groupAreaSize (size regs loc : Nat) : Nat := (0x2080 + size * (384 + 8 * regs) + 63) / 64 * 64 + loc

/-- A vision group's area rounded up to 4 KB (R429). -/
def groupAreaStride (card : List Byte) : Nat := (groupAreaSize (Card.gsize card) (Card.regs card) (Card.loc card) + 4095) / 4096 * 4096

/-- Fields laid over zero bytes: offset, width, value. -/
def layFields (n : Nat) (fs : List (Nat × Nat × Nat)) : List Byte := fs.foldl (fun bs f => putField bs f.1 f.2.1 f.2.2) (zeros n)

/-- Bit sum of flags. -/
def flagSum (l : List Bool) : Nat := l.foldr (fun b acc => b2n b + 2 * acc) 0

/-- Which activation slots an owner has bound. -/
def boundMask (luts : Map LutSlot) (o : Owner) : Nat :=
  flagSum ((List.range 4).map fun i => (luts.find? fun e => e.1 == i).any fun e => e.2.owner == some o)

/-- The contents of activation slot i. -/
def lutBytes (luts : Map LutSlot) (i : Nat) : List Byte :=
  match luts.find? fun e => e.1 == i with
  | some e => e.2.data
  | none => zeros 1600

/-- CKSTAT of a matrix core (R410). -/
def Core.ckstat (c : Core) : Nat := c.gst + c.cpy * 2 ^ 9 + c.undoCount * 2 ^ 16 + (if c.ssat then 2 ^ 31 else 0)

/-- The header of an area (R430, R431). -/
def areaHeader (kind flags jobid pc lutb index cycle freeze stamp : Nat) : List (Nat × Nat × Nat) :=
  [(0, 4, 0x56534C41), (4, 2, 1), (6, 1, kind), (7, 1, flags), (8, 4, jobid), (12, 4, pc), (0x15, 1, lutb), (0x16, 2, index),
   (0x18, 8, cycle), (0x20, 8, freeze), (0x28, 8, stamp)]

/-- A matrix core's area (R430): rollback, snapshot and debug-stop marks as FLAGS. -/
def State.coreArea (s : State) (c slot : Nat) (rollback snap debug : Bool) : List Byte :=
  let x := s.core c
  let a := x.arch
  let job := Card.jobid (s.cardOf slot)
  let rd := a.redir.head?
  let flags := flagSum [rollback, snap, rd.isSome, debug]
  let fp := a.fmtPend.getLast?
  let lp := a.lutPend.getLast?
  layFields coreAreaSize
    (areaHeader 0 flags job a.pc.toNat (boundMask x.eng.luts (.core slot)) x.idx (x.eng.cycle s.ptime) x.eng.freeze.toNat s.ptime
     ++ (match rd with
        | some (t, n) => [(0x10, 4, t.toNat), (0x14, 1, n)]
        | none => [])
     ++ (a.s.map fun e => (0x40 + 8 * e.1, 8, e.2.toNat))
     ++ ((List.range 8).map fun i => (0x240 + 16 * i, 16, if i = 0 then 2 ^ 128 - 1 else (mget 0 a.p i).toNat))
     ++ ((List.range 4).map fun i => (0x2C0 + 8 * i, 8, ((mget none a.ps i).getD 0).toNat))
     ++ [(0x2E0, 1, flagSum ((List.range 4).map fun i => (mget none a.ps i).isNone)),
         (0x300, 4, a.fmt.toNat), (0x304, 4, (fp.map (·.1.toNat)).getD 0), (0x308, 4, a.lutsel.toNat),
         (0x30C, 4, (lp.map (·.1.toNat)).getD 0), (0x310, 1, (fp.map (·.2)).getD 0), (0x311, 1, (lp.map (·.2)).getD 0),
         (0x312, 1, a.fflags.toNat), (0x313, 1, a.suspect.toNat), (0x314, 4, a.drift.toNat), (0x318, 4, x.ckstat),
         (0x31C, 1, x.tcause.toNat), (0x320, 8, a.rnga.toNat), (0x328, 8, a.rngb.toNat), (0x330, 8, x.tpc.toNat),
         (0x338, 8, x.tval.toNat)]
     ++ (x.sem.map fun e => (0x400 + 2 * e.1, 2, e.2))
     ++ (a.held.filterMap fun e => e.2.map fun op => (0x600 + 8 * (e.1 - 2), 8, op.toNat + 2 ^ 63))
     ++ (x.blocks.filterMap fun e => e.2.map fun b => (0x800 + 16 * e.1, 16,
          b.base + (b.count - 1) * 2 ^ 64 + b2n (a.blkLive.getLsbD e.1) * 2 ^ 70 + b2n (a.blkRel.getLsbD e.1) * 2 ^ 71))
     ++ (match x.trec with
        | r :: _ => [(0x900, 32, leNat r)]
        | [] => [])
     ++ (a.v.map fun e => (0x1000 + 128 * e.1, 128, e.2.toNat))
     ++ ((List.range 4).map fun i => (0x3000 + 1600 * i, 1600, leNat (lutBytes x.eng.luts i)))
     ++ (x.acc.flatMap fun e => (List.range 1024).map fun i => (0x5000 + 4096 * e.1 + 4 * i, 4, (e.2.getD i 0).toNat)))

/-- A register file read back: registers lo to hi - 1, w bytes each. -/
def readRegs (bs : List Byte) (off w lo hi : Nat) : List (Nat × Nat) :=
  ((List.range (hi - lo)).map fun i => (lo + i, fieldAt bs (off + w * (lo + i)) w)).filter fun e => e.2 != 0

/-- Does an area's header match R430 and R431 for a part of a job: its fixed fields, the part's index, and zeros? -/
def areaOk (bs : List Byte) (kind jobid idx : Nat) : Bool :=
  fieldAt bs 0 4 == 0x56534C41 && fieldAt bs 4 2 == 1 && fieldAt bs 6 1 == kind && fieldAt bs 7 1 < 16 && fieldAt bs 8 4 == jobid
    && fieldAt bs 0x16 2 == idx && (bs.drop 0x30).take 16 == zeros 16

/-- A core's shadowed state read back from an area (R432) over the device's own record, which holds what the area has no field for: the
walker and pending writes beyond one of a kind (log 9). -/
def archOfArea (bs : List Byte) (k : Arch) : Arch :=
  let fl := fieldAt bs 7 1
  { k with
    s := (readRegs bs 0x40 8 1 64).map fun e => (e.1, BitVec.ofNat 64 e.2),
    v := (readRegs bs 0x1000 128 0 64).map fun e => (e.1, BitVec.ofNat 1024 e.2),
    p := (readRegs bs 0x240 16 1 8).map fun e => (e.1, BitVec.ofNat 128 e.2),
    ps := ((List.range 4).filter fun i => !bit (fieldAt bs 0x2E0 1) i).map fun i => (i, some (BitVec.ofNat 64 (fieldAt bs (0x2C0 + 8 * i) 8))),
    fmt := BitVec.ofNat 32 (fieldAt bs 0x300 4),
    fmtPend := if fieldAt bs 0x310 1 = 0 then [] else
      k.fmtPend.dropLast ++ [(BitVec.ofNat 32 (fieldAt bs 0x304 4), fieldAt bs 0x310 1)],
    lutsel := BitVec.ofNat 2 (fieldAt bs 0x308 4),
    lutPend := if fieldAt bs 0x311 1 = 0 then [] else
      k.lutPend.dropLast ++ [(BitVec.ofNat 2 (fieldAt bs 0x30C 4), fieldAt bs 0x311 1)],
    fflags := BitVec.ofNat 5 (fieldAt bs 0x312 1), suspect := BitVec.ofNat 8 (fieldAt bs 0x313 1 % 4),
    drift := BitVec.ofNat 32 (fieldAt bs 0x314 4), rnga := BitVec.ofNat 64 (fieldAt bs 0x320 8),
    rngb := BitVec.ofNat 64 (fieldAt bs 0x328 8),
    held := ((List.range 6).filter fun i => bit (fieldAt bs (0x600 + 8 * i) 8) 63).map fun i =>
      (i + 2, some (BitVec.ofNat 44 (fieldAt bs (0x600 + 8 * i) 8))),
    pc := BitVec.ofNat 32 (fieldAt bs 12 4),
    redir := if bit fl 2 then (BitVec.ofNat 32 (fieldAt bs 0x10 4), fieldAt bs 0x14 1) :: k.redir.drop 1 else [],
    blkLive := BitVec.ofNat 16 (flagSum ((List.range 16).map fun i => bit (fieldAt bs (0x808 + 16 * i) 8) 6)),
    blkRel := BitVec.ofNat 16 (flagSum ((List.range 16).map fun i => bit (fieldAt bs (0x808 + 16 * i) 8) 7)) }

/-- Activation slots named in LUTB bound again to an owner (R432, R434). -/
def rebindLuts (luts : Map LutSlot) (o : Owner) (lutb : Nat) (bs : List Byte) (off : Nat) : Map LutSlot :=
  (List.range 4).foldl (fun m i =>
    if bit lutb i then minsert (merase m i) i { owner := some o, data := (bs.drop (off + 1600 * i)).take 1600 } else m) luts

/-- An owner's activation slots unbound and cleared (R434). -/
def unbindLuts (luts : Map LutSlot) (o : Owner) : Map LutSlot := luts.filter fun e => e.2.owner != some o

/-- The accumulator tiles of an area (R430). -/
def tilesOfArea (bs : List Byte) : Map (List (BitVec 32)) :=
  ((List.range 16).map fun t => (t, (List.range 1024).map fun i => BitVec.ofNat 32 (fieldAt bs (0x5000 + 4096 * t + 4 * i) 4))).filter
    fun e => e.2 != List.replicate 1024 0

/-- Does a waiting word issue again on resumption (R343, R431)? -/
def waitReissues : Wait → Bool
  | .none | .yield .. | .trace => false
  | .sem .. | .sync .. | .pop .. | .push _ | .bar .. | .leave _ | .copySlot | .query _ | .drain | .tlbinv | .hintinv | .jend => true

/-- A vision group's area (R431), with the debug-stop mark of FLAGS. -/
def State.groupArea (s : State) (u g slot : Nat) (debug : Bool) : List Byte :=
  let x := s.group u g
  let card := s.cardOf slot
  let n := x.regs
  let th (e : Nat × Thread) : List (Nat × Nat × Nat) :=
    let o := 0x2080 + e.1 * (384 + 8 * n)
    let t := e.2
    [(o, 8, t.pc.toNat), (o + 8, 1, (t.p ||| 1).toNat),
     (o + 9, 1, b2n t.inHandler + 2 * b2n t.dePref + 4 * b2n (t.reissue || waitReissues t.wait)), (o + 12, 4, t.fmt.toNat),
     (o + 16, 1, t.fflags.toNat), (o + 17, 1, t.tcause.toNat), (o + 24, 8, t.tpc.toNat), (o + 32, 8, t.tval.toNat),
     (o + 40, 8, t.tmask.toNat), (o + 48, 8, t.rnga.toNat), (o + 56, 8, t.rngb.toNat)]
    ++ (t.x.filter fun r => r.1 < n).map fun r => (o + 384 + 8 * r.1, 8, r.2.toNat)
  let shared := (0x2080 + x.size * (384 + 8 * n) + 63) / 64 * 64
  let bs := layFields (groupAreaSize x.size n (Card.loc card))
    (areaHeader 1 (flagSum [false, false, false, debug]) (Card.jobid card) 0 (boundMask (s.unit u).eng.luts (.group g)) x.idx ((s.unit u).eng.cycle s.ptime)
        (s.unit u).eng.freeze.toNat s.ptime
     ++ [(0x40, 8, x.thandler.toNat), (0x48, 4, x.drift.toNat), (0x4C, 1, x.lutsel.toNat), (0x4D, 2, x.granted),
         (0x4F, 4, if x.ssat then 2 ^ 31 else 0)]
     ++ (x.sem.map fun e => (0x80 + 2 * e.1, 2, e.2))
     ++ (x.k.map fun e => (0x280 + 8 * e.1, 8, e.2.toNat))
     ++ ((List.range 4).map fun i => (0x780 + 1600 * i, 1600, leNat (lutBytes (s.unit u).eng.luts i)))
     ++ x.threads.flatMap th)
  x.smem.foldl (fun bs c => if c.1 < Card.loc card then putBytes bs (shared + c.1) [c.2] else bs) bs

/-- A thread read back from a group's area, with what the device keeps of it (R431, R432). -/
def threadOfArea (bs : List Byte) (n t : Nat) (k : KeptThread) : Thread :=
  let o := 0x2080 + t * (384 + 8 * n)
  { Thread.reset with
    x := ((List.range (n - 1)).map fun i => (i + 1, BitVec.ofNat 64 (fieldAt bs (o + 384 + 8 * (i + 1)) 8))).filter fun e => e.2 != 0,
    p := BitVec.ofNat 8 (fieldAt bs (o + 8) 1), pc := BitVec.ofNat 64 (fieldAt bs o 8),
    inHandler := bit (fieldAt bs (o + 9) 1) 0, dePref := bit (fieldAt bs (o + 9) 1) 1, reissue := bit (fieldAt bs (o + 9) 1) 2,
    fmt := BitVec.ofNat 32 (fieldAt bs (o + 12) 4), fflags := BitVec.ofNat 5 (fieldAt bs (o + 16) 1),
    tcause := BitVec.ofNat 8 (fieldAt bs (o + 17) 1), tpc := BitVec.ofNat 64 (fieldAt bs (o + 24) 8),
    tval := BitVec.ofNat 64 (fieldAt bs (o + 32) 8), tmask := BitVec.ofNat 64 (fieldAt bs (o + 40) 8),
    rnga := BitVec.ofNat 64 (fieldAt bs (o + 48) 8), rngb := BitVec.ofNat 64 (fieldAt bs (o + 56) 8), query := k.query,
    ended := k.ended, pendTraps := k.pendTraps, stallTrace := k.stallTrace, trec := k.trec }

/-- Bytes put in memory by Beadle in a card's world (R429). -/
def State.putArea (s : State) (world : Bool) (base : Nat) (bs : List Byte) : State := s.homeWrite world (cellsOf base bs)

end Sys2Proof.Machine
end

