-- ==== Sys2Proof/Machine/Removals.lean ====
section
/-!
DEFINITION. Removals of translations (spec/11_isolation.md R399, R406, R407): what a removal covers, what it takes from the TLBs, walk caches
and L1s, and what it waits for.
-/
namespace Sys2Proof.Machine

/-- Does the removal take a TLB entry of its world? -/
def InvForm.takes (f : InvForm) (t : TlbEntry) : Bool :=
  match f with
  | .va a n => (t.asid == n || t.attr.g) && t.vbase ≤ a && a < t.vbase + 2 ^ t.log
  | .asid n => t.asid == n && !t.attr.g
  | .all => true

/-- Does the removal take a walk-cache entry of its world? -/
def InvForm.takesWalk (f : InvForm) (w : WalkEntry) : Bool :=
  match f with
  | .va a n => w.asid == n && w.upper == walkUpper w.lvl a
  | .asid n => w.asid == n
  | .all => true

/-- Does the removal take the L1 lines of a virtual line number, ASID and global mark? -/
def InvForm.line (f : InvForm) (vline asid : Nat) (g : Bool) : Bool :=
  match f with
  | .va a n => (asid == n || g) && vline / 2 ^ 24 == a / 2 ^ 30
  | .asid n => asid == n
  | .all => true

/-- Does a removal made from a world reach a world? Only a secure `.all` reaches both. -/
def InvForm.reaches (f : InvForm) (mine other : Bool) : Bool := mine == other || (f == .all && mine)

/-- Did an access of an ASID through a byte's translation use an entry that the removal takes? -/
def InvForm.used (f : InvForm) (mine : Bool) (asid : Nat) (world : Bool) (x : XByte) : Bool :=
  f.reaches mine world && (match f with
    | .va a n => (asid == n || x.attr.g) && x.va / 2 ^ x.attr.log == a / 2 ^ x.attr.log
    | .asid n => asid == n && !x.attr.g
    | .all => true)

/-- The translated bytes of a place of a copy. -/
def CopyEnd.bytes : CopyEnd → List XByte
  | .glob b => b
  | _ => []

/-- The translated bytes of a withheld effect. -/
def Eff.bytes : Eff → List XByte
  | .store bs => bs.map (·.1)
  | .tags cs => cs.map (·.1)
  | .copy c => c.src.bytes ++ c.dsts.flatMap CopyEnd.bytes
  | _ => []

/-- Every engine of the device. -/
def allDoms : List Dom := (List.range 32).map (fun i => Dom.core (fin 32 i)) ++ (List.range 32).map fun i => Dom.unit (fin 32 i)

/-- What a removal waits for (R407 step 3), the issuer's own interval apart. -/
def State.removal (s : State) (f : InvForm) (mine : Bool) (w : InvWaiter) : Removal :=
  let me (c : Nat) : Bool := match w with
    | .core j => j.val == c
    | _ => false
  let cores := (List.range 32).filter fun c => !me c &&
    (let k := s.ctx (.core (fin 32 c) 0)
     (s.core c).withheld.any fun e => e.bytes.any fun x => f.used mine k.asid k.world x)
  let copies := allDoms.flatMap fun d => ((s.eng d).copies.filter fun c =>
    (c.src.bytes ++ c.dsts.flatMap CopyEnd.bytes).any fun x => f.used mine c.asid c.world x).map fun c => (d, c.seq)
  let fills := (List.range 32).flatMap fun c => (s.core c).blocks.filterMap fun b => match b.2 with
    | some k => if !k.filled && f.reaches mine k.world && k.lines.any (fun l => f.line l.vline k.asid l.attr.g) then some (c, b.1) else none
    | none => none
  { form := f, world := mine, waiter := w, cores := cores, copies := copies, fills := fills }

/-- The L1 lines of an engine that a removal covers written back and gone (R406). -/
def State.dropCovered (s : State) (f : InvForm) (mine : Bool) (d : Dom) : State :=
  s.dropLines d fun l => f.reaches mine l.world && f.line l.vline l.asid l.attr.g

/-- The entries and L1 lines removed, in every TLB and engine, dirty bytes written back first; live load-blocks stay (R406). -/
def State.removeEntries (s : State) (f : InvForm) (mine : Bool) : State :=
  let tlbs := (s.iso.tlbs.map fun e => (e.1, e.2.filter fun t => !(f.reaches mine t.world && f.takes t))).filter fun e => e.2 != []
  let walks := (s.iso.walks.map fun e => (e.1, e.2.filter fun w => !(f.reaches mine w.world && f.takesWalk w))).filter fun e => e.2 != []
  let s := { s with iso := { s.iso with tlbs := tlbs, walks := walks } }
  allDoms.foldl (fun s d => s.dropCovered f mine d) s

/-- A removal begun (R407): the entries go, and its completion is waited for. -/
def State.invalidate (s : State) (f : InvForm) (mine : Bool) (w : InvWaiter) : State :=
  let r := s.removal f mine w
  let s := s.removeEntries f mine
  let s := match w with
    | .core c => s.modCore c fun x => { x with invs := x.invs ++ [(f, mine)] }
    | .thread _ | .window => s
  { s with iso := { s.iso with removals := s.iso.removals ++ [r] } }

/-- A core's withheld effects are resolved: removals of translations wait for them no more (R407). -/
def State.resolveRemovals (s : State) (c : Nat) : State :=
  { s with iso := { s.iso with removals := s.iso.removals.map fun r => { r with cores := r.cores.filter (· != c) } } }

/-- A removal that waited for a core's withheld effects waits for the copies among them, which are now in flight (R407). -/
def State.awaitCopies (s : State) (c : Nat) : State :=
  let d : Dom := .core (fin 32 c)
  let more (r : Removal) : List (Dom × Nat) := ((s.eng d).copies.filter fun y =>
    ((y.src.bytes ++ y.dsts.flatMap CopyEnd.bytes).any fun x => r.form.used r.world y.asid y.world x) && !r.copies.contains (d, y.seq)).map fun y => (d, y.seq)
  { s with iso := { s.iso with removals := s.iso.removals.map fun r => if r.cores.contains c then { r with copies := r.copies ++ more r } else r } }

/-- A core's withheld effects have been released: those that removals of translations wait for perform at DEVICE, its copies once they have
landed, and no line filled through a removed entry stays, of a removal of its own either (R399, R407). -/
def State.performRemovals (s : State) (c : Nat) : State :=
  let d : Dom := .core (fin 32 c)
  let s := (s.iso.removals.filter fun r => r.cores.contains c).foldl (fun s r => s.dropCovered r.form r.world d) s
  let s := (s.core c).invs.foldl (fun s r => s.dropCovered r.1 r.2 d) s
  ((s.awaitCopies c).resolveRemovals c).modCore c fun x => { x with invs := [] }

end Sys2Proof.Machine
end

