-- ==== Sys2Proof/Machine/Landing.lean ====
section
/-!
DEFINITION. How copies land (spec/07_ordering.md R253 to R256; spec/08_memory_ops.md R278, R281, R282; spec/03_formats.md R114 to R116), the
end of a thread's wait, and releases, which follow every memory op of their engine, its copies among them (R235 to R237, R244, R251).
-/
namespace Sys2Proof.Machine

/-- The threads of a unit's groups, in ascending place and index. -/
def VUnit.tids (v : VUnit) (u : Fin 32) : List Tid :=
  v.groups.flatMap fun e => match e.2 with
    | some g => (List.range g.size).map fun i => ⟨u, e.1, i⟩
    | none => []

/-! ### The end of a thread's wait -/

/-- The stall cause of a thread's wait (R323); 0 where the table names none (log 21). -/
def Wait.cause : Wait → Nat
  | .query _ => 1
  | .sem .. => 2
  | .trace => 4
  | .leave _ => 6
  | .sync .. => 9
  | .pop .. | .push _ | .copySlot => 10
  | .bar .. => 11
  | .none | .drain | .tlbinv | .hintinv | .jend | .yield .. => 0

/-- A STALL record of a thread for a wait or a hold that lasted from an engine cycle until now, 16 cycles at least (R323). -/
def State.threadStall (s : State) (t : Tid) (cause since : Nat) : State :=
  let n := (s.eng (.unit t.unit)).cycle s.ptime - since
  if (s.thread t).stallTrace && cause != 0 && 16 ≤ n then s.emitAt (.thr t) 0x19 2 false (cause + min n 65535 * 2 ^ 8) 0 0 else s

/-- A thread's wait for operands ends, with its STALL record (R323, R364). -/
def State.endOperandWait (s : State) (t : Tid) : State :=
  match (s.thread t).opSince with
  | none => s
  | some c => (s.threadStall t 1 c).modThread t fun x => { x with opSince := none }

/-- A thread's wait ends. -/
def State.wake (s : State) (t : Tid) : State :=
  let x := s.thread t
  if x.wait = .none then s
  else (s.threadStall t x.wait.cause x.waitSince).modThread t fun x => { x with wait := .none }

/-! ### A thread's results to land -/

/-- An activation slot takes an image for a group (R155, R434). -/
def State.takeImage (s : State) (t : Tid) (n : Nat) (data : List Byte) : State :=
  s.modEng (.unit t.unit) fun e => { e with luts := minsert (merase e.luts n) n { owner := some (.group t.group), data := data } }

/-- The image of a LUTLD that is executing: taken as its status lands (R155), now where the status is to land in no register later. -/
def State.imageOf (s : State) (t : Tid) (regs : List Nat) (n : Nat) (data : List Byte) : State :=
  match (s.thread t).busy.getLast? with
  | some b => if regs != [] && b.regs == regs && b.lut.isNone then
      s.modThread t fun x => { x with busy := x.busy.dropLast ++ [{ b with lut := some (n, data) }] }
    else s.takeImage t n data
  | none => s.takeImage t n data

/-- A word's results have landed (R364), the image of a LUTLD with its status (R155). -/
def State.landBusy (s : State) (t : Tid) (i : Nat) : State :=
  let s := match (s.thread t).busy[i]?.bind (·.lut) with
    | some e => s.takeImage t e.1 e.2
    | none => s
  s.modThread t fun x => { x with busy := dropAt x.busy i }

/-- Every word's results have landed. -/
def State.landAllBusy (s : State) (t : Tid) : State :=
  ((s.thread t).busy.filterMap (·.lut)).foldl (fun s e => s.takeImage t e.1 e.2) s |>.modThread t fun x => { x with busy := [] }

/-! ### The command word (R278) -/

/-- NELEM. -/
def cmdElems (w : Word) : Nat := bits w.toNat 19 0
/-- STYPE. -/
def cmdSrc (w : Word) : Option Ty := tyOf (bits w.toNat 24 20)
/-- DTYPE. -/
def cmdDst (w : Word) : Option Ty := tyOf (bits w.toNat 29 25)
/-- SYNC. -/
def cmdSync (w : Word) : Bool := bit w.toNat 30
/-- SEM. -/
def cmdSem (w : Word) : Bool := bit w.toNat 31
/-- SWOFF. -/
def cmdSwoff (w : Word) : Nat := bits w.toNat 52 32
/-- SCORE. -/
def cmdScore (w : Word) : Nat := bits w.toNat 55 53
/-- SIDX. -/
def cmdSidx (w : Word) : Nat := bits w.toNat 63 56

/-! ### Shares -/

/-- The core that runs the part of a job with an index. -/
def State.partCore (s : State) (job idx : Nat) : Option Nat :=
  (s.cores.find? fun e => e.2.job == some job && e.2.idx == idx).map (·.1)

/-- The bytes and poisoned blocks of the share a place names: where its part runs, or where it is kept (R281, R344). -/
def State.shareOf (s : State) (job : Nat) (p : CopyEnd) : List Host.Cell × List Nat :=
  match p with
  | .glob _ => ([], [])
  | .core idx _ => match s.partCore job idx with
    | some c => ((s.core c).scratch, (s.core c).poison)
    | none => match (s.slot job).bind fun z => mget none z.shares idx with
      | some h => (h.cells, h.poison)
      | none => ([], [])
  | .group u g _ => ((s.group u g).smem, (s.group u g).poison)

/-- Bytes written in the share a place names, at an offset; a copy is not logged for undo (R269). -/
def State.writeShare (s : State) (job : Nat) (p : CopyEnd) (off : Nat) (bs : List Byte) : State :=
  match p with
  | .glob _ => s
  | .core idx _ => match s.partCore job idx with
    | some c => s.storeLocal (.core (fin 32 c) 0) off bs
    | none => s.modSlot job fun z =>
        { z with shares := z.shares.map fun e => if e.1 = idx then
            (e.1, e.2.map fun h => { h with cells := writeBytes h.cells off bs, poison := clearLocalPoison h.poison off bs.length }) else e }
  | .group u g _ => s.storeLocal (.thr ⟨fin 32 u, g, 0⟩) off bs

/-- The offset of a place in its share; of a semaphore's place, its index. -/
def CopyEnd.off : CopyEnd → Nat
  | .glob _ => 0
  | .core _ o => o
  | .group _ _ o => o

/-- Is the side packed (R116)? -/
def CopyEnd.packed : CopyEnd → Bool
  | .glob _ => true
  | _ => false

/-- A copy's signal (R256); of a part that is saved, in its save area (R430). -/
def State.signalPlace (s : State) (job : Nat) (p : CopyEnd) : State :=
  match p with
  | .glob _ => s
  | .core idx i => match s.partCore job idx with
    | some c => s.signalCore c i 1
    | none =>
      let w := Card.world (s.cardOf job)
      let base := s.saveBase job w false + coreAreaSize * idx
      let r := semAdd (readNat s.mem (base + 0x400 + 2 * i) 2) 1
      let s := s.homeWrite w (cellsOf (base + 0x400 + 2 * i) (leBytes 2 r.1))
      if r.2 then s.homeWrite w (cellsOf (base + 0x31B) [byteAt s.mem (base + 0x31B) ||| 0x80]) else s
  | .group u g i => s.signalGroup u g i 1

/-! ### Sync words (R254, R255) -/

/-- OnLand: n bytes counted into a sync word. -/
def onLand (w n : Nat) : Nat :=
  let target := bits w 23 0
  let gen := bits w 63 48
  let c := bits w 47 24 + n
  if target = 0 then c % 2 ^ 24 * 2 ^ 24 + gen * 2 ^ 48
  else target + c % target % 2 ^ 24 * 2 ^ 24 + (gen + c / target) % 2 ^ 16 * 2 ^ 48

/-- A landing of n bytes counted into the sync word at a place. -/
def State.countLanding (s : State) (job n : Nat) (p : CopyEnd) : State :=
  s.writeShare job p p.off (leBytes 8 (onLand (readNat (s.shareOf job p).1 p.off 8) n))

/-- Has a sync word's GEN reached a generation (R284)? -/
def reached (w gen : Nat) : Bool := (bits w 63 48 + 2 ^ 16 - gen % 2 ^ 16) % 2 ^ 16 < 2 ^ 15

/-! ### Pieces (R253, R114) -/

/-- Elements in a piece: at most 64 bytes of the destination, and a whole number of packed groups. -/
def pieceElems (t : Ty) (packed : Bool) : Nat :=
  if isSix t && packed then 84 else if t == .e2m1 then 128 else 64 / (layoutBits t packed / 8)

/-- Pieces of n elements. -/
def pieceCount (n pe : Nat) : Nat := (n + pe - 1) / pe

/-- One global byte as a copy reads it: the engine's own dirty bytes first (R253). -/
def State.copyByte (s : State) (k : Ctx) (x : XByte) : Byte × Option Nat :=
  if x.attr.mt != 0 || isWindow x.pa then (s.loadExt k x, none)
  else
    let own := match k.dom with
      | .core c => (s.core c).blockLine (x.pa / 64)
      | .unit _ => none
    let l1 := (s.eng k.dom).l1.find? fun l => l.pline == x.pa / 64
    match [own, l1].findSome? fun o => o.bind fun l => if l.dirty.getLsbD (x.pa % 64) then some (l.data.getD (x.pa % 64) 0) else none with
    | some b => (b, none)
    | none => s.homeByte k.world x.pa

/-- n bytes of a copy's source from byte `lo`, or the address of the lowest poisoned one, as a virtual address of 48 bits (log 121). -/
def State.copySource (s : State) (k : Ctx) (job : Nat) (p : CopyEnd) (lo n : Nat) : Except Nat (List Byte) :=
  match p with
  | .glob bytes =>
    let xs := (bytes.drop lo).take n
    let rs := xs.map fun x => (x.va, s.copyByte k x)
    match rs.find? fun r => r.2.2.isSome with
    | some r => .error r.1
    | none => .ok (rs.map (·.2.1))
  | p =>
    let m := s.shareOf job p
    match localPoison m.2 (p.off + lo) n with
    | some o => .error o
    | none => .ok (readBytes m.1 (p.off + lo) n)

/-- The first byte of a piece whose sector takes no partial write: it is poisoned, or its read for merging fails (R404). -/
def State.mergeFails (s : State) (xs : List XByte) : Option Nat :=
  (xs.find? fun x =>
    let sector := x.pa / 64
    let whole := (xs.filter fun y => y.pa / 64 == sector).length == 64
    x.attr.mt == 0 && !isWindow x.pa && !whole
      && (mget 0 s.poisoned sector != 0 || (s.secure x.pa && !s.sealed.contains sector))).map (·.va)

/-- Bytes of a copy written at a destination from byte `lo` (R253): in NORMAL memory at the home agent, the range leaving the engine's L1
first; or the failing byte. Log 123. -/
def State.copyStore (s : State) (k : Ctx) (job : Nat) (p : CopyEnd) (lo : Nat) (bs : List Byte) : Except Nat State :=
  match p with
  | .glob bytes =>
    let xs := (bytes.drop lo).take bs.length
    match s.mergeFails xs with
    | some va => .error va
    | none =>
      let cells := xs.zip bs
      let mem := cells.filter fun c => c.1.attr.mt == 0 && !isWindow c.1.pa
      let ext := cells.filter fun c => !(c.1.attr.mt == 0 && !isWindow c.1.pa)
      let s := s.dropLines k.dom fun l => mem.any fun c => c.1.pa / 64 == l.pline
      let s := s.homeWrite k.world (mem.map fun c => (c.1.pa, c.2))
      .ok ((s.countPeer (ext.map (·.1)) 1).storeExt k ext)
  | p => .ok (s.writeShare job p (p.off + lo) bs)

/-- Threads that wait for a copy slot of a unit issue again (R281). -/
def State.wakeCopySlot (s : State) (d : Dom) : State :=
  match d with
  | .core _ => s
  | .unit u => (((s.unit u).tids u).filter fun t => (s.thread t).wait == .copySlot).foldl State.wake s

/-- Copy i of an engine changed. -/
def State.modCopy (s : State) (d : Dom) (i : Nat) (f : Copy → Copy) : State :=
  s.modEng d fun e => { e with copies := match e.copies[i]? with
    | some c => setAt e.copies i (f c)
    | none => e.copies }

/-- Copy i of an engine gone; its slot is free. -/
def State.endCopy (s : State) (d : Dom) (i : Nat) : State :=
  (s.modEng d fun e => { e with copies := dropAt e.copies i }).wakeCopySlot d

/-- The source codes of a piece: those read for another destination, or read now (R280). -/
def State.pieceCodes (s : State) (k : Ctx) (c : Copy) (piece lo n : Nat) : Except Nat (List Nat) :=
  match c.got.find? fun e => e.1 == piece with
  | some e => .ok e.2
  | none =>
    let t := (cmdSrc c.cmd).getD .i8
    let p := c.src.packed
    match s.copySource k c.job c.src (layoutBytes t p lo) (layoutBytes t p n) with
    | .error va => .error va
    | .ok bs => .ok ((List.range n).map fun i => getElem t p bs i)

/-- Bytes that a side of a copy covers. -/
def sideBytes (t : Option Ty) (packed : Bool) (cmd : Word) : Nat := layoutBytes (t.getD .i8) packed (cmdElems cmd)

/-- Do two places of copies overlap, n and m bytes from them? -/
def placesMeet (j j' : Nat) (a b : CopyEnd) (n m : Nat) : Bool :=
  match a, b with
  | .glob x, .glob y => x.any fun p => y.any fun q => p.pa == q.pa
  | .core i o, .core i' o' => j == j' && i == i' && o < o' + m && o' < o + n
  | .group u g o, .group u' g' o' => u == u' && g == g' && o < o' + m && o' < o + n
  | _, _ => false

/-- Does an earlier copy of the engine, still landing, write what copy i reads (R253)? Its source reads perform after it. -/
def copyBehind (l : List Copy) (i : Nat) : Bool :=
  match l[i]? with
  | none => false
  | some c => (l.take i).any fun e => e.failed.isNone && e.left != [] && e.dsts.any fun p =>
      placesMeet e.job c.job p c.src (sideBytes (cmdDst e.cmd) p.packed e.cmd) (sideBytes (cmdSrc c.cmd) c.src.packed c.cmd)

/-- The global bytes that a copy reads for a piece: none for one read already. -/
def Copy.reads (c : Copy) (piece lo n : Nat) : List XByte :=
  if c.got.any fun e => e.1 == piece then []
  else match c.src with
    | .glob bytes =>
      let t := (cmdSrc c.cmd).getD .i8
      (bytes.drop (layoutBytes t c.src.packed lo)).take (layoutBytes t c.src.packed n)
    | _ => []

/-- A copy's read of a piece as the home agent (R379) and the PCI Express record (R460) see it. -/
def State.noteReads (s : State) (k : Ctx) (xs : List XByte) : State :=
  (s.noteWorld k.world ((xs.filter fun x => x.attr.mt == 0 && !isWindow x.pa).map (·.pa))).countPeer xs 0

/-- A piece of a copy lands at one destination, converted; it counts, and the copy signals after its last (R114, R253, R255, R256). A piece
that meets poison stops the copy (R282). -/
def State.landPiece (s : State) (d : Dom) (i j : Nat) : State :=
  match (s.eng d).copies[i]? with
  | none => s
  | some c =>
    match c.left[j]? with
    | none => s
    | some q =>
      if c.failed.isSome || copyBehind (s.eng d).copies i then s
      else
        let k := s.ctxCard d (s.cardOf c.job)
        let src := (cmdSrc c.cmd).getD .i8
        let dst := (cmdDst c.cmd).getD .i8
        let place := c.dsts.getD q.1 (.glob [])
        let pe := pieceElems dst place.packed
        let lo := q.2 * pe
        let n := min pe (cmdElems c.cmd - lo)
        let s := s.noteReads k (c.reads q.2 lo n)
        match s.pieceCodes k c q.2 lo n with
        | .error va => s.modCopy d i fun c => { c with failed := some va }
        | .ok codes =>
          let bs := packElems dst place.packed (codes.map (convertCopy src dst))
          match s.copyStore k c.job place (layoutBytes dst place.packed lo) bs with
          | .error va => s.modCopy d i fun c => { c with failed := some va }
          | .ok s =>
            let left := dropAt c.left j
            let more := left.any fun r => r.2 == q.2
            let s := s.modCopy d i fun c =>
              { c with left := left, got := if more then minsert (merase c.got q.2) q.2 codes else merase c.got q.2 }
            let syncs := if c.multi then (c.syncs.drop q.1).take 1 else c.syncs
            let s := syncs.foldl (fun s p => s.countLanding c.job bs.length p) s
            if left = [] then (c.sems.foldl (fun s p => s.signalPlace c.job p) s).endCopy d i else s

/-! ### Releases -/

/-- The copies of an engine in flight land, piece by piece, the earliest first; `n` bounds the pieces. -/
def State.landNext (s : State) (d : Dom) : Nat → State
  | 0 => s
  | n + 1 => match (s.eng d).copies.findIdx? fun c => c.failed.isNone && c.left != [] with
    | none => s
    | some i => (s.landPiece d i 0).landNext d n

/-- Every copy of an engine in flight lands now, but one that met poison (R253, R282). -/
def State.landCopies (s : State) (d : Dom) : State := s.landNext d ((s.eng d).copies.map (·.left.length)).sum

/-- A release wider than CORE: every earlier memory op of the engine performs first, its copies landed and its dirty bytes written back
(R235, R244; log 122). -/
def State.releaseAt (s : State) (d : Dom) (sc : Scope) : State :=
  if sc == .thread || sc == .core then s else (s.landCopies d).cleanAll d

end Sys2Proof.Machine
end

