-- ==== Sys2Proof/Machine/Server.lean ====
section
/-!
DEFINITION. Engine classes and resident slots, and Beadle's best-effort server (spec/10_progress.md R338, R340).
-/
namespace Sys2Proof.Machine

/-- The class of an engine number as cards code it (R330). -/
def clsNo : EngClass → Nat
  | .matrix => 0
  | .vision => 1

/-- The reset domain of an engine of a class. -/
def clsDom (cls e : Nat) : Dom := if cls = 0 then .core (fin 32 e) else .unit (fin 32 e)

/-- Is the engine in service? -/
def State.usable (s : State) (cls e : Nat) : Bool :=
  let x := s.eng (clsDom cls e)
  x.inService && x.failed.isNone

/-- Is a job of the slot live, with its end not decided? -/
def Slot.live (z : Slot) : Bool := z.state != .none && z.endStatus.isNone

/-- Does the job hold engines? -/
def Slot.holds (z : Slot) : Bool := z.state == .running || z.state == .saving

/-- May the job be dispatched: released with its edges satisfied (R333), or saved? -/
def Slot.ready (z : Slot) : Bool :=
  z.live && (z.state == .saved || (z.state == .released && z.edges.all (·.satisfied)))

/-- Lexicographic order of keys. -/
def key3Lt (a b : Nat × Nat × Nat) : Bool :=
  a.1 < b.1 || (a.1 == b.1 && (a.2.1 < b.2.1 || (a.2.1 == b.2.1 && a.2.2 < b.2.2)))

/-- A requester's number among Tollgate's accounts: a resident slot, or 4,096 and a partition. -/
def payerNo : Payer → Nat
  | .job n => n % 4096
  | .pool p => 4096 + p.val

/-- Is a resident slot's job held by Tollgate at some channel (R352)? -/
def State.tollHeld (s : State) (n : Nat) : Bool := s.beadle.accounts.any fun e => e.1 % 8192 == payerNo (.job n) && e.2.held

/-- What Tollgate keeps of a resident slot's job is gone with its card (R351, R352). -/
def State.forgetPayer (s : State) (n : Nat) : State :=
  { s with beadle := { s.beadle with
      accounts := s.beadle.accounts.filter fun e => e.1 % 8192 != payerNo (.job n),
      heldReqs := s.beadle.heldReqs.filter fun r => r.2 != .job n,
      charged := s.beadle.charged.filter fun e => e.1 != payerNo (.job n) } }

/-- Does a core wait for a result whose request targets a PEER or IO mapping, or which Tollgate may hold (R438)? -/
def State.outsideWait (s : State) (c : Nat) : Bool :=
  let x := s.core c
  (x.sb.any fun e => e.ext) || (x.sb != [] && (x.job.map s.tollHeld) == some true)

/-- Budget of the server of a class, its start and the instant up to which it is counted. -/
def Beadle.server (b : Beadle) (cls : Nat) : Nat × Option Nat × Nat :=
  if cls = 0 then (b.budgetM, b.windowM, b.sinceM) else (b.budgetV, b.windowV, b.sinceV)

/-- The server of a class set. -/
def Beadle.setServer (b : Beadle) (cls : Nat) (x : Nat × Option Nat × Nat) : Beadle :=
  if cls = 0 then { b with budgetM := x.1, windowM := x.2.1, sinceM := x.2.2 } else { b with budgetV := x.1, windowV := x.2.1, sinceV := x.2.2 }

/-- The oldest best-effort job of a class: in release order, then by JOBID. -/
def State.oldestBest (s : State) (cls : Nat) : Option Nat :=
  let l := s.residents.filter fun e => Card.eng e.2.card == cls && e.2.bestEffort && (e.2.ready || (e.2.live && e.2.holds))
  (l.foldl (fun (b : Option (Nat × Slot)) e => match b with
    | none => some e
    | some x => if key3Lt (0, e.2.release, Card.jobid e.2.card) (0, x.2.release, Card.jobid x.2.card) then some e else b) none).map (·.1)

/-- The job to which the server of a class lends its key. -/
def State.lent (s : State) (cls : Nat) : Option Nat := if (s.beadle.server cls).1 = 0 then none else s.oldestBest cls

/-- The key of a job (R338, R340): lower is more urgent. -/
def State.jobKey (s : State) (n : Nat) : Nat × Nat × Nat :=
  match s.slot n with
  | none => (2, 0, 0)
  | some z =>
    if !z.bestEffort then (0, z.deadline, Card.jobid z.card)
    else if s.lent (Card.eng z.card) == some n then (0, (s.beadle.server (Card.eng z.card)).2.1.getD 0 + s.beadle.bewin, 0)
    else (1, z.release, Card.jobid z.card)

/-- The server's budget counted up to now: each engine of the job it lends a key spends one engine-tick per tick (R340). -/
def State.settleServer (s : State) (cls : Nat) : State :=
  let x := s.beadle.server cls
  let held := match (s.lent cls).bind s.slot with
    | some z => if z.holds then z.engines.eraseDups.length else 0
    | none => 0
  { s with beadle := s.beadle.setServer cls (x.1 - held * (s.ptime - x.2.2), x.2.1, s.ptime) }

/-- The budgets of both classes counted up to now, as before any change of the jobs they lend a key (R340). -/
def State.settleServers (s : State) : State := (s.settleServer 0).settleServer 1

end Sys2Proof.Machine
end

