-- ==== Sys2Proof/Machine/Jobs.lean ====
section
/-!
DEFINITION. The parts of a job on its engines: starting them (R25, R32), rolling a core back (R415), saving and restoring them (R342 to
R344, R429 to R432), ending them, and the End disposition with its restart policy (R418, R442).
-/
namespace Sys2Proof.Machine

/-- GPOS in bundle form (R29, R362). -/
def gposOf (core idx gang : Nat) : Nat := core % 2 ^ gang + gang * 2 ^ 4 + idx * 2 ^ 16

/-! ### Starting -/

/-- An engine at job start: its cycle and freeze counts restart (R29, R32); the weights issued in the last cycles still count (R354). -/
def Eng.jobStart (e : Eng) (ptime part : Nat) (world : Bool) : Eng :=
  { e with cycAcc := 0, clockAcc := e.clock ptime, since := ptime, freeze := 0, freezeRun := 0, granted := 0,
           world := world, lastPart := some part, progress := ptime }

/-- A matrix core holds the values of R32 for a job; its scratchpad is kept only from the same partition and world (R381), and zeroed on a
restart (R442). Records that a buffer has not taken yet stay held (R319), and lines beyond the new split leave the L1 (R226). -/
def State.startCore (s : State) (c slot idx : Nat) (zero : Bool) : State :=
  let card := s.cardOf slot
  let s := s.modCore c fun x =>
    let keep := !zero && x.eng.lastPart == some (Card.part card) && x.eng.world == Card.world card
    { Core.reset with
      eng := { x.eng.jobStart s.ptime (Card.part card) (Card.world card) with luts := unbindLuts x.eng.luts (.core slot) },
      job := some slot, idx := idx, gpos := gposOf c idx (Card.gang card), part := .block 0,
      scratch := if keep then x.scratch else [], scratchSize := scratchShare (Card.loc card),
      poison := if keep then x.poison else [],
      dict := none, entries := [], fmap := x.fmap, armed := [], trec := x.trec }
  s.fitL1 (.core (fin 32 c))

/-- The place of a group on its unit: one per resident slot and group index. -/
def groupPlace (slot gidx : Nat) : Nat := slot * 32 + gidx

/-- The lowest thread-slot base of a run of n slots of 0 to 2,047 that meets no other group's (R312), if there is one. -/
def hslotFind (gs : List (Nat × Nat)) (n : Nat) : Option Nat :=
  let cands := 0 :: gs.map fun g => g.1 + g.2
  match cands.filter fun b => b + n ≤ 2048 && gs.all fun g => b + n ≤ g.1 || g.1 + g.2 ≤ b with
  | [] => none
  | b :: bs => some (bs.foldl min b)

/-- The base of a group that has been placed (R312). -/
def hslotBase (gs : List (Nat × Nat)) (n : Nat) : Nat := (hslotFind gs n).getD 0

/-- Do groups of the given sizes find runs of thread slots one after another (R312)? -/
def hslotsFit (gs : List (Nat × Nat)) : List Nat → Bool
  | [] => true
  | n :: rest => match hslotFind gs n with
    | none => false
    | some b => hslotsFit ((b, n) :: gs) rest

/-- Doublewords of the argument block, each checked as a load (R25). -/
def State.loadArgs (s : State) (k : Ctx) (args : Nat) : Nat → Except Fail (List Word × State)
  | 0 => .ok ([], s)
  | n + 1 =>
    match s.loadArgs k args n with
    | .error f => .error f
    | .ok (ws, s) => match s.load k ((args + 8 * n) % 2 ^ 64) 8 1 with
      | .error f => .error f
      | .ok (bs, s) => .ok (ws ++ [BitVec.ofNat 64 (leNat bs)], s)

/-- The 152 doublewords of a job's argument block (R25), from its capture where it replays one (R329). -/
def State.jobArgs (s : State) (d : Dom) (slot : Nat) : Except Fail (List Word × State) :=
  let card := s.cardOf slot
  match (s.slot slot).bind (·.replay) with
  | some r => .ok ((List.range 152).map fun i => BitVec.ofNat 64 (fieldAt r.args (8 * i) 8), s)
  | none => s.loadArgs (s.ctxCard d card) (Card.args card) 152

/-- The threads of a group at its first word (R32). -/
def freshThreads (n code : Nat) : Map Thread :=
  (List.range n).map fun t => (t, { Thread.reset with pc := BitVec.ofNat 64 code })

/-- A group's size: GSIZE, the last group taking the rest of the block (R33). -/
def groupSize (card : List Byte) (gidx : Nat) : Nat := min (Card.gsize card) (Card.block card - gidx * Card.gsize card)

/-- A group is placed on a unit and holds the values of R25 and R32; a faulting argument load leaves it unstarted (R25). The unit's CYCLE and
FREEZECNT restart where it holds no group of another job; beside another job's group they run on (log 125). Log 148. -/
def State.startGroup (s : State) (u slot gidx : Nat) : Except Fail State :=
  let card := s.cardOf slot
  let d : Dom := .unit (fin 32 u)
  let size := groupSize card gidx
  let others := ((s.unit u).groups.filter fun g => g.1 != groupPlace slot gidx).filterMap fun g => g.2.map fun x => (x.hslot, x.size)
  let s := s.modUnit u fun v => { v with eng := if v.groups.all fun g => (g.2.map (·.job)) == some slot || g.2.isNone then v.eng.jobStart s.ptime (Card.part card) (Card.world card) else v.eng }
  let g : Group :=
    { Group.reset with job := slot, idx := gidx, size := size, regs := Card.regs card, nsem := Card.nsem card,
                       thandler := BitVec.ofNat 64 (Card.dict card), smemSize := roundUp (Card.loc card) 32768,
                       hslot := hslotBase others size, ranFrom := (s.unit u).eng.cycle s.ptime,
                       threads := freshThreads size (Card.code card) }
  let s := (s.dropAll d).setGroup u (groupPlace slot gidx) g
  match s.jobArgs d slot with
  | .error f => .error f
  | .ok (ws, s) =>
    let ks := [BitVec.ofNat 64 (Card.args card), BitVec.ofNat 64 (Card.block card), BitVec.ofNat 64 size,
               BitVec.ofNat 64 (Card.groups card), 0, 0, 0, 0] ++ ws
    .ok (s.modGroup u (groupPlace slot gidx) fun g =>
      { g with k := ((List.range 160).map fun i => (i, ks.getD i 0)).filter fun e => e.2 != 0, started := true })

/-- A core's scratchpad share as a capture holds it, where the job replays one (R329). -/
def State.replayShare (s : State) (c slot idx : Nat) : State :=
  match (s.slot slot).bind (·.replay) with
  | some r => s.modCore c fun x => { x with scratch := writeBytes [] 0 ((r.shares.getD idx []).take x.scratchSize) }
  | none => s

/-- The first fault of starting the parts, or none. -/
def State.beginParts (s : State) (slot : Nat) (zero : Bool) : State × Option Trap :=
  let card := s.cardOf slot
  let es := (s.slot slot).elim [] (·.engines)
  (List.range es.length).foldl (fun r i =>
    let e := es.getD i 0
    if Card.eng card = 0 then ((r.1.startCore e slot i zero).replayShare e slot i, r.2)
    else match r.2 with
      | some _ => r
      | none => match r.1.startGroup e slot i with
        | .ok s => (s, none)
        | .error f => (f.st, some f.trap)) (s, none)

/-! ### Rolling back -/

/-- Undo-log entries applied newest first (R412). -/
def applyUndo (m : List Host.Cell) (undo : List (Nat × List Host.Cell)) : List Host.Cell :=
  undo.foldl (fun m e => e.2.foldl (fun m c => setByte m c.1 c.2) m) m

/-- A core just after the commit that opened its interval (R409, R415); the checkpoint bundle's slot ops are to issue again (R53).
Log 147. -/
def Core.rollback (x : Core) : Core :=
  { x with arch := x.shadow, flight := x.shadowFlight, sb := [], sm := [], mstest := none, withheld := [],
           scratch := applyUndo x.scratch x.undo, undo := [],
           acc := x.tileCopies.foldl (fun m e => match e.2 with
             | some t => mset (List.replicate 1024 0) m e.1 t
             | none => m) x.acc,
           tileCopies := [], gst := 0, cpy := 0, undoCount := 0, intervalAdv := 0, reissue := x.shadowReissue, markRef := none,
           mirrored := [], pushOn := none, goAt := none, forward := none, invs := [], wait := match x.wait with
             | .bar ids => .bar ids
             | _ => .none,
           blocks := x.blocks.filter fun b => x.shadow.blkLive.getLsbD b.1 }

/-- One core rolled back (R415). -/
def State.rollbackCore (s : State) (c : Nat) : State := (s.modCore c Core.rollback).resolveRemovals c

/-- The stall run now open ends: one STALL record for a run of at least 8 cycles (R323), one FREEZE record for a run of freeze cycles
(R354). -/
def State.endStall (s : State) (c : Nat) : State :=
  let x := s.core c
  let s := match x.stallRun with
    | some (cause, since) =>
      let n := x.eng.cycle s.ptime - since
      if x.stallTrace && 8 ≤ n then s.emitAt (.core (fin 32 c) 0) 0x19 2 false (cause + min n 65535 * 2 ^ 8) 0 0 else s
    | none => s
  let s := if x.eng.freezeRun = 0 then s else s.emitAt (.core (fin 32 c) 0) 0x1A 6 false (min x.eng.freezeRun 0xFFFFFF) 0 0
  s.modCore c fun x => { x with stallRun := none, eng := { x.eng with freezeRun := 0 } }

/-- A core rolled back, with a ROLLBACK record carrying a cause (R415). -/
def State.rollbackRec (s : State) (c cause : Nat) : State := (s.emitAt (.core (fin 32 c) 0) 0x11 1 false cause 0 0).rollbackCore c

/-- A rollback of a core and its gang, with a ROLLBACK record carrying the cause (R415, R419). -/
def State.rollback (s : State) (c cause : Nat) : State :=
  (s.gangOf c).foldl (fun s j => s.rollbackRec j cause) s

/-! ### Ending and freeing -/

/-- A load-block's dirty bytes written back where `own`, and its number freed (R277). -/
def State.freeBlock (s : State) (c n : Nat) (own : Bool) : State :=
  let ls := match mget none (s.core c).blocks n with
    | some b => b.lines
    | none => []
  (if own then ls.foldl State.writeBack s else s).modCore c fun x =>
    { x with blocks := mset none x.blocks n none,
             arch := { x.arch with blkLive := x.arch.blkLive &&& ~~~((1 : BitVec 16) <<< n),
                                   blkRel := x.arch.blkRel &&& ~~~((1 : BitVec 16) <<< n) } }

/-- Dirty bytes of a core's live load-blocks written back and every block freed (R277). -/
def State.freeBlocks (s : State) (c : Nat) : State :=
  let x := s.core c
  let ls := (x.blocks.filter fun b => x.arch.blkLive.getLsbD b.1).flatMap fun b => match b.2 with
    | some k => k.lines
    | none => []
  (ls.foldl State.writeBack s).modCore c fun x => { x with blocks := [], arch := { x.arch with blkLive := 0, blkRel := 0 } }

/-- A thread removed from every queue's waiter list (R298, R343). -/
def State.leaveQueues (s : State) (p : Tid → Bool) : State :=
  { s with queues := s.queues.map fun q => (q.1, { q.2 with waiters := q.2.waiters.filter fun t => !p t }) }

/-- LEAVE requests withdrawn (R343, R355). -/
def State.dropLeaves (s : State) (p : LeaveReq → Bool) : State :=
  { s with beadle := { s.beadle with leaves := s.beadle.leaves.filter fun l => !p l } }

/-- A core's part of its job ends: its stall and freeze runs with it (R323, R354), its interval is discarded, its load-blocks are written
back, its activation slots unbound. -/
def State.endCore (s : State) (c : Nat) : State :=
  let s := ((s.endStall c).rollbackCore c).modCore c fun x => { x with reissue := false }
  let s := s.freeBlocks c
  let s := s.dropLeaves fun l => l.dom == .core (fin 32 c)
  s.modCore c fun x =>
    { x with part := .ended, waiting := [], preempt := none, armed := [], stallRun := none,
             eng := { x.eng with luts := match x.job with
               | some n => unbindLuts x.eng.luts (.core n)
               | none => x.eng.luts } }

/-- The STALL records of the waits that a group's threads are in, which end here (R323). -/
def State.endWaits (s : State) (u g : Nat) : State :=
  (s.group u g).threads.foldl (fun s e =>
    let s := s.endOperandWait ⟨fin 32 u, g, e.1⟩
    if e.2.wait = .none then s else s.threadStall ⟨fin 32 u, g, e.1⟩ e.2.wait.cause e.2.waitSince) s

/-- The records that the threads of a group hold, in no order. -/
def Group.records (g : Group) : List (List Byte) := g.threads.flatMap fun e => e.2.trec

/-- The FREEZE record of a unit's freeze run, which ends (R354). -/
def State.endFreeze (s : State) (t : Tid) : State :=
  let n := (s.unit t.unit).eng.freezeRun
  if n = 0 then s
  else (s.emitAt (.thr t) 0x1A 6 false (min n 0xFFFFFF) 0 0).modEng (.unit t.unit) fun e => { e with freezeRun := 0 }

/-- The records held for a group leave its unit's queue (R319). -/
def VUnit.dropRecs (v : VUnit) (g : Nat) : VUnit := { v with traceq := v.traceq.filter fun e => e.1 != g }

/-- The threads of a group end where they stand (R347, R418): waits left, open queries discarded (R202), the unit's freeze run ended (R354),
held records lost (R319). -/
def State.endGroup (s : State) (u g : Nat) : State :=
  let s := (s.endFreeze ⟨fin 32 u, g, 0⟩).endWaits u g
  let s := s.loseHeld (s.group u g).records
  let s := s.leaveQueues fun t => t.unit.val == u && t.group == g
  let s := s.dropLeaves fun l => l.dom == .unit (fin 32 u) && l.group == g
  let s := s.modGroup u g fun x =>
    { x with threads := x.threads.map fun t => (t.1, { t.2 with ended := true, wait := .none, query := none, trec := [], pendTraps := [] }),
             semq := [], bars := [], armed := [] }
  s.modUnit u fun v => { v.dropRecs g with eng := { v.eng with luts := unbindLuts v.eng.luts (.group g) } }

/-- Cycles that a part has run, added to the release's (R348). -/
def addRun (l : List Nat) (i n : Nat) : List Nat :=
  (List.range (max l.length (i + 1))).map fun j => l.getD j 0 + if j = i then n else 0

/-- Engine cycles that part i of a job on its engines has run since it was last put there (R348). -/
def State.runCycles (s : State) (slot i e : Nat) : Nat :=
  if Card.eng (s.cardOf slot) = 0 then (s.core e).eng.cycle s.ptime - (s.core e).ranFrom
  else (s.unit e).eng.cycle s.ptime - (s.group e (groupPlace slot i)).ranFrom

/-- The cycles of every part of a job on its engines added to the release's (R348). -/
def State.spendRuns (s : State) (slot : Nat) : State :=
  let es := (s.slot slot).elim [] (·.engines)
  let runs := (List.range es.length).map fun i => (i, s.runCycles slot i (es.getD i 0))
  s.modSlot slot fun z => { z with cyclesRun := runs.foldl (fun l r => addRun l r.1 r.2) z.cyclesRun }

/-- Every part of a slot's job on its engines ends; unreleased effects are discarded, a core that still ran with a ROLLBACK record of the
cause (R415), 0 where no cause of R416 ends it (log 126). Records not yet taken are lost and counted, and the freeze they made ends (R319). -/
def State.endParts (s : State) (slot cause : Nat) : State :=
  let card := s.cardOf slot
  let es := (s.slot slot).elim [] (·.engines)
  let s := s.spendRuns slot
  let s := (List.range es.length).foldl (fun s i =>
    let e := es.getD i 0
    if Card.eng card = 0 then
      (if (s.core e).job == some slot then
        let s := (if (s.core e).part == .running && (s.core e).intervalAdv != 0 then s.rollbackRec e cause else s).endCore e
        (s.loseHeld (s.core e).trec).modCore e fun x => { x with trec := [], snapDue := false }
       else s)
    else s.endGroup e (groupPlace slot i)) s
  s.settleFreeze slot

/-- The job ends with a completion status; JOB_COMPLETE does the rest (R345, R346). -/
def State.finishJob (s : State) (slot status cause : Nat) : State :=
  (s.settleServers.endParts slot cause).modSlot slot fun x => { x with endStatus := some status }

/-- A core freed of its job; at stage 5 it raises its clock now, if it has not (R452). -/
def State.freeCore (s : State) (c : Nat) : State :=
  (if s.reeve.stage = 5 && (s.core c).eng.mhz = 800 then s.setClock (.core (fin 32 c)) 1600 else s).modCore c fun x => { x with job := none, part := .idle, eng := { x.eng with granted := 0 }, preempt := none, reissue := false }

/-- A group removed from its unit, its activation slots unbound (R434). -/
def State.freeGroup (s : State) (u g : Nat) : State :=
  s.modUnit u fun v =>
    { v.dropRecs g with groups := mset none v.groups g none, eng := { v.eng with luts := unbindLuts v.eng.luts (.group g) } }

/-- The engines of a slot freed. -/
def State.freeEngines (s : State) (slot : Nat) : State :=
  let card := s.cardOf slot
  let es := (s.slot slot).elim [] (·.engines)
  (List.range es.length).foldl (fun s i =>
    let e := es.getD i 0
    if Card.eng card = 0 then (if (s.core e).job == some slot then s.freeCore e else s) else s.freeGroup e (groupPlace slot i)) s

/-! ### Saving and restoring -/

/-- Does the core hold at a checkpoint for a pre-emption in advance mode (R342)? -/
def Core.holdsForSave (x : Core) : Bool := x.reissue && (match x.preempt with
  | some (_, false) => true
  | _ => false)

/-- What the device keeps of a saved core beside its area (log 9). -/
def Core.kept (y : Core) : KeptCore :=
  { arch := y.arch, part := y.part, entry := y.entry, dcyc := y.dcyc, nextEntry := y.nextEntry, blockAdv := y.blockAdv,
    blockFirst := y.blockFirst, snapDue := y.snapDue, reissue := y.reissue, flight := y.flight, retries := y.retries, wait := y.wait,
    waiting := y.waiting, armed := y.armed, stallTrace := y.stallTrace, trec := y.trec.drop 1 }

/-- LEAVE units that a part holds, or that it asked for again and still waits for (R355). -/
def State.heldUnits (s : State) (d : Dom) (group granted : Nat) : Nat :=
  granted + ((s.beadle.leaves.filter fun l => l.resume && l.dom == d && l.group == group).map (·.units)).sum

/-- A core's part saved at its last checkpoint (R342, R344, R430): rolled back where it has gone on from there, with a ROLLBACK record
(R415), its area written, its load-blocks and L1 written back, so that what it released has performed (R345), its activation slots unbound,
and freed. A record it holds goes with it (R319). -/
def State.saveCore (s : State) (c slot : Nat) (rollback : Bool) : State :=
  let card := s.cardOf slot
  let x := s.core c
  let s := s.endStall c
  let s := if x.part == .ended || (x.reissue && x.intervalAdv = 0) then s.rollbackCore c else s.rollbackRec c 0x38
  let bs := s.coreArea c slot rollback false false
  let s := s.putArea (Card.world card) (s.saveBase slot (Card.world card) false + coreAreaSize * x.idx) bs
  let y := s.core c
  let kept := y.kept
  let units := s.heldUnits (.core (fin 32 c)) 0 x.eng.granted
  let s := s.modSlot slot fun z =>
    { z with keptCore := mset none z.keptCore x.idx (some kept),
             shares := mset none z.shares x.idx (some { home := some c, cells := y.scratch, poison := y.poison }),
             savedGrants := z.savedGrants ++ [units] }
  let s := (s.freeBlocks c).cleanAll (.core (fin 32 c))
  let s := s.dropLeaves fun l => l.dom == .core (fin 32 c)
  let s := s.modCore c fun x =>
    { x with eng := { x.eng with luts := unbindLuts x.eng.luts (.core slot) }, trec := [], scratch := [], scratchSize := 0, poison := [] }
  s.freeCore c

/-- What the device keeps of a thread (log 9). -/
def Thread.kept (x : Thread) : KeptThread :=
  { ended := x.ended, pendTraps := x.pendTraps, query := x.query, stallTrace := x.stallTrace, trec := x.trec }

/-- What the device keeps of a group (log 9). -/
def State.keptOf (s : State) (u g : Nat) : KeptGroup :=
  let x := s.group u g
  { armed := x.armed, order := ((s.unit u).traceq.filter fun e => e.1 == g).map (·.2.1), threads := x.threads.map fun e => (e.1, e.2.kept) }

/-- A group saved at a word boundary (R343, R431): waits withdrawn, its unit's L1 written back (R345), its results landed, its area written,
its activation slots unbound, and removed. -/
def State.saveGroup (s : State) (u slot gidx : Nat) : State :=
  let g := groupPlace slot gidx
  let card := s.cardOf slot
  let s := ((s.endFreeze ⟨fin 32 u, g, 0⟩).endWaits u g).cleanAll (.unit (fin 32 u))
  let s := (s.group u g).threads.foldl (fun s e => s.landAllBusy ⟨fin 32 u, g, e.1⟩) s
  let units := s.heldUnits (.unit (fin 32 u)) g (s.group u g).granted
  let s := s.leaveQueues fun t => t.unit.val == u && t.group == g
  let s := s.dropLeaves fun l => l.dom == .unit (fin 32 u) && l.group == g
  let bs := s.groupArea u g slot false
  let s := s.putArea (Card.world card) (s.saveBase slot (Card.world card) false + groupAreaStride card * gidx) bs
  let kept := s.keptOf u g
  let s := s.modSlot slot fun z => { z with keptGroup := mset none z.keptGroup gidx (some kept), savedGrants := z.savedGrants ++ [units] }
  s.freeGroup u g

/-- A job saved whole on its engines (R342, R343): its state becomes saved. -/
def State.saveJob (s : State) (slot : Nat) (rollback : Bool) : State :=
  let card := s.cardOf slot
  let es := (s.slot slot).elim [] (·.engines)
  let s := (s.spendRuns slot).modSlot slot fun x => { x with savedGrants := [], keptGroup := [], keptCore := [], shares := [] }
  let s := (List.range es.length).foldl (fun s i =>
    let e := es.getD i 0
    if Card.eng card = 0 then s.saveCore e slot rollback else s.saveGroup e slot i) s
  let s := (s.settleFreeze slot).emitJob 0x60 card 0x0A 0 (if rollback then 1 else 0) 0 0
  s.modSlot slot fun x => { x with state := .saved, rollbackSave := rollback, lastEngines := es, engines := [] }

/-- A load-block refilled on resumption from an area's entry (R277, R432). Where its lines may no longer be read, its number is free and the
fault waits for the core's next commit (log 124). -/
def State.refillBlock (s : State) (c slot : Nat) (bs : List Byte) (i : Nat) : State :=
  let off := 0x800 + 16 * i
  if !bit (fieldAt bs (off + 8) 1) 6 then s
  else
    let base := fieldAt bs off 8
    let count := fieldAt bs (off + 8) 1 % 64 + 1
    let k := s.ctxCard (.core (fin 32 c)) (s.cardOf slot)
    match s.access k .load base (64 * count) 64 with
    | .error f => (f.st.freeBlock c i false).modCore c fun x => { x with waiting := x.waiting ++ [(f.trap.cause, f.trap.tval, 0)] }
    | .ok (ps, s) =>
      let r := ps.foldl (fun a q => let f := a.2.fillBlockLine k q.x; (a.1 ++ [f.1], f.2)) (([] : List Line), s)
      let ls := r.1
      let s := r.2
      let b : Block := { base := base, count := count, asid := k.asid, world := k.world, lines := ls, filled := true }
      (s.modCore c fun x => { x with blocks := minsert (merase x.blocks i) i (some b) }).fitL1 (.core (fin 32 c))

/-- A core's part restored from its area, or from its snapshot (R432, R443); none where the header no longer matches (R429). -/
def State.restoreCore (s : State) (c slot idx : Nat) (snap : Bool) : Option State :=
  let card := s.cardOf slot
  let base := s.saveBase slot (Card.world card) snap
  let stride := if snap then coreAreaSize + scratchShare (Card.loc card) else coreAreaSize
  let bs := readBytes s.mem (base + stride * idx) coreAreaSize
  if !areaOk bs 0 (Card.jobid card) idx then none
  else
    let kept := (s.slot slot).bind fun z => mget none (if snap then z.snapCore else z.keptCore) idx
    match kept with
    | none => none
    | some k =>
    let old := ((s.slot slot).bind fun z => mget none z.shares idx).getD { home := none, cells := [], poison := [] }
    let own := (s.core c).dict == some slot
    let es := (s.core c).entries
    let s := (s.modSlot slot fun z => { z with shares := merase z.shares idx }).startCore c slot idx false
    let arch := archOfArea bs k.arch
    let rec0 := (bs.drop 0x900).take 32
    let s := s.modCore c fun x =>
      { x with ranFrom := fieldAt bs 0x18 8, armed := k.armed, stallTrace := k.stallTrace, dict := if own && !snap then some slot else none, entries := if own && !snap then es else [],
               arch := arch, shadow := arch, acc := tilesOfArea bs, flight := k.flight, shadowFlight := k.flight,
               sem := ((List.range 256).map fun i => (i, fieldAt bs (0x400 + 2 * i) 2)).filter fun e => e.2 != 0,
               ssat := bit (fieldAt bs 0x318 4) 31, tcause := BitVec.ofNat 8 (fieldAt bs 0x31C 1),
               tpc := BitVec.ofNat 64 (fieldAt bs 0x330 8), tval := BitVec.ofNat 64 (fieldAt bs 0x338 8),
               scratch := if snap then [] else old.cells, poison := if snap then [] else old.poison,
               eng := { x.eng with cycAcc := fieldAt bs 0x18 8, clockAcc := x.eng.clock s.ptime, since := s.ptime, freeze := BitVec.ofNat 64 (fieldAt bs 0x20 8),
                                   luts := rebindLuts x.eng.luts (.core slot) (fieldAt bs 0x15 1) bs 0x3000 },
               part := k.part, entry := k.entry, dcyc := k.dcyc, nextEntry := k.nextEntry, blockAdv := k.blockAdv,
               blockFirst := k.blockFirst, snapDue := k.snapDue, reissue := k.reissue,
               shadowReissue := k.reissue, retries := k.retries, wait := k.wait, waiting := k.waiting,
               trec := if rec0 = zeros 32 then k.trec else (rec0.take (if fieldAt rec0 0 1 % 4 = 2 then 32 else 16)) :: k.trec }
    let pad := cellsOf 0 (readBytes s.mem (base + stride * idx + coreAreaSize) (scratchShare (Card.loc card)))
    let s := if snap then s.modCore c fun x => { x with scratch := pad.filter fun e => e.2 != 0 } else s
    some (((List.range 16).foldl (fun s i => s.refillBlock c slot bs i) s).settleFreeze slot)

/-- The walker tiles of a core split for the shape it now computes with (R191). -/
def State.splitWalker (s : State) (c : Nat) : State :=
  let sh := s.shape c
  s.modCore c fun x =>
    { x with arch := { x.arch with walker := x.arch.walker.split sh.1 sh.2 },
             shadow := { x.shadow with walker := x.shadow.walker.split sh.1 sh.2 } }

/-- A group restored from its area on a unit (R432); the records its threads hold are the first written (R319), their holds counted from now
(R323; log 151), and lines in the steps of local memory that it takes leave the L1 (R28). -/
def State.restoreGroup (s : State) (u slot gidx : Nat) : Option State :=
  let card := s.cardOf slot
  let bs := readBytes s.mem (s.saveBase slot (Card.world card) false + groupAreaStride card * gidx) (groupAreaStride card)
  if !areaOk bs 1 (Card.jobid card) gidx then none
  else
    let n := Card.regs card
    let size := groupSize card gidx
    let kept := ((s.slot slot).bind fun z => mget none z.keptGroup gidx).getD { armed := [], order := [], threads := [] }
    let others := (s.unit u).groups.filterMap fun g => g.2.map fun x => (x.hslot, x.size)
    let alone := (s.unit u).groups = []
    let shared := (0x2080 + size * (384 + 8 * n) + 63) / 64 * 64
    let g : Group :=
      { Group.reset with
        job := slot, idx := gidx, size := size, regs := n, nsem := Card.nsem card, thandler := BitVec.ofNat 64 (fieldAt bs 0x40 8),
        drift := BitVec.ofNat 32 (fieldAt bs 0x48 4), lutsel := BitVec.ofNat 2 (fieldAt bs 0x4C 1), ssat := bit (fieldAt bs 0x4F 4) 31,
        sem := ((List.range (Card.nsem card)).map fun i => (i, fieldAt bs (0x80 + 2 * i) 2)).filter fun e => e.2 != 0,
        k := ((List.range 160).map fun i => (i, BitVec.ofNat 64 (fieldAt bs (0x280 + 8 * i) 8))).filter fun e => e.2 != 0,
        smemSize := roundUp (Card.loc card) 32768,
        smem := (cellsOf 0 ((bs.drop shared).take (Card.loc card))).filter fun e => e.2 != 0,
        hslot := hslotBase others size, started := true, armed := kept.armed,
        ranFrom := if alone then fieldAt bs 0x18 8 else (s.unit u).eng.cycle s.ptime,
        threads := (List.range size).map fun t => (t,
          { threadOfArea bs n t (mget Thread.reset.kept kept.threads t) with
            heldSince := if alone then fieldAt bs 0x18 8 else (s.unit u).eng.cycle s.ptime }) }
    let s := s.modUnit u fun v =>
      { v with eng := { v.eng with world := Card.world card, lastPart := some (Card.part card),
                                   cycAcc := if alone then fieldAt bs 0x18 8 else v.eng.cycAcc,
                                   clockAcc := if alone then v.eng.clock s.ptime else v.eng.clockAcc,
                                   since := if alone then s.ptime else v.eng.since,
                                   freeze := if alone then BitVec.ofNat 64 (fieldAt bs 0x20 8) else v.eng.freeze,
                                   luts := rebindLuts v.eng.luts (.group (groupPlace slot gidx)) (fieldAt bs 0x15 1) bs 0x780 } }
    let s := (s.setGroup u (groupPlace slot gidx) g).modUnit u fun v =>
      { v with traceq := v.traceq ++ kept.order.map fun t => (groupPlace slot gidx, t, Card.part card) }
    some (s.fitL1 (.unit (fin 32 u)))

/-! ### The End disposition -/

/-- A job put back to be started again, from its beginning or from its snapshot (R442). -/
def State.restart (s : State) (n : Nat) (snap : Bool) : State :=
  let s := s.modSlot n fun z =>
    { z with state := if snap then .saved else .released, fromSnap := snap, restarted := true, engines := [], bars := [],
             keptCore := [], keptGroup := [], shares := [], savedGrants := [], owed := [], rollbackSave := true }
  let card := s.cardOf n
  s.errorLog (Card.world card) 0x60 8 0 (Card.part card) (Card.jobid card) 0 0

/-- The words of a job's threads that the cycle under way has not yet executed do not take place. -/
def State.dropWords (s : State) (slot : Nat) : State :=
  { s with latch := s.latch.filter fun f => match f.agent with
      | .core .. => true
      | .thr t => ((mget none (s.unit t.unit).groups t.group).map (·.job)) != some slot }

/-- The End disposition and its restart policy (R418, R442), for a cause: the job ends with status 4, or every part starts again from its card, or from
the job's last snapshot; once per release. -/
def State.endJob (s : State) (slot cause : Nat) : State :=
  let s := s.dropWords slot
  match s.slot slot with
  | none => s
  | some z =>
    let card := z.card
    let again := (Card.restart card == 1 || Card.restart card == 2) && !z.restarted && z.endStatus.isNone
    if !again then s.finishJob slot 4 cause
    else
      let snap := Card.restart card == 2 && Card.eng card == 0 && z.snapshot
      if z.state == .saving then ((s.endParts slot cause).freeEngines slot).restart slot snap
      else
      let s := s.errorLog (Card.world card) 0x60 8 0 (Card.part card) (Card.jobid card) 0 0
      let s := (s.endParts slot cause).modSlot slot fun x => { x with restarted := true, bars := [] }
      if snap then
        (List.range z.engines.length).foldl (fun s i => match s.restoreCore (z.engines.getD i 0) slot i true with
          | some s => s
          | none => s.finishJob slot 4 cause) s
      else
        let r := s.beginParts slot true
        match r.2 with
        | none => r.1
        | some t =>
          (r.1.errorLog (Card.world card) 0x60 7 t.cause (Card.part card) (Card.jobid card) t.tval.toNat 0).finishJob slot 4 t.cause

/-- A trap that ends its job: the error log records it as kind 7, or kind 9 for a double trap (R422, R437). -/
def State.endByTrap (s : State) (slot src kind cause : Nat) (addr tpc : Word) : State :=
  let card := s.cardOf slot
  (s.errorLog (Card.world card) src kind cause (Card.part card) (Card.jobid card) addr.toNat tpc.toNat).endJob slot cause

end Sys2Proof.Machine
end

