-- ==== Sys2Proof/Machine/Completion.lean ====
section
/-!
DEFINITION. Beadle's own reads and writes (spec/11_isolation.md R377), and the completion of a job (spec/10_progress.md R341, R345 to R347,
spec/07_ordering.md R260).
-/
namespace Sys2Proof.Machine

/-! ### Reads and writes of the device itself -/

/-- n bytes read by Beadle in a card's address space and world. -/
def State.deviceRead (s : State) (card : List Byte) (va n align : Nat) : Except Fail (List Byte × State) :=
  let k := s.ctxDevice card
  match s.access k .load va n align with
  | .error f => .error f
  | .ok (ps, s) =>
    let xs := pieceBytes ps
    let rd := xs.map fun x => if x.attr.mt == 0 && !isWindow x.pa then s.homeByte k.world x.pa else (s.loadExt k x, none)
    match (xs.zip rd).find? fun r => r.2.2.isSome with
    | some r => .error ⟨⟨r.2.2.getD 0, BitVec.ofNat 64 r.1.va⟩, s⟩
    | none => .ok (rd.map (·.1), s)

/-- Bytes written by Beadle in a card's address space and world; a sector that takes no partial write is a poison fault. -/
def State.deviceWrite (s : State) (card : List Byte) (va : Nat) (bs : List Byte) (align : Nat) : Except Fail State :=
  let k := s.ctxDevice card
  match s.access k .store va bs.length align with
  | .error f => .error f
  | .ok (ps, s) =>
    let xs := pieceBytes ps
    match s.mergeFails xs with
    | some a => .error ⟨⟨0x10, BitVec.ofNat 64 a⟩, s⟩
    | none =>
      let cells := xs.zip bs
      let s := s.homeWrite k.world ((cells.filter fun c => c.1.attr.mt == 0 && !isWindow c.1.pa).map fun c => (c.1.pa, c.2))
      .ok (s.storeExt k (cells.filter fun c => !(c.1.attr.mt == 0 && !isWindow c.1.pa)))

/-! ### Completion (R345, R346, R260) -/

/-- Units and places of the resident groups of a job. -/
def State.jobGroups (s : State) (slot : Nat) : List (Fin 32 × Nat) :=
  (List.range 32).flatMap fun u => ((s.unit u).groups.filter fun e => (e.2.map (·.job)) == some slot).map fun e => (fin 32 u, e.1)

/-- Has every part of a running job ended? -/
def State.partsEnded (s : State) (n : Nat) (z : Slot) : Bool :=
  if Card.eng z.card = 0 then z.engines.all fun c => (s.core c).job != some n || (s.core c).part == .ended
  else (s.jobGroups n).all fun p => let g := s.group p.1 p.2; (List.range g.size).all fun i => (mget Thread.reset g.threads i).ended

/-- Copies of a job in flight on some engine. -/
def State.jobCopies (s : State) (n : Nat) : Bool := allDoms.any fun d => (s.eng d).copies.any fun y => y.job == n

/-- The dirty bytes of a job's engines written back: every effect it released has performed at DEVICE scope (R345). -/
def State.performJob (s : State) (z : Slot) : State :=
  z.engines.eraseDups.foldl (fun s e => s.cleanAll (clsDom (Card.eng z.card) e)) s

/-- Edges from a producer satisfied (R333). -/
def State.satisfyEdges (s : State) (n : Nat) : State :=
  { s with beadle := { s.beadle with slots := s.beadle.slots.map fun e => (e.1, e.2.map fun z =>
      { z with edges := z.edges.map fun g => if g.producer == some n then { g with satisfied := true, fresh := true } else g }) } }

/-- The STATUS of a completion (R346). -/
def completionStatus (z : Slot) : Nat :=
  match z.endStatus with
  | some st => st
  | none => if z.missed then 1 else 0

/-- The completion record (R346). -/
def completionRecord (z : Slot) (now : Nat) : List Byte :=
  leBytes 4 (Card.jobid z.card) ++ leBytes 1 (completionStatus z) ++ leBytes 1 (flagSum [z.demoted, z.overrun, z.admissionLost]) ++ zeros 2
    ++ leBytes 8 z.release ++ leBytes 8 now ++ leBytes 4 (min z.energy (2 ^ 32 - 1)) ++ leBytes 4 (min z.anyhit (2 ^ 32 - 1))

/-- The completion record written, or a kind-10 record of the error log (R346, R437). -/
def State.writeCompletion (s : State) (z : Slot) : State :=
  if Card.compl z.card = 0 then s
  else match s.deviceWrite z.card (Card.compl z.card) (completionRecord z s.ptime) 1 with
    | .ok s => s
    | .error f => f.st.errorLog (Card.world z.card) 0x60 10 f.trap.cause (Card.part z.card) (Card.jobid z.card) (Card.compl z.card) 0

/-- Has every part of a job written its records (R319) and its snapshots (R443)? -/
def State.partsWritten (s : State) (n : Nat) (z : Slot) : Bool :=
  if Card.eng z.card = 0 then z.engines.all fun c => (s.core c).job != some n || ((s.core c).trec = [] && !(s.core c).snapDue)
  else (s.jobGroups n).all fun p => (s.group p.1 p.2).records = []

/-- Has a live job nothing left to do: every part ended, its records and snapshots written, its copies landed? -/
def State.jobDone (s : State) (n : Nat) (z : Slot) : Bool :=
  z.state != .none && !s.jobCopies n
    && (z.endStatus.isSome || (z.holds && s.partsEnded n z && s.partsWritten n z))

/-- A slot freed: edges bound to it are never satisfied again (R333), no core holds its dictionary image any more (R71), and Tollgate keeps
nothing of its job (R352). -/
def State.freeSlot (s : State) (n : Nat) : State :=
  let s := (s.setSlot n none).forgetPayer n
  let s := (List.range 32).foldl (fun s c => if (s.core c).dict == some n then s.modCore c fun x => { x with dict := none, entries := [] } else s) s
  { s with beadle := { s.beadle with slots := s.beadle.slots.map fun e => (e.1, e.2.map fun z =>
      { z with edges := z.edges.map fun g => if g.producer == some n then { g with producer := none, fresh := false } else g }) } }

/-- Trace-freeze ticks of a job up to its deadline, as they stand at an instant (R313). -/
def Slot.freezeTo (z : Slot) (now : Nat) : Nat := z.freezeEarly + (match z.frozen with
  | some f => min now z.deadline - f
  | none => 0)

/-- The deadline-miss exception of a job as Beadle takes it (R347): DLMISS, then abort, or best effort from now on. -/
def State.takeMiss (s : State) (n : Nat) (z : Slot) : State :=
  let s := s.settleServers.emitJob 0x60 z.card 0x0D 0 (min (z.freezeTo s.ptime / 16) (2 ^ 32 - 1)) 0 0
  let s := s.modSlot n fun z => { z with missed := true }
  if Card.miss z.card = 0 then s.finishJob n 2 0x28 else s.modSlot n fun z => { z with bestEffort := true }

/-- Has a deadline job's absolute deadline passed with the miss not taken yet (R341: one that completes at the deadline meets it)? -/
def Slot.late (z : Slot) (now : Nat) : Bool := z.live && !z.missed && z.deadline != 0 && z.deadline < now

/-- A private address space ends with its job: its pages, and the lines of it that engines hold (R329). -/
def State.endReplay (s : State) (n : Nat) : State :=
  if ((s.slot n).bind (·.replay)).isNone then s
  else
    let s := allDoms.foldl (fun s d => s.modEng d fun e => { e with l1 := e.l1.filter fun l => l.asid != privateAsid n }) s
    let s := { s with mem := s.mem.filter fun c => c.1 < privatePa n 0 || privatePa (n + 1) 0 ≤ c.1 }
    s.modSlot n fun z => { z with replay := none }

/-- The completion of a job that has nothing left to do (R345): a deadline that has passed is missed first; then edges, completion record,
JOBEND, grants; the engines are free, and a retiring card's slot. -/
def State.completeJob (s : State) (n : Nat) : State :=
  match s.slot n with
  | none => s
  | some z =>
    if !s.jobDone n z then s
    else
      let s := if z.late s.ptime then s.takeMiss n z else s
      let z := (s.slot n).getD z
      let s := (s.settleServers.performJob z).satisfyEdges n
      let s := s.writeCompletion z
      let s := s.emitJob 0x60 z.card 0x09 0 (completionStatus z + min (z.freezeTicks / 16000) 0xFFFFFF * 2 ^ 8) 0 0
      let s := (s.freeEngines n).endReplay n
      let s := s.modSlot n fun z =>
        { z with state := .none, engines := [], owed := [], shares := [], keptCore := [], keptGroup := [], snapCore := [] }
      if z.retiring then s.freeSlot n else s

end Sys2Proof.Machine
end

