-- ==== Sys2Proof/Machine/Cards.lean ====
section
/-!
DEFINITION. Releases of resident cards (R333, R337) and LAUNCH (R370).
-/
namespace Sys2Proof.Machine

/-- A count of 32 bits raised, saturating. -/
def sat32 (n : Nat) : Nat := min (n + 1) (2 ^ 32 - 1)

/-- The resident slot that holds a JOBID (R330). -/
def State.findJob (s : State) (jobid : Nat) : Option Nat :=
  (s.beadle.slots.find? fun e => match e.2 with
    | some x => Card.jobid x.card == jobid
    | none => false).map (·.1)

/-- A job of a card released at a time (R333, R337). -/
def State.releaseCard (s : State) (slot time flow : Nat) : State :=
  s.settleServers.modSlot slot fun z =>
    { z with lastRelease := some time, turned := none, deferred := none, state := .released, release := time,
             deadline := if Card.deadline z.card = 0 then 0 else time + Card.deadline z.card,
             bestEffort := Card.deadline z.card == 0 || z.admissionLost, demoted := false, overrun := false, restarted := false,
             missed := false, resuming := false, cyclesRun := [], anyhit := 0, energy := 0, frozen := none, freezeTicks := 0, gathered := [], freezeEarly := 0, flow := flow, endStatus := none, bars := [],
             savedGrants := [], keptCore := [], keptGroup := [], shares := [], snapCore := [], snapshot := false, fromSnap := false, capture := none, touched := [], replay := none, engines := [], lastEngines := [], owed := [],
             edges := z.edges.map fun e => { e with satisfied := e.fresh, fresh := false } }

/-- May a card be released at this stage (R452)? Before stage 5 only an early matrix card. -/
def State.mayRelease (s : State) (card : List Byte) : Bool :=
  5 ≤ s.reeve.stage.toNat || (Card.eng card == 0 && Card.early card)

/-- A release that the stage skips, counted and remembered (R452). -/
def State.turnAway (s : State) (slot time flow : Nat) : State :=
  s.modSlot slot fun z => { z with skip := sat32 z.skip, turned := some (time, flow) }

/-- A submit or LAUNCH taken for a sporadic card (R337, R341): after a completion at the same instant, released now, deferred to the least
separation, or merged and counted. -/
def State.takeRelease (s : State) (slot flow : Nat) : State :=
  let s := s.completeJob slot
  match s.slot slot with
  | none => s
  | some z =>
    if z.state != .none || z.deferred.isSome then s.modSlot slot fun z => { z with skip := sat32 z.skip }
    else if !s.mayRelease z.card then s.turnAway slot s.ptime flow
    else match z.lastRelease with
      | some t => if s.ptime < t + Card.period z.card then
          s.modSlot slot fun z => { z with deferred := some (t + Card.period z.card), flow := flow }
        else s.releaseCard slot s.ptime flow
      | none => s.releaseCard slot s.ptime flow

/-- On entry to stage 5, the release of a card that the stage skipped in this very tick is made as under full service (R452). -/
def State.releaseTurned (s : State) (slot : Nat) : State :=
  match s.slot slot with
  | none => s
  | some z => match z.turned with
    | none => s
    | some (t, flow) =>
      if t != s.ptime then s
      else
        let s := s.modSlot slot fun z => { z with skip := z.skip - 1, turned := none }
        if Card.spor z.card then s.takeRelease slot flow else s.releaseCard slot t flow

/-- LAUNCH of a JOBID by a job of a card (R370): the state with the child released, or the reason of the refusal. -/
def State.launch (s : State) (card : List Byte) (jobid : Nat) : Except Nat State :=
  match s.findJob jobid with
  | none => .error 1
  | some n => match s.slot n with
    | none => .error 1
    | some z =>
      if !Card.spor z.card then .error 2
      else if Card.part z.card != Card.part card || Card.world z.card != Card.world card then .error 3
      else if z.retiring then .error 4
      else
        let (f, s) := s.newFlow
        .ok ((s.emitJob 0x60 card 0x38 0 jobid f 0).takeRelease n f)

/-- TVAL of a refused launch (R370). -/
def launchTval (reason jobid : Nat) : Nat := reason + jobid % 2 ^ 32 * 2 ^ 32

end Sys2Proof.Machine
end

