-- ==== Sys2Proof/Machine/Ops.lean ====
section
/-!
DEFINITION. The named operations over the whole machine: landing of results (R39, R42, R120, R150), release of withheld effects and
commit (R243, R409 to R414, R440, R441), taking an exception in either form (R414 to R423) and the return from one (R428), stops
(R325 to R327), and the end of a cycle of a core or of a unit.
-/
namespace Sys2Proof.Machine

/-- What an op answers: the next state, its trap taken first where one of its checks failed. -/
abbrev Out := Host.Outcome State Fault Refusal

/-! ### Landing -/

/-- A latch value made to fit its form (R150). -/
def fitLatch (ty : Ty) (sat : Bool) (v : Int) : Word × BitVec 5 :=
  if ty.isFp then
    match decode .f32 v.toNat with
    | .nan s => (BitVec.ofNat 64 (canon .f32), if s then 16 else 0)
    | _ => (BitVec.ofNat 64 (v.toNat % 2 ^ 32), 0)
  else
    let w : Ty := if ty.isSigned then .i64 else .n64
    (BitVec.ofInt 64 (if sat then Machine.sat w v else v), 0)

/-- A tree value combined into a latch (R150): the latch and the flags raised. -/
def combineLatch (l : Option Word) (op : Nat) (ty : Ty) (sat : Bool) (v : Int) : Word × BitVec 5 :=
  match l with
  | none => fitLatch ty sat v
  | some x =>
    if ty.isFp then
      let r := match op with
        | 0 => fpAdd .f32 (x.toNat % 2 ^ 32) v.toNat
        | 1 => minMaxCode .f32 true (x.toNat % 2 ^ 32) v.toNat
        | _ => minMaxCode .f32 false (x.toNat % 2 ^ 32) v.toNat
      (BitVec.ofNat 64 r.code, r.fl)
    else
      let a : Int := if ty.isSigned then x.toInt else x.toNat
      fitLatch ty sat (match op with
        | 0 => a + v
        | 1 => max a v
        | _ => min a v)

/-- A tile's elements. -/
def Core.tile (x : Core) (t : Nat) : List (BitVec 32) := mget (List.replicate 1024 0) x.acc t

/-- A tile written, copied first if the interval has not written it yet (R413). -/
def Core.setTile (x : Core) (t : Nat) (es : List (BitVec 32)) : Core :=
  { x with acc := mset (List.replicate 1024 0) x.acc t es,
           tileCopies := match mget none x.tileCopies t with
             | some _ => x.tileCopies
             | none => mset none x.tileCopies t (some (x.tile t)) }

/-- One result landed in a core (R39, R40, R120, R150). -/
def Core.land (x : Core) (l : Land) : Core :=
  match l with
  | .sreg n v => { x with arch := { x.arch with s := mset 0 x.arch.s n v } }
  | .vreg n m v => { x with arch := { x.arch with v := mset 0 x.arch.v n ((mget 0 x.arch.v n &&& ~~~m) ||| (v &&& m)) } }
  | .preg n m v => { x with arch := { x.arch with p := mset 0 x.arch.p n ((mget 0 x.arch.p n &&& ~~~m) ||| (v &&& m)) } }
  | .acc t es => x.setTile t (es.foldl (fun l e => setAt l e.1 e.2) (x.tile t))
  | .latch n op ty sat v =>
    let r := combineLatch (mget none x.arch.ps n) op ty sat v
    { x with arch := { x.arch with ps := mset none x.arch.ps n (some r.1), fflags := x.arch.fflags ||| r.2 } }
  | .flags f => { x with arch := { x.arch with fflags := x.arch.fflags ||| f } }

/-- Does a result act at the end of its cycle, after the bundle's reads (R120, R151)? -/
def Land.late : Land → Bool
  | .latch .. | .flags _ => true
  | _ => false

/-- One advance cycle on: exposed results due now land, all of them before a commit, the register results only otherwise (R39, R42);
FMT and LUTSEL leave their shadows (R44). DESIGN CHOICE (log 134): of an SWR and a SETFMT or LUTSEL of one bundle the X slot's value stays.
Log 149. -/
def Core.tick (x : Core) (commit : Bool) : Core :=
  let fl := x.flight.map fun e => (e.1 - 1, e.2)
  let now := fl.filter fun e => e.1 == 0 && (commit || !e.2.late)
  let rest := fl.filter fun e => !(e.1 == 0 && (commit || !e.2.late))
  let x := now.foldl (fun x e => x.land e.2) { x with flight := rest }
  let fp := x.arch.fmtPend.map fun e => (e.1, e.2 - 1)
  let lp := x.arch.lutPend.map fun e => (e.1, e.2 - 1)
  { x with arch :=
    { x.arch with fmt := ((fp.filter fun e => e.2 == 0).getLast?.map (·.1)).getD x.arch.fmt, fmtPend := fp.filter fun e => e.2 != 0,
                  lutsel := ((lp.filter fun e => e.2 == 0).getLast?.map (·.1)).getD x.arch.lutsel,
                  lutPend := lp.filter fun e => e.2 != 0 } }

/-- Flags and latch combinations due in the cycle land at its end (R120, R151). -/
def Core.landLate (x : Core) : Core :=
  (x.flight.filter fun e => e.1 == 0).foldl (fun x e => x.land e.2) { x with flight := x.flight.filter fun e => e.1 != 0 }

/-- A tile result landed (R160, R172, R173): only the elements it defines are written. -/
def Core.landSm (x : Core) (e : SmEntry) : Core :=
  let x := x.setTile e.tile (e.elems.foldl (fun l q => setAt l q.1 q.2) (x.tile e.tile))
  { x with arch := { x.arch with fflags := x.arch.fflags ||| e.fl, suspect := x.arch.suspect ||| e.suspect } }

/-- A tile as an SM op issued now reads it: after the results of every earlier SM op (R159, R160). -/
def Core.smTile (x : Core) (t : Nat) : List (BitVec 32) :=
  x.sm.foldl (fun l e => if e.tile = t then e.elems.foldl (fun l q => setAt l q.1 q.2) l else l) (x.tile t)

/-- A scoreboarded result, on its way until it lands (R41). -/
def State.putSb (s : State) (c : Nat) (e : SbEntry) : State := s.modCore c fun x => { x with sb := x.sb ++ [e] }

/-! ### Special registers -/

/-- A bundle-form write of a special register as it takes effect at the end of its cycle (R31, R137); FMT and LUTSEL enter their shadows
at issue instead. -/
def Core.swr (x : Core) (n : Nat) (v : Word) : Core :=
  match n with
  | 0x003 => { x with arch := { x.arch with suspect := x.arch.suspect &&& ~~~(v.setWidth 8) } }
  | 0x004 => { x with arch := { x.arch with fflags := v.setWidth 5 } }
  | 0x030 => { x with tcause := v.setWidth 8 }
  | 0x031 => { x with tpc := v }
  | 0x032 => { x with tval := v }
  | 0x035 => { x with ssat := x.ssat && !v.getLsbD 31 }
  | 0x040 => { x with arch := { x.arch with rnga := v } }
  | 0x041 => { x with arch := { x.arch with rngb := v } }
  | 0x044 => { x with arch := { x.arch with drift := v.setWidth 32 }, armed := [] }
  | _ => x

/-- A staged write of a group register (R137, R156). -/
def Group.swr (g : Group) (n : Nat) (v : Word) : Group :=
  match n with
  | 0x034 => { g with thandler := v }
  | 0x035 => { g with ssat := g.ssat && !v.getLsbD 31 }
  | 0x042 => { g with lutsel := v.setWidth 2 }
  | 0x044 => { g with drift := v.setWidth 32, armed := [] }
  | _ => g

/-! ### Effects of a core -/

/-- A tag written, and the tags that the engine's own lines carry, those of its load-blocks among them (R228, R231, R292); a request that the home agent's check of the world fails is
discarded and recorded (R379). -/
def State.putTag (s : State) (k : Ctx) (x : XByte) (tag : Nat) : State :=
  if s.secure x.pa && !k.world then s.noteWorld k.world [x.pa]
  else
    let carry (l : Line) : Line :=
      if l.pline == x.pa / 64 && l.attr.te then { l with tags := if bit x.pa 5 then (l.tags.1, tag) else (tag, l.tags.2) } else l
    let s := (s.setTagMem x.pa tag).modEng k.dom fun e => { e with l1 := e.l1.map carry }
    match k.dom with
    | .core c => s.modCore c fun x => x.mapBlocks carry
    | .unit _ => s

/-- A copy started (R253, R281). -/
def State.startCopy (s : State) (d : Dom) (c : Copy) : State :=
  if c.dsts = [] then s
  else s.modEng d fun e => { e with copies := e.copies ++ [{ c with seq := e.copySeq }], copySeq := e.copySeq + 1 }

/-- The bytes of a LOCAL atomic written: taken out of the masks of the interval's undo entries (R287, R412). -/
def State.writeLoc (s : State) (c : Nat) (cells : List Host.Cell) : State :=
  s.modCore c fun x =>
    { x with scratch := cells.foldl (fun m q => setByte m q.1 q.2) x.scratch,
             undo := x.undo.map fun e => (e.1, e.2.filter fun q => !cells.any fun w => w.1 == q.1) }

/-- The bytes of a global atomic written at the home agent, the engine's own copy of the line leaving (R287); at a PEER target by an
AtomicOp (R262). -/
def State.writeAtom (s : State) (k : Ctx) (bs : List (XByte × Byte)) : State :=
  match bs with
  | [] => s
  | (x, _) :: _ =>
    if x.attr.mt == 0 then
      ((s.dropLines k.dom fun l => bs.any fun b => b.1.pa / 64 == l.pline).cleanBlocks k.dom fun l =>
        bs.any fun b => b.1.pa / 64 == l.pline).homeWrite k.world (bs.map fun b => (b.1.pa, b.2))
    else { s with bnd := { s.bnd with peer := bs.foldl (fun m c => setByte m c.1.pa c.2) s.bnd.peer } }

/-- A place of a copy in a share of a redundant pair, put in a given part of the pair; other places stand. -/
def CopyEnd.inPair (idx part : Nat) (p : CopyEnd) : CopyEnd :=
  match p with
  | .core q off => if q / 2 == idx / 2 then .core part off else p
  | _ => p

/-- Is the place in the pair's own shares? -/
def CopyEnd.ofPair (idx : Nat) (p : CopyEnd) : Bool :=
  match p with
  | .core q _ => q / 2 == idx / 2
  | _ => false

/-- Places of a copy as one core of a redundant pair serves them (R441): those in the pair's shares are each core's own, the others the
primary's. -/
def pairPlaces (idx : Nat) (l : List CopyEnd) : List CopyEnd :=
  ((l.filter fun p => idx % 2 == 0 || p.ofPair idx).map (CopyEnd.inPair idx idx)).eraseDups

/-- A copy as one core of a redundant pair starts it (R441): into the pair's shares each its own; to a global destination the primary's
only, which counts and signals in both shares. -/
def Copy.forPair (c : Copy) (idx : Nat) : Copy :=
  let glob := c.dsts.any fun d => match d with
    | .glob _ => true
    | _ => false
  if glob then
    let both (l : List CopyEnd) := (l.flatMap fun p => [p, p.inPair idx (idx / 2 * 2 + 1)]).eraseDups
    if idx % 2 == 0 then { c with src := c.src.inPair idx idx, syncs := both c.syncs, sems := both c.sems } else { c with dsts := [] }
  else
    let ds := pairPlaces idx c.dsts
    let n := c.dsts.length
    let pieces := (c.left.filter fun q => q.1 == 0).map (·.2)
    { c with src := c.src.inPair idx idx, dsts := ds, sems := pairPlaces idx c.sems,
             syncs := if c.multi then pairPlaces idx c.syncs else c.syncs.map (CopyEnd.inPair idx idx),
             left := if ds.length = n then c.left else pieces.flatMap fun p => (List.range ds.length).map fun i => (i, p) }

/-- A job barrier has completed: the core waits for the others it has released (R374). -/
def CoreWait.passBar (w : CoreWait) (id : Nat) : CoreWait :=
  match w with
  | .bar ids => if ids.erase id = [] then .none else .bar (ids.erase id)
  | w => w

/-- A trap that waits for a commit (R414). -/
def State.post (s : State) (c : Nat) (cause : Nat) (tval : Nat) : State :=
  s.modCore c fun x => { x with waiting := x.waiting ++ [(cause, BitVec.ofNat 64 tval, 0)] }

/-- One withheld effect released (R243, R244); `own` is false on the shadow of a redundant pair, which leaves global effects to the
primary (R441). -/
def State.releaseEff (s : State) (c : Nat) (own : Bool) (e : Eff) : State :=
  let a : Agent := .core (fin 32 c) 0
  let d : Dom := .core (fin 32 c)
  let k := s.ctx a
  let pair := (s.pairPos c).isSome
  match e with
  | .store bs =>
    let lines (l : Line) : Bool := bs.any fun b => b.1.pa / 64 == l.pline
    if own then (if pair then (s.storeBytes k bs).cleanLines d lines else s.storeBytes k bs)
    else
      let blk := bs.filter fun b => ((s.core c).blockLine (b.1.pa / 64)).isSome
      (s.storeBytes k blk).dropLines d lines
  | .tags cells => if own then cells.foldl (fun s t => s.putTag k t.1 t.2) s else s
  | .signal core idx n =>
    if !own then s
    else
      let s := s.signalCore core idx n
      if pair && core / 2 == c / 2 then s.signalCore (if core % 2 = 0 then core + 1 else core - 1) idx n else s
  | .hsig idx n => s.signalCore c idx n
  | .copy cp => s.startCopy d (if pair then cp.forPair (s.core c).idx else cp)
  | .launch jobid =>
    if !own then s
    else match (s.releaseAt d .device).launch (s.cardAt a) jobid.toNat with
      | .ok s => s
      | .error r => s.post c 0x1A (launchTval r jobid.toNat)
  | .lutld slot data =>
    match (s.core c).job with
    | none => s
    | some j => s.modEng d fun e =>
        { e with luts := minsert (merase e.luts slot) slot { owner := some (.core j), data := data } }
  | .bar id =>
    let idx := (s.core c).idx
    let s := s.modCore c fun x => { x with wait := match x.wait with
      | .bar ids => .bar (ids ++ [id])
      | _ => .bar [id] }
    match (s.core c).job with
    | none => s
    | some j => s.modSlot j fun z => { z with bars := z.bars ++ [(id, idx)] }
  | .svc code => if own then s.post c 0x31 code else s
  | .drain sc => s.releaseAt d sc
  | .clean lo n => if own then s.cleanLines d fun l => l.asid == k.asid && l.world == k.world && l.meets lo n else s
  | .blkrel n => s.freeBlock c n own
  | .jend _ | .scr _ | .loc _ | .atom _ | .swr .. => s

/-- An effect with the cores of its own pair taken as one, as the comparison of a redundant pair sees it (R440): core number and part of
the pair's first core; none where the two cores may differ. -/
def Eff.norm (c idx : Nat) (e : Eff) : Option Eff :=
  let place := CopyEnd.inPair idx idx
  match e with
  | .store _ | .drain _ | .bar _ | .lutld .. | .scr _ | .loc _ | .atom _ | .swr .. => none
  | .signal core idx n => some (.signal (if core / 2 == c / 2 then core / 2 * 2 else core) idx n)
  | .hsig i n => some (.hsig i n)
  | .copy cp => some (.copy { cp with src := place cp.src, dsts := cp.dsts.map place, syncs := cp.syncs.map place,
                                      sems := cp.sems.map place, part := idx / 2 * 2, issuer := .core 0 0 })
  | .tags l => some (.tags l)
  | .launch j => some (.launch j)
  | .jend b => some (.jend b)
  | .svc code => some (.svc code)
  | .clean lo n => some (.clean lo n)
  | .blkrel n => some (.blkrel n)

/-- The global stores among effects: address and data of each byte of each store (R440). -/
def effStores (l : List Eff) : List (List (Nat × Byte)) :=
  l.filterMap fun e => match e with
    | .store bs => some (bs.map fun b => (b.1.va, b.2))
    | _ => none

/-- The comparison of a redundant pair (R440): none when equal, else TVAL; a mismatch of another kind than a store has no TVAL in the
spec and takes a free value (log 6). -/
def State.comparePair (s : State) (p : Nat) : Option (Nat × State) :=
  let a := (s.core p).withheld
  let b := (s.core (p + 1)).withheld
  let sa := effStores a
  let sb := effStores b
  if sa.length != sb.length then some (0, s)
  else
    let diff := (sa.zip sb).flatMap fun q => if q.1 == q.2 then [] else
      (((q.1.filter fun e => !q.2.contains e) ++ (q.2.filter fun e => !q.1.contains e)).map (·.1))
    match diff with
    | x :: xs => some (xs.foldl min x, s)
    | [] =>
      if a.filterMap (Eff.norm p (s.core p).idx) == b.filterMap (Eff.norm p (s.core p).idx) then none
      else let (v, s) := s.draw; some (v.toNat, s)

/-! ### Rollback, stops and traps of a core -/

/-- A core's state put in its job's save area, as a stop presents it (R326, R430). -/
def State.presentCore (s : State) (c : Nat) : State :=
  match (s.core c).job with
  | none => s
  | some j =>
    let card := s.cardOf j
    s.putArea (Card.world card) (s.saveBase j (Card.world card) false + coreAreaSize * (s.core c).idx) (s.coreArea c j true false true)

/-- A core stops for debug with its gang, each at its last checkpoint (R326); the others have cause 4. -/
def State.stopCore (s : State) (c : Nat) (cause : Nat) : State :=
  (s.gangOf c).foldl (fun s j =>
    let n := if j = c then cause else 4
    let s := (s.modEng (.core (fin 32 j)) fun e => { e with stopped := some n, stepping := false }).presentCore j
    s.emitAt (.core (fin 32 j) 0) 0x30 7 true n 0 0) s

/-- The trap registers of a core written (R418); both cores of a redundant pair take a fault of either (R441). -/
def State.trapRegs (s : State) (c cause : Nat) (tval tpc : Word) : State :=
  let cs := match s.pairPos c with
    | some p => [c - p, c - p + 1]
    | none => [c]
  cs.foldl (fun s j => s.modCore j fun x => { x with tcause := BitVec.ofNat 8 cause, tval := tval, tpc := tpc }) s

/-- The disposition of a cause in bundle form (R416). -/
inductive Disposition where
  | resume | retry | stop | endJob
  deriving DecidableEq, Repr

/-- The Bundle column of R416. -/
def disposition (cause : Nat) : Disposition :=
  match cause with
  | 0x16 | 0x1A | 0x24 | 0x28 | 0x29 | 0x31 => .resume
  | 0x20 | 0x21 | 0x22 => .retry
  | 0x32 => .stop
  | _ => .endJob

/-- An agent's trap that poison causes, a copy error among them, is recorded as poison consumed (R436, R437; log 139). -/
def State.consumed (s : State) (a : Agent) (cause : Nat) (tval : Word) : State :=
  if 0x10 ≤ cause && cause ≤ 0x13 || cause == 0x16 then
    let card := s.cardAt a
    s.errorLog (Card.world card) a.dom.src 3 cause (Card.part card) (Card.jobid card) tval.toNat 0
  else s

/-- A bundle-form trap: rollback, trap registers, disposition (R415, R418, R419); during a step the core stays stopped at the previous
step boundary (R326). -/
def State.coreTrap (s : State) (c cause : Nat) (tval tpc : Word) : State :=
  let e := (s.core c).eng
  let gang := s.gangOf c
  let s := ((s.consumed (.core (fin 32 c) 0) cause tval).rollback c cause).trapRegs c cause tval tpc
  if e.stepping then
    gang.foldl (fun s j =>
      ((s.modEng (.core (fin 32 j)) fun e =>
          { e with stepping := false, stepStatus := 2, stopped := if e.tstop && j = c then some 3 else e.stopped }).presentCore j).emitAt
        (.core (fin 32 j) 0) 0x31 7 false 2 0 0) s
  else if e.tstop then s.stopCore c 3
  else match disposition cause with
    | .resume => s
    | .stop => s.stopCore c 2
    | .retry =>
      let n := (s.core c).retries + 1
      let s := gang.foldl (fun s j => s.modCore j fun x => { x with retries := n }) s
      match (s.core c).job with
      | none => s
      | some j =>
        if n = 1 then s
        else if n = 2 then
          (if cause = 0x22 then gang else [c]).foldl (fun s i => s.modEng (.core (fin 32 i)) fun e => { e with failed := some 4 }) (s.saveJob j true)
        else s.endByTrap j c 7 cause tval tpc
    | .endJob =>
      match (s.core c).job with
      | none => s
      | some j => s.endByTrap j c 7 cause tval tpc

/-! ### Commit -/

/-- ARG of a MARK record (R322). -/
def markArg (id : Nat) (drift : Int) (noref : Bool) : Nat :=
  id + ofInt 15 (max (-(2 ^ 14)) (min (2 ^ 14 - 1) drift)) * 2 ^ 8 + (if noref then 2 ^ 23 else 0)

/-- The end of a task block (R361), with the advance cycle of a checkpoint that closes it, and of the core's part of the job when it is the
last or when JEND is plain (R345, R371); a snapshot is due after each JEND.BLK (R443). -/
def State.endBlock (s : State) (c : Nat) (blk : Bool) (closing : Nat) : State :=
  let x := s.core c
  let s := s.emitAt (.core (fin 32 c) 0) 0x18 2 false (markArg 0xFF (((x.blockAdv + closing : Nat) : Int) - x.dcyc) false) 0 0
  let snap := blk && Card.restart (s.cardAt (.core (fin 32 c) 0)) == 2
  if blk && x.nextEntry != 0xFFFFFFFF then
    s.modCore c fun x =>
      { x with part := .block x.nextEntry, snapDue := snap, reissue := false, shadowReissue := false, goAt := none, forward := none }
  else (s.endCore c).modCore c fun x => { x with snapDue := snap }

/-- What ends when effects have been released: a plain JEND the core's part, whatever JEND.BLK says, else JEND.BLK the block (R361, R371). -/
def endOf (l : List Eff) : Option Bool :=
  if l.contains (.jend false) then some false else if l.contains (.jend true) then some true else none

/-- Is the effect a mark that orders released effects at a scope wider than CORE (R244)? -/
def Eff.isMark : Eff → Bool
  | .drain sc => !(sc == .thread || sc == .core)
  | _ => false

/-- Effects released in program order (R243). Those after a mark wait while stores to control registers made before it have still to act
(R244). -/
def State.releaseList (s : State) (c : Nat) (own : Bool) : List Eff → State
  | [] => s.performRemovals c
  | e :: es =>
    let s := s.releaseEff c own e
    if e.isMark && s.posted != [] && es != [] then { s with marked := s.marked ++ [⟨c, own, es, false⟩] } else s.releaseList c own es

/-- One core's commit (R414): effects released in program order, then the header signal; shadows taken, logs dropped, counts zeroed; the
COMMIT record. With what it ends. -/
def State.commitCore (s : State) (c : Nat) (own : Bool) (sig : Nat × Nat) : State × Option Bool :=
  let effs := (s.core c).withheld
  let s := (s.modCore c fun x => { x with withheld := [] }).releaseList c own effs
  let s := if sig.2 = 0 then s else s.signalCore c sig.1 sig.2
  let n := (s.core c).intervalAdv
  let s := s.modCore c fun x =>
    { x with shadow := x.arch, shadowFlight := x.flight, shadowReissue := true, undo := [], tileCopies := [], gst := 0, cpy := 0,
             undoCount := 0, intervalAdv := 0, retries := 0, reissue := false }
  (s.emitAt (.core (fin 32 c) 0) 0x10 1 false n 0 0, endOf effs)

/-- The commits of a gang's cores at one checkpoint bundle, of each core its own effects (R362, R414): a redundant pair's shadow leaves global
ones to the primary (R441). The header wait takes its count after the signals of the same cycle (R22, R51). With the ends of blocks and
parts that the cores have released. -/
def State.commitAll (s : State) (g : List Nat) (sig wait : Nat × Nat) : State × List (Nat × Bool) :=
  g.foldl (fun r j =>
    let e := r.1.commitCore j (r.1.pairPos j != some 1) sig
    let s := if wait.2 = 0 then e.1 else e.1.modCore j fun x => { x with sem := mset 0 x.sem wait.1 (mget 0 x.sem wait.1 - wait.2) }
    (s, r.2 ++ (e.2.map fun b => (j, b)).toList)) (s, [])

/-- The comparison that a gang makes before a commit: of a redundant pair (R440). -/
def State.compareGang (s : State) (c : Nat) (g : List Nat) : Option (Nat × State) :=
  if s.pairPos c == some 0 && g.length = 2 then s.comparePair c else none

/-! ### The traps that wait for a commit -/

/-- The trap that is delivered first: of the lowest cause, of several copy errors the earliest issued (R282, R349, R414). -/
def firstTrap (l : List (Nat × Word × Nat)) : Option (Nat × Word × Nat) :=
  l.foldl (fun b x => match b with
    | none => some x
    | some b => some (if x.1 < b.1 || (x.1 = b.1 && x.2.2 < b.2.2) then x else b)) none

/-- The core of a gang whose waiting trap has the lowest cause, and the trap. -/
def State.gangTrap (s : State) (g : List Nat) : Option (Nat × Nat × Word × Nat) :=
  g.foldl (fun b j => match b, firstTrap (s.core j).waiting with
    | some b, some w => some (if w.1 < b.2.1 then (j, w) else b)
    | none, some w => some (j, w)
    | b, none => b) none

/-- A trap no longer waits; a redundant pair's is one trap of one core, which may wait on both (R441). -/
def State.dropTrap (s : State) (c j : Nat) (t w : Nat × Word × Nat) : State :=
  s.modCore j fun x => { x with waiting :=
    if (s.pairPos c).isSome then (match x.waiting.find? fun v => v.1 = t.1 && v.2.1 = t.2.1 with
      | some v => x.waiting.erase v
      | none => x.waiting) else x.waiting.erase w }

/-- The traps that a gang's commit delivers (R282, R349, R414): of each core that one waits for its lowest, TPC the checkpoint bundle's. The
lowest of all takes the gang to its checkpoint (R362, R419); a redundant pair delivers one (R441). -/
def State.deliverAll (s : State) (g : List Nat) : State × Bool :=
  match s.gangTrap g with
  | none => (s, false)
  | some (c, t) =>
    let pc (s : State) (j : Nat) : Word := (s.core j).arch.pc.setWidth 64
    let s := g.foldl (fun s j => match firstTrap (s.core j).waiting with
      | none => s
      | some w =>
        let s := s.dropTrap c j t w
        if j = c || (s.pairPos c).isSome then s
        else (s.consumed (.core (fin 32 j) 0) w.1 w.2.1).trapRegs j w.1 w.2.1 (pc s j)) s
    (s.coreTrap c t.1 t.2.1 (pc s c), true)

/-- Blocks and parts end, those that still run (R361, R371, R445). -/
def State.endAll (s : State) (ends : List (Nat × Bool)) (closing : Nat) : State :=
  ends.foldl (fun s e => if (s.core e.1).part == .running then s.endBlock e.1 e.2 closing else s) s

/-- What follows the commits of a checkpoint bundle: traps, then ends (R414). True when the bundle's slot ops do not issue now. -/
def State.commitTail (s : State) (g : List Nat) (ends : List (Nat × Bool)) : State × Bool :=
  let d := s.deliverAll g
  (d.1.endAll ends 1, d.2 || ends != [])

/-- What follows a commit waits for the effects that marks hold back (R244). -/
def State.holdEnds (s : State) (ends : List (Nat × Bool)) (step : Bool) : State :=
  let waiting : List Marked := s.marked ++ ends.map fun e => { core := e.1, own := true, effs := [.jend e.2], step := step }
  { s with marked := waiting.map fun m => { m with step := step } }

/-- The commit of a checkpoint bundle by its gang (R414), all its cores at one checkpoint (R35, R419); the others issue the bundle's slot ops
after it. True when they do not issue now. -/
def State.commit (s : State) (c : Nat) (sig wait : Nat × Nat) : State × Bool :=
  let g := s.gangLive c
  match s.compareGang c g with
  | some (v, s) => (s.coreTrap c 0x22 (BitVec.ofNat 64 v) ((s.core c).arch.pc.setWidth 64), true)
  | none =>
    let others := g.filter (· != c)
    let s := others.foldl (fun s j => s.modCore j fun x => x.tick true) s
    let r := s.commitAll g sig wait
    let s := others.foldl (fun s j => s.modCore j fun x => { x with reissue := true }) r.1
    if s.marked = [] then s.commitTail g r.2 else (s.holdEnds r.2 false, false)

/-! ### The end of a core's cycle -/

/-- Where the core's next bundle is (R368, R69). -/
def Arch.nextPc (a : Arch) (len : Nat) : Arch :=
  let rd := a.redir.map fun r => (r.1, r.2 - 1)
  { a with pc := ((rd.find? fun r => r.2 == 0).map (·.1)).getD (a.pc + BitVec.ofNat 32 len), redir := rd.filter fun r => r.2 != 0 }

/-- One deferred effect of a bundle at the end of its cycle: local stores, atomics and register writes perform, the rest is withheld
(R241 to R243). -/
def State.endEff (s : State) (c : Nat) (e : Eff) : State :=
  match e with
  | .scr cells => s.storeScratch c cells
  | .loc cells => s.writeLoc c cells
  | .atom bs => s.writeAtom (s.ctx (.core (fin 32 c) 0)) bs
  | .swr n v => s.modCore c fun x => x.swr n v
  | e => s.modCore c fun x => { x with withheld := x.withheld ++ [e] }

/-- Is the effect a header signal? -/
def Eff.isHsig : Eff → Bool
  | .hsig .. => true
  | _ => false

/-- Of several writes of one special register in a bundle only the last slot's is kept (R137). -/
def keepSwr : List Eff → List Eff
  | [] => []
  | .swr n v :: rest => if rest.any fun e => match e with
      | .swr m _ => m == n
      | _ => false then keepSwr rest else .swr n v :: keepSwr rest
  | e :: rest => e :: keepSwr rest

/-- The end of a core's cycle: its stores perform after its loads (R241), the header signal is withheld last (R52), flags and latches
land, and the program counter moves. -/
def State.finishCore (s : State) (c : Nat) : State :=
  let es := keepSwr (s.deferred.map (·.2))
  let s := { s with deferred := [] }
  let s := (es.filter fun e => !e.isHsig).foldl (fun s e => s.endEff c e) s
  let s := (es.filter Eff.isHsig).foldl (fun s e => s.endEff c e) s
  s.modCore c fun x =>
    let x := x.landLate
    { x with arch := { x.arch.nextPc x.len with adv := x.arch.adv + 1 }, intervalAdv := x.intervalAdv + 1, blockAdv := x.blockAdv + 1 }

/-- A step is done (R326): what its gang's cores have released has performed at CORE scope, their copies among it. Traps, ends, status and
presented state follow; a trap that the commit delivers returns to the same boundary. -/
def State.stepTail (s : State) (g : List Nat) (ends : List (Nat × Bool)) : State :=
  let s := g.foldl (fun s j => s.landCopies (.core (fin 32 j))) s
  let d := s.deliverAll g
  if d.2 then g.foldl State.presentCore (d.1.endAll ends 0)
  else
    let s := g.foldl (fun s j => s.modEng (.core (fin 32 j)) fun e => { e with stepping := false, stepStatus := 0 }) d.1
    let s := s.endAll ends 0
    g.foldl (fun s j => (s.presentCore j).emitAt (.core (fin 32 j) 0) 0x31 7 false 0 0 0) s

/-- A stepped bundle commits as though its KIND were 01, with its gang, once every core of the gang has issued it and its MSTEST has completed
(R42, R183); its scoreboarded results land, its exposed results stay in flight (R326); a result above its MX bound traps instead (R174). -/
def State.stepCommit (s : State) (c : Nat) : State :=
  let g := s.gangLive c
  if g.any fun j => (s.core j).goAt.isSome || (s.core j).mstest.isSome then s
  else match g.findSome? fun j => (s.core j).sm.findSome? fun e => e.bound.map fun v => (j, v, e.tpc) with
  | some (j, v, tpc) => s.coreTrap j 0x21 v tpc
  | none =>
  match s.compareGang c g with
  | some (v, s) => s.coreTrap c 0x22 (BitVec.ofNat 64 v) ((s.core c).arch.pc.setWidth 64)
  | none =>
  let s := g.foldl (fun s j =>
    (s.modCore j fun x => x.sb.foldl (fun x e => e.lands.foldl Core.land x) { x with sb := [] }).modCore j fun x =>
      x.sm.foldl Core.landSm { x with sm := [] }) s
  let r := s.commitAll g (0, 0) (0, 0)
  let s := g.foldl (fun s j => s.modCore j fun x => { x with shadowReissue := false }) r.1
  if s.marked = [] then s.stepTail g r.2 else s.holdEnds r.2 true

/-- The effects that marks hold back act, stores to control registers before them having acted (R244); then what follows their commit. A
trap or an end takes away the ops that were to issue with the commit. -/
def State.releaseMarked (s : State) : State :=
  match s.marked with
  | [] => s
  | m :: ms =>
    let l := m :: ms
    let g := s.gangLive m.core
    let ends := (l.map (·.core)).eraseDups.filterMap fun c => (endOf (l.flatMap fun e => if e.core = c then e.effs else [])).map fun b => (c, b)
    let s := l.foldl (fun s e => s.releaseList e.core e.own e.effs) { s with marked := [] }
    if s.marked != [] then s.holdEnds ends m.step
    else if m.step then s.stepTail g ends
    else
      let d := s.commitTail g ends
      if d.2 then { d.1 with latch := [], deferred := [], aborted := false } else d.1

/-! ### Threads -/

/-- The bit of a thread's lane (R26). -/
def laneBit (t : Nat) : Word := (1 : Word) <<< (t % 64)

/-- A waiting word completes. -/
def State.wakeDone (s : State) (t : Tid) : State := (s.wake t).modThread t fun x => { x with pc := x.pc + 8, arrived := 0 }

/-- A thread withdrawn from one of the waits of R343: its word issues again (R298, R349). -/
def State.withdraw (s : State) (t : Tid) : State :=
  match (s.thread t).wait with
  | .sem .. | .sync .. | .pop .. | .push _ | .bar .. | .leave _ | .copySlot =>
    let unit : Dom := .unit t.unit
    let s := s.leaveQueues fun u => u == t
    let s := s.modGroup t.unit t.group fun g =>
      { g with semq := g.semq.filter fun q => q.2 != t.thread, bars := g.bars.filter fun b => b.2.2 != t.thread }
    let s := match (s.thread t).wait with
      | .leave _ => s.dropLeaves fun l => l.dom == unit && l.group == t.group && l.thread == t.thread
      | _ => s
    (s.wake t).modThread t fun x => { x with reissue := true }
  | _ => s

/-- Is a thread in one of the waits of R343? -/
def Wait.withdrawable : Wait → Bool
  | .sem .. | .sync .. | .pop .. | .push _ | .bar .. | .leave _ | .copySlot => true
  | .none | .query _ | .drain | .tlbinv | .hintinv | .jend | .yield .. | .trace => false

/-- Threads of a unit in a wait of R343. -/
def VUnit.waiting (v : VUnit) (u : Fin 32) : List Tid :=
  v.groups.flatMap fun e => match e.2 with
    | some g => ((List.range g.size).filter fun i => (mget Thread.reset g.threads i).wait.withdrawable).map fun i => ⟨u, e.1, i⟩
    | none => []

/-- The groups of a unit put in their jobs' save areas, as a stop presents them (R429, R431). -/
def State.presentUnit (s : State) (u : Nat) : State :=
  (s.unit u).groups.foldl (fun s e => match e.2 with
    | some g =>
      let card := s.cardOf g.job
      s.putArea (Card.world card) (s.saveBase g.job (Card.world card) false + groupAreaStride card * g.idx) (s.groupArea u e.1 g.job true)
    | none => s) s

/-- A unit stops for debug (R327), its threads withdrawn from their waits, which they enter again when they go on, and without a mark
reference (R322). -/
def State.stopUnit (s : State) (u : Fin 32) (cause : Nat) : State :=
  let s := ((s.unit u).waiting u).foldl State.withdraw s
  let s := (s.modEng (.unit u) fun e => { e with stopped := some cause, stepping := false }).presentUnit u
  let s := s.modUnit u fun v => { v with groups := v.groups.map fun e => (e.1, e.2.map fun g =>
    { g with threads := g.threads.map fun t => (t.1, { t.2 with markRef := none }) }) }
  match (s.unit u).groups.find? fun g => g.2.isSome with
  | some g => s.emitAt (.thr ⟨u, g.1, 0⟩) 0x30 7 true cause 0 0
  | none => s

/-- A thread-form trap (R420 to R422): the thread enters its group's handler, or its job ends. TPC is the trapping word's address, or
the next word's for TRAP, SVC and BKPT (R421). -/
def State.threadTrap (s : State) (t : Tid) (cause : Nat) (tval : Word) : State :=
  let s := ((s.wake t).consumed (.thr t) cause tval).landAllBusy t
  let x := s.thread t
  let g := s.group t.unit t.group
  let tpc := if cause == 0x30 || cause == 0x31 || cause == 0x32 then x.pc + 8 else x.pc
  let e := s.eng (.unit t.unit)
  let regs (x : Thread) : Thread := { x with tcause := BitVec.ofNat 8 cause, tpc := tpc, tval := tval }
  if e.tstop then
    let s := s.modThread t regs
    if e.stepping then s.modEng (.unit t.unit) fun e => { e with stopped := some 3, stepStatus := 2 } else s.stopUnit t.unit 3
  else if x.inHandler || g.thandler = 0 then
    let s := s.endByTrap g.job (32 + t.unit.val) (if x.inHandler then 9 else 7) cause tval tpc
    { s with latch := s.latch.filter fun f => match f.agent with
        | .thr v => (s.thread v).ended == false
        | _ => true }
  else
    let s := s.emitAt (.thr t) 0x12 1 false cause 0 0
    let s := s.modThread t fun x => { regs x with pc := g.thandler, tmask := laneBit t.thread, inHandler := true }
    let s := s.modUnit t.unit fun v => { v with trapped := v.trapped ++ [(x.pc, t.group, t.thread)] }
    if e.stepping then s.modEng (.unit t.unit) fun e => { e with stepStatus := 2 } else s

/-- THE EXCEPTION: an op's trap taken by the agent that executes it. A core abandons its bundle, its atomics having performed at issue
(R245), rolls back and follows the disposition (R418); a thread enters its handler (R420). DESIGN CHOICE (log 134): what lower slots of the
bundle would do without waiting for its end, an SWR that clears SSAT among it, does not happen. -/
def State.takeTrap (s : State) (a : Agent) (t : Trap) : State :=
  match a with
  | .core c _ =>
    let k := s.ctx a
    let s := s.deferred.foldl (fun s e => match e.2 with
      | .atom bs => s.writeAtom k bs
      | .loc cells => s.writeLoc c cells
      | _ => s) s
    let s := { s with latch := [], deferred := [] }
    { s.coreTrap c t.cause t.tval ((s.core c).arch.pc.setWidth 64) with aborted := true }
  | .thr u => s.threadTrap u t.cause t.tval

/-- An op's outcome as a step's: its trap, if a check failed, is taken. -/
def answer (r : Res) : Out :=
  match r with
  | .ok s => .next s
  | .error f => .next (f.st.takeTrap f.st.cur f.trap)

/-- The return from a thread-form trap (R428): the mark cleared, TPC the next word; illegal outside a handler. -/
def State.trapReturn (s : State) (t : Tid) : Res :=
  let x := s.thread t
  if x.inHandler then .ok (s.setThread t { x with inHandler := false, pc := x.tpc }) else trapRes s 0x04 0

/-- TMASK of the threads that trapped in one issue (R420): the lanes of one context and group that trapped at one PC. -/
def State.fillTmask (s : State) (u : Fin 32) : State :=
  let l := (s.unit u).trapped
  let s := l.foldl (fun s e =>
    let m := (l.filter fun q => q.1 == e.1 && q.2.1 == e.2.1 && q.2.2 / 64 == e.2.2 / 64).foldl (fun m q => m ||| laneBit q.2.2) 0
    s.modThread ⟨u, e.2.1, e.2.2⟩ fun x => { x with tmask := m }) s
  s.modUnit u fun v => { v with trapped := [] }

/-- The end of a debug step of a unit (R327): a word that had to wait ends it blocked and issues again at a later step. -/
def State.endStep (s : State) (u : Fin 32) : State :=
  let ws := (s.unit u).waiting u
  let s := ws.foldl State.withdraw s
  let s := s.modEng (.unit u) fun e => { e with stepping := false, stepStatus := if e.stepStatus = 2 then 2 else if ws = [] then 0 else 1 }
  match (s.unit u).groups.find? fun g => g.2.isSome with
  | some g => s.emitAt (.thr ⟨u, g.1, 0⟩) 0x31 7 false (s.unit u).eng.stepStatus 0 0
  | none => s

/-- A stopped unit's threads stand where a stop leaves them, and its groups' state is presented (R327, R431). -/
def State.settleStop (s : State) (u : Fin 32) : State :=
  if (s.unit u).eng.stopped.isNone then s else (((s.unit u).waiting u).foldl State.withdraw s).presentUnit u

/-- The end of a unit's cycle: of the staged writes of each group register the highest lane's takes effect (R137, R156), TMASK is complete,
and a stop or step presents what the cycle leaves. -/
def State.finishUnit (s : State) (u : Fin 32) : State :=
  let s := s.fillTmask u
  let s := if (s.unit u).eng.stepping then s.endStep u else s
  (s.modUnit u fun v => { v with groups := v.groups.map fun e => (e.1, e.2.map fun g =>
    { ((g.staged.filter fun w => !g.staged.any fun v => v.2.1 == w.2.1 && laneOfIdx w.1 < laneOfIdx v.1).foldl
        (fun g w => g.swr w.2.1 w.2.2) g) with staged := [] }) }).settleStop u
where
  /-- The lane of a thread index (R26). -/
  laneOfIdx (i : Nat) : Nat := i % 64

/-- The end of the cycle of an agent's engine, unless a trap has abandoned it. -/
def State.finishCycle (s : State) (a : Agent) : State :=
  if s.aborted then { s with aborted := false }
  else match a with
    | .core c _ =>
      let s := s.finishCore c
      if (s.core c).eng.stepping then s.stepCommit c else s
    | .thr t => s.finishUnit t.unit

/-- A thread of the running agent put in a wait: its word stays where it is (R343). -/
def State.waitAt (s : State) (w : Wait) : Res :=
  match s.cur with
  | .thr t => .ok (s.modThread t fun x => { x with wait := w, waitSince := (s.eng (.unit t.unit)).cycle s.ptime })
  | .core .. => .ok s

/-- An effect of the running core performed or withheld at the end of its cycle (R241). -/
def State.defer (s : State) (e : Eff) : State := { s with deferred := s.deferred ++ [(s.cur, e)] }

end Sys2Proof.Machine
end

