-- ==== Sys2Proof/Machine/Fetch.lean ====
section
/-!
DEFINITION. From a fetched word to the operation that executes: the decode checks' traps (R77, R78), the thread-form predicate (R74),
and what a step does with the schedule (log 1, log 2).
-/
namespace Sys2Proof.Machine

/-- The cause of a failed decode check (R77, R416). -/
def checkCause (f : Form) (chk : Nat) : Nat :=
  if chk == 0x20 || chk == 0x21 then 0x01
  else if chk == 0x05 || chk == 0x06 || chk == 0x11 then 0x04
  else match f with
    | .bundle => 0x02
    | .thread => 0x03

/-- Does a check concern the header or the whole bundle (R78 HDR)? -/
def checkHdr (chk : Nat) : Bool :=
  chk == 0x01 || chk == 0x02 || chk == 0x03 || chk == 0x0A || chk == 0x10 || chk == 0x20 || chk == 0x21

/-- TVAL of a decode check (R78). -/
def checkTval (chk slot extra : Nat) : Nat := chk + slot * 2 ^ 8 + (if checkHdr chk then 2 ^ 11 else 0) + extra * 2 ^ 32

/-- EXTRA of a failed check of a slot op: the special-register number of check 0x11 (R78). -/
def checkExtra (chk : Nat) (r : RawOp) : Nat := if chk == 0x11 then r.mod.toNat else 0

/-- A fetched word about to execute: an operation, or a state where it has none: its predicate is false (R74), or a check has trapped. -/
inductive Ready where
  | op (i : Instr) (s : State)
  | skip (s : State)
  deriving DecidableEq, Repr

/-- The fetched word at the head of the latch, decoded and its predicate tried (R74, R76, R77). -/
def State.ready (s : State) (f : Fetched) (rest : List Fetched) : Ready :=
  let s := { s with latch := rest, cur := f.agent }
  match f.agent with
  | .core _ n =>
    let r := RawOp.ofBits (f.word.setWidth 44)
    match decodeOp .bundle 64 256 n r with
    | .ok i => .op i s
    | .error c => .skip (s.takeTrap f.agent ⟨checkCause .bundle c, BitVec.ofNat 64 (checkTval c n (checkExtra c r))⟩)
  | .thr t =>
    let g := s.group t.unit t.group
    let w := ThreadWord.ofBits f.word
    match decodeWord g.regs g.nsem f.word with
    | .error c =>
      .skip (s.takeTrap f.agent ⟨checkCause .thread c, BitVec.ofNat 64 (checkTval c 0 (checkExtra c (RawOp.ofBits w.op)))⟩)
    | .ok i => if predOk (s.thread t).p w.p.toNat then .op i s else .skip s.advance

/-- After an executed word: the cycle ends with the last word of the latch (R241, R420). -/
def State.settle (s : State) (a : Agent) : State := if s.latch = [] then s.finishCycle a else s

/-- The same for an outcome. -/
def settleOut (a : Agent) (o : Out) : Out :=
  match o with
  | .next s => .next (s.settle a)
  | .fault r => .fault r
  | .refused r => .refused r

/-- PTIME some ticks on; it does not count while the rails are off (R11), nor before the first engine is released from reset (R303;
log 127). -/
def State.later (s : State) (n : Nat) : State := if s.reeve.rails && s.reeve.counting then { s with ptime := s.ptime + n } else s

/-- The next entry of the schedule taken: its ticks pass. -/
def State.take (s : State) (x : Stimulus) (rest : List Stimulus) : State := { s with inputs := rest }.later x.dt

/-- Nothing is scheduled: one tick passes. -/
def State.idle (s : State) : State := s.later 1

/-- Can the event happen: the rails are on, or it applies them (R11)? -/
def State.powered (s : State) (i : Instr) : Bool := s.reeve.rails || i == .powerOn

/-- Where a word of the opcode table is put so that the next step executes it (log 15): a thread word on thread 0 of group 0 of unit 0,
whose group gets 64 registers and every semaphore; a slot op in a slot of its class on core 0, or as a thread word where it exists in
thread form only. -/
def State.placeWord (s : State) (nbits w : Nat) : State :=
  let s := { s.noPreimages with posted := [] }
  let thread (x : Word) : State :=
    let s := s.modGroup 0 0 fun g => { g with regs := 64, nsem := 256 }
    { s with latch := [⟨.thr ⟨0, 0, 0⟩, x⟩] }
  if 48 < nbits then thread (BitVec.ofNat 64 w)
  else
    let r := RawOp.ofBits (BitVec.ofNat 44 w)
    match decodeOp .bundle 64 256 (anySlot r) r with
    | .ok _ => { s with latch := [⟨.core 0 (fin 8 (anySlot r)), BitVec.ofNat 64 (w % 2 ^ 44)⟩] }
    | .error _ => thread (BitVec.ofNat 64 (w % 2 ^ 44))

end Sys2Proof.Machine
end

