-- ==== Sys2Proof/Machine/Scalar.lean ====
section
/-!
DEFINITION. The integer scalar operations (spec/04_scalar_vector.md R118, R122 to R125) with the latency classes of R37 and R80.
-/
namespace Sys2Proof.Machine

/-! ### Shared forms -/

/-- A scalar result: latency, destination, value. -/
def State.result (s : State) (n : Nat) (d : Opd) (x : Word) : Res := (s.wr n d x).done

/-- An op of two signed sources (R118). -/
def State.op2 (s : State) (n : Nat) (d a b : Opd) (f : Word → Word → Word) : Res := s.result n d (f (s.ri a) (s.ri b))

/-- An op of two unsigned sources (R118). -/
def State.op2n (s : State) (n : Nat) (d a b : Opd) (f : Word → Word → Word) : Res := s.result n d (f (s.rn a) (s.rn b))

/-- An op of one source. -/
def State.op1 (s : State) (n : Nat) (d a : Opd) (f : Word → Word) : Res := s.result n d (f (s.ri a))

/-- A truth value as a register value (R122). -/
def truth (b : Bool) : Word := if b then 1 else 0

/-- The upper 64 bits of a signed product (R122). -/
def mulHigh (a b : Word) : Word := BitVec.ofInt 64 (a.toInt * b.toInt / 2 ^ 64)

/-- The upper 64 bits of an unsigned product (R122). -/
def mulHighN (a b : Word) : Word := BitVec.ofNat 64 (a.toNat * b.toNat / 2 ^ 64)

/-- DIV (R123): toward zero; all ones for a zero divisor; the dividend on overflow. -/
def divS (a b : Word) : Word :=
  if b = 0 then BitVec.allOnes 64
  else if a.toInt = minI .i64 ∧ b.toInt = -1 then a
  else BitVec.ofInt 64 (a.toInt.tdiv b.toInt)

/-- REM (R123). -/
def remS (a b : Word) : Word :=
  if b = 0 then a
  else if a.toInt = minI .i64 ∧ b.toInt = -1 then 0
  else BitVec.ofInt 64 (a.toInt - b.toInt * a.toInt.tdiv b.toInt)

/-- DIVN (R123). -/
def divU (a b : Word) : Word := if b = 0 then BitVec.allOnes 64 else BitVec.ofNat 64 (a.toNat / b.toNat)

/-- REMN (R123). -/
def remU (a b : Word) : Word := if b = 0 then a else BitVec.ofNat 64 (a.toNat % b.toNat)

/-- The shift distance b[5:0] (R122). -/
def shiftOf (b : Word) : Nat := b.toNat % 64

/-- SHL (R122). -/
def shlW (a : Word) (n : Nat) : Word := BitVec.ofNat 64 (a.toNat * 2 ^ n)
/-- SHR (R122). -/
def shrW (a : Word) (n : Nat) : Word := BitVec.ofNat 64 (a.toNat / 2 ^ n)
/-- SRA (R122). -/
def sraW (a : Word) (n : Nat) : Word := BitVec.ofInt 64 (a.toInt / 2 ^ n)

/-- A signed 20-bit immediate (R59). -/
def imm20 (i : BitVec 20) : Word := BitVec.ofInt 64 i.toInt
/-- A signed 12-bit immediate (R59). -/
def imm12 (i : BitVec 12) : Word := BitVec.ofInt 64 i.toInt

/-- Bits set in a number of w bits (R122, R142). -/
def popcount (w x : Nat) : Nat := ((List.range w).filter fun i => bit x i).length

/-- Leading zeros of 64 bits; 64 for zero (R122). -/
def clz64 (x : Nat) : Nat := ((List.range 64).find? fun i => bit x (63 - i)).getD 64

/-- Trailing zeros of 64 bits; 64 for zero (R122). -/
def ctz64 (x : Nat) : Nat := ((List.range 64).find? fun i => bit x i).getD 64

/-- BFX (R125). -/
def bfxW (a : Word) (pos len : Nat) : Word := BitVec.ofNat 64 (a.toNat / 2 ^ pos % 2 ^ len)

/-- BFI (R125): bits that would land above bit 63 are discarded. -/
def bfiW (d a : Word) (pos len : Nat) : Word :=
  let m : Word := BitVec.ofNat 64 ((2 ^ len - 1) * 2 ^ pos)
  (d &&& ~~~m) ||| (BitVec.ofNat 64 (a.toNat % 2 ^ len * 2 ^ pos) &&& m)

/-- SEXT (R125). -/
def sextW (t : ExtTy) (a : Word) : Word :=
  match t with
  | .i8 => BitVec.ofInt 64 (toSigned 8 a.toNat)
  | .i16 => BitVec.ofInt 64 (toSigned 16 a.toNat)
  | .i32 => BitVec.ofInt 64 (toSigned 32 a.toNat)
  | .n8 => BitVec.ofNat 64 (a.toNat % 2 ^ 8)
  | .n16 => BitVec.ofNat 64 (a.toNat % 2 ^ 16)
  | .n32 => BitVec.ofNat 64 (a.toNat % 2 ^ 32)

/-! ### The operations -/

/-- NOP (R82). -/
def execNop (s : State) : Out := answer s.done
/-- ADD (R122). -/
def execAdd (d a b : Opd) (s : State) : Out := answer (s.op2 1 d a b fun x y => x + y)
/-- SUB (R122). -/
def execSub (d a b : Opd) (s : State) : Out := answer (s.op2 1 d a b fun x y => x - y)
/-- ADDI (R122). -/
def execAddi (d a : Opd) (imm : BitVec 20) (s : State) : Out := answer (s.op1 1 d a fun x => x + imm20 imm)
/-- LIH (R122). -/
def execLih (d a : Opd) (imm : BitVec 20) (s : State) : Out :=
  answer (s.op1 1 d a fun x => BitVec.ofNat 64 (x.toNat * 2 ^ 20 + imm.toNat))
/-- MUL (R122). -/
def execMul (d a b : Opd) (s : State) : Out := answer (s.op2 3 d a b fun x y => x * y)
/-- MULH (R122). -/
def execMulh (d a b : Opd) (s : State) : Out := answer (s.op2 3 d a b mulHigh)
/-- MULHN (R122). -/
def execMulhn (d a b : Opd) (s : State) : Out := answer (s.op2n 3 d a b mulHighN)
/-- DIV (R123). -/
def execDiv (d a b : Opd) (s : State) : Out := answer (s.op2 12 d a b divS)
/-- DIVN (R123). -/
def execDivn (d a b : Opd) (s : State) : Out := answer (s.op2n 12 d a b divU)
/-- REM (R123). -/
def execRem (d a b : Opd) (s : State) : Out := answer (s.op2 12 d a b remS)
/-- REMN (R123). -/
def execRemn (d a b : Opd) (s : State) : Out := answer (s.op2n 12 d a b remU)
/-- AND (R122). -/
def execAnd (d a b : Opd) (s : State) : Out := answer (s.op2 1 d a b fun x y => x &&& y)
/-- OR (R122). -/
def execOr (d a b : Opd) (s : State) : Out := answer (s.op2 1 d a b fun x y => x ||| y)
/-- XOR (R122). -/
def execXor (d a b : Opd) (s : State) : Out := answer (s.op2 1 d a b fun x y => x ^^^ y)
/-- ANDI (R122). -/
def execAndi (d a : Opd) (imm : BitVec 12) (s : State) : Out := answer (s.op1 1 d a fun x => x &&& imm12 imm)
/-- ORI (R122). -/
def execOri (d a : Opd) (imm : BitVec 12) (s : State) : Out := answer (s.op1 1 d a fun x => x ||| imm12 imm)
/-- XORI (R122). -/
def execXori (d a : Opd) (imm : BitVec 12) (s : State) : Out := answer (s.op1 1 d a fun x => x ^^^ imm12 imm)
/-- SHL (R122). -/
def execShl (d a b : Opd) (s : State) : Out := answer (s.op2 1 d a b fun x y => shlW x (shiftOf y))
/-- SHR (R122). -/
def execShr (d a b : Opd) (s : State) : Out := answer (s.op2 1 d a b fun x y => shrW x (shiftOf y))
/-- SRA (R122). -/
def execSra (d a b : Opd) (s : State) : Out := answer (s.op2 1 d a b fun x y => sraW x (shiftOf y))
/-- SHLI (R122). -/
def execShli (d a : Opd) (sh : Fin 64) (s : State) : Out := answer (s.op1 1 d a fun x => shlW x sh)
/-- SHRI (R122). -/
def execShri (d a : Opd) (sh : Fin 64) (s : State) : Out := answer (s.op1 1 d a fun x => shrW x sh)
/-- SRAI (R122). -/
def execSrai (d a : Opd) (sh : Fin 64) (s : State) : Out := answer (s.op1 1 d a fun x => sraW x sh)
/-- ROL (R122). -/
def execRol (d a b : Opd) (s : State) : Out := answer (s.op2 1 d a b fun x y => x.rotateLeft (shiftOf y))
/-- ROR (R122). -/
def execRor (d a b : Opd) (s : State) : Out := answer (s.op2 1 d a b fun x y => x.rotateRight (shiftOf y))
/-- MIN (R122). -/
def execMin (d a b : Opd) (s : State) : Out := answer (s.op2 1 d a b fun x y => if x.toInt ≤ y.toInt then x else y)
/-- MAX (R122). -/
def execMax (d a b : Opd) (s : State) : Out := answer (s.op2 1 d a b fun x y => if x.toInt ≤ y.toInt then y else x)
/-- MINN (R122). -/
def execMinn (d a b : Opd) (s : State) : Out := answer (s.op2n 1 d a b fun x y => if x.toNat ≤ y.toNat then x else y)
/-- MAXN (R122). -/
def execMaxn (d a b : Opd) (s : State) : Out := answer (s.op2n 1 d a b fun x y => if x.toNat ≤ y.toNat then y else x)
/-- SEQ (R122). -/
def execSeq (d a b : Opd) (s : State) : Out := answer (s.op2 1 d a b fun x y => truth (decide (x = y)))
/-- SNE (R122). -/
def execSne (d a b : Opd) (s : State) : Out := answer (s.op2 1 d a b fun x y => truth (decide (x ≠ y)))
/-- SLT (R122). -/
def execSlt (d a b : Opd) (s : State) : Out := answer (s.op2 1 d a b fun x y => truth (decide (x.toInt < y.toInt)))
/-- SLTN (R122). -/
def execSltn (d a b : Opd) (s : State) : Out := answer (s.op2n 1 d a b fun x y => truth (decide (x.toNat < y.toNat)))
/-- SLTI (R122). -/
def execSlti (d a : Opd) (imm : BitVec 20) (s : State) : Out :=
  answer (s.op1 1 d a fun x => truth (decide (x.toInt < imm.toInt)))
/-- SEL (R124). -/
def execSel (d a b : Opd) (n : Fin 8) (inv : Bool) (s : State) : Out :=
  answer (s.op2 1 d a b fun x y => if s.pb n != inv then x else y)
/-- CLZ (R122). -/
def execClz (d a : Opd) (s : State) : Out := answer (s.op1 1 d a fun x => BitVec.ofNat 64 (clz64 x.toNat))
/-- CTZ (R122). -/
def execCtz (d a : Opd) (s : State) : Out := answer (s.op1 1 d a fun x => BitVec.ofNat 64 (ctz64 x.toNat))
/-- POPC (R122). -/
def execPopc (d a : Opd) (s : State) : Out := answer (s.op1 1 d a fun x => BitVec.ofNat 64 (popcount 64 x.toNat))
/-- BFX (R125). -/
def execBfx (d a : Opd) (pos len1 : Fin 64) (s : State) : Out := answer (s.op1 1 d a fun x => bfxW x pos (len1.val + 1))
/-- BFI (R125): it reads its destination (R121). -/
def execBfi (d a : Opd) (pos len1 : Fin 64) (s : State) : Out :=
  answer (s.op1 1 d a fun x => bfiW (s.ri d) x pos (len1.val + 1))
/-- SEXT (R125). -/
def execSext (d a : Opd) (t : ExtTy) (s : State) : Out := answer (s.op1 1 d a (sextW t))
/-- ADDSH (R122). -/
def execAddsh (d a b : Opd) (sh : Fin 8) (s : State) : Out := answer (s.op2 1 d a b fun x y => x + shlW y sh)

end Sys2Proof.Machine
end

