-- ==== Sys2Proof/Machine/Rng.lean ====
section
/-!
DEFINITION. The generator (spec/04_scalar_vector.md R138 to R140; draws of conversions, spec/03_formats.md R109, R110).
-/
namespace Sys2Proof.Machine

/-- One step of a generator's two words (R138): the output and the new words. -/
def genStep (a b : Word) : Word × Word × Word :=
  let t := a ^^^ (a <<< 23)
  let n := t ^^^ b ^^^ (t >>> 17) ^^^ (b >>> 26)
  (n + b, b, n)

/-- The generator of the running agent: RNGA and RNGB (R138). -/
def State.gen (s : State) : Word × Word :=
  match s.cur with
  | .core c _ => ((s.core c).arch.rnga, (s.core c).arch.rngb)
  | .thr t => ((s.thread t).rnga, (s.thread t).rngb)

/-- The generator of the running agent set, at issue (R110, R139). -/
def State.setGen (s : State) (g : Word × Word) : State :=
  match s.cur with
  | .core c _ => s.modArch c fun a => { a with rnga := g.1, rngb := g.2 }
  | .thr t => s.modThread t fun x => { x with rnga := g.1, rngb := g.2 }

/-- One step of the running agent's generator: its output. -/
def State.genNext (s : State) : Word × State :=
  let g := s.gen
  let r := genStep g.1 g.2
  (r.1, s.setGen r.2)

/-- n steps: the outputs in order. -/
def State.genDraws (s : State) : Nat → List Word × State
  | 0 => ([], s)
  | n + 1 =>
    let r := s.genNext
    let q := r.2.genDraws n
    (r.1 :: q.1, q.2)

/-- The 32-bit draw of element i: the low half of a step for an even i, the high half for an odd one (R109). -/
def drawOf (l : List Word) (i : Nat) : Nat := (l.getD (i / 2) 0).toNat / 2 ^ (32 * (i % 2)) % 2 ^ 32

/-- A step as a map of 128 bits, RNGA in the low half: it is linear over bits. -/
def stepBits (x : BitVec 128) : BitVec 128 :=
  let r := genStep (x.extractLsb' 0 64) (x.extractLsb' 64 64)
  r.2.2 ++ r.2.1

/-- The image of x under a linear map given by the images of the unit vectors. -/
def applyCols (cols : List (BitVec 128)) (x : BitVec 128) : BitVec 128 :=
  ((List.range 128).zip cols).foldl (fun acc c => if x.getLsbD c.1 then acc ^^^ c.2 else acc) 0

/-- The map of 2^k steps, as the images of the unit vectors (R139): k squarings of one step's map. -/
def jumpCols : Nat → List (BitVec 128)
  | 0 => (List.range 128).map fun i => stepBits ((1 : BitVec 128) <<< i)
  | k + 1 =>
    let c := jumpCols k
    c.map (applyCols c)

/-- A generator 2^k steps on (R139). -/
def genJump (k : Nat) (g : Word × Word) : Word × Word :=
  let r := applyCols (jumpCols k) (g.2 ++ g.1)
  (r.extractLsb' 0 64, r.extractLsb' 64 64)

/-- The top bits that RNGF keeps (R139). -/
def rngBits : FpTy → Nat
  | .f32 => 24
  | .f16 => 11
  | .bf16 => 8

/-- RNGN (R139). -/
def execRngn (d : Opd) (s : State) : Out :=
  answer (let r := s.genNext; r.2.result 1 d r.1)

/-- RNGF (R139): exact, so no flag. -/
def execRngf (t : FpTy) (d : Opd) (s : State) : Out :=
  answer
    (let r := s.genNext
     let p := rngBits t
     let q := r.1.toNat / 2 ^ (64 - p)
     r.2.result 4 d (BitVec.ofNat 64 (if q = 0 then 0 else (round t.ty .ne (Frac.scaled q (-(p : Int)))).code)))

/-- RNGJ (R139). -/
def execRngj (d : Opd) (k : RngK) (s : State) : Out :=
  answer
    (let n := match k with
       | .reg a => (s.ri a).toNat % 128
       | .imm k => k.val
     let g := genJump n s.gen
     (s.setGen g).result 8 d g.1)

end Sys2Proof.Machine
end

