-- ==== Sys2Proof/Machine/ScalarFp.lean ====
section
/-!
DEFINITION. The scalar floating-point operations (spec/04_scalar_vector.md R119, R120, R126 to R130).
-/
namespace Sys2Proof.Machine

/-- An FP source: the code in the low bits of the register (R119). -/
def State.rf (s : State) (t : FpTy) (o : Opd) : Nat := (s.rd t.ty o).toNat % 2 ^ width t.ty

/-- An FP op of two sources. -/
def State.fop2 (s : State) (n : Nat) (t : FpTy) (d a b : Opd) (f : Ty → Nat → Nat → Rnd) : Res :=
  s.fpDone n d (f t.ty (s.rf t a) (s.rf t b))

/-- A compare's outcome as an integer with its flags (R119, R128). -/
def cmpRnd (c : CmpC) (t : Ty) (a b : Nat) : Rnd :=
  let r := fpCmp t c a b
  { code := if r.1 then 1 else 0, fl := r.2 }

/-- The register value of a conversion's result: integers extended to 64 bits, codes with zeros (R129). -/
def convWord (t : Ty) (code : Nat) : Nat := if t.isSigned then ofInt 64 (toSigned (width t) code) else code % 2 ^ width t

/-- FADD (R126). -/
def execFadd (t : FpTy) (d a b : Opd) (s : State) : Out := answer (s.fop2 4 t d a b fpAdd)
/-- FSUB (R126). -/
def execFsub (t : FpTy) (d a b : Opd) (s : State) : Out := answer (s.fop2 4 t d a b fpSub)
/-- FMUL (R126). -/
def execFmul (t : FpTy) (d a b : Opd) (s : State) : Out := answer (s.fop2 5 t d a b fpMul)
/-- FFMA (R126): it reads its destination (R121). -/
def execFfma (t : FpTy) (d a b : Opd) (s : State) : Out := answer (s.fop2 5 t d a b fun ty x y => fpFma ty x y (s.rf t d))
/-- FMIN (R128). -/
def execFmin (t : FpTy) (d a b : Opd) (s : State) : Out := answer (s.fop2 4 t d a b fun ty x y => minMaxCode ty false x y)
/-- FMAX (R128). -/
def execFmax (t : FpTy) (d a b : Opd) (s : State) : Out := answer (s.fop2 4 t d a b fun ty x y => minMaxCode ty true x y)
/-- FEQ (R126, R128). -/
def execFeq (t : FpTy) (d a b : Opd) (s : State) : Out := answer (s.fop2 4 t d a b (cmpRnd .eq))
/-- FLT (R126, R128). -/
def execFlt (t : FpTy) (d a b : Opd) (s : State) : Out := answer (s.fop2 4 t d a b (cmpRnd .lt))
/-- FLE (R126, R128). -/
def execFle (t : FpTy) (d a b : Opd) (s : State) : Out := answer (s.fop2 4 t d a b (cmpRnd .le))

/-- FCVT (R129): one generator step where it rounds stochastically (R109); a trapping conversion completes nothing (R113). -/
def execFcvt (t2 t1 : Ty) (d a : Opd) (s : State) : Out :=
  answer
    (let code := (s.rd t1 a).toNat % 2 ^ width t1
     let stoch := bit s.fmt.toNat 17 && !t2.isInt && narrowing t1 t2
     let (draw, s') := if stoch then s.genNext else (0, s)
     let r := convertFmt s.fmt t1 t2 code (drawOf [draw] 0)
     match s'.fpDone 4 d { r with code := convWord t2 r.code } with
     | .ok q => .ok q
     | .error f => .error { f with st := s })

/-- FSGN (R130). -/
def execFsgn (m : SgnMode) (t : FpTy) (d a b : Opd) (s : State) : Out :=
  answer (s.fpDone 1 d (fpSgn t.ty m (s.rf t a) (s.rf t b)))

/-- FCLASS (R130). -/
def execFclass (t : FpTy) (d a : Opd) (s : State) : Out := answer (s.result 4 d (BitVec.ofNat 64 (fpClass t.ty (s.rf t a))))

end Sys2Proof.Machine
end

