-- ==== Sys2Proof/Machine/System.lean ====
section
/-!
DEFINITION. Predicates, CHECK and the special registers (spec/04_scalar_vector.md R131 to R137, spec/01_machine.md R29 to R31,
spec/03_formats.md R111 to R113).
-/
namespace Sys2Proof.Machine

/-! ### Predicates and CHECK -/

/-- Is element j active for PSET (R131)? -/
def psetActive (m : PsetMode) (a : Word) (j : Nat) : Bool :=
  match m with
  | .all => a != 0
  | .first => decide (j < a.toNat)
  | .bits => decide (j < 64) && bit a.toNat j

/-- PSET's predicate for an element size in bytes (R131). -/
def psetPred (m : PsetMode) (a : Word) (e : Nat) : Pred :=
  BitVec.ofNat 128 ((List.range 128).foldr (fun i acc => (if psetActive m a (i / e) then 1 else 0) + 2 * acc) 0)

/-- PSET (R131). In thread form the single bit is element 0's. -/
def execPset (m : PsetMode) (e : Fin 4) (pd : Fin 8) (a : Opd) (s : State) : Out :=
  answer (s.wp 1 pd (BitVec.allOnes 128) (psetPred m (s.ri a) (2 ^ e.val))).done

/-- PLOG's function (R132). -/
def plogFun (op : PlogOp) (x y : Pred) : Pred :=
  match op with
  | .and => x &&& y
  | .or => x ||| y
  | .xor => x ^^^ y
  | .andn => x &&& ~~~y
  | .orn => x ||| ~~~y
  | .not => ~~~x

/-- PLOG (R132). -/
def execPlog (op : PlogOp) (pd pa pb : Fin 8) (s : State) : Out :=
  answer (s.wp 1 pd (BitVec.allOnes 128) (plogFun op (s.rp pa) (s.rp pb))).done

/-- CHECK (R134): equal values do nothing; unequal ones trap with their exclusive or. -/
def execCheck (a b : Opd) (s : State) : Out :=
  answer (if s.ri a = s.ri b then s.done else trapRes s 0x20 (s.ri a ^^^ s.ri b).toNat)

/-! ### Special registers -/

/-- The energy of an agent's job (R29, R356). -/
def State.energyOf (s : State) (a : Agent) : Nat :=
  match s.jobOf a with
  | some n => (s.slot n).elim 0 (·.energy)
  | none => 0

/-- GPOS (R29). -/
def State.gpos (s : State) (a : Agent) : Nat :=
  match a with
  | .core c _ => (s.core c).gpos
  | .thr t => t.thread + (s.group t.unit t.group).idx * 2 ^ 16

/-- LEAVEGNT (R29). -/
def State.leavegnt (s : State) (a : Agent) : Nat :=
  match a with
  | .core c _ => (s.core c).eng.granted
  | .thr t => (s.group t.unit t.group).granted

/-- The value SRD reads (R29, R136); PTIME takes the die's copy (R302). -/
def State.srdRead (s : State) (n : Nat) : Word × State :=
  let a := s.cur
  let card := s.cardAt a
  let e := s.eng a.dom
  let nat (x : Nat) : Word × State := (BitVec.ofNat 64 x, s)
  match n with
  | 0x000 => nat s.fmt.toNat
  | 0x010 => nat (e.cycle s.ptime)
  | 0x011 => let r := s.diePtime (Dom.die a.dom); (BitVec.ofNat 64 r.1, r.2)
  | 0x012 => nat (Card.jobid card)
  | 0x013 => nat (Card.part card)
  | 0x014 => nat (if Card.world card then 1 else 0)
  | 0x015 => nat (s.gpos a)
  | 0x020 => nat (s.energyOf a)
  | 0x021 => (e.freeze, s)
  | 0x022 => nat (s.leavegnt a)
  | 0x043 => nat (s.cfg 0x10 8)
  | n => match a with
    | .core c _ =>
      let x := s.core c
      match n with
      | 0x001 => let m := s.shape c; nat (m.1 + m.2 * 2 ^ 8)
      | 0x002 => nat (x.fmapstat (s.shape c))
      | 0x003 => nat x.arch.suspect.toNat
      | 0x004 => nat x.arch.fflags.toNat
      | 0x030 => nat x.tcause.toNat
      | 0x031 => (x.tpc, s)
      | 0x032 => (x.tval, s)
      | 0x035 => nat x.ckstat
      | 0x040 => (x.arch.rnga, s)
      | 0x041 => (x.arch.rngb, s)
      | 0x042 => nat x.arch.lutsel.toNat
      | 0x044 => nat x.arch.drift.toNat
      | _ => nat 0
    | .thr t =>
      let x := s.thread t
      let g := s.group t.unit t.group
      match n with
      | 0x004 => nat x.fflags.toNat
      | 0x030 => nat x.tcause.toNat
      | 0x031 => (x.tpc, s)
      | 0x032 => (x.tval, s)
      | 0x033 => (x.tmask, s)
      | 0x034 => (g.thandler, s)
      | 0x035 => nat (if g.ssat then 2 ^ 31 else 0)
      | 0x040 => (x.rnga, s)
      | 0x041 => (x.rngb, s)
      | 0x042 => nat g.lutsel.toNat
      | 0x044 => nat g.drift.toNat
      | _ => nat 0

/-- SRD (R136). Decode has refused the numbers of R30. -/
def execSrd (d : Opd) (n : BitVec 12) (s : State) : Out :=
  answer (let r := s.srdRead n.toNat; r.2.result 1 d r.1)

/-- A write of FMT (R112, R44, R113): refused values trap; four bundles of shadow in bundle form, at once in thread form. -/
def State.writeFmt (s : State) (v : Word) : Res :=
  let f : BitVec 32 := v.setWidth 32
  if fmtRefused f then trapRes s 0x04 f.toNat
  else match s.cur with
    | .core c _ => .ok (s.modArch c fun a => { a with fmtPend := a.fmtPend ++ [(f, 4)] })
    | .thr t => .ok (s.modThread t fun x => { x with fmt := f })

/-- A group register's write staged to the end of the unit's cycle (R137, R156). -/
def State.stage (s : State) (t : Tid) (n : Nat) (v : Word) : State :=
  s.modGroup t.unit t.group fun g => { g with staged := g.staged ++ [(t.thread, n, v)] }

/-- A selection of the active activation slot (R44, R156). -/
def State.selectLut (s : State) (v : Word) : State :=
  match s.cur with
  | .core c _ => s.modArch c fun a => { a with lutPend := a.lutPend ++ [(v.setWidth 2, 4)] }
  | .thr t => s.stage t 0x042 v

/-- A thread's own registers written at once (R137). -/
def Thread.swr (x : Thread) (n : Nat) (v : Word) : Thread :=
  match n with
  | 0x004 => { x with fflags := v.setWidth 5 }
  | 0x030 => { x with tcause := v.setWidth 8 }
  | 0x031 => { x with tpc := v }
  | 0x032 => { x with tval := v }
  | 0x040 => { x with rnga := v }
  | 0x041 => { x with rngb := v }
  | _ => x

/-- A group register of thread form (R137). -/
def isGroupReg (n : Nat) : Bool := n == 0x034 || n == 0x035 || n == 0x042 || n == 0x044

/-- SWR (R137). -/
def State.swrAt (s : State) (n : Nat) (v : Word) : Res :=
  if n = 0x000 then
    match s.writeFmt v with
    | .ok s => s.done
    | .error f => .error f
  else if n = 0x042 then (s.selectLut v).done
  else match s.cur with
    | .core _ _ => (s.defer (.swr n v)).done
    | .thr t => if isGroupReg n then (s.stage t n v).done else (s.modThread t fun x => x.swr n v).done

/-- SWR (R137). -/
def execSwr (n : BitVec 12) (a : Opd) (s : State) : Out := answer (s.swrAt n.toNat (s.ri a))

end Sys2Proof.Machine
end

