-- ==== Sys2Proof/Machine/Vector.lean ====
section
/-!
DEFINITION. The vector operations (spec/04_scalar_vector.md R141 to R148) with the latency classes of R37 and R80. They exist in bundle
form only.
-/
namespace Sys2Proof.Machine

/-! ### Shared forms -/

/-- The elements of a vector source; bits [7:6] of a padded six-bit element are ignored (R103, R141). -/
def State.elems (s : State) (t : Ty) (o : Opd) (n : Nat) : List Nat :=
  (velems (s.rv t o) (vw t) n).map fun x => x % 2 ^ width t

/-- The integer an element denotes (R91, R141). -/
def elemInt (t : Ty) (x : Nat) : Int := if t.isSigned then toSigned (width t) x else (x % 2 ^ width t : Nat)

/-- An exact integer result as an element: modulo 2^w, or saturated (R142). -/
def intElem (v : VHdr) (x : Int) : Nat := ofInt (width v.ty) (if v.sat then sat v.ty x else x)

/-- Element results where the governing predicate is set (R20). -/
def State.governed (s : State) (v : VHdr) (xs : List Nat) : List (Option Nat) :=
  (List.range xs.length).map fun i => if active (s.rp v.p) (vw v.ty) i then some (xs.getD i 0) else none

/-- An element-wise op of one source. -/
def State.vmap1 (s : State) (n : Nat) (v : VHdr) (d a : Opd) (f : Nat → Nat) : Res :=
  (s.wvElems n d (vw v.ty) (s.governed v ((s.elems v.ty a (vcount v)).map f))).done

/-- An element-wise op of two sources. -/
def State.vmap2 (s : State) (n : Nat) (v : VHdr) (d a b : Opd) (f : Nat → Nat → Nat) : Res :=
  (s.wvElems n d (vw v.ty) (s.governed v (List.zipWith f (s.elems v.ty a (vcount v)) (s.elems v.ty b (vcount v))))).done

/-- Element results with flags: the flags of the active elements are raised (R120). -/
def State.vrounds (s : State) (n : Nat) (d : Opd) (p : Fin 8) (w : Nat) (rs : List Rnd) : Res :=
  let on (i : Nat) : Bool := active (s.rp p) w i
  let ix := List.range rs.length
  let get (i : Nat) : Rnd := rs.getD i { code := 0, fl := 0 }
  let fl := (ix.filter on).foldl (fun f i => f ||| (get i).fl) 0
  ((s.wvElems n d w (ix.map fun i => if on i then some (get i).code else none)).raise n fl).done

/-- An FP element-wise op of two sources (R126, R142). -/
def State.vfmap2 (s : State) (n : Nat) (v : VHdr) (d a b : Opd) (f : Ty → Nat → Nat → Rnd) : Res :=
  s.vrounds n d v.p (vw v.ty) (List.zipWith (f v.ty) (s.elems v.ty a (vcount v)) (s.elems v.ty b (vcount v)))

/-- A compare: every predicate bit of an active element takes the outcome (R20, R143). -/
def State.vcompare (s : State) (n : Nat) (v : VHdr) (pd : Fin 8) (a b : Opd) (f : Nat → Nat → Bool × BitVec 5) : Res :=
  let w := vw v.ty
  let rs := List.zipWith f (s.elems v.ty a (vcount v)) (s.elems v.ty b (vcount v))
  let out (i : Nat) : Option Nat := if active (s.rp v.p) w i then
      some (if (rs.getD i (false, 0)).1 then 2 ^ (w / 8) - 1 else 0)
    else none
  let r := vbuild (w / 8) ((List.range rs.length).map out)
  let fl := ((List.range rs.length).filter fun i => active (s.rp v.p) w i).foldl (fun f i => f ||| (rs.getD i (false, 0)).2) 0
  ((s.wp n pd (r.1.setWidth 128) (r.2.setWidth 128)).raise n fl).done

/-- VCMP's outcome (R143). -/
def intCmp (t : Ty) (c : CmpC) (a b : Nat) : Bool :=
  let x := elemInt t a
  let y := elemInt t b
  match c with
  | .eq => x == y
  | .ne => x != y
  | .lt => decide (x < y)
  | .le => decide (x ≤ y)
  | .gt => decide (y < x)
  | .ge => decide (y ≤ x)
  | .un => false
  | .or => false

/-- A write of every element whatever the predicate holds. -/
def State.vall (s : State) (n : Nat) (v : VHdr) (d : Opd) (xs : List Nat) : Res := (s.wvElems n d (vw v.ty) (xs.map some)).done

/-- A governed write of data moved. -/
def State.vmove (s : State) (n : Nat) (v : VHdr) (d : Opd) (xs : List Nat) : Res := (s.wvElems n d (vw v.ty) (s.governed v xs)).done

/-- Two lists taken in turn. -/
def interleave : List Nat → List Nat → List Nat
  | a :: as, b :: bs => a :: b :: interleave as bs
  | _, _ => []

/-- Every second element from the first. -/
def evens : List Nat → List Nat
  | [] => []
  | [a] => [a]
  | a :: _ :: t => a :: evens t

/-- The low 32 bits of an element and the four byte products of VDOT4 (R147). -/
def dot4 (v : VHdr) (d a b : Nat) : Nat :=
  let t32 : Ty := if v.ty.isSigned then .i32 else .n32
  let byteOf (x i : Nat) : Int := elemInt v.ty (x / 2 ^ (8 * i) % 256)
  let sum := elemInt t32 d + byteOf a 0 * byteOf b 0 + byteOf a 1 * byteOf b 1 + byteOf a 2 * byteOf b 2 + byteOf a 3 * byteOf b 3
  ofInt 32 (if v.sat then Machine.sat t32 sum else sum)

/-- The tile an accumulator operand names. -/
def tileNo : Opd → Nat
  | .acc n => n.val
  | _ => 0

/-- An exposed result of the running core. -/
def State.putCur (s : State) (n : Nat) (l : Land) : State :=
  match s.cur with
  | .core c _ => s.put c n l
  | .thr _ => s

/-- A tile of the running core. -/
def State.tileCur (s : State) (t : Nat) : List (BitVec 32) :=
  match s.cur with
  | .core c _ => (s.core c).tile t
  | .thr _ => List.replicate 1024 0

/-! ### Arithmetic and logic (R142) -/

/-- VNOP (R82). -/
def execVnop (_h : Bool) (s : State) : Out := answer s.done
/-- VADD. -/
def execVadd (v : VHdr) (d a b : Opd) (s : State) : Out :=
  answer (s.vmap2 2 v d a b fun x y => intElem v (elemInt v.ty x + elemInt v.ty y))
/-- VSUB. -/
def execVsub (v : VHdr) (d a b : Opd) (s : State) : Out :=
  answer (s.vmap2 2 v d a b fun x y => intElem v (elemInt v.ty x - elemInt v.ty y))
/-- VMUL. -/
def execVmul (v : VHdr) (d a b : Opd) (s : State) : Out :=
  answer (s.vmap2 3 v d a b fun x y => intElem v (elemInt v.ty x * elemInt v.ty y))
/-- VMULH. -/
def execVmulh (v : VHdr) (d a b : Opd) (s : State) : Out :=
  answer (s.vmap2 3 v d a b fun x y => ofInt (width v.ty) (elemInt v.ty x * elemInt v.ty y / 2 ^ width v.ty))
/-- VMIN. -/
def execVmin (v : VHdr) (d a b : Opd) (s : State) : Out :=
  answer (s.vmap2 2 v d a b fun x y => if elemInt v.ty x ≤ elemInt v.ty y then x else y)
/-- VMAX. -/
def execVmax (v : VHdr) (d a b : Opd) (s : State) : Out :=
  answer (s.vmap2 2 v d a b fun x y => if elemInt v.ty x ≤ elemInt v.ty y then y else x)
/-- VABS. -/
def execVabs (v : VHdr) (d a : Opd) (s : State) : Out :=
  answer
    (if v.ty.isFp then s.vrounds 2 d v.p (vw v.ty) ((s.elems v.ty a (vcount v)).map (fpAbs v.ty))
     else s.vmap1 2 v d a fun x => intElem v (elemInt v.ty x).natAbs)
/-- VAND. -/
def execVand (v : VHdr) (d a b : Opd) (s : State) : Out := answer (s.vmap2 2 v d a b fun x y => x &&& y)
/-- VOR. -/
def execVor (v : VHdr) (d a b : Opd) (s : State) : Out := answer (s.vmap2 2 v d a b fun x y => x ||| y)
/-- VXOR. -/
def execVxor (v : VHdr) (d a b : Opd) (s : State) : Out := answer (s.vmap2 2 v d a b fun x y => x ^^^ y)
/-- VSHL. -/
def execVshl (v : VHdr) (d a b : Opd) (s : State) : Out :=
  answer (s.vmap2 2 v d a b fun x y => intElem v (elemInt v.ty x * 2 ^ (y % width v.ty)))
/-- VSHR. -/
def execVshr (v : VHdr) (d a b : Opd) (s : State) : Out := answer (s.vmap2 2 v d a b fun x y => x / 2 ^ (y % width v.ty))
/-- VSRA. -/
def execVsra (v : VHdr) (d a b : Opd) (s : State) : Out :=
  answer (s.vmap2 2 v d a b fun x y => ofInt (width v.ty) (toSigned (width v.ty) x / 2 ^ (y % width v.ty)))
/-- VFADD. -/
def execVfadd (v : VHdr) (d a b : Opd) (s : State) : Out := answer (s.vfmap2 4 v d a b fpAdd)
/-- VFSUB. -/
def execVfsub (v : VHdr) (d a b : Opd) (s : State) : Out := answer (s.vfmap2 4 v d a b fpSub)
/-- VFMUL. -/
def execVfmul (v : VHdr) (d a b : Opd) (s : State) : Out := answer (s.vfmap2 5 v d a b fpMul)
/-- VFMA: it reads its destination (R121). -/
def execVfma (v : VHdr) (d a b : Opd) (s : State) : Out :=
  answer
    (let n := vcount v
     let ps := List.zipWith (fun x y => (x, y)) (s.elems v.ty a n) (s.elems v.ty b n)
     s.vrounds 5 d v.p (vw v.ty) (List.zipWith (fun q z => fpFma v.ty q.1 q.2 z) ps (s.elems v.ty d n)))
/-- VFMIN (R128). -/
def execVfmin (v : VHdr) (d a b : Opd) (s : State) : Out := answer (s.vfmap2 4 v d a b fun t x y => minMaxCode t false x y)
/-- VFMAX (R128). -/
def execVfmax (v : VHdr) (d a b : Opd) (s : State) : Out := answer (s.vfmap2 4 v d a b fun t x y => minMaxCode t true x y)
/-- VPCNT. -/
def execVpcnt (v : VHdr) (d a : Opd) (s : State) : Out := answer (s.vmap1 2 v d a fun x => popcount (width v.ty) x)
/-- VMOV. -/
def execVmov (v : VHdr) (d a : Opd) (s : State) : Out := answer (s.vmap1 2 v d a id)

/-! ### Compares, selection, conversion (R143 to R145) -/

/-- VCMP (R143). -/
def execVcmp (v : VHdr) (c : CmpC) (pd : Fin 8) (a b : Opd) (s : State) : Out :=
  answer (s.vcompare 2 v pd a b fun x y => (intCmp v.ty c x y, 0))
/-- VFCMP (R143). -/
def execVfcmp (v : VHdr) (c : CmpC) (pd : Fin 8) (a b : Opd) (s : State) : Out := answer (s.vcompare 4 v pd a b (fpCmp v.ty c))
/-- VSEL (R144): every element is written. -/
def execVsel (v : VHdr) (d a b : Opd) (s : State) : Out :=
  answer
    (let n := vcount v
     let xs := s.elems v.ty a n
     let ys := s.elems v.ty b n
     s.vall 2 v d ((List.range n).map fun i => if active (s.rp v.p) (vw v.ty) i then xs.getD i 0 else ys.getD i 0))

/-- VCVT (R145): n elements of the wider type's count; stochastic draws as R109 counts them. -/
def execVcvt (v : VHdr) (t1 : Ty) (d a : Opd) (s : State) : Out :=
  answer
    (let t2 := v.ty
     let n := v.w.bits / max (vw t1) (vw t2)
     let xs := s.elems t1 a n
     if t1.isInt && t2.isInt then
       s.vrounds 4 d v.p (vw t2) (xs.map fun x => { code := intElem v (elemInt t1 x), fl := 0 })
     else
       let stoch := bit s.fmt.toNat 17 && !t2.isInt && narrowing t1 t2
       let (draws, s') := if stoch then s.genDraws ((n + 1) / 2) else ([], s)
       s'.vrounds 4 d v.p (vw t2) ((List.range n).map fun i => convertFmt s.fmt t1 t2 (xs.getD i 0) (drawOf draws i)))

/-! ### Data movement (R146) -/

/-- VSPLAT. -/
def execVsplat (v : VHdr) (d a : Opd) (s : State) : Out :=
  answer (s.vmove 2 v d (List.replicate (vcount v) ((s.rd v.ty a).toNat % 2 ^ width v.ty)))
/-- VEXT: an inactive element leaves the destination. -/
def execVext (v : VHdr) (d a b : Opd) (s : State) : Out :=
  answer
    (let n := vcount v
     let k := (s.ri b).toNat % n
     let x := (s.elems v.ty a n).getD k 0
     if active (s.rp v.p) (vw v.ty) k then s.result 2 d (BitVec.ofNat 64 (convWord v.ty x)) else s.done)
/-- VINS. -/
def execVins (v : VHdr) (d a b : Opd) (s : State) : Out :=
  answer
    (let n := vcount v
     let k := (s.ri b).toNat % n
     let x := (s.rd v.ty a).toNat % 2 ^ width v.ty
     (s.wvElems 2 d (vw v.ty) ((List.range n).map fun i =>
       if i = k && active (s.rp v.p) (vw v.ty) i then some x else none)).done)
/-- VPERM. -/
def execVperm (v : VHdr) (d a b : Opd) (s : State) : Out :=
  answer
    (let n := vcount v
     let xs := s.elems v.ty a n
     s.vmove 2 v d ((s.elems v.ty b n).map fun k => xs.getD (k % n) 0))
/-- VSLIDE. -/
def execVslide (v : VHdr) (d a b : Opd) (s : State) : Out :=
  answer
    (let n := vcount v
     let xs := s.elems v.ty a n
     let k := (s.ri b).toInt
     s.vmove 2 v d ((List.range n).map fun (i : Nat) =>
       if 0 ≤ (i : Int) + k ∧ (i : Int) + k < n then xs.getD ((i : Int) + k).toNat 0 else 0))
/-- VZIP. -/
def execVzip (v : VHdr) (d a b : Opd) (s : State) : Out :=
  answer
    (let n := vcount v
     s.vmove 2 v d (interleave ((s.elems v.ty a n).take (n / 2)) ((s.elems v.ty b n).take (n / 2))))
/-- VUNZIP. -/
def execVunzip (v : VHdr) (d a b : Opd) (s : State) : Out :=
  answer (let n := vcount v; s.vmove 2 v d (evens (s.elems v.ty a n) ++ evens (s.elems v.ty b n)))
/-- VCPRS: the active elements in order, from element 0; the rest keep their value. -/
def execVcprs (v : VHdr) (d a : Opd) (s : State) : Out :=
  answer
    (let n := vcount v
     let xs := s.elems v.ty a n
     let act := (List.range n).filter fun i => active (s.rp v.p) (vw v.ty) i
     (s.wvElems 2 d (vw v.ty) ((List.range n).map fun k => (act[k]?).map fun j => xs.getD j 0)).done)
/-- VIOTA: every element is written. -/
def execViota (v : VHdr) (d : Opd) (s : State) : Out :=
  answer
    (s.vall 2 v d ((List.range (vcount v)).map fun i =>
      ((List.range i).filter fun j => active (s.rp v.p) (vw v.ty) j).length % 2 ^ width v.ty))

/-! ### VDOT4 and accumulator rows (R147, R148) -/

/-- VDOT4 (R147): 32-bit destination elements; it reads its destination (R121). -/
def execVdot4 (v : VHdr) (d a b : Opd) (s : State) : Out :=
  answer
    (let n := v.w.bits / 32
     let words (o : Opd) : List Nat := velems (s.rv v.ty o) 32 n
     let ps := List.zipWith (fun x y => (x, y)) (words a) (words b)
     let xs := List.zipWith (fun q z => dot4 v z q.1 q.2) ps (words d)
     (s.wvElems 5 d 32 ((List.range n).map fun i => if active (s.rp v.p) 32 i then some (xs.getD i 0) else none)).done)

/-- VACCRD (R148). -/
def execVaccrd (v : VHdr) (d a b : Opd) (s : State) : Out :=
  answer
    (let row := (s.ri b).toNat % 32
     let es := s.tileCur (tileNo a)
     s.vmove 3 v d ((List.range (vcount v)).map fun j => (es.getD (32 * row + j) 0).toNat))

/-- VACCWR (R148). -/
def execVaccwr (v : VHdr) (d a b : Opd) (s : State) : Out :=
  answer
    (let row := (s.ri b).toNat % 32
     let xs := s.elems v.ty a (vcount v)
     let on := (List.range (vcount v)).filter fun j => active (s.rp v.p) 32 j
     (s.putCur 3 (.acc (tileNo d) (on.map fun j => (32 * row + j, BitVec.ofNat 32 (xs.getD j 0))))).done)

end Sys2Proof.Machine
end

