-- ==== Sys2Proof/Machine/Reduce.lean ====
section
/-!
DEFINITION. The reduction latches (spec/04_scalar_vector.md R149 to R151).
-/
namespace Sys2Proof.Machine

/-- The f32 code of an FP element, a signalling NaN kept signalling (R149, R150). -/
def latchElem (t : Ty) (x : Nat) : Nat :=
  if t == .f32 then x
  else match decode t x with
    | .nan true => 0x7F800001
    | v => (roundNE .f32 v).code

/-- One combination of a tree: 0 add, 1 maximum, 2 minimum; on f32 codes or exact integers, with the flags raised (R149). -/
def treeCombine (op : Nat) (fp : Bool) (x y : Int) : Int × BitVec 5 :=
  if fp then
    let r := match op with
      | 0 => fpAdd .f32 x.toNat y.toNat
      | 1 => minMaxCode .f32 true x.toNat y.toNat
      | _ => minMaxCode .f32 false x.toNat y.toNat
    ((r.code : Int), r.fl)
  else match op with
    | 0 => (x + y, 0)
    | 1 => (max x y, 0)
    | _ => (min x y, 0)

/-- One level of the tree. -/
def treeLevel (op : Nat) (fp : Bool) : List (Option Int) → List (Option Int) × BitVec 5
  | x :: y :: t =>
    let r := treeLevel op fp t
    match x, y with
    | some a, some b => let q := treeCombine op fp a b; (some q.1 :: r.1, q.2 ||| r.2)
    | none, y => (y :: r.1, r.2)
    | x, none => (x :: r.1, r.2)
  | l => (l, 0)

/-- The tree over 2^k elements (R149). -/
def tree (op : Nat) (fp : Bool) : Nat → List (Option Int) → Option Int × BitVec 5
  | 0, l => (l.headD none, 0)
  | k + 1, l =>
    let r := treeLevel op fp l
    let q := tree op fp k r.1
    (q.1, r.2 ||| q.2)

/-- RDADD, RDMAX and RDMIN: the tree value and its flags reach the latch six advance cycles on (R149, R150). -/
def State.reduce (s : State) (op : Nat) (v : VHdr) (ps : Fin 4) (a : Opd) : Res :=
  let n := vcount v
  let fp := v.ty.isFp
  let xs := s.elems v.ty a n
  let es := (List.range n).map fun i =>
    if active (s.rp v.p) (vw v.ty) i then
      some (if fp then (latchElem v.ty (xs.getD i 0) : Int) else elemInt v.ty (xs.getD i 0))
    else none
  let r := tree op fp (Nat.log2 n) es
  match r.1 with
  | none => s.done
  | some x => ((s.putCur 6 (.latch ps.val op v.ty v.sat x)).raise 6 r.2).done

/-- RDADD (R149). -/
def execRdadd (v : VHdr) (ps : Fin 4) (a : Opd) (s : State) : Out := answer (s.reduce 0 v ps a)
/-- RDMAX (R149). -/
def execRdmax (v : VHdr) (ps : Fin 4) (a : Opd) (s : State) : Out := answer (s.reduce 1 v ps a)
/-- RDMIN (R149). -/
def execRdmin (v : VHdr) (ps : Fin 4) (a : Opd) (s : State) : Out := answer (s.reduce 2 v ps a)

/-- A latch read and marked empty (R151); an empty latch reads as zero. -/
def State.takeLatch (s : State) (n : Nat) : Word × State :=
  match s.cur with
  | .core c _ => ((mget none (s.core c).arch.ps n).getD 0, s.modArch c fun a => { a with ps := mset none a.ps n none })
  | .thr _ => (0, s)

/-- The latch bits in an s register (R151). -/
def latchWord (t : Ty) (x : Word) : Word :=
  if width t = 64 then x else BitVec.ofNat 64 (convWord t (x.toNat % 2 ^ 32))

/-- RDMOV (R151). -/
def execRdmov (v : VHdr) (d : Opd) (ps : Fin 4) (s : State) : Out :=
  answer
    (let r := s.takeLatch ps.val
     match d with
     | .vec _ =>
       if (s.rp v.p).getLsbD 0 then (r.2.wvElems 2 d (width v.ty) [some (r.1.toNat % 2 ^ width v.ty)]).done else r.2.done
     | d => r.2.result 2 d (latchWord v.ty r.1))

end Sys2Proof.Machine
end

