-- ==== Sys2Proof/Machine/Matrix.lean ====
section
/-!
DEFINITION. The matrix array: MMA, the tile ops, SETFMT, MSTEST, FMAPRD and the tile walker (spec/05_matrix.md R158 to R191).
-/
namespace Sys2Proof.Machine

/-- What a bundle-only op does on the running core. -/
def State.onCore (s : State) (f : Nat → Res) : Res :=
  match s.cur with
  | .core c _ => f c
  | .thr _ => s.done

/-! ### What an MMA accepts (R167) -/

/-- Types of the byte row of R167 with f32 accumulation. -/
def isMmaByte (t : Ty) : Bool := t == .e4m3 || t == .e5m2 || t == .e3m2 || t == .e2m3 || t == .m8 || t == .m6

/-- The operand types and scale mode of FMT: A type, B type, f32 accumulation, A scaled, B scaled (R111). -/
structure MmaFmt where
  a : Ty
  b : Ty
  f32 : Bool
  sa : Bool
  sb : Bool
  deriving DecidableEq, Repr

/-- The fields of FMT that an MMA reads (R111); codes R112 has refused read as e8m0, which no row of R167 lists. -/
def mmaFmt (f : BitVec 32) : MmaFmt :=
  let x := f.toNat
  let sc := bits x 14 12
  { a := (tyOf (bits x 4 0)).getD .e8m0, b := (tyOf (bits x 9 5)).getD .e8m0, f32 := bits x 11 10 == 1, sa := sc == 1 || sc == 2,
    sb := sc == 1 || sc == 3 }

/-- Does R167 list the combination? -/
def MmaFmt.legal (m : MmaFmt) : Bool :=
  let int (t : Ty) : Bool := t == .i8 || t == .n8
  let half (t : Ty) : Bool := t == .f16 || t == .bf16
  let byteSide (t : Ty) (scaled : Bool) : Bool := isMmaByte t || (t == .i8 && scaled)
  if !m.f32 then int m.a && int m.b && !m.sa && !m.sb
  else (half m.a && half m.b && !m.sa && !m.sb) || (byteSide m.a m.sa && byteSide m.b m.sb) || (m.a == .e2m1 && m.b == .e2m1)

/-- Elements per operand row: K of R167 and R169. -/
def MmaFmt.k (m : MmaFmt) : Nat := 512 / layoutBits m.a false

/-! ### Operand panels (R161 to R163) -/

/-- Bytes a panel occupies (R162). -/
def panelBytes (scaled : Bool) : Nat := if scaled then 2176 else 2048

/-- The core whose scratchpad a panel address names (R163). -/
def panelCore (c : Nat) (p : Word) : Nat := if bit p.toNat 24 then c / 8 * 8 + bits p.toNat 23 21 else c

/-- Does the panel address break R163? -/
def State.panelBad (s : State) (c : Nat) (p : Word) (scaled : Bool) : Bool :=
  let off := bits p.toNat 20 0
  let j := panelCore c p
  bits p.toNat 63 25 != 0 || off % 64 != 0 || (bit p.toNat 24 && (s.core j).job != (s.core c).job)
    || (s.core j).scratchSize < off + panelBytes scaled

/-- TVAL of a failing panel address (R163). -/
def panelTval (p : Word) (isB : Bool) : Nat :=
  bits p.toNat 24 0 + (if isB then 2 ^ 32 else 0) + (if bits p.toNat 63 25 != 0 then 2 ^ 33 else 0)

/-- The ranges that n rows of a panel take, with its scale blocks (R163, R164), as offset and bytes. -/
def panelRanges (off n blocks : Nat) (scaled : Bool) : List (Nat × Nat) :=
  (off, 64 * n) :: (if scaled then (List.range n).map fun r => (off + 2048 + 4 * r, blocks) else [])

/-- Byte offsets of the rows below n of a panel, and of the scale bytes used (R161, R162). -/
def panelOffsets (off n blocks : Nat) (scaled : Bool) : List Nat :=
  (List.range (64 * n)).map (fun i => off + i)
    ++ (if scaled then (List.range n).flatMap fun r => (List.range blocks).map fun b => off + 2048 + 4 * r + b else [])

/-- The lowest poisoned byte that an MMA would read of a panel (R436). -/
def State.panelPoison (s : State) (j off n blocks : Nat) (scaled : Bool) : Option Nat :=
  if (s.core j).poison = [] then none
  else (panelOffsets off n blocks scaled).find? fun o => (s.core j).poison.contains (o / 64)

/-! ### Elements -/

/-- An element of a panel: its value, whether its code is a zero, whether the value is a NaN or infinite, and whether it comes from a
signalling NaN. -/
def scaledVal (t : Ty) (scaled : Bool) (x code : Nat) : FVal :=
  let v := decode t code
  if !scaled then v
  else match v with
    | .zero n => .zero n
    | .nan g => .nan g
    | .inf n => if x = 0xFF then .nan false else .inf n
    | .fin q => if x = 0xFF then .nan false else .fin ((scaleOf x).mul (if t == .i8 then q.mul (Frac.pow2 (-6)) else q))

/-- Row r of a panel as values (R161, R162, R169). -/
def panelRow (m : List Host.Cell) (off r k : Nat) (t : Ty) (scaled : Bool) : List FVal :=
  let w := layoutBits t false
  let row := readNat m (off + 64 * r) 64
  (List.range k).map fun i =>
    scaledVal t scaled (byteAt m (off + 2048 + 4 * r + i / 32)).toNat (row / 2 ^ (w * i) % 2 ^ width t)

/-- Is the value a zero? A code is a zero exactly when its value is (R97, R169). -/
def isZeroVal : FVal → Bool
  | .zero _ => true
  | _ => false

/-- Is the value a NaN or infinite? -/
def isNonfin : FVal → Bool
  | .nan _ => true
  | .inf _ => true
  | _ => false

/-- A term of R169: +0 where a factor is a zero. A NaN is signalling where a factor is. -/
def mmaTerm (a b : FVal) : FVal :=
  if isZeroVal a || isZeroVal b then .zero false
  else if a.isNan || b.isNan then .nan (sigFlag a != 0 || sigFlag b != 0)
  else match a, b with
    | .fin x, .fin y => .fin (x.mul y)
    | _, _ => .inf (a.isNeg != b.isNeg)

/-! ### Accumulation (R170, R171) -/

/-- floor(log2 |x|) of a nonzero value (R105). -/
def expOf (q : Frac) : Int :=
  let e : Int := (Nat.log2 q.num.natAbs : Int) - (Nat.log2 q.den : Int)
  if (Frac.pow2 e).le q.abs then e else e - 1

/-- TruncBelow (R105). -/
def truncBelow (q : Frac) (w : Int) : Frac :=
  let m := (q.abs.div (Frac.pow2 w)).floor
  signed q.isNeg ((Frac.int m).mul (Frac.pow2 w))

/-- AccI (R170). -/
def accI (terms : List Int) (c : Int) (sat : Bool) : BitVec 32 :=
  let x := c + terms.foldl (fun a b => a + b) 0
  BitVec.ofInt 32 (if sat then Machine.sat .i32 x else x)

/-- The infinities among values: some +∞, some -∞. -/
def infs (l : List FVal) : Bool × Bool :=
  (l.any fun v => v == .inf false, l.any fun v => v == .inf true)

/-- AccF with the flags of R172. -/
def accF (all : List FVal) : Rnd :=
  let i := infs all
  let sig : BitVec 5 := if all.any fun v => sigFlag v != 0 then 16 else 0
  if all.any FVal.isNan then { code := canon .f32, fl := sig ||| (if i.1 && i.2 then 16 else 0) }
  else if i.1 && i.2 then { code := canon .f32, fl := 16 }
  else if i.1 then { code := infCode .f32 false, fl := 0 }
  else if i.2 then { code := infCode .f32 true, fl := 0 }
  else
    let nz := all.filterMap fun v => match v with
      | .fin q => some q
      | _ => none
    match nz with
    | [] => { code := 0, fl := 0 }
    | q :: qs =>
      let e := qs.foldl (fun m x => max m (expOf x)) (expOf q)
      let s := nz.foldl (fun acc x => acc.add (truncBelow x (e - 99))) (Frac.int 0)
      let exact := nz.foldl (fun acc x => acc.add x) (Frac.int 0)
      let cut : BitVec 5 := if s.eq exact then 0 else 1
      if s.isZero then { code := 0, fl := cut }
      else
        let r := round .f32 .ne s
        { r with fl := r.fl ||| cut }

/-! ### The MX bound (R174) -/

/-- Em of a type (R174). -/
def emOf (t : Ty) : Int :=
  match t with
  | .e4m3 => 8
  | .e5m2 => 15
  | .e3m2 => 4
  | .e2m3 => 2
  | .e2m1 => 2
  | .m8 => 12
  | .m6 => 8
  | .i8 => 1
  | _ => 0

/-- The block exponents of a row: X - 127, or zero on an unscaled side (R174). -/
def rowScales (m : List Host.Cell) (off r blocks : Nat) (scaled : Bool) : List Int :=
  (List.range blocks).map fun b => if scaled then ((byteAt m (off + 2048 + 4 * r + b)).toNat : Int) - 127 else 0

/-- The bound L (R174). -/
def mxBound (sa sb : List Int) (em : Int) (k : Nat) (c : FVal) : Int :=
  let sums := List.zipWith (fun a b => a + b) sa sb
  let p := sums.tail.foldl max (sums.headD 0) + em + 2 + Nat.log2 k
  match c with
  | .fin q => max p (expOf q + 1) + 1
  | _ => p + 1

/-- Does a delivered element exceed its bound (R174)? -/
def overBound (l : Int) (all : List FVal) (code : Nat) : Bool :=
  match decode .f32 code with
  | .fin q => decide (l < expOf q)
  | .zero _ => false
  | _ => !all.any isNonfin && decide (l ≤ 127)

/-! ### MMA (R168 to R174) -/

/-- What one element of an MMA gives: index, bits, flags, BOUND and NONFIN. -/
structure MmaElem where
  idx : Nat
  val : BitVec 32
  fl : BitVec 5
  bound : Bool
  nonfin : Bool
  deriving DecidableEq, Repr

/-- One element of R169 with f32 accumulation. -/
def mmaElemF (m : MmaFmt) (idx : Nat) (ra rb : List FVal) (sa sb : List Int) (cz : Bool) (cbits : BitVec 32) : MmaElem :=
  let terms := List.zipWith mmaTerm ra rb
  let c : FVal := if cz then .zero false else decode .f32 cbits.toNat
  let all := terms ++ [c]
  let r := accF all
  { idx := idx, val := BitVec.ofNat 32 r.code, fl := r.fl,
    bound := (m.sa || m.sb) && overBound (mxBound sa sb (emOf m.a + emOf m.b) m.k c) all r.code,
    nonfin := all.any isNonfin }

/-- One element of R169 with i32 accumulation: no flag, no SUSPECT bit (R170). -/
def mmaElemI (idx : Nat) (ra rb : List FVal) (cz : Bool) (cbits : BitVec 32) (sat : Bool) : MmaElem :=
  let terms := List.zipWith (fun a b => (a.real.mul b.real).num) ra rb
  { idx := idx, val := accI terms (if cz then 0 else cbits.toInt) sat, fl := 0, bound := false, nonfin := false }

/-- The elements of R169: rows below M, columns below N. -/
def mmaElems (m : MmaFmt) (shape : Nat × Nat) (ma mb : List Host.Cell) (oa ob : Nat) (cz sat : Bool) (c : List (BitVec 32)) :
    List MmaElem :=
  let blocks := m.k / 32
  let as := (List.range shape.1).map fun i => (i, panelRow ma oa i m.k m.a m.sa, rowScales ma oa i blocks m.sa)
  let bs := (List.range shape.2).map fun j => (j, panelRow mb ob j m.k m.b m.sb, rowScales mb ob j blocks m.sb)
  as.flatMap fun a => bs.map fun b =>
    let idx := 32 * a.1 + b.1
    if m.f32 then mmaElemF m idx a.2.1 b.2.1 a.2.2 b.2.2 cz (c.getD idx 0) else mmaElemI idx a.2.1 b.2.1 cz (c.getD idx 0) sat

/-- The tile result of an MMA (R172 to R174): flags and SUSPECT ORed, the trap's element the lowest in row, then column. -/
def smOfElems (es : List MmaElem) (d : Nat) (sustrap : Bool) (pc : Word) : SmEntry :=
  let above := es.find? fun e => e.bound
  { tile := d, elems := es.map fun e => (e.idx, e.val), fl := es.foldl (fun f e => f ||| e.fl) 0,
    suspect := (if above.isSome then 1 else 0) + (if es.any fun e => e.nonfin then 2 else 0),
    bound := if sustrap then above.map fun e => BitVec.ofNat 64 (e.idx / 32 + e.idx % 32 * 2 ^ 8 + d * 2 ^ 16) else none, tpc := pc, reads := [] }

/-- MMA on core c (R163, R167 to R175). Panel bytes are read at issue (log 11). -/
def State.mma (s : State) (c : Nat) (cz sat : Bool) (d a b : Opd) (ct : Nat) : Res :=
  let x := s.core c
  let m := mmaFmt x.arch.fmt
  let pa := s.ri a
  let pb := s.ri b
  if !m.legal then trapRes s 0x04 (x.arch.fmt.toNat + 2 ^ 32)
  else if s.panelBad c pa m.sa then trapRes s 0x0E (panelTval pa false)
  else if s.panelBad c pb m.sb then trapRes s 0x0E (panelTval pb true)
  else
    let oa := bits pa.toNat 20 0
    let ob := bits pb.toNat 20 0
    let ca := panelCore c pa
    let cb := panelCore c pb
    let sh := s.shape c
    match s.panelPoison ca oa sh.1 (m.k / 32) m.sa with
    | some o => trapRes s 0x13 o
    | none => match s.panelPoison cb ob sh.2 (m.k / 32) m.sb with
      | some o => trapRes s 0x13 o
      | none =>
        let es := mmaElems m sh (s.core ca).scratch (s.core cb).scratch oa ob cz sat (x.smTile ct)
        let e := smOfElems es (tileNo d) (bit x.arch.fmt.toNat 18) (x.arch.pc.setWidth 64)
        let own (j off n : Nat) (scaled : Bool) : List (Nat × Nat) := if j = c then panelRanges off n (m.k / 32) scaled else []
        let e := { e with reads := own ca oa sh.1 m.sa ++ own cb ob sh.2 m.sb }
        (s.modCore c fun x => { x with sm := x.sm ++ [e], lastMma := some (x.eng.cycle s.ptime - s.skew c) }).done

/-- A tile result with no flag put on the tile pipeline (R159). -/
def State.putTile (s : State) (c t : Nat) (es : List (BitVec 32)) : State :=
  s.modCore c fun x =>
    { x with sm := x.sm ++ [{ tile := t, elems := (List.range es.length).zip es, fl := 0, suspect := 0, bound := none,
                              tpc := x.arch.pc.setWidth 64, reads := [] }] }

/-! ### The operations -/

/-- XNOP (R82). -/
def execXnop (_h : Bool) (s : State) : Out := answer s.done
/-- MMA (R168). -/
def execMma (_h cz sat : Bool) (d a b : Opd) (ct : Fin 16) (s : State) : Out := answer (s.onCore fun c => s.mma c cz sat d a b ct.val)
/-- ACCZ (R177). -/
def execAccz (_h : Bool) (d : Opd) (s : State) : Out :=
  answer (s.onCore fun c => (s.putTile c (tileNo d) (List.replicate 1024 0)).done)
/-- ACCCP (R177): the source is read whole first. -/
def execAcccp (_h tr : Bool) (d a : Opd) (s : State) : Out :=
  answer
    (s.onCore fun c =>
      let es := (s.core c).smTile (tileNo a)
      let out := if tr then (List.range 1024).map fun i => es.getD (32 * (i % 32) + i / 32) 0 else es
      (s.putTile c (tileNo d) out).done)
/-- SETFMT (R178). -/
def execSetfmt (a : Opd) (s : State) : Out :=
  answer
    (match s.writeFmt (s.ri a) with
     | .ok s => s.done
     | .error f => .error f)

/-- A self-test begun (R183). -/
def State.beginTest (s : State) (full : Bool) (d : Opd) : Res :=
  s.onCore fun c =>
    let n := match d with
      | .sx i => i.val
      | _ => 0
    (s.modCore c fun x => { x with mstest := some (full, n, x.arch.pc.setWidth 64) }).done
/-- MSTEST quick (R183). -/
def execMstestQuick (d : Opd) (s : State) : Out := answer (s.beginTest false d)
/-- MSTEST full (R183). -/
def execMstestFull (d : Opd) (s : State) : Out := answer (s.beginTest true d)
/-- FMAPRD (R184). -/
def execFmaprd (_h : Bool) (d : Opd) (n : Fin 4) (s : State) : Out :=
  answer
    (s.onCore fun c =>
      let f := (s.core c).fmap
      s.result 3 d (BitVec.ofNat 64 (match n.val with
        | 0 => f.row.toNat
        | 1 => f.col.toNat
        | 2 => f.last.toNat
        | _ => 0)))

/-! ### The tile walker (R188 to R190) -/

/-- TWB (R189). -/
def execTwb (_h : Bool) (d a : Opd) (s : State) : Out :=
  answer
    (s.onCore fun c =>
      let x := (s.ri a).toNat
      let r := bits x 15 0
      let k := bits x 31 16
      let sh := s.shape c
      let ts := gridTiles 0 0 r k sh.1 sh.2
      (s.modArch c fun y => { y with walker := { active := true, rows := r, cols := k, tiles := ts } }).result 3 d
        (BitVec.ofNat 64 ts.length))

/-- A walker descriptor (R189). -/
def tileDesc (t : Nat × Nat × Nat × Nat) : Word :=
  BitVec.ofNat 64 (t.1 + t.2.1 * 2 ^ 16 + t.2.2.1 * 2 ^ 32 + t.2.2.2 * 2 ^ 40)

/-- Which of n tiles a TWN returns (R190): a free choice at gang position 0, the same at the other positions. Log 150. -/
def State.pickTile (s : State) (c n : Nat) : Nat × State :=
  let first := (s.gangOf c).headD c
  let adv := (s.core c).arch.adv
  let own : Nat × State :=
    let r := s.draw
    let i := r.1.toNat % n
    (i, r.2.modCore c fun x => { x with picks := (adv, i) :: (x.picks.filter fun p => p.1 != adv).take 15 })
  if first = c then own
  else match (s.core first).picks.find? fun p => p.1 == adv with
    | some p => (p.2 % n, s)
    | none => own

/-- TWN (R189, R190). -/
def execTwn (_h : Bool) (d : Opd) (s : State) : Out :=
  answer
    (s.onCore fun c =>
      let w := (s.core c).arch.walker
      if !w.active || w.tiles = [] then s.result 3 d (BitVec.ofNat 64 (2 ^ 63))
      else
        let r := s.pickTile c w.tiles.length
        let t := w.tiles.getD r.1 (0, 0, 0, 0)
        (r.2.modArch c fun y => { y with walker := { w with tiles := dropAt w.tiles r.1 } }).result 3 d (tileDesc t))

/-- TWE (R189). -/
def execTwe (_h : Bool) (d : Opd) (s : State) : Out :=
  answer
    (s.onCore fun c =>
      let w := (s.core c).arch.walker
      (s.modArch c fun y => { y with walker := Walker.reset }).result 3 d
        (BitVec.ofNat 64 (if w.active then w.tiles.length else 0)))

end Sys2Proof.Machine
end

