-- ==== Sys2Proof/Machine/Real.lean ====
section
/-!
DEFINITION. Real functions enclosed in intervals, for the correctly rounded results of spec/04_scalar_vector.md R153. A ball is a
fixed-point number with a bound on its error; a result is rounded when both ends of its interval round alike, at a precision that
doubles until they do.
-/
namespace Sys2Proof.Machine

/-- A real number within e of v, both in units of 2^-p. -/
structure Ball where
  v : Int
  e : Nat
  deriving DecidableEq, Repr

/-- A fraction as a ball of precision p. -/
def Ball.ofFrac (p : Nat) (q : Frac) : Ball := ⟨q.num * (2 ^ p : Nat) / q.den, 1⟩
/-- An integer. -/
def Ball.ofInt (p : Nat) (x : Int) : Ball := ⟨x * (2 ^ p : Nat), 0⟩
/-- Sum. -/
def Ball.add (a b : Ball) : Ball := ⟨a.v + b.v, a.e + b.e⟩
/-- Negation. -/
def Ball.neg (a : Ball) : Ball := ⟨-a.v, a.e⟩
/-- Difference. -/
def Ball.sub (a b : Ball) : Ball := a.add b.neg
/-- Product. -/
def Ball.mul (p : Nat) (a b : Ball) : Ball :=
  ⟨a.v * b.v / (2 ^ p : Nat), (a.v.natAbs * b.e + b.v.natAbs * a.e + a.e * b.e) / 2 ^ p + 2⟩
/-- Quotient by a positive integer. -/
def Ball.divN (a : Ball) (n : Nat) : Ball := ⟨a.v / n, a.e / n + 2⟩
/-- Product by an integer. -/
def Ball.scale (a : Ball) (n : Int) : Ball := ⟨a.v * n, a.e * n.natAbs⟩
/-- Quotient by a ball that keeps away from zero. -/
def Ball.div (p : Nat) (a b : Ball) : Ball :=
  let d := b.v.natAbs - b.e
  ⟨a.v * (2 ^ p : Nat) * b.v.sign / b.v.natAbs, (a.v.natAbs * b.e + b.v.natAbs * a.e) * 2 ^ p / (b.v.natAbs * (if d = 0 then 1 else d)) + 2⟩
/-- The ends of a ball times 2^k. -/
def Ball.ends (p : Nat) (a : Ball) (k : Int) : Frac × Frac :=
  let f (x : Int) : Frac := (Frac.int x).mul (Frac.pow2 (k - p))
  (f (a.v - a.e), f (a.v + a.e))

/-- The sum of t × r^i / (i + 1)… for i below n: each term is the last one times x, divided by the next of the divisors. -/
def seriesSum (p : Nat) (x : Ball) : Nat → (Nat → Nat) → Nat → Ball → Ball → Ball
  | 0, _, _, _, acc => acc
  | n + 1, div, i, term, acc =>
    let t := (term.mul p x).divN (div i)
    seriesSum p x n div (i + 1) t (acc.add t)

/-- exp of a ball of magnitude at most 1: Taylor's series to p + 8 terms, the rest below one unit. -/
def Ball.exp1 (p : Nat) (x : Ball) : Ball :=
  let r := seriesSum p x (p + 8) (fun i => i + 1) 0 (Ball.ofInt p 1) (Ball.ofInt p 1)
  ⟨r.v, r.e + 1⟩

/-- sin of a ball of magnitude at most 1. -/
def Ball.sin1 (p : Nat) (x : Ball) : Ball :=
  let r := seriesSum p (x.mul p x).neg (p / 2 + 8) (fun i => (2 * i + 2) * (2 * i + 3)) 0 x x
  ⟨r.v, r.e + 1⟩

/-- cos of a ball of magnitude at most 1. -/
def Ball.cos1 (p : Nat) (x : Ball) : Ball :=
  let one := Ball.ofInt p 1
  let r := seriesSum p (x.mul p x).neg (p / 2 + 8) (fun i => (2 * i + 1) * (2 * i + 2)) 0 one one
  ⟨r.v, r.e + 1⟩

/-- The sum of term × x^i / (2i + 1) over i from 1, for the inverse tangents. -/
def oddSum (p : Nat) (x : Ball) : Nat → Nat → Ball → Ball → Ball
  | 0, _, _, acc => acc
  | n + 1, i, term, acc =>
    let t := term.mul p x
    oddSum p x n (i + 1) t (acc.add (t.divN (2 * i + 1)))

/-- The inverse hyperbolic tangent of a ball of magnitude at most 1/3. -/
def Ball.atanh1 (p : Nat) (x : Ball) : Ball :=
  let r := oddSum p (x.mul p x) (p / 3 + 8) 1 x x
  ⟨r.v, r.e + 1⟩

/-- The inverse tangent of 1/n, n at least 3. -/
def atanInv (p n : Nat) : Ball :=
  let x := Ball.ofFrac p ⟨1, n⟩
  let r := oddSum p (x.mul p x).neg (p / 3 + 8) 1 x x
  ⟨r.v, r.e + 1⟩

/-- ln 2 = 2 atanh(1/3). -/
def ln2 (p : Nat) : Ball := (Ball.atanh1 p (Ball.ofFrac p ⟨1, 3⟩)).scale 2

/-- π = 16 atan(1/5) - 4 atan(1/239). -/
def piBall (p : Nat) : Ball := ((atanInv p 5).scale 16).sub ((atanInv p 239).scale 4)

/-- e^x: the power of two taken out and the rest, as a ball times 2^k. -/
def expBall (p : Nat) (x : Frac) : Ball × Int :=
  let b := Ball.ofFrac p x
  let l := ln2 p
  let k := b.v / l.v
  (Ball.exp1 p (b.sub (l.scale k)), k)

/-- A rounded value of a real in an interval that shrinks with the precision, none of whose values is exact (R153): the first precision at
which both ends round alike. -/
def roundReal (f : Nat → Frac × Frac) : List Nat → Rnd
  | [] => { code := canon .f32, fl := 0 }
  | p :: ps =>
    let (lo, hi) := f p
    if lo.isZero || hi.isZero || lo.isNeg != hi.isNeg then roundReal f ps
    else
      let a := round .f32 .ne lo
      let b := round .f32 .ne hi
      if a = b && a.fl &&& 1 != 0 then a else roundReal f ps

/-- The precisions tried. -/
def precisions : List Nat := [160, 320, 640, 1280, 2560]

/-- √(n/d) in an interval: exact when both ends agree. -/
def sqrtEnds (q : Frac) (p : Nat) : Frac × Frac :=
  let n := q.num.toNat * 4 ^ p
  let r := Nat.sqrt (n / q.den)
  let lo : Frac := ⟨r, 2 ^ p⟩
  if r * r * q.den = n then (lo, lo) else (lo, ⟨r + 1, 2 ^ p⟩)

/-- √q rounded: exact where the root is (R153). -/
def sqrtRound (q : Frac) : Rnd :=
  let e := sqrtEnds q 400
  if e.1.eq e.2 then round .f32 .ne e.1 else roundReal (sqrtEnds q) precisions

/-- 2^x for a finite x (R153). -/
def exp2Round (x : Frac) : Rnd :=
  if x.isInt then
    (if Frac.le (Frac.int 200) x then round .f32 .ne (Frac.pow2 200)
     else if Frac.le x (Frac.int (-200)) then round .f32 .ne (Frac.pow2 (-200))
     else round .f32 .ne (Frac.pow2 x.floor))
  else if Frac.le (Frac.int 200) x then round .f32 .ne (Frac.pow2 200)
  else if Frac.le x (Frac.int (-200)) then round .f32 .ne (Frac.pow2 (-200))
  else
    let n := x.floor
    let f := x.sub (Frac.int n)
    roundReal (fun p => (Ball.exp1 p ((Ball.ofFrac p f).mul p (ln2 p))).ends p n) precisions

/-- log2 x for a finite x above zero (R153): exact for a power of two. -/
def log2Round (x : Frac) : Rnd :=
  let e := expOf x
  let m := x.mul (Frac.pow2 (-e))
  if m.eq (Frac.int 1) then (if e = 0 then { code := 0, fl := 0 } else round .f32 .ne (Frac.int e))
  else
    let y := (m.sub (Frac.int 1)).div (m.add (Frac.int 1))
    roundReal (fun p =>
      let l := (Ball.atanh1 p (Ball.ofFrac p y)).scale 2
      ((Ball.ofInt p e).add (l.div p (ln2 p))).ends p 0) precisions

/-- The argument reduced by multiples of π/2 (R153 "reduce it exactly"): the multiple modulo 4 and the rest. -/
def reducePi (p : Nat) (x : Frac) : Nat × Ball :=
  let w := p + 160
  let h := (piBall w).divN 2
  let b := Ball.ofFrac w x
  let k := (2 * b.v + h.v) / (2 * h.v)
  let r := b.sub (h.scale k)
  ((k % 4).toNat, ⟨r.v / (2 ^ 160 : Nat), r.e / 2 ^ 160 + 1⟩)

/-- sin x shifted by q quarter turns. -/
def sinQuarter (x : Frac) (q p : Nat) : Frac × Frac :=
  let r := reducePi p x
  let b := match (r.1 + q) % 4 with
    | 0 => r.2.sin1 p
    | 1 => r.2.cos1 p
    | 2 => (r.2.sin1 p).neg
    | _ => (r.2.cos1 p).neg
  b.ends p 0

/-- tanh of a finite x (R153). From 64 on the result lies between 1 - 2^-100 and 1, and every such value rounds alike. -/
def tanhRound (x : Frac) : Rnd :=
  let q := x.abs
  let one := Frac.int 1
  let r :=
    if Frac.le (Frac.int 64) q then round .f32 .ne (one.sub (Frac.pow2 (-100)))
    else roundReal (fun p =>
      let e := expBall (p + 256) (q.mul (Frac.int 2))
      let b : Ball := if 0 ≤ e.2 then e.1.scale (2 ^ e.2.toNat) else e.1
      let o := Ball.ofInt (p + 256) 1
      ((b.sub o).div (p + 256) (b.add o)).ends (p + 256) 0) precisions
  { r with code := withSign .f32 x.isNeg r.code }

/-- 1/(1 + e^-x) of a finite x (R153). Beyond 128 the result lies within 2^-150 of 1 or of 0, and every such value rounds alike. -/
def sigmRound (x : Frac) : Rnd :=
  if Frac.le (Frac.int 128) x then round .f32 .ne ((Frac.int 1).sub (Frac.pow2 (-160)))
  else if Frac.le x (Frac.int (-128)) then round .f32 .ne (Frac.pow2 (-160))
  else
    roundReal (fun p =>
      let w := p + 256
      let e := expBall w x.neg
      let b : Ball := if 0 ≤ e.2 then e.1.scale (2 ^ e.2.toNat) else
        ⟨e.1.v / (2 ^ (-e.2).toNat : Nat), e.1.e / 2 ^ (-e.2).toNat + 2⟩
      let o := Ball.ofInt w 1
      (o.div w (o.add b)).ends w 0) precisions

end Sys2Proof.Machine
end

