-- ==== Sys2Proof/Machine/Uses.lean ====
section
/-!
DEFINITION. The registers that an op reads and writes and the class of its result (spec/01_machine.md R37, R40), and which results a thread
waits for (R364; log 8).
-/
namespace Sys2Proof.Machine

/-- A register as R40 counts them: s, v, p and a registers and reduction latches. -/
inductive Reg where
  | s (n : Nat) | v (n : Nat) | p (n : Nat) | a (n : Nat) | ps (n : Nat)
  deriving DecidableEq, Repr

/-- The register of an operand, if it is one of a core. -/
def opdReg : Opd → List Reg
  | .sx n => [.s n]
  | .vec n => [.v n]
  | .acc n => [.a n]
  | .kreg _ | .imm _ => []

/-- The registers of operands. -/
def opdRegs (l : List Opd) : List Reg := l.flatMap opdReg

/-- A scalar pair's registers (R285). -/
def pairRegs : Opd → List Reg
  | .sx n => [.s n, .s (n + 1)]
  | o => opdReg o

/-- A group of n scalar registers (R200, R296). -/
def groupRegs (n : Nat) : Opd → List Reg
  | .sx r => (List.range n).map fun k => .s (r + k)
  | o => opdReg o

/-- What a branch or trap condition reads. -/
def condReads : Cond → List Reg
  | .z a | .nz a | .lt a | .ge a => opdReg a
  | .p n | .np n => [.p n]

/-- Registers that an op reads and registers that it writes (R37, R40), in bundle form. -/
def opUse (i : Instr) : List Reg × List Reg :=
  match i with
  | .add d a b | .sub d a b | .mul d a b | .mulh d a b | .mulhn d a b | .div d a b | .divn d a b | .rem d a b | .remn d a b
  | .and d a b | .or d a b | .xor d a b | .shl d a b | .shr d a b | .sra d a b | .rol d a b | .ror d a b | .min d a b | .max d a b
  | .minn d a b | .maxn d a b | .seq d a b | .sne d a b | .slt d a b | .sltn d a b | .addsh d a b _ | .fadd _ d a b | .fsub _ d a b
  | .fmul _ d a b | .fmin _ d a b | .fmax _ d a b | .feq _ d a b | .flt _ d a b | .fle _ d a b | .fsgn _ _ d a b | .ld _ d a b
  | .lds _ d a b | .swait _ _ d a b | .aadd _ d a b | .amin _ _ d a b | .amax _ _ d a b | .aand _ d a b | .aor _ d a b | .axor _ d a b
  | .aswp _ d a b | .afadd _ _ _ _ d a b => (opdRegs [a, b], opdReg d)
  | .addi d a _ | .lih d a _ | .andi d a _ | .ori d a _ | .xori d a _ | .shli d a _ | .shri d a _ | .srai d a _ | .slti d a _
  | .clz d a | .ctz d a | .popc d a | .bfx d a _ _ | .sext d a _ | .fcvt _ _ d a | .fclass _ d a | .twb _ d a | .acccp _ _ d a
  | .lutld d a _ | .accld _ _ _ d a | .blkld d a _ | .tgld _ d a => (opdReg a, opdReg d)
  | .bfi d a _ _ => (opdRegs [a, d], opdReg d)
  | .ffma _ d a b | .acas _ d a b => (opdRegs [a, b, d], opdReg d)
  | .acas2 _ _ _ d a b => (opdReg a ++ pairRegs b ++ pairRegs d, pairRegs d)
  | .sel d a b n _ => (opdRegs [a, b] ++ [.p n], opdReg d)
  | .pset _ _ pd a => (opdReg a, [.p pd])
  | .plog _ pd pa pb => ([.p pa, .p pb], [.p pd])
  | .check a b | .syncset a b | .clean a b | .inv a b | .pref _ _ a b | .tlbinvVa a b | .trcevFull _ a b => (opdRegs [a, b], [])
  | .swr _ a | .setfmt a | .ret a | .trcev _ a | .leave a _ | .launch a | .semsig _ a _ _ | .semwait _ a | .blkrel a | .hintinv a
  | .tlbinvAsid a => (opdReg a, [])
  | .srd d _ | .rngn d | .rngf _ d | .rngj d (.imm _) | .twn _ d | .twe _ d | .mstestQuick d | .mstestFull d | .fmaprd _ d _
  | .accz _ d | .rayw d => ([], opdReg d)
  | .rngj d (.reg a) => (opdReg a, opdReg d)
  | .vadd v d a b | .vsub v d a b | .vmul v d a b | .vmulh v d a b | .vmin v d a b | .vmax v d a b | .vand v d a b | .vor v d a b
  | .vxor v d a b | .vshl v d a b | .vshr v d a b | .vsra v d a b | .vfadd v d a b | .vfsub v d a b | .vfmul v d a b | .vfmin v d a b
  | .vfmax v d a b | .vsel v d a b | .vext v d a b | .vins v d a b | .vperm v d a b | .vslide v d a b | .vzip v d a b
  | .vunzip v d a b | .vaccrd v d a b | .vaccwr v d a b => (opdRegs [a, b] ++ [.p v.p], opdReg d)
  | .vfma v d a b | .vdot4 v d a b => (opdRegs [a, b, d] ++ [.p v.p], opdReg d)
  | .vabs v d a | .vcvt v _ d a | .vsplat v d a | .vcprs v d a | .vpcnt v d a | .vmov v d a => (opdReg a ++ [.p v.p], opdReg d)
  | .viota v d => ([.p v.p], opdReg d)
  | .vcmp v _ pd a b | .vfcmp v _ pd a b => (opdRegs [a, b] ++ [.p v.p], [.p pd])
  | .rdadd v ps a | .rdmax v ps a | .rdmin v ps a => (opdReg a ++ [.p v.p], [.ps ps])
  | .rdmov v d ps => ([.ps ps, .p v.p], opdReg d)
  | .mma _ cz _ d a b ct => (opdRegs [a, b] ++ (if cz then [] else [.a ct]), opdReg d)
  | .frcp _ p d a | .frsq _ p d a | .fsqrt _ p d a | .fexp2 _ p d a | .flog2 _ p d a | .fsin _ p d a | .fcos _ p d a
  | .ftanh _ p d a | .fsigm _ p d a | .flut _ p d a => (opdReg a ++ [.p p], opdReg d)
  | .fdiv _ p d a b => (opdRegs [a, b] ++ [.p p], opdReg d)
  | .br (some a) _ => (opdReg a, [])
  | .call (some a) _ => (opdReg a, [.s 63])
  | .call none _ => ([], [.s 63])
  | .brc c _ | .trap (.cond c) _ => (condReads c, [])
  | .st _ d a b | .sts _ d a b | .cpy _ _ d a b | .cpym _ _ d a b => (opdRegs [d, a, b], [])
  | .ldv v d a b | .ldvg v _ _ d a b | .tld v _ d a b => (opdRegs [a, b] ++ [.p v.p], opdReg d)
  | .stv v d a b | .stvs v _ _ d a b | .tst v _ d a b => (opdRegs [d, a, b] ++ [.p v.p], [])
  | .accst _ _ _ a b => (opdRegs [a, b], [])
  | .qpush _ _ d a | .tgst _ d a => (opdRegs [d, a], [])
  | .qpop _ _ d a b | .qtry _ _ d a b => (opdReg a, opdRegs [d, b])
  | .rayqRay q h .. => (groupRegs 4 q ++ opdReg h, [])
  | .rayqSph r q h .. => (groupRegs 4 q ++ opdRegs [h, r], [])
  | .isamp d a b | .cmsamp d a b => (opdRegs [a, b], pairRegs d)
  | .cmseg d a b => (opdReg a ++ pairRegs b, pairRegs d)
  | _ => ([], [])

/-- The exposed latency of an op's result in advance cycles (R37); none for the scoreboarded and interlocked classes. -/
def opLat (i : Instr) : Option Nat :=
  match i with
  | .ld .. | .ldvg .. | .tld .. | .aadd .. | .amin .. | .amax .. | .aand .. | .aor .. | .axor .. | .aswp .. | .acas .. | .acas2 ..
  | .afadd .. | .qpop .. | .qtry .. | .tgld .. | .lutld .. | .swait .. | .mma .. | .accz .. | .acccp .. | .accld .. | .mstestQuick _
  | .mstestFull _ | .blkld .. | .rayw _ | .isamp .. | .cmsamp .. | .cmseg .. => none
  | .mul .. | .mulh .. | .mulhn .. | .vmul .. | .vmulh .. | .vaccrd .. | .vaccwr .. | .twb .. | .twn .. | .twe .. | .fmaprd .. => some 3
  | .fadd .. | .fsub .. | .fmin .. | .fmax .. | .feq .. | .flt .. | .fle .. | .fcvt .. | .fclass .. | .rngf .. | .vfadd .. | .vfsub ..
  | .vfmin .. | .vfmax .. | .vfcmp .. | .vcvt .. | .lds .. => some 4
  | .fmul .. | .ffma .. | .vfmul .. | .vfma .. | .vdot4 .. | .ldv .. => some 5
  | .rdadd .. | .rdmax .. | .rdmin .. => some 6
  | .frcp .. | .frsq .. | .fsqrt .. | .fdiv .. | .fexp2 .. | .flog2 .. | .fsin .. | .fcos .. | .ftanh .. | .fsigm .. | .flut ..
  | .rngj .. => some 8
  | .div .. | .divn .. | .rem .. | .remn .. => some 12
  | .vadd .. | .vsub .. | .vmin .. | .vmax .. | .vabs .. | .vand .. | .vor .. | .vxor .. | .vshl .. | .vshr .. | .vsra .. | .vcmp ..
  | .vsel .. | .vsplat .. | .vext .. | .vins .. | .vperm .. | .vslide .. | .vzip .. | .vunzip .. | .vcprs .. | .vpcnt .. | .viota ..
  | .vmov .. | .rdmov .. => some 2
  | _ => some 1

/-- Is the op's result of class SG or ST (R37) without a wait of R343: a thread's later words may find it not there yet (log 8)? -/
def landsLater (i : Instr) : Bool :=
  match i with
  | .ld .. | .aadd .. | .amin .. | .amax .. | .aand .. | .aor .. | .axor .. | .aswp .. | .acas .. | .acas2 .. | .afadd .. | .qtry ..
  | .tgld .. | .lutld .. | .isamp .. | .cmsamp .. | .cmseg .. => true
  | _ => false

/-- Registers that an op reads and writes in thread form, where queue ops name eight (R296, R297) and RAYW four (R207). -/
def threadUse (i : Instr) : List Reg × List Reg :=
  match i with
  | .qpush _ _ d a => (groupRegs 8 d ++ opdReg a, [])
  | .qpop _ _ d a b | .qtry _ _ d a b => (opdReg a, groupRegs 8 d ++ opdReg b)
  | .rayw d => ([], groupRegs 4 d)
  | i => opUse i

/-- The x registers among registers, x0 left out (R23). -/
def xNumbers (l : List Reg) : List Nat :=
  l.filterMap fun r => match r with
    | .s 0 => none
    | .s n => some n
    | _ => none

end Sys2Proof.Machine
end

