-- ==== Sys2Proof/Machine/SpecialFn.lean ====
section
/-!
DEFINITION. The special functions and the activation tables (spec/04_scalar_vector.md R152 to R157, spec/12_recovery.md R434).
-/
namespace Sys2Proof.Machine

/-! ### The functions on f32 codes (R153) -/

/-- NaN with Invalid. -/
def invalidF32 : Rnd := nanRnd .f32 16
/-- ∞ with divide-by-zero. -/
def divZero (neg : Bool) : Rnd := { code := infCode .f32 neg, fl := 8 }
/-- A signed zero. -/
def zeroF32 (neg : Bool) : Rnd := { code := withSign .f32 neg 0, fl := 0 }
/-- A signed infinity. -/
def infF32 (neg : Bool) : Rnd := { code := infCode .f32 neg, fl := 0 }
/-- A code exact by the table. -/
def exactF32 (code : Nat) : Rnd := { code := code, fl := 0 }

/-- 1/x. -/
def sfRcp (v : FVal) : Rnd :=
  match v with
  | .nan g => nanRnd .f32 (sigFlag (.nan g))
  | .inf n => zeroF32 n
  | .zero n => divZero n
  | .fin q => round .f32 .ne ((Frac.int 1).div q)

/-- 1/√x. -/
def sfRsq (v : FVal) : Rnd :=
  match v with
  | .nan g => nanRnd .f32 (sigFlag (.nan g))
  | .inf n => if n then invalidF32 else zeroF32 false
  | .zero n => divZero n
  | .fin q => if q.isNeg then invalidF32 else sqrtRound ((Frac.int 1).div q)

/-- √x. -/
def sfSqrt (v : FVal) : Rnd :=
  match v with
  | .nan g => nanRnd .f32 (sigFlag (.nan g))
  | .inf n => if n then invalidF32 else infF32 false
  | .zero n => zeroF32 n
  | .fin q => if q.isNeg then invalidF32 else sqrtRound q

/-- a/b under IEEE 754. -/
def sfDiv (a b : FVal) : Rnd :=
  let neg := a.isNeg != b.isNeg
  match a, b with
  | .nan g, b => nanRnd .f32 (sigFlag (.nan g) ||| sigFlag b)
  | a, .nan g => nanRnd .f32 (sigFlag a ||| sigFlag (.nan g))
  | .inf _, .inf _ => invalidF32
  | .zero _, .zero _ => invalidF32
  | .inf _, _ => infF32 neg
  | _, .inf _ => zeroF32 neg
  | .zero _, _ => zeroF32 neg
  | .fin _, .zero _ => divZero neg
  | .fin x, .fin y => round .f32 .ne (x.div y)

/-- 2^x. -/
def sfExp2 (v : FVal) : Rnd :=
  match v with
  | .nan g => nanRnd .f32 (sigFlag (.nan g))
  | .inf n => if n then zeroF32 false else infF32 false
  | .zero _ => exactF32 0x3F800000
  | .fin q => exp2Round q

/-- log2 x. -/
def sfLog2 (v : FVal) : Rnd :=
  match v with
  | .nan g => nanRnd .f32 (sigFlag (.nan g))
  | .inf n => if n then invalidF32 else infF32 false
  | .zero _ => divZero true
  | .fin q => if q.isNeg then invalidF32 else log2Round q

/-- sin x, x in radians. -/
def sfSin (v : FVal) : Rnd :=
  match v with
  | .nan g => nanRnd .f32 (sigFlag (.nan g))
  | .inf _ => invalidF32
  | .zero n => zeroF32 n
  | .fin q => roundReal (sinQuarter q 0) precisions

/-- cos x. -/
def sfCos (v : FVal) : Rnd :=
  match v with
  | .nan g => nanRnd .f32 (sigFlag (.nan g))
  | .inf _ => invalidF32
  | .zero _ => exactF32 0x3F800000
  | .fin q => roundReal (sinQuarter q 1) precisions

/-- tanh x. -/
def sfTanh (v : FVal) : Rnd :=
  match v with
  | .nan g => nanRnd .f32 (sigFlag (.nan g))
  | .inf n => exactF32 (withSign .f32 n 0x3F800000)
  | .zero n => zeroF32 n
  | .fin q => tanhRound q

/-- 1/(1 + e^-x). -/
def sfSigm (v : FVal) : Rnd :=
  match v with
  | .nan g => nanRnd .f32 (sigFlag (.nan g))
  | .inf n => if n then zeroF32 false else exactF32 0x3F800000
  | .zero _ => exactF32 0x3F000000
  | .fin q => sigmRound q

/-! ### Issue (R152) -/

/-- An f32 function of one source: eight elements under a predicate in bundle form, the low 32 bits in thread form. -/
def State.special (s : State) (p : Fin 8) (d a : Opd) (f : Nat → Rnd) : Res :=
  match s.cur with
  | .core _ _ => s.vrounds 8 d p 32 ((s.elems .f32 a 8).map f)
  | .thr _ => s.fpDone 8 d (f ((s.rd .f32 a).toNat % 2 ^ 32))

/-- An f32 function of two sources. -/
def State.special2 (s : State) (p : Fin 8) (d a b : Opd) (f : Nat → Nat → Rnd) : Res :=
  match s.cur with
  | .core _ _ => s.vrounds 8 d p 32 (List.zipWith f (s.elems .f32 a 8) (s.elems .f32 b 8))
  | .thr _ => s.fpDone 8 d (f ((s.rd .f32 a).toNat % 2 ^ 32) ((s.rd .f32 b).toNat % 2 ^ 32))

/-- FRCP (R153). -/
def execFrcp (_h : Bool) (p : Fin 8) (d a : Opd) (s : State) : Out := answer (s.special p d a fun x => sfRcp (decode .f32 x))
/-- FRSQ (R153). -/
def execFrsq (_h : Bool) (p : Fin 8) (d a : Opd) (s : State) : Out := answer (s.special p d a fun x => sfRsq (decode .f32 x))
/-- FSQRT (R153). -/
def execFsqrt (_h : Bool) (p : Fin 8) (d a : Opd) (s : State) : Out := answer (s.special p d a fun x => sfSqrt (decode .f32 x))
/-- FDIV (R153). -/
def execFdiv (_h : Bool) (p : Fin 8) (d a b : Opd) (s : State) : Out :=
  answer (s.special2 p d a b fun x y => sfDiv (decode .f32 x) (decode .f32 y))
/-- FEXP2 (R153). -/
def execFexp2 (_h : Bool) (p : Fin 8) (d a : Opd) (s : State) : Out := answer (s.special p d a fun x => sfExp2 (decode .f32 x))
/-- FLOG2 (R153). -/
def execFlog2 (_h : Bool) (p : Fin 8) (d a : Opd) (s : State) : Out := answer (s.special p d a fun x => sfLog2 (decode .f32 x))
/-- FSIN (R153). -/
def execFsin (_h : Bool) (p : Fin 8) (d a : Opd) (s : State) : Out := answer (s.special p d a fun x => sfSin (decode .f32 x))
/-- FCOS (R153). -/
def execFcos (_h : Bool) (p : Fin 8) (d a : Opd) (s : State) : Out := answer (s.special p d a fun x => sfCos (decode .f32 x))
/-- FTANH (R153). -/
def execFtanh (_h : Bool) (p : Fin 8) (d a : Opd) (s : State) : Out := answer (s.special p d a fun x => sfTanh (decode .f32 x))
/-- FSIGM (R153). -/
def execFsigm (_h : Bool) (p : Fin 8) (d a : Opd) (s : State) : Out := answer (s.special p d a fun x => sfSigm (decode .f32 x))

/-! ### Activation tables (R154 to R157) -/

/-- Does an image break R154? -/
def imageBad (bs : List Byte) : Bool :=
  let lo := decode .f32 (fieldAt bs 8 4)
  let step := decode .f32 (fieldAt bs 12 4)
  fieldAt bs 0 4 != 0x42544C41 || fieldAt bs 4 2 != 1 || fieldAt bs 6 2 != 0 || isNonfin lo || isNonfin step || isZeroVal step
    || step.isNeg || fieldAt bs 16 48 != 0

/-- The owner of the activation slots an agent uses (R434). -/
def State.lutOwner (s : State) (a : Agent) : Option Owner :=
  match a with
  | .core c _ => (s.core c).job.map Owner.core
  | .thr t => some (.group t.group)

/-- The slot of an engine. -/
def State.lutAt (s : State) (d : Dom) (n : Nat) : Option LutSlot := ((s.eng d).luts.find? fun e => e.1 == n).map (·.2)

/-- The table in the active slot, when the slot is bound to the running owner (R156, R157). -/
def State.activeTable (s : State) : Option (List Byte) :=
  let a := s.cur
  let n := match a with
    | .core c _ => (s.core c).arch.lutsel.toNat
    | .thr t => (s.group t.unit t.group).lutsel.toNat
  match s.lutAt a.dom n with
  | some z => if z.owner.isSome && z.owner == s.lutOwner a then some z.data else none
  | none => none

/-- The value of an f32 code after an operation whose flags are dropped (R157). -/
def quiet (r : Rnd) : FVal := decode .f32 r.code

/-- Coefficient k of segment j (R154). -/
def coef (tab : List Byte) (j k : Nat) : FVal := decode .f32 (fieldAt tab (64 + 12 * j + 4 * k) 4)

/-- Flut (R157): a signalling NaN consumed, x or a coefficient of the segment, sets Invalid (R94). DESIGN CHOICE (log 132): where u is a
zero, t = u − j is taken as +0 whatever the sign of u. -/
def flut (tab : List Byte) (x : Nat) : Rnd :=
  let v := decode .f32 x
  if v.isNan then nanRnd .f32 (sigFlag v)
  else
    let lo := decode .f32 (fieldAt tab 8 4)
    let step := decode .f32 (fieldAt tab 12 4)
    let u := quiet (mulVal .f32 (quiet (addVal .f32 v lo.neg)) step)
    let (j, t) : Nat × FVal :=
      match u with
      | .inf n => if n then (0, .zero false) else (127, decode .f32 0x3F800000)
      | .zero _ => (0, .zero false)
      | .nan _ => (0, .zero false)
      | .fin q =>
        if q.isNeg then (0, .zero false)
        else if Frac.le (Frac.int 128) q then (127, decode .f32 0x3F800000)
        else (q.floor.toNat, FVal.ofFrac (q.sub (Frac.int q.floor)))
    let y := quiet (fmaVal .f32 t (coef tab j 2) (coef tab j 1))
    { code := (fmaVal .f32 t y (coef tab j 0)).code, fl := sigFlag (coef tab j 0) ||| sigFlag (coef tab j 1) ||| sigFlag (coef tab j 2) }

/-- FLUT of an element with the active table, or with none (R157). -/
def flutWith (tab : Option (List Byte)) (x : Nat) : Rnd :=
  match tab with
  | some b => flut b x
  | none => nanRnd .f32 16

/-- FLUT (R157): the slot's contents are those at issue. -/
def execFlut (_h : Bool) (p : Fin 8) (d a : Opd) (s : State) : Out := answer (let tab := s.activeTable; s.special p d a (flutWith tab))

/-- A scoreboarded result of bundle form, or an interlocked one of thread form (R37, R41). -/
def State.scored (s : State) (d : Opd) (x : Word) (ext : Bool) : State :=
  match s.cur with
  | .core c _ =>
    let l := match d with
      | .sx n => if n = 0 then [] else [Land.sreg n x]
      | _ => []
    s.putSb c { lands := l, ext := ext, blk := none }
  | .thr _ => s.wr 0 d x

/-- LUTLD's checks in their order (R155): binding, alignment, then the image, read as plain loads. DESIGN CHOICE (log 133): the image is checked
as one access of 1,600 bytes, each step of R265 over all its bytes. -/
def State.lutld (s : State) (d : Opd) (addr : Word) (n : Nat) : Res :=
  let a := s.cur
  let other := match s.lutAt a.dom n with
    | some z => z.owner.isSome && z.owner != s.lutOwner a
    | none => false
  let status (s : State) (x : Nat) : Res := (s.scored d (BitVec.ofNat 64 x) false).done
  if other then status s 1
  else if addr.toNat % 64 != 0 then status s 2
  else match s.load (s.ctx a) addr.toNat 1600 64 with
    | .error f => .error f
    | .ok (bs, s) =>
      if imageBad bs then status s 2
      else match a with
        | .core _ _ => status (s.defer (.lutld n bs)) 0
        | .thr t => status (s.imageOf t (xNumbers (opdReg d)) n bs) 0

/-- LUTLD (R155). DESIGN CHOICE (log 133): an inline constant of its address operand is an n64. -/
def execLutld (d a : Opd) (n : Fin 4) (s : State) : Out := answer (s.lutld d (s.rn a) n.val)
/-- LUTSEL (R156). -/
def execLutsel (n : Fin 4) (s : State) : Out := answer (s.selectLut (BitVec.ofNat 64 n.val)).done

end Sys2Proof.Machine
end

