-- ==== Sys2Proof/Machine/Code.lean ====
section
/-!
DEFINITION. Reading code: index streams and literals, thread words (spec/02_encoding.md R48, R68, R69, R73), checked as fetches (R265,
R395); and which threads are ready (spec/10_progress.md R364).
-/
namespace Sys2Proof.Machine

/-- n bytes of code at an address, read at the home agent (log 18), or the fault of the fetch. -/
def State.fetchCode (s : State) (a : Agent) (addr n : Nat) : Except Fail (List Byte × State) :=
  let k := s.ctx a
  match s.access k .fetch addr n 1 with
  | .error f => .error f
  | .ok (ps, s) =>
    let xs := pieceBytes ps
    let rd := xs.map fun x => if x.attr.mt == 0 && !isWindow x.pa then s.homeByte k.world x.pa else (s.loadExt k x, none)
    match (xs.zip rd).find? fun r => r.2.2.isSome with
    | some r => .error ⟨⟨r.2.2.getD 0, BitVec.ofNat 64 r.1.va⟩, s⟩
    | none => .ok (rd.map (·.1), s)

/-- The address of a halfword of a core's index stream (R68). -/
def State.streamAddr (s : State) (c off : Nat) : Nat := (Card.code (s.cardAt (.core (fin 32 c) 0)) + 2 * off) % 2 ^ 64

/-- Does a dictionary image's header match R70? -/
def dictOk (bs : List Byte) : Bool :=
  let n := fieldAt bs 4 2
  fieldAt bs 0 4 == 0x4944_4C41 && 1 ≤ n && n ≤ 2048 && fieldAt bs 6 2 == 1 && (bs.drop 8).all (· == 0)

/-- The dictionary image of the job on a core loaded as its resident dictionary (R70, R71), or the trap. -/
def State.loadDict (s : State) (c : Nat) : Except Fail State :=
  let a : Agent := .core (fin 32 c) 0
  let base := Card.dict (s.cardAt a)
  let bad (s : State) : Except Fail State := .error ⟨⟨0x05, BitVec.ofNat 64 base⟩, s⟩
  if base % 64 != 0 then bad s
  else match s.fetchCode a base 64 with
    | .error f => .error f
    | .ok (h, s) =>
      if !dictOk h then bad s
      else match s.fetchCode a ((base + 64) % 2 ^ 64) (48 * fieldAt h 4 2) with
        | .error f => .error f
        | .ok (bs, s) => .ok (s.modCore c fun x =>
            { x with dict := x.job, entries := (List.range (fieldAt h 4 2)).map fun i => fieldAt bs (48 * i) 48 })

/-- The stream length of the bundle at an offset (R69), looked at without a trace; 1 where the stream cannot be read. -/
def State.bundleLen (s : State) (c : Nat) (off : BitVec 32) : Nat :=
  match s.fetchCode (.core (fin 32 c) 0) (s.streamAddr c off.toNat) 2 with
  | .ok (bs, _) => if leNat bs = 0xFFFF then 25 else 1
  | .error _ => 1

/-- The op that a thread's next word executes, without a trace; none where a trap takes the word's place or its predicate is false (R74). -/
def State.nextOp (s : State) (t : Tid) : Option Instr :=
  let x := s.thread t
  let g := s.group t.unit t.group
  if x.pendTraps != [] || x.pc.toNat % 8 != 0 then none
  else match s.fetchCode (.thr t) x.pc.toNat 8 with
    | .error _ => none
    | .ok (bs, _) => match decodeWord g.regs g.nsem (BitVec.ofNat 64 (leNat bs)) with
      | .error _ => none
      | .ok i => if predOk x.p (ThreadWord.ofBits (BitVec.ofNat 64 (leNat bs))).p.toNat then some i else none

/-- Does the thread's next word use a register whose result has not landed (R364, R17; log 8)? -/
def State.operandWait (s : State) (t : Tid) : Bool :=
  (s.thread t).busy != [] && match s.nextOp t with
    | none => false
    | some i =>
      let u := threadUse i
      (xNumbers (u.1 ++ u.2)).any fun n => (s.thread t).busy.any fun l => l.regs.contains n

/-- Is the thread ready to issue (R364)? None is whose job is being pre-empted (R343), nor before its grants are back (R355). -/
def State.threadReady (s : State) (t : Tid) : Bool :=
  match mget none (s.unit t.unit).groups t.group with
  | none => false
  | some g =>
    let x := mget Thread.reset g.threads t.thread
    g.started && t.thread < g.size && !x.ended && x.wait == .none && x.trec == [] && (s.unit t.unit).eng.stopped.isNone && !s.operandWait t
      && ((s.slot g.job).map (·.state)) != some .saving
      && !(s.beadle.leaves.any fun l => l.resume && l.dom == .unit t.unit && l.group == t.group)

/-- A thread as a number within its unit. -/
def tidKey (t : Tid) : Nat := t.group * 2048 + t.thread

/-- The condition of a branch or trap (R368, R424). -/
def State.condHolds (s : State) (c : Cond) : Bool :=
  match c with
  | .z a => s.ri a == 0
  | .nz a => s.ri a != 0
  | .lt a => decide ((s.ri a).toInt < 0)
  | .ge a => decide (0 ≤ (s.ri a).toInt)
  | .p n => s.pb n
  | .np n => !s.pb n

end Sys2Proof.Machine
end

