-- ==== Sys2Proof/Machine/Flow.lean ====
section
/-!
DEFINITION. Control, launch, wait, barrier, power, trace and trap instructions (spec/10_progress.md R367 to R376, spec/09_time_trace.md
R321 to R324, spec/12_recovery.md R424 to R428).
-/
namespace Sys2Proof.Machine

/-! ### Branches (R368, R369) -/

/-- The target of a branch (R368): modulo 2^32 in halfwords in bundle form, modulo 2^64 in bytes in thread form. -/
def State.branchTarget (s : State) (base : Option Opd) (off : BitVec 19) : Word :=
  match s.cur with
  | .core c _ =>
    let b : BitVec 32 := match base with
      | some a => (s.ri a).setWidth 32
      | none => (s.core c).arch.pc
    (b + BitVec.ofInt 32 off.toInt).setWidth 64
  | .thr t =>
    let b : Word := match base with
      | some a => s.ri a
      | none => (s.thread t).pc
    b + BitVec.ofInt 64 (off.toInt * 8)

/-- A taken branch (R43, R368): the third advance cycle on in bundle form, the next word in thread form. -/
def State.branchTo (s : State) (target : Word) : Res :=
  match s.cur with
  | .core c _ => .ok (s.modArch c fun a => { a with redir := a.redir ++ [(target.setWidth 32, 3)] })
  | .thr t => .ok (s.modThread t fun x => { x with pc := target })

/-- The link that CALL writes (R369): the offset after the two delay bundles, or the next word. -/
def State.linkValue (s : State) : Word :=
  match s.cur with
  | .core c _ =>
    let x := s.core c
    let o1 := x.arch.pc + BitVec.ofNat 32 x.len
    let o2 := o1 + BitVec.ofNat 32 (s.bundleLen c o1)
    (o2 + BitVec.ofNat 32 (s.bundleLen c o2)).setWidth 64
  | .thr t => (s.thread t).pc + 8

/-- BR (R368). -/
def execBr (base : Option Opd) (off : BitVec 19) (s : State) : Out := answer (s.branchTo (s.branchTarget base off))
/-- BRC (R368). -/
def execBrc (c : Cond) (off : BitVec 19) (s : State) : Out :=
  answer (if s.condHolds c then s.branchTo (s.branchTarget none off) else s.done)
/-- CALL (R369). -/
def execCall (base : Option Opd) (off : BitVec 19) (s : State) : Out :=
  answer (let t := s.branchTarget base off; (s.wr 1 (.sx 63) s.linkValue).branchTo t)
/-- RET (R369). -/
def execRet (a : Opd) (s : State) : Out := answer (s.branchTo (s.ri a))

/-! ### Marks and trace events (R321 to R324) -/

/-- An ID armed or armed again: used last, the entry used least recently leaving a full set (R322). -/
def armId (l : List Nat) (id : Nat) : List Nat := (id :: l.filter (· != id)).take 16

/-- What MARK reads: the mark reference, DRIFT and the armed set. -/
def State.markState (s : State) : Option (Nat × Nat) × Nat × List Nat :=
  match s.cur with
  | .core c _ => let x := s.core c; (x.markRef, x.arch.drift.toNat, x.armed)
  | .thr t => let g := s.group t.unit t.group; ((s.thread t).markRef, g.drift.toNat, g.armed)

/-- The armed set after MARK's comparison (R322). -/
def markArmed (ref : Option (Nat × Nat)) (drift : Int) (limit : Nat) (l : List Nat) : List Nat :=
  match ref with
  | some r => if limit = 0 then l else if limit < drift.natAbs then armId l r.2 else l.filter (· != r.2)
  | none => l

/-- The mark reference, the armed set and the stall trace set (R322). -/
def State.setMark (s : State) (ref : Nat × Nat) (armed : List Nat) (on : Bool) : State :=
  match s.cur with
  | .core c _ => s.modCore c fun x => { x with markRef := some ref, armed := armed, stallTrace := on }
  | .thr t => (s.modThread t fun x => { x with markRef := some ref, stallTrace := on }).modGroup t.unit t.group fun g => { g with armed := armed }

/-- MARK (R322). -/
def execMark (id : Byte) (n : BitVec 19) (s : State) : Out :=
  answer
    (let cycle := (s.eng s.cur.dom).cycle s.ptime
     let (ref, limit, armed) := s.markState
     let drift : Int := match ref with
       | some r => (cycle : Int) - r.1 - n.toNat
       | none => 0
     let l := markArmed ref drift limit armed
     let on := l.contains id.toNat
     ((s.emitAt s.cur 0x18 2 false (markArg id.toNat drift ref.isNone) 0 0).setMark (cycle, id.toNat)
       (if on then armId l id.toNat else l) on).done)

/-- TRCEV, short (R324). -/
def execTrcev (code : Byte) (a : Opd) (s : State) : Out :=
  answer (s.emitAt s.cur code.toNat 3 false ((s.ri a).toNat % 2 ^ 24) 0 0).done
/-- TRCEV, full (R324). -/
def execTrcevFull (code : Byte) (a b : Opd) (s : State) : Out :=
  answer
    (let f := (s.ri b).toNat
     (s.emitAt s.cur code.toNat 3 true ((s.ri a).toNat % 2 ^ 32) (bits f 18 0) (bits f 19 19)).done)

/-! ### LEAVE and LAUNCH (R370, R376) -/

/-- The grant of an agent's engine or group set, with its LEAVE record (R376). -/
def State.grantTo (s : State) (a : Agent) (n : Nat) : State :=
  (match a with
   | .core c _ => s.modEng (.core c) fun e => { e with granted := n }
   | .thr t => s.modGroup t.unit t.group fun g => { g with granted := n }).emitAt a 0x1B 6 false n 0 0

/-- A request for units put in arrival order, in the place of an earlier one of the same issuer (R355, R376). -/
def State.askLeave (s : State) (a : Agent) (n : Nat) : State :=
  let g : Nat × Nat := match a with
    | .core _ _ => (0, 0)
    | .thr t => (t.group, t.thread)
  let s := s.dropLeaves fun l => l.dom == a.dom && l.group == g.1 && l.thread == g.2 && !l.resume
  { s with beadle := { s.beadle with
      leaves := s.beadle.leaves ++ [{ dom := a.dom, group := g.1, thread := g.2, units := n, at' := s.ptime, resume := false }] } }

/-- LEAVE (R376): a fall is granted at once, a rise waits for LEAVE_GRANT. Log 160. -/
def execLeave (a : Opd) (n : BitVec 11) (s : State) : Out :=
  answer
    (let cur := s.cur
     let top := match cur with
       | .core _ _ => 32
       | .thr _ => 16
     let units := min ((s.ri a).toNat + n.toNat) top
     if units ≤ s.leavegnt cur then (s.grantTo cur units).done
     else
       let s := s.askLeave cur units
       match cur with
       | .core c _ => (s.modCore c fun x => { x with wait := .leave units }).done
       | .thr _ => s.waitAt (.leave units))

/-- LAUNCH (R370): withheld in bundle form; at issue in thread form, after the effects released before it (R259). -/
def execLaunch (a : Opd) (s : State) : Out :=
  answer
    (let job := (s.ri a).toNat % 2 ^ 32
     match s.cur with
     | .core _ _ => (s.defer (.launch (BitVec.ofNat 64 job))).done
     | .thr t =>
       let s := s.releaseAt (.unit t.unit) .device
       match s.launch (s.cardAt s.cur) job with
       | .ok s => s.done
       | .error r => trapRes s 0x1A (launchTval r job))

/-! ### Ends, semaphores, barriers, YIELD (R371 to R375) -/

/-- JEND (R371): withheld in bundle form; a thread ends when its earlier memory ops have performed. -/
def State.jobEnd (s : State) (blk : Bool) : Res :=
  match s.cur with
  | .core _ _ => (s.defer (.jend blk)).done
  | .thr _ => s.waitAt .jend

/-- JEND (R371). -/
def execJend (s : State) : Out := answer (s.jobEnd false)
/-- JEND.BLK (R371). -/
def execJendBlk (s : State) : Out := answer (s.jobEnd true)

/-- A 64-bit count cut to 65,535 (R372, R373). -/
def cut16 (x : Word) : Nat := min x.toNat 65535

/-- The core a remote signal targets (R372): core K of the issuer's cluster, one of its job. -/
def State.signalTarget (s : State) (c k : Nat) (rem : Bool) : Option Nat :=
  if !rem then some c
  else
    let j := c / 8 * 8 + k
    if (s.core c).job.isSome && (s.core j).job == (s.core c).job then some j else none

/-- SEMSIG (R372). -/
def execSemsig (n : Byte) (a : Opd) (k : Fin 8) (rem : Bool) (s : State) : Out :=
  answer
    (let x := cut16 (s.rn a)
     match s.cur with
     | .core c _ => match s.signalTarget c k.val rem with
       | some j => (s.defer (.signal j n.toNat x)).done
       | none => trapRes s 0x04 0
     | .thr t => ((s.releaseAt (.unit t.unit) .core).signalGroup t.unit t.group n.toNat x).done)

/-- SEMWAIT (R373): a satisfied wait with no earlier waiter completes; every other joins the arrival order. -/
def execSemwait (n : Byte) (a : Opd) (s : State) : Out :=
  answer
    (let k := cut16 (s.rn a)
     let i := n.toNat
     match s.cur with
     | .core _ _ => s.done
     | .thr t =>
       let g := s.group t.unit t.group
       if k = 0 then (s.acquireAt (.unit t.unit) .core).done
       else if !(g.semq.any fun q => q.1 == i) && k ≤ mget 0 g.sem i then
         ((s.modGroup t.unit t.group fun g => { g with sem := mset 0 g.sem i (mget 0 g.sem i - k) }).acquireAt (.unit t.unit) .core).done
       else (s.modGroup t.unit t.group fun g => { g with semq := g.semq ++ [(i, t.thread)] }).waitAt (.sem i k))

/-- YIELD (R375): the other ready threads of the lane are recorded. -/
def execYield (s : State) : Out :=
  answer
    (match s.cur with
     | .core _ _ => s.done
     | .thr t =>
       let l := ((s.unit t.unit).tids t.unit).filter fun q => q.thread % 64 == t.thread % 64 && q != t && s.threadReady q
       if l = [] then s.done
       else s.advance.waitAt (.yield (l.map tidKey) 64))

/-- A barrier of thread form (R374): the thread arrives and waits. -/
def State.arrive (s : State) (level id : Nat) : Res :=
  match s.cur with
  | .core _ _ => s.done
  | .thr t => (s.modGroup t.unit t.group fun g => { g with bars := g.bars ++ [(level, id, t.thread)] }).waitAt (.bar level id)

/-- BAR at group level (R374). -/
def execBarGroup (id : Fin 16) (s : State) : Out := answer (s.arrive 0 id.val)
/-- BAR at block level (R374). -/
def execBarBlock (id : Fin 16) (s : State) : Out := answer (s.arrive 1 id.val)
/-- BAR at job level (R374): withheld; the core waits after the commit that releases it. -/
def execBarJob (id : Fin 16) (s : State) : Out := answer (s.defer (.bar id.val)).done

/-! ### Traps (R424 to R428) -/

/-- TRAP (R425). -/
def execTrap (c : TrapCond) (code : BitVec 11) (s : State) : Out :=
  answer
    (let yes := match c with
       | .cond c => s.condHolds c
       | .always => true
     if yes then trapRes s 0x30 code.toNat else s.done)

/-- TRET (R428). -/
def execTret (s : State) : Out :=
  answer (match s.cur with
    | .core _ _ => s.done
    | .thr t => s.trapReturn t)

/-- SVC (R426): withheld in bundle form. -/
def execSvc (code : BitVec 11) (s : State) : Out :=
  answer (match s.cur with
    | .core _ _ => (s.defer (.svc code.toNat)).done
    | .thr _ => trapRes s 0x31 code.toNat)

/-- BKPT (R427): no effect unless the card traces debug and the engine is not stepped; a core traps and stops, a thread's word completes
and its unit stops. -/
def execBkpt (code : BitVec 11) (s : State) : Out :=
  answer
    (if !bit (Card.trace (s.cardAt s.cur)) 7 || (s.eng s.cur.dom).stepping then s.done
     else match s.cur with
       | .core _ _ => trapRes s 0x32 code.toNat
       | .thr t =>
         .ok ((s.advance.modThread t fun x =>
           { x with tcause := 0x32, tpc := x.pc, tval := BitVec.ofNat 64 code.toNat }).stopUnit t.unit 2))

end Sys2Proof.Machine
end

