-- ==== Sys2Proof/Machine/Mem.lean ====
section
/-!
DEFINITION. Loads, stores, gathers, tiles, accumulator rows, load-blocks and PREF (spec/08_memory_ops.md R265 to R277, R291).
-/
namespace Sys2Proof.Machine

/-! ### Shared -/

/-- The address of a scalar access (R270): b shifted as a 64-bit number. -/
def State.addrOf (s : State) (a b : Opd) (sh : Nat) : Word := s.ri a + shlW (s.ri b) sh

/-- Does a checked access reach a PEER or IO mapping? -/
def piecesExt (ps : List Piece) : Bool := ps.any fun q => q.x.attr.mt != 0 || isWindow q.x.pa

/-- A withheld global store counted against the interval (R269). -/
def State.countGst (s : State) (n : Nat) : State :=
  match s.cur with
  | .core c _ => s.modCore c fun x => { x with gst := x.gst + n }
  | .thr _ => s

/-- The running core's position in a redundant pair (R441). -/
def State.pairCur (s : State) : Option Nat :=
  match s.cur with
  | .core c _ => s.pairPos c
  | .thr _ => none

/-- The shadow of a redundant pair takes the result that its primary obtained one advance cycle before (R441). -/
def State.takeMirror (s : State) : State :=
  match s.cur with
  | .core c _ => match (s.core c).mirrored with
    | e :: rest => s.modCore c fun x => { x with mirrored := rest, sb := x.sb ++ [e] }
    | [] => s
  | .thr _ => s

/-- A scoreboarded result put on its way, and handed to the shadow of a redundant pair where `mirror` (R41, R441). -/
def State.putResult (s : State) (c : Nat) (e : SbEntry) (mirror : Bool) : State :=
  let s := s.putSb c e
  if mirror && s.pairPos c == some 0 then s.modCore (c + 1) fun x => { x with mirrored := x.mirrored ++ [e] } else s

/-- A register result of a memory op: scoreboarded in bundle form, at once in thread form. -/
def State.memResult (s : State) (d : Opd) (x : Word) (ext mirror : Bool) : State :=
  match s.cur with
  | .core c _ =>
    let l := match d with
      | .sx n => if n = 0 then [] else [Land.sreg n x]
      | _ => []
    s.putResult c { lands := l, ext := ext, blk := none } mirror
  | .thr _ => s.wr 0 d x

/-- A scoreboarded vector result. -/
def State.memVec (s : State) (d : Opd) (mask x : Vec) (ext : Bool) : State :=
  match d, s.cur with
  | .vec n, .core c _ => s.putResult c { lands := [.vreg n mask x], ext := ext, blk := none } ext
  | _, _ => s

/-- Sources of several elements checked in ascending order (R265): the pieces of each. -/
def State.accessAll (s : State) (k : Ctx) (kind : AccKind) : List (Nat × Nat) → Except Fail (List (List Piece) × State)
  | [] => .ok ([], s)
  | (p, n) :: rest =>
    match s.access k kind p n 1 with
    | .error f => .error f
    | .ok (ps, s) => match s.accessAll k kind rest with
      | .error f => .error f
      | .ok (qs, s) => .ok (ps :: qs, s)

/-- A register value from loaded bytes (R270). -/
def loadValue (bs : List Byte) (sx : Bool) : Word :=
  if sx then BitVec.ofInt 64 (toSigned (8 * bs.length) (leNat bs)) else BitVec.ofNat 64 (leNat bs)

/-- A store of checked pieces: withheld in bundle form, performed in thread form (R243, R271). -/
def State.storeOut (s : State) (k : Ctx) (ps : List Piece) (bs : List Byte) : State :=
  let cells := (pieceBytes ps).zip bs
  match s.cur with
  | .core _ _ => s.defer (.store cells)
  | .thr _ => s.storeBytes k cells

/-- Local bytes written: at the end of the cycle and logged in bundle form, at once in thread form (R242, R250). -/
def State.localOut (s : State) (off : Nat) (bs : List Byte) : State :=
  match s.cur with
  | .core _ _ => s.defer (.scr (cellsOf off bs))
  | .thr _ => s.storeLocal s.cur off bs

/-- The range check of R266. -/
def State.localRange (s : State) (off n : Nat) : Option Res :=
  if (s.local' s.cur).2.1 < off + n then some (trapRes s 0x0E off) else none

/-! ### LD, ST, LDS, STS (R270, R271) -/

/-- LD: an acquire drops the lines first; the shadow of a pair takes the primary's PEER and IO results. -/
def State.ld (s : State) (m : MemMod) (d a b : Opd) : Res :=
  let k := s.ctx s.cur
  let addr := s.addrOf a b m.sh
  let s := if isAcq m.ord then s.acquireAt k.dom m.scope else s
  match s.access k .load addr.toNat (2 ^ m.size.val) 1 with
  | .error f => .error f
  | .ok (ps, s) =>
    let ext := piecesExt ps
    if ext && s.pairCur == some 1 then s.takeMirror.done
    else match s.readPieces k ps with
      | .error f => .error f
      | .ok (bs, s) => (s.memResult d (loadValue bs m.sx) ext ext).done

/-- ST: a release writes the dirty bytes back before it performs, and its own bytes with it. -/
def State.st (s : State) (m : MemMod) (d a b : Opd) : Res :=
  let k := s.ctx s.cur
  let addr := s.addrOf a b m.sh
  let n := 2 ^ m.size.val
  match s.access k .store addr.toNat n 1 with
  | .error f => .error f
  | .ok (ps, s) =>
    let s := if isRel m.ord then s.releaseAt k.dom m.scope else s
    let s := (s.storeOut k ps (leBytes n (s.ri d).toNat)).countGst 1
    (if isRel m.ord then s.releaseAt k.dom m.scope else s).done

/-- LD (R270). -/
def execLd (m : MemMod) (d a b : Opd) (s : State) : Out := answer (s.ld m d a b)
/-- ST (R270). -/
def execSt (m : MemMod) (d a b : Opd) (s : State) : Out := answer (s.st m d a b)
/-- LDS (R270). -/
def execLds (m : MemMod) (d a b : Opd) (s : State) : Out :=
  answer
    (match s.loadLocal s.cur (s.addrOf a b m.sh).toNat (2 ^ m.size.val) with
     | .error f => .error f
     | .ok bs => s.result 4 d (loadValue bs m.sx))
/-- STS (R270). -/
def execSts (m : MemMod) (d a b : Opd) (s : State) : Out :=
  answer
    (let off := (s.addrOf a b m.sh).toNat
     let n := 2 ^ m.size.val
     (s.localRange off n).getD (s.localOut off (leBytes n (s.ri d).toNat)).done)

/-! ### LDV and STV (R272) -/

/-- A byte mask as bits: the bytes below n whose predicate bit is set. -/
def byteMask (p : Pred) (n : Nat) : Vec := (vbuild 8 ((List.range n).map fun i => if p.getLsbD i then some 255 else none)).1

/-- LDV (R272): the range covers every byte; only bytes under the predicate are read. -/
def execLdv (v : VMod) (d a b : Opd) (s : State) : Out :=
  answer
    (let off := (s.addrOf a b 0).toNat
     let n := v.w.bits / 8
     let p := s.rp v.p
     let l := s.local' s.cur
     match s.localRange off n with
     | some r => r
     | none => match (List.range n).find? fun i => p.getLsbD i && l.2.2.contains ((off + i) / 64) with
       | some i => trapRes s 0x13 (off + i)
       | none => (s.wv 5 d (byteMask p n) (BitVec.ofNat 1024 (readNat l.1 off n))).done)

/-- The bytes of a vector register under a predicate, as cells from an offset. -/
def maskedCells (p : Pred) (off n : Nat) (x : Vec) : List Host.Cell :=
  ((List.range n).filter fun i => p.getLsbD i).map fun i => (off + i, BitVec.ofNat 8 (vecElem x 8 i))

/-- STV (R272). -/
def execStv (v : VMod) (d a b : Opd) (s : State) : Out :=
  answer
    (let off := (s.addrOf a b 0).toNat
     let n := v.w.bits / 8
     match s.localRange off n with
     | some r => r
     | none =>
       let cells := maskedCells (s.rp v.p) off n (s.rv .i8 d)
       (if cells = [] then s else s.defer (.scr cells)).done)

/-! ### LDVG and STVS (R273) -/

/-- The active elements of a gather or scatter, with their addresses. -/
def State.gatherAddrs (s : State) (v : VMod) (e8 : Bool) (sh : Fin 4) (a b : Opd) : List (Nat × Nat) :=
  let w := if e8 then 64 else 32
  let p := s.rp v.p
  let idx := s.rv (if e8 then .n64 else .n32) b
  ((List.range (v.w.bits / w)).filter fun j => active p w j).map fun j =>
    (j, (s.ri a + BitVec.ofNat 64 (vecElem idx w j * 2 ^ sh.val)).toNat)

/-- Every element's bytes read in order, or the first poison. -/
def State.readAll (s : State) (k : Ctx) : List (List Piece) → Except Fail (List (List Byte) × State)
  | [] => .ok ([], s)
  | ps :: rest => match s.readPieces k ps with
    | .error f => .error f
    | .ok (bs, s) => match s.readAll k rest with
      | .error f => .error f
      | .ok (l, s) => .ok (bs :: l, s)

/-- LDVG (R273): the elements keep their values until it lands whole. -/
def execLdvg (v : VMod) (e8 : Bool) (sh : Fin 4) (d a b : Opd) (s : State) : Out :=
  answer
    (let k := s.ctx s.cur
     let w := if e8 then 64 else 32
     let es := s.gatherAddrs v e8 sh a b
     match s.accessAll k .load (es.map fun e => (e.2, w / 8)) with
     | .error f => .error f
     | .ok (ps, s) =>
       let ext := ps.any piecesExt
       if ext && s.pairCur == some 1 then s.takeMirror.done
       else match s.readAll k ps with
         | .error f => .error f
         | .ok (bs, s) =>
           let get (j : Nat) : Option Nat := ((es.zip bs).find? fun q => q.1.1 == j).map fun q => leNat q.2
           let r := vbuild w ((List.range (v.w.bits / w)).map get)
           (s.memVec d r.1 r.2 ext).done)

/-- STVS (R273): withheld; a higher element wins an overlapping byte (R239). -/
def execStvs (v : VMod) (e8 : Bool) (sh : Fin 4) (d a b : Opd) (s : State) : Out :=
  answer
    (let k := s.ctx s.cur
     let w := if e8 then 64 else 32
     let es := s.gatherAddrs v e8 sh a b
     let x := s.rv .n64 d
     match s.accessAll k .store (es.map fun e => (e.2, w / 8)) with
     | .error f => .error f
     | .ok (ps, s) =>
       let cells := (es.zip ps).flatMap fun q => (pieceBytes q.2).zip (leBytes (w / 8) (vecElem x w q.1.1))
       ((if cells = [] then s else s.defer (.store cells)).countGst es.length).done)

/-! ### TLD and TST (R274) -/

/-- The moved bytes of a tile in register order: register byte and address. A byte counts as one element of R265 (log 19). -/
def State.tileAddrs (s : State) (v : VMod) (rows : Fin 4) (a b : Opd) : List (Nat × Nat) :=
  let n := v.w.bits / 8
  let l := n / 2 ^ rows.val
  let p := s.rp v.p
  ((List.range n).filter fun i => p.getLsbD i).map fun i =>
    (i, (s.ri a + BitVec.ofNat 64 (i / l) * s.ri b + BitVec.ofNat 64 (i % l)).toNat)

/-- TLD (R274). -/
def execTld (v : VMod) (rows : Fin 4) (d a b : Opd) (s : State) : Out :=
  answer
    (let k := s.ctx s.cur
     let n := v.w.bits / 8
     let es := s.tileAddrs v rows a b
     match s.accessAll k .load (es.map fun e => (e.2, 1)) with
     | .error f => .error f
     | .ok (ps, s) =>
       let ext := ps.any piecesExt
       if ext && s.pairCur == some 1 then s.takeMirror.done
       else match s.readAll k ps with
         | .error f => .error f
         | .ok (bs, s) =>
           let get (i : Nat) : Option Nat := ((es.zip bs).find? fun q => q.1.1 == i).map fun q => leNat q.2
           let r := vbuild 8 ((List.range n).map get)
           (s.memVec d r.1 r.2 ext).done)

/-- Rows of a tile with an active byte: what TST counts (R269). -/
def activeRows (p : Pred) (w : VW) (rows : Fin 4) : Nat :=
  let n := w.bits / 8
  let l := n / 2 ^ rows.val
  ((List.range (2 ^ rows.val)).filter fun r => (List.range l).any fun i => p.getLsbD (r * l + i)).length

/-- TST (R274): withheld; the highest row wins an overlapping byte (R239). -/
def execTst (v : VMod) (rows : Fin 4) (d a b : Opd) (s : State) : Out :=
  answer
    (let k := s.ctx s.cur
     let es := s.tileAddrs v rows a b
     let x := s.rv .i8 d
     match s.accessAll k .store (es.map fun e => (e.2, 1)) with
     | .error f => .error f
     | .ok (ps, s) =>
       let cells := (es.zip ps).flatMap fun q => (pieceBytes q.2).map fun y => (y, (BitVec.ofNat 8 (vecElem x 8 q.1.1) : Byte))
       ((if cells = [] then s else s.defer (.store cells)).countGst (activeRows (s.rp v.p) v.w rows)).done)

/-! ### ACCST and ACCLD (R275) -/

/-- The alignment and range of an accumulator row move. -/
def State.rowsCheck (s : State) (off count : Nat) : Option Res :=
  if off % 64 != 0 then some (trapRes s 0x09 off) else s.localRange off (128 * count)

/-- ACCST (R275). -/
def execAccst (_h : Bool) (first count1 : Fin 32) (a b : Opd) (s : State) : Out :=
  answer
    (let off := (s.ri a).toNat
     let n := count1.val + 1
     match s.rowsCheck off n with
     | some r => r
     | none =>
       let es := ((s.tileCur (tileNo b)).drop (32 * first.val)).take (32 * n)
       (s.localOut off (es.flatMap fun e => leBytes 4 e.toNat)).done)

/-- ACCLD (R275): in the tile pipeline (R159). -/
def execAccld (_h : Bool) (first count1 : Fin 32) (d a : Opd) (s : State) : Out :=
  answer
    (s.onCore fun c =>
      let off := (s.ri a).toNat
      let n := count1.val + 1
      match s.rowsCheck off n with
      | some r => r
      | none => match s.loadLocal s.cur off (128 * n) with
        | .error f => .error f
        | .ok bs =>
          let es := (List.range (32 * n)).map fun i => (32 * first.val + i, BitVec.ofNat 32 (fieldAt bs (4 * i) 4))
          (s.modCore c fun x =>
            { x with sm := x.sm ++ [{ tile := tileNo d, elems := es, fl := 0, suspect := 0, bound := none,
                                      tpc := x.arch.pc.setWidth 64, reads := [] }] }).done)

/-! ### Load-blocks (R276, R277) -/

/-- BLKLD (R276): checks, then the load-block faults in the order of their reasons; the fill completes later. -/
def State.blkld (s : State) (c : Nat) (d : Opd) (base n : Nat) : Res :=
  let k := s.ctx s.cur
  match s.access k .load base (64 * n) 64 with
  | .error f => .error f
  | .ok (ps, s) =>
    let x := s.core c
    let pls := ps.map fun q => q.x.pa / 64
    match (List.range 16).find? fun i => !x.arch.blkLive.getLsbD i with
    | none => trapRes s 0x14 1
    | some i =>
      if pls.any fun l => x.blockLines.contains l then trapRes s 0x14 2
      else if s.l1Cap k.dom / 2 < x.blockLines.length + n then trapRes s 0x14 3
      else
        let line (q : Piece) : Line :=
          { vline := q.x.va / 64, pline := q.x.pa / 64, asid := k.asid, world := k.world, attr := q.x.attr, tags := (0, 0), data := [],
            dirty := 0, poison := none }
        let b : Block := { base := base, count := n, asid := k.asid, world := k.world, lines := ps.map line, filled := false }
        let r := match d with
          | .sx j => if j = 0 then [] else [Land.sreg j (BitVec.ofNat 64 i)]
          | _ => []
        ((s.modCore c fun x =>
          { x with blocks := mset none x.blocks i (some b),
                   arch := { x.arch with blkLive := x.arch.blkLive ||| ((1 : BitVec 16) <<< i) },
                   sb := x.sb ++ [{ lands := r, ext := false, blk := some i }] }).fitL1 k.dom).done

/-- BLKLD (R276). -/
def execBlkld (d a : Opd) (n1 : Fin 64) (s : State) : Out := answer (s.onCore fun c => s.blkld c d (s.ri a).toNat (n1.val + 1))

/-- BLKREL (R277): marked at issue, withheld. -/
def execBlkrel (a : Opd) (s : State) : Out :=
  answer
    (s.onCore fun c =>
      let h := (s.ri a).toNat
      let n := h % 16
      let x := s.core c
      if 16 ≤ h || !x.arch.blkLive.getLsbD n || x.arch.blkRel.getLsbD n then trapRes s 0x14 4
      else (((s.modArch c fun y => { y with blkRel := y.blkRel ||| ((1 : BitVec 16) <<< n) }).defer (.blkrel n)).countGst 1).done)

/-! ### MNOP and PREF (R82, R291) -/

/-- MNOP (R82). -/
def execMnop (_h : Bool) (s : State) : Out := answer s.done

/-- PREF (R291): a line brought into the L1 where it can be; never a fault. The L2 holds no state of its own here. -/
def execPref (_h l2 : Bool) (a b : Opd) (s : State) : Out :=
  answer
    (let k := s.ctx s.cur
     match s.access k .pref (s.addrOf a b 0).toNat 1 1 with
     | .error _ => s.done
     | .ok (ps, s') =>
       if l2 then s'.done
       else (ps.foldl (fun s q => if q.hit || q.x.attr.mt != 0 || isWindow q.x.pa || s.inBlock k.dom (q.x.pa / 64) then s else (s.fillLine k q.x).2) s').done)

end Sys2Proof.Machine
end

