-- ==== Sys2Proof/Machine/Copies.lean ====
section
/-!
DEFINITION. The copy engine and sync words: CPY, CPYM, SYNCSET, SWAIT (spec/08_memory_ops.md R278 to R284), how a piece lands
(spec/07_ordering.md R253 to R256, spec/03_formats.md R114 to R116), and how a copy fails (R282).
-/
namespace Sys2Proof.Machine

/-! ### Issue (R279, R280) -/

/-- Has a local address bits it must not have (R279 reason 6)? -/
def localBits (p : Word) (plain : Bool) : Bool := bits p.toNat 63 25 != 0 || (plain && bits p.toNat 24 21 != 0)

/-- The core a local address names (R163). -/
def State.localCore (s : State) (p : Word) : Option Nat :=
  match s.cur with
  | .core c _ => some (panelCore c p)
  | .thr _ => none

/-- Does a peer address name a core with no share of the job (R279 reason 5)? -/
def State.peerAbsent (s : State) (p : Word) : Bool :=
  match s.cur with
  | .core c _ => bit p.toNat 24 && (s.core (panelCore c p)).job != (s.core c).job
  | .thr _ => false

/-- The place in the running agent's own share at an offset. -/
def State.ownPlace (s : State) (off : Nat) : CopyEnd :=
  match s.cur with
  | .core c _ => .core (s.core c).idx off
  | .thr t => .group t.unit t.group off

/-- The place a local address names. -/
def State.localPlace (s : State) (p : Word) : CopyEnd :=
  match s.localCore p with
  | some j => .core (s.core j).idx (bits p.toNat 20 0)
  | none => s.ownPlace (bits p.toNat 20 0)

/-- The semaphore a copy signals (R278): of a core of the cluster, or of the group's run. -/
def State.semPlace (s : State) (cmd : Word) : CopyEnd :=
  match s.cur with
  | .core c _ => .core (s.core (c / 8 * 8 + cmdScore cmd)).idx (cmdSidx cmd)
  | .thr t => .group t.unit t.group (cmdSidx cmd)

/-- Does SCORE break reason 5 of R279? -/
def State.scoreBad (s : State) (cmd : Word) (cpym : Bool) : Bool :=
  cmdSem cmd && (match s.cur with
    | .core c _ => if cpym then cmdScore cmd != 0 else (s.core (c / 8 * 8 + cmdScore cmd)).job != (s.core c).job
    | .thr _ => cmdScore cmd != 0)

/-- Does SIDX break reason 7 of R279? -/
def State.sidxBad (s : State) (cmd : Word) : Bool :=
  match s.cur with
  | .core .. => false
  | .thr t => cmdSem cmd && (s.group t.unit t.group).nsem ≤ cmdSidx cmd

/-- The command checks of R279, lowest reason first: each side packed or not, what reason 5 and reason 6 say of the addresses. -/
def State.copyReason (s : State) (cmd : Word) (sp dp cpym bad5 bad6 : Bool) : Option Nat :=
  if cmdElems cmd = 0 then some 1
  else match cmdSrc cmd, cmdDst cmd with
    | some a, some b =>
      if !copyPair a b then some 2
      else if countBreaks a sp b dp (cmdElems cmd) then some 3
      else if cmdSync cmd && (cmdSwoff cmd % 8 != 0 || (s.local' s.cur).2.1 < cmdSwoff cmd + 8) then some 4
      else if s.scoreBad cmd cpym || bad5 then some 5
      else if bad6 then some 6
      else if s.sidxBad cmd then some 7
      else none
    | _, _ => some 2

/-- A side's range checked: a global one under R265, a local one against its target's share (R266). -/
def State.copyRange (s : State) (k : Ctx) (kind : AccKind) (glob : Bool) (p : Word) (n : Nat) : Except Fail (CopyEnd × State) :=
  if glob then
    match s.access k kind p.toNat n 1 with
    | .error f => .error f
    | .ok (ps, s) => .ok (.glob (pieceBytes ps), s)
  else
    let off := bits p.toNat 20 0
    let size := match s.localCore p with
      | some j => (s.core j).scratchSize
      | none => (s.local' s.cur).2.1
    if size < off + n then .error ⟨⟨0x0E, BitVec.ofNat 64 off⟩, s⟩ else .ok (s.localPlace p, s)

/-- A checked copy: withheld and counted in bundle form (R243, R269); in thread form started, or its word held for a slot (R281). -/
def State.issueCopy (s : State) (cmd : Word) (src : CopyEnd) (dsts syncs sems : List CopyEnd) (multi : Bool) : Res :=
  let k := s.ctx s.cur
  let dp := dsts.any CopyEnd.packed
  let np := pieceCount (cmdElems cmd) (pieceElems ((cmdDst cmd).getD .i8) dp)
  let tpc := match s.cur with
    | .core c _ => (s.core c).arch.pc.setWidth 64
    | .thr t => (s.thread t).pc
  let c : Copy :=
    { cmd := cmd, src := src, dsts := dsts, syncs := if cmdSync cmd then syncs else [], sems := if cmdSem cmd then sems else [],
      multi := multi, left := (List.range np).flatMap fun p => (List.range dsts.length).map fun i => (i, p), got := [],
      asid := k.asid, world := k.world, job := (s.jobOf s.cur).getD 0,
      part := (match s.cur with
        | .core n _ => (s.core n).idx
        | .thr t => (s.group t.unit t.group).idx),
      tpc := tpc, issuer := s.cur, seq := 0, failed := none }
  match s.cur with
  | .core n _ => ((s.defer (.copy c)).modCore n fun x => { x with cpy := x.cpy + 1 }).done
  | .thr t => if 512 ≤ (s.unit t.unit).eng.copies.length then s.waitAt .copySlot else (s.startCopy (.unit t.unit) c).done

/-- CPY (R279). -/
def State.cpy (s : State) (dir : CpyDir) (b a : Word) (cmd : Word) : Res :=
  let sg := dir == .g2l || dir == .g2g
  let dg := dir == .l2g || dir == .g2g
  let plain := match s.cur with
    | .core .. => false
    | .thr _ => true
  let bad5 := (!sg && s.peerAbsent a) || (!dg && s.peerAbsent b)
  let bad6 := (!sg && localBits a plain) || (!dg && localBits b plain)
  match s.copyReason cmd sg dg false bad5 bad6 with
  | some r => trapRes s 0x15 r
  | none =>
    let k := s.ctx s.cur
    match s.copyRange k .load sg a (sideBytes (cmdSrc cmd) sg cmd) with
    | .error f => .error f
    | .ok (src, s) => match s.copyRange k .store dg b (sideBytes (cmdDst cmd) dg cmd) with
      | .error f => .error f
      | .ok (dst, s) => s.issueCopy cmd src [dst] [s.ownPlace (cmdSwoff cmd)] [s.semPlace cmd] false

/-- The parts of the job that a CPYM mask names, each as the place of its offset 0, none for a target with no share of the job (R280). -/
def State.maskTargets (s : State) (mask : Nat) : List (Option CopyEnd) :=
  match s.cur with
  | .core c _ => ((List.range 8).filter fun i => bit mask i).map fun (i : Nat) =>
      let j := c.val / 8 * 8 + i
      if (s.core j).job == (s.core c).job then some (.core (s.core j).idx 0) else none
  | .thr t => ((List.range 4).filter fun i => bit mask i).map fun (i : Nat) =>
      let u := t.unit.val / 4 * 4 + i
      (((s.unit u).groups.find? fun g => match g.2 with
        | some x => x.job == (s.group t.unit t.group).job
        | none => false).map fun g => CopyEnd.group u g.1 0)

/-- A place of the same share at another offset. -/
def CopyEnd.at' (p : CopyEnd) (off : Nat) : CopyEnd :=
  match p with
  | .glob b => .glob b
  | .core i _ => .core i off
  | .group u g _ => .group u g off

/-- Bytes of the share a place names. -/
def State.shareSize (s : State) (job : Nat) (p : CopyEnd) : Nat :=
  match p with
  | .glob _ => 0
  | .core i _ => match s.partCore job i with
    | some c => (s.core c).scratchSize
    | none => 0
  | .group u g _ => (s.group u g).smemSize

/-- CPYM (R280). -/
def State.cpym (s : State) (mask : Nat) (b a : Word) (cmd : Word) : Res :=
  let ts := s.maskTargets mask
  match s.copyReason cmd true false true (ts = [] || ts.any Option.isNone) (localBits b true) with
  | some r => trapRes s 0x15 r
  | none =>
    let k := s.ctx s.cur
    let job := (s.jobOf s.cur).getD 0
    match s.copyRange k .load true a (sideBytes (cmdSrc cmd) true cmd) with
    | .error f => .error f
    | .ok (src, s) =>
      let off := bits b.toNat 20 0
      let ps := ts.filterMap id
      if ps.any fun p => s.shareSize job p < off + sideBytes (cmdDst cmd) false cmd then trapRes s 0x0E off
      else s.issueCopy cmd src (ps.map (·.at' off)) (ps.map (·.at' (cmdSwoff cmd))) (ps.map (·.at' (cmdSidx cmd))) true

/-- CPY (R279). -/
def execCpy (_h : Bool) (dir : CpyDir) (d a b : Opd) (s : State) : Out := answer (s.cpy dir (s.ri b) (s.ri a) (s.ri d))
/-- CPYM (R280). -/
def execCpym (_h : Bool) (mask : Byte) (d a b : Opd) (s : State) : Out := answer (s.cpym mask.toNat (s.ri b) (s.ri a) (s.ri d))

/-- An aligned doubleword of the own share: its alignment and range checks (R283, R284). -/
def State.syncCheck (s : State) (off : Nat) : Option Res :=
  if off % 8 != 0 then some (trapRes s 0x09 off) else s.localRange off 8

/-- SYNCSET (R283). -/
def execSyncset (a b : Opd) (s : State) : Out :=
  answer
    (let off := (s.ri a).toNat
     let v := (s.ri b).toNat
     (s.syncCheck off).getD (s.localOut off (leBytes 8 (bits v 23 0 + bits v 63 48 * 2 ^ 48))).done)

/-- A destination register's number; 0 for none. -/
def opdNum : Opd → Nat
  | .sx n => n.val
  | .vec n => n.val
  | .acc n => n.val
  | .kreg n => n.val
  | .imm _ => 0

/-- SWAIT (R284): a satisfied wait reads the sync word, as an acquire where it asks for one; a thread's unsatisfied wait holds the thread.
A core's bundle has issued only with its wait satisfied. -/
def execSwait (scope : Scope) (ord : Ord) (d a b : Opd) (s : State) : Out :=
  answer
    (let off := (s.ri a).toNat
     let gen := (s.ri b).toNat % 2 ^ 16
     match s.syncCheck off with
     | some r => r
     | none => match s.loadLocal s.cur off 8 with
       | .error f => .error f
       | .ok bs =>
         let w := leNat bs
         match s.cur with
         | .core .. => ((if isAcq ord then s.acquireAt s.cur.dom scope else s).memResult d (BitVec.ofNat 64 w) false false).done
         | .thr _ =>
           if reached w gen then ((if isAcq ord then s.acquireAt s.cur.dom scope else s).memResult d (BitVec.ofNat 64 w) false false).done
           else s.waitAt (.sync off gen (opdNum d) (isAcq ord) scope))

end Sys2Proof.Machine
end

