-- ==== Sys2Proof/Machine/Atomics.lean ====
section
/-!
DEFINITION. Atomics (spec/08_memory_ops.md R285 to R288; to a PEER mapping spec/07_ordering.md R262).
-/
namespace Sys2Proof.Machine

/-- The register after one of a pair (R285). -/
def opdNext : Opd → Opd
  | .sx n => .sx (fin 64 (n.val + 1))
  | .kreg n => .kreg (fin 160 (n.val + 1))
  | .vec n => .vec (fin 64 (n.val + 1))
  | .acc n => .acc (fin 16 (n.val + 1))
  | .imm c => .imm c

/-- The results of an atomic in registers: scoreboarded together in bundle form, at once in thread form. -/
def State.atomicResult (s : State) (rs : List (Opd × Word)) (ext : Bool) : State :=
  match s.cur with
  | .core c _ =>
    let lands := rs.filterMap fun r => match r.1 with
      | .sx n => if n = 0 then none else some (Land.sreg n r.2)
      | _ => none
    s.putResult c { lands := lands, ext := ext, blk := none } true
  | .thr _ => rs.foldl (fun s r => s.wr 0 r.1 r.2) s

/-- An atomic's new bytes: written at the end of the cycle in bundle form, after every read of the bundle (R241); at once in thread form. -/
def State.atomicWrite (s : State) (k : Ctx) (cells : List (XByte × Byte)) : State :=
  match s.cur with
  | .core _ _ => s.defer (.atom cells)
  | .thr _ => s.writeAtom k cells

/-- The old bytes of a global atomic: at the home agent, the engine's dirty bytes of the line written back and its L1 copy gone, a live
load-block's line staying (R231, R287; log 123), or at a PEER target. The cause and
address of poison otherwise (R288). -/
def State.atomicRead (s : State) (k : Ctx) (addr : Nat) (xs : List XByte) : Except Fail (List Byte × State) :=
  match xs with
  | [] => .ok ([], s)
  | x :: _ =>
    if x.attr.mt == 0 then
      let s := (s.dropLines k.dom fun l => l.pline == x.pa / 64).cleanBlocks k.dom fun l => l.pline == x.pa / 64
      let r := s.homeFetch k.world x.pa xs.length
      match r.1.2 with
      | some p => .error ⟨⟨p.1, BitVec.ofNat 64 (addr + p.2)⟩, r.2⟩
      | none => .ok (r.1.1, r.2)
    else .ok (xs.map fun y => byteAt s.bnd.peer y.pa, s)

/-- Does a target take no atomic (R262, R288)? The state counts a PEER atomic refused while the link is down (R460). -/
def State.atomicRefused (s : State) (xs : List XByte) (peerOk : Bool) : Bool × State :=
  match xs with
  | [] => (false, s)
  | x :: _ =>
    if x.attr.mt == 2 || isWindow x.pa then (true, s)
    else if x.attr.mt == 1 then
      let up := bit s.bnd.pcieLink.toNat 0
      (!peerOk || !bit s.bnd.pcieCtrl.toNat 1 || !up || s.bnd.noAtomic.contains (x.pa / 4096), s.countPeer xs 2)
    else (false, s)

/-- The scope at which an atomic's order holds: PEER at a PEER target, whatever it names (R262). -/
def atomicScope (ps : List Piece) (sc : Scope) : Scope := if piecesExt ps then .peer else sc

/-- What an atomic or queue op performs after (R235, R245): in bundle form every effect its core released at earlier commits; in thread form
what its release asks for. -/
def State.opRelease (s : State) (d : Dom) (sc : Scope) (ord : Ord) : State :=
  match s.cur with
  | .core .. => s.releaseAt d .device
  | .thr _ => if isRel ord then s.releaseAt d sc else s

/-- An atomic of n bytes (R286): `peerOk` where R262 lists the op and size, `f` the bytes it writes of the old value, `res` its results. -/
def State.atomic (s : State) (sc : Scope) (ord : Ord) (loc peerOk : Bool) (a : Opd) (n : Nat) (f : Nat → Option Nat)
    (res : Nat → List (Opd × Word)) : Res :=
  let k := s.ctx s.cur
  let addr := (s.ri a).toNat
  if s.pairCur == some 1 then s.takeMirror.done
  else if loc then
    if addr % n != 0 then trapRes s 0x09 addr
    else match s.loadLocal s.cur addr n with
      | .error e => .error e
      | .ok bs =>
        let s := match f (leNat bs) with
          | none => s
          | some x => match s.cur with
            | .core _ _ => s.defer (.loc (cellsOf addr (leBytes n x)))
            | .thr _ => s.storeLocal s.cur addr (leBytes n x)
        (s.atomicResult (res (leNat bs)) false).done
  else match s.access k .atomic addr n n with
    | .error e => .error e
    | .ok (ps, s) =>
      let xs := pieceBytes ps
      let r := s.atomicRefused xs peerOk
      if r.1 then trapRes r.2 0x0F addr
      else
        let s := r.2.opRelease k.dom (atomicScope ps sc) ord
        match s.atomicRead k addr xs with
        | .error e => .error e
        | .ok (bs, s) =>
          let s := match f (leNat bs) with
            | none => s
            | some x => s.atomicWrite k (xs.zip (leBytes n x))
          let s := if isAcq ord then s.acquireAt k.dom (atomicScope ps sc) else s
          (s.atomicResult (res (leNat bs)) (piecesExt ps)).done

/-- Bytes of an integer atomic. -/
def atBytes (m : AtMod) : Nat := if m.wide then 8 else 4

/-- An atomic of 4 or 8 bytes on the old value and operand b as numbers. -/
def State.atomicInt (s : State) (m : AtMod) (peerOk sgn : Bool) (d a b : Opd) (f : Nat → Nat → Option Nat) : Res :=
  let y := (s.ri b).toNat % 2 ^ (8 * (atBytes m))
  s.atomic m.scope m.ord m.loc peerOk a (atBytes m) (fun o => f o y) fun o =>
    [(d, if sgn then BitVec.ofInt 64 (toSigned (8 * (atBytes m)) o) else BitVec.ofNat 64 o)]

/-- Is o less than y as the op compares them? -/
def atLess (sgn : Bool) (n o y : Nat) : Bool := if sgn then decide (toSigned (8 * n) o < toSigned (8 * n) y) else decide (o < y)

/-- AADD (R285). -/
def execAadd (m : AtMod) (d a b : Opd) (s : State) : Out :=
  answer (s.atomicInt m true false d a b fun o y => some ((o + y) % 2 ^ (8 * (atBytes m))))
/-- AMIN (R285). -/
def execAmin (m : AtMod) (sgn : Bool) (d a b : Opd) (s : State) : Out :=
  answer (s.atomicInt m false sgn d a b fun o y => some (if atLess sgn (atBytes m) y o then y else o))
/-- AMAX (R285). -/
def execAmax (m : AtMod) (sgn : Bool) (d a b : Opd) (s : State) : Out :=
  answer (s.atomicInt m false sgn d a b fun o y => some (if atLess sgn (atBytes m) o y then y else o))
/-- AAND (R285). -/
def execAand (m : AtMod) (d a b : Opd) (s : State) : Out := answer (s.atomicInt m false false d a b fun o y => some (o &&& y))
/-- AOR (R285). -/
def execAor (m : AtMod) (d a b : Opd) (s : State) : Out := answer (s.atomicInt m false false d a b fun o y => some (o ||| y))
/-- AXOR (R285). -/
def execAxor (m : AtMod) (d a b : Opd) (s : State) : Out := answer (s.atomicInt m false false d a b fun o y => some (o ^^^ y))
/-- ASWP (R285). -/
def execAswp (m : AtMod) (d a b : Opd) (s : State) : Out := answer (s.atomicInt m true false d a b fun _ y => some y)
/-- ACAS (R285): writes only where the old value equals d. -/
def execAcas (m : AtMod) (d a b : Opd) (s : State) : Out :=
  answer
    (let e := (s.ri d).toNat % 2 ^ (8 * (atBytes m))
     s.atomicInt m true false d a b fun o y => if o = e then some y else none)
/-- ACAS2 (R285): 16 bytes against a register pair, the low doubleword in the even register. -/
def execAcas2 (scope : Scope) (ord : Ord) (loc : Bool) (d a b : Opd) (s : State) : Out :=
  answer
    (let e := (s.ri d).toNat + (s.ri (opdNext d)).toNat * 2 ^ 64
     let y := (s.ri b).toNat + (s.ri (opdNext b)).toNat * 2 ^ 64
     s.atomic scope ord loc true a 16 (fun o => if o = e then some y else none)
       fun o => [(d, BitVec.ofNat 64 o), (opdNext d, BitVec.ofNat 64 (o / 2 ^ 64))])
/-- AFADD (R285, R286): no flag, Canon for a NaN. -/
def execAfadd (scope : Scope) (ord : Ord) (loc : Bool) (t : FpTy) (d a b : Opd) (s : State) : Out :=
  answer
    (let n := width t.ty / 8
     let y := (s.rd t.ty b).toNat % 2 ^ (8 * n)
     s.atomic scope ord loc false a n (fun o => some (fpAdd t.ty o y).code) fun o => [(d, BitVec.ofNat 64 o)])

end Sys2Proof.Machine
end

