-- ==== Sys2Proof/Machine/Fences.lean ====
section
/-!
DEFINITION. FENCE, DRAIN, CLEAN and INV (spec/08_memory_ops.md R289, R290; spec/07_ordering.md R237, R244, R251).
-/
namespace Sys2Proof.Machine

/-- FENCE (R289): a withheld mark in bundle form, which acts as a DRAIN (R244); in thread form the parts of its order (R237). -/
def execFence (scope : Scope) (ord : Ord) (s : State) : Out :=
  answer
    (match s.cur with
     | .core _ _ => (s.defer (.drain scope)).done
     | .thr t =>
       let d : Dom := .unit t.unit
       let s := if isRel ord then s.releaseAt d scope else s
       (if isAcq ord then s.acquireAt d scope else s).done)

/-- DRAIN (R289): a withheld mark in bundle form; a thread writes the dirty bytes back and is held until DRAIN_COMPLETE (R251). -/
def execDrain (scope : Scope) (s : State) : Out :=
  answer
    (match s.cur with
     | .core _ _ => (s.defer (.drain scope)).done
     | .thr t => (s.releaseAt (.unit t.unit) scope).waitAt .drain)

/-- The lowest address above a canonical one that is not canonical (R265 step 1). -/
def nextBad (a : Nat) : Nat :=
  let t := a / 2 ^ 56
  if bit a 47 then (if t < 15 then (t + 1) * 2 ^ 56 + 2 ^ 47 else 2 ^ 60) else t * 2 ^ 56 + 2 ^ 47

/-- Step 1 of R265 over a range: the lowest failing byte. -/
def rangeBad (a n : Nat) : Option Nat :=
  if n = 0 then none else if !canonical a then some a else if nextBad a < a + n then some (nextBad a) else none

/-- CLEAN (R290): withheld in bundle form, at issue in thread form. -/
def execClean (a b : Opd) (s : State) : Out :=
  answer
    (let lo := (s.ri a).toNat
     let n := (s.rn b).toNat
     match rangeBad lo n with
     | some va => trapRes s 0x08 va
     | none =>
       let k := s.ctx s.cur
       match s.cur with
       | .core _ _ => ((s.defer (.clean lo n)).countGst 1).done
       | .thr _ => (s.cleanLines k.dom fun l => l.asid == k.asid && l.world == k.world && l.meets lo n).done)

/-- INV (R290): at issue in both forms; no dirty byte is lost. -/
def execInv (a b : Opd) (s : State) : Out :=
  answer
    (let lo := (s.ri a).toNat
     let n := (s.rn b).toNat
     match rangeBad lo n with
     | some va => trapRes s 0x08 va
     | none =>
       let k := s.ctx s.cur
       (s.dropLines k.dom fun l => l.asid == k.asid && l.world == k.world && l.meets lo n).done)

end Sys2Proof.Machine
end

