-- ==== Sys2Proof/Machine/Queues.lean ====
section
/-!
DEFINITION. Channel queues: QPUSH, QPOP, QTRY (spec/08_memory_ops.md R293 to R300; spec/07_ordering.md R258).
-/
namespace Sys2Proof.Machine

/-! ### Fields of a queue (R293) -/

/-- VALID. -/
def Queue.valid (q : Queue) : Bool := bit (fieldAt q.desc 0 1) 0
/-- SENSOR. -/
def Queue.sensor (q : Queue) : Bool := bit (fieldAt q.desc 0 1) 1
/-- FULLP. -/
def Queue.fullp (q : Queue) : Nat := bits (fieldAt q.desc 0 1) 3 2
/-- STYPE. -/
def Queue.sty (q : Queue) : Ty := (tyOf (fieldAt q.desc 2 1)).getD .i8
/-- DTYPE. -/
def Queue.dty (q : Queue) : Ty := (tyOf (fieldAt q.desc 3 1)).getD .i8
/-- NELEM. -/
def Queue.nelem (q : Queue) : Nat := fieldAt q.desc 4 2
/-- The owner's partition. -/
def Queue.part (q : Queue) : Nat := bits (fieldAt q.desc 6 1) 5 0
/-- The owner's world. -/
def Queue.world (q : Queue) : Bool := bit (fieldAt q.desc 6 1) 7
/-- CAP. -/
def Queue.cap (q : Queue) : Nat := fieldAt q.desc 8 4
/-- The semaphore that a placed item raises (R299): core and index, by the queue's die. -/
def Queue.sem (q : Queue) (id : Nat) : Option (Nat × Nat) :=
  let b := fieldAt q.desc 12 1
  if bit b 7 then some (id / 4096 % 2 * 16 + bits b 3 0, fieldAt q.desc 13 1) else none

/-! ### Items (R293, R296, R297) -/

/-- Bytes of an item in registers, in the source's layout. -/
def Queue.pushBytes (q : Queue) : Nat := layoutBytes q.sty false q.nelem

/-- An item as the L2 holds it, from register bytes: six-bit elements packed (R102). -/
def Queue.pack (q : Queue) (bs : List Byte) : List Byte :=
  packElems q.sty true ((List.range q.nelem).map fun i => getElem q.sty false bs i)

/-- An item as popped: converted element by element to the sink's register layout (R114). -/
def Queue.unpack (q : Queue) (item : List Byte) : List Byte :=
  packElems q.dty false ((List.range q.nelem).map fun i => convertCopy q.sty q.dty (getElem q.sty true item i))

/-- The status that a pop writes (R297). -/
def popStatus (empty : Bool) (left drops : Nat) : Word :=
  BitVec.ofNat 64 ((if empty then 1 else 0) + min left 65535 * 2 ^ 16 + min drops (2 ^ 32 - 1) * 2 ^ 32)

/-- Eight registers of a thread from the first, from an item's bytes, zero beyond them. -/
def State.putItem (s : State) (t : Tid) (d : Nat) (bs : List Byte) : State :=
  s.modThread t fun x => { x with x := (List.range 8).foldl (fun m i => mset 0 m (d + i) (BitVec.ofNat 64 (fieldAt bs (8 * i) 8))) x.x }

/-- A register of a thread; x0 discards it. -/
def State.putX (s : State) (t : Tid) (n : Nat) (v : Word) : State :=
  if n = 0 then s else s.modThread t fun x => { x with x := mset 0 x.x n v }

/-- A waiting QPOP completed with an item handed to it (R298). -/
def State.handOff (s : State) (q : Nat) (t : Tid) (item : List Byte) : State :=
  let u := s.queue q
  match (s.thread t).wait with
  | .pop _ d st acq sc =>
    let s := s.setQueue q { u with drops := 0 }
    let s := if acq then s.acquireAt (.unit t.unit) sc else s
    let s := (s.putItem t d (u.unpack item)).putX t st (popStatus false u.items.length u.drops)
    s.wakeDone t
  | _ => s

/-- The semaphore of a queue raised for a placed item (R299). -/
def State.queueSem (s : State) (q : Nat) : State :=
  match (s.queue q).sem q with
  | some (c, i) => s.signalCore c i 1
  | none => s

/-- A drop counted, saturating (R296). -/
def Queue.drop (q : Queue) : Queue := { q with drops := min (q.drops + 1) (2 ^ 32 - 1) }

/-- An item pushed (R296, R298, R299): handed to the oldest waiter, placed, or dropped; none where it must wait for room. -/
def State.push (s : State) (q : Nat) (item : List Byte) : Option State :=
  let u := s.queue q
  match u.waiters with
  | t :: ws => some ((s.setQueue q { u with waiters := ws }).handOff q t item)
  | [] =>
    if u.items.length < u.cap then some ((s.setQueue q { u with items := u.items ++ [item] }).queueSem q)
    else match u.fullp with
      | 0 => some (s.setQueue q u.drop)
      | 1 => some ((s.setQueue q { u.drop with items := u.items.drop 1 ++ [item] }).queueSem q)
      | _ => none

/-! ### The ops -/

/-- The checks of R295 on a queue ID: the reason that fails. -/
def State.queueReason (s : State) (id : Word) (isPush : Bool) : Option Nat :=
  let u := s.queue (id.toNat % 2 ^ 13)
  let card := s.cardAt s.cur
  if bits id.toNat 63 13 != 0 then some 1
  else if !u.valid then some 2
  else if u.part != Card.part card || u.world != Card.world card then some 3
  else if isPush && u.sensor then some 4
  else none

/-- TVAL of a queue fault (R295). -/
def queueTval (id : Word) (reason : Nat) : Nat := id.toNat % 2 ^ 13 + reason * 2 ^ 16

/-- The bytes a QPUSH takes from its registers (R296). -/
def State.pushSource (s : State) (d : Opd) (n : Nat) : List Byte :=
  match s.cur with
  | .core _ _ => leBytes n (s.rv .i8 d).toNat
  | .thr t => ((List.range 8).flatMap fun i => leBytes 8 (mget 0 (s.thread t).x (opdNum d + i)).toNat).take n

/-- Was the queue closed while the core waited for room in it (R295)? -/
def State.pushClosed (s : State) (q : Nat) : Bool :=
  match s.cur with
  | .core c _ => (s.core c).pushOn == some (q, true)
  | .thr _ => false

/-- A core's wait for room is over. -/
def State.endPush (s : State) : State :=
  match s.cur with
  | .core c _ => s.modCore c fun x => { x with pushOn := none }
  | .thr _ => s

/-- QPUSH (R296): at issue in both forms; a drop is traced (R313). A thread waits for room; a core's bundle has issued only where there is room. -/
def execQpush (scope : Scope) (ord : Ord) (d a : Opd) (s : State) : Out :=
  answer
    (let id := s.ri a
     if s.pairCur == some 1 then s.done
     else match if s.pushClosed (id.toNat % 2 ^ 13) then some 5 else s.queueReason id true with
       | some r => trapRes s 0x17 (queueTval id r)
       | none =>
         let q := id.toNat
         let s := s.endPush
         let s := s.opRelease s.cur.dom scope ord
         let u := s.queue q
         let drops := u.waiters = [] && u.cap ≤ u.items.length
         match s.push q (u.pack (s.pushSource d u.pushBytes)) with
         | some s => (if drops then s.emitAt s.cur 0x28 4 false q 0 0 else s).done
         | none => s.waitAt (.push q))

/-- What a pop writes: the item where there is one, and the status. DESIGN CHOICE (log 137): a thread's status register that lies among the
item's eight holds the status. -/
def State.popResult (s : State) (d st : Opd) (item : Option (List Byte)) (v : Word) : State :=
  match s.cur with
  | .core c _ =>
    let l := match item, d with
      | some bs, .vec n => [Land.vreg n (BitVec.ofNat 1024 (2 ^ 512 - 1)) (BitVec.ofNat 1024 (leNat bs))]
      | _, _ => []
    let m := match st with
      | .sx n => if n = 0 then [] else [Land.sreg n v]
      | _ => []
    s.putResult c { lands := l ++ m, ext := false, blk := none } true
  | .thr t =>
    let s := match item with
      | some bs => s.putItem t (opdNum d) bs
      | none => s
    s.putX t (opdNum st) v

/-- QPOP and QTRY (R297), in bundle form after what the core released at earlier commits (R245): the oldest item; on an empty queue status 1, but a thread's QPOP joins the waiters (R298). -/
def State.pop (s : State) (waits : Bool) (scope : Scope) (ord : Ord) (d a b : Opd) : Res :=
  let id := s.ri a
  if s.pairCur == some 1 then s.takeMirror.done
  else match s.queueReason id false with
    | some r => trapRes s 0x17 (queueTval id r)
    | none =>
      let q := id.toNat
      let s := s.opRelease s.cur.dom scope ord
      let u := s.queue q
      let acq (s : State) : State := if isAcq ord then s.acquireAt s.cur.dom scope else s
      match u.items with
      | i :: rest =>
        let s := acq (s.setQueue q { u with items := rest, drops := 0 })
        (s.popResult d b (some (u.unpack i)) (popStatus false rest.length u.drops)).done
      | [] =>
        match s.cur, waits with
        | .thr t, true =>
          (s.setQueue q { u with waiters := u.waiters ++ [t] }).waitAt (.pop q (opdNum d) (opdNum b) (isAcq ord) scope)
        | _, _ =>
          let s := acq (s.setQueue q { u with drops := 0 })
          (s.popResult d b none (popStatus true 0 u.drops)).done

/-- QPOP (R297). -/
def execQpop (scope : Scope) (ord : Ord) (d a b : Opd) (s : State) : Out := answer (s.pop true scope ord d a b)
/-- QTRY (R297). -/
def execQtry (scope : Scope) (ord : Ord) (d a b : Opd) (s : State) : Out := answer (s.pop false scope ord d a b)

end Sys2Proof.Machine
end

