-- ==== Sys2Proof/Machine/Tags.lean ====
section
/-!
DEFINITION. TGLD, TGST (spec/08_memory_ops.md R292; spec/11_isolation.md R400, R401) and TLBINV (R406, R407).
-/
namespace Sys2Proof.Machine

/-! ### Tags -/

/-- The bytes whose granules a tag op covers: one, or the first of each of 16 (R292). -/
def tagBytes (x16 : Bool) (ps : List Piece) : List XByte :=
  let xs := pieceBytes ps
  if x16 then xs.filter fun x => x.pa % 32 == 0 else xs.take 1

/-- A tag as the running agent's TGLD reads it: its own latest withheld TGST, else memory's (R292). -/
def State.ownTag (s : State) (pa : Nat) : Nat :=
  match s.cur with
  | .core c _ => (withheldTag (s.core c).withheld pa).getD (s.tagMem pa)
  | .thr _ => s.tagMem pa

/-- TGLD (R292); at the home agent a failed check of the world poisons what it reads (R379). -/
def execTgld (x16 : Bool) (d a : Opd) (s : State) : Out :=
  answer
    (let k := s.ctx s.cur
     match s.access k .tagLoad (s.ri a).toNat (if x16 then 512 else 1) (if x16 then 512 else 1) with
     | .error f => .error f
     | .ok (ps, s) =>
       match (tagBytes x16 ps).find? fun x => s.secure x.pa && !k.world with
       | some x => trapRes (s.noteWorld k.world [x.pa]) 0x12 x.va
       | none =>
         let v := (tagBytes x16 ps).foldr (fun x acc => s.ownTag x.pa + 16 * acc) 0
         (s.memResult d (BitVec.ofNat 64 v) false false).done)

/-- TGST (R292): withheld in bundle form. -/
def execTgst (x16 : Bool) (d a : Opd) (s : State) : Out :=
  answer
    (let k := s.ctx s.cur
     match s.access k .tagStore (s.ri a).toNat (if x16 then 512 else 1) (if x16 then 512 else 1) with
     | .error f => .error f
     | .ok (ps, s) =>
       let v := (s.ri d).toNat
       let xs := tagBytes x16 ps
       let cells := (List.range xs.length).filterMap fun i => xs[i]?.map fun x => (x, bits v (4 * i + 3) (4 * i))
       match s.cur with
       | .core _ _ => ((s.defer (.tags cells)).countGst 1).done
       | .thr _ => (cells.foldl (fun s c => s.putTag k c.1 c.2) s).done)

/-! ### TLBINV (R406, R407) -/

/-- TLBINV (R406, R407): a privileged op; the issuer's earlier effects perform at DEVICE first, and it waits for the completion. -/
def State.tlbinv (s : State) (f : InvForm) : Res :=
  let k := s.ctx s.cur
  if !k.priv then trapRes s 0x0D 0
  else if s.pairCur == some 1 then s.done
  else
    let s := s.releaseAt k.dom .device
    match s.cur with
    | .core c _ => ((s.invalidate f k.world (.core c)).modCore c fun x => { x with wait := .tlbinv }).done
    | .thr t => (s.invalidate f k.world (.thread t)).waitAt .tlbinv

/-- TLBINV of an address (R406). -/
def execTlbinvVa (a b : Opd) (s : State) : Out :=
  answer (s.tlbinv (.va (bits (s.ri a).toNat 47 12 * 4096) (bits (s.ri b).toNat 15 0)))
/-- TLBINV of an ASID (R406). -/
def execTlbinvAsid (b : Opd) (s : State) : Out := answer (s.tlbinv (.asid (bits (s.ri b).toNat 15 0)))
/-- TLBINV of everything (R406). -/
def execTlbinvAll (s : State) : Out := answer (s.tlbinv .all)

end Sys2Proof.Machine
end

