-- ==== Sys2Proof/Machine/Geometry.lean ====
section
/-!
DEFINITION. The exact tests of queries (spec/06_traversal.md R203, R204): the ray and triangle sequence on f32 codes, and first contact of a
swept sphere or a ray with a triangle or a capsule on exact reals.
-/
namespace Sys2Proof.Machine

/-- A number per axis. -/
structure P3 where
  x : Frac
  y : Frac
  z : Frac
  deriving DecidableEq, Repr

/-- a + b. -/
def P3.add (a b : P3) : P3 := ⟨a.x.add b.x, a.y.add b.y, a.z.add b.z⟩
/-- a - b. -/
def P3.sub (a b : P3) : P3 := ⟨a.x.sub b.x, a.y.sub b.y, a.z.sub b.z⟩
/-- a scaled. -/
def P3.scale (a : P3) (k : Frac) : P3 := ⟨a.x.mul k, a.y.mul k, a.z.mul k⟩
/-- Inner product. -/
def P3.dot (a b : P3) : Frac := ((a.x.mul b.x).add (a.y.mul b.y)).add (a.z.mul b.z)
/-- Outer product. -/
def P3.cross (a b : P3) : P3 :=
  ⟨(a.y.mul b.z).sub (a.z.mul b.y), (a.z.mul b.x).sub (a.x.mul b.z), (a.x.mul b.y).sub (a.y.mul b.x)⟩
/-- Squared length. -/
def P3.sq (a : P3) : Frac := a.dot a

/-- An f32 code's real value. -/
def f32Real (c : Nat) : Frac := (decode .f32 c).real
/-- Is an f32 code finite? -/
def f32Fin (c : Nat) : Bool := match decode .f32 c with
  | .nan _ => false
  | .inf _ => false
  | _ => true
/-- Three f32 codes as a point. -/
def pointOf (v : Nat × Nat × Nat) : P3 := ⟨f32Real v.1, f32Real v.2.1, f32Real v.2.2⟩
/-- Are all three codes finite? -/
def finite3 (v : Nat × Nat × Nat) : Bool := f32Fin v.1 && f32Fin v.2.1 && f32Fin v.2.2
/-- Component a of three. -/
def axisOf (v : Nat × Nat × Nat) (a : Nat) : Nat := if a = 0 then v.1 else if a = 1 then v.2.1 else v.2.2

/-! ### The ray and triangle sequence (R203) -/

/-- The exact sum of products of codes, each negated where marked, rounded once. -/
def onceSum (l : List (Nat × Nat × Bool)) : Nat :=
  let ps := l.map fun e =>
    let b := decode .f32 e.2.1
    prodOrNan (decode .f32 e.1) (if e.2.2 then b.neg else b)
  (sumOnce ps).code
where
  /-- A product, a NaN where it has none. -/
  prodOrNan (a b : FVal) : FVal := if a.isNan || b.isNan then .nan false else (prodVal a b).getD (.nan false)
  /-- The exact sum of values rounded once: a NaN, or infinities of both signs, give NaN; a sum of zeros is -0 only where all are. -/
  sumOnce (l : List FVal) : Rnd :=
    let i := infs l
    if l.any FVal.isNan || (i.1 && i.2) then nanRnd .f32 0
    else if i.1 || i.2 then { code := infCode .f32 i.2, fl := 0 }
    else
      let q := l.foldl (fun a v => a.add v.real) (Frac.int 0)
      if q.isZero then { code := withSign .f32 (l != [] && l.all fun v => v == .zero true) 0, fl := 0 } else roundNE .f32 (.fin q)

/-- What a ray's test computes once (R203): axes kx, ky, kz and the shear Sx, Sy, Sz. -/
structure Shear where
  kx : Nat
  ky : Nat
  kz : Nat
  sx : Nat
  sy : Nat
  sz : Nat
  deriving DecidableEq, Repr

/-- f32 division. -/
def f32Div (a b : Nat) : Nat := (sfDiv (decode .f32 a) (decode .f32 b)).code

/-- The shear of a direction. -/
def shearOf (d : Nat × Nat × Nat) : Shear :=
  let m (a : Nat) : Frac := (f32Real (axisOf d a)).abs
  let kz := if (m 1).le (m 0) && (m 2).le (m 0) then 0 else if (m 2).le (m 1) then 1 else 2
  let k1 := (kz + 1) % 3
  let k2 := (kz + 2) % 3
  let neg := (f32Real (axisOf d kz)).isNeg
  let kx := if neg then k2 else k1
  let ky := if neg then k1 else k2
  { kx := kx, ky := ky, kz := kz, sx := f32Div (axisOf d kx) (axisOf d kz), sy := f32Div (axisOf d ky) (axisOf d kz),
    sz := f32Div 0x3F800000 (axisOf d kz) }

/-- A code as a code of value zero, negative or positive. -/
def f32Sign (c : Nat) : Ordering := cmpVal (decode .f32 c) (.zero false)

/-- The f32 code of 1. -/
def oneF32 : Nat := 0x3F800000

/-- The test of R203: t, b1 and b2 of a hit; a t of zero is +0 (R205). -/
def rayTriangle (o d : Nat × Nat × Nat) (tmin tmax : Nat) (v0 v1 v2 : Nat × Nat × Nat) : Option (Nat × Nat × Nat) :=
  let h := shearOf d
  let at' (v : Nat × Nat × Nat) (k : Nat) : Nat := (fpSub .f32 (axisOf v k) (axisOf o k)).code
  let px (v : Nat × Nat × Nat) : Nat := onceSum [(at' v h.kx, oneF32, false), (h.sx, at' v h.kz, true)]
  let py (v : Nat × Nat × Nat) : Nat := onceSum [(at' v h.ky, oneF32, false), (h.sy, at' v h.kz, true)]
  let pz (v : Nat × Nat × Nat) : Nat := (fpMul .f32 h.sz (at' v h.kz)).code
  let cross (a b c d : Nat) : Nat := onceSum [(a, b, false), (c, d, true)]
  let u := cross (px v2) (py v1) (py v2) (px v1)
  let v := cross (px v0) (py v2) (py v0) (px v2)
  let w := cross (px v1) (py v0) (py v1) (px v0)
  let signs := [f32Sign u, f32Sign v, f32Sign w]
  let fin3 := f32Fin u && f32Fin v && f32Fin w
  if !fin3 || (signs.contains .lt && signs.contains .gt) then none
  else
    let det := (fpAdd .f32 (fpAdd .f32 u v).code w).code
    let tt := onceSum [(u, pz v0, false), (v, pz v1, false), (w, pz v2, false)]
    let t := f32Div tt det
    if !f32Fin det || !f32Fin tt || !f32Fin t || f32Sign det == .eq then none
    else if (f32Real t).lt (f32Real tmin) || (f32Real tmax).lt (f32Real t) then none
    else some (if f32Sign t == .eq then 0 else t, f32Div v det, f32Div w det)

/-! ### Exact distances -/

/-- Squared distance from a point to a closed segment. -/
def pointSeg (p a b : P3) : Frac :=
  let ab := b.sub a
  let ap := p.sub a
  let l := ab.sq
  let n := ap.dot ab
  if l.isZero || n.isNeg then ap.sq
  else if l.le n then (p.sub b).sq
  else ap.sq.sub ((n.mul n).div l)

/-- Squared distance between two closed segments: of end points, or at the inner minimum where there is one. -/
def segSeg (p q a b : P3) : Frac :=
  let u := q.sub p
  let v := b.sub a
  let w := p.sub a
  let uu := u.sq
  let uv := u.dot v
  let vv := v.sq
  let uw := u.dot w
  let vw := v.dot w
  let det := (uu.mul vv).sub (uv.mul uv)
  let ends := ((pointSeg p a b).min (pointSeg q a b)).min ((pointSeg a p q).min (pointSeg b p q))
  if det.isZero then ends
  else
    let sn := (uv.mul vw).sub (vv.mul uw)
    let tn := (uu.mul vw).sub (uv.mul uw)
    if sn.isNeg || det.lt sn || tn.isNeg || det.lt tn then ends
    else (w.sq.add ((sn.mul uw).div det)).sub ((tn.mul vw).div det)

/-- Does a point project inside a triangle along its normal? -/
def insideTri (n p a b c : P3) : Bool :=
  let side (x y : P3) : Bool := !(n.dot ((y.sub x).cross (p.sub x))).isNeg
  side a b && side b c && side c a

/-- Squared distance from a closed segment to a closed triangle. -/
def segTri (p q a b c : P3) : Frac :=
  let n := (b.sub a).cross (c.sub a)
  let edges := ((segSeg p q a b).min (segSeg p q b c)).min (segSeg p q c a)
  let nn := n.sq
  if nn.isZero then edges
  else
    let dp := n.dot (p.sub a)
    let dq := n.dot (q.sub a)
    let face (d : Frac) (x : P3) (m : Frac) : Frac := if insideTri n x a b c then m.min ((d.mul d).div nn) else m
    let m := face dq q (face dp p edges)
    if (dp.mul dq).isNeg then
      let x := p.add ((q.sub p).scale (dp.div (dp.sub dq)))
      if insideTri n x a b c then Frac.int 0 else m
    else m

/-! ### First contact (R204) -/

/-- f32 codes of numbers in order of value: key 0 is zero. -/
def ordKey (c : Nat) : Int := if bit c 31 then -((c % 2 ^ 31 : Nat) : Int) else ((c % 2 ^ 31 : Nat) : Int)
/-- The code of a key. -/
def keyCode (k : Int) : Nat := if k < 0 then 2 ^ 31 + k.natAbs else k.toNat

/-- Adjacent keys between which a monotone test turns true, from keys at which it is false and true. -/
def bisect (g : Frac → Bool) : Nat → Int → Int → Int × Int
  | 0, lo, hi => (lo, hi)
  | n + 1, lo, hi =>
    if hi - lo ≤ 1 then (lo, hi)
    else
      let m := (lo + hi) / 2
      if g (f32Real (keyCode m)) then bisect g n lo m else bisect g n m hi

/-- The nearest f32 to the least t in [tmin, tmax] at which a closed test holds, given whether it has held by t: none where it never does. Two
distinct values of t at which a piece of the distance changes or meets the bound differ by more than 2^-8192. -/
def firstContact (g : Frac → Bool) (tmin tmax : Nat) : Option Nat :=
  if g (f32Real tmin) then some (keyCode (ordKey tmin))
  else if !g (f32Real tmax) then none
  else
    let r := bisect g 40 (ordKey tmin) (ordKey tmax)
    let m := ((f32Real (keyCode r.1)).add (f32Real (keyCode r.2))).mul ⟨1, 2⟩
    let up := !g m || (!g (m.sub (Frac.pow2 (-8192))) && r.1 % 2 != 0)
    some (keyCode (if up then r.2 else r.1))

/-- First contact of the sphere of a radius that moves from o along d with a triangle (R204). -/
def sweepTriangle (o d : P3) (tmin tmax : Nat) (r : Frac) (a b c : P3) : Option Nat :=
  let p := o.add (d.scale (f32Real tmin))
  firstContact (fun t => (segTri p (o.add (d.scale t)) a b c).le (r.mul r)) tmin tmax

/-- First contact with a segment's neighbourhood of a radius (R204): a capsule. -/
def sweepCapsule (o d : P3) (tmin tmax : Nat) (r : Frac) (a b : P3) : Option Nat :=
  let p := o.add (d.scale (f32Real tmin))
  firstContact (fun t => (segSeg p (o.add (d.scale t)) a b).le (r.mul r)) tmin tmax

end Sys2Proof.Machine
end

