-- ==== Sys2Proof/Machine/Traversal.lean ====
section
/-!
DEFINITION. Queries on acceleration structures: RAYQ, RAYW, RAYAH, the traversal behind QUERY_REPORT_READY, the leaf hint table and HINTINV
(spec/06_traversal.md R194 to R219).
-/
namespace Sys2Proof.Machine

/-! ### Keys and hits (R205) -/

/-- Is hit a before hit b in the order of keys (t, GID, PID) (R205)? -/
def Hit.before (a b : Hit) : Bool :=
  let x := f32Real a.t
  let y := f32Real b.t
  if x.lt y then true else if y.lt x then false else a.gid < b.gid || (a.gid == b.gid && a.pid < b.pid)

/-- The lesser of two hits, where there are any. -/
def leastHit (a b : Option Hit) : Option Hit :=
  match a, b with
  | some x, some y => if y.before x then b else a
  | none, b => b
  | a, none => a

/-- The least of several hits. -/
def leastOf (l : List Hit) : Option Hit := l.foldl (fun m h => leastHit m (some h)) none

/-- The least hit on opaque geometry. -/
def leastOpaque (l : List (Hit × Bool)) : Option Hit := leastOf ((l.filter (·.2)).map (·.1))

/-- Is a hit before the least so far, where there is one? -/
def Hit.under (h : Hit) (m : Option Hit) : Bool :=
  match m with
  | none => true
  | some x => h.before x

/-! ### The structure's items (R194 to R197) -/

/-- Fields of a header (R194). -/
def hdrGen (h : List Byte) : Nat := fieldAt h 8 4
/-- NGEOM. -/
def hdrNgeom (h : List Byte) : Nat := fieldAt h 12 4
/-- LO. -/
def hdrLo (h : List Byte) : Nat × Nat × Nat := (fieldAt h 16 4, fieldAt h 20 4, fieldAt h 24 4)
/-- HI. -/
def hdrHi (h : List Byte) : Nat × Nat × Nat := (fieldAt h 28 4, fieldAt h 32 4, fieldAt h 36 4)
/-- ROOT. -/
def hdrRoot (h : List Byte) : Nat := fieldAt h 40 8
/-- GTAB. -/
def hdrGtab (h : List Byte) : Nat := fieldAt h 48 8
/-- SIZE. -/
def hdrSize (h : List Byte) : Nat := fieldAt h 56 8

/-- Is an upper bound finite and at least its lower bound (R194)? -/
def boundOk (lo hi : Nat) : Bool :=
  f32Fin hi && match Machine.decode .f32 lo with
    | .nan _ => false
    | .inf neg => neg
    | v => !(f32Real hi).lt v.real

/-- Does a header break R194? A lower bound of −∞ is below every upper one (log 20). -/
def headerBad (h : List Byte) : Bool :=
  let lo := hdrLo h
  let hi := hdrHi h
  let n := hdrNgeom h
  fieldAt h 0 4 != 0x56424C41 || fieldAt h 4 2 != 1 || fieldAt h 6 2 != 0 || n == 0 || 2 ^ 24 < n
    || [0, 1, 2].any (fun a => !boundOk (axisOf lo a) (axisOf hi a))
    || hdrRoot h % 128 != 0 || hdrGtab h % 8 != 0 || 2 ^ 40 < hdrSize h || hdrSize h < 64

/-- NCH of a node (R195). -/
def nodeChildren (n : List Byte) : Nat := bits (fieldAt n 15 1) 2 0
/-- CHILDc of a node. -/
def nodeChild (n : List Byte) (c : Nat) : Nat := fieldAt n (16 + 8 * c) 8

/-- Does a node break R195? -/
def nodeBad (n : List Byte) : Bool :=
  let k := nodeChildren n
  !finite3 (fieldAt n 0 4, fieldAt n 4 4, fieldAt n 8 4) || [12, 13, 14].any (fun i => fieldAt n i 1 == 0xFF)
    || k == 0 || 6 < k || bits (fieldAt n 15 1) 7 3 != 0
    || (List.range k).any (fun c => let w := nodeChild n c; bits w 5 1 != 0 || (!bit w 0 && bit w 6))
    || fieldAt n 100 28 != 0

/-- Is child c's box empty (R195)? -/
def boxEmpty (n : List Byte) (c : Nat) : Bool :=
  [0, 1, 2].any fun a => fieldAt n (67 + 6 * c + a) 1 < fieldAt n (64 + 6 * c + a) 1

/-- GID of a leaf (R196). -/
def leafGid (l : List Byte) : Nat := fieldAt l 0 4
/-- Is it a leaf of capsules? -/
def leafCaps (l : List Byte) : Bool := fieldAt l 4 1 == 1
/-- COUNT. -/
def leafCount (l : List Byte) : Nat := fieldAt l 5 1

/-- Does a leaf's 16-byte header break R196? -/
def leafHeadBad (ngeom : Nat) (l : List Byte) : Bool :=
  ngeom ≤ leafGid l || 1 < fieldAt l 4 1 || leafCount l == 0 || 8 < leafCount l || fieldAt l 6 10 != 0

/-- Three codes of an entry from an offset. -/
def entry3 (e : List Byte) (off : Nat) : Nat × Nat × Nat := (fieldAt e off 4, fieldAt e (off + 4) 4, fieldAt e (off + 8) 4)

/-- Does an entry of a leaf break R196? -/
def entryBad (caps : Bool) (e : List Byte) : Bool :=
  if caps then !f32Fin (fieldAt e 24 4) || (f32Real (fieldAt e 24 4)).isNeg || fieldAt e 32 16 != 0 else fieldAt e 40 8 != 0

/-- The test of a query on an entry of a leaf (R203, R204): t, b1, b2. A primitive with a coordinate that is no number is never hit. -/
def Query.test (q : Query) (caps : Bool) (e : List Byte) : Option (Nat × Nat × Nat) :=
  let a := entry3 e 0
  let b := entry3 e 12
  let c := entry3 e 24
  let r := f32Real q.radius
  let exact (x : Option Nat) : Option (Nat × Nat × Nat) := x.map fun t => (t, 0, 0)
  if caps then
    if !finite3 a || !finite3 b then none
    else
      let rad := f32Real (fieldAt e 24 4)
      exact (sweepCapsule (pointOf q.o) (pointOf q.d) q.tmin q.tmax (if q.sphere then r.add rad else rad) (pointOf a) (pointOf b))
  else if q.sphere then
    if !finite3 a || !finite3 b || !finite3 c then none
    else exact (sweepTriangle (pointOf q.o) (pointOf q.d) q.tmin q.tmax r (pointOf a) (pointOf b) (pointOf c))
  else rayTriangle q.o q.d q.tmin q.tmax a b c

/-- The hits of a query on a leaf's entries, the leaf lying at an offset. -/
def Query.leafHits (q : Query) (off : Nat) (l : List Byte) : List Hit :=
  (List.range (leafCount l)).filterMap fun i =>
    let e := (l.drop (16 + 48 * i)).take 48
    (q.test (leafCaps l) e).map fun r =>
      { t := r.1, gid := leafGid l, pid := fieldAt e (if leafCaps l then 28 else 36) 4, b1 := r.2.1, b2 := r.2.2, leaf := off }

/-! ### The traversal (R197, R199, R206) -/

/-- Why a traversal stops: a malformed item's offset (R197), or a read that faults, with its cause and address (R208, R436). -/
inductive Stop where
  | malformed (off : Nat)
  | fault (cause va : Nat)
  deriving DecidableEq, Repr

/-- What a part of a traversal answers: a stop, or its result, with the state its reads leave. -/
abbrev Walk (α : Type) := Except (Stop × State) (α × State)

/-- The cause of a query op's faulted read: poison its own (R436), every other failed check the page fault (R208, R221, R224). -/
def readCause (c : Nat) : Nat := if 0x10 ≤ c && c ≤ 0x13 then c else 0x0A

/-- A thread's query changed. -/
def State.modQuery (s : State) (t : Tid) (f : Query → Query) : State :=
  s.modThread t fun x => { x with query := x.query.map f }

/-- The bytes of an item that a thread's query has read before. -/
def State.seenItem (s : State) (t : Tid) (off n : Nat) : Option (List Byte) :=
  (s.thread t).query.bind fun q => (q.seen.find? fun x => x.1 == (off, n)).map (·.2)

/-- n bytes of the structure at an offset from its handle (R199), read once in a query (R208). Each failed check of the access is the page
fault of R208 (log 20); poison keeps its cause (R436). -/
def State.readOnce (s : State) (t : Tid) (k : Ctx) (q : Query) (off n : Nat) : Walk (List Byte) :=
  match s.seenItem t off n with
  | some bs => .ok (bs, s)
  | none =>
    match s.load k ((q.handle.toNat + off) % 2 ^ 64) n 1 with
    | .ok (bs, s) => .ok (bs, s.modQuery t fun q => { q with seen := ((off, n), bs) :: q.seen })
    | .error f => .error (.fault (readCause f.trap.cause) f.trap.tval.toNat, f.st)

/-- An item that must lie wholly below SIZE (R197). -/
def State.readItem (s : State) (t : Tid) (k : Ctx) (q : Query) (size off n : Nat) : Walk (List Byte) :=
  if size < off + n then .error (.malformed off, s) else s.readOnce t k q off n

/-- A leaf, header and entries (R196, R197). -/
def State.leafBytes (s : State) (t : Tid) (k : Ctx) (q : Query) (h : List Byte) (off : Nat) : Walk (List Byte) :=
  match s.readItem t k q (hdrSize h) off 16 with
  | .error e => .error e
  | .ok (l, s) =>
    if leafHeadBad (hdrNgeom h) l || hdrSize h < off + 16 + 48 * leafCount l then .error (.malformed off, s)
    else match s.readOnce t k q (off + 16) (48 * leafCount l) with
      | .error e => .error e
      | .ok (es, s) =>
        if (List.range (leafCount l)).any fun i => entryBad (leafCaps l) ((es.drop (48 * i)).take 48) then .error (.malformed off, s)
        else .ok (l ++ es, s)

/-- The hits of a leaf, each with its geometry's opacity (R194, R197). -/
def State.leafResult (s : State) (t : Tid) (k : Ctx) (q : Query) (h : List Byte) (off : Nat) (l : List Byte) : Walk (List (Hit × Bool)) :=
  if q.opq then .ok ((q.leafHits off l).map fun x => (x, true), s)
  else
    let g := hdrGtab h + 8 * leafGid l
    match s.readItem t k q (hdrSize h) g 8 with
    | .error e => .error e
    | .ok (r, s) =>
      if 1 < fieldAt r 0 8 then .error (.malformed g, s)
      else .ok ((q.leafHits off l).map fun x => (x, bit (fieldAt r 0 4) 0), s)

/-- A leaf read and tested (R196, R197). -/
def State.readLeaf (s : State) (t : Tid) (k : Ctx) (q : Query) (h : List Byte) (off : Nat) : Walk (List (Hit × Bool)) :=
  match s.leafBytes t k q h off with
  | .error e => .error e
  | .ok (l, s) => s.leafResult t k q h off l

/-- A child entered after the hits so far: a leaf is read, a node visited by `sub` (R195). -/
def enterChild (t : Tid) (k : Ctx) (q : Query) (h node : List Byte) (sub : State → Nat → Walk (List (Hit × Bool)))
    (r : Walk (List (Hit × Bool))) (c : Nat) : Walk (List (Hit × Bool)) :=
  match r with
  | .error e => .error e
  | .ok (hs, s) =>
    let w := nodeChild node c
    match if bit w 0 then s.readLeaf t k q h (w / 64 * 64) else sub s (w / 64 * 64) with
    | .error e => .error e
    | .ok (more, s) => .ok (hs ++ more, s)

/-- The hits below a node, at most n nodes deep: every child but those of an empty box is entered (R195, R206). DESIGN CHOICE
(log 135): a child of an empty box does not count as named by the 64th node of a path (R197). -/
def State.visit (s : State) (t : Tid) (k : Ctx) (q : Query) (h : List Byte) : Nat → Nat → Walk (List (Hit × Bool))
  | 0, off => .error (.malformed off, s)
  | n + 1, off =>
    match s.readItem t k q (hdrSize h) off 128 with
    | .error e => .error e
    | .ok (node, s) =>
      if nodeBad node then .error (.malformed off, s)
      else
        ((List.range (nodeChildren node)).filter fun c => !boxEmpty node c).foldl
          (enterChild t k q h node fun s off => s.visit t k q h n off) (.ok ([], s))

/-- Hits with one (GID, PID) taken once, the least (R198). -/
def distinctHits (l : List (Hit × Bool)) : List (Hit × Bool) :=
  l.filter fun x => !l.any fun y => y.1.gid == x.1.gid && y.1.pid == x.1.pid && (y.1.before x.1)

/-! ### The hint table (R214 to R217) -/

/-- n clamped between 0 and a bound. -/
def clampNat (hi : Nat) (x : Int) : Nat := min hi x.toNat

/-- The three numbers of QO (R215); below a lower bound of −∞ the quotient has no value, and the number is free (log 20). -/
def hintQo (h : List Byte) (o : Nat × Nat × Nat) : Nat × Nat × Nat :=
  let f (a : Nat) : Nat :=
    let lo := f32Real (axisOf (hdrLo h) a)
    let w := (f32Real (axisOf (hdrHi h) a)).sub lo
    if !f32Fin (axisOf (hdrLo h) a) then Config.hintCell (axisOf o a) % 256
    else if w.isZero then 0 else clampNat 255 ((((Frac.int 256).mul ((f32Real (axisOf o a)).sub lo)).div w).floor)
  (f 0, f 1, f 2)

/-- The two numbers of QD (R215). -/
def hintQd (d : Nat × Nat × Nat) : Nat × Nat :=
  let v := pointOf d
  let l := (v.x.abs.add v.y.abs).add v.z.abs
  if l.isZero then (0, 0)
  else
    let nx := v.x.div l
    let ny := v.y.div l
    let one := Frac.int 1
    let sgn (a : Frac) (x : Frac) : Frac := if a.isNeg then x.neg else x
    let pq := if (v.z.div l).isNeg then (sgn nx (one.sub ny.abs), sgn ny (one.sub nx.abs)) else (nx, ny)
    let f (x : Frac) : Nat := clampNat 63 (((Frac.int 32).mul (x.add one)).floor)
    (f pq.1, f pq.2)

/-- The hint entry of a query, for a leaf (R215). -/
def Query.entry (q : Query) (h : List Byte) (part leaf : Nat) : Hint :=
  { saddr := bits q.handle.toNat 47 6, gen := hdrGen h, part := part, kind := q.sphere, qo := hintQo h q.o, qd := hintQd q.d, leaf := leaf }

/-- Have two entries the same key? -/
def Hint.same (a b : Hint) : Bool := { a with leaf := 0 } == { b with leaf := 0 }

/-- A query that closes with HIT fills its unit's table, in the ways of its partition (R216, R217). DESIGN CHOICE (log 136): a query with
NOHINT = 1 bypasses the table's fill as well as its lookup (R200). -/
def State.fillHint (s : State) (t : Tid) (q : Query) (leaf : Nat) : State :=
  match q.header with
  | none => s
  | some h =>
    let part := Card.part (s.cardAt (.thr t))
    let e := q.entry h part leaf
    let cap := 512 * s.partHways part
    if q.nohint || cap = 0 then s
    else s.modUnit t.unit fun v =>
      let mine := (e :: v.hints.filter fun x => x.part == part && !x.same e).take cap
      { v with hints := mine ++ v.hints.filter fun x => x.part != part }

/-! ### Reports (R207, R210, R211) -/

/-- What the traversal found, as the report of a query in EXACT mode (R210). -/
def Query.exactReport (q : Query) (hs : List (Hit × Bool)) : Report :=
  match q.accepted with
  | some h => .hit h
  | none =>
    let top := leastOpaque hs
    let cands := (hs.filter fun x => !x.2 && !q.delivered.contains (x.1.gid, x.1.pid) && x.1.under top).map (·.1)
    match leastOf cands, top with
    | some c, _ => .candidate c
    | none, some h => .hit h
    | none, none => .miss

/-- The same in FAST mode (R211): a choice says which opaque hit is found next, if one is, and which candidate is delivered. -/
def Query.fastReport (q : Query) (hs : List (Hit × Bool)) (choice : Nat) : Report × Option Hit :=
  let opaques := (hs.filter (·.2)).map (·.1)
  let n := opaques.length
  let best := match choice % (n + 1) with
    | 0 => q.best
    | i + 1 => leastHit q.best opaques[i]?
  let closest := leastHit best q.accepted
  let cands := (hs.filter fun x => !x.2 && !q.delivered.contains (x.1.gid, x.1.pid) && x.1.under closest).map (·.1)
  match cands[choice / (n + 1) % cands.length]? with
  | some c => (.candidate c, best)
  | none =>
    match leastHit closest (leastOf opaques) with
    | some h => (.hit h, best)
    | none => (.miss, best)

/-- The header read once at the query's start, and the hint looked up with it (R199, R216). -/
def State.startQuery (s : State) (t : Tid) (k : Ctx) (q : Query) : Walk Query :=
  match q.header with
  | some _ => .ok (q, s)
  | none =>
    if q.handle.toNat % 64 != 0 then .error (.malformed 0, s)
    else match s.readItem t k q 64 0 64 with
      | .error e => .error e
      | .ok (h, s) =>
        if headerBad h then .error (.malformed 0, s)
        else
          let e := q.entry h k.part 0
          let hint := if q.nohint then none else ((s.unit t.unit).hints.find? fun x => x.same e).map (·.leaf)
          let q := { q with header := some h, hint := hint }
          .ok (q, s.modQuery t fun y => { y with header := some h, hint := hint })

/-- The hits of the hinted leaf, tested before the traversal, of opaque geometry only in EXACT mode; a hinted leaf that breaks R196 or lies
outside the structure is dropped (R198, R216). -/
def State.hintHits (s : State) (t : Tid) (k : Ctx) (q : Query) (h : List Byte) : Walk (List (Hit × Bool)) :=
  match q.hint with
  | none => .ok ([], s)
  | some off =>
    match s.leafBytes t k q h off with
    | .error (.malformed _, s) => .ok ([], s)
    | .error e => .error e
    | .ok (l, s) =>
      match s.leafResult t k q h off l with
      | .error e => .error e
      | .ok (hs, s) => .ok (if q.fast then hs else hs.filter fun x => x.2, s)

/-- The report that a traversal of a query comes to under a choice, with FAST's least opaque hit so far, which starts at the hinted leaf's
(R207 to R211, R216). -/
def State.traverse (s : State) (t : Tid) (q : Query) (choice : Nat) : Walk (Report × Option Hit) :=
  let k := s.ctx (.thr t)
  match s.startQuery t k q with
  | .error e => .error e
  | .ok (q, s) =>
    let h := q.header.getD []
    match s.hintHits t k q h with
    | .error e => .error e
    | .ok (more, s) =>
      match s.visit t k q h 64 (hdrRoot h) with
      | .error e => .error e
      | .ok (hs, s) =>
        let q := { q with best := leastHit q.best (leastOpaque more) }
        let hs := distinctHits ((more ++ hs).eraseDups)
        .ok (if q.fast then q.fastReport hs choice else (q.exactReport hs, none), s)

/-! ### RAYW (R207, R208, R213) -/

/-- The four registers of a report. -/
def State.putReport (s : State) (t : Tid) (d tcode status w1 w2 w3 : Nat) : State :=
  (((s.putX t d (BitVec.ofNat 64 (tcode + status * 2 ^ 32))).putX t (d + 1) (BitVec.ofNat 64 w1)).putX t (d + 2)
    (BitVec.ofNat 64 w2)).putX t (d + 3) (BitVec.ofNat 64 w3)

/-- The registers of a hit or candidate. -/
def State.putHit (s : State) (t : Tid) (d status : Nat) (h : Hit) (count : Nat) : State :=
  s.putReport t d h.t status (h.gid + h.pid * 2 ^ 32) (h.b1 + h.b2 * 2 ^ 32) count

/-- A query closed: its Count goes to the job's any-hit counter and into a record (R213). -/
def State.closeQuery (s : State) (t : Tid) (count : Nat) : State :=
  let s := s.emitAt (.thr t) 0x20 5 false (min count 0xFFFFFF) 0 0
  let s := match s.jobOf (.thr t) with
    | some j => s.modSlot j fun z => { z with anyhit := z.anyhit + count }
    | none => s
  s.modThread t fun x => { x with query := none }

/-- What RAYW delivers of an open query that has a report or a pending candidate (R207, R208). -/
def State.deliverQuery (s : State) (t : Tid) (d : Nat) (q : Query) : Res :=
  match q.pending, q.report with
  | some h, _ => .ok (s.putHit t d 2 h q.count)
  | none, some (.candidate h) =>
    let n := min (q.count + 1) (2 ^ 32 - 1)
    .ok ((s.putHit t d 2 h n).modQuery t fun q =>
      { q with report := none, pending := some h, delivered := q.delivered ++ [(h.gid, h.pid)], count := n })
  | none, some (.hit h) => .ok (((s.putHit t d 1 h q.count).fillHint t q h.leaf).closeQuery t q.count)
  | none, some .miss => .ok ((s.putReport t d (infCode .f32 false) 0 (2 ^ 64 - 1) 0 q.count).closeQuery t q.count)
  | none, some (.malformed off) => .ok ((s.putReport t d (infCode .f32 false) 3 off 0 q.count).closeQuery t q.count)
  | none, some .bad => .ok ((s.putReport t d (infCode .f32 false) 5 0 0 0).closeQuery t q.count)
  | none, some (.fault c va) => trapRes (s.modQuery t fun q => { q with report := none }) c va
  | none, none => .ok s

/-- RAYW (R207). -/
def execRayw (d : Opd) (s : State) : Out :=
  answer
    (match s.cur with
     | .core .. => s.done
     | .thr t =>
       match (s.thread t).query with
       | none => (s.putReport t (opdNum d) (infCode .f32 false) 7 0 0 0).done
       | some q =>
         if q.pending.isNone && q.report.isNone then s.waitAt (.query (opdNum d))
         else match s.deliverQuery t (opdNum d) q with
           | .ok s => s.done
           | .error f => .error f)

/-- The report a traversal comes to, kept in its query (R207 to R211). -/
def State.reportQuery (s : State) (t : Tid) (q : Query) (choice : Nat) : State :=
  match s.traverse t q choice with
  | .ok (r, s) => s.modQuery t fun q => { q with report := some r.1, best := r.2 }
  | .error (.malformed off, s) => s.modQuery t fun q => { q with report := some (.malformed off) }
  | .error (.fault c va, s) => s.modQuery t fun q => { q with report := some (.fault c va) }

/-- A traversal has come to a report (R207 to R211): a thread that waits for it in RAYW takes it, or takes the fault of its read there. -/
def execQueryReportReady (t : Tid) (choice : Nat) (s : State) : Out :=
  match (s.thread t).query with
  | none => .next s
  | some q =>
    if q.report.isSome || q.pending.isSome then .next s
    else
      let s := s.reportQuery t q choice
      match (s.thread t).wait, (s.thread t).query with
      | .query d, some q =>
        match s.deliverQuery t d q with
        | .ok s => .next (s.wakeDone t)
        | .error f => .next ((f.st.threadTrap t f.trap.cause f.trap.tval).fillTmask t.unit)
      | _, _ => .next s

/-! ### RAYQ and RAYAH (R200 to R202, R212) -/

/-- A register of a thread; x0 reads zero (R23). -/
def State.getX (s : State) (t : Tid) (n : Nat) : Nat := if n = 0 then 0 else (mget 0 (s.thread t).x n).toNat

/-- The query that RAYQ's operands hold (R200). -/
def State.queryAt (s : State) (t : Tid) (sphere : Bool) (radius : Nat) (q : Nat) (handle : Word) (fast nohint opq : Bool) : Query :=
  let w (i : Nat) : Nat × Nat := let x := s.getX t (q + i); (x % 2 ^ 32, x / 2 ^ 32)
  { sphere := sphere, radius := if radius = 2 ^ 31 then 0 else radius, o := ((w 0).1, (w 0).2, (w 1).1), tmin := (w 1).2,
    d := ((w 2).1, (w 2).2, (w 3).1), tmax := (w 3).2, handle := handle, fast := fast, nohint := nohint, opq := opq, header := none,
    report := none, pending := none, delivered := [], accepted := none, best := none, hint := none, seen := [],
    count := 0 }

/-- Is a query invalid (R201)? -/
def Query.invalid (q : Query) : Bool :=
  !finite3 q.o || !finite3 q.d || !f32Fin q.tmin || !f32Fin q.tmax || (f32Real q.tmax).lt (f32Real q.tmin)
    || (if q.sphere then !f32Fin q.radius || (f32Real q.radius).isNeg
        else [0, 1, 2].all fun a => (f32Real (axisOf q.d a)).isZero)

/-- A query begun (R200 to R202): one open query a thread; an invalid one reports at once. -/
def State.rayq (s : State) (sphere : Bool) (radius : Nat) (q h : Opd) (fast nohint opq : Bool) : Res :=
  match s.cur with
  | .core .. => s.done
  | .thr t =>
    if (s.thread t).query.isSome then trapRes s 0x18 1
    else
      let x := s.queryAt t sphere radius (opdNum q) (s.ri h) fast nohint opq
      (s.modThread t fun y => { y with query := some { x with report := if x.invalid then some .bad else none } }).done

/-- RAYQ of a ray (R200). -/
def execRayqRay (q h : Opd) (fast nohint opq : Bool) (s : State) : Out := answer (s.rayq false 0 q h fast nohint opq)
/-- RAYQ of a swept sphere (R200). -/
def execRayqSph (r q h : Opd) (fast nohint opq : Bool) (s : State) : Out :=
  answer (s.rayq true ((s.ri r).toNat % 2 ^ 32) q h fast nohint opq)

/-- RAYAH (R212): the pending candidate resolved; an acceptance ends EXACT's second pass, and lowers FAST's closest hit. -/
def State.resolve (s : State) (accept : Bool) : Res :=
  match s.cur with
  | .core .. => s.done
  | .thr t =>
    match (s.thread t).query.bind (·.pending) with
    | none => trapRes s 0x18 2
    | some h => (s.modQuery t fun q =>
        { q with pending := none, accepted := if accept then leastHit q.accepted (some h) else q.accepted }).done

/-- RAYAH ignoring the candidate (R212). -/
def execRayahIgnore (s : State) : Out := answer (s.resolve false)
/-- RAYAH accepting the candidate (R212). -/
def execRayahAccept (s : State) : Out := answer (s.resolve true)

/-! ### HINTINV (R218) -/

/-- Hint entries that meet a test removed from the table of every unit. -/
def State.dropHints (s : State) (p : Hint → Bool) : State :=
  (List.range 32).foldl (fun s u => s.modUnit u fun v => { v with hints := v.hints.filter fun h => !p h }) s

/-- The removal begun; the thread's next word waits for its completion. -/
def State.hintRemove (s : State) (p : Hint → Bool) : Res :=
  let part := Card.part (s.cardAt s.cur)
  (s.dropHints fun h => h.part == part && p h).waitAt .hintinv

/-- HINTINV of a handle (R218). -/
def execHintinv (a : Opd) (s : State) : Out := answer (s.hintRemove fun h => h.saddr == bits (s.ri a).toNat 47 6)
/-- HINTINV of every entry of the partition (R218). -/
def execHintinvAll (s : State) : Out := answer (s.hintRemove fun _ => true)

/-- HINTINV has completed: the thread goes on (R218). -/
def execHintinvComplete (t : Tid) (s : State) : Out :=
  if (s.thread t).wait = .hintinv then .next (s.wakeDone t) else .next s

end Sys2Proof.Machine
end

