-- ==== Sys2Proof/Machine/Sampling.lean ====
section
/-!
DEFINITION. Image sampling and layered cost maps: ISAMP, CMSAMP, CMSEG (spec/06_traversal.md R220 to R225). A fault of any check of R265 on
a descriptor, texel or cell is the page-fault trap these ops name (log 20).
-/
namespace Sys2Proof.Machine

/-- n bytes loaded by a query op; a failed check is the page-fault trap with the failing address (R221, R224), poison its own (R436). -/
def State.sampleLoad (s : State) (k : Ctx) (addr n : Nat) : Except Fail (List Byte × State) :=
  match s.load k (addr % 2 ^ 64) n 1 with
  | .ok r => .ok r
  | .error f =>
    .error ⟨⟨readCause f.trap.cause, f.trap.tval⟩, f.st⟩

/-- Two f32 codes as a register holds them. -/
def pair32 (lo hi : Nat) : Word := BitVec.ofNat 64 (lo % 2 ^ 32 + hi % 2 ^ 32 * 2 ^ 32)

/-- A pair of registers written by a thread's op. -/
def State.putPair (s : State) (d : Opd) (lo hi : Word) : State :=
  match s.cur with
  | .core .. => s
  | .thr t => (s.putX t (opdNum d) lo).putX t (opdNum d + 1) hi

/-- A NaN's code made canonical; other codes stand. -/
def quiet32 (c : Nat) : Nat := if (decode .f32 c).isNan then canon .f32 else c

/-! ### ISAMP (R220, R221) -/

/-- Bytes of a texel by FMT. -/
def texelSize (fmt : Nat) : Nat := match fmt with
  | 0 => 1
  | 1 => 4
  | 2 => 2
  | 3 => 8
  | _ => 4
/-- Channels of a texel by FMT. -/
def texelChans (fmt : Nat) : Nat := if fmt == 1 || fmt == 3 then 4 else 1

/-- Does an image descriptor break R220? -/
def texelMapBad (d : List Byte) : Bool :=
  let fmt := fieldAt d 16 1
  let w := fieldAt d 8 2
  let h := fieldAt d 10 2
  let pitch := fieldAt d 12 4
  let z := texelSize fmt
  4 < fmt || fieldAt d 0 8 % z != 0 || w == 0 || 16384 < w || h == 0 || 16384 < h || pitch % z != 0 || pitch < w * z
    || 2 < fieldAt d 17 1 || 1 < fieldAt d 18 1 || 1 < fieldAt d 19 1 || (fieldAt d 19 1 == 1 && 1 < fmt) || fieldAt d 24 8 != 0

/-- A channel of a texel's bytes as a value (R220): n8 as its number or a 255th of it. -/
def texelChan (d : List Byte) (bs : List Byte) (c : Nat) : FVal :=
  let fmt := fieldAt d 16 1
  match fmt with
  | 0 | 1 =>
    let k := fieldAt bs c 1
    FVal.ofFrac (if fieldAt d 19 1 == 1 then ⟨k, 255⟩ else Frac.int k)
  | 2 | 3 => decode .f16 (fieldAt bs (2 * c) 2)
  | _ => decode .f32 (fieldAt bs 0 4)

/-- A coordinate under the address mode: none is outside, for the border (R221). -/
def texelCoord (mode n : Nat) (i : Int) : Option Nat :=
  match mode with
  | 0 => some (max 0 (min i (n - 1))).toNat
  | 1 => some (i % n).toNat
  | _ => if 0 ≤ i && i < n then some i.toNat else none

/-- The channels of texel (i, j) (R221). -/
def State.texel (s : State) (k : Ctx) (d : List Byte) (i j : Int) : Except Fail (List FVal × State) :=
  let fmt := fieldAt d 16 1
  let n := texelChans fmt
  match texelCoord (fieldAt d 17 1) (fieldAt d 8 2) i, texelCoord (fieldAt d 17 1) (fieldAt d 10 2) j with
  | some x, some y =>
    match s.sampleLoad k (fieldAt d 0 8 + y * fieldAt d 12 4 + x * texelSize fmt) (texelSize fmt) with
    | .error f => .error f
    | .ok (bs, s) => .ok ((List.range n).map (texelChan d bs), s)
  | _, _ => .ok (List.replicate n (decode .f32 (fieldAt d 20 4)), s)

/-- Weighted texels read, those of weight zero not (R221). -/
def State.texels (s : State) (k : Ctx) (d : List Byte) : List (Frac × Int × Int) → Except Fail (List (Frac × List FVal) × State)
  | [] => .ok ([], s)
  | (w, i, j) :: rest =>
    if w.isZero then s.texels k d rest
    else match s.texel k d i j with
      | .error f => .error f
      | .ok (v, s) => match s.texels k d rest with
        | .error f => .error f
        | .ok (l, s) => .ok ((w, v) :: l, s)

/-- The texels of a sample and their weights (R221). -/
def sampleTaps (bilinear : Bool) (u v : Nat) : List (Frac × Int × Int) :=
  let one := Frac.int 1
  if !bilinear then [(one, (f32Real u).floor, (f32Real v).floor)]
  else
    let half : Nat := 0x3F000000
    let x := f32Real (fpSub .f32 u half).code
    let y := f32Real (fpSub .f32 v half).code
    let i := x.floor
    let j := y.floor
    let a := x.sub (Frac.int i)
    let b := y.sub (Frac.int j)
    [((one.sub a).mul (one.sub b), i, j), (a.mul (one.sub b), i + 1, j), ((one.sub a).mul b, i, j + 1), (a.mul b, i + 1, j + 1)]

/-- The image's channels written: one-channel formats give +0, +0 and 1.0 beside their own (R221). -/
def State.putChans (s : State) (d : Opd) (cs : List Nat) : State :=
  match cs with
  | [c] => s.putPair d (pair32 c 0) (pair32 0 oneF32)
  | cs => s.putPair d (pair32 (cs.getD 0 0) (cs.getD 1 0)) (pair32 (cs.getD 2 0) (cs.getD 3 0))

/-- The sum of weighted values, rounded once; a nearest texel stands as it reads (R221). -/
def blendChan (l : List (Frac × FVal)) : Nat :=
  match l with
  | [(_, v)] => (roundNE .f32 v).code
  | l => (onceSum.sumOnce (l.map fun e => match e.2 with
    | .fin q => .fin (q.mul e.1)
    | v => v)).code

/-- ISAMP (R221). A bad descriptor gives the canonical NaN in all four channels, since it names no format (log 20). -/
def State.isamp (s : State) (d : Opd) (addr : Word) (uv : Word) : Res :=
  let nan := canon .f32
  let bad (s : State) : Res := (s.putChans d [nan, nan, nan, nan]).done
  let k := s.ctx s.cur
  if addr.toNat % 32 != 0 then bad s
  else match s.sampleLoad k addr.toNat 32 with
    | .error f => .error f
    | .ok (img, s) =>
      let u := uv.toNat % 2 ^ 32
      let v := uv.toNat / 2 ^ 32
      let n := texelChans (fieldAt img 16 1)
      if texelMapBad img then bad s
      else if !f32Fin u || !f32Fin v then (s.putChans d (List.replicate n nan)).done
      else match s.texels k img (sampleTaps (fieldAt img 18 1 == 1) u v) with
        | .error f => .error f
        | .ok (l, s) => (s.putChans d ((List.range n).map fun c => blendChan (l.map fun e => (e.1, e.2.getD c (.zero false))))).done

/-- ISAMP (R221). -/
def execIsamp (d a b : Opd) (s : State) : Out := answer (s.isamp d (s.ri a) (s.ri b))

/-! ### Cost maps (R222 to R225) -/

/-- Cell size of LTYPE. -/
def cellSize (m : List Byte) : Nat := if fieldAt m 5 1 == 4 then 1 else 2
/-- WIDTH. -/
def mapWidth (m : List Byte) : Nat := fieldAt m 8 4
/-- HEIGHT. -/
def mapHeight (m : List Byte) : Nat := fieldAt m 12 4

/-- Does a cost-map descriptor break R222? -/
def mapBad (m : List Byte) : Bool :=
  let z := cellSize m
  let n := fieldAt m 4 1
  fieldAt m 0 4 != 0x4D434C41 || n == 0 || 8 < n || !(fieldAt m 5 1 == 4 || fieldAt m 5 1 == 0x11) || 2 < fieldAt m 6 1
    || fieldAt m 7 1 != 0 || mapWidth m == 0 || 65536 < mapWidth m || mapHeight m == 0 || 65536 < mapHeight m
    || fieldAt m 16 4 < mapWidth m * z || fieldAt m 16 4 % z != 0 || fieldAt m 20 4 != 0 || fieldAt m 24 8 % z != 0
    || !f32Fin (fieldAt m 32 4) || !f32Fin (fieldAt m 36 4) || !f32Fin (fieldAt m 40 4) || !(Frac.int 0).lt (f32Real (fieldAt m 40 4))
    || !f32Fin (fieldAt m 48 4) || (f32Real (fieldAt m 48 4)).isNeg || fieldAt m 52 12 != 0 || fieldAt m 72 8 % z != 0
    || fieldAt m 80 16 != 0

/-- A layer's value (R223). -/
def layerVal (m bs : List Byte) : FVal :=
  if cellSize m = 1 then FVal.ofFrac (Frac.int (fieldAt bs 0 1))
  else match decode .f16 (fieldAt bs 0 2) with
    | .nan _ => .inf false
    | v => v

/-- The combined cost of a cell from its layers' values (R223). -/
def combine (m : List Byte) (l : List FVal) : Nat :=
  match fieldAt m 6 1 with
  | 0 =>
    let v := l.foldl (fun a b => if ltSigned a b then b else a) (l.headD (.zero false))
    (roundNE .f32 v).code
  | 1 =>
    let i := infs l
    let cap := fieldAt m 48 4
    if i.1 && i.2 then canon .f32
    else if i.1 then cap
    else if i.2 then infCode .f32 true
    else
      let q := l.foldl (fun a v => a.add v.real) (Frac.int 0)
      if (f32Real cap).lt q then cap else (onceSum.sumOnce l).code
  | _ =>
    let ps := ((List.range l.length).filter fun i => decode .f32 (fieldAt m (96 + 4 * i) 4) != .zero false
        && decode .f32 (fieldAt m (96 + 4 * i) 4) != .zero true).map fun i =>
      onceSum.prodOrNan (decode .f32 (fieldAt m (96 + 4 * i) 4)) (l.getD i (.zero false))
    (onceSum.sumOnce ps).code

/-- The layers' values of a cell of the map (R222). -/
def State.layers (s : State) (k : Ctx) (m : List Byte) (i j : Nat) : Nat → Except Fail (List FVal × State)
  | 0 => .ok ([], s)
  | n + 1 => match s.layers k m i j n with
    | .error f => .error f
    | .ok (l, s) =>
      match s.sampleLoad k (fieldAt m 72 8 + n * fieldAt m 24 8 + j * fieldAt m 16 4 + i * cellSize m) (cellSize m) with
      | .error f => .error f
      | .ok (bs, s) => .ok (l ++ [layerVal m bs], s)

/-- The cost of a cell of the map (R223). -/
def State.cellCost (s : State) (k : Ctx) (m : List Byte) (i j : Nat) : Except Fail (Nat × State) :=
  match s.layers k m i j (fieldAt m 4 1) with
  | .error f => .error f
  | .ok (l, s) => .ok (combine m l, s)

/-- A world position in cell space (R224): f32 codes. -/
def cellPos (m : List Byte) (x o : Nat) : Nat := (fpMul .f32 (fpSub .f32 x (fieldAt m o 4)).code (fieldAt m 40 4)).code

/-- The descriptor of a cost-map op read, its control pair acquired at DEVICE first (R225): none where it is bad. -/
def State.readMap (s : State) (k : Ctx) (addr : Word) : Except Fail (Option (List Byte) × State) :=
  if addr.toNat % 128 != 0 then .ok (none, s)
  else match (s.acquireAt k.dom .device).sampleLoad k addr.toNat 128 with
    | .error f => .error f
    | .ok (m, s) => .ok (if mapBad m then none else some m, s)

/-- CMSAMP (R224, R225). -/
def State.cmsamp (s : State) (d : Opd) (addr xy : Word) : Res :=
  let k := s.ctx s.cur
  let out (s : State) (cost status : Nat) (gen : Nat) : Res := (s.putPair d (pair32 cost status) (BitVec.ofNat 64 gen)).done
  match s.readMap k addr with
  | .error f => .error f
  | .ok (none, s) => out s (canon .f32) 2 0
  | .ok (some m, s) =>
    let x := xy.toNat % 2 ^ 32
    let y := xy.toNat / 2 ^ 32
    if !f32Fin x || !f32Fin y then out s (canon .f32) 2 0
    else
      let u := cellPos m x 32
      let v := cellPos m y 36
      let i := (f32Real u).floor
      let j := (f32Real v).floor
      let gen := fieldAt m 64 8
      if !f32Fin u || !f32Fin v || i < 0 || j < 0 || (mapWidth m : Int) ≤ i || (mapHeight m : Int) ≤ j then
        out s (quiet32 (fieldAt m 44 4)) 1 gen
      else match s.cellCost k m i.toNat j.toNat with
        | .error f => .error f
        | .ok (c, s) => out s c 0 gen

/-! ### CMSEG -/

/-- Ceiling. -/
def Frac.ceil (q : Frac) : Int := -(q.neg.floor)

/-- The segment's rows in the closed column [i, i + 1]: the interval of v it covers there, none where it does not meet it. -/
def columnSpan (u0 v0 u1 v1 : Frac) (i : Int) : Option (Frac × Frac) :=
  let lo := Frac.int i
  let hi := Frac.int (i + 1)
  let du := u1.sub u0
  if du.isZero then (if lo.le u0 && u0.le hi then some (v0.min v1, v0.max v1) else none)
  else
    let at' (u : Frac) : Frac := v0.add (((u.sub u0).mul (v1.sub v0)).div du)
    let a := (u0.min u1).max lo
    let b := (u0.max u1).min hi
    if b.lt a then none else some ((at' a).min (at' b), (at' a).max (at' b))

/-- First and last index of the closed unit intervals that meet a closed interval. -/
def unitSpan (lo hi : Frac) : Int × Int := (Frac.ceil lo - 1, hi.floor)

/-- The integers from a to b. -/
def intRange (a b : Int) : List Int := (List.range (b + 1 - a).toNat).map fun (n : Nat) => a + (n : Int)

/-- The greatest cost, NaN taking all (R224). -/
def maxCost (a b : Nat) : Nat :=
  if (decode .f32 a).isNan || (decode .f32 b).isNan then canon .f32 else (minMaxCode .f32 true a b).code

/-- The greatest cost over cells of the map. -/
def State.cellsCost (s : State) (k : Ctx) (m : List Byte) : List (Nat × Nat) → Option Nat → Except Fail (Option Nat × State)
  | [], acc => .ok (acc, s)
  | (i, j) :: rest, acc => match s.cellCost k m i j with
    | .error f => .error f
    | .ok (c, s) => s.cellsCost k m rest (some (match acc with
      | none => quiet32 c
      | some a => maxCost a c))

/-- The cells of the map that a segment meets, and how many cells it meets in all, at least 2^32 - 1 where more (R224). -/
def segmentCells (m : List Byte) (u0 v0 u1 v1 : Frac) : List (Nat × Nat) × Nat :=
  let w : Int := mapWidth m
  let h : Int := mapHeight m
  let cols := unitSpan (u0.min u1) (u0.max u1)
  let rows := unitSpan (v0.min v1) (v0.max v1)
  let span (i : Int) : List Int := match columnSpan u0 v0 u1 v1 i with
    | some (lo, hi) => let r := unitSpan lo hi; [r.1, r.2]
    | none => []
  let inside := (intRange (max 0 cols.1) (min (w - 1) cols.2)).flatMap fun i => match span i with
    | [a, b] => (intRange (max 0 a) (min (h - 1) b)).map fun j => (i.toNat, j.toNat)
    | _ => []
  let big : Nat := 2 ^ 32 - 1
  let nc := cols.2 + 1 - cols.1
  let nr := rows.2 + 1 - rows.1
  let total : Nat :=
    if (big : Int) ≤ nc || (big : Int) ≤ nr then big
    else min big (countColumns span cols.1 nc.toNat)
  (inside, total)
where
  /-- The rows of n columns from one, summed. -/
  countColumns (span : Int → List Int) (i : Int) : Nat → Nat
    | 0 => 0
    | n + 1 => (match span (i + n) with
      | [a, b] => (b + 1 - a).toNat
      | _ => 0) + countColumns span i n

/-- CMSEG (R224, R225). -/
def State.cmseg (s : State) (d : Opd) (addr p0 p1 : Word) : Res :=
  let k := s.ctx s.cur
  let out (s : State) (cost n : Nat) (gen : Nat) : Res := (s.putPair d (pair32 cost n) (BitVec.ofNat 64 gen)).done
  match s.readMap k addr with
  | .error f => .error f
  | .ok (none, s) => out s (canon .f32) 0 0
  | .ok (some m, s) =>
    let x (p : Word) : Nat := p.toNat % 2 ^ 32
    let y (p : Word) : Nat := p.toNat / 2 ^ 32
    if [x p0, y p0, x p1, y p1].any fun c => !f32Fin c then out s (canon .f32) 0 0
    else
      let us := [cellPos m (x p0) 32, cellPos m (x p1) 32]
      let vs := [cellPos m (y p0) 36, cellPos m (y p1) 36]
      let gen := fieldAt m 64 8
      let outside := quiet32 (fieldAt m 44 4)
      let infinite := (us ++ vs).any fun c => !f32Fin c
      let all := (List.range (mapWidth m)).flatMap fun i => (List.range (mapHeight m)).map fun j => (i, j)
      let cells := if infinite then (all, 2 ^ 32 - 1)
        else segmentCells m (f32Real (us.getD 0 0)) (f32Real (vs.getD 0 0)) (f32Real (us.getD 1 0)) (f32Real (vs.getD 1 0))
      match s.cellsCost k m cells.1 (if infinite || cells.1.length < cells.2 then some outside else none) with
      | .error f => .error f
      | .ok (c, s) => out s (c.getD outside) cells.2 gen

/-- CMSAMP (R224). -/
def execCmsamp (d a b : Opd) (s : State) : Out := answer (s.cmsamp d (s.ri a) (s.ri b))
/-- CMSEG (R224). -/
def execCmseg (d a b : Opd) (s : State) : Out :=
  answer (match s.cur with
    | .core .. => s.done
    | .thr t => s.cmseg d (s.ri a) (BitVec.ofNat 64 (s.getX t (opdNum b))) (BitVec.ofNat 64 (s.getX t (opdNum b + 1))))

end Sys2Proof.Machine
end

