-- ==== Sys2Proof/Machine/Issue.lean ====
section
/-!
DEFINITION. BUNDLE_ISSUE: what a slot op reads, writes, costs and weighs (spec/01_machine.md R37, R40; spec/02_encoding.md R61, R66;
spec/08_memory_ops.md R269; spec/10_progress.md R353), the fetch and checks of a bundle (R68, R77), the stalls (R38, R41, R51), the
interval limits (R411), the current limit (R354), the commit (R414) and the words that then issue (R55).
-/
namespace Sys2Proof.Machine

/-! ### What an op costs -/

/-- Is the op of class SM (R37)? -/
def isSm (i : Instr) : Bool :=
  match i with
  | .mma .. | .accz .. | .acccp .. | .accld .. | .mstestQuick _ | .mstestFull _ => true
  | _ => false

/-- The accumulator banks that an op reads and writes (R66). -/
def opPorts (i : Instr) : List Nat × List Nat :=
  let bank (o : Opd) : List Nat := match o with
    | .acc n => [n.val / 2]
    | _ => []
  match i with
  | .mma _ cz _ d _ _ ct => (if cz then [] else [ct.val / 2], bank d)
  | .acccp _ _ d a => (bank a, bank d)
  | .accz _ d | .vaccwr _ d _ _ | .accld _ _ _ d _ => ([], bank d)
  | .vaccrd _ _ a _ => (bank a, [])
  | .accst _ _ _ _ b => (bank b, [])
  | _ => ([], [])

/-- The vector width of a slot op in bits (R61): zero where its class is another, and for VNOP. -/
def opWidth (r : RawOp) : Nat := if r.opc.toNat / 64 = 1 && r.opc != 0x40 then 256 * 2 ^ bits r.mod.toNat 10 9 else 0

/-- The current weight of a slot op in bundle form (R353). -/
def bundleWeight (r : RawOp) : Nat :=
  let o := r.opc.toNat
  if isNop r.opc then 0
  else match o / 64 with
    | 0 => 1
    | 1 => 2 * 2 ^ bits r.mod.toNat 10 9
    | 2 => if o = 0x81 then 48 else if o = 0x82 || o = 0x83 || o = 0x88 then 8 else if 0x8A ≤ o && o ≤ 0x94 then 4 else 1
    | _ => if o = 0xCC then 8 else if 0xC5 ≤ o && o ≤ 0xCB then 4 else 2

/-- The current weight of a thread word's op on its lane (R353). -/
def threadWeight (r : RawOp) : Nat :=
  let o := r.opc.toNat
  if isNop r.opc then 0
  else match o / 64 with
    | 0 => if (0x2B ≤ o && o ≤ 0x36) || o = 0x3D then 2 else 1
    | 2 => if 0x8A ≤ o && o ≤ 0x94 then 4
      else if o = 0xA8 || o = 0xA9 || (0xAC ≤ o && o ≤ 0xAE) then 3 else 1
    | _ => 2

/-- What an op counts against the interval limits (R269): global stores, copies, undo entries. -/
def State.opCost (s : State) (i : Instr) : Nat × Nat × Nat :=
  let blocks (cells : List Host.Cell) : Nat := (cells.map fun q => q.1 / 128).eraseDups.length
  match i with
  | .st .. | .tgst .. | .blkrel _ | .clean .. => (1, 0, 0)
  | .stvs v e8 sh _ a b => ((s.gatherAddrs v e8 sh a b).length, 0, 0)
  | .tst v rows _ _ _ => (activeRows (s.rp v.p) v.w rows, 0, 0)
  | .cpy .. | .cpym .. => (0, 1, 0)
  | .sts m _ a b => (0, 0, (undoBlocks (s.addrOf a b m.sh).toNat (2 ^ m.size.val)).length)
  | .stv v d a b => (0, 0, blocks (maskedCells (s.rp v.p) (s.addrOf a b 0).toNat (v.w.bits / 8) (s.rv .i8 d)))
  | .accst _ _ count1 a _ => (0, 0, (undoBlocks (s.ri a).toNat (128 * (count1.val + 1))).length)
  | .syncset .. => (0, 0, 1)
  | _ => (0, 0, 0)

/-! ### A bundle's checks (R77) -/

/-- An op that issues with a bundle: its slot, its bits, and whether it is a held reissue (R55). -/
structure SlotOp where
  slot : Nat
  bits : Op44
  held : Bool
  deriving DecidableEq, Repr

/-- The ops of a bundle in ascending slot order (R49, R55). -/
def bundleOps (pres : Byte) (bundle : Nat) (held : Map (Option Op44)) : List SlotOp :=
  (List.range 8).filterMap fun n =>
    if bit pres.toNat n then some ⟨n, slotOf bundle n, false⟩
    else (mget none held n).map fun w => ⟨n, w, true⟩

/-- The operation that a slot op reads as. -/
def SlotOp.op (o : SlotOp) : Instr := (opFails .bundle 64 256 o.slot (RawOp.ofBits o.bits)).1

/-- Do two ops of one bundle break check 0x0E (R40)? -/
def writesClash (i j : Instr) : Bool :=
  (opUse i).2.any fun r => (opUse j).2.any fun q =>
    r == q && (match opLat i, opLat j with
      | some m, some n => m == n
      | _, _ => true)

/-- Do two ops break check 0x0F (R66)? -/
def portsClash (i j : Instr) : Bool :=
  (opPorts i).1.any (fun b => (opPorts j).1.contains b) || (opPorts i).2.any (fun b => (opPorts j).2.contains b)

/-- The lowest slot whose op clashes with one of a lower slot (R78). -/
def clashSlot (p : Instr → Instr → Bool) (l : List SlotOp) : Option Nat :=
  (l.find? fun x => l.any fun y => y.slot < x.slot && p y.op x.op).map (·.slot)

/-- The first check of R77 that a bundle fails, after its index checks, with the slot it names: without 0x10. -/
def bundleCheck (h : Header) (first : Bool) (l : List SlotOp) : Option (Nat × Nat) :=
  let per (c : Nat) : Option Nat :=
    (l.find? fun o => !o.held && (opFails .bundle 64 256 o.slot (RawOp.ofBits o.bits)).2.contains c).map (·.slot)
  checkOrder.findSome? fun c =>
    let r : Option Nat := match c with
      | 0x01 => if 2 ≤ h.kind then some 0 else none
      | 0x02 => if h.wth != 0 && h.kind == 0 then some 0 else none
      | 0x03 => if first && h.kind == 0 then some 0 else none
      | 0x0A => if 2048 < (l.map fun o => opWidth (RawOp.ofBits o.bits)).sum then some 0 else none
      | 0x0E => clashSlot writesClash l
      | 0x0F => clashSlot portsClash l
      | c => per c
    r.map fun n => (c, n)

/-! ### Fetch (R68, R69) -/

/-- A bundle fetched, with its length in halfwords, or the trap of its fetch. -/
def State.fetchBundle (s : State) (c : Nat) : Except Fail (Nat × Nat × State) :=
  let a : Agent := .core (fin 32 c) 0
  let pc := (s.core c).arch.pc
  let bad (s : State) (chk idx : Nat) : Except Fail (Nat × Nat × State) :=
    .error ⟨⟨checkCause .bundle chk, BitVec.ofNat 64 (checkTval chk 0 idx)⟩, s⟩
  match s.fetchCode a (s.streamAddr c pc.toNat) 2 with
  | .error f => .error f
  | .ok (bs, s) =>
    let idx := leNat bs
    if idx = 0xFFFF then
      match s.fetchCode a (s.streamAddr c (pc.toNat + 1)) 48 with
      | .error f => .error f
      | .ok (bs, s) => .ok (leNat bs, 25, s)
    else if 0x800 ≤ idx then bad s 0x20 idx
    else match (s.core c).entries[idx]? with
      | some b => .ok (b, 1, s)
      | none => bad s 0x21 idx

/-! ### Stalls (R38, R323) -/

/-- Waits that the watchdog does not count (R438), by their cause of R323. -/
def watchless (cause : Nat) : Bool := cause == 2 || cause == 4 || cause == 6 || cause == 9 || cause == 10

/-- Waits in which a pre-emption takes the rollback path at once (R342), by their cause of R323. -/
def waitCause (cause : Nat) : Bool := cause == 2 || cause == 4 || cause == 6

/-- A core that waits while a pre-emption lets it go on to its checkpoint rolls back instead (R342). -/
def Core.waitPreempted (x : Core) (cause : Nat) : Core :=
  { x with preempt := x.preempt.map fun p => (p.1, p.2 || waitCause cause) }

/-- A cycle without issue, of a stall cause of R323: the run goes on, or another begins. -/
def State.stall (s : State) (c cause : Nat) : State :=
  let s := s.modCore c fun x => x.waitPreempted cause
  let s := if watchless cause || (cause == 1 && s.outsideWait c) then s.modCore c fun x => { x with eng := { x.eng with progress := s.ptime } } else s
  match (s.core c).stallRun with
  | some (k, _) => if k = cause then s else openStall s c cause
  | none => openStall s c cause
where
  /-- A run of another cause begins. -/
  openStall (s : State) (c cause : Nat) : State :=
    (s.endStall c).modCore c fun x => { x with stallRun := some (cause, x.eng.cycle s.ptime) }

/-- A freeze cycle by the current limit (R354). -/
def State.freezeCycle (s : State) (c : Nat) : State :=
  let n := (s.core c).eng.freezeRun
  (s.stall c 3).modCore c fun x =>
    { x with eng := { x.eng with freeze := x.eng.freeze + 1, freezeRun := n + 1, lastIssue := some (x.eng.clock s.ptime) } }

/-- Weights issued in the 31 cycles before now (R354). -/
def Eng.recent (e : Eng) (now : Nat) : Nat := ((e.hist.filter fun h => now < h.1 + 32).map (·.2)).sum

/-- An issue of a weight at an engine cycle, at a PTIME. -/
def Eng.weigh (e : Eng) (now w ptime : Nat) : Eng :=
  { e with hist := (e.hist.filter fun h => now < h.1 + 32) ++ [(now, w)], lastIssue := some now, progress := ptime }

/-- Registers whose scoreboarded result has not landed (R41). -/
def Core.pending (x : Core) : List Reg :=
  let land (l : Land) : List Reg := match l with
    | .sreg n _ => [.s n]
    | .vreg n _ _ => [.v n]
    | .preg n _ _ => [.p n]
    | .acc t _ => [.a t]
    | .latch n _ _ _ _ => [.ps n]
    | .flags _ => []
  (x.sb.flatMap fun e => e.lands.flatMap land) ++ (x.sm.map fun e => Reg.a e.tile) ++ (match x.mstest with
    | some (_, d, _) => [.s d]
    | none => [])

/-- Must an op wait for a pending register (R41)? An SM op passes tiles that earlier SM ops hold (R159). -/
def Core.holdsOp (x : Core) (i : Instr) : Bool :=
  let u := opUse i
  let isTile (r : Reg) : Bool := match r with
    | .a _ => true
    | _ => false
  ((u.1 ++ u.2).filter fun r => !(isSm i && isTile r)).any fun r => x.pending.contains r

/-- The queue at which a QPUSH of a core must wait for room (R296); a queue closed meanwhile ends the wait (R295). -/
def State.pushWaits (s : State) (c : Nat) (i : Instr) : Option Nat :=
  match i with
  | .qpush _ _ _ a =>
    let n := (s.ri a).toNat % 2 ^ 13
    let q := s.queue n
    if (s.queueReason (s.ri a) true).isNone && s.pairPos c != some 1 && q.waiters = [] && q.cap ≤ q.items.length && 2 ≤ q.fullp
      && (s.core c).pushOn != some (n, true)
    then some n else none
  | _ => none

/-- The scratchpad bytes that an op of a core stores to, as offset and bytes (R240). -/
def State.storesIn (s : State) (i : Instr) : List (Nat × Nat) :=
  let atom (l : Bool) (a : Opd) (n : Nat) : List (Nat × Nat) := if l then [((s.ri a).toNat, n)] else []
  match i with
  | .sts m _ a b => [((s.addrOf a b m.sh).toNat, 2 ^ m.size.val)]
  | .stv v d a b => (maskedCells (s.rp v.p) (s.addrOf a b 0).toNat (v.w.bits / 8) (s.rv .i8 d)).map fun q => (q.1, 1)
  | .accst _ _ n a _ => [((s.ri a).toNat, 128 * (n.val + 1))]
  | .syncset a _ => [((s.ri a).toNat, 8)]
  | .aadd m _ a _ | .amin m _ _ a _ | .amax m _ _ a _ | .aand m _ a _ | .aor m _ a _ | .axor m _ a _ | .aswp m _ a _ | .acas m _ a _ =>
    atom m.loc a (atBytes m)
  | .acas2 _ _ l _ a _ => atom l a 16
  | .afadd _ _ l t _ a _ => atom l a (width t.ty / 8)
  | _ => []

/-- Must a scratchpad store wait for an MMA in flight (R164)? An MMA's panels are unread until its result lands (log 11). -/
def State.storeHeld (s : State) (x : Core) (i : Instr) : Bool :=
  let rs := x.sm.flatMap (·.reads)
  rs != [] && (s.storesIn i).any fun w => rs.any fun r => w.1 < r.1 + r.2 && r.1 < w.1 + w.2

/-- Why the ops of a bundle that may otherwise issue must wait, as a cause of R323: operands (R41), MSTEST (R183), MMA spacing (R175), a
store into a panel being read (R164), an unsatisfied SWAIT (R284), a full queue (R296), the copy limit (R281). -/
def State.opsWait (s : State) (c : Nat) (ops : List Instr) : Option Nat :=
  let x := s.core c
  let now := x.eng.cycle s.ptime
  let out := x.eng.copies.length + (x.withheld.filter fun e => match e with
    | .copy _ => true
    | _ => false).length + (ops.filter fun i => match i with
    | .cpy .. | .cpym .. => true
    | _ => false).length
  let one (i : Instr) : Option Nat := match i with
    | .mma .. => match x.lastMma with
      | some n => if now < n + 4 then some 7 else none
      | none => none
    | .swait _ _ _ a b =>
      let off := (s.ri a).toNat
      if off % 8 != 0 || x.scratchSize < off + 8 then none
      else if reached (readNat x.scratch off 8) ((s.ri b).toNat % 2 ^ 16) then none else some 9
    | .qpush .. => if (s.pushWaits c i).isSome then some 10 else none
    | .cpy .. | .cpym .. => if 512 < out then some 10 else none
    | _ => none
  if ops.any x.holdsOp then some 1
  else if x.mstest.isSome && ops.any isSm then some 7
  else if x.sm != [] && ops.any (fun i => match i with
    | .mstestQuick _ | .mstestFull _ => true
    | _ => false) then some 7
  else if ops.any (s.storeHeld x) then some 8
  else ops.findSome? one

/-- The limit of R411 that a bundle would break. -/
def State.overflow (s : State) (c : Nat) (commits : Bool) (ops : List Instr) : Option Nat :=
  let x := s.core c
  let sum (f : Nat × Nat × Nat → Nat) : Nat := (ops.map fun i => f (s.opCost i)).sum
  let base (n : Nat) : Nat := if commits then 0 else n
  if 256 < base x.gst + sum (·.1) then some 1
  else if 64 < base x.cpy + sum (·.2.1) then some 2
  else if 512 < base x.undoCount + sum (·.2.2) then some 3
  else if !commits && Card.ckmax (s.cardAt (.core (fin 32 c) 0)) ≤ x.intervalAdv then some 5
  else none

/-- Has every scoreboarded op of a core completed (R42)? -/
def Core.quiet (x : Core) : Bool := x.sb = [] && x.sm = [] && x.mstest.isNone

/-- What a semaphore of a core holds once the commit of the interval has added its signals to it (R22, R52; log 130). -/
def State.semAt (s : State) (c sem : Nat) : Nat :=
  (s.core c).withheld.foldl (fun v e => match e with
    | .signal j i n => if j = c && i = sem then (semAdd v n).1 else v
    | .hsig i n => if i = sem then (semAdd v n).1 else v
    | _ => v) (mget 0 (s.core c).sem sem)

/-- Does the header wait of a checkpoint hold (R51)? Signals of the same cycle are added first (R22). -/
def State.waitMet (s : State) (c : Nat) (h : Header) : Bool := h.wth ≤ s.semAt c h.wsem.toNat

/-! ### Issue -/

/-- A trap of a bundle that does not issue. -/
def State.issueTrap (s : State) (c : Nat) (t : Trap) : State :=
  { (s.takeTrap (.core (fin 32 c) 0) t) with aborted := false }

/-- The ops of a bundle put in the latch, their hold bits kept (R55), an ordinary header's signal withheld last (R52). The cycle of a bundle
without ops ends at once, or by a NOP where effects of its commit are still held back (R244). -/
def State.fillLatch (s : State) (c : Nat) (h : Header) (len : Nat) (l : List SlotOp) : State :=
  let agent (n : Nat) : Agent := .core (fin 32 c) (fin 8 n)
  let hold (m : Map (Option Op44)) (o : SlotOp) : Map (Option Op44) :=
    if o.held || o.slot < 2 then m else mset none m o.slot (if bit (RawOp.ofBits o.bits).mod.toNat 11 then some o.bits else none)
  let s := s.modCore c fun x =>
    { x with arch := { x.arch with held := l.foldl hold x.arch.held }, len := len, reissue := false, blockFirst := false }
  let inc := if h.sinc = 0 then 0 else 2 ^ (h.sinc - 1)
  let s := { s with aborted := false, cur := agent 0, latch := l.map fun o => ⟨agent o.slot, o.bits.setWidth 64⟩,
                    deferred := if h.kind = 0 && inc != 0 then [(agent 0, .hsig h.ssem.toNat inc)] else [] }
  if l != [] then s else if s.marked = [] then s.finishCycle (agent 0) else { s with latch := [⟨agent 0, 0⟩] }

/-- A job issues: the first issue after its resumption ends that (R344). -/
def State.firstIssue (s : State) (job : Option Nat) : State :=
  match job with
  | none => s
  | some n => if ((s.slot n).map (·.resuming)) == some true then s.modSlot n fun z => { z with resuming := false } else s

/-- A bundle issues (R16): its results due land first, a checkpoint commits (R53), and its ops issue unless the commit says otherwise. -/
def State.issueBundle (s : State) (c : Nat) (h : Header) (len : Nat) (l : List SlotOp) (weight : Nat) (commits : Bool) : State :=
  let now := (s.core c).eng.clock s.ptime
  let s := ((s.firstIssue (s.core c).job).endStall c).modCore c fun x => { x with eng := x.eng.weigh now weight s.ptime }
  if !commits then s.fillLatch c h len l
  else
    let inc := if h.sinc = 0 then 0 else 2 ^ (h.sinc - 1)
    let r := s.commit c (h.ssem.toNat, inc) (h.wsem.toNat, h.wth)
    if r.2 then r.1
    else if ((r.1.core c).preempt.map (·.2)) == some false then r.1.modCore c fun x => { x with reissue := true }
    else r.1.fillLatch c h len l

/-- What a core's next bundle meets in a cycle: a wait that the watchdog does not count, a dictionary load, a stall of a cause of R323, a
QPUSH without room, a freeze by the current limit, a trap, or its issue. -/
inductive Probe where
  | idle
  | load
  | stall (cause : Nat)
  | full (queue : Nat)
  | freeze
  | trap (t : Trap) (s : State)
  | issue (h : Header) (len : Nat) (l : List SlotOp) (weight : Nat) (commits : Bool) (bundle : Nat) (s : State)
  deriving DecidableEq, Repr

/-- Does the core issue nothing, and take no trap? -/
def Probe.holds : Probe → Bool
  | .trap .. | .issue .. => false
  | _ => true

/-- A checked bundle tried (R42, R51, R41, R411, R354). -/
def State.tryBundle (s : State) (c : Nat) (h : Header) (len : Nat) (l : List SlotOp) (bundle : Nat) : Probe :=
  let x := s.core c
  let commits := h.kind = 1 && !x.reissue
  let now := x.eng.clock s.ptime
  if commits && !x.quiet then .stall (if x.mstest.isSome then 7 else 1)
  else
    let t := if x.reissue then s else s.setCore c (x.tick commits)
    if commits && !x.eng.stepping && (t.core c).flight != [] then .trap ⟨0x02, BitVec.ofNat 64 (checkTval 0x10 0 0)⟩ s
    else if commits && !s.waitMet c h then .stall 2
    else
      let ops := l.map SlotOp.op
      let t := { t with cur := .core (fin 32 c) 0 }
      match t.opsWait c ops with
      | some k => match if k = 10 then ops.findSome? (t.pushWaits c) else none with
        | some q => .full q
        | none => .stall k
      | none =>
        match t.overflow c commits ops with
        | some n => .trap ⟨0x23, BitVec.ofNat 64 n⟩ s
        | none =>
          let weight := 4 + (l.map fun o => bundleWeight (RawOp.ofBits o.bits)).sum
          if 256 + 48 * x.eng.granted < x.eng.recent now + weight then .freeze
          else .issue h len l weight commits bundle t

/-- A core's next bundle and its stream length: forwarded by position 0 of its gang (R362), or fetched. -/
def State.nextBundle (s : State) (c : Nat) (fwd : Option (Nat × Nat)) : Except Fail (Nat × Nat × State) :=
  match fwd with
  | some q => .ok (q.1, q.2, s)
  | none => s.fetchBundle c

/-- What the next bundle of a core meets: fetched by the core itself, or forwarded to it (R362), checked (R77) and tried. A core that follows
the first of its gang is past the freeze of a record that the bundle's own commit emitted (R35, R319). -/
def State.probe (s : State) (c : Nat) (fwd : Option (Nat × Nat)) : Probe :=
  let x := s.core c
  if x.trec != [] && x.goAt.isNone then .stall 4
  else match x.wait with
    | .leave _ => .stall 6
    | .bar _ | .tlbinv => .idle
    | .none =>
      if fwd.isNone && x.dict != x.job then .load
      else match s.nextBundle c fwd with
      | .error f => .trap f.trap f.st
      | .ok (b, len, s) =>
        let h := headerOf b
        let l := bundleOps h.pres b (s.core c).arch.held
        match bundleCheck h ((s.core c).blockFirst && !(s.core c).reissue) l with
        | some (chk, n) =>
          let r := RawOp.ofBits (slotOf b n)
          .trap ⟨checkCause .bundle chk, BitVec.ofNat 64 (checkTval chk n (checkExtra chk r))⟩ s
        | none => s.tryBundle c h len l b

/-- A core does what its next bundle meets. -/
def State.takeProbe (s : State) (c : Nat) : Probe → State
  | .idle => s.modCore c fun x => { x with eng := { x.eng with progress := s.ptime } }
  | .load => match (s.stall c 5).loadDict c with
    | .error f => f.st.issueTrap c f.trap
    | .ok s => s
  | .stall k => s.stall c k
  | .full q => (s.stall c 10).modCore c fun x => { x with pushOn := some (q, false) }
  | .freeze => s.freezeCycle c
  | .trap t s => s.issueTrap c t
  | .issue h len l weight commits _ s => s.issueBundle c h len l weight commits

/-! ### Gangs (R35, R362; log 129) -/

/-- What holds one core of a gang holds another (R35): a freeze freezes it too (R354), any other wait stalls it. -/
def State.holdWith (s : State) (c : Nat) : Probe → State
  | .freeze => s.freezeCycle c
  | .stall k => s.stall c k
  | .full _ => s.stall c 10
  | .load => s.stall c 5
  | _ => s.modCore c fun x => { x with eng := { x.eng with progress := s.ptime } }

/-- An act put in the schedule after some ticks. -/
def schedAt (n : Nat) (a : Act) : List Stimulus → List Stimulus
  | [] => [⟨n, a⟩]
  | x :: rest => if n ≤ x.dt then ⟨n, a⟩ :: { x with dt := x.dt - n } :: rest else x :: schedAt (n - x.dt) a rest

/-- The other cores of a gang are to issue the bundle that its first core issues now, the one at position p exactly p cycles later (R35); in
shared-fetch mode it is forwarded to them (R362). -/
def State.armGang (s : State) (c : Nat) (fwd : Option (Nat × Nat)) (others : List Nat) : State :=
  let tick := if (s.core c).eng.mhz = 0 then 0 else 16000 / (s.core c).eng.mhz
  others.foldl (fun s j =>
    let n := (j - c) * tick
    { s.modCore j fun x => { x with goAt := some (s.ptime + n), forward := fwd } with
      inputs := schedAt n (.event (.bundleIssue (fin 32 j))) s.inputs }) s

/-- The queues once a core's ops have issued that push, as the next position of its gang finds them (R35, R296). -/
def State.afterPushes (s : State) (c : Nat) (l : List SlotOp) : State :=
  l.foldl (fun s o => match o.op with
    | .qpush _ _ _ a =>
      let n := (s.ri a).toNat % 2 ^ 13
      if (s.queueReason (s.ri a) true).isNone then s.setQueue n { s.queue n with items := (s.queue n).items ++ [[]] } else s
    | _ => s) { s with cur := .core (fin 32 c) 0 }

/-- The first of the other cores of a gang that holds it, with what holds it: each tried after the pushes of those before it. -/
def State.gangHold (s : State) (fwd : Option (Nat × Nat)) : List Nat → Option (Nat × Probe)
  | [] => none
  | j :: rest => match s.probe j fwd with
    | .issue _ _ l _ _ _ _ => (s.afterPushes j l).gangHold fwd rest
    | p => if p.holds then some (j, p) else s.gangHold fwd rest

/-- A cycle of a gang, or of a core alone, from its first core (R35): the bundle issues on every core or on none. -/
def State.gangCycle (s : State) (c : Nat) (others : List Nat) : State :=
  let p := s.probe c none
  let shared := !redundantCard (s.cardAt (.core (fin 32 c) 0))
  if p.holds then (others.foldl (fun s j => s.holdWith j p) s).takeProbe c p
  else match p with
    | .issue h len l weight commits b t =>
      let fwd := if shared then some (b, len) else none
      match (s.afterPushes c l).gangHold fwd others with
      | some (j, q) => (((c :: others).filter (· != j)).foldl (fun s i => s.holdWith i q) s).takeProbe j q
      | none => (t.armGang c fwd others).issueBundle c h len l weight commits
    | p => s.takeProbe c p

/-- May a core issue: its part runs, and no halt, stop, pre-emption or grant to come holds it? -/
def State.mayIssue (s : State) (c : Nat) : Bool :=
  let x := s.core c
  x.part == .running && !s.reeve.halted && (x.eng.stopped.isNone || (x.eng.stepping && x.intervalAdv = 0)) && !x.holdsForSave
    && (x.preempt.map (·.2)) != some true && !(s.beadle.leaves.any fun l => l.resume && l.dom == .core (fin 32 c))

/-- Is a core able to try its next bundle? The first of a gang where all may issue, each has issued the bundle before, and it has not issued
in this cycle; another from the moment at which it follows the first. -/
def State.coreReady (s : State) (c : Nat) : Bool :=
  let x := s.core c
  let g := s.gangLive c
  s.mayIssue c && (match x.goAt with
    | some t => decide (t ≤ s.ptime)
    | none => g.head? == some c && x.eng.lastIssue != some (x.eng.clock s.ptime)
        && (g.filter (· != c)).all fun j => s.mayIssue j && (s.core j).goAt.isNone)

/-- BUNDLE_ISSUE (R16): the next bundle of a core, with its gang's, is fetched, checked and tried; an event whose core cannot issue has no
effect. -/
def execBundleIssue (core : Fin 32) (s : State) : Out :=
  let c := core.val
  let x := s.core c
  .next
    (if !s.coreReady c then s
     else if x.goAt.isNone then s.gangCycle c ((s.gangLive c).filter (· != c))
     else match s.probe c x.forward with
       | .issue h len l weight commits b t =>
         .issue h len l weight commits b (t.modCore c fun x => { x with goAt := none, forward := none }) |> s.takeProbe c
       | .trap t f => s.takeProbe c (.trap t (f.modCore c fun x => { x with goAt := none, forward := none }))
       | p => (((s.gangLive c).filter (· != c)).foldl (fun s j => s.holdWith j p) s).takeProbe c p)

end Sys2Proof.Machine
end

