-- ==== Sys2Proof/Machine/Threads.lean ====
section
/-!
DEFINITION. THREAD_WORD_ISSUE: the choice of each lane (spec/10_progress.md R364 to R366, R375), the current limit of a vision unit (R354),
and the words fetched (spec/02_encoding.md R73, R76).
-/
namespace Sys2Proof.Machine

/-- The lane of a thread (R26). -/
def laneOf (t : Tid) : Nat := t.thread % 64

/-- The word at a thread's program counter, looked at without a trace; 0 where it cannot be read. -/
def State.peekWord (s : State) (t : Tid) : Word :=
  match s.fetchCode (.thr t) (s.thread t).pc.toNat 8 with
  | .ok (bs, _) => BitVec.ofNat 64 (leNat bs)
  | .error _ => 0

/-- The unit's fetch target (R366): the PC that most ready threads hold which are not due, the lowest on ties. -/
def State.fetchTarget (s : State) (ready : List Tid) : Word :=
  let pcs := (ready.filter fun t => (s.thread t).due.isNone).map fun t => (s.thread t).pc
  let count (pc : Word) : Nat := (pcs.filter (· == pc)).length
  pcs.foldl (fun best pc =>
    if count best < count pc || (count pc = count best && pc.toNat < best.toNat) then pc else best) (pcs.headD 0)

/-- Is a thread de-preferred (R366)? By a word with Y = 1, or on arrival at one with C = 1 away from the fetch target. -/
def State.dePreferred (s : State) (target : Word) (t : Tid) : Bool :=
  let x := s.thread t
  x.dePref || (x.pc != target && x.arrived < 8 && (ThreadWord.ofBits (s.peekWord t)).c)

/-- A thread's class in the order of R365, with its place within it: due order, or wait count; then context. -/
def State.issueKey (s : State) (target : Word) (t : Tid) : List Nat :=
  let x := s.thread t
  match x.due with
  | some n => [0, n, 0, s.hslotOf t]
  | none => [if s.dePreferred target t then 3 else if x.pc == target then 1 else 2, 0, 2 ^ 32 - x.waitCount, s.hslotOf t]

/-- Lexicographic order of keys of one length. -/
def keyLt : List Nat → List Nat → Bool
  | a :: as, b :: bs => a < b || (a == b && keyLt as bs)
  | _, _ => false

/-- The thread that a lane issues (R365). -/
def State.chooseLane (s : State) (target : Word) (l : List Tid) : Option Tid :=
  match l with
  | [] => none
  | t :: ts => some (ts.foldl (fun best u => if keyLt (s.issueKey target u) (s.issueKey target best) then u else best) t)

/-- The threads that issue in a cycle, in ascending lane order (R365). -/
def State.chosen (s : State) (ready : List Tid) : List Tid :=
  let target := s.fetchTarget ready
  (List.range 64).filterMap fun lane => s.chooseLane target (ready.filter fun t => laneOf t == lane)

/-- Registers whose results land some time after the thread's next word, where that word runs (R37, R74; log 8). -/
def State.laterRegs (s : State) (t : Tid) : List Nat :=
  match s.nextOp t with
  | none => []
  | some i => if landsLater i then xNumbers (threadUse i).2 else []

/-- A thread's wait for operands in an issue cycle (R323): it begins, goes on, or has ended and leaves its STALL record. -/
def State.operandCycle (s : State) (t : Tid) : State :=
  let x := s.thread t
  if x.wait == .none && s.operandWait t then
    if x.opSince.isNone then s.modThread t fun x => { x with opSince := some ((s.eng (.unit t.unit)).cycle s.ptime) } else s
  else s.endOperandWait t

/-- What an issue cycle leaves of a thread's scheduling state (R364 to R366): chosen, or ready and passed over; of those that become due in one
cycle the lower context comes first (R365). -/
def State.schedule (s : State) (ready chosen : List Tid) (t : Tid) : State :=
  let y := (ThreadWord.ofBits (s.peekWord t)).y
  let s := s.operandCycle t
  if chosen.contains t then
    let later := s.laterRegs t
    s.modThread t fun x => { x with waitCount := 0, due := none, arrived := 0, dePref := y, reissue := false,
                                    busy := x.busy ++ if later = [] then [] else [{ regs := later, lut := none }] }
  else
    let lane := chosen.any fun u => laneOf u == laneOf t
    let s := s.modThread t fun x => { x with dePref := x.dePref && !lane, arrived := min 8 (x.arrived + 1) }
    if !ready.contains t then s
    else
      let n := (s.thread t).waitCount + 1
      s.modThread t fun x => { x with waitCount := n, due := if n = 32 then some (s.unit t.unit).dueCount else x.due }

/-- A YIELD's wait after an issue cycle (R375). -/
def State.yieldCycle (s : State) (ready chosen : List Tid) (t : Tid) : State :=
  match (s.thread t).wait with
  | .yield others left =>
    let rest := others.filter fun k => !chosen.any (fun u => tidKey u == k) && ready.any (fun u => tidKey u == k)
    if rest = [] || left ≤ 1 then s.wake t else s.modThread t fun x => { x with wait := .yield rest (left - 1) }
  | _ => s

/-- The next word of a thread put in the latch; a trap that waits for the thread, or one of its fetch, takes the word's place (R76, R282,
R349, R422). -/
def State.fetchThread (s : State) (t : Tid) : State :=
  let x := s.thread t
  if x.ended then s
  else match x.pendTraps with
  | w :: ws =>
    let best := ws.foldl (fun b y => if y.1 < b.1 || (y.1 = b.1 && y.2.2 < b.2.2) then y else b) w
    (s.modThread t fun x => { x with pendTraps := x.pendTraps.erase best }).threadTrap t best.1 best.2.1
  | [] =>
    if x.pc.toNat % 8 != 0 then s.threadTrap t (checkCause .thread 0x18) (BitVec.ofNat 64 (checkTval 0x18 0 0))
    else match s.fetchCode (.thr t) x.pc.toNat 8 with
      | .error f => f.st.threadTrap t f.trap.cause f.trap.tval
      | .ok (bs, s) => { s with latch := s.latch ++ [⟨.thr t, BitVec.ofNat 64 (leNat bs)⟩] }

/-- Is a fetched word a SEMWAIT? -/
def Fetched.isSemwait (f : Fetched) : Bool := (RawOp.ofBits (ThreadWord.ofBits f.word).op).opc == 0xA1

/-- Words of threads fetched, in order; a SEMWAIT acts after the signals of its cycle (R22). The cycle ends at once where none is in the
latch. -/
def State.issueThreads (s : State) (u : Fin 32) (l : List Tid) : State :=
  let s := l.foldl State.fetchThread { s with latch := [], aborted := false }
  if s.latch = [] then s.finishUnit u
  else { s with latch := (s.latch.filter fun f => !f.isSemwait) ++ s.latch.filter Fetched.isSemwait }

/-- LEAVE units granted to the groups of a unit (R354, R376). -/
def VUnit.granted (v : VUnit) : Nat := ((v.groups.filterMap (·.2)).map (·.granted)).sum

/-- THREAD_WORD_ISSUE (R365): one issue cycle of a vision unit, or a freeze cycle (R354). -/
def execThreadWordIssue (unit : Fin 32) (s : State) : Out :=
  let v := s.unit unit
  let now := v.eng.clock s.ptime
  let all := v.tids unit
  let ready := all.filter s.threadReady
  let picks := s.chosen ready
  let weight := 8 + (picks.map fun t => threadWeight (RawOp.ofBits (ThreadWord.ofBits (s.peekWord t)).op)).sum
  .next
    (if s.reeve.halted || v.eng.lastIssue == some now || v.eng.stopped.isSome then s
     else match picks with
       | [] => (all.foldl (fun s t => (s.schedule ready picks t).yieldCycle ready picks t) s).modEng (.unit unit) fun e =>
           { e with lastIssue := some now, progress := if ready = [] then s.ptime else e.progress }
       | t :: _ =>
         if 1536 + 192 * v.granted < v.eng.recent now + weight then
           s.modEng (.unit unit) fun e => { e with freeze := e.freeze + 1, freezeRun := e.freezeRun + 1, lastIssue := some now }
         else
           let s := ((picks.map fun t => (s.group unit t.group).job).eraseDups.foldl (fun s n => s.firstIssue (some n)) s)
           let s := (s.endFreeze t).modEng (.unit unit) fun e => e.weigh now weight s.ptime
           let s := all.foldl (fun s t => (s.schedule ready picks t).yieldCycle ready picks t) s
           let s := s.modUnit unit fun v => { v with dueCount := v.dueCount + 1 }
           s.issueThreads unit picks)

end Sys2Proof.Machine
end

