-- ==== Sys2Proof/Machine/Land.lean ====
section
/-!
DEFINITION. Events that land results and end waits: scoreboarded, tile, load-block and copy landings, copy errors, the ends of waits of
threads and cores, trace acceptance, and the start of task blocks (spec/01_machine.md R34, R41; spec/02_encoding.md R54, R70, R71;
spec/05_matrix.md R160, R174; spec/07_ordering.md R231, R251, R255; spec/08_memory_ops.md R282, R284, R296; spec/09_time_trace.md R319;
spec/10_progress.md R360, R371, R373, R374; spec/11_isolation.md R407; spec/12_recovery.md R443).
-/
namespace Sys2Proof.Machine

/-! ### Results of a core -/

/-- Element i of a core's scoreboard lands (R41). -/
def State.landSb (s : State) (c i : Nat) : State :=
  match (s.core c).sb[i]? with
  | none => s
  | some e => s.modCore c fun x => e.lands.foldl Core.land { x with sb := dropAt x.sb i }

/-- SCOREBOARD_RESULT_LAND (R41): a core's result, unless it waits for a load-block's fill; a thread's result
too, which its later words wait for (R364; log 8). -/
def execScoreboardResultLand (w : Waiter) (s : State) : Out :=
  .next (match w with
    | .core c i => match (s.core c).sb[i]? with
      | some e => if e.blk.isNone then s.landSb c i else s
      | none => s
    | .thread t i => s.landBusy t i)

/-- MMA_RESULT_LAND (R159, R160): the oldest tile result; one above its MX bound traps instead (R174). -/
def execMmaResultLand (core : Fin 32) (s : State) : Out :=
  .next (match (s.core core).sm with
    | [] => s
    | e :: rest => match e.bound with
      | some v => s.coreTrap core 0x21 v e.tpc
      | none => s.modCore core fun x => { x with sm := rest }.landSm e)

/-- The first unfilled load-block that a core's scoreboard waits for, with the place of its result. -/
def Core.fillDue (x : Core) : Option (Nat × Nat) :=
  (List.range x.sb.length).findSome? fun i => (x.sb[i]?.bind (·.blk)).map fun b => (i, b)

/-- BLKLD_FILL_COMPLETE (R231, R276): every line is read, the engine's own copies moving in, poison is marked, and the handle lands. -/
def execBlkldFillComplete (core : Fin 32) (s : State) : Out :=
  .next (match (s.core core).fillDue with
    | none => s
    | some (i, n) => match mget none (s.core core).blocks n with
      | none => s
      | some b =>
        let k := s.ctx (.core core 0)
        let r := b.lines.foldl (fun (a : List Line × State) l =>
          let f := a.2.fillBlockLine k ⟨l.vline * 64, l.pline * 64, l.attr⟩
          (a.1 ++ [f.1], f.2)) ([], s)
        let s := r.2.modCore core fun x => { x with blocks := mset none x.blocks n (some { b with lines := r.1, filled := true }) }
        s.landSb core i)

/-! ### Copies -/

/-- COPY_PIECE_LAND (R253 to R256). -/
def execCopyPieceLand (d : Dom) (copy piece : Nat) (s : State) : Out := .next (s.landPiece d copy piece)

/-- The copy-error trap of a core's copy (R282): at the next commit of its part, kept with a saved part, or at once where the part has
ended. -/
def State.copyTrapCore (s : State) (c : Copy) (va : Nat) : State :=
  let w := (0x16, BitVec.ofNat 64 va, c.seq)
  match s.partCore c.job c.part with
  | some j =>
    if (s.core j).part = .ended then s.endByTrap c.job j 7 0x16 (BitVec.ofNat 64 va) c.tpc
    else s.modCore j fun x => { x with waiting := x.waiting ++ [w] }
  | none => s.modSlot c.job fun z =>
      { z with keptCore := z.keptCore.map fun e => if e.1 = c.part then (e.1, e.2.map fun k => { k with waiting := k.waiting ++ [w] }) else e }

/-- The copy-error trap of a thread's copy (R282): at its next word, or at the JEND it waits at. -/
def State.copyTrapThread (s : State) (t : Tid) (c : Copy) (va : Nat) : State :=
  let x := s.thread t
  if x.ended then s
  else if x.wait = .jend then (s.threadTrap t 0x16 (BitVec.ofNat 64 va)).fillTmask t.unit
  else s.modThread t fun x => { x with pendTraps := x.pendTraps ++ [(0x16, BitVec.ofNat 64 va, c.seq)] }

/-- COPY_ERROR (R282): a copy that met poison at a landing, or a failed integrity check now, is gone, and its trap is queued; of a job that
has ended already only the copy goes. -/
def execCopyError (d : Dom) (copy : Nat) (va : Word) (s : State) : Out :=
  .next (match (s.eng d).copies[copy]? with
    | none => s
    | some c =>
      let a := c.failed.getD va.toNat
      let live := ((s.slot c.job).map fun z => z.endStatus.isNone) == some true
      let s := (s.emitAt c.issuer 0x29 4 false 0x16 0 0).endCopy d copy
      if !live then s
      else match c.issuer with
        | .core .. => s.copyTrapCore c a
        | .thr t => s.copyTrapThread t c a)

/-! ### Waits of threads -/

/-- Copies of a thread in flight. -/
def State.threadCopies (s : State) (t : Tid) : List Copy := (s.eng (.unit t.unit)).copies.filter fun c => c.issuer == .thr t

/-- THREAD_END (R371): the memory ops of a thread at its JEND have performed at DEVICE scope; it ends, its open query discarded (R202). -/
def execThreadEnd (t : Tid) (s : State) : Out :=
  .next
    (if (s.thread t).wait != .jend || s.threadCopies t != [] then s
     else ((s.cleanAll (.unit t.unit)).wake t).modThread t fun x => { x with ended := true, query := none, pendTraps := [] })

/-- DRAIN_COMPLETE (R251): every earlier memory op of the thread, copies included, has performed at the scope. -/
def execDrainComplete (t : Tid) (s : State) : Out :=
  .next (if (s.thread t).wait != .drain || s.threadCopies t != [] then s else s.wakeDone t)

/-- SEMWAIT_SATISFY (R373): the waiter at the head takes its count and completes, an acquire at CORE scope. -/
def execSemwaitSatisfy (unit : Fin 32) (group sem : Nat) (s : State) : Out :=
  let g := s.group unit group
  .next (match g.semq.find? fun q => q.1 == sem with
    | none => s
    | some q =>
      let t : Tid := ⟨unit, group, q.2⟩
      match (s.thread t).wait with
      | .sem _ k =>
        let v := mget 0 g.sem sem
        if v < k then s
        else ((s.modGroup unit group fun g => { g with sem := mset 0 g.sem sem (v - k), semq := g.semq.erase q }).acquireAt (.unit unit) .core).wakeDone t
      | _ => s)

/-- SWAIT_SATISFY (R284): a thread's sync word has reached its generation; the word is read, as an acquire where asked, poison trapping. A
core tries its bundle again by itself. -/
def execSwaitSatisfy (w : Waiter) (s : State) : Out :=
  .next (match w with
    | .core .. => s
    | .thread t _ => match (s.thread t).wait with
      | .sync off gen d acq sc => match s.loadLocal (.thr t) off 8 with
        | .error f => (s.threadTrap t f.trap.cause f.trap.tval).fillTmask t.unit
        | .ok bs =>
          if !reached (leNat bs) gen then s
          else (((if acq then s.acquireAt (.unit t.unit) sc else s).putX t d (BitVec.ofNat 64 (leNat bs)))).wakeDone t
      | _ => s)

/-- The threads of every unit, in ascending unit, group place and index. -/
def State.allTids (s : State) : List Tid := (List.range 32).flatMap fun u => (s.unit u).tids (fin 32 u)

/-- QPUSH_ROOM (R296): a queue has room, or a waiter; threads that wait to push issue their words again. -/
def execQpushRoom (q : BitVec 13) (s : State) : Out :=
  let u := s.queue q.toNat
  .next
    (if u.items.length < u.cap || u.waiters != [] then (s.allTids.filter fun t => (s.thread t).wait == .push q.toNat).foldl State.wake s else s)

/-! ### Barriers (R374) -/

/-- The threads of a group that have not ended, as barrier arrivals of a level and id. -/
def Group.expects (g : Group) (level id : Nat) : List (Nat × Nat × Nat) :=
  ((List.range g.size).filter fun i => !(mget Thread.reset g.threads i).ended).map fun i => (level, id, i)

/-- The waiting threads of a group released from a barrier, each after its engine's acquire. -/
def State.openBar (s : State) (u : Fin 32) (g level id : Nat) (wide : Bool) : State :=
  let l := (s.group u g).expects level id
  let s := if wide then s.dropAll (.unit u) else s.acquireAt (.unit u) .core
  let s := s.modGroup u g fun x => { x with bars := x.bars.filter fun b => !l.contains b }
  l.foldl (fun s b => s.wakeDone ⟨u, g, b.2.2⟩) s

/-- Has every participant of a group arrived? -/
def State.barFull (s : State) (u : Fin 32) (g level id : Nat) : Bool :=
  let x := s.group u g
  (x.expects level id).all fun b => x.bars.contains b

/-- BAR_COMPLETE (R374): every participant has arrived; a release and acquire at the level's scope (R250), and the waiters go on. -/
def execBarComplete (b : BarPlace) (s : State) : Out :=
  .next (match b with
    | .group u g id => if s.barFull u g 0 id then s.openBar u g 0 id false else s
    | .block slot id =>
      let gs := s.jobGroups slot
      let wide := (gs.map (·.1)).eraseDups.length != 1
      if !gs.all fun p => s.barFull p.1 p.2 1 id then s
      else
        let s := if wide then gs.foldl (fun s p => s.releaseAt (.unit p.1) .device) s else s
        gs.foldl (fun s p => s.openBar p.1 p.2 1 id wide) s
    | .job slot id => match s.slot slot with
      | none => s
      | some z =>
        let cs := (List.range 32).filter fun c => (s.core c).job == some slot && (s.core c).part != .ended
        if z.state != .running || !cs.all fun c => z.bars.contains (id.val, (s.core c).idx) then s
        else
          let s := s.modSlot slot fun z => { z with bars := z.bars.filter fun x => x.1 != id.val }
          cs.foldl (fun s c => s.modCore c fun x => { x with wait := x.wait.passBar id.val }) s)

/-! ### Removals of translations (R407) -/

/-- Is everything done that a removal waits for? -/
def State.removalDone (s : State) (r : Removal) : Bool :=
  r.cores = [] && (r.copies.all fun c => (s.eng c.1).copies.all fun y => y.seq != c.2)
    && r.fills.all fun f => match mget none (s.core f.1).blocks f.2 with
      | some b => b.filled
      | none => true

/-! ### Trace acceptance (R319) -/

/-- The oldest record held on a unit whose buffer takes it is written; a buffer that refuses one takes none behind it (R314, R319). -/
def State.acceptThread (s : State) (u : Fin 32) (blocked : List Nat) : List (Nat × Nat × Nat) → State
  | [] => s
  | q :: qs =>
    let t : Tid := ⟨u, q.1, q.2.1⟩
    match (s.thread t).trec with
    | [] => s.acceptThread u blocked qs
    | r :: rest =>
      let w := s.offerHeld r
      if blocked.contains q.2.2 then s.acceptThread u blocked qs
      else if !w.1 then s.acceptThread u (q.2.2 :: blocked) qs
      else
        let s := (w.2.modThread t fun x => { x with trec := rest }).modUnit u fun v => { v with traceq := v.traceq.erase q }
        if rest = [] then s.threadStall t 4 (s.thread t).heldSince else s

/-- The oldest record that a core holds is written where its buffer takes it; with the last one the freeze ends (R319). -/
def State.acceptCore (s : State) (c : Nat) : State :=
  match (s.core c).trec with
  | [] => s
  | r :: rest =>
    let w := s.offerHeld r
    if !w.1 then s else (w.2.modCore c fun x => { x with trec := rest }).settleCore c

/-- TRACE_RECORD_ACCEPT (R319): a held record is written; with the last one a core's freeze, or a thread's hold, ends. -/
def execTraceRecordAccept (d : Dom) (s : State) : Out :=
  .next (match d with
    | .core c => s.acceptCore c
    | .unit u => s.acceptThread u [] (s.unit u).traceq)

/-- The records that a resumed part holds are the first that its engine writes (R319): those that their buffers take now. -/
def State.acceptSaved (s : State) (d : Dom) : State :=
  match d with
  | .core c => (s.core c).trec.foldl (fun s _ => s.acceptCore c) s
  | .unit u => s.acceptThread u [] (s.unit u).traceq

/-! ### Task blocks (R34, R54, R360, R361) -/

/-- The conditions of a task-block entry that are in use: semaphore and threshold. -/
def entryConds (bs : List Byte) : List (Nat × Nat) :=
  ((List.range 4).map fun j => (fieldAt bs (8 + 2 * j) 1, fieldAt bs (9 + 2 * j) 1)).filter fun c => c.2 != 0

/-- The sum of the thresholds of a semaphore (R34). -/
def condSum (l : List (Nat × Nat)) (i : Nat) : Nat := ((l.filter fun c => c.1 == i).map (·.2)).sum

/-- A block begins (R34, R54): every threshold subtracted, the state of R56, R149, R188 and R322 set, its first bundle a checkpoint. -/
def State.beginBlock (s : State) (c entry : Nat) (bs : List Byte) : State :=
  let cs := entryConds bs
  let s := s.endStall c
  s.modCore c fun x =>
    let a : Arch := { x.arch with pc := BitVec.ofNat 32 (fieldAt bs 0 4), redir := [], held := [], ps := [], walker := Walker.reset }
    { x with arch := a, shadow := a, shadowReissue := false, part := .running, entry := entry, dcyc := fieldAt bs 4 4,
             nextEntry := fieldAt bs 16 4, blockAdv := 0, blockFirst := true, intervalAdv := 0, reissue := false, markRef := none,
             sem := (cs.map (·.1)).eraseDups.foldl (fun m i => mset 0 m i (mget 0 m i - condSum cs i)) x.sem }

/-- May the core's part start its next block: nothing holds it, and its snapshot is written? -/
def State.blockReady (s : State) (c : Nat) : Bool :=
  let x := s.core c
  !s.reeve.halted && (x.eng.stopped.isNone || x.eng.stepping) && x.preempt.isNone && x.trec = [] && x.wait = .none && !x.snapDue

/-- Do the conditions of an entry hold on a core (R34)? -/
def Core.condsMet (x : Core) (bs : List Byte) : Bool := (entryConds bs).all fun q => condSum (entryConds bs) q.1 ≤ mget 0 x.sem q.1

/-- The dictionary image loaded where a core needs it and does not hold it (R71): in a shared-fetch gang only position 0 does (R362). -/
def State.needDict (s : State) (c : Nat) (first : Bool) : Except Fail State :=
  if (s.core c).dict == (s.core c).job || !(first || redundantCard (s.cardAt (.core (fin 32 c) 0))) then .ok s else s.loadDict c

/-- A block begins on cores that have read its entry, their dictionaries loaded; or the trap of the first that cannot. -/
def State.beginBlocks (s : State) (c n : Nat) (bs : List Byte) : List Nat → State
  | [] => s
  | j :: rest => match s.needDict j (j = c) with
    | .error f => f.st.issueTrap j f.trap
    | .ok s => (s.beginBlock j n bs).beginBlocks c n bs rest

/-- TASK_BLOCK_START (R34): the entry is read and checked (R360), its conditions tested as sums, the dictionary loaded where it is not
resident (R71), and the block begins, on every core of a gang or on none (R35). -/
def execTaskBlockStart (core : Fin 32) (s : State) : Out :=
  let c := core.val
  let g := s.gangLive c
  .next (match (s.core c).part with
    | .block n =>
      if g.head? != some c || !g.all fun j => (s.core j).part == .block n && s.blockReady j then s
      else
        let va := (Card.tblist (s.cardAt (.core core 0)) + 32 * n) % 2 ^ 64
        match s.fetchCode (.core core 0) va 32 with
        | .error f => f.st.issueTrap c f.trap
        | .ok (bs, s) =>
          if (bs.drop 20).any (· != 0) || 4096 < va % 4096 + 32 then s.issueTrap c ⟨0x05, BitVec.ofNat 64 va⟩
          else if !g.all fun j => (s.core j).condsMet bs then g.foldl (fun s j => s.stall j 2) s
          else s.beginBlocks c n bs g
    | _ => s)

/-- SNAPSHOT_WRITE (R443): the block's effects have performed at DEVICE, and the core's area and scratchpad share are kept. -/
def execSnapshotWrite (core : Fin 32) (s : State) : Out :=
  let c := core.val
  let x := s.core c
  .next (match x.job with
    | none => s
    | some j =>
      if !x.snapDue || !(x.eng.copies.all fun y => y.job != j || y.part != x.idx) then s
      else
        let s := (s.cleanAll (.core core)).modCore c fun x => { x with snapDue := false }
        let card := s.cardOf j
        let stride := coreAreaSize + scratchShare (Card.loc card)
        let base := s.saveBase j (Card.world card) true + stride * x.idx
        let s := s.putArea (Card.world card) base (s.coreArea c j false true false)
        let s := s.putArea (Card.world card) (base + coreAreaSize) (readBytes x.scratch 0 (scratchShare (Card.loc card)))
        let k := (s.core c).kept
        s.modSlot j fun z =>
          let m := mset none z.snapCore x.idx (some k)
          { z with snapCore := m, snapshot := (List.range (Card.neng card)).all fun i => (mget none m i).isSome })

end Sys2Proof.Machine
end

