-- ==== Sys2Proof/Machine/Admit.lean ====
section
/-!
DEFINITION. Requesters of control regions (spec/11_isolation.md R377, R383), admission and home sets (spec/10_progress.md R339, R352, R355,
R357 to R359, spec/11_isolation.md R382, spec/13_boundary.md R449, R452), and the commands of Beadle's submission window (R331, R333 to
R336).
-/
namespace Sys2Proof.Machine

/-! ### Requesters -/

/-- The world of a requester (R377). -/
def State.reqWorld (s : State) : Requester → Bool
  | .hart h _ => s.reeve.hartSec.getLsbD h
  | .reeve => true
  | .job _ w => w
  | .pcie => false

/-- Is the requester privileged (R383)? -/
def State.reqPriv (s : State) : Requester → Bool
  | .hart _ p => p && s.reeve.hartsOn
  | .reeve => true
  | .job p _ => s.partPriv p
  | .pcie => false

/-! ### Engines and sets -/

/-- May a card run on an engine (R186)? -/
def State.suits (s : State) (card : List Byte) (e : Nat) : Bool :=
  s.usable (Card.eng card) e && (!Card.fixshape card || (s.core e).fmap.shape == (32, 32))

/-- The least power of two at or above n, up to 32. -/
def pow2Up (n : Nat) : Nat := if n ≤ 1 then 1 else if n ≤ 2 then 2 else if n ≤ 4 then 4 else if n ≤ 8 then 8 else if n ≤ 16 then 16 else 32

/-- Engines of a card's home set (R339). -/
def homeSize (card : List Byte) : Nat := if Card.eng card = 0 then Card.neng card else pow2Up (Card.groups card)

/-- The aligned sets of a size, in ascending order of first engine. -/
def alignedSets (n : Nat) : List (List Nat) :=
  if n = 0 then [] else (List.range (32 / n)).map fun i => (List.range n).map fun j => i * n + j

/-! ### The tests of R357 -/

/-- Sum of two fractions. -/
def fracAdd (a b : Nat × Nat) : Nat × Nat := (a.1 * b.2 + b.1 * a.2, a.2 * b.2)

/-- A card's density (R358, R452). -/
def State.density (s : State) (card : List Byte) : Nat × Nat :=
  let t := if Card.eng card ≠ 0 then 8 else if s.reeve.stage.toNat < 5 && Card.early card then 20 else 10
  (Card.cycles card * t + Card.pbound card, min (Card.period card) (Card.deadline card))

/-- Resident deadline cards of a class with a home set, one slot apart. -/
def State.homed (s : State) (cls : Nat) (skip : Option Nat) : List Slot :=
  (s.residents.filter fun e => some e.1 != skip && Card.eng e.2.card == cls && Card.deadline e.2.card != 0 && e.2.home != []).map (·.2)

/-- Do two sets meet? -/
def meets (a b : List Nat) : Bool := a.any b.contains

/-- Does set S pass the deadline test for a card (R358, R382), full-shape cores and service apart? -/
def State.densityOk (s : State) (card : List Byte) (others : List Slot) (set : List Nat) : Bool :=
  let d := s.density card
  let ok (home : List Nat) : Bool :=
    let own := if meets home set then d else (0, 1)
    let t := (others.filter fun z => meets z.home home).foldl (fun a z => fracAdd a (s.density z.card)) own
    decide (t.1 * 64 ≤ t.2 * (64 - s.beadle.bemin.toNat))
  ok set && others.all fun z => !meets z.home set || (Card.world z.card == Card.world card && ok z.home)

/-- The first aligned set that passes the deadline test (R357). -/
def State.findHome (s : State) (card : List Byte) (skip : Option Nat) : Option (List Nat) :=
  let others := s.homed (Card.eng card) skip
  (alignedSets (homeSize card)).find? fun set => set.all (s.suits card) && s.densityOk card others set

/-- The scratchpad test (R357). -/
def State.scratchOk (s : State) (card : List Byte) (skip : Option Nat) (set : List Nat) : Bool :=
  Card.eng card != 0 || set.all fun e =>
    roundUp (Card.loc card) 262144 + (((s.homed 0 skip).filter fun z => z.home.contains e).map fun z => roundUp (Card.loc z.card) 262144).sum ≤ 2097152

/-- A job's budget per window at a channel (R351). -/
def jobBudget (card : List Byte) : Nat := (Card.budget card + 1023) / 1024 * 64

/-- The Tollgate test (R357, R452) of a number of bytes; `half` at the memory rate before stage 5. -/
def State.tollOk (s : State) (bytes : Nat) (half : Bool) : Bool := bytes * (if half then 2560 else 1280) ≤ s.beadle.tgwin * 2149

/-- Bytes reserved at each channel by resident cards and partition pools. -/
def State.tollBytes (s : State) (skip : Option Nat) : Nat :=
  ((s.residents.filter fun e => some e.1 != skip).map fun e => jobBudget e.2.card).sum + ((List.range 64).map s.poolBudget).sum

/-- Before stage 5 an early card is tested at the reduced figures (R452). -/
def State.reduced (s : State) (card : List Byte) : Bool := s.reeve.stage.toNat < 5 && Card.eng card == 0 && Card.early card

/-- Admission (R357): the home set, or the STATUS of the first failure. -/
def State.admission (s : State) (card : List Byte) : Except Nat (List Nat) :=
  let toll := s.tollOk (s.tollBytes none + jobBudget card) (s.reduced card)
  if Card.deadline card = 0 then (if toll then .ok [] else .error 0x13)
  else match s.findHome card none with
    | none => .error 0x12
    | some set =>
      if !s.scratchOk card none set then .error 0x15
      else if !toll then .error 0x13
      else if poolUnits s.beadle.powercap.toNat < s.reservedUnits + engCount card * Card.leavemax card then .error 0x14
      else .ok set

/-- A resident deadline card bound again (R357, R359): to the first home set that passes, where its live job is a deadline job again unless it
was demoted or has missed, or to none, as best effort. -/
def State.rebind (s : State) (n : Nat) : State :=
  let s := s.settleServers
  match s.slot n with
  | none => s
  | some z =>
    if Card.deadline z.card = 0 then s
    else match s.findHome z.card (some n) with
      | some set =>
        if s.scratchOk z.card (some n) set && s.tollOk (s.tollBytes (some n) + jobBudget z.card) (s.reduced z.card) then
          s.modSlot n fun z =>
            { z with home := set, admissionLost := false,
                     bestEffort := if z.admissionLost then z.demoted || z.missed else z.bestEffort }
        else s.modSlot n fun z => { z with home := [], admissionLost := true, bestEffort := true }
      | none => s.modSlot n fun z => { z with home := [], admissionLost := true, bestEffort := true }

/-- Every card homed on an engine, or with admission lost, bound again (R359). -/
def State.rebindAll (s : State) (p : Slot → Bool) : State :=
  (s.residents.filter fun e => Card.deadline e.2.card != 0 && p e.2).foldl (fun s e => s.rebind e.1) s

/-! ### Registration (R331, R333, R335) -/

/-- Fields that must be zero on a card of the other class (R330). -/
def classZero (card : List Byte) : Bool :=
  if Card.eng card = 0 then Card.nsem card = 0 && Card.gsize card = 0 && Card.regs card = 0 && Card.block card = 0
  else bits (fieldAt card 4 1) 5 2 = 0 && !Card.pmode card && Card.neng card = 0 && fieldAt card 52 2 = 0 && Card.tblist card = 0

/-- A vision card's own rules (R24, R331). -/
def visionOk (card : List Byte) : Bool :=
  let n := Card.regs card
  let g := Card.gsize card
  n % 8 = 0 && 8 ≤ n && n ≤ 64 && 1 ≤ g && g ≤ min 2048 (65536 / n) && 1 ≤ Card.block card && Card.block card ≤ 65536
    && Card.groups card ≤ 32 && Card.loc card ≤ 229376 && Card.leavemax card ≤ 16 && Card.code card % 8 = 0
    && 32000 + (g * n * 8 + Card.loc card + 3) / 4 ≤ Card.pbound card

/-- A matrix card's own rules (R330, R331). -/
def matrixOk (card : List Byte) : Bool :=
  [1, 2, 4, 8, 16, 32].contains (Card.neng card) && 2 ^ Card.gang card ≤ Card.neng card && Card.loc card ≤ 2097152
    && Card.leavemax card ≤ 32 && Card.tblist card % 64 = 0 && Card.dict card % 64 = 0 && Card.code card % 2 = 0
    && 12288 ≤ Card.pbound card

/-- Does a card keep R330 and R331, its edge table apart? -/
def cardOk (card : List Byte) : Bool :=
  Card.eng card ≤ 1 && Card.jobid card != 0 && Card.miss card != 3 && Card.restart card != 3 && !bit (fieldAt card 5 1) 7
    && !bit (fieldAt card 7 1) 6 && fieldAt card 104 1 ≤ 4 && (card.drop 105).take 7 == zeros 7 && classZero card
    && (Card.period card != 0 || (Card.spor card && Card.deadline card = 0)) && Card.deadline card ≤ Card.period card
    && (if Card.spill card then (Card.loc card + 3) / 4 ≤ Card.spillb card else Card.spillb card = 0)
    && Card.compl card % 32 = 0 && Card.edges card % 64 = 0
    && (if Card.eng card = 0 then matrixOk card else visionOk card)

/-- An entry of the edge table (R333): the producer's JOBID and the regions. -/
def edgeOf (bs : List Byte) : Option (Nat × List (Nat × Nat)) :=
  let n := fieldAt bs 4 1
  if n = 0 || 4 < n || (bs.drop 5).take 3 != zeros 3 || (bs.drop 56).take 8 != zeros 8 then none
  else some (fieldAt bs 0 4, (List.range n).map fun j => (fieldAt bs (8 + 12 * j) 8, fieldAt bs (16 + 12 * j) 4))

/-- The edge table of a card read and checked; none where it breaks a rule. -/
def State.readEdges (s : State) (card : List Byte) : Option (List (Nat × List (Nat × Nat))) × State :=
  let n := Card.nedge card
  if n = 0 then (some [], s)
  else match s.deviceRead card (Card.edges card) (64 * n) 1 with
    | .error f => (none, f.st)
    | .ok (bs, s) =>
      let es := (List.range n).map fun i => edgeOf ((bs.drop (64 * i)).take 64)
      (if es.all Option.isSome then some (es.filterMap id) else none, s)

/-- Do a card's save area and snapshot area fit their half of a slot (R449)? -/
def State.areaFits (s : State) (card : List Byte) : Bool :=
  let save := if Card.eng card = 0 then coreAreaSize * Card.neng card else groupAreaStride card * Card.groups card
  let snap := if Card.eng card = 0 && Card.restart card = 2 then (coreAreaSize + scratchShare (Card.loc card)) * Card.neng card else 0
  max save snap ≤ s.cfg 0x38 8 / 2

/-- The lowest free resident slot (R335, R449). -/
def State.freeSlotNo (s : State) : Option Nat := (List.range (s.cfg 0x54 2)).find? fun n => (s.slot n).isNone

/-- The first instant kP at or after now (R337). -/
def firstRelease (now period : Nat) : Nat := (now + period - 1) / period * period

/-- A card made resident. -/
def State.newSlot (s : State) (card : List Byte) (edges : List Edge) (home : List Nat) : Slot :=
  { card := card, edges := edges, home := home, retiring := false, skip := 0, lastRelease := none, turned := none,
    nextRelease := if Card.spor card then none else some (firstRelease s.ptime (Card.period card)), deferred := none, state := .none,
    release := 0, deadline := 0, bestEffort := false, demoted := false, overrun := false, admissionLost := false, restarted := false,
    missed := false, resuming := false, engines := [], lastEngines := [], owed := [], rollbackSave := false, cyclesRun := [], anyhit := 0, energy := 0,
    frozen := none, freezeTicks := 0, freezeEarly := 0, gathered := [], flow := 0, savedGrants := [], keptCore := [], shares := [], keptGroup := [], snapCore := [], snapshot := false, fromSnap := false,
    endStatus := none, bars := [], capture := none, touched := [], replay := none }

/-- Register (R335): the STATUS and SLOT answered, and the state. -/
def State.registerCard (s : State) (world : Bool) (card : List Byte) : Nat × Nat × State :=
  if !cardOk card || !s.partEn (Card.part card) then (0x10, 0, s)
  else match s.readEdges card with
    | (none, s) => (0x10, 0, s)
    | (some es, s) =>
      if (s.findJob (Card.jobid card)).isSome then (0x11, 0, s)
      else if Card.world card != s.partWorld (Card.part card) || Card.world card != world then (0x17, 0, s)
      else
        let edges := es.map fun e => (s.findJob e.1).map fun n =>
          ({ producer := some n, regions := e.2, satisfied := false, fresh := false } : Edge)
        if edges.any Option.isNone then (0x1B, 0, s)
        else match s.freeSlotNo with
          | none => (0x16, 0, s)
          | some n =>
            if !s.areaFits card then (0x16, 0, s)
            else match s.admission card with
              | .error st => (st, 0, s)
              | .ok home =>
                let s := if Card.deadline card = 0 then s else { s with reeve := { s.reeve with stepped := true } }
                (0x01, n, s.setSlot n (some (s.newSlot card (edges.filterMap id) home)))

/-- Submit, retire and abort (R335) of the resident card n: the STATUS and the state. -/
def State.cardCommand (s : State) (cmd n : Nat) (z : Slot) : Nat × State :=
  match cmd with
  | 1 => if !Card.spor z.card then (0x18, s) else if z.retiring then (0x19, s) else (0x02, s.takeRelease n 0)
  | 2 =>
    if z.retiring then (0x19, s)
    else
      let s := s.modSlot n fun z => { z with retiring := true, nextRelease := none, deferred := none }
      (0x03, if z.state = .none then s.freeSlot n else s)
  | _ => if z.state = .none then (0x1A, s) else (0x04, if z.endStatus.isNone then s.finishJob n 3 0 else s)

/-- A command's RESULT, written into its card at offset 120: STATUS, SLOT and SKIP (R336). -/
def State.answerCard (s : State) (world : Bool) (pa status slot skip : Nat) : State :=
  s.homeWrite world (cellsOf (pa + 120) (leBytes 8 (status + slot * 2 ^ 8 + skip * 2 ^ 32)))

/-- A command of the submission window (R334 to R336): 0 register, 1 submit, 2 retire, 3 abort. An ignored write has no effect. -/
def State.command (s : State) (req : Requester) (cmd pa : Nat) : State :=
  let world := s.reqWorld req
  if !s.reqPriv req || s.reeve.stage.toNat < 3 || pa % 128 != 0 || 2 ^ 44 ≤ pa || (s.secure pa && !world) then s
  else
    let card := (s.homeRead world pa 128).1
    if cmd = 0 then
      let r := s.registerCard world card
      r.2.2.answerCard world pa r.1 r.2.1 0
    else match s.findJob (Card.jobid card) with
      | none => s.answerCard world pa 0x11 0 0
      | some n => match s.slot n with
        | none => s.answerCard world pa 0x11 0 0
        | some z =>
          if Card.world z.card != world then s.answerCard world pa 0x17 0 0
          else
            let r := s.cardCommand cmd n z
            let skip := ((r.2.slot n).map (·.skip)).getD z.skip
            r.2.answerCard world pa r.1 n skip

/-- REGISTER (R335). -/
def execRegister (req : Requester) (card : BitVec 44) (s : State) : Out := .next (s.command req 0 card.toNat)
/-- SUBMIT (R335). -/
def execSubmit (req : Requester) (card : BitVec 44) (s : State) : Out := .next (s.command req 1 card.toNat)
/-- RETIRE (R335). -/
def execRetire (req : Requester) (card : BitVec 44) (s : State) : Out := .next (s.command req 2 card.toNat)
/-- ABORT (R335). -/
def execAbort (req : Requester) (card : BitVec 44) (s : State) : Out := .next (s.command req 3 card.toNat)

/-! ### Beadle's and Tollgate's fields (R340, R350) -/

/-- Is a card of a kind resident? -/
def State.anyCard (s : State) (p : List Byte → Bool) : Bool := s.residents.any fun e => p e.2.card

/-- BEMIN_WRITE (R340): bits above the field are ignored (R5). -/
def execBeminWrite (req : Requester) (v : Word) (s : State) : Out :=
  .next
    (if !s.reqPriv req || s.anyCard (fun c => Card.deadline c != 0) || 32 < v.toNat % 64 then s
     else { s with beadle := { s.beadle with bemin := v.setWidth 6 } })

/-- BEWIN_WRITE (R340). -/
def execBewinWrite (req : Requester) (v : Word) (s : State) : Out :=
  .next
    (if !s.reqPriv req || s.anyCard (fun c => Card.deadline c != 0) || v.toNat < 16000 || 16000000 < v.toNat then s
     else { s with beadle := { s.beadle with bewin := v.toNat } })

/-- TGWIN_WRITE (R350). -/
def execTgwinWrite (req : Requester) (v : Word) (s : State) : Out :=
  .next
    (if !s.reqPriv req || s.anyCard (fun c => Card.budget c != 0) || v.toNat < 16000 || 16000000 < v.toNat || 16000000000 % v.toNat != 0 then s
     else { s with beadle := { s.beadle with tgwin := v.toNat } })

end Sys2Proof.Machine
end

