-- ==== Sys2Proof/Machine/Capture.lean ====
section
/-!
DEFINITION. Capture and replay (spec/09_time_trace.md R328, R329): the records and payloads of a capture buffer, CAPTURE_PREIMAGE_WRITTEN,
and the submission of a job that runs from a capture.
-/
namespace Sys2Proof.Machine

/-- RBASE of a descriptor (R315). -/
def TraceDesc.rbase (d : TraceDesc) : Nat := fieldAt d.desc 48 8
/-- Capture buffer size in bytes. -/
def TraceDesc.rsize (d : TraceDesc) : Nat := 2 ^ fieldAt d.desc 56 1

/-- Zero bytes up to a multiple of 64. -/
def pad64 (bs : List Byte) : List Byte := bs ++ zeros ((64 - bs.length % 64) % 64)

/-- A capture record: full, of a source that counts its capture records apart from its ring's (R307). -/
def State.capRec (s : State) (src part : Nat) (world : Bool) (evt arg loc jobid : Nat) : List Byte × State :=
  let (t, s) := s.stampFor src
  let p := s.tsrc (64 + part) src
  (fullRec (recHeader 2 part src evt 0 world p.seq) arg t loc jobid 0 0 0,
   s.setTsrc (64 + part) src { seq := (p.seq + 1) % 16, stamp := t, full := true })

/-- Bytes put in a capture buffer at RUSED: none where they do not fit, an error where a store faults. -/
def State.capPut (s : State) (src part : Nat) (world : Bool) (bs : List Byte) : Except Nat (Option State) :=
  let d := s.tdesc part
  let b := pad64 bs
  if d.rsize < d.rused * 64 + b.length then .ok none
  else match s.traceStore src (fieldAt d.desc 12 2) part world (d.rbase + d.rused * 64) b with
    | .error va => .error va
    | .ok s =>
      let d := s.tdesc part
      .ok (some (s.setTdesc part { d with rused := d.rused + b.length / 64 }))

/-- Are capture records of a card written: its partition's descriptor is in effect, has a capture buffer, and is SECURE for a secure job
(R315, R317)? -/
def State.capOpen (s : State) (card : List Byte) : Bool :=
  let d := s.tdesc (Card.part card)
  d.rbase != 0 && d.status != 1 && (!Card.world card || d.secure)

/-- A capture ends with CAPFAIL: bit 0 for a full buffer, bit 1 for a fault; the record itself is lost where it does not fit. -/
def State.capFail (s : State) (n arg : Nat) : State :=
  let card := s.cardOf n
  let s := s.modSlot n fun z => { z with capture := none, touched := [] }
  if !s.capOpen card then s
  else
  let r := s.capRec 0x6A (Card.part card) (Card.world card) 0x3E arg 0 (Card.jobid card)
  match r.2.capPut 0x6A (Card.part card) (Card.world card) r.1 with
  | .ok (some s) => s
  | _ => r.2

/-- A record and its payload written to the capture of a slot, unless the capture has ended. -/
def State.capWrite (s : State) (n src evt loc : Nat) (payload : List Byte) : State :=
  let card := s.cardOf n
  if ((s.slot n).bind (·.capture)).isNone || !s.capOpen card then s
  else
    let r := s.capRec src (Card.part card) (Card.world card) evt 0 loc (Card.jobid card)
    match r.2.capPut src (Card.part card) (Card.world card) (pad64 r.1 ++ payload) with
    | .ok (some s) => s
    | .ok none => r.2.capFail n 1
    | .error _ => r.2.capFail n 2

/-- The source of a job's capture records: its first engine. -/
def State.capSrc (s : State) (n : Nat) : Nat :=
  match s.slot n with
  | some z => (z.engines.headD 0) + (if Card.eng z.card = 0 then 0 else 32)
  | none => 0

/-- CAPTURE_START (R328): the card, the argument block and a matrix job's scratchpad shares. -/
def State.startCapture (s : State) (n : Nat) : State :=
  let card := s.cardOf n
  if !Card.cap card || !s.capOpen card then s
  else
    let s := s.modSlot n fun z => { z with capture := some [], touched := [] }
    let src := s.capSrc n
    let s := s.capWrite n src 0x3C 0 ((card ++ zeros 128).take 128)
    let s := match s.deviceRead card (Card.args card) 1216 1 with
      | .error f => f.st.capFail n 2
      | .ok (bs, s) => s.capWrite n src 0x3C 0 bs
    if Card.eng card != 0 then s
    else ((s.slot n).elim [] (·.engines)).foldl (fun s c =>
      s.capWrite n src 0x3C 0 (readBytes (s.core c).scratch 0 (s.core c).scratchSize)) s

/-- CAPTURE_PREIMAGE_WRITTEN (R328): the pre-image of a page first touched is written, and the page is captured. Log 158. -/
def execCapturePreimageWritten (slot : Nat) (page : BitVec 64) (s : State) : Out :=
  .next (match s.slot slot with
    | none => s
    | some z => match z.touched.find? fun e => e.1 == page.toNat with
      | none => s
      | some e =>
        let s := s.capWrite slot (s.capSrc slot) 0x3D (e.1 * 4096) e.2
        s.modSlot slot fun z =>
          { z with capture := z.capture.map fun l => insertNat l e.1, touched := z.touched.filter fun q => q.1 != e.1 })

/-! ### Replay (R329) -/

/-- Bytes of a payload padded to units of 64. -/
def roundUnit (n : Nat) : Nat := (n + 63) / 64 * 64

/-- The payload of a capture's first record, padded, and the rest of the capture; none where the record is another. -/
def capNext (evt n : Nat) (bs : List Byte) : Option (List Byte × List Byte) :=
  if bs.length < 64 + roundUnit n || fieldAt bs 2 1 != evt then none else some ((bs.drop 64).take n, bs.drop (64 + roundUnit n))

/-- The payloads of n records, one after another. -/
def capShares (size : Nat) : Nat → List Byte → Option (List (List Byte) × List Byte)
  | 0, bs => some ([], bs)
  | n + 1, bs => match capNext 0x3C size bs with
    | none => none
    | some (x, bs) => (capShares size n bs).map fun r => (x :: r.1, r.2)

/-- The pages of a capture: the frame of each, by its LOC, and its bytes. -/
def capPages : Nat → List Byte → List (Nat × List Byte)
  | 0, _ => []
  | n + 1, bs => match capNext 0x3D 4096 bs with
    | none => []
    | some (x, rest) => (fieldAt bs 16 8 % 2 ^ 48 / 4096, x) :: capPages n rest

/-- A capture read for a card: what the job runs from, and its pages' bytes (R328, R329). -/
def parseCapture (card bs : List Byte) : Option (Replay × List (Nat × List Byte)) :=
  match capNext 0x3C 128 bs with
  | none => none
  | some (_, bs) => match capNext 0x3C 1216 bs with
    | none => none
    | some (args, bs) => match capShares (scratchShare (Card.loc card)) (if Card.eng card = 0 then Card.neng card else 0) bs with
      | none => none
      | some (shares, bs) =>
        let ps := capPages bs.length bs
        some ({ pages := ps.map (·.1), args := args, shares := shares }, ps)

/-- A submission with the replay flag (R329): a card that the submission releases runs from the capture, its pages restored in a private
address space (log 140). -/
def State.submitReplay (s : State) (n va units : Nat) : State :=
  match s.slot n with
  | none => s
  | some z =>
    if !Card.spor z.card || z.retiring || z.state != .none then s
    else match s.deviceRead z.card va (units * 64) 1 with
      | .error f => f.st
      | .ok (bs, s) => match parseCapture z.card bs with
        | none => s
        | some (r, ps) =>
          let s := s.takeRelease n 0
          match s.slot n with
          | none => s
          | some y =>
            if y.state != .released then s
            else
              let mem := ps.foldl (fun m p => writeBytes m (privatePa n (p.1 * 4096)) p.2) s.mem
              { s with mem := mem }.modSlot n fun z => { z with replay := some r }

end Sys2Proof.Machine
end

