-- ==== Sys2Proof/Machine/Beadle.lean ====
section
/-!
DEFINITION. Beadle: releases (spec/10_progress.md R337), dispatch order and the best-effort server (R338 to R340), pre-emption and
resumption (R342 to R344, R355, spec/12_recovery.md R429, R432, R434), scrubs (spec/11_isolation.md R380), completion (R345, R346,
spec/07_ordering.md R260), deadlines and overruns (R347 to R349).
-/
namespace Sys2Proof.Machine

/-! ### Releases (R337) -/

/-- PERIODIC_RELEASE (R337): a release at its instant, skipped while the previous job is live or the stage does not allow it (R452); a
completion at the same instant is taken first (R341). -/
def execPeriodicRelease (slot : Nat) (s : State) : Out :=
  let s := s.completeJob slot
  .next (match s.slot slot with
    | none => s
    | some z => match z.nextRelease with
      | none => s
      | some t =>
        if s.ptime < t || z.retiring then s
        else
          let s := s.modSlot slot fun z => { z with nextRelease := some (t + Card.period z.card) }
          if z.state != .none then s.modSlot slot fun z => { z with skip := sat32 z.skip }
          else if !s.mayRelease z.card then s.turnAway slot t 0
          else s.releaseCard slot t 0)

/-- DEFERRED_RELEASE (R337): a pending release at its time. -/
def execDeferredRelease (slot : Nat) (s : State) : Out :=
  .next (match s.slot slot with
    | none => s
    | some z => match z.deferred with
      | none => s
      | some t =>
        if s.ptime < t || z.retiring || z.state != .none then s
        else s.releaseCard slot t z.flow)

/-! ### Keys and the best-effort server (R338, R340) -/

/-- SERVER_WINDOW_BOUNDARY (R340): a new window with a full budget. -/
def execServerWindowBoundary (cls : EngClass) (s : State) : Out :=
  let c := clsNo cls
  let s := s.settleServer c
  let w := s.ptime / s.beadle.bewin * s.beadle.bewin
  let n := ((List.range 32).filter fun e => s.usable c e).length
  .next
    (if !s.reeve.counting || some w = (s.beadle.server c).2.1 then s
     else { s with beadle := s.beadle.setServer c (s.beadle.bemin.toNat * s.beadle.bewin * n / 64, some w, s.ptime) })

/-- SERVER_BUDGET_EXHAUSTED (R340): the budget is counted; at zero the job it lent a key has lost that key. -/
def execServerBudgetExhausted (cls : EngClass) (s : State) : Out := .next (s.settleServer (clsNo cls))

/-! ### Placing (R339, R340, R344, R24, R28, R434) -/

/-- Slots of the other jobs that hold an engine of a class. -/
def State.holders (s : State) (n cls e : Nat) : List Nat :=
  (s.residents.filter fun x => x.1 != n && Card.eng x.2.card == cls && x.2.holds && x.2.engines.contains e).map (·.1)

/-- Saved jobs whose scratchpad on a core may be spilled for a job: their cards allow it, their key is higher, and none of their copies is
in flight (R281, R344). -/
def State.spillable (s : State) (n c : Nat) : List Nat :=
  (s.residents.filter fun e => e.1 != n && Card.spill e.2.card && key3Lt (s.jobKey n) (s.jobKey e.1)
    && (e.2.shares.any fun h => h.2.any fun x => x.home == some c)
    && ((List.range 32).all fun d => (s.core d).eng.copies.all fun y => y.job != e.1)).map (·.1)

/-- A saved job's scratchpad spilled from a core. -/
def State.spill (s : State) (n c : Nat) : State :=
  s.modSlot n fun z => { z with shares := z.shares.map fun h => (h.1, h.2.map fun x => if x.home == some c then { x with home := none } else x) }

/-- Room made on a core for a job's scratchpad share; none where there is not enough. -/
def State.makeRoom (s : State) (n c : Nat) : Option State :=
  let need := scratchShare (Card.loc (s.cardOf n))
  let ok (s : State) : Bool := s.keptBytes (some n) c + need ≤ 2097152
  if ok s then some s
  else
    let s := (s.spillable n c).foldl (fun s m => s.spill m c) s
    if ok s then some s else none

/-- Do a job's groups fit on the units named for them: threads in runs of thread slots (R312), registers, semaphores (R27), shared memory (R24,
R28), a common world, and on resumption the activation slots of each area unbound (R434)? -/
def State.unitsFit (s : State) (n : Nat) (es : List Nat) : Bool :=
  let card := s.cardOf n
  let saved := ((s.slot n).map (·.state)) == some .saved
  es.eraseDups.all fun u =>
    let mine := (List.range es.length).filter fun i => es.getD i 0 == u
    let gs := (s.unit u).groups.filterMap (·.2)
    let threads := (mine.map fun i => groupSize card i).sum
    let lutb (i : Nat) : Nat := fieldAt (readBytes s.mem (s.saveBase n (Card.world card) false + groupAreaStride card * i) 64) 0x15 1
    hslotsFit (gs.map fun g => (g.hslot, g.size)) (mine.map fun i => groupSize card i)
      && (gs.map (·.nsem)).sum + mine.length * Card.nsem card ≤ 256
      && (gs.map fun g => g.size * g.regs).sum + threads * Card.regs card ≤ 65536
      && (gs.map (·.smemSize)).sum + mine.length * roundUp (Card.loc card) 32768 ≤ 229376
      && (gs.all fun g => Card.world (s.cardOf g.job) == Card.world card)
      && (!saved || mine.all fun i => ((s.unit u).eng.luts.all fun l => l.2.owner.isNone || !bit (lutb i) l.1))

/-- Is a set a gang's placing: aligned groups of its size, ascending (R33, R363)? -/
def gangPlaced (gang : Nat) (es : List Nat) : Bool :=
  let g := 2 ^ gang
  ((es.zip (es.drop 1)).all fun p => decide (p.1 < p.2)) && (List.range es.length).all fun i => es.getD i 0 % g == i % g
    && es.getD i 0 / g == es.getD (i / g * g) 0 / g

/-- Is a choice of engines one that a best-effort job may take (R340)? -/
def State.placeOk (s : State) (n : Nat) (es : List Nat) : Bool :=
  let card := s.cardOf n
  es.length == engCount card && es.all (s.suits card)
    && (if Card.eng card = 0 then gangPlaced (Card.gang card) es && es.eraseDups.length == es.length else s.unitsFit n es)

/-- The engines of a deadline job: its home set, of which a vision job's groups take the first. -/
def State.homeEngines (s : State) (n : Nat) : List Nat :=
  match s.slot n with
  | none => []
  | some z => z.home.take (engCount z.card)

/-- Have the copies on engines that change world landed (R380)? -/
def State.scrubReady (s : State) (n : Nat) (es : List Nat) : Bool :=
  let card := s.cardOf n
  es.all fun e => let x := s.eng (clsDom (Card.eng card) e); x.world == Card.world card || x.copies = []

/-! ### Dispatch (R339) -/

/-- A reset domain scrubbed for a world (R380): lines written back and gone, tables cleared, scratchpad and hints gone. Registers and group
state are set at job start. -/
def State.scrub (s : State) (d : Dom) (world : Bool) : State :=
  let s := s.dropAll d
  let s := s.modEng d fun e => { e with world := world, luts := [] }
  match d with
  | .core c => s.modCore c fun x => { x with scratch := [], poison := [], dict := none, entries := [] }
  | .unit u => s.modUnit u fun v => { v with hints := [] }

/-- The traps of R349 delivered to a running job: each core at its next commit, the lowest live thread of each group at its word; to
another job when it runs. -/
def State.jobTrap (s : State) (n cause : Nat) (tval : Word) : State :=
  match s.slot n with
  | none => s
  | some z =>
    if !z.holds then s.modSlot n fun z => { z with owed := z.owed ++ [(cause, tval)] }
    else if Card.eng z.card = 0 then
      z.engines.foldl (fun s c => if (s.core c).job == some n && (s.core c).part != .ended then
        s.modCore c fun x => { x with waiting := x.waiting ++ [(cause, tval, 0)] } else s) s
    else (s.jobGroups n).foldl (fun s p =>
      let g := s.group p.1 p.2
      match (List.range g.size).find? fun i => !(mget Thread.reset g.threads i).ended with
      | none => s
      | some i =>
        let t : Tid := ⟨p.1, p.2, i⟩
        (s.withdraw t).modThread t fun x => { x with pendTraps := x.pendTraps ++ [(cause, tval, 0)] }) s

/-- The regions of a card's edges removed from the L1s of the engines it is to run on (R260 step 3). -/
def State.edgeRemove (s : State) (card : List Byte) (edges : List Edge) (es : List Nat) : State :=
  let rs := edges.flatMap (·.regions)
  es.eraseDups.foldl (fun s e => s.dropLines (clsDom (Card.eng card) e) fun l =>
    l.asid == Card.asid card && l.world == Card.world card && rs.any fun r => l.meets (r.1 / 64 * 64) (r.1 % 64 + r.2)) s

/-- A part of a saved job restored on an engine (R432). -/
def State.restorePart (s : State) (n i e : Nat) : Option State :=
  if Card.eng (s.cardOf n) = 0 then s.restoreCore e n i (((s.slot n).map (·.fromSnap)) == some true) else s.restoreGroup e n i

/-- Every part restored, and then each core's walker tiles split for the shape that its gang now computes with (R191); none where a header no
longer matches (R429). -/
def State.restoreParts (s : State) (n : Nat) (es : List Nat) : Option State :=
  ((List.range es.length).foldl (fun (r : Option State) i => r.bind fun s => s.restorePart n i (es.getD i 0)) (some s)).map fun s =>
    if Card.eng (s.cardOf n) = 0 then es.foldl State.splitWalker s else s

/-- The LEAVE units that a resumed part held asked for again before it issues (R355). -/
def State.regrant (s : State) (n : Nat) (es : List Nat) (units : List Nat) : State :=
  let card := s.cardOf n
  let l := ((List.range es.length).filter fun i => units.getD i 0 != 0).map fun i =>
    ({ dom := clsDom (Card.eng card) (es.getD i 0), group := if Card.eng card = 0 then 0 else groupPlace n i, thread := 0, units := units.getD i 0,
       at' := s.ptime, resume := true } : LeaveReq)
  { s with beadle := { s.beadle with leaves := s.beadle.leaves ++ l } }

/-- MIGRATE records of the parts that resume on another engine (R36, R313). -/
def State.migrateRecs (s : State) (n : Nat) (old es : List Nat) : State :=
  let card := s.cardOf n
  (List.range es.length).foldl (fun s i =>
    let e := es.getD i 0
    if old.length = es.length && old.getD i 0 != e then
      s.emitJob 0x60 card 0x0C 0 (e + (if Card.eng card = 0 then 0 else 32)) 0 0 else s) s

/-- A saved job goes on (R432): restored, the records it holds written before its RESUME (R319), grants asked again. -/
def State.resumeJob (s : State) (n : Nat) (z : Slot) (es : List Nat) : State :=
  match s.restoreParts n es with
  | none => s.endJob n 0
  | some s =>
    let s := s.modSlot n fun z => { z with fromSnap := false, resuming := true }
    let s := es.eraseDups.foldl (fun s e => s.acceptSaved (clsDom (Card.eng z.card) e)) s
    let s := s.emitJob 0x60 z.card 0x0B 0 (if z.rollbackSave then 1 else 0) 0 0
    (s.migrateRecs n z.lastEngines es).regrant n es z.savedGrants

/-- A released job starts (R25, R32): its parts, its JOBSTART records (R312, R313), its capture (R328). -/
def State.startJob (s : State) (n : Nat) (z : Slot) (es : List Nat) : State :=
  let card := z.card
  let r := s.beginParts n z.restarted
  match r.2 with
  | some t => r.1.endByTrap n (32 + es.headD 0) 7 t.cause t.tval 0
  | none =>
    let s := (List.range es.length).foldl (fun s i =>
      let e := es.getD i 0
      if Card.eng card = 0 then s.emitJobBy (some (.core (fin 32 e) 0)) e card 0x08 0 (s.core e).gpos z.flow 1
      else s.emitJobBy (some (.thr ⟨fin 32 e, groupPlace n i, 0⟩)) (32 + e) card 0x08 0 ((s.group e (groupPlace n i)).hslot + i * 2 ^ 16) z.flow 1) r.1
    s.startCapture n

/-- A job put on engines (R339): scrubs (R380), edges (R260), start or resumption. -/
def State.dispatchJob (s : State) (n : Nat) (es : List Nat) : State :=
  match s.slot n with
  | none => s
  | some z =>
    let cls := Card.eng z.card
    let s := es.eraseDups.foldl (fun s e =>
      if (s.eng (clsDom cls e)).world == Card.world z.card then s else s.scrub (clsDom cls e) (Card.world z.card)) s
    let s := if z.state == .saved then s else s.edgeRemove z.card z.edges es
    let s := s.modSlot n fun z => { z with state := .running, engines := es, owed := [], gathered := [] }
    let s := if z.state == .saved then s.resumeJob n z es else s.startJob n z es
    z.owed.foldl (fun s t => s.jobTrap n t.1 t.2) s

/-- Is a core waiting at a header wait, at start conditions or at a LEAVE, or frozen by trace (R342)? -/
def Core.waits (x : Core) : Bool :=
  x.trec != [] || (match x.part with
    | .block _ => true
    | _ => false) || (match x.wait with
    | .leave _ => true
    | _ => false) || (match x.stallRun with
    | some r => waitCause r.1
    | none => false)

/-- Does a core of a gang wait, and with it the whole gang (R35, R342)? -/
def State.gangWaits (s : State) (c : Nat) : Bool := (c :: s.gangLive c).any fun j => (s.core j).waits

/-- Pre-emption of a job requested (R342, R343): a waiting core takes the rollback path at once, and its gang with it. -/
def State.requestPreempt (s : State) (n : Nat) : State :=
  match s.slot n with
  | none => s
  | some z =>
    let s := s.modSlot n fun z => { z with state := .saving }
    if Card.eng z.card != 0 then s
    else z.engines.foldl (fun t c => t.modCore c fun x => { x with preempt := some (s.ptime, Card.pmode z.card || s.gangWaits c) }) s

/-- What a dispatch evaluation decides: a job and its engines, or jobs to pre-empt. -/
inductive Choice where
  | start (n : Nat) (es : List Nat)
  | preempt (l : List Nat)
  /-- jobs pre-empted to leave a gang the engines named -/
  | gather (l es : List Nat)
  deriving DecidableEq, Repr

/-- A gang of best-effort work, which occupies aligned groups of cores (R363). -/
def Slot.gang (z : Slot) : Bool := Card.eng z.card == 0 && Card.gang z.card != 0 && z.bestEffort && z.live

/-- Engines of a class that no job holds and that are in service. -/
def State.idleEngines (s : State) (cls : Nat) : List Nat :=
  (List.range 32).filter fun e => s.usable cls e && s.residents.all fun x => Card.eng x.2.card != cls || !x.2.holds || !x.2.engines.contains e

/-- May a saved best-effort job go on elsewhere than where it ran (R36, R363; log 131): only where its engines no longer serve it, or where
it was pre-empted to gather a gang's set, outside that set while the gang has not started? -/
def State.mayMove (s : State) (n : Nat) (z : Slot) (es : List Nat) : Bool :=
  z.state != .saved || z.fromSnap || es == z.lastEngines || z.lastEngines.any (fun e => !s.suits z.card e)
    || (z.gathered != [] && !(meets es z.gathered && s.residents.any fun x => x.1 != n && x.2.gang && x.2.ready))

/-- Would the pre-emption of running best-effort jobs gather a set for a gang (R363): each is best effort and no gang, and idle cores are
left for them? -/
def State.gathers (s : State) (n : Nat) (z : Slot) (es hs : List Nat) : Bool :=
  let idle := (s.idleEngines 0).filter fun e => !es.contains e
  z.gang && hs != [] && hs.all (fun m => m != n && match s.slot m with
    | some y => y.bestEffort && y.state == .running && !y.gang
    | none => false) && (hs.map fun m => ((s.slot m).map fun y => y.engines.length).getD 0).sum ≤ idle.length

/-- Can the scratchpad shares of a job be placed on the cores named, beside those kept there of saved jobs (R344)? None where they cannot. -/
def State.roomFor (s : State) (n : Nat) (es : List Nat) : Option State :=
  if Card.eng (s.cardOf n) != 0 then some s else es.foldl (fun (r : Option State) e => r.bind fun s => s.makeRoom n e) (some s)

/-- A job tried on a set it would hold alone (R339): blocked by a holder of lower key or by shares it cannot displace (none), to wait for
saves under way, to pre-empt, or to start. -/
def State.tryAlone (s : State) (n : Nat) (set es reserved : List Nat) : Option (Option Choice) :=
  let hs := (set.flatMap fun e => s.holders n (Card.eng (s.cardOf n)) e).eraseDups
  if set = [] || (hs.any fun m => key3Lt (s.jobKey m) (s.jobKey n)) || (s.roomFor n es).isNone then none
  else
    let go := hs.filter fun m => ((s.slot m).map (·.state)) == some .running
    if go != [] then some (some (.preempt go))
    else if hs != [] || meets set reserved || !s.scrubReady n es then some none
    else some (some (.start n es))

/-- May best-effort work start on these engines: suited, free (R340), not reserved for a job of lower key? -/
def State.slackOk (s : State) (n : Nat) (z : Slot) (reserved es : List Nat) : Bool :=
  let cls := Card.eng z.card
  let hs := (es.flatMap fun e => s.holders n cls e).eraseDups
  s.placeOk n es && s.mayMove n z es && !meets es reserved && s.scrubReady n es && (s.roomFor n es).isSome
    && (if cls = 0 then hs = [] else hs.all fun m => ((s.slot m).map (·.bestEffort)) == some true)

/-- The engines of a job's first groups, each group on the first unit on which they all fit. -/
def State.firstUnits (s : State) (n : Nat) (free : List Nat) : Nat → List Nat
  | 0 => []
  | k + 1 =>
    let es := s.firstUnits n free k
    match free.find? fun u => s.unitsFit n (es ++ [u]) with
    | some u => es ++ [u]
    | none => es

/-- Where best-effort work can start when Beadle's own choice does not suit it (R340): where it ran, or the lowest engines that do. -/
def State.firstPlace (s : State) (n : Nat) (z : Slot) (reserved : List Nat) : List Nat :=
  let cls := Card.eng z.card
  let free := (List.range 32).filter fun e => s.suits z.card e && !reserved.contains e && !z.gathered.contains e
    && (if cls = 0 then s.holders n cls e = [] else (s.holders n cls e).all fun m => ((s.slot m).map (·.bestEffort)) == some true)
  let whole := (alignedSets (2 ^ Card.gang z.card)).filter fun b => b.all free.contains
  if s.slackOk n z reserved z.lastEngines then z.lastEngines
  else if cls = 0 then whole.flatten.take (engCount z.card) else s.firstUnits n free (engCount z.card)

/-- The best-effort job that the server's budget lets run, tried on the aligned sets of its size (R340): Beadle's own choice where that is
one; first one that is free, then one that saves under way leave, then one that it may pre-empt. Log 161. -/
def State.lentChoice (s : State) (n : Nat) (z : Slot) (place reserved : List Nat) : Option (Option Choice × List Nat) :=
  let k := engCount z.card
  let sets := (alignedSets (homeSize z.card)).filter fun set =>
    set.all (s.suits z.card) && !meets set reserved && s.placeOk n (set.take k) && s.mayMove n z (set.take k)
  let chosen := sets.filter fun set => set.take k == place
  let tried := (if chosen = [] then sets else chosen).filterMap fun set => (s.tryAlone n set (set.take k) []).map fun r => (r, set)
  let rank (p : Option Choice × List Nat → Bool) : Option (Option Choice × List Nat) := tried.find? p
  (rank fun r => match r.1 with
    | some (.start ..) => true
    | _ => false).or ((rank fun r => r.1.isNone).or tried.head?)

/-- A dispatch evaluation (R339, R340) over ready jobs from the most urgent on; `place` is where Beadle would put the first best-effort job
that it suits. -/
def State.evaluate (s : State) (place : List Nat) : List Nat → List Nat → Option Choice
  | [], _ => none
  | n :: rest, reserved =>
    match s.slot n with
    | none => s.evaluate place rest reserved
    | some z =>
      let cls := Card.eng z.card
      if !z.bestEffort then
        match s.tryAlone n z.home (s.homeEngines n) reserved with
        | none => s.evaluate place rest reserved
        | some none => s.evaluate place rest (z.home ++ reserved)
        | some (some c) => some c
      else match (if s.lent cls == some n then s.lentChoice n z place reserved else none) with
        | some (some c, _) => some c
        | some (none, set) => s.evaluate place rest (set ++ reserved)
        | none =>
          let es := if s.slackOk n z reserved place then place else s.firstPlace n z reserved
          let hs := (place.flatMap fun e => s.holders n cls e).eraseDups
          if s.slackOk n z reserved es then some (.start n es)
          else if s.placeOk n place && s.mayMove n z place && !meets place reserved && s.gathers n z place hs then some (.gather hs place)
          else s.evaluate place rest reserved

/-- A job put among jobs in order of their keys. -/
def State.insertKey (s : State) (n : Nat) : List Nat → List Nat
  | [] => [n]
  | m :: t => if key3Lt (s.jobKey n) (s.jobKey m) then n :: m :: t else m :: s.insertKey n t

/-- What comes of Beadle's choice: nothing, pre-emption requests, or the start of a job (R339). -/
def State.runChoice (s : State) : Option Choice → State
  | none => s
  | some (.preempt l) => l.foldl State.requestPreempt s
  | some (.gather l es) => l.foldl (fun s m => (s.requestPreempt m).modSlot m fun z => { z with gathered := es }) s
  | some (.start n es) => match s.roomFor n es with
    | none => s
    | some s => s.dispatchJob n es

/-- DISPATCH (R339): Beadle evaluates a class and starts or resumes the most urgent job that may go, or asks for the pre-emption of the
jobs in its way. Vision units are not dispatched before stage 5 (R452). -/
def execDispatch (cls : EngClass) (place : List (Fin 32)) (s : State) : Out :=
  let c := clsNo cls
  let s := s.settleServer c
  let jobs := (s.residents.filter fun e => Card.eng e.2.card == c && e.2.ready).map (·.1)
  .next
    (if s.reeve.halted || s.reeve.stage.toNat < (if c = 0 then 4 else 5) then s
     else s.runChoice (s.evaluate (place.map (·.val)) (jobs.foldl (fun l n => s.insertKey n l) []) []))

/-! ### Pre-emption (R342, R343) -/

/-- ADVANCE_MODE_TIMEOUT (R342): no checkpoint by PBOUND less 12,288 ticks; the core takes the rollback path, and its gang with it. -/
def execAdvanceModeTimeout (core : Fin 32) (s : State) : Out :=
  .next (match (s.core core).preempt with
    | some (t, false) =>
      if !(s.core core).holdsForSave && t + Card.pbound (s.cardAt (.core core 0)) - 12288 ≤ s.ptime then
        (core.val :: s.gangLive core).foldl (fun s c => s.modCore c fun x => { x with preempt := x.preempt.map fun p => (p.1, true) }) s
      else s
    | _ => s)

/-- May a core be saved now: on the rollback path, at a checkpoint it has just committed, waiting, or ended? -/
def Core.savable (x : Core) : Bool := x.part == .ended || x.holdsForSave || x.waits || (x.preempt.map (·.2)) == some true

/-- PREEMPTION_COMPLETE (R342, R343): the job on the engine, all of whose parts have come to their boundary, is saved and its engines are
free; a completion wins (R341). -/
def execPreemptionComplete (d : Dom) (s : State) : Out :=
  let job : Option Nat := match d with
    | .core c => (s.core c).job
    | .unit u => (s.residents.find? fun e => e.2.state == .saving && Card.eng e.2.card != 0 && e.2.engines.contains u.val).map (·.1)
  .next (match job with
    | none => s
    | some n => match s.slot n with
      | none => s
      | some z =>
        if z.state != .saving || z.endStatus.isSome || s.partsEnded n z then s
        else if Card.eng z.card = 0 then
          if z.engines.all fun c => (s.core c).savable || s.gangWaits c then
            (s.settleServer 0).saveJob n (z.engines.any fun c => (s.core c).part != .ended && !(s.core c).holdsForSave)
          else s
        else if s.jobCopies n then s
        else (s.settleServer 1).saveJob n false)

/-! ### Completion, deadlines and overruns (R345, R347 to R349) -/

/-- JOB_COMPLETE (R345). -/
def execJobComplete (slot : Nat) (s : State) : Out := .next (s.completeJob slot)

/-- DEADLINE_MISS (R347): DLMISS, then abort, continue or notify; a job that completes at its deadline meets it (R341). -/
def execDeadlineMiss (slot : Nat) (s : State) : Out :=
  .next (match s.slot slot with
    | none => s
    | some z =>
      if !z.live || z.missed || z.deadline = 0 || s.ptime < z.deadline || (s.ptime = z.deadline && s.jobDone slot z) then s
      else
        let s := s.takeMiss slot z
        if Card.miss z.card < 2 then s else s.jobTrap slot 0x28 (BitVec.ofNat 64 z.deadline))

/-- Engine cycles that a part of a running job has run in the release, over pre-emptions and restarts (R348). -/
def State.partCycles (s : State) (n : Nat) (z : Slot) (i : Nat) : Nat := z.cyclesRun.getD i 0 + s.runCycles n i (z.engines.getD i 0)

/-- CYCLES_DEMOTION (R348): a part has run for CYCLES cycles; the job is best effort for the rest of its release. -/
def execCyclesDemotion (slot : Nat) (s : State) : Out :=
  .next (match s.slot slot with
    | none => s
    | some z =>
      if z.live && z.holds && z.deadline != 0 && !z.demoted
          && (List.range z.engines.length).any fun i => Card.cycles z.card ≤ s.partCycles slot z i then
        s.settleServers.modSlot slot fun z => { z with demoted := true, bestEffort := true }
      else s)

end Sys2Proof.Machine
end

