-- ==== Sys2Proof/Machine/Power.lean ====
section
/-!
DEFINITION. Tollgate's accounts (spec/10_progress.md R350 to R352), LEAVE grants (R355, R376), the power cap (spec/13_boundary.md R467) and
energy (R356).
-/
namespace Sys2Proof.Machine

/-- No account: nothing spent, nothing held. -/
def Account.reset : Account := { spent := 0, held := false }

/-- Budget of a requester at each channel, per window (R351, R352). -/
def State.payerBudget (s : State) : Payer → Nat
  | .job n => jobBudget (s.cardOf n)
  | .pool p => s.poolBudget p

/-- The first hold of a requester in a window (R352): OVERRUN, a job's flag, and its trap where the card asks. -/
def State.overrun (s : State) (ch : Nat) (who : Payer) : State :=
  match who with
  | .job n => match s.slot n with
    | none => s
    | some z =>
      let s := (s.emitJob (0x50 + ch) z.card 0x0E 0 ch 0 0).modSlot n fun z => { z with overrun := true }
      if Card.ovrx z.card then s.jobTrap n 0x29 (BitVec.ofNat 64 ch) else s
  | .pool p => s.emit
      { src := 0x50 + ch, part := p, world := s.partWorld p, evt := 0x0E, cls := some 0, mask := none, full := true, slot := 0, thr := 0,
        locS := 0, locF := 0, arg := ch, jobid := 0, flow := 0, role := 0 } none

/-- Has a requester been held at some channel in this window? -/
def State.heldOnce (s : State) (who : Payer) : Bool := s.beadle.accounts.any fun e => e.1 % 8192 == payerNo who && e.2.held

/-- The requester of traffic (R351); none where no job is there to pay. -/
def State.payerOf (s : State) (t : Traffic) (group : Nat) : Option Payer :=
  match t with
  | .engine (.core c) => (s.core c).job.map .job
  | .engine (.unit u) => (mget none (s.unit u).groups group).map fun x => .job x.job
  | .preempt n => (s.slot n).bind fun z => if z.state == .saving || z.state == .saved || z.resuming then some (.job n) else none
  | .pool p => some (.pool p)

/-- Is traffic of a requester pre-emption traffic: a save, restore or spill, and what a job asks for from the request of its pre-emption to
the first issue of its resumption (R343, R344)? -/
def State.preTraffic (s : State) (who : Payer) : Bool :=
  match who with
  | .job n => match s.slot n with
    | some z => z.state == .saving || z.state == .saved || z.resuming
    | none => false
  | .pool _ => false

/-- A request of a requester at a channel (R351, R352): served and charged 64 bytes, or held until the next window where its requester has
spent its budget and it is no pre-emption traffic. Requests are served as they arrive (log 112). -/
def State.serve (s : State) (ch : Nat) (who : Payer) : State :=
  let k := ch * 8192 + payerNo who
  let a := mget Account.reset s.beadle.accounts k
  let b := s.payerBudget who
  let put (s : State) (a : Account) : State := { s with beadle := { s.beadle with accounts := mset Account.reset s.beadle.accounts k a } }
  if b = 0 || a.spent < b || s.preTraffic who then
    let n := payerNo who
    put { s with beadle := { s.beadle with charged := mset 0 s.beadle.charged n (mget 0 s.beadle.charged n + 64) } } { a with spent := a.spent + 64 }
  else
    let s := if s.heldOnce who then s else s.overrun ch who
    put { s with beadle := { s.beadle with heldReqs := s.beadle.heldReqs ++ [(ch, who)] } } { a with held := true }

/-- The window that PTIME lies in (R350): when it is a new one nothing is spent, and the requests held until it are served in arrival
order (R352). -/
def State.openWindow (s : State) : State :=
  let w := s.ptime / s.beadle.tgwin * s.beadle.tgwin
  if w = s.beadle.tgStart then s
  else s.beadle.heldReqs.foldl (fun s r => s.serve r.1 r.2)
    { s with beadle := { s.beadle with tgStart := w, accounts := [], heldReqs := [] } }

/-- TOLLGATE_WINDOW_BOUNDARY (R350, R352). -/
def execTollgateWindowBoundary (s : State) : Out := .next s.openWindow

/-- CHANNEL_REQUEST (R350 to R352): a request that reaches a channel, in the window of its tick. -/
def execChannelRequest (ch : Fin 16) (t : Traffic) (group : Nat) (s : State) : Out :=
  let s := s.openWindow
  .next (match s.payerOf t group with
    | none => s
    | some who => s.serve ch who)

/-! ### LEAVE (R355, R376) -/

/-- The job of a LEAVE request. -/
def State.leaveJob (s : State) (l : LeaveReq) : Option Nat :=
  match l.dom with
  | .core c => (s.core c).job
  | .unit u => (mget none (s.unit u).groups l.group).map (·.job)

/-- Units granted to the engine or group of a request. -/
def State.leaveHas (s : State) (l : LeaveReq) : Nat :=
  match l.dom with
  | .core c => (s.core c).eng.granted
  | .unit u => (s.group u l.group).granted

/-- Units that deadline cards' reservations do not cover, of what is granted (R355). -/
def State.unreserved (s : State) : Nat :=
  let beyond (j : Option Nat) (n : Nat) : Nat := match j.bind s.slot with
    | some z => if Card.deadline z.card = 0 then n else n - Card.leavemax z.card
    | none => n
  ((s.cores.map fun e => beyond e.2.job e.2.eng.granted).sum)
    + (s.units.map fun e => (e.2.groups.map fun g => match g.2 with
        | some x => beyond (some x.job) x.granted
        | none => 0).sum).sum

/-- Is a request covered by its deadline card's reservation (R355)? -/
def State.leaveCovered (s : State) (l : LeaveReq) : Bool :=
  match (s.leaveJob l).bind s.slot with
  | some z => Card.deadline z.card != 0 && l.units ≤ Card.leavemax z.card
  | none => false

/-- May a request be granted now: covered, or the first of the others, with units left? (log 159). -/
def State.leaveFits (s : State) (l : LeaveReq) : Bool :=
  s.leaveCovered l
    || ((s.beadle.leaves.find? fun m => !s.leaveCovered m) == some l
        && s.unreserved + s.reservedUnits + (l.units - s.leaveHas l) ≤ poolUnits s.beadle.powercap.toNat)

/-- The agent that a grant is recorded for. -/
def LeaveReq.agent (l : LeaveReq) : Agent :=
  match l.dom with
  | .core c => .core c 0
  | .unit u => .thr ⟨u, l.group, l.thread⟩

/-- LEAVE_GRANT (R355, R376): the engine's oldest request that may be granted is granted; its core or thread goes on. -/
def execLeaveGrant (d : Dom) (s : State) : Out :=
  .next (match s.beadle.leaves.find? fun l => l.dom == d && s.leaveFits l with
    | none => s
    | some l =>
      let a := l.agent
      let s := { s with beadle := { s.beadle with leaves := s.beadle.leaves.erase l } }
      let s := s.grantTo a l.units
      if l.resume then s
      else match a with
        | .core c _ => s.modCore c fun x => { x with wait := match x.wait with
            | .leave _ => .none
            | w => w }
        | .thr t => match (s.thread t).wait with
          | .leave _ => s.wakeDone t
          | _ => s)

/-- POWERCAP_WRITE (R467). -/
def execPowercapWrite (req : Requester) (v : Word) (s : State) : Out :=
  let cap := v.toNat % 256
  .next
    (if !s.reqPriv req then s
     else if cap < 60 || 160 < cap then { s with beadle := { s.beadle with powerStatus := 1 } }
     else if poolUnits cap < s.reservedUnits then { s with beadle := { s.beadle with powerStatus := 2 } }
     else { s with beadle := { s.beadle with powercap := BitVec.ofNat 8 cap, powerStatus := 0 } })

/-- Energy added to a job and to the counter that its card names (R356). -/
def State.addEnergy (s : State) (n microjoules : Nat) : State :=
  match s.slot n with
  | none => s
  | some z =>
    let i := Card.enidx z.card
    let c := mget 0 s.beadle.counters i
    let s := s.modSlot n fun z => { z with energy := z.energy + microjoules }
    { s with beadle := { s.beadle with counters := mset 0 s.beadle.counters i (c + BitVec.ofNat 64 microjoules) } }

/-- ENERGY_UPDATE (R356): an engine's measured energy goes to the job running on it, that of memory and L2 to requesters by the bytes charged
to them since it was last apportioned, rounded down (log 128). -/
def execEnergyUpdate (m : Meter) (microjoules : Nat) (s : State) : Out :=
  .next (match m with
    | .engine d =>
      let job : Option Nat := match d with
        | .core c => (s.core c).job
        | .unit u => ((s.unit u).groups.findSome? fun g => g.2).map (·.job)
      match job with
      | none => s
      | some n => s.addEnergy n microjoules
    | .memory =>
      let l := s.beadle.charged
      let total := (l.map (·.2)).sum
      let s := { s with beadle := { s.beadle with charged := [] } }
      l.foldl (fun s e => if e.1 < 4096 then s.addEnergy e.1 (microjoules * e.2 / total) else s) s)

end Sys2Proof.Machine
end

