-- ==== Sys2Proof/Machine/Isolation.lean ====
section
/-!
DEFINITION. The control fields of isolation (spec/11_isolation.md): the region table (R378, R384, R405), the partition table (R386, R384),
hart partition registers (R387), the engine invalidation window (R408) and the completion of removals (R407).
-/
namespace Sys2Proof.Machine

/-! ### Regions (R378) -/

/-- Does an entry keep the table of R378? -/
def regionOk (e : Word × Word) : Bool :=
  let f := e.1.toNat
  let l := e.2.toNat
  f % 2 ^ 21 == 0 && f < 2 ^ 44 && bits l 20 3 == 0 && l < 2 ^ 44 && bits f 43 21 ≤ bits l 43 21

/-- Do two entries overlap, both VALID? -/
def regionsMeet (a b : Word × Word) : Bool :=
  bit a.2.toNat 0 && bit b.2.toNat 0 && bits a.1.toNat 43 21 ≤ bits b.2.toNat 43 21 && bits b.1.toNat 43 21 ≤ bits a.2.toNat 43 21

/-- The region table replaced (R405): memory does not change; a sector made secure again holds its ciphertext, unsealed, until it is
written whole. -/
def State.setRegions (s : State) (r : Map (Word × Word)) : State :=
  let t := { s with iso := { s.iso with regions := r } }
  let anew := s.sealed.filter fun k => !s.secure (k * 64) && t.secure (k * 64)
  { t with mem := anew.foldl (fun m k => writeBytes m (k * 64) (s.cipherSector m k)) s.mem,
           sealed := s.sealed.filter fun k => !anew.contains k }

/-- A store to FIRST, staged (R378). -/
def State.stageFirst (s : State) (req : Requester) (idx : Nat) (v : Word) : State :=
  if s.reqPriv req && s.reqWorld req then { s with iso := { s.iso with stagedFirst := mset none s.iso.stagedFirst idx (some v) } } else s

/-- REGION_ENTRY_APPLY (R378, R384): the entry is applied whole, or the store is ignored. -/
def execRegionEntryApply (req : Requester) (idx : Fin 64) (last : Word) (s : State) : Out :=
  let old := mget (0, 0) s.iso.regions idx
  let new := ((mget none s.iso.stagedFirst idx).getD old.1, last)
  .next
    (if !s.reqPriv req || !s.reqWorld req then s
     else
       let s := { s with iso := { s.iso with stagedFirst := mset none s.iso.stagedFirst idx none } }
       if bit old.2.toNat 2 || !regionOk new || s.iso.regions.any (fun e => e.1 != idx.val && regionsMeet new e.2) then s
       else s.setRegions (mset (0, 0) s.iso.regions idx new))

/-! ### Partitions (R386) -/

/-- Has an entry a reserved bit or an illegal value (STATUS 1)? -/
def partBad (e : List Byte) : Bool :=
  fieldAt e 0 1 / 8 != 0 || 8 < fieldAt e 2 1 || fieldAt e 3 1 != 0 || (e.drop 12).any (· != 0)

/-- Is the partition of an entry enabled? -/
def entryEn (e : List Byte) : Bool := bit (fieldAt e 0 1) 0

/-- The STATUS of a table as a whole (R386): 3, 4, 5 or 0. Before stage 5 the Tollgate test is made at the reduced rate (R452). -/
def State.partsStatus (s : State) (m : Map (List Byte)) : Nat :=
  let on := m.filter fun e => entryEn e.2
  let t := { s with iso := { s.iso with parts := m } }
  if on.any fun a => on.any fun b => bit (fieldAt a.2 0 1) 1 != bit (fieldAt b.2 0 1) 1
      && fieldAt a.2 4 4 &&& fieldAt b.2 4 4 != 0 then 3
  else if 8 < (on.map fun e => fieldAt e.2 2 1).sum then 4
  else if !t.tollOk (t.tollBytes none) (s.reeve.stage.toNat < 5) then 5
  else 0

/-- Is a card of a partition resident? -/
def State.partCards (s : State) (p : Nat) : Bool := s.residents.any fun e => Card.part e.2.card == p
/-- Is a queue of a partition VALID? -/
def State.partQueues (s : State) (p : Nat) : Bool := s.queues.any fun q => q.2.valid && q.2.part == p

/-- Is a change refused while the partition is in use (STATUS 2)? -/
def State.partBusy (s : State) (p : Nat) (old new : List Byte) : Bool :=
  let a := fieldAt old 0 1
  let b := fieldAt new 0 1
  (((bit a 0 && !bit b 0) || bits a 2 1 != bits b 2 1) && (s.partCards p || s.partQueues p))
    || (fieldAt old 4 4 != fieldAt new 4 4 && s.partQueues p)

/-- The entry of a partition as its next apply would take it: staged bytes, or those in effect. -/
def State.partStage (s : State) (p : Nat) : List Byte := (mget none s.iso.stagedPart p).getD (s.part p)

/-- Stores to bytes 2 to 31 of an entry, staged (R386, R384). -/
def State.stagePart (s : State) (req : Requester) (p off : Nat) (bs : List Byte) : State :=
  if s.reqPriv req && (s.reqWorld req || !s.partWorld p) then
    { s with iso := { s.iso with stagedPart := mset none s.iso.stagedPart p (some (putBytes (s.partStage p) off bs)) } }
  else s

/-- The control words of a partition's ports show its world (R377, R458). -/
def State.portWorlds (s : State) (p : Nat) : State :=
  { s with bnd := { s.bnd with ports := s.bnd.ports.map fun e =>
      (e.1, if bits e.2.ctrl.toNat 13 8 = p then
        { e.2 with ctrl := (e.2.ctrl &&& ~~~(0x8000 : Word)) ||| (if s.partWorld p then 0x8000 else 0) } else e.2) } }

/-- PARTITION_ENTRY_APPLY (R386): the staged entry is validated and applied whole; otherwise STATUS says why not. The partition's ports take
its world (R377), and a change of the hint ways that it owns drops its hints (R217, R389). -/
def execPartitionEntryApply (req : Requester) (idx : Fin 64) (ctrl : Byte) (s : State) : Out :=
  let p := idx.val
  let old := s.part p
  let new := putBytes (s.partStage p) 0 [ctrl, 0]
  let m := mset (zeros 32) s.iso.parts p new
  let st := if partBad new then 1 else if s.partBusy p old new then 2 else s.partsStatus m
  let put (s : State) (e : List Byte) : State := { s with iso := { s.iso with parts := mset (zeros 32) s.iso.parts p e, stagedPart := mset none s.iso.stagedPart p none } }
  .next
    (if !s.reqPriv req || (!s.reqWorld req && (s.partWorld p || bit ctrl.toNat 1)) then s
     else if st != 0 then put s (putField old 1 1 st)
     else
       let s := (put s new).portWorlds p
       let ways (e : List Byte) : Nat := if entryEn e then fieldAt e 2 1 else 0
       if ways old = ways new then s else s.dropHints (fun h => h.part == p))

/-- HART_PARTITION_WRITE (R387): one that names a partition of another world than the hart's is ignored. -/
def execHartPartitionWrite (req : Requester) (hart : Fin 16) (v : Word) (s : State) : Out :=
  let p := v.toNat % 64
  .next
    (if !s.reqPriv req || s.partWorld p != s.reeve.hartSec.getLsbD hart then s
     else { s with iso := { s.iso with hartPart := mset 0 s.iso.hartPart hart (BitVec.ofNat 64 p) } })

/-- The base of an address-space table written (R391, R384); the reserved bits of the word are clear (R5). -/
def State.writeAst (s : State) (req : Requester) (sec : Bool) (v : Word) : State :=
  if !s.reqPriv req then s
  else if sec then (if s.reqWorld req then { s with iso := { s.iso with astS := v } } else s)
  else { s with iso := { s.iso with astN := v } }

/-! ### The invalidation window (R408) -/

/-- The removal that a CMD word asks for; none for KIND 11. -/
def invForm (addr cmd : Word) : Option InvForm :=
  let asid := bits cmd.toNat 31 16
  match bits cmd.toNat 1 0 with
  | 0 => some (.va (bits addr.toNat 47 12 * 4096) asid)
  | 1 => some (.asid asid)
  | 2 => some .all
  | _ => none

/-- A removal begun by the window. -/
def State.startInv (s : State) (addr cmd : Word) (world : Bool) : State :=
  match invForm addr cmd with
  | none => s
  | some f => ({ s with iso := { s.iso with invCmd := cmd, invBusy := true } }).invalidate f world .window

/-- A write of CMD (R408): held while an earlier removal has not completed. -/
def State.writeInv (s : State) (req : Requester) (cmd : Word) : State :=
  if !s.reqPriv req || (invForm s.iso.invAddr cmd).isNone then s
  else if s.iso.invBusy then { s with iso := { s.iso with invHeld := s.iso.invHeld ++ [(s.iso.invAddr, cmd, s.reqWorld req)] } }
  else s.startInv s.iso.invAddr cmd (s.reqWorld req)

/-- INVALIDATE_WINDOW_VA (R408). -/
def execInvalidateWindowVa (req : Requester) (asid : BitVec 16) (s : State) : Out :=
  .next (s.writeInv req (BitVec.ofNat 64 (asid.toNat * 2 ^ 16)))
/-- INVALIDATE_WINDOW_ASID (R408). -/
def execInvalidateWindowAsid (req : Requester) (asid : BitVec 16) (s : State) : Out :=
  .next (s.writeInv req (BitVec.ofNat 64 (1 + asid.toNat * 2 ^ 16)))
/-- INVALIDATE_WINDOW_ALL (R408). -/
def execInvalidateWindowAll (req : Requester) (s : State) : Out := .next (s.writeInv req 2)

/-- TLBINV_COMPLETE (R407, R408): every access that used a removed entry has performed or been discarded, and who waits goes on; the
invalidation window is no longer busy, and its next held write begins. -/
def execTlbinvComplete (idx : Nat) (s : State) : Out :=
  .next (match s.iso.removals[idx]? with
    | none => s
    | some r =>
      if !s.removalDone r then s
      else
        let s := { s with iso := { s.iso with removals := dropAt s.iso.removals idx } }
        match r.waiter with
        | .core c => s.modCore c fun x => { x with wait := if x.wait == .tlbinv then .none else x.wait }
        | .thread t => if (s.thread t).wait == .tlbinv then s.wakeDone t else s
        | .window =>
          let s := { s with iso := { s.iso with invBusy := false } }
          match s.iso.invHeld with
          | [] => s
          | (addr, cmd, w) :: rest => ({ s with iso := { s.iso with invHeld := rest } }).startInv addr cmd w)

end Sys2Proof.Machine
end

