-- ==== Sys2Proof/Machine/Ptp.lean ====
section
/-!
DEFINITION. Ethernet frames, and the messages of Reeve's IEEE 1588 clock (spec/13_boundary.md R463, R464). The places of the fields of a
PTP message, of its frames' headers and of its multicast addresses are those of IEEE 1588-2019, RFC 768 and RFC 791 (log 155).
-/
namespace Sys2Proof.Machine

/-! ### Frames (R463) -/

/-- A number as n big-endian bytes. -/
def beBytes (n x : Nat) : List Byte := (leBytes n x).reverse

/-- Where the network header starts: after a VLAN tag where there is one. -/
def netOff (f : List Byte) : Nat := if (f.drop 12).take 2 == [0x81, 0x00] then 18 else 14

/-- Is the frame UDP over IPv4? -/
def isUdp (f : List Byte) : Bool :=
  let o := netOff f
  (f.drop (o - 2)).take 2 == [0x08, 0x00] && fieldAt f (o + 9) 1 == 17

/-- Where the UDP header starts. -/
def udpOff (f : List Byte) : Nat := netOff f + fieldAt f (netOff f) 1 % 16 * 4

/-- Does a MAC carry a frame of some bytes before its FCS (R463; log 146)? -/
def macCarries (n : Nat) : Bool := 64 ≤ n + 4 && n + 4 ≤ 9600

/-! ### The clock (R464) -/

/-- Does Reeve run its clock on a MAC (R464)? -/
def State.clockOn (s : State) (i : Nat) : Bool := s.reeve.timeSrc == i && s.reeve.cfg != [] && !s.reeve.halted && bit (s.cfg 0x0B 1) i

/-- Is a frame one of Reeve's clock (R464): EtherType 0x88F7, or UDP/IPv4 to ports 319 and 320 at PTPIP? -/
def State.isPtp (s : State) (f : List Byte) : Bool :=
  let o := netOff f
  let port := fieldAt (beBytes 2 (fieldAt f (udpOff f + 2) 2)) 0 2
  (f.drop (o - 2)).take 2 == [0x88, 0xF7]
    || (isUdp f && (port == 319 || port == 320) && (f.drop (o + 16)).take 4 == beBytes 4 (s.cfg 0x188 4))

/-- PTP time (R464) as the ten bytes of a timestamp: 48 bits of seconds, 32 of nanoseconds. -/
def State.ptpStamp (s : State) : List Byte :=
  let ns := s.ptime / 16
  beBytes 6 (s.reeve.esec.toNat + ns / 10 ^ 9) ++ beBytes 4 (ns % 10 ^ 9)

/-- A message's type. -/
def ptpType (m : List Byte) : Nat := fieldAt m 0 1 % 16

/-- Is a type one of the peer-delay messages? -/
def ptpPeer (ty : Nat) : Bool := ty == 2 || ty == 3 || ty == 10

/-- May the clock send a message of a type: of its delay mechanism (PTPDELAY), and none of a master while it is slave-only (PTPMODE)? -/
def State.mayPtp (s : State) (ty : Nat) : Bool :=
  let ordinary := s.cfg 0x183 1 == 0
  if ptpPeer ty then s.cfg 0x182 1 == 1
  else if ty == 1 then s.cfg 0x182 1 == 0
  else if ty == 9 then ordinary && s.cfg 0x182 1 == 0
  else if ty == 0 || ty == 8 || ty == 11 then ordinary
  else ty == 12 || ty == 13

/-- A message with what the settings say of it: the domain (PTPDOM), the clock's priorities in an Announce (PTPPRI1, PTPPRI2), and PTP time
as the originTimestamp of Sync, Delay_Req and Announce. -/
def State.ptpBody (s : State) (m : List Byte) : List Byte :=
  let ty := ptpType m
  let m := putField m 4 1 (s.cfg 0x180 1)
  let m := if ty < 2 || ty == 11 then putBytes m 34 s.ptpStamp else m
  if ty == 11 then putField (putField m 47 1 (s.cfg 0x184 1)) 52 1 (s.cfg 0x185 1) else m

/-- The checksum of an IPv4 header: the complement of the ones' complement sum of its halfwords. -/
def ipSum (h : List Byte) : Nat :=
  let n := ((List.range (h.length / 2)).map fun i => fieldAt h (2 * i) 1 * 256 + fieldAt h (2 * i + 1) 1).sum
  let n := n % 65536 + n / 65536
  65535 - (n % 65536 + n / 65536)

/-- The UDP datagram of a message over IPv4, to the multicast address of its kind: port 319 for event messages, 320 for the others. -/
def State.ptpUdp (s : State) (m : List Byte) : List Byte :=
  let port := beBytes 2 (if ptpType m < 4 then 319 else 320)
  let dst : List Byte := if ptpPeer (ptpType m) then [224, 0, 0, 107] else [224, 0, 1, 129]
  let head (sum : Nat) : List Byte :=
    [0x45, 0] ++ beBytes 2 (28 + m.length) ++ [0, 0, 0, 0, 1, 17] ++ beBytes 2 sum ++ beBytes 4 (s.cfg 0x188 4) ++ dst
  head (ipSum (head 0)) ++ port ++ port ++ beBytes 2 (8 + m.length) ++ [0, 0] ++ m

/-- The frame of a message (R464): over layer 2 or UDP/IPv4 (PTPXPORT), tagged where PTPVLAN is not 0, from a station address. -/
def State.ptpFrame (s : State) (station : Nat) (m : List Byte) : List Byte :=
  let m := s.ptpBody m
  let peer := ptpPeer (ptpType m)
  let vlan := s.cfg 0x186 2
  let l2 := s.cfg 0x181 1 == 0
  let dst : List Byte := match l2, peer with
    | true, true => [0x01, 0x80, 0xC2, 0, 0, 0x0E]
    | true, false => [0x01, 0x1B, 0x19, 0, 0, 0]
    | false, true => [0x01, 0, 0x5E, 0, 0, 107]
    | false, false => [0x01, 0, 0x5E, 0, 1, 129]
  dst ++ beBytes 6 station ++ (if vlan = 0 then [] else [0x81, 0x00] ++ beBytes 2 vlan)
    ++ (if l2 then [0x88, 0xF7] ++ m else [0x08, 0x00] ++ s.ptpUdp m)

/-- Does a message that Reeve has received discipline its clock: of the domain, the transport and the delay mechanism configured? -/
def State.ptpHeard (s : State) (f : List Byte) : Bool :=
  let udp := isUdp f
  let m := f.drop (if udp then udpOff f + 8 else netOff f)
  let ty := ptpType m
  fieldAt m 4 1 == s.cfg 0x180 1 && udp == (s.cfg 0x181 1 == 1)
    && (if s.cfg 0x182 1 == 1 then ty != 1 && ty != 9 else !ptpPeer ty)

end Sys2Proof.Machine
end

