-- ==== Sys2Proof/Machine/Boot.lean ====
section
/-!
DEFINITION. Rails, bring-up and time (spec/13_boundary.md R446 to R453, R466; spec/00_scope.md R10 to R12; spec/12_recovery.md R439;
spec/09_time_trace.md R302 to R305, R320).
-/
namespace Sys2Proof.Machine

/-! ### Rails (R11, R12) -/

/-- What outlives the rails: the flash, the hardware's defects, the outside world and the schedule. -/
def State.cold (s : State) (rails : Bool) (boots : Nat) : State :=
  { State.reset with
    flash := s.flash, defects := s.defects, inputs := s.inputs, free := s.free,
    bnd := { Boundary.reset with peer := s.bnd.peer, noAtomic := s.bnd.noAtomic },
    reeve := { Reeve.reset with rails := rails, boots := boots } }

/-- POWER_ON (R10, R11): the rails are applied and Reeve leaves reset at stage 0, with new memory keys (R402). -/
def execPowerOn (s : State) : Out := .next (if s.reeve.rails then s else s.cold true (s.reeve.boots + 1))

/-- POWER_OFF (R11): no state survives. -/
def execPowerOff (s : State) : Out := .next (if s.reeve.rails then s.cold false s.reeve.boots else s)

/-- THERMAL_TRIP (R12): a die is at 110 °C; THERMTRIP_N is held low until the rails are removed. -/
def execThermalTrip (_die : Fin 3) (s : State) : Out := .next { s with reeve := { s.reeve with thermtripN := false } }

/-! ### Images (R447, R448) -/

/-- One bit of the IEEE 802.3 CRC, least significant bit first. -/
def crcBit (c : BitVec 32) : BitVec 32 := if c.getLsbD 0 then (c >>> 1) ^^^ 0xEDB88320 else c >>> 1

/-- CRC-32 of bytes (R448). -/
def crc32 (bs : List Byte) : BitVec 32 :=
  ~~~(bs.foldl (fun c b => (List.range 8).foldl (fun c _ => crcBit c) (c ^^^ b.setWidth 32)) 0xFFFFFFFF)

/-- Is a flash directory good: MAGIC, VERSION, reserved bytes and CRC (R448)? -/
def directoryOk (d : List Byte) : Bool :=
  fieldAt d 0 4 == 0x52494C41 && fieldAt d 4 2 == 1 && fieldAt d 6 1 < 2 && fieldAt d 7 1 == 0 && (d.drop 32).take 28 == zeros 28
    && fieldAt d 60 4 == (crc32 (d.take 60)).toNat

/-- DIRECTORY_SELECT (R448): the directory at offset 0, else its copy. -/
def State.directory (s : State) : Option (List Byte) :=
  let a := readBytes s.flash 0 64
  let b := readBytes s.flash 0x10000 64
  if directoryOk a then some a else if directoryOk b then some b else none

/-- KIND of an image, and FAILCODE when it fails. -/
def kindNo : ImageKind → Nat
  | .config => 1
  | .firmware => 2
  | .boot => 3

/-- An image taken apart (R447): PK, the signed bytes, the payload and the whole image. -/
structure Image where
  pk : List Byte
  payload : List Byte
  whole : List Byte
  deriving DecidableEq, Repr

/-- The first 32 bytes of SHAKE256 of a key. -/
def keyDigest (pk : List Byte) : List Byte := Config.shake256 pk 32

/-- An image read at a flash offset and checked under R447. -/
def State.readImage (s : State) (off : Nat) (k : ImageKind) : Option Image :=
  let h := readBytes s.flash off 128
  let n := fieldAt h 8 8
  if fieldAt h 0 4 != 0x4D494C41 || fieldAt h 4 1 != kindNo k || fieldAt h 5 1 != 0 || fieldAt h 6 2 != 1 || 2 ^ 28 < n
      || h.drop 80 != zeros 48 then none
  else
    let pk := (h.drop 16).take 64
    let signed := readBytes s.flash off (128 + n)
    let sig := readBytes s.flash (off + 128 + n) 29792
    let trusted := match k with
      | .config => true
      | .firmware => keyDigest pk == Config.romDigest
      | .boot => keyDigest pk == (s.reeve.cfg.drop 0x60).take 32
    if trusted && Config.slhVerify pk signed sig then some { pk := pk, payload := signed.drop 128, whole := signed ++ sig } else none

/-- A measurement register extended by a digest (R450). -/
def State.extend (s : State) (n : Nat) (digest : List Byte) : State :=
  { s with reeve := { s.reeve with meas := mset (zeros 64) s.reeve.meas n (Config.shake256 (mget (zeros 64) s.reeve.meas n ++ digest) 64) } }

/-- A measurement register extended with a thing measured: by its SHAKE256 digest (R450). -/
def State.measure (s : State) (n : Nat) (bs : List Byte) : State := s.extend n (Config.shake256 bs 64)

/-- Bring-up stops at the current stage (R446, R453). -/
def State.bootFail (s : State) (code : Nat) : State := { s with reeve := { s.reeve with failcode := BitVec.ofNat 4 code } }

/-! ### The configuration payload (R449) -/

/-- Are the bytes of some ranges, as offset and length, all zero? -/
def zeroRanges (p : List Byte) (l : List (Nat × Nat)) : Bool := l.all fun r => (p.drop r.1).take r.2 == zeros r.2

/-- Bytes and bits that must be zero in the payload, tables apart (R449, R465). -/
def cfgZero (p : List Byte) : Bool :=
  zeroRanges p [(0x0E, 2), (0x22, 6), (0x56, 10), (0x80, 128), (0x112, 14), (0x160, 32), (0x18C, 116)]
    && fieldAt p 0x09 1 < 4 && (List.range 3).all (fun i => fieldAt p (0x181 + i) 1 < 2)
    && fieldAt p 0x0A 1 < 4 && fieldAt p 0x0B 1 < 4 && fieldAt p 0x18 1 < 64 && fieldAt p 0x19 1 < 64
    && (List.range 8).all (fun i => !bit (fieldAt p (0x1A + i) 1) 6)
    && fieldAt p 0x108 2 < 2 ^ 11 && zeroRanges p [(0x120 + min 64 (fieldAt p 0x110 2), 64 - fieldAt p 0x110 2)]
    && !bit (fieldAt p 0x186 2) 12
    && (List.range 64).all fun i => fieldAt p (0xE00 + 8 * i) 8 < 2 ^ 34

/-- The region table of a payload. -/
def cfgRegions (p : List Byte) : List (Word × Word) :=
  (List.range 64).map fun i => (BitVec.ofNat 64 (fieldAt p (0x200 + 16 * i) 8), BitVec.ofNat 64 (fieldAt p (0x208 + 16 * i) 8))

/-- The partition table of a payload. -/
def cfgParts (p : List Byte) : Map (List Byte) :=
  ((List.range 64).map fun i => (i, putField ((p.drop (0x600 + 32 * i)).take 32) 1 1 0)).filter fun e => e.2 != zeros 32

/-- Do the regions keep R378, none overlapping another? -/
def cfgRegionsOk (rs : List (Word × Word)) : Bool :=
  rs.all regionOk && (List.range rs.length).all fun i => (List.range i).all fun j => !regionsMeet (rs.getD i (0, 0)) (rs.getD j (0, 0))

/-- Do n bytes from a base lie wholly within a secure entry? -/
def inSecure (rs : List (Word × Word)) (base n : Nat) : Bool :=
  rs.any fun e => bit e.2.toNat 1 && regionHas e base && regionHas e (base + n - 1)

/-- Do n bytes from a base overlap a secure entry? -/
def meetsSecure (rs : List (Word × Word)) (base n : Nat) : Bool :=
  rs.any fun e => bit e.2.toNat 0 && bit e.2.toNat 1 && n != 0
    && bits e.1.toNat 43 21 * 2 ^ 21 < base + n && base < (bits e.2.toNat 43 21 + 1) * 2 ^ 21

/-- The partitions that inbound paths and enabled ports name: enabled, and for the inbound paths non-secure. -/
def cfgPaths (p : List Byte) (parts : Map (List Byte)) : Bool :=
  let en (q : Nat) : Bool := entryEn (mget (zeros 32) parts q)
  let sec (q : Nat) : Bool := bit (fieldAt (mget (zeros 32) parts q) 0 1) 1
  [fieldAt p 0x18 1, fieldAt p 0x19 1].all (fun q => en q && !sec q)
    && (List.range 8).all fun i => !bit (fieldAt p (0x1A + i) 1) 7 || en (fieldAt p (0x1A + i) 1 % 64)

/-- The checks of R449 at stage 1; the initial cap is held to the range of its row, which R12 gives the configured cap (log 29). -/
def State.cfgOk (s : State) (p : List Byte) : Bool :=
  let rs := cfgRegions p
  let parts := cfgParts p
  let capva := fieldAt p 0x10 8
  let slots := fieldAt p 0x54 2
  let stride := fieldAt p 0x38 8
  let elog := fieldAt p 0x50 4
  p.length == 4096 && fieldAt p 0 4 == 1 && cfgZero p && 60 ≤ fieldAt p 8 1 && fieldAt p 8 1 ≤ 160 && canonical capva && capva % 65536 == 0
    && 1 ≤ slots && slots ≤ 4096 && stride % 8192 == 0 && (List.range 13).any (fun i => elog == 2 ^ (12 + i))
    && inSecure rs (fieldAt p 0x30 8) (slots * stride) && inSecure rs (fieldAt p 0x48 8) elog
    && !meetsSecure rs (fieldAt p 0x28 8) (slots * stride) && !meetsSecure rs (fieldAt p 0x40 8) elog
    && cfgRegionsOk rs && parts.all (fun e => !partBad e.2) && s.partsStatus parts == 0 && cfgPaths p parts

/-- CONFIGURATION_APPLY (R449): tables, hart worlds, fault maps, power cap, and the settings of the boundary's ports. -/
def State.cfgApply (s : State) (p : List Byte) : State :=
  let parts := cfgParts p
  let rs := (List.range 64).map fun i => (i, (cfgRegions p).getD i (0, 0))
  let port (i : Nat) : IngressPort :=
    let b := fieldAt p (0x1A + i) 1
    { IngressPort.reset with
      ctrl := BitVec.ofNat 64 (b / 128 + b % 64 * 2 ^ 8 + b2n (bit (fieldAt (mget (zeros 32) parts (b % 64)) 0 1) 1) * 2 ^ 15) }
  let s := { s with
    iso := { s.iso with regions := rs.filter fun e => e.2 != (0, 0), parts := parts },
    reeve := { s.reeve with cfg := p, timeSrc := fieldAt p 9 1, hartSec := BitVec.ofNat 16 (fieldAt p 0x0C 2) },
    beadle := { s.beadle with powercap := BitVec.ofNat 8 (fieldAt p 8 1) },
    bnd := { s.bnd with
      pcieCtrl := BitVec.ofNat 64 (fieldAt p 0x0A 1 + fieldAt p 0x18 1 * 2 ^ 8),
      ports := (List.range 8).foldl (fun m i => mset IngressPort.reset m i (port i)) s.bnd.ports } }
  (List.range 32).foldl (fun s c => s.modCore c fun x =>
    { x with fmap := { x.fmap with row := BitVec.ofNat 34 (fieldAt p (0xE00 + 16 * c) 8), col := BitVec.ofNat 34 (fieldAt p (0xE08 + 16 * c) 8) } }) s

/-! ### The stages (R446) -/

/-- Stage 1 once both images have passed (R446): the configuration payload is checked whole, then applied (R449). -/
def State.verified (s : State) : State :=
  if s.reeve.fwOk && s.reeve.cfg != [] then
    let s := { s with reeve := { s.reeve with stage := 1 } }
    if s.cfgOk s.reeve.cfg then s.cfgApply s.reeve.cfg else s.bootFail 1
  else s

/-- An image that passed is measured (R450) and used (R448, R449). -/
def State.useImage (s : State) (k : ImageKind) (i : Image) : State :=
  match k with
  | .config =>
    if i.payload.length = 4096 then
      let s := (s.measure 1 i.whole).measure 2 i.pk
      ({ s with reeve := { s.reeve with cfg := i.payload } }).verified
    else s.bootFail 1
  | .firmware =>
    if i.payload.length ≤ 786432 then
      let s := s.measure 0 i.whole
      ({ s with reeve := { s.reeve with fwOk := true, sram := i.payload } }).verified
    else s.bootFail 2
  | .boot =>
    let s := (s.measure 3 i.whole).reeveWrite (cellsOf 0 i.payload)
    { s with reeve := { s.reeve with stage := 3, hartsOn := true } }

/-- Is an image of the kind due at the stage? -/
def State.imageDue (s : State) (k : ImageKind) : Bool :=
  s.reeve.failcode == 0 && (match k with
    | .config => s.reeve.stage == 0 && s.reeve.cfg == []
    | .firmware => s.reeve.stage == 0 && !s.reeve.fwOk
    | .boot => s.reeve.stage == 2 && s.reeve.trained == 0xFFFF)

/-- IMAGE_VERIFY (R446 to R448). -/
def execImageVerify (kind : ImageKind) (s : State) : Out :=
  .next
    (if !s.imageDue kind then s
     else match s.directory with
       | none => s.bootFail 1
       | some d => match s.readImage (fieldAt d (kindNo kind * 8) 8) kind with
         | none => s.bootFail (kindNo kind)
         | some i => s.useImage kind i)

/-- Memory training begins, and with it stage 2, where the memory configured is checked first (R446, R466). -/
def State.beginTraining (s : State) : State :=
  if s.reeve.stage != 1 || s.reeve.failcode != 0 then s
  else
    let s := { s with reeve := { s.reeve with stage := 2 } }
    if s.cfg 4 2 == 0xFFFF && (s.cfg 6 2 == 128 || s.cfg 6 2 == 256) then s else s.bootFail 4

/-- MEMORY_TRAINING_COMPLETE (R446, R466): training, begun before or now, has ended with the channels named; a channel that failed stops
bring-up. The error logs begin with their headers (R457). -/
def execMemoryTrainingComplete (trained : BitVec 16) (s : State) : Out :=
  let s' := s.beginTraining
  .next
    (if s'.reeve.stage != 2 || s'.reeve.failcode != 0 || s'.reeve.trained != 0 then s'
     else
       let s' := { s' with reeve := { s'.reeve with trained := trained } }
       if trained == 0xFFFF then s'.openLogs else s'.bootFail 4)

/-- Is an engine admitted, or declared out of service? -/
def State.tested (s : State) (d : Dom) : Bool :=
  (s.eng d).inService || (match d with
    | .core c => s.reeve.mout.getLsbD c
    | .unit u => s.reeve.vout.getLsbD u)

/-- STAGE_FULL_ENTRY (R446, R452): full service; resident cards are bound again at full figures, and idle cores raise their clocks. -/
def execStageFullEntry (s : State) : Out :=
  .next
    (if s.reeve.stage != 4 || s.reeve.failcode != 0 || s.reeve.trained != 0xFFFF || !allDoms.all s.tested then s
     else
       let s := { s with reeve := { s.reeve with stage := 5, memrate := 144 } }
       let s := s.rebindAll fun _ => true
       let s := (s.residents.map (·.1)).foldl State.releaseTurned s
       (List.range 32).foldl (fun s c => if (s.core c).job.isNone && (s.core c).eng.mhz = 800 then s.setClock (.core (fin 32 c)) 1600 else s) s)

/-! ### Tests of arrays (R180 to R183, R439) -/

/-- A map with lines added (R180). -/
def FaultMap.add (f : FaultMap) (l : BitVec 34 × BitVec 34) : FaultMap := { f with row := f.row ||| l.1, col := f.col ||| l.2 }

/-- The lines that faults make faulty for a map (R180): whole lines, then cell by cell: one on a line of the map tests that line faulty, and
another adds its row where more rows than columns are healthy at that moment, its column otherwise. -/
def FaultMap.lines (f : FaultMap) (x : Faults) : BitVec 34 × BitVec 34 :=
  (x.cells.foldl (fun (a : FaultMap × BitVec 34 × BitVec 34) q =>
    let r : BitVec 34 := 1 <<< q.1.val
    let c : BitVec 34 := 1 <<< q.2.val
    let byRow := a.1.row &&& r != 0 || (a.1.col &&& c == 0 && healthy a.1.col < healthy a.1.row)
    let l : BitVec 34 × BitVec 34 := if byRow then (r, 0) else (0, c)
    (a.1.add l, a.2.1 ||| l.1, a.2.2 ||| l.2)) (f.add (x.rows, x.cols), x.rows, x.cols)).2

/-- Faults found in a test of a core: those found now and those its hardware is known to have. -/
def State.found (s : State) (c : Nat) (x : Faults) : Faults := joinFaults (mget noFaults s.defects c) x

/-- The value of MSTEST over a map in effect (R183). -/
def FaultMap.report (f : FaultMap) (l : BitVec 34 × BitVec 34) : BitVec 16 :=
  let g := f.add l
  let count := (34 - healthy l.1) + (34 - healthy l.2)
  let new := g != f
  let shrink := g.shape.1 < f.shape.1 || g.shape.2 < f.shape.2
  BitVec.ofNat 16 (b2n (count != 0) + b2n new * 2 + b2n shrink * 4 + b2n (!g.legal) * 8 + count * 2 ^ 8)

/-- A test's result taken into a core's map (R182): GEN advances where the map changes. -/
def FaultMap.take (f : FaultMap) (l : BitVec 34 × BitVec 34) : FaultMap :=
  let g := f.add l
  { g with gen := if g = f then f.gen else f.gen + 1, last := f.report l }

/-- A test of a core: what it found stays a property of the hardware, and the map takes it in. -/
def State.testArray (s : State) (c : Nat) (found : Faults) : State :=
  let all := s.found c found
  ({ s with defects := mset noFaults s.defects c all }).modCore c fun x => { x with fmap := x.fmap.take (x.fmap.lines all) }

/-- CLUST and VU of the stage record (R453), and stage 4 with the first cluster (R446). -/
def State.countService (s : State) : State :=
  let full (k : Nat) : Bool :=
    let cs := (List.range 8).map fun i => Dom.core (fin 32 (8 * k + i))
    cs.all s.tested && cs.any fun d => (s.eng d).inService
  let clust := s.reeve.clust ||| BitVec.ofNat 4 (flagSum ((List.range 4).map full))
  let vu := BitVec.ofNat 32 (flagSum ((List.range 32).map fun u => (s.unit u).eng.inService))
  { s with reeve := { s.reeve with clust := clust, vu := vu, stage := if s.reeve.stage == 3 && clust != 0 then 4 else s.reeve.stage } }

/-- ENGINE_ADMIT (R446, R359): an engine in service; PTIME counts from the first (R303); cards with admission lost are bound again. -/
def State.admitEngine (s : State) (d : Dom) : State :=
  let again := (s.eng d).failed.isSome
  let s := { s with reeve := { s.reeve with counting := true } }
  let s := s.modEng d fun e => { e with inService := true, failed := none, heartbeat := s.ptime, progress := s.ptime }
  let s := s.setClock d (match d with
    | .core _ => if s.reeve.stage.toNat < 5 then 800 else 1600
    | .unit _ => 2000)
  let s := if again then s.errorLog (s.eng d).world d.src 5 0 0 0 0 0 else s
  s.countService.rebindAll fun z => z.admissionLost

/-- An engine out of service (R439), and the cards homed on it bound again (R359). -/
def State.retireEngine (s : State) (d : Dom) : State :=
  let s := s.modEng d fun e => { e with inService := false }
  let s := match d with
    | .core c => { s with reeve := { s.reeve with mout := s.reeve.mout ||| ((1 : BitVec 32) <<< c.val) } }
    | .unit u => { s with reeve := { s.reeve with vout := s.reeve.vout ||| ((1 : BitVec 32) <<< u.val) } }
  let s := s.errorLog (s.eng d).world d.src 6 0 0 0 0 0
  let e := match d with
    | .core c => (0, c.val)
    | .unit u => (1, u.val)
  s.countService.rebindAll fun z => Card.eng z.card == e.1 && z.home.contains e.2

/-- SELF_TEST_COMPLETE (R439, R446): a new map takes effect, and the engine is admitted or stays out of service. -/
def execSelfTestComplete (d : Dom) (r : TestResult) (s : State) : Out :=
  .next
    (if s.reeve.halted || s.reeve.stage.toNat < 3 || s.tested d then s
     else
       let x := s.eng d
       let s := if x.failed.isSome then s.errorLog x.world d.src 4 0 0 0 0 (x.failed.getD 0) else s
       match d with
       | .core c =>
         let s := s.testArray c r.faults
         if (s.core c).fmap.legal then s.admitEngine d else s.retireEngine d
       | .unit _ => if r.pass then s.admitEngine d else s.retireEngine d)

/-- Cards that keep the full shape and are homed on a core that no longer has it, bound again (R186). -/
def State.rebindShape (s : State) (c : Nat) : State :=
  if (s.core c).fmap.shape == (32, 32) then s
  else s.rebindAll fun z => Card.eng z.card == 0 && Card.fixshape z.card && z.home.contains c

/-- BACKGROUND_MSTEST (R182): a test by Reeve while no job runs on the core; without a legal shape it is declared failed (R438). -/
def execBackgroundMstest (core : Fin 32) (found : Faults) (s : State) : Out :=
  .next
    (if s.reeve.halted || (s.core core).job.isSome || !s.usable 0 core then s
     else
       let s := s.testArray core found
       if (s.core core).fmap.legal then s.rebindShape core
       else s.modEng (.core core) fun e => { e with failed := if e.failed.isNone then some 5 else e.failed })

/-! ### MSTEST of a running job (R183, R185, R186) -/

/-- Is a core in service on which a card could run (R186)? -/
def State.anyCore (s : State) (card : List Byte) : Bool := (List.range 32).any (s.suits card)

/-- What Beadle does with the job of a core at the checkpoint where its new map takes effect (R186). -/
def State.remapJob (s : State) (c : Nat) : State :=
  match (s.core c).job with
  | none => s
  | some j =>
    let card := s.cardOf j
    let live := ((s.slot j).map fun z => z.endStatus.isNone) == some true
    let bad := !(s.core c).fmap.legal
    let s := if bad then s.modEng (.core (fin 32 c)) fun e => { e with failed := some 5 } else s
    if !live || !(bad || (Card.fixshape card && (s.core c).fmap.shape != (32, 32))) then s
    else
      let s := (s.saveJob j true).rebind j
      if s.anyCore card then s else s.finishJob j 5 0

/-- The MSTEST of a core completes (R183, R185): the value lands, or the remap rollback is taken and the new map takes effect with the
restored state, and a stepped bundle that waited for it commits (R326); a job that Beadle takes away is saved as at the checkpoint, before the new shape splits its walker's tiles (R186, R191). -/
def State.mstestDone (s : State) (c : Nat) (found : Faults) : State :=
    match (s.core c).mstest with
    | none => s
    | some (_, d, tpc) =>
      let f := (s.core c).fmap
      let v := f.report (f.lines (s.found c found))
      if !v.getLsbD 1 then
        let s := ((s.testArray c found).modCore c fun x => { x with mstest := none }).modCore c fun x => x.land (.sreg d (v.setWidth 64))
        if (s.core c).eng.stepping && (s.core c).intervalAdv != 0 then s.stepCommit c else s
      else
        let gang := s.gangOf c
        let s := s.coreTrap c 0x24 (v.setWidth 64) tpc
        let s := s.testArray c found
        let s := s.emitAt (.core (fin 32 c) 0) 0x13 1 false (s.core c).fmap.gen.toNat 0 0
        let s := (gang.foldl (fun s j => s.modCore j fun x => { x with retries := 0 }) s).remapJob c
        let s := if (s.core c).job.isNone then s else gang.foldl State.splitWalker s
        s.rebindShape c

/-- MSTEST_COMPLETE (R183, R185). -/
def execMstestComplete (core : Fin 32) (found : Faults) (s : State) : Out := .next (s.mstestDone core found)

/-! ### Time (R302 to R305, R320) -/

/-- Instants held as PTIME by clocks of the device's own moved with a step of PTIME (R304). -/
def State.shiftTime (s : State) (n : Nat) : State :=
  let f (e : Eng) : Eng := { e with since := e.since + n, heartbeat := e.heartbeat + n, progress := e.progress + n }
  { s with ptime := s.ptime + n,
           cores := s.cores.map fun e => (e.1, { e.2 with eng := f e.2.eng,
                                                          preempt := e.2.preempt.map fun p => (p.1 + n, p.2) }),
           units := s.units.map fun e => (e.1, { e.2 with eng := f e.2.eng }),
           beadle := { s.beadle with
             sinceM := s.beadle.sinceM + n, sinceV := s.beadle.sinceV + n,
             slots := s.beadle.slots.map fun e => (e.1, e.2.map fun z => { z with frozen := z.frozen.map (· + n) }) } }

/-- PTIME_STEP (R304): once, forward, in LOCKED, to PTP time modulo one second; once PTIME counts (R303), and not after stage 3, from where
on the list's E stands (R457; log 153). -/
def execPtimeStep (ptp delta : Nat) (e : BitVec 64) (s : State) : Out :=
  .next
    (if s.reeve.halted || !s.reeve.counting || 3 < s.reeve.stage.toNat || s.reeve.timeState != .locked || s.reeve.stepped
        || (s.ptime + delta) % 16000000000 != ptp % 16000000000 then s
     else
       let s := s.shiftTime delta
       { s with reeve := { s.reeve with stepped := true, esec := e } })

/-- Can the time base go from one state to another (R305)? FREE is left for LOCKING, when a reference is present, and is not come back to. -/
def timeNext (a b : TimeState) : Bool := a != b && b != .free && (a != .free || b == .locking)

/-- The time base enters a state, with a TIMEBASE record to every buffer that is on (R305, R317). Once it has left LOCKED it corrects by
slewing only (R304). -/
def State.setTimeState (s : State) (next : TimeState) : State :=
  let s := { s with reeve := { s.reeve with timeState := next, stepped := s.reeve.stepped || s.reeve.timeState == .locked } }
  (List.range 64).foldl (fun s p => s.emitFree none 0x61 p false 0x03 (timeCode next)) s

/-- TIMEBASE_STATE_CHANGE (R305, R317); with no reference the time base stays FREE (R449). -/
def execTimebaseStateChange (next : TimeState) (s : State) : Out :=
  .next (if s.reeve.halted || !timeNext s.reeve.timeState next || s.reeve.timeSrc = 3 then s else s.setTimeState next)

/-- A configuration write names another time reference, which a disciplined time base takes through HOLDOVER (R462); not after stage 3, from
where on the list's source stands (R457; log 154). -/
def State.setReference (s : State) (src : Fin 4) : State :=
  if s.reeve.halted || s.reeve.cfg = [] || 3 < s.reeve.stage.toNat || src.val = s.reeve.timeSrc then s
  else
    let s := if s.reeve.timeState == .locking || s.reeve.timeState == .locked then s.setTimeState .holdover else s
    { s with reeve := { s.reeve with timeSrc := src.val } }

/-- The rate of the discipline loop, within 200 ppm (R304). -/
def clampPpm (x : Int) : Int := max (-200) (min 200 x)

/-- PTP_MESSAGE (R303, R464): a message on the port of the reference reaches Reeve's ring, and disciplines the rate where it is one of the
clock's domain, transport and delay mechanism. -/
def execPtpMessage (port : Fin 2) (frame : List Byte) (ppm : Int) (s : State) : Out :=
  .next
    (if !s.clockOn port || !s.isPtp frame || !macCarries frame.length then s
     else
       let m := mget Mac.reset s.bnd.macs port
       let s := { s with bnd := { s.bnd with macs := mset Mac.reset s.bnd.macs port { m with reeve := m.reeve ++ [frame] } } }
       if s.ptpHeard frame then { s with reeve := { s.reeve with ppm := clampPpm ppm } } else s)

/-- PPS_EDGE (R303, R462): a rising edge of the PPS input, where that is the reference. -/
def execPpsEdge (ppm : Int) (s : State) : Out :=
  .next (if s.reeve.halted || s.reeve.timeSrc != 2 then s else { s with reeve := { s.reeve with ppm := clampPpm ppm } })

/-- CLOCK_CHANGE (R320): the record, then the new frequency; 0 is a stop. -/
def execClockChange (d : Dom) (mhz : BitVec 16) (s : State) : Out := .next (s.setClock d mhz.toNat)

end Sys2Proof.Machine
end

