-- ==== Sys2Proof/Machine/Supervise.lean ====
section
/-!
DEFINITION. Reeve's supervision: heartbeats, the watchdog, errors and failed domains (spec/12_recovery.md R435, R437 to R439, R442, R444,
R445), and the safety bus (spec/13_boundary.md R465).
-/
namespace Sys2Proof.Machine

/-! ### Detection (R435, R438) -/

/-- An engine in service declared failed, with its reason (R438). -/
def State.declareFailed (s : State) (d : Dom) (reason : Nat) : State :=
  let e := s.eng d
  if e.inService && e.failed.isNone && !s.reeve.halted then s.modEng d fun e => { e with failed := some reason } else s

/-- HEARTBEAT (R438). -/
def execHeartbeat (d : Dom) (s : State) : Out := .next (s.modEng d fun e => { e with heartbeat := s.ptime })

/-- HEARTBEAT_TIMEOUT (R438): none for 20 µs. -/
def execHeartbeatTimeout (d : Dom) (s : State) : Out :=
  .next (if (s.eng d).heartbeat + 320000 ≤ s.ptime then s.declareFailed d 1 else s)

/-- Does a core wait on something that the watchdog does not count (R438)? -/
def State.watchExempt (s : State) (c : Nat) : Bool :=
  let x := s.core c
  x.job.isNone || x.part == .ended || x.part == .idle || (match x.part with
    | .block _ => true
    | _ => false) || x.wait != .none || x.trec != [] || x.eng.stopped.isSome
    || (match x.stallRun with
      | some r => watchless r.1
      | none => false)
    || s.outsideWait c

/-- WATCHDOG_TIMEOUT (R438): no advance cycle of a core, or no issue of a unit with a ready thread, for 100 µs. -/
def execWatchdogTimeout (d : Dom) (s : State) : Out :=
  let idle : Bool := match d with
    | .core c => s.watchExempt c
    | .unit u => (s.unit u).eng.stopped.isSome || ((s.unit u).tids u).all fun t => !s.threadReady t
  .next (if !idle && (s.eng d).progress + 1600000 ≤ s.ptime then s.declareFailed d 2 else s)

/-- The group whose shared memory holds an offset of a unit's local memory, and the offset in it: the groups' shares in order. -/
def groupAt : List (Nat × Nat) → Nat → Option (Nat × Nat)
  | [], _ => none
  | (g, n) :: rest, off => if off < n then some (g, off) else groupAt rest (off - n)

/-- A local 64-byte block poisoned (R435). -/
def State.poisonLocal (s : State) (d : Dom) (off : Nat) : State :=
  match d with
  | .core c => if off < (s.core c).scratchSize then s.modCore c fun x => { x with poison := insertNat x.poison (off / 64) } else s
  | .unit u =>
    match groupAt ((s.unit u).groups.filterMap fun g => g.2.map fun x => (g.1, x.smemSize)) off with
    | none => s
    | some (g, o) => s.modGroup u g fun x => { x with poison := insertNat x.poison (o / 64) }

/-- UNCORRECTABLE_ERROR (R435, R438): the engine fails, or a 64-byte block or sector is poisoned with cause ECC. -/
def execUncorrectableError (p : EccPlace) (s : State) : Out :=
  .next (match p with
    | .engine d => s.declareFailed d 3
    | .localBlock d off => (s.poisonLocal d off).errorLog (s.eng d).world d.src 2 0x13 0 0 off 0
    | .sector pa =>
      let k := pa / 64
      let s := if mget 0 s.poisoned k = 0 then { s with poisoned := mset 0 s.poisoned k 0x10 } else s
      s.errorLog (s.secure pa) 0x61 2 0x10 0 0 pa 0)

/-- CORRECTABLE_ERROR (R437): counted, with at most one record per source and millisecond. -/
def execCorrectableError (src : Byte) (count : Nat) (s : State) : Out :=
  let n := src.toNat
  let e := mget (0, 0) s.reeve.corrected n
  let due := e.2 = 0 || e.2 + 16000000 ≤ s.ptime + 1
  let sec := n < 64 && (s.eng (srcDom n)).world
  let put (s : State) (e : Nat × Nat) : State := { s with reeve := { s.reeve with corrected := mset (0, 0) s.reeve.corrected n e } }
  .next (if due then put (s.errorLog sec n 1 0 0 0 0 (e.1 + count)) (0, s.ptime + 1) else put s (e.1 + count, e.2))

/-! ### A failed domain (R439, R442) -/

/-- The fence (R439 step 1): dirty lines, withheld effects and unlanded copies of the domain are discarded, its waits leave every list. -/
def State.fence (s : State) (d : Dom) : State :=
  let s := (s.modEng d fun e => { e with l1 := [], copies := [] }).dropLeaves fun l => l.dom == d
  match d with
  | .core c => (s.modCore c fun x => { x with withheld := [], undo := [], blocks := [], intervalAdv := 0 }).resolveRemovals c
  | .unit u => s.leaveQueues fun t => t.unit == u

/-- The resident jobs with a part on a domain, or with the scratchpad of a saved part in its array. -/
def State.jobsOn (s : State) (d : Dom) : List (Nat × Slot) :=
  s.residents.filter fun e => match d with
    | .core c => Card.eng e.2.card == 0 && ((e.2.holds && e.2.engines.contains c.val)
        || (e.2.state == .saved && e.2.shares.any fun h => h.2.any fun x => x.home == some c.val))
    | .unit u => Card.eng e.2.card != 0 && e.2.holds && e.2.engines.contains u.val

/-- The error-log record of a step of a failed domain's recovery that R437 gives no kind of its own, for a resident slot or for none (R439;
log 142). -/
def State.stepLog (s : State) (d : Dom) (n : Nat) : State :=
  let e := s.eng d
  let card := s.cardOf n
  s.errorLog e.world d.src 4 0 (Card.part card) (Card.jobid card) 0 (e.failed.getD 0)

/-- The restart policy of a job that has lost a part on a domain (R442): its other engines are pre-empted in rollback mode (R439) and freed. -/
def State.loseJob (s : State) (d : Dom) (n : Nat) (z : Slot) : State :=
  if z.endStatus.isSome then s
  else if z.restarted || !(Card.restart z.card == 1 || Card.restart z.card == 2) then (s.finishJob n 4 0x38).stepLog d n
  else ((s.endParts n 0x38).freeEngines n).restart n (Card.restart z.card == 2 && Card.eng z.card == 0 && z.snapshot)

/-- A saved job's scratchpad is no longer in a core's array. -/
def State.moveShares (s : State) (n c : Nat) : State :=
  s.modSlot n fun z => { z with shares := z.shares.map fun h => (h.1, h.2.map fun x => if x.home == some c then { x with home := none } else x) }

/-- Reset and scrub of a domain (R439 step 3); its fault map, clock, debug registers and count of copies stand. -/
def State.resetDom (s : State) (d : Dom) : State :=
  let keep (e : Eng) : Eng :=
    { Eng.reset with failed := e.failed, mhz := e.mhz, clockAcc := e.clock s.ptime, since := s.ptime, world := e.world, lastPart := e.lastPart, copySeq := e.copySeq,
                     tstop := e.tstop, sel0 := e.sel0, seln := e.seln, heartbeat := s.ptime, progress := s.ptime }
  match d with
  | .core c => s.modCore c fun x => { Core.reset with eng := keep x.eng, fmap := x.fmap }
  | .unit u => s.modUnit u fun v => { VUnit.reset with eng := keep v.eng }

/-- DOMAIN_FAILED (R439): fence, jobs, reset and scrub, each with its error-log record; cards homed on it are bound again (R359). -/
def execDomainFailed (d : Dom) (reason : Fin 6) (s : State) : Out :=
  let e := s.eng d
  .next
    (if s.reeve.halted || e.failed != some reason.val || !e.inService then s
     else
       let jobs := s.jobsOn d
       let s := (s.fence d).errorLog e.world d.src 4 0 0 0 0 reason.val
       let s := if jobs = [] then s.errorLog e.world d.src 4 0 0 0 0 reason.val else s
       let s := jobs.foldl (fun s j => match d with
         | .core c => if j.2.state == .saved && 4 ≤ reason.val then (s.moveShares j.1 c).stepLog d j.1 else s.loseJob d j.1 j.2
         | .unit _ => s.loseJob d j.1 j.2) s
       let s := (s.resetDom d).errorLog e.world d.src 4 0 0 0 0 reason.val
       let s := s.countService
       let k : Nat × Nat := match d with
         | .core c => (0, c.val)
         | .unit u => (1, u.val)
       s.rebindAll fun z => Card.eng z.card == k.1 && z.home.contains k.2)

/-! ### Reeve's halt and the safety bus (R444, R465) -/

/-- The safety frame of the configuration payload: SAFEFRAME bytes 8 to 95. -/
def State.safeFrame (s : State) : List Byte := (s.reeve.cfg.drop 0x108).take 88

/-- A frame sent on a controller. -/
def State.canSend (s : State) (ctl : Nat) (f : List Byte) : State := { s with reeve := { s.reeve with canOut := s.reeve.canOut ++ [(ctl, f)] } }

/-- The safety frame on both controllers. -/
def State.sendSafe (s : State) : State :=
  let s := (s.canSend 0 s.safeFrame).canSend 1 s.safeFrame
  { s with reeve := { s.reeve with safetySent := s.ptime } }

/-- REEVE_LOCKSTEP_MISMATCH (R444): Reeve halts, engines issue no more, SAFESTATE_N is low, and the safety frame goes out. -/
def execReeveLockstepMismatch (s : State) : Out :=
  .next (if s.reeve.halted then s else ({ s with reeve := { s.reeve with halted := true, safestateN := false } }).sendSafe)

/-- SAFETY_FRAME_REPEAT (R465): every 10 ms until the rails are removed. -/
def execSafetyFrameRepeat (s : State) : Out :=
  .next (if s.reeve.halted && s.reeve.safetySent + 160000000 ≤ s.ptime then s.sendSafe else s)

/-- A transmit slot of the safety mailbox. -/
def State.txSlot (s : State) (i : Nat) : List Byte := mget (zeros 128) s.reeve.txSlots i
/-- A transmit slot replaced. -/
def State.setTx (s : State) (i : Nat) (b : List Byte) : State := { s with reeve := { s.reeve with txSlots := mset (zeros 128) s.reeve.txSlots i b } }
/-- Is READY set? -/
def txReady (b : List Byte) : Bool := bit (fieldAt b 88 1) 0

/-- SAFETY_TX_READY (R465): secure privileged software sets READY of a filled slot. -/
def execSafetyTxReady (req : Requester) (slot : Fin 16) (s : State) : Out :=
  let b := s.txSlot slot
  .next (if s.reqPriv req && s.reqWorld req then s.setTx slot (putField b 88 1 (fieldAt b 88 1 / 2 * 2 + 1)) else s)

/-- SAFETY_TX_COMPLETE (R465): the lowest ready slot has been sent, or has failed: STATUS, the stamp, READY clear. -/
def execSafetyTxComplete (slot : Fin 16) (status : Fin 3) (s : State) : Out :=
  let b := s.txSlot slot
  let ctl := fieldAt b 88 1
  let f := b.take 88
  .next
    (if s.reeve.halted || (List.range 16).find? (fun i => txReady (s.txSlot i)) != some slot.val then s
     else
       let s := if status != 0 then s else if bit ctl 2 then (s.canSend 0 f).canSend 1 f else s.canSend (b2n (bit ctl 1)) f
       s.setTx slot (putField (putField (putField b 88 1 (ctl / 2 * 2)) 89 1 status.val) 96 8 s.ptime))

/-- SAFETY_RX_FRAME (R465): a frame in the lowest free receive slot, or counted as dropped. -/
def execSafetyRxFrame (ctl : Bool) (f : CanFrame) (s : State) : Out :=
  let slot (i : Nat) : List Byte := mget (zeros 128) s.reeve.rxSlots i
  .next
    (if s.reeve.halted then s
     else match (List.range 32).find? fun i => !bit (fieldAt (slot i) 88 1) 0 with
       | none => { s with reeve := { s.reeve with rxDrops := min (s.reeve.rxDrops + 1) (2 ^ 64 - 1) } }
       | some i =>
         let b := putBytes (zeros 128) 0 ((f.bytes ++ zeros 88).take 88)
         let b := putField (putField b 88 1 (1 + 2 * b2n ctl)) 96 8 s.ptime
         { s with reeve := { s.reeve with rxSlots := mset (zeros 128) s.reeve.rxSlots i b } })

end Sys2Proof.Machine
end

