-- ==== Sys2Proof/Machine/Debug.lean ====
section
/-!
DEFINITION. Debug commands (spec/09_time_trace.md R325 to R327; spec/12_recovery.md R429) and trace descriptors (R315, R316, R318, R384).
-/
namespace Sys2Proof.Machine

/-! ### Stop, step and run (R325 to R327) -/

/-- The register fields of a stopped core taken from its presented area, which software may have changed (R429); a header that no longer
matches ends the job. -/
def State.reloadCore (s : State) (c : Nat) : State :=
  match (s.core c).job with
  | none => s
  | some j =>
    let card := s.cardOf j
    let bs := readBytes s.mem (s.saveBase j (Card.world card) false + coreAreaSize * (s.core c).idx) coreAreaSize
    if !areaOk bs 0 (Card.jobid card) (s.core c).idx then s.endJob j 0x39
    else s.modCore c fun x =>
      let a := archOfArea bs x.arch
      { x with arch := a, shadow := a, acc := tilesOfArea bs, ssat := bit (fieldAt bs 0x318 4) 31,
               sem := ((List.range 256).map fun i => (i, fieldAt bs (0x400 + 2 * i) 2)).filter fun e => e.2 != 0,
               tcause := BitVec.ofNat 8 (fieldAt bs 0x31C 1), tpc := BitVec.ofNat 64 (fieldAt bs 0x330 8),
               tval := BitVec.ofNat 64 (fieldAt bs 0x338 8) }

/-- The register fields of a stopped group, the same way. -/
def State.reloadGroup (s : State) (u g : Nat) : State :=
  let x := s.group u g
  let card := s.cardOf x.job
  let bs := readBytes s.mem (s.saveBase x.job (Card.world card) false + groupAreaStride card * x.idx) (groupAreaStride card)
  if !areaOk bs 1 (Card.jobid card) x.idx then s.endJob x.job 0x39
  else s.modGroup u g fun x =>
    { x with thandler := BitVec.ofNat 64 (fieldAt bs 0x40 8), drift := BitVec.ofNat 32 (fieldAt bs 0x48 4),
             lutsel := BitVec.ofNat 2 (fieldAt bs 0x4C 1), ssat := bit (fieldAt bs 0x4F 4) 31,
             sem := ((List.range x.nsem).map fun i => (i, fieldAt bs (0x80 + 2 * i) 2)).filter fun e => e.2 != 0,
             k := ((List.range 160).map fun i => (i, BitVec.ofNat 64 (fieldAt bs (0x280 + 8 * i) 8))).filter fun e => e.2 != 0,
             threads := x.threads.map fun t =>
               let y := threadOfArea bs x.regs t.1 t.2.kept
               (t.1, { t.2 with x := y.x, p := y.p, pc := y.pc, fmt := y.fmt, fflags := y.fflags, tcause := y.tcause, tpc := y.tpc,
                                tval := y.tval, tmask := y.tmask, rnga := y.rnga, rngb := y.rngb, inHandler := y.inHandler }) }

/-- The engines that stop and go with an engine: a core's gang (R326). -/
def State.withGang (s : State) (d : Dom) : List Dom :=
  match d with
  | .core c => (s.gangOf c).map fun j => .core (fin 32 j)
  | .unit _ => [d]

/-- The state of stopped engines taken from their areas. -/
def State.reload (s : State) (d : Dom) : State :=
  match d with
  | .core c => (s.gangOf c).foldl State.reloadCore s
  | .unit u => (s.unit u).groups.foldl (fun s e => if e.2.isSome then s.reloadGroup u e.1 else s) s

/-- May a requester use the debug registers (R325, R383)? -/
def State.debugOk (s : State) (req : Requester) : Bool := s.reqPriv req && !s.reeve.halted

/-- DEBUG_STOP (R326, R327). -/
def execDebugStop (req : Requester) (d : Dom) (s : State) : Out :=
  .next
    (if !s.debugOk req || (s.eng d).stopped.isSome then s
     else match d with
       | .core c => (s.rollback c 0x39).stopCore c 1
       | .unit u => s.stopUnit u 1)

/-- The stopped threads of a unit that a step selects, by PC, then lane and context (R327). -/
def State.selected (s : State) (u : Fin 32) : List Tid :=
  let e := (s.unit u).eng
  let lo := e.sel0.toNat
  let l := ((s.unit u).tids u).filter fun t =>
    let h := s.hslotOf t
    !(s.thread t).ended && (s.thread t).wait == .none && lo ≤ h && h ≤ lo + e.seln.toNat
  let key (t : Tid) : List Nat := [(s.thread t).pc.toNat, laneOf t, s.hslotOf t]
  l.foldl (fun acc t => (acc.takeWhile fun x => keyLt (key x) (key t)) ++ t :: acc.dropWhile fun x => keyLt (key x) (key t)) []

/-- DEBUG_STEP (R326, R327): one bundle of each core of the gang, issued by the next BUNDLE_ISSUE of it; one word of each selected thread,
now. -/
def execDebugStep (req : Requester) (d : Dom) (s : State) : Out :=
  .next
    (if !s.debugOk req || (s.eng d).stopped.isNone then s
     else
       let s := s.reload d
       let s := (s.withGang d).foldl (fun s e => s.modEng e fun x => { x with stepping := true, stepStatus := 0 }) s
       match d with
       | .core _ => s
       | .unit u => s.issueThreads u (s.selected u))

/-- DEBUG_RUN (R326): normal issue resumes, of a gang whole, each engine with a record of class 7 (R325). Log 157. -/
def execDebugRun (req : Requester) (d : Dom) (s : State) : Out :=
  .next
    (if !s.debugOk req || (s.eng d).stopped.isNone then s
     else
       let s := s.reload d
       let s := (s.withGang d).foldl (fun s e => s.modEng e fun x => { x with stopped := none, stepping := false, progress := s.ptime }) s
       match d with
       | .core c => (s.gangOf c).foldl (fun s j => s.emitAt (.core (fin 32 j) 0) 0x30 7 true 0 0 0) s
       | .unit u => match (s.unit u).groups.find? fun g => g.2.isSome with
         | some g => s.emitAt (.thr ⟨u, g.1, 0⟩) 0x30 7 true 0 0 0
         | none => s)

/-- The debug command register written (R325): TSTOP and the selection, then the command. -/
def State.writeDebug (s : State) (req : Requester) (d : Dom) (v : Word) : Out :=
  if !s.debugOk req then .next s
  else
    let n := v.toNat
    let s := s.modEng d fun e =>
      { e with tstop := bit n 2, sel0 := BitVec.ofNat 11 (bits n 13 3), seln := BitVec.ofNat 11 (bits n 24 14) }
    match bits n 1 0 with
    | 1 => execDebugStop req d s
    | 2 => execDebugStep req d s
    | 3 => execDebugRun req d s
    | _ => .next s

/-! ### Trace descriptors (R315, R316) -/

/-- TRACE_RP_WRITE (R316): taken as the less of RP and WP. -/
def execTraceRpWrite (req : Requester) (part : Fin 64) (v : Word) (s : State) : Out :=
  let d := s.tdesc part
  .next (if s.reqPriv req then s.setTdesc part { d with rp := if v.toNat ≤ d.wp.toNat then v else d.wp } else s)

/-- Does a descriptor as written break R315? -/
def traceBad (b : List Byte) : Bool :=
  let log := fieldAt b 8 1
  let rbase := fieldAt b 48 8
  let rlog := fieldAt b 56 1
  log < 12 || 30 < log || fieldAt b 0 8 % 2 ^ log != 0 || bits (fieldAt b 9 1) 1 0 == 3 || bits (fieldAt b 9 1) 7 4 != 0
    || fieldAt b 14 2 != 0 || fieldAt b 44 4 != 0 || fieldAt b 57 3 != 0 || rbase % 4096 != 0
    || (rbase != 0 && (rlog < 16 || 34 < rlog))

/-- Every source of a buffer starts afresh: its next record is full (R311). -/
def State.freshSources (s : State) (part : Nat) (keep : Bool) : State :=
  let old := s.hedge.src
  let new := if keep then old.map (fun e => if e.1 / 128 = part then (e.1, { e.2 with full := true }) else e)
    else old.filter (fun e => e.1 / 128 != part)
  { s with hedge := { s.hedge with src := new } }

/-- TRACE_DESCRIPTOR_WRITE (R315, R384): MODE[2] only from the secure world; the device's own fields stand. A write that leaves the ring as
it is only updates the rest and lifts a suspension; any other configures the ring anew. -/
def execTraceDescriptorWrite (req : Requester) (part : Fin 64) (bytes : List Byte) (s : State) : Out :=
  let p := part.val
  let d := s.tdesc p
  let b := (bytes ++ zeros 64).take 64
  let m := fieldAt b 9 1
  let sec := if s.reqWorld req then bit m 2 else d.secure
  let mode := m % 4 + (if sec then 4 else 0) + m / 16 * 16
  let b' := putField b 9 1 mode
  let bad := traceBad b'
  let same := fieldAt d.desc 0 9 == fieldAt b' 0 9 && fieldAt d.desc 12 2 == fieldAt b' 12 2 && d.status != 1 && !bad
  let susp := d.susp && bit m 3
  let rused := if fieldAt b 60 4 = 0 then 0 else d.rused
  .next
    (if !s.reqPriv req then s
     else if same then
       let s := if d.susp && !susp then s.freshSources p true else s
       let rp := fieldAt b 24 8
       s.setTdesc p { d with desc := b', susp := susp, status := if susp then 2 else 0, rused := rused,
                             rp := BitVec.ofNat 64 (min rp d.wp.toNat) }
     else
       (s.freshSources p false).setTdesc p
         { desc := b', wp := 0, rp := 0, faultva := 0, lost := 0, gapLost := 0, gapFault := false, susp := false, status := if bad then 1 else 0, rused := rused })

/-! ### Queue configuration (R293, R294, R388) -/

/-- A queue descriptor with its reserved fields zero (R293, R5). -/
def queueDesc (bytes : List Byte) : List Byte :=
  let b := (bytes ++ zeros 64).take 14 ++ zeros 50
  let b := putField b 0 1 (fieldAt b 0 1 % 16)
  let b := putField b 6 1 (fieldAt b 6 1 % 64 + fieldAt b 6 1 / 128 * 128)
  let b := putField b 7 1 0
  putField b 12 1 (fieldAt b 12 1 % 16 + fieldAt b 12 1 / 128 * 128)

/-- Slots that a partition's VALID queues reserve, one queue apart (R388). -/
def State.queueSlots (s : State) (part skip : Nat) : Nat :=
  ((s.queues.filter fun q => q.1 != skip && q.2.valid && q.2.part == part).map fun q => q.2.cap).sum

/-- Ways of a partition. -/
def State.wayCount (s : State) (p : Nat) : Nat := popcount 32 (s.partWays p)

/-- Is an item size between 8 and 64 bytes? -/
def sizeOk (n : Nat) : Bool := 8 ≤ n && n ≤ 64

/-- The STATUS of a configuration (R293, R115, R116, R388). Log 156. -/
def State.queueStatus (s : State) (q : Nat) (desc : List Byte) : Nat :=
  let x : Queue := { Queue.reset with desc := desc }
  match tyOf (fieldAt desc 2 1), tyOf (fieldAt desc 3 1) with
  | some a, some b =>
    if !copyPair a b then 1
    else if countBreaks a true b false x.nelem then 2
    else if !(sizeOk (layoutBytes a true x.nelem) && sizeOk (layoutBytes a false x.nelem) && sizeOk (layoutBytes b false x.nelem)) then 3
    else if !(List.range 13).any (fun i => x.cap == 2 ^ (4 + i)) then 4
    else if s.wayCount x.part * 16384 < s.queueSlots x.part q + x.cap then 5
    else if x.fullp == 3 || (x.fullp == 2 && x.sensor) then 6
    else 0
  | _, _ => 1

/-- Threads that wait on a queue, to pop or to push. -/
def State.queueWaiters (s : State) (q : Nat) : List Tid :=
  s.allTids.filter fun t => match (s.thread t).wait with
    | .pop n .. => n == q
    | .push n => n == q
    | _ => false

/-- A queue closed (R294): its items are discarded, and waiting ops take the queue fault with reason 5.
DESIGN CHOICE (log 138): its drop count starts anew. -/
def State.closeQueue (s : State) (q : Nat) : State :=
  let ts := s.queueWaiters q
  let x := s.queue q
  let s := (List.range 32).foldl (fun s c =>
    s.modCore c fun y => { y with pushOn := y.pushOn.map fun p => (p.1, p.2 || p.1 == q) }) s
  let s := s.setQueue q { x with desc := putField x.desc 0 1 (fieldAt x.desc 0 1 / 2 * 2), items := [], drops := 0, waiters := [] }
  let s := ts.foldl (fun s t => s.threadTrap t 0x17 (BitVec.ofNat 64 (q + 5 * 2 ^ 16))) s
  (ts.map (·.unit)).eraseDups.foldl State.fillTmask s

/-- QUEUE_CLOSE (R294): a store that clears VALID. -/
def execQueueClose (req : Requester) (q : BitVec 13) (s : State) : Out :=
  .next (if s.reqPriv req && (s.queue q.toNat).valid then s.closeQueue q.toNat else s)

/-- QUEUE_CONFIGURE (R294): a store that sets VALID; validated, with STATUS, and VALID cleared where it is refused. -/
def execQueueConfigure (req : Requester) (q : BitVec 13) (bytes : List Byte) (s : State) : Out :=
  let n := q.toNat
  .next
    (if !s.reqPriv req then s
     else
       let s := if (s.queue n).valid then s.closeQueue n else s
       let b := queueDesc bytes
       let st := s.queueStatus n b
       let ctrl := fieldAt b 0 1 / 2 * 2 + (if st = 0 then 1 else 0)
       s.setQueue n { desc := putField (putField b 0 1 ctrl) 1 1 st, items := [], drops := 0, waiters := [] })

end Sys2Proof.Machine
end

