-- ==== Sys2Proof/Machine/Boundary.lean ====
section
/-!
DEFINITION. The package boundary: sensor ingress (spec/13_boundary.md R458, R461), PCI Express and the application cores at the home agent
(R460; spec/07_ordering.md R252, R262; spec/11_isolation.md R379), Ethernet (R462 to R464) and attestation (R450, R451, R459).
-/
namespace Sys2Proof.Machine

/-! ### Sensor ingress (R458, R461) -/

/-- An ingress port. -/
def State.port (s : State) (p : Nat) : IngressPort := mget IngressPort.reset s.bnd.ports p
/-- An ingress port replaced. -/
def State.setPort (s : State) (p : Nat) (x : IngressPort) : State := { s with bnd := { s.bnd with ports := mset IngressPort.reset s.bnd.ports p x } }

/-- EN. -/
def IngressPort.en (x : IngressPort) : Bool := bit x.ctrl.toNat 0
/-- EVMODE. -/
def IngressPort.evmode (x : IngressPort) : Bool := bit x.ctrl.toNat 1
/-- The port's partition. -/
def IngressPort.part (x : IngressPort) : Nat := bits x.ctrl.toNat 13 8
/-- The port's world. -/
def IngressPort.world (x : IngressPort) : Bool := bit x.ctrl.toNat 15
/-- A channel's entry. -/
def IngressPort.chan (x : IngressPort) (v : Nat) : List Byte := mget (zeros 32) x.chans v
/-- A channel's frame number, ring slot, frame start and lines. -/
def IngressPort.at' (x : IngressPort) (v : Nat) : Nat × Nat × Nat × Nat := mget (0, 0, 0, 0) x.frame v
/-- The same replaced. -/
def IngressPort.setAt' (x : IngressPort) (v : Nat) (f : Nat × Nat × Nat × Nat) : IngressPort := { x with frame := mset (0, 0, 0, 0) x.frame v f }

/-- Is the channel enabled on an enabled port, in a mode? -/
def IngressPort.on (x : IngressPort) (v : Nat) (ev : Bool) : Bool := x.en && x.evmode == ev && bit (fieldAt (x.chan v) 0 1) 0

/-- Does a channel take frames: enabled, in frame mode, with a data type of frames (R458)? -/
def IngressPort.imaging (x : IngressPort) (v : Nat) : Bool := x.on v false && fieldAt (x.chan v) 1 1 != 0x30

/-- May the port push to a queue (R458)? -/
def State.portQueue (s : State) (x : IngressPort) (q : Nat) : Bool :=
  let u := s.queue q
  u.valid && u.sensor && u.part == x.part && u.world == x.world

/-- An item pushed by a port (R461): whether it is in the queue, or was handed over. A drop is recorded. -/
def State.portPush (s : State) (p q : Nat) (item : List Byte) : Bool × State :=
  let x := s.port p
  if !s.portQueue x q then (false, s)
  else
    let u := s.queue q
    let full := u.waiters = [] && u.cap ≤ u.items.length
    let s := (s.push q item).getD s
    let s := if !full then s else s.emit
      { src := 0x62 + p, part := x.part, world := x.world, evt := 0x28, cls := some 4, mask := none, full := false, slot := 0, thr := 0,
        locS := 0, locF := 0, arg := q, jobid := 0, flow := 0, role := 0 } none
    (!full || u.fullp == 1, s)

/-- Does an entry that sets EN keep the table of R458? -/
def State.chanOk (s : State) (x : IngressPort) (b : List Byte) : Bool :=
  let dt := fieldAt b 1 1
  let nslot := fieldAt b 4 4
  let ring := fieldAt b 8 8
  fieldAt b 0 1 == 1 && (if x.evmode then dt == 0x30 else [0x1E, 0x2A, 0x2B, 0x2C].contains dt) && fieldAt b 2 2 < 2 ^ 13
    && 2 ≤ nslot && nslot ≤ 65536 && ring % 4096 == 0 && ring < 2 ^ 44 && fieldAt b 16 4 % 4096 == 0 && fieldAt b 20 4 % 64 == 0
    && fieldAt b 24 8 == 0 && s.portQueue x (fieldAt b 2 2)

/-- INGRESS_CHANNEL_ENABLE (R458): a good entry is enabled, its frames counted from 0; another keeps EN at 0. -/
def execIngressChannelEnable (req : Requester) (port : Fin 8) (vc : Fin 16) (bytes : List Byte) (s : State) : Out :=
  let x := s.port port
  let b := (bytes ++ zeros 32).take 32
  let b := if s.chanOk x b then b else putField b 0 1 (fieldAt b 0 1 / 2 * 2)
  .next
    (if !s.reqPriv req || s.reqWorld req != x.world then s
     else s.setPort port ({ x with chans := mset (zeros 32) x.chans vc b }.setAt' vc (0, 0, 0, 0)))

/-- CSI2_PACKET (R458): a frame's start is stamped; a line of the accepted type is stored; an errored packet is counted. -/
def execCsi2Packet (port : Fin 8) (p : CsiPacket) (s : State) : Out :=
  let x := s.port port
  .next (match p with
    | .frameStart vc => if x.imaging vc then
        let f := x.at' vc
        s.setPort port (x.setAt' vc (f.1, f.2.1, s.ptime, 0))
      else s
    | .line vc dt bs =>
      let e := x.chan vc
      let f := x.at' vc
      let lineb := fieldAt e 20 4
      if !x.imaging vc || dt.toNat != fieldAt e 1 1 || fieldAt e 16 4 / lineb ≤ f.2.2.2 then s
      else
        let pa := fieldAt e 8 8 + f.2.1 * fieldAt e 16 4 + f.2.2.2 * lineb
        (s.homeWrite x.world (cellsOf pa (bs.take lineb))).setPort port (x.setAt' vc (f.1, f.2.1, f.2.2.1, f.2.2.2 + 1))
    | .errored => if x.en then s.setPort port { x with pkterr := satInc x.pkterr } else s)

/-- INGRESS_FRAME_END (R461): the frame's item is pushed; a dropped one has its slot reused. -/
def execIngressFrameEnd (port : Fin 8) (vc : Fin 16) (s : State) : Out :=
  let x := s.port port
  let e := x.chan vc
  let f := x.at' vc
  .next
    (if !x.imaging vc then s
     else
       let r := s.portPush port (fieldAt e 2 2) (leBytes 4 f.1 ++ leBytes 4 f.2.1 ++ leBytes 8 f.2.2.1)
       let slot := if r.1 then (f.2.1 + 1) % fieldAt e 4 4 else f.2.1
       r.2.setPort port ({ x with frames := if r.1 then satInc x.frames else x.frames }.setAt' vc ((f.1 + 1) % 2 ^ 32, slot, f.2.2.1, 0)))

/-- The item of an event word (R461). -/
def camItem (e : CamEvent) (now : Nat) : List Byte :=
  leBytes 4 (e.x.toNat + e.y.toNat * 2 ^ 14 + b2n e.polarity * 2 ^ 28) ++ leBytes 4 (bits now 37 6)

/-- INGRESS_EVENT_PACKET (R458, R461). -/
def execIngressEventPacket (port : Fin 8) (vc : Fin 16) (events : List CamEvent) (s : State) : Out :=
  let x := s.port port
  .next
    (if !x.on vc true || fieldAt (x.chan vc) 1 1 != 0x30 then s
     else events.foldl (fun s e => (s.portPush port (fieldAt (x.chan vc) 2 2) (camItem e s.ptime)).2) s)

/-! ### Harts and inbound PCI Express at the home agent (R252, R262, R379, R460) -/

/-- May an outside atomic of a width act at an address: a listed size, naturally aligned (R252, R262)? -/
def outAtomicOk (k : OutKind) (pa : Nat) : Bool :=
  match k with
  | .load _ | .store _ => true
  | .lr n => (n == 4 || n == 8) && pa % n == 0
  | .fetchAdd b | .swap b | .amo _ b | .sc b => (b.length == 4 || b.length == 8) && pa % b.length == 0
  | .cas e b => e.length == b.length && (b.length == 4 || b.length == 8 || b.length == 16) && pa % b.length == 0

/-- Is the access one that PCI Express carries: a load, a store or an AtomicOp (R262)? -/
def OutKind.pcie : OutKind → Bool
  | .amo .. | .lr _ | .sc _ => false
  | _ => true

/-- The value that a RISC-V memory operation on n bytes leaves (R252). -/
def amoValue (op : AmoOp) (n old x : Nat) : Nat :=
  let signed (v : Nat) : Int := if 2 ^ (8 * n - 1) ≤ v then (v : Int) - 2 ^ (8 * n) else v
  match op with
  | .and => old &&& x
  | .or => old ||| x
  | .xor => old ^^^ x
  | .min => if signed x < signed old then x else old
  | .max => if signed old < signed x then x else old
  | .minu => min old x
  | .maxu => max old x

/-- What an atomic leaves in place of old bytes; none where it writes nothing. -/
def outAtomic (k : OutKind) (old : List Byte) : Option (List Byte) :=
  match k with
  | .load _ | .store _ | .lr _ | .sc _ => none
  | .amo op b => some (leBytes b.length (amoValue op b.length (leNat old) (leNat b)))
  | .fetchAdd b => some (leBytes b.length (leNat old + leNat b))
  | .swap b => some b
  | .cas e b => if old == e then some b else none

/-- Bytes that an access touches. -/
def OutKind.width : OutKind → Nat
  | .load n | .lr n => n
  | .store b => b.length
  | .fetchAdd b | .swap b | .amo _ b | .sc b => b.length
  | .cas _ b => b.length

/-- May an access of a hart or an inbound master act at the home agent (R262, R379)? -/
def State.outOk (s : State) (world : Bool) (pa : Nat) (k : OutKind) : Bool :=
  outAtomicOk k pa && (world || (List.range (OutKind.width k)).all fun i => !s.secure (pa + i))

/-- An access of a hart or an inbound master performed at the home agent in a world; one that the world may not make, or whose atomic read
is poisoned, changes nothing. -/
def State.outAccess (s : State) (world : Bool) (pa : Nat) (k : OutKind) : State :=
  let n := OutKind.width k
  if !s.outOk world pa k then s
  else match k with
    | .load _ | .lr _ | .sc _ => s
    | .store b => s.homeWrite world (cellsOf pa b)
    | k =>
      let r := s.homeRead world pa n
      if r.2.isSome then s
      else match outAtomic k r.1 with
        | some b => s.homeWrite world (cellsOf pa b)
        | none => s

/-- LR of a hart takes its one reservation; SC ends it, and stores where the reservation covers the same bytes and no write has ended it
(R252). -/
def State.hartReserve (s : State) (h : Nat) (world : Bool) (pa : Nat) (k : OutKind) : State :=
  let hold (s : State) (r : Nat × Nat) : State := { s with bnd := { s.bnd with reserve := mset (0, 0) s.bnd.reserve h r } }
  if !s.outOk world pa k then s
  else match k with
    | .lr n => hold s (pa, n)
    | .sc b =>
      let r := mget (0, 0) s.bnd.reserve h
      let s := hold s (0, 0)
      if r == (pa, b.length) then s.homeWrite world (cellsOf pa b) else s
    | _ => s

/-- What the PCI Express record counts a PEER access under while the link is down (R460): 0 load, 1 store, 2 atomic. -/
def OutKind.peerCount : OutKind → Nat
  | .load _ => 0
  | .store _ => 1
  | _ => 2

/-- The same at a PEER target behind the port, where the access is lost and counted while the link is down (R460), or at an IO target; an
atomic that R262 turns away there changes nothing. -/
def State.outPeer (s : State) (pa : Nat) (io : Bool) (k : OutKind) : State :=
  if !outAtomicOk k pa || !OutKind.pcie k then s
  else if !io && !bit s.bnd.pcieLink.toNat 0 then s.peerLost (OutKind.peerCount k)
  else
    let put (b : List Byte) : State := { s with bnd := { s.bnd with peer := writeBytes s.bnd.peer pa b } }
    match k with
    | .load _ => s
    | .store b => put b
    | k => if io || !bit s.bnd.pcieCtrl.toNat 1 || s.bnd.noAtomic.contains (pa / 4096) then s else match outAtomic k (readBytes s.bnd.peer pa (OutKind.width k)) with
      | some b => put b
      | none => s

/-- HART_MEMORY_ACCESS (R252): memory at the home agent, or a PEER or IO target, as the hart's mapping says; stores to control regions are
REGISTER_WRITE. -/
def execHartMemoryAccess (h : Fin 16) (pa : Nat) (k : HartAccess) (s : State) : Out :=
  let world := s.reeve.hartSec.getLsbD h
  .next
    (if !s.reeve.hartsOn || isWindow pa then s
     else if pa < s.capacity then (s.hartReserve h world pa k.kind).outAccess world pa k.kind
     else s.outPeer pa k.io k.kind)

/-- PCIE_INBOUND_REQUEST (R460): non-secure, while the link is up; control regions refuse it (R383). -/
def execPcieInboundRequest (pa : Nat) (k : OutKind) (s : State) : Out :=
  .next (if !bit s.bnd.pcieLink.toNat 0 || isWindow pa || s.capacity ≤ pa || !OutKind.pcie k then s else s.outAccess false pa k)

/-- Is a rate and width one that the link trains at: 2.5 to 64 GT/s, 1 to 8 lanes (R458)? -/
def linkRuns (rate : Fin 8) (lanes : Fin 16) : Bool := 1 ≤ rate.val && rate.val ≤ 6 && 1 ≤ lanes.val && lanes.val ≤ 8

/-- PCIE_LINK_CHANGE (R458, R460). -/
def execPcieLinkChange (up : Bool) (rate : Fin 8) (lanes : Fin 16) (s : State) : Out :=
  .next
    (if up && !linkRuns rate lanes then s
     else { s with bnd := { s.bnd with pcieLink := if up then BitVec.ofNat 64 (1 + rate.val * 2 + lanes.val * 16) else 0 } })

/-! ### Ethernet (R462 to R464) -/

/-- A MAC. -/
def State.mac (s : State) (i : Nat) : Mac := mget Mac.reset s.bnd.macs i
/-- A MAC replaced. -/
def State.setMac (s : State) (i : Nat) (m : Mac) : State := { s with bnd := { s.bnd with macs := mset Mac.reset s.bnd.macs i m } }
/-- A ring of a MAC. -/
def Mac.ring (m : Mac) (tx : Bool) (r : Nat) : EthRing := mget EthRing.reset (if tx then m.tx else m.rx) r
/-- A ring replaced. -/
def Mac.setRing (m : Mac) (tx : Bool) (r : Nat) (x : EthRing) : Mac :=
  if tx then { m with tx := mset EthRing.reset m.tx r x } else { m with rx := mset EthRing.reset m.rx r x }

/-- Does the MAC run: enabled by ETHEN and by CTRL? -/
def State.macOn (s : State) (i : Nat) : Bool := bit (s.cfg 0x0B 1) i && bit (s.mac i).ctrl.toNat 0

/-- Descriptors of a ring. -/
def EthRing.size (r : EthRing) : Nat := 2 ^ r.log2n.toNat
/-- The physical address of the descriptor at HEAD. -/
def EthRing.desc (r : EthRing) : Nat := r.base.toNat + 32 * r.head
/-- HEAD moved on. -/
def EthRing.advance (r : EthRing) : EthRing := { r with head := (r.head + 1) % r.size }

/-- ETH_TAIL_WRITE (R463). -/
def execEthTailWrite (req : Requester) (mac : Fin 2) (tx : Bool) (ring : Fin 4) (v : Word) (s : State) : Out :=
  let m := s.mac mac
  let r := m.ring tx ring
  .next (if s.reqPriv req then s.setMac mac (m.setRing tx ring { r with tail := v.toNat % r.size }) else s)

/-- One byte that a DMA read returns; a byte that the home agent does not give is a free value. -/
def State.dmaByte (s : State) (pa : Nat) : Byte × State :=
  match s.homeByte false pa with
  | (b, none) => (b, s)
  | (_, some _) => let q := s.draw; (q.1.setWidth 8, q.2)

/-- Bytes read by a MAC as a non-secure master; those it may not read, or that are poisoned, are free values (log 6). -/
def State.dmaRead (s : State) (pa n : Nat) : List Byte × State :=
  (List.range n).foldl (fun r i => let q := r.2.dmaByte (pa + i); (r.1 ++ [q.1], q.2)) ([], s)

/-- A descriptor written back with OWN = 0 and its interrupt raised (R463). -/
def State.returnDesc (s : State) (mac : Nat) (tx : Bool) (ring : Nat) (d : List Byte) : State :=
  let m := s.mac mac
  let r := m.ring tx ring
  let c := fieldAt d 10 1
  let s := s.homeWrite false (cellsOf r.desc (putField d 10 1 (c / 2 * 2)))
  let m := if bit c 1 then { m with msi := m.msi ++ [(r.msiaddr, r.msidata)] } else m
  s.setMac mac (m.setRing tx ring r.advance)

/-- A one-step frame (R463): originTimestamp as PTP time (R464), the UDP checksum zero. -/
def State.oneStep (s : State) (f : List Byte) (tsoff : Nat) : List Byte :=
  let f := putBytes f (tsoff + 34) s.ptpStamp
  if isUdp f then putBytes f (udpOff f + 6) [0, 0] else f

/-- A frame sent, padded to the shortest that a MAC carries (R463; log 146), with its FCS. -/
def Mac.send (m : Mac) (f : List Byte) : Mac :=
  let f := f ++ zeros (60 - f.length)
  { m with sent := m.sent ++ [f ++ leBytes 4 (crc32 f).toNat] }

/-- Reeve's clock sends a PTP message on its port (R464): one that the clock's settings let it send, while the link is up. -/
def State.sendPtp (s : State) (msg : List Byte) : State :=
  let i := s.reeve.timeSrc
  let m := s.mac i
  if !(List.range 2).any s.clockOn || !m.link || !s.mayPtp (ptpType msg) then s
  else s.setMac i (m.send (s.ptpFrame m.macaddr.toNat msg))

/-- ETH_TX_COMPLETE (R463): the frame at HEAD is sent with its FCS, or dropped at link down, or above the length that a MAC carries (log
146); the descriptor is returned. -/
def execEthTxComplete (mac : Fin 2) (ring : Fin 4) (s : State) : Out :=
  let m := s.mac mac
  let r := m.ring true ring
  .next
    (if !s.macOn mac || r.head = r.tail then s
     else
       let (d, s) := s.dmaRead r.desc 32
       let c := fieldAt d 10 1
       if !bit c 0 then s
       else if !m.link then
         (s.setMac mac (m.setRing true ring { r with drops := satInc r.drops })).returnDesc mac true ring (putField d 11 1 1)
       else
         let (f, s) := s.dmaRead (fieldAt d 0 8) (fieldAt d 8 2)
         let f := if bit c 2 && bit c 3 then s.oneStep f (fieldAt d 12 2) else f
         let d := putField d 11 1 0
         let d := if bit c 2 then putField d 16 8 s.ptime else d
         if 9600 < f.length + 4 then s.returnDesc mac true ring (putField d 11 1 1)
         else (s.setMac mac (m.send f)).returnDesc mac true ring d)

/-- Does a MAC accept the destination of a frame (R463)? The first byte on the line is the high byte of MACADDR (log 17). -/
def Mac.accepts (m : Mac) (f : List Byte) : Bool :=
  bit m.ctrl.toNat 2 || bit (fieldAt f 0 1) 0 || f.take 6 == beBytes 6 (m.macaddr.toNat % 2 ^ 48)

/-- The receive ring of a frame (R463). -/
def rxRing (f : List Byte) : Nat := if (f.drop 12).take 2 == [0x81, 0x00] then fieldAt f 14 1 / 64 else 0

/-- ETH_RX_FRAME (R463, R464): to Reeve, to a receive ring with its stamp and status, or dropped. -/
def execEthRxFrame (mac : Fin 2) (frame : List Byte) (fcsOk : Bool) (s : State) : Out :=
  let m := s.mac mac
  let n := rxRing frame
  let r := m.ring false n
  let now := s.ptime
  .next
    (if !macCarries frame.length then s
     else if s.clockOn mac && s.isPtp frame then
       if fcsOk then s.setMac mac { m with reeve := m.reeve ++ [frame] } else s
     else if !s.macOn mac || !m.link || !m.accepts frame then s
     else if r.head = r.tail then s.setMac mac (m.setRing false n { r with drops := satInc r.drops })
     else
       let (d, s) := s.dmaRead r.desc 32
       if !bit (fieldAt d 10 1) 0 then s.setMac mac (m.setRing false n { r with drops := satInc r.drops })
       else
         let room := fieldAt d 8 2
         let s := s.homeWrite false (cellsOf (fieldAt d 0 8) (frame.take room))
         let st := if !fcsOk then 1 else if room < frame.length then 2 else 0
         s.returnDesc mac false n (putField (putField (putField d 8 2 frame.length) 11 1 st) 16 8 now))

/-- ETH_LINK_CHANGE (R463). -/
def execEthLinkChange (mac : Fin 2) (up : Bool) (s : State) : Out := .next (s.setMac mac { s.mac mac with link := up })

/-! ### Attestation (R450, R451, R459) -/

/-- The mailbox's status. -/
def State.attSet (s : State) (st : Nat) : State := { s with reeve := { s.reeve with attStatus := st } }

/-- ATTEST (R451, R459): refused while a request is in progress; the buffer must be aligned, in memory of the requester's world. -/
def execAttest (req : Requester) (s : State) : Out :=
  let w := s.reqWorld req
  let pa := s.reeve.attReport.toNat
  .next
    (if !s.reqPriv req || s.reeve.halted then s
     else if s.reeve.attPending.isSome then s.attSet 1
     else if pa % 64 != 0 || s.secure pa != w || s.secure (pa + 30815) != w then s.attSet 3
     else
       let s := s.attSet 2
       { s with reeve := { s.reeve with attPending := some (pa, (s.reeve.attNonce ++ zeros 64).take 64, w) } })

/-- EXTEND (R450, R459): registers 4 to 7, by secure privileged requests. -/
def execExtend (req : Requester) (reg : Fin 8) (s : State) : Out :=
  .next
    (if !s.reqPriv req || s.reeve.halted then s
     else if !s.reqWorld req || reg.val < 4 then s.attSet 3
     else if s.reeve.attPending.isSome then s.attSet 1
     else (s.extend reg ((s.reeve.attDigest ++ zeros 64).take 64)).attSet 0)

/-- A 32-byte seed of the identity key, by its label (R451; log 7). -/
def seedOf (label : List Byte) : List Byte := Config.shake256 (Config.puf ++ label) 32

/-- The three seeds: "ALID-SK", "ALID-PRF", "ALID-PK". -/
def identitySeeds : List Byte :=
  let tag : List Byte := [0x41, 0x4C, 0x49, 0x44, 0x2D]
  seedOf (tag ++ [0x53, 0x4B]) ++ seedOf (tag ++ [0x50, 0x52, 0x46]) ++ seedOf (tag ++ [0x50, 0x4B])

/-- The first 1,024 bytes of a report (R459). -/
def State.reportBody (s : State) (nonce : List Byte) : List Byte :=
  let st := s.stageWords
  let m := (List.range 8).flatMap fun i => mget (zeros 64) s.reeve.meas i
  putBytes (zeros 1024) 0
    (leBytes 4 0x54414C41 ++ leBytes 2 1 ++ zeros 2 ++ leBytes 8 s.ptime ++ leBytes 8 st.1 ++ leBytes 8 st.2 ++ nonce ++ m
      ++ Config.slhPublic identitySeeds)

/-- ATTEST_COMPLETE (R459): the signed report is written, then STATUS 0. -/
def execAttestComplete (s : State) : Out :=
  .next (match s.reeve.attPending with
    | none => s
    | some (pa, nonce, w) =>
      let b := s.reportBody nonce
      let s := (s.homeWrite w (cellsOf pa (b ++ Config.slhSign identitySeeds b))).attSet 0
      { s with reeve := { s.reeve with attPending := none } })

end Sys2Proof.Machine
end

