-- ==== Sys2Proof/Machine/Registers.lean ====
section
/-!
DEFINITION. REGISTER_WRITE: an 8-byte store to a control region, window by window (spec/11_isolation.md R383, R384; spec/13_boundary.md R457 to
R459, R463, R465, R467). A write with a behaviour of its own acts as its event does; a read-only field, a reserved one and a window that
the requester may not write keep their value (R5).
-/
namespace Sys2Proof.Machine

/-- Beadle's submission window (R334). -/
def State.writeSubmit (s : State) (req : Requester) (v : Word) : State :=
  let n := v.toNat
  if bits n 6 3 != 0 || 2 ^ 44 ≤ n || 4 ≤ n % 8 then s else s.command req (n % 8) (bits n 43 7 * 128)

/-- A word of a queue descriptor (R293, R294): VALID is set or cleared by the first; the others of a VALID queue stand. -/
def State.writeQueue (s : State) (req : Requester) (q off : Nat) (v : Word) : Out :=
  let u := s.queue q
  let b := putField u.desc off 8 v.toNat
  let id := BitVec.ofNat 13 q
  if !s.reqPriv req then .next s
  else if off = 0 && bit v.toNat 0 then execQueueConfigure req id b s
  else if off = 0 then
    (match execQueueClose req id s with
     | .next s => .next (s.setQueue q { s.queue q with desc := putField (queueDesc b) 1 1 (fieldAt u.desc 1 1) })
     | o => o)
  else if u.valid then .next s
  else .next (s.setQueue q { u with desc := queueDesc b })

/-- A word of an ingress port's block (R458). -/
def State.writePort (s : State) (req : Requester) (p off : Nat) (v : Word) : Out :=
  let x := s.port p
  if !s.reqPriv req || s.reqWorld req != x.world || 8 ≤ p then .next s
  else if off = 0 then
    .next (s.setPort p { x with ctrl := (x.ctrl &&& ~~~(2 : Word)) ||| (v &&& 2) })
  else if 0x100 ≤ off && off < 0x300 then
    let vc := (off - 0x100) / 32
    let b := putField (x.chan vc) (off % 32) 8 v.toNat
    if bit (fieldAt b 0 1) 0 then execIngressChannelEnable req (fin 8 p) (fin 16 vc) b s
    else .next (s.setPort p { x with chans := mset (zeros 32) x.chans vc b })
  else .next s

/-- A word of the attestation mailbox (R459). -/
def State.writeAttest (s : State) (req : Requester) (off : Nat) (v : Word) : Out :=
  let n := v.toNat
  if !s.reqPriv req then .next s
  else if off = 0 then
    (match bits n 1 0, n / 32 with
     | 1, 0 => if bits n 4 2 = 0 then execAttest req s else .next (s.attSet 3)
     | 2, 0 => execExtend req (fin 8 (bits n 4 2)) s
     | _, _ => .next (s.attSet 3))
  else if off = 16 then .next { s with reeve := { s.reeve with attReport := v } }
  else if 0x40 ≤ off && off < 0x80 then
    .next { s with reeve := { s.reeve with attNonce := putField (s.reeve.attNonce ++ zeros (64 - s.reeve.attNonce.length)) (off - 0x40) 8 n } }
  else if 0x80 ≤ off && off < 0xC0 then
    .next { s with reeve := { s.reeve with attDigest := putField (s.reeve.attDigest ++ zeros (64 - s.reeve.attDigest.length)) (off - 0x80) 8 n } }
  else .next s

/-- A ring's own register (R463). -/
def EthRing.write (r : EthRing) (off : Nat) (v : Word) : EthRing :=
  match off / 8 with
  | 0 => if v.toNat % 64 = 0 && v.toNat < 2 ^ 44 then { r with base := v } else r
  | 1 => if 4 ≤ v.toNat && v.toNat ≤ 16 then { r with log2n := v } else r
  | 4 => { r with msiaddr := v }
  | 5 => { r with msidata := v }
  | _ => r

/-- A word of an Ethernet MAC's block (R463). -/
def State.writeMac (s : State) (req : Requester) (i off : Nat) (v : Word) : Out :=
  let m := s.mac i
  if !s.reqPriv req then .next s
  else if off = 0 then .next (s.setMac i { m with ctrl := v &&& 7 })
  else if off = 16 then .next (s.setMac i { m with macaddr := v &&& 0xFFFFFFFFFFFF })
  else if 0x100 ≤ off && off < 0x300 then
    let tx := off < 0x200
    let r := off % 256 / 64
    if off % 64 = 24 then execEthTailWrite req (fin 2 i) tx (fin 4 r) v s
    else .next (s.setMac i (m.setRing tx r ((m.ring tx r).write (off % 64) v)))
  else .next s

/-- A word of the safety mailbox (R384, R465). -/
def State.writeMailbox (s : State) (req : Requester) (off : Nat) (v : Word) : State :=
  if !s.reqPriv req || !s.reqWorld req then s
  else if off < 0x800 then s.setTx (off / 128) (putField (s.txSlot (off / 128)) (off % 128) 8 v.toNat)
  else if off < 0x1800 then
    let i := (off - 0x800) / 128
    let b := putField (mget (zeros 128) s.reeve.rxSlots i) (off % 128) 8 v.toNat
    { s with reeve := { s.reeve with rxSlots := mset (zeros 128) s.reeve.rxSlots i b } }
  else s

/-- A word of the partition table (R386): bytes 2 to 31 are staged, and byte 0 applies. -/
def State.writePart (s : State) (req : Requester) (p off : Nat) (v : Word) : Out :=
  if off = 0 then
    execPartitionEntryApply req (fin 64 p) (v.setWidth 8) (s.stagePart req p 2 ((leBytes 8 v.toNat).drop 2))
  else .next (s.stagePart req p off (leBytes 8 v.toNat))

/-- A store to a trace-descriptor window (R261, R383). -/
def State.writeTraceWindow (s : State) (req : Requester) (off : Nat) (v : Word) : Out :=
  if 64 * 64 ≤ off then .next s
  else if off % 64 = 24 then execTraceRpWrite req (fin 64 (off / 64)) v s
  else execTraceDescriptorWrite req (fin 64 (off / 64)) (putField (s.traceBytes (off / 64) (s.reqWorld req)) (off % 64) 8 v.toNat) s

/-- A store to a debug-control window (R383). -/
def State.writeDebugWindow (s : State) (req : Requester) (off : Nat) (v : Word) : Out :=
  let n := off / 16
  if off % 16 != 0 || 64 ≤ n then .next s else s.writeDebug req (if n < 32 then .core (fin 32 n) else .unit (fin 32 (n - 32))) v

/-- A store to a region-table window: FIRST is staged, LAST applies the entry (R378). -/
def State.writeRegionWindow (s : State) (req : Requester) (off : Nat) (v : Word) : Out :=
  if 1024 ≤ off then .next s
  else if off % 16 = 0 then .next (s.stageFirst req (off / 16) v)
  else execRegionEntryApply req (fin 64 (off / 16)) v s

/-- The windows of Beadle, Tollgate, the queues, the trace descriptors and debug control (log 17). -/
def State.writeFabric (s : State) (req : Requester) (w off : Nat) (v : Word) : Out :=
  match w with
  | 0 => .next (if off = 0 then s.writeSubmit req v else s)
  | 1 => if off = 0 then execBeminWrite req v s else .next s
  | 2 => if off = 0 then execBewinWrite req v s else .next s
  | 3 => if off = 0 then execTgwinWrite req v s else .next s
  | 4 => if off < 64 * 4096 then s.writeQueue req (off / 64) (off % 64) v else .next s
  | 5 => if off < 64 * 4096 then s.writeQueue req (4096 + off / 64) (off % 64) v else .next s
  | 6 => s.writeTraceWindow req off v
  | _ => s.writeDebugWindow req off v

/-- The windows of the isolation tables, invalidation and power (log 17). -/
def State.writeIsolation (s : State) (req : Requester) (w off : Nat) (v : Word) : Out :=
  match w with
  | 10 => s.writeRegionWindow req off v
  | 11 => if off < 2048 then s.writePart req (off / 32) (off % 32) v else .next s
  | 12 => .next (if off = 0 then s.writeAst req false (v &&& 0xFFFFFF80001) else s)
  | 13 => .next (if off = 0 then s.writeAst req true (v &&& 0xFFFFFF80001) else s)
  | 14 => if off < 128 then execHartPartitionWrite req (fin 16 (off / 8)) v s else .next s
  | 15 =>
    .next (if off = 0 then { s with iso := { s.iso with invAddr := v } }
           else if off = 8 then s.writeInv req (v &&& 0xFFFF0003) else s)
  | 16 => if off = 0 then execPowercapWrite req v s else .next s
  | _ => .next s

/-- The windows of the chip's boundary (log 17). -/
def State.writeBoundary (s : State) (req : Requester) (w off : Nat) (v : Word) : Out :=
  match w with
  | 17 => .next (if off = 0 then { s with bnd := { s.bnd with pcieCtrl := (s.bnd.pcieCtrl &&& ~~~(2 : Word)) ||| (v &&& 2) } } else s)
  | 18 => s.writePort req (off / 1024) (off % 1024) v
  | 19 => s.writeAttest req off v
  | 20 => s.writeMac req 0 off v
  | 21 => s.writeMac req 1 off v
  | 22 => .next (s.writeMailbox req off v)
  | _ => .next s

/-- REGISTER_WRITE (R383): by window (log 17), an 8-byte store at an aligned address. -/
def execRegisterWrite (req : Requester) (pa : Nat) (v : Word) (s : State) : Out :=
  let off := (pa - Config.ctlBase) % 2 ^ 24
  let w := windowOf pa
  if !isControl pa || pa % 8 != 0 || !s.reqPriv req then .next s
  else if w < 8 then s.writeFabric req w off v
  else if w < 17 then s.writeIsolation req w off v
  else s.writeBoundary req w off v

end Sys2Proof.Machine
end

