-- ==== Sys2Proof/Machine/Dispatch.lean ====
section
/-!
DEFINITION. One arm per operation and event: a direct call of its meaning.
-/
namespace Sys2Proof.Machine

/-- What an operation or event does to the device. -/
def exec (i : Instr) (s : State) : Host.Outcome State Fault Refusal :=
  match i with
  | .nop => Sys2Proof.Machine.execNop s
  | .add d a b => Sys2Proof.Machine.execAdd d a b s
  | .sub d a b => Sys2Proof.Machine.execSub d a b s
  | .addi d a imm => Sys2Proof.Machine.execAddi d a imm s
  | .lih d a imm => Sys2Proof.Machine.execLih d a imm s
  | .mul d a b => Sys2Proof.Machine.execMul d a b s
  | .mulh d a b => Sys2Proof.Machine.execMulh d a b s
  | .mulhn d a b => Sys2Proof.Machine.execMulhn d a b s
  | .div d a b => Sys2Proof.Machine.execDiv d a b s
  | .divn d a b => Sys2Proof.Machine.execDivn d a b s
  | .rem d a b => Sys2Proof.Machine.execRem d a b s
  | .remn d a b => Sys2Proof.Machine.execRemn d a b s
  | .and d a b => Sys2Proof.Machine.execAnd d a b s
  | .or d a b => Sys2Proof.Machine.execOr d a b s
  | .xor d a b => Sys2Proof.Machine.execXor d a b s
  | .andi d a imm => Sys2Proof.Machine.execAndi d a imm s
  | .ori d a imm => Sys2Proof.Machine.execOri d a imm s
  | .xori d a imm => Sys2Proof.Machine.execXori d a imm s
  | .shl d a b => Sys2Proof.Machine.execShl d a b s
  | .shr d a b => Sys2Proof.Machine.execShr d a b s
  | .sra d a b => Sys2Proof.Machine.execSra d a b s
  | .shli d a sh => Sys2Proof.Machine.execShli d a sh s
  | .shri d a sh => Sys2Proof.Machine.execShri d a sh s
  | .srai d a sh => Sys2Proof.Machine.execSrai d a sh s
  | .rol d a b => Sys2Proof.Machine.execRol d a b s
  | .ror d a b => Sys2Proof.Machine.execRor d a b s
  | .min d a b => Sys2Proof.Machine.execMin d a b s
  | .max d a b => Sys2Proof.Machine.execMax d a b s
  | .minn d a b => Sys2Proof.Machine.execMinn d a b s
  | .maxn d a b => Sys2Proof.Machine.execMaxn d a b s
  | .seq d a b => Sys2Proof.Machine.execSeq d a b s
  | .sne d a b => Sys2Proof.Machine.execSne d a b s
  | .slt d a b => Sys2Proof.Machine.execSlt d a b s
  | .sltn d a b => Sys2Proof.Machine.execSltn d a b s
  | .slti d a imm => Sys2Proof.Machine.execSlti d a imm s
  | .sel d a b n inv => Sys2Proof.Machine.execSel d a b n inv s
  | .clz d a => Sys2Proof.Machine.execClz d a s
  | .ctz d a => Sys2Proof.Machine.execCtz d a s
  | .popc d a => Sys2Proof.Machine.execPopc d a s
  | .bfx d a pos len1 => Sys2Proof.Machine.execBfx d a pos len1 s
  | .bfi d a pos len1 => Sys2Proof.Machine.execBfi d a pos len1 s
  | .sext d a t => Sys2Proof.Machine.execSext d a t s
  | .addsh d a b sh => Sys2Proof.Machine.execAddsh d a b sh s
  | .fadd t d a b => Sys2Proof.Machine.execFadd t d a b s
  | .fsub t d a b => Sys2Proof.Machine.execFsub t d a b s
  | .fmul t d a b => Sys2Proof.Machine.execFmul t d a b s
  | .ffma t d a b => Sys2Proof.Machine.execFfma t d a b s
  | .fmin t d a b => Sys2Proof.Machine.execFmin t d a b s
  | .fmax t d a b => Sys2Proof.Machine.execFmax t d a b s
  | .feq t d a b => Sys2Proof.Machine.execFeq t d a b s
  | .flt t d a b => Sys2Proof.Machine.execFlt t d a b s
  | .fle t d a b => Sys2Proof.Machine.execFle t d a b s
  | .fcvt t2 t1 d a => Sys2Proof.Machine.execFcvt t2 t1 d a s
  | .fsgn m t d a b => Sys2Proof.Machine.execFsgn m t d a b s
  | .fclass t d a => Sys2Proof.Machine.execFclass t d a s
  | .pset m e pd a => Sys2Proof.Machine.execPset m e pd a s
  | .plog op pd pa pb => Sys2Proof.Machine.execPlog op pd pa pb s
  | .check a b => Sys2Proof.Machine.execCheck a b s
  | .srd d n => Sys2Proof.Machine.execSrd d n s
  | .swr n a => Sys2Proof.Machine.execSwr n a s
  | .rngn d => Sys2Proof.Machine.execRngn d s
  | .rngf t d => Sys2Proof.Machine.execRngf t d s
  | .rngj d k => Sys2Proof.Machine.execRngj d k s
  | .vnop h => Sys2Proof.Machine.execVnop h s
  | .vadd v d a b => Sys2Proof.Machine.execVadd v d a b s
  | .vsub v d a b => Sys2Proof.Machine.execVsub v d a b s
  | .vmul v d a b => Sys2Proof.Machine.execVmul v d a b s
  | .vmulh v d a b => Sys2Proof.Machine.execVmulh v d a b s
  | .vmin v d a b => Sys2Proof.Machine.execVmin v d a b s
  | .vmax v d a b => Sys2Proof.Machine.execVmax v d a b s
  | .vabs v d a => Sys2Proof.Machine.execVabs v d a s
  | .vand v d a b => Sys2Proof.Machine.execVand v d a b s
  | .vor v d a b => Sys2Proof.Machine.execVor v d a b s
  | .vxor v d a b => Sys2Proof.Machine.execVxor v d a b s
  | .vshl v d a b => Sys2Proof.Machine.execVshl v d a b s
  | .vshr v d a b => Sys2Proof.Machine.execVshr v d a b s
  | .vsra v d a b => Sys2Proof.Machine.execVsra v d a b s
  | .vfadd v d a b => Sys2Proof.Machine.execVfadd v d a b s
  | .vfsub v d a b => Sys2Proof.Machine.execVfsub v d a b s
  | .vfmul v d a b => Sys2Proof.Machine.execVfmul v d a b s
  | .vfma v d a b => Sys2Proof.Machine.execVfma v d a b s
  | .vfmin v d a b => Sys2Proof.Machine.execVfmin v d a b s
  | .vfmax v d a b => Sys2Proof.Machine.execVfmax v d a b s
  | .vcmp v c pd a b => Sys2Proof.Machine.execVcmp v c pd a b s
  | .vfcmp v c pd a b => Sys2Proof.Machine.execVfcmp v c pd a b s
  | .vsel v d a b => Sys2Proof.Machine.execVsel v d a b s
  | .vcvt v t1 d a => Sys2Proof.Machine.execVcvt v t1 d a s
  | .vsplat v d a => Sys2Proof.Machine.execVsplat v d a s
  | .vext v d a b => Sys2Proof.Machine.execVext v d a b s
  | .vins v d a b => Sys2Proof.Machine.execVins v d a b s
  | .vperm v d a b => Sys2Proof.Machine.execVperm v d a b s
  | .vslide v d a b => Sys2Proof.Machine.execVslide v d a b s
  | .vzip v d a b => Sys2Proof.Machine.execVzip v d a b s
  | .vunzip v d a b => Sys2Proof.Machine.execVunzip v d a b s
  | .vcprs v d a => Sys2Proof.Machine.execVcprs v d a s
  | .vpcnt v d a => Sys2Proof.Machine.execVpcnt v d a s
  | .viota v d => Sys2Proof.Machine.execViota v d s
  | .vdot4 v d a b => Sys2Proof.Machine.execVdot4 v d a b s
  | .vaccrd v d a b => Sys2Proof.Machine.execVaccrd v d a b s
  | .vaccwr v d a b => Sys2Proof.Machine.execVaccwr v d a b s
  | .vmov v d a => Sys2Proof.Machine.execVmov v d a s
  | .rdadd v ps a => Sys2Proof.Machine.execRdadd v ps a s
  | .rdmax v ps a => Sys2Proof.Machine.execRdmax v ps a s
  | .rdmin v ps a => Sys2Proof.Machine.execRdmin v ps a s
  | .rdmov v d ps => Sys2Proof.Machine.execRdmov v d ps s
  | .xnop h => Sys2Proof.Machine.execXnop h s
  | .mma h cz sat d a b ct => Sys2Proof.Machine.execMma h cz sat d a b ct s
  | .accz h d => Sys2Proof.Machine.execAccz h d s
  | .acccp h tr d a => Sys2Proof.Machine.execAcccp h tr d a s
  | .setfmt a => Sys2Proof.Machine.execSetfmt a s
  | .twb h d a => Sys2Proof.Machine.execTwb h d a s
  | .twn h d => Sys2Proof.Machine.execTwn h d s
  | .twe h d => Sys2Proof.Machine.execTwe h d s
  | .mstestQuick d => Sys2Proof.Machine.execMstestQuick d s
  | .mstestFull d => Sys2Proof.Machine.execMstestFull d s
  | .fmaprd h d n => Sys2Proof.Machine.execFmaprd h d n s
  | .frcp h p d a => Sys2Proof.Machine.execFrcp h p d a s
  | .frsq h p d a => Sys2Proof.Machine.execFrsq h p d a s
  | .fsqrt h p d a => Sys2Proof.Machine.execFsqrt h p d a s
  | .fdiv h p d a b => Sys2Proof.Machine.execFdiv h p d a b s
  | .fexp2 h p d a => Sys2Proof.Machine.execFexp2 h p d a s
  | .flog2 h p d a => Sys2Proof.Machine.execFlog2 h p d a s
  | .fsin h p d a => Sys2Proof.Machine.execFsin h p d a s
  | .fcos h p d a => Sys2Proof.Machine.execFcos h p d a s
  | .ftanh h p d a => Sys2Proof.Machine.execFtanh h p d a s
  | .fsigm h p d a => Sys2Proof.Machine.execFsigm h p d a s
  | .flut h p d a => Sys2Proof.Machine.execFlut h p d a s
  | .lutld d a n => Sys2Proof.Machine.execLutld d a n s
  | .lutsel n => Sys2Proof.Machine.execLutsel n s
  | .br base off => Sys2Proof.Machine.execBr base off s
  | .brc c off => Sys2Proof.Machine.execBrc c off s
  | .call base off => Sys2Proof.Machine.execCall base off s
  | .ret a => Sys2Proof.Machine.execRet a s
  | .mark id n => Sys2Proof.Machine.execMark id n s
  | .trcev code a => Sys2Proof.Machine.execTrcev code a s
  | .trcevFull code a b => Sys2Proof.Machine.execTrcevFull code a b s
  | .leave a n => Sys2Proof.Machine.execLeave a n s
  | .launch a => Sys2Proof.Machine.execLaunch a s
  | .jend => Sys2Proof.Machine.execJend s
  | .jendBlk => Sys2Proof.Machine.execJendBlk s
  | .semsig n a k rem => Sys2Proof.Machine.execSemsig n a k rem s
  | .semwait n a => Sys2Proof.Machine.execSemwait n a s
  | .yield => Sys2Proof.Machine.execYield s
  | .barGroup id => Sys2Proof.Machine.execBarGroup id s
  | .barBlock id => Sys2Proof.Machine.execBarBlock id s
  | .barJob id => Sys2Proof.Machine.execBarJob id s
  | .trap c code => Sys2Proof.Machine.execTrap c code s
  | .tret => Sys2Proof.Machine.execTret s
  | .svc code => Sys2Proof.Machine.execSvc code s
  | .bkpt code => Sys2Proof.Machine.execBkpt code s
  | .rayqRay q h fast nohint opq => Sys2Proof.Machine.execRayqRay q h fast nohint opq s
  | .rayqSph r q h fast nohint opq => Sys2Proof.Machine.execRayqSph r q h fast nohint opq s
  | .rayw d => Sys2Proof.Machine.execRayw d s
  | .rayahIgnore => Sys2Proof.Machine.execRayahIgnore s
  | .rayahAccept => Sys2Proof.Machine.execRayahAccept s
  | .hintinv a => Sys2Proof.Machine.execHintinv a s
  | .hintinvAll => Sys2Proof.Machine.execHintinvAll s
  | .isamp d a b => Sys2Proof.Machine.execIsamp d a b s
  | .cmsamp d a b => Sys2Proof.Machine.execCmsamp d a b s
  | .cmseg d a b => Sys2Proof.Machine.execCmseg d a b s
  | .mnop h => Sys2Proof.Machine.execMnop h s
  | .ld m d a b => Sys2Proof.Machine.execLd m d a b s
  | .st m d a b => Sys2Proof.Machine.execSt m d a b s
  | .lds m d a b => Sys2Proof.Machine.execLds m d a b s
  | .sts m d a b => Sys2Proof.Machine.execSts m d a b s
  | .ldv v d a b => Sys2Proof.Machine.execLdv v d a b s
  | .stv v d a b => Sys2Proof.Machine.execStv v d a b s
  | .ldvg v e8 sh d a b => Sys2Proof.Machine.execLdvg v e8 sh d a b s
  | .stvs v e8 sh d a b => Sys2Proof.Machine.execStvs v e8 sh d a b s
  | .tld v rows d a b => Sys2Proof.Machine.execTld v rows d a b s
  | .tst v rows d a b => Sys2Proof.Machine.execTst v rows d a b s
  | .accst h first count1 a b => Sys2Proof.Machine.execAccst h first count1 a b s
  | .accld h first count1 d a => Sys2Proof.Machine.execAccld h first count1 d a s
  | .blkld d a n1 => Sys2Proof.Machine.execBlkld d a n1 s
  | .blkrel a => Sys2Proof.Machine.execBlkrel a s
  | .cpy h dir d a b => Sys2Proof.Machine.execCpy h dir d a b s
  | .cpym h mask d a b => Sys2Proof.Machine.execCpym h mask d a b s
  | .syncset a b => Sys2Proof.Machine.execSyncset a b s
  | .swait scope ord d a b => Sys2Proof.Machine.execSwait scope ord d a b s
  | .aadd m d a b => Sys2Proof.Machine.execAadd m d a b s
  | .amin m sgn d a b => Sys2Proof.Machine.execAmin m sgn d a b s
  | .amax m sgn d a b => Sys2Proof.Machine.execAmax m sgn d a b s
  | .aand m d a b => Sys2Proof.Machine.execAand m d a b s
  | .aor m d a b => Sys2Proof.Machine.execAor m d a b s
  | .axor m d a b => Sys2Proof.Machine.execAxor m d a b s
  | .aswp m d a b => Sys2Proof.Machine.execAswp m d a b s
  | .acas m d a b => Sys2Proof.Machine.execAcas m d a b s
  | .acas2 scope ord loc d a b => Sys2Proof.Machine.execAcas2 scope ord loc d a b s
  | .afadd scope ord loc t d a b => Sys2Proof.Machine.execAfadd scope ord loc t d a b s
  | .fence scope ord => Sys2Proof.Machine.execFence scope ord s
  | .drain scope => Sys2Proof.Machine.execDrain scope s
  | .clean a b => Sys2Proof.Machine.execClean a b s
  | .inv a b => Sys2Proof.Machine.execInv a b s
  | .qpush scope ord d a => Sys2Proof.Machine.execQpush scope ord d a s
  | .qpop scope ord d a b => Sys2Proof.Machine.execQpop scope ord d a b s
  | .qtry scope ord d a b => Sys2Proof.Machine.execQtry scope ord d a b s
  | .tgld x16 d a => Sys2Proof.Machine.execTgld x16 d a s
  | .tgst x16 d a => Sys2Proof.Machine.execTgst x16 d a s
  | .pref h l2 a b => Sys2Proof.Machine.execPref h l2 a b s
  | .tlbinvVa a b => Sys2Proof.Machine.execTlbinvVa a b s
  | .tlbinvAsid b => Sys2Proof.Machine.execTlbinvAsid b s
  | .tlbinvAll => Sys2Proof.Machine.execTlbinvAll s
  | .registerWrite req pa v => Sys2Proof.Machine.execRegisterWrite req pa v s
  | .powerOn => Sys2Proof.Machine.execPowerOn s
  | .powerOff => Sys2Proof.Machine.execPowerOff s
  | .thermalTrip die => Sys2Proof.Machine.execThermalTrip die s
  | .imageVerify kind => Sys2Proof.Machine.execImageVerify kind s
  | .memoryTrainingComplete trained => Sys2Proof.Machine.execMemoryTrainingComplete trained s
  | .stageFullEntry => Sys2Proof.Machine.execStageFullEntry s
  | .selfTestComplete d r => Sys2Proof.Machine.execSelfTestComplete d r s
  | .backgroundMstest core found => Sys2Proof.Machine.execBackgroundMstest core found s
  | .ptimeStep ptp delta e => Sys2Proof.Machine.execPtimeStep ptp delta e s
  | .timebaseStateChange next => Sys2Proof.Machine.execTimebaseStateChange next s
  | .ptpMessage port frame ppm => Sys2Proof.Machine.execPtpMessage port frame ppm s
  | .ppsEdge ppm => Sys2Proof.Machine.execPpsEdge ppm s
  | .clockChange d mhz => Sys2Proof.Machine.execClockChange d mhz s
  | .register req card => Sys2Proof.Machine.execRegister req card s
  | .submit req card => Sys2Proof.Machine.execSubmit req card s
  | .retire req card => Sys2Proof.Machine.execRetire req card s
  | .abort req card => Sys2Proof.Machine.execAbort req card s
  | .periodicRelease slot => Sys2Proof.Machine.execPeriodicRelease slot s
  | .deferredRelease slot => Sys2Proof.Machine.execDeferredRelease slot s
  | .dispatch cls place => Sys2Proof.Machine.execDispatch cls place s
  | .advanceModeTimeout core => Sys2Proof.Machine.execAdvanceModeTimeout core s
  | .preemptionComplete d => Sys2Proof.Machine.execPreemptionComplete d s
  | .serverWindowBoundary cls => Sys2Proof.Machine.execServerWindowBoundary cls s
  | .serverBudgetExhausted cls => Sys2Proof.Machine.execServerBudgetExhausted cls s
  | .jobComplete slot => Sys2Proof.Machine.execJobComplete slot s
  | .deadlineMiss slot => Sys2Proof.Machine.execDeadlineMiss slot s
  | .cyclesDemotion slot => Sys2Proof.Machine.execCyclesDemotion slot s
  | .beminWrite req v => Sys2Proof.Machine.execBeminWrite req v s
  | .bewinWrite req v => Sys2Proof.Machine.execBewinWrite req v s
  | .tgwinWrite req v => Sys2Proof.Machine.execTgwinWrite req v s
  | .tollgateWindowBoundary => Sys2Proof.Machine.execTollgateWindowBoundary s
  | .channelRequest ch t group => Sys2Proof.Machine.execChannelRequest ch t group s
  | .leaveGrant d => Sys2Proof.Machine.execLeaveGrant d s
  | .powercapWrite req v => Sys2Proof.Machine.execPowercapWrite req v s
  | .energyUpdate m microjoules => Sys2Proof.Machine.execEnergyUpdate m microjoules s
  | .bundleIssue core => Sys2Proof.Machine.execBundleIssue core s
  | .traceRecordAccept d => Sys2Proof.Machine.execTraceRecordAccept d s
  | .taskBlockStart core => Sys2Proof.Machine.execTaskBlockStart core s
  | .scoreboardResultLand w => Sys2Proof.Machine.execScoreboardResultLand w s
  | .mmaResultLand core => Sys2Proof.Machine.execMmaResultLand core s
  | .mstestComplete core found => Sys2Proof.Machine.execMstestComplete core found s
  | .blkldFillComplete core => Sys2Proof.Machine.execBlkldFillComplete core s
  | .copyPieceLand d copy piece => Sys2Proof.Machine.execCopyPieceLand d copy piece s
  | .copyError d copy va => Sys2Proof.Machine.execCopyError d copy va s
  | .threadWordIssue unit => Sys2Proof.Machine.execThreadWordIssue unit s
  | .threadEnd t => Sys2Proof.Machine.execThreadEnd t s
  | .drainComplete t => Sys2Proof.Machine.execDrainComplete t s
  | .semwaitSatisfy unit group sem => Sys2Proof.Machine.execSemwaitSatisfy unit group sem s
  | .swaitSatisfy w => Sys2Proof.Machine.execSwaitSatisfy w s
  | .qpushRoom q => Sys2Proof.Machine.execQpushRoom q s
  | .barComplete b => Sys2Proof.Machine.execBarComplete b s
  | .queryReportReady t choice => Sys2Proof.Machine.execQueryReportReady t choice s
  | .tlbinvComplete idx => Sys2Proof.Machine.execTlbinvComplete idx s
  | .capturePreimageWritten slot page => Sys2Proof.Machine.execCapturePreimageWritten slot page s
  | .snapshotWrite core => Sys2Proof.Machine.execSnapshotWrite core s
  | .heartbeatTimeout d => Sys2Proof.Machine.execHeartbeatTimeout d s
  | .watchdogTimeout d => Sys2Proof.Machine.execWatchdogTimeout d s
  | .uncorrectableError p => Sys2Proof.Machine.execUncorrectableError p s
  | .correctableError src count => Sys2Proof.Machine.execCorrectableError src count s
  | .domainFailed d reason => Sys2Proof.Machine.execDomainFailed d reason s
  | .reeveLockstepMismatch => Sys2Proof.Machine.execReeveLockstepMismatch s
  | .safetyFrameRepeat => Sys2Proof.Machine.execSafetyFrameRepeat s
  | .safetyTxReady req slot => Sys2Proof.Machine.execSafetyTxReady req slot s
  | .safetyTxComplete slot status => Sys2Proof.Machine.execSafetyTxComplete slot status s
  | .safetyRxFrame ctl f => Sys2Proof.Machine.execSafetyRxFrame ctl f s
  | .debugStop req d => Sys2Proof.Machine.execDebugStop req d s
  | .debugStep req d => Sys2Proof.Machine.execDebugStep req d s
  | .debugRun req d => Sys2Proof.Machine.execDebugRun req d s
  | .traceRpWrite req part v => Sys2Proof.Machine.execTraceRpWrite req part v s
  | .traceDescriptorWrite req part bytes => Sys2Proof.Machine.execTraceDescriptorWrite req part bytes s
  | .queueConfigure req q bytes => Sys2Proof.Machine.execQueueConfigure req q bytes s
  | .queueClose req q => Sys2Proof.Machine.execQueueClose req q s
  | .ingressFrameEnd port vc => Sys2Proof.Machine.execIngressFrameEnd port vc s
  | .ingressEventPacket port vc events => Sys2Proof.Machine.execIngressEventPacket port vc events s
  | .ingressChannelEnable req port vc bytes => Sys2Proof.Machine.execIngressChannelEnable req port vc bytes s
  | .regionEntryApply req idx last => Sys2Proof.Machine.execRegionEntryApply req idx last s
  | .partitionEntryApply req idx ctrl => Sys2Proof.Machine.execPartitionEntryApply req idx ctrl s
  | .hartPartitionWrite req hart v => Sys2Proof.Machine.execHartPartitionWrite req hart v s
  | .invalidateWindowVa req asid => Sys2Proof.Machine.execInvalidateWindowVa req asid s
  | .invalidateWindowAsid req asid => Sys2Proof.Machine.execInvalidateWindowAsid req asid s
  | .invalidateWindowAll req => Sys2Proof.Machine.execInvalidateWindowAll req s
  | .attest req => Sys2Proof.Machine.execAttest req s
  | .extend req reg => Sys2Proof.Machine.execExtend req reg s
  | .attestComplete => Sys2Proof.Machine.execAttestComplete s
  | .pcieInboundRequest pa k => Sys2Proof.Machine.execPcieInboundRequest pa k s
  | .pcieLinkChange up rate lanes => Sys2Proof.Machine.execPcieLinkChange up rate lanes s
  | .ethTailWrite req mac tx ring v => Sys2Proof.Machine.execEthTailWrite req mac tx ring v s
  | .ethTxComplete mac ring => Sys2Proof.Machine.execEthTxComplete mac ring s
  | .ethRxFrame mac frame fcsOk => Sys2Proof.Machine.execEthRxFrame mac frame fcsOk s
  | .ethLinkChange mac up => Sys2Proof.Machine.execEthLinkChange mac up s
  | .heartbeat d => Sys2Proof.Machine.execHeartbeat d s
  | .hintinvComplete t => Sys2Proof.Machine.execHintinvComplete t s
  | .hartMemoryAccess h pa k => Sys2Proof.Machine.execHartMemoryAccess h pa k s
  | .csi2Packet port p => Sys2Proof.Machine.execCsi2Packet port p s

end Sys2Proof.Machine
end

