-- ==== Sys2Proof/Machine/Hardware.lean ====
section
/-!
DEFINITION. What an entry of the schedule that is no event of the opcode table does (log 1).
-/
namespace Sys2Proof.Machine

/-- What the DRAM holds of a sector changed (R403): a secure sector reads as its new contents where the tag is that of its ciphertext at its
address under the integrity key, and fails otherwise. -/
def State.changeDram (s : State) (k : Nat) (bs : List Byte) (tag : BitVec 32) : State :=
  let m := writeBytes s.mem (k * 64) bs
  let c := s.cipherSector m k
  if !s.secure (k * 64) then { s with mem := m, sealed := s.sealed.filter (· != k) }
  else if tag = Config.integrityTag (Config.integrityKey s.reeve.boots) c (k * 64) then { s with mem := m, sealed := insertNat s.sealed k }
  else { s with mem := writeBytes m (k * 64) c, sealed := s.sealed.filter (· != k) }

/-- An act of hardware that the spec leaves free in time (log 1): a line, translation or hint leaves (R246, R396, R214), the flash is
written, a defect arises, a target takes AtomicOps or no more (R262), or a sector of DRAM is changed: its tag no longer fits and it reads as
INTEGRITY poison, unless its earlier contents came back whole (R403; log 141). -/
def State.hardware (s : State) (a : Act) : State :=
  match a with
  | .event _ => s
  | .evictLine d i =>
    match (s.eng d).l1[i]? with
    | some l => (s.writeBack l).modEng d fun e => { e with l1 := dropAt e.l1 i }
    | none => s
  | .evictTlb n i => { s with iso := { s.iso with tlbs := mset [] s.iso.tlbs n (dropAt (mget [] s.iso.tlbs n) i) } }
  | .evictWalk n i => { s with iso := { s.iso with walks := mset [] s.iso.walks n (dropAt (mget [] s.iso.walks n) i) } }
  | .evictHint u i => s.modUnit u fun v => { v with hints := dropAt v.hints i }
  | .flash cells => { s with flash := cells.foldl (fun m c => setByte m c.1 c.2) s.flash }
  | .peerAtomic p ok =>
    let l := s.bnd.noAtomic.filter (· != p)
    { s with bnd := { s.bnd with noAtomic := if ok then l else insertNat l p } }
  | .dram k bs tag => s.changeDram k ((bs ++ zeros 64).take 64) tag
  | .timeSource src => s.setReference src
  | .trainBegin => s.beginTraining
  | .ptpSend msg => s.sendPtp msg
  | .replay n va units => s.submitReplay n va units
  | .defect c x => { s with defects := mset noFaults s.defects c (joinFaults (mget noFaults s.defects c) x) }

end Sys2Proof.Machine
end

