-- ==== Sys2Proof/Machine/Step.lean ====
section
/-!
DEFINITION. One step of the device: a write of a control register that an engine's store has made, else a captured page's pre-image that is
due, else the next fetched word of the cycle under way, or else the next entry of the schedule (log 1, log 2).
-/
namespace Sys2Proof.Machine

/-- The frames that a state's jobs have touched first, as those of another state. -/
def State.withTouched (s t : State) : State :=
  { s with beadle := { s.beadle with slots := s.beadle.slots.map fun e => (e.1, e.2.map fun z =>
      { z with touched := ((t.slot e.1).map (·.touched)).getD z.touched }) } }

/-- An act whose accesses touch frames first does not take place before their pre-images are written (R328): the state stays as it is before
it, with those pre-images due, and the act is made again. -/
def awaitFrames (before : State) (o : Host.Outcome State Fault Refusal) : Host.Outcome State Fault Refusal :=
  match o with
  | .next t => if t.preimage.isSome then .next (before.withTouched t) else .next t
  | o => o

/-- One step: writes of control registers first, then effects that marks held back for them (R244), pre-images due (R328), the words of the
cycle under way, and the schedule. -/
def step (s : State) : Host.Outcome State Fault Refusal :=
  match s.posted with
  | w :: rest => exec (.registerWrite w.1 w.2.1 w.2.2) { s with posted := rest }
  | [] =>
    match s.marked with
    | _ :: _ => .next s.releaseMarked
    | [] =>
    match s.preimage with
    | some p => execCapturePreimageWritten p.1 (BitVec.ofNat 64 p.2) s
    | none =>
      match s.latch with
      | f :: rest =>
        match s.ready f rest with
        | .op i s' => awaitFrames s (settleOut f.agent (exec i s'))
        | .skip s' => .next (s'.settle f.agent)
      | [] =>
        match s.inputs with
        | x :: rest =>
          match x.act with
          | .event i =>
            if s.powered i then awaitFrames (s.take x ({ x with dt := 0 } :: rest)) (exec i (s.take x rest)) else .next (s.take x rest)
          | a => .next ((s.take x rest).hardware a)
        | [] => .next s.idle

/-- The state with a word of the opcode table as the next to execute (log 15). -/
def State.withFetchWord (s : State) (nbits w : Nat) : State := s.placeWord nbits w

end Sys2Proof.Machine
end

