-- ==== Sys2Proof/Laws/Sparse.lean ====
section
/-!
SUPPORT. Sparse data: a write is read back, other keys stand, and every write keeps the canonical form; the same for bytes and runs of
bytes.
-/

-- One thread: many threads' stacks outgrow the memory the check gives.
set_option Elab.async false

namespace Sys2Proof.Machine

variable {β : Type}

@[simp] theorem mget_nil (d : β) (k : Nat) : mget d [] k = d := rfl

theorem mget_cons (d : β) (j : Nat) (b : β) (t : Map β) (k : Nat) : mget d ((j, b) :: t) k = if j = k then b else mget d t k := rfl

@[simp] theorem mget_merase_same (d : β) (m : Map β) (k : Nat) : mget d (merase m k) k = d := by
  induction m with
  | nil => rfl
  | cons e t ih => obtain ⟨j, b⟩ := e; by_cases h : j = k <;> simp [merase, mget, h, ih]

theorem mget_merase_ne (d : β) (m : Map β) {k q : Nat} (h : k ≠ q) : mget d (merase m k) q = mget d m q := by
  induction m with
  | nil => rfl
  | cons e t ih =>
    obtain ⟨j, b⟩ := e
    by_cases hj : j = k
    · subst hj; simp [merase, mget, h, ih]
    · simp [merase, mget, hj, ih]

theorem mget_minsert_ne (d : β) (m : Map β) {k q : Nat} (b : β) (h : k ≠ q) : mget d (minsert m k b) q = mget d m q := by
  induction m with
  | nil => simp [minsert, mget, h]
  | cons e t ih =>
    obtain ⟨j, c⟩ := e
    by_cases hj : k < j
    · simp [minsert, mget, hj, h]
    · simp [minsert, mget, hj, ih]

theorem mget_minsert_same (d : β) (m : Map β) (k : Nat) (b : β) : mget d (minsert (merase m k) k b) k = b := by
  induction m with
  | nil => simp [merase, minsert, mget]
  | cons e t ih =>
    obtain ⟨j, c⟩ := e
    by_cases hj : j = k
    · simp [merase, hj, ih]
    · by_cases hk : k < j
      · simp [merase, minsert, mget, hj, hk]
      · simp [merase, minsert, mget, hj, hk, ih]

/-- A write is read back. -/
@[simp] theorem mget_mset_same [DecidableEq β] (d : β) (m : Map β) (k : Nat) (b : β) : mget d (mset d m k b) k = b := by
  by_cases h : b = d
  · simp [mset, h]
  · simp [mset, h, mget_minsert_same]

/-- Other keys stand. -/
theorem mget_mset_ne [DecidableEq β] (d : β) (m : Map β) {k q : Nat} (b : β) (h : k ≠ q) : mget d (mset d m k b) q = mget d m q := by
  by_cases hb : b = d
  · simp [mset, hb, mget_merase_ne d m h]
  · simp [mset, hb, mget_minsert_ne d _ b h, mget_merase_ne d m h]

theorem mget_mset [DecidableEq β] (d : β) (m : Map β) (k q : Nat) (b : β) : mget d (mset d m k b) q = if k = q then b else mget d m q := by
  by_cases h : k = q
  · subst h; simp
  · simp [h, mget_mset_ne d m b h]

/-! ### The canonical form -/

theorem risingFrom_mono {m : Map β} {lo lo' : Nat} (h : risingFrom lo m = true) (hl : lo' ≤ lo) : risingFrom lo' m = true := by
  cases m with
  | nil => rfl
  | cons e t => obtain ⟨j, b⟩ := e; simp only [risingFrom, Bool.and_eq_true, decide_eq_true_eq] at *; exact ⟨by omega, h.2⟩

theorem risingFrom_merase {m : Map β} {lo : Nat} (k : Nat) (h : risingFrom lo m = true) : risingFrom lo (merase m k) = true := by
  induction m generalizing lo with
  | nil => rfl
  | cons e t ih =>
    obtain ⟨j, b⟩ := e
    simp only [risingFrom, Bool.and_eq_true, decide_eq_true_eq] at h
    by_cases hj : j = k
    · simp only [merase, hj, if_true]; exact risingFrom_mono (ih h.2) (by omega)
    · simp only [merase, hj, if_false, risingFrom, Bool.and_eq_true, decide_eq_true_eq]; exact ⟨h.1, ih h.2⟩

theorem risingFrom_minsert {m : Map β} {lo k : Nat} (b : β) (hk : lo ≤ k) (h : risingFrom lo m = true) :
    risingFrom lo (minsert (merase m k) k b) = true := by
  induction m generalizing lo with
  | nil => simp [merase, minsert, risingFrom, hk]
  | cons e t ih =>
    obtain ⟨j, c⟩ := e
    simp only [risingFrom, Bool.and_eq_true, decide_eq_true_eq] at h
    by_cases hj : j = k
    · subst hj
      simp only [merase, if_true]
      have := risingFrom_mono (lo' := lo) h.2 (by omega)
      exact ih (by omega) this
    · by_cases hkj : k < j
      · simp only [merase, hj, if_false, minsert, hkj, if_true, risingFrom, Bool.and_eq_true, decide_eq_true_eq]
        exact ⟨hk, by omega, risingFrom_merase k h.2⟩
      · simp only [merase, hj, if_false, minsert, hkj, risingFrom, Bool.and_eq_true, decide_eq_true_eq]
        exact ⟨h.1, ih (by omega) h.2⟩

theorem noDefault_merase [DecidableEq β] {d : β} {m : Map β} (k : Nat) (h : noDefault d m = true) : noDefault d (merase m k) = true := by
  induction m with
  | nil => rfl
  | cons e t ih =>
    obtain ⟨j, b⟩ := e
    simp only [noDefault, Bool.and_eq_true] at h
    by_cases hj : j = k
    · simp only [merase, hj, if_true]; exact ih h.2
    · simp only [merase, hj, if_false, noDefault, Bool.and_eq_true]; exact ⟨h.1, ih h.2⟩

theorem noDefault_minsert [DecidableEq β] {d : β} {m : Map β} (k : Nat) {b : β} (hb : b ≠ d) (h : noDefault d m = true) :
    noDefault d (minsert m k b) = true := by
  induction m with
  | nil => simp [minsert, noDefault, hb]
  | cons e t ih =>
    obtain ⟨j, c⟩ := e
    by_cases hk : k < j
    · simp only [minsert, hk, if_true, noDefault, Bool.and_eq_true] at *; exact ⟨by simp [hb], h⟩
    · simp only [minsert, hk, if_false, noDefault, Bool.and_eq_true] at *; exact ⟨h.1, ih h.2⟩

/-- A write keeps the canonical form. -/
theorem mwf_mset [DecidableEq β] {d : β} {m : Map β} (k : Nat) (b : β) (h : mwf d m = true) : mwf d (mset d m k b) = true := by
  simp only [mwf, Bool.and_eq_true] at *
  by_cases hb : b = d
  · simp only [mset, hb, if_true]; exact ⟨risingFrom_merase k h.1, noDefault_merase k h.2⟩
  · simp only [mset, hb, if_false]
    exact ⟨risingFrom_minsert b (Nat.zero_le k) h.1, noDefault_minsert k hb (noDefault_merase k h.2)⟩

theorem risingFrom_filter {m : Map β} {lo : Nat} (p : Nat × β → Bool) (h : risingFrom lo m = true) : risingFrom lo (m.filter p) = true := by
  induction m generalizing lo with
  | nil => rfl
  | cons e t ih =>
    obtain ⟨j, b⟩ := e
    simp only [risingFrom, Bool.and_eq_true, decide_eq_true_eq] at h
    by_cases hp : p (j, b) = true
    · simp only [List.filter, hp, risingFrom, Bool.and_eq_true, decide_eq_true_eq]; exact ⟨h.1, ih h.2⟩
    · simp only [List.filter, hp]; exact risingFrom_mono (ih h.2) (by omega)

theorem noDefault_filter [DecidableEq β] {d : β} {m : Map β} (p : Nat × β → Bool) (h : noDefault d m = true) :
    noDefault d (m.filter p) = true := by
  induction m with
  | nil => rfl
  | cons e t ih =>
    obtain ⟨j, b⟩ := e
    simp only [noDefault, Bool.and_eq_true] at h
    by_cases hp : p (j, b) = true
    · simp only [List.filter, hp, noDefault, Bool.and_eq_true]; exact ⟨h.1, ih h.2⟩
    · simp only [List.filter, hp]; exact ih h.2

/-! ### Bytes -/

@[simp] theorem byteAt_setByte_same (m : List Host.Cell) (a : Nat) (b : Byte) : byteAt (setByte m a b) a = b := mget_mset_same 0 m a b

theorem byteAt_setByte_ne (m : List Host.Cell) {a q : Nat} (b : Byte) (h : a ≠ q) : byteAt (setByte m a b) q = byteAt m q :=
  mget_mset_ne 0 m b h

theorem byteAt_setByte (m : List Host.Cell) (a q : Nat) (b : Byte) : byteAt (setByte m a b) q = if a = q then b else byteAt m q :=
  mget_mset 0 m a q b

/-- A byte write keeps the canonical form. -/
theorem setByte_wf {m : List Host.Cell} (a : Nat) (b : Byte) (h : Memory.wf m = true) : Memory.wf (setByte m a b) = true := mwf_mset a b h

/-- A run of bytes written keeps the canonical form. -/
theorem writeBytes_wf {m : List Host.Cell} (a : Nat) (bs : List Byte) (h : Memory.wf m = true) : Memory.wf (writeBytes m a bs) = true := by
  induction bs generalizing m a with
  | nil => exact h
  | cons b bs ih => exact ih (a + 1) (setByte_wf a b h)

/-- Cells written one by one keep the canonical form. -/
theorem setCells_wf {m : List Host.Cell} (cells : List Host.Cell) (h : Memory.wf m = true) :
    Memory.wf (cells.foldl (fun m c => setByte m c.1 c.2) m) = true := by
  induction cells generalizing m with
  | nil => exact h
  | cons c cs ih => exact ih (setByte_wf c.1 c.2 h)

/-- A cleared range keeps the canonical form. -/
theorem clearRange_wf {m : List Host.Cell} (lo n : Nat) (h : Memory.wf m = true) : Memory.wf (clearRange m lo n) = true := by
  simp only [Memory.wf, mwf, Bool.and_eq_true] at *
  exact ⟨risingFrom_filter _ h.1, noDefault_filter _ h.2⟩

/-- What is left of a memory keeps the canonical form. -/
theorem filter_wf {m : List Host.Cell} (p : Host.Cell → Bool) (h : Memory.wf m = true) : Memory.wf (m.filter p) = true := by
  simp only [Memory.wf, mwf, Bool.and_eq_true] at *
  exact ⟨risingFrom_filter _ h.1, noDefault_filter _ h.2⟩

/-- Bytes outside a run that is written stand. -/
theorem byteAt_writeBytes_out (m : List Host.Cell) (a : Nat) (bs : List Byte) (q : Nat) (h : q < a ∨ a + bs.length ≤ q) :
    byteAt (writeBytes m a bs) q = byteAt m q := by
  induction bs generalizing m a with
  | nil => rfl
  | cons b bs ih =>
    simp only [List.length_cons] at h
    simp only [writeBytes]
    rw [ih _ _ (by omega), byteAt_setByte_ne _ _ (by omega)]

/-- Byte i of a run that is written reads back. -/
theorem byteAt_writeBytes_in (m : List Host.Cell) (a : Nat) (bs : List Byte) (i : Nat) (h : i < bs.length) :
    byteAt (writeBytes m a bs) (a + i) = bs[i] := by
  induction bs generalizing m a i with
  | nil => simp at h
  | cons b bs ih =>
    cases i with
    | zero => simp only [writeBytes, Nat.add_zero]; rw [byteAt_writeBytes_out _ _ _ _ (by omega)]; simp
    | succ i =>
      simp only [writeBytes]
      have := ih (setByte m a b) (a + 1) i (by simpa using h)
      rw [show a + (i + 1) = a + 1 + i by omega, this]; simp

/-- Bytes at no written cell stand. -/
theorem byteAt_setCells_out (m : List Host.Cell) (cells : List Host.Cell) (q : Nat) (h : ∀ c ∈ cells, c.1 ≠ q) :
    byteAt (cells.foldl (fun m c => setByte m c.1 c.2) m) q = byteAt m q := by
  induction cells generalizing m with
  | nil => rfl
  | cons c cs ih =>
    simp only [List.foldl_cons]
    rw [ih _ fun e he => h e (List.mem_cons_of_mem _ he), byteAt_setByte_ne _ _ (h c List.mem_cons_self)]

@[simp] theorem readBytes_length (m : List Host.Cell) (a n : Nat) : (readBytes m a n).length = n := by
  induction n generalizing a with
  | zero => rfl
  | succ n ih => simp [readBytes, ih]

/-- A run written is read back. -/
theorem readBytes_writeBytes (m : List Host.Cell) (a : Nat) (bs : List Byte) : readBytes (writeBytes m a bs) a bs.length = bs := by
  have key : ∀ (l : List Byte) (m' : List Host.Cell) (a' : Nat),
      (∀ i (h : i < l.length), byteAt m' (a' + i) = l[i]) → readBytes m' a' l.length = l := by
    intro l
    induction l with
    | nil => intros; rfl
    | cons b t ih =>
      intro m' a' h
      have h0 := h 0 (by simp)
      simp only [Nat.add_zero, List.getElem_cons_zero] at h0
      simp only [List.length_cons, readBytes, h0, List.cons.injEq, true_and]
      refine ih m' (a' + 1) fun i hi => ?_
      have := h (i + 1) (by simp only [List.length_cons]; omega)
      rw [show a' + 1 + i = a' + (i + 1) by omega, this]; simp
  exact key bs _ a fun i h => byteAt_writeBytes_in m a bs i h

theorem leBytes_length (n x : Nat) : (leBytes n x).length = n := by
  induction n generalizing x with
  | zero => rfl
  | succ n ih => simp [leBytes, ih]

/-- The little-endian bytes of a number read back as it. -/
theorem leNat_leBytes (n x : Nat) : leNat (leBytes n x) = x % 256 ^ n := by
  induction n generalizing x with
  | zero => simp [leBytes, leNat, Nat.mod_one]
  | succ n ih =>
    simp only [leBytes, leNat, ih, BitVec.toNat_ofNat]
    rw [show (256 : Nat) ^ (n + 1) = 256 * 256 ^ n by rw [Nat.pow_succ]; omega, Nat.mod_mul]

end Sys2Proof.Machine
end

