-- ==== Sys2Proof/Laws/State.lean ====
section
/-!
SUPPORT. One lemma per field of State for each named update, and what the readers of cores, units, groups, threads, engines and slots see
after it; so that no proof unfolds a record update.
-/
namespace Sys2Proof.Machine

/-! ### Fields -/

@[simp] theorem State.setCore_ptime (s : State) (c : Nat) (x : Core) : (s.setCore c x).ptime = s.ptime := rfl
@[simp] theorem State.setCore_cores (s : State) (c : Nat) (x : Core) : (s.setCore c x).cores = mset Core.reset s.cores c x := rfl
@[simp] theorem State.setCore_units (s : State) (c : Nat) (x : Core) : (s.setCore c x).units = s.units := rfl
@[simp] theorem State.setCore_mem (s : State) (c : Nat) (x : Core) : (s.setCore c x).mem = s.mem := rfl
@[simp] theorem State.setCore_poisoned (s : State) (c : Nat) (x : Core) : (s.setCore c x).poisoned = s.poisoned := rfl
@[simp] theorem State.setCore_sealed (s : State) (c : Nat) (x : Core) : (s.setCore c x).sealed = s.sealed := rfl
@[simp] theorem State.setCore_flash (s : State) (c : Nat) (x : Core) : (s.setCore c x).flash = s.flash := rfl
@[simp] theorem State.setCore_queues (s : State) (c : Nat) (x : Core) : (s.setCore c x).queues = s.queues := rfl
@[simp] theorem State.setCore_reeve (s : State) (c : Nat) (x : Core) : (s.setCore c x).reeve = s.reeve := rfl
@[simp] theorem State.setCore_beadle (s : State) (c : Nat) (x : Core) : (s.setCore c x).beadle = s.beadle := rfl
@[simp] theorem State.setCore_iso (s : State) (c : Nat) (x : Core) : (s.setCore c x).iso = s.iso := rfl
@[simp] theorem State.setCore_hedge (s : State) (c : Nat) (x : Core) : (s.setCore c x).hedge = s.hedge := rfl
@[simp] theorem State.setCore_bnd (s : State) (c : Nat) (x : Core) : (s.setCore c x).bnd = s.bnd := rfl
@[simp] theorem State.setCore_defects (s : State) (c : Nat) (x : Core) : (s.setCore c x).defects = s.defects := rfl
@[simp] theorem State.setCore_dieClock (s : State) (c : Nat) (x : Core) : (s.setCore c x).dieClock = s.dieClock := rfl
@[simp] theorem State.setCore_inputs (s : State) (c : Nat) (x : Core) : (s.setCore c x).inputs = s.inputs := rfl
@[simp] theorem State.setCore_posted (s : State) (c : Nat) (x : Core) : (s.setCore c x).posted = s.posted := rfl
@[simp] theorem State.setCore_marked (s : State) (c : Nat) (x : Core) : (s.setCore c x).marked = s.marked := rfl
@[simp] theorem State.setCore_latch (s : State) (c : Nat) (x : Core) : (s.setCore c x).latch = s.latch := rfl
@[simp] theorem State.setCore_cur (s : State) (c : Nat) (x : Core) : (s.setCore c x).cur = s.cur := rfl
@[simp] theorem State.setCore_free (s : State) (c : Nat) (x : Core) : (s.setCore c x).free = s.free := rfl
@[simp] theorem State.setCore_deferred (s : State) (c : Nat) (x : Core) : (s.setCore c x).deferred = s.deferred := rfl
@[simp] theorem State.setCore_aborted (s : State) (c : Nat) (x : Core) : (s.setCore c x).aborted = s.aborted := rfl
@[simp] theorem State.modCore_ptime (s : State) (c : Nat) (f : Core → Core) : (s.modCore c f).ptime = s.ptime := rfl
@[simp] theorem State.modCore_cores (s : State) (c : Nat) (f : Core → Core) : (s.modCore c f).cores = mset Core.reset s.cores c (f (s.core c)) := rfl
@[simp] theorem State.modCore_units (s : State) (c : Nat) (f : Core → Core) : (s.modCore c f).units = s.units := rfl
@[simp] theorem State.modCore_mem (s : State) (c : Nat) (f : Core → Core) : (s.modCore c f).mem = s.mem := rfl
@[simp] theorem State.modCore_poisoned (s : State) (c : Nat) (f : Core → Core) : (s.modCore c f).poisoned = s.poisoned := rfl
@[simp] theorem State.modCore_sealed (s : State) (c : Nat) (f : Core → Core) : (s.modCore c f).sealed = s.sealed := rfl
@[simp] theorem State.modCore_flash (s : State) (c : Nat) (f : Core → Core) : (s.modCore c f).flash = s.flash := rfl
@[simp] theorem State.modCore_queues (s : State) (c : Nat) (f : Core → Core) : (s.modCore c f).queues = s.queues := rfl
@[simp] theorem State.modCore_reeve (s : State) (c : Nat) (f : Core → Core) : (s.modCore c f).reeve = s.reeve := rfl
@[simp] theorem State.modCore_beadle (s : State) (c : Nat) (f : Core → Core) : (s.modCore c f).beadle = s.beadle := rfl
@[simp] theorem State.modCore_iso (s : State) (c : Nat) (f : Core → Core) : (s.modCore c f).iso = s.iso := rfl
@[simp] theorem State.modCore_hedge (s : State) (c : Nat) (f : Core → Core) : (s.modCore c f).hedge = s.hedge := rfl
@[simp] theorem State.modCore_bnd (s : State) (c : Nat) (f : Core → Core) : (s.modCore c f).bnd = s.bnd := rfl
@[simp] theorem State.modCore_defects (s : State) (c : Nat) (f : Core → Core) : (s.modCore c f).defects = s.defects := rfl
@[simp] theorem State.modCore_dieClock (s : State) (c : Nat) (f : Core → Core) : (s.modCore c f).dieClock = s.dieClock := rfl
@[simp] theorem State.modCore_inputs (s : State) (c : Nat) (f : Core → Core) : (s.modCore c f).inputs = s.inputs := rfl
@[simp] theorem State.modCore_posted (s : State) (c : Nat) (f : Core → Core) : (s.modCore c f).posted = s.posted := rfl
@[simp] theorem State.modCore_marked (s : State) (c : Nat) (f : Core → Core) : (s.modCore c f).marked = s.marked := rfl
@[simp] theorem State.modCore_latch (s : State) (c : Nat) (f : Core → Core) : (s.modCore c f).latch = s.latch := rfl
@[simp] theorem State.modCore_cur (s : State) (c : Nat) (f : Core → Core) : (s.modCore c f).cur = s.cur := rfl
@[simp] theorem State.modCore_free (s : State) (c : Nat) (f : Core → Core) : (s.modCore c f).free = s.free := rfl
@[simp] theorem State.modCore_deferred (s : State) (c : Nat) (f : Core → Core) : (s.modCore c f).deferred = s.deferred := rfl
@[simp] theorem State.modCore_aborted (s : State) (c : Nat) (f : Core → Core) : (s.modCore c f).aborted = s.aborted := rfl
@[simp] theorem State.modArch_ptime (s : State) (c : Nat) (f : Arch → Arch) : (s.modArch c f).ptime = s.ptime := rfl
@[simp] theorem State.modArch_units (s : State) (c : Nat) (f : Arch → Arch) : (s.modArch c f).units = s.units := rfl
@[simp] theorem State.modArch_mem (s : State) (c : Nat) (f : Arch → Arch) : (s.modArch c f).mem = s.mem := rfl
@[simp] theorem State.modArch_poisoned (s : State) (c : Nat) (f : Arch → Arch) : (s.modArch c f).poisoned = s.poisoned := rfl
@[simp] theorem State.modArch_sealed (s : State) (c : Nat) (f : Arch → Arch) : (s.modArch c f).sealed = s.sealed := rfl
@[simp] theorem State.modArch_flash (s : State) (c : Nat) (f : Arch → Arch) : (s.modArch c f).flash = s.flash := rfl
@[simp] theorem State.modArch_queues (s : State) (c : Nat) (f : Arch → Arch) : (s.modArch c f).queues = s.queues := rfl
@[simp] theorem State.modArch_reeve (s : State) (c : Nat) (f : Arch → Arch) : (s.modArch c f).reeve = s.reeve := rfl
@[simp] theorem State.modArch_beadle (s : State) (c : Nat) (f : Arch → Arch) : (s.modArch c f).beadle = s.beadle := rfl
@[simp] theorem State.modArch_iso (s : State) (c : Nat) (f : Arch → Arch) : (s.modArch c f).iso = s.iso := rfl
@[simp] theorem State.modArch_hedge (s : State) (c : Nat) (f : Arch → Arch) : (s.modArch c f).hedge = s.hedge := rfl
@[simp] theorem State.modArch_bnd (s : State) (c : Nat) (f : Arch → Arch) : (s.modArch c f).bnd = s.bnd := rfl
@[simp] theorem State.modArch_defects (s : State) (c : Nat) (f : Arch → Arch) : (s.modArch c f).defects = s.defects := rfl
@[simp] theorem State.modArch_dieClock (s : State) (c : Nat) (f : Arch → Arch) : (s.modArch c f).dieClock = s.dieClock := rfl
@[simp] theorem State.modArch_inputs (s : State) (c : Nat) (f : Arch → Arch) : (s.modArch c f).inputs = s.inputs := rfl
@[simp] theorem State.modArch_posted (s : State) (c : Nat) (f : Arch → Arch) : (s.modArch c f).posted = s.posted := rfl
@[simp] theorem State.modArch_marked (s : State) (c : Nat) (f : Arch → Arch) : (s.modArch c f).marked = s.marked := rfl
@[simp] theorem State.modArch_latch (s : State) (c : Nat) (f : Arch → Arch) : (s.modArch c f).latch = s.latch := rfl
@[simp] theorem State.modArch_cur (s : State) (c : Nat) (f : Arch → Arch) : (s.modArch c f).cur = s.cur := rfl
@[simp] theorem State.modArch_free (s : State) (c : Nat) (f : Arch → Arch) : (s.modArch c f).free = s.free := rfl
@[simp] theorem State.modArch_deferred (s : State) (c : Nat) (f : Arch → Arch) : (s.modArch c f).deferred = s.deferred := rfl
@[simp] theorem State.modArch_aborted (s : State) (c : Nat) (f : Arch → Arch) : (s.modArch c f).aborted = s.aborted := rfl
@[simp] theorem State.setUnit_ptime (s : State) (u : Nat) (x : VUnit) : (s.setUnit u x).ptime = s.ptime := rfl
@[simp] theorem State.setUnit_cores (s : State) (u : Nat) (x : VUnit) : (s.setUnit u x).cores = s.cores := rfl
@[simp] theorem State.setUnit_units (s : State) (u : Nat) (x : VUnit) : (s.setUnit u x).units = mset VUnit.reset s.units u x := rfl
@[simp] theorem State.setUnit_mem (s : State) (u : Nat) (x : VUnit) : (s.setUnit u x).mem = s.mem := rfl
@[simp] theorem State.setUnit_poisoned (s : State) (u : Nat) (x : VUnit) : (s.setUnit u x).poisoned = s.poisoned := rfl
@[simp] theorem State.setUnit_sealed (s : State) (u : Nat) (x : VUnit) : (s.setUnit u x).sealed = s.sealed := rfl
@[simp] theorem State.setUnit_flash (s : State) (u : Nat) (x : VUnit) : (s.setUnit u x).flash = s.flash := rfl
@[simp] theorem State.setUnit_queues (s : State) (u : Nat) (x : VUnit) : (s.setUnit u x).queues = s.queues := rfl
@[simp] theorem State.setUnit_reeve (s : State) (u : Nat) (x : VUnit) : (s.setUnit u x).reeve = s.reeve := rfl
@[simp] theorem State.setUnit_beadle (s : State) (u : Nat) (x : VUnit) : (s.setUnit u x).beadle = s.beadle := rfl
@[simp] theorem State.setUnit_iso (s : State) (u : Nat) (x : VUnit) : (s.setUnit u x).iso = s.iso := rfl
@[simp] theorem State.setUnit_hedge (s : State) (u : Nat) (x : VUnit) : (s.setUnit u x).hedge = s.hedge := rfl
@[simp] theorem State.setUnit_bnd (s : State) (u : Nat) (x : VUnit) : (s.setUnit u x).bnd = s.bnd := rfl
@[simp] theorem State.setUnit_defects (s : State) (u : Nat) (x : VUnit) : (s.setUnit u x).defects = s.defects := rfl
@[simp] theorem State.setUnit_dieClock (s : State) (u : Nat) (x : VUnit) : (s.setUnit u x).dieClock = s.dieClock := rfl
@[simp] theorem State.setUnit_inputs (s : State) (u : Nat) (x : VUnit) : (s.setUnit u x).inputs = s.inputs := rfl
@[simp] theorem State.setUnit_posted (s : State) (u : Nat) (x : VUnit) : (s.setUnit u x).posted = s.posted := rfl
@[simp] theorem State.setUnit_marked (s : State) (u : Nat) (x : VUnit) : (s.setUnit u x).marked = s.marked := rfl
@[simp] theorem State.setUnit_latch (s : State) (u : Nat) (x : VUnit) : (s.setUnit u x).latch = s.latch := rfl
@[simp] theorem State.setUnit_cur (s : State) (u : Nat) (x : VUnit) : (s.setUnit u x).cur = s.cur := rfl
@[simp] theorem State.setUnit_free (s : State) (u : Nat) (x : VUnit) : (s.setUnit u x).free = s.free := rfl
@[simp] theorem State.setUnit_deferred (s : State) (u : Nat) (x : VUnit) : (s.setUnit u x).deferred = s.deferred := rfl
@[simp] theorem State.setUnit_aborted (s : State) (u : Nat) (x : VUnit) : (s.setUnit u x).aborted = s.aborted := rfl
@[simp] theorem State.modUnit_ptime (s : State) (u : Nat) (f : VUnit → VUnit) : (s.modUnit u f).ptime = s.ptime := rfl
@[simp] theorem State.modUnit_cores (s : State) (u : Nat) (f : VUnit → VUnit) : (s.modUnit u f).cores = s.cores := rfl
@[simp] theorem State.modUnit_units (s : State) (u : Nat) (f : VUnit → VUnit) : (s.modUnit u f).units = mset VUnit.reset s.units u (f (s.unit u)) := rfl
@[simp] theorem State.modUnit_mem (s : State) (u : Nat) (f : VUnit → VUnit) : (s.modUnit u f).mem = s.mem := rfl
@[simp] theorem State.modUnit_poisoned (s : State) (u : Nat) (f : VUnit → VUnit) : (s.modUnit u f).poisoned = s.poisoned := rfl
@[simp] theorem State.modUnit_sealed (s : State) (u : Nat) (f : VUnit → VUnit) : (s.modUnit u f).sealed = s.sealed := rfl
@[simp] theorem State.modUnit_flash (s : State) (u : Nat) (f : VUnit → VUnit) : (s.modUnit u f).flash = s.flash := rfl
@[simp] theorem State.modUnit_queues (s : State) (u : Nat) (f : VUnit → VUnit) : (s.modUnit u f).queues = s.queues := rfl
@[simp] theorem State.modUnit_reeve (s : State) (u : Nat) (f : VUnit → VUnit) : (s.modUnit u f).reeve = s.reeve := rfl
@[simp] theorem State.modUnit_beadle (s : State) (u : Nat) (f : VUnit → VUnit) : (s.modUnit u f).beadle = s.beadle := rfl
@[simp] theorem State.modUnit_iso (s : State) (u : Nat) (f : VUnit → VUnit) : (s.modUnit u f).iso = s.iso := rfl
@[simp] theorem State.modUnit_hedge (s : State) (u : Nat) (f : VUnit → VUnit) : (s.modUnit u f).hedge = s.hedge := rfl
@[simp] theorem State.modUnit_bnd (s : State) (u : Nat) (f : VUnit → VUnit) : (s.modUnit u f).bnd = s.bnd := rfl
@[simp] theorem State.modUnit_defects (s : State) (u : Nat) (f : VUnit → VUnit) : (s.modUnit u f).defects = s.defects := rfl
@[simp] theorem State.modUnit_dieClock (s : State) (u : Nat) (f : VUnit → VUnit) : (s.modUnit u f).dieClock = s.dieClock := rfl
@[simp] theorem State.modUnit_inputs (s : State) (u : Nat) (f : VUnit → VUnit) : (s.modUnit u f).inputs = s.inputs := rfl
@[simp] theorem State.modUnit_posted (s : State) (u : Nat) (f : VUnit → VUnit) : (s.modUnit u f).posted = s.posted := rfl
@[simp] theorem State.modUnit_marked (s : State) (u : Nat) (f : VUnit → VUnit) : (s.modUnit u f).marked = s.marked := rfl
@[simp] theorem State.modUnit_latch (s : State) (u : Nat) (f : VUnit → VUnit) : (s.modUnit u f).latch = s.latch := rfl
@[simp] theorem State.modUnit_cur (s : State) (u : Nat) (f : VUnit → VUnit) : (s.modUnit u f).cur = s.cur := rfl
@[simp] theorem State.modUnit_free (s : State) (u : Nat) (f : VUnit → VUnit) : (s.modUnit u f).free = s.free := rfl
@[simp] theorem State.modUnit_deferred (s : State) (u : Nat) (f : VUnit → VUnit) : (s.modUnit u f).deferred = s.deferred := rfl
@[simp] theorem State.modUnit_aborted (s : State) (u : Nat) (f : VUnit → VUnit) : (s.modUnit u f).aborted = s.aborted := rfl
@[simp] theorem State.setGroup_ptime (s : State) (u g : Nat) (x : Group) : (s.setGroup u g x).ptime = s.ptime := rfl
@[simp] theorem State.setGroup_cores (s : State) (u g : Nat) (x : Group) : (s.setGroup u g x).cores = s.cores := rfl
@[simp] theorem State.setGroup_mem (s : State) (u g : Nat) (x : Group) : (s.setGroup u g x).mem = s.mem := rfl
@[simp] theorem State.setGroup_poisoned (s : State) (u g : Nat) (x : Group) : (s.setGroup u g x).poisoned = s.poisoned := rfl
@[simp] theorem State.setGroup_sealed (s : State) (u g : Nat) (x : Group) : (s.setGroup u g x).sealed = s.sealed := rfl
@[simp] theorem State.setGroup_flash (s : State) (u g : Nat) (x : Group) : (s.setGroup u g x).flash = s.flash := rfl
@[simp] theorem State.setGroup_queues (s : State) (u g : Nat) (x : Group) : (s.setGroup u g x).queues = s.queues := rfl
@[simp] theorem State.setGroup_reeve (s : State) (u g : Nat) (x : Group) : (s.setGroup u g x).reeve = s.reeve := rfl
@[simp] theorem State.setGroup_beadle (s : State) (u g : Nat) (x : Group) : (s.setGroup u g x).beadle = s.beadle := rfl
@[simp] theorem State.setGroup_iso (s : State) (u g : Nat) (x : Group) : (s.setGroup u g x).iso = s.iso := rfl
@[simp] theorem State.setGroup_hedge (s : State) (u g : Nat) (x : Group) : (s.setGroup u g x).hedge = s.hedge := rfl
@[simp] theorem State.setGroup_bnd (s : State) (u g : Nat) (x : Group) : (s.setGroup u g x).bnd = s.bnd := rfl
@[simp] theorem State.setGroup_defects (s : State) (u g : Nat) (x : Group) : (s.setGroup u g x).defects = s.defects := rfl
@[simp] theorem State.setGroup_dieClock (s : State) (u g : Nat) (x : Group) : (s.setGroup u g x).dieClock = s.dieClock := rfl
@[simp] theorem State.setGroup_inputs (s : State) (u g : Nat) (x : Group) : (s.setGroup u g x).inputs = s.inputs := rfl
@[simp] theorem State.setGroup_posted (s : State) (u g : Nat) (x : Group) : (s.setGroup u g x).posted = s.posted := rfl
@[simp] theorem State.setGroup_marked (s : State) (u g : Nat) (x : Group) : (s.setGroup u g x).marked = s.marked := rfl
@[simp] theorem State.setGroup_latch (s : State) (u g : Nat) (x : Group) : (s.setGroup u g x).latch = s.latch := rfl
@[simp] theorem State.setGroup_cur (s : State) (u g : Nat) (x : Group) : (s.setGroup u g x).cur = s.cur := rfl
@[simp] theorem State.setGroup_free (s : State) (u g : Nat) (x : Group) : (s.setGroup u g x).free = s.free := rfl
@[simp] theorem State.setGroup_deferred (s : State) (u g : Nat) (x : Group) : (s.setGroup u g x).deferred = s.deferred := rfl
@[simp] theorem State.setGroup_aborted (s : State) (u g : Nat) (x : Group) : (s.setGroup u g x).aborted = s.aborted := rfl
@[simp] theorem State.modGroup_ptime (s : State) (u g : Nat) (f : Group → Group) : (s.modGroup u g f).ptime = s.ptime := rfl
@[simp] theorem State.modGroup_cores (s : State) (u g : Nat) (f : Group → Group) : (s.modGroup u g f).cores = s.cores := rfl
@[simp] theorem State.modGroup_mem (s : State) (u g : Nat) (f : Group → Group) : (s.modGroup u g f).mem = s.mem := rfl
@[simp] theorem State.modGroup_poisoned (s : State) (u g : Nat) (f : Group → Group) : (s.modGroup u g f).poisoned = s.poisoned := rfl
@[simp] theorem State.modGroup_sealed (s : State) (u g : Nat) (f : Group → Group) : (s.modGroup u g f).sealed = s.sealed := rfl
@[simp] theorem State.modGroup_flash (s : State) (u g : Nat) (f : Group → Group) : (s.modGroup u g f).flash = s.flash := rfl
@[simp] theorem State.modGroup_queues (s : State) (u g : Nat) (f : Group → Group) : (s.modGroup u g f).queues = s.queues := rfl
@[simp] theorem State.modGroup_reeve (s : State) (u g : Nat) (f : Group → Group) : (s.modGroup u g f).reeve = s.reeve := rfl
@[simp] theorem State.modGroup_beadle (s : State) (u g : Nat) (f : Group → Group) : (s.modGroup u g f).beadle = s.beadle := rfl
@[simp] theorem State.modGroup_iso (s : State) (u g : Nat) (f : Group → Group) : (s.modGroup u g f).iso = s.iso := rfl
@[simp] theorem State.modGroup_hedge (s : State) (u g : Nat) (f : Group → Group) : (s.modGroup u g f).hedge = s.hedge := rfl
@[simp] theorem State.modGroup_bnd (s : State) (u g : Nat) (f : Group → Group) : (s.modGroup u g f).bnd = s.bnd := rfl
@[simp] theorem State.modGroup_defects (s : State) (u g : Nat) (f : Group → Group) : (s.modGroup u g f).defects = s.defects := rfl
@[simp] theorem State.modGroup_dieClock (s : State) (u g : Nat) (f : Group → Group) : (s.modGroup u g f).dieClock = s.dieClock := rfl
@[simp] theorem State.modGroup_inputs (s : State) (u g : Nat) (f : Group → Group) : (s.modGroup u g f).inputs = s.inputs := rfl
@[simp] theorem State.modGroup_posted (s : State) (u g : Nat) (f : Group → Group) : (s.modGroup u g f).posted = s.posted := rfl
@[simp] theorem State.modGroup_marked (s : State) (u g : Nat) (f : Group → Group) : (s.modGroup u g f).marked = s.marked := rfl
@[simp] theorem State.modGroup_latch (s : State) (u g : Nat) (f : Group → Group) : (s.modGroup u g f).latch = s.latch := rfl
@[simp] theorem State.modGroup_cur (s : State) (u g : Nat) (f : Group → Group) : (s.modGroup u g f).cur = s.cur := rfl
@[simp] theorem State.modGroup_free (s : State) (u g : Nat) (f : Group → Group) : (s.modGroup u g f).free = s.free := rfl
@[simp] theorem State.modGroup_deferred (s : State) (u g : Nat) (f : Group → Group) : (s.modGroup u g f).deferred = s.deferred := rfl
@[simp] theorem State.modGroup_aborted (s : State) (u g : Nat) (f : Group → Group) : (s.modGroup u g f).aborted = s.aborted := rfl
@[simp] theorem State.setThread_ptime (s : State) (t : Tid) (x : Thread) : (s.setThread t x).ptime = s.ptime := rfl
@[simp] theorem State.setThread_cores (s : State) (t : Tid) (x : Thread) : (s.setThread t x).cores = s.cores := rfl
@[simp] theorem State.setThread_mem (s : State) (t : Tid) (x : Thread) : (s.setThread t x).mem = s.mem := rfl
@[simp] theorem State.setThread_poisoned (s : State) (t : Tid) (x : Thread) : (s.setThread t x).poisoned = s.poisoned := rfl
@[simp] theorem State.setThread_sealed (s : State) (t : Tid) (x : Thread) : (s.setThread t x).sealed = s.sealed := rfl
@[simp] theorem State.setThread_flash (s : State) (t : Tid) (x : Thread) : (s.setThread t x).flash = s.flash := rfl
@[simp] theorem State.setThread_queues (s : State) (t : Tid) (x : Thread) : (s.setThread t x).queues = s.queues := rfl
@[simp] theorem State.setThread_reeve (s : State) (t : Tid) (x : Thread) : (s.setThread t x).reeve = s.reeve := rfl
@[simp] theorem State.setThread_beadle (s : State) (t : Tid) (x : Thread) : (s.setThread t x).beadle = s.beadle := rfl
@[simp] theorem State.setThread_iso (s : State) (t : Tid) (x : Thread) : (s.setThread t x).iso = s.iso := rfl
@[simp] theorem State.setThread_hedge (s : State) (t : Tid) (x : Thread) : (s.setThread t x).hedge = s.hedge := rfl
@[simp] theorem State.setThread_bnd (s : State) (t : Tid) (x : Thread) : (s.setThread t x).bnd = s.bnd := rfl
@[simp] theorem State.setThread_defects (s : State) (t : Tid) (x : Thread) : (s.setThread t x).defects = s.defects := rfl
@[simp] theorem State.setThread_dieClock (s : State) (t : Tid) (x : Thread) : (s.setThread t x).dieClock = s.dieClock := rfl
@[simp] theorem State.setThread_inputs (s : State) (t : Tid) (x : Thread) : (s.setThread t x).inputs = s.inputs := rfl
@[simp] theorem State.setThread_posted (s : State) (t : Tid) (x : Thread) : (s.setThread t x).posted = s.posted := rfl
@[simp] theorem State.setThread_marked (s : State) (t : Tid) (x : Thread) : (s.setThread t x).marked = s.marked := rfl
@[simp] theorem State.setThread_latch (s : State) (t : Tid) (x : Thread) : (s.setThread t x).latch = s.latch := rfl
@[simp] theorem State.setThread_cur (s : State) (t : Tid) (x : Thread) : (s.setThread t x).cur = s.cur := rfl
@[simp] theorem State.setThread_free (s : State) (t : Tid) (x : Thread) : (s.setThread t x).free = s.free := rfl
@[simp] theorem State.setThread_deferred (s : State) (t : Tid) (x : Thread) : (s.setThread t x).deferred = s.deferred := rfl
@[simp] theorem State.setThread_aborted (s : State) (t : Tid) (x : Thread) : (s.setThread t x).aborted = s.aborted := rfl
@[simp] theorem State.modThread_ptime (s : State) (t : Tid) (f : Thread → Thread) : (s.modThread t f).ptime = s.ptime := rfl
@[simp] theorem State.modThread_cores (s : State) (t : Tid) (f : Thread → Thread) : (s.modThread t f).cores = s.cores := rfl
@[simp] theorem State.modThread_mem (s : State) (t : Tid) (f : Thread → Thread) : (s.modThread t f).mem = s.mem := rfl
@[simp] theorem State.modThread_poisoned (s : State) (t : Tid) (f : Thread → Thread) : (s.modThread t f).poisoned = s.poisoned := rfl
@[simp] theorem State.modThread_sealed (s : State) (t : Tid) (f : Thread → Thread) : (s.modThread t f).sealed = s.sealed := rfl
@[simp] theorem State.modThread_flash (s : State) (t : Tid) (f : Thread → Thread) : (s.modThread t f).flash = s.flash := rfl
@[simp] theorem State.modThread_queues (s : State) (t : Tid) (f : Thread → Thread) : (s.modThread t f).queues = s.queues := rfl
@[simp] theorem State.modThread_reeve (s : State) (t : Tid) (f : Thread → Thread) : (s.modThread t f).reeve = s.reeve := rfl
@[simp] theorem State.modThread_beadle (s : State) (t : Tid) (f : Thread → Thread) : (s.modThread t f).beadle = s.beadle := rfl
@[simp] theorem State.modThread_iso (s : State) (t : Tid) (f : Thread → Thread) : (s.modThread t f).iso = s.iso := rfl
@[simp] theorem State.modThread_hedge (s : State) (t : Tid) (f : Thread → Thread) : (s.modThread t f).hedge = s.hedge := rfl
@[simp] theorem State.modThread_bnd (s : State) (t : Tid) (f : Thread → Thread) : (s.modThread t f).bnd = s.bnd := rfl
@[simp] theorem State.modThread_defects (s : State) (t : Tid) (f : Thread → Thread) : (s.modThread t f).defects = s.defects := rfl
@[simp] theorem State.modThread_dieClock (s : State) (t : Tid) (f : Thread → Thread) : (s.modThread t f).dieClock = s.dieClock := rfl
@[simp] theorem State.modThread_inputs (s : State) (t : Tid) (f : Thread → Thread) : (s.modThread t f).inputs = s.inputs := rfl
@[simp] theorem State.modThread_posted (s : State) (t : Tid) (f : Thread → Thread) : (s.modThread t f).posted = s.posted := rfl
@[simp] theorem State.modThread_marked (s : State) (t : Tid) (f : Thread → Thread) : (s.modThread t f).marked = s.marked := rfl
@[simp] theorem State.modThread_latch (s : State) (t : Tid) (f : Thread → Thread) : (s.modThread t f).latch = s.latch := rfl
@[simp] theorem State.modThread_cur (s : State) (t : Tid) (f : Thread → Thread) : (s.modThread t f).cur = s.cur := rfl
@[simp] theorem State.modThread_free (s : State) (t : Tid) (f : Thread → Thread) : (s.modThread t f).free = s.free := rfl
@[simp] theorem State.modThread_deferred (s : State) (t : Tid) (f : Thread → Thread) : (s.modThread t f).deferred = s.deferred := rfl
@[simp] theorem State.modThread_aborted (s : State) (t : Tid) (f : Thread → Thread) : (s.modThread t f).aborted = s.aborted := rfl
@[simp] theorem State.modEng_ptime (s : State) (d : Dom) (f : Eng → Eng) : (s.modEng d f).ptime = s.ptime := by cases d <;> rfl
@[simp] theorem State.modEng_mem (s : State) (d : Dom) (f : Eng → Eng) : (s.modEng d f).mem = s.mem := by cases d <;> rfl
@[simp] theorem State.modEng_poisoned (s : State) (d : Dom) (f : Eng → Eng) : (s.modEng d f).poisoned = s.poisoned := by cases d <;> rfl
@[simp] theorem State.modEng_sealed (s : State) (d : Dom) (f : Eng → Eng) : (s.modEng d f).sealed = s.sealed := by cases d <;> rfl
@[simp] theorem State.modEng_flash (s : State) (d : Dom) (f : Eng → Eng) : (s.modEng d f).flash = s.flash := by cases d <;> rfl
@[simp] theorem State.modEng_queues (s : State) (d : Dom) (f : Eng → Eng) : (s.modEng d f).queues = s.queues := by cases d <;> rfl
@[simp] theorem State.modEng_reeve (s : State) (d : Dom) (f : Eng → Eng) : (s.modEng d f).reeve = s.reeve := by cases d <;> rfl
@[simp] theorem State.modEng_beadle (s : State) (d : Dom) (f : Eng → Eng) : (s.modEng d f).beadle = s.beadle := by cases d <;> rfl
@[simp] theorem State.modEng_iso (s : State) (d : Dom) (f : Eng → Eng) : (s.modEng d f).iso = s.iso := by cases d <;> rfl
@[simp] theorem State.modEng_hedge (s : State) (d : Dom) (f : Eng → Eng) : (s.modEng d f).hedge = s.hedge := by cases d <;> rfl
@[simp] theorem State.modEng_bnd (s : State) (d : Dom) (f : Eng → Eng) : (s.modEng d f).bnd = s.bnd := by cases d <;> rfl
@[simp] theorem State.modEng_defects (s : State) (d : Dom) (f : Eng → Eng) : (s.modEng d f).defects = s.defects := by cases d <;> rfl
@[simp] theorem State.modEng_dieClock (s : State) (d : Dom) (f : Eng → Eng) : (s.modEng d f).dieClock = s.dieClock := by cases d <;> rfl
@[simp] theorem State.modEng_inputs (s : State) (d : Dom) (f : Eng → Eng) : (s.modEng d f).inputs = s.inputs := by cases d <;> rfl
@[simp] theorem State.modEng_posted (s : State) (d : Dom) (f : Eng → Eng) : (s.modEng d f).posted = s.posted := by cases d <;> rfl
@[simp] theorem State.modEng_marked (s : State) (d : Dom) (f : Eng → Eng) : (s.modEng d f).marked = s.marked := by cases d <;> rfl
@[simp] theorem State.modEng_latch (s : State) (d : Dom) (f : Eng → Eng) : (s.modEng d f).latch = s.latch := by cases d <;> rfl
@[simp] theorem State.modEng_cur (s : State) (d : Dom) (f : Eng → Eng) : (s.modEng d f).cur = s.cur := by cases d <;> rfl
@[simp] theorem State.modEng_free (s : State) (d : Dom) (f : Eng → Eng) : (s.modEng d f).free = s.free := by cases d <;> rfl
@[simp] theorem State.modEng_deferred (s : State) (d : Dom) (f : Eng → Eng) : (s.modEng d f).deferred = s.deferred := by cases d <;> rfl
@[simp] theorem State.modEng_aborted (s : State) (d : Dom) (f : Eng → Eng) : (s.modEng d f).aborted = s.aborted := by cases d <;> rfl
@[simp] theorem State.setSlot_ptime (s : State) (n : Nat) (x : Option Slot) : (s.setSlot n x).ptime = s.ptime := rfl
@[simp] theorem State.setSlot_cores (s : State) (n : Nat) (x : Option Slot) : (s.setSlot n x).cores = s.cores := rfl
@[simp] theorem State.setSlot_units (s : State) (n : Nat) (x : Option Slot) : (s.setSlot n x).units = s.units := rfl
@[simp] theorem State.setSlot_mem (s : State) (n : Nat) (x : Option Slot) : (s.setSlot n x).mem = s.mem := rfl
@[simp] theorem State.setSlot_poisoned (s : State) (n : Nat) (x : Option Slot) : (s.setSlot n x).poisoned = s.poisoned := rfl
@[simp] theorem State.setSlot_sealed (s : State) (n : Nat) (x : Option Slot) : (s.setSlot n x).sealed = s.sealed := rfl
@[simp] theorem State.setSlot_flash (s : State) (n : Nat) (x : Option Slot) : (s.setSlot n x).flash = s.flash := rfl
@[simp] theorem State.setSlot_queues (s : State) (n : Nat) (x : Option Slot) : (s.setSlot n x).queues = s.queues := rfl
@[simp] theorem State.setSlot_reeve (s : State) (n : Nat) (x : Option Slot) : (s.setSlot n x).reeve = s.reeve := rfl
@[simp] theorem State.setSlot_iso (s : State) (n : Nat) (x : Option Slot) : (s.setSlot n x).iso = s.iso := rfl
@[simp] theorem State.setSlot_hedge (s : State) (n : Nat) (x : Option Slot) : (s.setSlot n x).hedge = s.hedge := rfl
@[simp] theorem State.setSlot_bnd (s : State) (n : Nat) (x : Option Slot) : (s.setSlot n x).bnd = s.bnd := rfl
@[simp] theorem State.setSlot_defects (s : State) (n : Nat) (x : Option Slot) : (s.setSlot n x).defects = s.defects := rfl
@[simp] theorem State.setSlot_dieClock (s : State) (n : Nat) (x : Option Slot) : (s.setSlot n x).dieClock = s.dieClock := rfl
@[simp] theorem State.setSlot_inputs (s : State) (n : Nat) (x : Option Slot) : (s.setSlot n x).inputs = s.inputs := rfl
@[simp] theorem State.setSlot_posted (s : State) (n : Nat) (x : Option Slot) : (s.setSlot n x).posted = s.posted := rfl
@[simp] theorem State.setSlot_marked (s : State) (n : Nat) (x : Option Slot) : (s.setSlot n x).marked = s.marked := rfl
@[simp] theorem State.setSlot_latch (s : State) (n : Nat) (x : Option Slot) : (s.setSlot n x).latch = s.latch := rfl
@[simp] theorem State.setSlot_cur (s : State) (n : Nat) (x : Option Slot) : (s.setSlot n x).cur = s.cur := rfl
@[simp] theorem State.setSlot_free (s : State) (n : Nat) (x : Option Slot) : (s.setSlot n x).free = s.free := rfl
@[simp] theorem State.setSlot_deferred (s : State) (n : Nat) (x : Option Slot) : (s.setSlot n x).deferred = s.deferred := rfl
@[simp] theorem State.setSlot_aborted (s : State) (n : Nat) (x : Option Slot) : (s.setSlot n x).aborted = s.aborted := rfl
@[simp] theorem State.modSlot_ptime (s : State) (n : Nat) (f : Slot → Slot) : (s.modSlot n f).ptime = s.ptime := by unfold State.modSlot; split <;> rfl
@[simp] theorem State.modSlot_cores (s : State) (n : Nat) (f : Slot → Slot) : (s.modSlot n f).cores = s.cores := by unfold State.modSlot; split <;> rfl
@[simp] theorem State.modSlot_units (s : State) (n : Nat) (f : Slot → Slot) : (s.modSlot n f).units = s.units := by unfold State.modSlot; split <;> rfl
@[simp] theorem State.modSlot_mem (s : State) (n : Nat) (f : Slot → Slot) : (s.modSlot n f).mem = s.mem := by unfold State.modSlot; split <;> rfl
@[simp] theorem State.modSlot_poisoned (s : State) (n : Nat) (f : Slot → Slot) : (s.modSlot n f).poisoned = s.poisoned := by unfold State.modSlot; split <;> rfl
@[simp] theorem State.modSlot_sealed (s : State) (n : Nat) (f : Slot → Slot) : (s.modSlot n f).sealed = s.sealed := by unfold State.modSlot; split <;> rfl
@[simp] theorem State.modSlot_flash (s : State) (n : Nat) (f : Slot → Slot) : (s.modSlot n f).flash = s.flash := by unfold State.modSlot; split <;> rfl
@[simp] theorem State.modSlot_queues (s : State) (n : Nat) (f : Slot → Slot) : (s.modSlot n f).queues = s.queues := by unfold State.modSlot; split <;> rfl
@[simp] theorem State.modSlot_reeve (s : State) (n : Nat) (f : Slot → Slot) : (s.modSlot n f).reeve = s.reeve := by unfold State.modSlot; split <;> rfl
@[simp] theorem State.modSlot_iso (s : State) (n : Nat) (f : Slot → Slot) : (s.modSlot n f).iso = s.iso := by unfold State.modSlot; split <;> rfl
@[simp] theorem State.modSlot_hedge (s : State) (n : Nat) (f : Slot → Slot) : (s.modSlot n f).hedge = s.hedge := by unfold State.modSlot; split <;> rfl
@[simp] theorem State.modSlot_bnd (s : State) (n : Nat) (f : Slot → Slot) : (s.modSlot n f).bnd = s.bnd := by unfold State.modSlot; split <;> rfl
@[simp] theorem State.modSlot_defects (s : State) (n : Nat) (f : Slot → Slot) : (s.modSlot n f).defects = s.defects := by unfold State.modSlot; split <;> rfl
@[simp] theorem State.modSlot_dieClock (s : State) (n : Nat) (f : Slot → Slot) : (s.modSlot n f).dieClock = s.dieClock := by unfold State.modSlot; split <;> rfl
@[simp] theorem State.modSlot_inputs (s : State) (n : Nat) (f : Slot → Slot) : (s.modSlot n f).inputs = s.inputs := by unfold State.modSlot; split <;> rfl
@[simp] theorem State.modSlot_posted (s : State) (n : Nat) (f : Slot → Slot) : (s.modSlot n f).posted = s.posted := by unfold State.modSlot; split <;> rfl
@[simp] theorem State.modSlot_marked (s : State) (n : Nat) (f : Slot → Slot) : (s.modSlot n f).marked = s.marked := by unfold State.modSlot; split <;> rfl
@[simp] theorem State.modSlot_latch (s : State) (n : Nat) (f : Slot → Slot) : (s.modSlot n f).latch = s.latch := by unfold State.modSlot; split <;> rfl
@[simp] theorem State.modSlot_cur (s : State) (n : Nat) (f : Slot → Slot) : (s.modSlot n f).cur = s.cur := by unfold State.modSlot; split <;> rfl
@[simp] theorem State.modSlot_free (s : State) (n : Nat) (f : Slot → Slot) : (s.modSlot n f).free = s.free := by unfold State.modSlot; split <;> rfl
@[simp] theorem State.modSlot_deferred (s : State) (n : Nat) (f : Slot → Slot) : (s.modSlot n f).deferred = s.deferred := by unfold State.modSlot; split <;> rfl
@[simp] theorem State.modSlot_aborted (s : State) (n : Nat) (f : Slot → Slot) : (s.modSlot n f).aborted = s.aborted := by unfold State.modSlot; split <;> rfl
@[simp] theorem State.setQueue_ptime (s : State) (q : Nat) (x : Queue) : (s.setQueue q x).ptime = s.ptime := rfl
@[simp] theorem State.setQueue_cores (s : State) (q : Nat) (x : Queue) : (s.setQueue q x).cores = s.cores := rfl
@[simp] theorem State.setQueue_units (s : State) (q : Nat) (x : Queue) : (s.setQueue q x).units = s.units := rfl
@[simp] theorem State.setQueue_mem (s : State) (q : Nat) (x : Queue) : (s.setQueue q x).mem = s.mem := rfl
@[simp] theorem State.setQueue_poisoned (s : State) (q : Nat) (x : Queue) : (s.setQueue q x).poisoned = s.poisoned := rfl
@[simp] theorem State.setQueue_sealed (s : State) (q : Nat) (x : Queue) : (s.setQueue q x).sealed = s.sealed := rfl
@[simp] theorem State.setQueue_flash (s : State) (q : Nat) (x : Queue) : (s.setQueue q x).flash = s.flash := rfl
@[simp] theorem State.setQueue_queues (s : State) (q : Nat) (x : Queue) : (s.setQueue q x).queues = mset Queue.reset s.queues q x := rfl
@[simp] theorem State.setQueue_reeve (s : State) (q : Nat) (x : Queue) : (s.setQueue q x).reeve = s.reeve := rfl
@[simp] theorem State.setQueue_beadle (s : State) (q : Nat) (x : Queue) : (s.setQueue q x).beadle = s.beadle := rfl
@[simp] theorem State.setQueue_iso (s : State) (q : Nat) (x : Queue) : (s.setQueue q x).iso = s.iso := rfl
@[simp] theorem State.setQueue_hedge (s : State) (q : Nat) (x : Queue) : (s.setQueue q x).hedge = s.hedge := rfl
@[simp] theorem State.setQueue_bnd (s : State) (q : Nat) (x : Queue) : (s.setQueue q x).bnd = s.bnd := rfl
@[simp] theorem State.setQueue_defects (s : State) (q : Nat) (x : Queue) : (s.setQueue q x).defects = s.defects := rfl
@[simp] theorem State.setQueue_dieClock (s : State) (q : Nat) (x : Queue) : (s.setQueue q x).dieClock = s.dieClock := rfl
@[simp] theorem State.setQueue_inputs (s : State) (q : Nat) (x : Queue) : (s.setQueue q x).inputs = s.inputs := rfl
@[simp] theorem State.setQueue_posted (s : State) (q : Nat) (x : Queue) : (s.setQueue q x).posted = s.posted := rfl
@[simp] theorem State.setQueue_marked (s : State) (q : Nat) (x : Queue) : (s.setQueue q x).marked = s.marked := rfl
@[simp] theorem State.setQueue_latch (s : State) (q : Nat) (x : Queue) : (s.setQueue q x).latch = s.latch := rfl
@[simp] theorem State.setQueue_cur (s : State) (q : Nat) (x : Queue) : (s.setQueue q x).cur = s.cur := rfl
@[simp] theorem State.setQueue_free (s : State) (q : Nat) (x : Queue) : (s.setQueue q x).free = s.free := rfl
@[simp] theorem State.setQueue_deferred (s : State) (q : Nat) (x : Queue) : (s.setQueue q x).deferred = s.deferred := rfl
@[simp] theorem State.setQueue_aborted (s : State) (q : Nat) (x : Queue) : (s.setQueue q x).aborted = s.aborted := rfl
@[simp] theorem State.setTdesc_ptime (s : State) (p : Nat) (d : TraceDesc) : (s.setTdesc p d).ptime = s.ptime := rfl
@[simp] theorem State.setTdesc_cores (s : State) (p : Nat) (d : TraceDesc) : (s.setTdesc p d).cores = s.cores := rfl
@[simp] theorem State.setTdesc_units (s : State) (p : Nat) (d : TraceDesc) : (s.setTdesc p d).units = s.units := rfl
@[simp] theorem State.setTdesc_mem (s : State) (p : Nat) (d : TraceDesc) : (s.setTdesc p d).mem = s.mem := rfl
@[simp] theorem State.setTdesc_poisoned (s : State) (p : Nat) (d : TraceDesc) : (s.setTdesc p d).poisoned = s.poisoned := rfl
@[simp] theorem State.setTdesc_sealed (s : State) (p : Nat) (d : TraceDesc) : (s.setTdesc p d).sealed = s.sealed := rfl
@[simp] theorem State.setTdesc_flash (s : State) (p : Nat) (d : TraceDesc) : (s.setTdesc p d).flash = s.flash := rfl
@[simp] theorem State.setTdesc_queues (s : State) (p : Nat) (d : TraceDesc) : (s.setTdesc p d).queues = s.queues := rfl
@[simp] theorem State.setTdesc_reeve (s : State) (p : Nat) (d : TraceDesc) : (s.setTdesc p d).reeve = s.reeve := rfl
@[simp] theorem State.setTdesc_beadle (s : State) (p : Nat) (d : TraceDesc) : (s.setTdesc p d).beadle = s.beadle := rfl
@[simp] theorem State.setTdesc_iso (s : State) (p : Nat) (d : TraceDesc) : (s.setTdesc p d).iso = s.iso := rfl
@[simp] theorem State.setTdesc_bnd (s : State) (p : Nat) (d : TraceDesc) : (s.setTdesc p d).bnd = s.bnd := rfl
@[simp] theorem State.setTdesc_defects (s : State) (p : Nat) (d : TraceDesc) : (s.setTdesc p d).defects = s.defects := rfl
@[simp] theorem State.setTdesc_dieClock (s : State) (p : Nat) (d : TraceDesc) : (s.setTdesc p d).dieClock = s.dieClock := rfl
@[simp] theorem State.setTdesc_inputs (s : State) (p : Nat) (d : TraceDesc) : (s.setTdesc p d).inputs = s.inputs := rfl
@[simp] theorem State.setTdesc_posted (s : State) (p : Nat) (d : TraceDesc) : (s.setTdesc p d).posted = s.posted := rfl
@[simp] theorem State.setTdesc_marked (s : State) (p : Nat) (d : TraceDesc) : (s.setTdesc p d).marked = s.marked := rfl
@[simp] theorem State.setTdesc_latch (s : State) (p : Nat) (d : TraceDesc) : (s.setTdesc p d).latch = s.latch := rfl
@[simp] theorem State.setTdesc_cur (s : State) (p : Nat) (d : TraceDesc) : (s.setTdesc p d).cur = s.cur := rfl
@[simp] theorem State.setTdesc_free (s : State) (p : Nat) (d : TraceDesc) : (s.setTdesc p d).free = s.free := rfl
@[simp] theorem State.setTdesc_deferred (s : State) (p : Nat) (d : TraceDesc) : (s.setTdesc p d).deferred = s.deferred := rfl
@[simp] theorem State.setTdesc_aborted (s : State) (p : Nat) (d : TraceDesc) : (s.setTdesc p d).aborted = s.aborted := rfl
@[simp] theorem State.setTsrc_ptime (s : State) (p src : Nat) (x : TraceSrc) : (s.setTsrc p src x).ptime = s.ptime := rfl
@[simp] theorem State.setTsrc_cores (s : State) (p src : Nat) (x : TraceSrc) : (s.setTsrc p src x).cores = s.cores := rfl
@[simp] theorem State.setTsrc_units (s : State) (p src : Nat) (x : TraceSrc) : (s.setTsrc p src x).units = s.units := rfl
@[simp] theorem State.setTsrc_mem (s : State) (p src : Nat) (x : TraceSrc) : (s.setTsrc p src x).mem = s.mem := rfl
@[simp] theorem State.setTsrc_poisoned (s : State) (p src : Nat) (x : TraceSrc) : (s.setTsrc p src x).poisoned = s.poisoned := rfl
@[simp] theorem State.setTsrc_sealed (s : State) (p src : Nat) (x : TraceSrc) : (s.setTsrc p src x).sealed = s.sealed := rfl
@[simp] theorem State.setTsrc_flash (s : State) (p src : Nat) (x : TraceSrc) : (s.setTsrc p src x).flash = s.flash := rfl
@[simp] theorem State.setTsrc_queues (s : State) (p src : Nat) (x : TraceSrc) : (s.setTsrc p src x).queues = s.queues := rfl
@[simp] theorem State.setTsrc_reeve (s : State) (p src : Nat) (x : TraceSrc) : (s.setTsrc p src x).reeve = s.reeve := rfl
@[simp] theorem State.setTsrc_beadle (s : State) (p src : Nat) (x : TraceSrc) : (s.setTsrc p src x).beadle = s.beadle := rfl
@[simp] theorem State.setTsrc_iso (s : State) (p src : Nat) (x : TraceSrc) : (s.setTsrc p src x).iso = s.iso := rfl
@[simp] theorem State.setTsrc_bnd (s : State) (p src : Nat) (x : TraceSrc) : (s.setTsrc p src x).bnd = s.bnd := rfl
@[simp] theorem State.setTsrc_defects (s : State) (p src : Nat) (x : TraceSrc) : (s.setTsrc p src x).defects = s.defects := rfl
@[simp] theorem State.setTsrc_dieClock (s : State) (p src : Nat) (x : TraceSrc) : (s.setTsrc p src x).dieClock = s.dieClock := rfl
@[simp] theorem State.setTsrc_inputs (s : State) (p src : Nat) (x : TraceSrc) : (s.setTsrc p src x).inputs = s.inputs := rfl
@[simp] theorem State.setTsrc_posted (s : State) (p src : Nat) (x : TraceSrc) : (s.setTsrc p src x).posted = s.posted := rfl
@[simp] theorem State.setTsrc_marked (s : State) (p src : Nat) (x : TraceSrc) : (s.setTsrc p src x).marked = s.marked := rfl
@[simp] theorem State.setTsrc_latch (s : State) (p src : Nat) (x : TraceSrc) : (s.setTsrc p src x).latch = s.latch := rfl
@[simp] theorem State.setTsrc_cur (s : State) (p src : Nat) (x : TraceSrc) : (s.setTsrc p src x).cur = s.cur := rfl
@[simp] theorem State.setTsrc_free (s : State) (p src : Nat) (x : TraceSrc) : (s.setTsrc p src x).free = s.free := rfl
@[simp] theorem State.setTsrc_deferred (s : State) (p src : Nat) (x : TraceSrc) : (s.setTsrc p src x).deferred = s.deferred := rfl
@[simp] theorem State.setTsrc_aborted (s : State) (p src : Nat) (x : TraceSrc) : (s.setTsrc p src x).aborted = s.aborted := rfl
@[simp] theorem State.put_ptime (s : State) (c n : Nat) (l : Land) : (s.put c n l).ptime = s.ptime := rfl
@[simp] theorem State.put_units (s : State) (c n : Nat) (l : Land) : (s.put c n l).units = s.units := rfl
@[simp] theorem State.put_mem (s : State) (c n : Nat) (l : Land) : (s.put c n l).mem = s.mem := rfl
@[simp] theorem State.put_poisoned (s : State) (c n : Nat) (l : Land) : (s.put c n l).poisoned = s.poisoned := rfl
@[simp] theorem State.put_sealed (s : State) (c n : Nat) (l : Land) : (s.put c n l).sealed = s.sealed := rfl
@[simp] theorem State.put_flash (s : State) (c n : Nat) (l : Land) : (s.put c n l).flash = s.flash := rfl
@[simp] theorem State.put_queues (s : State) (c n : Nat) (l : Land) : (s.put c n l).queues = s.queues := rfl
@[simp] theorem State.put_reeve (s : State) (c n : Nat) (l : Land) : (s.put c n l).reeve = s.reeve := rfl
@[simp] theorem State.put_beadle (s : State) (c n : Nat) (l : Land) : (s.put c n l).beadle = s.beadle := rfl
@[simp] theorem State.put_iso (s : State) (c n : Nat) (l : Land) : (s.put c n l).iso = s.iso := rfl
@[simp] theorem State.put_hedge (s : State) (c n : Nat) (l : Land) : (s.put c n l).hedge = s.hedge := rfl
@[simp] theorem State.put_bnd (s : State) (c n : Nat) (l : Land) : (s.put c n l).bnd = s.bnd := rfl
@[simp] theorem State.put_defects (s : State) (c n : Nat) (l : Land) : (s.put c n l).defects = s.defects := rfl
@[simp] theorem State.put_dieClock (s : State) (c n : Nat) (l : Land) : (s.put c n l).dieClock = s.dieClock := rfl
@[simp] theorem State.put_inputs (s : State) (c n : Nat) (l : Land) : (s.put c n l).inputs = s.inputs := rfl
@[simp] theorem State.put_posted (s : State) (c n : Nat) (l : Land) : (s.put c n l).posted = s.posted := rfl
@[simp] theorem State.put_marked (s : State) (c n : Nat) (l : Land) : (s.put c n l).marked = s.marked := rfl
@[simp] theorem State.put_latch (s : State) (c n : Nat) (l : Land) : (s.put c n l).latch = s.latch := rfl
@[simp] theorem State.put_cur (s : State) (c n : Nat) (l : Land) : (s.put c n l).cur = s.cur := rfl
@[simp] theorem State.put_free (s : State) (c n : Nat) (l : Land) : (s.put c n l).free = s.free := rfl
@[simp] theorem State.put_deferred (s : State) (c n : Nat) (l : Land) : (s.put c n l).deferred = s.deferred := rfl
@[simp] theorem State.put_aborted (s : State) (c n : Nat) (l : Land) : (s.put c n l).aborted = s.aborted := rfl
@[simp] theorem State.defer_ptime (s : State) (e : Eff) : (s.defer e).ptime = s.ptime := rfl
@[simp] theorem State.defer_cores (s : State) (e : Eff) : (s.defer e).cores = s.cores := rfl
@[simp] theorem State.defer_units (s : State) (e : Eff) : (s.defer e).units = s.units := rfl
@[simp] theorem State.defer_mem (s : State) (e : Eff) : (s.defer e).mem = s.mem := rfl
@[simp] theorem State.defer_poisoned (s : State) (e : Eff) : (s.defer e).poisoned = s.poisoned := rfl
@[simp] theorem State.defer_sealed (s : State) (e : Eff) : (s.defer e).sealed = s.sealed := rfl
@[simp] theorem State.defer_flash (s : State) (e : Eff) : (s.defer e).flash = s.flash := rfl
@[simp] theorem State.defer_queues (s : State) (e : Eff) : (s.defer e).queues = s.queues := rfl
@[simp] theorem State.defer_reeve (s : State) (e : Eff) : (s.defer e).reeve = s.reeve := rfl
@[simp] theorem State.defer_beadle (s : State) (e : Eff) : (s.defer e).beadle = s.beadle := rfl
@[simp] theorem State.defer_iso (s : State) (e : Eff) : (s.defer e).iso = s.iso := rfl
@[simp] theorem State.defer_hedge (s : State) (e : Eff) : (s.defer e).hedge = s.hedge := rfl
@[simp] theorem State.defer_bnd (s : State) (e : Eff) : (s.defer e).bnd = s.bnd := rfl
@[simp] theorem State.defer_defects (s : State) (e : Eff) : (s.defer e).defects = s.defects := rfl
@[simp] theorem State.defer_dieClock (s : State) (e : Eff) : (s.defer e).dieClock = s.dieClock := rfl
@[simp] theorem State.defer_inputs (s : State) (e : Eff) : (s.defer e).inputs = s.inputs := rfl
@[simp] theorem State.defer_posted (s : State) (e : Eff) : (s.defer e).posted = s.posted := rfl
@[simp] theorem State.defer_marked (s : State) (e : Eff) : (s.defer e).marked = s.marked := rfl
@[simp] theorem State.defer_latch (s : State) (e : Eff) : (s.defer e).latch = s.latch := rfl
@[simp] theorem State.defer_cur (s : State) (e : Eff) : (s.defer e).cur = s.cur := rfl
@[simp] theorem State.defer_free (s : State) (e : Eff) : (s.defer e).free = s.free := rfl
@[simp] theorem State.defer_deferred (s : State) (e : Eff) : (s.defer e).deferred = s.deferred ++ [(s.cur, e)] := rfl
@[simp] theorem State.defer_aborted (s : State) (e : Eff) : (s.defer e).aborted = s.aborted := rfl
@[simp] theorem State.draw_ptime (s : State)  : (s.draw.2).ptime = s.ptime := rfl
@[simp] theorem State.draw_cores (s : State)  : (s.draw.2).cores = s.cores := rfl
@[simp] theorem State.draw_units (s : State)  : (s.draw.2).units = s.units := rfl
@[simp] theorem State.draw_mem (s : State)  : (s.draw.2).mem = s.mem := rfl
@[simp] theorem State.draw_poisoned (s : State)  : (s.draw.2).poisoned = s.poisoned := rfl
@[simp] theorem State.draw_sealed (s : State)  : (s.draw.2).sealed = s.sealed := rfl
@[simp] theorem State.draw_flash (s : State)  : (s.draw.2).flash = s.flash := rfl
@[simp] theorem State.draw_queues (s : State)  : (s.draw.2).queues = s.queues := rfl
@[simp] theorem State.draw_reeve (s : State)  : (s.draw.2).reeve = s.reeve := rfl
@[simp] theorem State.draw_beadle (s : State)  : (s.draw.2).beadle = s.beadle := rfl
@[simp] theorem State.draw_iso (s : State)  : (s.draw.2).iso = s.iso := rfl
@[simp] theorem State.draw_hedge (s : State)  : (s.draw.2).hedge = s.hedge := rfl
@[simp] theorem State.draw_bnd (s : State)  : (s.draw.2).bnd = s.bnd := rfl
@[simp] theorem State.draw_defects (s : State)  : (s.draw.2).defects = s.defects := rfl
@[simp] theorem State.draw_dieClock (s : State)  : (s.draw.2).dieClock = s.dieClock := rfl
@[simp] theorem State.draw_inputs (s : State)  : (s.draw.2).inputs = s.inputs := rfl
@[simp] theorem State.draw_posted (s : State)  : (s.draw.2).posted = s.posted := rfl
@[simp] theorem State.draw_marked (s : State)  : (s.draw.2).marked = s.marked := rfl
@[simp] theorem State.draw_latch (s : State)  : (s.draw.2).latch = s.latch := rfl
@[simp] theorem State.draw_cur (s : State)  : (s.draw.2).cur = s.cur := rfl
@[simp] theorem State.draw_free (s : State)  : (s.draw.2).free = s.free + 1 := rfl
@[simp] theorem State.draw_deferred (s : State)  : (s.draw.2).deferred = s.deferred := rfl
@[simp] theorem State.draw_aborted (s : State)  : (s.draw.2).aborted = s.aborted := rfl

/-! ### Readers -/

theorem State.core_of_cores {s t : State} (h : t.cores = s.cores) (c : Nat) : t.core c = s.core c := by simp only [State.core, h]

theorem State.unit_of_units {s t : State} (h : t.units = s.units) (u : Nat) : t.unit u = s.unit u := by simp only [State.unit, h]

@[simp] theorem State.core_setCore (s : State) (c q : Nat) (x : Core) : (s.setCore c x).core q = if c = q then x else s.core q :=
  mget_mset _ _ _ _ _

@[simp] theorem State.core_modCore (s : State) (c q : Nat) (f : Core → Core) :
    (s.modCore c f).core q = if c = q then f (s.core c) else s.core q := mget_mset _ _ _ _ _

@[simp] theorem State.core_modArch (s : State) (c q : Nat) (f : Arch → Arch) :
    (s.modArch c f).core q = if c = q then { s.core c with arch := f (s.core c).arch } else s.core q := mget_mset _ _ _ _ _

@[simp] theorem State.core_put (s : State) (c n q : Nat) (l : Land) :
    (s.put c n l).core q = if c = q then { s.core c with flight := (s.core c).flight ++ [(n, l)] } else s.core q := mget_mset _ _ _ _ _

@[simp] theorem State.unit_setUnit (s : State) (u q : Nat) (x : VUnit) : (s.setUnit u x).unit q = if u = q then x else s.unit q :=
  mget_mset _ _ _ _ _

@[simp] theorem State.unit_modUnit (s : State) (u q : Nat) (f : VUnit → VUnit) :
    (s.modUnit u f).unit q = if u = q then f (s.unit u) else s.unit q := mget_mset _ _ _ _ _

/-- A group written is read back, and every other group of every unit stands. -/
theorem State.group_setGroup (s : State) (u g v h : Nat) (x : Group) :
    (s.setGroup u g x).group v h = if u = v ∧ g = h then x else s.group v h := by
  simp only [State.group, State.setGroup, State.unit_modUnit]
  by_cases hu : u = v
  · subst hu
    by_cases hg : g = h
    · subst hg; simp
    · simp [hg, mget_mset_ne _ _ _ hg]
  · simp [hu]

theorem State.group_modGroup (s : State) (u g v h : Nat) (f : Group → Group) :
    (s.modGroup u g f).group v h = if u = v ∧ g = h then f (s.group u g) else s.group v h := State.group_setGroup _ _ _ _ _ _

/-- The unit of a thread, its group's place and its index name one thread. -/
theorem tid_ne {t v : Tid} (h : v ≠ t) : ¬(t.unit = v.unit ∧ t.group = v.group ∧ t.thread = v.thread) := by
  rintro ⟨h1, h2, h3⟩; exact h (by cases t; cases v; simp_all)

/-- A thread written is read back. -/
@[simp] theorem State.thread_setThread_same (s : State) (t : Tid) (x : Thread) : (s.setThread t x).thread t = x := by
  simp [State.thread, State.setThread, State.group_modGroup]

/-- Every other thread stands. -/
theorem State.thread_setThread_ne (s : State) {t v : Tid} (x : Thread) (h : v ≠ t) : (s.setThread t x).thread v = s.thread v := by
  simp only [State.thread, State.setThread, State.group_modGroup]
  by_cases hg : t.unit.val = v.unit.val ∧ t.group = v.group
  · have hn : t.thread ≠ v.thread := fun e => tid_ne h ⟨Fin.ext hg.1, hg.2, e⟩
    simp only [hg, and_self, if_true]
    rw [mget_mset_ne _ _ _ hn]
  · simp only [hg, if_false]

@[simp] theorem State.thread_modThread_same (s : State) (t : Tid) (f : Thread → Thread) : (s.modThread t f).thread t = f (s.thread t) :=
  State.thread_setThread_same _ _ _

theorem State.thread_modThread_ne (s : State) {t v : Tid} (f : Thread → Thread) (h : v ≠ t) : (s.modThread t f).thread v = s.thread v :=
  State.thread_setThread_ne _ _ h

/-- A thread's registers are its own: no field of a group but its threads changes with one. -/
theorem State.group_setThread (s : State) (t : Tid) (x : Thread) (u g : Nat) :
    (s.setThread t x).group u g =
      if t.unit.val = u ∧ t.group = g then { s.group u g with threads := mset Thread.reset (s.group u g).threads t.thread x }
      else s.group u g := by
  simp only [State.setThread, State.group_modGroup]
  by_cases h : t.unit.val = u ∧ t.group = g
  · obtain ⟨rfl, rfl⟩ := h; simp
  · simp [h]

/-- No engine but the unit's own parts: a thread's write leaves the unit's engine, hints and counters. -/
theorem State.unit_setThread (s : State) (t : Tid) (x : Thread) (u : Nat) :
    ((s.setThread t x).unit u).eng = (s.unit u).eng ∧ ((s.setThread t x).unit u).hints = (s.unit u).hints
      ∧ ((s.setThread t x).unit u).dueCount = (s.unit u).dueCount ∧ ((s.setThread t x).unit u).trapped = (s.unit u).trapped := by
  simp only [State.setThread, State.modGroup, State.setGroup, State.unit_modUnit]
  by_cases h : t.unit.val = u
  · subst h; simp
  · simp [h]

@[simp] theorem State.core_setThread (s : State) (t : Tid) (x : Thread) (c : Nat) : (s.setThread t x).core c = s.core c := rfl
@[simp] theorem State.core_modThread (s : State) (t : Tid) (f : Thread → Thread) (c : Nat) : (s.modThread t f).core c = s.core c := rfl
@[simp] theorem State.core_modUnit (s : State) (u : Nat) (f : VUnit → VUnit) (c : Nat) : (s.modUnit u f).core c = s.core c := rfl
@[simp] theorem State.core_modGroup (s : State) (u g : Nat) (f : Group → Group) (c : Nat) : (s.modGroup u g f).core c = s.core c := rfl
@[simp] theorem State.unit_modCore (s : State) (c : Nat) (f : Core → Core) (u : Nat) : (s.modCore c f).unit u = s.unit u := rfl
@[simp] theorem State.unit_modArch (s : State) (c : Nat) (f : Arch → Arch) (u : Nat) : (s.modArch c f).unit u = s.unit u := rfl
@[simp] theorem State.unit_put (s : State) (c n : Nat) (l : Land) (u : Nat) : (s.put c n l).unit u = s.unit u := rfl
@[simp] theorem State.core_defer (s : State) (e : Eff) (c : Nat) : (s.defer e).core c = s.core c := rfl
@[simp] theorem State.unit_defer (s : State) (e : Eff) (u : Nat) : (s.defer e).unit u = s.unit u := rfl
@[simp] theorem State.core_setSlot (s : State) (n : Nat) (x : Option Slot) (c : Nat) : (s.setSlot n x).core c = s.core c := rfl
@[simp] theorem State.unit_setSlot (s : State) (n : Nat) (x : Option Slot) (u : Nat) : (s.setSlot n x).unit u = s.unit u := rfl
@[simp] theorem State.core_setQueue (s : State) (q : Nat) (x : Queue) (c : Nat) : (s.setQueue q x).core c = s.core c := rfl

/-- An engine changed is read back. -/
@[simp] theorem State.eng_modEng_same (s : State) (d : Dom) (f : Eng → Eng) : (s.modEng d f).eng d = f (s.eng d) := by
  cases d <;> simp [State.eng, State.modEng]

@[simp] theorem State.slot_setSlot (s : State) (n q : Nat) (x : Option Slot) : (s.setSlot n x).slot q = if n = q then x else s.slot q :=
  mget_mset _ _ _ _ _

@[simp] theorem State.queue_setQueue (s : State) (n q : Nat) (x : Queue) : (s.setQueue n x).queue q = if n = q then x else s.queue q :=
  mget_mset _ _ _ _ _

end Sys2Proof.Machine
end

