-- ==== Sys2Proof/Safety.lean ====
section
/-!
DEFINITION. What counts as a safe run.
-/
namespace Sys2Proof.Machine

/-- A step that answers a next state. -/
def Goes (s : State) : Prop := ∃ t, step s = .next t

/-- A run of n steps that never stops. -/
def RunsFor : Nat → State → Prop
  | 0, _ => True
  | n + 1, s => ∃ t, step s = .next t ∧ RunsFor n t

/-- The stored memories (DRAM, the boot flash, the memory beyond the PCIe link) are in their canonical form. -/
def MemOk (s : State) : Prop := Memory.wf s.mem = true ∧ Memory.wf s.flash = true ∧ Memory.wf s.bnd.peer = true

/-! ### What an op leaves: the next states that statements name -/

/-- The state after an op of the running agent whose one effect is the scalar result `v`, due `lat` advance cycles on: in bundle form
the result enters the pipeline (R39), in thread form the register is written and the program counter moves on (R17). Register 0 takes no
write (R19, R23). Everything else stands. -/
def State.withScalar (s : State) (lat : Nat) (d : Fin 64) (v : Word) : State :=
  match s.cur with
  | .core c _ => if d = 0 then s else s.setCore c { s.core c with flight := (s.core c).flight ++ [(lat, .sreg d v)] }
  | .thr u =>
    s.setThread u
      { s.thread u with x := if d = 0 then (s.thread u).x else mset 0 (s.thread u).x d v, pc := (s.thread u).pc + 8 }

/-- The same with floating-point flags, which land with the result in bundle form and are raised at once in thread form (R120). -/
def State.withScalarFp (s : State) (lat : Nat) (d : Fin 64) (code : Nat) (fl : BitVec 5) : State :=
  match s.cur with
  | .core c _ =>
    if d = 0 ∧ fl = 0 then s
    else s.setCore c
      { s.core c with flight := (s.core c).flight ++ ((if d = 0 then [] else [(lat, .sreg d (BitVec.ofNat 64 code))])
                                                      ++ (if fl = 0 then [] else [(lat, .flags fl)])) }
  | .thr u =>
    s.setThread u
      { s.thread u with x := if d = 0 then (s.thread u).x else mset 0 (s.thread u).x d (BitVec.ofNat 64 code),
                        fflags := (s.thread u).fflags ||| fl, pc := (s.thread u).pc + 8 }

/-- May a floating-point op of the running agent raise flags without trapping (R113)? A core always; a thread where no raised flag has
its TEN bit, FMT[23:19], set. -/
def State.flagsQuiet (s : State) (fl : BitVec 5) : Prop :=
  match s.cur with
  | .core _ _ => True
  | .thr u => (s.thread u).fmt.extractLsb' 19 5 &&& fl = 0

/-- A scalar floating-point op whose result is `r`: it completes where its flags raise no trap, else it traps with the flags it would have
raised and writes nothing (R113, R120). -/
def FpStep (i : Instr) (s : State) (lat : Nat) (d : Fin 64) (r : Rnd) : Prop :=
  (s.flagsQuiet r.fl → exec i s = .next (s.withScalarFp lat d r.code r.fl))
  ∧ (¬ s.flagsQuiet r.fl → exec i s = .next (s.takeTrap s.cur ⟨0x19, r.fl.setWidth 64⟩))

/-- The state after an op of the running agent whose one effect is a predicate result of class En: all 128 bits due in bundle form (R133),
the single bit at once in thread form (R131, R132). p0 takes no write (R19, R23). -/
def State.withPred (s : State) (lat : Nat) (d : Fin 8) (x : Pred) : State :=
  match s.cur with
  | .core c _ =>
    if d = 0 then s else s.setCore c { s.core c with flight := (s.core c).flight ++ [(lat, .preg d (BitVec.allOnes 128) x)] }
  | .thr u =>
    s.setThread u
      { s.thread u with p := if d = 0 then (s.thread u).p
                             else if x.getLsbD 0 then (s.thread u).p ||| ((1 : Byte) <<< d.val)
                             else (s.thread u).p &&& ~~~((1 : Byte) <<< d.val),
                        pc := (s.thread u).pc + 8 }

/-- The bytes, as a vector's bit places, that a landing under a mask leaves in a register: the new bits under the mask, the old ones
elsewhere (R20). -/
def underMask {n : Nat} (old mask new : BitVec n) : BitVec n := (old &&& ~~~mask) ||| (new &&& mask)

/-- A vector op of a core whose effect is one result of class En in v register `d`, with flags where it raises some: element j of width w,
for j below n, takes `new j` where that is given, and every other bit of the register keeps its value when the result lands (R20, R39,
R120, R141). Nothing else changes. -/
def VecStep (i : Instr) (s : State) (lat : Nat) (d : Fin 64) (w n : Nat) (new : Nat → Option Nat) (fl : BitVec 5) : Prop :=
  ∀ (c : Fin 32) (k : Fin 8), s.cur = .core c k →
    ∃ mask x : Vec,
      exec i s = .next (s.setCore c
        { s.core c with flight := (s.core c).flight ++ ((lat, .vreg d mask x) :: if fl = 0 then [] else [(lat, .flags fl)]) })
      ∧ ∀ (old : Vec) (j : Nat), w * (j + 1) ≤ 1024 →
          vecElem (underMask old mask x) w j = (match (if j < n then new j else none) with
            | some y => y % 2 ^ w
            | none => vecElem old w j)

/-- The flags of the active ones of n elements, ORed (R120). -/
def orFlags (n : Nat) (on : Nat → Bool) (fl : Nat → BitVec 5) : BitVec 5 :=
  (List.range n).foldl (fun acc j => if on j then acc ||| fl j else acc) 0

/-- Element j of a vector source of a type: the low bits of its place, those above the type's width ignored (R103, R141). -/
def State.elemAt (s : State) (t : Ty) (o : Opd) (j : Nat) : Nat := vecElem (s.rv t o) (vw t) j % 2 ^ width t

/-- n steps of a generator's two words (R138). -/
def genSteps : Nat → Word × Word → Word × Word
  | 0, g => g
  | n + 1, g => genSteps n (genStep g.1 g.2).2

/-- The distance of two magnitudes. -/
def Frac.dist (a b : Frac) : Frac := (a.sub b).abs

/-- The condition of BRC and TRAP (R368, R424). -/
def State.Holds (s : State) : Cond → Prop
  | .z a => s.ri a = 0
  | .nz a => s.ri a ≠ 0
  | .lt a => (s.ri a).toInt < 0
  | .ge a => 0 ≤ (s.ri a).toInt
  | .p n => s.pb n = true
  | .np n => s.pb n = false

/-- The state after an op of the running agent with no effect of its own but moving on: a thread's program counter goes to the next word
(R73); a bundle's moves at the end of its cycle. -/
def State.moveOn (s : State) : State :=
  match s.cur with
  | .core _ _ => s
  | .thr u => s.setThread u { s.thread u with pc := (s.thread u).pc + 8 }

/-- The state after an op of a core whose one effect is performed or withheld at the end of its cycle (R241, R243). -/
def State.withEff (s : State) (e : Eff) : State := { s with deferred := s.deferred ++ [(s.cur, e)] }

/-- A thread held at its word by a wait from now on (R343). -/
def State.heldBy (s : State) (u : Tid) (w : Wait) : State :=
  s.setThread u { s.thread u with wait := w, waitSince := (s.eng (.unit u.unit)).cycle s.ptime }

/-- The state after a memory op of the running agent whose result is one register value: in bundle form it enters the scoreboard (R41), and
where `mirror` the primary of a redundant pair hands it to its shadow (R441); in thread form the register is written at once. -/
def State.memWord (s : State) (d : Fin 64) (v : Word) (ext mirror : Bool) : State :=
  match s.cur with
  | .core c _ =>
    let e : SbEntry := { lands := if d = 0 then [] else [.sreg d v], ext := ext, blk := none }
    let t := s.setCore c { s.core c with sb := (s.core c).sb ++ [e] }
    if mirror = true ∧ t.pairPos c = some 0 then t.modCore (c + 1) fun x => { x with mirrored := x.mirrored ++ [e] } else t
  | .thr u =>
    s.setThread u
      { s.thread u with x := if d = 0 then (s.thread u).x else mset 0 (s.thread u).x d v, pc := (s.thread u).pc + 8 }

/-- An op whose check failed takes the trap that the check found, in the state the check left (R265, R414). -/
def Traps (i : Instr) (s : State) (f : Fail) : Prop := exec i s = .next (f.st.takeTrap f.st.cur f.trap)

/-- What an atomic of n bytes at the address in `a` does (R285 to R288): `f` gives the bytes it writes of the old value, none where it
writes nothing, and `res` its register results. In LOCAL form the old value is read in the own share and a core's write performs with
its bundle; in global form at the home agent or a PEER target, after everything a core committed (R245) or the release that a thread's
order asks for, and before the acquire, at PEER scope for a PEER target (R262). -/
def AtomicStep (i : Instr) (s : State) (sc : Scope) (ord : Ord) (loc peerOk : Bool) (a : Opd) (n : Nat) (f : Nat → Option Nat)
    (res : Nat → List (Opd × Word)) : Prop :=
  let k := s.ctx s.cur
  let addr := (s.ri a).toNat
  (s.pairCur = some 1 → exec i s = .next s.takeMirror.moveOn)
  ∧ (s.pairCur ≠ some 1 ∧ loc = true →
    (addr % n ≠ 0 → Traps i s ⟨⟨0x09, s.ri a⟩, s⟩)
    ∧ (addr % n = 0 → ∀ e, s.loadLocal s.cur addr n = .error e → Traps i s e)
    ∧ (addr % n = 0 → ∀ bs, s.loadLocal s.cur addr n = .ok bs →
        (f (leNat bs) = none → exec i s = .next (s.atomicResult (res (leNat bs)) false).moveOn)
        ∧ (∀ x, f (leNat bs) = some x → exec i s = .next (State.atomicResult (match s.cur with
            | .core _ _ => s.withEff (.loc (cellsOf addr (leBytes n x)))
            | .thr _ => s.storeLocal s.cur addr (leBytes n x)) (res (leNat bs)) false).moveOn)))
  ∧ (s.pairCur ≠ some 1 ∧ loc = false →
    (∀ e, s.access k .atomic addr n n = .error e → Traps i s e)
    ∧ (∀ ps s1, s.access k .atomic addr n n = .ok (ps, s1) →
        let xs := pieceBytes ps
        let s2 := (s1.atomicRefused xs peerOk).2
        let sc := if piecesExt ps = true then Scope.peer else sc
        let s3 := match s2.cur with
          | .core _ _ => s2.releaseAt k.dom .device
          | .thr _ => if isRel ord then s2.releaseAt k.dom sc else s2
        let done : State → Nat → Host.Outcome State Fault Refusal := fun t o =>
          .next ((if isAcq ord then t.acquireAt k.dom sc else t).atomicResult (res o) (piecesExt ps)).moveOn
        ((s1.atomicRefused xs peerOk).1 = true → Traps i s ⟨⟨0x0F, s.ri a⟩, s2⟩)
        ∧ ((s1.atomicRefused xs peerOk).1 = false →
            (∀ e, s3.atomicRead k addr xs = .error e → Traps i s e)
            ∧ (∀ bs s4, s3.atomicRead k addr xs = .ok (bs, s4) →
                (f (leNat bs) = none → exec i s = done s4 (leNat bs))
                ∧ (∀ x, f (leNat bs) = some x → exec i s = done (s4.atomicWrite k (xs.zip (leBytes n x))) (leNat bs))))))

end Sys2Proof.Machine
end

