-- ==== Sys2Proof/Laws/MemoryOps.lean ====
section
/-! SUPPORT. Every shared operation keeps the stored memories in their canonical form: for each operation of the machine that
answers a state, one lemma `<operation>_memOk` (and `_memOk_err` for the state that a failed one leaves). -/

-- One thread: many threads' stacks outgrow the memory the check gives.
set_option Elab.async false

namespace Sys2Proof.Machine

theorem MemOk.of {s t : State} (h : MemOk s) (h1 : t.mem = s.mem) (h2 : t.flash = s.flash) (h3 : t.bnd.peer = s.bnd.peer) : MemOk t := by
  unfold MemOk at *; rw [h1, h2, h3]; exact h

theorem foldl_memOk {β : Type} (f : State → β → State) (l : List β) {s : State} (hf : ∀ s x, MemOk s → MemOk (f s x)) (h : MemOk s) : MemOk (l.foldl f s) := by
  induction l generalizing s with
  | nil => exact h
  | cons x t ih => exact ih (hf s x h)

/-- A property that each step of a fold keeps. -/
theorem foldl_pred {α β : Type} (P : α → Prop) (f : α → β → α) (l : List β) {r : α} (hf : ∀ r x, P r → P (f r x)) (h : P r) : P (l.foldl f r) := by
  induction l generalizing r with
  | nil => exact h
  | cons x t ih => exact ih (hf r x h)

/-- The memory a traversal comes to, with a result or a stop. -/
def WalkOk {α : Type} (r : Walk α) : Prop :=
  match r with
  | .ok v => MemOk v.2
  | .error v => MemOk v.2

theorem trapRes_memOk {s : State} (cause : Nat) (tval : Nat) (h : MemOk s) {t : State} (e : trapRes s cause tval = .ok t) : MemOk t := by
  unfold trapRes at e
  grind -ring -linarith -lia [MemOk, foldl_memOk]

theorem trapRes_memOk_err {s : State} (cause : Nat) (tval : Nat) (h : MemOk s) {q : Fail} (e : trapRes s cause tval = .error q) : MemOk q.st := by
  unfold trapRes at e
  grind -ring -linarith -lia [MemOk, foldl_memOk]

theorem State.setCore_memOk {s : State} (c : Nat) (x : Core) (h : MemOk s) : MemOk (State.setCore s c x) := by
  unfold State.setCore
  grind -ring -linarith -lia [MemOk, foldl_memOk]

theorem State.modCore_memOk {s : State} (c : Nat) (f : Core → Core) (h : MemOk s) : MemOk (State.modCore s c f) := by
  unfold State.modCore
  grind -ring -linarith -lia [State.setCore_memOk, MemOk, foldl_memOk]

theorem State.modArch_memOk {s : State} (c : Nat) (f : Arch → Arch) (h : MemOk s) : MemOk (State.modArch s c f) := by
  unfold State.modArch
  grind -ring -linarith -lia [State.modCore_memOk, MemOk, foldl_memOk]

theorem State.setUnit_memOk {s : State} (u : Nat) (x : VUnit) (h : MemOk s) : MemOk (State.setUnit s u x) := by
  unfold State.setUnit
  grind -ring -linarith -lia [MemOk, foldl_memOk]

theorem State.modUnit_memOk {s : State} (u : Nat) (f : VUnit → VUnit) (h : MemOk s) : MemOk (State.modUnit s u f) := by
  unfold State.modUnit
  grind -ring -linarith -lia [State.setUnit_memOk, MemOk, foldl_memOk]

theorem State.setGroup_memOk {s : State} (u : Nat) (g : Nat) (x : Group) (h : MemOk s) : MemOk (State.setGroup s u g x) := by
  unfold State.setGroup
  grind -ring -linarith -lia [State.modUnit_memOk, MemOk, foldl_memOk]

theorem State.modGroup_memOk {s : State} (u : Nat) (g : Nat) (f : Group → Group) (h : MemOk s) : MemOk (State.modGroup s u g f) := by
  unfold State.modGroup
  grind -ring -linarith -lia [State.setGroup_memOk, MemOk, foldl_memOk]

theorem State.setThread_memOk {s : State} (t1 : Tid) (x : Thread) (h : MemOk s) : MemOk (State.setThread s t1 x) := by
  unfold State.setThread
  grind -ring -linarith -lia [State.modGroup_memOk, MemOk, foldl_memOk]

theorem State.modThread_memOk {s : State} (t1 : Tid) (f : Thread → Thread) (h : MemOk s) : MemOk (State.modThread s t1 f) := by
  unfold State.modThread
  grind -ring -linarith -lia [State.setThread_memOk, MemOk, foldl_memOk]

theorem State.modEng_memOk {s : State} (d : Dom) (f : Eng → Eng) (h : MemOk s) : MemOk (State.modEng s d f) := by
  unfold State.modEng
  grind -ring -linarith -lia [State.modCore_memOk, State.modUnit_memOk, MemOk, foldl_memOk]

theorem State.setSlot_memOk {s : State} (n : Nat) (x : Option Slot) (h : MemOk s) : MemOk (State.setSlot s n x) := by
  unfold State.setSlot
  grind -ring -linarith -lia [MemOk, foldl_memOk]

theorem State.modSlot_memOk {s : State} (n : Nat) (f : Slot → Slot) (h : MemOk s) : MemOk (State.modSlot s n f) := by
  unfold State.modSlot
  grind -ring -linarith -lia [State.setSlot_memOk, MemOk, foldl_memOk]

theorem State.draw_memOk {s : State} (h : MemOk s) : MemOk (State.draw s).2 := by
  unfold State.draw
  grind -ring -linarith -lia [MemOk, foldl_memOk]

theorem State.diePtime_memOk {s : State} (die : Nat) (h : MemOk s) : MemOk (State.diePtime s die).2 := by
  unfold State.diePtime
  grind -ring -linarith -lia [State.draw_memOk, MemOk, foldl_memOk]

theorem State.signalCore_memOk {s : State} (c : Nat) (idx : Nat) (n : Nat) (h : MemOk s) : MemOk (State.signalCore s c idx n) := by
  unfold State.signalCore
  grind -ring -linarith -lia [State.modCore_memOk, MemOk, foldl_memOk]

theorem State.signalGroup_memOk {s : State} (u : Nat) (g : Nat) (idx : Nat) (n : Nat) (h : MemOk s) : MemOk (State.signalGroup s u g idx n) := by
  unfold State.signalGroup
  grind -ring -linarith -lia [State.modGroup_memOk, MemOk, foldl_memOk]

theorem State.put_memOk {s : State} (c : Nat) (n : Nat) (l : Land) (h : MemOk s) : MemOk (State.put s c n l) := by
  unfold State.put
  grind -ring -linarith -lia [State.modCore_memOk, MemOk, foldl_memOk]

theorem State.wr_memOk {s : State} (n : Nat) (d : Opd) (x : Word) (h : MemOk s) : MemOk (State.wr s n d x) := by
  unfold State.wr
  grind -ring -linarith -lia [State.put_memOk, State.modThread_memOk, MemOk, foldl_memOk]

theorem State.wp_memOk {s : State} (n : Nat) (d : Fin 8) (mask : Pred) (x : Pred) (h : MemOk s) : MemOk (State.wp s n d mask x) := by
  unfold State.wp
  grind -ring -linarith -lia [State.put_memOk, State.modThread_memOk, MemOk, foldl_memOk]

theorem State.wv_memOk {s : State} (n : Nat) (d : Opd) (mask : Vec) (x : Vec) (h : MemOk s) : MemOk (State.wv s n d mask x) := by
  unfold State.wv
  grind -ring -linarith -lia [State.put_memOk, MemOk, foldl_memOk]

theorem State.raise_memOk {s : State} (n : Nat) (f : BitVec 5) (h : MemOk s) : MemOk (State.raise s n f) := by
  unfold State.raise
  grind -ring -linarith -lia [State.put_memOk, State.modThread_memOk, MemOk, foldl_memOk]

theorem State.advance_memOk {s : State} (h : MemOk s) : MemOk (State.advance s) := by
  unfold State.advance
  grind -ring -linarith -lia [State.modThread_memOk, MemOk, foldl_memOk]

theorem State.done_memOk {s : State} (h : MemOk s) {t : State} (e : State.done s = .ok t) : MemOk t := by
  unfold State.done at e
  grind -ring -linarith -lia [State.advance_memOk, MemOk, foldl_memOk]

theorem State.done_memOk_err {s : State} (h : MemOk s) {q : Fail} (e : State.done s = .error q) : MemOk q.st := by
  unfold State.done at e
  grind -ring -linarith -lia [State.advance_memOk, MemOk, foldl_memOk]

theorem State.fpDone_memOk {s : State} (n : Nat) (d : Opd) (r1 : Rnd) (h : MemOk s) {t : State} (e : State.fpDone s n d r1 = .ok t) : MemOk t := by
  unfold State.fpDone at e
  grind -ring -linarith -lia [State.wr_memOk, State.raise_memOk, → State.done_memOk, → State.done_memOk_err, → trapRes_memOk, → trapRes_memOk_err, MemOk, foldl_memOk]

theorem State.fpDone_memOk_err {s : State} (n : Nat) (d : Opd) (r1 : Rnd) (h : MemOk s) {q : Fail} (e : State.fpDone s n d r1 = .error q) : MemOk q.st := by
  unfold State.fpDone at e
  grind -ring -linarith -lia [State.wr_memOk, State.raise_memOk, → State.done_memOk, → State.done_memOk_err, → trapRes_memOk, → trapRes_memOk_err, MemOk, foldl_memOk]

theorem State.wvElems_memOk {s : State} (n : Nat) (d : Opd) (w : Nat) (xs : List (Option Nat)) (h : MemOk s) : MemOk (State.wvElems s n d w xs) := by
  unfold State.wvElems
  grind -ring -linarith -lia [State.wv_memOk, MemOk, foldl_memOk]

theorem State.setQueue_memOk {s : State} (q1 : Nat) (x : Queue) (h : MemOk s) : MemOk (State.setQueue s q1 x) := by
  unfold State.setQueue
  grind -ring -linarith -lia [MemOk, foldl_memOk]

theorem State.writeSector_memOk {s : State} (world : Bool) (sector : Nat) (cells : List Host.Cell) (h : MemOk s) : MemOk (State.writeSector s world sector cells) := by
  unfold State.writeSector
  (try dsimp only)
  (repeat' split) <;> grind [MemOk, setCells_wf, writeBytes_wf]

theorem State.writeSectors_memOk {s : State} (world : Bool) (cells : List Host.Cell) (h : MemOk s) : MemOk (State.writeSectors s world cells) := by
  unfold State.writeSectors
  grind -ring -linarith -lia [State.writeSector_memOk, MemOk, foldl_memOk]

theorem State.reeveWrite_memOk {s : State} (cells : List Host.Cell) (h : MemOk s) : MemOk (State.reeveWrite s cells) := by
  unfold State.reeveWrite
  grind -ring -linarith -lia [State.writeSectors_memOk, MemOk, foldl_memOk]

theorem State.errorLog_memOk {s : State} (sec : Bool) (src : Nat) (kind : Nat) (cause : Nat) (part : Nat) (jobid : Nat) (addr : Nat) (info : Nat) (h : MemOk s) : MemOk (State.errorLog s sec src kind cause part jobid addr info) := by
  unfold State.errorLog
  grind -ring -linarith -lia [State.reeveWrite_memOk, MemOk, foldl_memOk]

theorem State.openLogs_memOk {s : State} (h : MemOk s) : MemOk (State.openLogs s) := by
  unfold State.openLogs
  grind -ring -linarith -lia [State.reeveWrite_memOk, MemOk, foldl_memOk]

theorem State.noteWorld_memOk {s : State} (world : Bool) (pas : List Nat) (h : MemOk s) : MemOk (State.noteWorld s world pas) := by
  unfold State.noteWorld
  grind -ring -linarith -lia [State.errorLog_memOk, MemOk, foldl_memOk]

theorem State.homeWrite_memOk {s : State} (world : Bool) (cells : List Host.Cell) (h : MemOk s) : MemOk (State.homeWrite s world cells) := by
  unfold State.homeWrite
  grind -ring -linarith -lia [State.noteWorld_memOk, State.writeSectors_memOk, MemOk, foldl_memOk]

theorem State.homeFetch_memOk {s : State} (world : Bool) (pa : Nat) (n : Nat) (h : MemOk s) : MemOk (State.homeFetch s world pa n).2 := by
  unfold State.homeFetch
  grind -ring -linarith -lia [State.noteWorld_memOk, MemOk, foldl_memOk]

theorem State.later_memOk {s : State} (n : Nat) (h : MemOk s) : MemOk (State.later s n) := by
  unfold State.later
  grind -ring -linarith -lia [MemOk, foldl_memOk]

theorem State.take_memOk {s : State} (x : Stimulus) (rest : List Stimulus) (h : MemOk s) : MemOk (State.take s x rest) := by
  unfold State.take
  grind -ring -linarith -lia [State.later_memOk, MemOk, foldl_memOk]

theorem State.keepWalk_memOk {s : State} (n : Nat) (l : List WalkEntry) (h : MemOk s) : MemOk (State.keepWalk s n l) := by
  unfold State.keepWalk
  grind -ring -linarith -lia [State.take_memOk, MemOk, foldl_memOk]

theorem State.putLeaf_memOk {s : State} (w : Bool) (lf : Leaf) (e : Nat) (h : MemOk s) : MemOk (s.putLeaf w lf e) := by
  unfold State.putLeaf
  split
  · exact h
  · exact State.homeWrite_memOk _ _ h

theorem State.fillTlb_memOk {s : State} (n : Nat) (k : Ctx) (va : Nat) (write pref : Bool) (h : MemOk s) {r : _} {t : State} (e : State.fillTlb s n k va write pref = some (r, t)) : MemOk t := by
  unfold State.fillTlb at e
  have hk : ∀ l, MemOk (s.keepWalk n l) := fun _ => h
  generalize s.walk n k.world k.asid va = o at e
  match o, e with
  | some (lf, found), e =>
    simp only [Option.some.injEq, Prod.mk.injEq] at e
    obtain ⟨-, rfl⟩ := e
    exact State.putLeaf_memOk k.world lf _ (hk found)

theorem State.translateIn_memOk {s : State} (k : Ctx) (va : Nat) (write : Bool) (pref : Bool) (h : MemOk s) {r : _} {t : State} (e : State.translateIn s k va write pref = some (r, t)) : MemOk t := by
  unfold State.translateIn at e
  dsimp only at e
  split at e
  · split at e
    · refine State.fillTlb_memOk _ _ _ _ _ ?_ e
      exact h
    · simp only [Option.some.injEq, Prod.mk.injEq] at e
      obtain ⟨-, rfl⟩ := e
      exact h
  · exact State.fillTlb_memOk _ _ _ _ _ h e

theorem State.translate_memOk {s : State} (k : Ctx) (va : Nat) (write : Bool) (pref : Bool) (h : MemOk s) {r : _} {t : State} (e : State.translate s k va write pref = some (r, t)) : MemOk t := by
  unfold State.translate at e
  (repeat' split at e) <;> grind -ring -linarith -lia [→ State.translateIn_memOk]

theorem State.setTagMem_memOk {s : State} (pa : Nat) (tag : Nat) (h : MemOk s) : MemOk (State.setTagMem s pa tag) := by
  unfold State.setTagMem
  grind [MemOk, setByte_wf]

theorem State.writeBack_memOk {s : State} (l : Line) (h : MemOk s) : MemOk (State.writeBack s l) := by
  unfold State.writeBack
  grind -ring -linarith -lia [State.homeWrite_memOk, MemOk, foldl_memOk]

theorem State.cleanLines_memOk {s : State} (d : Dom) (p : Line → Bool) (h : MemOk s) : MemOk (State.cleanLines s d p) := by
  unfold State.cleanLines
  grind -ring -linarith -lia [State.writeBack_memOk, State.modEng_memOk, MemOk, foldl_memOk]

theorem State.dropLines_memOk {s : State} (d : Dom) (p : Line → Bool) (h : MemOk s) : MemOk (State.dropLines s d p) := by
  unfold State.dropLines
  grind -ring -linarith -lia [State.writeBack_memOk, State.modEng_memOk, MemOk, foldl_memOk]

theorem State.cleanBlocks_memOk {s : State} (d : Dom) (p : Line → Bool) (h : MemOk s) : MemOk (State.cleanBlocks s d p) := by
  unfold State.cleanBlocks
  grind -ring -linarith -lia [State.writeBack_memOk, State.modCore_memOk, MemOk, foldl_memOk]

theorem State.cleanAll_memOk {s : State} (d : Dom) (h : MemOk s) : MemOk (State.cleanAll s d) := by
  unfold State.cleanAll
  grind -ring -linarith -lia [State.cleanLines_memOk, State.cleanBlocks_memOk, MemOk, foldl_memOk]

theorem State.dropAll_memOk {s : State} (d : Dom) (h : MemOk s) : MemOk (State.dropAll s d) := by
  unfold State.dropAll
  grind -ring -linarith -lia [State.dropLines_memOk, MemOk, foldl_memOk]

theorem State.trimL1_memOk {s : State} (d : Dom) (n : Nat) (h : MemOk s) : MemOk (State.trimL1 s d n) := by
  unfold State.trimL1
  grind -ring -linarith -lia [State.writeBack_memOk, State.modEng_memOk, State.take_memOk, MemOk, foldl_memOk]

theorem State.fitL1_memOk {s : State} (d : Dom) (h : MemOk s) : MemOk (State.fitL1 s d) := by
  unfold State.fitL1
  grind -ring -linarith -lia [State.trimL1_memOk, MemOk, foldl_memOk]

theorem State.fillLine_memOk {s : State} (k : Ctx) (x : XByte) (h : MemOk s) : MemOk (State.fillLine s k x).2 := by
  unfold State.fillLine
  grind -ring -linarith -lia [State.dropLines_memOk, State.modEng_memOk, State.homeFetch_memOk, State.trimL1_memOk, MemOk, foldl_memOk]

theorem State.fillBlockLine_memOk {s : State} (k : Ctx) (x : XByte) (h : MemOk s) : MemOk (State.fillBlockLine s k x).2 := by
  unfold State.fillBlockLine
  grind -ring -linarith -lia [State.dropLines_memOk, State.homeFetch_memOk, MemOk, foldl_memOk]

theorem State.step3_memOk {s : State} (k : Ctx) (kind : AccKind) (prev : Option XByte) (a3 : List (Nat × Nat)) (h : MemOk s) {r : _} {t : State} (e : State.step3 s k kind prev a3 = .ok (r, t)) : MemOk t := by
  induction a3 generalizing s r t prev with
  | nil => unfold State.step3 at e; grind
  | cons x l ih =>
    unfold State.step3 at e
    (try dsimp only at e)
    (repeat' split at e) <;> grind -ring -linarith -lia [→ State.translate_memOk, MemOk, foldl_memOk]

theorem State.step3_memOk_err {s : State} (k : Ctx) (kind : AccKind) (prev : Option XByte) (a3 : List (Nat × Nat)) (h : MemOk s) {r : _} {t : State} (e : State.step3 s k kind prev a3 = .error (r, t)) : MemOk t := by
  induction a3 generalizing s r t prev with
  | nil => unfold State.step3 at e; grind
  | cons x l ih =>
    unfold State.step3 at e
    (try dsimp only at e)
    (repeat' split at e) <;> grind -ring -linarith -lia [→ State.translate_memOk, MemOk, foldl_memOk]

theorem State.noPreimages_memOk {s : State} (h : MemOk s) : MemOk (State.noPreimages s) := by
  unfold State.noPreimages
  grind -ring -linarith -lia [MemOk, foldl_memOk]

theorem State.touch_memOk {s : State} (k : Ctx) (ps : List Piece) (h : MemOk s) : MemOk (State.touch s k ps) := by
  unfold State.touch
  grind -ring -linarith -lia [State.modSlot_memOk, MemOk, foldl_memOk]

theorem State.access_memOk {s : State} (k : Ctx) (kind : AccKind) (addr : Nat) (n : Nat) (align : Nat) (h : MemOk s) {r : _} {t : State} (e : State.access s k kind addr n align = .ok (r, t)) : MemOk t := by
  unfold State.access at e
  grind -ring -linarith -lia [→ State.step3_memOk, → State.step3_memOk_err, State.touch_memOk, MemOk, foldl_memOk]

theorem State.access_memOk_err {s : State} (k : Ctx) (kind : AccKind) (addr : Nat) (n : Nat) (align : Nat) (h : MemOk s) {q : Fail} (e : State.access s k kind addr n align = .error q) : MemOk q.st := by
  unfold State.access at e
  grind -ring -linarith -lia [→ State.step3_memOk, → State.step3_memOk_err, State.touch_memOk, MemOk, foldl_memOk]

theorem State.loadByte_memOk {s : State} (k : Ctx) (x : XByte) (h : MemOk s) : MemOk (State.loadByte s k x).2 := by
  unfold State.loadByte
  grind -ring -linarith -lia [State.fillLine_memOk, MemOk, foldl_memOk]

theorem State.loadBytes_memOk {s : State} (k : Ctx) (a2 : List XByte) (h : MemOk s) : MemOk (State.loadBytes s k a2).2 := by
  induction a2 generalizing s with
  | nil => unfold State.loadBytes; grind
  | cons x l ih =>
    unfold State.loadBytes
    (try dsimp only)
    (repeat' split) <;> grind -ring -linarith -lia [State.loadByte_memOk, MemOk, foldl_memOk]

theorem State.peerLost_memOk {s : State} (what : Nat) (h : MemOk s) : MemOk (State.peerLost s what) := by
  unfold State.peerLost
  grind -ring -linarith -lia [MemOk, foldl_memOk]

theorem State.countPeer_memOk {s : State} (xs : List XByte) (what : Nat) (h : MemOk s) : MemOk (State.countPeer s xs what) := by
  unfold State.countPeer
  grind -ring -linarith -lia [State.peerLost_memOk, MemOk, foldl_memOk]

theorem State.readPieces_memOk {s : State} (k : Ctx) (ps : List Piece) (h : MemOk s) {r : _} {t : State} (e : State.readPieces s k ps = .ok (r, t)) : MemOk t := by
  unfold State.readPieces at e
  grind -ring -linarith -lia [State.countPeer_memOk, State.loadBytes_memOk, State.dropAll_memOk, MemOk, foldl_memOk]

theorem State.readPieces_memOk_err {s : State} (k : Ctx) (ps : List Piece) (h : MemOk s) {q : Fail} (e : State.readPieces s k ps = .error q) : MemOk q.st := by
  unfold State.readPieces at e
  grind -ring -linarith -lia [State.countPeer_memOk, State.loadBytes_memOk, State.dropAll_memOk, MemOk, foldl_memOk]

theorem State.load_memOk {s : State} (k : Ctx) (addr : Nat) (n : Nat) (align : Nat) (h : MemOk s) {r : _} {t : State} (e : State.load s k addr n align = .ok (r, t)) : MemOk t := by
  unfold State.load at e
  grind -ring -linarith -lia [→ State.access_memOk, → State.access_memOk_err, → State.readPieces_memOk, → State.readPieces_memOk_err, MemOk, foldl_memOk]

theorem State.load_memOk_err {s : State} (k : Ctx) (addr : Nat) (n : Nat) (align : Nat) (h : MemOk s) {q : Fail} (e : State.load s k addr n align = .error q) : MemOk q.st := by
  unfold State.load at e
  grind -ring -linarith -lia [→ State.access_memOk, → State.access_memOk_err, → State.readPieces_memOk, → State.readPieces_memOk_err, MemOk, foldl_memOk]

theorem State.storeByte_memOk {s : State} (k : Ctx) (x : XByte) (b : Byte) (h : MemOk s) : MemOk (State.storeByte s k x b) := by
  unfold State.storeByte
  grind -ring -linarith -lia [State.modCore_memOk, State.fillLine_memOk, State.homeWrite_memOk, State.modEng_memOk, MemOk, foldl_memOk]

theorem State.postWords_memOk {s : State} (k : Ctx) (bs : List (XByte × Byte)) (h : MemOk s) : MemOk (State.postWords s k bs) := by
  unfold State.postWords
  grind -ring -linarith -lia [MemOk, foldl_memOk]

theorem State.storeExt_memOk {s : State} (k : Ctx) (bs : List (XByte × Byte)) (h : MemOk s) : MemOk (State.storeExt s k bs) := by
  have hf : ∀ (l : List (XByte × Byte)) (m : Map Byte), Memory.wf m = true → Memory.wf (l.foldl (fun m c => setByte m c.1.pa c.2) m) = true := by
    intro l; induction l with
    | nil => intro m h; exact h
    | cons c l ih => intro m h; exact ih _ (setByte_wf _ _ h)
  unfold State.storeExt
  obtain ⟨h1, h2, h3⟩ := State.postWords_memOk k (bs.filter fun c => isWindow c.1.pa) h
  exact ⟨h1, h2, hf _ _ h3⟩

theorem State.storeBytes_memOk {s : State} (k : Ctx) (bs : List (XByte × Byte)) (h : MemOk s) : MemOk (State.storeBytes s k bs) := by
  unfold State.storeBytes
  grind -ring -linarith -lia [State.storeByte_memOk, State.countPeer_memOk, State.storeExt_memOk, MemOk, foldl_memOk]

theorem State.acquireAt_memOk {s : State} (d : Dom) (sc : Scope) (h : MemOk s) : MemOk (State.acquireAt s d sc) := by
  unfold State.acquireAt
  grind -ring -linarith -lia [State.dropAll_memOk, MemOk, foldl_memOk]

theorem State.loadLocal_memOk_err {s : State} (a : Agent) (off : Nat) (n : Nat) (h : MemOk s) {q : Fail} (e : State.loadLocal s a off n = .error q) : MemOk q.st := by
  unfold State.loadLocal at e
  grind -ring -linarith -lia [MemOk, foldl_memOk]

theorem State.storeLocal_memOk {s : State} (a : Agent) (off : Nat) (bs : List Byte) (h : MemOk s) : MemOk (State.storeLocal s a off bs) := by
  unfold State.storeLocal
  grind -ring -linarith -lia [State.modCore_memOk, State.modGroup_memOk, MemOk, foldl_memOk]

theorem State.storeScratch_memOk {s : State} (c : Nat) (cells : List Host.Cell) (h : MemOk s) : MemOk (State.storeScratch s c cells) := by
  unfold State.storeScratch
  grind -ring -linarith -lia [State.modCore_memOk, MemOk, foldl_memOk]

theorem State.setTdesc_memOk {s : State} (p : Nat) (d : TraceDesc) (h : MemOk s) : MemOk (State.setTdesc s p d) := by
  unfold State.setTdesc
  grind -ring -linarith -lia [MemOk, foldl_memOk]

theorem State.setTsrc_memOk {s : State} (p : Nat) (src : Nat) (x : TraceSrc) (h : MemOk s) : MemOk (State.setTsrc s p src x) := by
  unfold State.setTsrc
  grind -ring -linarith -lia [MemOk, foldl_memOk]

theorem State.stampFor_memOk {s : State} (src : Nat) (h : MemOk s) : MemOk (State.stampFor s src).2 := by
  unfold State.stampFor
  grind -ring -linarith -lia [State.diePtime_memOk, MemOk, foldl_memOk]

theorem State.traceStore_memOk {s : State} (src : Nat) (asid : Nat) (part : Nat) (world : Bool) (va : Nat) (bs : List Byte) (h : MemOk s) {t : State} (e : State.traceStore s src asid part world va bs = .ok t) : MemOk t := by
  unfold State.traceStore at e
  grind -ring -linarith -lia [→ State.access_memOk, → State.access_memOk_err, State.homeWrite_memOk, MemOk, foldl_memOk]

theorem State.ringWrite_memOk {s : State} (part : Nat) (src : Nat) (world : Bool) (bs : List Byte) (h : MemOk s) {t : State} (e : State.ringWrite s part src world bs = .ok (some t)) : MemOk t := by
  unfold State.ringWrite at e
  grind -ring -linarith -lia [State.wp_memOk, → State.traceStore_memOk, State.setTdesc_memOk, MemOk, foldl_memOk]

theorem State.loseRec_memOk {s : State} (part : Nat) (h : MemOk s) : MemOk (State.loseRec s part) := by
  unfold State.loseRec
  grind -ring -linarith -lia [State.setTdesc_memOk, MemOk, foldl_memOk]

theorem State.suspendTrace_memOk {s : State} (part : Nat) (va : Nat) (h : MemOk s) : MemOk (State.suspendTrace s part va) := by
  unfold State.suspendTrace
  grind -ring -linarith -lia [State.setTdesc_memOk, MemOk, foldl_memOk]

theorem State.wroteRec_memOk {s : State} (part : Nat) (src : Nat) (bs : List Byte) (h : MemOk s) : MemOk (State.wroteRec s part src bs) := by
  unfold State.wroteRec
  grind -ring -linarith -lia [State.setTsrc_memOk, MemOk, foldl_memOk]

theorem State.offer_memOk {s : State} (part : Nat) (src : Nat) (world : Bool) (bs : List Byte) (h : MemOk s) : MemOk (State.offer s part src world bs).2 := by
  unfold State.offer
  grind -ring -linarith -lia [State.loseRec_memOk, → State.ringWrite_memOk, State.setTsrc_memOk, State.wroteRec_memOk, State.setTdesc_memOk, State.suspendTrace_memOk, MemOk, foldl_memOk]

theorem State.offerHeld_memOk {s : State} (bs : List Byte) (h : MemOk s) : MemOk (State.offerHeld s bs).2 := by
  unfold State.offerHeld
  grind -ring -linarith -lia [State.offer_memOk, State.loseRec_memOk, MemOk, foldl_memOk]

theorem State.loseHeld_memOk {s : State} (l : List (List Byte)) (h : MemOk s) : MemOk (State.loseHeld s l) := by
  unfold State.loseHeld
  grind -ring -linarith -lia [State.loseRec_memOk, MemOk, foldl_memOk]

theorem State.settleFreeze_memOk {s : State} (slot : Nat) (h : MemOk s) : MemOk (State.settleFreeze s slot) := by
  unfold State.settleFreeze
  grind -ring -linarith -lia [State.modSlot_memOk, MemOk, foldl_memOk]

theorem State.settleCore_memOk {s : State} (c : Nat) (h : MemOk s) : MemOk (State.settleCore s c) := by
  unfold State.settleCore
  grind -ring -linarith -lia [State.settleFreeze_memOk, MemOk, foldl_memOk]

theorem State.holdRec_memOk {s : State} (part : Nat) (bs : List Byte) (a : Agent) (h : MemOk s) : MemOk (s.holdRec part bs a) := by
  unfold State.holdRec
  cases a with
  | core c sl => exact State.settleCore_memOk _ (State.modCore_memOk _ _ h)
  | thr t => exact State.modUnit_memOk _ _ (State.modThread_memOk _ _ h)

theorem State.emit_memOk {s : State} (r1 : Rec) (who : Option Agent) (h : MemOk s) : MemOk (State.emit s r1 who) := by
  unfold State.emit
  grind -ring -linarith -lia [State.stampFor_memOk, State.setTsrc_memOk, State.holdRec_memOk, State.offer_memOk, State.loseRec_memOk, MemOk, foldl_memOk]

theorem State.emitAt_memOk {s : State} (a : Agent) (evt : Nat) (cls : Nat) (full : Bool) (arg : Nat) (flow : Nat) (role : Nat) (h : MemOk s) : MemOk (State.emitAt s a evt cls full arg flow role) := by
  unfold State.emitAt
  grind -ring -linarith -lia [State.emit_memOk, MemOk, foldl_memOk]

theorem State.emitJobBy_memOk {s : State} (who : Option Agent) (src : Nat) (card : List Byte) (evt : Nat) (cls : Nat) (arg : Nat) (flow : Nat) (role : Nat) (h : MemOk s) : MemOk (State.emitJobBy s who src card evt cls arg flow role) := by
  unfold State.emitJobBy
  grind -ring -linarith -lia [State.emit_memOk, MemOk, foldl_memOk]

theorem State.emitJob_memOk {s : State} (src : Nat) (card : List Byte) (evt : Nat) (cls : Nat) (arg : Nat) (flow : Nat) (role : Nat) (h : MemOk s) : MemOk (State.emitJob s src card evt cls arg flow role) := by
  unfold State.emitJob
  grind -ring -linarith -lia [State.emitJobBy_memOk, MemOk, foldl_memOk]

theorem State.emitFree_memOk {s : State} (who : Option Agent) (src : Nat) (part : Nat) (world : Bool) (evt : Nat) (arg : Nat) (h : MemOk s) : MemOk (State.emitFree s who src part world evt arg) := by
  unfold State.emitFree
  grind -ring -linarith -lia [State.emit_memOk, MemOk, foldl_memOk]

theorem State.fullNext_memOk {s : State} (src : Nat) (h : MemOk s) : MemOk (State.fullNext s src) := by
  unfold State.fullNext
  grind -ring -linarith -lia [MemOk, foldl_memOk]

theorem State.setClock_memOk {s : State} (d : Dom) (mhz : Nat) (h : MemOk s) : MemOk (State.setClock s d mhz) := by
  unfold State.setClock
  grind -ring -linarith -lia [State.emitFree_memOk, State.fullNext_memOk, State.modEng_memOk, MemOk, foldl_memOk]

theorem State.newFlow_memOk {s : State} (h : MemOk s) : MemOk (State.newFlow s).2 := by
  unfold State.newFlow
  grind -ring -linarith -lia [MemOk, foldl_memOk]

theorem State.putArea_memOk {s : State} (world : Bool) (base : Nat) (bs : List Byte) (h : MemOk s) : MemOk (State.putArea s world base bs) := by
  unfold State.putArea
  grind -ring -linarith -lia [State.homeWrite_memOk, MemOk, foldl_memOk]

theorem State.dropCovered_memOk {s : State} (f : InvForm) (mine : Bool) (d : Dom) (h : MemOk s) : MemOk (State.dropCovered s f mine d) := by
  unfold State.dropCovered
  grind -ring -linarith -lia [State.dropLines_memOk, MemOk, foldl_memOk]

theorem State.removeEntries_memOk {s : State} (f : InvForm) (mine : Bool) (h : MemOk s) : MemOk (State.removeEntries s f mine) := by
  unfold State.removeEntries
  grind -ring -linarith -lia [State.dropCovered_memOk, MemOk, foldl_memOk]

theorem State.invalidate_memOk {s : State} (f : InvForm) (mine : Bool) (w : InvWaiter) (h : MemOk s) : MemOk (State.invalidate s f mine w) := by
  unfold State.invalidate
  grind -ring -linarith -lia [State.removeEntries_memOk, State.modCore_memOk, MemOk, foldl_memOk]

theorem State.resolveRemovals_memOk {s : State} (c : Nat) (h : MemOk s) : MemOk (State.resolveRemovals s c) := by
  unfold State.resolveRemovals
  grind -ring -linarith -lia [MemOk, foldl_memOk]

theorem State.awaitCopies_memOk {s : State} (c : Nat) (h : MemOk s) : MemOk (State.awaitCopies s c) := by
  unfold State.awaitCopies
  grind -ring -linarith -lia [MemOk, foldl_memOk]

theorem State.performRemovals_memOk {s : State} (c : Nat) (h : MemOk s) : MemOk (State.performRemovals s c) := by
  unfold State.performRemovals
  grind -ring -linarith -lia [State.dropCovered_memOk, State.awaitCopies_memOk, State.resolveRemovals_memOk, State.modCore_memOk, MemOk, foldl_memOk]

theorem State.threadStall_memOk {s : State} (t1 : Tid) (cause : Nat) (since : Nat) (h : MemOk s) : MemOk (State.threadStall s t1 cause since) := by
  unfold State.threadStall
  grind -ring -linarith -lia [State.emitAt_memOk, MemOk, foldl_memOk]

theorem State.endOperandWait_memOk {s : State} (t1 : Tid) (h : MemOk s) : MemOk (State.endOperandWait s t1) := by
  unfold State.endOperandWait
  grind -ring -linarith -lia [State.threadStall_memOk, State.modThread_memOk, MemOk, foldl_memOk]

theorem State.wake_memOk {s : State} (t1 : Tid) (h : MemOk s) : MemOk (State.wake s t1) := by
  unfold State.wake
  grind -ring -linarith -lia [State.threadStall_memOk, State.modThread_memOk, MemOk, foldl_memOk]

theorem State.takeImage_memOk {s : State} (t1 : Tid) (n : Nat) (data : List Byte) (h : MemOk s) : MemOk (State.takeImage s t1 n data) := by
  unfold State.takeImage
  grind -ring -linarith -lia [State.modEng_memOk, MemOk, foldl_memOk]

theorem State.imageOf_memOk {s : State} (t1 : Tid) (regs : List Nat) (n : Nat) (data : List Byte) (h : MemOk s) : MemOk (State.imageOf s t1 regs n data) := by
  unfold State.imageOf
  grind -ring -linarith -lia [State.modThread_memOk, State.takeImage_memOk, MemOk, foldl_memOk]

theorem State.landBusy_memOk {s : State} (t1 : Tid) (i : Nat) (h : MemOk s) : MemOk (State.landBusy s t1 i) := by
  unfold State.landBusy
  grind -ring -linarith -lia [State.takeImage_memOk, State.modThread_memOk, MemOk, foldl_memOk]

theorem State.landAllBusy_memOk {s : State} (t1 : Tid) (h : MemOk s) : MemOk (State.landAllBusy s t1) := by
  unfold State.landAllBusy
  grind -ring -linarith -lia [State.takeImage_memOk, State.modThread_memOk, MemOk, foldl_memOk]

theorem State.writeShare_memOk {s : State} (job : Nat) (p : CopyEnd) (off : Nat) (bs : List Byte) (h : MemOk s) : MemOk (State.writeShare s job p off bs) := by
  unfold State.writeShare
  grind -ring -linarith -lia [State.storeLocal_memOk, State.modSlot_memOk, MemOk, foldl_memOk]

theorem State.signalPlace_memOk {s : State} (job : Nat) (p : CopyEnd) (h : MemOk s) : MemOk (State.signalPlace s job p) := by
  unfold State.signalPlace
  grind -ring -linarith -lia [State.signalCore_memOk, State.homeWrite_memOk, State.signalGroup_memOk, MemOk, foldl_memOk]

theorem State.countLanding_memOk {s : State} (job : Nat) (n : Nat) (p : CopyEnd) (h : MemOk s) : MemOk (State.countLanding s job n p) := by
  unfold State.countLanding
  grind -ring -linarith -lia [State.writeShare_memOk, MemOk, foldl_memOk]

theorem State.copyStore_memOk {s : State} (k : Ctx) (job : Nat) (p : CopyEnd) (lo : Nat) (bs : List Byte) (h : MemOk s) {t : State} (e : State.copyStore s k job p lo bs = .ok t) : MemOk t := by
  unfold State.copyStore at e
  grind -ring -linarith -lia [State.take_memOk, State.dropLines_memOk, State.homeWrite_memOk, State.countPeer_memOk, State.storeExt_memOk, State.writeShare_memOk, MemOk, foldl_memOk]

theorem State.wakeCopySlot_memOk {s : State} (d : Dom) (h : MemOk s) : MemOk (State.wakeCopySlot s d) := by
  unfold State.wakeCopySlot
  grind -ring -linarith -lia [State.wake_memOk, MemOk, foldl_memOk]

theorem State.modCopy_memOk {s : State} (d : Dom) (i : Nat) (f : Copy → Copy) (h : MemOk s) : MemOk (State.modCopy s d i f) := by
  unfold State.modCopy
  grind -ring -linarith -lia [State.modEng_memOk, MemOk, foldl_memOk]

theorem State.endCopy_memOk {s : State} (d : Dom) (i : Nat) (h : MemOk s) : MemOk (State.endCopy s d i) := by
  unfold State.endCopy
  grind -ring -linarith -lia [State.modEng_memOk, State.wakeCopySlot_memOk, MemOk, foldl_memOk]

theorem State.noteReads_memOk {s : State} (k : Ctx) (xs : List XByte) (h : MemOk s) : MemOk (State.noteReads s k xs) := by
  unfold State.noteReads
  grind -ring -linarith -lia [State.noteWorld_memOk, State.countPeer_memOk, MemOk, foldl_memOk]

theorem State.landPiece_memOk {s : State} (d : Dom) (i j : Nat) (h : MemOk s) : MemOk (State.landPiece s d i j) := by
  unfold State.landPiece
  split
  · exact h
  · split
    · exact h
    · split
      · exact h
      · dsimp only
        have hn := fun (k : Ctx) (l : List XByte) => State.noteReads_memOk k l h
        split
        · exact State.modCopy_memOk _ _ _ (hn _ _)
        · split
          · exact State.modCopy_memOk _ _ _ (hn _ _)
          · rename_i s1 e
            have h1 := State.copyStore_memOk _ _ _ _ _ (hn _ _) e
            have h2 := fun (f : Copy → Copy) (job n : Nat) (l : List CopyEnd) => foldl_memOk (fun s p => s.countLanding job n p) l
              (fun s p hs => State.countLanding_memOk job n p hs) (State.modCopy_memOk d i f h1)
            split
            · exact State.endCopy_memOk _ _ (foldl_memOk _ _ (fun s p hs => State.signalPlace_memOk _ p hs) (h2 _ _ _ _))
            · exact h2 _ _ _ _

theorem State.landNext_memOk {s : State} (d : Dom) (n : Nat) (h : MemOk s) : MemOk (s.landNext d n) := by
  induction n generalizing s with
  | zero => exact h
  | succ n ih =>
    unfold State.landNext
    split
    · exact h
    · exact ih (State.landPiece_memOk _ _ _ h)

theorem State.landCopies_memOk {s : State} (d : Dom) (h : MemOk s) : MemOk (State.landCopies s d) := by
  unfold State.landCopies
  grind -ring -linarith -lia [State.landNext_memOk, MemOk, foldl_memOk]

theorem State.releaseAt_memOk {s : State} (d : Dom) (sc : Scope) (h : MemOk s) : MemOk (State.releaseAt s d sc) := by
  unfold State.releaseAt
  grind -ring -linarith -lia [State.landCopies_memOk, State.cleanAll_memOk, MemOk, foldl_memOk]

theorem State.forgetPayer_memOk {s : State} (n : Nat) (h : MemOk s) : MemOk (State.forgetPayer s n) := by
  unfold State.forgetPayer
  grind -ring -linarith -lia [MemOk, foldl_memOk]

theorem State.settleServer_memOk {s : State} (cls : Nat) (h : MemOk s) : MemOk (State.settleServer s cls) := by
  unfold State.settleServer
  grind -ring -linarith -lia [MemOk, foldl_memOk]

theorem State.settleServers_memOk {s : State} (h : MemOk s) : MemOk (State.settleServers s) := by
  unfold State.settleServers
  grind -ring -linarith -lia [State.settleServer_memOk, MemOk, foldl_memOk]

theorem State.startCore_memOk {s : State} (c : Nat) (slot : Nat) (idx : Nat) (zero : Bool) (h : MemOk s) : MemOk (State.startCore s c slot idx zero) := by
  unfold State.startCore
  grind -ring -linarith -lia [State.modCore_memOk, State.fitL1_memOk, MemOk, foldl_memOk]

theorem State.loadArgs_memOk {s : State} (k : Ctx) (args : Nat) (a3 : Nat) (h : MemOk s) {r : _} {t : State} (e : State.loadArgs s k args a3 = .ok (r, t)) : MemOk t := by
  induction a3 generalizing s r t with
  | zero => unfold State.loadArgs at e; grind
  | succ n ih =>
    unfold State.loadArgs at e
    (try dsimp only at e)
    (repeat' split at e) <;> grind -ring -linarith -lia [→ State.load_memOk, → State.load_memOk_err, MemOk, foldl_memOk]

theorem State.loadArgs_memOk_err {s : State} (k : Ctx) (args : Nat) (a3 : Nat) (h : MemOk s) {q : Fail} (e : State.loadArgs s k args a3 = .error q) : MemOk q.st := by
  induction a3 generalizing s q with
  | zero => unfold State.loadArgs at e; grind
  | succ n ih =>
    unfold State.loadArgs at e
    (try dsimp only at e)
    (repeat' split at e) <;> grind -ring -linarith -lia [→ State.load_memOk, → State.load_memOk_err, MemOk, foldl_memOk, → State.loadArgs_memOk]

theorem State.jobArgs_memOk {s : State} (d : Dom) (slot : Nat) (h : MemOk s) {r : _} {t : State} (e : State.jobArgs s d slot = .ok (r, t)) : MemOk t := by
  unfold State.jobArgs at e
  grind -ring -linarith -lia [→ State.loadArgs_memOk, → State.loadArgs_memOk_err, MemOk, foldl_memOk]

theorem State.jobArgs_memOk_err {s : State} (d : Dom) (slot : Nat) (h : MemOk s) {q : Fail} (e : State.jobArgs s d slot = .error q) : MemOk q.st := by
  unfold State.jobArgs at e
  grind -ring -linarith -lia [→ State.loadArgs_memOk, → State.loadArgs_memOk_err, MemOk, foldl_memOk]

theorem State.startGroup_memOk {s : State} (u : Nat) (slot : Nat) (gidx : Nat) (h : MemOk s) {t : State} (e : State.startGroup s u slot gidx = .ok t) : MemOk t := by
  unfold State.startGroup at e
  grind -ring -linarith -lia [State.modUnit_memOk, State.dropAll_memOk, State.setGroup_memOk, → State.jobArgs_memOk, → State.jobArgs_memOk_err, State.modGroup_memOk, MemOk, foldl_memOk]

theorem State.startGroup_memOk_err {s : State} (u : Nat) (slot : Nat) (gidx : Nat) (h : MemOk s) {q : Fail} (e : State.startGroup s u slot gidx = .error q) : MemOk q.st := by
  unfold State.startGroup at e
  grind -ring -linarith -lia [State.modUnit_memOk, State.dropAll_memOk, State.setGroup_memOk, → State.jobArgs_memOk, → State.jobArgs_memOk_err, State.modGroup_memOk, MemOk, foldl_memOk]

theorem State.replayShare_memOk {s : State} (c : Nat) (slot : Nat) (idx : Nat) (h : MemOk s) : MemOk (State.replayShare s c slot idx) := by
  unfold State.replayShare
  grind -ring -linarith -lia [State.modCore_memOk, State.take_memOk, MemOk, foldl_memOk]

theorem State.defer_memOk {s : State} (e1 : Eff) (h : MemOk s) : MemOk (State.defer s e1) := by
  unfold State.defer
  grind -ring -linarith -lia [MemOk, foldl_memOk]

theorem State.storeOut_memOk {s : State} (k : Ctx) (ps : List Piece) (bs : List Byte) (h : MemOk s) : MemOk (State.storeOut s k ps bs) := by
  unfold State.storeOut
  grind -ring -linarith -lia [State.defer_memOk, State.storeBytes_memOk, MemOk, foldl_memOk]

theorem State.countGst_memOk {s : State} (n : Nat) (h : MemOk s) : MemOk (State.countGst s n) := by
  unfold State.countGst
  grind -ring -linarith -lia [State.modCore_memOk, MemOk, foldl_memOk]

theorem State.st_memOk {s : State} (m : MemMod) (d : Opd) (a : Opd) (b : Opd) (h : MemOk s) {t : State} (e : State.st s m d a b = .ok t) : MemOk t := by
  unfold State.st at e
  grind -ring -linarith -lia [→ State.access_memOk, → State.access_memOk_err, State.releaseAt_memOk, State.storeOut_memOk, State.countGst_memOk, → State.done_memOk, → State.done_memOk_err, MemOk, foldl_memOk]

theorem State.st_memOk_err {s : State} (m : MemMod) (d : Opd) (a : Opd) (b : Opd) (h : MemOk s) {q : Fail} (e : State.st s m d a b = .error q) : MemOk q.st := by
  unfold State.st at e
  grind -ring -linarith -lia [→ State.access_memOk, → State.access_memOk_err, State.releaseAt_memOk, State.storeOut_memOk, State.countGst_memOk, → State.done_memOk, → State.done_memOk_err, MemOk, foldl_memOk]

theorem State.beginParts_memOk {s : State} (slot : Nat) (zero : Bool) (h : MemOk s) : MemOk (State.beginParts s slot zero).1 := by
  unfold State.beginParts
  dsimp only
  refine foldl_pred (fun r : State × Option Trap => MemOk r.1) _ _ (fun r x h => ?_) h
  split
  · exact State.replayShare_memOk _ _ _ (State.startCore_memOk _ _ _ _ h)
  · split
    · exact h
    · split
      · rename_i e; exact State.startGroup_memOk _ _ _ h e
      · rename_i e; exact State.startGroup_memOk_err _ _ _ h e

theorem State.rollbackCore_memOk {s : State} (c : Nat) (h : MemOk s) : MemOk (State.rollbackCore s c) := by
  unfold State.rollbackCore
  grind -ring -linarith -lia [State.modCore_memOk, State.resolveRemovals_memOk, MemOk, foldl_memOk]

theorem State.endStall_memOk {s : State} (c : Nat) (h : MemOk s) : MemOk (State.endStall s c) := by
  unfold State.endStall
  grind -ring -linarith -lia [State.emitAt_memOk, State.modCore_memOk, MemOk, foldl_memOk]

theorem State.rollbackRec_memOk {s : State} (c : Nat) (cause : Nat) (h : MemOk s) : MemOk (State.rollbackRec s c cause) := by
  unfold State.rollbackRec
  grind -ring -linarith -lia [State.emitAt_memOk, State.rollbackCore_memOk, MemOk, foldl_memOk]

theorem State.rollback_memOk {s : State} (c : Nat) (cause : Nat) (h : MemOk s) : MemOk (State.rollback s c cause) := by
  unfold State.rollback
  grind -ring -linarith -lia [State.rollbackRec_memOk, MemOk, foldl_memOk]

theorem State.freeBlock_memOk {s : State} (c : Nat) (n : Nat) (own : Bool) (h : MemOk s) : MemOk (State.freeBlock s c n own) := by
  unfold State.freeBlock
  grind -ring -linarith -lia [State.writeBack_memOk, State.modCore_memOk, MemOk, foldl_memOk]

theorem State.freeBlocks_memOk {s : State} (c : Nat) (h : MemOk s) : MemOk (State.freeBlocks s c) := by
  unfold State.freeBlocks
  grind -ring -linarith -lia [State.writeBack_memOk, State.modCore_memOk, MemOk, foldl_memOk]

theorem State.leaveQueues_memOk {s : State} (p : Tid → Bool) (h : MemOk s) : MemOk (State.leaveQueues s p) := by
  unfold State.leaveQueues
  grind -ring -linarith -lia [MemOk, foldl_memOk]

theorem State.dropLeaves_memOk {s : State} (p : LeaveReq → Bool) (h : MemOk s) : MemOk (State.dropLeaves s p) := by
  unfold State.dropLeaves
  grind -ring -linarith -lia [MemOk, foldl_memOk]

theorem State.endCore_memOk {s : State} (c : Nat) (h : MemOk s) : MemOk (State.endCore s c) := by
  unfold State.endCore
  grind -ring -linarith -lia [State.endStall_memOk, State.rollbackCore_memOk, State.modCore_memOk, State.freeBlocks_memOk, State.dropLeaves_memOk, MemOk, foldl_memOk]

theorem State.endWaits_memOk {s : State} (u : Nat) (g : Nat) (h : MemOk s) : MemOk (State.endWaits s u g) := by
  unfold State.endWaits
  grind -ring -linarith -lia [State.endOperandWait_memOk, State.threadStall_memOk, MemOk, foldl_memOk]

theorem State.endFreeze_memOk {s : State} (t1 : Tid) (h : MemOk s) : MemOk (State.endFreeze s t1) := by
  unfold State.endFreeze
  grind -ring -linarith -lia [State.emitAt_memOk, State.modEng_memOk, MemOk, foldl_memOk]

theorem State.endGroup_memOk {s : State} (u : Nat) (g : Nat) (h : MemOk s) : MemOk (State.endGroup s u g) := by
  unfold State.endGroup
  grind -ring -linarith -lia [State.endFreeze_memOk, State.endWaits_memOk, State.loseHeld_memOk, State.leaveQueues_memOk, State.dropLeaves_memOk, State.modGroup_memOk, State.modUnit_memOk, MemOk, foldl_memOk]

theorem State.spendRuns_memOk {s : State} (slot : Nat) (h : MemOk s) : MemOk (State.spendRuns s slot) := by
  unfold State.spendRuns
  grind -ring -linarith -lia [State.modSlot_memOk, MemOk, foldl_memOk]

theorem State.endParts_memOk {s : State} (slot : Nat) (cause : Nat) (h : MemOk s) : MemOk (State.endParts s slot cause) := by
  unfold State.endParts
  grind -ring -linarith -lia [State.spendRuns_memOk, State.rollbackRec_memOk, State.endCore_memOk, State.loseHeld_memOk, State.modCore_memOk, State.endGroup_memOk, State.settleFreeze_memOk, MemOk, foldl_memOk]

theorem State.finishJob_memOk {s : State} (slot : Nat) (status : Nat) (cause : Nat) (h : MemOk s) : MemOk (State.finishJob s slot status cause) := by
  unfold State.finishJob
  grind -ring -linarith -lia [State.settleServers_memOk, State.endParts_memOk, State.modSlot_memOk, MemOk, foldl_memOk]

theorem State.stage_memOk {s : State} (t1 : Tid) (n : Nat) (v : Word) (h : MemOk s) : MemOk (State.stage s t1 n v) := by
  unfold State.stage
  grind -ring -linarith -lia [State.modGroup_memOk, MemOk, foldl_memOk]

theorem State.idle_memOk {s : State} (h : MemOk s) : MemOk (State.idle s) := by
  unfold State.idle
  grind -ring -linarith -lia [State.later_memOk, MemOk, foldl_memOk]

theorem State.freeCore_memOk {s : State} (c : Nat) (h : MemOk s) : MemOk (State.freeCore s c) := by
  unfold State.freeCore
  grind -ring -linarith -lia [State.stage_memOk, State.setClock_memOk, State.modCore_memOk, State.idle_memOk, MemOk, foldl_memOk]

theorem State.freeGroup_memOk {s : State} (u : Nat) (g : Nat) (h : MemOk s) : MemOk (State.freeGroup s u g) := by
  unfold State.freeGroup
  grind -ring -linarith -lia [State.modUnit_memOk, MemOk, foldl_memOk]

theorem State.freeEngines_memOk {s : State} (slot : Nat) (h : MemOk s) : MemOk (State.freeEngines s slot) := by
  unfold State.freeEngines
  grind -ring -linarith -lia [State.freeCore_memOk, State.freeGroup_memOk, MemOk, foldl_memOk]

theorem State.saveCore_memOk {s : State} (c : Nat) (slot : Nat) (rollback : Bool) (h : MemOk s) : MemOk (State.saveCore s c slot rollback) := by
  unfold State.saveCore
  grind -ring -linarith -lia [State.endStall_memOk, State.rollbackCore_memOk, State.rollbackRec_memOk, State.putArea_memOk, State.modSlot_memOk, State.freeBlocks_memOk, State.cleanAll_memOk, State.dropLeaves_memOk, State.modCore_memOk, State.freeCore_memOk, MemOk, foldl_memOk]

theorem State.saveGroup_memOk {s : State} (u : Nat) (slot : Nat) (gidx : Nat) (h : MemOk s) : MemOk (State.saveGroup s u slot gidx) := by
  unfold State.saveGroup
  grind -ring -linarith -lia [State.endFreeze_memOk, State.endWaits_memOk, State.cleanAll_memOk, State.landAllBusy_memOk, State.leaveQueues_memOk, State.dropLeaves_memOk, State.putArea_memOk, State.modSlot_memOk, State.freeGroup_memOk, MemOk, foldl_memOk]

theorem State.saveJob_memOk {s : State} (slot : Nat) (rollback : Bool) (h : MemOk s) : MemOk (State.saveJob s slot rollback) := by
  unfold State.saveJob
  grind -ring -linarith -lia [State.spendRuns_memOk, State.modSlot_memOk, State.saveCore_memOk, State.saveGroup_memOk, State.settleFreeze_memOk, State.emitJob_memOk, MemOk, foldl_memOk]

theorem State.refillBlock_memOk {s : State} (c : Nat) (slot : Nat) (bs : List Byte) (i : Nat) (h : MemOk s) : MemOk (State.refillBlock s c slot bs i) := by
  have hp : ∀ {α β : Type} (f : α × State → β → α × State) (l : List β) (r : α × State), (∀ r x, MemOk r.2 → MemOk (f r x).2) → MemOk r.2 → MemOk (l.foldl f r).2 := by
    intro α β f l; induction l with
    | nil => intro r _ h; exact h
    | cons x l ih => intro r hf h; exact ih _ hf (hf r x h)
  unfold State.refillBlock
  (try dsimp only)
  split
  · exact h
  · split
    · rename_i f e1
      exact State.modCore_memOk _ _ (State.freeBlock_memOk _ _ _ (State.access_memOk_err _ _ _ _ _ h e1))
    · rename_i ps s1 e1
      exact State.fitL1_memOk _ (State.modCore_memOk _ _ (hp _ _ _ (fun r x hr => State.fillBlockLine_memOk _ _ hr) (State.access_memOk _ _ _ _ _ h e1)))

theorem State.restoreCore_memOk {s : State} (c : Nat) (slot : Nat) (idx : Nat) (snap : Bool) (h : MemOk s) {t : State} (e : State.restoreCore s c slot idx snap = some t) : MemOk t := by
  unfold State.restoreCore at e
  grind -ring -linarith -lia [State.modSlot_memOk, State.startCore_memOk, State.take_memOk, State.modCore_memOk, State.refillBlock_memOk, State.settleFreeze_memOk, MemOk, foldl_memOk]

theorem State.splitWalker_memOk {s : State} (c : Nat) (h : MemOk s) : MemOk (State.splitWalker s c) := by
  unfold State.splitWalker
  grind -ring -linarith -lia [State.modCore_memOk, MemOk, foldl_memOk]

theorem State.restoreGroup_memOk {s : State} (u : Nat) (slot : Nat) (gidx : Nat) (h : MemOk s) {t : State} (e : State.restoreGroup s u slot gidx = some t) : MemOk t := by
  unfold State.restoreGroup at e
  grind -ring -linarith -lia [State.take_memOk, State.modUnit_memOk, State.setGroup_memOk, State.fitL1_memOk, MemOk, foldl_memOk]

theorem State.restart_memOk {s : State} (n : Nat) (snap : Bool) (h : MemOk s) : MemOk (State.restart s n snap) := by
  unfold State.restart
  grind -ring -linarith -lia [State.modSlot_memOk, State.errorLog_memOk, MemOk, foldl_memOk]

theorem State.dropWords_memOk {s : State} (slot : Nat) (h : MemOk s) : MemOk (State.dropWords s slot) := by
  unfold State.dropWords
  grind -ring -linarith -lia [MemOk, foldl_memOk]

theorem State.endJob_memOk {s : State} (slot : Nat) (cause : Nat) (h : MemOk s) : MemOk (State.endJob s slot cause) := by
  unfold State.endJob
  grind -ring -linarith -lia [State.dropWords_memOk, State.finishJob_memOk, State.endParts_memOk, State.freeEngines_memOk, State.restart_memOk, State.errorLog_memOk, State.modSlot_memOk, → State.restoreCore_memOk, State.beginParts_memOk, MemOk, foldl_memOk]

theorem State.endByTrap_memOk {s : State} (slot : Nat) (src : Nat) (kind : Nat) (cause : Nat) (addr : Word) (tpc : Word) (h : MemOk s) : MemOk (State.endByTrap s slot src kind cause addr tpc) := by
  unfold State.endByTrap
  grind -ring -linarith -lia [State.errorLog_memOk, State.endJob_memOk, MemOk, foldl_memOk]

theorem State.deviceRead_memOk {s : State} (card : List Byte) (va : Nat) (n : Nat) (align : Nat) (h : MemOk s) {r : _} {t : State} (e : State.deviceRead s card va n align = .ok (r, t)) : MemOk t := by
  unfold State.deviceRead at e
  grind -ring -linarith -lia [→ State.access_memOk, → State.access_memOk_err, → State.load_memOk, → State.load_memOk_err, MemOk, foldl_memOk]

theorem State.deviceRead_memOk_err {s : State} (card : List Byte) (va : Nat) (n : Nat) (align : Nat) (h : MemOk s) {q : Fail} (e : State.deviceRead s card va n align = .error q) : MemOk q.st := by
  unfold State.deviceRead at e
  grind -ring -linarith -lia [→ State.access_memOk, → State.access_memOk_err, → State.load_memOk, → State.load_memOk_err, MemOk, foldl_memOk]

theorem State.deviceWrite_memOk {s : State} (card : List Byte) (va : Nat) (bs : List Byte) (align : Nat) (h : MemOk s) {t : State} (e : State.deviceWrite s card va bs align = .ok t) : MemOk t := by
  unfold State.deviceWrite at e
  grind -ring -linarith -lia [→ State.access_memOk, → State.access_memOk_err, State.homeWrite_memOk, State.storeExt_memOk, MemOk, foldl_memOk]

theorem State.deviceWrite_memOk_err {s : State} (card : List Byte) (va : Nat) (bs : List Byte) (align : Nat) (h : MemOk s) {q : Fail} (e : State.deviceWrite s card va bs align = .error q) : MemOk q.st := by
  unfold State.deviceWrite at e
  grind -ring -linarith -lia [→ State.access_memOk, → State.access_memOk_err, State.homeWrite_memOk, State.storeExt_memOk, MemOk, foldl_memOk]

theorem State.performJob_memOk {s : State} (z : Slot) (h : MemOk s) : MemOk (State.performJob s z) := by
  unfold State.performJob
  grind -ring -linarith -lia [State.cleanAll_memOk, MemOk, foldl_memOk]

theorem State.satisfyEdges_memOk {s : State} (n : Nat) (h : MemOk s) : MemOk (State.satisfyEdges s n) := by
  unfold State.satisfyEdges
  grind -ring -linarith -lia [MemOk, foldl_memOk]

theorem State.writeCompletion_memOk {s : State} (z : Slot) (h : MemOk s) : MemOk (State.writeCompletion s z) := by
  unfold State.writeCompletion
  grind -ring -linarith -lia [→ State.deviceWrite_memOk, → State.deviceWrite_memOk_err, → State.st_memOk, → State.st_memOk_err, State.errorLog_memOk, MemOk, foldl_memOk]

theorem State.freeSlot_memOk {s : State} (n : Nat) (h : MemOk s) : MemOk (State.freeSlot s n) := by
  unfold State.freeSlot
  grind -ring -linarith -lia [State.setSlot_memOk, State.forgetPayer_memOk, State.modCore_memOk, MemOk, foldl_memOk]

theorem State.takeMiss_memOk {s : State} (n : Nat) (z : Slot) (h : MemOk s) : MemOk (State.takeMiss s n z) := by
  unfold State.takeMiss
  grind -ring -linarith -lia [State.settleServers_memOk, State.emitJob_memOk, State.modSlot_memOk, State.finishJob_memOk, MemOk, foldl_memOk]

theorem State.endReplay_memOk {s : State} (n : Nat) (h : MemOk s) : MemOk (State.endReplay s n) := by
  unfold State.endReplay
  generalize allDoms = l
  split
  · exact h
  · have h1 : MemOk (l.foldl (fun s d => s.modEng d fun e => { e with l1 := e.l1.filter fun l => l.asid != privateAsid n }) s) :=
      foldl_memOk _ l (fun s d hs => State.modEng_memOk d _ hs) h
    exact State.modSlot_memOk _ _ ⟨filter_wf _ h1.1, h1.2⟩

theorem State.completeJob_memOk {s : State} (n : Nat) (h : MemOk s) : MemOk (State.completeJob s n) := by
  unfold State.completeJob
  grind -ring -linarith -lia [State.takeMiss_memOk, State.settleServers_memOk, State.performJob_memOk, State.satisfyEdges_memOk, State.writeCompletion_memOk, State.emitJob_memOk, State.freeEngines_memOk, State.endReplay_memOk, State.modSlot_memOk, State.freeSlot_memOk, MemOk, foldl_memOk]

theorem State.releaseCard_memOk {s : State} (slot : Nat) (time : Nat) (flow : Nat) (h : MemOk s) : MemOk (State.releaseCard s slot time flow) := by
  unfold State.releaseCard
  grind -ring -linarith -lia [State.settleServers_memOk, State.modSlot_memOk, MemOk, foldl_memOk]

theorem State.turnAway_memOk {s : State} (slot : Nat) (time : Nat) (flow : Nat) (h : MemOk s) : MemOk (State.turnAway s slot time flow) := by
  unfold State.turnAway
  grind -ring -linarith -lia [State.modSlot_memOk, MemOk, foldl_memOk]

theorem State.takeRelease_memOk {s : State} (slot : Nat) (flow : Nat) (h : MemOk s) : MemOk (State.takeRelease s slot flow) := by
  unfold State.takeRelease
  grind -ring -linarith -lia [State.completeJob_memOk, State.modSlot_memOk, State.turnAway_memOk, State.releaseCard_memOk, MemOk, foldl_memOk]

theorem State.releaseTurned_memOk {s : State} (slot : Nat) (h : MemOk s) : MemOk (State.releaseTurned s slot) := by
  unfold State.releaseTurned
  grind -ring -linarith -lia [State.modSlot_memOk, State.takeRelease_memOk, State.releaseCard_memOk, MemOk, foldl_memOk]

theorem State.launch_memOk {s : State} (card : List Byte) (jobid : Nat) (h : MemOk s) {t : State} (e : State.launch s card jobid = .ok t) : MemOk t := by
  unfold State.launch at e
  grind -ring -linarith -lia [State.newFlow_memOk, State.emitJob_memOk, State.takeRelease_memOk, MemOk, foldl_memOk]

theorem State.putSb_memOk {s : State} (c : Nat) (e1 : SbEntry) (h : MemOk s) : MemOk (State.putSb s c e1) := by
  unfold State.putSb
  grind -ring -linarith -lia [State.modCore_memOk, MemOk, foldl_memOk]

theorem State.putTag_memOk {s : State} (k : Ctx) (x : XByte) (tag : Nat) (h : MemOk s) : MemOk (State.putTag s k x tag) := by
  unfold State.putTag
  grind -ring -linarith -lia [State.noteWorld_memOk, State.setTagMem_memOk, State.modEng_memOk, State.modCore_memOk, MemOk, foldl_memOk]

theorem State.startCopy_memOk {s : State} (d : Dom) (c : Copy) (h : MemOk s) : MemOk (State.startCopy s d c) := by
  unfold State.startCopy
  grind -ring -linarith -lia [State.modEng_memOk, MemOk, foldl_memOk]

theorem State.writeLoc_memOk {s : State} (c : Nat) (cells : List Host.Cell) (h : MemOk s) : MemOk (State.writeLoc s c cells) := by
  unfold State.writeLoc
  grind -ring -linarith -lia [State.modCore_memOk, MemOk, foldl_memOk]

theorem State.writeAtom_memOk {s : State} (k : Ctx) (bs : List (XByte × Byte)) (h : MemOk s) : MemOk (State.writeAtom s k bs) := by
  have hf : ∀ (l : List (XByte × Byte)) (m : Map Byte), Memory.wf m = true → Memory.wf (l.foldl (fun m c => setByte m c.1.pa c.2) m) = true := by
    intro l; induction l with
    | nil => intro m h; exact h
    | cons c l ih => intro m h; exact ih _ (setByte_wf _ _ h)
  unfold State.writeAtom
  (repeat' split)
  · exact h
  · exact State.homeWrite_memOk _ _ (State.cleanBlocks_memOk _ _ (State.dropLines_memOk _ _ h))
  · exact ⟨h.1, h.2.1, hf _ _ h.2.2⟩

theorem State.post_memOk {s : State} (c : Nat) (cause : Nat) (tval : Nat) (h : MemOk s) : MemOk (State.post s c cause tval) := by
  unfold State.post
  grind -ring -linarith -lia [State.modCore_memOk, MemOk, foldl_memOk]

theorem State.scored_memOk {s : State} (d : Opd) (x : Word) (ext : Bool) (h : MemOk s) : MemOk (State.scored s d x ext) := by
  unfold State.scored
  grind -ring -linarith -lia [State.putSb_memOk, State.wr_memOk, MemOk, foldl_memOk]

theorem State.lutld_memOk {s : State} (d : Opd) (addr : Word) (n : Nat) (h : MemOk s) {t : State} (e : State.lutld s d addr n = .ok t) : MemOk t := by
  unfold State.lutld at e
  grind -ring -linarith -lia [State.scored_memOk, → State.done_memOk, → State.done_memOk_err, → State.load_memOk, → State.load_memOk_err, State.defer_memOk, State.imageOf_memOk, MemOk, foldl_memOk]

theorem State.lutld_memOk_err {s : State} (d : Opd) (addr : Word) (n : Nat) (h : MemOk s) {q : Fail} (e : State.lutld s d addr n = .error q) : MemOk q.st := by
  unfold State.lutld at e
  grind -ring -linarith -lia [State.scored_memOk, → State.done_memOk, → State.done_memOk_err, → State.load_memOk, → State.load_memOk_err, State.defer_memOk, State.imageOf_memOk, MemOk, foldl_memOk]

theorem State.releaseEff_memOk {s : State} (c : Nat) (own : Bool) (e1 : Eff) (h : MemOk s) : MemOk (State.releaseEff s c own e1) := by
  unfold State.releaseEff
  grind -ring -linarith -lia [State.storeBytes_memOk, State.cleanLines_memOk, State.dropLines_memOk, State.putTag_memOk, State.signalCore_memOk, State.startCopy_memOk, → State.launch_memOk, State.releaseAt_memOk, State.post_memOk, → State.lutld_memOk, → State.lutld_memOk_err, State.modEng_memOk, State.modCore_memOk, State.modSlot_memOk, State.freeBlock_memOk, MemOk, foldl_memOk]

theorem State.comparePair_memOk {s : State} (p : Nat) (h : MemOk s) {r : _} {t : State} (e : State.comparePair s p = some (r, t)) : MemOk t := by
  unfold State.comparePair at e
  grind -ring -linarith -lia [State.draw_memOk, MemOk, foldl_memOk]

theorem State.presentCore_memOk {s : State} (c : Nat) (h : MemOk s) : MemOk (State.presentCore s c) := by
  unfold State.presentCore
  grind -ring -linarith -lia [State.putArea_memOk, MemOk, foldl_memOk]

theorem State.stopCore_memOk {s : State} (c : Nat) (cause : Nat) (h : MemOk s) : MemOk (State.stopCore s c cause) := by
  unfold State.stopCore
  grind -ring -linarith -lia [State.modEng_memOk, State.presentCore_memOk, State.emitAt_memOk, MemOk, foldl_memOk]

theorem State.trapRegs_memOk {s : State} (c : Nat) (cause : Nat) (tval : Word) (tpc : Word) (h : MemOk s) : MemOk (State.trapRegs s c cause tval tpc) := by
  unfold State.trapRegs
  grind -ring -linarith -lia [State.modCore_memOk, MemOk, foldl_memOk]

theorem State.consumed_memOk {s : State} (a : Agent) (cause : Nat) (tval : Word) (h : MemOk s) : MemOk (State.consumed s a cause tval) := by
  unfold State.consumed
  grind -ring -linarith -lia [State.errorLog_memOk, MemOk, foldl_memOk]

theorem State.coreTrap_memOk {s : State} (c : Nat) (cause : Nat) (tval : Word) (tpc : Word) (h : MemOk s) : MemOk (State.coreTrap s c cause tval tpc) := by
  unfold State.coreTrap
  grind -ring -linarith -lia [State.consumed_memOk, State.rollback_memOk, State.trapRegs_memOk, State.modEng_memOk, State.presentCore_memOk, State.emitAt_memOk, State.stopCore_memOk, State.modCore_memOk, State.saveJob_memOk, State.endByTrap_memOk, State.endJob_memOk, MemOk, foldl_memOk]

theorem State.endBlock_memOk {s : State} (c : Nat) (blk : Bool) (closing : Nat) (h : MemOk s) : MemOk (State.endBlock s c blk closing) := by
  unfold State.endBlock
  grind -ring -linarith -lia [State.emitAt_memOk, State.modCore_memOk, State.endCore_memOk, MemOk, foldl_memOk]

theorem State.releaseList_memOk {s : State} (c : Nat) (own : Bool) (l : List Eff) (h : MemOk s) : MemOk (State.releaseList s c own l) := by
  induction l generalizing s with
  | nil => exact State.performRemovals_memOk _ h
  | cons e es ih =>
    have he := State.releaseEff_memOk c own e h
    unfold State.releaseList
    dsimp only
    split
    · exact he
    · exact ih he

theorem State.commitCore_memOk {s : State} (c : Nat) (own : Bool) (sig : Nat × Nat) (h : MemOk s) : MemOk (State.commitCore s c own sig).1 := by
  have h1 := State.releaseList_memOk c own (s.core c).withheld (State.modCore_memOk c (fun x => { x with withheld := [] }) h)
  unfold State.commitCore
  dsimp only
  refine State.emitAt_memOk _ _ _ _ _ _ _ (State.modCore_memOk _ _ ?_)
  split
  · exact h1
  · exact State.signalCore_memOk _ _ _ h1

theorem State.commitAll_memOk {s : State} (g : List Nat) (sig wait : Nat × Nat) (h : MemOk s) : MemOk (State.commitAll s g sig wait).1 := by
  unfold State.commitAll
  refine foldl_pred (fun r : State × List (Nat × Bool) => MemOk r.1) _ _ (fun r j hr => ?_) h
  have := State.commitCore_memOk j (r.1.pairPos j != some 1) sig hr
  dsimp only
  split
  · exact this
  · exact State.modCore_memOk _ _ this

theorem State.compareGang_memOk {s : State} (c : Nat) (g : List Nat) (h : MemOk s) {r : _} {t : State} (e : State.compareGang s c g = some (r, t)) : MemOk t := by
  unfold State.compareGang at e
  grind -ring -linarith -lia [→ State.comparePair_memOk, MemOk, foldl_memOk]

theorem State.dropTrap_memOk {s : State} (c : Nat) (j : Nat) (t1 : Nat × Word × Nat) (w : Nat × Word × Nat) (h : MemOk s) : MemOk (State.dropTrap s c j t1 w) := by
  unfold State.dropTrap
  grind -ring -linarith -lia [State.modCore_memOk, MemOk, foldl_memOk]

theorem State.deliverAll_memOk {s : State} (g : List Nat) (h : MemOk s) : MemOk (State.deliverAll s g).1 := by
  unfold State.deliverAll
  split
  · exact h
  · refine State.coreTrap_memOk _ _ _ _ (foldl_memOk _ _ (fun s j hs => ?_) h)
    dsimp only
    split
    · exact hs
    · split
      · exact State.dropTrap_memOk _ _ _ _ hs
      · exact State.trapRegs_memOk _ _ _ _ (State.consumed_memOk _ _ _ (State.dropTrap_memOk _ _ _ _ hs))

theorem State.endAll_memOk {s : State} (ends : List (Nat × Bool)) (closing : Nat) (h : MemOk s) : MemOk (State.endAll s ends closing) := by
  unfold State.endAll
  grind -ring -linarith -lia [State.endBlock_memOk, MemOk, foldl_memOk]

theorem State.commitTail_memOk {s : State} (g : List Nat) (ends : List (Nat × Bool)) (h : MemOk s) : MemOk (State.commitTail s g ends).1 := by
  unfold State.commitTail
  grind -ring -linarith -lia [State.deliverAll_memOk, State.endAll_memOk, MemOk, foldl_memOk]

theorem State.holdEnds_memOk {s : State} (ends : List (Nat × Bool)) (step : Bool) (h : MemOk s) : MemOk (State.holdEnds s ends step) := by
  unfold State.holdEnds
  grind -ring -linarith -lia [MemOk, foldl_memOk]

theorem State.commit_memOk {s : State} (c : Nat) (sig wait : Nat × Nat) (h : MemOk s) : MemOk (State.commit s c sig wait).1 := by
  unfold State.commit
  dsimp only
  split
  · rename_i v s1 e1
    exact State.coreTrap_memOk _ _ _ _ (State.compareGang_memOk _ _ h e1)
  · have h1 := fun (l : List Nat) (f : Core → Core) {s : State} (hs : MemOk s) => foldl_memOk (fun s j => s.modCore j f) l (fun s j hs => State.modCore_memOk j _ hs) hs
    have h2 := h1 ((s.gangLive c).filter (· != c)) (fun x => { x with reissue := true })
      (State.commitAll_memOk (s.gangLive c) sig wait (h1 ((s.gangLive c).filter (· != c)) (fun x => x.tick true) h))
    split
    · exact State.commitTail_memOk _ _ h2
    · exact State.holdEnds_memOk _ _ h2

theorem State.endEff_memOk {s : State} (c : Nat) (e1 : Eff) (h : MemOk s) : MemOk (State.endEff s c e1) := by
  unfold State.endEff
  grind -ring -linarith -lia [State.storeScratch_memOk, State.writeLoc_memOk, State.writeAtom_memOk, State.modCore_memOk, MemOk, foldl_memOk]

theorem State.finishCore_memOk {s : State} (c : Nat) (h : MemOk s) : MemOk (State.finishCore s c) := by
  unfold State.finishCore
  grind -ring -linarith -lia [State.endEff_memOk, State.modCore_memOk, MemOk, foldl_memOk]

theorem State.stepTail_memOk {s : State} (g : List Nat) (ends : List (Nat × Bool)) (h : MemOk s) : MemOk (State.stepTail s g ends) := by
  unfold State.stepTail
  grind -ring -linarith -lia [State.landCopies_memOk, State.deliverAll_memOk, State.presentCore_memOk, State.endAll_memOk, State.modEng_memOk, State.emitAt_memOk, MemOk, foldl_memOk]

theorem State.stepCommit_memOk {s : State} (c : Nat) (h : MemOk s) : MemOk (State.stepCommit s c) := by
  unfold State.stepCommit
  dsimp only
  split
  · exact h
  · split
    · exact State.coreTrap_memOk _ _ _ _ h
    · split
      · rename_i v s1 e1
        exact State.coreTrap_memOk _ _ _ _ (State.compareGang_memOk _ _ h e1)
      · have h1 : ∀ (l : List Nat) (f g : Nat → Core → Core) {s : State}, MemOk s → MemOk (l.foldl (fun s j => (s.modCore j (f j)).modCore j (g j)) s) :=
          fun l f g s hs => foldl_memOk _ _ (fun s j hs => State.modCore_memOk j _ (State.modCore_memOk j _ hs)) hs
        have h2 := foldl_memOk (fun s j => s.modCore j fun x => { x with shadowReissue := false }) (s.gangLive c)
          (fun s j hs => State.modCore_memOk j _ hs) (State.commitAll_memOk (s.gangLive c) (0, 0) (0, 0) (h1 (s.gangLive c)
            (fun _ x => x.sb.foldl (fun x e => e.lands.foldl Core.land x) { x with sb := [] }) (fun _ x => x.sm.foldl Core.landSm { x with sm := [] }) h))
        split
        · exact State.stepTail_memOk _ _ h2
        · exact State.holdEnds_memOk _ _ h2

theorem State.releaseMarked_memOk {s : State} (h : MemOk s) : MemOk (State.releaseMarked s) := by
  unfold State.releaseMarked
  split
  · exact h
  · rename_i m ms _
    have h1 := foldl_memOk (fun s e => State.releaseList s e.core e.own e.effs) (m :: ms) (s := { s with marked := [] })
      (fun s e hs => State.releaseList_memOk _ _ _ hs) h
    dsimp only
    split
    · exact State.holdEnds_memOk _ _ h1
    · split
      · exact State.stepTail_memOk _ _ h1
      · have h2 := State.commitTail_memOk (s.gangLive m.core) ((((m :: ms).map (·.core)).eraseDups.filterMap fun c =>
          (endOf ((m :: ms).flatMap fun e => if e.core = c then e.effs else [])).map fun b => (c, b))) h1
        split
        · exact h2
        · exact h2

theorem State.wakeDone_memOk {s : State} (t1 : Tid) (h : MemOk s) : MemOk (State.wakeDone s t1) := by
  unfold State.wakeDone
  grind -ring -linarith -lia [State.wake_memOk, State.modThread_memOk, MemOk, foldl_memOk]

theorem State.takeMirror_memOk {s : State} (h : MemOk s) : MemOk (State.takeMirror s) := by
  unfold State.takeMirror
  grind -ring -linarith -lia [State.modCore_memOk, MemOk, foldl_memOk]

theorem State.opRelease_memOk {s : State} (d : Dom) (sc : Scope) (ord : Ord) (h : MemOk s) : MemOk (State.opRelease s d sc ord) := by
  unfold State.opRelease
  grind -ring -linarith -lia [State.releaseAt_memOk, MemOk, foldl_memOk]

theorem State.putResult_memOk {s : State} (c : Nat) (e1 : SbEntry) (mirror : Bool) (h : MemOk s) : MemOk (State.putResult s c e1 mirror) := by
  unfold State.putResult
  grind -ring -linarith -lia [State.putSb_memOk, State.modCore_memOk, MemOk, foldl_memOk]

theorem State.putItem_memOk {s : State} (t1 : Tid) (d : Nat) (bs : List Byte) (h : MemOk s) : MemOk (State.putItem s t1 d bs) := by
  unfold State.putItem
  grind -ring -linarith -lia [State.modThread_memOk, MemOk, foldl_memOk]

theorem State.putX_memOk {s : State} (t1 : Tid) (n : Nat) (v : Word) (h : MemOk s) : MemOk (State.putX s t1 n v) := by
  unfold State.putX
  grind -ring -linarith -lia [State.modThread_memOk, MemOk, foldl_memOk]

theorem State.popResult_memOk {s : State} (d : Opd) (st : Opd) (item : Option (List Byte)) (v : Word) (h : MemOk s) : MemOk (State.popResult s d st item v) := by
  unfold State.popResult
  grind -ring -linarith -lia [State.putResult_memOk, State.putItem_memOk, State.putX_memOk, MemOk, foldl_memOk]

theorem State.waitAt_memOk {s : State} (w : Wait) (h : MemOk s) {t : State} (e : State.waitAt s w = .ok t) : MemOk t := by
  unfold State.waitAt at e
  grind -ring -linarith -lia [State.modThread_memOk, MemOk, foldl_memOk]

theorem State.waitAt_memOk_err {s : State} (w : Wait) (h : MemOk s) {q : Fail} (e : State.waitAt s w = .error q) : MemOk q.st := by
  unfold State.waitAt at e
  grind -ring -linarith -lia [State.modThread_memOk, MemOk, foldl_memOk]

theorem State.pop_memOk {s : State} (waits : Bool) (scope : Scope) (ord : Ord) (d : Opd) (a : Opd) (b : Opd) (h : MemOk s) {t : State} (e : State.pop s waits scope ord d a b = .ok t) : MemOk t := by
  unfold State.pop at e
  grind -ring -linarith -lia [State.takeMirror_memOk, → State.done_memOk, → State.done_memOk_err, → trapRes_memOk, → trapRes_memOk_err, State.opRelease_memOk, State.acquireAt_memOk, State.setQueue_memOk, State.popResult_memOk, → State.waitAt_memOk, → State.waitAt_memOk_err, MemOk, foldl_memOk]

theorem State.pop_memOk_err {s : State} (waits : Bool) (scope : Scope) (ord : Ord) (d : Opd) (a : Opd) (b : Opd) (h : MemOk s) {q : Fail} (e : State.pop s waits scope ord d a b = .error q) : MemOk q.st := by
  unfold State.pop at e
  grind -ring -linarith -lia [State.takeMirror_memOk, → State.done_memOk, → State.done_memOk_err, → trapRes_memOk, → trapRes_memOk_err, State.opRelease_memOk, State.acquireAt_memOk, State.setQueue_memOk, State.popResult_memOk, → State.waitAt_memOk, → State.waitAt_memOk_err, MemOk, foldl_memOk]

theorem State.handOff_memOk {s : State} (q1 : Nat) (t1 : Tid) (item : List Byte) (h : MemOk s) : MemOk (State.handOff s q1 t1 item) := by
  unfold State.handOff
  grind -ring -linarith -lia [→ State.pop_memOk, → State.pop_memOk_err, State.setQueue_memOk, State.acquireAt_memOk, State.putItem_memOk, State.putX_memOk, State.wakeDone_memOk, MemOk, foldl_memOk]

theorem State.queueSem_memOk {s : State} (q1 : Nat) (h : MemOk s) : MemOk (State.queueSem s q1) := by
  unfold State.queueSem
  grind -ring -linarith -lia [State.signalCore_memOk, MemOk, foldl_memOk]

theorem State.push_memOk {s : State} (q1 : Nat) (item : List Byte) (h : MemOk s) {t : State} (e : State.push s q1 item = some t) : MemOk t := by
  unfold State.push at e
  grind -ring -linarith -lia [State.setQueue_memOk, State.handOff_memOk, State.queueSem_memOk, MemOk, foldl_memOk]

theorem State.withdraw_memOk {s : State} (t1 : Tid) (h : MemOk s) : MemOk (State.withdraw s t1) := by
  unfold State.withdraw
  grind -ring -linarith -lia [→ State.pop_memOk, → State.pop_memOk_err, → State.push_memOk, State.leaveQueues_memOk, State.modGroup_memOk, State.dropLeaves_memOk, State.wake_memOk, State.modThread_memOk, MemOk, foldl_memOk]

theorem State.presentUnit_memOk {s : State} (u : Nat) (h : MemOk s) : MemOk (State.presentUnit s u) := by
  unfold State.presentUnit
  grind -ring -linarith -lia [State.putArea_memOk, MemOk, foldl_memOk]

theorem State.stopUnit_memOk {s : State} (u : Fin 32) (cause : Nat) (h : MemOk s) : MemOk (State.stopUnit s u cause) := by
  unfold State.stopUnit
  grind -ring -linarith -lia [State.withdraw_memOk, State.modEng_memOk, State.presentUnit_memOk, State.modUnit_memOk, State.emitAt_memOk, MemOk, foldl_memOk]

theorem State.threadTrap_memOk {s : State} (t1 : Tid) (cause : Nat) (tval : Word) (h : MemOk s) : MemOk (State.threadTrap s t1 cause tval) := by
  unfold State.threadTrap
  grind -ring -linarith -lia [State.wake_memOk, State.consumed_memOk, State.landAllBusy_memOk, State.modThread_memOk, State.modEng_memOk, State.stopUnit_memOk, State.endByTrap_memOk, State.emitAt_memOk, State.modUnit_memOk, MemOk, foldl_memOk]

theorem State.takeTrap_memOk {s : State} (a : Agent) (t1 : Trap) (h : MemOk s) : MemOk (State.takeTrap s a t1) := by
  unfold State.takeTrap
  grind -ring -linarith -lia [State.writeAtom_memOk, State.writeLoc_memOk, State.coreTrap_memOk, State.threadTrap_memOk, MemOk, foldl_memOk]

theorem answer_memOk (r : Res) (hf0 : ∀ t, r = .ok t → MemOk t) (hg0 : ∀ q, r = .error q → MemOk q.st) {t : State} (e : answer r = .next t) : MemOk t := by
  unfold answer at e
  grind -ring -linarith -lia [State.takeTrap_memOk, MemOk, foldl_memOk]

theorem State.trapReturn_memOk {s : State} (t1 : Tid) (h : MemOk s) {t : State} (e : State.trapReturn s t1 = .ok t) : MemOk t := by
  unfold State.trapReturn at e
  grind -ring -linarith -lia [State.setThread_memOk, → trapRes_memOk, → trapRes_memOk_err, MemOk, foldl_memOk]

theorem State.trapReturn_memOk_err {s : State} (t1 : Tid) (h : MemOk s) {q : Fail} (e : State.trapReturn s t1 = .error q) : MemOk q.st := by
  unfold State.trapReturn at e
  grind -ring -linarith -lia [State.setThread_memOk, → trapRes_memOk, → trapRes_memOk_err, MemOk, foldl_memOk]

theorem State.fillTmask_memOk {s : State} (u : Fin 32) (h : MemOk s) : MemOk (State.fillTmask s u) := by
  unfold State.fillTmask
  grind -ring -linarith -lia [State.modThread_memOk, State.modUnit_memOk, MemOk, foldl_memOk]

theorem State.endStep_memOk {s : State} (u : Fin 32) (h : MemOk s) : MemOk (State.endStep s u) := by
  unfold State.endStep
  grind -ring -linarith -lia [State.withdraw_memOk, State.modEng_memOk, State.emitAt_memOk, MemOk, foldl_memOk]

theorem State.settleStop_memOk {s : State} (u : Fin 32) (h : MemOk s) : MemOk (State.settleStop s u) := by
  unfold State.settleStop
  grind -ring -linarith -lia [State.withdraw_memOk, State.presentUnit_memOk, MemOk, foldl_memOk]

theorem State.finishUnit_memOk {s : State} (u : Fin 32) (h : MemOk s) : MemOk (State.finishUnit s u) := by
  unfold State.finishUnit
  grind -ring -linarith -lia [State.fillTmask_memOk, State.endStep_memOk, State.modUnit_memOk, State.settleStop_memOk, MemOk, foldl_memOk]

theorem State.finishCycle_memOk {s : State} (a : Agent) (h : MemOk s) : MemOk (State.finishCycle s a) := by
  unfold State.finishCycle
  grind -ring -linarith -lia [State.finishCore_memOk, State.stepCommit_memOk, State.finishUnit_memOk, MemOk, foldl_memOk]

theorem State.result_memOk {s : State} (n : Nat) (d : Opd) (x : Word) (h : MemOk s) {t : State} (e : State.result s n d x = .ok t) : MemOk t := by
  unfold State.result at e
  grind -ring -linarith -lia [State.wr_memOk, → State.done_memOk, → State.done_memOk_err, MemOk, foldl_memOk]

theorem State.result_memOk_err {s : State} (n : Nat) (d : Opd) (x : Word) (h : MemOk s) {q : Fail} (e : State.result s n d x = .error q) : MemOk q.st := by
  unfold State.result at e
  grind -ring -linarith -lia [State.wr_memOk, → State.done_memOk, → State.done_memOk_err, MemOk, foldl_memOk]

theorem State.op2_memOk {s : State} (n : Nat) (d : Opd) (a : Opd) (b : Opd) (f : Word → Word → Word) (h : MemOk s) {t : State} (e : State.op2 s n d a b f = .ok t) : MemOk t := by
  unfold State.op2 at e
  grind -ring -linarith -lia [→ State.result_memOk, → State.result_memOk_err, MemOk, foldl_memOk]

theorem State.op2_memOk_err {s : State} (n : Nat) (d : Opd) (a : Opd) (b : Opd) (f : Word → Word → Word) (h : MemOk s) {q : Fail} (e : State.op2 s n d a b f = .error q) : MemOk q.st := by
  unfold State.op2 at e
  grind -ring -linarith -lia [→ State.result_memOk, → State.result_memOk_err, MemOk, foldl_memOk]

theorem State.op2n_memOk {s : State} (n : Nat) (d : Opd) (a : Opd) (b : Opd) (f : Word → Word → Word) (h : MemOk s) {t : State} (e : State.op2n s n d a b f = .ok t) : MemOk t := by
  unfold State.op2n at e
  grind -ring -linarith -lia [→ State.result_memOk, → State.result_memOk_err, MemOk, foldl_memOk]

theorem State.op2n_memOk_err {s : State} (n : Nat) (d : Opd) (a : Opd) (b : Opd) (f : Word → Word → Word) (h : MemOk s) {q : Fail} (e : State.op2n s n d a b f = .error q) : MemOk q.st := by
  unfold State.op2n at e
  grind -ring -linarith -lia [→ State.result_memOk, → State.result_memOk_err, MemOk, foldl_memOk]

theorem State.op1_memOk {s : State} (n : Nat) (d : Opd) (a : Opd) (f : Word → Word) (h : MemOk s) {t : State} (e : State.op1 s n d a f = .ok t) : MemOk t := by
  unfold State.op1 at e
  grind -ring -linarith -lia [→ State.result_memOk, → State.result_memOk_err, MemOk, foldl_memOk]

theorem State.op1_memOk_err {s : State} (n : Nat) (d : Opd) (a : Opd) (f : Word → Word) (h : MemOk s) {q : Fail} (e : State.op1 s n d a f = .error q) : MemOk q.st := by
  unfold State.op1 at e
  grind -ring -linarith -lia [→ State.result_memOk, → State.result_memOk_err, MemOk, foldl_memOk]

theorem State.setGen_memOk {s : State} (g : Word × Word) (h : MemOk s) : MemOk (State.setGen s g) := by
  unfold State.setGen
  grind -ring -linarith -lia [State.modArch_memOk, State.modThread_memOk, MemOk, foldl_memOk]

theorem State.genNext_memOk {s : State} (h : MemOk s) : MemOk (State.genNext s).2 := by
  unfold State.genNext
  grind -ring -linarith -lia [State.setGen_memOk, MemOk, foldl_memOk]

theorem State.genDraws_memOk {s : State} (a1 : Nat) (h : MemOk s) : MemOk (State.genDraws s a1).2 := by
  induction a1 generalizing s with
  | zero => unfold State.genDraws; grind
  | succ n ih =>
    unfold State.genDraws
    (try dsimp only)
    (repeat' split) <;> grind -ring -linarith -lia [State.genNext_memOk, MemOk, foldl_memOk]

theorem State.fop2_memOk {s : State} (n : Nat) (t1 : FpTy) (d : Opd) (a : Opd) (b : Opd) (f : Ty → Nat → Nat → Rnd) (h : MemOk s) {t : State} (e : State.fop2 s n t1 d a b f = .ok t) : MemOk t := by
  unfold State.fop2 at e
  grind -ring -linarith -lia [→ State.fpDone_memOk, → State.fpDone_memOk_err, MemOk, foldl_memOk]

theorem State.fop2_memOk_err {s : State} (n : Nat) (t1 : FpTy) (d : Opd) (a : Opd) (b : Opd) (f : Ty → Nat → Nat → Rnd) (h : MemOk s) {q : Fail} (e : State.fop2 s n t1 d a b f = .error q) : MemOk q.st := by
  unfold State.fop2 at e
  grind -ring -linarith -lia [→ State.fpDone_memOk, → State.fpDone_memOk_err, MemOk, foldl_memOk]

theorem State.srdRead_memOk {s : State} (n : Nat) (h : MemOk s) : MemOk (State.srdRead s n).2 := by
  unfold State.srdRead
  grind -ring -linarith -lia [State.diePtime_memOk, MemOk, foldl_memOk]

theorem State.writeFmt_memOk {s : State} (v : Word) (h : MemOk s) {t : State} (e : State.writeFmt s v = .ok t) : MemOk t := by
  unfold State.writeFmt at e
  grind -ring -linarith -lia [→ trapRes_memOk, → trapRes_memOk_err, State.modArch_memOk, State.modThread_memOk, MemOk, foldl_memOk]

theorem State.writeFmt_memOk_err {s : State} (v : Word) (h : MemOk s) {q : Fail} (e : State.writeFmt s v = .error q) : MemOk q.st := by
  unfold State.writeFmt at e
  grind -ring -linarith -lia [→ trapRes_memOk, → trapRes_memOk_err, State.modArch_memOk, State.modThread_memOk, MemOk, foldl_memOk]

theorem State.selectLut_memOk {s : State} (v : Word) (h : MemOk s) : MemOk (State.selectLut s v) := by
  unfold State.selectLut
  grind -ring -linarith -lia [State.modArch_memOk, State.stage_memOk, MemOk, foldl_memOk]

theorem State.swrAt_memOk {s : State} (n : Nat) (v : Word) (h : MemOk s) {t : State} (e : State.swrAt s n v = .ok t) : MemOk t := by
  unfold State.swrAt at e
  grind -ring -linarith -lia [→ State.writeFmt_memOk, → State.writeFmt_memOk_err, → State.done_memOk, → State.done_memOk_err, State.selectLut_memOk, State.defer_memOk, State.stage_memOk, State.modThread_memOk, MemOk, foldl_memOk]

theorem State.swrAt_memOk_err {s : State} (n : Nat) (v : Word) (h : MemOk s) {q : Fail} (e : State.swrAt s n v = .error q) : MemOk q.st := by
  unfold State.swrAt at e
  grind -ring -linarith -lia [→ State.writeFmt_memOk, → State.writeFmt_memOk_err, → State.done_memOk, → State.done_memOk_err, State.selectLut_memOk, State.defer_memOk, State.stage_memOk, State.modThread_memOk, MemOk, foldl_memOk]

theorem State.vmap1_memOk {s : State} (n : Nat) (v : VHdr) (d : Opd) (a : Opd) (f : Nat → Nat) (h : MemOk s) {t : State} (e : State.vmap1 s n v d a f = .ok t) : MemOk t := by
  unfold State.vmap1 at e
  grind -ring -linarith -lia [State.wvElems_memOk, → State.done_memOk, → State.done_memOk_err, MemOk, foldl_memOk]

theorem State.vmap1_memOk_err {s : State} (n : Nat) (v : VHdr) (d : Opd) (a : Opd) (f : Nat → Nat) (h : MemOk s) {q : Fail} (e : State.vmap1 s n v d a f = .error q) : MemOk q.st := by
  unfold State.vmap1 at e
  grind -ring -linarith -lia [State.wvElems_memOk, → State.done_memOk, → State.done_memOk_err, MemOk, foldl_memOk]

theorem State.vmap2_memOk {s : State} (n : Nat) (v : VHdr) (d : Opd) (a : Opd) (b : Opd) (f : Nat → Nat → Nat) (h : MemOk s) {t : State} (e : State.vmap2 s n v d a b f = .ok t) : MemOk t := by
  unfold State.vmap2 at e
  grind -ring -linarith -lia [State.wvElems_memOk, → State.done_memOk, → State.done_memOk_err, MemOk, foldl_memOk]

theorem State.vmap2_memOk_err {s : State} (n : Nat) (v : VHdr) (d : Opd) (a : Opd) (b : Opd) (f : Nat → Nat → Nat) (h : MemOk s) {q : Fail} (e : State.vmap2 s n v d a b f = .error q) : MemOk q.st := by
  unfold State.vmap2 at e
  grind -ring -linarith -lia [State.wvElems_memOk, → State.done_memOk, → State.done_memOk_err, MemOk, foldl_memOk]

theorem State.vrounds_memOk {s : State} (n : Nat) (d : Opd) (p : Fin 8) (w : Nat) (rs : List Rnd) (h : MemOk s) {t : State} (e : State.vrounds s n d p w rs = .ok t) : MemOk t := by
  unfold State.vrounds at e
  grind -ring -linarith -lia [State.wvElems_memOk, State.raise_memOk, → State.done_memOk, → State.done_memOk_err, MemOk, foldl_memOk]

theorem State.vrounds_memOk_err {s : State} (n : Nat) (d : Opd) (p : Fin 8) (w : Nat) (rs : List Rnd) (h : MemOk s) {q : Fail} (e : State.vrounds s n d p w rs = .error q) : MemOk q.st := by
  unfold State.vrounds at e
  grind -ring -linarith -lia [State.wvElems_memOk, State.raise_memOk, → State.done_memOk, → State.done_memOk_err, MemOk, foldl_memOk]

theorem State.vfmap2_memOk {s : State} (n : Nat) (v : VHdr) (d : Opd) (a : Opd) (b : Opd) (f : Ty → Nat → Nat → Rnd) (h : MemOk s) {t : State} (e : State.vfmap2 s n v d a b f = .ok t) : MemOk t := by
  unfold State.vfmap2 at e
  grind -ring -linarith -lia [→ State.vrounds_memOk, → State.vrounds_memOk_err, MemOk, foldl_memOk]

theorem State.vfmap2_memOk_err {s : State} (n : Nat) (v : VHdr) (d : Opd) (a : Opd) (b : Opd) (f : Ty → Nat → Nat → Rnd) (h : MemOk s) {q : Fail} (e : State.vfmap2 s n v d a b f = .error q) : MemOk q.st := by
  unfold State.vfmap2 at e
  grind -ring -linarith -lia [→ State.vrounds_memOk, → State.vrounds_memOk_err, MemOk, foldl_memOk]

theorem State.vcompare_memOk {s : State} (n : Nat) (v : VHdr) (pd : Fin 8) (a : Opd) (b : Opd) (f : Nat → Nat → Bool × BitVec 5) (h : MemOk s) {t : State} (e : State.vcompare s n v pd a b f = .ok t) : MemOk t := by
  unfold State.vcompare at e
  grind -ring -linarith -lia [State.wp_memOk, State.raise_memOk, → State.done_memOk, → State.done_memOk_err, MemOk, foldl_memOk]

theorem State.vcompare_memOk_err {s : State} (n : Nat) (v : VHdr) (pd : Fin 8) (a : Opd) (b : Opd) (f : Nat → Nat → Bool × BitVec 5) (h : MemOk s) {q : Fail} (e : State.vcompare s n v pd a b f = .error q) : MemOk q.st := by
  unfold State.vcompare at e
  grind -ring -linarith -lia [State.wp_memOk, State.raise_memOk, → State.done_memOk, → State.done_memOk_err, MemOk, foldl_memOk]

theorem State.vall_memOk {s : State} (n : Nat) (v : VHdr) (d : Opd) (xs : List Nat) (h : MemOk s) {t : State} (e : State.vall s n v d xs = .ok t) : MemOk t := by
  unfold State.vall at e
  grind -ring -linarith -lia [State.wvElems_memOk, → State.done_memOk, → State.done_memOk_err, MemOk, foldl_memOk]

theorem State.vall_memOk_err {s : State} (n : Nat) (v : VHdr) (d : Opd) (xs : List Nat) (h : MemOk s) {q : Fail} (e : State.vall s n v d xs = .error q) : MemOk q.st := by
  unfold State.vall at e
  grind -ring -linarith -lia [State.wvElems_memOk, → State.done_memOk, → State.done_memOk_err, MemOk, foldl_memOk]

theorem State.vmove_memOk {s : State} (n : Nat) (v : VHdr) (d : Opd) (xs : List Nat) (h : MemOk s) {t : State} (e : State.vmove s n v d xs = .ok t) : MemOk t := by
  unfold State.vmove at e
  grind -ring -linarith -lia [State.wvElems_memOk, → State.done_memOk, → State.done_memOk_err, MemOk, foldl_memOk]

theorem State.vmove_memOk_err {s : State} (n : Nat) (v : VHdr) (d : Opd) (xs : List Nat) (h : MemOk s) {q : Fail} (e : State.vmove s n v d xs = .error q) : MemOk q.st := by
  unfold State.vmove at e
  grind -ring -linarith -lia [State.wvElems_memOk, → State.done_memOk, → State.done_memOk_err, MemOk, foldl_memOk]

theorem State.putCur_memOk {s : State} (n : Nat) (l : Land) (h : MemOk s) : MemOk (State.putCur s n l) := by
  unfold State.putCur
  grind -ring -linarith -lia [State.put_memOk, MemOk, foldl_memOk]

theorem State.reduce_memOk {s : State} (op : Nat) (v : VHdr) (ps : Fin 4) (a : Opd) (h : MemOk s) {t : State} (e : State.reduce s op v ps a = .ok t) : MemOk t := by
  unfold State.reduce at e
  grind -ring -linarith -lia [→ State.done_memOk, → State.done_memOk_err, State.putCur_memOk, State.raise_memOk, MemOk, foldl_memOk]

theorem State.reduce_memOk_err {s : State} (op : Nat) (v : VHdr) (ps : Fin 4) (a : Opd) (h : MemOk s) {q : Fail} (e : State.reduce s op v ps a = .error q) : MemOk q.st := by
  unfold State.reduce at e
  grind -ring -linarith -lia [→ State.done_memOk, → State.done_memOk_err, State.putCur_memOk, State.raise_memOk, MemOk, foldl_memOk]

theorem State.takeLatch_memOk {s : State} (n : Nat) (h : MemOk s) : MemOk (State.takeLatch s n).2 := by
  unfold State.takeLatch
  grind -ring -linarith -lia [State.modArch_memOk, MemOk, foldl_memOk]

theorem State.onCore_memOk {s : State} (f : Nat → Res) (h : MemOk s) (hf1 : ∀ x t, f x = .ok t → MemOk t) (hg1 : ∀ x q, f x = .error q → MemOk q.st) {t : State} (e : State.onCore s f = .ok t) : MemOk t := by
  unfold State.onCore at e
  grind -ring -linarith -lia [→ State.done_memOk, → State.done_memOk_err, MemOk, foldl_memOk]

theorem State.onCore_memOk_err {s : State} (f : Nat → Res) (h : MemOk s) (hf1 : ∀ x t, f x = .ok t → MemOk t) (hg1 : ∀ x q, f x = .error q → MemOk q.st) {q : Fail} (e : State.onCore s f = .error q) : MemOk q.st := by
  unfold State.onCore at e
  grind -ring -linarith -lia [→ State.done_memOk, → State.done_memOk_err, MemOk, foldl_memOk]

theorem State.mma_memOk {s : State} (c : Nat) (cz : Bool) (sat : Bool) (d : Opd) (a : Opd) (b : Opd) (ct : Nat) (h : MemOk s) {t : State} (e : State.mma s c cz sat d a b ct = .ok t) : MemOk t := by
  unfold State.mma at e
  grind -ring -linarith -lia [→ trapRes_memOk, → trapRes_memOk_err, State.modCore_memOk, → State.done_memOk, → State.done_memOk_err, MemOk, foldl_memOk]

theorem State.mma_memOk_err {s : State} (c : Nat) (cz : Bool) (sat : Bool) (d : Opd) (a : Opd) (b : Opd) (ct : Nat) (h : MemOk s) {q : Fail} (e : State.mma s c cz sat d a b ct = .error q) : MemOk q.st := by
  unfold State.mma at e
  grind -ring -linarith -lia [→ trapRes_memOk, → trapRes_memOk_err, State.modCore_memOk, → State.done_memOk, → State.done_memOk_err, MemOk, foldl_memOk]

theorem State.putTile_memOk {s : State} (c : Nat) (t1 : Nat) (es : List (BitVec 32)) (h : MemOk s) : MemOk (State.putTile s c t1 es) := by
  unfold State.putTile
  grind -ring -linarith -lia [State.modCore_memOk, MemOk, foldl_memOk]

theorem State.beginTest_memOk {s : State} (full : Bool) (d : Opd) (h : MemOk s) {t : State} (e : State.beginTest s full d = .ok t) : MemOk t := by
  unfold State.beginTest at e
  grind -ring -linarith -lia [→ State.onCore_memOk, → State.onCore_memOk_err, State.modCore_memOk, → State.done_memOk, → State.done_memOk_err, MemOk, foldl_memOk]

theorem State.beginTest_memOk_err {s : State} (full : Bool) (d : Opd) (h : MemOk s) {q : Fail} (e : State.beginTest s full d = .error q) : MemOk q.st := by
  unfold State.beginTest at e
  grind -ring -linarith -lia [→ State.onCore_memOk, → State.onCore_memOk_err, State.modCore_memOk, → State.done_memOk, → State.done_memOk_err, MemOk, foldl_memOk]

theorem State.pickTile_memOk {s : State} (c : Nat) (n : Nat) (h : MemOk s) : MemOk (State.pickTile s c n).2 := by
  unfold State.pickTile
  grind -ring -linarith -lia [State.draw_memOk, State.modCore_memOk, State.take_memOk, MemOk, foldl_memOk]

theorem State.special_memOk {s : State} (p : Fin 8) (d : Opd) (a : Opd) (f : Nat → Rnd) (h : MemOk s) {t : State} (e : State.special s p d a f = .ok t) : MemOk t := by
  unfold State.special at e
  grind -ring -linarith -lia [→ State.vrounds_memOk, → State.vrounds_memOk_err, → State.fpDone_memOk, → State.fpDone_memOk_err, MemOk, foldl_memOk]

theorem State.special_memOk_err {s : State} (p : Fin 8) (d : Opd) (a : Opd) (f : Nat → Rnd) (h : MemOk s) {q : Fail} (e : State.special s p d a f = .error q) : MemOk q.st := by
  unfold State.special at e
  grind -ring -linarith -lia [→ State.vrounds_memOk, → State.vrounds_memOk_err, → State.fpDone_memOk, → State.fpDone_memOk_err, MemOk, foldl_memOk]

theorem State.special2_memOk {s : State} (p : Fin 8) (d : Opd) (a : Opd) (b : Opd) (f : Nat → Nat → Rnd) (h : MemOk s) {t : State} (e : State.special2 s p d a b f = .ok t) : MemOk t := by
  unfold State.special2 at e
  grind -ring -linarith -lia [→ State.vrounds_memOk, → State.vrounds_memOk_err, → State.fpDone_memOk, → State.fpDone_memOk_err, MemOk, foldl_memOk]

theorem State.special2_memOk_err {s : State} (p : Fin 8) (d : Opd) (a : Opd) (b : Opd) (f : Nat → Nat → Rnd) (h : MemOk s) {q : Fail} (e : State.special2 s p d a b f = .error q) : MemOk q.st := by
  unfold State.special2 at e
  grind -ring -linarith -lia [→ State.vrounds_memOk, → State.vrounds_memOk_err, → State.fpDone_memOk, → State.fpDone_memOk_err, MemOk, foldl_memOk]

theorem State.fetchCode_memOk {s : State} (a : Agent) (addr : Nat) (n : Nat) (h : MemOk s) {r : _} {t : State} (e : State.fetchCode s a addr n = .ok (r, t)) : MemOk t := by
  unfold State.fetchCode at e
  grind -ring -linarith -lia [→ State.access_memOk, → State.access_memOk_err, MemOk, foldl_memOk]

theorem State.fetchCode_memOk_err {s : State} (a : Agent) (addr : Nat) (n : Nat) (h : MemOk s) {q : Fail} (e : State.fetchCode s a addr n = .error q) : MemOk q.st := by
  unfold State.fetchCode at e
  grind -ring -linarith -lia [→ State.access_memOk, → State.access_memOk_err, MemOk, foldl_memOk]

theorem State.loadDict_memOk {s : State} (c : Nat) (h : MemOk s) {t : State} (e : State.loadDict s c = .ok t) : MemOk t := by
  unfold State.loadDict at e
  grind -ring -linarith -lia [→ State.fetchCode_memOk, → State.fetchCode_memOk_err, State.modCore_memOk, MemOk, foldl_memOk]

theorem State.loadDict_memOk_err {s : State} (c : Nat) (h : MemOk s) {q : Fail} (e : State.loadDict s c = .error q) : MemOk q.st := by
  unfold State.loadDict at e
  grind -ring -linarith -lia [→ State.fetchCode_memOk, → State.fetchCode_memOk_err, State.modCore_memOk, MemOk, foldl_memOk]

theorem State.branchTo_memOk {s : State} (target : Word) (h : MemOk s) {t : State} (e : State.branchTo s target = .ok t) : MemOk t := by
  unfold State.branchTo at e
  grind -ring -linarith -lia [State.modArch_memOk, State.modThread_memOk, MemOk, foldl_memOk]

theorem State.branchTo_memOk_err {s : State} (target : Word) (h : MemOk s) {q : Fail} (e : State.branchTo s target = .error q) : MemOk q.st := by
  unfold State.branchTo at e
  grind -ring -linarith -lia [State.modArch_memOk, State.modThread_memOk, MemOk, foldl_memOk]

theorem State.setMark_memOk {s : State} (ref : Nat × Nat) (armed : List Nat) (on : Bool) (h : MemOk s) : MemOk (State.setMark s ref armed on) := by
  unfold State.setMark
  grind -ring -linarith -lia [State.modCore_memOk, State.modThread_memOk, State.modGroup_memOk, MemOk, foldl_memOk]

theorem State.grantTo_memOk {s : State} (a : Agent) (n : Nat) (h : MemOk s) : MemOk (State.grantTo s a n) := by
  unfold State.grantTo
  grind -ring -linarith -lia [State.modEng_memOk, State.modGroup_memOk, State.emitAt_memOk, MemOk, foldl_memOk]

theorem State.askLeave_memOk {s : State} (a : Agent) (n : Nat) (h : MemOk s) : MemOk (State.askLeave s a n) := by
  unfold State.askLeave
  grind -ring -linarith -lia [State.dropLeaves_memOk, MemOk, foldl_memOk]

theorem State.jobEnd_memOk {s : State} (blk : Bool) (h : MemOk s) {t : State} (e : State.jobEnd s blk = .ok t) : MemOk t := by
  unfold State.jobEnd at e
  grind -ring -linarith -lia [State.defer_memOk, → State.done_memOk, → State.done_memOk_err, → State.waitAt_memOk, → State.waitAt_memOk_err, MemOk, foldl_memOk]

theorem State.jobEnd_memOk_err {s : State} (blk : Bool) (h : MemOk s) {q : Fail} (e : State.jobEnd s blk = .error q) : MemOk q.st := by
  unfold State.jobEnd at e
  grind -ring -linarith -lia [State.defer_memOk, → State.done_memOk, → State.done_memOk_err, → State.waitAt_memOk, → State.waitAt_memOk_err, MemOk, foldl_memOk]

theorem State.arrive_memOk {s : State} (level : Nat) (id : Nat) (h : MemOk s) {t : State} (e : State.arrive s level id = .ok t) : MemOk t := by
  unfold State.arrive at e
  grind -ring -linarith -lia [→ State.done_memOk, → State.done_memOk_err, State.modGroup_memOk, → State.waitAt_memOk, → State.waitAt_memOk_err, MemOk, foldl_memOk]

theorem State.arrive_memOk_err {s : State} (level : Nat) (id : Nat) (h : MemOk s) {q : Fail} (e : State.arrive s level id = .error q) : MemOk q.st := by
  unfold State.arrive at e
  grind -ring -linarith -lia [→ State.done_memOk, → State.done_memOk_err, State.modGroup_memOk, → State.waitAt_memOk, → State.waitAt_memOk_err, MemOk, foldl_memOk]

theorem State.memResult_memOk {s : State} (d : Opd) (x : Word) (ext : Bool) (mirror : Bool) (h : MemOk s) : MemOk (State.memResult s d x ext mirror) := by
  unfold State.memResult
  grind -ring -linarith -lia [State.putResult_memOk, State.wr_memOk, MemOk, foldl_memOk]

theorem State.memVec_memOk {s : State} (d : Opd) (mask : Vec) (x : Vec) (ext : Bool) (h : MemOk s) : MemOk (State.memVec s d mask x ext) := by
  unfold State.memVec
  grind -ring -linarith -lia [State.putResult_memOk, MemOk, foldl_memOk]

theorem State.accessAll_memOk {s : State} (k : Ctx) (kind : AccKind) (a3 : List (Nat × Nat)) (h : MemOk s) {r : _} {t : State} (e : State.accessAll s k kind a3 = .ok (r, t)) : MemOk t := by
  induction a3 generalizing s r t with
  | nil => unfold State.accessAll at e; grind
  | cons x l ih =>
    unfold State.accessAll at e
    (try dsimp only at e)
    (repeat' split at e) <;> grind -ring -linarith -lia [→ State.access_memOk, → State.access_memOk_err, MemOk, foldl_memOk]

theorem State.accessAll_memOk_err {s : State} (k : Ctx) (kind : AccKind) (a3 : List (Nat × Nat)) (h : MemOk s) {q : Fail} (e : State.accessAll s k kind a3 = .error q) : MemOk q.st := by
  induction a3 generalizing s q with
  | nil => unfold State.accessAll at e; grind
  | cons x l ih =>
    unfold State.accessAll at e
    (try dsimp only at e)
    (repeat' split at e) <;> grind -ring -linarith -lia [→ State.access_memOk, → State.access_memOk_err, MemOk, foldl_memOk]

theorem State.localOut_memOk {s : State} (off : Nat) (bs : List Byte) (h : MemOk s) : MemOk (State.localOut s off bs) := by
  unfold State.localOut
  grind -ring -linarith -lia [State.defer_memOk, State.storeLocal_memOk, MemOk, foldl_memOk]

theorem State.localRange_memOk {s : State} (off : Nat) (n : Nat) (h : MemOk s) {t : State} (e : State.localRange s off n = some (.ok t)) : MemOk t := by
  unfold State.localRange at e
  grind -ring -linarith -lia [→ trapRes_memOk, → trapRes_memOk_err, MemOk, foldl_memOk]

theorem State.localRange_memOk_err {s : State} (off : Nat) (n : Nat) (h : MemOk s) {q : Fail} (e : State.localRange s off n = some (.error q)) : MemOk q.st := by
  unfold State.localRange at e
  grind -ring -linarith -lia [→ trapRes_memOk, → trapRes_memOk_err, MemOk, foldl_memOk]

theorem State.ld_memOk {s : State} (m : MemMod) (d : Opd) (a : Opd) (b : Opd) (h : MemOk s) {t : State} (e : State.ld s m d a b = .ok t) : MemOk t := by
  unfold State.ld at e
  grind -ring -linarith -lia [State.acquireAt_memOk, → State.access_memOk, → State.access_memOk_err, → State.load_memOk, → State.load_memOk_err, State.takeMirror_memOk, → State.done_memOk, → State.done_memOk_err, → State.readPieces_memOk, → State.readPieces_memOk_err, State.memResult_memOk, MemOk, foldl_memOk]

theorem State.ld_memOk_err {s : State} (m : MemMod) (d : Opd) (a : Opd) (b : Opd) (h : MemOk s) {q : Fail} (e : State.ld s m d a b = .error q) : MemOk q.st := by
  unfold State.ld at e
  grind -ring -linarith -lia [State.acquireAt_memOk, → State.access_memOk, → State.access_memOk_err, → State.load_memOk, → State.load_memOk_err, State.takeMirror_memOk, → State.done_memOk, → State.done_memOk_err, → State.readPieces_memOk, → State.readPieces_memOk_err, State.memResult_memOk, MemOk, foldl_memOk]

theorem State.readAll_memOk {s : State} (k : Ctx) (a2 : List (List Piece)) (h : MemOk s) {r : _} {t : State} (e : State.readAll s k a2 = .ok (r, t)) : MemOk t := by
  induction a2 generalizing s r t with
  | nil => unfold State.readAll at e; grind
  | cons x l ih =>
    unfold State.readAll at e
    (try dsimp only at e)
    (repeat' split at e) <;> grind -ring -linarith -lia [→ State.readPieces_memOk, → State.readPieces_memOk_err, MemOk, foldl_memOk]

theorem State.readAll_memOk_err {s : State} (k : Ctx) (a2 : List (List Piece)) (h : MemOk s) {q : Fail} (e : State.readAll s k a2 = .error q) : MemOk q.st := by
  induction a2 generalizing s q with
  | nil => unfold State.readAll at e; grind
  | cons x l ih =>
    unfold State.readAll at e
    (try dsimp only at e)
    (repeat' split at e) <;> grind -ring -linarith -lia [→ State.readPieces_memOk, → State.readPieces_memOk_err, MemOk, foldl_memOk]

theorem State.rowsCheck_memOk {s : State} (off : Nat) (count : Nat) (h : MemOk s) {t : State} (e : State.rowsCheck s off count = some (.ok t)) : MemOk t := by
  unfold State.rowsCheck at e
  grind -ring -linarith -lia [→ trapRes_memOk, → trapRes_memOk_err, → State.localRange_memOk, → State.localRange_memOk_err, MemOk, foldl_memOk]

theorem State.rowsCheck_memOk_err {s : State} (off : Nat) (count : Nat) (h : MemOk s) {q : Fail} (e : State.rowsCheck s off count = some (.error q)) : MemOk q.st := by
  unfold State.rowsCheck at e
  grind -ring -linarith -lia [→ trapRes_memOk, → trapRes_memOk_err, → State.localRange_memOk, → State.localRange_memOk_err, MemOk, foldl_memOk]

theorem State.blkld_memOk {s : State} (c : Nat) (d : Opd) (base : Nat) (n : Nat) (h : MemOk s) {t : State} (e : State.blkld s c d base n = .ok t) : MemOk t := by
  unfold State.blkld at e
  grind -ring -linarith -lia [→ State.access_memOk, → State.access_memOk_err, → State.load_memOk, → State.load_memOk_err, → trapRes_memOk, → trapRes_memOk_err, State.modCore_memOk, State.fitL1_memOk, → State.done_memOk, → State.done_memOk_err, MemOk, foldl_memOk]

theorem State.blkld_memOk_err {s : State} (c : Nat) (d : Opd) (base : Nat) (n : Nat) (h : MemOk s) {q : Fail} (e : State.blkld s c d base n = .error q) : MemOk q.st := by
  unfold State.blkld at e
  grind -ring -linarith -lia [→ State.access_memOk, → State.access_memOk_err, → State.load_memOk, → State.load_memOk_err, → trapRes_memOk, → trapRes_memOk_err, State.modCore_memOk, State.fitL1_memOk, → State.done_memOk, → State.done_memOk_err, MemOk, foldl_memOk]

theorem State.copyRange_memOk {s : State} (k : Ctx) (kind : AccKind) (glob : Bool) (p : Word) (n : Nat) (h : MemOk s) {r : _} {t : State} (e : State.copyRange s k kind glob p n = .ok (r, t)) : MemOk t := by
  unfold State.copyRange at e
  grind -ring -linarith -lia [→ State.access_memOk, → State.access_memOk_err, MemOk, foldl_memOk]

theorem State.copyRange_memOk_err {s : State} (k : Ctx) (kind : AccKind) (glob : Bool) (p : Word) (n : Nat) (h : MemOk s) {q : Fail} (e : State.copyRange s k kind glob p n = .error q) : MemOk q.st := by
  unfold State.copyRange at e
  grind -ring -linarith -lia [→ State.access_memOk, → State.access_memOk_err, MemOk, foldl_memOk]

theorem State.issueCopy_memOk {s : State} (cmd : Word) (src : CopyEnd) (dsts : List CopyEnd) (syncs : List CopyEnd) (sems : List CopyEnd) (multi : Bool) (h : MemOk s) {t : State} (e : State.issueCopy s cmd src dsts syncs sems multi = .ok t) : MemOk t := by
  unfold State.issueCopy at e
  grind -ring -linarith -lia [State.defer_memOk, State.modCore_memOk, → State.done_memOk, → State.done_memOk_err, → State.waitAt_memOk, → State.waitAt_memOk_err, State.startCopy_memOk, MemOk, foldl_memOk]

theorem State.issueCopy_memOk_err {s : State} (cmd : Word) (src : CopyEnd) (dsts : List CopyEnd) (syncs : List CopyEnd) (sems : List CopyEnd) (multi : Bool) (h : MemOk s) {q : Fail} (e : State.issueCopy s cmd src dsts syncs sems multi = .error q) : MemOk q.st := by
  unfold State.issueCopy at e
  grind -ring -linarith -lia [State.defer_memOk, State.modCore_memOk, → State.done_memOk, → State.done_memOk_err, → State.waitAt_memOk, → State.waitAt_memOk_err, State.startCopy_memOk, MemOk, foldl_memOk]

theorem State.cpy_memOk {s : State} (dir : CpyDir) (b : Word) (a : Word) (cmd : Word) (h : MemOk s) {t : State} (e : State.cpy s dir b a cmd = .ok t) : MemOk t := by
  unfold State.cpy at e
  grind -ring -linarith -lia [→ trapRes_memOk, → trapRes_memOk_err, → State.copyRange_memOk, → State.copyRange_memOk_err, → State.load_memOk, → State.load_memOk_err, → State.issueCopy_memOk, → State.issueCopy_memOk_err, MemOk, foldl_memOk]

theorem State.cpy_memOk_err {s : State} (dir : CpyDir) (b : Word) (a : Word) (cmd : Word) (h : MemOk s) {q : Fail} (e : State.cpy s dir b a cmd = .error q) : MemOk q.st := by
  unfold State.cpy at e
  grind -ring -linarith -lia [→ trapRes_memOk, → trapRes_memOk_err, → State.copyRange_memOk, → State.copyRange_memOk_err, → State.load_memOk, → State.load_memOk_err, → State.issueCopy_memOk, → State.issueCopy_memOk_err, MemOk, foldl_memOk]

theorem State.cpym_memOk {s : State} (mask : Nat) (b : Word) (a : Word) (cmd : Word) (h : MemOk s) {t : State} (e : State.cpym s mask b a cmd = .ok t) : MemOk t := by
  unfold State.cpym at e
  grind -ring -linarith -lia [→ trapRes_memOk, → trapRes_memOk_err, → State.copyRange_memOk, → State.copyRange_memOk_err, → State.load_memOk, → State.load_memOk_err, → State.issueCopy_memOk, → State.issueCopy_memOk_err, MemOk, foldl_memOk]

theorem State.cpym_memOk_err {s : State} (mask : Nat) (b : Word) (a : Word) (cmd : Word) (h : MemOk s) {q : Fail} (e : State.cpym s mask b a cmd = .error q) : MemOk q.st := by
  unfold State.cpym at e
  grind -ring -linarith -lia [→ trapRes_memOk, → trapRes_memOk_err, → State.copyRange_memOk, → State.copyRange_memOk_err, → State.load_memOk, → State.load_memOk_err, → State.issueCopy_memOk, → State.issueCopy_memOk_err, MemOk, foldl_memOk]

theorem State.syncCheck_memOk {s : State} (off : Nat) (h : MemOk s) {t : State} (e : State.syncCheck s off = some (.ok t)) : MemOk t := by
  unfold State.syncCheck at e
  grind -ring -linarith -lia [→ trapRes_memOk, → trapRes_memOk_err, → State.localRange_memOk, → State.localRange_memOk_err, MemOk, foldl_memOk]

theorem State.syncCheck_memOk_err {s : State} (off : Nat) (h : MemOk s) {q : Fail} (e : State.syncCheck s off = some (.error q)) : MemOk q.st := by
  unfold State.syncCheck at e
  grind -ring -linarith -lia [→ trapRes_memOk, → trapRes_memOk_err, → State.localRange_memOk, → State.localRange_memOk_err, MemOk, foldl_memOk]

theorem State.atomicResult_memOk {s : State} (rs : List (Opd × Word)) (ext : Bool) (h : MemOk s) : MemOk (State.atomicResult s rs ext) := by
  unfold State.atomicResult
  grind -ring -linarith -lia [State.putResult_memOk, State.wr_memOk, MemOk, foldl_memOk]

theorem State.atomicWrite_memOk {s : State} (k : Ctx) (cells : List (XByte × Byte)) (h : MemOk s) : MemOk (State.atomicWrite s k cells) := by
  unfold State.atomicWrite
  grind -ring -linarith -lia [State.defer_memOk, State.writeAtom_memOk, MemOk, foldl_memOk]

theorem State.atomicRead_memOk {s : State} (k : Ctx) (addr : Nat) (xs : List XByte) (h : MemOk s) {r : _} {t : State} (e : State.atomicRead s k addr xs = .ok (r, t)) : MemOk t := by
  unfold State.atomicRead at e
  grind -ring -linarith -lia [State.dropLines_memOk, State.cleanBlocks_memOk, State.homeFetch_memOk, MemOk, foldl_memOk]

theorem State.atomicRead_memOk_err {s : State} (k : Ctx) (addr : Nat) (xs : List XByte) (h : MemOk s) {q : Fail} (e : State.atomicRead s k addr xs = .error q) : MemOk q.st := by
  unfold State.atomicRead at e
  grind -ring -linarith -lia [State.dropLines_memOk, State.cleanBlocks_memOk, State.homeFetch_memOk, MemOk, foldl_memOk]

theorem State.atomicRefused_memOk {s : State} (xs : List XByte) (peerOk : Bool) (h : MemOk s) : MemOk (State.atomicRefused s xs peerOk).2 := by
  unfold State.atomicRefused
  grind -ring -linarith -lia [State.countPeer_memOk, MemOk, foldl_memOk]

theorem State.atomic_memOk {s : State} (sc : Scope) (ord : Ord) (loc : Bool) (peerOk : Bool) (a : Opd) (n : Nat) (f : Nat → Option Nat) (res : Nat → List (Opd × Word)) (h : MemOk s) {t : State} (e : State.atomic s sc ord loc peerOk a n f res = .ok t) : MemOk t := by
  unfold State.atomic at e
  grind -ring -linarith -lia [State.takeMirror_memOk, → State.done_memOk, → State.done_memOk_err, → trapRes_memOk, → trapRes_memOk_err, → State.loadLocal_memOk_err, State.defer_memOk, State.storeLocal_memOk, State.atomicResult_memOk, → State.access_memOk, → State.access_memOk_err, State.atomicRefused_memOk, State.opRelease_memOk, → State.atomicRead_memOk, → State.atomicRead_memOk_err, State.atomicWrite_memOk, State.acquireAt_memOk, MemOk, foldl_memOk]

theorem State.atomic_memOk_err {s : State} (sc : Scope) (ord : Ord) (loc : Bool) (peerOk : Bool) (a : Opd) (n : Nat) (f : Nat → Option Nat) (res : Nat → List (Opd × Word)) (h : MemOk s) {q : Fail} (e : State.atomic s sc ord loc peerOk a n f res = .error q) : MemOk q.st := by
  unfold State.atomic at e
  grind -ring -linarith -lia [State.takeMirror_memOk, → State.done_memOk, → State.done_memOk_err, → trapRes_memOk, → trapRes_memOk_err, → State.loadLocal_memOk_err, State.defer_memOk, State.storeLocal_memOk, State.atomicResult_memOk, → State.access_memOk, → State.access_memOk_err, State.atomicRefused_memOk, State.opRelease_memOk, → State.atomicRead_memOk, → State.atomicRead_memOk_err, State.atomicWrite_memOk, State.acquireAt_memOk, MemOk, foldl_memOk]

theorem State.atomicInt_memOk {s : State} (m : AtMod) (peerOk : Bool) (sgn : Bool) (d : Opd) (a : Opd) (b : Opd) (f : Nat → Nat → Option Nat) (h : MemOk s) {t : State} (e : State.atomicInt s m peerOk sgn d a b f = .ok t) : MemOk t := by
  unfold State.atomicInt at e
  grind -ring -linarith -lia [→ State.atomic_memOk, → State.atomic_memOk_err, MemOk, foldl_memOk]

theorem State.atomicInt_memOk_err {s : State} (m : AtMod) (peerOk : Bool) (sgn : Bool) (d : Opd) (a : Opd) (b : Opd) (f : Nat → Nat → Option Nat) (h : MemOk s) {q : Fail} (e : State.atomicInt s m peerOk sgn d a b f = .error q) : MemOk q.st := by
  unfold State.atomicInt at e
  grind -ring -linarith -lia [→ State.atomic_memOk, → State.atomic_memOk_err, MemOk, foldl_memOk]

theorem State.endPush_memOk {s : State} (h : MemOk s) : MemOk (State.endPush s) := by
  unfold State.endPush
  grind -ring -linarith -lia [State.modCore_memOk, MemOk, foldl_memOk]

theorem State.tlbinv_memOk {s : State} (f : InvForm) (h : MemOk s) {t : State} (e : State.tlbinv s f = .ok t) : MemOk t := by
  unfold State.tlbinv at e
  grind -ring -linarith -lia [→ trapRes_memOk, → trapRes_memOk_err, → State.done_memOk, → State.done_memOk_err, State.releaseAt_memOk, State.invalidate_memOk, State.modCore_memOk, → State.waitAt_memOk, → State.waitAt_memOk_err, MemOk, foldl_memOk]

theorem State.tlbinv_memOk_err {s : State} (f : InvForm) (h : MemOk s) {q : Fail} (e : State.tlbinv s f = .error q) : MemOk q.st := by
  unfold State.tlbinv at e
  grind -ring -linarith -lia [→ trapRes_memOk, → trapRes_memOk_err, → State.done_memOk, → State.done_memOk_err, State.releaseAt_memOk, State.invalidate_memOk, State.modCore_memOk, → State.waitAt_memOk, → State.waitAt_memOk_err, MemOk, foldl_memOk]

theorem State.modQuery_memOk {s : State} (t1 : Tid) (f : Query → Query) (h : MemOk s) : MemOk (State.modQuery s t1 f) := by
  unfold State.modQuery
  grind -ring -linarith -lia [State.modThread_memOk, MemOk, foldl_memOk]

theorem State.readOnce_memOk {s : State} (t1 : Tid) (k : Ctx) (q1 : Query) (off : Nat) (n : Nat) (h : MemOk s) {r : _} {t : State} (e : State.readOnce s t1 k q1 off n = .ok (r, t)) : MemOk t := by
  unfold State.readOnce at e
  grind -ring -linarith -lia [→ State.load_memOk, → State.load_memOk_err, State.modQuery_memOk, → State.st_memOk, → State.st_memOk_err, MemOk, foldl_memOk]

theorem State.readOnce_memOk_err {s : State} (t1 : Tid) (k : Ctx) (q1 : Query) (off : Nat) (n : Nat) (h : MemOk s) {r : _} {t : State} (e : State.readOnce s t1 k q1 off n = .error (r, t)) : MemOk t := by
  unfold State.readOnce at e
  grind -ring -linarith -lia [→ State.load_memOk, → State.load_memOk_err, State.modQuery_memOk, → State.st_memOk, → State.st_memOk_err, MemOk, foldl_memOk]

theorem State.readItem_memOk {s : State} (t1 : Tid) (k : Ctx) (q1 : Query) (size : Nat) (off : Nat) (n : Nat) (h : MemOk s) {r : _} {t : State} (e : State.readItem s t1 k q1 size off n = .ok (r, t)) : MemOk t := by
  unfold State.readItem at e
  grind -ring -linarith -lia [→ State.readOnce_memOk, → State.readOnce_memOk_err, MemOk, foldl_memOk]

theorem State.readItem_memOk_err {s : State} (t1 : Tid) (k : Ctx) (q1 : Query) (size : Nat) (off : Nat) (n : Nat) (h : MemOk s) {r : _} {t : State} (e : State.readItem s t1 k q1 size off n = .error (r, t)) : MemOk t := by
  unfold State.readItem at e
  grind -ring -linarith -lia [→ State.readOnce_memOk, → State.readOnce_memOk_err, MemOk, foldl_memOk]

theorem State.leafBytes_memOk {s : State} (t1 : Tid) (k : Ctx) (q1 : Query) (h1 : List Byte) (off : Nat) (h : MemOk s) {r : _} {t : State} (e : State.leafBytes s t1 k q1 h1 off = .ok (r, t)) : MemOk t := by
  unfold State.leafBytes at e
  grind -ring -linarith -lia [→ State.readItem_memOk, → State.readItem_memOk_err, → State.readOnce_memOk, → State.readOnce_memOk_err, State.take_memOk, MemOk, foldl_memOk]

theorem State.leafBytes_memOk_err {s : State} (t1 : Tid) (k : Ctx) (q1 : Query) (h1 : List Byte) (off : Nat) (h : MemOk s) {r : _} {t : State} (e : State.leafBytes s t1 k q1 h1 off = .error (r, t)) : MemOk t := by
  unfold State.leafBytes at e
  grind -ring -linarith -lia [→ State.readItem_memOk, → State.readItem_memOk_err, → State.readOnce_memOk, → State.readOnce_memOk_err, State.take_memOk, MemOk, foldl_memOk]

theorem State.leafResult_memOk {s : State} (t1 : Tid) (k : Ctx) (q1 : Query) (h1 : List Byte) (off : Nat) (l : List Byte) (h : MemOk s) {r : _} {t : State} (e : State.leafResult s t1 k q1 h1 off l = .ok (r, t)) : MemOk t := by
  unfold State.leafResult at e
  grind -ring -linarith -lia [→ State.readItem_memOk, → State.readItem_memOk_err, MemOk, foldl_memOk]

theorem State.leafResult_memOk_err {s : State} (t1 : Tid) (k : Ctx) (q1 : Query) (h1 : List Byte) (off : Nat) (l : List Byte) (h : MemOk s) {r : _} {t : State} (e : State.leafResult s t1 k q1 h1 off l = .error (r, t)) : MemOk t := by
  unfold State.leafResult at e
  grind -ring -linarith -lia [→ State.readItem_memOk, → State.readItem_memOk_err, MemOk, foldl_memOk]

theorem State.readLeaf_memOk {s : State} (t1 : Tid) (k : Ctx) (q1 : Query) (h1 : List Byte) (off : Nat) (h : MemOk s) {r : _} {t : State} (e : State.readLeaf s t1 k q1 h1 off = .ok (r, t)) : MemOk t := by
  unfold State.readLeaf at e
  grind -ring -linarith -lia [→ State.leafBytes_memOk, → State.leafBytes_memOk_err, → State.leafResult_memOk, → State.leafResult_memOk_err, MemOk, foldl_memOk]

theorem State.readLeaf_memOk_err {s : State} (t1 : Tid) (k : Ctx) (q1 : Query) (h1 : List Byte) (off : Nat) (h : MemOk s) {r : _} {t : State} (e : State.readLeaf s t1 k q1 h1 off = .error (r, t)) : MemOk t := by
  unfold State.readLeaf at e
  grind -ring -linarith -lia [→ State.leafBytes_memOk, → State.leafBytes_memOk_err, → State.leafResult_memOk, → State.leafResult_memOk_err, MemOk, foldl_memOk]

theorem State.visit_walkOk (t1 : Tid) (k : Ctx) (q : Query) (hd : List Byte) (m : Nat) {s : State} (off : Nat) (h : MemOk s) :
    WalkOk (s.visit t1 k q hd m off) := by
  induction m generalizing s off with
  | zero => unfold State.visit; exact h
  | succ n ih =>
    unfold State.visit
    split
    · rename_i e1; exact State.readItem_memOk_err _ _ _ _ _ _ h e1
    · rename_i node s1 e1
      have h0 := State.readItem_memOk _ _ _ _ _ _ h e1
      split
      · exact h0
      · refine foldl_pred WalkOk _ _ (fun r x hr => ?_) h0
        unfold enterChild
        rcases r with p | ⟨hs, s⟩
        · exact hr
        · have h1 := ih (nodeChild node x / 64 * 64) hr
          have h2 : MemOk s := hr
          dsimp only
          split
          · rename_i e2; split at e2
            · exact State.readLeaf_memOk_err _ _ _ _ _ h2 e2
            · rw [e2] at h1; exact h1
          · rename_i e2; split at e2
            · exact State.readLeaf_memOk _ _ _ _ _ h2 e2
            · rw [e2] at h1; exact h1

theorem State.visit_memOk {s : State} (t1 : Tid) (k : Ctx) (q2 : Query) (h3 : List Byte) (a4 : Nat) (a5 : Nat) (h : MemOk s) {r : _} {t : State} (e : State.visit s t1 k q2 h3 a4 a5 = .ok (r, t)) : MemOk t := by
  have := State.visit_walkOk t1 k q2 h3 a4 a5 h
  rw [e] at this; exact this

theorem State.visit_memOk_err {s : State} (t1 : Tid) (k : Ctx) (q2 : Query) (h3 : List Byte) (a4 : Nat) (a5 : Nat) (h : MemOk s) {r : _} {t : State} (e : State.visit s t1 k q2 h3 a4 a5 = .error (r, t)) : MemOk t := by
  have := State.visit_walkOk t1 k q2 h3 a4 a5 h
  rw [e] at this; exact this

theorem State.fillHint_memOk {s : State} (t1 : Tid) (q1 : Query) (leaf : Nat) (h : MemOk s) : MemOk (State.fillHint s t1 q1 leaf) := by
  unfold State.fillHint
  grind -ring -linarith -lia [State.modUnit_memOk, State.take_memOk, MemOk, foldl_memOk]

theorem State.startQuery_memOk {s : State} (t1 : Tid) (k : Ctx) (q1 : Query) (h : MemOk s) {r : _} {t : State} (e : State.startQuery s t1 k q1 = .ok (r, t)) : MemOk t := by
  unfold State.startQuery at e
  grind -ring -linarith -lia [→ State.readItem_memOk, → State.readItem_memOk_err, State.modQuery_memOk, MemOk, foldl_memOk]

theorem State.startQuery_memOk_err {s : State} (t1 : Tid) (k : Ctx) (q1 : Query) (h : MemOk s) {r : _} {t : State} (e : State.startQuery s t1 k q1 = .error (r, t)) : MemOk t := by
  unfold State.startQuery at e
  grind -ring -linarith -lia [→ State.readItem_memOk, → State.readItem_memOk_err, State.modQuery_memOk, MemOk, foldl_memOk]

theorem State.hintHits_memOk {s : State} (t1 : Tid) (k : Ctx) (q1 : Query) (h1 : List Byte) (h : MemOk s) {r : _} {t : State} (e : State.hintHits s t1 k q1 h1 = .ok (r, t)) : MemOk t := by
  unfold State.hintHits at e
  grind -ring -linarith -lia [→ State.leafBytes_memOk, → State.leafBytes_memOk_err, → State.leafResult_memOk, → State.leafResult_memOk_err, MemOk, foldl_memOk]

theorem State.hintHits_memOk_err {s : State} (t1 : Tid) (k : Ctx) (q1 : Query) (h1 : List Byte) (h : MemOk s) {r : _} {t : State} (e : State.hintHits s t1 k q1 h1 = .error (r, t)) : MemOk t := by
  unfold State.hintHits at e
  grind -ring -linarith -lia [→ State.leafBytes_memOk, → State.leafBytes_memOk_err, → State.leafResult_memOk, → State.leafResult_memOk_err, MemOk, foldl_memOk]

theorem State.traverse_memOk {s : State} (t1 : Tid) (q1 : Query) (choice : Nat) (h : MemOk s) {r : _} {t : State} (e : State.traverse s t1 q1 choice = .ok (r, t)) : MemOk t := by
  unfold State.traverse at e
  grind -ring -linarith -lia [→ State.startQuery_memOk, → State.startQuery_memOk_err, → State.hintHits_memOk, → State.hintHits_memOk_err, State.visit_walkOk, → State.visit_memOk, → State.visit_memOk_err, MemOk, foldl_memOk]

theorem State.traverse_memOk_err {s : State} (t1 : Tid) (q1 : Query) (choice : Nat) (h : MemOk s) {r : _} {t : State} (e : State.traverse s t1 q1 choice = .error (r, t)) : MemOk t := by
  unfold State.traverse at e
  grind -ring -linarith -lia [→ State.startQuery_memOk, → State.startQuery_memOk_err, → State.hintHits_memOk, → State.hintHits_memOk_err, State.visit_walkOk, → State.visit_memOk, → State.visit_memOk_err, MemOk, foldl_memOk]

theorem State.putReport_memOk {s : State} (t1 : Tid) (d : Nat) (tcode : Nat) (status : Nat) (w1 : Nat) (w2 : Nat) (w3 : Nat) (h : MemOk s) : MemOk (State.putReport s t1 d tcode status w1 w2 w3) := by
  unfold State.putReport
  grind -ring -linarith -lia [State.putX_memOk, MemOk, foldl_memOk]

theorem State.putHit_memOk {s : State} (t1 : Tid) (d : Nat) (status : Nat) (h1 : Hit) (count : Nat) (h : MemOk s) : MemOk (State.putHit s t1 d status h1 count) := by
  unfold State.putHit
  grind -ring -linarith -lia [State.putReport_memOk, MemOk, foldl_memOk]

theorem State.closeQuery_memOk {s : State} (t1 : Tid) (count : Nat) (h : MemOk s) : MemOk (State.closeQuery s t1 count) := by
  unfold State.closeQuery
  grind -ring -linarith -lia [State.emitAt_memOk, State.modSlot_memOk, State.modThread_memOk, MemOk, foldl_memOk]

theorem State.deliverQuery_memOk {s : State} (t1 : Tid) (d : Nat) (q1 : Query) (h : MemOk s) {t : State} (e : State.deliverQuery s t1 d q1 = .ok t) : MemOk t := by
  unfold State.deliverQuery at e
  grind -ring -linarith -lia [State.putHit_memOk, State.modQuery_memOk, State.fillHint_memOk, State.closeQuery_memOk, State.putReport_memOk, → trapRes_memOk, → trapRes_memOk_err, MemOk, foldl_memOk]

theorem State.deliverQuery_memOk_err {s : State} (t1 : Tid) (d : Nat) (q1 : Query) (h : MemOk s) {q : Fail} (e : State.deliverQuery s t1 d q1 = .error q) : MemOk q.st := by
  unfold State.deliverQuery at e
  grind -ring -linarith -lia [State.putHit_memOk, State.modQuery_memOk, State.fillHint_memOk, State.closeQuery_memOk, State.putReport_memOk, → trapRes_memOk, → trapRes_memOk_err, MemOk, foldl_memOk]

theorem State.reportQuery_memOk {s : State} (t1 : Tid) (q1 : Query) (choice : Nat) (h : MemOk s) : MemOk (State.reportQuery s t1 q1 choice) := by
  unfold State.reportQuery
  split <;> grind -ring -linarith -lia [→ State.traverse_memOk, → State.traverse_memOk_err, State.modQuery_memOk, MemOk, foldl_memOk]

theorem State.rayq_memOk {s : State} (sphere : Bool) (radius : Nat) (q1 : Opd) (h1 : Opd) (fast : Bool) (nohint : Bool) (opq : Bool) (h : MemOk s) {t : State} (e : State.rayq s sphere radius q1 h1 fast nohint opq = .ok t) : MemOk t := by
  unfold State.rayq at e
  grind -ring -linarith -lia [→ State.done_memOk, → State.done_memOk_err, → trapRes_memOk, → trapRes_memOk_err, State.modThread_memOk, MemOk, foldl_memOk]

theorem State.rayq_memOk_err {s : State} (sphere : Bool) (radius : Nat) (q1 : Opd) (h1 : Opd) (fast : Bool) (nohint : Bool) (opq : Bool) (h : MemOk s) {q : Fail} (e : State.rayq s sphere radius q1 h1 fast nohint opq = .error q) : MemOk q.st := by
  unfold State.rayq at e
  grind -ring -linarith -lia [→ State.done_memOk, → State.done_memOk_err, → trapRes_memOk, → trapRes_memOk_err, State.modThread_memOk, MemOk, foldl_memOk]

theorem State.resolve_memOk {s : State} (accept : Bool) (h : MemOk s) {t : State} (e : State.resolve s accept = .ok t) : MemOk t := by
  unfold State.resolve at e
  grind -ring -linarith -lia [→ State.done_memOk, → State.done_memOk_err, → trapRes_memOk, → trapRes_memOk_err, State.modQuery_memOk, MemOk, foldl_memOk]

theorem State.resolve_memOk_err {s : State} (accept : Bool) (h : MemOk s) {q : Fail} (e : State.resolve s accept = .error q) : MemOk q.st := by
  unfold State.resolve at e
  grind -ring -linarith -lia [→ State.done_memOk, → State.done_memOk_err, → trapRes_memOk, → trapRes_memOk_err, State.modQuery_memOk, MemOk, foldl_memOk]

theorem State.dropHints_memOk {s : State} (p : Hint → Bool) (h : MemOk s) : MemOk (State.dropHints s p) := by
  unfold State.dropHints
  grind -ring -linarith -lia [State.modUnit_memOk, MemOk, foldl_memOk]

theorem State.hintRemove_memOk {s : State} (p : Hint → Bool) (h : MemOk s) {t : State} (e : State.hintRemove s p = .ok t) : MemOk t := by
  unfold State.hintRemove at e
  grind -ring -linarith -lia [State.dropHints_memOk, → State.waitAt_memOk, → State.waitAt_memOk_err, MemOk, foldl_memOk]

theorem State.hintRemove_memOk_err {s : State} (p : Hint → Bool) (h : MemOk s) {q : Fail} (e : State.hintRemove s p = .error q) : MemOk q.st := by
  unfold State.hintRemove at e
  grind -ring -linarith -lia [State.dropHints_memOk, → State.waitAt_memOk, → State.waitAt_memOk_err, MemOk, foldl_memOk]

theorem State.sampleLoad_memOk {s : State} (k : Ctx) (addr : Nat) (n : Nat) (h : MemOk s) {r : _} {t : State} (e : State.sampleLoad s k addr n = .ok (r, t)) : MemOk t := by
  unfold State.sampleLoad at e
  grind -ring -linarith -lia [→ State.load_memOk, → State.load_memOk_err, → State.st_memOk, → State.st_memOk_err, MemOk, foldl_memOk]

theorem State.sampleLoad_memOk_err {s : State} (k : Ctx) (addr : Nat) (n : Nat) (h : MemOk s) {q : Fail} (e : State.sampleLoad s k addr n = .error q) : MemOk q.st := by
  unfold State.sampleLoad at e
  grind -ring -linarith -lia [→ State.load_memOk, → State.load_memOk_err, → State.st_memOk, → State.st_memOk_err, MemOk, foldl_memOk]

theorem State.putPair_memOk {s : State} (d : Opd) (lo : Word) (hi : Word) (h : MemOk s) : MemOk (State.putPair s d lo hi) := by
  unfold State.putPair
  grind -ring -linarith -lia [State.putX_memOk, MemOk, foldl_memOk]

theorem State.texel_memOk {s : State} (k : Ctx) (d : List Byte) (i : Int) (j : Int) (h : MemOk s) {r : _} {t : State} (e : State.texel s k d i j = .ok (r, t)) : MemOk t := by
  unfold State.texel at e
  grind -ring -linarith -lia [→ State.sampleLoad_memOk, → State.sampleLoad_memOk_err, MemOk, foldl_memOk]

theorem State.texel_memOk_err {s : State} (k : Ctx) (d : List Byte) (i : Int) (j : Int) (h : MemOk s) {q : Fail} (e : State.texel s k d i j = .error q) : MemOk q.st := by
  unfold State.texel at e
  grind -ring -linarith -lia [→ State.sampleLoad_memOk, → State.sampleLoad_memOk_err, MemOk, foldl_memOk]

theorem State.texels_memOk {s : State} (k : Ctx) (d : List Byte) (a3 : List (Frac × Int × Int)) (h : MemOk s) {r : _} {t : State} (e : State.texels s k d a3 = .ok (r, t)) : MemOk t := by
  induction a3 generalizing s r t with
  | nil => unfold State.texels at e; grind
  | cons x l ih =>
    unfold State.texels at e
    (try dsimp only at e)
    (repeat' split at e) <;> grind -ring -linarith -lia [→ State.texel_memOk, → State.texel_memOk_err, MemOk, foldl_memOk]

theorem State.texels_memOk_err {s : State} (k : Ctx) (d : List Byte) (a3 : List (Frac × Int × Int)) (h : MemOk s) {q : Fail} (e : State.texels s k d a3 = .error q) : MemOk q.st := by
  induction a3 generalizing s q with
  | nil => unfold State.texels at e; grind
  | cons x l ih =>
    unfold State.texels at e
    (try dsimp only at e)
    (repeat' split at e) <;> grind -ring -linarith -lia [→ State.texel_memOk, → State.texel_memOk_err, MemOk, foldl_memOk]

theorem State.putChans_memOk {s : State} (d : Opd) (cs : List Nat) (h : MemOk s) : MemOk (State.putChans s d cs) := by
  unfold State.putChans
  grind -ring -linarith -lia [State.putPair_memOk, MemOk, foldl_memOk]

theorem State.isamp_memOk {s : State} (d : Opd) (addr : Word) (uv : Word) (h : MemOk s) {t : State} (e : State.isamp s d addr uv = .ok t) : MemOk t := by
  unfold State.isamp at e
  grind -ring -linarith -lia [State.putChans_memOk, → State.done_memOk, → State.done_memOk_err, → State.sampleLoad_memOk, → State.sampleLoad_memOk_err, → State.texels_memOk, → State.texels_memOk_err, MemOk, foldl_memOk]

theorem State.isamp_memOk_err {s : State} (d : Opd) (addr : Word) (uv : Word) (h : MemOk s) {q : Fail} (e : State.isamp s d addr uv = .error q) : MemOk q.st := by
  unfold State.isamp at e
  grind -ring -linarith -lia [State.putChans_memOk, → State.done_memOk, → State.done_memOk_err, → State.sampleLoad_memOk, → State.sampleLoad_memOk_err, → State.texels_memOk, → State.texels_memOk_err, MemOk, foldl_memOk]

theorem State.layers_memOk {s : State} (k : Ctx) (m : List Byte) (i : Nat) (j : Nat) (a5 : Nat) (h : MemOk s) {r : _} {t : State} (e : State.layers s k m i j a5 = .ok (r, t)) : MemOk t := by
  induction a5 generalizing s r t with
  | zero => unfold State.layers at e; grind
  | succ n ih =>
    unfold State.layers at e
    (try dsimp only at e)
    (repeat' split at e) <;> grind -ring -linarith -lia [→ State.sampleLoad_memOk, → State.sampleLoad_memOk_err, MemOk, foldl_memOk]

theorem State.layers_memOk_err {s : State} (k : Ctx) (m : List Byte) (i : Nat) (j : Nat) (a5 : Nat) (h : MemOk s) {q : Fail} (e : State.layers s k m i j a5 = .error q) : MemOk q.st := by
  induction a5 generalizing s q with
  | zero => unfold State.layers at e; grind
  | succ n ih =>
    unfold State.layers at e
    (try dsimp only at e)
    (repeat' split at e) <;> grind -ring -linarith -lia [→ State.sampleLoad_memOk, → State.sampleLoad_memOk_err, MemOk, foldl_memOk, → State.layers_memOk]

theorem State.cellCost_memOk {s : State} (k : Ctx) (m : List Byte) (i : Nat) (j : Nat) (h : MemOk s) {r : _} {t : State} (e : State.cellCost s k m i j = .ok (r, t)) : MemOk t := by
  unfold State.cellCost at e
  grind -ring -linarith -lia [→ State.layers_memOk, → State.layers_memOk_err, MemOk, foldl_memOk]

theorem State.cellCost_memOk_err {s : State} (k : Ctx) (m : List Byte) (i : Nat) (j : Nat) (h : MemOk s) {q : Fail} (e : State.cellCost s k m i j = .error q) : MemOk q.st := by
  unfold State.cellCost at e
  grind -ring -linarith -lia [→ State.layers_memOk, → State.layers_memOk_err, MemOk, foldl_memOk]

theorem State.readMap_memOk {s : State} (k : Ctx) (addr : Word) (h : MemOk s) {r : _} {t : State} (e : State.readMap s k addr = .ok (r, t)) : MemOk t := by
  unfold State.readMap at e
  grind -ring -linarith -lia [State.acquireAt_memOk, → State.sampleLoad_memOk, → State.sampleLoad_memOk_err, MemOk, foldl_memOk]

theorem State.readMap_memOk_err {s : State} (k : Ctx) (addr : Word) (h : MemOk s) {q : Fail} (e : State.readMap s k addr = .error q) : MemOk q.st := by
  unfold State.readMap at e
  grind -ring -linarith -lia [State.acquireAt_memOk, → State.sampleLoad_memOk, → State.sampleLoad_memOk_err, MemOk, foldl_memOk]

theorem State.cmsamp_memOk {s : State} (d : Opd) (addr : Word) (xy : Word) (h : MemOk s) {t : State} (e : State.cmsamp s d addr xy = .ok t) : MemOk t := by
  unfold State.cmsamp at e
  grind -ring -linarith -lia [State.putPair_memOk, → State.done_memOk, → State.done_memOk_err, → State.readMap_memOk, → State.readMap_memOk_err, → State.cellCost_memOk, → State.cellCost_memOk_err, MemOk, foldl_memOk]

theorem State.cmsamp_memOk_err {s : State} (d : Opd) (addr : Word) (xy : Word) (h : MemOk s) {q : Fail} (e : State.cmsamp s d addr xy = .error q) : MemOk q.st := by
  unfold State.cmsamp at e
  grind -ring -linarith -lia [State.putPair_memOk, → State.done_memOk, → State.done_memOk_err, → State.readMap_memOk, → State.readMap_memOk_err, → State.cellCost_memOk, → State.cellCost_memOk_err, MemOk, foldl_memOk]

theorem State.cellsCost_memOk {s : State} (k : Ctx) (m : List Byte) (a3 : List (Nat × Nat)) (a4 : Option Nat) (h : MemOk s) {r : _} {t : State} (e : State.cellsCost s k m a3 a4 = .ok (r, t)) : MemOk t := by
  induction a3 generalizing s a4 r t with
  | nil => unfold State.cellsCost at e; grind
  | cons x l ih =>
    unfold State.cellsCost at e
    (try dsimp only at e)
    (repeat' split at e) <;> grind -ring -linarith -lia [→ State.cellCost_memOk, → State.cellCost_memOk_err, MemOk, foldl_memOk]

theorem State.cellsCost_memOk_err {s : State} (k : Ctx) (m : List Byte) (a3 : List (Nat × Nat)) (a4 : Option Nat) (h : MemOk s) {q : Fail} (e : State.cellsCost s k m a3 a4 = .error q) : MemOk q.st := by
  induction a3 generalizing s a4 q with
  | nil => unfold State.cellsCost at e; grind
  | cons x l ih =>
    unfold State.cellsCost at e
    (try dsimp only at e)
    (repeat' split at e) <;> grind -ring -linarith -lia [→ State.cellCost_memOk, → State.cellCost_memOk_err, MemOk, foldl_memOk]

theorem State.cmseg_memOk {s : State} (d : Opd) (addr : Word) (p0 : Word) (p1 : Word) (h : MemOk s) {t : State} (e : State.cmseg s d addr p0 p1 = .ok t) : MemOk t := by
  unfold State.cmseg at e
  grind -ring -linarith -lia [State.putPair_memOk, → State.done_memOk, → State.done_memOk_err, → State.readMap_memOk, → State.readMap_memOk_err, → State.cellsCost_memOk, → State.cellsCost_memOk_err, MemOk, foldl_memOk]

theorem State.cmseg_memOk_err {s : State} (d : Opd) (addr : Word) (p0 : Word) (p1 : Word) (h : MemOk s) {q : Fail} (e : State.cmseg s d addr p0 p1 = .error q) : MemOk q.st := by
  unfold State.cmseg at e
  grind -ring -linarith -lia [State.putPair_memOk, → State.done_memOk, → State.done_memOk_err, → State.readMap_memOk, → State.readMap_memOk_err, → State.cellsCost_memOk, → State.cellsCost_memOk_err, MemOk, foldl_memOk]

theorem State.ready_memOk_op {s : State} (f : Fetched) (rest : List Fetched) (h : MemOk s) {i : Instr} {t : State} (e : State.ready s f rest = .op i t) : MemOk t := by
  unfold State.ready at e
  grind -ring -linarith -lia [State.takeTrap_memOk, State.advance_memOk, MemOk, foldl_memOk]

theorem State.ready_memOk_skip {s : State} (f : Fetched) (rest : List Fetched) (h : MemOk s) {t : State} (e : State.ready s f rest = .skip t) : MemOk t := by
  unfold State.ready at e
  grind -ring -linarith -lia [State.takeTrap_memOk, State.advance_memOk, MemOk, foldl_memOk]

theorem State.settle_memOk {s : State} (a : Agent) (h : MemOk s) : MemOk (State.settle s a) := by
  unfold State.settle
  grind -ring -linarith -lia [State.finishCycle_memOk, MemOk, foldl_memOk]

theorem State.placeWord_memOk {s : State} (nbits : Nat) (w : Nat) (h : MemOk s) : MemOk (State.placeWord s nbits w) := by
  unfold State.placeWord
  grind -ring -linarith -lia [State.modGroup_memOk, State.noPreimages_memOk, MemOk, foldl_memOk]

theorem State.fetchBundle_memOk {s : State} (c : Nat) (h : MemOk s) {r : _} {r2 : _} {t : State} (e : State.fetchBundle s c = .ok (r, r2, t)) : MemOk t := by
  unfold State.fetchBundle at e
  grind -ring -linarith -lia [→ State.fetchCode_memOk, → State.fetchCode_memOk_err, MemOk, foldl_memOk]

theorem State.fetchBundle_memOk_err {s : State} (c : Nat) (h : MemOk s) {q : Fail} (e : State.fetchBundle s c = .error q) : MemOk q.st := by
  unfold State.fetchBundle at e
  grind -ring -linarith -lia [→ State.fetchCode_memOk, → State.fetchCode_memOk_err, MemOk, foldl_memOk]

theorem State.stall_openStall_memOk {s : State} (c : Nat) (cause : Nat) (h : MemOk s) : MemOk (State.stall.openStall s c cause) := by
  unfold State.stall.openStall
  grind -ring -linarith -lia [State.modCore_memOk, State.endStall_memOk, MemOk, foldl_memOk]

theorem State.stall_memOk {s : State} (c : Nat) (cause : Nat) (h : MemOk s) : MemOk (State.stall s c cause) := by
  unfold State.stall
  grind -ring -linarith -lia [State.stall_openStall_memOk, State.modCore_memOk, State.endStall_memOk, MemOk, foldl_memOk]

theorem State.freezeCycle_memOk {s : State} (c : Nat) (h : MemOk s) : MemOk (State.freezeCycle s c) := by
  unfold State.freezeCycle
  grind -ring -linarith -lia [State.stall_openStall_memOk, State.stall_memOk, State.modCore_memOk, MemOk, foldl_memOk]

theorem State.issueTrap_memOk {s : State} (c : Nat) (t1 : Trap) (h : MemOk s) : MemOk (State.issueTrap s c t1) := by
  unfold State.issueTrap
  grind -ring -linarith -lia [State.takeTrap_memOk, MemOk, foldl_memOk]

theorem State.fillLatch_memOk {s : State} (c : Nat) (h1 : Header) (len : Nat) (l : List SlotOp) (h : MemOk s) : MemOk (State.fillLatch s c h1 len l) := by
  unfold State.fillLatch
  grind -ring -linarith -lia [State.modCore_memOk, State.finishCycle_memOk, MemOk, foldl_memOk]

theorem State.firstIssue_memOk {s : State} (job : Option Nat) (h : MemOk s) : MemOk (State.firstIssue s job) := by
  unfold State.firstIssue
  grind -ring -linarith -lia [State.modSlot_memOk, MemOk, foldl_memOk]

theorem State.issueBundle_memOk {s : State} (c : Nat) (h1 : Header) (len : Nat) (l : List SlotOp) (weight : Nat) (commits : Bool) (h : MemOk s) : MemOk (State.issueBundle s c h1 len l weight commits) := by
  unfold State.issueBundle
  grind -ring -linarith -lia [State.firstIssue_memOk, State.endStall_memOk, State.modCore_memOk, State.fillLatch_memOk, State.commit_memOk, MemOk, foldl_memOk]

/-- The state that a probe comes to. -/
def ProbeOk : Probe → Prop
  | .trap _ s => MemOk s
  | .issue _ _ _ _ _ _ s => MemOk s
  | _ => True

theorem State.tryBundle_memOk {s : State} (c : Nat) (hd : Header) (len : Nat) (l : List SlotOp) (bundle : Nat) (h : MemOk s) :
    ProbeOk (s.tryBundle c hd len l bundle) := by
  unfold State.tryBundle
  (try dsimp only)
  (repeat' split) <;> grind -ring -linarith -lia [ProbeOk, State.setCore_memOk, MemOk]

theorem State.nextBundle_memOk {s : State} (c : Nat) (fwd : Option (Nat × Nat)) (h : MemOk s) {r : _} {r2 : _} {t : State} (e : State.nextBundle s c fwd = .ok (r, r2, t)) : MemOk t := by
  unfold State.nextBundle at e
  grind -ring -linarith -lia [→ State.fetchBundle_memOk, → State.fetchBundle_memOk_err, MemOk, foldl_memOk]

theorem State.nextBundle_memOk_err {s : State} (c : Nat) (fwd : Option (Nat × Nat)) (h : MemOk s) {q : Fail} (e : State.nextBundle s c fwd = .error q) : MemOk q.st := by
  unfold State.nextBundle at e
  grind -ring -linarith -lia [→ State.fetchBundle_memOk, → State.fetchBundle_memOk_err, MemOk, foldl_memOk]

theorem State.probe_memOk {s : State} (c : Nat) (fwd : Option (Nat × Nat)) (h : MemOk s) : ProbeOk (s.probe c fwd) := by
  unfold State.probe
  (try dsimp only)
  (repeat' split) <;>
    grind -ring -linarith -lia [ProbeOk, State.tryBundle_memOk, → State.nextBundle_memOk, → State.nextBundle_memOk_err, MemOk]

theorem State.takeProbe_memOk {s : State} (c : Nat) (p : Probe) (h : MemOk s) (hp : ProbeOk p) : MemOk (s.takeProbe c p) := by
  unfold State.takeProbe
  cases p <;> grind -ring -linarith -lia [ProbeOk, State.modCore_memOk, State.stall_memOk, → State.loadDict_memOk, → State.loadDict_memOk_err,
    State.issueTrap_memOk, State.freezeCycle_memOk, State.issueBundle_memOk, MemOk]

theorem State.holdWith_memOk {s : State} (c : Nat) (p : Probe) (h : MemOk s) : MemOk (s.holdWith c p) := by
  unfold State.holdWith
  cases p <;> grind -ring -linarith -lia [State.modCore_memOk, State.stall_memOk, State.freezeCycle_memOk, MemOk]

theorem State.armGang_memOk {s : State} (c : Nat) (fwd : Option (Nat × Nat)) (others : List Nat) (h : MemOk s) : MemOk (State.armGang s c fwd others) := by
  unfold State.armGang
  grind -ring -linarith -lia [State.modCore_memOk, MemOk, foldl_memOk]

theorem State.afterPushes_memOk {s : State} (c : Nat) (l : List SlotOp) (h : MemOk s) : MemOk (State.afterPushes s c l) := by
  unfold State.afterPushes
  grind -ring -linarith -lia [State.setQueue_memOk, MemOk, foldl_memOk]

theorem State.gangHold_memOk {s : State} (fwd : Option (Nat × Nat)) (l : List Nat) (h : MemOk s) {j : Nat} {q : Probe} (e : State.gangHold s fwd l = some (j, q)) : ProbeOk q := by
  induction l generalizing s with
  | nil => exact absurd e nofun
  | cons i rest ih =>
    have hp := State.probe_memOk i fwd h
    unfold State.gangHold at e
    split at e
    · exact ih (State.afterPushes_memOk _ _ h) e
    · split at e
      · obtain ⟨-, rfl⟩ := Prod.mk.inj (Option.some.inj e)
        exact hp
      · exact ih h e

theorem State.gangCycle_memOk {s : State} (c : Nat) (others : List Nat) (h : MemOk s) : MemOk (State.gangCycle s c others) := by
  have hw := fun (l : List Nat) (p : Probe) => foldl_memOk (fun s j => s.holdWith j p) l (fun s j hs => State.holdWith_memOk j p hs) h
  have hp := State.probe_memOk c none h
  unfold State.gangCycle
  dsimp only
  split
  · exact State.takeProbe_memOk _ _ (hw _ _) hp
  · split
    · rename_i hd len l weight commits b t e
      rw [e] at hp
      split
      · rename_i j q e1
        exact State.takeProbe_memOk _ _ (hw _ _) (State.gangHold_memOk _ _ (State.afterPushes_memOk _ _ h) e1)
      · exact State.issueBundle_memOk _ _ _ _ _ _ (State.armGang_memOk _ _ _ hp)
    · exact State.takeProbe_memOk _ _ h hp

theorem State.operandCycle_memOk {s : State} (t1 : Tid) (h : MemOk s) : MemOk (State.operandCycle s t1) := by
  unfold State.operandCycle
  grind -ring -linarith -lia [State.modThread_memOk, State.endOperandWait_memOk, MemOk, foldl_memOk]

theorem State.schedule_memOk {s : State} (ready : List Tid) (chosen : List Tid) (t1 : Tid) (h : MemOk s) : MemOk (State.schedule s ready chosen t1) := by
  unfold State.schedule
  grind -ring -linarith -lia [State.operandCycle_memOk, State.modThread_memOk, MemOk, foldl_memOk]

theorem State.yieldCycle_memOk {s : State} (ready : List Tid) (chosen : List Tid) (t1 : Tid) (h : MemOk s) : MemOk (State.yieldCycle s ready chosen t1) := by
  unfold State.yieldCycle
  grind -ring -linarith -lia [State.wake_memOk, State.modThread_memOk, MemOk, foldl_memOk]

theorem State.fetchThread_memOk {s : State} (t1 : Tid) (h : MemOk s) : MemOk (State.fetchThread s t1) := by
  unfold State.fetchThread
  (try dsimp only)
  (repeat' split) <;> grind -ring -linarith -lia [State.modThread_memOk, State.threadTrap_memOk, → State.fetchCode_memOk, → State.fetchCode_memOk_err, → State.st_memOk, → State.st_memOk_err, MemOk, foldl_memOk]

theorem State.issueThreads_memOk {s : State} (u : Fin 32) (l : List Tid) (h : MemOk s) : MemOk (State.issueThreads s u l) := by
  unfold State.issueThreads
  grind -ring -linarith -lia [State.fetchThread_memOk, State.finishUnit_memOk, MemOk, foldl_memOk]

theorem State.landSb_memOk {s : State} (c : Nat) (i : Nat) (h : MemOk s) : MemOk (State.landSb s c i) := by
  unfold State.landSb
  grind -ring -linarith -lia [State.modCore_memOk, MemOk, foldl_memOk]

theorem State.copyTrapCore_memOk {s : State} (c : Copy) (va : Nat) (h : MemOk s) : MemOk (State.copyTrapCore s c va) := by
  unfold State.copyTrapCore
  grind -ring -linarith -lia [State.endByTrap_memOk, State.modCore_memOk, State.modSlot_memOk, MemOk, foldl_memOk]

theorem State.copyTrapThread_memOk {s : State} (t1 : Tid) (c : Copy) (va : Nat) (h : MemOk s) : MemOk (State.copyTrapThread s t1 c va) := by
  unfold State.copyTrapThread
  grind -ring -linarith -lia [State.threadTrap_memOk, State.fillTmask_memOk, State.modThread_memOk, MemOk, foldl_memOk]

theorem State.openBar_memOk {s : State} (u : Fin 32) (g : Nat) (level : Nat) (id : Nat) (wide : Bool) (h : MemOk s) : MemOk (State.openBar s u g level id wide) := by
  unfold State.openBar
  grind -ring -linarith -lia [State.dropAll_memOk, State.acquireAt_memOk, State.modGroup_memOk, State.wakeDone_memOk, MemOk, foldl_memOk]

theorem State.acceptThread_memOk {s : State} (u : Fin 32) (blocked : List Nat) (l : List (Nat × Nat × Nat)) (h : MemOk s) :
    MemOk (s.acceptThread u blocked l) := by
  induction l generalizing s blocked with
  | nil => exact h
  | cons q qs ih =>
    unfold State.acceptThread
    dsimp only
    split
    · exact ih _ h
    · split
      · exact ih _ h
      · split
        · exact ih _ h
        · have h1 := fun (bs : List Byte) (f : Thread → Thread) (g : VUnit → VUnit) =>
            State.modUnit_memOk u.val g (State.modThread_memOk ⟨u, q.1, q.2.1⟩ f (State.offerHeld_memOk bs h))
          split
          · exact State.threadStall_memOk _ _ _ (h1 _ _ _)
          · exact h1 _ _ _

theorem State.acceptCore_memOk {s : State} (c : Nat) (h : MemOk s) : MemOk (State.acceptCore s c) := by
  unfold State.acceptCore
  grind -ring -linarith -lia [State.offerHeld_memOk, State.modCore_memOk, State.settleCore_memOk, MemOk, foldl_memOk]

theorem State.acceptSaved_memOk {s : State} (d : Dom) (h : MemOk s) : MemOk (State.acceptSaved s d) := by
  unfold State.acceptSaved
  grind -ring -linarith -lia [State.acceptCore_memOk, State.acceptThread_memOk, MemOk, foldl_memOk]

theorem State.beginBlock_memOk {s : State} (c : Nat) (entry : Nat) (bs : List Byte) (h : MemOk s) : MemOk (State.beginBlock s c entry bs) := by
  unfold State.beginBlock
  grind -ring -linarith -lia [State.endStall_memOk, State.modCore_memOk, MemOk, foldl_memOk]

theorem State.needDict_memOk {s : State} (c : Nat) (first : Bool) (h : MemOk s) {t : State} (e : State.needDict s c first = .ok t) : MemOk t := by
  unfold State.needDict at e
  grind -ring -linarith -lia [→ State.loadDict_memOk, → State.loadDict_memOk_err, MemOk, foldl_memOk]

theorem State.needDict_memOk_err {s : State} (c : Nat) (first : Bool) (h : MemOk s) {q : Fail} (e : State.needDict s c first = .error q) : MemOk q.st := by
  unfold State.needDict at e
  grind -ring -linarith -lia [→ State.loadDict_memOk, → State.loadDict_memOk_err, MemOk, foldl_memOk]

theorem State.beginBlocks_memOk {s : State} (c n : Nat) (bs : List Byte) (l : List Nat) (h : MemOk s) : MemOk (s.beginBlocks c n bs l) := by
  induction l generalizing s with
  | nil => exact h
  | cons j rest ih =>
    unfold State.beginBlocks
    split
    · rename_i f e; exact State.issueTrap_memOk _ _ (State.needDict_memOk_err _ _ h e)
    · rename_i s1 e; exact ih (State.beginBlock_memOk _ _ _ (State.needDict_memOk _ _ h e))

theorem State.rebind_memOk {s : State} (n : Nat) (h : MemOk s) : MemOk (State.rebind s n) := by
  unfold State.rebind
  grind -ring -linarith -lia [State.settleServers_memOk, State.modSlot_memOk, MemOk, foldl_memOk]

theorem State.rebindAll_memOk {s : State} (p : Slot → Bool) (h : MemOk s) : MemOk (State.rebindAll s p) := by
  unfold State.rebindAll
  grind -ring -linarith -lia [State.rebind_memOk, MemOk, foldl_memOk]

theorem State.readEdges_memOk {s : State} (card : List Byte) (h : MemOk s) : MemOk (State.readEdges s card).2 := by
  unfold State.readEdges
  grind -ring -linarith -lia [→ State.deviceRead_memOk, → State.deviceRead_memOk_err, MemOk, foldl_memOk]

theorem State.registerCard_memOk {s : State} (world : Bool) (card : List Byte) (h : MemOk s) : MemOk (State.registerCard s world card).2.2 := by
  have h1 := State.readEdges_memOk card h
  unfold State.registerCard
  split
  · exact h
  · split
    · rename_i e; rw [e] at h1; exact h1
    · rename_i e; rw [e] at h1
      dsimp only
      (repeat' split) <;> first | exact h1 | exact State.setSlot_memOk _ _ h1

theorem State.cardCommand_memOk {s : State} (cmd : Nat) (n : Nat) (z : Slot) (h : MemOk s) : MemOk (State.cardCommand s cmd n z).2 := by
  unfold State.cardCommand
  grind -ring -linarith -lia [State.takeRelease_memOk, State.modSlot_memOk, State.freeSlot_memOk, State.finishJob_memOk, MemOk, foldl_memOk]

theorem State.answerCard_memOk {s : State} (world : Bool) (pa : Nat) (status : Nat) (slot : Nat) (skip : Nat) (h : MemOk s) : MemOk (State.answerCard s world pa status slot skip) := by
  unfold State.answerCard
  grind -ring -linarith -lia [State.homeWrite_memOk, MemOk, foldl_memOk]

theorem State.command_memOk {s : State} (req : Requester) (cmd pa : Nat) (h : MemOk s) : MemOk (State.command s req cmd pa) := by
  unfold State.command
  dsimp only
  generalize (s.homeRead (s.reqWorld req) pa 128).1 = card
  split
  · exact h
  · split
    · exact State.answerCard_memOk _ _ _ _ _ (State.registerCard_memOk _ _ h)
    · split
      · exact State.answerCard_memOk _ _ _ _ _ h
      · split
        · exact State.answerCard_memOk _ _ _ _ _ h
        · split
          · exact State.answerCard_memOk _ _ _ _ _ h
          · exact State.answerCard_memOk _ _ _ _ _ (State.cardCommand_memOk _ _ _ h)

theorem State.capRec_memOk {s : State} (src : Nat) (part : Nat) (world : Bool) (evt : Nat) (arg : Nat) (loc : Nat) (jobid : Nat) (h : MemOk s) : MemOk (State.capRec s src part world evt arg loc jobid).2 := by
  unfold State.capRec
  grind -ring -linarith -lia [State.stampFor_memOk, State.setTsrc_memOk, MemOk, foldl_memOk]

theorem State.capPut_memOk {s : State} (src : Nat) (part : Nat) (world : Bool) (bs : List Byte) (h : MemOk s) {t : State} (e : State.capPut s src part world bs = .ok (some t)) : MemOk t := by
  unfold State.capPut at e
  grind -ring -linarith -lia [→ State.traceStore_memOk, State.setTdesc_memOk, MemOk, foldl_memOk]

theorem State.capFail_memOk {s : State} (n : Nat) (arg : Nat) (h : MemOk s) : MemOk (State.capFail s n arg) := by
  unfold State.capFail
  grind -ring -linarith -lia [State.modSlot_memOk, State.capRec_memOk, → State.capPut_memOk, MemOk, foldl_memOk]

theorem State.capWrite_memOk {s : State} (n : Nat) (src : Nat) (evt : Nat) (loc : Nat) (payload : List Byte) (h : MemOk s) : MemOk (State.capWrite s n src evt loc payload) := by
  unfold State.capWrite
  grind -ring -linarith -lia [State.capRec_memOk, → State.capPut_memOk, State.capFail_memOk, MemOk, foldl_memOk]

theorem State.startCapture_memOk {s : State} (n : Nat) (h : MemOk s) : MemOk (State.startCapture s n) := by
  unfold State.startCapture
  grind -ring -linarith -lia [State.modSlot_memOk, State.capWrite_memOk, State.take_memOk, → State.deviceRead_memOk, → State.deviceRead_memOk_err, → State.st_memOk, → State.st_memOk_err, State.capFail_memOk, MemOk, foldl_memOk]

theorem State.submitReplay_memOk {s : State} (n va units : Nat) (h : MemOk s) : MemOk (s.submitReplay n va units) := by
  have hf : ∀ (l : List (Nat × List Byte)) (m : Map Byte), Memory.wf m = true → Memory.wf (l.foldl (fun m p => writeBytes m (privatePa n (p.1 * 4096)) p.2) m) = true := by
    intro l; induction l with
    | nil => intro m h; exact h
    | cons c l ih => intro m h; exact ih _ (writeBytes_wf _ _ h)
  unfold State.submitReplay
  dsimp only
  split
  · exact h
  · split
    · exact h
    · split
      · rename_i e; exact State.deviceRead_memOk_err _ _ _ _ h e
      · rename_i s1 e
        have h1 := State.deviceRead_memOk _ _ _ _ h e
        split
        · exact h1
        · have h2 := State.takeRelease_memOk n 0 h1
          split
          · exact h2
          · split
            · exact h2
            · exact State.modSlot_memOk _ _ ⟨hf _ _ h2.1, h2.2.1, h2.2.2⟩

theorem State.spill_memOk {s : State} (n : Nat) (c : Nat) (h : MemOk s) : MemOk (State.spill s n c) := by
  unfold State.spill
  grind -ring -linarith -lia [State.modSlot_memOk, MemOk, foldl_memOk]

theorem State.makeRoom_memOk {s : State} (n : Nat) (c : Nat) (h : MemOk s) {t : State} (e : State.makeRoom s n c = some t) : MemOk t := by
  unfold State.makeRoom at e
  dsimp only at e
  have h1 := foldl_memOk (fun s m => s.spill m c) (s.spillable n c) (fun s m hs => State.spill_memOk m c hs) h
  generalize (s.spillable n c).foldl (fun s m => s.spill m c) s = s1 at e h1
  split at e
  · cases e; exact h
  · split at e
    · cases e; exact h1
    · cases e

theorem State.scrub_memOk {s : State} (d : Dom) (world : Bool) (h : MemOk s) : MemOk (State.scrub s d world) := by
  unfold State.scrub
  grind -ring -linarith -lia [State.dropAll_memOk, State.modEng_memOk, State.modCore_memOk, State.modUnit_memOk, MemOk, foldl_memOk]

theorem State.jobTrap_memOk {s : State} (n : Nat) (cause : Nat) (tval : Word) (h : MemOk s) : MemOk (State.jobTrap s n cause tval) := by
  unfold State.jobTrap
  grind -ring -linarith -lia [State.modSlot_memOk, State.modCore_memOk, State.withdraw_memOk, State.modThread_memOk, MemOk, foldl_memOk]

theorem State.edgeRemove_memOk {s : State} (card : List Byte) (edges : List Edge) (es : List Nat) (h : MemOk s) : MemOk (State.edgeRemove s card edges es) := by
  unfold State.edgeRemove
  grind -ring -linarith -lia [State.dropLines_memOk, MemOk, foldl_memOk]

theorem State.restorePart_memOk {s : State} (n i e1 : Nat) (h : MemOk s) {t : State} (e : State.restorePart s n i e1 = some t) : MemOk t := by
  unfold State.restorePart at e
  split at e
  · exact State.restoreCore_memOk _ _ _ _ h e
  · exact State.restoreGroup_memOk _ _ _ h e

theorem State.restoreParts_memOk {s : State} (n : Nat) (es : List Nat) (h : MemOk s) {t : State} (e : State.restoreParts s n es = some t) : MemOk t := by
  have hp : ∀ (l : List Nat) (r : Option State), (∀ t, r = some t → MemOk t) → ∀ t,
      l.foldl (fun (r : Option State) i => r.bind fun s => s.restorePart n i (es.getD i 0)) r = some t → MemOk t := by
    intro l; induction l with
    | nil => intro r h; exact h
    | cons x l ih =>
      intro r hr
      refine ih _ fun t e => ?_
      cases r with
      | none => cases e
      | some s1 => exact State.restorePart_memOk _ _ _ (hr s1 rfl) e
  unfold State.restoreParts at e
  obtain ⟨s1, e1, rfl⟩ := Option.map_eq_some_iff.mp e
  have h1 := hp _ (some s) (fun t e => by cases e; exact h) s1 e1
  split
  · exact foldl_memOk _ _ (fun s c hs => State.splitWalker_memOk c hs) h1
  · exact h1

theorem State.regrant_memOk {s : State} (n : Nat) (es : List Nat) (units : List Nat) (h : MemOk s) : MemOk (State.regrant s n es units) := by
  unfold State.regrant
  grind -ring -linarith -lia [MemOk, foldl_memOk]

theorem State.migrateRecs_memOk {s : State} (n : Nat) (old : List Nat) (es : List Nat) (h : MemOk s) : MemOk (State.migrateRecs s n old es) := by
  unfold State.migrateRecs
  grind -ring -linarith -lia [State.emitJob_memOk, MemOk, foldl_memOk]

theorem State.resumeJob_memOk {s : State} (n : Nat) (z : Slot) (es : List Nat) (h : MemOk s) : MemOk (State.resumeJob s n z es) := by
  unfold State.resumeJob
  grind -ring -linarith -lia [→ State.restoreParts_memOk, State.endJob_memOk, State.modSlot_memOk, State.acceptSaved_memOk, State.emitJob_memOk, State.migrateRecs_memOk, State.regrant_memOk, MemOk, foldl_memOk]

theorem State.startJob_memOk {s : State} (n : Nat) (z : Slot) (es : List Nat) (h : MemOk s) : MemOk (State.startJob s n z es) := by
  unfold State.startJob
  grind -ring -linarith -lia [State.beginParts_memOk, State.endByTrap_memOk, State.emitJobBy_memOk, State.startCapture_memOk, MemOk, foldl_memOk]

theorem State.dispatchJob_memOk {s : State} (n : Nat) (es : List Nat) (h : MemOk s) : MemOk (State.dispatchJob s n es) := by
  unfold State.dispatchJob
  grind -ring -linarith -lia [State.scrub_memOk, State.edgeRemove_memOk, State.modSlot_memOk, State.resumeJob_memOk, State.startJob_memOk, State.jobTrap_memOk, MemOk, foldl_memOk]

theorem State.requestPreempt_memOk {s : State} (n : Nat) (h : MemOk s) : MemOk (State.requestPreempt s n) := by
  unfold State.requestPreempt
  grind -ring -linarith -lia [State.modSlot_memOk, State.modCore_memOk, MemOk, foldl_memOk]

theorem State.roomFor_memOk {s : State} (n : Nat) (es : List Nat) (h : MemOk s) {t : State} (e : State.roomFor s n es = some t) : MemOk t := by
  have hp : ∀ (l : List Nat) (r : Option State), (∀ t, r = some t → MemOk t) →
      ∀ t, l.foldl (fun r e => r.bind fun s => s.makeRoom n e) r = some t → MemOk t := by
    intro l; induction l with
    | nil => intro r hr t e; exact hr t e
    | cons x l ih =>
      intro r hr t e
      refine ih _ (fun u hu => ?_) t e
      obtain ⟨v, hv, hm⟩ := Option.bind_eq_some_iff.mp hu
      exact State.makeRoom_memOk _ _ (hr v hv) hm
  unfold State.roomFor at e
  split at e
  · exact Option.some.inj e ▸ h
  · exact hp _ _ (fun u hu => Option.some.inj hu ▸ h) t e

theorem State.runChoice_memOk {s : State} (a1 : Option Choice) (h : MemOk s) : MemOk (State.runChoice s a1) := by
  unfold State.runChoice
  split
  · exact h
  · exact foldl_memOk _ _ (fun s m hs => State.requestPreempt_memOk m hs) h
  · exact foldl_memOk _ _ (fun s m hs => State.modSlot_memOk _ _ (State.requestPreempt_memOk m hs)) h
  · split
    · exact h
    · rename_i e
      exact State.dispatchJob_memOk _ _ (State.roomFor_memOk _ _ h e)

theorem State.overrun_memOk {s : State} (ch : Nat) (who : Payer) (h : MemOk s) : MemOk (State.overrun s ch who) := by
  unfold State.overrun
  grind -ring -linarith -lia [State.emitJob_memOk, State.modSlot_memOk, State.jobTrap_memOk, State.emit_memOk, MemOk, foldl_memOk]

theorem State.serve_memOk {s : State} (ch : Nat) (who : Payer) (h : MemOk s) : MemOk (State.serve s ch who) := by
  unfold State.serve
  grind -ring -linarith -lia [State.overrun_memOk, MemOk, foldl_memOk]

theorem State.openWindow_memOk {s : State} (h : MemOk s) : MemOk (State.openWindow s) := by
  unfold State.openWindow
  grind -ring -linarith -lia [State.serve_memOk, MemOk, foldl_memOk]

theorem State.addEnergy_memOk {s : State} (n : Nat) (microjoules : Nat) (h : MemOk s) : MemOk (State.addEnergy s n microjoules) := by
  unfold State.addEnergy
  grind -ring -linarith -lia [State.modSlot_memOk, MemOk, foldl_memOk]

theorem State.setRegions_memOk {s : State} (r : Map (Word × Word)) (h : MemOk s) : MemOk (State.setRegions s r) := by
  have hf : ∀ (l : List Nat) (m : Map Byte), Memory.wf m = true → Memory.wf (l.foldl (fun m k => writeBytes m (k * 64) (s.cipherSector m k)) m) = true := by
    intro l; induction l with
    | nil => intro m h; exact h
    | cons c l ih => intro m h; exact ih _ (writeBytes_wf _ _ h)
  unfold State.setRegions
  grind [MemOk]

theorem State.stageFirst_memOk {s : State} (req : Requester) (idx : Nat) (v : Word) (h : MemOk s) : MemOk (State.stageFirst s req idx v) := by
  unfold State.stageFirst
  grind -ring -linarith -lia [MemOk, foldl_memOk]

theorem State.stagePart_memOk {s : State} (req : Requester) (p : Nat) (off : Nat) (bs : List Byte) (h : MemOk s) : MemOk (State.stagePart s req p off bs) := by
  unfold State.stagePart
  grind -ring -linarith -lia [MemOk, foldl_memOk]

theorem State.portWorlds_memOk {s : State} (p : Nat) (h : MemOk s) : MemOk (State.portWorlds s p) := by
  unfold State.portWorlds
  grind -ring -linarith -lia [MemOk, foldl_memOk]

theorem State.writeAst_memOk {s : State} (req : Requester) (sec : Bool) (v : Word) (h : MemOk s) : MemOk (State.writeAst s req sec v) := by
  unfold State.writeAst
  grind -ring -linarith -lia [MemOk, foldl_memOk]

theorem State.startInv_memOk {s : State} (addr : Word) (cmd : Word) (world : Bool) (h : MemOk s) : MemOk (State.startInv s addr cmd world) := by
  unfold State.startInv
  grind -ring -linarith -lia [State.invalidate_memOk, MemOk, foldl_memOk]

theorem State.writeInv_memOk {s : State} (req : Requester) (cmd : Word) (h : MemOk s) : MemOk (State.writeInv s req cmd) := by
  unfold State.writeInv
  grind -ring -linarith -lia [State.startInv_memOk, MemOk, foldl_memOk]

theorem State.cold_memOk {s : State} (rails : Bool) (boots : Nat) (h : MemOk s) : MemOk (s.cold rails boots) := ⟨rfl, h.2.1, h.2.2⟩

theorem State.extend_memOk {s : State} (n : Nat) (digest : List Byte) (h : MemOk s) : MemOk (State.extend s n digest) := by
  unfold State.extend
  grind -ring -linarith -lia [MemOk, foldl_memOk]

theorem State.measure_memOk {s : State} (n : Nat) (bs : List Byte) (h : MemOk s) : MemOk (State.measure s n bs) := by
  unfold State.measure
  grind -ring -linarith -lia [State.extend_memOk, MemOk, foldl_memOk]

theorem State.bootFail_memOk {s : State} (code : Nat) (h : MemOk s) : MemOk (State.bootFail s code) := by
  unfold State.bootFail
  grind -ring -linarith -lia [MemOk, foldl_memOk]

theorem State.cfgApply_memOk {s : State} (p : List Byte) (h : MemOk s) : MemOk (State.cfgApply s p) := by
  unfold State.cfgApply
  grind -ring -linarith -lia [State.modCore_memOk, MemOk, foldl_memOk]

theorem State.verified_memOk {s : State} (h : MemOk s) : MemOk (State.verified s) := by
  unfold State.verified
  grind -ring -linarith -lia [State.cfgApply_memOk, State.bootFail_memOk, MemOk, foldl_memOk]

theorem State.useImage_memOk {s : State} (k : ImageKind) (i : Image) (h : MemOk s) : MemOk (State.useImage s k i) := by
  unfold State.useImage
  grind -ring -linarith -lia [State.measure_memOk, State.verified_memOk, State.bootFail_memOk, State.reeveWrite_memOk, MemOk, foldl_memOk]

theorem State.beginTraining_memOk {s : State} (h : MemOk s) : MemOk (State.beginTraining s) := by
  unfold State.beginTraining
  grind -ring -linarith -lia [State.stage_memOk, State.bootFail_memOk, MemOk, foldl_memOk]

theorem State.testArray_memOk {s : State} (c : Nat) (found : Faults) (h : MemOk s) : MemOk (State.testArray s c found) := by
  unfold State.testArray
  grind -ring -linarith -lia [State.modCore_memOk, State.take_memOk, MemOk, foldl_memOk]

theorem State.countService_memOk {s : State} (h : MemOk s) : MemOk (State.countService s) := by
  unfold State.countService
  grind -ring -linarith -lia [State.stage_memOk, MemOk, foldl_memOk]

theorem State.admitEngine_memOk {s : State} (d : Dom) (h : MemOk s) : MemOk (State.admitEngine s d) := by
  unfold State.admitEngine
  grind -ring -linarith -lia [State.modEng_memOk, State.setClock_memOk, State.stage_memOk, State.errorLog_memOk, State.countService_memOk, State.rebindAll_memOk, MemOk, foldl_memOk]

theorem State.retireEngine_memOk {s : State} (d : Dom) (h : MemOk s) : MemOk (State.retireEngine s d) := by
  unfold State.retireEngine
  grind -ring -linarith -lia [State.modEng_memOk, State.errorLog_memOk, State.countService_memOk, State.rebindAll_memOk, MemOk, foldl_memOk]

theorem State.rebindShape_memOk {s : State} (c : Nat) (h : MemOk s) : MemOk (State.rebindShape s c) := by
  unfold State.rebindShape
  grind -ring -linarith -lia [State.rebindAll_memOk, MemOk, foldl_memOk]

theorem State.remapJob_memOk {s : State} (c : Nat) (h : MemOk s) : MemOk (State.remapJob s c) := by
  unfold State.remapJob
  grind -ring -linarith -lia [State.modEng_memOk, State.saveJob_memOk, State.rebind_memOk, State.finishJob_memOk, MemOk, foldl_memOk]

theorem State.mstestDone_memOk {s : State} (c : Nat) (found : Faults) (h : MemOk s) : MemOk (State.mstestDone s c found) := by
  unfold State.mstestDone
  grind -ring -linarith -lia [State.testArray_memOk, State.modCore_memOk, State.stepCommit_memOk, State.coreTrap_memOk, State.emitAt_memOk, State.remapJob_memOk, State.splitWalker_memOk, State.rebindShape_memOk, MemOk, foldl_memOk]

theorem State.shiftTime_memOk {s : State} (n : Nat) (h : MemOk s) : MemOk (State.shiftTime s n) := by
  unfold State.shiftTime
  grind -ring -linarith -lia [MemOk, foldl_memOk]

theorem State.setTimeState_memOk {s : State} (next : TimeState) (h : MemOk s) : MemOk (State.setTimeState s next) := by
  unfold State.setTimeState
  grind -ring -linarith -lia [State.emitFree_memOk, MemOk, foldl_memOk]

theorem State.setReference_memOk {s : State} (src : Fin 4) (h : MemOk s) : MemOk (State.setReference s src) := by
  unfold State.setReference
  grind -ring -linarith -lia [State.stage_memOk, State.setTimeState_memOk, MemOk, foldl_memOk]

theorem State.declareFailed_memOk {s : State} (d : Dom) (reason : Nat) (h : MemOk s) : MemOk (State.declareFailed s d reason) := by
  unfold State.declareFailed
  grind -ring -linarith -lia [State.modEng_memOk, MemOk, foldl_memOk]

theorem State.poisonLocal_memOk {s : State} (d : Dom) (off : Nat) (h : MemOk s) : MemOk (State.poisonLocal s d off) := by
  unfold State.poisonLocal
  grind -ring -linarith -lia [State.modCore_memOk, State.modGroup_memOk, MemOk, foldl_memOk]

theorem State.fence_memOk {s : State} (d : Dom) (h : MemOk s) : MemOk (State.fence s d) := by
  unfold State.fence
  grind -ring -linarith -lia [State.modEng_memOk, State.dropLeaves_memOk, State.modCore_memOk, State.resolveRemovals_memOk, State.leaveQueues_memOk, MemOk, foldl_memOk]

theorem State.stepLog_memOk {s : State} (d : Dom) (n : Nat) (h : MemOk s) : MemOk (State.stepLog s d n) := by
  unfold State.stepLog
  grind -ring -linarith -lia [State.errorLog_memOk, MemOk, foldl_memOk]

theorem State.loseJob_memOk {s : State} (d : Dom) (n : Nat) (z : Slot) (h : MemOk s) : MemOk (State.loseJob s d n z) := by
  unfold State.loseJob
  grind -ring -linarith -lia [State.finishJob_memOk, State.stepLog_memOk, State.endParts_memOk, State.freeEngines_memOk, State.restart_memOk, MemOk, foldl_memOk]

theorem State.moveShares_memOk {s : State} (n : Nat) (c : Nat) (h : MemOk s) : MemOk (State.moveShares s n c) := by
  unfold State.moveShares
  grind -ring -linarith -lia [State.modSlot_memOk, MemOk, foldl_memOk]

theorem State.resetDom_memOk {s : State} (d : Dom) (h : MemOk s) : MemOk (State.resetDom s d) := by
  unfold State.resetDom
  grind -ring -linarith -lia [State.modCore_memOk, State.modUnit_memOk, MemOk, foldl_memOk]

theorem State.canSend_memOk {s : State} (ctl : Nat) (f : List Byte) (h : MemOk s) : MemOk (State.canSend s ctl f) := by
  unfold State.canSend
  grind -ring -linarith -lia [MemOk, foldl_memOk]

theorem State.sendSafe_memOk {s : State} (h : MemOk s) : MemOk (State.sendSafe s) := by
  unfold State.sendSafe
  grind -ring -linarith -lia [State.canSend_memOk, MemOk, foldl_memOk]

theorem State.setTx_memOk {s : State} (i : Nat) (b : List Byte) (h : MemOk s) : MemOk (State.setTx s i b) := by
  unfold State.setTx
  grind -ring -linarith -lia [MemOk, foldl_memOk]

theorem State.reloadCore_memOk {s : State} (c : Nat) (h : MemOk s) : MemOk (State.reloadCore s c) := by
  unfold State.reloadCore
  grind -ring -linarith -lia [State.endJob_memOk, State.modCore_memOk, MemOk, foldl_memOk]

theorem State.reloadGroup_memOk {s : State} (u : Nat) (g : Nat) (h : MemOk s) : MemOk (State.reloadGroup s u g) := by
  unfold State.reloadGroup
  grind -ring -linarith -lia [State.endJob_memOk, State.modGroup_memOk, MemOk, foldl_memOk]

theorem State.reload_memOk {s : State} (d : Dom) (h : MemOk s) : MemOk (State.reload s d) := by
  unfold State.reload
  grind -ring -linarith -lia [State.reloadCore_memOk, State.reloadGroup_memOk, MemOk, foldl_memOk]

theorem State.freshSources_memOk {s : State} (part : Nat) (keep : Bool) (h : MemOk s) : MemOk (State.freshSources s part keep) := by
  unfold State.freshSources
  grind -ring -linarith -lia [MemOk, foldl_memOk]

theorem State.closeQueue_memOk {s : State} (q1 : Nat) (h : MemOk s) : MemOk (State.closeQueue s q1) := by
  unfold State.closeQueue
  grind -ring -linarith -lia [State.modCore_memOk, State.setQueue_memOk, State.threadTrap_memOk, State.fillTmask_memOk, MemOk, foldl_memOk]

theorem State.setPort_memOk {s : State} (p : Nat) (x : IngressPort) (h : MemOk s) : MemOk (State.setPort s p x) := by
  unfold State.setPort
  grind -ring -linarith -lia [MemOk, foldl_memOk]

theorem State.portPush_memOk {s : State} (p : Nat) (q2 : Nat) (item : List Byte) (h : MemOk s) : MemOk (State.portPush s p q2 item).2 := by
  have hq : MemOk ((s.push q2 item).getD s) := by
    cases e : s.push q2 item with
    | none => exact h
    | some t => exact State.push_memOk _ _ h e
  unfold State.portPush
  (try dsimp only)
  (repeat' split) <;> grind -ring -linarith -lia [→ State.push_memOk, State.emit_memOk, MemOk, foldl_memOk]

theorem State.outAccess_memOk {s : State} (world : Bool) (pa : Nat) (k : OutKind) (h : MemOk s) : MemOk (State.outAccess s world pa k) := by
  unfold State.outAccess
  grind -ring -linarith -lia [→ State.load_memOk, → State.load_memOk_err, State.homeWrite_memOk, MemOk, foldl_memOk]

theorem State.hartReserve_memOk {s : State} (h1 : Nat) (world : Bool) (pa : Nat) (k : OutKind) (h : MemOk s) : MemOk (State.hartReserve s h1 world pa k) := by
  unfold State.hartReserve
  grind -ring -linarith -lia [State.homeWrite_memOk, MemOk, foldl_memOk]

theorem State.outPeer_memOk {s : State} (pa : Nat) (io : Bool) (k : OutKind) (h : MemOk s) : MemOk (State.outPeer s pa io k) := by
  have hp : ∀ b, MemOk { s with bnd := { s.bnd with peer := writeBytes s.bnd.peer pa b } } := fun b => ⟨h.1, h.2.1, writeBytes_wf _ _ h.2.2⟩
  unfold State.outPeer
  dsimp only
  (repeat' split) <;> first | exact h | exact hp _ | exact State.peerLost_memOk _ h

theorem State.setMac_memOk {s : State} (i : Nat) (m : Mac) (h : MemOk s) : MemOk (State.setMac s i m) := by
  unfold State.setMac
  grind -ring -linarith -lia [MemOk, foldl_memOk]

theorem State.dmaByte_memOk {s : State} (pa : Nat) (h : MemOk s) : MemOk (State.dmaByte s pa).2 := by
  unfold State.dmaByte
  generalize s.homeByte false pa = q
  obtain ⟨b, _ | p⟩ := q
  · exact h
  · exact State.draw_memOk h

theorem State.dmaRead_memOk {s : State} (pa : Nat) (n : Nat) (h : MemOk s) : MemOk (State.dmaRead s pa n).2 := by
  unfold State.dmaRead
  exact foldl_pred (fun r : List Byte × State => MemOk r.2) _ _ (fun r x hr => State.dmaByte_memOk (pa + x) hr) h

theorem State.returnDesc_memOk {s : State} (mac : Nat) (tx : Bool) (ring : Nat) (d : List Byte) (h : MemOk s) : MemOk (State.returnDesc s mac tx ring d) := by
  unfold State.returnDesc
  grind -ring -linarith -lia [State.homeWrite_memOk, State.setMac_memOk, State.advance_memOk, MemOk, foldl_memOk]

theorem State.sendPtp_memOk {s : State} (msg : List Byte) (h : MemOk s) : MemOk (State.sendPtp s msg) := by
  unfold State.sendPtp
  grind -ring -linarith -lia [State.setMac_memOk, MemOk, foldl_memOk]

theorem State.attSet_memOk {s : State} (st : Nat) (h : MemOk s) : MemOk (State.attSet s st) := by
  unfold State.attSet
  grind -ring -linarith -lia [MemOk, foldl_memOk]

theorem State.writeSubmit_memOk {s : State} (req : Requester) (v : Word) (h : MemOk s) : MemOk (State.writeSubmit s req v) := by
  unfold State.writeSubmit
  grind -ring -linarith -lia [State.command_memOk, MemOk, foldl_memOk]

theorem State.writeMailbox_memOk {s : State} (req : Requester) (off : Nat) (v : Word) (h : MemOk s) : MemOk (State.writeMailbox s req off v) := by
  unfold State.writeMailbox
  grind -ring -linarith -lia [State.setTx_memOk, MemOk, foldl_memOk]

theorem State.changeDram_memOk {s : State} (k : Nat) (bs : List Byte) (tag : BitVec 32) (h : MemOk s) : MemOk (State.changeDram s k bs tag) := by
  have h1 := writeBytes_wf (k * 64) bs h.1
  unfold State.changeDram
  dsimp only
  split
  · exact ⟨h1, h.2⟩
  · split
    · exact ⟨h1, h.2⟩
    · exact ⟨writeBytes_wf _ _ h1, h.2⟩

theorem State.hardware_memOk {s : State} (a : Act) (h : MemOk s) : MemOk (State.hardware s a) := by
  have hf : ∀ (l : List Host.Cell) (m : Map Byte), Memory.wf m = true → Memory.wf (l.foldl (fun m c => setByte m c.1 c.2) m) = true := by
    intro l; induction l with
    | nil => intro m h; exact h
    | cons c l ih => intro m h; exact ih _ (setByte_wf _ _ h)
  unfold State.hardware
  dsimp only
  cases a with
  | event _ => exact h
  | evictLine d i =>
    dsimp only; split
    · exact State.modEng_memOk _ _ (State.writeBack_memOk _ h)
    · exact h
  | evictTlb n i => exact h
  | evictWalk n i => exact h
  | evictHint u i => exact State.modUnit_memOk _ _ h
  | flash cells => exact ⟨h.1, hf _ _ h.2.1, h.2.2⟩
  | peerAtomic p ok => exact h
  | dram k bs tag => exact State.changeDram_memOk _ _ _ h
  | timeSource src => exact State.setReference_memOk _ h
  | trainBegin => exact State.beginTraining_memOk h
  | ptpSend msg => exact State.sendPtp_memOk _ h
  | replay n va units => exact State.submitReplay_memOk _ _ _ h
  | defect c x => exact h

end Sys2Proof.Machine
end

