-- ==== Sys2Proof/Laws/Memory.lean ====
section
/-! SUPPORT. Every meaning keeps the stored memories in their canonical form: `<meaning>_memOk`, and `exec_memOk` over all. -/

-- One thread: many threads' stacks outgrow the memory the check gives.
set_option Elab.async false

namespace Sys2Proof.Machine

theorem execNop_memOk {s : State} (h : MemOk s) {t : State} (e : execNop s = .next t) : MemOk t := by
  unfold execNop at e
  grind -ring -linarith -lia [→ answer_memOk, → State.done_memOk, → State.done_memOk_err, MemOk, foldl_memOk]

theorem execAdd_memOk (d : Opd) (a : Opd) (b : Opd) {s : State} (h : MemOk s) {t : State} (e : execAdd d a b s = .next t) : MemOk t := by
  unfold execAdd at e
  grind -ring -linarith -lia [→ answer_memOk, → State.op2_memOk, → State.op2_memOk_err, MemOk, foldl_memOk]

theorem execSub_memOk (d : Opd) (a : Opd) (b : Opd) {s : State} (h : MemOk s) {t : State} (e : execSub d a b s = .next t) : MemOk t := by
  unfold execSub at e
  grind -ring -linarith -lia [→ answer_memOk, → State.op2_memOk, → State.op2_memOk_err, MemOk, foldl_memOk]

theorem execAddi_memOk (d : Opd) (a : Opd) (imm : BitVec 20) {s : State} (h : MemOk s) {t : State} (e : execAddi d a imm s = .next t) : MemOk t := by
  unfold execAddi at e
  grind -ring -linarith -lia [→ answer_memOk, → State.op1_memOk, → State.op1_memOk_err, MemOk, foldl_memOk]

theorem execLih_memOk (d : Opd) (a : Opd) (imm : BitVec 20) {s : State} (h : MemOk s) {t : State} (e : execLih d a imm s = .next t) : MemOk t := by
  unfold execLih at e
  grind -ring -linarith -lia [→ answer_memOk, → State.op1_memOk, → State.op1_memOk_err, MemOk, foldl_memOk]

theorem execMul_memOk (d : Opd) (a : Opd) (b : Opd) {s : State} (h : MemOk s) {t : State} (e : execMul d a b s = .next t) : MemOk t := by
  unfold execMul at e
  grind -ring -linarith -lia [→ answer_memOk, → State.op2_memOk, → State.op2_memOk_err, MemOk, foldl_memOk]

theorem execMulh_memOk (d : Opd) (a : Opd) (b : Opd) {s : State} (h : MemOk s) {t : State} (e : execMulh d a b s = .next t) : MemOk t := by
  unfold execMulh at e
  grind -ring -linarith -lia [→ answer_memOk, → State.op2_memOk, → State.op2_memOk_err, MemOk, foldl_memOk]

theorem execMulhn_memOk (d : Opd) (a : Opd) (b : Opd) {s : State} (h : MemOk s) {t : State} (e : execMulhn d a b s = .next t) : MemOk t := by
  unfold execMulhn at e
  grind -ring -linarith -lia [→ answer_memOk, → State.op2n_memOk, → State.op2n_memOk_err, MemOk, foldl_memOk]

theorem execDiv_memOk (d : Opd) (a : Opd) (b : Opd) {s : State} (h : MemOk s) {t : State} (e : execDiv d a b s = .next t) : MemOk t := by
  unfold execDiv at e
  grind -ring -linarith -lia [→ answer_memOk, → State.op2_memOk, → State.op2_memOk_err, MemOk, foldl_memOk]

theorem execDivn_memOk (d : Opd) (a : Opd) (b : Opd) {s : State} (h : MemOk s) {t : State} (e : execDivn d a b s = .next t) : MemOk t := by
  unfold execDivn at e
  grind -ring -linarith -lia [→ answer_memOk, → State.op2n_memOk, → State.op2n_memOk_err, MemOk, foldl_memOk]

theorem execRem_memOk (d : Opd) (a : Opd) (b : Opd) {s : State} (h : MemOk s) {t : State} (e : execRem d a b s = .next t) : MemOk t := by
  unfold execRem at e
  grind -ring -linarith -lia [→ answer_memOk, → State.op2_memOk, → State.op2_memOk_err, MemOk, foldl_memOk]

theorem execRemn_memOk (d : Opd) (a : Opd) (b : Opd) {s : State} (h : MemOk s) {t : State} (e : execRemn d a b s = .next t) : MemOk t := by
  unfold execRemn at e
  grind -ring -linarith -lia [→ answer_memOk, → State.op2n_memOk, → State.op2n_memOk_err, MemOk, foldl_memOk]

theorem execAnd_memOk (d : Opd) (a : Opd) (b : Opd) {s : State} (h : MemOk s) {t : State} (e : execAnd d a b s = .next t) : MemOk t := by
  unfold execAnd at e
  grind -ring -linarith -lia [→ answer_memOk, → State.op2_memOk, → State.op2_memOk_err, MemOk, foldl_memOk]

theorem execOr_memOk (d : Opd) (a : Opd) (b : Opd) {s : State} (h : MemOk s) {t : State} (e : execOr d a b s = .next t) : MemOk t := by
  unfold execOr at e
  grind -ring -linarith -lia [→ answer_memOk, → State.op2_memOk, → State.op2_memOk_err, MemOk, foldl_memOk]

theorem execXor_memOk (d : Opd) (a : Opd) (b : Opd) {s : State} (h : MemOk s) {t : State} (e : execXor d a b s = .next t) : MemOk t := by
  unfold execXor at e
  grind -ring -linarith -lia [→ answer_memOk, → State.op2_memOk, → State.op2_memOk_err, MemOk, foldl_memOk]

theorem execAndi_memOk (d : Opd) (a : Opd) (imm : BitVec 12) {s : State} (h : MemOk s) {t : State} (e : execAndi d a imm s = .next t) : MemOk t := by
  unfold execAndi at e
  grind -ring -linarith -lia [→ answer_memOk, → State.op1_memOk, → State.op1_memOk_err, MemOk, foldl_memOk]

theorem execOri_memOk (d : Opd) (a : Opd) (imm : BitVec 12) {s : State} (h : MemOk s) {t : State} (e : execOri d a imm s = .next t) : MemOk t := by
  unfold execOri at e
  grind -ring -linarith -lia [→ answer_memOk, → State.op1_memOk, → State.op1_memOk_err, MemOk, foldl_memOk]

theorem execXori_memOk (d : Opd) (a : Opd) (imm : BitVec 12) {s : State} (h : MemOk s) {t : State} (e : execXori d a imm s = .next t) : MemOk t := by
  unfold execXori at e
  grind -ring -linarith -lia [→ answer_memOk, → State.op1_memOk, → State.op1_memOk_err, MemOk, foldl_memOk]

theorem execShl_memOk (d : Opd) (a : Opd) (b : Opd) {s : State} (h : MemOk s) {t : State} (e : execShl d a b s = .next t) : MemOk t := by
  unfold execShl at e
  grind -ring -linarith -lia [→ answer_memOk, → State.op2_memOk, → State.op2_memOk_err, MemOk, foldl_memOk]

theorem execShr_memOk (d : Opd) (a : Opd) (b : Opd) {s : State} (h : MemOk s) {t : State} (e : execShr d a b s = .next t) : MemOk t := by
  unfold execShr at e
  grind -ring -linarith -lia [→ answer_memOk, → State.op2_memOk, → State.op2_memOk_err, MemOk, foldl_memOk]

theorem execSra_memOk (d : Opd) (a : Opd) (b : Opd) {s : State} (h : MemOk s) {t : State} (e : execSra d a b s = .next t) : MemOk t := by
  unfold execSra at e
  grind -ring -linarith -lia [→ answer_memOk, → State.op2_memOk, → State.op2_memOk_err, MemOk, foldl_memOk]

theorem execShli_memOk (d : Opd) (a : Opd) (sh : Fin 64) {s : State} (h : MemOk s) {t : State} (e : execShli d a sh s = .next t) : MemOk t := by
  unfold execShli at e
  grind -ring -linarith -lia [→ answer_memOk, → State.op1_memOk, → State.op1_memOk_err, MemOk, foldl_memOk]

theorem execShri_memOk (d : Opd) (a : Opd) (sh : Fin 64) {s : State} (h : MemOk s) {t : State} (e : execShri d a sh s = .next t) : MemOk t := by
  unfold execShri at e
  grind -ring -linarith -lia [→ answer_memOk, → State.op1_memOk, → State.op1_memOk_err, MemOk, foldl_memOk]

theorem execSrai_memOk (d : Opd) (a : Opd) (sh : Fin 64) {s : State} (h : MemOk s) {t : State} (e : execSrai d a sh s = .next t) : MemOk t := by
  unfold execSrai at e
  grind -ring -linarith -lia [→ answer_memOk, → State.op1_memOk, → State.op1_memOk_err, MemOk, foldl_memOk]

theorem execRol_memOk (d : Opd) (a : Opd) (b : Opd) {s : State} (h : MemOk s) {t : State} (e : execRol d a b s = .next t) : MemOk t := by
  unfold execRol at e
  grind -ring -linarith -lia [→ answer_memOk, → State.op2_memOk, → State.op2_memOk_err, MemOk, foldl_memOk]

theorem execRor_memOk (d : Opd) (a : Opd) (b : Opd) {s : State} (h : MemOk s) {t : State} (e : execRor d a b s = .next t) : MemOk t := by
  unfold execRor at e
  grind -ring -linarith -lia [→ answer_memOk, → State.op2_memOk, → State.op2_memOk_err, MemOk, foldl_memOk]

theorem execMin_memOk (d : Opd) (a : Opd) (b : Opd) {s : State} (h : MemOk s) {t : State} (e : execMin d a b s = .next t) : MemOk t := by
  unfold execMin at e
  grind -ring -linarith -lia [→ answer_memOk, → State.op2_memOk, → State.op2_memOk_err, MemOk, foldl_memOk]

theorem execMax_memOk (d : Opd) (a : Opd) (b : Opd) {s : State} (h : MemOk s) {t : State} (e : execMax d a b s = .next t) : MemOk t := by
  unfold execMax at e
  grind -ring -linarith -lia [→ answer_memOk, → State.op2_memOk, → State.op2_memOk_err, MemOk, foldl_memOk]

theorem execMinn_memOk (d : Opd) (a : Opd) (b : Opd) {s : State} (h : MemOk s) {t : State} (e : execMinn d a b s = .next t) : MemOk t := by
  unfold execMinn at e
  grind -ring -linarith -lia [→ answer_memOk, → State.op2n_memOk, → State.op2n_memOk_err, MemOk, foldl_memOk]

theorem execMaxn_memOk (d : Opd) (a : Opd) (b : Opd) {s : State} (h : MemOk s) {t : State} (e : execMaxn d a b s = .next t) : MemOk t := by
  unfold execMaxn at e
  grind -ring -linarith -lia [→ answer_memOk, → State.op2n_memOk, → State.op2n_memOk_err, MemOk, foldl_memOk]

theorem execSeq_memOk (d : Opd) (a : Opd) (b : Opd) {s : State} (h : MemOk s) {t : State} (e : execSeq d a b s = .next t) : MemOk t := by
  unfold execSeq at e
  grind -ring -linarith -lia [→ answer_memOk, → State.op2_memOk, → State.op2_memOk_err, MemOk, foldl_memOk]

theorem execSne_memOk (d : Opd) (a : Opd) (b : Opd) {s : State} (h : MemOk s) {t : State} (e : execSne d a b s = .next t) : MemOk t := by
  unfold execSne at e
  grind -ring -linarith -lia [→ answer_memOk, → State.op2_memOk, → State.op2_memOk_err, MemOk, foldl_memOk]

theorem execSlt_memOk (d : Opd) (a : Opd) (b : Opd) {s : State} (h : MemOk s) {t : State} (e : execSlt d a b s = .next t) : MemOk t := by
  unfold execSlt at e
  grind -ring -linarith -lia [→ answer_memOk, → State.op2_memOk, → State.op2_memOk_err, MemOk, foldl_memOk]

theorem execSltn_memOk (d : Opd) (a : Opd) (b : Opd) {s : State} (h : MemOk s) {t : State} (e : execSltn d a b s = .next t) : MemOk t := by
  unfold execSltn at e
  grind -ring -linarith -lia [→ answer_memOk, → State.op2n_memOk, → State.op2n_memOk_err, MemOk, foldl_memOk]

theorem execSlti_memOk (d : Opd) (a : Opd) (imm : BitVec 20) {s : State} (h : MemOk s) {t : State} (e : execSlti d a imm s = .next t) : MemOk t := by
  unfold execSlti at e
  grind -ring -linarith -lia [→ answer_memOk, → State.op1_memOk, → State.op1_memOk_err, MemOk, foldl_memOk]

theorem execSel_memOk (d : Opd) (a : Opd) (b : Opd) (n : Fin 8) (inv : Bool) {s : State} (h : MemOk s) {t : State} (e : execSel d a b n inv s = .next t) : MemOk t := by
  unfold execSel at e
  grind -ring -linarith -lia [→ answer_memOk, → State.op2_memOk, → State.op2_memOk_err, MemOk, foldl_memOk]

theorem execClz_memOk (d : Opd) (a : Opd) {s : State} (h : MemOk s) {t : State} (e : execClz d a s = .next t) : MemOk t := by
  unfold execClz at e
  grind -ring -linarith -lia [→ answer_memOk, → State.op1_memOk, → State.op1_memOk_err, MemOk, foldl_memOk]

theorem execCtz_memOk (d : Opd) (a : Opd) {s : State} (h : MemOk s) {t : State} (e : execCtz d a s = .next t) : MemOk t := by
  unfold execCtz at e
  grind -ring -linarith -lia [→ answer_memOk, → State.op1_memOk, → State.op1_memOk_err, MemOk, foldl_memOk]

theorem execPopc_memOk (d : Opd) (a : Opd) {s : State} (h : MemOk s) {t : State} (e : execPopc d a s = .next t) : MemOk t := by
  unfold execPopc at e
  grind -ring -linarith -lia [→ answer_memOk, → State.op1_memOk, → State.op1_memOk_err, MemOk, foldl_memOk]

theorem execBfx_memOk (d : Opd) (a : Opd) (pos : Fin 64) (len1 : Fin 64) {s : State} (h : MemOk s) {t : State} (e : execBfx d a pos len1 s = .next t) : MemOk t := by
  unfold execBfx at e
  grind -ring -linarith -lia [→ answer_memOk, → State.op1_memOk, → State.op1_memOk_err, MemOk, foldl_memOk]

theorem execBfi_memOk (d : Opd) (a : Opd) (pos : Fin 64) (len1 : Fin 64) {s : State} (h : MemOk s) {t : State} (e : execBfi d a pos len1 s = .next t) : MemOk t := by
  unfold execBfi at e
  grind -ring -linarith -lia [→ answer_memOk, → State.op1_memOk, → State.op1_memOk_err, MemOk, foldl_memOk]

theorem execSext_memOk (d : Opd) (a : Opd) (t1 : ExtTy) {s : State} (h : MemOk s) {t : State} (e : execSext d a t1 s = .next t) : MemOk t := by
  unfold execSext at e
  grind -ring -linarith -lia [→ answer_memOk, → State.op1_memOk, → State.op1_memOk_err, MemOk, foldl_memOk]

theorem execAddsh_memOk (d : Opd) (a : Opd) (b : Opd) (sh : Fin 8) {s : State} (h : MemOk s) {t : State} (e : execAddsh d a b sh s = .next t) : MemOk t := by
  unfold execAddsh at e
  grind -ring -linarith -lia [→ answer_memOk, → State.op2_memOk, → State.op2_memOk_err, MemOk, foldl_memOk]

theorem execRngn_memOk (d : Opd) {s : State} (h : MemOk s) {t : State} (e : execRngn d s = .next t) : MemOk t := by
  unfold execRngn at e
  grind -ring -linarith -lia [→ answer_memOk, State.genNext_memOk, → State.result_memOk, → State.result_memOk_err, MemOk, foldl_memOk]

theorem execRngf_memOk (t1 : FpTy) (d : Opd) {s : State} (h : MemOk s) {t : State} (e : execRngf t1 d s = .next t) : MemOk t := by
  unfold execRngf at e
  grind -ring -linarith -lia [→ answer_memOk, State.genNext_memOk, → State.result_memOk, → State.result_memOk_err, MemOk, foldl_memOk]

theorem execRngj_memOk (d : Opd) (k : RngK) {s : State} (h : MemOk s) {t : State} (e : execRngj d k s = .next t) : MemOk t := by
  unfold execRngj at e
  grind -ring -linarith -lia [→ answer_memOk, State.setGen_memOk, → State.result_memOk, → State.result_memOk_err, MemOk, foldl_memOk]

theorem execFadd_memOk (t1 : FpTy) (d : Opd) (a : Opd) (b : Opd) {s : State} (h : MemOk s) {t : State} (e : execFadd t1 d a b s = .next t) : MemOk t := by
  unfold execFadd at e
  grind -ring -linarith -lia [→ answer_memOk, → State.fop2_memOk, → State.fop2_memOk_err, MemOk, foldl_memOk]

theorem execFsub_memOk (t1 : FpTy) (d : Opd) (a : Opd) (b : Opd) {s : State} (h : MemOk s) {t : State} (e : execFsub t1 d a b s = .next t) : MemOk t := by
  unfold execFsub at e
  grind -ring -linarith -lia [→ answer_memOk, → State.fop2_memOk, → State.fop2_memOk_err, MemOk, foldl_memOk]

theorem execFmul_memOk (t1 : FpTy) (d : Opd) (a : Opd) (b : Opd) {s : State} (h : MemOk s) {t : State} (e : execFmul t1 d a b s = .next t) : MemOk t := by
  unfold execFmul at e
  grind -ring -linarith -lia [→ answer_memOk, → State.fop2_memOk, → State.fop2_memOk_err, MemOk, foldl_memOk]

theorem execFfma_memOk (t1 : FpTy) (d : Opd) (a : Opd) (b : Opd) {s : State} (h : MemOk s) {t : State} (e : execFfma t1 d a b s = .next t) : MemOk t := by
  unfold execFfma at e
  grind -ring -linarith -lia [→ answer_memOk, → State.fop2_memOk, → State.fop2_memOk_err, MemOk, foldl_memOk]

theorem execFmin_memOk (t1 : FpTy) (d : Opd) (a : Opd) (b : Opd) {s : State} (h : MemOk s) {t : State} (e : execFmin t1 d a b s = .next t) : MemOk t := by
  unfold execFmin at e
  grind -ring -linarith -lia [→ answer_memOk, → State.fop2_memOk, → State.fop2_memOk_err, MemOk, foldl_memOk]

theorem execFmax_memOk (t1 : FpTy) (d : Opd) (a : Opd) (b : Opd) {s : State} (h : MemOk s) {t : State} (e : execFmax t1 d a b s = .next t) : MemOk t := by
  unfold execFmax at e
  grind -ring -linarith -lia [→ answer_memOk, → State.fop2_memOk, → State.fop2_memOk_err, MemOk, foldl_memOk]

theorem execFeq_memOk (t1 : FpTy) (d : Opd) (a : Opd) (b : Opd) {s : State} (h : MemOk s) {t : State} (e : execFeq t1 d a b s = .next t) : MemOk t := by
  unfold execFeq at e
  grind -ring -linarith -lia [→ answer_memOk, → State.fop2_memOk, → State.fop2_memOk_err, MemOk, foldl_memOk]

theorem execFlt_memOk (t1 : FpTy) (d : Opd) (a : Opd) (b : Opd) {s : State} (h : MemOk s) {t : State} (e : execFlt t1 d a b s = .next t) : MemOk t := by
  unfold execFlt at e
  grind -ring -linarith -lia [→ answer_memOk, → State.fop2_memOk, → State.fop2_memOk_err, MemOk, foldl_memOk]

theorem execFle_memOk (t1 : FpTy) (d : Opd) (a : Opd) (b : Opd) {s : State} (h : MemOk s) {t : State} (e : execFle t1 d a b s = .next t) : MemOk t := by
  unfold execFle at e
  grind -ring -linarith -lia [→ answer_memOk, → State.fop2_memOk, → State.fop2_memOk_err, MemOk, foldl_memOk]

theorem execFcvt_memOk (t2 : Ty) (t1 : Ty) (d : Opd) (a : Opd) {s : State} (h : MemOk s) {t : State} (e : execFcvt t2 t1 d a s = .next t) : MemOk t := by
  unfold execFcvt at e
  grind -ring -linarith -lia [→ answer_memOk, State.genNext_memOk, → State.fpDone_memOk, → State.fpDone_memOk_err, MemOk, foldl_memOk]

theorem execFsgn_memOk (m : SgnMode) (t1 : FpTy) (d : Opd) (a : Opd) (b : Opd) {s : State} (h : MemOk s) {t : State} (e : execFsgn m t1 d a b s = .next t) : MemOk t := by
  unfold execFsgn at e
  grind -ring -linarith -lia [→ answer_memOk, → State.fpDone_memOk, → State.fpDone_memOk_err, MemOk, foldl_memOk]

theorem execFclass_memOk (t1 : FpTy) (d : Opd) (a : Opd) {s : State} (h : MemOk s) {t : State} (e : execFclass t1 d a s = .next t) : MemOk t := by
  unfold execFclass at e
  grind -ring -linarith -lia [→ answer_memOk, → State.result_memOk, → State.result_memOk_err, MemOk, foldl_memOk]

theorem execPset_memOk (m : PsetMode) (e1 : Fin 4) (pd : Fin 8) (a : Opd) {s : State} (h : MemOk s) {t : State} (e : execPset m e1 pd a s = .next t) : MemOk t := by
  unfold execPset at e
  grind -ring -linarith -lia [→ answer_memOk, State.wp_memOk, → State.done_memOk, → State.done_memOk_err, MemOk, foldl_memOk]

theorem execPlog_memOk (op : PlogOp) (pd : Fin 8) (pa : Fin 8) (pb : Fin 8) {s : State} (h : MemOk s) {t : State} (e : execPlog op pd pa pb s = .next t) : MemOk t := by
  unfold execPlog at e
  grind -ring -linarith -lia [→ answer_memOk, State.wp_memOk, → State.done_memOk, → State.done_memOk_err, MemOk, foldl_memOk]

theorem execCheck_memOk (a : Opd) (b : Opd) {s : State} (h : MemOk s) {t : State} (e : execCheck a b s = .next t) : MemOk t := by
  unfold execCheck at e
  grind -ring -linarith -lia [→ answer_memOk, → State.done_memOk, → State.done_memOk_err, → trapRes_memOk, → trapRes_memOk_err, MemOk, foldl_memOk]

theorem execSrd_memOk (d : Opd) (n : BitVec 12) {s : State} (h : MemOk s) {t : State} (e : execSrd d n s = .next t) : MemOk t := by
  unfold execSrd at e
  grind -ring -linarith -lia [→ answer_memOk, State.srdRead_memOk, → State.result_memOk, → State.result_memOk_err, MemOk, foldl_memOk]

theorem execSwr_memOk (n : BitVec 12) (a : Opd) {s : State} (h : MemOk s) {t : State} (e : execSwr n a s = .next t) : MemOk t := by
  unfold execSwr at e
  grind -ring -linarith -lia [→ answer_memOk, → State.swrAt_memOk, → State.swrAt_memOk_err, MemOk, foldl_memOk]

theorem execVnop_memOk (_h : Bool) {s : State} (h : MemOk s) {t : State} (e : execVnop _h s = .next t) : MemOk t := by
  unfold execVnop at e
  grind -ring -linarith -lia [→ answer_memOk, → State.done_memOk, → State.done_memOk_err, MemOk, foldl_memOk]

theorem execVadd_memOk (v : VHdr) (d : Opd) (a : Opd) (b : Opd) {s : State} (h : MemOk s) {t : State} (e : execVadd v d a b s = .next t) : MemOk t := by
  unfold execVadd at e
  grind -ring -linarith -lia [→ answer_memOk, → State.vmap2_memOk, → State.vmap2_memOk_err, MemOk, foldl_memOk]

theorem execVsub_memOk (v : VHdr) (d : Opd) (a : Opd) (b : Opd) {s : State} (h : MemOk s) {t : State} (e : execVsub v d a b s = .next t) : MemOk t := by
  unfold execVsub at e
  grind -ring -linarith -lia [→ answer_memOk, → State.vmap2_memOk, → State.vmap2_memOk_err, MemOk, foldl_memOk]

theorem execVmul_memOk (v : VHdr) (d : Opd) (a : Opd) (b : Opd) {s : State} (h : MemOk s) {t : State} (e : execVmul v d a b s = .next t) : MemOk t := by
  unfold execVmul at e
  grind -ring -linarith -lia [→ answer_memOk, → State.vmap2_memOk, → State.vmap2_memOk_err, MemOk, foldl_memOk]

theorem execVmulh_memOk (v : VHdr) (d : Opd) (a : Opd) (b : Opd) {s : State} (h : MemOk s) {t : State} (e : execVmulh v d a b s = .next t) : MemOk t := by
  unfold execVmulh at e
  grind -ring -linarith -lia [→ answer_memOk, → State.vmap2_memOk, → State.vmap2_memOk_err, MemOk, foldl_memOk]

theorem execVmin_memOk (v : VHdr) (d : Opd) (a : Opd) (b : Opd) {s : State} (h : MemOk s) {t : State} (e : execVmin v d a b s = .next t) : MemOk t := by
  unfold execVmin at e
  grind -ring -linarith -lia [→ answer_memOk, → State.vmap2_memOk, → State.vmap2_memOk_err, MemOk, foldl_memOk]

theorem execVmax_memOk (v : VHdr) (d : Opd) (a : Opd) (b : Opd) {s : State} (h : MemOk s) {t : State} (e : execVmax v d a b s = .next t) : MemOk t := by
  unfold execVmax at e
  grind -ring -linarith -lia [→ answer_memOk, → State.vmap2_memOk, → State.vmap2_memOk_err, MemOk, foldl_memOk]

theorem execVabs_memOk (v : VHdr) (d : Opd) (a : Opd) {s : State} (h : MemOk s) {t : State} (e : execVabs v d a s = .next t) : MemOk t := by
  unfold execVabs at e
  grind -ring -linarith -lia [→ answer_memOk, → State.vrounds_memOk, → State.vrounds_memOk_err, → State.vmap1_memOk, → State.vmap1_memOk_err, MemOk, foldl_memOk]

theorem execVand_memOk (v : VHdr) (d : Opd) (a : Opd) (b : Opd) {s : State} (h : MemOk s) {t : State} (e : execVand v d a b s = .next t) : MemOk t := by
  unfold execVand at e
  grind -ring -linarith -lia [→ answer_memOk, → State.vmap2_memOk, → State.vmap2_memOk_err, MemOk, foldl_memOk]

theorem execVor_memOk (v : VHdr) (d : Opd) (a : Opd) (b : Opd) {s : State} (h : MemOk s) {t : State} (e : execVor v d a b s = .next t) : MemOk t := by
  unfold execVor at e
  grind -ring -linarith -lia [→ answer_memOk, → State.vmap2_memOk, → State.vmap2_memOk_err, MemOk, foldl_memOk]

theorem execVxor_memOk (v : VHdr) (d : Opd) (a : Opd) (b : Opd) {s : State} (h : MemOk s) {t : State} (e : execVxor v d a b s = .next t) : MemOk t := by
  unfold execVxor at e
  grind -ring -linarith -lia [→ answer_memOk, → State.vmap2_memOk, → State.vmap2_memOk_err, MemOk, foldl_memOk]

theorem execVshl_memOk (v : VHdr) (d : Opd) (a : Opd) (b : Opd) {s : State} (h : MemOk s) {t : State} (e : execVshl v d a b s = .next t) : MemOk t := by
  unfold execVshl at e
  grind -ring -linarith -lia [→ answer_memOk, → State.vmap2_memOk, → State.vmap2_memOk_err, MemOk, foldl_memOk]

theorem execVshr_memOk (v : VHdr) (d : Opd) (a : Opd) (b : Opd) {s : State} (h : MemOk s) {t : State} (e : execVshr v d a b s = .next t) : MemOk t := by
  unfold execVshr at e
  grind -ring -linarith -lia [→ answer_memOk, → State.vmap2_memOk, → State.vmap2_memOk_err, MemOk, foldl_memOk]

theorem execVsra_memOk (v : VHdr) (d : Opd) (a : Opd) (b : Opd) {s : State} (h : MemOk s) {t : State} (e : execVsra v d a b s = .next t) : MemOk t := by
  unfold execVsra at e
  grind -ring -linarith -lia [→ answer_memOk, → State.vmap2_memOk, → State.vmap2_memOk_err, MemOk, foldl_memOk]

theorem execVfadd_memOk (v : VHdr) (d : Opd) (a : Opd) (b : Opd) {s : State} (h : MemOk s) {t : State} (e : execVfadd v d a b s = .next t) : MemOk t := by
  unfold execVfadd at e
  grind -ring -linarith -lia [→ answer_memOk, → State.vfmap2_memOk, → State.vfmap2_memOk_err, MemOk, foldl_memOk]

theorem execVfsub_memOk (v : VHdr) (d : Opd) (a : Opd) (b : Opd) {s : State} (h : MemOk s) {t : State} (e : execVfsub v d a b s = .next t) : MemOk t := by
  unfold execVfsub at e
  grind -ring -linarith -lia [→ answer_memOk, → State.vfmap2_memOk, → State.vfmap2_memOk_err, MemOk, foldl_memOk]

theorem execVfmul_memOk (v : VHdr) (d : Opd) (a : Opd) (b : Opd) {s : State} (h : MemOk s) {t : State} (e : execVfmul v d a b s = .next t) : MemOk t := by
  unfold execVfmul at e
  grind -ring -linarith -lia [→ answer_memOk, → State.vfmap2_memOk, → State.vfmap2_memOk_err, MemOk, foldl_memOk]

theorem execVfma_memOk (v : VHdr) (d : Opd) (a : Opd) (b : Opd) {s : State} (h : MemOk s) {t : State} (e : execVfma v d a b s = .next t) : MemOk t := by
  unfold execVfma at e
  grind -ring -linarith -lia [→ answer_memOk, → State.vrounds_memOk, → State.vrounds_memOk_err, MemOk, foldl_memOk]

theorem execVfmin_memOk (v : VHdr) (d : Opd) (a : Opd) (b : Opd) {s : State} (h : MemOk s) {t : State} (e : execVfmin v d a b s = .next t) : MemOk t := by
  unfold execVfmin at e
  grind -ring -linarith -lia [→ answer_memOk, → State.vfmap2_memOk, → State.vfmap2_memOk_err, MemOk, foldl_memOk]

theorem execVfmax_memOk (v : VHdr) (d : Opd) (a : Opd) (b : Opd) {s : State} (h : MemOk s) {t : State} (e : execVfmax v d a b s = .next t) : MemOk t := by
  unfold execVfmax at e
  grind -ring -linarith -lia [→ answer_memOk, → State.vfmap2_memOk, → State.vfmap2_memOk_err, MemOk, foldl_memOk]

theorem execVpcnt_memOk (v : VHdr) (d : Opd) (a : Opd) {s : State} (h : MemOk s) {t : State} (e : execVpcnt v d a s = .next t) : MemOk t := by
  unfold execVpcnt at e
  grind -ring -linarith -lia [→ answer_memOk, → State.vmap1_memOk, → State.vmap1_memOk_err, MemOk, foldl_memOk]

theorem execVmov_memOk (v : VHdr) (d : Opd) (a : Opd) {s : State} (h : MemOk s) {t : State} (e : execVmov v d a s = .next t) : MemOk t := by
  unfold execVmov at e
  grind -ring -linarith -lia [→ answer_memOk, → State.vmap1_memOk, → State.vmap1_memOk_err, MemOk, foldl_memOk]

theorem execVcmp_memOk (v : VHdr) (c : CmpC) (pd : Fin 8) (a : Opd) (b : Opd) {s : State} (h : MemOk s) {t : State} (e : execVcmp v c pd a b s = .next t) : MemOk t := by
  unfold execVcmp at e
  grind -ring -linarith -lia [→ answer_memOk, → State.vcompare_memOk, → State.vcompare_memOk_err, MemOk, foldl_memOk]

theorem execVfcmp_memOk (v : VHdr) (c : CmpC) (pd : Fin 8) (a : Opd) (b : Opd) {s : State} (h : MemOk s) {t : State} (e : execVfcmp v c pd a b s = .next t) : MemOk t := by
  unfold execVfcmp at e
  grind -ring -linarith -lia [→ answer_memOk, → State.vcompare_memOk, → State.vcompare_memOk_err, MemOk, foldl_memOk]

theorem execVsel_memOk (v : VHdr) (d : Opd) (a : Opd) (b : Opd) {s : State} (h : MemOk s) {t : State} (e : execVsel v d a b s = .next t) : MemOk t := by
  unfold execVsel at e
  grind -ring -linarith -lia [→ answer_memOk, → State.vall_memOk, → State.vall_memOk_err, MemOk, foldl_memOk]

theorem execVcvt_memOk (v : VHdr) (t1 : Ty) (d : Opd) (a : Opd) {s : State} (h : MemOk s) {t : State} (e : execVcvt v t1 d a s = .next t) : MemOk t := by
  unfold execVcvt at e
  grind -ring -linarith -lia [→ answer_memOk, → State.vrounds_memOk, → State.vrounds_memOk_err, State.genDraws_memOk, MemOk, foldl_memOk]

theorem execVsplat_memOk (v : VHdr) (d : Opd) (a : Opd) {s : State} (h : MemOk s) {t : State} (e : execVsplat v d a s = .next t) : MemOk t := by
  unfold execVsplat at e
  grind -ring -linarith -lia [→ answer_memOk, → State.vmove_memOk, → State.vmove_memOk_err, MemOk, foldl_memOk]

theorem execVext_memOk (v : VHdr) (d : Opd) (a : Opd) (b : Opd) {s : State} (h : MemOk s) {t : State} (e : execVext v d a b s = .next t) : MemOk t := by
  unfold execVext at e
  grind -ring -linarith -lia [→ answer_memOk, → State.result_memOk, → State.result_memOk_err, → State.done_memOk, → State.done_memOk_err, MemOk, foldl_memOk]

theorem execVins_memOk (v : VHdr) (d : Opd) (a : Opd) (b : Opd) {s : State} (h : MemOk s) {t : State} (e : execVins v d a b s = .next t) : MemOk t := by
  unfold execVins at e
  grind -ring -linarith -lia [→ answer_memOk, State.wvElems_memOk, → State.done_memOk, → State.done_memOk_err, MemOk, foldl_memOk]

theorem execVperm_memOk (v : VHdr) (d : Opd) (a : Opd) (b : Opd) {s : State} (h : MemOk s) {t : State} (e : execVperm v d a b s = .next t) : MemOk t := by
  unfold execVperm at e
  grind -ring -linarith -lia [→ answer_memOk, → State.vmove_memOk, → State.vmove_memOk_err, MemOk, foldl_memOk]

theorem execVslide_memOk (v : VHdr) (d : Opd) (a : Opd) (b : Opd) {s : State} (h : MemOk s) {t : State} (e : execVslide v d a b s = .next t) : MemOk t := by
  unfold execVslide at e
  grind -ring -linarith -lia [→ answer_memOk, → State.vmove_memOk, → State.vmove_memOk_err, MemOk, foldl_memOk]

theorem execVzip_memOk (v : VHdr) (d : Opd) (a : Opd) (b : Opd) {s : State} (h : MemOk s) {t : State} (e : execVzip v d a b s = .next t) : MemOk t := by
  unfold execVzip at e
  grind -ring -linarith -lia [→ answer_memOk, → State.vmove_memOk, → State.vmove_memOk_err, State.take_memOk, MemOk, foldl_memOk]

theorem execVunzip_memOk (v : VHdr) (d : Opd) (a : Opd) (b : Opd) {s : State} (h : MemOk s) {t : State} (e : execVunzip v d a b s = .next t) : MemOk t := by
  unfold execVunzip at e
  grind -ring -linarith -lia [→ answer_memOk, → State.vmove_memOk, → State.vmove_memOk_err, MemOk, foldl_memOk]

theorem execVcprs_memOk (v : VHdr) (d : Opd) (a : Opd) {s : State} (h : MemOk s) {t : State} (e : execVcprs v d a s = .next t) : MemOk t := by
  unfold execVcprs at e
  grind -ring -linarith -lia [→ answer_memOk, State.wvElems_memOk, → State.done_memOk, → State.done_memOk_err, MemOk, foldl_memOk]

theorem execViota_memOk (v : VHdr) (d : Opd) {s : State} (h : MemOk s) {t : State} (e : execViota v d s = .next t) : MemOk t := by
  unfold execViota at e
  grind -ring -linarith -lia [→ answer_memOk, → State.vall_memOk, → State.vall_memOk_err, MemOk, foldl_memOk]

theorem execVdot4_memOk (v : VHdr) (d : Opd) (a : Opd) (b : Opd) {s : State} (h : MemOk s) {t : State} (e : execVdot4 v d a b s = .next t) : MemOk t := by
  unfold execVdot4 at e
  grind -ring -linarith -lia [→ answer_memOk, State.wvElems_memOk, → State.done_memOk, → State.done_memOk_err, MemOk, foldl_memOk]

theorem execVaccrd_memOk (v : VHdr) (d : Opd) (a : Opd) (b : Opd) {s : State} (h : MemOk s) {t : State} (e : execVaccrd v d a b s = .next t) : MemOk t := by
  unfold execVaccrd at e
  grind -ring -linarith -lia [→ answer_memOk, → State.vmove_memOk, → State.vmove_memOk_err, MemOk, foldl_memOk]

theorem execVaccwr_memOk (v : VHdr) (d : Opd) (a : Opd) (b : Opd) {s : State} (h : MemOk s) {t : State} (e : execVaccwr v d a b s = .next t) : MemOk t := by
  unfold execVaccwr at e
  grind -ring -linarith -lia [→ answer_memOk, State.putCur_memOk, → State.done_memOk, → State.done_memOk_err, MemOk, foldl_memOk]

theorem execRdadd_memOk (v : VHdr) (ps : Fin 4) (a : Opd) {s : State} (h : MemOk s) {t : State} (e : execRdadd v ps a s = .next t) : MemOk t := by
  unfold execRdadd at e
  grind -ring -linarith -lia [→ answer_memOk, → State.reduce_memOk, → State.reduce_memOk_err, MemOk, foldl_memOk]

theorem execRdmax_memOk (v : VHdr) (ps : Fin 4) (a : Opd) {s : State} (h : MemOk s) {t : State} (e : execRdmax v ps a s = .next t) : MemOk t := by
  unfold execRdmax at e
  grind -ring -linarith -lia [→ answer_memOk, → State.reduce_memOk, → State.reduce_memOk_err, MemOk, foldl_memOk]

theorem execRdmin_memOk (v : VHdr) (ps : Fin 4) (a : Opd) {s : State} (h : MemOk s) {t : State} (e : execRdmin v ps a s = .next t) : MemOk t := by
  unfold execRdmin at e
  grind -ring -linarith -lia [→ answer_memOk, → State.reduce_memOk, → State.reduce_memOk_err, MemOk, foldl_memOk]

theorem execRdmov_memOk (v : VHdr) (d : Opd) (ps : Fin 4) {s : State} (h : MemOk s) {t : State} (e : execRdmov v d ps s = .next t) : MemOk t := by
  unfold execRdmov at e
  grind -ring -linarith -lia [→ answer_memOk, State.takeLatch_memOk, State.wvElems_memOk, → State.done_memOk, → State.done_memOk_err, → State.result_memOk, → State.result_memOk_err, MemOk, foldl_memOk]

theorem execXnop_memOk (_h : Bool) {s : State} (h : MemOk s) {t : State} (e : execXnop _h s = .next t) : MemOk t := by
  unfold execXnop at e
  grind -ring -linarith -lia [→ answer_memOk, → State.done_memOk, → State.done_memOk_err, MemOk, foldl_memOk]

theorem execMma_memOk (_h : Bool) (cz : Bool) (sat : Bool) (d : Opd) (a : Opd) (b : Opd) (ct : Fin 16) {s : State} (h : MemOk s) {t : State} (e : execMma _h cz sat d a b ct s = .next t) : MemOk t := by
  unfold execMma at e
  grind -ring -linarith -lia [→ answer_memOk, → State.onCore_memOk, → State.onCore_memOk_err, → State.mma_memOk, → State.mma_memOk_err, MemOk, foldl_memOk]

theorem execAccz_memOk (_h : Bool) (d : Opd) {s : State} (h : MemOk s) {t : State} (e : execAccz _h d s = .next t) : MemOk t := by
  unfold execAccz at e
  grind -ring -linarith -lia [→ answer_memOk, → State.onCore_memOk, → State.onCore_memOk_err, State.putTile_memOk, → State.done_memOk, → State.done_memOk_err, MemOk, foldl_memOk]

theorem execAcccp_memOk (_h : Bool) (tr : Bool) (d : Opd) (a : Opd) {s : State} (h : MemOk s) {t : State} (e : execAcccp _h tr d a s = .next t) : MemOk t := by
  unfold execAcccp at e
  grind -ring -linarith -lia [→ answer_memOk, → State.onCore_memOk, → State.onCore_memOk_err, State.putTile_memOk, → State.done_memOk, → State.done_memOk_err, MemOk, foldl_memOk]

theorem execSetfmt_memOk (a : Opd) {s : State} (h : MemOk s) {t : State} (e : execSetfmt a s = .next t) : MemOk t := by
  unfold execSetfmt at e
  grind -ring -linarith -lia [→ answer_memOk, → State.writeFmt_memOk, → State.writeFmt_memOk_err, → State.done_memOk, → State.done_memOk_err, MemOk, foldl_memOk]

theorem execMstestQuick_memOk (d : Opd) {s : State} (h : MemOk s) {t : State} (e : execMstestQuick d s = .next t) : MemOk t := by
  unfold execMstestQuick at e
  grind -ring -linarith -lia [→ answer_memOk, → State.beginTest_memOk, → State.beginTest_memOk_err, MemOk, foldl_memOk]

theorem execMstestFull_memOk (d : Opd) {s : State} (h : MemOk s) {t : State} (e : execMstestFull d s = .next t) : MemOk t := by
  unfold execMstestFull at e
  grind -ring -linarith -lia [→ answer_memOk, → State.beginTest_memOk, → State.beginTest_memOk_err, MemOk, foldl_memOk]

theorem execFmaprd_memOk (_h : Bool) (d : Opd) (n : Fin 4) {s : State} (h : MemOk s) {t : State} (e : execFmaprd _h d n s = .next t) : MemOk t := by
  unfold execFmaprd at e
  grind -ring -linarith -lia [→ answer_memOk, → State.onCore_memOk, → State.onCore_memOk_err, → State.result_memOk, → State.result_memOk_err, MemOk, foldl_memOk]

theorem execTwb_memOk (_h : Bool) (d : Opd) (a : Opd) {s : State} (h : MemOk s) {t : State} (e : execTwb _h d a s = .next t) : MemOk t := by
  unfold execTwb at e
  grind -ring -linarith -lia [→ answer_memOk, → State.onCore_memOk, → State.onCore_memOk_err, State.modArch_memOk, → State.result_memOk, → State.result_memOk_err, MemOk, foldl_memOk]

theorem execTwn_memOk (_h : Bool) (d : Opd) {s : State} (h : MemOk s) {t : State} (e : execTwn _h d s = .next t) : MemOk t := by
  unfold execTwn at e
  grind -ring -linarith -lia [→ answer_memOk, → State.onCore_memOk, → State.onCore_memOk_err, → State.result_memOk, → State.result_memOk_err, State.pickTile_memOk, State.modArch_memOk, MemOk, foldl_memOk]

theorem execTwe_memOk (_h : Bool) (d : Opd) {s : State} (h : MemOk s) {t : State} (e : execTwe _h d s = .next t) : MemOk t := by
  unfold execTwe at e
  grind -ring -linarith -lia [→ answer_memOk, → State.onCore_memOk, → State.onCore_memOk_err, State.modArch_memOk, → State.result_memOk, → State.result_memOk_err, MemOk, foldl_memOk]

theorem execFrcp_memOk (_h : Bool) (p : Fin 8) (d : Opd) (a : Opd) {s : State} (h : MemOk s) {t : State} (e : execFrcp _h p d a s = .next t) : MemOk t := by
  unfold execFrcp at e
  grind -ring -linarith -lia [→ answer_memOk, → State.special_memOk, → State.special_memOk_err, MemOk, foldl_memOk]

theorem execFrsq_memOk (_h : Bool) (p : Fin 8) (d : Opd) (a : Opd) {s : State} (h : MemOk s) {t : State} (e : execFrsq _h p d a s = .next t) : MemOk t := by
  unfold execFrsq at e
  grind -ring -linarith -lia [→ answer_memOk, → State.special_memOk, → State.special_memOk_err, MemOk, foldl_memOk]

theorem execFsqrt_memOk (_h : Bool) (p : Fin 8) (d : Opd) (a : Opd) {s : State} (h : MemOk s) {t : State} (e : execFsqrt _h p d a s = .next t) : MemOk t := by
  unfold execFsqrt at e
  grind -ring -linarith -lia [→ answer_memOk, → State.special_memOk, → State.special_memOk_err, MemOk, foldl_memOk]

theorem execFdiv_memOk (_h : Bool) (p : Fin 8) (d : Opd) (a : Opd) (b : Opd) {s : State} (h : MemOk s) {t : State} (e : execFdiv _h p d a b s = .next t) : MemOk t := by
  unfold execFdiv at e
  grind -ring -linarith -lia [→ answer_memOk, → State.special2_memOk, → State.special2_memOk_err, MemOk, foldl_memOk]

theorem execFexp2_memOk (_h : Bool) (p : Fin 8) (d : Opd) (a : Opd) {s : State} (h : MemOk s) {t : State} (e : execFexp2 _h p d a s = .next t) : MemOk t := by
  unfold execFexp2 at e
  grind -ring -linarith -lia [→ answer_memOk, → State.special_memOk, → State.special_memOk_err, MemOk, foldl_memOk]

theorem execFlog2_memOk (_h : Bool) (p : Fin 8) (d : Opd) (a : Opd) {s : State} (h : MemOk s) {t : State} (e : execFlog2 _h p d a s = .next t) : MemOk t := by
  unfold execFlog2 at e
  grind -ring -linarith -lia [→ answer_memOk, → State.special_memOk, → State.special_memOk_err, MemOk, foldl_memOk]

theorem execFsin_memOk (_h : Bool) (p : Fin 8) (d : Opd) (a : Opd) {s : State} (h : MemOk s) {t : State} (e : execFsin _h p d a s = .next t) : MemOk t := by
  unfold execFsin at e
  grind -ring -linarith -lia [→ answer_memOk, → State.special_memOk, → State.special_memOk_err, MemOk, foldl_memOk]

theorem execFcos_memOk (_h : Bool) (p : Fin 8) (d : Opd) (a : Opd) {s : State} (h : MemOk s) {t : State} (e : execFcos _h p d a s = .next t) : MemOk t := by
  unfold execFcos at e
  grind -ring -linarith -lia [→ answer_memOk, → State.special_memOk, → State.special_memOk_err, MemOk, foldl_memOk]

theorem execFtanh_memOk (_h : Bool) (p : Fin 8) (d : Opd) (a : Opd) {s : State} (h : MemOk s) {t : State} (e : execFtanh _h p d a s = .next t) : MemOk t := by
  unfold execFtanh at e
  grind -ring -linarith -lia [→ answer_memOk, → State.special_memOk, → State.special_memOk_err, MemOk, foldl_memOk]

theorem execFsigm_memOk (_h : Bool) (p : Fin 8) (d : Opd) (a : Opd) {s : State} (h : MemOk s) {t : State} (e : execFsigm _h p d a s = .next t) : MemOk t := by
  unfold execFsigm at e
  grind -ring -linarith -lia [→ answer_memOk, → State.special_memOk, → State.special_memOk_err, MemOk, foldl_memOk]

theorem execFlut_memOk (_h : Bool) (p : Fin 8) (d : Opd) (a : Opd) {s : State} (h : MemOk s) {t : State} (e : execFlut _h p d a s = .next t) : MemOk t := by
  unfold execFlut at e
  grind -ring -linarith -lia [→ answer_memOk, → State.special_memOk, → State.special_memOk_err, MemOk, foldl_memOk]

theorem execLutld_memOk (d : Opd) (a : Opd) (n : Fin 4) {s : State} (h : MemOk s) {t : State} (e : execLutld d a n s = .next t) : MemOk t := by
  unfold execLutld at e
  grind -ring -linarith -lia [→ answer_memOk, → State.lutld_memOk, → State.lutld_memOk_err, MemOk, foldl_memOk]

theorem execLutsel_memOk (n : Fin 4) {s : State} (h : MemOk s) {t : State} (e : execLutsel n s = .next t) : MemOk t := by
  unfold execLutsel at e
  grind -ring -linarith -lia [→ answer_memOk, State.selectLut_memOk, → State.done_memOk, → State.done_memOk_err, MemOk, foldl_memOk]

theorem execBr_memOk (base : Option Opd) (off : BitVec 19) {s : State} (h : MemOk s) {t : State} (e : execBr base off s = .next t) : MemOk t := by
  unfold execBr at e
  grind -ring -linarith -lia [→ answer_memOk, → State.branchTo_memOk, → State.branchTo_memOk_err, MemOk, foldl_memOk]

theorem execBrc_memOk (c : Cond) (off : BitVec 19) {s : State} (h : MemOk s) {t : State} (e : execBrc c off s = .next t) : MemOk t := by
  unfold execBrc at e
  grind -ring -linarith -lia [→ answer_memOk, → State.branchTo_memOk, → State.branchTo_memOk_err, → State.done_memOk, → State.done_memOk_err, MemOk, foldl_memOk]

theorem execCall_memOk (base : Option Opd) (off : BitVec 19) {s : State} (h : MemOk s) {t : State} (e : execCall base off s = .next t) : MemOk t := by
  unfold execCall at e
  grind -ring -linarith -lia [→ answer_memOk, State.wr_memOk, → State.branchTo_memOk, → State.branchTo_memOk_err, MemOk, foldl_memOk]

theorem execRet_memOk (a : Opd) {s : State} (h : MemOk s) {t : State} (e : execRet a s = .next t) : MemOk t := by
  unfold execRet at e
  grind -ring -linarith -lia [→ answer_memOk, → State.branchTo_memOk, → State.branchTo_memOk_err, MemOk, foldl_memOk]

theorem execMark_memOk (id : Byte) (n : BitVec 19) {s : State} (h : MemOk s) {t : State} (e : execMark id n s = .next t) : MemOk t := by
  unfold execMark at e
  grind -ring -linarith -lia [→ answer_memOk, State.emitAt_memOk, State.setMark_memOk, → State.done_memOk, → State.done_memOk_err, MemOk, foldl_memOk]

theorem execTrcev_memOk (code : Byte) (a : Opd) {s : State} (h : MemOk s) {t : State} (e : execTrcev code a s = .next t) : MemOk t := by
  unfold execTrcev at e
  grind -ring -linarith -lia [→ answer_memOk, State.emitAt_memOk, → State.done_memOk, → State.done_memOk_err, MemOk, foldl_memOk]

theorem execTrcevFull_memOk (code : Byte) (a : Opd) (b : Opd) {s : State} (h : MemOk s) {t : State} (e : execTrcevFull code a b s = .next t) : MemOk t := by
  unfold execTrcevFull at e
  grind -ring -linarith -lia [→ answer_memOk, State.emitAt_memOk, → State.done_memOk, → State.done_memOk_err, MemOk, foldl_memOk]

theorem execLeave_memOk (a : Opd) (n : BitVec 11) {s : State} (h : MemOk s) {t : State} (e : execLeave a n s = .next t) : MemOk t := by
  unfold execLeave at e
  grind -ring -linarith -lia [→ answer_memOk, State.grantTo_memOk, → State.done_memOk, → State.done_memOk_err, State.askLeave_memOk, State.modCore_memOk, → State.waitAt_memOk, → State.waitAt_memOk_err, MemOk, foldl_memOk]

theorem execLaunch_memOk (a : Opd) {s : State} (h : MemOk s) {t : State} (e : execLaunch a s = .next t) : MemOk t := by
  unfold execLaunch at e
  grind -ring -linarith -lia [→ answer_memOk, State.defer_memOk, → State.launch_memOk, → State.done_memOk, → State.done_memOk_err, State.releaseAt_memOk, → trapRes_memOk, → trapRes_memOk_err, MemOk, foldl_memOk]

theorem execJend_memOk {s : State} (h : MemOk s) {t : State} (e : execJend s = .next t) : MemOk t := by
  unfold execJend at e
  grind -ring -linarith -lia [→ answer_memOk, → State.jobEnd_memOk, → State.jobEnd_memOk_err, MemOk, foldl_memOk]

theorem execJendBlk_memOk {s : State} (h : MemOk s) {t : State} (e : execJendBlk s = .next t) : MemOk t := by
  unfold execJendBlk at e
  grind -ring -linarith -lia [→ answer_memOk, → State.jobEnd_memOk, → State.jobEnd_memOk_err, MemOk, foldl_memOk]

theorem execSemsig_memOk (n : Byte) (a : Opd) (k : Fin 8) (rem : Bool) {s : State} (h : MemOk s) {t : State} (e : execSemsig n a k rem s = .next t) : MemOk t := by
  unfold execSemsig at e
  grind -ring -linarith -lia [→ answer_memOk, State.defer_memOk, → State.done_memOk, → State.done_memOk_err, → trapRes_memOk, → trapRes_memOk_err, State.releaseAt_memOk, State.signalGroup_memOk, MemOk, foldl_memOk]

theorem execSemwait_memOk (n : Byte) (a : Opd) {s : State} (h : MemOk s) {t : State} (e : execSemwait n a s = .next t) : MemOk t := by
  unfold execSemwait at e
  grind -ring -linarith -lia [→ answer_memOk, → State.done_memOk, → State.done_memOk_err, State.acquireAt_memOk, State.modGroup_memOk, → State.waitAt_memOk, → State.waitAt_memOk_err, MemOk, foldl_memOk]

theorem execYield_memOk {s : State} (h : MemOk s) {t : State} (e : execYield s = .next t) : MemOk t := by
  unfold execYield at e
  grind -ring -linarith -lia [→ answer_memOk, → State.done_memOk, → State.done_memOk_err, State.advance_memOk, → State.waitAt_memOk, → State.waitAt_memOk_err, MemOk, foldl_memOk]

theorem execBarGroup_memOk (id : Fin 16) {s : State} (h : MemOk s) {t : State} (e : execBarGroup id s = .next t) : MemOk t := by
  unfold execBarGroup at e
  grind -ring -linarith -lia [→ answer_memOk, → State.arrive_memOk, → State.arrive_memOk_err, MemOk, foldl_memOk]

theorem execBarBlock_memOk (id : Fin 16) {s : State} (h : MemOk s) {t : State} (e : execBarBlock id s = .next t) : MemOk t := by
  unfold execBarBlock at e
  grind -ring -linarith -lia [→ answer_memOk, → State.arrive_memOk, → State.arrive_memOk_err, MemOk, foldl_memOk]

theorem execBarJob_memOk (id : Fin 16) {s : State} (h : MemOk s) {t : State} (e : execBarJob id s = .next t) : MemOk t := by
  unfold execBarJob at e
  grind -ring -linarith -lia [→ answer_memOk, State.defer_memOk, → State.done_memOk, → State.done_memOk_err, MemOk, foldl_memOk]

theorem execTrap_memOk (c : TrapCond) (code : BitVec 11) {s : State} (h : MemOk s) {t : State} (e : execTrap c code s = .next t) : MemOk t := by
  unfold execTrap at e
  grind -ring -linarith -lia [→ answer_memOk, → trapRes_memOk, → trapRes_memOk_err, → State.done_memOk, → State.done_memOk_err, MemOk, foldl_memOk]

theorem execTret_memOk {s : State} (h : MemOk s) {t : State} (e : execTret s = .next t) : MemOk t := by
  unfold execTret at e
  grind -ring -linarith -lia [→ answer_memOk, → State.done_memOk, → State.done_memOk_err, → State.trapReturn_memOk, → State.trapReturn_memOk_err, MemOk, foldl_memOk]

theorem execSvc_memOk (code : BitVec 11) {s : State} (h : MemOk s) {t : State} (e : execSvc code s = .next t) : MemOk t := by
  unfold execSvc at e
  grind -ring -linarith -lia [→ answer_memOk, State.defer_memOk, → State.done_memOk, → State.done_memOk_err, → trapRes_memOk, → trapRes_memOk_err, MemOk, foldl_memOk]

theorem execBkpt_memOk (code : BitVec 11) {s : State} (h : MemOk s) {t : State} (e : execBkpt code s = .next t) : MemOk t := by
  unfold execBkpt at e
  grind -ring -linarith -lia [→ answer_memOk, → State.done_memOk, → State.done_memOk_err, → trapRes_memOk, → trapRes_memOk_err, State.advance_memOk, State.modThread_memOk, State.stopUnit_memOk, MemOk, foldl_memOk]

theorem execLd_memOk (m : MemMod) (d : Opd) (a : Opd) (b : Opd) {s : State} (h : MemOk s) {t : State} (e : execLd m d a b s = .next t) : MemOk t := by
  unfold execLd at e
  grind -ring -linarith -lia [→ answer_memOk, → State.ld_memOk, → State.ld_memOk_err, MemOk, foldl_memOk]

theorem execSt_memOk (m : MemMod) (d : Opd) (a : Opd) (b : Opd) {s : State} (h : MemOk s) {t : State} (e : execSt m d a b s = .next t) : MemOk t := by
  unfold execSt at e
  grind -ring -linarith -lia [→ answer_memOk, → State.st_memOk, → State.st_memOk_err, MemOk, foldl_memOk]

theorem execLds_memOk (m : MemMod) (d : Opd) (a : Opd) (b : Opd) {s : State} (h : MemOk s) {t : State} (e : execLds m d a b s = .next t) : MemOk t := by
  unfold execLds at e
  grind -ring -linarith -lia [→ answer_memOk, → State.loadLocal_memOk_err, → State.result_memOk, → State.result_memOk_err, MemOk, foldl_memOk]

theorem execSts_memOk (m : MemMod) (d : Opd) (a : Opd) (b : Opd) {s : State} (h : MemOk s) {t : State} (e : execSts m d a b s = .next t) : MemOk t := by
  unfold execSts at e
  dsimp only at e
  cases e1 : s.localRange (s.addrOf a b m.sh).toNat (2 ^ m.size.val) with
  | none => rw [e1] at e; dsimp only [Option.getD] at e; unfold answer at e; grind -ring -linarith -lia [→ answer_memOk, → State.localRange_memOk, → State.localRange_memOk_err, → State.done_memOk, → State.done_memOk_err, State.localOut_memOk, MemOk, foldl_memOk, State.takeTrap_memOk]
  | some r => rw [e1] at e; dsimp only [Option.getD] at e; unfold answer at e; grind -ring -linarith -lia [→ answer_memOk, → State.localRange_memOk, → State.localRange_memOk_err, → State.done_memOk, → State.done_memOk_err, State.localOut_memOk, MemOk, foldl_memOk, State.takeTrap_memOk]

theorem execLdv_memOk (v : VMod) (d : Opd) (a : Opd) (b : Opd) {s : State} (h : MemOk s) {t : State} (e : execLdv v d a b s = .next t) : MemOk t := by
  unfold execLdv at e
  grind -ring -linarith -lia [→ answer_memOk, → State.localRange_memOk, → State.localRange_memOk_err, → trapRes_memOk, → trapRes_memOk_err, State.wv_memOk, → State.done_memOk, → State.done_memOk_err, MemOk, foldl_memOk]

theorem execStv_memOk (v : VMod) (d : Opd) (a : Opd) (b : Opd) {s : State} (h : MemOk s) {t : State} (e : execStv v d a b s = .next t) : MemOk t := by
  unfold execStv at e
  grind -ring -linarith -lia [→ answer_memOk, → State.localRange_memOk, → State.localRange_memOk_err, State.defer_memOk, → State.done_memOk, → State.done_memOk_err, MemOk, foldl_memOk]

theorem execLdvg_memOk (v : VMod) (e8 : Bool) (sh : Fin 4) (d : Opd) (a : Opd) (b : Opd) {s : State} (h : MemOk s) {t : State} (e : execLdvg v e8 sh d a b s = .next t) : MemOk t := by
  unfold execLdvg at e
  grind -ring -linarith -lia [→ answer_memOk, → State.accessAll_memOk, → State.accessAll_memOk_err, → State.load_memOk, → State.load_memOk_err, State.takeMirror_memOk, → State.done_memOk, → State.done_memOk_err, → State.readAll_memOk, → State.readAll_memOk_err, State.memVec_memOk, MemOk, foldl_memOk]

theorem execStvs_memOk (v : VMod) (e8 : Bool) (sh : Fin 4) (d : Opd) (a : Opd) (b : Opd) {s : State} (h : MemOk s) {t : State} (e : execStvs v e8 sh d a b s = .next t) : MemOk t := by
  unfold execStvs at e
  grind -ring -linarith -lia [→ answer_memOk, → State.accessAll_memOk, → State.accessAll_memOk_err, State.defer_memOk, State.countGst_memOk, → State.done_memOk, → State.done_memOk_err, MemOk, foldl_memOk]

theorem execTld_memOk (v : VMod) (rows : Fin 4) (d : Opd) (a : Opd) (b : Opd) {s : State} (h : MemOk s) {t : State} (e : execTld v rows d a b s = .next t) : MemOk t := by
  unfold execTld at e
  grind -ring -linarith -lia [→ answer_memOk, → State.accessAll_memOk, → State.accessAll_memOk_err, → State.load_memOk, → State.load_memOk_err, State.takeMirror_memOk, → State.done_memOk, → State.done_memOk_err, → State.readAll_memOk, → State.readAll_memOk_err, State.memVec_memOk, MemOk, foldl_memOk]

theorem execTst_memOk (v : VMod) (rows : Fin 4) (d : Opd) (a : Opd) (b : Opd) {s : State} (h : MemOk s) {t : State} (e : execTst v rows d a b s = .next t) : MemOk t := by
  unfold execTst at e
  grind -ring -linarith -lia [→ answer_memOk, → State.accessAll_memOk, → State.accessAll_memOk_err, State.defer_memOk, State.countGst_memOk, → State.done_memOk, → State.done_memOk_err, MemOk, foldl_memOk]

theorem execAccst_memOk (_h : Bool) (first : Fin 32) (count1 : Fin 32) (a : Opd) (b : Opd) {s : State} (h : MemOk s) {t : State} (e : execAccst _h first count1 a b s = .next t) : MemOk t := by
  unfold execAccst at e
  grind -ring -linarith -lia [→ answer_memOk, → State.rowsCheck_memOk, → State.rowsCheck_memOk_err, State.take_memOk, State.localOut_memOk, → State.done_memOk, → State.done_memOk_err, MemOk, foldl_memOk]

theorem execAccld_memOk (_h : Bool) (first : Fin 32) (count1 : Fin 32) (d : Opd) (a : Opd) {s : State} (h : MemOk s) {t : State} (e : execAccld _h first count1 d a s = .next t) : MemOk t := by
  unfold execAccld at e
  refine answer_memOk _ (fun t e => State.onCore_memOk _ h (fun c t e2 => ?_) (fun c q e2 => ?_) e) (fun q e => State.onCore_memOk_err _ h (fun c t e2 => ?_) (fun c q e2 => ?_) e) e <;> clear e <;> dsimp only at e2 <;> (repeat' split at e2) <;> grind -ring -linarith -lia [→ answer_memOk, → State.onCore_memOk, → State.onCore_memOk_err, → State.rowsCheck_memOk, → State.rowsCheck_memOk_err, → State.loadLocal_memOk_err, → State.done_memOk, → State.done_memOk_err, State.modCore_memOk, MemOk, foldl_memOk]

theorem execBlkld_memOk (d : Opd) (a : Opd) (n1 : Fin 64) {s : State} (h : MemOk s) {t : State} (e : execBlkld d a n1 s = .next t) : MemOk t := by
  unfold execBlkld at e
  grind -ring -linarith -lia [→ answer_memOk, → State.onCore_memOk, → State.onCore_memOk_err, → State.blkld_memOk, → State.blkld_memOk_err, MemOk, foldl_memOk]

theorem execBlkrel_memOk (a : Opd) {s : State} (h : MemOk s) {t : State} (e : execBlkrel a s = .next t) : MemOk t := by
  unfold execBlkrel at e
  grind -ring -linarith -lia [→ answer_memOk, → State.onCore_memOk, → State.onCore_memOk_err, → trapRes_memOk, → trapRes_memOk_err, State.modArch_memOk, State.defer_memOk, State.countGst_memOk, → State.done_memOk, → State.done_memOk_err, MemOk, foldl_memOk]

theorem execMnop_memOk (_h : Bool) {s : State} (h : MemOk s) {t : State} (e : execMnop _h s = .next t) : MemOk t := by
  unfold execMnop at e
  grind -ring -linarith -lia [→ answer_memOk, → State.done_memOk, → State.done_memOk_err, MemOk, foldl_memOk]

theorem execPref_memOk (_h : Bool) (l2 : Bool) (a : Opd) (b : Opd) {s : State} (h : MemOk s) {t : State} (e : execPref _h l2 a b s = .next t) : MemOk t := by
  unfold execPref at e
  grind -ring -linarith -lia [→ answer_memOk, → State.access_memOk, → State.access_memOk_err, → State.done_memOk, → State.done_memOk_err, State.fillLine_memOk, MemOk, foldl_memOk]

theorem execCpy_memOk (_h : Bool) (dir : CpyDir) (d : Opd) (a : Opd) (b : Opd) {s : State} (h : MemOk s) {t : State} (e : execCpy _h dir d a b s = .next t) : MemOk t := by
  unfold execCpy at e
  grind -ring -linarith -lia [→ answer_memOk, → State.cpy_memOk, → State.cpy_memOk_err, MemOk, foldl_memOk]

theorem execCpym_memOk (_h : Bool) (mask : Byte) (d : Opd) (a : Opd) (b : Opd) {s : State} (h : MemOk s) {t : State} (e : execCpym _h mask d a b s = .next t) : MemOk t := by
  unfold execCpym at e
  grind -ring -linarith -lia [→ answer_memOk, → State.cpym_memOk, → State.cpym_memOk_err, MemOk, foldl_memOk]

theorem execSyncset_memOk (a : Opd) (b : Opd) {s : State} (h : MemOk s) {t : State} (e : execSyncset a b s = .next t) : MemOk t := by
  unfold execSyncset at e
  dsimp only at e
  cases e1 : s.syncCheck (s.ri a).toNat with
  | none => rw [e1] at e; dsimp only [Option.getD] at e; unfold answer at e; grind -ring -linarith -lia [→ answer_memOk, → State.syncCheck_memOk, → State.syncCheck_memOk_err, → State.done_memOk, → State.done_memOk_err, State.localOut_memOk, MemOk, foldl_memOk, State.takeTrap_memOk]
  | some r => rw [e1] at e; dsimp only [Option.getD] at e; unfold answer at e; grind -ring -linarith -lia [→ answer_memOk, → State.syncCheck_memOk, → State.syncCheck_memOk_err, → State.done_memOk, → State.done_memOk_err, State.localOut_memOk, MemOk, foldl_memOk, State.takeTrap_memOk]

theorem execSwait_memOk (scope : Scope) (ord : Ord) (d : Opd) (a : Opd) (b : Opd) {s : State} (h : MemOk s) {t : State} (e : execSwait scope ord d a b s = .next t) : MemOk t := by
  unfold execSwait at e
  refine answer_memOk _ (fun t e2 => ?_) (fun q e2 => ?_) e <;> clear e <;> (try dsimp only at e2) <;> (repeat' split at e2) <;> grind -ring -linarith -lia [→ answer_memOk, → State.syncCheck_memOk, → State.syncCheck_memOk_err, → State.loadLocal_memOk_err, → State.done_memOk, → State.done_memOk_err, State.memResult_memOk, State.acquireAt_memOk, → State.waitAt_memOk, → State.waitAt_memOk_err, MemOk, foldl_memOk]

theorem execAadd_memOk (m : AtMod) (d : Opd) (a : Opd) (b : Opd) {s : State} (h : MemOk s) {t : State} (e : execAadd m d a b s = .next t) : MemOk t := by
  unfold execAadd at e
  grind -ring -linarith -lia [→ answer_memOk, → State.atomicInt_memOk, → State.atomicInt_memOk_err, MemOk, foldl_memOk]

theorem execAmin_memOk (m : AtMod) (sgn : Bool) (d : Opd) (a : Opd) (b : Opd) {s : State} (h : MemOk s) {t : State} (e : execAmin m sgn d a b s = .next t) : MemOk t := by
  unfold execAmin at e
  grind -ring -linarith -lia [→ answer_memOk, → State.atomicInt_memOk, → State.atomicInt_memOk_err, MemOk, foldl_memOk]

theorem execAmax_memOk (m : AtMod) (sgn : Bool) (d : Opd) (a : Opd) (b : Opd) {s : State} (h : MemOk s) {t : State} (e : execAmax m sgn d a b s = .next t) : MemOk t := by
  unfold execAmax at e
  grind -ring -linarith -lia [→ answer_memOk, → State.atomicInt_memOk, → State.atomicInt_memOk_err, MemOk, foldl_memOk]

theorem execAand_memOk (m : AtMod) (d : Opd) (a : Opd) (b : Opd) {s : State} (h : MemOk s) {t : State} (e : execAand m d a b s = .next t) : MemOk t := by
  unfold execAand at e
  grind -ring -linarith -lia [→ answer_memOk, → State.atomicInt_memOk, → State.atomicInt_memOk_err, MemOk, foldl_memOk]

theorem execAor_memOk (m : AtMod) (d : Opd) (a : Opd) (b : Opd) {s : State} (h : MemOk s) {t : State} (e : execAor m d a b s = .next t) : MemOk t := by
  unfold execAor at e
  grind -ring -linarith -lia [→ answer_memOk, → State.atomicInt_memOk, → State.atomicInt_memOk_err, MemOk, foldl_memOk]

theorem execAxor_memOk (m : AtMod) (d : Opd) (a : Opd) (b : Opd) {s : State} (h : MemOk s) {t : State} (e : execAxor m d a b s = .next t) : MemOk t := by
  unfold execAxor at e
  grind -ring -linarith -lia [→ answer_memOk, → State.atomicInt_memOk, → State.atomicInt_memOk_err, MemOk, foldl_memOk]

theorem execAswp_memOk (m : AtMod) (d : Opd) (a : Opd) (b : Opd) {s : State} (h : MemOk s) {t : State} (e : execAswp m d a b s = .next t) : MemOk t := by
  unfold execAswp at e
  grind -ring -linarith -lia [→ answer_memOk, → State.atomicInt_memOk, → State.atomicInt_memOk_err, MemOk, foldl_memOk]

theorem execAcas_memOk (m : AtMod) (d : Opd) (a : Opd) (b : Opd) {s : State} (h : MemOk s) {t : State} (e : execAcas m d a b s = .next t) : MemOk t := by
  unfold execAcas at e
  grind -ring -linarith -lia [→ answer_memOk, → State.atomicInt_memOk, → State.atomicInt_memOk_err, MemOk, foldl_memOk]

theorem execAcas2_memOk (scope : Scope) (ord : Ord) (loc : Bool) (d : Opd) (a : Opd) (b : Opd) {s : State} (h : MemOk s) {t : State} (e : execAcas2 scope ord loc d a b s = .next t) : MemOk t := by
  unfold execAcas2 at e
  grind -ring -linarith -lia [→ answer_memOk, → State.atomic_memOk, → State.atomic_memOk_err, MemOk, foldl_memOk]

theorem execAfadd_memOk (scope : Scope) (ord : Ord) (loc : Bool) (t1 : FpTy) (d : Opd) (a : Opd) (b : Opd) {s : State} (h : MemOk s) {t : State} (e : execAfadd scope ord loc t1 d a b s = .next t) : MemOk t := by
  unfold execAfadd at e
  grind -ring -linarith -lia [→ answer_memOk, → State.atomic_memOk, → State.atomic_memOk_err, MemOk, foldl_memOk]

theorem execFence_memOk (scope : Scope) (ord : Ord) {s : State} (h : MemOk s) {t : State} (e : execFence scope ord s = .next t) : MemOk t := by
  unfold execFence at e
  grind -ring -linarith -lia [→ answer_memOk, State.defer_memOk, → State.done_memOk, → State.done_memOk_err, State.releaseAt_memOk, State.acquireAt_memOk, MemOk, foldl_memOk]

theorem execDrain_memOk (scope : Scope) {s : State} (h : MemOk s) {t : State} (e : execDrain scope s = .next t) : MemOk t := by
  unfold execDrain at e
  grind -ring -linarith -lia [→ answer_memOk, State.defer_memOk, → State.done_memOk, → State.done_memOk_err, State.releaseAt_memOk, → State.waitAt_memOk, → State.waitAt_memOk_err, MemOk, foldl_memOk]

theorem execClean_memOk (a : Opd) (b : Opd) {s : State} (h : MemOk s) {t : State} (e : execClean a b s = .next t) : MemOk t := by
  unfold execClean at e
  grind -ring -linarith -lia [→ answer_memOk, → trapRes_memOk, → trapRes_memOk_err, State.defer_memOk, State.countGst_memOk, → State.done_memOk, → State.done_memOk_err, State.cleanLines_memOk, MemOk, foldl_memOk]

theorem execInv_memOk (a : Opd) (b : Opd) {s : State} (h : MemOk s) {t : State} (e : execInv a b s = .next t) : MemOk t := by
  unfold execInv at e
  grind -ring -linarith -lia [→ answer_memOk, → trapRes_memOk, → trapRes_memOk_err, State.dropLines_memOk, → State.done_memOk, → State.done_memOk_err, MemOk, foldl_memOk]

theorem execQpush_memOk (scope : Scope) (ord : Ord) (d : Opd) (a : Opd) {s : State} (h : MemOk s) {t : State} (e : execQpush scope ord d a s = .next t) : MemOk t := by
  unfold execQpush at e
  grind -ring -linarith -lia [→ answer_memOk, → State.done_memOk, → State.done_memOk_err, → trapRes_memOk, → trapRes_memOk_err, State.endPush_memOk, State.opRelease_memOk, → State.push_memOk, State.emitAt_memOk, → State.waitAt_memOk, → State.waitAt_memOk_err, MemOk, foldl_memOk]

theorem execQpop_memOk (scope : Scope) (ord : Ord) (d : Opd) (a : Opd) (b : Opd) {s : State} (h : MemOk s) {t : State} (e : execQpop scope ord d a b s = .next t) : MemOk t := by
  unfold execQpop at e
  grind -ring -linarith -lia [→ answer_memOk, → State.pop_memOk, → State.pop_memOk_err, MemOk, foldl_memOk]

theorem execQtry_memOk (scope : Scope) (ord : Ord) (d : Opd) (a : Opd) (b : Opd) {s : State} (h : MemOk s) {t : State} (e : execQtry scope ord d a b s = .next t) : MemOk t := by
  unfold execQtry at e
  grind -ring -linarith -lia [→ answer_memOk, → State.pop_memOk, → State.pop_memOk_err, MemOk, foldl_memOk]

theorem execTgld_memOk (x16 : Bool) (d : Opd) (a : Opd) {s : State} (h : MemOk s) {t : State} (e : execTgld x16 d a s = .next t) : MemOk t := by
  unfold execTgld at e
  grind -ring -linarith -lia [→ answer_memOk, → State.access_memOk, → State.access_memOk_err, → trapRes_memOk, → trapRes_memOk_err, State.noteWorld_memOk, State.memResult_memOk, → State.done_memOk, → State.done_memOk_err, MemOk, foldl_memOk]

theorem execTgst_memOk (x16 : Bool) (d : Opd) (a : Opd) {s : State} (h : MemOk s) {t : State} (e : execTgst x16 d a s = .next t) : MemOk t := by
  unfold execTgst at e
  grind -ring -linarith -lia [→ answer_memOk, → State.access_memOk, → State.access_memOk_err, State.defer_memOk, State.countGst_memOk, → State.done_memOk, → State.done_memOk_err, State.putTag_memOk, MemOk, foldl_memOk]

theorem execTlbinvVa_memOk (a : Opd) (b : Opd) {s : State} (h : MemOk s) {t : State} (e : execTlbinvVa a b s = .next t) : MemOk t := by
  unfold execTlbinvVa at e
  grind -ring -linarith -lia [→ answer_memOk, → State.tlbinv_memOk, → State.tlbinv_memOk_err, MemOk, foldl_memOk]

theorem execTlbinvAsid_memOk (b : Opd) {s : State} (h : MemOk s) {t : State} (e : execTlbinvAsid b s = .next t) : MemOk t := by
  unfold execTlbinvAsid at e
  grind -ring -linarith -lia [→ answer_memOk, → State.tlbinv_memOk, → State.tlbinv_memOk_err, MemOk, foldl_memOk]

theorem execTlbinvAll_memOk {s : State} (h : MemOk s) {t : State} (e : execTlbinvAll s = .next t) : MemOk t := by
  unfold execTlbinvAll at e
  grind -ring -linarith -lia [→ answer_memOk, → State.tlbinv_memOk, → State.tlbinv_memOk_err, MemOk, foldl_memOk]

theorem execRayw_memOk (d : Opd) {s : State} (h : MemOk s) {t : State} (e : execRayw d s = .next t) : MemOk t := by
  unfold execRayw at e
  grind -ring -linarith -lia [→ answer_memOk, → State.done_memOk, → State.done_memOk_err, State.putReport_memOk, → State.waitAt_memOk, → State.waitAt_memOk_err, → State.deliverQuery_memOk, → State.deliverQuery_memOk_err, MemOk, foldl_memOk]

theorem execQueryReportReady_memOk (t1 : Tid) (choice : Nat) {s : State} (h : MemOk s) {t : State} (e : execQueryReportReady t1 choice s = .next t) : MemOk t := by
  unfold execQueryReportReady at e
  grind -ring -linarith -lia [State.reportQuery_memOk, → State.deliverQuery_memOk, → State.deliverQuery_memOk_err, State.wakeDone_memOk, → State.st_memOk, → State.st_memOk_err, State.threadTrap_memOk, State.fillTmask_memOk, MemOk, foldl_memOk]

theorem execRayqRay_memOk (q1 : Opd) (h1 : Opd) (fast : Bool) (nohint : Bool) (opq : Bool) {s : State} (h : MemOk s) {t : State} (e : execRayqRay q1 h1 fast nohint opq s = .next t) : MemOk t := by
  unfold execRayqRay at e
  grind -ring -linarith -lia [→ answer_memOk, → State.rayq_memOk, → State.rayq_memOk_err, MemOk, foldl_memOk]

theorem execRayqSph_memOk (r1 : Opd) (q1 : Opd) (h1 : Opd) (fast : Bool) (nohint : Bool) (opq : Bool) {s : State} (h : MemOk s) {t : State} (e : execRayqSph r1 q1 h1 fast nohint opq s = .next t) : MemOk t := by
  unfold execRayqSph at e
  grind -ring -linarith -lia [→ answer_memOk, → State.rayq_memOk, → State.rayq_memOk_err, MemOk, foldl_memOk]

theorem execRayahIgnore_memOk {s : State} (h : MemOk s) {t : State} (e : execRayahIgnore s = .next t) : MemOk t := by
  unfold execRayahIgnore at e
  grind -ring -linarith -lia [→ answer_memOk, → State.resolve_memOk, → State.resolve_memOk_err, MemOk, foldl_memOk]

theorem execRayahAccept_memOk {s : State} (h : MemOk s) {t : State} (e : execRayahAccept s = .next t) : MemOk t := by
  unfold execRayahAccept at e
  grind -ring -linarith -lia [→ answer_memOk, → State.resolve_memOk, → State.resolve_memOk_err, MemOk, foldl_memOk]

theorem execHintinv_memOk (a : Opd) {s : State} (h : MemOk s) {t : State} (e : execHintinv a s = .next t) : MemOk t := by
  unfold execHintinv at e
  grind -ring -linarith -lia [→ answer_memOk, → State.hintRemove_memOk, → State.hintRemove_memOk_err, MemOk, foldl_memOk]

theorem execHintinvAll_memOk {s : State} (h : MemOk s) {t : State} (e : execHintinvAll s = .next t) : MemOk t := by
  unfold execHintinvAll at e
  grind -ring -linarith -lia [→ answer_memOk, → State.hintRemove_memOk, → State.hintRemove_memOk_err, MemOk, foldl_memOk]

theorem execHintinvComplete_memOk (t1 : Tid) {s : State} (h : MemOk s) {t : State} (e : execHintinvComplete t1 s = .next t) : MemOk t := by
  unfold execHintinvComplete at e
  grind -ring -linarith -lia [State.wakeDone_memOk, MemOk, foldl_memOk]

theorem execIsamp_memOk (d : Opd) (a : Opd) (b : Opd) {s : State} (h : MemOk s) {t : State} (e : execIsamp d a b s = .next t) : MemOk t := by
  unfold execIsamp at e
  grind -ring -linarith -lia [→ answer_memOk, → State.isamp_memOk, → State.isamp_memOk_err, MemOk, foldl_memOk]

theorem execCmsamp_memOk (d : Opd) (a : Opd) (b : Opd) {s : State} (h : MemOk s) {t : State} (e : execCmsamp d a b s = .next t) : MemOk t := by
  unfold execCmsamp at e
  grind -ring -linarith -lia [→ answer_memOk, → State.cmsamp_memOk, → State.cmsamp_memOk_err, MemOk, foldl_memOk]

theorem execCmseg_memOk (d : Opd) (a : Opd) (b : Opd) {s : State} (h : MemOk s) {t : State} (e : execCmseg d a b s = .next t) : MemOk t := by
  unfold execCmseg at e
  grind -ring -linarith -lia [→ answer_memOk, → State.done_memOk, → State.done_memOk_err, → State.cmseg_memOk, → State.cmseg_memOk_err, MemOk, foldl_memOk]

theorem execBundleIssue_memOk (core : Fin 32) {s : State} (h : MemOk s) {t : State} (e : execBundleIssue core s = .next t) : MemOk t := by
  unfold execBundleIssue at e
  dsimp only at e
  obtain rfl := Host.Outcome.next.inj e
  split
  · exact h
  · split
    · exact State.gangCycle_memOk _ _ h
    · have hp := State.probe_memOk core.val (s.core core).forward h
      split
      · rename_i eq
        rw [eq] at hp
        exact State.takeProbe_memOk _ _ h (State.modCore_memOk _ _ hp)
      · rename_i eq
        rw [eq] at hp
        exact State.takeProbe_memOk _ _ h (State.modCore_memOk _ _ hp)
      · exact State.takeProbe_memOk _ _ (foldl_memOk _ _ (fun s j hs => State.holdWith_memOk j _ hs) h) hp

theorem execThreadWordIssue_memOk (unit : Fin 32) {s : State} (h : MemOk s) {t : State} (e : execThreadWordIssue unit s = .next t) : MemOk t := by
  unfold execThreadWordIssue at e
  grind -ring -linarith -lia [State.schedule_memOk, State.yieldCycle_memOk, State.modEng_memOk, State.firstIssue_memOk, State.endFreeze_memOk, State.modUnit_memOk, State.issueThreads_memOk, MemOk, foldl_memOk]

theorem execScoreboardResultLand_memOk (w : Waiter) {s : State} (h : MemOk s) {t : State} (e : execScoreboardResultLand w s = .next t) : MemOk t := by
  unfold execScoreboardResultLand at e
  grind -ring -linarith -lia [State.landSb_memOk, State.landBusy_memOk, MemOk, foldl_memOk]

theorem execMmaResultLand_memOk (core : Fin 32) {s : State} (h : MemOk s) {t : State} (e : execMmaResultLand core s = .next t) : MemOk t := by
  unfold execMmaResultLand at e
  grind -ring -linarith -lia [State.coreTrap_memOk, State.modCore_memOk, MemOk, foldl_memOk]

theorem execBlkldFillComplete_memOk (core : Fin 32) {s : State} (h : MemOk s) {t : State} (e : execBlkldFillComplete core s = .next t) : MemOk t := by
  have hp : ∀ {α β : Type} (f : α × State → β → α × State) (l : List β) (r : α × State), (∀ r x, MemOk r.2 → MemOk (f r x).2) → MemOk r.2 → MemOk (l.foldl f r).2 := by
    intro α β f l; induction l with
    | nil => intro r _ h; exact h
    | cons x l ih => intro r hf h; exact ih _ hf (hf r x h)
  unfold execBlkldFillComplete at e
  (try dsimp only at e)
  split at e
  · grind
  · split at e
    · grind
    · simp only [Host.Outcome.next.injEq] at e; subst e
      refine State.landSb_memOk _ _ (State.modCore_memOk _ _ (hp _ _ _ (fun r x h => ?_) h))
      grind -ring -linarith -lia [State.fillBlockLine_memOk, State.modCore_memOk, State.landSb_memOk, MemOk, foldl_memOk]

theorem execCopyPieceLand_memOk (d : Dom) (copy : Nat) (piece : Nat) {s : State} (h : MemOk s) {t : State} (e : execCopyPieceLand d copy piece s = .next t) : MemOk t := by
  unfold execCopyPieceLand at e
  grind -ring -linarith -lia [State.landPiece_memOk, MemOk, foldl_memOk]

theorem execCopyError_memOk (d : Dom) (copy : Nat) (va : Word) {s : State} (h : MemOk s) {t : State} (e : execCopyError d copy va s = .next t) : MemOk t := by
  unfold execCopyError at e
  grind -ring -linarith -lia [State.emitAt_memOk, State.endCopy_memOk, State.copyTrapCore_memOk, State.copyTrapThread_memOk, MemOk, foldl_memOk]

theorem execThreadEnd_memOk (t1 : Tid) {s : State} (h : MemOk s) {t : State} (e : execThreadEnd t1 s = .next t) : MemOk t := by
  unfold execThreadEnd at e
  grind -ring -linarith -lia [State.cleanAll_memOk, State.wake_memOk, State.modThread_memOk, MemOk, foldl_memOk]

theorem execDrainComplete_memOk (t1 : Tid) {s : State} (h : MemOk s) {t : State} (e : execDrainComplete t1 s = .next t) : MemOk t := by
  unfold execDrainComplete at e
  grind -ring -linarith -lia [State.wakeDone_memOk, MemOk, foldl_memOk]

theorem execSemwaitSatisfy_memOk (unit : Fin 32) (group : Nat) (sem : Nat) {s : State} (h : MemOk s) {t : State} (e : execSemwaitSatisfy unit group sem s = .next t) : MemOk t := by
  unfold execSemwaitSatisfy at e
  grind -ring -linarith -lia [State.modGroup_memOk, State.acquireAt_memOk, State.wakeDone_memOk, MemOk, foldl_memOk]

theorem execSwaitSatisfy_memOk (w : Waiter) {s : State} (h : MemOk s) {t : State} (e : execSwaitSatisfy w s = .next t) : MemOk t := by
  unfold execSwaitSatisfy at e
  (try dsimp only at e)
  (repeat' split at e) <;> grind -ring -linarith -lia [→ State.loadLocal_memOk_err, State.fillTmask_memOk, State.threadTrap_memOk, State.wakeDone_memOk, State.putX_memOk, State.acquireAt_memOk, MemOk, foldl_memOk]

theorem execQpushRoom_memOk (q1 : BitVec 13) {s : State} (h : MemOk s) {t : State} (e : execQpushRoom q1 s = .next t) : MemOk t := by
  unfold execQpushRoom at e
  grind -ring -linarith -lia [→ State.push_memOk, State.wake_memOk, MemOk, foldl_memOk]

theorem execBarComplete_memOk (b : BarPlace) {s : State} (h : MemOk s) {t : State} (e : execBarComplete b s = .next t) : MemOk t := by
  unfold execBarComplete at e
  grind -ring -linarith -lia [State.openBar_memOk, State.releaseAt_memOk, State.modSlot_memOk, State.modCore_memOk, MemOk, foldl_memOk]

theorem execTraceRecordAccept_memOk (d : Dom) {s : State} (h : MemOk s) {t : State} (e : execTraceRecordAccept d s = .next t) : MemOk t := by
  unfold execTraceRecordAccept at e
  grind -ring -linarith -lia [State.acceptCore_memOk, State.acceptThread_memOk, MemOk, foldl_memOk]

theorem execTaskBlockStart_memOk (core : Fin 32) {s : State} (h : MemOk s) {t : State} (e : execTaskBlockStart core s = .next t) : MemOk t := by
  unfold execTaskBlockStart at e
  grind -ring -linarith -lia [→ State.fetchCode_memOk, → State.fetchCode_memOk_err, → State.st_memOk, → State.st_memOk_err, State.issueTrap_memOk, State.stall_openStall_memOk, State.stall_memOk, State.beginBlocks_memOk, MemOk, foldl_memOk]

theorem execSnapshotWrite_memOk (core : Fin 32) {s : State} (h : MemOk s) {t : State} (e : execSnapshotWrite core s = .next t) : MemOk t := by
  unfold execSnapshotWrite at e
  grind -ring -linarith -lia [State.cleanAll_memOk, State.modCore_memOk, State.putArea_memOk, State.modSlot_memOk, MemOk, foldl_memOk]

theorem execRegister_memOk (req : Requester) (card : BitVec 44) {s : State} (h : MemOk s) {t : State} (e : execRegister req card s = .next t) : MemOk t := by
  unfold execRegister at e
  grind -ring -linarith -lia [State.command_memOk, MemOk, foldl_memOk]

theorem execSubmit_memOk (req : Requester) (card : BitVec 44) {s : State} (h : MemOk s) {t : State} (e : execSubmit req card s = .next t) : MemOk t := by
  unfold execSubmit at e
  grind -ring -linarith -lia [State.command_memOk, MemOk, foldl_memOk]

theorem execRetire_memOk (req : Requester) (card : BitVec 44) {s : State} (h : MemOk s) {t : State} (e : execRetire req card s = .next t) : MemOk t := by
  unfold execRetire at e
  grind -ring -linarith -lia [State.command_memOk, MemOk, foldl_memOk]

theorem execAbort_memOk (req : Requester) (card : BitVec 44) {s : State} (h : MemOk s) {t : State} (e : execAbort req card s = .next t) : MemOk t := by
  unfold execAbort at e
  grind -ring -linarith -lia [State.command_memOk, MemOk, foldl_memOk]

theorem execBeminWrite_memOk (req : Requester) (v : Word) {s : State} (h : MemOk s) {t : State} (e : execBeminWrite req v s = .next t) : MemOk t := by
  unfold execBeminWrite at e
  grind -ring -linarith -lia [MemOk, foldl_memOk]

theorem execBewinWrite_memOk (req : Requester) (v : Word) {s : State} (h : MemOk s) {t : State} (e : execBewinWrite req v s = .next t) : MemOk t := by
  unfold execBewinWrite at e
  grind -ring -linarith -lia [MemOk, foldl_memOk]

theorem execTgwinWrite_memOk (req : Requester) (v : Word) {s : State} (h : MemOk s) {t : State} (e : execTgwinWrite req v s = .next t) : MemOk t := by
  unfold execTgwinWrite at e
  grind -ring -linarith -lia [MemOk, foldl_memOk]

theorem execCapturePreimageWritten_memOk (slot : Nat) (page : BitVec 64) {s : State} (h : MemOk s) {t : State} (e : execCapturePreimageWritten slot page s = .next t) : MemOk t := by
  unfold execCapturePreimageWritten at e
  grind -ring -linarith -lia [State.capWrite_memOk, State.modSlot_memOk, MemOk, foldl_memOk]

theorem execPeriodicRelease_memOk (slot : Nat) {s : State} (h : MemOk s) {t : State} (e : execPeriodicRelease slot s = .next t) : MemOk t := by
  unfold execPeriodicRelease at e
  grind -ring -linarith -lia [State.completeJob_memOk, State.modSlot_memOk, State.turnAway_memOk, State.releaseCard_memOk, MemOk, foldl_memOk]

theorem execDeferredRelease_memOk (slot : Nat) {s : State} (h : MemOk s) {t : State} (e : execDeferredRelease slot s = .next t) : MemOk t := by
  unfold execDeferredRelease at e
  grind -ring -linarith -lia [State.releaseCard_memOk, MemOk, foldl_memOk]

theorem execServerWindowBoundary_memOk (cls : EngClass) {s : State} (h : MemOk s) {t : State} (e : execServerWindowBoundary cls s = .next t) : MemOk t := by
  unfold execServerWindowBoundary at e
  grind -ring -linarith -lia [State.settleServer_memOk, MemOk, foldl_memOk]

theorem execServerBudgetExhausted_memOk (cls : EngClass) {s : State} (h : MemOk s) {t : State} (e : execServerBudgetExhausted cls s = .next t) : MemOk t := by
  unfold execServerBudgetExhausted at e
  grind -ring -linarith -lia [State.settleServer_memOk, MemOk, foldl_memOk]

theorem execDispatch_memOk (cls : EngClass) (place : List (Fin 32)) {s : State} (h : MemOk s) {t : State} (e : execDispatch cls place s = .next t) : MemOk t := by
  unfold execDispatch at e
  grind -ring -linarith -lia [State.settleServer_memOk, → State.ready_memOk_op, → State.ready_memOk_skip, State.stage_memOk, State.runChoice_memOk, MemOk, foldl_memOk]

theorem execAdvanceModeTimeout_memOk (core : Fin 32) {s : State} (h : MemOk s) {t : State} (e : execAdvanceModeTimeout core s = .next t) : MemOk t := by
  unfold execAdvanceModeTimeout at e
  (try dsimp only at e)
  (repeat' split at e) <;> grind -ring -linarith -lia [State.modCore_memOk, MemOk, foldl_memOk]

theorem execPreemptionComplete_memOk (d : Dom) {s : State} (h : MemOk s) {t : State} (e : execPreemptionComplete d s = .next t) : MemOk t := by
  unfold execPreemptionComplete at e
  grind -ring -linarith -lia [State.settleServer_memOk, State.saveJob_memOk, MemOk, foldl_memOk]

theorem execJobComplete_memOk (slot : Nat) {s : State} (h : MemOk s) {t : State} (e : execJobComplete slot s = .next t) : MemOk t := by
  unfold execJobComplete at e
  grind -ring -linarith -lia [State.completeJob_memOk, MemOk, foldl_memOk]

theorem execDeadlineMiss_memOk (slot : Nat) {s : State} (h : MemOk s) {t : State} (e : execDeadlineMiss slot s = .next t) : MemOk t := by
  unfold execDeadlineMiss at e
  grind -ring -linarith -lia [State.takeMiss_memOk, State.jobTrap_memOk, MemOk, foldl_memOk]

theorem execCyclesDemotion_memOk (slot : Nat) {s : State} (h : MemOk s) {t : State} (e : execCyclesDemotion slot s = .next t) : MemOk t := by
  unfold execCyclesDemotion at e
  grind -ring -linarith -lia [State.settleServers_memOk, State.modSlot_memOk, MemOk, foldl_memOk]

theorem execTollgateWindowBoundary_memOk {s : State} (h : MemOk s) {t : State} (e : execTollgateWindowBoundary s = .next t) : MemOk t := by
  unfold execTollgateWindowBoundary at e
  grind -ring -linarith -lia [State.openWindow_memOk, MemOk, foldl_memOk]

theorem execChannelRequest_memOk (ch : Fin 16) (t1 : Traffic) (group : Nat) {s : State} (h : MemOk s) {t : State} (e : execChannelRequest ch t1 group s = .next t) : MemOk t := by
  unfold execChannelRequest at e
  grind -ring -linarith -lia [State.openWindow_memOk, State.serve_memOk, MemOk, foldl_memOk]

theorem execLeaveGrant_memOk (d : Dom) {s : State} (h : MemOk s) {t : State} (e : execLeaveGrant d s = .next t) : MemOk t := by
  unfold execLeaveGrant at e
  grind -ring -linarith -lia [State.grantTo_memOk, State.modCore_memOk, State.wakeDone_memOk, MemOk, foldl_memOk]

theorem execPowercapWrite_memOk (req : Requester) (v : Word) {s : State} (h : MemOk s) {t : State} (e : execPowercapWrite req v s = .next t) : MemOk t := by
  unfold execPowercapWrite at e
  grind -ring -linarith -lia [MemOk, foldl_memOk]

theorem execEnergyUpdate_memOk (m : Meter) (microjoules : Nat) {s : State} (h : MemOk s) {t : State} (e : execEnergyUpdate m microjoules s = .next t) : MemOk t := by
  unfold execEnergyUpdate at e
  grind -ring -linarith -lia [State.addEnergy_memOk, MemOk, foldl_memOk]

theorem execRegionEntryApply_memOk (req : Requester) (idx : Fin 64) (last : Word) {s : State} (h : MemOk s) {t : State} (e : execRegionEntryApply req idx last s = .next t) : MemOk t := by
  unfold execRegionEntryApply at e
  grind -ring -linarith -lia [State.setRegions_memOk, MemOk, foldl_memOk]

theorem execPartitionEntryApply_memOk (req : Requester) (idx : Fin 64) (ctrl : Byte) {s : State} (h : MemOk s) {t : State} (e : execPartitionEntryApply req idx ctrl s = .next t) : MemOk t := by
  unfold execPartitionEntryApply at e
  grind -ring -linarith -lia [State.portWorlds_memOk, State.dropHints_memOk, MemOk, foldl_memOk]

theorem execHartPartitionWrite_memOk (req : Requester) (hart : Fin 16) (v : Word) {s : State} (h : MemOk s) {t : State} (e : execHartPartitionWrite req hart v s = .next t) : MemOk t := by
  unfold execHartPartitionWrite at e
  grind -ring -linarith -lia [MemOk, foldl_memOk]

theorem execInvalidateWindowVa_memOk (req : Requester) (asid : BitVec 16) {s : State} (h : MemOk s) {t : State} (e : execInvalidateWindowVa req asid s = .next t) : MemOk t := by
  unfold execInvalidateWindowVa at e
  grind -ring -linarith -lia [State.writeInv_memOk, MemOk, foldl_memOk]

theorem execInvalidateWindowAsid_memOk (req : Requester) (asid : BitVec 16) {s : State} (h : MemOk s) {t : State} (e : execInvalidateWindowAsid req asid s = .next t) : MemOk t := by
  unfold execInvalidateWindowAsid at e
  grind -ring -linarith -lia [State.writeInv_memOk, MemOk, foldl_memOk]

theorem execInvalidateWindowAll_memOk (req : Requester) {s : State} (h : MemOk s) {t : State} (e : execInvalidateWindowAll req s = .next t) : MemOk t := by
  unfold execInvalidateWindowAll at e
  grind -ring -linarith -lia [State.writeInv_memOk, MemOk, foldl_memOk]

theorem execTlbinvComplete_memOk (idx : Nat) {s : State} (h : MemOk s) {t : State} (e : execTlbinvComplete idx s = .next t) : MemOk t := by
  unfold execTlbinvComplete at e
  grind -ring -linarith -lia [State.modCore_memOk, → State.tlbinv_memOk, → State.tlbinv_memOk_err, State.wakeDone_memOk, State.startInv_memOk, MemOk, foldl_memOk]

theorem execPowerOn_memOk {s : State} (h : MemOk s) {t : State} (e : execPowerOn s = .next t) : MemOk t := by
  unfold execPowerOn State.cold at e
  have hr : Memory.wf State.reset.mem = true := by decide
  grind [MemOk]

theorem execPowerOff_memOk {s : State} (h : MemOk s) {t : State} (e : execPowerOff s = .next t) : MemOk t := by
  unfold execPowerOff State.cold at e
  have hr : Memory.wf State.reset.mem = true := by decide
  grind [MemOk]

theorem execThermalTrip_memOk (_die : Fin 3) {s : State} (h : MemOk s) {t : State} (e : execThermalTrip _die s = .next t) : MemOk t := by
  unfold execThermalTrip at e
  grind -ring -linarith -lia [MemOk, foldl_memOk]

theorem execImageVerify_memOk (kind : ImageKind) {s : State} (h : MemOk s) {t : State} (e : execImageVerify kind s = .next t) : MemOk t := by
  unfold execImageVerify at e
  grind -ring -linarith -lia [State.bootFail_memOk, State.useImage_memOk, MemOk, foldl_memOk]

theorem execMemoryTrainingComplete_memOk (trained : BitVec 16) {s : State} (h : MemOk s) {t : State} (e : execMemoryTrainingComplete trained s = .next t) : MemOk t := by
  unfold execMemoryTrainingComplete at e
  grind -ring -linarith -lia [State.beginTraining_memOk, State.stage_memOk, State.openLogs_memOk, State.bootFail_memOk, MemOk, foldl_memOk]

theorem execStageFullEntry_memOk {s : State} (h : MemOk s) {t : State} (e : execStageFullEntry s = .next t) : MemOk t := by
  unfold execStageFullEntry at e
  grind -ring -linarith -lia [State.stage_memOk, State.rebindAll_memOk, State.releaseTurned_memOk, State.setClock_memOk, MemOk, foldl_memOk]

theorem execSelfTestComplete_memOk (d : Dom) (r1 : TestResult) {s : State} (h : MemOk s) {t : State} (e : execSelfTestComplete d r1 s = .next t) : MemOk t := by
  unfold execSelfTestComplete at e
  grind -ring -linarith -lia [State.stage_memOk, State.errorLog_memOk, State.testArray_memOk, State.admitEngine_memOk, State.retireEngine_memOk, MemOk, foldl_memOk]

theorem execBackgroundMstest_memOk (core : Fin 32) (found : Faults) {s : State} (h : MemOk s) {t : State} (e : execBackgroundMstest core found s = .next t) : MemOk t := by
  unfold execBackgroundMstest at e
  grind -ring -linarith -lia [State.testArray_memOk, State.rebindShape_memOk, State.modEng_memOk, MemOk, foldl_memOk]

theorem execMstestComplete_memOk (core : Fin 32) (found : Faults) {s : State} (h : MemOk s) {t : State} (e : execMstestComplete core found s = .next t) : MemOk t := by
  unfold execMstestComplete at e
  grind -ring -linarith -lia [State.mstestDone_memOk, MemOk, foldl_memOk]

theorem execPtimeStep_memOk (ptp : Nat) (delta : Nat) (e1 : BitVec 64) {s : State} (h : MemOk s) {t : State} (e : execPtimeStep ptp delta e1 s = .next t) : MemOk t := by
  unfold execPtimeStep at e
  grind -ring -linarith -lia [State.stage_memOk, State.shiftTime_memOk, MemOk, foldl_memOk]

theorem execTimebaseStateChange_memOk (next : TimeState) {s : State} (h : MemOk s) {t : State} (e : execTimebaseStateChange next s = .next t) : MemOk t := by
  unfold execTimebaseStateChange at e
  grind -ring -linarith -lia [State.setTimeState_memOk, MemOk, foldl_memOk]

theorem execPtpMessage_memOk (port : Fin 2) (frame : List Byte) (ppm : Int) {s : State} (h : MemOk s) {t : State} (e : execPtpMessage port frame ppm s = .next t) : MemOk t := by
  unfold execPtpMessage at e
  grind -ring -linarith -lia [MemOk, foldl_memOk]

theorem execPpsEdge_memOk (ppm : Int) {s : State} (h : MemOk s) {t : State} (e : execPpsEdge ppm s = .next t) : MemOk t := by
  unfold execPpsEdge at e
  grind -ring -linarith -lia [MemOk, foldl_memOk]

theorem execClockChange_memOk (d : Dom) (mhz : BitVec 16) {s : State} (h : MemOk s) {t : State} (e : execClockChange d mhz s = .next t) : MemOk t := by
  unfold execClockChange at e
  grind -ring -linarith -lia [State.setClock_memOk, MemOk, foldl_memOk]

theorem execHeartbeat_memOk (d : Dom) {s : State} (h : MemOk s) {t : State} (e : execHeartbeat d s = .next t) : MemOk t := by
  unfold execHeartbeat at e
  grind -ring -linarith -lia [State.modEng_memOk, MemOk, foldl_memOk]

theorem execHeartbeatTimeout_memOk (d : Dom) {s : State} (h : MemOk s) {t : State} (e : execHeartbeatTimeout d s = .next t) : MemOk t := by
  unfold execHeartbeatTimeout at e
  simp only [Host.Outcome.next.injEq] at e; subst e
  split
  · exact State.declareFailed_memOk _ _ h
  · exact h

theorem execWatchdogTimeout_memOk (d : Dom) {s : State} (h : MemOk s) {t : State} (e : execWatchdogTimeout d s = .next t) : MemOk t := by
  unfold execWatchdogTimeout at e
  grind -ring -linarith -lia [State.declareFailed_memOk, MemOk, foldl_memOk]

theorem execUncorrectableError_memOk (p : EccPlace) {s : State} (h : MemOk s) {t : State} (e : execUncorrectableError p s = .next t) : MemOk t := by
  unfold execUncorrectableError at e
  grind -ring -linarith -lia [State.declareFailed_memOk, State.poisonLocal_memOk, State.errorLog_memOk, MemOk, foldl_memOk]

theorem execCorrectableError_memOk (src : Byte) (count : Nat) {s : State} (h : MemOk s) {t : State} (e : execCorrectableError src count s = .next t) : MemOk t := by
  unfold execCorrectableError at e
  grind -ring -linarith -lia [State.errorLog_memOk, MemOk, foldl_memOk]

theorem execDomainFailed_memOk (d : Dom) (reason : Fin 6) {s : State} (h : MemOk s) {t : State} (e : execDomainFailed d reason s = .next t) : MemOk t := by
  unfold execDomainFailed at e
  grind -ring -linarith -lia [State.fence_memOk, State.errorLog_memOk, State.moveShares_memOk, State.stepLog_memOk, State.loseJob_memOk, State.resetDom_memOk, State.countService_memOk, State.rebindAll_memOk, MemOk, foldl_memOk]

theorem execReeveLockstepMismatch_memOk {s : State} (h : MemOk s) {t : State} (e : execReeveLockstepMismatch s = .next t) : MemOk t := by
  unfold execReeveLockstepMismatch at e
  grind -ring -linarith -lia [State.sendSafe_memOk, MemOk, foldl_memOk]

theorem execSafetyFrameRepeat_memOk {s : State} (h : MemOk s) {t : State} (e : execSafetyFrameRepeat s = .next t) : MemOk t := by
  unfold execSafetyFrameRepeat at e
  grind -ring -linarith -lia [State.sendSafe_memOk, MemOk, foldl_memOk]

theorem execSafetyTxReady_memOk (req : Requester) (slot : Fin 16) {s : State} (h : MemOk s) {t : State} (e : execSafetyTxReady req slot s = .next t) : MemOk t := by
  unfold execSafetyTxReady at e
  grind -ring -linarith -lia [State.setTx_memOk, MemOk, foldl_memOk]

theorem execSafetyTxComplete_memOk (slot : Fin 16) (status : Fin 3) {s : State} (h : MemOk s) {t : State} (e : execSafetyTxComplete slot status s = .next t) : MemOk t := by
  unfold execSafetyTxComplete at e
  grind -ring -linarith -lia [State.take_memOk, State.canSend_memOk, State.setTx_memOk, MemOk, foldl_memOk]

theorem execSafetyRxFrame_memOk (ctl : Bool) (f : CanFrame) {s : State} (h : MemOk s) {t : State} (e : execSafetyRxFrame ctl f s = .next t) : MemOk t := by
  unfold execSafetyRxFrame at e
  grind -ring -linarith -lia [State.take_memOk, MemOk, foldl_memOk]

theorem execDebugStop_memOk (req : Requester) (d : Dom) {s : State} (h : MemOk s) {t : State} (e : execDebugStop req d s = .next t) : MemOk t := by
  unfold execDebugStop at e
  grind -ring -linarith -lia [State.rollback_memOk, State.stopCore_memOk, State.stopUnit_memOk, MemOk, foldl_memOk]

theorem execDebugStep_memOk (req : Requester) (d : Dom) {s : State} (h : MemOk s) {t : State} (e : execDebugStep req d s = .next t) : MemOk t := by
  unfold execDebugStep at e
  grind -ring -linarith -lia [State.reload_memOk, State.modEng_memOk, State.issueThreads_memOk, MemOk, foldl_memOk]

theorem execDebugRun_memOk (req : Requester) (d : Dom) {s : State} (h : MemOk s) {t : State} (e : execDebugRun req d s = .next t) : MemOk t := by
  unfold execDebugRun at e
  grind -ring -linarith -lia [State.reload_memOk, State.modEng_memOk, State.emitAt_memOk, MemOk, foldl_memOk]

theorem State.writeDebug_memOk {s : State} (req : Requester) (d : Dom) (v : Word) (h : MemOk s) {t : State} (e : State.writeDebug s req d v = .next t) : MemOk t := by
  unfold State.writeDebug at e
  grind -ring -linarith -lia [State.modEng_memOk, → execDebugStop_memOk, → execDebugStep_memOk, → execDebugRun_memOk, MemOk, foldl_memOk]

theorem execTraceRpWrite_memOk (req : Requester) (part : Fin 64) (v : Word) {s : State} (h : MemOk s) {t : State} (e : execTraceRpWrite req part v s = .next t) : MemOk t := by
  unfold execTraceRpWrite at e
  grind -ring -linarith -lia [State.setTdesc_memOk, State.wp_memOk, MemOk, foldl_memOk]

theorem execTraceDescriptorWrite_memOk (req : Requester) (part : Fin 64) (bytes : List Byte) {s : State} (h : MemOk s) {t : State} (e : execTraceDescriptorWrite req part bytes s = .next t) : MemOk t := by
  unfold execTraceDescriptorWrite at e
  grind -ring -linarith -lia [State.take_memOk, State.freshSources_memOk, State.setTdesc_memOk, State.wp_memOk, MemOk, foldl_memOk]

theorem execQueueClose_memOk (req : Requester) (q1 : BitVec 13) {s : State} (h : MemOk s) {t : State} (e : execQueueClose req q1 s = .next t) : MemOk t := by
  unfold execQueueClose at e
  grind -ring -linarith -lia [State.closeQueue_memOk, MemOk, foldl_memOk]

theorem execQueueConfigure_memOk (req : Requester) (q1 : BitVec 13) (bytes : List Byte) {s : State} (h : MemOk s) {t : State} (e : execQueueConfigure req q1 bytes s = .next t) : MemOk t := by
  unfold execQueueConfigure at e
  grind -ring -linarith -lia [State.closeQueue_memOk, State.setQueue_memOk, MemOk, foldl_memOk]

theorem execIngressChannelEnable_memOk (req : Requester) (port : Fin 8) (vc : Fin 16) (bytes : List Byte) {s : State} (h : MemOk s) {t : State} (e : execIngressChannelEnable req port vc bytes s = .next t) : MemOk t := by
  unfold execIngressChannelEnable at e
  grind -ring -linarith -lia [State.take_memOk, State.setPort_memOk, MemOk, foldl_memOk]

theorem execCsi2Packet_memOk (port : Fin 8) (p : CsiPacket) {s : State} (h : MemOk s) {t : State} (e : execCsi2Packet port p s = .next t) : MemOk t := by
  unfold execCsi2Packet at e
  grind -ring -linarith -lia [State.setPort_memOk, State.homeWrite_memOk, State.take_memOk, MemOk, foldl_memOk]

theorem execIngressFrameEnd_memOk (port : Fin 8) (vc : Fin 16) {s : State} (h : MemOk s) {t : State} (e : execIngressFrameEnd port vc s = .next t) : MemOk t := by
  unfold execIngressFrameEnd at e
  grind -ring -linarith -lia [State.portPush_memOk, State.setPort_memOk, MemOk, foldl_memOk]

theorem execIngressEventPacket_memOk (port : Fin 8) (vc : Fin 16) (events : List CamEvent) {s : State} (h : MemOk s) {t : State} (e : execIngressEventPacket port vc events s = .next t) : MemOk t := by
  unfold execIngressEventPacket at e
  grind -ring -linarith -lia [State.portPush_memOk, MemOk, foldl_memOk]

theorem execHartMemoryAccess_memOk (h0 : Fin 16) (pa : Nat) (k : HartAccess) {s : State} (h : MemOk s) {t : State} (e : execHartMemoryAccess h0 pa k s = .next t) : MemOk t := by
  unfold execHartMemoryAccess at e
  (try dsimp only at e)
  (repeat' split at e) <;> grind -ring -linarith -lia [State.hartReserve_memOk, State.outAccess_memOk, State.outPeer_memOk, MemOk, foldl_memOk]

theorem execPcieInboundRequest_memOk (pa : Nat) (k : OutKind) {s : State} (h : MemOk s) {t : State} (e : execPcieInboundRequest pa k s = .next t) : MemOk t := by
  unfold execPcieInboundRequest at e
  grind -ring -linarith -lia [State.outAccess_memOk, MemOk, foldl_memOk]

theorem execPcieLinkChange_memOk (up : Bool) (rate : Fin 8) (lanes : Fin 16) {s : State} (h : MemOk s) {t : State} (e : execPcieLinkChange up rate lanes s = .next t) : MemOk t := by
  unfold execPcieLinkChange at e
  grind -ring -linarith -lia [MemOk, foldl_memOk]

theorem execEthTailWrite_memOk (req : Requester) (mac : Fin 2) (tx : Bool) (ring : Fin 4) (v : Word) {s : State} (h : MemOk s) {t : State} (e : execEthTailWrite req mac tx ring v s = .next t) : MemOk t := by
  unfold execEthTailWrite at e
  grind -ring -linarith -lia [State.setMac_memOk, MemOk, foldl_memOk]

theorem execEthTxComplete_memOk (mac : Fin 2) (ring : Fin 4) {s : State} (h : MemOk s) {t : State} (e : execEthTxComplete mac ring s = .next t) : MemOk t := by
  unfold execEthTxComplete at e
  grind -ring -linarith -lia [State.dmaRead_memOk, State.setMac_memOk, State.returnDesc_memOk, MemOk, foldl_memOk]

theorem execEthRxFrame_memOk (mac : Fin 2) (frame : List Byte) (fcsOk : Bool) {s : State} (h : MemOk s) {t : State} (e : execEthRxFrame mac frame fcsOk s = .next t) : MemOk t := by
  unfold execEthRxFrame at e
  grind -ring -linarith -lia [State.setMac_memOk, State.dmaRead_memOk, State.homeWrite_memOk, State.take_memOk, State.returnDesc_memOk, MemOk, foldl_memOk]

theorem execEthLinkChange_memOk (mac : Fin 2) (up : Bool) {s : State} (h : MemOk s) {t : State} (e : execEthLinkChange mac up s = .next t) : MemOk t := by
  unfold execEthLinkChange at e
  grind -ring -linarith -lia [State.setMac_memOk, MemOk, foldl_memOk]

theorem execAttest_memOk (req : Requester) {s : State} (h : MemOk s) {t : State} (e : execAttest req s = .next t) : MemOk t := by
  unfold execAttest at e
  grind -ring -linarith -lia [State.attSet_memOk, State.take_memOk, MemOk, foldl_memOk]

theorem execExtend_memOk (req : Requester) (reg : Fin 8) {s : State} (h : MemOk s) {t : State} (e : execExtend req reg s = .next t) : MemOk t := by
  unfold execExtend at e
  grind -ring -linarith -lia [State.attSet_memOk, State.extend_memOk, State.take_memOk, MemOk, foldl_memOk]

theorem execAttestComplete_memOk {s : State} (h : MemOk s) {t : State} (e : execAttestComplete s = .next t) : MemOk t := by
  unfold execAttestComplete at e
  grind -ring -linarith -lia [State.homeWrite_memOk, State.attSet_memOk, MemOk, foldl_memOk]

theorem State.writeQueue_memOk {s : State} (req : Requester) (q1 : Nat) (off : Nat) (v : Word) (h : MemOk s) {t : State} (e : State.writeQueue s req q1 off v = .next t) : MemOk t := by
  unfold State.writeQueue at e
  grind -ring -linarith -lia [→ execQueueConfigure_memOk, → execQueueClose_memOk, State.setQueue_memOk, MemOk, foldl_memOk]

theorem State.writePort_memOk {s : State} (req : Requester) (p : Nat) (off : Nat) (v : Word) (h : MemOk s) {t : State} (e : State.writePort s req p off v = .next t) : MemOk t := by
  unfold State.writePort at e
  grind -ring -linarith -lia [State.setPort_memOk, → execIngressChannelEnable_memOk, MemOk, foldl_memOk]

theorem State.writeAttest_memOk {s : State} (req : Requester) (off : Nat) (v : Word) (h : MemOk s) {t : State} (e : State.writeAttest s req off v = .next t) : MemOk t := by
  unfold State.writeAttest at e
  grind -ring -linarith -lia [→ execAttest_memOk, State.attSet_memOk, → execExtend_memOk, MemOk, foldl_memOk]

theorem State.writeMac_memOk {s : State} (req : Requester) (i : Nat) (off : Nat) (v : Word) (h : MemOk s) {t : State} (e : State.writeMac s req i off v = .next t) : MemOk t := by
  unfold State.writeMac at e
  grind -ring -linarith -lia [State.setMac_memOk, → execEthTailWrite_memOk, MemOk, foldl_memOk]

theorem State.writePart_memOk {s : State} (req : Requester) (p : Nat) (off : Nat) (v : Word) (h : MemOk s) {t : State} (e : State.writePart s req p off v = .next t) : MemOk t := by
  unfold State.writePart at e
  grind -ring -linarith -lia [→ execPartitionEntryApply_memOk, State.stagePart_memOk, MemOk, foldl_memOk]

theorem State.writeTraceWindow_memOk {s : State} (req : Requester) (off : Nat) (v : Word) (h : MemOk s) {t : State} (e : State.writeTraceWindow s req off v = .next t) : MemOk t := by
  unfold State.writeTraceWindow at e
  grind -ring -linarith -lia [→ execTraceRpWrite_memOk, → execTraceDescriptorWrite_memOk, MemOk, foldl_memOk]

theorem State.writeDebugWindow_memOk {s : State} (req : Requester) (off : Nat) (v : Word) (h : MemOk s) {t : State} (e : State.writeDebugWindow s req off v = .next t) : MemOk t := by
  unfold State.writeDebugWindow at e
  grind -ring -linarith -lia [→ State.writeDebug_memOk, MemOk, foldl_memOk]

theorem State.writeRegionWindow_memOk {s : State} (req : Requester) (off : Nat) (v : Word) (h : MemOk s) {t : State} (e : State.writeRegionWindow s req off v = .next t) : MemOk t := by
  unfold State.writeRegionWindow at e
  grind -ring -linarith -lia [State.stageFirst_memOk, → execRegionEntryApply_memOk, MemOk, foldl_memOk]

theorem State.writeFabric_memOk {s : State} (req : Requester) (w : Nat) (off : Nat) (v : Word) (h : MemOk s) {t : State} (e : State.writeFabric s req w off v = .next t) : MemOk t := by
  unfold State.writeFabric at e
  grind -ring -linarith -lia [State.writeSubmit_memOk, → execBeminWrite_memOk, → execBewinWrite_memOk, → execTgwinWrite_memOk, → State.writeQueue_memOk, → State.writeTraceWindow_memOk, → State.writeDebugWindow_memOk, MemOk, foldl_memOk]

theorem State.writeIsolation_memOk {s : State} (req : Requester) (w : Nat) (off : Nat) (v : Word) (h : MemOk s) {t : State} (e : State.writeIsolation s req w off v = .next t) : MemOk t := by
  unfold State.writeIsolation at e
  grind -ring -linarith -lia [→ State.writeRegionWindow_memOk, → State.writePart_memOk, State.writeAst_memOk, → execHartPartitionWrite_memOk, State.writeInv_memOk, → execPowercapWrite_memOk, MemOk, foldl_memOk]

theorem State.writeBoundary_memOk {s : State} (req : Requester) (w : Nat) (off : Nat) (v : Word) (h : MemOk s) {t : State} (e : State.writeBoundary s req w off v = .next t) : MemOk t := by
  unfold State.writeBoundary at e
  grind -ring -linarith -lia [→ State.writePort_memOk, → State.writeAttest_memOk, → State.writeMac_memOk, State.writeMailbox_memOk, MemOk, foldl_memOk]

theorem execRegisterWrite_memOk (req : Requester) (pa : Nat) (v : Word) {s : State} (h : MemOk s) {t : State} (e : execRegisterWrite req pa v s = .next t) : MemOk t := by
  unfold execRegisterWrite at e
  dsimp only at e
  (repeat' split at e) <;> first | exact (State.writeFabric_memOk _ _ _ _ h e) | exact (State.writeIsolation_memOk _ _ _ _ h e) | exact (State.writeBoundary_memOk _ _ _ _ h e) | (cases e; exact h)

theorem settleOut_memOk (a : Agent) (o : Out) (hf1 : ∀ t, o = .next t → MemOk t) {t : State} (e : settleOut a o = .next t) : MemOk t := by
  unfold settleOut at e
  grind -ring -linarith -lia [State.settle_memOk, MemOk, foldl_memOk]

theorem State.withFetchWord_memOk {s : State} (nbits : Nat) (w : Nat) (h : MemOk s) : MemOk (State.withFetchWord s nbits w) := by
  unfold State.withFetchWord
  grind -ring -linarith -lia [State.placeWord_memOk, MemOk, foldl_memOk]

theorem exec_memOk (i : Instr) {s : State} (hm : MemOk s) {t : State} (ho : exec i s = .next t) : MemOk t := by
  cases i with
  | nop => exact execNop_memOk hm ho
  | add d a b => exact execAdd_memOk d a b hm ho
  | sub d a b => exact execSub_memOk d a b hm ho
  | addi d a imm => exact execAddi_memOk d a imm hm ho
  | lih d a imm => exact execLih_memOk d a imm hm ho
  | mul d a b => exact execMul_memOk d a b hm ho
  | mulh d a b => exact execMulh_memOk d a b hm ho
  | mulhn d a b => exact execMulhn_memOk d a b hm ho
  | div d a b => exact execDiv_memOk d a b hm ho
  | divn d a b => exact execDivn_memOk d a b hm ho
  | rem d a b => exact execRem_memOk d a b hm ho
  | remn d a b => exact execRemn_memOk d a b hm ho
  | and d a b => exact execAnd_memOk d a b hm ho
  | or d a b => exact execOr_memOk d a b hm ho
  | xor d a b => exact execXor_memOk d a b hm ho
  | andi d a imm => exact execAndi_memOk d a imm hm ho
  | ori d a imm => exact execOri_memOk d a imm hm ho
  | xori d a imm => exact execXori_memOk d a imm hm ho
  | shl d a b => exact execShl_memOk d a b hm ho
  | shr d a b => exact execShr_memOk d a b hm ho
  | sra d a b => exact execSra_memOk d a b hm ho
  | shli d a sh => exact execShli_memOk d a sh hm ho
  | shri d a sh => exact execShri_memOk d a sh hm ho
  | srai d a sh => exact execSrai_memOk d a sh hm ho
  | rol d a b => exact execRol_memOk d a b hm ho
  | ror d a b => exact execRor_memOk d a b hm ho
  | min d a b => exact execMin_memOk d a b hm ho
  | max d a b => exact execMax_memOk d a b hm ho
  | minn d a b => exact execMinn_memOk d a b hm ho
  | maxn d a b => exact execMaxn_memOk d a b hm ho
  | seq d a b => exact execSeq_memOk d a b hm ho
  | sne d a b => exact execSne_memOk d a b hm ho
  | slt d a b => exact execSlt_memOk d a b hm ho
  | sltn d a b => exact execSltn_memOk d a b hm ho
  | slti d a imm => exact execSlti_memOk d a imm hm ho
  | sel d a b n inv => exact execSel_memOk d a b n inv hm ho
  | clz d a => exact execClz_memOk d a hm ho
  | ctz d a => exact execCtz_memOk d a hm ho
  | popc d a => exact execPopc_memOk d a hm ho
  | bfx d a pos len1 => exact execBfx_memOk d a pos len1 hm ho
  | bfi d a pos len1 => exact execBfi_memOk d a pos len1 hm ho
  | sext d a t => exact execSext_memOk d a t hm ho
  | addsh d a b sh => exact execAddsh_memOk d a b sh hm ho
  | fadd t d a b => exact execFadd_memOk t d a b hm ho
  | fsub t d a b => exact execFsub_memOk t d a b hm ho
  | fmul t d a b => exact execFmul_memOk t d a b hm ho
  | ffma t d a b => exact execFfma_memOk t d a b hm ho
  | fmin t d a b => exact execFmin_memOk t d a b hm ho
  | fmax t d a b => exact execFmax_memOk t d a b hm ho
  | feq t d a b => exact execFeq_memOk t d a b hm ho
  | flt t d a b => exact execFlt_memOk t d a b hm ho
  | fle t d a b => exact execFle_memOk t d a b hm ho
  | fcvt t2 t1 d a => exact execFcvt_memOk t2 t1 d a hm ho
  | fsgn m t d a b => exact execFsgn_memOk m t d a b hm ho
  | fclass t d a => exact execFclass_memOk t d a hm ho
  | pset m e pd a => exact execPset_memOk m e pd a hm ho
  | plog op pd pa pb => exact execPlog_memOk op pd pa pb hm ho
  | check a b => exact execCheck_memOk a b hm ho
  | srd d n => exact execSrd_memOk d n hm ho
  | swr n a => exact execSwr_memOk n a hm ho
  | rngn d => exact execRngn_memOk d hm ho
  | rngf t d => exact execRngf_memOk t d hm ho
  | rngj d k => exact execRngj_memOk d k hm ho
  | vnop h => exact execVnop_memOk h hm ho
  | vadd v d a b => exact execVadd_memOk v d a b hm ho
  | vsub v d a b => exact execVsub_memOk v d a b hm ho
  | vmul v d a b => exact execVmul_memOk v d a b hm ho
  | vmulh v d a b => exact execVmulh_memOk v d a b hm ho
  | vmin v d a b => exact execVmin_memOk v d a b hm ho
  | vmax v d a b => exact execVmax_memOk v d a b hm ho
  | vabs v d a => exact execVabs_memOk v d a hm ho
  | vand v d a b => exact execVand_memOk v d a b hm ho
  | vor v d a b => exact execVor_memOk v d a b hm ho
  | vxor v d a b => exact execVxor_memOk v d a b hm ho
  | vshl v d a b => exact execVshl_memOk v d a b hm ho
  | vshr v d a b => exact execVshr_memOk v d a b hm ho
  | vsra v d a b => exact execVsra_memOk v d a b hm ho
  | vfadd v d a b => exact execVfadd_memOk v d a b hm ho
  | vfsub v d a b => exact execVfsub_memOk v d a b hm ho
  | vfmul v d a b => exact execVfmul_memOk v d a b hm ho
  | vfma v d a b => exact execVfma_memOk v d a b hm ho
  | vfmin v d a b => exact execVfmin_memOk v d a b hm ho
  | vfmax v d a b => exact execVfmax_memOk v d a b hm ho
  | vcmp v c pd a b => exact execVcmp_memOk v c pd a b hm ho
  | vfcmp v c pd a b => exact execVfcmp_memOk v c pd a b hm ho
  | vsel v d a b => exact execVsel_memOk v d a b hm ho
  | vcvt v t1 d a => exact execVcvt_memOk v t1 d a hm ho
  | vsplat v d a => exact execVsplat_memOk v d a hm ho
  | vext v d a b => exact execVext_memOk v d a b hm ho
  | vins v d a b => exact execVins_memOk v d a b hm ho
  | vperm v d a b => exact execVperm_memOk v d a b hm ho
  | vslide v d a b => exact execVslide_memOk v d a b hm ho
  | vzip v d a b => exact execVzip_memOk v d a b hm ho
  | vunzip v d a b => exact execVunzip_memOk v d a b hm ho
  | vcprs v d a => exact execVcprs_memOk v d a hm ho
  | vpcnt v d a => exact execVpcnt_memOk v d a hm ho
  | viota v d => exact execViota_memOk v d hm ho
  | vdot4 v d a b => exact execVdot4_memOk v d a b hm ho
  | vaccrd v d a b => exact execVaccrd_memOk v d a b hm ho
  | vaccwr v d a b => exact execVaccwr_memOk v d a b hm ho
  | vmov v d a => exact execVmov_memOk v d a hm ho
  | rdadd v ps a => exact execRdadd_memOk v ps a hm ho
  | rdmax v ps a => exact execRdmax_memOk v ps a hm ho
  | rdmin v ps a => exact execRdmin_memOk v ps a hm ho
  | rdmov v d ps => exact execRdmov_memOk v d ps hm ho
  | xnop h => exact execXnop_memOk h hm ho
  | mma h cz sat d a b ct => exact execMma_memOk h cz sat d a b ct hm ho
  | accz h d => exact execAccz_memOk h d hm ho
  | acccp h tr d a => exact execAcccp_memOk h tr d a hm ho
  | setfmt a => exact execSetfmt_memOk a hm ho
  | twb h d a => exact execTwb_memOk h d a hm ho
  | twn h d => exact execTwn_memOk h d hm ho
  | twe h d => exact execTwe_memOk h d hm ho
  | mstestQuick d => exact execMstestQuick_memOk d hm ho
  | mstestFull d => exact execMstestFull_memOk d hm ho
  | fmaprd h d n => exact execFmaprd_memOk h d n hm ho
  | frcp h p d a => exact execFrcp_memOk h p d a hm ho
  | frsq h p d a => exact execFrsq_memOk h p d a hm ho
  | fsqrt h p d a => exact execFsqrt_memOk h p d a hm ho
  | fdiv h p d a b => exact execFdiv_memOk h p d a b hm ho
  | fexp2 h p d a => exact execFexp2_memOk h p d a hm ho
  | flog2 h p d a => exact execFlog2_memOk h p d a hm ho
  | fsin h p d a => exact execFsin_memOk h p d a hm ho
  | fcos h p d a => exact execFcos_memOk h p d a hm ho
  | ftanh h p d a => exact execFtanh_memOk h p d a hm ho
  | fsigm h p d a => exact execFsigm_memOk h p d a hm ho
  | flut h p d a => exact execFlut_memOk h p d a hm ho
  | lutld d a n => exact execLutld_memOk d a n hm ho
  | lutsel n => exact execLutsel_memOk n hm ho
  | br base off => exact execBr_memOk base off hm ho
  | brc c off => exact execBrc_memOk c off hm ho
  | call base off => exact execCall_memOk base off hm ho
  | ret a => exact execRet_memOk a hm ho
  | mark id n => exact execMark_memOk id n hm ho
  | trcev code a => exact execTrcev_memOk code a hm ho
  | trcevFull code a b => exact execTrcevFull_memOk code a b hm ho
  | leave a n => exact execLeave_memOk a n hm ho
  | launch a => exact execLaunch_memOk a hm ho
  | jend => exact execJend_memOk hm ho
  | jendBlk => exact execJendBlk_memOk hm ho
  | semsig n a k rem => exact execSemsig_memOk n a k rem hm ho
  | semwait n a => exact execSemwait_memOk n a hm ho
  | yield => exact execYield_memOk hm ho
  | barGroup id => exact execBarGroup_memOk id hm ho
  | barBlock id => exact execBarBlock_memOk id hm ho
  | barJob id => exact execBarJob_memOk id hm ho
  | trap c code => exact execTrap_memOk c code hm ho
  | tret => exact execTret_memOk hm ho
  | svc code => exact execSvc_memOk code hm ho
  | bkpt code => exact execBkpt_memOk code hm ho
  | rayqRay q h fast nohint opq => exact execRayqRay_memOk q h fast nohint opq hm ho
  | rayqSph r q h fast nohint opq => exact execRayqSph_memOk r q h fast nohint opq hm ho
  | rayw d => exact execRayw_memOk d hm ho
  | rayahIgnore => exact execRayahIgnore_memOk hm ho
  | rayahAccept => exact execRayahAccept_memOk hm ho
  | hintinv a => exact execHintinv_memOk a hm ho
  | hintinvAll => exact execHintinvAll_memOk hm ho
  | isamp d a b => exact execIsamp_memOk d a b hm ho
  | cmsamp d a b => exact execCmsamp_memOk d a b hm ho
  | cmseg d a b => exact execCmseg_memOk d a b hm ho
  | mnop h => exact execMnop_memOk h hm ho
  | ld m d a b => exact execLd_memOk m d a b hm ho
  | st m d a b => exact execSt_memOk m d a b hm ho
  | lds m d a b => exact execLds_memOk m d a b hm ho
  | sts m d a b => exact execSts_memOk m d a b hm ho
  | ldv v d a b => exact execLdv_memOk v d a b hm ho
  | stv v d a b => exact execStv_memOk v d a b hm ho
  | ldvg v e8 sh d a b => exact execLdvg_memOk v e8 sh d a b hm ho
  | stvs v e8 sh d a b => exact execStvs_memOk v e8 sh d a b hm ho
  | tld v rows d a b => exact execTld_memOk v rows d a b hm ho
  | tst v rows d a b => exact execTst_memOk v rows d a b hm ho
  | accst h first count1 a b => exact execAccst_memOk h first count1 a b hm ho
  | accld h first count1 d a => exact execAccld_memOk h first count1 d a hm ho
  | blkld d a n1 => exact execBlkld_memOk d a n1 hm ho
  | blkrel a => exact execBlkrel_memOk a hm ho
  | cpy h dir d a b => exact execCpy_memOk h dir d a b hm ho
  | cpym h mask d a b => exact execCpym_memOk h mask d a b hm ho
  | syncset a b => exact execSyncset_memOk a b hm ho
  | swait scope ord d a b => exact execSwait_memOk scope ord d a b hm ho
  | aadd m d a b => exact execAadd_memOk m d a b hm ho
  | amin m sgn d a b => exact execAmin_memOk m sgn d a b hm ho
  | amax m sgn d a b => exact execAmax_memOk m sgn d a b hm ho
  | aand m d a b => exact execAand_memOk m d a b hm ho
  | aor m d a b => exact execAor_memOk m d a b hm ho
  | axor m d a b => exact execAxor_memOk m d a b hm ho
  | aswp m d a b => exact execAswp_memOk m d a b hm ho
  | acas m d a b => exact execAcas_memOk m d a b hm ho
  | acas2 scope ord loc d a b => exact execAcas2_memOk scope ord loc d a b hm ho
  | afadd scope ord loc t d a b => exact execAfadd_memOk scope ord loc t d a b hm ho
  | fence scope ord => exact execFence_memOk scope ord hm ho
  | drain scope => exact execDrain_memOk scope hm ho
  | clean a b => exact execClean_memOk a b hm ho
  | inv a b => exact execInv_memOk a b hm ho
  | qpush scope ord d a => exact execQpush_memOk scope ord d a hm ho
  | qpop scope ord d a b => exact execQpop_memOk scope ord d a b hm ho
  | qtry scope ord d a b => exact execQtry_memOk scope ord d a b hm ho
  | tgld x16 d a => exact execTgld_memOk x16 d a hm ho
  | tgst x16 d a => exact execTgst_memOk x16 d a hm ho
  | pref h l2 a b => exact execPref_memOk h l2 a b hm ho
  | tlbinvVa a b => exact execTlbinvVa_memOk a b hm ho
  | tlbinvAsid b => exact execTlbinvAsid_memOk b hm ho
  | tlbinvAll => exact execTlbinvAll_memOk hm ho
  | registerWrite req pa v => exact execRegisterWrite_memOk req pa v hm ho
  | powerOn => exact execPowerOn_memOk hm ho
  | powerOff => exact execPowerOff_memOk hm ho
  | thermalTrip die => exact execThermalTrip_memOk die hm ho
  | imageVerify kind => exact execImageVerify_memOk kind hm ho
  | memoryTrainingComplete trained => exact execMemoryTrainingComplete_memOk trained hm ho
  | stageFullEntry => exact execStageFullEntry_memOk hm ho
  | selfTestComplete d r => exact execSelfTestComplete_memOk d r hm ho
  | backgroundMstest core found => exact execBackgroundMstest_memOk core found hm ho
  | ptimeStep ptp delta e => exact execPtimeStep_memOk ptp delta e hm ho
  | timebaseStateChange next => exact execTimebaseStateChange_memOk next hm ho
  | ptpMessage port frame ppm => exact execPtpMessage_memOk port frame ppm hm ho
  | ppsEdge ppm => exact execPpsEdge_memOk ppm hm ho
  | clockChange d mhz => exact execClockChange_memOk d mhz hm ho
  | register req card => exact execRegister_memOk req card hm ho
  | submit req card => exact execSubmit_memOk req card hm ho
  | retire req card => exact execRetire_memOk req card hm ho
  | abort req card => exact execAbort_memOk req card hm ho
  | periodicRelease slot => exact execPeriodicRelease_memOk slot hm ho
  | deferredRelease slot => exact execDeferredRelease_memOk slot hm ho
  | dispatch cls place => exact execDispatch_memOk cls place hm ho
  | advanceModeTimeout core => exact execAdvanceModeTimeout_memOk core hm ho
  | preemptionComplete d => exact execPreemptionComplete_memOk d hm ho
  | serverWindowBoundary cls => exact execServerWindowBoundary_memOk cls hm ho
  | serverBudgetExhausted cls => exact execServerBudgetExhausted_memOk cls hm ho
  | jobComplete slot => exact execJobComplete_memOk slot hm ho
  | deadlineMiss slot => exact execDeadlineMiss_memOk slot hm ho
  | cyclesDemotion slot => exact execCyclesDemotion_memOk slot hm ho
  | beminWrite req v => exact execBeminWrite_memOk req v hm ho
  | bewinWrite req v => exact execBewinWrite_memOk req v hm ho
  | tgwinWrite req v => exact execTgwinWrite_memOk req v hm ho
  | tollgateWindowBoundary => exact execTollgateWindowBoundary_memOk hm ho
  | channelRequest ch x g => exact execChannelRequest_memOk ch x g hm ho
  | leaveGrant d => exact execLeaveGrant_memOk d hm ho
  | powercapWrite req v => exact execPowercapWrite_memOk req v hm ho
  | energyUpdate m microjoules => exact execEnergyUpdate_memOk m microjoules hm ho
  | bundleIssue core => exact execBundleIssue_memOk core hm ho
  | traceRecordAccept d => exact execTraceRecordAccept_memOk d hm ho
  | taskBlockStart core => exact execTaskBlockStart_memOk core hm ho
  | scoreboardResultLand w => exact execScoreboardResultLand_memOk w hm ho
  | mmaResultLand core => exact execMmaResultLand_memOk core hm ho
  | mstestComplete core found => exact execMstestComplete_memOk core found hm ho
  | blkldFillComplete core => exact execBlkldFillComplete_memOk core hm ho
  | copyPieceLand d copy piece => exact execCopyPieceLand_memOk d copy piece hm ho
  | copyError d copy va => exact execCopyError_memOk d copy va hm ho
  | threadWordIssue unit => exact execThreadWordIssue_memOk unit hm ho
  | threadEnd t => exact execThreadEnd_memOk t hm ho
  | drainComplete t => exact execDrainComplete_memOk t hm ho
  | semwaitSatisfy unit group sem => exact execSemwaitSatisfy_memOk unit group sem hm ho
  | swaitSatisfy w => exact execSwaitSatisfy_memOk w hm ho
  | qpushRoom q => exact execQpushRoom_memOk q hm ho
  | barComplete b => exact execBarComplete_memOk b hm ho
  | queryReportReady t choice => exact execQueryReportReady_memOk t choice hm ho
  | tlbinvComplete idx => exact execTlbinvComplete_memOk idx hm ho
  | capturePreimageWritten slot page => exact execCapturePreimageWritten_memOk slot page hm ho
  | snapshotWrite core => exact execSnapshotWrite_memOk core hm ho
  | heartbeatTimeout d => exact execHeartbeatTimeout_memOk d hm ho
  | watchdogTimeout d => exact execWatchdogTimeout_memOk d hm ho
  | uncorrectableError p => exact execUncorrectableError_memOk p hm ho
  | correctableError src count => exact execCorrectableError_memOk src count hm ho
  | domainFailed d reason => exact execDomainFailed_memOk d reason hm ho
  | reeveLockstepMismatch => exact execReeveLockstepMismatch_memOk hm ho
  | safetyFrameRepeat => exact execSafetyFrameRepeat_memOk hm ho
  | safetyTxReady req slot => exact execSafetyTxReady_memOk req slot hm ho
  | safetyTxComplete slot status => exact execSafetyTxComplete_memOk slot status hm ho
  | safetyRxFrame ctl f => exact execSafetyRxFrame_memOk ctl f hm ho
  | debugStop req d => exact execDebugStop_memOk req d hm ho
  | debugStep req d => exact execDebugStep_memOk req d hm ho
  | debugRun req d => exact execDebugRun_memOk req d hm ho
  | traceRpWrite req part v => exact execTraceRpWrite_memOk req part v hm ho
  | traceDescriptorWrite req part bytes => exact execTraceDescriptorWrite_memOk req part bytes hm ho
  | queueConfigure req q bytes => exact execQueueConfigure_memOk req q bytes hm ho
  | queueClose req q => exact execQueueClose_memOk req q hm ho
  | ingressFrameEnd port vc => exact execIngressFrameEnd_memOk port vc hm ho
  | ingressEventPacket port vc events => exact execIngressEventPacket_memOk port vc events hm ho
  | ingressChannelEnable req port vc bytes => exact execIngressChannelEnable_memOk req port vc bytes hm ho
  | regionEntryApply req idx last => exact execRegionEntryApply_memOk req idx last hm ho
  | partitionEntryApply req idx ctrl => exact execPartitionEntryApply_memOk req idx ctrl hm ho
  | hartPartitionWrite req hart v => exact execHartPartitionWrite_memOk req hart v hm ho
  | invalidateWindowVa req asid => exact execInvalidateWindowVa_memOk req asid hm ho
  | invalidateWindowAsid req asid => exact execInvalidateWindowAsid_memOk req asid hm ho
  | invalidateWindowAll req => exact execInvalidateWindowAll_memOk req hm ho
  | attest req => exact execAttest_memOk req hm ho
  | extend req reg => exact execExtend_memOk req reg hm ho
  | attestComplete => exact execAttestComplete_memOk hm ho
  | pcieInboundRequest pa k => exact execPcieInboundRequest_memOk pa k hm ho
  | pcieLinkChange up rate lanes => exact execPcieLinkChange_memOk up rate lanes hm ho
  | ethTailWrite req mac tx ring v => exact execEthTailWrite_memOk req mac tx ring v hm ho
  | ethTxComplete mac ring => exact execEthTxComplete_memOk mac ring hm ho
  | ethRxFrame mac frame fcsOk => exact execEthRxFrame_memOk mac frame fcsOk hm ho
  | ethLinkChange mac up => exact execEthLinkChange_memOk mac up hm ho
  | heartbeat d => exact execHeartbeat_memOk d hm ho
  | hintinvComplete t => exact execHintinvComplete_memOk t hm ho
  | hartMemoryAccess h pa k => exact execHartMemoryAccess_memOk h pa k hm ho
  | csi2Packet port p => exact execCsi2Packet_memOk port p hm ho

end Sys2Proof.Machine
end

