-- ==== Sys2Proof/Laws/Ops.lean ====
section
/-!
SUPPORT. One lemma for each shared operation that says once what it can do.
-/

-- One thread: many threads' stacks outgrow the memory the check gives.
set_option Elab.async false

namespace Sys2Proof.Machine

/-! ### Updates of one place -/

theorem merase_minsert {β : Type} (m : Map β) (k : Nat) (b : β) : merase (minsert m k b) k = merase m k := by
  induction m with
  | nil => simp [minsert, merase]
  | cons h t ih =>
    simp only [minsert]
    split
    · simp [merase]
    · simp only [merase]; split <;> simp_all

theorem merase_merase {β : Type} (m : Map β) (k : Nat) : merase (merase m k) k = merase m k := by
  induction m with
  | nil => rfl
  | cons h t ih => simp only [merase]; split <;> simp_all [merase]

theorem mset_mset {β : Type} [DecidableEq β] (d : β) (m : Map β) (k : Nat) (a b : β) : mset d (mset d m k a) k b = mset d m k b := by
  have h : merase (mset d m k a) k = merase m k := by
    unfold mset; split
    · exact merase_merase m k
    · rw [merase_minsert, merase_merase]
  unfold mset at h ⊢; rw [h]

theorem State.setCore_setCore (s : State) (c : Nat) (x y : Core) : (s.setCore c x).setCore c y = s.setCore c y := by
  simp [State.setCore, mset_mset]

theorem State.setUnit_setUnit (s : State) (u : Nat) (x y : VUnit) : (s.setUnit u x).setUnit u y = s.setUnit u y := by
  simp [State.setUnit, mset_mset]

theorem State.setGroup_setGroup (s : State) (u g : Nat) (x y : Group) : (s.setGroup u g x).setGroup u g y = s.setGroup u g y := by
  simp [State.setGroup, State.modUnit, State.setUnit_setUnit, mset_mset]

theorem State.setThread_setThread (s : State) (t : Tid) (x y : Thread) : (s.setThread t x).setThread t y = s.setThread t y := by
  simp only [State.setThread, State.modGroup, State.setGroup_setGroup, State.group_setGroup, and_self, if_true, mset_mset]

/-! ### Results -/

theorem State.result_eq (s : State) (n : Nat) (d : Fin 64) (x : Word) : s.result n (.sx d) x = .ok (s.withScalar n d x) := by
  unfold State.result State.wr State.done State.advance State.withScalar
  cases h : s.cur <;> by_cases hd : d = 0 <;>
    simp only [h, hd, if_true, if_false, State.put, State.modCore, State.modThread, State.setThread_setThread, State.thread_setThread_same,
      State.setThread_cur, State.setCore_cur]

theorem answer_result (s : State) (n : Nat) (d : Fin 64) (x : Word) : answer (s.result n (.sx d) x) = .next (s.withScalar n d x) := by
  rw [State.result_eq]; rfl

/-- TEN of a thread as two spellings of FMT[23:19]. -/
theorem ten_eq (x : BitVec 32) : BitVec.ofNat 5 (bits x.toNat 23 19) = x.extractLsb' 19 5 := by
  apply BitVec.eq_of_toNat_eq
  simp [bits, Nat.shiftRight_eq_div_pow]

/-- A scalar floating-point op completes or traps (R113, R120). -/
theorem fpDone_eq (s : State) (n : Nat) (d : Fin 64) (r : Rnd) :
    (s.flagsQuiet r.fl → answer (s.fpDone n (.sx d) r) = .next (s.withScalarFp n d r.code r.fl))
    ∧ (¬ s.flagsQuiet r.fl → answer (s.fpDone n (.sx d) r) = .next (s.takeTrap s.cur ⟨0x19, r.fl.setWidth 64⟩)) := by
  unfold State.flagsQuiet State.fpDone State.withScalarFp
  cases h : s.cur with
  | core c sl =>
    refine ⟨fun _ => ?_, fun hn => absurd trivial hn⟩
    by_cases hd : d = 0 <;> by_cases hf : r.fl = 0 <;>
      simp only [h, hd, hf, if_true, if_false, answer, State.done, State.advance, State.wr, State.raise, State.put, State.modCore,
        State.setCore_setCore, and_true, and_false, true_and, State.setCore_cur, List.append_nil, List.nil_append, false_and,
        State.core_setCore, ↓reduceIte, List.append_assoc]
  | thr u =>
    simp only [ten_eq]
    refine ⟨fun hq => ?_, fun hq => ?_⟩
    · rw [if_pos hq]
      by_cases hd : d = 0 <;> by_cases hf : r.fl = 0 <;>
      simp only [h, hd, hf, if_true, if_false, answer, State.done, State.advance, State.wr, State.raise, State.modThread,
        State.setThread_setThread, State.setThread_cur, State.thread_setThread_same,
        show ∀ x : BitVec 5, x ||| 0 = x from fun x => by simp, ↓reduceIte]
    · rw [if_neg hq]; simp only [answer, trapRes, h]
      congr 3
      apply BitVec.eq_of_toNat_eq; simp

/-! ### Vector results -/

/-- The numbers behind vbuild, by digits of w bits. -/
theorem vbuild_digits (w : Nat) (xs : List (Option Nat)) :
    (vbuild w xs).1 = BitVec.ofNat 1024 ((xs.map fun x => if x.isSome then 2 ^ w - 1 else 0).foldr (fun v acc => v + acc * 2 ^ w) 0)
    ∧ (vbuild w xs).2 = BitVec.ofNat 1024 ((xs.map fun x => x.elim 0 (· % 2 ^ w)).foldr (fun v acc => v + acc * 2 ^ w) 0) := by
  unfold vbuild
  simp only []
  have key : ∀ xs : List (Option Nat),
      xs.foldr (fun x acc => match x with
        | some v => (2 ^ w - 1 + acc.1 * 2 ^ w, v % 2 ^ w + acc.2 * 2 ^ w)
        | none => (acc.1 * 2 ^ w, acc.2 * 2 ^ w)) ((0 : Nat), (0 : Nat))
      = ((xs.map fun x => if x.isSome then 2 ^ w - 1 else 0).foldr (fun v acc => v + acc * 2 ^ w) 0,
         (xs.map fun x => x.elim 0 (· % 2 ^ w)).foldr (fun v acc => v + acc * 2 ^ w) 0) := by
    intro xs
    induction xs with
    | nil => rfl
    | cons h t ih => cases h <;> simp [ih]
  exact ⟨congrArg (fun p => BitVec.ofNat 1024 p.1) (key xs), congrArg (fun p => BitVec.ofNat 1024 p.2) (key xs)⟩

/-- Digit j of a number written in digits of w bits. -/
theorem digits_testBit (w : Nat) (vs : List Nat) (hv : ∀ v ∈ vs, v < 2 ^ w) (j b : Nat) (hb : b < w) :
    (vs.foldr (fun v acc => v + acc * 2 ^ w) 0).testBit (w * j + b) = (vs.getD j 0).testBit b := by
  induction vs generalizing j with
  | nil => simp
  | cons h t ih =>
    simp only [List.foldr_cons]
    have hh := hv h (by simp)
    have hc : h + t.foldr (fun v acc => v + acc * 2 ^ w) 0 * 2 ^ w = 2 ^ w * t.foldr (fun v acc => v + acc * 2 ^ w) 0 + h := by
      rw [Nat.mul_comm, Nat.add_comm]
    rw [hc, Nat.testBit_two_pow_mul_add _ hh]
    cases j with
    | zero => simp [hb]
    | succ j =>
      have : ¬ w * (j + 1) + b < w := by rw [Nat.mul_succ]; omega
      rw [if_neg this, show w * (j + 1) + b - w = w * j + b by rw [Nat.mul_succ]; omega, ih (fun v hv' => hv v (by simp [hv']))]
      simp

/-- Bits of a mask and of the data built from optional elements (R20). -/
theorem vbuild_getLsbD (w : Nat) (xs : List (Option Nat)) (j b : Nat) (hb : b < w) (hj : w * j + b < 1024) :
    (vbuild w xs).1.getLsbD (w * j + b) = (xs.getD j none).isSome
    ∧ (vbuild w xs).2.getLsbD (w * j + b) = ((xs.getD j none).elim 0 id).testBit b := by
  rw [(vbuild_digits w xs).1, (vbuild_digits w xs).2, BitVec.getLsbD_ofNat, BitVec.getLsbD_ofNat]
  simp only [hj, decide_true, Bool.true_and]
  rw [digits_testBit _ _ _ _ _ hb, digits_testBit _ _ _ _ _ hb]
  · constructor
    · rw [List.getD_eq_getElem?_getD, List.getElem?_map]
      cases h : xs[j]? with
      | none => simp [h]
      | some x => cases x <;> simp [h, Nat.testBit_two_pow_sub_one, hb]
    · rw [List.getD_eq_getElem?_getD, List.getElem?_map]
      cases h : xs[j]? with
      | none => simp [h]
      | some x => cases x <;> simp [h, Nat.testBit_mod_two_pow, hb]
  · intro v hv; simp at hv; obtain ⟨a, _, rfl⟩ := hv; cases a <;> simp [Nat.two_pow_pos, Nat.mod_lt]
  · intro v hv; simp at hv; obtain ⟨a, _, rfl⟩ := hv; have := Nat.two_pow_pos w; split <;> grind

/-- Element j of what lands from a vector result (R20). -/
theorem vecElem_underMask (w : Nat) (xs : List (Option Nat)) (old : Vec) (j : Nat) (hj : w * (j + 1) ≤ 1024) :
    vecElem (underMask old (vbuild w xs).1 (vbuild w xs).2) w j = (match xs.getD j none with
      | some y => y % 2 ^ w
      | none => vecElem old w j) := by
  apply Nat.eq_of_testBit_eq
  intro b
  have e (v : Vec) : (vecElem v w j).testBit b = (decide (b < w) && v.getLsbD (w * j + b)) := by
    unfold vecElem
    rw [← Nat.shiftRight_eq_div_pow, Nat.testBit_mod_two_pow, Nat.testBit_shiftRight]; rfl
  rw [e]
  by_cases hb : b < w
  · have hj' : w * j + b < 1024 := by rw [Nat.mul_succ] at hj; omega
    obtain ⟨h1, h2⟩ := vbuild_getLsbD w xs j b hb hj'
    unfold underMask
    rw [BitVec.getLsbD_or, BitVec.getLsbD_and, BitVec.getLsbD_and, BitVec.getLsbD_not, h1, h2]
    cases h : xs.getD j none with
    | none => rw [e]; simp [hb, hj', h]
    | some y => simp [hb, h, Nat.testBit_mod_two_pow]
  · cases h : xs.getD j none with
    | none => rw [e]; simp [hb]
    | some y => simp [hb, Nat.testBit_mod_two_pow]

/-- A vector result put in flight with flags (R20, R39, R120). -/
theorem VecStep_of (i : Instr) (s : State) (lat : Nat) (d : Fin 64) (w : Nat) (xs : List (Option Nat)) (fl : BitVec 5) (n : Nat)
    (new : Nat → Option Nat) (hx : ∀ j, xs.getD j none = if j < n then new j else none)
    (he : ∀ c k, s.cur = .core c k → exec i s = answer ((s.wvElems lat (.vec d) w xs).raise lat fl).done) : VecStep i s lat d w n new fl := by
  intro c k hc
  refine ⟨(vbuild w xs).1, (vbuild w xs).2, ?_, fun old j hj => ?_⟩
  · rw [he c k hc]
    unfold answer State.done State.advance State.wvElems State.wv State.raise
    by_cases hf : fl = 0 <;>
      simp only [hc, hf, ↓reduceIte, State.put, State.modCore, State.setCore_setCore, State.setCore_cur, State.core_setCore,
        List.append_assoc, List.cons_append, List.nil_append] <;> rfl
  · (rw [vecElem_underMask _ _ _ _ hj, hx] <;> rfl)


end Sys2Proof.Machine
end

