-- ==== Sys2Proof/Laws/Trace.lean ====
section
/-!
SUPPORT. Checked accesses, home-agent writes and trace records leave the engines alone: cores, units, the running agent, the words fetched,
the schedule, time.
-/

-- One thread: many threads' stacks outgrow the memory the check gives.
set_option Elab.async false

namespace Sys2Proof.Machine

/-- The engines and what runs are the same. -/
def SameEngines (s t : State) : Prop :=
  t.cores = s.cores ∧ t.units = s.units ∧ t.cur = s.cur ∧ t.latch = s.latch ∧ t.deferred = s.deferred ∧ t.inputs = s.inputs
    ∧ t.ptime = s.ptime ∧ t.aborted = s.aborted

theorem SameEngines.refl (s : State) : SameEngines s s := ⟨rfl, rfl, rfl, rfl, rfl, rfl, rfl, rfl⟩

theorem foldl_same {α : Type} (f : State → α → State) (l : List α) {s0 s : State} (h : ∀ s a, SameEngines s0 s → SameEngines s0 (f s a))
    (hs : SameEngines s0 s) : SameEngines s0 (l.foldl f s) := by
  induction l generalizing s with
  | nil => exact hs
  | cons a l ih => exact ih (h s a hs)

theorem State.writeSector_same {s0 s : State} (world : Bool) (n : Nat) (cells : List Host.Cell) (h : SameEngines s0 s) :
    SameEngines s0 (s.writeSector world n cells) := by
  unfold State.writeSector
  (try dsimp only)
  (repeat' split) <;> exact h

theorem State.writeSectors_same {s0 s : State} (world : Bool) (cells : List Host.Cell) (h : SameEngines s0 s) :
    SameEngines s0 (s.writeSectors world cells) := by
  unfold State.writeSectors
  exact foldl_same _ _ (fun _ _ h => State.writeSector_same _ _ _ h) h

theorem State.errorLog_same {s0 s : State} (sec : Bool) (src kind cause part jobid addr info : Nat) (h : SameEngines s0 s) :
    SameEngines s0 (s.errorLog sec src kind cause part jobid addr info) := by
  have hr : ∀ (u : State) (r : Reeve), SameEngines s0 u → SameEngines s0 { u with reeve := r } := fun _ _ h => h
  unfold State.errorLog
  dsimp only
  by_cases hz : s.cfg 0x50 4 = 0
  · rw [if_pos hz]; exact h
  · rw [if_neg hz]
    exact hr _ _ (State.writeSectors_same _ _ (State.writeSectors_same _ _ h))

theorem State.noteWorld_same {s0 s : State} (world : Bool) (pas : List Nat) (h : SameEngines s0 s) :
    SameEngines s0 (s.noteWorld world pas) := by
  unfold State.noteWorld
  split
  · exact h
  · exact State.errorLog_same _ _ _ _ _ _ _ _ h

theorem State.homeWrite_same {s0 s : State} (world : Bool) (cells : List Host.Cell) (h : SameEngines s0 s) :
    SameEngines s0 (s.homeWrite world cells) := by
  unfold State.homeWrite
  exact State.writeSectors_same _ _ (State.noteWorld_same _ _ h)

theorem State.modSlot_same {s0 s : State} (n : Nat) (f : Slot → Slot) (h : SameEngines s0 s) : SameEngines s0 (s.modSlot n f) := by
  unfold State.modSlot State.setSlot; split <;> exact h

theorem State.touch_same {s0 s : State} (k : Ctx) (ps : List Piece) (h : SameEngines s0 s) : SameEngines s0 (s.touch k ps) := by
  unfold State.touch
  split
  · exact h
  · refine foldl_same _ _ (fun s q h => ?_) h
    split
    · exact h
    · exact State.modSlot_same _ _ h

theorem State.putLeaf_same {s0 s : State} (w : Bool) (lf : Leaf) (e : Nat) (h : SameEngines s0 s) : SameEngines s0 (s.putLeaf w lf e) := by
  unfold State.putLeaf
  split
  · exact h
  · exact State.homeWrite_same _ _ h

theorem State.fillTlb_same {s0 s : State} (n : Nat) (k : Ctx) (va : Nat) (write pref : Bool) (h : SameEngines s0 s) {x : XByte} {t : State}
    (e : s.fillTlb n k va write pref = some (x, t)) : SameEngines s0 t := by
  unfold State.fillTlb at e
  have hk : ∀ l, SameEngines s0 (s.keepWalk n l) := fun _ => h
  generalize s.walk n k.world k.asid va = o at e
  match o, e with
  | some (lf, found), e =>
    simp only [Option.some.injEq, Prod.mk.injEq] at e
    obtain ⟨-, rfl⟩ := e
    exact State.putLeaf_same k.world lf _ (hk found)

theorem State.translateIn_same {s0 s : State} (k : Ctx) (va : Nat) (write pref : Bool) (h : SameEngines s0 s) {x : XByte} {t : State}
    (e : s.translateIn k va write pref = some (x, t)) : SameEngines s0 t := by
  unfold State.translateIn at e
  dsimp only at e
  split at e
  · split at e
    · refine State.fillTlb_same _ _ _ _ _ ?_ e
      exact h
    · simp only [Option.some.injEq, Prod.mk.injEq] at e
      obtain ⟨-, rfl⟩ := e
      exact h
  · exact State.fillTlb_same _ _ _ _ _ h e

theorem State.translate_same {s0 s : State} (k : Ctx) (va : Nat) (write pref : Bool) (h : SameEngines s0 s) {x : XByte} {t : State}
    (e : s.translate k va write pref = some (x, t)) : SameEngines s0 t := by
  unfold State.translate at e
  (repeat' split at e) <;> grind -ring -linarith -lia [→ State.translateIn_same]

theorem State.step3_same {s0 s : State} (k : Ctx) (kind : AccKind) (prev : Option XByte) (cs : List (Nat × Nat)) (h : SameEngines s0 s)
    {r : _} {t : State} (e : s.step3 k kind prev cs = .ok (r, t)) : SameEngines s0 t := by
  induction cs generalizing s r t prev with
  | nil => unfold State.step3 at e; grind
  | cons x l ih =>
    unfold State.step3 at e
    (try dsimp only at e)
    (repeat' split at e) <;> grind -ring -linarith -lia [→ State.translate_same]

theorem State.step3_same_err {s0 s : State} (k : Ctx) (kind : AccKind) (prev : Option XByte) (cs : List (Nat × Nat))
    (h : SameEngines s0 s) {r : _} {t : State} (e : s.step3 k kind prev cs = .error (r, t)) : SameEngines s0 t := by
  induction cs generalizing s r t prev with
  | nil => unfold State.step3 at e; grind
  | cons x l ih =>
    unfold State.step3 at e
    (try dsimp only at e)
    (repeat' split at e) <;> grind -ring -linarith -lia [→ State.translate_same]

theorem State.access_same {s0 s : State} (k : Ctx) (kind : AccKind) (addr n align : Nat) (h : SameEngines s0 s) {r : _} {t : State}
    (e : s.access k kind addr n align = .ok (r, t)) : SameEngines s0 t := by
  unfold State.access at e
  grind -ring -linarith -lia [→ State.step3_same, → State.step3_same_err, State.touch_same]

theorem State.access_same_err {s0 s : State} (k : Ctx) (kind : AccKind) (addr n align : Nat) (h : SameEngines s0 s) {q : Fail}
    (e : s.access k kind addr n align = .error q) : SameEngines s0 q.st := by
  unfold State.access at e
  grind -ring -linarith -lia [→ State.step3_same, → State.step3_same_err, State.touch_same]

theorem State.traceStore_same {s0 s : State} (src asid part : Nat) (world : Bool) (va : Nat) (bs : List Byte) (h : SameEngines s0 s)
    {t : State} (e : s.traceStore src asid part world va bs = .ok t) : SameEngines s0 t := by
  unfold State.traceStore at e
  grind -ring -linarith -lia [→ State.access_same, State.homeWrite_same]

theorem State.setTdesc_same {s0 s : State} (p : Nat) (d : TraceDesc) (h : SameEngines s0 s) : SameEngines s0 (s.setTdesc p d) := h
theorem State.setTsrc_same {s0 s : State} (p n : Nat) (x : TraceSrc) (h : SameEngines s0 s) : SameEngines s0 (s.setTsrc p n x) := h

theorem State.ringWrite_same {s0 s : State} (part src : Nat) (world : Bool) (bs : List Byte) (h : SameEngines s0 s) {t : State}
    (e : s.ringWrite part src world bs = .ok (some t)) : SameEngines s0 t := by
  unfold State.ringWrite at e
  grind -ring -linarith -lia [→ State.traceStore_same, State.setTdesc_same]

theorem State.loseRec_same {s0 s : State} (part : Nat) (h : SameEngines s0 s) : SameEngines s0 (s.loseRec part) := h
theorem State.suspendTrace_same {s0 s : State} (part va : Nat) (h : SameEngines s0 s) : SameEngines s0 (s.suspendTrace part va) := h

theorem State.wroteRec_same {s0 s : State} (part src : Nat) (bs : List Byte) (h : SameEngines s0 s) :
    SameEngines s0 (s.wroteRec part src bs) := h

theorem State.offer_same {s0 s : State} (part src : Nat) (world : Bool) (bs : List Byte) (h : SameEngines s0 s) :
    SameEngines s0 (s.offer part src world bs).2 := by
  unfold State.offer
  grind -ring -linarith -lia [State.loseRec_same, → State.ringWrite_same, State.setTsrc_same, State.setTdesc_same, State.suspendTrace_same, State.wroteRec_same]

theorem State.stampFor_same {s0 s : State} (src : Nat) (h : SameEngines s0 s) : SameEngines s0 (s.stampFor src).2 := by
  unfold State.stampFor State.diePtime State.draw
  dsimp only
  (repeat' split) <;> exact h

theorem State.settleCore_same {s0 s : State} (c : Nat) (h : SameEngines s0 s) : SameEngines s0 (s.settleCore c) := by
  unfold State.settleCore
  split
  · exact State.modSlot_same _ _ h
  · exact h

/-- What a record changes of the engines: nothing, or the records that the core or the thread that emits it now holds (R319). -/
def EmitCase (who : Option Agent) (t u : State) : Prop :=
  u = t
    ∨ (∃ c k l, who = some (.core c k) ∧ SameEngines (t.modCore c fun x => { x with trec := l }) u)
    ∨ (∃ a l n q, who = some (.thr a)
        ∧ u = (t.modThread a fun x => { x with trec := l, heldSince := n }).modUnit a.unit fun v => { v with traceq := q })

theorem State.holdRec_case (t : State) (part : Nat) (bs : List Byte) (a : Agent) : EmitCase (some a) t (t.holdRec part bs a) := by
  cases a with
  | core c k => exact .inr (.inl ⟨c, k, _, rfl, State.settleCore_same _ (SameEngines.refl _)⟩)
  | thr a => exact .inr (.inr ⟨a, _, _, _, rfl, rfl⟩)

/-- A record changes one thing of the engines at most (R316 to R319). -/
theorem State.emit_cases (s : State) (r : Rec) (who : Option Agent) : ∃ t, SameEngines s t ∧ EmitCase who t (s.emit r who) := by
  unfold State.emit
  split
  · exact ⟨s, .refl s, .inl rfl⟩
  · dsimp only
    have h1 := fun x => State.setTsrc_same r.part r.src x (State.stampFor_same r.src (SameEngines.refl s))
    have h3 := fun x bs => State.offer_same r.part r.src r.world bs (h1 x)
    split
    · rename_i a e
      obtain ⟨rfl, -⟩ := Option.filter_eq_some_iff.mp e
      exact ⟨_, h1 _, State.holdRec_case _ _ _ _⟩
    · split
      · exact ⟨_, h3 _ _, .inl rfl⟩
      · split
        · split
          · exact ⟨_, h3 _ _, State.holdRec_case _ _ _ _⟩
          · exact ⟨_, State.loseRec_same _ (h3 _ _), .inl rfl⟩
        · exact ⟨_, State.loseRec_same _ (h3 _ _), .inl rfl⟩

end Sys2Proof.Machine
end

