-- ==== Sys2Proof/Laws/Landing.lean ====
section
/-!
SUPPORT. The landing of copies and a release (R235, R244, R253) touch memory, shares, counts and records, and nothing of the cycle under way:
the running agent, its words still to execute, what its bundle defers, the schedule and the time stay.
-/

-- One thread: many threads' stacks outgrow the memory the check gives.
set_option Elab.async false

namespace Sys2Proof.Machine

/-- Both states are in the same cycle: the same agent runs, with the same words to execute and effects deferred, at the same time. -/
def SameRun (s t : State) : Prop :=
  t.cur = s.cur ∧ t.latch = s.latch ∧ t.deferred = s.deferred ∧ t.inputs = s.inputs ∧ t.ptime = s.ptime ∧ t.aborted = s.aborted

theorem SameRun.refl (s : State) : SameRun s s := ⟨rfl, rfl, rfl, rfl, rfl, rfl⟩

theorem SameRun.of_engines {s t u : State} (h : SameRun s t) (e : SameEngines t u) : SameRun s u := by
  unfold SameRun SameEngines at *; grind

theorem foldl_run {α : Type} (f : State → α → State) (l : List α) {s0 s : State} (hf : ∀ s a, SameRun s0 s → SameRun s0 (f s a))
    (h : SameRun s0 s) : SameRun s0 (l.foldl f s) := by
  induction l generalizing s with
  | nil => exact h
  | cons x t ih => exact ih (hf s x h)

theorem State.modCore_run {s0 s : State} (c : Nat) (f : Core → Core) (h : SameRun s0 s) : SameRun s0 (State.modCore s c f) := by
  unfold State.modCore
  grind -ring -linarith -lia [State.setCore, SameRun, foldl_run]

theorem State.modUnit_run {s0 s : State} (u : Nat) (f : VUnit → VUnit) (h : SameRun s0 s) : SameRun s0 (State.modUnit s u f) := by
  unfold State.modUnit
  grind -ring -linarith -lia [State.setUnit, SameRun, foldl_run]

theorem State.setGroup_run {s0 s : State} (u : Nat) (g : Nat) (x : Group) (h : SameRun s0 s) : SameRun s0 (State.setGroup s u g x) := by
  unfold State.setGroup
  grind -ring -linarith -lia [State.modUnit_run, SameRun, foldl_run]

theorem State.modGroup_run {s0 s : State} (u : Nat) (g : Nat) (f : Group → Group) (h : SameRun s0 s) :
    SameRun s0 (State.modGroup s u g f) := by
  unfold State.modGroup
  grind -ring -linarith -lia [State.setGroup_run, SameRun, foldl_run]

theorem State.setThread_run {s0 s : State} (t1 : Tid) (x : Thread) (h : SameRun s0 s) : SameRun s0 (State.setThread s t1 x) := by
  unfold State.setThread
  grind -ring -linarith -lia [State.modGroup_run, SameRun, foldl_run]

theorem State.modThread_run {s0 s : State} (t1 : Tid) (f : Thread → Thread) (h : SameRun s0 s) : SameRun s0 (State.modThread s t1 f) := by
  unfold State.modThread
  grind -ring -linarith -lia [State.setThread_run, SameRun, foldl_run]

theorem State.modEng_run {s0 s : State} (d : Dom) (f : Eng → Eng) (h : SameRun s0 s) : SameRun s0 (State.modEng s d f) := by
  unfold State.modEng
  grind -ring -linarith -lia [State.modCore_run, State.modUnit_run, SameRun, foldl_run]

theorem State.modSlot_run {s0 s : State} (n : Nat) (f : Slot → Slot) (h : SameRun s0 s) : SameRun s0 (State.modSlot s n f) := by
  unfold State.modSlot
  grind -ring -linarith -lia [State.setSlot, SameRun, foldl_run]

theorem State.homeWrite_run {s0 s : State} (world : Bool) (cells : List Host.Cell) (h : SameRun s0 s) :
    SameRun s0 (s.homeWrite world cells) := .of_engines h (State.homeWrite_same world cells (.refl s))

theorem State.writeBack_run {s0 s : State} (l : Line) (h : SameRun s0 s) : SameRun s0 (State.writeBack s l) := by
  unfold State.writeBack
  grind -ring -linarith -lia [State.homeWrite_run, SameRun, foldl_run]

theorem State.dropLines_run {s0 s : State} (d : Dom) (p : Line → Bool) (h : SameRun s0 s) : SameRun s0 (State.dropLines s d p) := by
  unfold State.dropLines
  grind -ring -linarith -lia [State.writeBack_run, State.modEng_run, SameRun, foldl_run]

theorem State.storeLocal_run {s0 s : State} (a : Agent) (off : Nat) (bs : List Byte) (h : SameRun s0 s) :
    SameRun s0 (State.storeLocal s a off bs) := by
  unfold State.storeLocal
  grind -ring -linarith -lia [State.modCore_run, State.modGroup_run, SameRun, foldl_run]

theorem State.signalCore_run {s0 s : State} (c : Nat) (idx : Nat) (n : Nat) (h : SameRun s0 s) :
    SameRun s0 (State.signalCore s c idx n) := by
  unfold State.signalCore
  grind -ring -linarith -lia [State.modCore_run, SameRun, foldl_run]

theorem State.signalGroup_run {s0 s : State} (u : Nat) (g : Nat) (idx : Nat) (n : Nat) (h : SameRun s0 s) :
    SameRun s0 (State.signalGroup s u g idx n) := by
  unfold State.signalGroup
  grind -ring -linarith -lia [State.modGroup_run, SameRun, foldl_run]

theorem State.peerLost_run {s0 s : State} (what : Nat) (h : SameRun s0 s) : SameRun s0 (State.peerLost s what) := by
  unfold State.peerLost
  grind -ring -linarith -lia [SameRun, foldl_run]

theorem State.countPeer_run {s0 s : State} (xs : List XByte) (what : Nat) (h : SameRun s0 s) : SameRun s0 (State.countPeer s xs what) := by
  unfold State.countPeer
  grind -ring -linarith -lia [State.peerLost_run, SameRun, foldl_run]

theorem State.postWords_run {s0 s : State} (k : Ctx) (bs : List (XByte × Byte)) (h : SameRun s0 s) :
    SameRun s0 (State.postWords s k bs) := by
  unfold State.postWords
  grind -ring -linarith -lia [SameRun, foldl_run]

theorem State.storeExt_run {s0 s : State} (k : Ctx) (bs : List (XByte × Byte)) (h : SameRun s0 s) : SameRun s0 (s.storeExt k bs) := by
  have h := State.postWords_run k (bs.filter fun c => isWindow c.1.pa) h
  exact h

theorem State.cleanLines_run {s0 s : State} (d : Dom) (p : Line → Bool) (h : SameRun s0 s) : SameRun s0 (State.cleanLines s d p) := by
  unfold State.cleanLines
  grind -ring -linarith -lia [State.writeBack_run, State.modEng_run, SameRun, foldl_run]

theorem State.cleanBlocks_run {s0 s : State} (d : Dom) (p : Line → Bool) (h : SameRun s0 s) : SameRun s0 (State.cleanBlocks s d p) := by
  unfold State.cleanBlocks
  grind -ring -linarith -lia [State.writeBack_run, State.modCore_run, SameRun, foldl_run]

theorem State.cleanAll_run {s0 s : State} (d : Dom) (h : SameRun s0 s) : SameRun s0 (State.cleanAll s d) := by
  unfold State.cleanAll
  grind -ring -linarith -lia [State.cleanLines_run, State.cleanBlocks_run, SameRun, foldl_run]

theorem State.emitAt_run {s0 s : State} (a : Agent) (evt cls : Nat) (full : Bool) (arg flow role : Nat) (h : SameRun s0 s) :
    SameRun s0 (s.emitAt a evt cls full arg flow role) := by
  unfold State.emitAt
  dsimp only
  split
  · exact h
  · obtain ⟨t, ht, e | ⟨c, k, l, -, e⟩ | ⟨u, l, n, q, -, e⟩⟩ := State.emit_cases s _ (some a)
    · rw [e]; exact h.of_engines ht
    · exact (State.modCore_run c _ (h.of_engines ht)).of_engines e
    · rw [e]; exact State.modUnit_run _ _ (State.modThread_run u _ (h.of_engines ht))

theorem State.threadStall_run {s0 s : State} (t1 : Tid) (cause : Nat) (since : Nat) (h : SameRun s0 s) :
    SameRun s0 (State.threadStall s t1 cause since) := by
  unfold State.threadStall
  grind -ring -linarith -lia [State.emitAt_run, SameRun, foldl_run]

theorem State.wake_run {s0 s : State} (t1 : Tid) (h : SameRun s0 s) : SameRun s0 (State.wake s t1) := by
  unfold State.wake
  grind -ring -linarith -lia [State.threadStall_run, State.modThread_run, SameRun, foldl_run]

theorem State.writeShare_run {s0 s : State} (job : Nat) (p : CopyEnd) (off : Nat) (bs : List Byte) (h : SameRun s0 s) :
    SameRun s0 (State.writeShare s job p off bs) := by
  unfold State.writeShare
  grind -ring -linarith -lia [State.storeLocal_run, State.modSlot_run, SameRun, foldl_run]

theorem State.signalPlace_run {s0 s : State} (job : Nat) (p : CopyEnd) (h : SameRun s0 s) : SameRun s0 (State.signalPlace s job p) := by
  unfold State.signalPlace
  grind -ring -linarith -lia [State.signalCore_run, State.homeWrite_run, State.signalGroup_run, SameRun, foldl_run]

theorem State.countLanding_run {s0 s : State} (job : Nat) (n : Nat) (p : CopyEnd) (h : SameRun s0 s) :
    SameRun s0 (State.countLanding s job n p) := by
  unfold State.countLanding
  grind -ring -linarith -lia [State.writeShare_run, SameRun, foldl_run]

theorem State.copyStore_run {s0 s : State} (k : Ctx) (job : Nat) (p : CopyEnd) (lo : Nat) (bs : List Byte) (h : SameRun s0 s) {t : State} (e : State.copyStore s k job p lo bs = .ok t) : SameRun s0 t := by
  unfold State.copyStore at e
  grind -ring -linarith -lia [State.dropLines_run, State.homeWrite_run, State.countPeer_run, State.storeExt_run, State.writeShare_run, SameRun, foldl_run]

theorem State.wakeCopySlot_run {s0 s : State} (d : Dom) (h : SameRun s0 s) : SameRun s0 (State.wakeCopySlot s d) := by
  unfold State.wakeCopySlot
  grind -ring -linarith -lia [State.wake_run, SameRun, foldl_run]

theorem State.modCopy_run {s0 s : State} (d : Dom) (i : Nat) (f : Copy → Copy) (h : SameRun s0 s) : SameRun s0 (State.modCopy s d i f) := by
  unfold State.modCopy
  grind -ring -linarith -lia [State.modEng_run, SameRun, foldl_run]

theorem State.endCopy_run {s0 s : State} (d : Dom) (i : Nat) (h : SameRun s0 s) : SameRun s0 (State.endCopy s d i) := by
  unfold State.endCopy
  grind -ring -linarith -lia [State.modEng_run, State.wakeCopySlot_run, SameRun, foldl_run]

theorem State.noteReads_run {s0 s : State} (k : Ctx) (xs : List XByte) (h : SameRun s0 s) : SameRun s0 (s.noteReads k xs) := by
  unfold State.noteReads
  exact State.countPeer_run _ _ (h.of_engines (State.noteWorld_same _ _ (SameEngines.refl s)))

theorem State.landPiece_run {s0 s : State} (d : Dom) (i j : Nat) (h : SameRun s0 s) : SameRun s0 (State.landPiece s d i j) := by
  unfold State.landPiece
  split
  · exact h
  · split
    · exact h
    · split
      · exact h
      · dsimp only
        have hn := fun (k : Ctx) (l : List XByte) => State.noteReads_run k l h
        split
        · exact State.modCopy_run _ _ _ (hn _ _)
        · split
          · exact State.modCopy_run _ _ _ (hn _ _)
          · rename_i s1 e
            have h1 := State.copyStore_run _ _ _ _ _ (hn _ _) e
            have h2 := fun (f : Copy → Copy) (job n : Nat) (l : List CopyEnd) => foldl_run (fun s p => s.countLanding job n p) l
              (fun s p hs => State.countLanding_run job n p hs) (State.modCopy_run d i f h1)
            split
            · exact State.endCopy_run _ _ (foldl_run _ _ (fun s p hs => State.signalPlace_run _ p hs) (h2 _ _ _ _))
            · exact h2 _ _ _ _

theorem State.landNext_run {s0 s : State} (d : Dom) (n : Nat) (h : SameRun s0 s) : SameRun s0 (s.landNext d n) := by
  induction n generalizing s with
  | zero => exact h
  | succ n ih =>
    unfold State.landNext
    split
    · exact h
    · exact ih (State.landPiece_run _ _ _ h)

theorem State.landCopies_run {s0 s : State} (d : Dom) (h : SameRun s0 s) : SameRun s0 (State.landCopies s d) := by
  unfold State.landCopies
  grind -ring -linarith -lia [State.landNext_run, SameRun, foldl_run]

theorem State.releaseAt_run {s0 s : State} (d : Dom) (sc : Scope) (h : SameRun s0 s) : SameRun s0 (State.releaseAt s d sc) := by
  unfold State.releaseAt
  grind -ring -linarith -lia [State.landCopies_run, State.cleanAll_run, SameRun, foldl_run]

end Sys2Proof.Machine
end

