-- ==== Sys2Proof/Laws/Decode.lean ====
section
/-! SUPPORT. Lemmas about decoding and encoding: each code table and each MOD layout read back, operand codes, immediates, and
`decodeOp_of_parse`: a well-formed operation whose encoding parses to it decodes without a failed check. -/

-- One thread: many threads' stacks outgrow the memory the check gives.
set_option Elab.async false

namespace Sys2Proof

/-- The fields of 44 bits are those they were put together from. -/
theorem RawOp.ofBits_toBits (r : RawOp) : RawOp.ofBits r.toBits = r := by
  obtain ⟨o, d, a, b, m⟩ := r
  unfold RawOp.ofBits RawOp.toBits
  congr 1 <;> (apply BitVec.eq_of_getLsbD_eq; intro i hi; simp; grind)

/-- An operand that its code gives back in a form: k registers belong to thread form, v registers and tiles to bundle form. -/
def Opd.fits (f : Form) : Opd → Bool
  | .vec _ | .acc _ => f == .bundle
  | .kreg _ => f == .thread
  | _ => true

theorem fin_val {n : Nat} {h : 0 < n} (x : Fin n) : fin n x.val h = x := Fin.ext (Nat.mod_eq_of_lt x.isLt)

theorem opdOf_code {f : Form} {o : Opd} (h : o.fits f = true) : opdOf f o.code = o := by
  cases o with
  | sx n =>
    have hn : (BitVec.ofNat 8 n.val).toNat = n.val := by rw [BitVec.toNat_ofNat]; omega
    have := n.isLt
    simp only [opdOf, Opd.code, hn]
    rw [if_pos (by omega)]; exact congrArg _ (fin_val _)
  | vec n =>
    have hn : (BitVec.ofNat 8 (64 + n.val)).toNat = 64 + n.val := by rw [BitVec.toNat_ofNat]; omega
    have := n.isLt
    have hf : f = .bundle := by simpa [Opd.fits] using h
    subst hf
    simp only [opdOf, Opd.code, hn]
    rw [if_neg (by omega), if_neg (by omega), if_pos (by simp; omega)]; exact congrArg _ (Fin.ext (by simp only [fin]; omega))
  | acc n =>
    have hn : (BitVec.ofNat 8 (128 + n.val)).toNat = 128 + n.val := by rw [BitVec.toNat_ofNat]; omega
    have := n.isLt
    have hf : f = .bundle := by simpa [Opd.fits] using h
    subst hf
    simp only [opdOf, Opd.code, hn]
    rw [if_neg (by omega), if_neg (by omega), if_neg (by simp), if_pos (by simp; omega)]; exact congrArg _ (Fin.ext (by simp only [fin]; omega))
  | kreg n =>
    have hn : (BitVec.ofNat 8 (64 + n.val)).toNat = 64 + n.val := by rw [BitVec.toNat_ofNat]; omega
    have := n.isLt
    have hf : f = .thread := by simpa [Opd.fits] using h
    subst hf
    simp only [opdOf, Opd.code, hn]
    rw [if_neg (by omega), if_neg (by omega), if_neg (by simp), if_neg (by simp)]; exact congrArg _ (Fin.ext (by simp only [fin]; omega))
  | imm n =>
    have hn : (BitVec.ofNat 8 (224 + n.val)).toNat = 224 + n.val := by rw [BitVec.toNat_ofNat]; omega
    have := n.isLt
    simp only [opdOf, Opd.code, hn]
    rw [if_neg (by omega), if_pos (by omega)]; exact congrArg _ (Fin.ext (by simp only [fin]; omega))

theorem Opd.isReg_fits {f : Form} {regs : Nat} {o : Opd} (h : o.isReg f regs = true) : o.fits f = true := by
  cases o <;> simp_all [Opd.isReg, Opd.fits]
theorem Opd.isDst_fits {f : Form} {regs : Nat} {o : Opd} (h : o.isDst f regs = true) : o.fits f = true := by
  cases o <;> simp_all [Opd.isDst, Opd.fits]
theorem Opd.isSrc_fits {f : Form} {regs : Nat} {t : Ty} {o : Opd} (h : o.isSrc f regs t = true) : o.fits f = true := by
  cases o <;> simp_all [Opd.isSrc, Opd.isReg, Opd.fits]
theorem Opd.isRegC_fits {f : Form} {regs : Nat} {o : Opd} (h : o.isRegC f regs = true) : o.fits f = true := by
  cases o <;> simp_all [Opd.isRegC, Opd.isReg, Opd.fits]
theorem Opd.isGroup_fits {f : Form} {regs m lo n : Nat} {o : Opd} (h : o.isGroup regs m lo n = true) : o.fits f = true := by
  cases o <;> simp_all [Opd.isGroup, Opd.fits]
theorem Opd.isPair_fits {f : Form} {regs : Nat} {b : Bool} {o : Opd} (h : o.isPair f regs b = true) : o.fits f = true := by
  cases o <;> simp_all [Opd.isPair, Opd.fits]
theorem Opd.isVec_fits {o : Opd} (h : o.isVec = true) : o.fits .bundle = true := by
  cases o <;> simp_all [Opd.isVec, Opd.fits]
theorem Opd.isAcc_fits {o : Opd} (h : o.isAcc = true) : o.fits .bundle = true := by
  cases o <;> simp_all [Opd.isAcc, Opd.fits]
theorem Opd.isVSrc_fits {t : Ty} {o : Opd} (h : o.isVSrc t = true) : o.fits .bundle = true := by
  cases o <;> simp_all [Opd.isVSrc, Opd.fits]

theorem need_some {α : Type} {chk : Nat} {x : Option α} {dflt v : α} {k : α → Parsed} (h : x = some v) : need chk x dflt k = k v := by
  subst h; rfl
theorem bit_b2n {n i : Nat} {h : Bool} (e : n / 2 ^ i % 2 = b2n h) : bit n i = h := by
  cases h <;> simp_all [bit, b2n]
theorem b2n_lt (h : Bool) : b2n h < 2 := by cases h <;> decide

theorem mod12 {x : Nat} (h : x < 4096) : (BitVec.ofNat 12 x).toNat = x := by simp; omega

theorem Ty.code_lt (t : Ty) : t.code < 32 := by cases t <;> decide
theorem VW.code_lt (t : VW) : t.code < 3 := by cases t <;> decide
theorem Scope.code_lt (t : Scope) : t.code < 7 := by cases t <;> decide
theorem Ord.code_lt (t : Ord) : t.code < 4 := by cases t <;> decide
theorem FpTy.code_lt (t : FpTy) : t.code < 3 := by cases t <;> decide
theorem tyOf_code (t : Ty) : tyOf t.code = some t := by cases t <;> rfl
theorem vwOf_code (t : VW) : vwOf t.code = some t := by cases t <;> rfl
theorem scopeOf_code (t : Scope) : scopeOf t.code = some t := by cases t <;> rfl
theorem ordOf_code (t : Ord) : ordOf t.code = t := by cases t <;> rfl
theorem fpOf_code (t : FpTy) : fpOf t.code = some t := by cases t <;> rfl

theorem VHdr.mod_fields (v : VHdr) :
    v.mod < 4096 ∧ bit v.mod 11 = v.h ∧ bits v.mod 10 9 = v.w.code ∧ bits v.mod 8 6 = v.p.val ∧ bit v.mod 5 = v.sat ∧ bits v.mod 4 0 = v.ty.code := by
  obtain ⟨h, w, p, sat, ty⟩ := v
  have := b2n_lt h; have := b2n_lt sat; have := ty.code_lt; have := w.code_lt; have := p.isLt
  simp only [VHdr.mod]
  refine ⟨by omega, bit_b2n (by omega), by simp only [bits]; omega, by simp only [bits]; omega, bit_b2n (by omega), by simp only [bits]; omega⟩


theorem ExtTy.code_lt (t : ExtTy) : t.code < 8 := by cases t <;> decide
theorem SgnMode.code_lt (t : SgnMode) : t.code < 4 := by cases t <;> decide
theorem PsetMode.code_lt (t : PsetMode) : t.code < 4 := by cases t <;> decide
theorem PlogOp.code_lt (t : PlogOp) : t.code < 8 := by cases t <;> decide
theorem CmpC.code_lt (t : CmpC) : t.code < 8 := by cases t <;> decide
theorem CpyDir.code_lt (t : CpyDir) : t.code < 4 := by cases t <;> decide
theorem afCode_cases (t : FpTy) : afCode t = 32 ∨ afCode t = 16 ∨ afCode t = 24 := by cases t <;> decide
theorem extOf_code (t : ExtTy) : extOf t.code = some t := by cases t <;> rfl
theorem sgnOf_code (t : SgnMode) : sgnOf t.code = t := by cases t <;> rfl
theorem psetOf_code (t : PsetMode) : psetOf t.code = some t := by cases t <;> rfl
theorem plogOf_code (t : PlogOp) : plogOf t.code = some t := by cases t <;> rfl
theorem cmpOf_code (t : CmpC) : cmpOf t.code = t := by cases t <;> rfl
theorem dirOf_code (t : CpyDir) : dirOf t.code = t := by cases t <;> rfl
theorem afOf_code (t : FpTy) : afOf (afCode t / 8) = some t := by cases t <;> rfl

theorem vh_some {m : Nat} {v : VHdr} (e : m = v.mod) (k : VHdr → Parsed) :
    (need 0x09 (vwOf (bits m 10 9)) .w256 fun w => need 0x0B (tyOf (bits m 4 0)) .i8 fun t =>
      k ⟨bit m 11, w, fin 8 (bits m 8 6), bit m 5, t⟩) = k v := by
  obtain ⟨h0, h1, h2, h3, h4, h5⟩ := v.mod_fields
  subst e
  rw [h1, h2, h3, h4, h5, need_some (vwOf_code _), need_some (tyOf_code _), fin_val]
theorem vm_some {m x : Nat} {v : VMod} (e : m = v.mod + x) (hx : x < 64) (k : VMod → Parsed) :
    (need 0x0D (vwOf (bits m 10 9)) .w256 fun w => k ⟨bit m 11, w, fin 8 (bits m 8 6)⟩) = k v := by
  obtain ⟨h, w, p⟩ := v
  have := b2n_lt h; have := w.code_lt; have := p.isLt
  simp only [VMod.mod] at e
  rw [need_some (v := w) (by rw [show bits m 10 9 = w.code by simp only [bits]; omega]; exact vwOf_code _)]
  rw [show bit m 11 = h from bit_b2n (by omega), show fin 8 (bits m 8 6) = p from Fin.ext (by simp only [fin, bits]; omega)]
theorem sc_some {n : Nat} {s : Scope} (e : n = s.code) (k : Scope → Parsed) : need 0x0D (scopeOf n) .thread k = k s := by
  subst e; exact need_some (scopeOf_code _)
theorem fp_some {n : Nat} {t : FpTy} (e : n = t.code) (k : FpTy → Parsed) : need 0x0B (fpOf n) .f32 k = k t := by
  subst e; exact need_some (fpOf_code _)
theorem at_some {n x : Nat} {m : AtMod} (e : n = m.mod + x) (hx : x = 0 ∨ x = 8) (k : AtMod → Parsed) :
    (need 0x0D (scopeOf (bits n 10 8)) .thread fun s =>
      need 0x0D (if bits n 5 4 = 2 then some false else if bits n 5 4 = 3 then some true else none) false fun w =>
        k ⟨s, ordOf (bits n 7 6), w, bit n 2⟩) = k m := by
  obtain ⟨s, o, w, l⟩ := m
  have := b2n_lt l; have := s.code_lt; have := o.code_lt
  have hw : (if w = true then 48 else 32 : Nat) = 32 + 16 * b2n w := by cases w <;> rfl
  have := b2n_lt w
  simp only [AtMod.mod, hw] at e
  rw [need_some (v := s) (by rw [show bits n 10 8 = s.code by simp only [bits]; omega]; exact scopeOf_code _)]
  rw [need_some (v := w) (by
    have : bits n 5 4 = 2 + b2n w := by simp only [bits]; omega
    rw [this]; cases w <;> rfl)]
  rw [show bits n 7 6 = o.code by simp only [bits]; omega, ordOf_code, show bit n 2 = l from bit_b2n (by omega)]
theorem low_of {bound n : Nat} {p : Parsed} (h : n < bound) : low bound n p = p := if_pos h

/-- A slot op that its parse gives back decodes to the operation it encodes: no check of R77 fails. -/
theorem decodeOp_of_parse {f : Form} {regs nsem slot : Nat} {i : Instr} {r : RawOp} (hw : WellFormed f regs nsem i = true)
    (he : encode i = some r) (hs : f = .bundle → slotClass slot = r.opc.toNat / 64 ∧ i.slotOk slot = true)
    (hp : parse f r = some (ok i)) (hh : r.opc.toNat < 64 ∨ (bit r.mod.toNat 11 = i.held ∧ (i.held = true → i.holdOk = true))) :
    decodeOp f regs nsem slot r = .ok i := by
  simp only [WellFormed, Bool.and_eq_true] at hw
  obtain ⟨⟨⟨⟨⟨⟨h1, h2⟩, h3⟩, h4⟩, h5⟩, h6⟩, h7⟩ := hw
  have hb : holdBad f r i = false := by
    unfold holdBad
    rcases hh with hh | ⟨hh, hk⟩
    · simp; omega
    · rw [hh]; cases hi : i.held <;> cases f <;> simp_all
  have hc : (f == .bundle && r.opc.toNat / 64 != slotClass slot) = false := by
    cases f
    · simp [(hs rfl).1]
    · rfl
  have h07 : (f == .bundle && !i.slotOk slot) = false := by
    cases f
    · simp [(hs rfl).2]
    · rfl
  unfold decodeOp opFails
  simp only [hc, hp, ok, h1, hb, h07, h3, h4, h5, h6, h7, he]
  cases isNop r.opc
  · simp only [beq_self_eq_true, Bool.or_true, Bool.false_eq_true, Bool.not_true, if_true, if_false]
    rfl
  · rfl


theorem WellFormed.parts {f : Form} {regs nsem : Nat} {i : Instr} (h : WellFormed f regs nsem i = true) : i.formOk f = true ∧ i.kindsOk f regs = true := by
  simp only [WellFormed, Bool.and_eq_true] at h; exact ⟨h.1.1.1.1.1.1, h.1.1.1.2⟩
theorem Opd.regOrZero_fits {f : Form} {regs : Nat} {o : Opd} (h : (o.isReg f regs || o == .imm 0) = true) : o.fits f = true := by
  cases o <;> simp_all [Opd.isReg, Opd.fits]
theorem parse_tlbinv (f : Form) (d a b : Byte) (m : BitVec 12) : parse f ⟨0xE7, d, a, b, m⟩ = some (match bits m.toNat 1 0 with
      | 0 => ok (.tlbinvVa (opdOf f a) (opdOf f b))
      | 1 => ok (.tlbinvAsid (opdOf f b))
      | 2 => ok .tlbinvAll
      | _ => (.tlbinvAll, [0x0D])) := rfl
theorem zero_ok {c : Nat} {b : Byte} {p : Parsed} (h : b = 0) : zero c b p = p := by subst h; rfl
theorem byteOf {n : Nat} (h : n < 256) : (BitVec.ofNat 8 n).toNat = n := by rw [BitVec.toNat_ofNat]; omega
theorem condOf_code {f : Form} {regs : Nat} {c : Cond} (h : (match c with
    | .z a | .nz a | .lt a | .ge a => a.isRegC f regs
    | .p _ | .np _ => true) = true) : condOf (BitVec.ofNat 8 c.d).toNat (opdOf f c.a) = some c ∧ c.d < 256 ∧ c.d % 8 ≠ 6 := by
  cases c with
  | z a => exact ⟨by rw [Cond.a, opdOf_code (Opd.isRegC_fits h)]; rfl, by show (_ : Nat) < 256; simp [Cond.d], by simp [Cond.d]⟩
  | nz a => exact ⟨by rw [Cond.a, opdOf_code (Opd.isRegC_fits h)]; rfl, by show (_ : Nat) < 256; simp [Cond.d], by simp [Cond.d]⟩
  | lt a => exact ⟨by rw [Cond.a, opdOf_code (Opd.isRegC_fits h)]; rfl, by show (_ : Nat) < 256; simp [Cond.d], by simp [Cond.d]⟩
  | ge a => exact ⟨by rw [Cond.a, opdOf_code (Opd.isRegC_fits h)]; rfl, by show (_ : Nat) < 256; simp [Cond.d], by simp [Cond.d]⟩
  | p n =>
      have := n.isLt
      have hd : (BitVec.ofNat 8 (Cond.d (.p n))).toNat = 4 + 8 * n.val := byteOf (by simp only [Cond.d]; omega)
      refine ⟨?_, by simp only [Cond.d]; omega, by simp only [Cond.d]; omega⟩
      rw [hd]; unfold condOf
      rw [show (4 + 8 * n.val) % 8 = 4 by omega]
      exact congrArg (fun k => some (Cond.p k)) (Fin.ext (by simp only [fin]; omega))
  | np n =>
      have := n.isLt
      have hd : (BitVec.ofNat 8 (Cond.d (.np n))).toNat = 5 + 8 * n.val := byteOf (by simp only [Cond.d]; omega)
      refine ⟨?_, by simp only [Cond.d]; omega, by simp only [Cond.d]; omega⟩
      rw [hd]; unfold condOf
      rw [show (5 + 8 * n.val) % 8 = 5 by omega]
      exact congrArg (fun k => some (Cond.np k)) (Fin.ext (by simp only [fin]; omega))
theorem ord_field {n : Nat} {o : Ord} (e : bits n 7 6 = o.code) : ordOf (bits n 7 6) = o := e ▸ ordOf_code o
theorem imm20 (x : BitVec 20) : x.extractLsb' 12 8 ++ BitVec.ofNat 12 (x.toNat % 4096) = x := by
  have := x.isLt
  apply BitVec.eq_of_toNat_eq
  rw [BitVec.toNat_append, BitVec.extractLsb'_toNat, BitVec.toNat_ofNat, Nat.shiftRight_eq_div_pow, ← Nat.shiftLeft_add_eq_or_of_lt (by omega), Nat.shiftLeft_eq]
  omega
theorem off19 (x : BitVec 19) : x.extractLsb' 11 8 ++ (BitVec.ofNat 12 (x.toNat % 2048)).extractLsb' 0 11 = x := by
  have := x.isLt
  apply BitVec.eq_of_toNat_eq
  rw [BitVec.toNat_append, BitVec.extractLsb'_toNat, BitVec.extractLsb'_toNat, BitVec.toNat_ofNat, Nat.shiftRight_eq_div_pow, Nat.shiftRight_eq_div_pow, ← Nat.shiftLeft_add_eq_or_of_lt (by omega), Nat.shiftLeft_eq]
  omega
theorem bit_low {n : Nat} (h : n < 2048) : bit n 11 = false := bit_b2n (h := false) (by show _ = 0; omega)
theorem VMod.mod_mod (v : VMod) : v.mod % 64 = 0 := by simp only [VMod.mod]; omega
theorem AtMod.mod_lt (m : AtMod) : m.mod < 2048 ∧ m.mod % 16 < 8 := by
  obtain ⟨s, o, w, l⟩ := m
  have := b2n_lt l; have := s.code_lt; have := o.code_lt
  simp only [AtMod.mod]; cases w <;> simp only [if_true, Bool.false_eq_true, if_false] <;> omega
theorem MemMod.mod_back (m : MemMod) :
    (⟨bit m.mod 11, m.scope, ordOf (bits m.mod 7 6), fin 4 (bits m.mod 5 4), bit m.mod 3, fin 8 (bits m.mod 2 0)⟩ : MemMod) = m := by
  obtain ⟨h, sc, o, z, x, sh⟩ := m
  have := b2n_lt h; have := b2n_lt x; have := sc.code_lt; have := o.code_lt; have := z.isLt; have := sh.isLt
  simp only [MemMod.mod, MemMod.mk.injEq, true_and]
  refine ⟨bit_b2n (by omega), ?_, Fin.ext (by simp only [fin, bits]; omega), bit_b2n (by omega), Fin.ext (by simp only [fin, bits]; omega)⟩
  rw [show bits _ 7 6 = o.code by simp only [bits]; omega, ordOf_code]


end Sys2Proof
end

