-- ==== Sys2Proof/Laws/PerInstr.lean ====
section
/-! SUPPORT. The round trip of the encoding, one lemma per constructor of Instr; a device event has no encoding. -/

-- One thread: many threads' stacks outgrow the memory the check gives.
set_option Elab.async false

namespace Sys2Proof

/-- Decoding of the encoded bits of a well-formed operation gives the operation back, in each form and in every slot that takes it. -/
def Laws.RoundTrip.Statement (i : Instr) : Prop :=
  ∀ (f : Form) (regs nsem slot : Nat) (r : RawOp), WellFormed f regs nsem i = true → encode i = some r →
    (f = .bundle → slotClass slot = r.opc.toNat / 64 ∧ i.slotOk slot = true) →
    decodeOp f regs nsem slot (RawOp.ofBits r.toBits) = .ok i

theorem Laws.RoundTrip.nop  : Laws.RoundTrip.Statement (.nop) := by
  intro f regs nsem slot r hw he hs
  rw [RawOp.ofBits_toBits]
  obtain ⟨hf, hk⟩ := WellFormed.parts hw
  dsimp only [Instr.formOk, Instr.kindsOk] at hf hk
  have hm : (BitVec.ofNat 12 (0)).toNat = 0 := mod12 (by omega)
  obtain rfl := Option.some.inj (show some _ = some r from he)
  refine decodeOp_of_parse hw he hs ?_ ?_
  · show some (ok (.nop)) = _
    rfl
  · exact .inl (show (BitVec.ofNat 8 0x00).toNat < 64 by decide)

theorem Laws.RoundTrip.add (d : Opd) (a : Opd) (b : Opd) : Laws.RoundTrip.Statement (.add d a b) := by
  intro f regs nsem slot r hw he hs
  rw [RawOp.ofBits_toBits]
  obtain ⟨hf, hk⟩ := WellFormed.parts hw
  dsimp only [Instr.formOk, Instr.kindsOk] at hf hk
  (try simp only [Bool.and_eq_true] at hk)
  have e_d : opdOf f d.code = d := opdOf_code (Opd.isDst_fits hk.1.1)
  have e_a : opdOf f a.code = a := opdOf_code (Opd.isSrc_fits hk.1.2)
  have e_b : opdOf f b.code = b := opdOf_code (Opd.isSrc_fits hk.2)
  have hm : (BitVec.ofNat 12 (0)).toNat = 0 := mod12 (by omega)
  obtain rfl := Option.some.inj (show some _ = some r from he)
  refine decodeOp_of_parse hw he hs ?_ ?_
  · show some (ok (.add (opdOf f d.code) (opdOf f a.code) (opdOf f b.code))) = _
    simp only [e_d, e_a, e_b]
  · exact .inl (show (BitVec.ofNat 8 0x01).toNat < 64 by decide)

theorem Laws.RoundTrip.sub (d : Opd) (a : Opd) (b : Opd) : Laws.RoundTrip.Statement (.sub d a b) := by
  intro f regs nsem slot r hw he hs
  rw [RawOp.ofBits_toBits]
  obtain ⟨hf, hk⟩ := WellFormed.parts hw
  dsimp only [Instr.formOk, Instr.kindsOk] at hf hk
  (try simp only [Bool.and_eq_true] at hk)
  have e_d : opdOf f d.code = d := opdOf_code (Opd.isDst_fits hk.1.1)
  have e_a : opdOf f a.code = a := opdOf_code (Opd.isSrc_fits hk.1.2)
  have e_b : opdOf f b.code = b := opdOf_code (Opd.isSrc_fits hk.2)
  have hm : (BitVec.ofNat 12 (0)).toNat = 0 := mod12 (by omega)
  obtain rfl := Option.some.inj (show some _ = some r from he)
  refine decodeOp_of_parse hw he hs ?_ ?_
  · show some (ok (.sub (opdOf f d.code) (opdOf f a.code) (opdOf f b.code))) = _
    simp only [e_d, e_a, e_b]
  · exact .inl (show (BitVec.ofNat 8 0x02).toNat < 64 by decide)

theorem Laws.RoundTrip.addi (d : Opd) (a : Opd) (imm : BitVec 20) : Laws.RoundTrip.Statement (.addi d a imm) := by
  intro f regs nsem slot r hw he hs
  rw [RawOp.ofBits_toBits]
  obtain ⟨hf, hk⟩ := WellFormed.parts hw
  dsimp only [Instr.formOk, Instr.kindsOk] at hf hk
  (try simp only [Bool.and_eq_true] at hk)
  have e_d : opdOf f d.code = d := opdOf_code (Opd.isDst_fits hk.1)
  have e_a : opdOf f a.code = a := opdOf_code (Opd.isSrc_fits hk.2)
  have := imm.isLt
  have hm : (BitVec.ofNat 12 ((imm.toNat % 4096))).toNat = (imm.toNat % 4096) := mod12 (by omega)
  obtain rfl := Option.some.inj (show some _ = some r from he)
  refine decodeOp_of_parse hw he hs ?_ ?_
  · have q_imm : ((imm.extractLsb' 12 8) ++ (BitVec.ofNat 12 ((imm.toNat % 4096)))) = imm := imm20 imm
    show some (ok (.addi (opdOf f d.code) (opdOf f a.code) ((imm.extractLsb' 12 8) ++ (BitVec.ofNat 12 ((imm.toNat % 4096)))))) = _
    simp only [e_d, e_a, q_imm]
  · exact .inl (show (BitVec.ofNat 8 0x03).toNat < 64 by decide)

theorem Laws.RoundTrip.lih (d : Opd) (a : Opd) (imm : BitVec 20) : Laws.RoundTrip.Statement (.lih d a imm) := by
  intro f regs nsem slot r hw he hs
  rw [RawOp.ofBits_toBits]
  obtain ⟨hf, hk⟩ := WellFormed.parts hw
  dsimp only [Instr.formOk, Instr.kindsOk] at hf hk
  (try simp only [Bool.and_eq_true] at hk)
  have e_d : opdOf f d.code = d := opdOf_code (Opd.isDst_fits hk.1)
  have e_a : opdOf f a.code = a := opdOf_code (Opd.isSrc_fits hk.2)
  have := imm.isLt
  have hm : (BitVec.ofNat 12 ((imm.toNat % 4096))).toNat = (imm.toNat % 4096) := mod12 (by omega)
  obtain rfl := Option.some.inj (show some _ = some r from he)
  refine decodeOp_of_parse hw he hs ?_ ?_
  · have q_imm : ((imm.extractLsb' 12 8) ++ (BitVec.ofNat 12 ((imm.toNat % 4096)))) = imm := imm20 imm
    show some (ok (.lih (opdOf f d.code) (opdOf f a.code) ((imm.extractLsb' 12 8) ++ (BitVec.ofNat 12 ((imm.toNat % 4096)))))) = _
    simp only [e_d, e_a, q_imm]
  · exact .inl (show (BitVec.ofNat 8 0x04).toNat < 64 by decide)

theorem Laws.RoundTrip.mul (d : Opd) (a : Opd) (b : Opd) : Laws.RoundTrip.Statement (.mul d a b) := by
  intro f regs nsem slot r hw he hs
  rw [RawOp.ofBits_toBits]
  obtain ⟨hf, hk⟩ := WellFormed.parts hw
  dsimp only [Instr.formOk, Instr.kindsOk] at hf hk
  (try simp only [Bool.and_eq_true] at hk)
  have e_d : opdOf f d.code = d := opdOf_code (Opd.isDst_fits hk.1.1)
  have e_a : opdOf f a.code = a := opdOf_code (Opd.isSrc_fits hk.1.2)
  have e_b : opdOf f b.code = b := opdOf_code (Opd.isSrc_fits hk.2)
  have hm : (BitVec.ofNat 12 (0)).toNat = 0 := mod12 (by omega)
  obtain rfl := Option.some.inj (show some _ = some r from he)
  refine decodeOp_of_parse hw he hs ?_ ?_
  · show some (ok (.mul (opdOf f d.code) (opdOf f a.code) (opdOf f b.code))) = _
    simp only [e_d, e_a, e_b]
  · exact .inl (show (BitVec.ofNat 8 0x05).toNat < 64 by decide)

theorem Laws.RoundTrip.mulh (d : Opd) (a : Opd) (b : Opd) : Laws.RoundTrip.Statement (.mulh d a b) := by
  intro f regs nsem slot r hw he hs
  rw [RawOp.ofBits_toBits]
  obtain ⟨hf, hk⟩ := WellFormed.parts hw
  dsimp only [Instr.formOk, Instr.kindsOk] at hf hk
  (try simp only [Bool.and_eq_true] at hk)
  have e_d : opdOf f d.code = d := opdOf_code (Opd.isDst_fits hk.1.1)
  have e_a : opdOf f a.code = a := opdOf_code (Opd.isSrc_fits hk.1.2)
  have e_b : opdOf f b.code = b := opdOf_code (Opd.isSrc_fits hk.2)
  have hm : (BitVec.ofNat 12 (0)).toNat = 0 := mod12 (by omega)
  obtain rfl := Option.some.inj (show some _ = some r from he)
  refine decodeOp_of_parse hw he hs ?_ ?_
  · show some (ok (.mulh (opdOf f d.code) (opdOf f a.code) (opdOf f b.code))) = _
    simp only [e_d, e_a, e_b]
  · exact .inl (show (BitVec.ofNat 8 0x06).toNat < 64 by decide)

theorem Laws.RoundTrip.mulhn (d : Opd) (a : Opd) (b : Opd) : Laws.RoundTrip.Statement (.mulhn d a b) := by
  intro f regs nsem slot r hw he hs
  rw [RawOp.ofBits_toBits]
  obtain ⟨hf, hk⟩ := WellFormed.parts hw
  dsimp only [Instr.formOk, Instr.kindsOk] at hf hk
  (try simp only [Bool.and_eq_true] at hk)
  have e_d : opdOf f d.code = d := opdOf_code (Opd.isDst_fits hk.1.1)
  have e_a : opdOf f a.code = a := opdOf_code (Opd.isSrc_fits hk.1.2)
  have e_b : opdOf f b.code = b := opdOf_code (Opd.isSrc_fits hk.2)
  have hm : (BitVec.ofNat 12 (0)).toNat = 0 := mod12 (by omega)
  obtain rfl := Option.some.inj (show some _ = some r from he)
  refine decodeOp_of_parse hw he hs ?_ ?_
  · show some (ok (.mulhn (opdOf f d.code) (opdOf f a.code) (opdOf f b.code))) = _
    simp only [e_d, e_a, e_b]
  · exact .inl (show (BitVec.ofNat 8 0x07).toNat < 64 by decide)

theorem Laws.RoundTrip.div (d : Opd) (a : Opd) (b : Opd) : Laws.RoundTrip.Statement (.div d a b) := by
  intro f regs nsem slot r hw he hs
  rw [RawOp.ofBits_toBits]
  obtain ⟨hf, hk⟩ := WellFormed.parts hw
  dsimp only [Instr.formOk, Instr.kindsOk] at hf hk
  (try simp only [Bool.and_eq_true] at hk)
  have e_d : opdOf f d.code = d := opdOf_code (Opd.isDst_fits hk.1.1)
  have e_a : opdOf f a.code = a := opdOf_code (Opd.isSrc_fits hk.1.2)
  have e_b : opdOf f b.code = b := opdOf_code (Opd.isSrc_fits hk.2)
  have hm : (BitVec.ofNat 12 (0)).toNat = 0 := mod12 (by omega)
  obtain rfl := Option.some.inj (show some _ = some r from he)
  refine decodeOp_of_parse hw he hs ?_ ?_
  · show some (ok (.div (opdOf f d.code) (opdOf f a.code) (opdOf f b.code))) = _
    simp only [e_d, e_a, e_b]
  · exact .inl (show (BitVec.ofNat 8 0x08).toNat < 64 by decide)

theorem Laws.RoundTrip.divn (d : Opd) (a : Opd) (b : Opd) : Laws.RoundTrip.Statement (.divn d a b) := by
  intro f regs nsem slot r hw he hs
  rw [RawOp.ofBits_toBits]
  obtain ⟨hf, hk⟩ := WellFormed.parts hw
  dsimp only [Instr.formOk, Instr.kindsOk] at hf hk
  (try simp only [Bool.and_eq_true] at hk)
  have e_d : opdOf f d.code = d := opdOf_code (Opd.isDst_fits hk.1.1)
  have e_a : opdOf f a.code = a := opdOf_code (Opd.isSrc_fits hk.1.2)
  have e_b : opdOf f b.code = b := opdOf_code (Opd.isSrc_fits hk.2)
  have hm : (BitVec.ofNat 12 (0)).toNat = 0 := mod12 (by omega)
  obtain rfl := Option.some.inj (show some _ = some r from he)
  refine decodeOp_of_parse hw he hs ?_ ?_
  · show some (ok (.divn (opdOf f d.code) (opdOf f a.code) (opdOf f b.code))) = _
    simp only [e_d, e_a, e_b]
  · exact .inl (show (BitVec.ofNat 8 0x09).toNat < 64 by decide)

theorem Laws.RoundTrip.rem (d : Opd) (a : Opd) (b : Opd) : Laws.RoundTrip.Statement (.rem d a b) := by
  intro f regs nsem slot r hw he hs
  rw [RawOp.ofBits_toBits]
  obtain ⟨hf, hk⟩ := WellFormed.parts hw
  dsimp only [Instr.formOk, Instr.kindsOk] at hf hk
  (try simp only [Bool.and_eq_true] at hk)
  have e_d : opdOf f d.code = d := opdOf_code (Opd.isDst_fits hk.1.1)
  have e_a : opdOf f a.code = a := opdOf_code (Opd.isSrc_fits hk.1.2)
  have e_b : opdOf f b.code = b := opdOf_code (Opd.isSrc_fits hk.2)
  have hm : (BitVec.ofNat 12 (0)).toNat = 0 := mod12 (by omega)
  obtain rfl := Option.some.inj (show some _ = some r from he)
  refine decodeOp_of_parse hw he hs ?_ ?_
  · show some (ok (.rem (opdOf f d.code) (opdOf f a.code) (opdOf f b.code))) = _
    simp only [e_d, e_a, e_b]
  · exact .inl (show (BitVec.ofNat 8 0x0A).toNat < 64 by decide)

theorem Laws.RoundTrip.remn (d : Opd) (a : Opd) (b : Opd) : Laws.RoundTrip.Statement (.remn d a b) := by
  intro f regs nsem slot r hw he hs
  rw [RawOp.ofBits_toBits]
  obtain ⟨hf, hk⟩ := WellFormed.parts hw
  dsimp only [Instr.formOk, Instr.kindsOk] at hf hk
  (try simp only [Bool.and_eq_true] at hk)
  have e_d : opdOf f d.code = d := opdOf_code (Opd.isDst_fits hk.1.1)
  have e_a : opdOf f a.code = a := opdOf_code (Opd.isSrc_fits hk.1.2)
  have e_b : opdOf f b.code = b := opdOf_code (Opd.isSrc_fits hk.2)
  have hm : (BitVec.ofNat 12 (0)).toNat = 0 := mod12 (by omega)
  obtain rfl := Option.some.inj (show some _ = some r from he)
  refine decodeOp_of_parse hw he hs ?_ ?_
  · show some (ok (.remn (opdOf f d.code) (opdOf f a.code) (opdOf f b.code))) = _
    simp only [e_d, e_a, e_b]
  · exact .inl (show (BitVec.ofNat 8 0x0B).toNat < 64 by decide)

theorem Laws.RoundTrip.and (d : Opd) (a : Opd) (b : Opd) : Laws.RoundTrip.Statement (.and d a b) := by
  intro f regs nsem slot r hw he hs
  rw [RawOp.ofBits_toBits]
  obtain ⟨hf, hk⟩ := WellFormed.parts hw
  dsimp only [Instr.formOk, Instr.kindsOk] at hf hk
  (try simp only [Bool.and_eq_true] at hk)
  have e_d : opdOf f d.code = d := opdOf_code (Opd.isDst_fits hk.1.1)
  have e_a : opdOf f a.code = a := opdOf_code (Opd.isSrc_fits hk.1.2)
  have e_b : opdOf f b.code = b := opdOf_code (Opd.isSrc_fits hk.2)
  have hm : (BitVec.ofNat 12 (0)).toNat = 0 := mod12 (by omega)
  obtain rfl := Option.some.inj (show some _ = some r from he)
  refine decodeOp_of_parse hw he hs ?_ ?_
  · show some (ok (.and (opdOf f d.code) (opdOf f a.code) (opdOf f b.code))) = _
    simp only [e_d, e_a, e_b]
  · exact .inl (show (BitVec.ofNat 8 0x0C).toNat < 64 by decide)

theorem Laws.RoundTrip.or (d : Opd) (a : Opd) (b : Opd) : Laws.RoundTrip.Statement (.or d a b) := by
  intro f regs nsem slot r hw he hs
  rw [RawOp.ofBits_toBits]
  obtain ⟨hf, hk⟩ := WellFormed.parts hw
  dsimp only [Instr.formOk, Instr.kindsOk] at hf hk
  (try simp only [Bool.and_eq_true] at hk)
  have e_d : opdOf f d.code = d := opdOf_code (Opd.isDst_fits hk.1.1)
  have e_a : opdOf f a.code = a := opdOf_code (Opd.isSrc_fits hk.1.2)
  have e_b : opdOf f b.code = b := opdOf_code (Opd.isSrc_fits hk.2)
  have hm : (BitVec.ofNat 12 (0)).toNat = 0 := mod12 (by omega)
  obtain rfl := Option.some.inj (show some _ = some r from he)
  refine decodeOp_of_parse hw he hs ?_ ?_
  · show some (ok (.or (opdOf f d.code) (opdOf f a.code) (opdOf f b.code))) = _
    simp only [e_d, e_a, e_b]
  · exact .inl (show (BitVec.ofNat 8 0x0D).toNat < 64 by decide)

theorem Laws.RoundTrip.xor (d : Opd) (a : Opd) (b : Opd) : Laws.RoundTrip.Statement (.xor d a b) := by
  intro f regs nsem slot r hw he hs
  rw [RawOp.ofBits_toBits]
  obtain ⟨hf, hk⟩ := WellFormed.parts hw
  dsimp only [Instr.formOk, Instr.kindsOk] at hf hk
  (try simp only [Bool.and_eq_true] at hk)
  have e_d : opdOf f d.code = d := opdOf_code (Opd.isDst_fits hk.1.1)
  have e_a : opdOf f a.code = a := opdOf_code (Opd.isSrc_fits hk.1.2)
  have e_b : opdOf f b.code = b := opdOf_code (Opd.isSrc_fits hk.2)
  have hm : (BitVec.ofNat 12 (0)).toNat = 0 := mod12 (by omega)
  obtain rfl := Option.some.inj (show some _ = some r from he)
  refine decodeOp_of_parse hw he hs ?_ ?_
  · show some (ok (.xor (opdOf f d.code) (opdOf f a.code) (opdOf f b.code))) = _
    simp only [e_d, e_a, e_b]
  · exact .inl (show (BitVec.ofNat 8 0x0E).toNat < 64 by decide)

theorem Laws.RoundTrip.andi (d : Opd) (a : Opd) (imm : BitVec 12) : Laws.RoundTrip.Statement (.andi d a imm) := by
  intro f regs nsem slot r hw he hs
  rw [RawOp.ofBits_toBits]
  obtain ⟨hf, hk⟩ := WellFormed.parts hw
  dsimp only [Instr.formOk, Instr.kindsOk] at hf hk
  (try simp only [Bool.and_eq_true] at hk)
  have e_d : opdOf f d.code = d := opdOf_code (Opd.isDst_fits hk.1)
  have e_a : opdOf f a.code = a := opdOf_code (Opd.isSrc_fits hk.2)
  have := imm.isLt
  have hm : (BitVec.ofNat 12 (imm.toNat)).toNat = imm.toNat := mod12 (by omega)
  obtain rfl := Option.some.inj (show some _ = some r from he)
  refine decodeOp_of_parse hw he hs ?_ ?_
  · have q_imm : (BitVec.ofNat 12 (imm.toNat)) = imm := by apply BitVec.eq_of_toNat_eq; rw [hm]
    show some (ok (.andi (opdOf f d.code) (opdOf f a.code) (BitVec.ofNat 12 (imm.toNat)))) = _
    simp only [e_d, e_a, q_imm]
  · exact .inl (show (BitVec.ofNat 8 0x0F).toNat < 64 by decide)

theorem Laws.RoundTrip.ori (d : Opd) (a : Opd) (imm : BitVec 12) : Laws.RoundTrip.Statement (.ori d a imm) := by
  intro f regs nsem slot r hw he hs
  rw [RawOp.ofBits_toBits]
  obtain ⟨hf, hk⟩ := WellFormed.parts hw
  dsimp only [Instr.formOk, Instr.kindsOk] at hf hk
  (try simp only [Bool.and_eq_true] at hk)
  have e_d : opdOf f d.code = d := opdOf_code (Opd.isDst_fits hk.1)
  have e_a : opdOf f a.code = a := opdOf_code (Opd.isSrc_fits hk.2)
  have := imm.isLt
  have hm : (BitVec.ofNat 12 (imm.toNat)).toNat = imm.toNat := mod12 (by omega)
  obtain rfl := Option.some.inj (show some _ = some r from he)
  refine decodeOp_of_parse hw he hs ?_ ?_
  · have q_imm : (BitVec.ofNat 12 (imm.toNat)) = imm := by apply BitVec.eq_of_toNat_eq; rw [hm]
    show some (ok (.ori (opdOf f d.code) (opdOf f a.code) (BitVec.ofNat 12 (imm.toNat)))) = _
    simp only [e_d, e_a, q_imm]
  · exact .inl (show (BitVec.ofNat 8 0x10).toNat < 64 by decide)

theorem Laws.RoundTrip.xori (d : Opd) (a : Opd) (imm : BitVec 12) : Laws.RoundTrip.Statement (.xori d a imm) := by
  intro f regs nsem slot r hw he hs
  rw [RawOp.ofBits_toBits]
  obtain ⟨hf, hk⟩ := WellFormed.parts hw
  dsimp only [Instr.formOk, Instr.kindsOk] at hf hk
  (try simp only [Bool.and_eq_true] at hk)
  have e_d : opdOf f d.code = d := opdOf_code (Opd.isDst_fits hk.1)
  have e_a : opdOf f a.code = a := opdOf_code (Opd.isSrc_fits hk.2)
  have := imm.isLt
  have hm : (BitVec.ofNat 12 (imm.toNat)).toNat = imm.toNat := mod12 (by omega)
  obtain rfl := Option.some.inj (show some _ = some r from he)
  refine decodeOp_of_parse hw he hs ?_ ?_
  · have q_imm : (BitVec.ofNat 12 (imm.toNat)) = imm := by apply BitVec.eq_of_toNat_eq; rw [hm]
    show some (ok (.xori (opdOf f d.code) (opdOf f a.code) (BitVec.ofNat 12 (imm.toNat)))) = _
    simp only [e_d, e_a, q_imm]
  · exact .inl (show (BitVec.ofNat 8 0x11).toNat < 64 by decide)

theorem Laws.RoundTrip.shl (d : Opd) (a : Opd) (b : Opd) : Laws.RoundTrip.Statement (.shl d a b) := by
  intro f regs nsem slot r hw he hs
  rw [RawOp.ofBits_toBits]
  obtain ⟨hf, hk⟩ := WellFormed.parts hw
  dsimp only [Instr.formOk, Instr.kindsOk] at hf hk
  (try simp only [Bool.and_eq_true] at hk)
  have e_d : opdOf f d.code = d := opdOf_code (Opd.isDst_fits hk.1.1)
  have e_a : opdOf f a.code = a := opdOf_code (Opd.isSrc_fits hk.1.2)
  have e_b : opdOf f b.code = b := opdOf_code (Opd.isSrc_fits hk.2)
  have hm : (BitVec.ofNat 12 (0)).toNat = 0 := mod12 (by omega)
  obtain rfl := Option.some.inj (show some _ = some r from he)
  refine decodeOp_of_parse hw he hs ?_ ?_
  · show some (ok (.shl (opdOf f d.code) (opdOf f a.code) (opdOf f b.code))) = _
    simp only [e_d, e_a, e_b]
  · exact .inl (show (BitVec.ofNat 8 0x12).toNat < 64 by decide)

theorem Laws.RoundTrip.shr (d : Opd) (a : Opd) (b : Opd) : Laws.RoundTrip.Statement (.shr d a b) := by
  intro f regs nsem slot r hw he hs
  rw [RawOp.ofBits_toBits]
  obtain ⟨hf, hk⟩ := WellFormed.parts hw
  dsimp only [Instr.formOk, Instr.kindsOk] at hf hk
  (try simp only [Bool.and_eq_true] at hk)
  have e_d : opdOf f d.code = d := opdOf_code (Opd.isDst_fits hk.1.1)
  have e_a : opdOf f a.code = a := opdOf_code (Opd.isSrc_fits hk.1.2)
  have e_b : opdOf f b.code = b := opdOf_code (Opd.isSrc_fits hk.2)
  have hm : (BitVec.ofNat 12 (0)).toNat = 0 := mod12 (by omega)
  obtain rfl := Option.some.inj (show some _ = some r from he)
  refine decodeOp_of_parse hw he hs ?_ ?_
  · show some (ok (.shr (opdOf f d.code) (opdOf f a.code) (opdOf f b.code))) = _
    simp only [e_d, e_a, e_b]
  · exact .inl (show (BitVec.ofNat 8 0x13).toNat < 64 by decide)

theorem Laws.RoundTrip.sra (d : Opd) (a : Opd) (b : Opd) : Laws.RoundTrip.Statement (.sra d a b) := by
  intro f regs nsem slot r hw he hs
  rw [RawOp.ofBits_toBits]
  obtain ⟨hf, hk⟩ := WellFormed.parts hw
  dsimp only [Instr.formOk, Instr.kindsOk] at hf hk
  (try simp only [Bool.and_eq_true] at hk)
  have e_d : opdOf f d.code = d := opdOf_code (Opd.isDst_fits hk.1.1)
  have e_a : opdOf f a.code = a := opdOf_code (Opd.isSrc_fits hk.1.2)
  have e_b : opdOf f b.code = b := opdOf_code (Opd.isSrc_fits hk.2)
  have hm : (BitVec.ofNat 12 (0)).toNat = 0 := mod12 (by omega)
  obtain rfl := Option.some.inj (show some _ = some r from he)
  refine decodeOp_of_parse hw he hs ?_ ?_
  · show some (ok (.sra (opdOf f d.code) (opdOf f a.code) (opdOf f b.code))) = _
    simp only [e_d, e_a, e_b]
  · exact .inl (show (BitVec.ofNat 8 0x14).toNat < 64 by decide)

theorem Laws.RoundTrip.shli (d : Opd) (a : Opd) (sh : Fin 64) : Laws.RoundTrip.Statement (.shli d a sh) := by
  intro f regs nsem slot r hw he hs
  rw [RawOp.ofBits_toBits]
  obtain ⟨hf, hk⟩ := WellFormed.parts hw
  dsimp only [Instr.formOk, Instr.kindsOk] at hf hk
  (try simp only [Bool.and_eq_true] at hk)
  have e_d : opdOf f d.code = d := opdOf_code (Opd.isDst_fits hk.1)
  have e_a : opdOf f a.code = a := opdOf_code (Opd.isSrc_fits hk.2)
  have := sh.isLt
  have hm : (BitVec.ofNat 12 (sh.val)).toNat = sh.val := mod12 (by omega)
  obtain rfl := Option.some.inj (show some _ = some r from he)
  refine decodeOp_of_parse hw he hs ?_ ?_
  · have q_sh : (fin 64 (bits (BitVec.ofNat 12 (sh.val)).toNat 5 0)) = sh := by rw [hm]; exact Fin.ext (by simp only [fin, bits]; omega)
    show some (ok (.shli (opdOf f d.code) (opdOf f a.code) (fin 64 (bits (BitVec.ofNat 12 (sh.val)).toNat 5 0)))) = _
    simp only [e_d, e_a, q_sh]
  · exact .inl (show (BitVec.ofNat 8 0x15).toNat < 64 by decide)

theorem Laws.RoundTrip.shri (d : Opd) (a : Opd) (sh : Fin 64) : Laws.RoundTrip.Statement (.shri d a sh) := by
  intro f regs nsem slot r hw he hs
  rw [RawOp.ofBits_toBits]
  obtain ⟨hf, hk⟩ := WellFormed.parts hw
  dsimp only [Instr.formOk, Instr.kindsOk] at hf hk
  (try simp only [Bool.and_eq_true] at hk)
  have e_d : opdOf f d.code = d := opdOf_code (Opd.isDst_fits hk.1)
  have e_a : opdOf f a.code = a := opdOf_code (Opd.isSrc_fits hk.2)
  have := sh.isLt
  have hm : (BitVec.ofNat 12 (sh.val)).toNat = sh.val := mod12 (by omega)
  obtain rfl := Option.some.inj (show some _ = some r from he)
  refine decodeOp_of_parse hw he hs ?_ ?_
  · have q_sh : (fin 64 (bits (BitVec.ofNat 12 (sh.val)).toNat 5 0)) = sh := by rw [hm]; exact Fin.ext (by simp only [fin, bits]; omega)
    show some (ok (.shri (opdOf f d.code) (opdOf f a.code) (fin 64 (bits (BitVec.ofNat 12 (sh.val)).toNat 5 0)))) = _
    simp only [e_d, e_a, q_sh]
  · exact .inl (show (BitVec.ofNat 8 0x16).toNat < 64 by decide)

theorem Laws.RoundTrip.srai (d : Opd) (a : Opd) (sh : Fin 64) : Laws.RoundTrip.Statement (.srai d a sh) := by
  intro f regs nsem slot r hw he hs
  rw [RawOp.ofBits_toBits]
  obtain ⟨hf, hk⟩ := WellFormed.parts hw
  dsimp only [Instr.formOk, Instr.kindsOk] at hf hk
  (try simp only [Bool.and_eq_true] at hk)
  have e_d : opdOf f d.code = d := opdOf_code (Opd.isDst_fits hk.1)
  have e_a : opdOf f a.code = a := opdOf_code (Opd.isSrc_fits hk.2)
  have := sh.isLt
  have hm : (BitVec.ofNat 12 (sh.val)).toNat = sh.val := mod12 (by omega)
  obtain rfl := Option.some.inj (show some _ = some r from he)
  refine decodeOp_of_parse hw he hs ?_ ?_
  · have q_sh : (fin 64 (bits (BitVec.ofNat 12 (sh.val)).toNat 5 0)) = sh := by rw [hm]; exact Fin.ext (by simp only [fin, bits]; omega)
    show some (ok (.srai (opdOf f d.code) (opdOf f a.code) (fin 64 (bits (BitVec.ofNat 12 (sh.val)).toNat 5 0)))) = _
    simp only [e_d, e_a, q_sh]
  · exact .inl (show (BitVec.ofNat 8 0x17).toNat < 64 by decide)

theorem Laws.RoundTrip.rol (d : Opd) (a : Opd) (b : Opd) : Laws.RoundTrip.Statement (.rol d a b) := by
  intro f regs nsem slot r hw he hs
  rw [RawOp.ofBits_toBits]
  obtain ⟨hf, hk⟩ := WellFormed.parts hw
  dsimp only [Instr.formOk, Instr.kindsOk] at hf hk
  (try simp only [Bool.and_eq_true] at hk)
  have e_d : opdOf f d.code = d := opdOf_code (Opd.isDst_fits hk.1.1)
  have e_a : opdOf f a.code = a := opdOf_code (Opd.isSrc_fits hk.1.2)
  have e_b : opdOf f b.code = b := opdOf_code (Opd.isSrc_fits hk.2)
  have hm : (BitVec.ofNat 12 (0)).toNat = 0 := mod12 (by omega)
  obtain rfl := Option.some.inj (show some _ = some r from he)
  refine decodeOp_of_parse hw he hs ?_ ?_
  · show some (ok (.rol (opdOf f d.code) (opdOf f a.code) (opdOf f b.code))) = _
    simp only [e_d, e_a, e_b]
  · exact .inl (show (BitVec.ofNat 8 0x18).toNat < 64 by decide)

theorem Laws.RoundTrip.ror (d : Opd) (a : Opd) (b : Opd) : Laws.RoundTrip.Statement (.ror d a b) := by
  intro f regs nsem slot r hw he hs
  rw [RawOp.ofBits_toBits]
  obtain ⟨hf, hk⟩ := WellFormed.parts hw
  dsimp only [Instr.formOk, Instr.kindsOk] at hf hk
  (try simp only [Bool.and_eq_true] at hk)
  have e_d : opdOf f d.code = d := opdOf_code (Opd.isDst_fits hk.1.1)
  have e_a : opdOf f a.code = a := opdOf_code (Opd.isSrc_fits hk.1.2)
  have e_b : opdOf f b.code = b := opdOf_code (Opd.isSrc_fits hk.2)
  have hm : (BitVec.ofNat 12 (0)).toNat = 0 := mod12 (by omega)
  obtain rfl := Option.some.inj (show some _ = some r from he)
  refine decodeOp_of_parse hw he hs ?_ ?_
  · show some (ok (.ror (opdOf f d.code) (opdOf f a.code) (opdOf f b.code))) = _
    simp only [e_d, e_a, e_b]
  · exact .inl (show (BitVec.ofNat 8 0x19).toNat < 64 by decide)

theorem Laws.RoundTrip.min (d : Opd) (a : Opd) (b : Opd) : Laws.RoundTrip.Statement (.min d a b) := by
  intro f regs nsem slot r hw he hs
  rw [RawOp.ofBits_toBits]
  obtain ⟨hf, hk⟩ := WellFormed.parts hw
  dsimp only [Instr.formOk, Instr.kindsOk] at hf hk
  (try simp only [Bool.and_eq_true] at hk)
  have e_d : opdOf f d.code = d := opdOf_code (Opd.isDst_fits hk.1.1)
  have e_a : opdOf f a.code = a := opdOf_code (Opd.isSrc_fits hk.1.2)
  have e_b : opdOf f b.code = b := opdOf_code (Opd.isSrc_fits hk.2)
  have hm : (BitVec.ofNat 12 (0)).toNat = 0 := mod12 (by omega)
  obtain rfl := Option.some.inj (show some _ = some r from he)
  refine decodeOp_of_parse hw he hs ?_ ?_
  · show some (ok (.min (opdOf f d.code) (opdOf f a.code) (opdOf f b.code))) = _
    simp only [e_d, e_a, e_b]
  · exact .inl (show (BitVec.ofNat 8 0x1A).toNat < 64 by decide)

theorem Laws.RoundTrip.max (d : Opd) (a : Opd) (b : Opd) : Laws.RoundTrip.Statement (.max d a b) := by
  intro f regs nsem slot r hw he hs
  rw [RawOp.ofBits_toBits]
  obtain ⟨hf, hk⟩ := WellFormed.parts hw
  dsimp only [Instr.formOk, Instr.kindsOk] at hf hk
  (try simp only [Bool.and_eq_true] at hk)
  have e_d : opdOf f d.code = d := opdOf_code (Opd.isDst_fits hk.1.1)
  have e_a : opdOf f a.code = a := opdOf_code (Opd.isSrc_fits hk.1.2)
  have e_b : opdOf f b.code = b := opdOf_code (Opd.isSrc_fits hk.2)
  have hm : (BitVec.ofNat 12 (0)).toNat = 0 := mod12 (by omega)
  obtain rfl := Option.some.inj (show some _ = some r from he)
  refine decodeOp_of_parse hw he hs ?_ ?_
  · show some (ok (.max (opdOf f d.code) (opdOf f a.code) (opdOf f b.code))) = _
    simp only [e_d, e_a, e_b]
  · exact .inl (show (BitVec.ofNat 8 0x1B).toNat < 64 by decide)

theorem Laws.RoundTrip.minn (d : Opd) (a : Opd) (b : Opd) : Laws.RoundTrip.Statement (.minn d a b) := by
  intro f regs nsem slot r hw he hs
  rw [RawOp.ofBits_toBits]
  obtain ⟨hf, hk⟩ := WellFormed.parts hw
  dsimp only [Instr.formOk, Instr.kindsOk] at hf hk
  (try simp only [Bool.and_eq_true] at hk)
  have e_d : opdOf f d.code = d := opdOf_code (Opd.isDst_fits hk.1.1)
  have e_a : opdOf f a.code = a := opdOf_code (Opd.isSrc_fits hk.1.2)
  have e_b : opdOf f b.code = b := opdOf_code (Opd.isSrc_fits hk.2)
  have hm : (BitVec.ofNat 12 (0)).toNat = 0 := mod12 (by omega)
  obtain rfl := Option.some.inj (show some _ = some r from he)
  refine decodeOp_of_parse hw he hs ?_ ?_
  · show some (ok (.minn (opdOf f d.code) (opdOf f a.code) (opdOf f b.code))) = _
    simp only [e_d, e_a, e_b]
  · exact .inl (show (BitVec.ofNat 8 0x1C).toNat < 64 by decide)

theorem Laws.RoundTrip.maxn (d : Opd) (a : Opd) (b : Opd) : Laws.RoundTrip.Statement (.maxn d a b) := by
  intro f regs nsem slot r hw he hs
  rw [RawOp.ofBits_toBits]
  obtain ⟨hf, hk⟩ := WellFormed.parts hw
  dsimp only [Instr.formOk, Instr.kindsOk] at hf hk
  (try simp only [Bool.and_eq_true] at hk)
  have e_d : opdOf f d.code = d := opdOf_code (Opd.isDst_fits hk.1.1)
  have e_a : opdOf f a.code = a := opdOf_code (Opd.isSrc_fits hk.1.2)
  have e_b : opdOf f b.code = b := opdOf_code (Opd.isSrc_fits hk.2)
  have hm : (BitVec.ofNat 12 (0)).toNat = 0 := mod12 (by omega)
  obtain rfl := Option.some.inj (show some _ = some r from he)
  refine decodeOp_of_parse hw he hs ?_ ?_
  · show some (ok (.maxn (opdOf f d.code) (opdOf f a.code) (opdOf f b.code))) = _
    simp only [e_d, e_a, e_b]
  · exact .inl (show (BitVec.ofNat 8 0x1D).toNat < 64 by decide)

theorem Laws.RoundTrip.seq (d : Opd) (a : Opd) (b : Opd) : Laws.RoundTrip.Statement (.seq d a b) := by
  intro f regs nsem slot r hw he hs
  rw [RawOp.ofBits_toBits]
  obtain ⟨hf, hk⟩ := WellFormed.parts hw
  dsimp only [Instr.formOk, Instr.kindsOk] at hf hk
  (try simp only [Bool.and_eq_true] at hk)
  have e_d : opdOf f d.code = d := opdOf_code (Opd.isDst_fits hk.1.1)
  have e_a : opdOf f a.code = a := opdOf_code (Opd.isSrc_fits hk.1.2)
  have e_b : opdOf f b.code = b := opdOf_code (Opd.isSrc_fits hk.2)
  have hm : (BitVec.ofNat 12 (0)).toNat = 0 := mod12 (by omega)
  obtain rfl := Option.some.inj (show some _ = some r from he)
  refine decodeOp_of_parse hw he hs ?_ ?_
  · show some (ok (.seq (opdOf f d.code) (opdOf f a.code) (opdOf f b.code))) = _
    simp only [e_d, e_a, e_b]
  · exact .inl (show (BitVec.ofNat 8 0x1E).toNat < 64 by decide)

theorem Laws.RoundTrip.sne (d : Opd) (a : Opd) (b : Opd) : Laws.RoundTrip.Statement (.sne d a b) := by
  intro f regs nsem slot r hw he hs
  rw [RawOp.ofBits_toBits]
  obtain ⟨hf, hk⟩ := WellFormed.parts hw
  dsimp only [Instr.formOk, Instr.kindsOk] at hf hk
  (try simp only [Bool.and_eq_true] at hk)
  have e_d : opdOf f d.code = d := opdOf_code (Opd.isDst_fits hk.1.1)
  have e_a : opdOf f a.code = a := opdOf_code (Opd.isSrc_fits hk.1.2)
  have e_b : opdOf f b.code = b := opdOf_code (Opd.isSrc_fits hk.2)
  have hm : (BitVec.ofNat 12 (0)).toNat = 0 := mod12 (by omega)
  obtain rfl := Option.some.inj (show some _ = some r from he)
  refine decodeOp_of_parse hw he hs ?_ ?_
  · show some (ok (.sne (opdOf f d.code) (opdOf f a.code) (opdOf f b.code))) = _
    simp only [e_d, e_a, e_b]
  · exact .inl (show (BitVec.ofNat 8 0x1F).toNat < 64 by decide)

theorem Laws.RoundTrip.slt (d : Opd) (a : Opd) (b : Opd) : Laws.RoundTrip.Statement (.slt d a b) := by
  intro f regs nsem slot r hw he hs
  rw [RawOp.ofBits_toBits]
  obtain ⟨hf, hk⟩ := WellFormed.parts hw
  dsimp only [Instr.formOk, Instr.kindsOk] at hf hk
  (try simp only [Bool.and_eq_true] at hk)
  have e_d : opdOf f d.code = d := opdOf_code (Opd.isDst_fits hk.1.1)
  have e_a : opdOf f a.code = a := opdOf_code (Opd.isSrc_fits hk.1.2)
  have e_b : opdOf f b.code = b := opdOf_code (Opd.isSrc_fits hk.2)
  have hm : (BitVec.ofNat 12 (0)).toNat = 0 := mod12 (by omega)
  obtain rfl := Option.some.inj (show some _ = some r from he)
  refine decodeOp_of_parse hw he hs ?_ ?_
  · show some (ok (.slt (opdOf f d.code) (opdOf f a.code) (opdOf f b.code))) = _
    simp only [e_d, e_a, e_b]
  · exact .inl (show (BitVec.ofNat 8 0x20).toNat < 64 by decide)

theorem Laws.RoundTrip.sltn (d : Opd) (a : Opd) (b : Opd) : Laws.RoundTrip.Statement (.sltn d a b) := by
  intro f regs nsem slot r hw he hs
  rw [RawOp.ofBits_toBits]
  obtain ⟨hf, hk⟩ := WellFormed.parts hw
  dsimp only [Instr.formOk, Instr.kindsOk] at hf hk
  (try simp only [Bool.and_eq_true] at hk)
  have e_d : opdOf f d.code = d := opdOf_code (Opd.isDst_fits hk.1.1)
  have e_a : opdOf f a.code = a := opdOf_code (Opd.isSrc_fits hk.1.2)
  have e_b : opdOf f b.code = b := opdOf_code (Opd.isSrc_fits hk.2)
  have hm : (BitVec.ofNat 12 (0)).toNat = 0 := mod12 (by omega)
  obtain rfl := Option.some.inj (show some _ = some r from he)
  refine decodeOp_of_parse hw he hs ?_ ?_
  · show some (ok (.sltn (opdOf f d.code) (opdOf f a.code) (opdOf f b.code))) = _
    simp only [e_d, e_a, e_b]
  · exact .inl (show (BitVec.ofNat 8 0x21).toNat < 64 by decide)

theorem Laws.RoundTrip.slti (d : Opd) (a : Opd) (imm : BitVec 20) : Laws.RoundTrip.Statement (.slti d a imm) := by
  intro f regs nsem slot r hw he hs
  rw [RawOp.ofBits_toBits]
  obtain ⟨hf, hk⟩ := WellFormed.parts hw
  dsimp only [Instr.formOk, Instr.kindsOk] at hf hk
  (try simp only [Bool.and_eq_true] at hk)
  have e_d : opdOf f d.code = d := opdOf_code (Opd.isDst_fits hk.1)
  have e_a : opdOf f a.code = a := opdOf_code (Opd.isSrc_fits hk.2)
  have := imm.isLt
  have hm : (BitVec.ofNat 12 ((imm.toNat % 4096))).toNat = (imm.toNat % 4096) := mod12 (by omega)
  obtain rfl := Option.some.inj (show some _ = some r from he)
  refine decodeOp_of_parse hw he hs ?_ ?_
  · have q_imm : ((imm.extractLsb' 12 8) ++ (BitVec.ofNat 12 ((imm.toNat % 4096)))) = imm := imm20 imm
    show some (ok (.slti (opdOf f d.code) (opdOf f a.code) ((imm.extractLsb' 12 8) ++ (BitVec.ofNat 12 ((imm.toNat % 4096)))))) = _
    simp only [e_d, e_a, q_imm]
  · exact .inl (show (BitVec.ofNat 8 0x22).toNat < 64 by decide)

theorem Laws.RoundTrip.sel (d : Opd) (a : Opd) (b : Opd) (n : Fin 8) (inv : Bool) : Laws.RoundTrip.Statement (.sel d a b n inv) := by
  intro f regs nsem slot r hw he hs
  rw [RawOp.ofBits_toBits]
  obtain ⟨hf, hk⟩ := WellFormed.parts hw
  dsimp only [Instr.formOk, Instr.kindsOk] at hf hk
  (try simp only [Bool.and_eq_true] at hk)
  have e_d : opdOf f d.code = d := opdOf_code (Opd.isDst_fits hk.1.1)
  have e_a : opdOf f a.code = a := opdOf_code (Opd.isSrc_fits hk.1.2)
  have e_b : opdOf f b.code = b := opdOf_code (Opd.isSrc_fits hk.2)
  have := n.isLt
  have := b2n_lt inv
  have hm : (BitVec.ofNat 12 ((n.val + b2n inv * 8))).toNat = (n.val + b2n inv * 8) := mod12 (by omega)
  obtain rfl := Option.some.inj (show some _ = some r from he)
  refine decodeOp_of_parse hw he hs ?_ ?_
  · generalize hx : (n.val + b2n inv * 8) = x at hm ⊢
    have q_n : (fin 8 (bits (BitVec.ofNat 12 (x)).toNat 2 0)) = n := by rw [hm]; exact Fin.ext (by simp only [fin, bits]; omega)
    have q_inv : (bit (BitVec.ofNat 12 (x)).toNat 3) = inv := by rw [hm]; exact bit_b2n (by omega)
    show some (ok (.sel (opdOf f d.code) (opdOf f a.code) (opdOf f b.code) (fin 8 (bits (BitVec.ofNat 12 (x)).toNat 2 0)) (bit (BitVec.ofNat 12 (x)).toNat 3))) = _
    simp only [e_d, e_a, e_b, q_n, q_inv]
  · exact .inl (show (BitVec.ofNat 8 0x23).toNat < 64 by decide)

theorem Laws.RoundTrip.clz (d : Opd) (a : Opd) : Laws.RoundTrip.Statement (.clz d a) := by
  intro f regs nsem slot r hw he hs
  rw [RawOp.ofBits_toBits]
  obtain ⟨hf, hk⟩ := WellFormed.parts hw
  dsimp only [Instr.formOk, Instr.kindsOk] at hf hk
  (try simp only [Bool.and_eq_true] at hk)
  have e_d : opdOf f d.code = d := opdOf_code (Opd.isDst_fits hk.1)
  have e_a : opdOf f a.code = a := opdOf_code (Opd.isSrc_fits hk.2)
  have hm : (BitVec.ofNat 12 (0)).toNat = 0 := mod12 (by omega)
  obtain rfl := Option.some.inj (show some _ = some r from he)
  refine decodeOp_of_parse hw he hs ?_ ?_
  · show some (ok (.clz (opdOf f d.code) (opdOf f a.code))) = _
    simp only [e_d, e_a]
  · exact .inl (show (BitVec.ofNat 8 0x24).toNat < 64 by decide)

theorem Laws.RoundTrip.ctz (d : Opd) (a : Opd) : Laws.RoundTrip.Statement (.ctz d a) := by
  intro f regs nsem slot r hw he hs
  rw [RawOp.ofBits_toBits]
  obtain ⟨hf, hk⟩ := WellFormed.parts hw
  dsimp only [Instr.formOk, Instr.kindsOk] at hf hk
  (try simp only [Bool.and_eq_true] at hk)
  have e_d : opdOf f d.code = d := opdOf_code (Opd.isDst_fits hk.1)
  have e_a : opdOf f a.code = a := opdOf_code (Opd.isSrc_fits hk.2)
  have hm : (BitVec.ofNat 12 (0)).toNat = 0 := mod12 (by omega)
  obtain rfl := Option.some.inj (show some _ = some r from he)
  refine decodeOp_of_parse hw he hs ?_ ?_
  · show some (ok (.ctz (opdOf f d.code) (opdOf f a.code))) = _
    simp only [e_d, e_a]
  · exact .inl (show (BitVec.ofNat 8 0x25).toNat < 64 by decide)

theorem Laws.RoundTrip.popc (d : Opd) (a : Opd) : Laws.RoundTrip.Statement (.popc d a) := by
  intro f regs nsem slot r hw he hs
  rw [RawOp.ofBits_toBits]
  obtain ⟨hf, hk⟩ := WellFormed.parts hw
  dsimp only [Instr.formOk, Instr.kindsOk] at hf hk
  (try simp only [Bool.and_eq_true] at hk)
  have e_d : opdOf f d.code = d := opdOf_code (Opd.isDst_fits hk.1)
  have e_a : opdOf f a.code = a := opdOf_code (Opd.isSrc_fits hk.2)
  have hm : (BitVec.ofNat 12 (0)).toNat = 0 := mod12 (by omega)
  obtain rfl := Option.some.inj (show some _ = some r from he)
  refine decodeOp_of_parse hw he hs ?_ ?_
  · show some (ok (.popc (opdOf f d.code) (opdOf f a.code))) = _
    simp only [e_d, e_a]
  · exact .inl (show (BitVec.ofNat 8 0x26).toNat < 64 by decide)

theorem Laws.RoundTrip.bfx (d : Opd) (a : Opd) (pos : Fin 64) (len1 : Fin 64) : Laws.RoundTrip.Statement (.bfx d a pos len1) := by
  intro f regs nsem slot r hw he hs
  rw [RawOp.ofBits_toBits]
  obtain ⟨hf, hk⟩ := WellFormed.parts hw
  dsimp only [Instr.formOk, Instr.kindsOk] at hf hk
  (try simp only [Bool.and_eq_true] at hk)
  have e_d : opdOf f d.code = d := opdOf_code (Opd.isDst_fits hk.1)
  have e_a : opdOf f a.code = a := opdOf_code (Opd.isSrc_fits hk.2)
  have := pos.isLt
  have := len1.isLt
  have hm : (BitVec.ofNat 12 ((pos.val + len1.val * 64))).toNat = (pos.val + len1.val * 64) := mod12 (by omega)
  obtain rfl := Option.some.inj (show some _ = some r from he)
  refine decodeOp_of_parse hw he hs ?_ ?_
  · generalize hx : (pos.val + len1.val * 64) = x at hm ⊢
    have q_pos : (fin 64 (bits (BitVec.ofNat 12 (x)).toNat 5 0)) = pos := by rw [hm]; exact Fin.ext (by simp only [fin, bits]; omega)
    have q_len1 : (fin 64 (bits (BitVec.ofNat 12 (x)).toNat 11 6)) = len1 := by rw [hm]; exact Fin.ext (by simp only [fin, bits]; omega)
    show some (ok (.bfx (opdOf f d.code) (opdOf f a.code) (fin 64 (bits (BitVec.ofNat 12 (x)).toNat 5 0)) (fin 64 (bits (BitVec.ofNat 12 (x)).toNat 11 6)))) = _
    simp only [e_d, e_a, q_pos, q_len1]
  · exact .inl (show (BitVec.ofNat 8 0x27).toNat < 64 by decide)

theorem Laws.RoundTrip.bfi (d : Opd) (a : Opd) (pos : Fin 64) (len1 : Fin 64) : Laws.RoundTrip.Statement (.bfi d a pos len1) := by
  intro f regs nsem slot r hw he hs
  rw [RawOp.ofBits_toBits]
  obtain ⟨hf, hk⟩ := WellFormed.parts hw
  dsimp only [Instr.formOk, Instr.kindsOk] at hf hk
  (try simp only [Bool.and_eq_true] at hk)
  have e_d : opdOf f d.code = d := opdOf_code (Opd.isDst_fits hk.1)
  have e_a : opdOf f a.code = a := opdOf_code (Opd.isSrc_fits hk.2)
  have := pos.isLt
  have := len1.isLt
  have hm : (BitVec.ofNat 12 ((pos.val + len1.val * 64))).toNat = (pos.val + len1.val * 64) := mod12 (by omega)
  obtain rfl := Option.some.inj (show some _ = some r from he)
  refine decodeOp_of_parse hw he hs ?_ ?_
  · generalize hx : (pos.val + len1.val * 64) = x at hm ⊢
    have q_pos : (fin 64 (bits (BitVec.ofNat 12 (x)).toNat 5 0)) = pos := by rw [hm]; exact Fin.ext (by simp only [fin, bits]; omega)
    have q_len1 : (fin 64 (bits (BitVec.ofNat 12 (x)).toNat 11 6)) = len1 := by rw [hm]; exact Fin.ext (by simp only [fin, bits]; omega)
    show some (ok (.bfi (opdOf f d.code) (opdOf f a.code) (fin 64 (bits (BitVec.ofNat 12 (x)).toNat 5 0)) (fin 64 (bits (BitVec.ofNat 12 (x)).toNat 11 6)))) = _
    simp only [e_d, e_a, q_pos, q_len1]
  · exact .inl (show (BitVec.ofNat 8 0x28).toNat < 64 by decide)

theorem Laws.RoundTrip.sext (d : Opd) (a : Opd) (t : ExtTy) : Laws.RoundTrip.Statement (.sext d a t) := by
  intro f regs nsem slot r hw he hs
  rw [RawOp.ofBits_toBits]
  obtain ⟨hf, hk⟩ := WellFormed.parts hw
  dsimp only [Instr.formOk, Instr.kindsOk] at hf hk
  (try simp only [Bool.and_eq_true] at hk)
  have e_d : opdOf f d.code = d := opdOf_code (by grind [Opd.isReg_fits, Opd.isDst_fits, Opd.isSrc_fits, Opd.isRegC_fits, Opd.isGroup_fits, Opd.isPair_fits, Opd.isVec_fits, Opd.isAcc_fits, Opd.isVSrc_fits])
  have e_a : opdOf f a.code = a := opdOf_code (by grind [Opd.isReg_fits, Opd.isDst_fits, Opd.isSrc_fits, Opd.isRegC_fits, Opd.isGroup_fits, Opd.isPair_fits, Opd.isVec_fits, Opd.isAcc_fits, Opd.isVSrc_fits])
  have := t.code_lt
  have hm : (BitVec.ofNat 12 (t.code)).toNat = t.code := mod12 (by omega)
  obtain rfl := Option.some.inj (show some _ = some r from he)
  refine decodeOp_of_parse hw he hs ?_ ?_
  · refine (congrArg some (need_some (v := t) (x := extOf (bits (BitVec.ofNat 12 (t.code)).toNat 2 0)) (k := fun t => ok (.sext (opdOf f d.code) (opdOf f a.code) t)) (by rw [hm, show bits t.code 2 0 = t.code by simp only [bits]; omega, extOf_code]))).trans ?_
    simp only [e_d, e_a]
  · exact .inl (show (BitVec.ofNat 8 0x29).toNat < 64 by decide)

theorem Laws.RoundTrip.addsh (d : Opd) (a : Opd) (b : Opd) (sh : Fin 8) : Laws.RoundTrip.Statement (.addsh d a b sh) := by
  intro f regs nsem slot r hw he hs
  rw [RawOp.ofBits_toBits]
  obtain ⟨hf, hk⟩ := WellFormed.parts hw
  dsimp only [Instr.formOk, Instr.kindsOk] at hf hk
  (try simp only [Bool.and_eq_true] at hk)
  have e_d : opdOf f d.code = d := opdOf_code (Opd.isDst_fits hk.1.1)
  have e_a : opdOf f a.code = a := opdOf_code (Opd.isSrc_fits hk.1.2)
  have e_b : opdOf f b.code = b := opdOf_code (Opd.isSrc_fits hk.2)
  have := sh.isLt
  have hm : (BitVec.ofNat 12 (sh.val)).toNat = sh.val := mod12 (by omega)
  obtain rfl := Option.some.inj (show some _ = some r from he)
  refine decodeOp_of_parse hw he hs ?_ ?_
  · have q_sh : (fin 8 (bits (BitVec.ofNat 12 (sh.val)).toNat 2 0)) = sh := by rw [hm]; exact Fin.ext (by simp only [fin, bits]; omega)
    show some (ok (.addsh (opdOf f d.code) (opdOf f a.code) (opdOf f b.code) (fin 8 (bits (BitVec.ofNat 12 (sh.val)).toNat 2 0)))) = _
    simp only [e_d, e_a, e_b, q_sh]
  · exact .inl (show (BitVec.ofNat 8 0x2A).toNat < 64 by decide)

theorem Laws.RoundTrip.fadd (t : FpTy) (d : Opd) (a : Opd) (b : Opd) : Laws.RoundTrip.Statement (.fadd t d a b) := by
  intro f regs nsem slot r hw he hs
  rw [RawOp.ofBits_toBits]
  obtain ⟨hf, hk⟩ := WellFormed.parts hw
  dsimp only [Instr.formOk, Instr.kindsOk] at hf hk
  (try simp only [Bool.and_eq_true] at hk)
  have e_d : opdOf f d.code = d := opdOf_code (Opd.isDst_fits hk.1.1)
  have e_a : opdOf f a.code = a := opdOf_code (Opd.isSrc_fits hk.1.2)
  have e_b : opdOf f b.code = b := opdOf_code (Opd.isSrc_fits hk.2)
  have := t.code_lt
  have hm : (BitVec.ofNat 12 (t.code)).toNat = t.code := mod12 (by omega)
  obtain rfl := Option.some.inj (show some _ = some r from he)
  refine decodeOp_of_parse hw he hs ?_ ?_
  · refine (congrArg some (fp_some (n := bits (BitVec.ofNat 12 (t.code)).toNat 1 0) (t := t) (by rw [hm]; simp only [bits]; omega) (fun t => ok (.fadd t (opdOf f d.code) (opdOf f a.code) (opdOf f b.code))))).trans ?_
    (try dsimp only)
    simp only [e_d, e_a, e_b]
  · exact .inl (show (BitVec.ofNat 8 0x2B).toNat < 64 by decide)

theorem Laws.RoundTrip.fsub (t : FpTy) (d : Opd) (a : Opd) (b : Opd) : Laws.RoundTrip.Statement (.fsub t d a b) := by
  intro f regs nsem slot r hw he hs
  rw [RawOp.ofBits_toBits]
  obtain ⟨hf, hk⟩ := WellFormed.parts hw
  dsimp only [Instr.formOk, Instr.kindsOk] at hf hk
  (try simp only [Bool.and_eq_true] at hk)
  have e_d : opdOf f d.code = d := opdOf_code (Opd.isDst_fits hk.1.1)
  have e_a : opdOf f a.code = a := opdOf_code (Opd.isSrc_fits hk.1.2)
  have e_b : opdOf f b.code = b := opdOf_code (Opd.isSrc_fits hk.2)
  have := t.code_lt
  have hm : (BitVec.ofNat 12 (t.code)).toNat = t.code := mod12 (by omega)
  obtain rfl := Option.some.inj (show some _ = some r from he)
  refine decodeOp_of_parse hw he hs ?_ ?_
  · refine (congrArg some (fp_some (n := bits (BitVec.ofNat 12 (t.code)).toNat 1 0) (t := t) (by rw [hm]; simp only [bits]; omega) (fun t => ok (.fsub t (opdOf f d.code) (opdOf f a.code) (opdOf f b.code))))).trans ?_
    (try dsimp only)
    simp only [e_d, e_a, e_b]
  · exact .inl (show (BitVec.ofNat 8 0x2C).toNat < 64 by decide)

theorem Laws.RoundTrip.fmul (t : FpTy) (d : Opd) (a : Opd) (b : Opd) : Laws.RoundTrip.Statement (.fmul t d a b) := by
  intro f regs nsem slot r hw he hs
  rw [RawOp.ofBits_toBits]
  obtain ⟨hf, hk⟩ := WellFormed.parts hw
  dsimp only [Instr.formOk, Instr.kindsOk] at hf hk
  (try simp only [Bool.and_eq_true] at hk)
  have e_d : opdOf f d.code = d := opdOf_code (Opd.isDst_fits hk.1.1)
  have e_a : opdOf f a.code = a := opdOf_code (Opd.isSrc_fits hk.1.2)
  have e_b : opdOf f b.code = b := opdOf_code (Opd.isSrc_fits hk.2)
  have := t.code_lt
  have hm : (BitVec.ofNat 12 (t.code)).toNat = t.code := mod12 (by omega)
  obtain rfl := Option.some.inj (show some _ = some r from he)
  refine decodeOp_of_parse hw he hs ?_ ?_
  · refine (congrArg some (fp_some (n := bits (BitVec.ofNat 12 (t.code)).toNat 1 0) (t := t) (by rw [hm]; simp only [bits]; omega) (fun t => ok (.fmul t (opdOf f d.code) (opdOf f a.code) (opdOf f b.code))))).trans ?_
    (try dsimp only)
    simp only [e_d, e_a, e_b]
  · exact .inl (show (BitVec.ofNat 8 0x2D).toNat < 64 by decide)

theorem Laws.RoundTrip.ffma (t : FpTy) (d : Opd) (a : Opd) (b : Opd) : Laws.RoundTrip.Statement (.ffma t d a b) := by
  intro f regs nsem slot r hw he hs
  rw [RawOp.ofBits_toBits]
  obtain ⟨hf, hk⟩ := WellFormed.parts hw
  dsimp only [Instr.formOk, Instr.kindsOk] at hf hk
  (try simp only [Bool.and_eq_true] at hk)
  have e_d : opdOf f d.code = d := opdOf_code (Opd.isDst_fits hk.1.1)
  have e_a : opdOf f a.code = a := opdOf_code (Opd.isSrc_fits hk.1.2)
  have e_b : opdOf f b.code = b := opdOf_code (Opd.isSrc_fits hk.2)
  have := t.code_lt
  have hm : (BitVec.ofNat 12 (t.code)).toNat = t.code := mod12 (by omega)
  obtain rfl := Option.some.inj (show some _ = some r from he)
  refine decodeOp_of_parse hw he hs ?_ ?_
  · refine (congrArg some (fp_some (n := bits (BitVec.ofNat 12 (t.code)).toNat 1 0) (t := t) (by rw [hm]; simp only [bits]; omega) (fun t => ok (.ffma t (opdOf f d.code) (opdOf f a.code) (opdOf f b.code))))).trans ?_
    (try dsimp only)
    simp only [e_d, e_a, e_b]
  · exact .inl (show (BitVec.ofNat 8 0x2E).toNat < 64 by decide)

theorem Laws.RoundTrip.fmin (t : FpTy) (d : Opd) (a : Opd) (b : Opd) : Laws.RoundTrip.Statement (.fmin t d a b) := by
  intro f regs nsem slot r hw he hs
  rw [RawOp.ofBits_toBits]
  obtain ⟨hf, hk⟩ := WellFormed.parts hw
  dsimp only [Instr.formOk, Instr.kindsOk] at hf hk
  (try simp only [Bool.and_eq_true] at hk)
  have e_d : opdOf f d.code = d := opdOf_code (Opd.isDst_fits hk.1.1)
  have e_a : opdOf f a.code = a := opdOf_code (Opd.isSrc_fits hk.1.2)
  have e_b : opdOf f b.code = b := opdOf_code (Opd.isSrc_fits hk.2)
  have := t.code_lt
  have hm : (BitVec.ofNat 12 (t.code)).toNat = t.code := mod12 (by omega)
  obtain rfl := Option.some.inj (show some _ = some r from he)
  refine decodeOp_of_parse hw he hs ?_ ?_
  · refine (congrArg some (fp_some (n := bits (BitVec.ofNat 12 (t.code)).toNat 1 0) (t := t) (by rw [hm]; simp only [bits]; omega) (fun t => ok (.fmin t (opdOf f d.code) (opdOf f a.code) (opdOf f b.code))))).trans ?_
    (try dsimp only)
    simp only [e_d, e_a, e_b]
  · exact .inl (show (BitVec.ofNat 8 0x2F).toNat < 64 by decide)

theorem Laws.RoundTrip.fmax (t : FpTy) (d : Opd) (a : Opd) (b : Opd) : Laws.RoundTrip.Statement (.fmax t d a b) := by
  intro f regs nsem slot r hw he hs
  rw [RawOp.ofBits_toBits]
  obtain ⟨hf, hk⟩ := WellFormed.parts hw
  dsimp only [Instr.formOk, Instr.kindsOk] at hf hk
  (try simp only [Bool.and_eq_true] at hk)
  have e_d : opdOf f d.code = d := opdOf_code (Opd.isDst_fits hk.1.1)
  have e_a : opdOf f a.code = a := opdOf_code (Opd.isSrc_fits hk.1.2)
  have e_b : opdOf f b.code = b := opdOf_code (Opd.isSrc_fits hk.2)
  have := t.code_lt
  have hm : (BitVec.ofNat 12 (t.code)).toNat = t.code := mod12 (by omega)
  obtain rfl := Option.some.inj (show some _ = some r from he)
  refine decodeOp_of_parse hw he hs ?_ ?_
  · refine (congrArg some (fp_some (n := bits (BitVec.ofNat 12 (t.code)).toNat 1 0) (t := t) (by rw [hm]; simp only [bits]; omega) (fun t => ok (.fmax t (opdOf f d.code) (opdOf f a.code) (opdOf f b.code))))).trans ?_
    (try dsimp only)
    simp only [e_d, e_a, e_b]
  · exact .inl (show (BitVec.ofNat 8 0x30).toNat < 64 by decide)

theorem Laws.RoundTrip.feq (t : FpTy) (d : Opd) (a : Opd) (b : Opd) : Laws.RoundTrip.Statement (.feq t d a b) := by
  intro f regs nsem slot r hw he hs
  rw [RawOp.ofBits_toBits]
  obtain ⟨hf, hk⟩ := WellFormed.parts hw
  dsimp only [Instr.formOk, Instr.kindsOk] at hf hk
  (try simp only [Bool.and_eq_true] at hk)
  have e_d : opdOf f d.code = d := opdOf_code (Opd.isDst_fits hk.1.1)
  have e_a : opdOf f a.code = a := opdOf_code (Opd.isSrc_fits hk.1.2)
  have e_b : opdOf f b.code = b := opdOf_code (Opd.isSrc_fits hk.2)
  have := t.code_lt
  have hm : (BitVec.ofNat 12 (t.code)).toNat = t.code := mod12 (by omega)
  obtain rfl := Option.some.inj (show some _ = some r from he)
  refine decodeOp_of_parse hw he hs ?_ ?_
  · refine (congrArg some (fp_some (n := bits (BitVec.ofNat 12 (t.code)).toNat 1 0) (t := t) (by rw [hm]; simp only [bits]; omega) (fun t => ok (.feq t (opdOf f d.code) (opdOf f a.code) (opdOf f b.code))))).trans ?_
    (try dsimp only)
    simp only [e_d, e_a, e_b]
  · exact .inl (show (BitVec.ofNat 8 0x31).toNat < 64 by decide)

theorem Laws.RoundTrip.flt (t : FpTy) (d : Opd) (a : Opd) (b : Opd) : Laws.RoundTrip.Statement (.flt t d a b) := by
  intro f regs nsem slot r hw he hs
  rw [RawOp.ofBits_toBits]
  obtain ⟨hf, hk⟩ := WellFormed.parts hw
  dsimp only [Instr.formOk, Instr.kindsOk] at hf hk
  (try simp only [Bool.and_eq_true] at hk)
  have e_d : opdOf f d.code = d := opdOf_code (Opd.isDst_fits hk.1.1)
  have e_a : opdOf f a.code = a := opdOf_code (Opd.isSrc_fits hk.1.2)
  have e_b : opdOf f b.code = b := opdOf_code (Opd.isSrc_fits hk.2)
  have := t.code_lt
  have hm : (BitVec.ofNat 12 (t.code)).toNat = t.code := mod12 (by omega)
  obtain rfl := Option.some.inj (show some _ = some r from he)
  refine decodeOp_of_parse hw he hs ?_ ?_
  · refine (congrArg some (fp_some (n := bits (BitVec.ofNat 12 (t.code)).toNat 1 0) (t := t) (by rw [hm]; simp only [bits]; omega) (fun t => ok (.flt t (opdOf f d.code) (opdOf f a.code) (opdOf f b.code))))).trans ?_
    (try dsimp only)
    simp only [e_d, e_a, e_b]
  · exact .inl (show (BitVec.ofNat 8 0x32).toNat < 64 by decide)

theorem Laws.RoundTrip.fle (t : FpTy) (d : Opd) (a : Opd) (b : Opd) : Laws.RoundTrip.Statement (.fle t d a b) := by
  intro f regs nsem slot r hw he hs
  rw [RawOp.ofBits_toBits]
  obtain ⟨hf, hk⟩ := WellFormed.parts hw
  dsimp only [Instr.formOk, Instr.kindsOk] at hf hk
  (try simp only [Bool.and_eq_true] at hk)
  have e_d : opdOf f d.code = d := opdOf_code (Opd.isDst_fits hk.1.1)
  have e_a : opdOf f a.code = a := opdOf_code (Opd.isSrc_fits hk.1.2)
  have e_b : opdOf f b.code = b := opdOf_code (Opd.isSrc_fits hk.2)
  have := t.code_lt
  have hm : (BitVec.ofNat 12 (t.code)).toNat = t.code := mod12 (by omega)
  obtain rfl := Option.some.inj (show some _ = some r from he)
  refine decodeOp_of_parse hw he hs ?_ ?_
  · refine (congrArg some (fp_some (n := bits (BitVec.ofNat 12 (t.code)).toNat 1 0) (t := t) (by rw [hm]; simp only [bits]; omega) (fun t => ok (.fle t (opdOf f d.code) (opdOf f a.code) (opdOf f b.code))))).trans ?_
    (try dsimp only)
    simp only [e_d, e_a, e_b]
  · exact .inl (show (BitVec.ofNat 8 0x33).toNat < 64 by decide)

theorem Laws.RoundTrip.fcvt (t2 : Ty) (t1 : Ty) (d : Opd) (a : Opd) : Laws.RoundTrip.Statement (.fcvt t2 t1 d a) := by
  intro f regs nsem slot r hw he hs
  rw [RawOp.ofBits_toBits]
  obtain ⟨hf, hk⟩ := WellFormed.parts hw
  dsimp only [Instr.formOk, Instr.kindsOk] at hf hk
  (try simp only [Bool.and_eq_true] at hk)
  have e_d : opdOf f d.code = d := opdOf_code (by grind [Opd.isReg_fits, Opd.isDst_fits, Opd.isSrc_fits, Opd.isRegC_fits, Opd.isGroup_fits, Opd.isPair_fits, Opd.isVec_fits, Opd.isAcc_fits, Opd.isVSrc_fits])
  have e_a : opdOf f a.code = a := opdOf_code (by grind [Opd.isReg_fits, Opd.isDst_fits, Opd.isSrc_fits, Opd.isRegC_fits, Opd.isGroup_fits, Opd.isPair_fits, Opd.isVec_fits, Opd.isAcc_fits, Opd.isVSrc_fits])
  have := t1.code_lt
  have := t2.code_lt
  have hm : (BitVec.ofNat 12 (t2.code + t1.code * 32)).toNat = t2.code + t1.code * 32 := mod12 (by omega)
  obtain rfl := Option.some.inj (show some _ = some r from he)
  refine decodeOp_of_parse hw he hs ?_ ?_
  · generalize hx : t2.code + t1.code * 32 = x at hm ⊢
    refine (congrArg some (need_some (v := t2) (x := tyOf (bits (BitVec.ofNat 12 (x)).toNat 4 0)) (k := fun t2 => need 0x0B (tyOf (bits (BitVec.ofNat 12 (x)).toNat 9 5)) .i8 fun t1 => ok (.fcvt t2 t1 (opdOf f d.code) (opdOf f a.code))) (by rw [hm, show bits x 4 0 = t2.code by simp only [bits]; omega, tyOf_code]))).trans ?_
    refine (congrArg some (need_some (v := t1) (k := fun t1 => ok (.fcvt t2 t1 (opdOf f d.code) (opdOf f a.code))) (by rw [hm, show bits x 9 5 = t1.code by simp only [bits]; omega, tyOf_code]))).trans ?_
    simp only [e_d, e_a]
  · exact .inl (show (BitVec.ofNat 8 0x34).toNat < 64 by decide)

theorem Laws.RoundTrip.fsgn (m : SgnMode) (t : FpTy) (d : Opd) (a : Opd) (b : Opd) : Laws.RoundTrip.Statement (.fsgn m t d a b) := by
  intro f regs nsem slot r hw he hs
  rw [RawOp.ofBits_toBits]
  obtain ⟨hf, hk⟩ := WellFormed.parts hw
  dsimp only [Instr.formOk, Instr.kindsOk] at hf hk
  (try simp only [Bool.and_eq_true] at hk)
  have e_d : opdOf f d.code = d := opdOf_code (by grind [Opd.isReg_fits, Opd.isDst_fits, Opd.isSrc_fits, Opd.isRegC_fits, Opd.isGroup_fits, Opd.isPair_fits, Opd.isVec_fits, Opd.isAcc_fits, Opd.isVSrc_fits])
  have e_a : opdOf f a.code = a := opdOf_code (by grind [Opd.isReg_fits, Opd.isDst_fits, Opd.isSrc_fits, Opd.isRegC_fits, Opd.isGroup_fits, Opd.isPair_fits, Opd.isVec_fits, Opd.isAcc_fits, Opd.isVSrc_fits])
  have := t.code_lt
  have := m.code_lt
  have hm : (BitVec.ofNat 12 (t.code + m.code * 4)).toNat = t.code + m.code * 4 := mod12 (by omega)
  obtain rfl := Option.some.inj (show some _ = some r from he)
  refine decodeOp_of_parse hw he hs ?_ ?_
  · generalize hx : t.code + m.code * 4 = x at hm ⊢
    have q : sgnOf (bits (BitVec.ofNat 12 (x)).toNat 3 2) = m := by rw [hm, show bits x 3 2 = m.code by simp only [bits]; omega]; exact sgnOf_code m
    refine (congrArg some (fp_some (n := bits (BitVec.ofNat 12 (x)).toNat 1 0) (t := t) (by rw [hm]; simp only [bits]; omega) (fun t => ok (.fsgn (sgnOf (bits (BitVec.ofNat 12 (x)).toNat 3 2)) t (opdOf f d.code) (opdOf f a.code) (if sgnOf (bits (BitVec.ofNat 12 (x)).toNat 3 2) == .abs then .sx 0 else opdOf f (if m == .abs then 0 else b.code)))))).trans ?_
    rw [q, e_d, e_a]
    cases hn : m == .abs
    · have e_b : opdOf f b.code = b := opdOf_code (by grind [Opd.isReg_fits, Opd.isDst_fits, Opd.isSrc_fits, Opd.isRegC_fits, Opd.isGroup_fits, Opd.isPair_fits, Opd.isVec_fits, Opd.isAcc_fits, Opd.isVSrc_fits])
      simp only [Bool.false_eq_true, if_false, e_b]
    · have hz : b = .sx 0 := by simpa [hn] using hk.2
      simp only [if_true, hz]
  · exact .inl (show (BitVec.ofNat 8 0x35).toNat < 64 by decide)

theorem Laws.RoundTrip.fclass (t : FpTy) (d : Opd) (a : Opd) : Laws.RoundTrip.Statement (.fclass t d a) := by
  intro f regs nsem slot r hw he hs
  rw [RawOp.ofBits_toBits]
  obtain ⟨hf, hk⟩ := WellFormed.parts hw
  dsimp only [Instr.formOk, Instr.kindsOk] at hf hk
  (try simp only [Bool.and_eq_true] at hk)
  have e_d : opdOf f d.code = d := opdOf_code (Opd.isDst_fits hk.1)
  have e_a : opdOf f a.code = a := opdOf_code (Opd.isSrc_fits hk.2)
  have := t.code_lt
  have hm : (BitVec.ofNat 12 (t.code)).toNat = t.code := mod12 (by omega)
  obtain rfl := Option.some.inj (show some _ = some r from he)
  refine decodeOp_of_parse hw he hs ?_ ?_
  · refine (congrArg some (fp_some (n := bits (BitVec.ofNat 12 (t.code)).toNat 1 0) (t := t) (by rw [hm]; simp only [bits]; omega) (fun t => ok (.fclass t (opdOf f d.code) (opdOf f a.code))))).trans ?_
    (try dsimp only)
    simp only [e_d, e_a]
  · exact .inl (show (BitVec.ofNat 8 0x36).toNat < 64 by decide)

theorem Laws.RoundTrip.pset (m : PsetMode) (e : Fin 4) (pd : Fin 8) (a : Opd) : Laws.RoundTrip.Statement (.pset m e pd a) := by
  intro f regs nsem slot r hw he hs
  rw [RawOp.ofBits_toBits]
  obtain ⟨hf, hk⟩ := WellFormed.parts hw
  dsimp only [Instr.formOk, Instr.kindsOk] at hf hk
  (try simp only [Bool.and_eq_true] at hk)
  have e_a : opdOf f a.code = a := opdOf_code (by grind [Opd.isReg_fits, Opd.isDst_fits, Opd.isSrc_fits, Opd.isRegC_fits, Opd.isGroup_fits, Opd.isPair_fits, Opd.isVec_fits, Opd.isAcc_fits, Opd.isVSrc_fits])
  have := e.isLt
  have := m.code_lt
  have := pd.isLt
  have hm : (BitVec.ofNat 12 (e.val + m.code * 4)).toNat = e.val + m.code * 4 := mod12 (by omega)
  obtain rfl := Option.some.inj (show some _ = some r from he)
  refine decodeOp_of_parse hw he hs ?_ ?_
  · generalize hx : e.val + m.code * 4 = x at hm ⊢
    have hd : (BitVec.ofNat 8 pd.val).toNat = pd.val := byteOf (by omega)
    refine (congrArg some ((low_of (n := (BitVec.ofNat 8 pd.val).toNat) (by omega)).trans (need_some (v := m) (x := psetOf (bits (BitVec.ofNat 12 (x)).toNat 3 2)) (by rw [hm, show bits x 3 2 = m.code by simp only [bits]; omega, psetOf_code]) (k := fun m => ok (.pset m (fin 4 (bits (BitVec.ofNat 12 (x)).toNat 1 0)) (fin 8 (BitVec.ofNat 8 pd.val).toNat) (opdOf f a.code)))))).trans ?_
    have q : fin 4 (bits (BitVec.ofNat 12 (x)).toNat 1 0) = e := by rw [hm]; exact Fin.ext (by simp only [fin, bits]; omega)
    simp only [q, hd, e_a, fin_val]
  · exact .inl (show (BitVec.ofNat 8 0x37).toNat < 64 by decide)

theorem Laws.RoundTrip.plog (op : PlogOp) (pd : Fin 8) (pa : Fin 8) (pb : Fin 8) : Laws.RoundTrip.Statement (.plog op pd pa pb) := by
  intro f regs nsem slot r hw he hs
  rw [RawOp.ofBits_toBits]
  obtain ⟨hf, hk⟩ := WellFormed.parts hw
  dsimp only [Instr.formOk, Instr.kindsOk] at hf hk
  (try simp only [Bool.and_eq_true] at hk)
  have := op.code_lt
  have := pd.isLt
  have := pa.isLt
  have := pb.isLt
  have hm : (BitVec.ofNat 12 (op.code)).toNat = op.code := mod12 (by omega)
  obtain rfl := Option.some.inj (show some _ = some r from he)
  refine decodeOp_of_parse hw he hs ?_ ?_
  · have hd : (BitVec.ofNat 8 pd.val).toNat = pd.val := byteOf (by omega)
    have ha : (BitVec.ofNat 8 pa.val).toNat = pa.val := byteOf (by omega)
    have hb : (BitVec.ofNat 8 pb.val).toNat = pb.val := byteOf (by omega)
    refine (congrArg some ((low_of (n := (BitVec.ofNat 8 pd.val).toNat) (by omega)).trans ((low_of (n := (BitVec.ofNat 8 pa.val).toNat) (by omega)).trans
      (need_some (v := op) (x := plogOf (bits (BitVec.ofNat 12 (op.code)).toNat 2 0)) (by rw [hm, show bits op.code 2 0 = op.code by simp only [bits]; omega, plogOf_code])
        (k := fun o => if o == .not then ok (.plog o (fin 8 (BitVec.ofNat 8 pd.val).toNat) (fin 8 (BitVec.ofNat 8 pa.val).toNat) 0)
          else low 8 (if op == .not then 0 else BitVec.ofNat 8 pb.val : Byte).toNat (ok (.plog o (fin 8 (BitVec.ofNat 8 pd.val).toNat) (fin 8 (BitVec.ofNat 8 pa.val).toNat) (fin 8 (if op == .not then 0 else BitVec.ofNat 8 pb.val : Byte).toNat)))))))).trans ?_
    simp only [hd, ha, fin_val]
    cases hn : op == .not
    · simp only [Bool.false_eq_true, if_false, hb, fin_val]
      rw [low_of (by omega)]
    · have hz : pb = 0 := by simpa [bne, hn] using hk
      simp only [if_true, hz]
  · exact .inl (show (BitVec.ofNat 8 0x38).toNat < 64 by decide)

theorem Laws.RoundTrip.check (a : Opd) (b : Opd) : Laws.RoundTrip.Statement (.check a b) := by
  intro f regs nsem slot r hw he hs
  rw [RawOp.ofBits_toBits]
  obtain ⟨hf, hk⟩ := WellFormed.parts hw
  dsimp only [Instr.formOk, Instr.kindsOk] at hf hk
  (try simp only [Bool.and_eq_true] at hk)
  have e_a : opdOf f a.code = a := opdOf_code (Opd.isSrc_fits hk.1)
  have e_b : opdOf f b.code = b := opdOf_code (Opd.isSrc_fits hk.2)
  have hm : (BitVec.ofNat 12 (0)).toNat = 0 := mod12 (by omega)
  obtain rfl := Option.some.inj (show some _ = some r from he)
  refine decodeOp_of_parse hw he hs ?_ ?_
  · show some (ok (.check (opdOf f a.code) (opdOf f b.code))) = _
    simp only [e_a, e_b]
  · exact .inl (show (BitVec.ofNat 8 0x39).toNat < 64 by decide)

theorem Laws.RoundTrip.srd (d : Opd) (n : BitVec 12) : Laws.RoundTrip.Statement (.srd d n) := by
  intro f regs nsem slot r hw he hs
  rw [RawOp.ofBits_toBits]
  obtain ⟨hf, hk⟩ := WellFormed.parts hw
  dsimp only [Instr.formOk, Instr.kindsOk] at hf hk
  (try simp only [Bool.and_eq_true] at hk)
  have e_d : opdOf f d.code = d := opdOf_code (Opd.isDst_fits hk)
  have := n.isLt
  have hm : (BitVec.ofNat 12 (n.toNat)).toNat = n.toNat := mod12 (by omega)
  obtain rfl := Option.some.inj (show some _ = some r from he)
  refine decodeOp_of_parse hw he hs ?_ ?_
  · have q_n : (BitVec.ofNat 12 (n.toNat)) = n := by apply BitVec.eq_of_toNat_eq; rw [hm]
    show some (ok (.srd (opdOf f d.code) (BitVec.ofNat 12 (n.toNat)))) = _
    simp only [e_d, q_n]
  · exact .inl (show (BitVec.ofNat 8 0x3A).toNat < 64 by decide)

theorem Laws.RoundTrip.swr (n : BitVec 12) (a : Opd) : Laws.RoundTrip.Statement (.swr n a) := by
  intro f regs nsem slot r hw he hs
  rw [RawOp.ofBits_toBits]
  obtain ⟨hf, hk⟩ := WellFormed.parts hw
  dsimp only [Instr.formOk, Instr.kindsOk] at hf hk
  (try simp only [Bool.and_eq_true] at hk)
  have e_a : opdOf f a.code = a := opdOf_code (Opd.isSrc_fits hk)
  have := n.isLt
  have hm : (BitVec.ofNat 12 (n.toNat)).toNat = n.toNat := mod12 (by omega)
  obtain rfl := Option.some.inj (show some _ = some r from he)
  refine decodeOp_of_parse hw he hs ?_ ?_
  · have q_n : (BitVec.ofNat 12 (n.toNat)) = n := by apply BitVec.eq_of_toNat_eq; rw [hm]
    show some (ok (.swr (BitVec.ofNat 12 (n.toNat)) (opdOf f a.code))) = _
    simp only [q_n, e_a]
  · exact .inl (show (BitVec.ofNat 8 0x3B).toNat < 64 by decide)

theorem Laws.RoundTrip.rngn (d : Opd) : Laws.RoundTrip.Statement (.rngn d) := by
  intro f regs nsem slot r hw he hs
  rw [RawOp.ofBits_toBits]
  obtain ⟨hf, hk⟩ := WellFormed.parts hw
  dsimp only [Instr.formOk, Instr.kindsOk] at hf hk
  (try simp only [Bool.and_eq_true] at hk)
  have e_d : opdOf f d.code = d := opdOf_code (Opd.isDst_fits hk)
  have hm : (BitVec.ofNat 12 (0)).toNat = 0 := mod12 (by omega)
  obtain rfl := Option.some.inj (show some _ = some r from he)
  refine decodeOp_of_parse hw he hs ?_ ?_
  · show some (ok (.rngn (opdOf f d.code))) = _
    simp only [e_d]
  · exact .inl (show (BitVec.ofNat 8 0x3C).toNat < 64 by decide)

theorem Laws.RoundTrip.rngf (t : FpTy) (d : Opd) : Laws.RoundTrip.Statement (.rngf t d) := by
  intro f regs nsem slot r hw he hs
  rw [RawOp.ofBits_toBits]
  obtain ⟨hf, hk⟩ := WellFormed.parts hw
  dsimp only [Instr.formOk, Instr.kindsOk] at hf hk
  (try simp only [Bool.and_eq_true] at hk)
  have e_d : opdOf f d.code = d := opdOf_code (Opd.isDst_fits hk)
  have := t.code_lt
  have hm : (BitVec.ofNat 12 (t.code)).toNat = t.code := mod12 (by omega)
  obtain rfl := Option.some.inj (show some _ = some r from he)
  refine decodeOp_of_parse hw he hs ?_ ?_
  · refine (congrArg some (fp_some (n := bits (BitVec.ofNat 12 (t.code)).toNat 1 0) (t := t) (by rw [hm]; simp only [bits]; omega) (fun t => ok (.rngf t (opdOf f d.code))))).trans ?_
    (try dsimp only)
    simp only [e_d]
  · exact .inl (show (BitVec.ofNat 8 0x3D).toNat < 64 by decide)

theorem Laws.RoundTrip.rngj (d : Opd) (k : RngK) : Laws.RoundTrip.Statement (.rngj d k) := by
  cases k with
  | reg a =>
    intro f regs nsem slot r hw he hs
    rw [RawOp.ofBits_toBits]
    obtain ⟨hf, hk⟩ := WellFormed.parts hw
    dsimp only [Instr.formOk, Instr.kindsOk] at hf hk
    (try simp only [Bool.and_eq_true] at hk)
    have e_d : opdOf f d.code = d := opdOf_code (by grind [Opd.isReg_fits, Opd.isDst_fits, Opd.isSrc_fits, Opd.isRegC_fits, Opd.isGroup_fits, Opd.isPair_fits, Opd.isVec_fits, Opd.isAcc_fits, Opd.isVSrc_fits])
    have e_a : opdOf f a.code = a := opdOf_code (by grind [Opd.isReg_fits, Opd.isDst_fits, Opd.isSrc_fits, Opd.isRegC_fits, Opd.isGroup_fits, Opd.isPair_fits, Opd.isVec_fits, Opd.isAcc_fits, Opd.isVSrc_fits])
    have hm : (BitVec.ofNat 12 (0)).toNat = 0 := mod12 (by omega)
    obtain rfl := Option.some.inj (show some _ = some r from he)
    refine decodeOp_of_parse hw he hs ?_ ?_
    · show some (ok (.rngj (opdOf f d.code) (if bit (BitVec.ofNat 12 (0)).toNat 7 then .imm (fin 128 (bits (BitVec.ofNat 12 (0)).toNat 6 0)) else .reg (opdOf f a.code)))) = _
      rw [e_d, e_a]; rfl
    · exact .inl (show (BitVec.ofNat 8 0x3E).toNat < 64 by decide)
  | imm k =>
    intro f regs nsem slot r hw he hs
    rw [RawOp.ofBits_toBits]
    obtain ⟨hf, hk⟩ := WellFormed.parts hw
    dsimp only [Instr.formOk, Instr.kindsOk] at hf hk
    (try simp only [Bool.and_eq_true] at hk)
    have e_d : opdOf f d.code = d := opdOf_code (by grind [Opd.isReg_fits, Opd.isDst_fits, Opd.isSrc_fits, Opd.isRegC_fits, Opd.isGroup_fits, Opd.isPair_fits, Opd.isVec_fits, Opd.isAcc_fits, Opd.isVSrc_fits])
    have := k.isLt
    have hm : (BitVec.ofNat 12 (128 + k.val)).toNat = 128 + k.val := mod12 (by omega)
    obtain rfl := Option.some.inj (show some _ = some r from he)
    refine decodeOp_of_parse hw he hs ?_ ?_
    · generalize hx : 128 + k.val = x at hm ⊢
      show some (ok (.rngj (opdOf f d.code) (if bit (BitVec.ofNat 12 (x)).toNat 7 then .imm (fin 128 (bits (BitVec.ofNat 12 (x)).toNat 6 0)) else .reg (opdOf f 0)))) = _
      have q1 : bit x 7 = true := bit_b2n (h := true) (by show _ = 1; omega)
      have q2 : fin 128 (bits x 6 0) = k := Fin.ext (by simp only [fin, bits]; omega)
      rw [e_d, hm, q1, q2]; rfl
    · exact .inl (show (BitVec.ofNat 8 0x3E).toNat < 64 by decide)

theorem Laws.RoundTrip.vnop (h : Bool) : Laws.RoundTrip.Statement (.vnop h) := by
  intro f regs nsem slot r hw he hs
  rw [RawOp.ofBits_toBits]
  obtain ⟨hf, hk⟩ := WellFormed.parts hw
  dsimp only [Instr.formOk, Instr.kindsOk] at hf hk
  obtain rfl := eq_of_beq hf
  have := b2n_lt h
  have hm : (BitVec.ofNat 12 ((b2n h * 2048))).toNat = (b2n h * 2048) := mod12 (by omega)
  obtain rfl := Option.some.inj (show some _ = some r from he)
  refine decodeOp_of_parse hw he hs ?_ ?_
  · generalize hx : (b2n h * 2048) = x at hm ⊢
    have q_h : (bit (BitVec.ofNat 12 (x)).toNat 11) = h := by rw [hm]; exact bit_b2n (by omega)
    show some (ok (.vnop (bit (BitVec.ofNat 12 (x)).toNat 11))) = _
    simp only [q_h]
  · exact .inr ⟨(congrArg (bit · 11) hm).trans (bit_b2n (h := h) (by omega)), fun _ => rfl⟩

theorem Laws.RoundTrip.vadd (v : VHdr) (d : Opd) (a : Opd) (b : Opd) : Laws.RoundTrip.Statement (.vadd v d a b) := by
  intro f regs nsem slot r hw he hs
  rw [RawOp.ofBits_toBits]
  obtain ⟨hf, hk⟩ := WellFormed.parts hw
  dsimp only [Instr.formOk, Instr.kindsOk] at hf hk
  obtain rfl := eq_of_beq hf
  (try simp only [Bool.and_eq_true] at hk)
  have e_d : opdOf .bundle d.code = d := opdOf_code (Opd.isVec_fits hk.1.1)
  have e_a : opdOf .bundle a.code = a := opdOf_code (Opd.isVSrc_fits hk.1.2)
  have e_b : opdOf .bundle b.code = b := opdOf_code (Opd.isVSrc_fits hk.2)
  have := v.mod_fields.1
  have hm : (BitVec.ofNat 12 (v.mod)).toNat = v.mod := mod12 (by omega)
  obtain rfl := Option.some.inj (show some _ = some r from he)
  refine decodeOp_of_parse hw he hs ?_ ?_
  · refine (congrArg some (vh_some (m := (BitVec.ofNat 12 (v.mod)).toNat) hm (fun v => ok (.vadd v (opdOf Form.bundle d.code) (opdOf Form.bundle a.code) (opdOf Form.bundle b.code))))).trans ?_
    (try dsimp only)
    simp only [e_d, e_a, e_b]
  · exact .inr ⟨(congrArg (bit · 11) hm).trans v.mod_fields.2.1, fun _ => rfl⟩

theorem Laws.RoundTrip.vsub (v : VHdr) (d : Opd) (a : Opd) (b : Opd) : Laws.RoundTrip.Statement (.vsub v d a b) := by
  intro f regs nsem slot r hw he hs
  rw [RawOp.ofBits_toBits]
  obtain ⟨hf, hk⟩ := WellFormed.parts hw
  dsimp only [Instr.formOk, Instr.kindsOk] at hf hk
  obtain rfl := eq_of_beq hf
  (try simp only [Bool.and_eq_true] at hk)
  have e_d : opdOf .bundle d.code = d := opdOf_code (Opd.isVec_fits hk.1.1)
  have e_a : opdOf .bundle a.code = a := opdOf_code (Opd.isVSrc_fits hk.1.2)
  have e_b : opdOf .bundle b.code = b := opdOf_code (Opd.isVSrc_fits hk.2)
  have := v.mod_fields.1
  have hm : (BitVec.ofNat 12 (v.mod)).toNat = v.mod := mod12 (by omega)
  obtain rfl := Option.some.inj (show some _ = some r from he)
  refine decodeOp_of_parse hw he hs ?_ ?_
  · refine (congrArg some (vh_some (m := (BitVec.ofNat 12 (v.mod)).toNat) hm (fun v => ok (.vsub v (opdOf Form.bundle d.code) (opdOf Form.bundle a.code) (opdOf Form.bundle b.code))))).trans ?_
    (try dsimp only)
    simp only [e_d, e_a, e_b]
  · exact .inr ⟨(congrArg (bit · 11) hm).trans v.mod_fields.2.1, fun _ => rfl⟩

theorem Laws.RoundTrip.vmul (v : VHdr) (d : Opd) (a : Opd) (b : Opd) : Laws.RoundTrip.Statement (.vmul v d a b) := by
  intro f regs nsem slot r hw he hs
  rw [RawOp.ofBits_toBits]
  obtain ⟨hf, hk⟩ := WellFormed.parts hw
  dsimp only [Instr.formOk, Instr.kindsOk] at hf hk
  obtain rfl := eq_of_beq hf
  (try simp only [Bool.and_eq_true] at hk)
  have e_d : opdOf .bundle d.code = d := opdOf_code (Opd.isVec_fits hk.1.1)
  have e_a : opdOf .bundle a.code = a := opdOf_code (Opd.isVSrc_fits hk.1.2)
  have e_b : opdOf .bundle b.code = b := opdOf_code (Opd.isVSrc_fits hk.2)
  have := v.mod_fields.1
  have hm : (BitVec.ofNat 12 (v.mod)).toNat = v.mod := mod12 (by omega)
  obtain rfl := Option.some.inj (show some _ = some r from he)
  refine decodeOp_of_parse hw he hs ?_ ?_
  · refine (congrArg some (vh_some (m := (BitVec.ofNat 12 (v.mod)).toNat) hm (fun v => ok (.vmul v (opdOf Form.bundle d.code) (opdOf Form.bundle a.code) (opdOf Form.bundle b.code))))).trans ?_
    (try dsimp only)
    simp only [e_d, e_a, e_b]
  · exact .inr ⟨(congrArg (bit · 11) hm).trans v.mod_fields.2.1, fun _ => rfl⟩

theorem Laws.RoundTrip.vmulh (v : VHdr) (d : Opd) (a : Opd) (b : Opd) : Laws.RoundTrip.Statement (.vmulh v d a b) := by
  intro f regs nsem slot r hw he hs
  rw [RawOp.ofBits_toBits]
  obtain ⟨hf, hk⟩ := WellFormed.parts hw
  dsimp only [Instr.formOk, Instr.kindsOk] at hf hk
  obtain rfl := eq_of_beq hf
  (try simp only [Bool.and_eq_true] at hk)
  have e_d : opdOf .bundle d.code = d := opdOf_code (Opd.isVec_fits hk.1.1)
  have e_a : opdOf .bundle a.code = a := opdOf_code (Opd.isVSrc_fits hk.1.2)
  have e_b : opdOf .bundle b.code = b := opdOf_code (Opd.isVSrc_fits hk.2)
  have := v.mod_fields.1
  have hm : (BitVec.ofNat 12 (v.mod)).toNat = v.mod := mod12 (by omega)
  obtain rfl := Option.some.inj (show some _ = some r from he)
  refine decodeOp_of_parse hw he hs ?_ ?_
  · refine (congrArg some (vh_some (m := (BitVec.ofNat 12 (v.mod)).toNat) hm (fun v => ok (.vmulh v (opdOf Form.bundle d.code) (opdOf Form.bundle a.code) (opdOf Form.bundle b.code))))).trans ?_
    (try dsimp only)
    simp only [e_d, e_a, e_b]
  · exact .inr ⟨(congrArg (bit · 11) hm).trans v.mod_fields.2.1, fun _ => rfl⟩

theorem Laws.RoundTrip.vmin (v : VHdr) (d : Opd) (a : Opd) (b : Opd) : Laws.RoundTrip.Statement (.vmin v d a b) := by
  intro f regs nsem slot r hw he hs
  rw [RawOp.ofBits_toBits]
  obtain ⟨hf, hk⟩ := WellFormed.parts hw
  dsimp only [Instr.formOk, Instr.kindsOk] at hf hk
  obtain rfl := eq_of_beq hf
  (try simp only [Bool.and_eq_true] at hk)
  have e_d : opdOf .bundle d.code = d := opdOf_code (Opd.isVec_fits hk.1.1)
  have e_a : opdOf .bundle a.code = a := opdOf_code (Opd.isVSrc_fits hk.1.2)
  have e_b : opdOf .bundle b.code = b := opdOf_code (Opd.isVSrc_fits hk.2)
  have := v.mod_fields.1
  have hm : (BitVec.ofNat 12 (v.mod)).toNat = v.mod := mod12 (by omega)
  obtain rfl := Option.some.inj (show some _ = some r from he)
  refine decodeOp_of_parse hw he hs ?_ ?_
  · refine (congrArg some (vh_some (m := (BitVec.ofNat 12 (v.mod)).toNat) hm (fun v => ok (.vmin v (opdOf Form.bundle d.code) (opdOf Form.bundle a.code) (opdOf Form.bundle b.code))))).trans ?_
    (try dsimp only)
    simp only [e_d, e_a, e_b]
  · exact .inr ⟨(congrArg (bit · 11) hm).trans v.mod_fields.2.1, fun _ => rfl⟩

theorem Laws.RoundTrip.vmax (v : VHdr) (d : Opd) (a : Opd) (b : Opd) : Laws.RoundTrip.Statement (.vmax v d a b) := by
  intro f regs nsem slot r hw he hs
  rw [RawOp.ofBits_toBits]
  obtain ⟨hf, hk⟩ := WellFormed.parts hw
  dsimp only [Instr.formOk, Instr.kindsOk] at hf hk
  obtain rfl := eq_of_beq hf
  (try simp only [Bool.and_eq_true] at hk)
  have e_d : opdOf .bundle d.code = d := opdOf_code (Opd.isVec_fits hk.1.1)
  have e_a : opdOf .bundle a.code = a := opdOf_code (Opd.isVSrc_fits hk.1.2)
  have e_b : opdOf .bundle b.code = b := opdOf_code (Opd.isVSrc_fits hk.2)
  have := v.mod_fields.1
  have hm : (BitVec.ofNat 12 (v.mod)).toNat = v.mod := mod12 (by omega)
  obtain rfl := Option.some.inj (show some _ = some r from he)
  refine decodeOp_of_parse hw he hs ?_ ?_
  · refine (congrArg some (vh_some (m := (BitVec.ofNat 12 (v.mod)).toNat) hm (fun v => ok (.vmax v (opdOf Form.bundle d.code) (opdOf Form.bundle a.code) (opdOf Form.bundle b.code))))).trans ?_
    (try dsimp only)
    simp only [e_d, e_a, e_b]
  · exact .inr ⟨(congrArg (bit · 11) hm).trans v.mod_fields.2.1, fun _ => rfl⟩

theorem Laws.RoundTrip.vabs (v : VHdr) (d : Opd) (a : Opd) : Laws.RoundTrip.Statement (.vabs v d a) := by
  intro f regs nsem slot r hw he hs
  rw [RawOp.ofBits_toBits]
  obtain ⟨hf, hk⟩ := WellFormed.parts hw
  dsimp only [Instr.formOk, Instr.kindsOk] at hf hk
  obtain rfl := eq_of_beq hf
  (try simp only [Bool.and_eq_true] at hk)
  have e_d : opdOf .bundle d.code = d := opdOf_code (Opd.isVec_fits hk.1)
  have e_a : opdOf .bundle a.code = a := opdOf_code (Opd.isVSrc_fits hk.2)
  have := v.mod_fields.1
  have hm : (BitVec.ofNat 12 (v.mod)).toNat = v.mod := mod12 (by omega)
  obtain rfl := Option.some.inj (show some _ = some r from he)
  refine decodeOp_of_parse hw he hs ?_ ?_
  · refine (congrArg some (vh_some (m := (BitVec.ofNat 12 (v.mod)).toNat) hm (fun v => ok (.vabs v (opdOf Form.bundle d.code) (opdOf Form.bundle a.code))))).trans ?_
    (try dsimp only)
    simp only [e_d, e_a]
  · exact .inr ⟨(congrArg (bit · 11) hm).trans v.mod_fields.2.1, fun _ => rfl⟩

theorem Laws.RoundTrip.vand (v : VHdr) (d : Opd) (a : Opd) (b : Opd) : Laws.RoundTrip.Statement (.vand v d a b) := by
  intro f regs nsem slot r hw he hs
  rw [RawOp.ofBits_toBits]
  obtain ⟨hf, hk⟩ := WellFormed.parts hw
  dsimp only [Instr.formOk, Instr.kindsOk] at hf hk
  obtain rfl := eq_of_beq hf
  (try simp only [Bool.and_eq_true] at hk)
  have e_d : opdOf .bundle d.code = d := opdOf_code (Opd.isVec_fits hk.1.1)
  have e_a : opdOf .bundle a.code = a := opdOf_code (Opd.isVSrc_fits hk.1.2)
  have e_b : opdOf .bundle b.code = b := opdOf_code (Opd.isVSrc_fits hk.2)
  have := v.mod_fields.1
  have hm : (BitVec.ofNat 12 (v.mod)).toNat = v.mod := mod12 (by omega)
  obtain rfl := Option.some.inj (show some _ = some r from he)
  refine decodeOp_of_parse hw he hs ?_ ?_
  · refine (congrArg some (vh_some (m := (BitVec.ofNat 12 (v.mod)).toNat) hm (fun v => ok (.vand v (opdOf Form.bundle d.code) (opdOf Form.bundle a.code) (opdOf Form.bundle b.code))))).trans ?_
    (try dsimp only)
    simp only [e_d, e_a, e_b]
  · exact .inr ⟨(congrArg (bit · 11) hm).trans v.mod_fields.2.1, fun _ => rfl⟩

theorem Laws.RoundTrip.vor (v : VHdr) (d : Opd) (a : Opd) (b : Opd) : Laws.RoundTrip.Statement (.vor v d a b) := by
  intro f regs nsem slot r hw he hs
  rw [RawOp.ofBits_toBits]
  obtain ⟨hf, hk⟩ := WellFormed.parts hw
  dsimp only [Instr.formOk, Instr.kindsOk] at hf hk
  obtain rfl := eq_of_beq hf
  (try simp only [Bool.and_eq_true] at hk)
  have e_d : opdOf .bundle d.code = d := opdOf_code (Opd.isVec_fits hk.1.1)
  have e_a : opdOf .bundle a.code = a := opdOf_code (Opd.isVSrc_fits hk.1.2)
  have e_b : opdOf .bundle b.code = b := opdOf_code (Opd.isVSrc_fits hk.2)
  have := v.mod_fields.1
  have hm : (BitVec.ofNat 12 (v.mod)).toNat = v.mod := mod12 (by omega)
  obtain rfl := Option.some.inj (show some _ = some r from he)
  refine decodeOp_of_parse hw he hs ?_ ?_
  · refine (congrArg some (vh_some (m := (BitVec.ofNat 12 (v.mod)).toNat) hm (fun v => ok (.vor v (opdOf Form.bundle d.code) (opdOf Form.bundle a.code) (opdOf Form.bundle b.code))))).trans ?_
    (try dsimp only)
    simp only [e_d, e_a, e_b]
  · exact .inr ⟨(congrArg (bit · 11) hm).trans v.mod_fields.2.1, fun _ => rfl⟩

theorem Laws.RoundTrip.vxor (v : VHdr) (d : Opd) (a : Opd) (b : Opd) : Laws.RoundTrip.Statement (.vxor v d a b) := by
  intro f regs nsem slot r hw he hs
  rw [RawOp.ofBits_toBits]
  obtain ⟨hf, hk⟩ := WellFormed.parts hw
  dsimp only [Instr.formOk, Instr.kindsOk] at hf hk
  obtain rfl := eq_of_beq hf
  (try simp only [Bool.and_eq_true] at hk)
  have e_d : opdOf .bundle d.code = d := opdOf_code (Opd.isVec_fits hk.1.1)
  have e_a : opdOf .bundle a.code = a := opdOf_code (Opd.isVSrc_fits hk.1.2)
  have e_b : opdOf .bundle b.code = b := opdOf_code (Opd.isVSrc_fits hk.2)
  have := v.mod_fields.1
  have hm : (BitVec.ofNat 12 (v.mod)).toNat = v.mod := mod12 (by omega)
  obtain rfl := Option.some.inj (show some _ = some r from he)
  refine decodeOp_of_parse hw he hs ?_ ?_
  · refine (congrArg some (vh_some (m := (BitVec.ofNat 12 (v.mod)).toNat) hm (fun v => ok (.vxor v (opdOf Form.bundle d.code) (opdOf Form.bundle a.code) (opdOf Form.bundle b.code))))).trans ?_
    (try dsimp only)
    simp only [e_d, e_a, e_b]
  · exact .inr ⟨(congrArg (bit · 11) hm).trans v.mod_fields.2.1, fun _ => rfl⟩

theorem Laws.RoundTrip.vshl (v : VHdr) (d : Opd) (a : Opd) (b : Opd) : Laws.RoundTrip.Statement (.vshl v d a b) := by
  intro f regs nsem slot r hw he hs
  rw [RawOp.ofBits_toBits]
  obtain ⟨hf, hk⟩ := WellFormed.parts hw
  dsimp only [Instr.formOk, Instr.kindsOk] at hf hk
  obtain rfl := eq_of_beq hf
  (try simp only [Bool.and_eq_true] at hk)
  have e_d : opdOf .bundle d.code = d := opdOf_code (Opd.isVec_fits hk.1.1)
  have e_a : opdOf .bundle a.code = a := opdOf_code (Opd.isVSrc_fits hk.1.2)
  have e_b : opdOf .bundle b.code = b := opdOf_code (Opd.isVSrc_fits hk.2)
  have := v.mod_fields.1
  have hm : (BitVec.ofNat 12 (v.mod)).toNat = v.mod := mod12 (by omega)
  obtain rfl := Option.some.inj (show some _ = some r from he)
  refine decodeOp_of_parse hw he hs ?_ ?_
  · refine (congrArg some (vh_some (m := (BitVec.ofNat 12 (v.mod)).toNat) hm (fun v => ok (.vshl v (opdOf Form.bundle d.code) (opdOf Form.bundle a.code) (opdOf Form.bundle b.code))))).trans ?_
    (try dsimp only)
    simp only [e_d, e_a, e_b]
  · exact .inr ⟨(congrArg (bit · 11) hm).trans v.mod_fields.2.1, fun _ => rfl⟩

theorem Laws.RoundTrip.vshr (v : VHdr) (d : Opd) (a : Opd) (b : Opd) : Laws.RoundTrip.Statement (.vshr v d a b) := by
  intro f regs nsem slot r hw he hs
  rw [RawOp.ofBits_toBits]
  obtain ⟨hf, hk⟩ := WellFormed.parts hw
  dsimp only [Instr.formOk, Instr.kindsOk] at hf hk
  obtain rfl := eq_of_beq hf
  (try simp only [Bool.and_eq_true] at hk)
  have e_d : opdOf .bundle d.code = d := opdOf_code (Opd.isVec_fits hk.1.1)
  have e_a : opdOf .bundle a.code = a := opdOf_code (Opd.isVSrc_fits hk.1.2)
  have e_b : opdOf .bundle b.code = b := opdOf_code (Opd.isVSrc_fits hk.2)
  have := v.mod_fields.1
  have hm : (BitVec.ofNat 12 (v.mod)).toNat = v.mod := mod12 (by omega)
  obtain rfl := Option.some.inj (show some _ = some r from he)
  refine decodeOp_of_parse hw he hs ?_ ?_
  · refine (congrArg some (vh_some (m := (BitVec.ofNat 12 (v.mod)).toNat) hm (fun v => ok (.vshr v (opdOf Form.bundle d.code) (opdOf Form.bundle a.code) (opdOf Form.bundle b.code))))).trans ?_
    (try dsimp only)
    simp only [e_d, e_a, e_b]
  · exact .inr ⟨(congrArg (bit · 11) hm).trans v.mod_fields.2.1, fun _ => rfl⟩

theorem Laws.RoundTrip.vsra (v : VHdr) (d : Opd) (a : Opd) (b : Opd) : Laws.RoundTrip.Statement (.vsra v d a b) := by
  intro f regs nsem slot r hw he hs
  rw [RawOp.ofBits_toBits]
  obtain ⟨hf, hk⟩ := WellFormed.parts hw
  dsimp only [Instr.formOk, Instr.kindsOk] at hf hk
  obtain rfl := eq_of_beq hf
  (try simp only [Bool.and_eq_true] at hk)
  have e_d : opdOf .bundle d.code = d := opdOf_code (Opd.isVec_fits hk.1.1)
  have e_a : opdOf .bundle a.code = a := opdOf_code (Opd.isVSrc_fits hk.1.2)
  have e_b : opdOf .bundle b.code = b := opdOf_code (Opd.isVSrc_fits hk.2)
  have := v.mod_fields.1
  have hm : (BitVec.ofNat 12 (v.mod)).toNat = v.mod := mod12 (by omega)
  obtain rfl := Option.some.inj (show some _ = some r from he)
  refine decodeOp_of_parse hw he hs ?_ ?_
  · refine (congrArg some (vh_some (m := (BitVec.ofNat 12 (v.mod)).toNat) hm (fun v => ok (.vsra v (opdOf Form.bundle d.code) (opdOf Form.bundle a.code) (opdOf Form.bundle b.code))))).trans ?_
    (try dsimp only)
    simp only [e_d, e_a, e_b]
  · exact .inr ⟨(congrArg (bit · 11) hm).trans v.mod_fields.2.1, fun _ => rfl⟩

theorem Laws.RoundTrip.vfadd (v : VHdr) (d : Opd) (a : Opd) (b : Opd) : Laws.RoundTrip.Statement (.vfadd v d a b) := by
  intro f regs nsem slot r hw he hs
  rw [RawOp.ofBits_toBits]
  obtain ⟨hf, hk⟩ := WellFormed.parts hw
  dsimp only [Instr.formOk, Instr.kindsOk] at hf hk
  obtain rfl := eq_of_beq hf
  (try simp only [Bool.and_eq_true] at hk)
  have e_d : opdOf .bundle d.code = d := opdOf_code (Opd.isVec_fits hk.1.1)
  have e_a : opdOf .bundle a.code = a := opdOf_code (Opd.isVSrc_fits hk.1.2)
  have e_b : opdOf .bundle b.code = b := opdOf_code (Opd.isVSrc_fits hk.2)
  have := v.mod_fields.1
  have hm : (BitVec.ofNat 12 (v.mod)).toNat = v.mod := mod12 (by omega)
  obtain rfl := Option.some.inj (show some _ = some r from he)
  refine decodeOp_of_parse hw he hs ?_ ?_
  · refine (congrArg some (vh_some (m := (BitVec.ofNat 12 (v.mod)).toNat) hm (fun v => ok (.vfadd v (opdOf Form.bundle d.code) (opdOf Form.bundle a.code) (opdOf Form.bundle b.code))))).trans ?_
    (try dsimp only)
    simp only [e_d, e_a, e_b]
  · exact .inr ⟨(congrArg (bit · 11) hm).trans v.mod_fields.2.1, fun _ => rfl⟩

theorem Laws.RoundTrip.vfsub (v : VHdr) (d : Opd) (a : Opd) (b : Opd) : Laws.RoundTrip.Statement (.vfsub v d a b) := by
  intro f regs nsem slot r hw he hs
  rw [RawOp.ofBits_toBits]
  obtain ⟨hf, hk⟩ := WellFormed.parts hw
  dsimp only [Instr.formOk, Instr.kindsOk] at hf hk
  obtain rfl := eq_of_beq hf
  (try simp only [Bool.and_eq_true] at hk)
  have e_d : opdOf .bundle d.code = d := opdOf_code (Opd.isVec_fits hk.1.1)
  have e_a : opdOf .bundle a.code = a := opdOf_code (Opd.isVSrc_fits hk.1.2)
  have e_b : opdOf .bundle b.code = b := opdOf_code (Opd.isVSrc_fits hk.2)
  have := v.mod_fields.1
  have hm : (BitVec.ofNat 12 (v.mod)).toNat = v.mod := mod12 (by omega)
  obtain rfl := Option.some.inj (show some _ = some r from he)
  refine decodeOp_of_parse hw he hs ?_ ?_
  · refine (congrArg some (vh_some (m := (BitVec.ofNat 12 (v.mod)).toNat) hm (fun v => ok (.vfsub v (opdOf Form.bundle d.code) (opdOf Form.bundle a.code) (opdOf Form.bundle b.code))))).trans ?_
    (try dsimp only)
    simp only [e_d, e_a, e_b]
  · exact .inr ⟨(congrArg (bit · 11) hm).trans v.mod_fields.2.1, fun _ => rfl⟩

theorem Laws.RoundTrip.vfmul (v : VHdr) (d : Opd) (a : Opd) (b : Opd) : Laws.RoundTrip.Statement (.vfmul v d a b) := by
  intro f regs nsem slot r hw he hs
  rw [RawOp.ofBits_toBits]
  obtain ⟨hf, hk⟩ := WellFormed.parts hw
  dsimp only [Instr.formOk, Instr.kindsOk] at hf hk
  obtain rfl := eq_of_beq hf
  (try simp only [Bool.and_eq_true] at hk)
  have e_d : opdOf .bundle d.code = d := opdOf_code (Opd.isVec_fits hk.1.1)
  have e_a : opdOf .bundle a.code = a := opdOf_code (Opd.isVSrc_fits hk.1.2)
  have e_b : opdOf .bundle b.code = b := opdOf_code (Opd.isVSrc_fits hk.2)
  have := v.mod_fields.1
  have hm : (BitVec.ofNat 12 (v.mod)).toNat = v.mod := mod12 (by omega)
  obtain rfl := Option.some.inj (show some _ = some r from he)
  refine decodeOp_of_parse hw he hs ?_ ?_
  · refine (congrArg some (vh_some (m := (BitVec.ofNat 12 (v.mod)).toNat) hm (fun v => ok (.vfmul v (opdOf Form.bundle d.code) (opdOf Form.bundle a.code) (opdOf Form.bundle b.code))))).trans ?_
    (try dsimp only)
    simp only [e_d, e_a, e_b]
  · exact .inr ⟨(congrArg (bit · 11) hm).trans v.mod_fields.2.1, fun _ => rfl⟩

theorem Laws.RoundTrip.vfma (v : VHdr) (d : Opd) (a : Opd) (b : Opd) : Laws.RoundTrip.Statement (.vfma v d a b) := by
  intro f regs nsem slot r hw he hs
  rw [RawOp.ofBits_toBits]
  obtain ⟨hf, hk⟩ := WellFormed.parts hw
  dsimp only [Instr.formOk, Instr.kindsOk] at hf hk
  obtain rfl := eq_of_beq hf
  (try simp only [Bool.and_eq_true] at hk)
  have e_d : opdOf .bundle d.code = d := opdOf_code (Opd.isVec_fits hk.1.1)
  have e_a : opdOf .bundle a.code = a := opdOf_code (Opd.isVSrc_fits hk.1.2)
  have e_b : opdOf .bundle b.code = b := opdOf_code (Opd.isVSrc_fits hk.2)
  have := v.mod_fields.1
  have hm : (BitVec.ofNat 12 (v.mod)).toNat = v.mod := mod12 (by omega)
  obtain rfl := Option.some.inj (show some _ = some r from he)
  refine decodeOp_of_parse hw he hs ?_ ?_
  · refine (congrArg some (vh_some (m := (BitVec.ofNat 12 (v.mod)).toNat) hm (fun v => ok (.vfma v (opdOf Form.bundle d.code) (opdOf Form.bundle a.code) (opdOf Form.bundle b.code))))).trans ?_
    (try dsimp only)
    simp only [e_d, e_a, e_b]
  · exact .inr ⟨(congrArg (bit · 11) hm).trans v.mod_fields.2.1, fun _ => rfl⟩

theorem Laws.RoundTrip.vfmin (v : VHdr) (d : Opd) (a : Opd) (b : Opd) : Laws.RoundTrip.Statement (.vfmin v d a b) := by
  intro f regs nsem slot r hw he hs
  rw [RawOp.ofBits_toBits]
  obtain ⟨hf, hk⟩ := WellFormed.parts hw
  dsimp only [Instr.formOk, Instr.kindsOk] at hf hk
  obtain rfl := eq_of_beq hf
  (try simp only [Bool.and_eq_true] at hk)
  have e_d : opdOf .bundle d.code = d := opdOf_code (Opd.isVec_fits hk.1.1)
  have e_a : opdOf .bundle a.code = a := opdOf_code (Opd.isVSrc_fits hk.1.2)
  have e_b : opdOf .bundle b.code = b := opdOf_code (Opd.isVSrc_fits hk.2)
  have := v.mod_fields.1
  have hm : (BitVec.ofNat 12 (v.mod)).toNat = v.mod := mod12 (by omega)
  obtain rfl := Option.some.inj (show some _ = some r from he)
  refine decodeOp_of_parse hw he hs ?_ ?_
  · refine (congrArg some (vh_some (m := (BitVec.ofNat 12 (v.mod)).toNat) hm (fun v => ok (.vfmin v (opdOf Form.bundle d.code) (opdOf Form.bundle a.code) (opdOf Form.bundle b.code))))).trans ?_
    (try dsimp only)
    simp only [e_d, e_a, e_b]
  · exact .inr ⟨(congrArg (bit · 11) hm).trans v.mod_fields.2.1, fun _ => rfl⟩

theorem Laws.RoundTrip.vfmax (v : VHdr) (d : Opd) (a : Opd) (b : Opd) : Laws.RoundTrip.Statement (.vfmax v d a b) := by
  intro f regs nsem slot r hw he hs
  rw [RawOp.ofBits_toBits]
  obtain ⟨hf, hk⟩ := WellFormed.parts hw
  dsimp only [Instr.formOk, Instr.kindsOk] at hf hk
  obtain rfl := eq_of_beq hf
  (try simp only [Bool.and_eq_true] at hk)
  have e_d : opdOf .bundle d.code = d := opdOf_code (Opd.isVec_fits hk.1.1)
  have e_a : opdOf .bundle a.code = a := opdOf_code (Opd.isVSrc_fits hk.1.2)
  have e_b : opdOf .bundle b.code = b := opdOf_code (Opd.isVSrc_fits hk.2)
  have := v.mod_fields.1
  have hm : (BitVec.ofNat 12 (v.mod)).toNat = v.mod := mod12 (by omega)
  obtain rfl := Option.some.inj (show some _ = some r from he)
  refine decodeOp_of_parse hw he hs ?_ ?_
  · refine (congrArg some (vh_some (m := (BitVec.ofNat 12 (v.mod)).toNat) hm (fun v => ok (.vfmax v (opdOf Form.bundle d.code) (opdOf Form.bundle a.code) (opdOf Form.bundle b.code))))).trans ?_
    (try dsimp only)
    simp only [e_d, e_a, e_b]
  · exact .inr ⟨(congrArg (bit · 11) hm).trans v.mod_fields.2.1, fun _ => rfl⟩

theorem Laws.RoundTrip.vcmp (v : VHdr) (c : CmpC) (pd : Fin 8) (a : Opd) (b : Opd) : Laws.RoundTrip.Statement (.vcmp v c pd a b) := by
  intro f regs nsem slot r hw he hs
  rw [RawOp.ofBits_toBits]
  obtain ⟨hf, hk⟩ := WellFormed.parts hw
  dsimp only [Instr.formOk, Instr.kindsOk] at hf hk
  obtain rfl := eq_of_beq hf
  (try simp only [Bool.and_eq_true] at hk)
  have e_a : opdOf .bundle a.code = a := opdOf_code (by grind [Opd.isReg_fits, Opd.isDst_fits, Opd.isSrc_fits, Opd.isRegC_fits, Opd.isGroup_fits, Opd.isPair_fits, Opd.isVec_fits, Opd.isAcc_fits, Opd.isVSrc_fits])
  have e_b : opdOf .bundle b.code = b := opdOf_code (by grind [Opd.isReg_fits, Opd.isDst_fits, Opd.isSrc_fits, Opd.isRegC_fits, Opd.isGroup_fits, Opd.isPair_fits, Opd.isVec_fits, Opd.isAcc_fits, Opd.isVSrc_fits])
  have := pd.isLt
  have := c.code_lt
  have := v.mod_fields.1
  have hm : (BitVec.ofNat 12 (v.mod)).toNat = v.mod := mod12 (by omega)
  obtain rfl := Option.some.inj (show some _ = some r from he)
  refine decodeOp_of_parse hw he hs ?_ ?_
  · have hd : (BitVec.ofNat 8 (pd.val + c.code * 8)).toNat = pd.val + c.code * 8 := byteOf (by omega)
    refine (congrArg some ((low_of (n := (BitVec.ofNat 8 (pd.val + c.code * 8)).toNat) (by omega)).trans (vh_some (m := (BitVec.ofNat 12 (v.mod)).toNat) hm (fun v => ok (.vcmp v (cmpOf ((BitVec.ofNat 8 (pd.val + c.code * 8)).toNat / 8 % 8)) (fin 8 (BitVec.ofNat 8 (pd.val + c.code * 8)).toNat) (opdOf .bundle a.code) (opdOf .bundle b.code)))))).trans ?_
    have q1 : cmpOf ((pd.val + c.code * 8) / 8 % 8) = c := by rw [show (pd.val + c.code * 8) / 8 % 8 = c.code by omega]; exact cmpOf_code c
    have q2 : fin 8 (pd.val + c.code * 8) = pd := Fin.ext (by simp only [fin]; omega)
    simp only [hd, q1, q2, e_a, e_b]
  · exact .inr ⟨(congrArg (bit · 11) hm).trans v.mod_fields.2.1, fun _ => rfl⟩

theorem Laws.RoundTrip.vfcmp (v : VHdr) (c : CmpC) (pd : Fin 8) (a : Opd) (b : Opd) : Laws.RoundTrip.Statement (.vfcmp v c pd a b) := by
  intro f regs nsem slot r hw he hs
  rw [RawOp.ofBits_toBits]
  obtain ⟨hf, hk⟩ := WellFormed.parts hw
  dsimp only [Instr.formOk, Instr.kindsOk] at hf hk
  obtain rfl := eq_of_beq hf
  (try simp only [Bool.and_eq_true] at hk)
  have e_a : opdOf .bundle a.code = a := opdOf_code (by grind [Opd.isReg_fits, Opd.isDst_fits, Opd.isSrc_fits, Opd.isRegC_fits, Opd.isGroup_fits, Opd.isPair_fits, Opd.isVec_fits, Opd.isAcc_fits, Opd.isVSrc_fits])
  have e_b : opdOf .bundle b.code = b := opdOf_code (by grind [Opd.isReg_fits, Opd.isDst_fits, Opd.isSrc_fits, Opd.isRegC_fits, Opd.isGroup_fits, Opd.isPair_fits, Opd.isVec_fits, Opd.isAcc_fits, Opd.isVSrc_fits])
  have := pd.isLt
  have := c.code_lt
  have := v.mod_fields.1
  have hm : (BitVec.ofNat 12 (v.mod)).toNat = v.mod := mod12 (by omega)
  obtain rfl := Option.some.inj (show some _ = some r from he)
  refine decodeOp_of_parse hw he hs ?_ ?_
  · have hd : (BitVec.ofNat 8 (pd.val + c.code * 8)).toNat = pd.val + c.code * 8 := byteOf (by omega)
    refine (congrArg some ((low_of (n := (BitVec.ofNat 8 (pd.val + c.code * 8)).toNat) (by omega)).trans (vh_some (m := (BitVec.ofNat 12 (v.mod)).toNat) hm (fun v => ok (.vfcmp v (cmpOf ((BitVec.ofNat 8 (pd.val + c.code * 8)).toNat / 8 % 8)) (fin 8 (BitVec.ofNat 8 (pd.val + c.code * 8)).toNat) (opdOf .bundle a.code) (opdOf .bundle b.code)))))).trans ?_
    have q1 : cmpOf ((pd.val + c.code * 8) / 8 % 8) = c := by rw [show (pd.val + c.code * 8) / 8 % 8 = c.code by omega]; exact cmpOf_code c
    have q2 : fin 8 (pd.val + c.code * 8) = pd := Fin.ext (by simp only [fin]; omega)
    simp only [hd, q1, q2, e_a, e_b]
  · exact .inr ⟨(congrArg (bit · 11) hm).trans v.mod_fields.2.1, fun _ => rfl⟩

theorem Laws.RoundTrip.vsel (v : VHdr) (d : Opd) (a : Opd) (b : Opd) : Laws.RoundTrip.Statement (.vsel v d a b) := by
  intro f regs nsem slot r hw he hs
  rw [RawOp.ofBits_toBits]
  obtain ⟨hf, hk⟩ := WellFormed.parts hw
  dsimp only [Instr.formOk, Instr.kindsOk] at hf hk
  obtain rfl := eq_of_beq hf
  (try simp only [Bool.and_eq_true] at hk)
  have e_d : opdOf .bundle d.code = d := opdOf_code (Opd.isVec_fits hk.1.1)
  have e_a : opdOf .bundle a.code = a := opdOf_code (Opd.isVSrc_fits hk.1.2)
  have e_b : opdOf .bundle b.code = b := opdOf_code (Opd.isVSrc_fits hk.2)
  have := v.mod_fields.1
  have hm : (BitVec.ofNat 12 (v.mod)).toNat = v.mod := mod12 (by omega)
  obtain rfl := Option.some.inj (show some _ = some r from he)
  refine decodeOp_of_parse hw he hs ?_ ?_
  · refine (congrArg some (vh_some (m := (BitVec.ofNat 12 (v.mod)).toNat) hm (fun v => ok (.vsel v (opdOf Form.bundle d.code) (opdOf Form.bundle a.code) (opdOf Form.bundle b.code))))).trans ?_
    (try dsimp only)
    simp only [e_d, e_a, e_b]
  · exact .inr ⟨(congrArg (bit · 11) hm).trans v.mod_fields.2.1, fun _ => rfl⟩

theorem Laws.RoundTrip.vcvt (v : VHdr) (t1 : Ty) (d : Opd) (a : Opd) : Laws.RoundTrip.Statement (.vcvt v t1 d a) := by
  intro f regs nsem slot r hw he hs
  rw [RawOp.ofBits_toBits]
  obtain ⟨hf, hk⟩ := WellFormed.parts hw
  dsimp only [Instr.formOk, Instr.kindsOk] at hf hk
  obtain rfl := eq_of_beq hf
  (try simp only [Bool.and_eq_true] at hk)
  have e_d : opdOf .bundle d.code = d := opdOf_code (by grind [Opd.isReg_fits, Opd.isDst_fits, Opd.isSrc_fits, Opd.isRegC_fits, Opd.isGroup_fits, Opd.isPair_fits, Opd.isVec_fits, Opd.isAcc_fits, Opd.isVSrc_fits])
  have e_a : opdOf .bundle a.code = a := opdOf_code (by grind [Opd.isReg_fits, Opd.isDst_fits, Opd.isSrc_fits, Opd.isRegC_fits, Opd.isGroup_fits, Opd.isPair_fits, Opd.isVec_fits, Opd.isAcc_fits, Opd.isVSrc_fits])
  have := t1.code_lt
  have := v.mod_fields.1
  have hm : (BitVec.ofNat 12 (v.mod)).toNat = v.mod := mod12 (by omega)
  obtain rfl := Option.some.inj (show some _ = some r from he)
  refine decodeOp_of_parse hw he hs ?_ ?_
  · have hd : (BitVec.ofNat 8 t1.code).toNat = t1.code := byteOf (by omega)
    refine (congrArg some ((low_of (n := (BitVec.ofNat 8 t1.code).toNat) (by omega)).trans (vh_some (m := (BitVec.ofNat 12 (v.mod)).toNat) hm (fun v => need 0x0B (tyOf ((BitVec.ofNat 8 t1.code).toNat % 32)) .i8 fun t1 => ok (.vcvt v t1 (opdOf .bundle d.code) (opdOf .bundle a.code)))))).trans ?_
    rw [hd, need_some (v := t1) (by rw [show t1.code % 32 = t1.code by omega]; exact tyOf_code t1), e_d, e_a]
  · exact .inr ⟨(congrArg (bit · 11) hm).trans v.mod_fields.2.1, fun _ => rfl⟩

theorem Laws.RoundTrip.vsplat (v : VHdr) (d : Opd) (a : Opd) : Laws.RoundTrip.Statement (.vsplat v d a) := by
  intro f regs nsem slot r hw he hs
  rw [RawOp.ofBits_toBits]
  obtain ⟨hf, hk⟩ := WellFormed.parts hw
  dsimp only [Instr.formOk, Instr.kindsOk] at hf hk
  obtain rfl := eq_of_beq hf
  (try simp only [Bool.and_eq_true] at hk)
  have e_d : opdOf .bundle d.code = d := opdOf_code (Opd.isVec_fits hk.1)
  have e_a : opdOf .bundle a.code = a := opdOf_code (Opd.isSrc_fits hk.2)
  have := v.mod_fields.1
  have hm : (BitVec.ofNat 12 (v.mod)).toNat = v.mod := mod12 (by omega)
  obtain rfl := Option.some.inj (show some _ = some r from he)
  refine decodeOp_of_parse hw he hs ?_ ?_
  · refine (congrArg some (vh_some (m := (BitVec.ofNat 12 (v.mod)).toNat) hm (fun v => ok (.vsplat v (opdOf Form.bundle d.code) (opdOf Form.bundle a.code))))).trans ?_
    (try dsimp only)
    simp only [e_d, e_a]
  · exact .inr ⟨(congrArg (bit · 11) hm).trans v.mod_fields.2.1, fun _ => rfl⟩

theorem Laws.RoundTrip.vext (v : VHdr) (d : Opd) (a : Opd) (b : Opd) : Laws.RoundTrip.Statement (.vext v d a b) := by
  intro f regs nsem slot r hw he hs
  rw [RawOp.ofBits_toBits]
  obtain ⟨hf, hk⟩ := WellFormed.parts hw
  dsimp only [Instr.formOk, Instr.kindsOk] at hf hk
  obtain rfl := eq_of_beq hf
  (try simp only [Bool.and_eq_true] at hk)
  have e_d : opdOf .bundle d.code = d := opdOf_code (Opd.isDst_fits hk.1.1)
  have e_a : opdOf .bundle a.code = a := opdOf_code (Opd.isVSrc_fits hk.1.2)
  have e_b : opdOf .bundle b.code = b := opdOf_code (Opd.isSrc_fits hk.2)
  have := v.mod_fields.1
  have hm : (BitVec.ofNat 12 (v.mod)).toNat = v.mod := mod12 (by omega)
  obtain rfl := Option.some.inj (show some _ = some r from he)
  refine decodeOp_of_parse hw he hs ?_ ?_
  · refine (congrArg some (vh_some (m := (BitVec.ofNat 12 (v.mod)).toNat) hm (fun v => ok (.vext v (opdOf Form.bundle d.code) (opdOf Form.bundle a.code) (opdOf Form.bundle b.code))))).trans ?_
    (try dsimp only)
    simp only [e_d, e_a, e_b]
  · exact .inr ⟨(congrArg (bit · 11) hm).trans v.mod_fields.2.1, fun _ => rfl⟩

theorem Laws.RoundTrip.vins (v : VHdr) (d : Opd) (a : Opd) (b : Opd) : Laws.RoundTrip.Statement (.vins v d a b) := by
  intro f regs nsem slot r hw he hs
  rw [RawOp.ofBits_toBits]
  obtain ⟨hf, hk⟩ := WellFormed.parts hw
  dsimp only [Instr.formOk, Instr.kindsOk] at hf hk
  obtain rfl := eq_of_beq hf
  (try simp only [Bool.and_eq_true] at hk)
  have e_d : opdOf .bundle d.code = d := opdOf_code (Opd.isVec_fits hk.1.1)
  have e_a : opdOf .bundle a.code = a := opdOf_code (Opd.isSrc_fits hk.1.2)
  have e_b : opdOf .bundle b.code = b := opdOf_code (Opd.isSrc_fits hk.2)
  have := v.mod_fields.1
  have hm : (BitVec.ofNat 12 (v.mod)).toNat = v.mod := mod12 (by omega)
  obtain rfl := Option.some.inj (show some _ = some r from he)
  refine decodeOp_of_parse hw he hs ?_ ?_
  · refine (congrArg some (vh_some (m := (BitVec.ofNat 12 (v.mod)).toNat) hm (fun v => ok (.vins v (opdOf Form.bundle d.code) (opdOf Form.bundle a.code) (opdOf Form.bundle b.code))))).trans ?_
    (try dsimp only)
    simp only [e_d, e_a, e_b]
  · exact .inr ⟨(congrArg (bit · 11) hm).trans v.mod_fields.2.1, fun _ => rfl⟩

theorem Laws.RoundTrip.vperm (v : VHdr) (d : Opd) (a : Opd) (b : Opd) : Laws.RoundTrip.Statement (.vperm v d a b) := by
  intro f regs nsem slot r hw he hs
  rw [RawOp.ofBits_toBits]
  obtain ⟨hf, hk⟩ := WellFormed.parts hw
  dsimp only [Instr.formOk, Instr.kindsOk] at hf hk
  obtain rfl := eq_of_beq hf
  (try simp only [Bool.and_eq_true] at hk)
  have e_d : opdOf .bundle d.code = d := opdOf_code (Opd.isVec_fits hk.1.1)
  have e_a : opdOf .bundle a.code = a := opdOf_code (Opd.isVSrc_fits hk.1.2)
  have e_b : opdOf .bundle b.code = b := opdOf_code (Opd.isVSrc_fits hk.2)
  have := v.mod_fields.1
  have hm : (BitVec.ofNat 12 (v.mod)).toNat = v.mod := mod12 (by omega)
  obtain rfl := Option.some.inj (show some _ = some r from he)
  refine decodeOp_of_parse hw he hs ?_ ?_
  · refine (congrArg some (vh_some (m := (BitVec.ofNat 12 (v.mod)).toNat) hm (fun v => ok (.vperm v (opdOf Form.bundle d.code) (opdOf Form.bundle a.code) (opdOf Form.bundle b.code))))).trans ?_
    (try dsimp only)
    simp only [e_d, e_a, e_b]
  · exact .inr ⟨(congrArg (bit · 11) hm).trans v.mod_fields.2.1, fun _ => rfl⟩

theorem Laws.RoundTrip.vslide (v : VHdr) (d : Opd) (a : Opd) (b : Opd) : Laws.RoundTrip.Statement (.vslide v d a b) := by
  intro f regs nsem slot r hw he hs
  rw [RawOp.ofBits_toBits]
  obtain ⟨hf, hk⟩ := WellFormed.parts hw
  dsimp only [Instr.formOk, Instr.kindsOk] at hf hk
  obtain rfl := eq_of_beq hf
  (try simp only [Bool.and_eq_true] at hk)
  have e_d : opdOf .bundle d.code = d := opdOf_code (Opd.isVec_fits hk.1.1)
  have e_a : opdOf .bundle a.code = a := opdOf_code (Opd.isVSrc_fits hk.1.2)
  have e_b : opdOf .bundle b.code = b := opdOf_code (Opd.isSrc_fits hk.2)
  have := v.mod_fields.1
  have hm : (BitVec.ofNat 12 (v.mod)).toNat = v.mod := mod12 (by omega)
  obtain rfl := Option.some.inj (show some _ = some r from he)
  refine decodeOp_of_parse hw he hs ?_ ?_
  · refine (congrArg some (vh_some (m := (BitVec.ofNat 12 (v.mod)).toNat) hm (fun v => ok (.vslide v (opdOf Form.bundle d.code) (opdOf Form.bundle a.code) (opdOf Form.bundle b.code))))).trans ?_
    (try dsimp only)
    simp only [e_d, e_a, e_b]
  · exact .inr ⟨(congrArg (bit · 11) hm).trans v.mod_fields.2.1, fun _ => rfl⟩

theorem Laws.RoundTrip.vzip (v : VHdr) (d : Opd) (a : Opd) (b : Opd) : Laws.RoundTrip.Statement (.vzip v d a b) := by
  intro f regs nsem slot r hw he hs
  rw [RawOp.ofBits_toBits]
  obtain ⟨hf, hk⟩ := WellFormed.parts hw
  dsimp only [Instr.formOk, Instr.kindsOk] at hf hk
  obtain rfl := eq_of_beq hf
  (try simp only [Bool.and_eq_true] at hk)
  have e_d : opdOf .bundle d.code = d := opdOf_code (Opd.isVec_fits hk.1.1)
  have e_a : opdOf .bundle a.code = a := opdOf_code (Opd.isVSrc_fits hk.1.2)
  have e_b : opdOf .bundle b.code = b := opdOf_code (Opd.isVSrc_fits hk.2)
  have := v.mod_fields.1
  have hm : (BitVec.ofNat 12 (v.mod)).toNat = v.mod := mod12 (by omega)
  obtain rfl := Option.some.inj (show some _ = some r from he)
  refine decodeOp_of_parse hw he hs ?_ ?_
  · refine (congrArg some (vh_some (m := (BitVec.ofNat 12 (v.mod)).toNat) hm (fun v => ok (.vzip v (opdOf Form.bundle d.code) (opdOf Form.bundle a.code) (opdOf Form.bundle b.code))))).trans ?_
    (try dsimp only)
    simp only [e_d, e_a, e_b]
  · exact .inr ⟨(congrArg (bit · 11) hm).trans v.mod_fields.2.1, fun _ => rfl⟩

theorem Laws.RoundTrip.vunzip (v : VHdr) (d : Opd) (a : Opd) (b : Opd) : Laws.RoundTrip.Statement (.vunzip v d a b) := by
  intro f regs nsem slot r hw he hs
  rw [RawOp.ofBits_toBits]
  obtain ⟨hf, hk⟩ := WellFormed.parts hw
  dsimp only [Instr.formOk, Instr.kindsOk] at hf hk
  obtain rfl := eq_of_beq hf
  (try simp only [Bool.and_eq_true] at hk)
  have e_d : opdOf .bundle d.code = d := opdOf_code (Opd.isVec_fits hk.1.1)
  have e_a : opdOf .bundle a.code = a := opdOf_code (Opd.isVSrc_fits hk.1.2)
  have e_b : opdOf .bundle b.code = b := opdOf_code (Opd.isVSrc_fits hk.2)
  have := v.mod_fields.1
  have hm : (BitVec.ofNat 12 (v.mod)).toNat = v.mod := mod12 (by omega)
  obtain rfl := Option.some.inj (show some _ = some r from he)
  refine decodeOp_of_parse hw he hs ?_ ?_
  · refine (congrArg some (vh_some (m := (BitVec.ofNat 12 (v.mod)).toNat) hm (fun v => ok (.vunzip v (opdOf Form.bundle d.code) (opdOf Form.bundle a.code) (opdOf Form.bundle b.code))))).trans ?_
    (try dsimp only)
    simp only [e_d, e_a, e_b]
  · exact .inr ⟨(congrArg (bit · 11) hm).trans v.mod_fields.2.1, fun _ => rfl⟩

theorem Laws.RoundTrip.vcprs (v : VHdr) (d : Opd) (a : Opd) : Laws.RoundTrip.Statement (.vcprs v d a) := by
  intro f regs nsem slot r hw he hs
  rw [RawOp.ofBits_toBits]
  obtain ⟨hf, hk⟩ := WellFormed.parts hw
  dsimp only [Instr.formOk, Instr.kindsOk] at hf hk
  obtain rfl := eq_of_beq hf
  (try simp only [Bool.and_eq_true] at hk)
  have e_d : opdOf .bundle d.code = d := opdOf_code (Opd.isVec_fits hk.1)
  have e_a : opdOf .bundle a.code = a := opdOf_code (Opd.isVSrc_fits hk.2)
  have := v.mod_fields.1
  have hm : (BitVec.ofNat 12 (v.mod)).toNat = v.mod := mod12 (by omega)
  obtain rfl := Option.some.inj (show some _ = some r from he)
  refine decodeOp_of_parse hw he hs ?_ ?_
  · refine (congrArg some (vh_some (m := (BitVec.ofNat 12 (v.mod)).toNat) hm (fun v => ok (.vcprs v (opdOf Form.bundle d.code) (opdOf Form.bundle a.code))))).trans ?_
    (try dsimp only)
    simp only [e_d, e_a]
  · exact .inr ⟨(congrArg (bit · 11) hm).trans v.mod_fields.2.1, fun _ => rfl⟩

theorem Laws.RoundTrip.vpcnt (v : VHdr) (d : Opd) (a : Opd) : Laws.RoundTrip.Statement (.vpcnt v d a) := by
  intro f regs nsem slot r hw he hs
  rw [RawOp.ofBits_toBits]
  obtain ⟨hf, hk⟩ := WellFormed.parts hw
  dsimp only [Instr.formOk, Instr.kindsOk] at hf hk
  obtain rfl := eq_of_beq hf
  (try simp only [Bool.and_eq_true] at hk)
  have e_d : opdOf .bundle d.code = d := opdOf_code (Opd.isVec_fits hk.1)
  have e_a : opdOf .bundle a.code = a := opdOf_code (Opd.isVSrc_fits hk.2)
  have := v.mod_fields.1
  have hm : (BitVec.ofNat 12 (v.mod)).toNat = v.mod := mod12 (by omega)
  obtain rfl := Option.some.inj (show some _ = some r from he)
  refine decodeOp_of_parse hw he hs ?_ ?_
  · refine (congrArg some (vh_some (m := (BitVec.ofNat 12 (v.mod)).toNat) hm (fun v => ok (.vpcnt v (opdOf Form.bundle d.code) (opdOf Form.bundle a.code))))).trans ?_
    (try dsimp only)
    simp only [e_d, e_a]
  · exact .inr ⟨(congrArg (bit · 11) hm).trans v.mod_fields.2.1, fun _ => rfl⟩

theorem Laws.RoundTrip.viota (v : VHdr) (d : Opd) : Laws.RoundTrip.Statement (.viota v d) := by
  intro f regs nsem slot r hw he hs
  rw [RawOp.ofBits_toBits]
  obtain ⟨hf, hk⟩ := WellFormed.parts hw
  dsimp only [Instr.formOk, Instr.kindsOk] at hf hk
  obtain rfl := eq_of_beq hf
  (try simp only [Bool.and_eq_true] at hk)
  have e_d : opdOf .bundle d.code = d := opdOf_code (Opd.isVec_fits hk)
  have := v.mod_fields.1
  have hm : (BitVec.ofNat 12 (v.mod)).toNat = v.mod := mod12 (by omega)
  obtain rfl := Option.some.inj (show some _ = some r from he)
  refine decodeOp_of_parse hw he hs ?_ ?_
  · refine (congrArg some (vh_some (m := (BitVec.ofNat 12 (v.mod)).toNat) hm (fun v => ok (.viota v (opdOf Form.bundle d.code))))).trans ?_
    (try dsimp only)
    simp only [e_d]
  · exact .inr ⟨(congrArg (bit · 11) hm).trans v.mod_fields.2.1, fun _ => rfl⟩

theorem Laws.RoundTrip.vdot4 (v : VHdr) (d : Opd) (a : Opd) (b : Opd) : Laws.RoundTrip.Statement (.vdot4 v d a b) := by
  intro f regs nsem slot r hw he hs
  rw [RawOp.ofBits_toBits]
  obtain ⟨hf, hk⟩ := WellFormed.parts hw
  dsimp only [Instr.formOk, Instr.kindsOk] at hf hk
  obtain rfl := eq_of_beq hf
  (try simp only [Bool.and_eq_true] at hk)
  have e_d : opdOf .bundle d.code = d := opdOf_code (Opd.isVec_fits hk.1.1)
  have e_a : opdOf .bundle a.code = a := opdOf_code (Opd.isVSrc_fits hk.1.2)
  have e_b : opdOf .bundle b.code = b := opdOf_code (Opd.isVSrc_fits hk.2)
  have := v.mod_fields.1
  have hm : (BitVec.ofNat 12 (v.mod)).toNat = v.mod := mod12 (by omega)
  obtain rfl := Option.some.inj (show some _ = some r from he)
  refine decodeOp_of_parse hw he hs ?_ ?_
  · refine (congrArg some (vh_some (m := (BitVec.ofNat 12 (v.mod)).toNat) hm (fun v => ok (.vdot4 v (opdOf Form.bundle d.code) (opdOf Form.bundle a.code) (opdOf Form.bundle b.code))))).trans ?_
    (try dsimp only)
    simp only [e_d, e_a, e_b]
  · exact .inr ⟨(congrArg (bit · 11) hm).trans v.mod_fields.2.1, fun _ => rfl⟩

theorem Laws.RoundTrip.vaccrd (v : VHdr) (d : Opd) (a : Opd) (b : Opd) : Laws.RoundTrip.Statement (.vaccrd v d a b) := by
  intro f regs nsem slot r hw he hs
  rw [RawOp.ofBits_toBits]
  obtain ⟨hf, hk⟩ := WellFormed.parts hw
  dsimp only [Instr.formOk, Instr.kindsOk] at hf hk
  obtain rfl := eq_of_beq hf
  (try simp only [Bool.and_eq_true] at hk)
  have e_d : opdOf .bundle d.code = d := opdOf_code (Opd.isVec_fits hk.1.1)
  have e_a : opdOf .bundle a.code = a := opdOf_code (Opd.isAcc_fits hk.1.2)
  have e_b : opdOf .bundle b.code = b := opdOf_code (Opd.isSrc_fits hk.2)
  have := v.mod_fields.1
  have hm : (BitVec.ofNat 12 (v.mod)).toNat = v.mod := mod12 (by omega)
  obtain rfl := Option.some.inj (show some _ = some r from he)
  refine decodeOp_of_parse hw he hs ?_ ?_
  · refine (congrArg some (vh_some (m := (BitVec.ofNat 12 (v.mod)).toNat) hm (fun v => ok (.vaccrd v (opdOf Form.bundle d.code) (opdOf Form.bundle a.code) (opdOf Form.bundle b.code))))).trans ?_
    (try dsimp only)
    simp only [e_d, e_a, e_b]
  · exact .inr ⟨(congrArg (bit · 11) hm).trans v.mod_fields.2.1, fun _ => rfl⟩

theorem Laws.RoundTrip.vaccwr (v : VHdr) (d : Opd) (a : Opd) (b : Opd) : Laws.RoundTrip.Statement (.vaccwr v d a b) := by
  intro f regs nsem slot r hw he hs
  rw [RawOp.ofBits_toBits]
  obtain ⟨hf, hk⟩ := WellFormed.parts hw
  dsimp only [Instr.formOk, Instr.kindsOk] at hf hk
  obtain rfl := eq_of_beq hf
  (try simp only [Bool.and_eq_true] at hk)
  have e_d : opdOf .bundle d.code = d := opdOf_code (Opd.isAcc_fits hk.1.1)
  have e_a : opdOf .bundle a.code = a := opdOf_code (Opd.isVSrc_fits hk.1.2)
  have e_b : opdOf .bundle b.code = b := opdOf_code (Opd.isSrc_fits hk.2)
  have := v.mod_fields.1
  have hm : (BitVec.ofNat 12 (v.mod)).toNat = v.mod := mod12 (by omega)
  obtain rfl := Option.some.inj (show some _ = some r from he)
  refine decodeOp_of_parse hw he hs ?_ ?_
  · refine (congrArg some (vh_some (m := (BitVec.ofNat 12 (v.mod)).toNat) hm (fun v => ok (.vaccwr v (opdOf Form.bundle d.code) (opdOf Form.bundle a.code) (opdOf Form.bundle b.code))))).trans ?_
    (try dsimp only)
    simp only [e_d, e_a, e_b]
  · exact .inr ⟨(congrArg (bit · 11) hm).trans v.mod_fields.2.1, fun _ => rfl⟩

theorem Laws.RoundTrip.vmov (v : VHdr) (d : Opd) (a : Opd) : Laws.RoundTrip.Statement (.vmov v d a) := by
  intro f regs nsem slot r hw he hs
  rw [RawOp.ofBits_toBits]
  obtain ⟨hf, hk⟩ := WellFormed.parts hw
  dsimp only [Instr.formOk, Instr.kindsOk] at hf hk
  obtain rfl := eq_of_beq hf
  (try simp only [Bool.and_eq_true] at hk)
  have e_d : opdOf .bundle d.code = d := opdOf_code (Opd.isVec_fits hk.1)
  have e_a : opdOf .bundle a.code = a := opdOf_code (Opd.isVSrc_fits hk.2)
  have := v.mod_fields.1
  have hm : (BitVec.ofNat 12 (v.mod)).toNat = v.mod := mod12 (by omega)
  obtain rfl := Option.some.inj (show some _ = some r from he)
  refine decodeOp_of_parse hw he hs ?_ ?_
  · refine (congrArg some (vh_some (m := (BitVec.ofNat 12 (v.mod)).toNat) hm (fun v => ok (.vmov v (opdOf Form.bundle d.code) (opdOf Form.bundle a.code))))).trans ?_
    (try dsimp only)
    simp only [e_d, e_a]
  · exact .inr ⟨(congrArg (bit · 11) hm).trans v.mod_fields.2.1, fun _ => rfl⟩

theorem Laws.RoundTrip.rdadd (v : VHdr) (ps : Fin 4) (a : Opd) : Laws.RoundTrip.Statement (.rdadd v ps a) := by
  intro f regs nsem slot r hw he hs
  rw [RawOp.ofBits_toBits]
  obtain ⟨hf, hk⟩ := WellFormed.parts hw
  dsimp only [Instr.formOk, Instr.kindsOk] at hf hk
  obtain rfl := eq_of_beq hf
  (try simp only [Bool.and_eq_true] at hk)
  have e_a : opdOf .bundle a.code = a := opdOf_code (by grind [Opd.isReg_fits, Opd.isDst_fits, Opd.isSrc_fits, Opd.isRegC_fits, Opd.isGroup_fits, Opd.isPair_fits, Opd.isVec_fits, Opd.isAcc_fits, Opd.isVSrc_fits])
  have := ps.isLt
  have := v.mod_fields.1
  have hm : (BitVec.ofNat 12 (v.mod)).toNat = v.mod := mod12 (by omega)
  obtain rfl := Option.some.inj (show some _ = some r from he)
  refine decodeOp_of_parse hw he hs ?_ ?_
  · have hd : (BitVec.ofNat 8 ps.val).toNat = ps.val := byteOf (by omega)
    refine (congrArg some ((low_of (n := (BitVec.ofNat 8 ps.val).toNat) (by omega)).trans (vh_some (m := (BitVec.ofNat 12 (v.mod)).toNat) hm (fun v => ok (.rdadd v (fin 4 (BitVec.ofNat 8 ps.val).toNat) (opdOf .bundle a.code)))))).trans ?_
    simp only [hd, fin_val, e_a]
  · exact .inr ⟨(congrArg (bit · 11) hm).trans v.mod_fields.2.1, fun _ => rfl⟩

theorem Laws.RoundTrip.rdmax (v : VHdr) (ps : Fin 4) (a : Opd) : Laws.RoundTrip.Statement (.rdmax v ps a) := by
  intro f regs nsem slot r hw he hs
  rw [RawOp.ofBits_toBits]
  obtain ⟨hf, hk⟩ := WellFormed.parts hw
  dsimp only [Instr.formOk, Instr.kindsOk] at hf hk
  obtain rfl := eq_of_beq hf
  (try simp only [Bool.and_eq_true] at hk)
  have e_a : opdOf .bundle a.code = a := opdOf_code (by grind [Opd.isReg_fits, Opd.isDst_fits, Opd.isSrc_fits, Opd.isRegC_fits, Opd.isGroup_fits, Opd.isPair_fits, Opd.isVec_fits, Opd.isAcc_fits, Opd.isVSrc_fits])
  have := ps.isLt
  have := v.mod_fields.1
  have hm : (BitVec.ofNat 12 (v.mod)).toNat = v.mod := mod12 (by omega)
  obtain rfl := Option.some.inj (show some _ = some r from he)
  refine decodeOp_of_parse hw he hs ?_ ?_
  · have hd : (BitVec.ofNat 8 ps.val).toNat = ps.val := byteOf (by omega)
    refine (congrArg some ((low_of (n := (BitVec.ofNat 8 ps.val).toNat) (by omega)).trans (vh_some (m := (BitVec.ofNat 12 (v.mod)).toNat) hm (fun v => ok (.rdmax v (fin 4 (BitVec.ofNat 8 ps.val).toNat) (opdOf .bundle a.code)))))).trans ?_
    simp only [hd, fin_val, e_a]
  · exact .inr ⟨(congrArg (bit · 11) hm).trans v.mod_fields.2.1, fun _ => rfl⟩

theorem Laws.RoundTrip.rdmin (v : VHdr) (ps : Fin 4) (a : Opd) : Laws.RoundTrip.Statement (.rdmin v ps a) := by
  intro f regs nsem slot r hw he hs
  rw [RawOp.ofBits_toBits]
  obtain ⟨hf, hk⟩ := WellFormed.parts hw
  dsimp only [Instr.formOk, Instr.kindsOk] at hf hk
  obtain rfl := eq_of_beq hf
  (try simp only [Bool.and_eq_true] at hk)
  have e_a : opdOf .bundle a.code = a := opdOf_code (by grind [Opd.isReg_fits, Opd.isDst_fits, Opd.isSrc_fits, Opd.isRegC_fits, Opd.isGroup_fits, Opd.isPair_fits, Opd.isVec_fits, Opd.isAcc_fits, Opd.isVSrc_fits])
  have := ps.isLt
  have := v.mod_fields.1
  have hm : (BitVec.ofNat 12 (v.mod)).toNat = v.mod := mod12 (by omega)
  obtain rfl := Option.some.inj (show some _ = some r from he)
  refine decodeOp_of_parse hw he hs ?_ ?_
  · have hd : (BitVec.ofNat 8 ps.val).toNat = ps.val := byteOf (by omega)
    refine (congrArg some ((low_of (n := (BitVec.ofNat 8 ps.val).toNat) (by omega)).trans (vh_some (m := (BitVec.ofNat 12 (v.mod)).toNat) hm (fun v => ok (.rdmin v (fin 4 (BitVec.ofNat 8 ps.val).toNat) (opdOf .bundle a.code)))))).trans ?_
    simp only [hd, fin_val, e_a]
  · exact .inr ⟨(congrArg (bit · 11) hm).trans v.mod_fields.2.1, fun _ => rfl⟩

theorem Laws.RoundTrip.rdmov (v : VHdr) (d : Opd) (ps : Fin 4) : Laws.RoundTrip.Statement (.rdmov v d ps) := by
  intro f regs nsem slot r hw he hs
  rw [RawOp.ofBits_toBits]
  obtain ⟨hf, hk⟩ := WellFormed.parts hw
  dsimp only [Instr.formOk, Instr.kindsOk] at hf hk
  obtain rfl := eq_of_beq hf
  (try simp only [Bool.and_eq_true] at hk)
  have e_d : opdOf .bundle d.code = d := opdOf_code (by grind [Opd.isReg_fits, Opd.isDst_fits, Opd.isSrc_fits, Opd.isRegC_fits, Opd.isGroup_fits, Opd.isPair_fits, Opd.isVec_fits, Opd.isAcc_fits, Opd.isVSrc_fits])
  have := ps.isLt
  have := v.mod_fields.1
  have hm : (BitVec.ofNat 12 (v.mod)).toNat = v.mod := mod12 (by omega)
  obtain rfl := Option.some.inj (show some _ = some r from he)
  refine decodeOp_of_parse hw he hs ?_ ?_
  · have hd : (BitVec.ofNat 8 ps.val).toNat = ps.val := byteOf (by omega)
    refine (congrArg some ((low_of (n := (BitVec.ofNat 8 ps.val).toNat) (by omega)).trans (vh_some (m := (BitVec.ofNat 12 (v.mod)).toNat) hm (fun v => ok (.rdmov v (opdOf .bundle d.code) (fin 4 (BitVec.ofNat 8 ps.val).toNat)))))).trans ?_
    simp only [hd, fin_val, e_d]
  · exact .inr ⟨(congrArg (bit · 11) hm).trans v.mod_fields.2.1, fun _ => rfl⟩

theorem Laws.RoundTrip.xnop (h : Bool) : Laws.RoundTrip.Statement (.xnop h) := by
  intro f regs nsem slot r hw he hs
  rw [RawOp.ofBits_toBits]
  obtain ⟨hf, hk⟩ := WellFormed.parts hw
  dsimp only [Instr.formOk, Instr.kindsOk] at hf hk
  have := b2n_lt h
  have hm : (BitVec.ofNat 12 ((b2n h * 2048))).toNat = (b2n h * 2048) := mod12 (by omega)
  obtain rfl := Option.some.inj (show some _ = some r from he)
  refine decodeOp_of_parse hw he hs ?_ ?_
  · generalize hx : (b2n h * 2048) = x at hm ⊢
    have q_h : (bit (BitVec.ofNat 12 (x)).toNat 11) = h := by rw [hm]; exact bit_b2n (by omega)
    show some (ok (.xnop (bit (BitVec.ofNat 12 (x)).toNat 11))) = _
    simp only [q_h]
  · exact .inr ⟨(congrArg (bit · 11) hm).trans (bit_b2n (h := h) (by omega)), fun _ => rfl⟩

theorem Laws.RoundTrip.mma (h : Bool) (cz : Bool) (sat : Bool) (d : Opd) (a : Opd) (b : Opd) (ct : Fin 16) : Laws.RoundTrip.Statement (.mma h cz sat d a b ct) := by
  intro f regs nsem slot r hw he hs
  rw [RawOp.ofBits_toBits]
  obtain ⟨hf, hk⟩ := WellFormed.parts hw
  dsimp only [Instr.formOk, Instr.kindsOk] at hf hk
  obtain rfl := eq_of_beq hf
  (try simp only [Bool.and_eq_true] at hk)
  have e_d : opdOf .bundle d.code = d := opdOf_code (Opd.isAcc_fits hk.1.1)
  have e_a : opdOf .bundle a.code = a := opdOf_code (Opd.isReg_fits hk.1.2)
  have e_b : opdOf .bundle b.code = b := opdOf_code (Opd.isReg_fits hk.2)
  have := b2n_lt h
  have := b2n_lt cz
  have := b2n_lt sat
  have := ct.isLt
  have hm : (BitVec.ofNat 12 ((b2n h * 2048 + b2n cz * 1024 + ct.val * 64 + b2n sat * 32))).toNat = (b2n h * 2048 + b2n cz * 1024 + ct.val * 64 + b2n sat * 32) := mod12 (by omega)
  obtain rfl := Option.some.inj (show some _ = some r from he)
  refine decodeOp_of_parse hw he hs ?_ ?_
  · generalize hx : (b2n h * 2048 + b2n cz * 1024 + ct.val * 64 + b2n sat * 32) = x at hm ⊢
    have q_h : (bit (BitVec.ofNat 12 (x)).toNat 11) = h := by rw [hm]; exact bit_b2n (by omega)
    have q_cz : (bit (BitVec.ofNat 12 (x)).toNat 10) = cz := by rw [hm]; exact bit_b2n (by omega)
    have q_sat : (bit (BitVec.ofNat 12 (x)).toNat 5) = sat := by rw [hm]; exact bit_b2n (by omega)
    have q_ct : (fin 16 (bits (BitVec.ofNat 12 (x)).toNat 9 6)) = ct := by rw [hm]; exact Fin.ext (by simp only [fin, bits]; omega)
    show some (ok (.mma (bit (BitVec.ofNat 12 (x)).toNat 11) (bit (BitVec.ofNat 12 (x)).toNat 10) (bit (BitVec.ofNat 12 (x)).toNat 5) (opdOf Form.bundle d.code) (opdOf Form.bundle a.code) (opdOf Form.bundle b.code) (fin 16 (bits (BitVec.ofNat 12 (x)).toNat 9 6)))) = _
    simp only [q_h, q_cz, q_sat, e_d, e_a, e_b, q_ct]
  · exact .inr ⟨(congrArg (bit · 11) hm).trans (bit_b2n (h := h) (by omega)), fun _ => rfl⟩

theorem Laws.RoundTrip.accz (h : Bool) (d : Opd) : Laws.RoundTrip.Statement (.accz h d) := by
  intro f regs nsem slot r hw he hs
  rw [RawOp.ofBits_toBits]
  obtain ⟨hf, hk⟩ := WellFormed.parts hw
  dsimp only [Instr.formOk, Instr.kindsOk] at hf hk
  obtain rfl := eq_of_beq hf
  (try simp only [Bool.and_eq_true] at hk)
  have e_d : opdOf .bundle d.code = d := opdOf_code (Opd.isAcc_fits hk)
  have := b2n_lt h
  have hm : (BitVec.ofNat 12 ((b2n h * 2048))).toNat = (b2n h * 2048) := mod12 (by omega)
  obtain rfl := Option.some.inj (show some _ = some r from he)
  refine decodeOp_of_parse hw he hs ?_ ?_
  · generalize hx : (b2n h * 2048) = x at hm ⊢
    have q_h : (bit (BitVec.ofNat 12 (x)).toNat 11) = h := by rw [hm]; exact bit_b2n (by omega)
    show some (ok (.accz (bit (BitVec.ofNat 12 (x)).toNat 11) (opdOf Form.bundle d.code))) = _
    simp only [q_h, e_d]
  · exact .inr ⟨(congrArg (bit · 11) hm).trans (bit_b2n (h := h) (by omega)), fun _ => rfl⟩

theorem Laws.RoundTrip.acccp (h : Bool) (tr : Bool) (d : Opd) (a : Opd) : Laws.RoundTrip.Statement (.acccp h tr d a) := by
  intro f regs nsem slot r hw he hs
  rw [RawOp.ofBits_toBits]
  obtain ⟨hf, hk⟩ := WellFormed.parts hw
  dsimp only [Instr.formOk, Instr.kindsOk] at hf hk
  obtain rfl := eq_of_beq hf
  (try simp only [Bool.and_eq_true] at hk)
  have e_d : opdOf .bundle d.code = d := opdOf_code (Opd.isAcc_fits hk.1)
  have e_a : opdOf .bundle a.code = a := opdOf_code (Opd.isAcc_fits hk.2)
  have := b2n_lt h
  have := b2n_lt tr
  have hm : (BitVec.ofNat 12 ((b2n h * 2048 + b2n tr))).toNat = (b2n h * 2048 + b2n tr) := mod12 (by omega)
  obtain rfl := Option.some.inj (show some _ = some r from he)
  refine decodeOp_of_parse hw he hs ?_ ?_
  · generalize hx : (b2n h * 2048 + b2n tr) = x at hm ⊢
    have q_h : (bit (BitVec.ofNat 12 (x)).toNat 11) = h := by rw [hm]; exact bit_b2n (by omega)
    have q_tr : (bit (BitVec.ofNat 12 (x)).toNat 0) = tr := by rw [hm]; exact bit_b2n (by omega)
    show some (ok (.acccp (bit (BitVec.ofNat 12 (x)).toNat 11) (bit (BitVec.ofNat 12 (x)).toNat 0) (opdOf Form.bundle d.code) (opdOf Form.bundle a.code))) = _
    simp only [q_h, q_tr, e_d, e_a]
  · exact .inr ⟨(congrArg (bit · 11) hm).trans (bit_b2n (h := h) (by omega)), fun _ => rfl⟩

theorem Laws.RoundTrip.setfmt (a : Opd) : Laws.RoundTrip.Statement (.setfmt a) := by
  intro f regs nsem slot r hw he hs
  rw [RawOp.ofBits_toBits]
  obtain ⟨hf, hk⟩ := WellFormed.parts hw
  dsimp only [Instr.formOk, Instr.kindsOk] at hf hk
  obtain rfl := eq_of_beq hf
  (try simp only [Bool.and_eq_true] at hk)
  have e_a : opdOf .bundle a.code = a := opdOf_code (Opd.isSrc_fits hk)
  have hm : (BitVec.ofNat 12 (0)).toNat = 0 := mod12 (by omega)
  obtain rfl := Option.some.inj (show some _ = some r from he)
  refine decodeOp_of_parse hw he hs ?_ ?_
  · show some (ok (.setfmt (opdOf Form.bundle a.code))) = _
    simp only [e_a]
  · exact .inr ⟨(congrArg (bit · 11) hm).trans (bit_low (by omega)), nofun⟩

theorem Laws.RoundTrip.twb (h : Bool) (d : Opd) (a : Opd) : Laws.RoundTrip.Statement (.twb h d a) := by
  intro f regs nsem slot r hw he hs
  rw [RawOp.ofBits_toBits]
  obtain ⟨hf, hk⟩ := WellFormed.parts hw
  dsimp only [Instr.formOk, Instr.kindsOk] at hf hk
  obtain rfl := eq_of_beq hf
  (try simp only [Bool.and_eq_true] at hk)
  have e_d : opdOf .bundle d.code = d := opdOf_code (Opd.isDst_fits hk.1)
  have e_a : opdOf .bundle a.code = a := opdOf_code (Opd.isSrc_fits hk.2)
  have := b2n_lt h
  have hm : (BitVec.ofNat 12 ((b2n h * 2048))).toNat = (b2n h * 2048) := mod12 (by omega)
  obtain rfl := Option.some.inj (show some _ = some r from he)
  refine decodeOp_of_parse hw he hs ?_ ?_
  · generalize hx : (b2n h * 2048) = x at hm ⊢
    have q_h : (bit (BitVec.ofNat 12 (x)).toNat 11) = h := by rw [hm]; exact bit_b2n (by omega)
    show some (ok (.twb (bit (BitVec.ofNat 12 (x)).toNat 11) (opdOf Form.bundle d.code) (opdOf Form.bundle a.code))) = _
    simp only [q_h, e_d, e_a]
  · exact .inr ⟨(congrArg (bit · 11) hm).trans (bit_b2n (h := h) (by omega)), fun _ => rfl⟩

theorem Laws.RoundTrip.twn (h : Bool) (d : Opd) : Laws.RoundTrip.Statement (.twn h d) := by
  intro f regs nsem slot r hw he hs
  rw [RawOp.ofBits_toBits]
  obtain ⟨hf, hk⟩ := WellFormed.parts hw
  dsimp only [Instr.formOk, Instr.kindsOk] at hf hk
  obtain rfl := eq_of_beq hf
  (try simp only [Bool.and_eq_true] at hk)
  have e_d : opdOf .bundle d.code = d := opdOf_code (Opd.isDst_fits hk)
  have := b2n_lt h
  have hm : (BitVec.ofNat 12 ((b2n h * 2048))).toNat = (b2n h * 2048) := mod12 (by omega)
  obtain rfl := Option.some.inj (show some _ = some r from he)
  refine decodeOp_of_parse hw he hs ?_ ?_
  · generalize hx : (b2n h * 2048) = x at hm ⊢
    have q_h : (bit (BitVec.ofNat 12 (x)).toNat 11) = h := by rw [hm]; exact bit_b2n (by omega)
    show some (ok (.twn (bit (BitVec.ofNat 12 (x)).toNat 11) (opdOf Form.bundle d.code))) = _
    simp only [q_h, e_d]
  · exact .inr ⟨(congrArg (bit · 11) hm).trans (bit_b2n (h := h) (by omega)), fun _ => rfl⟩

theorem Laws.RoundTrip.twe (h : Bool) (d : Opd) : Laws.RoundTrip.Statement (.twe h d) := by
  intro f regs nsem slot r hw he hs
  rw [RawOp.ofBits_toBits]
  obtain ⟨hf, hk⟩ := WellFormed.parts hw
  dsimp only [Instr.formOk, Instr.kindsOk] at hf hk
  obtain rfl := eq_of_beq hf
  (try simp only [Bool.and_eq_true] at hk)
  have e_d : opdOf .bundle d.code = d := opdOf_code (Opd.isDst_fits hk)
  have := b2n_lt h
  have hm : (BitVec.ofNat 12 ((b2n h * 2048))).toNat = (b2n h * 2048) := mod12 (by omega)
  obtain rfl := Option.some.inj (show some _ = some r from he)
  refine decodeOp_of_parse hw he hs ?_ ?_
  · generalize hx : (b2n h * 2048) = x at hm ⊢
    have q_h : (bit (BitVec.ofNat 12 (x)).toNat 11) = h := by rw [hm]; exact bit_b2n (by omega)
    show some (ok (.twe (bit (BitVec.ofNat 12 (x)).toNat 11) (opdOf Form.bundle d.code))) = _
    simp only [q_h, e_d]
  · exact .inr ⟨(congrArg (bit · 11) hm).trans (bit_b2n (h := h) (by omega)), fun _ => rfl⟩

theorem Laws.RoundTrip.mstestQuick (d : Opd) : Laws.RoundTrip.Statement (.mstestQuick d) := by
  intro f regs nsem slot r hw he hs
  rw [RawOp.ofBits_toBits]
  obtain ⟨hf, hk⟩ := WellFormed.parts hw
  dsimp only [Instr.formOk, Instr.kindsOk] at hf hk
  obtain rfl := eq_of_beq hf
  (try simp only [Bool.and_eq_true] at hk)
  have e_d : opdOf .bundle d.code = d := opdOf_code (by grind [Opd.isReg_fits, Opd.isDst_fits, Opd.isSrc_fits, Opd.isRegC_fits, Opd.isGroup_fits, Opd.isPair_fits, Opd.isVec_fits, Opd.isAcc_fits, Opd.isVSrc_fits])
  have hm : (BitVec.ofNat 12 (0)).toNat = 0 := mod12 (by omega)
  obtain rfl := Option.some.inj (show some _ = some r from he)
  refine decodeOp_of_parse hw he hs ?_ ?_
  · show some (ok (if bit (BitVec.ofNat 12 (0)).toNat 0 then .mstestFull (opdOf .bundle d.code) else .mstestQuick (opdOf .bundle d.code))) = _
    rw [e_d]; rfl
  · exact .inr ⟨(congrArg (bit · 11) hm).trans (bit_low (by omega)), nofun⟩

theorem Laws.RoundTrip.mstestFull (d : Opd) : Laws.RoundTrip.Statement (.mstestFull d) := by
  intro f regs nsem slot r hw he hs
  rw [RawOp.ofBits_toBits]
  obtain ⟨hf, hk⟩ := WellFormed.parts hw
  dsimp only [Instr.formOk, Instr.kindsOk] at hf hk
  obtain rfl := eq_of_beq hf
  (try simp only [Bool.and_eq_true] at hk)
  have e_d : opdOf .bundle d.code = d := opdOf_code (by grind [Opd.isReg_fits, Opd.isDst_fits, Opd.isSrc_fits, Opd.isRegC_fits, Opd.isGroup_fits, Opd.isPair_fits, Opd.isVec_fits, Opd.isAcc_fits, Opd.isVSrc_fits])
  have hm : (BitVec.ofNat 12 (1)).toNat = 1 := mod12 (by omega)
  obtain rfl := Option.some.inj (show some _ = some r from he)
  refine decodeOp_of_parse hw he hs ?_ ?_
  · show some (ok (if bit (BitVec.ofNat 12 (1)).toNat 0 then .mstestFull (opdOf .bundle d.code) else .mstestQuick (opdOf .bundle d.code))) = _
    rw [e_d]; rfl
  · exact .inr ⟨(congrArg (bit · 11) hm).trans (bit_low (by omega)), nofun⟩

theorem Laws.RoundTrip.fmaprd (h : Bool) (d : Opd) (n : Fin 4) : Laws.RoundTrip.Statement (.fmaprd h d n) := by
  intro f regs nsem slot r hw he hs
  rw [RawOp.ofBits_toBits]
  obtain ⟨hf, hk⟩ := WellFormed.parts hw
  dsimp only [Instr.formOk, Instr.kindsOk] at hf hk
  obtain rfl := eq_of_beq hf
  (try simp only [Bool.and_eq_true] at hk)
  have e_d : opdOf .bundle d.code = d := opdOf_code (Opd.isDst_fits hk)
  have := b2n_lt h
  have := n.isLt
  have hm : (BitVec.ofNat 12 ((b2n h * 2048 + n.val))).toNat = (b2n h * 2048 + n.val) := mod12 (by omega)
  obtain rfl := Option.some.inj (show some _ = some r from he)
  refine decodeOp_of_parse hw he hs ?_ ?_
  · generalize hx : (b2n h * 2048 + n.val) = x at hm ⊢
    have q_h : (bit (BitVec.ofNat 12 (x)).toNat 11) = h := by rw [hm]; exact bit_b2n (by omega)
    have q_n : (fin 4 (bits (BitVec.ofNat 12 (x)).toNat 1 0)) = n := by rw [hm]; exact Fin.ext (by simp only [fin, bits]; omega)
    show some (ok (.fmaprd (bit (BitVec.ofNat 12 (x)).toNat 11) (opdOf Form.bundle d.code) (fin 4 (bits (BitVec.ofNat 12 (x)).toNat 1 0)))) = _
    simp only [q_h, e_d, q_n]
  · exact .inr ⟨(congrArg (bit · 11) hm).trans (bit_b2n (h := h) (by omega)), fun _ => rfl⟩

theorem Laws.RoundTrip.frcp (h : Bool) (p : Fin 8) (d : Opd) (a : Opd) : Laws.RoundTrip.Statement (.frcp h p d a) := by
  intro f regs nsem slot r hw he hs
  rw [RawOp.ofBits_toBits]
  obtain ⟨hf, hk⟩ := WellFormed.parts hw
  dsimp only [Instr.formOk, Instr.kindsOk] at hf hk
  (try simp only [Bool.and_eq_true] at hk)
  have e_d : opdOf f d.code = d := opdOf_code (by grind [Opd.isReg_fits, Opd.isDst_fits, Opd.isSrc_fits, Opd.isRegC_fits, Opd.isGroup_fits, Opd.isPair_fits, Opd.isVec_fits, Opd.isAcc_fits, Opd.isVSrc_fits])
  have e_a : opdOf f a.code = a := opdOf_code (by grind [Opd.isReg_fits, Opd.isDst_fits, Opd.isSrc_fits, Opd.isRegC_fits, Opd.isGroup_fits, Opd.isPair_fits, Opd.isVec_fits, Opd.isAcc_fits, Opd.isVSrc_fits])
  have := b2n_lt h
  have := p.isLt
  have hm : (BitVec.ofNat 12 ((sfMod h p))).toNat = (sfMod h p) := mod12 (by simp only [sfMod]; omega)
  obtain rfl := Option.some.inj (show some _ = some r from he)
  refine decodeOp_of_parse hw he hs ?_ ?_
  · have q_h : (bit (BitVec.ofNat 12 ((sfMod h p))).toNat 11) = h := by rw [hm]; exact bit_b2n (by simp only [sfMod]; omega)
    have q_p : (fin 8 (bits (BitVec.ofNat 12 ((sfMod h p))).toNat 8 6)) = p := by rw [hm]; exact Fin.ext (by simp only [fin, bits]; simp only [sfMod]; omega)
    show some (ok (.frcp (bit (BitVec.ofNat 12 ((sfMod h p))).toNat 11) (fin 8 (bits (BitVec.ofNat 12 ((sfMod h p))).toNat 8 6)) (opdOf f d.code) (opdOf f a.code))) = _
    simp only [q_h, q_p, e_d, e_a]
  · exact .inr ⟨(congrArg (bit · 11) hm).trans (bit_b2n (h := h) (by simp only [sfMod]; omega)), fun _ => rfl⟩

theorem Laws.RoundTrip.frsq (h : Bool) (p : Fin 8) (d : Opd) (a : Opd) : Laws.RoundTrip.Statement (.frsq h p d a) := by
  intro f regs nsem slot r hw he hs
  rw [RawOp.ofBits_toBits]
  obtain ⟨hf, hk⟩ := WellFormed.parts hw
  dsimp only [Instr.formOk, Instr.kindsOk] at hf hk
  (try simp only [Bool.and_eq_true] at hk)
  have e_d : opdOf f d.code = d := opdOf_code (by grind [Opd.isReg_fits, Opd.isDst_fits, Opd.isSrc_fits, Opd.isRegC_fits, Opd.isGroup_fits, Opd.isPair_fits, Opd.isVec_fits, Opd.isAcc_fits, Opd.isVSrc_fits])
  have e_a : opdOf f a.code = a := opdOf_code (by grind [Opd.isReg_fits, Opd.isDst_fits, Opd.isSrc_fits, Opd.isRegC_fits, Opd.isGroup_fits, Opd.isPair_fits, Opd.isVec_fits, Opd.isAcc_fits, Opd.isVSrc_fits])
  have := b2n_lt h
  have := p.isLt
  have hm : (BitVec.ofNat 12 ((sfMod h p))).toNat = (sfMod h p) := mod12 (by simp only [sfMod]; omega)
  obtain rfl := Option.some.inj (show some _ = some r from he)
  refine decodeOp_of_parse hw he hs ?_ ?_
  · have q_h : (bit (BitVec.ofNat 12 ((sfMod h p))).toNat 11) = h := by rw [hm]; exact bit_b2n (by simp only [sfMod]; omega)
    have q_p : (fin 8 (bits (BitVec.ofNat 12 ((sfMod h p))).toNat 8 6)) = p := by rw [hm]; exact Fin.ext (by simp only [fin, bits]; simp only [sfMod]; omega)
    show some (ok (.frsq (bit (BitVec.ofNat 12 ((sfMod h p))).toNat 11) (fin 8 (bits (BitVec.ofNat 12 ((sfMod h p))).toNat 8 6)) (opdOf f d.code) (opdOf f a.code))) = _
    simp only [q_h, q_p, e_d, e_a]
  · exact .inr ⟨(congrArg (bit · 11) hm).trans (bit_b2n (h := h) (by simp only [sfMod]; omega)), fun _ => rfl⟩

theorem Laws.RoundTrip.fsqrt (h : Bool) (p : Fin 8) (d : Opd) (a : Opd) : Laws.RoundTrip.Statement (.fsqrt h p d a) := by
  intro f regs nsem slot r hw he hs
  rw [RawOp.ofBits_toBits]
  obtain ⟨hf, hk⟩ := WellFormed.parts hw
  dsimp only [Instr.formOk, Instr.kindsOk] at hf hk
  (try simp only [Bool.and_eq_true] at hk)
  have e_d : opdOf f d.code = d := opdOf_code (by grind [Opd.isReg_fits, Opd.isDst_fits, Opd.isSrc_fits, Opd.isRegC_fits, Opd.isGroup_fits, Opd.isPair_fits, Opd.isVec_fits, Opd.isAcc_fits, Opd.isVSrc_fits])
  have e_a : opdOf f a.code = a := opdOf_code (by grind [Opd.isReg_fits, Opd.isDst_fits, Opd.isSrc_fits, Opd.isRegC_fits, Opd.isGroup_fits, Opd.isPair_fits, Opd.isVec_fits, Opd.isAcc_fits, Opd.isVSrc_fits])
  have := b2n_lt h
  have := p.isLt
  have hm : (BitVec.ofNat 12 ((sfMod h p))).toNat = (sfMod h p) := mod12 (by simp only [sfMod]; omega)
  obtain rfl := Option.some.inj (show some _ = some r from he)
  refine decodeOp_of_parse hw he hs ?_ ?_
  · have q_h : (bit (BitVec.ofNat 12 ((sfMod h p))).toNat 11) = h := by rw [hm]; exact bit_b2n (by simp only [sfMod]; omega)
    have q_p : (fin 8 (bits (BitVec.ofNat 12 ((sfMod h p))).toNat 8 6)) = p := by rw [hm]; exact Fin.ext (by simp only [fin, bits]; simp only [sfMod]; omega)
    show some (ok (.fsqrt (bit (BitVec.ofNat 12 ((sfMod h p))).toNat 11) (fin 8 (bits (BitVec.ofNat 12 ((sfMod h p))).toNat 8 6)) (opdOf f d.code) (opdOf f a.code))) = _
    simp only [q_h, q_p, e_d, e_a]
  · exact .inr ⟨(congrArg (bit · 11) hm).trans (bit_b2n (h := h) (by simp only [sfMod]; omega)), fun _ => rfl⟩

theorem Laws.RoundTrip.fdiv (h : Bool) (p : Fin 8) (d : Opd) (a : Opd) (b : Opd) : Laws.RoundTrip.Statement (.fdiv h p d a b) := by
  intro f regs nsem slot r hw he hs
  rw [RawOp.ofBits_toBits]
  obtain ⟨hf, hk⟩ := WellFormed.parts hw
  dsimp only [Instr.formOk, Instr.kindsOk] at hf hk
  (try simp only [Bool.and_eq_true] at hk)
  have e_d : opdOf f d.code = d := opdOf_code (by grind [Opd.isReg_fits, Opd.isDst_fits, Opd.isSrc_fits, Opd.isRegC_fits, Opd.isGroup_fits, Opd.isPair_fits, Opd.isVec_fits, Opd.isAcc_fits, Opd.isVSrc_fits])
  have e_a : opdOf f a.code = a := opdOf_code (by grind [Opd.isReg_fits, Opd.isDst_fits, Opd.isSrc_fits, Opd.isRegC_fits, Opd.isGroup_fits, Opd.isPair_fits, Opd.isVec_fits, Opd.isAcc_fits, Opd.isVSrc_fits])
  have e_b : opdOf f b.code = b := opdOf_code (by grind [Opd.isReg_fits, Opd.isDst_fits, Opd.isSrc_fits, Opd.isRegC_fits, Opd.isGroup_fits, Opd.isPair_fits, Opd.isVec_fits, Opd.isAcc_fits, Opd.isVSrc_fits])
  have := b2n_lt h
  have := p.isLt
  have hm : (BitVec.ofNat 12 ((sfMod h p))).toNat = (sfMod h p) := mod12 (by simp only [sfMod]; omega)
  obtain rfl := Option.some.inj (show some _ = some r from he)
  refine decodeOp_of_parse hw he hs ?_ ?_
  · have q_h : (bit (BitVec.ofNat 12 ((sfMod h p))).toNat 11) = h := by rw [hm]; exact bit_b2n (by simp only [sfMod]; omega)
    have q_p : (fin 8 (bits (BitVec.ofNat 12 ((sfMod h p))).toNat 8 6)) = p := by rw [hm]; exact Fin.ext (by simp only [fin, bits]; simp only [sfMod]; omega)
    show some (ok (.fdiv (bit (BitVec.ofNat 12 ((sfMod h p))).toNat 11) (fin 8 (bits (BitVec.ofNat 12 ((sfMod h p))).toNat 8 6)) (opdOf f d.code) (opdOf f a.code) (opdOf f b.code))) = _
    simp only [q_h, q_p, e_d, e_a, e_b]
  · exact .inr ⟨(congrArg (bit · 11) hm).trans (bit_b2n (h := h) (by simp only [sfMod]; omega)), fun _ => rfl⟩

theorem Laws.RoundTrip.fexp2 (h : Bool) (p : Fin 8) (d : Opd) (a : Opd) : Laws.RoundTrip.Statement (.fexp2 h p d a) := by
  intro f regs nsem slot r hw he hs
  rw [RawOp.ofBits_toBits]
  obtain ⟨hf, hk⟩ := WellFormed.parts hw
  dsimp only [Instr.formOk, Instr.kindsOk] at hf hk
  (try simp only [Bool.and_eq_true] at hk)
  have e_d : opdOf f d.code = d := opdOf_code (by grind [Opd.isReg_fits, Opd.isDst_fits, Opd.isSrc_fits, Opd.isRegC_fits, Opd.isGroup_fits, Opd.isPair_fits, Opd.isVec_fits, Opd.isAcc_fits, Opd.isVSrc_fits])
  have e_a : opdOf f a.code = a := opdOf_code (by grind [Opd.isReg_fits, Opd.isDst_fits, Opd.isSrc_fits, Opd.isRegC_fits, Opd.isGroup_fits, Opd.isPair_fits, Opd.isVec_fits, Opd.isAcc_fits, Opd.isVSrc_fits])
  have := b2n_lt h
  have := p.isLt
  have hm : (BitVec.ofNat 12 ((sfMod h p))).toNat = (sfMod h p) := mod12 (by simp only [sfMod]; omega)
  obtain rfl := Option.some.inj (show some _ = some r from he)
  refine decodeOp_of_parse hw he hs ?_ ?_
  · have q_h : (bit (BitVec.ofNat 12 ((sfMod h p))).toNat 11) = h := by rw [hm]; exact bit_b2n (by simp only [sfMod]; omega)
    have q_p : (fin 8 (bits (BitVec.ofNat 12 ((sfMod h p))).toNat 8 6)) = p := by rw [hm]; exact Fin.ext (by simp only [fin, bits]; simp only [sfMod]; omega)
    show some (ok (.fexp2 (bit (BitVec.ofNat 12 ((sfMod h p))).toNat 11) (fin 8 (bits (BitVec.ofNat 12 ((sfMod h p))).toNat 8 6)) (opdOf f d.code) (opdOf f a.code))) = _
    simp only [q_h, q_p, e_d, e_a]
  · exact .inr ⟨(congrArg (bit · 11) hm).trans (bit_b2n (h := h) (by simp only [sfMod]; omega)), fun _ => rfl⟩

theorem Laws.RoundTrip.flog2 (h : Bool) (p : Fin 8) (d : Opd) (a : Opd) : Laws.RoundTrip.Statement (.flog2 h p d a) := by
  intro f regs nsem slot r hw he hs
  rw [RawOp.ofBits_toBits]
  obtain ⟨hf, hk⟩ := WellFormed.parts hw
  dsimp only [Instr.formOk, Instr.kindsOk] at hf hk
  (try simp only [Bool.and_eq_true] at hk)
  have e_d : opdOf f d.code = d := opdOf_code (by grind [Opd.isReg_fits, Opd.isDst_fits, Opd.isSrc_fits, Opd.isRegC_fits, Opd.isGroup_fits, Opd.isPair_fits, Opd.isVec_fits, Opd.isAcc_fits, Opd.isVSrc_fits])
  have e_a : opdOf f a.code = a := opdOf_code (by grind [Opd.isReg_fits, Opd.isDst_fits, Opd.isSrc_fits, Opd.isRegC_fits, Opd.isGroup_fits, Opd.isPair_fits, Opd.isVec_fits, Opd.isAcc_fits, Opd.isVSrc_fits])
  have := b2n_lt h
  have := p.isLt
  have hm : (BitVec.ofNat 12 ((sfMod h p))).toNat = (sfMod h p) := mod12 (by simp only [sfMod]; omega)
  obtain rfl := Option.some.inj (show some _ = some r from he)
  refine decodeOp_of_parse hw he hs ?_ ?_
  · have q_h : (bit (BitVec.ofNat 12 ((sfMod h p))).toNat 11) = h := by rw [hm]; exact bit_b2n (by simp only [sfMod]; omega)
    have q_p : (fin 8 (bits (BitVec.ofNat 12 ((sfMod h p))).toNat 8 6)) = p := by rw [hm]; exact Fin.ext (by simp only [fin, bits]; simp only [sfMod]; omega)
    show some (ok (.flog2 (bit (BitVec.ofNat 12 ((sfMod h p))).toNat 11) (fin 8 (bits (BitVec.ofNat 12 ((sfMod h p))).toNat 8 6)) (opdOf f d.code) (opdOf f a.code))) = _
    simp only [q_h, q_p, e_d, e_a]
  · exact .inr ⟨(congrArg (bit · 11) hm).trans (bit_b2n (h := h) (by simp only [sfMod]; omega)), fun _ => rfl⟩

theorem Laws.RoundTrip.fsin (h : Bool) (p : Fin 8) (d : Opd) (a : Opd) : Laws.RoundTrip.Statement (.fsin h p d a) := by
  intro f regs nsem slot r hw he hs
  rw [RawOp.ofBits_toBits]
  obtain ⟨hf, hk⟩ := WellFormed.parts hw
  dsimp only [Instr.formOk, Instr.kindsOk] at hf hk
  (try simp only [Bool.and_eq_true] at hk)
  have e_d : opdOf f d.code = d := opdOf_code (by grind [Opd.isReg_fits, Opd.isDst_fits, Opd.isSrc_fits, Opd.isRegC_fits, Opd.isGroup_fits, Opd.isPair_fits, Opd.isVec_fits, Opd.isAcc_fits, Opd.isVSrc_fits])
  have e_a : opdOf f a.code = a := opdOf_code (by grind [Opd.isReg_fits, Opd.isDst_fits, Opd.isSrc_fits, Opd.isRegC_fits, Opd.isGroup_fits, Opd.isPair_fits, Opd.isVec_fits, Opd.isAcc_fits, Opd.isVSrc_fits])
  have := b2n_lt h
  have := p.isLt
  have hm : (BitVec.ofNat 12 ((sfMod h p))).toNat = (sfMod h p) := mod12 (by simp only [sfMod]; omega)
  obtain rfl := Option.some.inj (show some _ = some r from he)
  refine decodeOp_of_parse hw he hs ?_ ?_
  · have q_h : (bit (BitVec.ofNat 12 ((sfMod h p))).toNat 11) = h := by rw [hm]; exact bit_b2n (by simp only [sfMod]; omega)
    have q_p : (fin 8 (bits (BitVec.ofNat 12 ((sfMod h p))).toNat 8 6)) = p := by rw [hm]; exact Fin.ext (by simp only [fin, bits]; simp only [sfMod]; omega)
    show some (ok (.fsin (bit (BitVec.ofNat 12 ((sfMod h p))).toNat 11) (fin 8 (bits (BitVec.ofNat 12 ((sfMod h p))).toNat 8 6)) (opdOf f d.code) (opdOf f a.code))) = _
    simp only [q_h, q_p, e_d, e_a]
  · exact .inr ⟨(congrArg (bit · 11) hm).trans (bit_b2n (h := h) (by simp only [sfMod]; omega)), fun _ => rfl⟩

theorem Laws.RoundTrip.fcos (h : Bool) (p : Fin 8) (d : Opd) (a : Opd) : Laws.RoundTrip.Statement (.fcos h p d a) := by
  intro f regs nsem slot r hw he hs
  rw [RawOp.ofBits_toBits]
  obtain ⟨hf, hk⟩ := WellFormed.parts hw
  dsimp only [Instr.formOk, Instr.kindsOk] at hf hk
  (try simp only [Bool.and_eq_true] at hk)
  have e_d : opdOf f d.code = d := opdOf_code (by grind [Opd.isReg_fits, Opd.isDst_fits, Opd.isSrc_fits, Opd.isRegC_fits, Opd.isGroup_fits, Opd.isPair_fits, Opd.isVec_fits, Opd.isAcc_fits, Opd.isVSrc_fits])
  have e_a : opdOf f a.code = a := opdOf_code (by grind [Opd.isReg_fits, Opd.isDst_fits, Opd.isSrc_fits, Opd.isRegC_fits, Opd.isGroup_fits, Opd.isPair_fits, Opd.isVec_fits, Opd.isAcc_fits, Opd.isVSrc_fits])
  have := b2n_lt h
  have := p.isLt
  have hm : (BitVec.ofNat 12 ((sfMod h p))).toNat = (sfMod h p) := mod12 (by simp only [sfMod]; omega)
  obtain rfl := Option.some.inj (show some _ = some r from he)
  refine decodeOp_of_parse hw he hs ?_ ?_
  · have q_h : (bit (BitVec.ofNat 12 ((sfMod h p))).toNat 11) = h := by rw [hm]; exact bit_b2n (by simp only [sfMod]; omega)
    have q_p : (fin 8 (bits (BitVec.ofNat 12 ((sfMod h p))).toNat 8 6)) = p := by rw [hm]; exact Fin.ext (by simp only [fin, bits]; simp only [sfMod]; omega)
    show some (ok (.fcos (bit (BitVec.ofNat 12 ((sfMod h p))).toNat 11) (fin 8 (bits (BitVec.ofNat 12 ((sfMod h p))).toNat 8 6)) (opdOf f d.code) (opdOf f a.code))) = _
    simp only [q_h, q_p, e_d, e_a]
  · exact .inr ⟨(congrArg (bit · 11) hm).trans (bit_b2n (h := h) (by simp only [sfMod]; omega)), fun _ => rfl⟩

theorem Laws.RoundTrip.ftanh (h : Bool) (p : Fin 8) (d : Opd) (a : Opd) : Laws.RoundTrip.Statement (.ftanh h p d a) := by
  intro f regs nsem slot r hw he hs
  rw [RawOp.ofBits_toBits]
  obtain ⟨hf, hk⟩ := WellFormed.parts hw
  dsimp only [Instr.formOk, Instr.kindsOk] at hf hk
  (try simp only [Bool.and_eq_true] at hk)
  have e_d : opdOf f d.code = d := opdOf_code (by grind [Opd.isReg_fits, Opd.isDst_fits, Opd.isSrc_fits, Opd.isRegC_fits, Opd.isGroup_fits, Opd.isPair_fits, Opd.isVec_fits, Opd.isAcc_fits, Opd.isVSrc_fits])
  have e_a : opdOf f a.code = a := opdOf_code (by grind [Opd.isReg_fits, Opd.isDst_fits, Opd.isSrc_fits, Opd.isRegC_fits, Opd.isGroup_fits, Opd.isPair_fits, Opd.isVec_fits, Opd.isAcc_fits, Opd.isVSrc_fits])
  have := b2n_lt h
  have := p.isLt
  have hm : (BitVec.ofNat 12 ((sfMod h p))).toNat = (sfMod h p) := mod12 (by simp only [sfMod]; omega)
  obtain rfl := Option.some.inj (show some _ = some r from he)
  refine decodeOp_of_parse hw he hs ?_ ?_
  · have q_h : (bit (BitVec.ofNat 12 ((sfMod h p))).toNat 11) = h := by rw [hm]; exact bit_b2n (by simp only [sfMod]; omega)
    have q_p : (fin 8 (bits (BitVec.ofNat 12 ((sfMod h p))).toNat 8 6)) = p := by rw [hm]; exact Fin.ext (by simp only [fin, bits]; simp only [sfMod]; omega)
    show some (ok (.ftanh (bit (BitVec.ofNat 12 ((sfMod h p))).toNat 11) (fin 8 (bits (BitVec.ofNat 12 ((sfMod h p))).toNat 8 6)) (opdOf f d.code) (opdOf f a.code))) = _
    simp only [q_h, q_p, e_d, e_a]
  · exact .inr ⟨(congrArg (bit · 11) hm).trans (bit_b2n (h := h) (by simp only [sfMod]; omega)), fun _ => rfl⟩

theorem Laws.RoundTrip.fsigm (h : Bool) (p : Fin 8) (d : Opd) (a : Opd) : Laws.RoundTrip.Statement (.fsigm h p d a) := by
  intro f regs nsem slot r hw he hs
  rw [RawOp.ofBits_toBits]
  obtain ⟨hf, hk⟩ := WellFormed.parts hw
  dsimp only [Instr.formOk, Instr.kindsOk] at hf hk
  (try simp only [Bool.and_eq_true] at hk)
  have e_d : opdOf f d.code = d := opdOf_code (by grind [Opd.isReg_fits, Opd.isDst_fits, Opd.isSrc_fits, Opd.isRegC_fits, Opd.isGroup_fits, Opd.isPair_fits, Opd.isVec_fits, Opd.isAcc_fits, Opd.isVSrc_fits])
  have e_a : opdOf f a.code = a := opdOf_code (by grind [Opd.isReg_fits, Opd.isDst_fits, Opd.isSrc_fits, Opd.isRegC_fits, Opd.isGroup_fits, Opd.isPair_fits, Opd.isVec_fits, Opd.isAcc_fits, Opd.isVSrc_fits])
  have := b2n_lt h
  have := p.isLt
  have hm : (BitVec.ofNat 12 ((sfMod h p))).toNat = (sfMod h p) := mod12 (by simp only [sfMod]; omega)
  obtain rfl := Option.some.inj (show some _ = some r from he)
  refine decodeOp_of_parse hw he hs ?_ ?_
  · have q_h : (bit (BitVec.ofNat 12 ((sfMod h p))).toNat 11) = h := by rw [hm]; exact bit_b2n (by simp only [sfMod]; omega)
    have q_p : (fin 8 (bits (BitVec.ofNat 12 ((sfMod h p))).toNat 8 6)) = p := by rw [hm]; exact Fin.ext (by simp only [fin, bits]; simp only [sfMod]; omega)
    show some (ok (.fsigm (bit (BitVec.ofNat 12 ((sfMod h p))).toNat 11) (fin 8 (bits (BitVec.ofNat 12 ((sfMod h p))).toNat 8 6)) (opdOf f d.code) (opdOf f a.code))) = _
    simp only [q_h, q_p, e_d, e_a]
  · exact .inr ⟨(congrArg (bit · 11) hm).trans (bit_b2n (h := h) (by simp only [sfMod]; omega)), fun _ => rfl⟩

theorem Laws.RoundTrip.flut (h : Bool) (p : Fin 8) (d : Opd) (a : Opd) : Laws.RoundTrip.Statement (.flut h p d a) := by
  intro f regs nsem slot r hw he hs
  rw [RawOp.ofBits_toBits]
  obtain ⟨hf, hk⟩ := WellFormed.parts hw
  dsimp only [Instr.formOk, Instr.kindsOk] at hf hk
  (try simp only [Bool.and_eq_true] at hk)
  have e_d : opdOf f d.code = d := opdOf_code (by grind [Opd.isReg_fits, Opd.isDst_fits, Opd.isSrc_fits, Opd.isRegC_fits, Opd.isGroup_fits, Opd.isPair_fits, Opd.isVec_fits, Opd.isAcc_fits, Opd.isVSrc_fits])
  have e_a : opdOf f a.code = a := opdOf_code (by grind [Opd.isReg_fits, Opd.isDst_fits, Opd.isSrc_fits, Opd.isRegC_fits, Opd.isGroup_fits, Opd.isPair_fits, Opd.isVec_fits, Opd.isAcc_fits, Opd.isVSrc_fits])
  have := b2n_lt h
  have := p.isLt
  have hm : (BitVec.ofNat 12 ((sfMod h p))).toNat = (sfMod h p) := mod12 (by simp only [sfMod]; omega)
  obtain rfl := Option.some.inj (show some _ = some r from he)
  refine decodeOp_of_parse hw he hs ?_ ?_
  · have q_h : (bit (BitVec.ofNat 12 ((sfMod h p))).toNat 11) = h := by rw [hm]; exact bit_b2n (by simp only [sfMod]; omega)
    have q_p : (fin 8 (bits (BitVec.ofNat 12 ((sfMod h p))).toNat 8 6)) = p := by rw [hm]; exact Fin.ext (by simp only [fin, bits]; simp only [sfMod]; omega)
    show some (ok (.flut (bit (BitVec.ofNat 12 ((sfMod h p))).toNat 11) (fin 8 (bits (BitVec.ofNat 12 ((sfMod h p))).toNat 8 6)) (opdOf f d.code) (opdOf f a.code))) = _
    simp only [q_h, q_p, e_d, e_a]
  · exact .inr ⟨(congrArg (bit · 11) hm).trans (bit_b2n (h := h) (by simp only [sfMod]; omega)), fun _ => rfl⟩

theorem Laws.RoundTrip.lutld (d : Opd) (a : Opd) (n : Fin 4) : Laws.RoundTrip.Statement (.lutld d a n) := by
  intro f regs nsem slot r hw he hs
  rw [RawOp.ofBits_toBits]
  obtain ⟨hf, hk⟩ := WellFormed.parts hw
  dsimp only [Instr.formOk, Instr.kindsOk] at hf hk
  (try simp only [Bool.and_eq_true] at hk)
  have e_d : opdOf f d.code = d := opdOf_code (Opd.isDst_fits hk.1)
  have e_a : opdOf f a.code = a := opdOf_code (Opd.isSrc_fits hk.2)
  have := n.isLt
  have hm : (BitVec.ofNat 12 (n.val)).toNat = n.val := mod12 (by omega)
  obtain rfl := Option.some.inj (show some _ = some r from he)
  refine decodeOp_of_parse hw he hs ?_ ?_
  · have q_n : (fin 4 (bits (BitVec.ofNat 12 (n.val)).toNat 1 0)) = n := by rw [hm]; exact Fin.ext (by simp only [fin, bits]; omega)
    show some (ok (.lutld (opdOf f d.code) (opdOf f a.code) (fin 4 (bits (BitVec.ofNat 12 (n.val)).toNat 1 0)))) = _
    simp only [e_d, e_a, q_n]
  · exact .inr ⟨(congrArg (bit · 11) hm).trans (bit_low (by omega)), nofun⟩

theorem Laws.RoundTrip.lutsel (n : Fin 4) : Laws.RoundTrip.Statement (.lutsel n) := by
  intro f regs nsem slot r hw he hs
  rw [RawOp.ofBits_toBits]
  obtain ⟨hf, hk⟩ := WellFormed.parts hw
  dsimp only [Instr.formOk, Instr.kindsOk] at hf hk
  have := n.isLt
  have hm : (BitVec.ofNat 12 (n.val)).toNat = n.val := mod12 (by omega)
  obtain rfl := Option.some.inj (show some _ = some r from he)
  refine decodeOp_of_parse hw he hs ?_ ?_
  · have q_n : (fin 4 (bits (BitVec.ofNat 12 (n.val)).toNat 1 0)) = n := by rw [hm]; exact Fin.ext (by simp only [fin, bits]; omega)
    show some (ok (.lutsel (fin 4 (bits (BitVec.ofNat 12 (n.val)).toNat 1 0)))) = _
    simp only [q_n]
  · exact .inr ⟨(congrArg (bit · 11) hm).trans (bit_low (by omega)), nofun⟩

theorem Laws.RoundTrip.br (base : Option Opd) (off : BitVec 19) : Laws.RoundTrip.Statement (.br base off) := by
  intro f regs nsem slot r hw he hs
  rw [RawOp.ofBits_toBits]
  obtain ⟨hf, hk⟩ := WellFormed.parts hw
  dsimp only [Instr.formOk, Instr.kindsOk] at hf hk
  (try simp only [Bool.and_eq_true] at hk)
  have := off.isLt
  have hm : (BitVec.ofNat 12 (off.toNat % 2048)).toNat = off.toNat % 2048 := mod12 (by omega)
  obtain rfl := Option.some.inj (show some _ = some r from he)
  refine decodeOp_of_parse hw he hs ?_ ?_
  · show some (ok (.br (if bit (if base.isSome then 1 else 0 : Byte).toNat 0 then some (opdOf f ((base.map Opd.code).getD 0)) else none) (off.extractLsb' 11 8 ++ (BitVec.ofNat 12 (off.toNat % 2048)).extractLsb' 0 11 : BitVec 19))) = _
    rw [off19]
    cases base with
    | none => rfl
    | some a =>
      have e_a : opdOf f a.code = a := opdOf_code (Opd.isRegC_fits (by simpa using hk))
      simp [bit, e_a]
  · exact .inr ⟨(congrArg (bit · 11) hm).trans (bit_low (by omega)), nofun⟩

theorem Laws.RoundTrip.brc (c : Cond) (off : BitVec 19) : Laws.RoundTrip.Statement (.brc c off) := by
  intro f regs nsem slot r hw he hs
  rw [RawOp.ofBits_toBits]
  obtain ⟨hf, hk⟩ := WellFormed.parts hw
  dsimp only [Instr.formOk, Instr.kindsOk] at hf hk
  have := off.isLt
  have hm : (BitVec.ofNat 12 (off.toNat % 2048)).toNat = off.toNat % 2048 := mod12 (by omega)
  obtain rfl := Option.some.inj (show some _ = some r from he)
  refine decodeOp_of_parse hw he hs ?_ ?_
  · obtain ⟨h1, h2, h3⟩ := condOf_code hk
    refine (congrArg some (need_some (x := condOf (BitVec.ofNat 8 c.d).toNat (opdOf f c.a)) (k := fun c => ok (.brc c (off.extractLsb' 11 8 ++ (BitVec.ofNat 12 (off.toNat % 2048)).extractLsb' 0 11 : BitVec 19))) h1)).trans ?_
    rw [off19]
  · exact .inr ⟨(congrArg (bit · 11) hm).trans (bit_low (by omega)), nofun⟩

theorem Laws.RoundTrip.call (base : Option Opd) (off : BitVec 19) : Laws.RoundTrip.Statement (.call base off) := by
  intro f regs nsem slot r hw he hs
  rw [RawOp.ofBits_toBits]
  obtain ⟨hf, hk⟩ := WellFormed.parts hw
  dsimp only [Instr.formOk, Instr.kindsOk] at hf hk
  (try simp only [Bool.and_eq_true] at hk)
  have := off.isLt
  have hm : (BitVec.ofNat 12 (off.toNat % 2048)).toNat = off.toNat % 2048 := mod12 (by omega)
  obtain rfl := Option.some.inj (show some _ = some r from he)
  refine decodeOp_of_parse hw he hs ?_ ?_
  · show some (ok (.call (if bit (if base.isSome then 1 else 0 : Byte).toNat 0 then some (opdOf f ((base.map Opd.code).getD 0)) else none) (off.extractLsb' 11 8 ++ (BitVec.ofNat 12 (off.toNat % 2048)).extractLsb' 0 11 : BitVec 19))) = _
    rw [off19]
    cases base with
    | none => rfl
    | some a =>
      have e_a : opdOf f a.code = a := opdOf_code (Opd.isRegC_fits (by simpa using hk.1))
      simp [bit, e_a]
  · exact .inr ⟨(congrArg (bit · 11) hm).trans (bit_low (by omega)), nofun⟩

theorem Laws.RoundTrip.ret (a : Opd) : Laws.RoundTrip.Statement (.ret a) := by
  intro f regs nsem slot r hw he hs
  rw [RawOp.ofBits_toBits]
  obtain ⟨hf, hk⟩ := WellFormed.parts hw
  dsimp only [Instr.formOk, Instr.kindsOk] at hf hk
  (try simp only [Bool.and_eq_true] at hk)
  have e_a : opdOf f a.code = a := opdOf_code (Opd.isRegC_fits hk)
  have hm : (BitVec.ofNat 12 (0)).toNat = 0 := mod12 (by omega)
  obtain rfl := Option.some.inj (show some _ = some r from he)
  refine decodeOp_of_parse hw he hs ?_ ?_
  · show some (ok (.ret (opdOf f a.code))) = _
    simp only [e_a]
  · exact .inr ⟨(congrArg (bit · 11) hm).trans (bit_low (by omega)), nofun⟩

theorem Laws.RoundTrip.mark (id : Byte) (n : BitVec 19) : Laws.RoundTrip.Statement (.mark id n) := by
  intro f regs nsem slot r hw he hs
  rw [RawOp.ofBits_toBits]
  obtain ⟨hf, hk⟩ := WellFormed.parts hw
  dsimp only [Instr.formOk, Instr.kindsOk] at hf hk
  have := id.isLt
  have := n.isLt
  have hm : (BitVec.ofNat 12 ((n.toNat % 2048))).toNat = (n.toNat % 2048) := mod12 (by omega)
  obtain rfl := Option.some.inj (show some _ = some r from he)
  refine decodeOp_of_parse hw he hs ?_ ?_
  · have q_n : ((n.extractLsb' 11 8) ++ (BitVec.ofNat 12 ((n.toNat % 2048))).extractLsb' 0 11 : BitVec 19) = n := off19 n
    show some (ok (.mark id ((n.extractLsb' 11 8) ++ (BitVec.ofNat 12 ((n.toNat % 2048))).extractLsb' 0 11 : BitVec 19))) = _
    simp only [q_n]
  · exact .inr ⟨(congrArg (bit · 11) hm).trans (bit_low (by omega)), nofun⟩

theorem Laws.RoundTrip.trcev (code : Byte) (a : Opd) : Laws.RoundTrip.Statement (.trcev code a) := by
  intro f regs nsem slot r hw he hs
  rw [RawOp.ofBits_toBits]
  obtain ⟨hf, hk⟩ := WellFormed.parts hw
  dsimp only [Instr.formOk, Instr.kindsOk] at hf hk
  (try simp only [Bool.and_eq_true] at hk)
  have e_a : opdOf f a.code = a := opdOf_code (by grind [Opd.isReg_fits, Opd.isDst_fits, Opd.isSrc_fits, Opd.isRegC_fits, Opd.isGroup_fits, Opd.isPair_fits, Opd.isVec_fits, Opd.isAcc_fits, Opd.isVSrc_fits])
  have := code.isLt
  have hm : (BitVec.ofNat 12 (code.toNat)).toNat = code.toNat := mod12 (by omega)
  obtain rfl := Option.some.inj (show some _ = some r from he)
  refine decodeOp_of_parse hw he hs ?_ ?_
  · show some (if bit (BitVec.ofNat 12 (code.toNat)).toNat 10 then ok (.trcevFull (BitVec.ofNat 8 (bits (BitVec.ofNat 12 (code.toNat)).toNat 7 0)) (opdOf f a.code) (opdOf f 0)) else ok (.trcev (BitVec.ofNat 8 (bits (BitVec.ofNat 12 (code.toNat)).toNat 7 0)) (opdOf f a.code))) = _
    have q1 : bit code.toNat 10 = false := bit_b2n (h := false) (by show _ = 0; omega)
    have q2 : BitVec.ofNat 8 (bits code.toNat 7 0) = code := by apply BitVec.eq_of_toNat_eq; rw [BitVec.toNat_ofNat]; simp only [bits]; omega
    rw [hm, q1, q2, e_a]; rfl
  · exact .inr ⟨(congrArg (bit · 11) hm).trans (bit_low (by omega)), nofun⟩

theorem Laws.RoundTrip.trcevFull (code : Byte) (a : Opd) (b : Opd) : Laws.RoundTrip.Statement (.trcevFull code a b) := by
  intro f regs nsem slot r hw he hs
  rw [RawOp.ofBits_toBits]
  obtain ⟨hf, hk⟩ := WellFormed.parts hw
  dsimp only [Instr.formOk, Instr.kindsOk] at hf hk
  (try simp only [Bool.and_eq_true] at hk)
  have e_a : opdOf f a.code = a := opdOf_code (by grind [Opd.isReg_fits, Opd.isDst_fits, Opd.isSrc_fits, Opd.isRegC_fits, Opd.isGroup_fits, Opd.isPair_fits, Opd.isVec_fits, Opd.isAcc_fits, Opd.isVSrc_fits])
  have e_b : opdOf f b.code = b := opdOf_code (by grind [Opd.isReg_fits, Opd.isDst_fits, Opd.isSrc_fits, Opd.isRegC_fits, Opd.isGroup_fits, Opd.isPair_fits, Opd.isVec_fits, Opd.isAcc_fits, Opd.isVSrc_fits])
  have := code.isLt
  have hm : (BitVec.ofNat 12 (1024 + code.toNat)).toNat = 1024 + code.toNat := mod12 (by omega)
  obtain rfl := Option.some.inj (show some _ = some r from he)
  refine decodeOp_of_parse hw he hs ?_ ?_
  · generalize hx : 1024 + code.toNat = x at hm ⊢
    show some (if bit (BitVec.ofNat 12 (x)).toNat 10 then ok (.trcevFull (BitVec.ofNat 8 (bits (BitVec.ofNat 12 (x)).toNat 7 0)) (opdOf f a.code) (opdOf f b.code)) else zero 0x0C b.code (ok (.trcev (BitVec.ofNat 8 (bits (BitVec.ofNat 12 (x)).toNat 7 0)) (opdOf f a.code)))) = _
    have q1 : bit x 10 = true := bit_b2n (h := true) (by show _ = 1; omega)
    have q2 : BitVec.ofNat 8 (bits x 7 0) = code := by apply BitVec.eq_of_toNat_eq; rw [BitVec.toNat_ofNat]; simp only [bits]; omega
    rw [hm, q1, q2, e_a, e_b]; rfl
  · exact .inr ⟨(congrArg (bit · 11) hm).trans (bit_low (by omega)), nofun⟩

theorem Laws.RoundTrip.leave (a : Opd) (n : BitVec 11) : Laws.RoundTrip.Statement (.leave a n) := by
  intro f regs nsem slot r hw he hs
  rw [RawOp.ofBits_toBits]
  obtain ⟨hf, hk⟩ := WellFormed.parts hw
  dsimp only [Instr.formOk, Instr.kindsOk] at hf hk
  (try simp only [Bool.and_eq_true] at hk)
  have e_a : opdOf f a.code = a := opdOf_code (Opd.isRegC_fits hk)
  have := n.isLt
  have hm : (BitVec.ofNat 12 (n.toNat)).toNat = n.toNat := mod12 (by omega)
  obtain rfl := Option.some.inj (show some _ = some r from he)
  refine decodeOp_of_parse hw he hs ?_ ?_
  · have q_n : (BitVec.ofNat 11 (bits (BitVec.ofNat 12 (n.toNat)).toNat 10 0)) = n := by rw [hm]; apply BitVec.eq_of_toNat_eq; rw [BitVec.toNat_ofNat]; simp only [bits]; omega
    show some (ok (.leave (opdOf f a.code) (BitVec.ofNat 11 (bits (BitVec.ofNat 12 (n.toNat)).toNat 10 0)))) = _
    simp only [e_a, q_n]
  · exact .inr ⟨(congrArg (bit · 11) hm).trans (bit_low (by omega)), nofun⟩

theorem Laws.RoundTrip.launch (a : Opd) : Laws.RoundTrip.Statement (.launch a) := by
  intro f regs nsem slot r hw he hs
  rw [RawOp.ofBits_toBits]
  obtain ⟨hf, hk⟩ := WellFormed.parts hw
  dsimp only [Instr.formOk, Instr.kindsOk] at hf hk
  (try simp only [Bool.and_eq_true] at hk)
  have e_a : opdOf f a.code = a := opdOf_code (Opd.isRegC_fits hk)
  have hm : (BitVec.ofNat 12 (0)).toNat = 0 := mod12 (by omega)
  obtain rfl := Option.some.inj (show some _ = some r from he)
  refine decodeOp_of_parse hw he hs ?_ ?_
  · show some (ok (.launch (opdOf f a.code))) = _
    simp only [e_a]
  · exact .inr ⟨(congrArg (bit · 11) hm).trans (bit_low (by omega)), nofun⟩

theorem Laws.RoundTrip.jend  : Laws.RoundTrip.Statement (.jend) := by
  intro f regs nsem slot r hw he hs
  rw [RawOp.ofBits_toBits]
  obtain ⟨hf, hk⟩ := WellFormed.parts hw
  dsimp only [Instr.formOk, Instr.kindsOk] at hf hk
  have hm : (BitVec.ofNat 12 (0)).toNat = 0 := mod12 (by omega)
  obtain rfl := Option.some.inj (show some _ = some r from he)
  refine decodeOp_of_parse hw he hs ?_ ?_
  · rfl
  · exact .inr ⟨(congrArg (bit · 11) hm).trans (bit_low (by omega)), nofun⟩

theorem Laws.RoundTrip.jendBlk  : Laws.RoundTrip.Statement (.jendBlk) := by
  intro f regs nsem slot r hw he hs
  rw [RawOp.ofBits_toBits]
  obtain ⟨hf, hk⟩ := WellFormed.parts hw
  dsimp only [Instr.formOk, Instr.kindsOk] at hf hk
  have hm : (BitVec.ofNat 12 (1)).toNat = 1 := mod12 (by omega)
  obtain rfl := Option.some.inj (show some _ = some r from he)
  refine decodeOp_of_parse hw he hs ?_ ?_
  · rfl
  · exact .inr ⟨(congrArg (bit · 11) hm).trans (bit_low (by omega)), nofun⟩

theorem Laws.RoundTrip.semsig (n : Byte) (a : Opd) (k : Fin 8) (rem : Bool) : Laws.RoundTrip.Statement (.semsig n a k rem) := by
  intro f regs nsem slot r hw he hs
  rw [RawOp.ofBits_toBits]
  obtain ⟨hf, hk⟩ := WellFormed.parts hw
  dsimp only [Instr.formOk, Instr.kindsOk] at hf hk
  (try simp only [Bool.and_eq_true] at hk)
  have e_a : opdOf f a.code = a := opdOf_code (Opd.isSrc_fits hk)
  have := n.isLt
  have := k.isLt
  have := b2n_lt rem
  have hm : (BitVec.ofNat 12 ((k.val * 256 + b2n rem * 128))).toNat = (k.val * 256 + b2n rem * 128) := mod12 (by omega)
  obtain rfl := Option.some.inj (show some _ = some r from he)
  refine decodeOp_of_parse hw he hs ?_ ?_
  · generalize hx : (k.val * 256 + b2n rem * 128) = x at hm ⊢
    have q_k : (fin 8 (bits (BitVec.ofNat 12 (x)).toNat 10 8)) = k := by rw [hm]; exact Fin.ext (by simp only [fin, bits]; omega)
    have q_rem : (bit (BitVec.ofNat 12 (x)).toNat 7) = rem := by rw [hm]; exact bit_b2n (by omega)
    show some (ok (.semsig n (opdOf f a.code) (fin 8 (bits (BitVec.ofNat 12 (x)).toNat 10 8)) (bit (BitVec.ofNat 12 (x)).toNat 7))) = _
    simp only [e_a, q_k, q_rem]
  · exact .inr ⟨(congrArg (bit · 11) hm).trans (bit_low (by omega)), nofun⟩

theorem Laws.RoundTrip.semwait (n : Byte) (a : Opd) : Laws.RoundTrip.Statement (.semwait n a) := by
  intro f regs nsem slot r hw he hs
  rw [RawOp.ofBits_toBits]
  obtain ⟨hf, hk⟩ := WellFormed.parts hw
  dsimp only [Instr.formOk, Instr.kindsOk] at hf hk
  (try simp only [Bool.and_eq_true] at hk)
  have e_a : opdOf f a.code = a := opdOf_code (Opd.isSrc_fits hk)
  have := n.isLt
  have hm : (BitVec.ofNat 12 (0)).toNat = 0 := mod12 (by omega)
  obtain rfl := Option.some.inj (show some _ = some r from he)
  refine decodeOp_of_parse hw he hs ?_ ?_
  · show some (ok (.semwait n (opdOf f a.code))) = _
    simp only [e_a]
  · exact .inr ⟨(congrArg (bit · 11) hm).trans (bit_low (by omega)), nofun⟩

theorem Laws.RoundTrip.yield  : Laws.RoundTrip.Statement (.yield) := by
  intro f regs nsem slot r hw he hs
  rw [RawOp.ofBits_toBits]
  obtain ⟨hf, hk⟩ := WellFormed.parts hw
  dsimp only [Instr.formOk, Instr.kindsOk] at hf hk
  have hm : (BitVec.ofNat 12 (0)).toNat = 0 := mod12 (by omega)
  obtain rfl := Option.some.inj (show some _ = some r from he)
  refine decodeOp_of_parse hw he hs ?_ ?_
  · show some (ok (.yield)) = _
    rfl
  · exact .inr ⟨(congrArg (bit · 11) hm).trans (bit_low (by omega)), nofun⟩

theorem Laws.RoundTrip.barGroup (id : Fin 16) : Laws.RoundTrip.Statement (.barGroup id) := by
  intro f regs nsem slot r hw he hs
  rw [RawOp.ofBits_toBits]
  obtain ⟨hf, hk⟩ := WellFormed.parts hw
  dsimp only [Instr.formOk, Instr.kindsOk] at hf hk
  have := id.isLt
  have hm : (BitVec.ofNat 12 (id.val)).toNat = id.val := mod12 (by omega)
  obtain rfl := Option.some.inj (show some _ = some r from he)
  refine decodeOp_of_parse hw he hs ?_ ?_
  · generalize hx : id.val = x at hm ⊢
    show some (match bits (BitVec.ofNat 12 (x)).toNat 5 4 with
      | 0 => ok (.barGroup (fin 16 (bits (BitVec.ofNat 12 (x)).toNat 3 0)))
      | 1 => ok (.barBlock (fin 16 (bits (BitVec.ofNat 12 (x)).toNat 3 0)))
      | 2 => ok (.barJob (fin 16 (bits (BitVec.ofNat 12 (x)).toNat 3 0)))
      | _ => (.barGroup 0, [0x0D])) = _
    have q1 : bits x 5 4 = 0 := by simp only [bits]; omega
    have q2 : fin 16 (bits x 3 0) = id := Fin.ext (by simp only [fin, bits]; omega)
    simp only [hm, q1, q2]
  · exact .inr ⟨(congrArg (bit · 11) hm).trans (bit_low (by omega)), nofun⟩

theorem Laws.RoundTrip.barBlock (id : Fin 16) : Laws.RoundTrip.Statement (.barBlock id) := by
  intro f regs nsem slot r hw he hs
  rw [RawOp.ofBits_toBits]
  obtain ⟨hf, hk⟩ := WellFormed.parts hw
  dsimp only [Instr.formOk, Instr.kindsOk] at hf hk
  have := id.isLt
  have hm : (BitVec.ofNat 12 (16 + id.val)).toNat = 16 + id.val := mod12 (by omega)
  obtain rfl := Option.some.inj (show some _ = some r from he)
  refine decodeOp_of_parse hw he hs ?_ ?_
  · generalize hx : 16 + id.val = x at hm ⊢
    show some (match bits (BitVec.ofNat 12 (x)).toNat 5 4 with
      | 0 => ok (.barGroup (fin 16 (bits (BitVec.ofNat 12 (x)).toNat 3 0)))
      | 1 => ok (.barBlock (fin 16 (bits (BitVec.ofNat 12 (x)).toNat 3 0)))
      | 2 => ok (.barJob (fin 16 (bits (BitVec.ofNat 12 (x)).toNat 3 0)))
      | _ => (.barGroup 0, [0x0D])) = _
    have q1 : bits x 5 4 = 1 := by simp only [bits]; omega
    have q2 : fin 16 (bits x 3 0) = id := Fin.ext (by simp only [fin, bits]; omega)
    simp only [hm, q1, q2]
  · exact .inr ⟨(congrArg (bit · 11) hm).trans (bit_low (by omega)), nofun⟩

theorem Laws.RoundTrip.barJob (id : Fin 16) : Laws.RoundTrip.Statement (.barJob id) := by
  intro f regs nsem slot r hw he hs
  rw [RawOp.ofBits_toBits]
  obtain ⟨hf, hk⟩ := WellFormed.parts hw
  dsimp only [Instr.formOk, Instr.kindsOk] at hf hk
  have := id.isLt
  have hm : (BitVec.ofNat 12 (32 + id.val)).toNat = 32 + id.val := mod12 (by omega)
  obtain rfl := Option.some.inj (show some _ = some r from he)
  refine decodeOp_of_parse hw he hs ?_ ?_
  · generalize hx : 32 + id.val = x at hm ⊢
    show some (match bits (BitVec.ofNat 12 (x)).toNat 5 4 with
      | 0 => ok (.barGroup (fin 16 (bits (BitVec.ofNat 12 (x)).toNat 3 0)))
      | 1 => ok (.barBlock (fin 16 (bits (BitVec.ofNat 12 (x)).toNat 3 0)))
      | 2 => ok (.barJob (fin 16 (bits (BitVec.ofNat 12 (x)).toNat 3 0)))
      | _ => (.barGroup 0, [0x0D])) = _
    have q1 : bits x 5 4 = 2 := by simp only [bits]; omega
    have q2 : fin 16 (bits x 3 0) = id := Fin.ext (by simp only [fin, bits]; omega)
    simp only [hm, q1, q2]
  · exact .inr ⟨(congrArg (bit · 11) hm).trans (bit_low (by omega)), nofun⟩

theorem Laws.RoundTrip.trap (c : TrapCond) (code : BitVec 11) : Laws.RoundTrip.Statement (.trap c code) := by
  cases c with
  | cond c =>
    intro f regs nsem slot r hw he hs
    rw [RawOp.ofBits_toBits]
    obtain ⟨hf, hk⟩ := WellFormed.parts hw
    dsimp only [Instr.formOk, Instr.kindsOk] at hf hk
    have := code.isLt
    have hm : (BitVec.ofNat 12 (code.toNat)).toNat = code.toNat := mod12 (by omega)
    obtain rfl := Option.some.inj (show some _ = some r from he)
    refine decodeOp_of_parse hw he hs ?_ ?_
    · obtain ⟨h1, h2, h3⟩ := condOf_code hk
      have hd := byteOf h2
      show some (if (BitVec.ofNat 8 c.d).toNat % 8 == 6 then ok (.trap .always (BitVec.ofNat 11 (bits (BitVec.ofNat 12 (code.toNat)).toNat 10 0)))
        else need 0x0D (condOf (BitVec.ofNat 8 c.d).toNat (opdOf f c.a)) (.p 0) fun c => ok (.trap (.cond c) (BitVec.ofNat 11 (bits (BitVec.ofNat 12 (code.toNat)).toNat 10 0)))) = _
      have q : BitVec.ofNat 11 (bits code.toNat 10 0) = code := by apply BitVec.eq_of_toNat_eq; rw [BitVec.toNat_ofNat]; simp only [bits]; omega
      rw [need_some h1, hm, q, hd, if_neg (by simpa using h3)]
    · exact .inr ⟨(congrArg (bit · 11) hm).trans (bit_low (by omega)), nofun⟩
  | always =>
    intro f regs nsem slot r hw he hs
    rw [RawOp.ofBits_toBits]
    obtain ⟨hf, hk⟩ := WellFormed.parts hw
    dsimp only [Instr.formOk, Instr.kindsOk] at hf hk
    have := code.isLt
    have hm : (BitVec.ofNat 12 (code.toNat)).toNat = code.toNat := mod12 (by omega)
    obtain rfl := Option.some.inj (show some _ = some r from he)
    refine decodeOp_of_parse hw he hs ?_ ?_
    · show some (if (6 : Byte).toNat % 8 == 6 then ok (.trap .always (BitVec.ofNat 11 (bits (BitVec.ofNat 12 (code.toNat)).toNat 10 0)))
        else need 0x0D (condOf (6 : Byte).toNat (opdOf f 0)) (.p 0) fun c => ok (.trap (.cond c) (BitVec.ofNat 11 (bits (BitVec.ofNat 12 (code.toNat)).toNat 10 0)))) = _
      have q : BitVec.ofNat 11 (bits code.toNat 10 0) = code := by apply BitVec.eq_of_toNat_eq; rw [BitVec.toNat_ofNat]; simp only [bits]; omega
      rw [hm, q]; rfl
    · exact .inr ⟨(congrArg (bit · 11) hm).trans (bit_low (by omega)), nofun⟩

theorem Laws.RoundTrip.tret  : Laws.RoundTrip.Statement (.tret) := by
  intro f regs nsem slot r hw he hs
  rw [RawOp.ofBits_toBits]
  obtain ⟨hf, hk⟩ := WellFormed.parts hw
  dsimp only [Instr.formOk, Instr.kindsOk] at hf hk
  have hm : (BitVec.ofNat 12 (0)).toNat = 0 := mod12 (by omega)
  obtain rfl := Option.some.inj (show some _ = some r from he)
  refine decodeOp_of_parse hw he hs ?_ ?_
  · show some (ok (.tret)) = _
    rfl
  · exact .inr ⟨(congrArg (bit · 11) hm).trans (bit_low (by omega)), nofun⟩

theorem Laws.RoundTrip.svc (code : BitVec 11) : Laws.RoundTrip.Statement (.svc code) := by
  intro f regs nsem slot r hw he hs
  rw [RawOp.ofBits_toBits]
  obtain ⟨hf, hk⟩ := WellFormed.parts hw
  dsimp only [Instr.formOk, Instr.kindsOk] at hf hk
  have := code.isLt
  have hm : (BitVec.ofNat 12 (code.toNat)).toNat = code.toNat := mod12 (by omega)
  obtain rfl := Option.some.inj (show some _ = some r from he)
  refine decodeOp_of_parse hw he hs ?_ ?_
  · have q_code : (BitVec.ofNat 11 (bits (BitVec.ofNat 12 (code.toNat)).toNat 10 0)) = code := by rw [hm]; apply BitVec.eq_of_toNat_eq; rw [BitVec.toNat_ofNat]; simp only [bits]; omega
    show some (ok (.svc (BitVec.ofNat 11 (bits (BitVec.ofNat 12 (code.toNat)).toNat 10 0)))) = _
    simp only [q_code]
  · exact .inr ⟨(congrArg (bit · 11) hm).trans (bit_low (by omega)), nofun⟩

theorem Laws.RoundTrip.bkpt (code : BitVec 11) : Laws.RoundTrip.Statement (.bkpt code) := by
  intro f regs nsem slot r hw he hs
  rw [RawOp.ofBits_toBits]
  obtain ⟨hf, hk⟩ := WellFormed.parts hw
  dsimp only [Instr.formOk, Instr.kindsOk] at hf hk
  have := code.isLt
  have hm : (BitVec.ofNat 12 (code.toNat)).toNat = code.toNat := mod12 (by omega)
  obtain rfl := Option.some.inj (show some _ = some r from he)
  refine decodeOp_of_parse hw he hs ?_ ?_
  · have q_code : (BitVec.ofNat 11 (bits (BitVec.ofNat 12 (code.toNat)).toNat 10 0)) = code := by rw [hm]; apply BitVec.eq_of_toNat_eq; rw [BitVec.toNat_ofNat]; simp only [bits]; omega
    show some (ok (.bkpt (BitVec.ofNat 11 (bits (BitVec.ofNat 12 (code.toNat)).toNat 10 0)))) = _
    simp only [q_code]
  · exact .inr ⟨(congrArg (bit · 11) hm).trans (bit_low (by omega)), nofun⟩

theorem Laws.RoundTrip.rayqRay (q : Opd) (h : Opd) (fast : Bool) (nohint : Bool) (opq : Bool) : Laws.RoundTrip.Statement (.rayqRay q h fast nohint opq) := by
  intro f regs nsem slot r hw he hs
  rw [RawOp.ofBits_toBits]
  obtain ⟨hf, hk⟩ := WellFormed.parts hw
  dsimp only [Instr.formOk, Instr.kindsOk] at hf hk
  (try simp only [Bool.and_eq_true] at hk)
  have e_q : opdOf f q.code = q := opdOf_code (by grind [Opd.isReg_fits, Opd.isDst_fits, Opd.isSrc_fits, Opd.isRegC_fits, Opd.isGroup_fits, Opd.isPair_fits, Opd.isVec_fits, Opd.isAcc_fits, Opd.isVSrc_fits])
  have := b2n_lt fast
  have := b2n_lt nohint
  have := b2n_lt opq
  have hm : (BitVec.ofNat 12 (b2n fast * 512 + b2n nohint * 256 + b2n opq * 128)).toNat = b2n fast * 512 + b2n nohint * 256 + b2n opq * 128 := mod12 (by omega)
  obtain rfl := Option.some.inj (show some _ = some r from he)
  refine decodeOp_of_parse hw he hs ?_ ?_
  · generalize hx : b2n fast * 512 + b2n nohint * 256 + b2n opq * 128 = x at hm ⊢
    show some (if bit (BitVec.ofNat 12 (x)).toNat 10 then ok (.rayqSph (opdOf f 0) (opdOf f q.code) (opdOf f h.code) (bit (BitVec.ofNat 12 (x)).toNat 9) (bit (BitVec.ofNat 12 (x)).toNat 8) (bit (BitVec.ofNat 12 (x)).toNat 7))
      else zero 0x0C 0 (ok (.rayqRay (opdOf f q.code) (opdOf f h.code) (bit (BitVec.ofNat 12 (x)).toNat 9) (bit (BitVec.ofNat 12 (x)).toNat 8) (bit (BitVec.ofNat 12 (x)).toNat 7)))) = _
    have q1 : bit x 9 = fast := bit_b2n (by omega)
    have q2 : bit x 8 = nohint := bit_b2n (by omega)
    have q3 : bit x 7 = opq := bit_b2n (by omega)
    have q4 : bit x 10 = false := bit_b2n (h := false) (by show _ = 0; omega)
    have e_h := opdOf_code (Opd.regOrZero_fits (f := f) (regs := regs) (o := h) (by grind))
    rw [hm, q1, q2, q3, q4, e_q, e_h, zero_ok rfl]; rfl
  · exact .inr ⟨(congrArg (bit · 11) hm).trans (bit_low (by omega)), nofun⟩

theorem Laws.RoundTrip.rayqSph (r1 : Opd) (q : Opd) (h : Opd) (fast : Bool) (nohint : Bool) (opq : Bool) : Laws.RoundTrip.Statement (.rayqSph r1 q h fast nohint opq) := by
  intro f regs nsem slot r hw he hs
  rw [RawOp.ofBits_toBits]
  obtain ⟨hf, hk⟩ := WellFormed.parts hw
  dsimp only [Instr.formOk, Instr.kindsOk] at hf hk
  (try simp only [Bool.and_eq_true] at hk)
  have e_r1 : opdOf f r1.code = r1 := opdOf_code (by grind [Opd.isReg_fits, Opd.isDst_fits, Opd.isSrc_fits, Opd.isRegC_fits, Opd.isGroup_fits, Opd.isPair_fits, Opd.isVec_fits, Opd.isAcc_fits, Opd.isVSrc_fits])
  have e_q : opdOf f q.code = q := opdOf_code (by grind [Opd.isReg_fits, Opd.isDst_fits, Opd.isSrc_fits, Opd.isRegC_fits, Opd.isGroup_fits, Opd.isPair_fits, Opd.isVec_fits, Opd.isAcc_fits, Opd.isVSrc_fits])
  have := b2n_lt fast
  have := b2n_lt nohint
  have := b2n_lt opq
  have hm : (BitVec.ofNat 12 (1024 + b2n fast * 512 + b2n nohint * 256 + b2n opq * 128)).toNat = 1024 + b2n fast * 512 + b2n nohint * 256 + b2n opq * 128 := mod12 (by omega)
  obtain rfl := Option.some.inj (show some _ = some r from he)
  refine decodeOp_of_parse hw he hs ?_ ?_
  · generalize hx : 1024 + b2n fast * 512 + b2n nohint * 256 + b2n opq * 128 = x at hm ⊢
    show some (if bit (BitVec.ofNat 12 (x)).toNat 10 then ok (.rayqSph (opdOf f r1.code) (opdOf f q.code) (opdOf f h.code) (bit (BitVec.ofNat 12 (x)).toNat 9) (bit (BitVec.ofNat 12 (x)).toNat 8) (bit (BitVec.ofNat 12 (x)).toNat 7))
      else zero 0x0C r1.code (ok (.rayqRay (opdOf f q.code) (opdOf f h.code) (bit (BitVec.ofNat 12 (x)).toNat 9) (bit (BitVec.ofNat 12 (x)).toNat 8) (bit (BitVec.ofNat 12 (x)).toNat 7)))) = _
    have q1 : bit x 9 = fast := bit_b2n (by omega)
    have q2 : bit x 8 = nohint := bit_b2n (by omega)
    have q3 : bit x 7 = opq := bit_b2n (by omega)
    have q4 : bit x 10 = true := bit_b2n (h := true) (by show _ = 1; omega)
    have e_h := opdOf_code (Opd.regOrZero_fits (f := f) (regs := regs) (o := h) (by grind))
    rw [hm, q1, q2, q3, q4, e_r1, e_q, e_h]; rfl
  · exact .inr ⟨(congrArg (bit · 11) hm).trans (bit_low (by omega)), nofun⟩

theorem Laws.RoundTrip.rayw (d : Opd) : Laws.RoundTrip.Statement (.rayw d) := by
  intro f regs nsem slot r hw he hs
  rw [RawOp.ofBits_toBits]
  obtain ⟨hf, hk⟩ := WellFormed.parts hw
  dsimp only [Instr.formOk, Instr.kindsOk] at hf hk
  (try simp only [Bool.and_eq_true] at hk)
  have e_d : opdOf f d.code = d := opdOf_code (Opd.isGroup_fits hk)
  have hm : (BitVec.ofNat 12 (0)).toNat = 0 := mod12 (by omega)
  obtain rfl := Option.some.inj (show some _ = some r from he)
  refine decodeOp_of_parse hw he hs ?_ ?_
  · show some (ok (.rayw (opdOf f d.code))) = _
    simp only [e_d]
  · exact .inr ⟨(congrArg (bit · 11) hm).trans (bit_low (by omega)), nofun⟩

theorem Laws.RoundTrip.rayahIgnore  : Laws.RoundTrip.Statement (.rayahIgnore) := by
  intro f regs nsem slot r hw he hs
  rw [RawOp.ofBits_toBits]
  obtain ⟨hf, hk⟩ := WellFormed.parts hw
  dsimp only [Instr.formOk, Instr.kindsOk] at hf hk
  have hm : (BitVec.ofNat 12 (0)).toNat = 0 := mod12 (by omega)
  obtain rfl := Option.some.inj (show some _ = some r from he)
  refine decodeOp_of_parse hw he hs ?_ ?_
  · rfl
  · exact .inr ⟨(congrArg (bit · 11) hm).trans (bit_low (by omega)), nofun⟩

theorem Laws.RoundTrip.rayahAccept  : Laws.RoundTrip.Statement (.rayahAccept) := by
  intro f regs nsem slot r hw he hs
  rw [RawOp.ofBits_toBits]
  obtain ⟨hf, hk⟩ := WellFormed.parts hw
  dsimp only [Instr.formOk, Instr.kindsOk] at hf hk
  have hm : (BitVec.ofNat 12 (1)).toNat = 1 := mod12 (by omega)
  obtain rfl := Option.some.inj (show some _ = some r from he)
  refine decodeOp_of_parse hw he hs ?_ ?_
  · rfl
  · exact .inr ⟨(congrArg (bit · 11) hm).trans (bit_low (by omega)), nofun⟩

theorem Laws.RoundTrip.hintinv (a : Opd) : Laws.RoundTrip.Statement (.hintinv a) := by
  intro f regs nsem slot r hw he hs
  rw [RawOp.ofBits_toBits]
  obtain ⟨hf, hk⟩ := WellFormed.parts hw
  dsimp only [Instr.formOk, Instr.kindsOk] at hf hk
  (try simp only [Bool.and_eq_true] at hk)
  have e_a : opdOf f a.code = a := opdOf_code (by grind [Opd.isReg_fits, Opd.isDst_fits, Opd.isSrc_fits, Opd.isRegC_fits, Opd.isGroup_fits, Opd.isPair_fits, Opd.isVec_fits, Opd.isAcc_fits, Opd.isVSrc_fits])
  have hm : (BitVec.ofNat 12 (0)).toNat = 0 := mod12 (by omega)
  obtain rfl := Option.some.inj (show some _ = some r from he)
  refine decodeOp_of_parse hw he hs ?_ ?_
  · show some (ok (if bit (BitVec.ofNat 12 (0)).toNat 0 then .hintinvAll else .hintinv (opdOf f a.code))) = _
    rw [e_a]; rfl
  · exact .inr ⟨(congrArg (bit · 11) hm).trans (bit_low (by omega)), nofun⟩

theorem Laws.RoundTrip.hintinvAll  : Laws.RoundTrip.Statement (.hintinvAll) := by
  intro f regs nsem slot r hw he hs
  rw [RawOp.ofBits_toBits]
  obtain ⟨hf, hk⟩ := WellFormed.parts hw
  dsimp only [Instr.formOk, Instr.kindsOk] at hf hk
  have hm : (BitVec.ofNat 12 (1)).toNat = 1 := mod12 (by omega)
  obtain rfl := Option.some.inj (show some _ = some r from he)
  refine decodeOp_of_parse hw he hs ?_ ?_
  · rfl
  · exact .inr ⟨(congrArg (bit · 11) hm).trans (bit_low (by omega)), nofun⟩

theorem Laws.RoundTrip.isamp (d : Opd) (a : Opd) (b : Opd) : Laws.RoundTrip.Statement (.isamp d a b) := by
  intro f regs nsem slot r hw he hs
  rw [RawOp.ofBits_toBits]
  obtain ⟨hf, hk⟩ := WellFormed.parts hw
  dsimp only [Instr.formOk, Instr.kindsOk] at hf hk
  (try simp only [Bool.and_eq_true] at hk)
  have e_d : opdOf f d.code = d := opdOf_code (Opd.isGroup_fits hk.1.1)
  have e_a : opdOf f a.code = a := opdOf_code (Opd.isReg_fits hk.1.2)
  have e_b : opdOf f b.code = b := opdOf_code (Opd.isReg_fits hk.2)
  have hm : (BitVec.ofNat 12 (0)).toNat = 0 := mod12 (by omega)
  obtain rfl := Option.some.inj (show some _ = some r from he)
  refine decodeOp_of_parse hw he hs ?_ ?_
  · show some (ok (.isamp (opdOf f d.code) (opdOf f a.code) (opdOf f b.code))) = _
    simp only [e_d, e_a, e_b]
  · exact .inr ⟨(congrArg (bit · 11) hm).trans (bit_low (by omega)), nofun⟩

theorem Laws.RoundTrip.cmsamp (d : Opd) (a : Opd) (b : Opd) : Laws.RoundTrip.Statement (.cmsamp d a b) := by
  intro f regs nsem slot r hw he hs
  rw [RawOp.ofBits_toBits]
  obtain ⟨hf, hk⟩ := WellFormed.parts hw
  dsimp only [Instr.formOk, Instr.kindsOk] at hf hk
  (try simp only [Bool.and_eq_true] at hk)
  have e_d : opdOf f d.code = d := opdOf_code (Opd.isGroup_fits hk.1.1)
  have e_a : opdOf f a.code = a := opdOf_code (Opd.isReg_fits hk.1.2)
  have e_b : opdOf f b.code = b := opdOf_code (Opd.isReg_fits hk.2)
  have hm : (BitVec.ofNat 12 (0)).toNat = 0 := mod12 (by omega)
  obtain rfl := Option.some.inj (show some _ = some r from he)
  refine decodeOp_of_parse hw he hs ?_ ?_
  · show some (ok (.cmsamp (opdOf f d.code) (opdOf f a.code) (opdOf f b.code))) = _
    simp only [e_d, e_a, e_b]
  · exact .inr ⟨(congrArg (bit · 11) hm).trans (bit_low (by omega)), nofun⟩

theorem Laws.RoundTrip.cmseg (d : Opd) (a : Opd) (b : Opd) : Laws.RoundTrip.Statement (.cmseg d a b) := by
  intro f regs nsem slot r hw he hs
  rw [RawOp.ofBits_toBits]
  obtain ⟨hf, hk⟩ := WellFormed.parts hw
  dsimp only [Instr.formOk, Instr.kindsOk] at hf hk
  (try simp only [Bool.and_eq_true] at hk)
  have e_d : opdOf f d.code = d := opdOf_code (Opd.isGroup_fits hk.1.1)
  have e_a : opdOf f a.code = a := opdOf_code (Opd.isReg_fits hk.1.2)
  have e_b : opdOf f b.code = b := opdOf_code (Opd.isGroup_fits hk.2)
  have hm : (BitVec.ofNat 12 (0)).toNat = 0 := mod12 (by omega)
  obtain rfl := Option.some.inj (show some _ = some r from he)
  refine decodeOp_of_parse hw he hs ?_ ?_
  · show some (ok (.cmseg (opdOf f d.code) (opdOf f a.code) (opdOf f b.code))) = _
    simp only [e_d, e_a, e_b]
  · exact .inr ⟨(congrArg (bit · 11) hm).trans (bit_low (by omega)), nofun⟩

theorem Laws.RoundTrip.mnop (h : Bool) : Laws.RoundTrip.Statement (.mnop h) := by
  intro f regs nsem slot r hw he hs
  rw [RawOp.ofBits_toBits]
  obtain ⟨hf, hk⟩ := WellFormed.parts hw
  dsimp only [Instr.formOk, Instr.kindsOk] at hf hk
  have := b2n_lt h
  have hm : (BitVec.ofNat 12 ((b2n h * 2048))).toNat = (b2n h * 2048) := mod12 (by omega)
  obtain rfl := Option.some.inj (show some _ = some r from he)
  refine decodeOp_of_parse hw he hs ?_ ?_
  · generalize hx : (b2n h * 2048) = x at hm ⊢
    have q_h : (bit (BitVec.ofNat 12 (x)).toNat 11) = h := by rw [hm]; exact bit_b2n (by omega)
    show some (ok (.mnop (bit (BitVec.ofNat 12 (x)).toNat 11))) = _
    simp only [q_h]
  · exact .inr ⟨(congrArg (bit · 11) hm).trans (bit_b2n (h := h) (by omega)), fun _ => rfl⟩

theorem Laws.RoundTrip.ld (m : MemMod) (d : Opd) (a : Opd) (b : Opd) : Laws.RoundTrip.Statement (.ld m d a b) := by
  intro f regs nsem slot r hw he hs
  rw [RawOp.ofBits_toBits]
  obtain ⟨hf, hk⟩ := WellFormed.parts hw
  dsimp only [Instr.formOk, Instr.kindsOk] at hf hk
  (try simp only [Bool.and_eq_true] at hk)
  have e_d : opdOf f d.code = d := opdOf_code (Opd.isDst_fits hk.1.1)
  have e_a : opdOf f a.code = a := opdOf_code (Opd.isSrc_fits hk.1.2)
  have e_b : opdOf f b.code = b := opdOf_code (Opd.isSrc_fits hk.2)
  have := b2n_lt m.h
  have := b2n_lt m.sx
  have := m.scope.code_lt
  have := m.ord.code_lt
  have := m.size.isLt
  have := m.sh.isLt
  have hm : (BitVec.ofNat 12 (m.mod)).toNat = m.mod := mod12 (by simp only [MemMod.mod]; omega)
  obtain rfl := Option.some.inj (show some _ = some r from he)
  refine decodeOp_of_parse hw he hs ?_ ?_
  · have q_m : ⟨bit (BitVec.ofNat 12 (m.mod)).toNat 11, m.scope, ordOf (bits (BitVec.ofNat 12 (m.mod)).toNat 7 6), fin 4 (bits (BitVec.ofNat 12 (m.mod)).toNat 5 4), bit (BitVec.ofNat 12 (m.mod)).toNat 3, fin 8 (bits (BitVec.ofNat 12 (m.mod)).toNat 2 0)⟩ = m := by rw [hm]; exact MemMod.mod_back m
    refine (congrArg some (sc_some (n := bits (BitVec.ofNat 12 (m.mod)).toNat 10 8) (s := m.scope) (by rw [hm]; simp only [bits]; simp only [MemMod.mod]; omega) (fun sc0 => ok (.ld ⟨bit (BitVec.ofNat 12 (m.mod)).toNat 11, sc0, ordOf (bits (BitVec.ofNat 12 (m.mod)).toNat 7 6), fin 4 (bits (BitVec.ofNat 12 (m.mod)).toNat 5 4), bit (BitVec.ofNat 12 (m.mod)).toNat 3, fin 8 (bits (BitVec.ofNat 12 (m.mod)).toNat 2 0)⟩ (opdOf f d.code) (opdOf f a.code) (opdOf f b.code))))).trans ?_
    (try dsimp only)
    simp only [q_m, e_d, e_a, e_b]
  · exact .inr ⟨(congrArg (bit · 11) hm).trans (bit_b2n (h := m.h) (by simp only [MemMod.mod]; omega)), fun _ => rfl⟩

theorem Laws.RoundTrip.st (m : MemMod) (d : Opd) (a : Opd) (b : Opd) : Laws.RoundTrip.Statement (.st m d a b) := by
  intro f regs nsem slot r hw he hs
  rw [RawOp.ofBits_toBits]
  obtain ⟨hf, hk⟩ := WellFormed.parts hw
  dsimp only [Instr.formOk, Instr.kindsOk] at hf hk
  (try simp only [Bool.and_eq_true] at hk)
  have e_d : opdOf f d.code = d := opdOf_code (Opd.isSrc_fits hk.1.1)
  have e_a : opdOf f a.code = a := opdOf_code (Opd.isSrc_fits hk.1.2)
  have e_b : opdOf f b.code = b := opdOf_code (Opd.isSrc_fits hk.2)
  have := b2n_lt m.h
  have := b2n_lt m.sx
  have := m.scope.code_lt
  have := m.ord.code_lt
  have := m.size.isLt
  have := m.sh.isLt
  have hm : (BitVec.ofNat 12 (m.mod)).toNat = m.mod := mod12 (by simp only [MemMod.mod]; omega)
  obtain rfl := Option.some.inj (show some _ = some r from he)
  refine decodeOp_of_parse hw he hs ?_ ?_
  · have q_m : ⟨bit (BitVec.ofNat 12 (m.mod)).toNat 11, m.scope, ordOf (bits (BitVec.ofNat 12 (m.mod)).toNat 7 6), fin 4 (bits (BitVec.ofNat 12 (m.mod)).toNat 5 4), bit (BitVec.ofNat 12 (m.mod)).toNat 3, fin 8 (bits (BitVec.ofNat 12 (m.mod)).toNat 2 0)⟩ = m := by rw [hm]; exact MemMod.mod_back m
    refine (congrArg some (sc_some (n := bits (BitVec.ofNat 12 (m.mod)).toNat 10 8) (s := m.scope) (by rw [hm]; simp only [bits]; simp only [MemMod.mod]; omega) (fun sc0 => ok (.st ⟨bit (BitVec.ofNat 12 (m.mod)).toNat 11, sc0, ordOf (bits (BitVec.ofNat 12 (m.mod)).toNat 7 6), fin 4 (bits (BitVec.ofNat 12 (m.mod)).toNat 5 4), bit (BitVec.ofNat 12 (m.mod)).toNat 3, fin 8 (bits (BitVec.ofNat 12 (m.mod)).toNat 2 0)⟩ (opdOf f d.code) (opdOf f a.code) (opdOf f b.code))))).trans ?_
    (try dsimp only)
    simp only [q_m, e_d, e_a, e_b]
  · exact .inr ⟨(congrArg (bit · 11) hm).trans (bit_b2n (h := m.h) (by simp only [MemMod.mod]; omega)), fun _ => rfl⟩

theorem Laws.RoundTrip.lds (m : MemMod) (d : Opd) (a : Opd) (b : Opd) : Laws.RoundTrip.Statement (.lds m d a b) := by
  intro f regs nsem slot r hw he hs
  rw [RawOp.ofBits_toBits]
  obtain ⟨hf, hk⟩ := WellFormed.parts hw
  dsimp only [Instr.formOk, Instr.kindsOk] at hf hk
  (try simp only [Bool.and_eq_true] at hk)
  have e_d : opdOf f d.code = d := opdOf_code (Opd.isDst_fits hk.1.1)
  have e_a : opdOf f a.code = a := opdOf_code (Opd.isSrc_fits hk.1.2)
  have e_b : opdOf f b.code = b := opdOf_code (Opd.isSrc_fits hk.2)
  have := b2n_lt m.h
  have := b2n_lt m.sx
  have := m.scope.code_lt
  have := m.ord.code_lt
  have := m.size.isLt
  have := m.sh.isLt
  have hm : (BitVec.ofNat 12 (m.mod)).toNat = m.mod := mod12 (by simp only [MemMod.mod]; omega)
  obtain rfl := Option.some.inj (show some _ = some r from he)
  refine decodeOp_of_parse hw he hs ?_ ?_
  · have q_m : ⟨bit (BitVec.ofNat 12 (m.mod)).toNat 11, m.scope, ordOf (bits (BitVec.ofNat 12 (m.mod)).toNat 7 6), fin 4 (bits (BitVec.ofNat 12 (m.mod)).toNat 5 4), bit (BitVec.ofNat 12 (m.mod)).toNat 3, fin 8 (bits (BitVec.ofNat 12 (m.mod)).toNat 2 0)⟩ = m := by rw [hm]; exact MemMod.mod_back m
    refine (congrArg some (sc_some (n := bits (BitVec.ofNat 12 (m.mod)).toNat 10 8) (s := m.scope) (by rw [hm]; simp only [bits]; simp only [MemMod.mod]; omega) (fun sc0 => ok (.lds ⟨bit (BitVec.ofNat 12 (m.mod)).toNat 11, sc0, ordOf (bits (BitVec.ofNat 12 (m.mod)).toNat 7 6), fin 4 (bits (BitVec.ofNat 12 (m.mod)).toNat 5 4), bit (BitVec.ofNat 12 (m.mod)).toNat 3, fin 8 (bits (BitVec.ofNat 12 (m.mod)).toNat 2 0)⟩ (opdOf f d.code) (opdOf f a.code) (opdOf f b.code))))).trans ?_
    (try dsimp only)
    simp only [q_m, e_d, e_a, e_b]
  · exact .inr ⟨(congrArg (bit · 11) hm).trans (bit_b2n (h := m.h) (by simp only [MemMod.mod]; omega)), fun _ => rfl⟩

theorem Laws.RoundTrip.sts (m : MemMod) (d : Opd) (a : Opd) (b : Opd) : Laws.RoundTrip.Statement (.sts m d a b) := by
  intro f regs nsem slot r hw he hs
  rw [RawOp.ofBits_toBits]
  obtain ⟨hf, hk⟩ := WellFormed.parts hw
  dsimp only [Instr.formOk, Instr.kindsOk] at hf hk
  (try simp only [Bool.and_eq_true] at hk)
  have e_d : opdOf f d.code = d := opdOf_code (Opd.isSrc_fits hk.1.1)
  have e_a : opdOf f a.code = a := opdOf_code (Opd.isSrc_fits hk.1.2)
  have e_b : opdOf f b.code = b := opdOf_code (Opd.isSrc_fits hk.2)
  have := b2n_lt m.h
  have := b2n_lt m.sx
  have := m.scope.code_lt
  have := m.ord.code_lt
  have := m.size.isLt
  have := m.sh.isLt
  have hm : (BitVec.ofNat 12 (m.mod)).toNat = m.mod := mod12 (by simp only [MemMod.mod]; omega)
  obtain rfl := Option.some.inj (show some _ = some r from he)
  refine decodeOp_of_parse hw he hs ?_ ?_
  · have q_m : ⟨bit (BitVec.ofNat 12 (m.mod)).toNat 11, m.scope, ordOf (bits (BitVec.ofNat 12 (m.mod)).toNat 7 6), fin 4 (bits (BitVec.ofNat 12 (m.mod)).toNat 5 4), bit (BitVec.ofNat 12 (m.mod)).toNat 3, fin 8 (bits (BitVec.ofNat 12 (m.mod)).toNat 2 0)⟩ = m := by rw [hm]; exact MemMod.mod_back m
    refine (congrArg some (sc_some (n := bits (BitVec.ofNat 12 (m.mod)).toNat 10 8) (s := m.scope) (by rw [hm]; simp only [bits]; simp only [MemMod.mod]; omega) (fun sc0 => ok (.sts ⟨bit (BitVec.ofNat 12 (m.mod)).toNat 11, sc0, ordOf (bits (BitVec.ofNat 12 (m.mod)).toNat 7 6), fin 4 (bits (BitVec.ofNat 12 (m.mod)).toNat 5 4), bit (BitVec.ofNat 12 (m.mod)).toNat 3, fin 8 (bits (BitVec.ofNat 12 (m.mod)).toNat 2 0)⟩ (opdOf f d.code) (opdOf f a.code) (opdOf f b.code))))).trans ?_
    (try dsimp only)
    simp only [q_m, e_d, e_a, e_b]
  · exact .inr ⟨(congrArg (bit · 11) hm).trans (bit_b2n (h := m.h) (by simp only [MemMod.mod]; omega)), fun _ => rfl⟩

theorem Laws.RoundTrip.ldv (v : VMod) (d : Opd) (a : Opd) (b : Opd) : Laws.RoundTrip.Statement (.ldv v d a b) := by
  intro f regs nsem slot r hw he hs
  rw [RawOp.ofBits_toBits]
  obtain ⟨hf, hk⟩ := WellFormed.parts hw
  dsimp only [Instr.formOk, Instr.kindsOk] at hf hk
  obtain rfl := eq_of_beq hf
  (try simp only [Bool.and_eq_true] at hk)
  have e_d : opdOf .bundle d.code = d := opdOf_code (Opd.isVec_fits hk.1.1)
  have e_a : opdOf .bundle a.code = a := opdOf_code (Opd.isSrc_fits hk.1.2)
  have e_b : opdOf .bundle b.code = b := opdOf_code (Opd.isSrc_fits hk.2)
  have := b2n_lt v.h
  have := v.w.code_lt
  have := v.p.isLt
  have := v.mod_mod
  have hm : (BitVec.ofNat 12 (v.mod)).toNat = v.mod := mod12 (by simp only [VMod.mod]; omega)
  obtain rfl := Option.some.inj (show some _ = some r from he)
  refine decodeOp_of_parse hw he hs ?_ ?_
  · refine (congrArg some (vm_some (m := (BitVec.ofNat 12 (v.mod)).toNat) (x := 0) (hm.trans (Nat.add_zero _).symm) (by omega) (fun v => ok (.ldv v (opdOf Form.bundle d.code) (opdOf Form.bundle a.code) (opdOf Form.bundle b.code))))).trans ?_
    (try dsimp only)
    simp only [e_d, e_a, e_b]
  · exact .inr ⟨(congrArg (bit · 11) hm).trans (bit_b2n (h := v.h) (by simp only [VMod.mod]; omega)), fun _ => rfl⟩

theorem Laws.RoundTrip.stv (v : VMod) (d : Opd) (a : Opd) (b : Opd) : Laws.RoundTrip.Statement (.stv v d a b) := by
  intro f regs nsem slot r hw he hs
  rw [RawOp.ofBits_toBits]
  obtain ⟨hf, hk⟩ := WellFormed.parts hw
  dsimp only [Instr.formOk, Instr.kindsOk] at hf hk
  obtain rfl := eq_of_beq hf
  (try simp only [Bool.and_eq_true] at hk)
  have e_d : opdOf .bundle d.code = d := opdOf_code (Opd.isVec_fits hk.1.1)
  have e_a : opdOf .bundle a.code = a := opdOf_code (Opd.isSrc_fits hk.1.2)
  have e_b : opdOf .bundle b.code = b := opdOf_code (Opd.isSrc_fits hk.2)
  have := b2n_lt v.h
  have := v.w.code_lt
  have := v.p.isLt
  have := v.mod_mod
  have hm : (BitVec.ofNat 12 (v.mod)).toNat = v.mod := mod12 (by simp only [VMod.mod]; omega)
  obtain rfl := Option.some.inj (show some _ = some r from he)
  refine decodeOp_of_parse hw he hs ?_ ?_
  · refine (congrArg some (vm_some (m := (BitVec.ofNat 12 (v.mod)).toNat) (x := 0) (hm.trans (Nat.add_zero _).symm) (by omega) (fun v => ok (.stv v (opdOf Form.bundle d.code) (opdOf Form.bundle a.code) (opdOf Form.bundle b.code))))).trans ?_
    (try dsimp only)
    simp only [e_d, e_a, e_b]
  · exact .inr ⟨(congrArg (bit · 11) hm).trans (bit_b2n (h := v.h) (by simp only [VMod.mod]; omega)), fun _ => rfl⟩

theorem Laws.RoundTrip.ldvg (v : VMod) (e8 : Bool) (sh : Fin 4) (d : Opd) (a : Opd) (b : Opd) : Laws.RoundTrip.Statement (.ldvg v e8 sh d a b) := by
  intro f regs nsem slot r hw he hs
  rw [RawOp.ofBits_toBits]
  obtain ⟨hf, hk⟩ := WellFormed.parts hw
  dsimp only [Instr.formOk, Instr.kindsOk] at hf hk
  obtain rfl := eq_of_beq hf
  (try simp only [Bool.and_eq_true] at hk)
  have e_d : opdOf .bundle d.code = d := opdOf_code (Opd.isVec_fits hk.1.1)
  have e_a : opdOf .bundle a.code = a := opdOf_code (Opd.isSrc_fits hk.1.2)
  have e_b : opdOf .bundle b.code = b := opdOf_code (Opd.isVec_fits hk.2)
  have := b2n_lt v.h
  have := v.w.code_lt
  have := v.p.isLt
  have := v.mod_mod
  have := b2n_lt e8
  have := sh.isLt
  have hm : (BitVec.ofNat 12 ((v.mod + b2n e8 * 32 + sh.val * 8))).toNat = (v.mod + b2n e8 * 32 + sh.val * 8) := mod12 (by simp only [VMod.mod]; omega)
  obtain rfl := Option.some.inj (show some _ = some r from he)
  refine decodeOp_of_parse hw he hs ?_ ?_
  · generalize hx : (v.mod + b2n e8 * 32 + sh.val * 8) = x at hm ⊢
    have q_e8 : (bit (BitVec.ofNat 12 (x)).toNat 5) = e8 := by rw [hm]; exact bit_b2n (by omega)
    have q_sh : (fin 4 (bits (BitVec.ofNat 12 (x)).toNat 4 3)) = sh := by rw [hm]; exact Fin.ext (by simp only [fin, bits]; omega)
    refine (congrArg some (vm_some (m := (BitVec.ofNat 12 (x)).toNat) (x := b2n e8 * 32 + sh.val * 8) (by rw [hm, ← hx]; exact Nat.add_assoc _ _ _) (by omega) (fun v => ok (.ldvg v (bit (BitVec.ofNat 12 (x)).toNat 5) (fin 4 (bits (BitVec.ofNat 12 (x)).toNat 4 3)) (opdOf Form.bundle d.code) (opdOf Form.bundle a.code) (opdOf Form.bundle b.code))))).trans ?_
    (try dsimp only)
    simp only [q_e8, q_sh, e_d, e_a, e_b]
  · exact .inr ⟨(congrArg (bit · 11) hm).trans (bit_b2n (h := v.h) (by simp only [VMod.mod]; omega)), fun _ => rfl⟩

theorem Laws.RoundTrip.stvs (v : VMod) (e8 : Bool) (sh : Fin 4) (d : Opd) (a : Opd) (b : Opd) : Laws.RoundTrip.Statement (.stvs v e8 sh d a b) := by
  intro f regs nsem slot r hw he hs
  rw [RawOp.ofBits_toBits]
  obtain ⟨hf, hk⟩ := WellFormed.parts hw
  dsimp only [Instr.formOk, Instr.kindsOk] at hf hk
  obtain rfl := eq_of_beq hf
  (try simp only [Bool.and_eq_true] at hk)
  have e_d : opdOf .bundle d.code = d := opdOf_code (Opd.isVec_fits hk.1.1)
  have e_a : opdOf .bundle a.code = a := opdOf_code (Opd.isSrc_fits hk.1.2)
  have e_b : opdOf .bundle b.code = b := opdOf_code (Opd.isVec_fits hk.2)
  have := b2n_lt v.h
  have := v.w.code_lt
  have := v.p.isLt
  have := v.mod_mod
  have := b2n_lt e8
  have := sh.isLt
  have hm : (BitVec.ofNat 12 ((v.mod + b2n e8 * 32 + sh.val * 8))).toNat = (v.mod + b2n e8 * 32 + sh.val * 8) := mod12 (by simp only [VMod.mod]; omega)
  obtain rfl := Option.some.inj (show some _ = some r from he)
  refine decodeOp_of_parse hw he hs ?_ ?_
  · generalize hx : (v.mod + b2n e8 * 32 + sh.val * 8) = x at hm ⊢
    have q_e8 : (bit (BitVec.ofNat 12 (x)).toNat 5) = e8 := by rw [hm]; exact bit_b2n (by omega)
    have q_sh : (fin 4 (bits (BitVec.ofNat 12 (x)).toNat 4 3)) = sh := by rw [hm]; exact Fin.ext (by simp only [fin, bits]; omega)
    refine (congrArg some (vm_some (m := (BitVec.ofNat 12 (x)).toNat) (x := b2n e8 * 32 + sh.val * 8) (by rw [hm, ← hx]; exact Nat.add_assoc _ _ _) (by omega) (fun v => ok (.stvs v (bit (BitVec.ofNat 12 (x)).toNat 5) (fin 4 (bits (BitVec.ofNat 12 (x)).toNat 4 3)) (opdOf Form.bundle d.code) (opdOf Form.bundle a.code) (opdOf Form.bundle b.code))))).trans ?_
    (try dsimp only)
    simp only [q_e8, q_sh, e_d, e_a, e_b]
  · exact .inr ⟨(congrArg (bit · 11) hm).trans (bit_b2n (h := v.h) (by simp only [VMod.mod]; omega)), fun _ => rfl⟩

theorem Laws.RoundTrip.tld (v : VMod) (rows : Fin 4) (d : Opd) (a : Opd) (b : Opd) : Laws.RoundTrip.Statement (.tld v rows d a b) := by
  intro f regs nsem slot r hw he hs
  rw [RawOp.ofBits_toBits]
  obtain ⟨hf, hk⟩ := WellFormed.parts hw
  dsimp only [Instr.formOk, Instr.kindsOk] at hf hk
  obtain rfl := eq_of_beq hf
  (try simp only [Bool.and_eq_true] at hk)
  have e_d : opdOf .bundle d.code = d := opdOf_code (Opd.isVec_fits hk.1.1)
  have e_a : opdOf .bundle a.code = a := opdOf_code (Opd.isSrc_fits hk.1.2)
  have e_b : opdOf .bundle b.code = b := opdOf_code (Opd.isSrc_fits hk.2)
  have := b2n_lt v.h
  have := v.w.code_lt
  have := v.p.isLt
  have := v.mod_mod
  have := rows.isLt
  have hm : (BitVec.ofNat 12 ((v.mod + rows.val * 16))).toNat = (v.mod + rows.val * 16) := mod12 (by simp only [VMod.mod]; omega)
  obtain rfl := Option.some.inj (show some _ = some r from he)
  refine decodeOp_of_parse hw he hs ?_ ?_
  · generalize hx : (v.mod + rows.val * 16) = x at hm ⊢
    have q_rows : (fin 4 (bits (BitVec.ofNat 12 (x)).toNat 5 4)) = rows := by rw [hm]; exact Fin.ext (by simp only [fin, bits]; omega)
    refine (congrArg some (vm_some (m := (BitVec.ofNat 12 (x)).toNat) (x := rows.val * 16) (hm.trans hx.symm) (by omega) (fun v => ok (.tld v (fin 4 (bits (BitVec.ofNat 12 (x)).toNat 5 4)) (opdOf Form.bundle d.code) (opdOf Form.bundle a.code) (opdOf Form.bundle b.code))))).trans ?_
    (try dsimp only)
    simp only [q_rows, e_d, e_a, e_b]
  · exact .inr ⟨(congrArg (bit · 11) hm).trans (bit_b2n (h := v.h) (by simp only [VMod.mod]; omega)), fun _ => rfl⟩

theorem Laws.RoundTrip.tst (v : VMod) (rows : Fin 4) (d : Opd) (a : Opd) (b : Opd) : Laws.RoundTrip.Statement (.tst v rows d a b) := by
  intro f regs nsem slot r hw he hs
  rw [RawOp.ofBits_toBits]
  obtain ⟨hf, hk⟩ := WellFormed.parts hw
  dsimp only [Instr.formOk, Instr.kindsOk] at hf hk
  obtain rfl := eq_of_beq hf
  (try simp only [Bool.and_eq_true] at hk)
  have e_d : opdOf .bundle d.code = d := opdOf_code (Opd.isVec_fits hk.1.1)
  have e_a : opdOf .bundle a.code = a := opdOf_code (Opd.isSrc_fits hk.1.2)
  have e_b : opdOf .bundle b.code = b := opdOf_code (Opd.isSrc_fits hk.2)
  have := b2n_lt v.h
  have := v.w.code_lt
  have := v.p.isLt
  have := v.mod_mod
  have := rows.isLt
  have hm : (BitVec.ofNat 12 ((v.mod + rows.val * 16))).toNat = (v.mod + rows.val * 16) := mod12 (by simp only [VMod.mod]; omega)
  obtain rfl := Option.some.inj (show some _ = some r from he)
  refine decodeOp_of_parse hw he hs ?_ ?_
  · generalize hx : (v.mod + rows.val * 16) = x at hm ⊢
    have q_rows : (fin 4 (bits (BitVec.ofNat 12 (x)).toNat 5 4)) = rows := by rw [hm]; exact Fin.ext (by simp only [fin, bits]; omega)
    refine (congrArg some (vm_some (m := (BitVec.ofNat 12 (x)).toNat) (x := rows.val * 16) (hm.trans hx.symm) (by omega) (fun v => ok (.tst v (fin 4 (bits (BitVec.ofNat 12 (x)).toNat 5 4)) (opdOf Form.bundle d.code) (opdOf Form.bundle a.code) (opdOf Form.bundle b.code))))).trans ?_
    (try dsimp only)
    simp only [q_rows, e_d, e_a, e_b]
  · exact .inr ⟨(congrArg (bit · 11) hm).trans (bit_b2n (h := v.h) (by simp only [VMod.mod]; omega)), fun _ => rfl⟩

theorem Laws.RoundTrip.accst (h : Bool) (first : Fin 32) (count1 : Fin 32) (a : Opd) (b : Opd) : Laws.RoundTrip.Statement (.accst h first count1 a b) := by
  intro f regs nsem slot r hw he hs
  rw [RawOp.ofBits_toBits]
  obtain ⟨hf, hk⟩ := WellFormed.parts hw
  dsimp only [Instr.formOk, Instr.kindsOk] at hf hk
  obtain rfl := eq_of_beq hf
  (try simp only [Bool.and_eq_true] at hk)
  have e_a : opdOf .bundle a.code = a := opdOf_code (Opd.isReg_fits hk.1)
  have e_b : opdOf .bundle b.code = b := opdOf_code (Opd.isAcc_fits hk.2)
  have := b2n_lt h
  have := first.isLt
  have := count1.isLt
  have hm : (BitVec.ofNat 12 ((b2n h * 2048 + first.val * 64 + count1.val))).toNat = (b2n h * 2048 + first.val * 64 + count1.val) := mod12 (by omega)
  obtain rfl := Option.some.inj (show some _ = some r from he)
  refine decodeOp_of_parse hw he hs ?_ ?_
  · generalize hx : (b2n h * 2048 + first.val * 64 + count1.val) = x at hm ⊢
    have q_h : (bit (BitVec.ofNat 12 (x)).toNat 11) = h := by rw [hm]; exact bit_b2n (by omega)
    have q_first : (fin 32 (bits (BitVec.ofNat 12 (x)).toNat 10 6)) = first := by rw [hm]; exact Fin.ext (by simp only [fin, bits]; omega)
    have q_count1 : (fin 32 (bits (BitVec.ofNat 12 (x)).toNat 4 0)) = count1 := by rw [hm]; exact Fin.ext (by simp only [fin, bits]; omega)
    show some (ok (.accst (bit (BitVec.ofNat 12 (x)).toNat 11) (fin 32 (bits (BitVec.ofNat 12 (x)).toNat 10 6)) (fin 32 (bits (BitVec.ofNat 12 (x)).toNat 4 0)) (opdOf Form.bundle a.code) (opdOf Form.bundle b.code))) = _
    simp only [q_h, q_first, q_count1, e_a, e_b]
  · exact .inr ⟨(congrArg (bit · 11) hm).trans (bit_b2n (h := h) (by omega)), fun _ => rfl⟩

theorem Laws.RoundTrip.accld (h : Bool) (first : Fin 32) (count1 : Fin 32) (d : Opd) (a : Opd) : Laws.RoundTrip.Statement (.accld h first count1 d a) := by
  intro f regs nsem slot r hw he hs
  rw [RawOp.ofBits_toBits]
  obtain ⟨hf, hk⟩ := WellFormed.parts hw
  dsimp only [Instr.formOk, Instr.kindsOk] at hf hk
  obtain rfl := eq_of_beq hf
  (try simp only [Bool.and_eq_true] at hk)
  have e_d : opdOf .bundle d.code = d := opdOf_code (Opd.isAcc_fits hk.1)
  have e_a : opdOf .bundle a.code = a := opdOf_code (Opd.isReg_fits hk.2)
  have := b2n_lt h
  have := first.isLt
  have := count1.isLt
  have hm : (BitVec.ofNat 12 ((b2n h * 2048 + first.val * 64 + count1.val))).toNat = (b2n h * 2048 + first.val * 64 + count1.val) := mod12 (by omega)
  obtain rfl := Option.some.inj (show some _ = some r from he)
  refine decodeOp_of_parse hw he hs ?_ ?_
  · generalize hx : (b2n h * 2048 + first.val * 64 + count1.val) = x at hm ⊢
    have q_h : (bit (BitVec.ofNat 12 (x)).toNat 11) = h := by rw [hm]; exact bit_b2n (by omega)
    have q_first : (fin 32 (bits (BitVec.ofNat 12 (x)).toNat 10 6)) = first := by rw [hm]; exact Fin.ext (by simp only [fin, bits]; omega)
    have q_count1 : (fin 32 (bits (BitVec.ofNat 12 (x)).toNat 4 0)) = count1 := by rw [hm]; exact Fin.ext (by simp only [fin, bits]; omega)
    show some (ok (.accld (bit (BitVec.ofNat 12 (x)).toNat 11) (fin 32 (bits (BitVec.ofNat 12 (x)).toNat 10 6)) (fin 32 (bits (BitVec.ofNat 12 (x)).toNat 4 0)) (opdOf Form.bundle d.code) (opdOf Form.bundle a.code))) = _
    simp only [q_h, q_first, q_count1, e_d, e_a]
  · exact .inr ⟨(congrArg (bit · 11) hm).trans (bit_b2n (h := h) (by omega)), fun _ => rfl⟩

theorem Laws.RoundTrip.blkld (d : Opd) (a : Opd) (n1 : Fin 64) : Laws.RoundTrip.Statement (.blkld d a n1) := by
  intro f regs nsem slot r hw he hs
  rw [RawOp.ofBits_toBits]
  obtain ⟨hf, hk⟩ := WellFormed.parts hw
  dsimp only [Instr.formOk, Instr.kindsOk] at hf hk
  obtain rfl := eq_of_beq hf
  (try simp only [Bool.and_eq_true] at hk)
  have e_d : opdOf .bundle d.code = d := opdOf_code (Opd.isDst_fits hk.1)
  have e_a : opdOf .bundle a.code = a := opdOf_code (Opd.isSrc_fits hk.2)
  have := n1.isLt
  have hm : (BitVec.ofNat 12 (n1.val)).toNat = n1.val := mod12 (by omega)
  obtain rfl := Option.some.inj (show some _ = some r from he)
  refine decodeOp_of_parse hw he hs ?_ ?_
  · have q_n1 : (fin 64 (bits (BitVec.ofNat 12 (n1.val)).toNat 5 0)) = n1 := by rw [hm]; exact Fin.ext (by simp only [fin, bits]; omega)
    show some (ok (.blkld (opdOf Form.bundle d.code) (opdOf Form.bundle a.code) (fin 64 (bits (BitVec.ofNat 12 (n1.val)).toNat 5 0)))) = _
    simp only [e_d, e_a, q_n1]
  · exact .inr ⟨(congrArg (bit · 11) hm).trans (bit_low (by omega)), nofun⟩

theorem Laws.RoundTrip.blkrel (a : Opd) : Laws.RoundTrip.Statement (.blkrel a) := by
  intro f regs nsem slot r hw he hs
  rw [RawOp.ofBits_toBits]
  obtain ⟨hf, hk⟩ := WellFormed.parts hw
  dsimp only [Instr.formOk, Instr.kindsOk] at hf hk
  obtain rfl := eq_of_beq hf
  (try simp only [Bool.and_eq_true] at hk)
  have e_a : opdOf .bundle a.code = a := opdOf_code (Opd.isSrc_fits hk)
  have hm : (BitVec.ofNat 12 (0)).toNat = 0 := mod12 (by omega)
  obtain rfl := Option.some.inj (show some _ = some r from he)
  refine decodeOp_of_parse hw he hs ?_ ?_
  · show some (ok (.blkrel (opdOf Form.bundle a.code))) = _
    simp only [e_a]
  · exact .inr ⟨(congrArg (bit · 11) hm).trans (bit_low (by omega)), nofun⟩

theorem Laws.RoundTrip.cpy (h : Bool) (dir : CpyDir) (d : Opd) (a : Opd) (b : Opd) : Laws.RoundTrip.Statement (.cpy h dir d a b) := by
  intro f regs nsem slot r hw he hs
  rw [RawOp.ofBits_toBits]
  obtain ⟨hf, hk⟩ := WellFormed.parts hw
  dsimp only [Instr.formOk, Instr.kindsOk] at hf hk
  (try simp only [Bool.and_eq_true] at hk)
  have e_d : opdOf f d.code = d := opdOf_code (Opd.isRegC_fits hk.1.1)
  have e_a : opdOf f a.code = a := opdOf_code (Opd.isSrc_fits hk.1.2)
  have e_b : opdOf f b.code = b := opdOf_code (Opd.isSrc_fits hk.2)
  have := b2n_lt h
  have := dir.code_lt
  have hm : (BitVec.ofNat 12 ((b2n h * 2048 + dir.code * 512))).toNat = (b2n h * 2048 + dir.code * 512) := mod12 (by omega)
  obtain rfl := Option.some.inj (show some _ = some r from he)
  refine decodeOp_of_parse hw he hs ?_ ?_
  · generalize hx : (b2n h * 2048 + dir.code * 512) = x at hm ⊢
    have q_h : (bit (BitVec.ofNat 12 (x)).toNat 11) = h := by rw [hm]; exact bit_b2n (by omega)
    have q_dir : (dirOf (bits (BitVec.ofNat 12 (x)).toNat 10 9)) = dir := by rw [hm, show bits x 10 9 = dir.code by simp only [bits]; omega, dirOf_code]
    show some (ok (.cpy (bit (BitVec.ofNat 12 (x)).toNat 11) (dirOf (bits (BitVec.ofNat 12 (x)).toNat 10 9)) (opdOf f d.code) (opdOf f a.code) (opdOf f b.code))) = _
    simp only [q_h, q_dir, e_d, e_a, e_b]
  · exact .inr ⟨(congrArg (bit · 11) hm).trans (bit_b2n (h := h) (by omega)), fun _ => rfl⟩

theorem Laws.RoundTrip.cpym (h : Bool) (mask : Byte) (d : Opd) (a : Opd) (b : Opd) : Laws.RoundTrip.Statement (.cpym h mask d a b) := by
  intro f regs nsem slot r hw he hs
  rw [RawOp.ofBits_toBits]
  obtain ⟨hf, hk⟩ := WellFormed.parts hw
  dsimp only [Instr.formOk, Instr.kindsOk] at hf hk
  (try simp only [Bool.and_eq_true] at hk)
  have e_d : opdOf f d.code = d := opdOf_code (Opd.isRegC_fits hk.1.1)
  have e_a : opdOf f a.code = a := opdOf_code (Opd.isSrc_fits hk.1.2)
  have e_b : opdOf f b.code = b := opdOf_code (Opd.isSrc_fits hk.2)
  have := b2n_lt h
  have := mask.isLt
  have hm : (BitVec.ofNat 12 ((b2n h * 2048 + mask.toNat))).toNat = (b2n h * 2048 + mask.toNat) := mod12 (by omega)
  obtain rfl := Option.some.inj (show some _ = some r from he)
  refine decodeOp_of_parse hw he hs ?_ ?_
  · generalize hx : (b2n h * 2048 + mask.toNat) = x at hm ⊢
    have q_h : (bit (BitVec.ofNat 12 (x)).toNat 11) = h := by rw [hm]; exact bit_b2n (by omega)
    have q_mask : (BitVec.ofNat 8 (bits (BitVec.ofNat 12 (x)).toNat 7 0)) = mask := by rw [hm]; apply BitVec.eq_of_toNat_eq; rw [BitVec.toNat_ofNat]; simp only [bits]; omega
    show some (ok (.cpym (bit (BitVec.ofNat 12 (x)).toNat 11) (BitVec.ofNat 8 (bits (BitVec.ofNat 12 (x)).toNat 7 0)) (opdOf f d.code) (opdOf f a.code) (opdOf f b.code))) = _
    simp only [q_h, q_mask, e_d, e_a, e_b]
  · exact .inr ⟨(congrArg (bit · 11) hm).trans (bit_b2n (h := h) (by omega)), fun _ => rfl⟩

theorem Laws.RoundTrip.syncset (a : Opd) (b : Opd) : Laws.RoundTrip.Statement (.syncset a b) := by
  intro f regs nsem slot r hw he hs
  rw [RawOp.ofBits_toBits]
  obtain ⟨hf, hk⟩ := WellFormed.parts hw
  dsimp only [Instr.formOk, Instr.kindsOk] at hf hk
  (try simp only [Bool.and_eq_true] at hk)
  have e_a : opdOf f a.code = a := opdOf_code (Opd.isSrc_fits hk.1)
  have e_b : opdOf f b.code = b := opdOf_code (Opd.isSrc_fits hk.2)
  have hm : (BitVec.ofNat 12 (0)).toNat = 0 := mod12 (by omega)
  obtain rfl := Option.some.inj (show some _ = some r from he)
  refine decodeOp_of_parse hw he hs ?_ ?_
  · show some (ok (.syncset (opdOf f a.code) (opdOf f b.code))) = _
    simp only [e_a, e_b]
  · exact .inr ⟨(congrArg (bit · 11) hm).trans (bit_low (by omega)), nofun⟩

theorem Laws.RoundTrip.swait (scope : Scope) (ord : Ord) (d : Opd) (a : Opd) (b : Opd) : Laws.RoundTrip.Statement (.swait scope ord d a b) := by
  intro f regs nsem slot r hw he hs
  rw [RawOp.ofBits_toBits]
  obtain ⟨hf, hk⟩ := WellFormed.parts hw
  dsimp only [Instr.formOk, Instr.kindsOk] at hf hk
  (try simp only [Bool.and_eq_true] at hk)
  have e_d : opdOf f d.code = d := opdOf_code (Opd.isDst_fits hk.1.1)
  have e_a : opdOf f a.code = a := opdOf_code (Opd.isSrc_fits hk.1.2)
  have e_b : opdOf f b.code = b := opdOf_code (Opd.isSrc_fits hk.2)
  have := scope.code_lt
  have := ord.code_lt
  have hm : (BitVec.ofNat 12 ((scope.code * 256 + ord.code * 64))).toNat = (scope.code * 256 + ord.code * 64) := mod12 (by omega)
  obtain rfl := Option.some.inj (show some _ = some r from he)
  refine decodeOp_of_parse hw he hs ?_ ?_
  · generalize hx : (scope.code * 256 + ord.code * 64) = x at hm ⊢
    have q_ord : (ordOf (bits (BitVec.ofNat 12 (x)).toNat 7 6)) = ord := by rw [hm]; exact ord_field (by simp only [bits]; omega)
    refine (congrArg some (sc_some (n := bits (BitVec.ofNat 12 (x)).toNat 10 8) (s := scope) (by rw [hm]; simp only [bits]; omega) (fun scope => ok (.swait scope (ordOf (bits (BitVec.ofNat 12 (x)).toNat 7 6)) (opdOf f d.code) (opdOf f a.code) (opdOf f b.code))))).trans ?_
    (try dsimp only)
    simp only [q_ord, e_d, e_a, e_b]
  · exact .inr ⟨(congrArg (bit · 11) hm).trans (bit_low (by omega)), nofun⟩

theorem Laws.RoundTrip.aadd (m : AtMod) (d : Opd) (a : Opd) (b : Opd) : Laws.RoundTrip.Statement (.aadd m d a b) := by
  intro f regs nsem slot r hw he hs
  rw [RawOp.ofBits_toBits]
  obtain ⟨hf, hk⟩ := WellFormed.parts hw
  dsimp only [Instr.formOk, Instr.kindsOk] at hf hk
  (try simp only [Bool.and_eq_true] at hk)
  have e_d : opdOf f d.code = d := opdOf_code (Opd.isDst_fits hk.1.1)
  have e_a : opdOf f a.code = a := opdOf_code (Opd.isReg_fits hk.1.2)
  have e_b : opdOf f b.code = b := opdOf_code (Opd.isSrc_fits hk.2)
  have := m.mod_lt
  have hm : (BitVec.ofNat 12 (m.mod)).toNat = m.mod := mod12 (by omega)
  obtain rfl := Option.some.inj (show some _ = some r from he)
  refine decodeOp_of_parse hw he hs ?_ ?_
  · refine (congrArg some (at_some (n := (BitVec.ofNat 12 (m.mod)).toNat) (x := 0) (hm.trans (Nat.add_zero _).symm) (.inl rfl) (fun m => ok (.aadd m (opdOf f d.code) (opdOf f a.code) (opdOf f b.code))))).trans ?_
    (try dsimp only)
    simp only [e_d, e_a, e_b]
  · exact .inr ⟨(congrArg (bit · 11) hm).trans (bit_low (by omega)), nofun⟩

theorem Laws.RoundTrip.amin (m : AtMod) (sgn : Bool) (d : Opd) (a : Opd) (b : Opd) : Laws.RoundTrip.Statement (.amin m sgn d a b) := by
  intro f regs nsem slot r hw he hs
  rw [RawOp.ofBits_toBits]
  obtain ⟨hf, hk⟩ := WellFormed.parts hw
  dsimp only [Instr.formOk, Instr.kindsOk] at hf hk
  (try simp only [Bool.and_eq_true] at hk)
  have e_d : opdOf f d.code = d := opdOf_code (Opd.isDst_fits hk.1.1)
  have e_a : opdOf f a.code = a := opdOf_code (Opd.isReg_fits hk.1.2)
  have e_b : opdOf f b.code = b := opdOf_code (Opd.isSrc_fits hk.2)
  have := m.mod_lt
  have := b2n_lt sgn
  have hm : (BitVec.ofNat 12 ((m.mod + b2n sgn * 8))).toNat = (m.mod + b2n sgn * 8) := mod12 (by omega)
  obtain rfl := Option.some.inj (show some _ = some r from he)
  refine decodeOp_of_parse hw he hs ?_ ?_
  · generalize hx : (m.mod + b2n sgn * 8) = x at hm ⊢
    have q_sgn : (bit (BitVec.ofNat 12 (x)).toNat 3) = sgn := by rw [hm]; exact bit_b2n (by omega)
    refine (congrArg some (at_some (n := (BitVec.ofNat 12 (x)).toNat) (x := b2n sgn * 8) (hm.trans hx.symm) (by omega) (fun m => ok (.amin m (bit (BitVec.ofNat 12 (x)).toNat 3) (opdOf f d.code) (opdOf f a.code) (opdOf f b.code))))).trans ?_
    (try dsimp only)
    simp only [q_sgn, e_d, e_a, e_b]
  · exact .inr ⟨(congrArg (bit · 11) hm).trans (bit_low (by omega)), nofun⟩

theorem Laws.RoundTrip.amax (m : AtMod) (sgn : Bool) (d : Opd) (a : Opd) (b : Opd) : Laws.RoundTrip.Statement (.amax m sgn d a b) := by
  intro f regs nsem slot r hw he hs
  rw [RawOp.ofBits_toBits]
  obtain ⟨hf, hk⟩ := WellFormed.parts hw
  dsimp only [Instr.formOk, Instr.kindsOk] at hf hk
  (try simp only [Bool.and_eq_true] at hk)
  have e_d : opdOf f d.code = d := opdOf_code (Opd.isDst_fits hk.1.1)
  have e_a : opdOf f a.code = a := opdOf_code (Opd.isReg_fits hk.1.2)
  have e_b : opdOf f b.code = b := opdOf_code (Opd.isSrc_fits hk.2)
  have := m.mod_lt
  have := b2n_lt sgn
  have hm : (BitVec.ofNat 12 ((m.mod + b2n sgn * 8))).toNat = (m.mod + b2n sgn * 8) := mod12 (by omega)
  obtain rfl := Option.some.inj (show some _ = some r from he)
  refine decodeOp_of_parse hw he hs ?_ ?_
  · generalize hx : (m.mod + b2n sgn * 8) = x at hm ⊢
    have q_sgn : (bit (BitVec.ofNat 12 (x)).toNat 3) = sgn := by rw [hm]; exact bit_b2n (by omega)
    refine (congrArg some (at_some (n := (BitVec.ofNat 12 (x)).toNat) (x := b2n sgn * 8) (hm.trans hx.symm) (by omega) (fun m => ok (.amax m (bit (BitVec.ofNat 12 (x)).toNat 3) (opdOf f d.code) (opdOf f a.code) (opdOf f b.code))))).trans ?_
    (try dsimp only)
    simp only [q_sgn, e_d, e_a, e_b]
  · exact .inr ⟨(congrArg (bit · 11) hm).trans (bit_low (by omega)), nofun⟩

theorem Laws.RoundTrip.aand (m : AtMod) (d : Opd) (a : Opd) (b : Opd) : Laws.RoundTrip.Statement (.aand m d a b) := by
  intro f regs nsem slot r hw he hs
  rw [RawOp.ofBits_toBits]
  obtain ⟨hf, hk⟩ := WellFormed.parts hw
  dsimp only [Instr.formOk, Instr.kindsOk] at hf hk
  (try simp only [Bool.and_eq_true] at hk)
  have e_d : opdOf f d.code = d := opdOf_code (Opd.isDst_fits hk.1.1)
  have e_a : opdOf f a.code = a := opdOf_code (Opd.isReg_fits hk.1.2)
  have e_b : opdOf f b.code = b := opdOf_code (Opd.isSrc_fits hk.2)
  have := m.mod_lt
  have hm : (BitVec.ofNat 12 (m.mod)).toNat = m.mod := mod12 (by omega)
  obtain rfl := Option.some.inj (show some _ = some r from he)
  refine decodeOp_of_parse hw he hs ?_ ?_
  · refine (congrArg some (at_some (n := (BitVec.ofNat 12 (m.mod)).toNat) (x := 0) (hm.trans (Nat.add_zero _).symm) (.inl rfl) (fun m => ok (.aand m (opdOf f d.code) (opdOf f a.code) (opdOf f b.code))))).trans ?_
    (try dsimp only)
    simp only [e_d, e_a, e_b]
  · exact .inr ⟨(congrArg (bit · 11) hm).trans (bit_low (by omega)), nofun⟩

theorem Laws.RoundTrip.aor (m : AtMod) (d : Opd) (a : Opd) (b : Opd) : Laws.RoundTrip.Statement (.aor m d a b) := by
  intro f regs nsem slot r hw he hs
  rw [RawOp.ofBits_toBits]
  obtain ⟨hf, hk⟩ := WellFormed.parts hw
  dsimp only [Instr.formOk, Instr.kindsOk] at hf hk
  (try simp only [Bool.and_eq_true] at hk)
  have e_d : opdOf f d.code = d := opdOf_code (Opd.isDst_fits hk.1.1)
  have e_a : opdOf f a.code = a := opdOf_code (Opd.isReg_fits hk.1.2)
  have e_b : opdOf f b.code = b := opdOf_code (Opd.isSrc_fits hk.2)
  have := m.mod_lt
  have hm : (BitVec.ofNat 12 (m.mod)).toNat = m.mod := mod12 (by omega)
  obtain rfl := Option.some.inj (show some _ = some r from he)
  refine decodeOp_of_parse hw he hs ?_ ?_
  · refine (congrArg some (at_some (n := (BitVec.ofNat 12 (m.mod)).toNat) (x := 0) (hm.trans (Nat.add_zero _).symm) (.inl rfl) (fun m => ok (.aor m (opdOf f d.code) (opdOf f a.code) (opdOf f b.code))))).trans ?_
    (try dsimp only)
    simp only [e_d, e_a, e_b]
  · exact .inr ⟨(congrArg (bit · 11) hm).trans (bit_low (by omega)), nofun⟩

theorem Laws.RoundTrip.axor (m : AtMod) (d : Opd) (a : Opd) (b : Opd) : Laws.RoundTrip.Statement (.axor m d a b) := by
  intro f regs nsem slot r hw he hs
  rw [RawOp.ofBits_toBits]
  obtain ⟨hf, hk⟩ := WellFormed.parts hw
  dsimp only [Instr.formOk, Instr.kindsOk] at hf hk
  (try simp only [Bool.and_eq_true] at hk)
  have e_d : opdOf f d.code = d := opdOf_code (Opd.isDst_fits hk.1.1)
  have e_a : opdOf f a.code = a := opdOf_code (Opd.isReg_fits hk.1.2)
  have e_b : opdOf f b.code = b := opdOf_code (Opd.isSrc_fits hk.2)
  have := m.mod_lt
  have hm : (BitVec.ofNat 12 (m.mod)).toNat = m.mod := mod12 (by omega)
  obtain rfl := Option.some.inj (show some _ = some r from he)
  refine decodeOp_of_parse hw he hs ?_ ?_
  · refine (congrArg some (at_some (n := (BitVec.ofNat 12 (m.mod)).toNat) (x := 0) (hm.trans (Nat.add_zero _).symm) (.inl rfl) (fun m => ok (.axor m (opdOf f d.code) (opdOf f a.code) (opdOf f b.code))))).trans ?_
    (try dsimp only)
    simp only [e_d, e_a, e_b]
  · exact .inr ⟨(congrArg (bit · 11) hm).trans (bit_low (by omega)), nofun⟩

theorem Laws.RoundTrip.aswp (m : AtMod) (d : Opd) (a : Opd) (b : Opd) : Laws.RoundTrip.Statement (.aswp m d a b) := by
  intro f regs nsem slot r hw he hs
  rw [RawOp.ofBits_toBits]
  obtain ⟨hf, hk⟩ := WellFormed.parts hw
  dsimp only [Instr.formOk, Instr.kindsOk] at hf hk
  (try simp only [Bool.and_eq_true] at hk)
  have e_d : opdOf f d.code = d := opdOf_code (Opd.isDst_fits hk.1.1)
  have e_a : opdOf f a.code = a := opdOf_code (Opd.isReg_fits hk.1.2)
  have e_b : opdOf f b.code = b := opdOf_code (Opd.isSrc_fits hk.2)
  have := m.mod_lt
  have hm : (BitVec.ofNat 12 (m.mod)).toNat = m.mod := mod12 (by omega)
  obtain rfl := Option.some.inj (show some _ = some r from he)
  refine decodeOp_of_parse hw he hs ?_ ?_
  · refine (congrArg some (at_some (n := (BitVec.ofNat 12 (m.mod)).toNat) (x := 0) (hm.trans (Nat.add_zero _).symm) (.inl rfl) (fun m => ok (.aswp m (opdOf f d.code) (opdOf f a.code) (opdOf f b.code))))).trans ?_
    (try dsimp only)
    simp only [e_d, e_a, e_b]
  · exact .inr ⟨(congrArg (bit · 11) hm).trans (bit_low (by omega)), nofun⟩

theorem Laws.RoundTrip.acas (m : AtMod) (d : Opd) (a : Opd) (b : Opd) : Laws.RoundTrip.Statement (.acas m d a b) := by
  intro f regs nsem slot r hw he hs
  rw [RawOp.ofBits_toBits]
  obtain ⟨hf, hk⟩ := WellFormed.parts hw
  dsimp only [Instr.formOk, Instr.kindsOk] at hf hk
  (try simp only [Bool.and_eq_true] at hk)
  have e_d : opdOf f d.code = d := opdOf_code (Opd.isDst_fits hk.1.1)
  have e_a : opdOf f a.code = a := opdOf_code (Opd.isReg_fits hk.1.2)
  have e_b : opdOf f b.code = b := opdOf_code (Opd.isSrc_fits hk.2)
  have := m.mod_lt
  have hm : (BitVec.ofNat 12 (m.mod)).toNat = m.mod := mod12 (by omega)
  obtain rfl := Option.some.inj (show some _ = some r from he)
  refine decodeOp_of_parse hw he hs ?_ ?_
  · refine (congrArg some (at_some (n := (BitVec.ofNat 12 (m.mod)).toNat) (x := 0) (hm.trans (Nat.add_zero _).symm) (.inl rfl) (fun m => ok (.acas m (opdOf f d.code) (opdOf f a.code) (opdOf f b.code))))).trans ?_
    (try dsimp only)
    simp only [e_d, e_a, e_b]
  · exact .inr ⟨(congrArg (bit · 11) hm).trans (bit_low (by omega)), nofun⟩

theorem Laws.RoundTrip.acas2 (scope : Scope) (ord : Ord) (loc : Bool) (d : Opd) (a : Opd) (b : Opd) : Laws.RoundTrip.Statement (.acas2 scope ord loc d a b) := by
  intro f regs nsem slot r hw he hs
  rw [RawOp.ofBits_toBits]
  obtain ⟨hf, hk⟩ := WellFormed.parts hw
  dsimp only [Instr.formOk, Instr.kindsOk] at hf hk
  (try simp only [Bool.and_eq_true] at hk)
  have e_d : opdOf f d.code = d := opdOf_code (Opd.isPair_fits hk.1.1)
  have e_a : opdOf f a.code = a := opdOf_code (Opd.isReg_fits hk.1.2)
  have e_b : opdOf f b.code = b := opdOf_code (Opd.isPair_fits hk.2)
  have := scope.code_lt
  have := ord.code_lt
  have := b2n_lt loc
  have hm : (BitVec.ofNat 12 ((scope.code * 256 + ord.code * 64 + b2n loc * 4))).toNat = (scope.code * 256 + ord.code * 64 + b2n loc * 4) := mod12 (by omega)
  obtain rfl := Option.some.inj (show some _ = some r from he)
  refine decodeOp_of_parse hw he hs ?_ ?_
  · generalize hx : (scope.code * 256 + ord.code * 64 + b2n loc * 4) = x at hm ⊢
    have q_ord : (ordOf (bits (BitVec.ofNat 12 (x)).toNat 7 6)) = ord := by rw [hm]; exact ord_field (by simp only [bits]; omega)
    have q_loc : (bit (BitVec.ofNat 12 (x)).toNat 2) = loc := by rw [hm]; exact bit_b2n (by omega)
    refine (congrArg some (sc_some (n := bits (BitVec.ofNat 12 (x)).toNat 10 8) (s := scope) (by rw [hm]; simp only [bits]; omega) (fun scope => ok (.acas2 scope (ordOf (bits (BitVec.ofNat 12 (x)).toNat 7 6)) (bit (BitVec.ofNat 12 (x)).toNat 2) (opdOf f d.code) (opdOf f a.code) (opdOf f b.code))))).trans ?_
    (try dsimp only)
    simp only [q_ord, q_loc, e_d, e_a, e_b]
  · exact .inr ⟨(congrArg (bit · 11) hm).trans (bit_low (by omega)), nofun⟩

theorem Laws.RoundTrip.afadd (scope : Scope) (ord : Ord) (loc : Bool) (t : FpTy) (d : Opd) (a : Opd) (b : Opd) : Laws.RoundTrip.Statement (.afadd scope ord loc t d a b) := by
  intro f regs nsem slot r hw he hs
  rw [RawOp.ofBits_toBits]
  obtain ⟨hf, hk⟩ := WellFormed.parts hw
  dsimp only [Instr.formOk, Instr.kindsOk] at hf hk
  (try simp only [Bool.and_eq_true] at hk)
  have e_d : opdOf f d.code = d := opdOf_code (by grind [Opd.isReg_fits, Opd.isDst_fits, Opd.isSrc_fits, Opd.isRegC_fits, Opd.isGroup_fits, Opd.isPair_fits, Opd.isVec_fits, Opd.isAcc_fits, Opd.isVSrc_fits])
  have e_a : opdOf f a.code = a := opdOf_code (by grind [Opd.isReg_fits, Opd.isDst_fits, Opd.isSrc_fits, Opd.isRegC_fits, Opd.isGroup_fits, Opd.isPair_fits, Opd.isVec_fits, Opd.isAcc_fits, Opd.isVSrc_fits])
  have e_b : opdOf f b.code = b := opdOf_code (by grind [Opd.isReg_fits, Opd.isDst_fits, Opd.isSrc_fits, Opd.isRegC_fits, Opd.isGroup_fits, Opd.isPair_fits, Opd.isVec_fits, Opd.isAcc_fits, Opd.isVSrc_fits])
  have := scope.code_lt
  have := ord.code_lt
  have := b2n_lt loc
  have := afCode_cases t
  have hm : (BitVec.ofNat 12 (scope.code * 256 + ord.code * 64 + b2n loc * 4 + afCode t)).toNat = scope.code * 256 + ord.code * 64 + b2n loc * 4 + afCode t := mod12 (by omega)
  obtain rfl := Option.some.inj (show some _ = some r from he)
  refine decodeOp_of_parse hw he hs ?_ ?_
  · generalize hx : scope.code * 256 + ord.code * 64 + b2n loc * 4 + afCode t = x at hm ⊢
    refine (congrArg some (sc_some (n := bits (BitVec.ofNat 12 (x)).toNat 10 8) (s := scope) (by rw [hm]; simp only [bits]; omega) (fun s => need 0x0D (afOf (bits (BitVec.ofNat 12 (x)).toNat 5 3)) .f32 fun t => ok (.afadd s (ordOf (bits (BitVec.ofNat 12 (x)).toNat 7 6)) (bit (BitVec.ofNat 12 (x)).toNat 2) t (opdOf f d.code) (opdOf f a.code) (opdOf f b.code))))).trans ?_
    have q1 : ordOf (bits x 7 6) = ord := ord_field (by simp only [bits]; omega)
    have q2 : bit x 2 = loc := bit_b2n (by omega)
    have q3 : bits x 5 3 = afCode t / 8 := by simp only [bits]; omega
    simp only [hm, q1, q2, q3, e_d, e_a, e_b]
    rw [need_some (afOf_code t)]
  · exact .inr ⟨(congrArg (bit · 11) hm).trans (bit_low (by omega)), nofun⟩

theorem Laws.RoundTrip.fence (scope : Scope) (ord : Ord) : Laws.RoundTrip.Statement (.fence scope ord) := by
  intro f regs nsem slot r hw he hs
  rw [RawOp.ofBits_toBits]
  obtain ⟨hf, hk⟩ := WellFormed.parts hw
  dsimp only [Instr.formOk, Instr.kindsOk] at hf hk
  have := scope.code_lt
  have := ord.code_lt
  have hm : (BitVec.ofNat 12 ((scope.code * 256 + ord.code * 64))).toNat = (scope.code * 256 + ord.code * 64) := mod12 (by omega)
  obtain rfl := Option.some.inj (show some _ = some r from he)
  refine decodeOp_of_parse hw he hs ?_ ?_
  · generalize hx : (scope.code * 256 + ord.code * 64) = x at hm ⊢
    have q_ord : (ordOf (bits (BitVec.ofNat 12 (x)).toNat 7 6)) = ord := by rw [hm]; exact ord_field (by simp only [bits]; omega)
    refine (congrArg some (sc_some (n := bits (BitVec.ofNat 12 (x)).toNat 10 8) (s := scope) (by rw [hm]; simp only [bits]; omega) (fun scope => ok (.fence scope (ordOf (bits (BitVec.ofNat 12 (x)).toNat 7 6)))))).trans ?_
    (try dsimp only)
    simp only [q_ord]
  · exact .inr ⟨(congrArg (bit · 11) hm).trans (bit_low (by omega)), nofun⟩

theorem Laws.RoundTrip.drain (scope : Scope) : Laws.RoundTrip.Statement (.drain scope) := by
  intro f regs nsem slot r hw he hs
  rw [RawOp.ofBits_toBits]
  obtain ⟨hf, hk⟩ := WellFormed.parts hw
  dsimp only [Instr.formOk, Instr.kindsOk] at hf hk
  have := scope.code_lt
  have hm : (BitVec.ofNat 12 ((scope.code * 256))).toNat = (scope.code * 256) := mod12 (by omega)
  obtain rfl := Option.some.inj (show some _ = some r from he)
  refine decodeOp_of_parse hw he hs ?_ ?_
  · generalize hx : (scope.code * 256) = x at hm ⊢
    refine (congrArg some (sc_some (n := bits (BitVec.ofNat 12 (x)).toNat 10 8) (s := scope) (by rw [hm]; simp only [bits]; omega) (fun scope => ok (.drain scope)))).trans ?_
    (try dsimp only)
  · exact .inr ⟨(congrArg (bit · 11) hm).trans (bit_low (by omega)), nofun⟩

theorem Laws.RoundTrip.clean (a : Opd) (b : Opd) : Laws.RoundTrip.Statement (.clean a b) := by
  intro f regs nsem slot r hw he hs
  rw [RawOp.ofBits_toBits]
  obtain ⟨hf, hk⟩ := WellFormed.parts hw
  dsimp only [Instr.formOk, Instr.kindsOk] at hf hk
  (try simp only [Bool.and_eq_true] at hk)
  have e_a : opdOf f a.code = a := opdOf_code (Opd.isSrc_fits hk.1)
  have e_b : opdOf f b.code = b := opdOf_code (Opd.isSrc_fits hk.2)
  have hm : (BitVec.ofNat 12 (0)).toNat = 0 := mod12 (by omega)
  obtain rfl := Option.some.inj (show some _ = some r from he)
  refine decodeOp_of_parse hw he hs ?_ ?_
  · show some (ok (.clean (opdOf f a.code) (opdOf f b.code))) = _
    simp only [e_a, e_b]
  · exact .inr ⟨(congrArg (bit · 11) hm).trans (bit_low (by omega)), nofun⟩

theorem Laws.RoundTrip.inv (a : Opd) (b : Opd) : Laws.RoundTrip.Statement (.inv a b) := by
  intro f regs nsem slot r hw he hs
  rw [RawOp.ofBits_toBits]
  obtain ⟨hf, hk⟩ := WellFormed.parts hw
  dsimp only [Instr.formOk, Instr.kindsOk] at hf hk
  (try simp only [Bool.and_eq_true] at hk)
  have e_a : opdOf f a.code = a := opdOf_code (Opd.isSrc_fits hk.1)
  have e_b : opdOf f b.code = b := opdOf_code (Opd.isSrc_fits hk.2)
  have hm : (BitVec.ofNat 12 (0)).toNat = 0 := mod12 (by omega)
  obtain rfl := Option.some.inj (show some _ = some r from he)
  refine decodeOp_of_parse hw he hs ?_ ?_
  · show some (ok (.inv (opdOf f a.code) (opdOf f b.code))) = _
    simp only [e_a, e_b]
  · exact .inr ⟨(congrArg (bit · 11) hm).trans (bit_low (by omega)), nofun⟩

theorem Laws.RoundTrip.qpush (scope : Scope) (ord : Ord) (d : Opd) (a : Opd) : Laws.RoundTrip.Statement (.qpush scope ord d a) := by
  intro f regs nsem slot r hw he hs
  rw [RawOp.ofBits_toBits]
  obtain ⟨hf, hk⟩ := WellFormed.parts hw
  dsimp only [Instr.formOk, Instr.kindsOk] at hf hk
  (try simp only [Bool.and_eq_true] at hk)
  have e_d : opdOf f d.code = d := opdOf_code (by grind [Opd.isReg_fits, Opd.isDst_fits, Opd.isSrc_fits, Opd.isRegC_fits, Opd.isGroup_fits, Opd.isPair_fits, Opd.isVec_fits, Opd.isAcc_fits, Opd.isVSrc_fits])
  have e_a : opdOf f a.code = a := opdOf_code (by grind [Opd.isReg_fits, Opd.isDst_fits, Opd.isSrc_fits, Opd.isRegC_fits, Opd.isGroup_fits, Opd.isPair_fits, Opd.isVec_fits, Opd.isAcc_fits, Opd.isVSrc_fits])
  have := scope.code_lt
  have := ord.code_lt
  have hm : (BitVec.ofNat 12 ((scope.code * 256 + ord.code * 64))).toNat = (scope.code * 256 + ord.code * 64) := mod12 (by omega)
  obtain rfl := Option.some.inj (show some _ = some r from he)
  refine decodeOp_of_parse hw he hs ?_ ?_
  · generalize hx : (scope.code * 256 + ord.code * 64) = x at hm ⊢
    have q_ord : (ordOf (bits (BitVec.ofNat 12 (x)).toNat 7 6)) = ord := by rw [hm]; exact ord_field (by simp only [bits]; omega)
    refine (congrArg some (sc_some (n := bits (BitVec.ofNat 12 (x)).toNat 10 8) (s := scope) (by rw [hm]; simp only [bits]; omega) (fun scope => ok (.qpush scope (ordOf (bits (BitVec.ofNat 12 (x)).toNat 7 6)) (opdOf f d.code) (opdOf f a.code))))).trans ?_
    (try dsimp only)
    simp only [q_ord, e_d, e_a]
  · exact .inr ⟨(congrArg (bit · 11) hm).trans (bit_low (by omega)), nofun⟩

theorem Laws.RoundTrip.qpop (scope : Scope) (ord : Ord) (d : Opd) (a : Opd) (b : Opd) : Laws.RoundTrip.Statement (.qpop scope ord d a b) := by
  intro f regs nsem slot r hw he hs
  rw [RawOp.ofBits_toBits]
  obtain ⟨hf, hk⟩ := WellFormed.parts hw
  dsimp only [Instr.formOk, Instr.kindsOk] at hf hk
  (try simp only [Bool.and_eq_true] at hk)
  have e_d : opdOf f d.code = d := opdOf_code (by grind [Opd.isReg_fits, Opd.isDst_fits, Opd.isSrc_fits, Opd.isRegC_fits, Opd.isGroup_fits, Opd.isPair_fits, Opd.isVec_fits, Opd.isAcc_fits, Opd.isVSrc_fits])
  have e_a : opdOf f a.code = a := opdOf_code (by grind [Opd.isReg_fits, Opd.isDst_fits, Opd.isSrc_fits, Opd.isRegC_fits, Opd.isGroup_fits, Opd.isPair_fits, Opd.isVec_fits, Opd.isAcc_fits, Opd.isVSrc_fits])
  have e_b : opdOf f b.code = b := opdOf_code (by grind [Opd.isReg_fits, Opd.isDst_fits, Opd.isSrc_fits, Opd.isRegC_fits, Opd.isGroup_fits, Opd.isPair_fits, Opd.isVec_fits, Opd.isAcc_fits, Opd.isVSrc_fits])
  have := scope.code_lt
  have := ord.code_lt
  have hm : (BitVec.ofNat 12 ((scope.code * 256 + ord.code * 64))).toNat = (scope.code * 256 + ord.code * 64) := mod12 (by omega)
  obtain rfl := Option.some.inj (show some _ = some r from he)
  refine decodeOp_of_parse hw he hs ?_ ?_
  · generalize hx : (scope.code * 256 + ord.code * 64) = x at hm ⊢
    have q_ord : (ordOf (bits (BitVec.ofNat 12 (x)).toNat 7 6)) = ord := by rw [hm]; exact ord_field (by simp only [bits]; omega)
    refine (congrArg some (sc_some (n := bits (BitVec.ofNat 12 (x)).toNat 10 8) (s := scope) (by rw [hm]; simp only [bits]; omega) (fun scope => ok (.qpop scope (ordOf (bits (BitVec.ofNat 12 (x)).toNat 7 6)) (opdOf f d.code) (opdOf f a.code) (opdOf f b.code))))).trans ?_
    (try dsimp only)
    simp only [q_ord, e_d, e_a, e_b]
  · exact .inr ⟨(congrArg (bit · 11) hm).trans (bit_low (by omega)), nofun⟩

theorem Laws.RoundTrip.qtry (scope : Scope) (ord : Ord) (d : Opd) (a : Opd) (b : Opd) : Laws.RoundTrip.Statement (.qtry scope ord d a b) := by
  intro f regs nsem slot r hw he hs
  rw [RawOp.ofBits_toBits]
  obtain ⟨hf, hk⟩ := WellFormed.parts hw
  dsimp only [Instr.formOk, Instr.kindsOk] at hf hk
  (try simp only [Bool.and_eq_true] at hk)
  have e_d : opdOf f d.code = d := opdOf_code (by grind [Opd.isReg_fits, Opd.isDst_fits, Opd.isSrc_fits, Opd.isRegC_fits, Opd.isGroup_fits, Opd.isPair_fits, Opd.isVec_fits, Opd.isAcc_fits, Opd.isVSrc_fits])
  have e_a : opdOf f a.code = a := opdOf_code (by grind [Opd.isReg_fits, Opd.isDst_fits, Opd.isSrc_fits, Opd.isRegC_fits, Opd.isGroup_fits, Opd.isPair_fits, Opd.isVec_fits, Opd.isAcc_fits, Opd.isVSrc_fits])
  have e_b : opdOf f b.code = b := opdOf_code (by grind [Opd.isReg_fits, Opd.isDst_fits, Opd.isSrc_fits, Opd.isRegC_fits, Opd.isGroup_fits, Opd.isPair_fits, Opd.isVec_fits, Opd.isAcc_fits, Opd.isVSrc_fits])
  have := scope.code_lt
  have := ord.code_lt
  have hm : (BitVec.ofNat 12 ((scope.code * 256 + ord.code * 64))).toNat = (scope.code * 256 + ord.code * 64) := mod12 (by omega)
  obtain rfl := Option.some.inj (show some _ = some r from he)
  refine decodeOp_of_parse hw he hs ?_ ?_
  · generalize hx : (scope.code * 256 + ord.code * 64) = x at hm ⊢
    have q_ord : (ordOf (bits (BitVec.ofNat 12 (x)).toNat 7 6)) = ord := by rw [hm]; exact ord_field (by simp only [bits]; omega)
    refine (congrArg some (sc_some (n := bits (BitVec.ofNat 12 (x)).toNat 10 8) (s := scope) (by rw [hm]; simp only [bits]; omega) (fun scope => ok (.qtry scope (ordOf (bits (BitVec.ofNat 12 (x)).toNat 7 6)) (opdOf f d.code) (opdOf f a.code) (opdOf f b.code))))).trans ?_
    (try dsimp only)
    simp only [q_ord, e_d, e_a, e_b]
  · exact .inr ⟨(congrArg (bit · 11) hm).trans (bit_low (by omega)), nofun⟩

theorem Laws.RoundTrip.tgld (x16 : Bool) (d : Opd) (a : Opd) : Laws.RoundTrip.Statement (.tgld x16 d a) := by
  intro f regs nsem slot r hw he hs
  rw [RawOp.ofBits_toBits]
  obtain ⟨hf, hk⟩ := WellFormed.parts hw
  dsimp only [Instr.formOk, Instr.kindsOk] at hf hk
  (try simp only [Bool.and_eq_true] at hk)
  have e_d : opdOf f d.code = d := opdOf_code (Opd.isDst_fits hk.1)
  have e_a : opdOf f a.code = a := opdOf_code (Opd.isSrc_fits hk.2)
  have := b2n_lt x16
  have hm : (BitVec.ofNat 12 ((b2n x16))).toNat = (b2n x16) := mod12 (by omega)
  obtain rfl := Option.some.inj (show some _ = some r from he)
  refine decodeOp_of_parse hw he hs ?_ ?_
  · have q_x16 : (bit (BitVec.ofNat 12 ((b2n x16))).toNat 0) = x16 := by rw [hm]; exact bit_b2n (by omega)
    show some (ok (.tgld (bit (BitVec.ofNat 12 ((b2n x16))).toNat 0) (opdOf f d.code) (opdOf f a.code))) = _
    simp only [q_x16, e_d, e_a]
  · exact .inr ⟨(congrArg (bit · 11) hm).trans (bit_low (by omega)), nofun⟩

theorem Laws.RoundTrip.tgst (x16 : Bool) (d : Opd) (a : Opd) : Laws.RoundTrip.Statement (.tgst x16 d a) := by
  intro f regs nsem slot r hw he hs
  rw [RawOp.ofBits_toBits]
  obtain ⟨hf, hk⟩ := WellFormed.parts hw
  dsimp only [Instr.formOk, Instr.kindsOk] at hf hk
  (try simp only [Bool.and_eq_true] at hk)
  have e_d : opdOf f d.code = d := opdOf_code (Opd.isSrc_fits hk.1)
  have e_a : opdOf f a.code = a := opdOf_code (Opd.isSrc_fits hk.2)
  have := b2n_lt x16
  have hm : (BitVec.ofNat 12 ((b2n x16))).toNat = (b2n x16) := mod12 (by omega)
  obtain rfl := Option.some.inj (show some _ = some r from he)
  refine decodeOp_of_parse hw he hs ?_ ?_
  · have q_x16 : (bit (BitVec.ofNat 12 ((b2n x16))).toNat 0) = x16 := by rw [hm]; exact bit_b2n (by omega)
    show some (ok (.tgst (bit (BitVec.ofNat 12 ((b2n x16))).toNat 0) (opdOf f d.code) (opdOf f a.code))) = _
    simp only [q_x16, e_d, e_a]
  · exact .inr ⟨(congrArg (bit · 11) hm).trans (bit_low (by omega)), nofun⟩

theorem Laws.RoundTrip.pref (h : Bool) (l2 : Bool) (a : Opd) (b : Opd) : Laws.RoundTrip.Statement (.pref h l2 a b) := by
  intro f regs nsem slot r hw he hs
  rw [RawOp.ofBits_toBits]
  obtain ⟨hf, hk⟩ := WellFormed.parts hw
  dsimp only [Instr.formOk, Instr.kindsOk] at hf hk
  (try simp only [Bool.and_eq_true] at hk)
  have e_a : opdOf f a.code = a := opdOf_code (Opd.isSrc_fits hk.1)
  have e_b : opdOf f b.code = b := opdOf_code (Opd.isSrc_fits hk.2)
  have := b2n_lt h
  have := b2n_lt l2
  have hm : (BitVec.ofNat 12 ((b2n h * 2048 + b2n l2))).toNat = (b2n h * 2048 + b2n l2) := mod12 (by omega)
  obtain rfl := Option.some.inj (show some _ = some r from he)
  refine decodeOp_of_parse hw he hs ?_ ?_
  · generalize hx : (b2n h * 2048 + b2n l2) = x at hm ⊢
    have q_h : (bit (BitVec.ofNat 12 (x)).toNat 11) = h := by rw [hm]; exact bit_b2n (by omega)
    have q_l2 : (bit (BitVec.ofNat 12 (x)).toNat 0) = l2 := by rw [hm]; exact bit_b2n (by omega)
    show some (ok (.pref (bit (BitVec.ofNat 12 (x)).toNat 11) (bit (BitVec.ofNat 12 (x)).toNat 0) (opdOf f a.code) (opdOf f b.code))) = _
    simp only [q_h, q_l2, e_a, e_b]
  · exact .inr ⟨(congrArg (bit · 11) hm).trans (bit_b2n (h := h) (by omega)), fun _ => rfl⟩

theorem Laws.RoundTrip.tlbinvVa (a : Opd) (b : Opd) : Laws.RoundTrip.Statement (.tlbinvVa a b) := by
  intro f regs nsem slot r hw he hs
  rw [RawOp.ofBits_toBits]
  obtain ⟨hf, hk⟩ := WellFormed.parts hw
  dsimp only [Instr.formOk, Instr.kindsOk] at hf hk
  (try simp only [Bool.and_eq_true] at hk)
  have e_a : opdOf f a.code = a := opdOf_code (by grind [Opd.isReg_fits, Opd.isDst_fits, Opd.isSrc_fits, Opd.isRegC_fits, Opd.isGroup_fits, Opd.isPair_fits, Opd.isVec_fits, Opd.isAcc_fits, Opd.isVSrc_fits])
  have e_b : opdOf f b.code = b := opdOf_code (by grind [Opd.isReg_fits, Opd.isDst_fits, Opd.isSrc_fits, Opd.isRegC_fits, Opd.isGroup_fits, Opd.isPair_fits, Opd.isVec_fits, Opd.isAcc_fits, Opd.isVSrc_fits])
  have hm : (BitVec.ofNat 12 (0)).toNat = 0 := mod12 (by omega)
  obtain rfl := Option.some.inj (show some _ = some r from he)
  refine decodeOp_of_parse hw he hs ?_ ?_
  · refine (parse_tlbinv _ _ _ _ _).trans ?_
    rw [e_a, e_b]; rfl
  · exact .inr ⟨(congrArg (bit · 11) hm).trans (bit_low (by omega)), nofun⟩

theorem Laws.RoundTrip.tlbinvAsid (b : Opd) : Laws.RoundTrip.Statement (.tlbinvAsid b) := by
  intro f regs nsem slot r hw he hs
  rw [RawOp.ofBits_toBits]
  obtain ⟨hf, hk⟩ := WellFormed.parts hw
  dsimp only [Instr.formOk, Instr.kindsOk] at hf hk
  (try simp only [Bool.and_eq_true] at hk)
  have e_b : opdOf f b.code = b := opdOf_code (by grind [Opd.isReg_fits, Opd.isDst_fits, Opd.isSrc_fits, Opd.isRegC_fits, Opd.isGroup_fits, Opd.isPair_fits, Opd.isVec_fits, Opd.isAcc_fits, Opd.isVSrc_fits])
  have hm : (BitVec.ofNat 12 (1)).toNat = 1 := mod12 (by omega)
  obtain rfl := Option.some.inj (show some _ = some r from he)
  refine decodeOp_of_parse hw he hs ?_ ?_
  · refine (parse_tlbinv _ _ _ _ _).trans ?_
    rw [e_b]; rfl
  · exact .inr ⟨(congrArg (bit · 11) hm).trans (bit_low (by omega)), nofun⟩

theorem Laws.RoundTrip.tlbinvAll  : Laws.RoundTrip.Statement (.tlbinvAll) := by
  intro f regs nsem slot r hw he hs
  rw [RawOp.ofBits_toBits]
  obtain ⟨hf, hk⟩ := WellFormed.parts hw
  dsimp only [Instr.formOk, Instr.kindsOk] at hf hk
  have hm : (BitVec.ofNat 12 (2)).toNat = 2 := mod12 (by omega)
  obtain rfl := Option.some.inj (show some _ = some r from he)
  refine decodeOp_of_parse hw he hs ?_ ?_
  · refine (parse_tlbinv _ _ _ _ _).trans ?_
    rfl
  · exact .inr ⟨(congrArg (bit · 11) hm).trans (bit_low (by omega)), nofun⟩

theorem Laws.RoundTrip.registerWrite (req : Requester) (pa : Nat) (v : Word) : Laws.RoundTrip.Statement (.registerWrite req pa v) := by
  intro _ _ _ _ _ _ he _; cases he

theorem Laws.RoundTrip.powerOn  : Laws.RoundTrip.Statement (.powerOn) := by
  intro _ _ _ _ _ _ he _; cases he

theorem Laws.RoundTrip.powerOff  : Laws.RoundTrip.Statement (.powerOff) := by
  intro _ _ _ _ _ _ he _; cases he

theorem Laws.RoundTrip.thermalTrip (die : Fin 3) : Laws.RoundTrip.Statement (.thermalTrip die) := by
  intro _ _ _ _ _ _ he _; cases he

theorem Laws.RoundTrip.imageVerify (kind : ImageKind) : Laws.RoundTrip.Statement (.imageVerify kind) := by
  intro _ _ _ _ _ _ he _; cases he

theorem Laws.RoundTrip.memoryTrainingComplete (trained : BitVec 16) : Laws.RoundTrip.Statement (.memoryTrainingComplete trained) := by
  intro _ _ _ _ _ _ he _; cases he

theorem Laws.RoundTrip.stageFullEntry  : Laws.RoundTrip.Statement (.stageFullEntry) := by
  intro _ _ _ _ _ _ he _; cases he

theorem Laws.RoundTrip.selfTestComplete (d : Dom) (r1 : TestResult) : Laws.RoundTrip.Statement (.selfTestComplete d r1) := by
  intro _ _ _ _ _ _ he _; cases he

theorem Laws.RoundTrip.backgroundMstest (core : Fin 32) (found : Faults) : Laws.RoundTrip.Statement (.backgroundMstest core found) := by
  intro _ _ _ _ _ _ he _; cases he

theorem Laws.RoundTrip.ptimeStep (ptp : Nat) (delta : Nat) (e : BitVec 64) : Laws.RoundTrip.Statement (.ptimeStep ptp delta e) := by
  intro _ _ _ _ _ _ he _; cases he

theorem Laws.RoundTrip.timebaseStateChange (next : TimeState) : Laws.RoundTrip.Statement (.timebaseStateChange next) := by
  intro _ _ _ _ _ _ he _; cases he

theorem Laws.RoundTrip.ptpMessage (port : Fin 2) (frame : List Byte) (ppm : Int) : Laws.RoundTrip.Statement (.ptpMessage port frame ppm) := by
  intro _ _ _ _ _ _ he _; cases he

theorem Laws.RoundTrip.ppsEdge (ppm : Int) : Laws.RoundTrip.Statement (.ppsEdge ppm) := by
  intro _ _ _ _ _ _ he _; cases he

theorem Laws.RoundTrip.clockChange (d : Dom) (mhz : BitVec 16) : Laws.RoundTrip.Statement (.clockChange d mhz) := by
  intro _ _ _ _ _ _ he _; cases he

theorem Laws.RoundTrip.register (req : Requester) (card : BitVec 44) : Laws.RoundTrip.Statement (.register req card) := by
  intro _ _ _ _ _ _ he _; cases he

theorem Laws.RoundTrip.submit (req : Requester) (card : BitVec 44) : Laws.RoundTrip.Statement (.submit req card) := by
  intro _ _ _ _ _ _ he _; cases he

theorem Laws.RoundTrip.retire (req : Requester) (card : BitVec 44) : Laws.RoundTrip.Statement (.retire req card) := by
  intro _ _ _ _ _ _ he _; cases he

theorem Laws.RoundTrip.abort (req : Requester) (card : BitVec 44) : Laws.RoundTrip.Statement (.abort req card) := by
  intro _ _ _ _ _ _ he _; cases he

theorem Laws.RoundTrip.periodicRelease (slot : Nat) : Laws.RoundTrip.Statement (.periodicRelease slot) := by
  intro _ _ _ _ _ _ he _; cases he

theorem Laws.RoundTrip.deferredRelease (slot : Nat) : Laws.RoundTrip.Statement (.deferredRelease slot) := by
  intro _ _ _ _ _ _ he _; cases he

theorem Laws.RoundTrip.dispatch (cls : EngClass) (place : List (Fin 32)) : Laws.RoundTrip.Statement (.dispatch cls place) := by
  intro _ _ _ _ _ _ he _; cases he

theorem Laws.RoundTrip.advanceModeTimeout (core : Fin 32) : Laws.RoundTrip.Statement (.advanceModeTimeout core) := by
  intro _ _ _ _ _ _ he _; cases he

theorem Laws.RoundTrip.preemptionComplete (d : Dom) : Laws.RoundTrip.Statement (.preemptionComplete d) := by
  intro _ _ _ _ _ _ he _; cases he

theorem Laws.RoundTrip.serverWindowBoundary (cls : EngClass) : Laws.RoundTrip.Statement (.serverWindowBoundary cls) := by
  intro _ _ _ _ _ _ he _; cases he

theorem Laws.RoundTrip.serverBudgetExhausted (cls : EngClass) : Laws.RoundTrip.Statement (.serverBudgetExhausted cls) := by
  intro _ _ _ _ _ _ he _; cases he

theorem Laws.RoundTrip.jobComplete (slot : Nat) : Laws.RoundTrip.Statement (.jobComplete slot) := by
  intro _ _ _ _ _ _ he _; cases he

theorem Laws.RoundTrip.deadlineMiss (slot : Nat) : Laws.RoundTrip.Statement (.deadlineMiss slot) := by
  intro _ _ _ _ _ _ he _; cases he

theorem Laws.RoundTrip.cyclesDemotion (slot : Nat) : Laws.RoundTrip.Statement (.cyclesDemotion slot) := by
  intro _ _ _ _ _ _ he _; cases he

theorem Laws.RoundTrip.beminWrite (req : Requester) (v : Word) : Laws.RoundTrip.Statement (.beminWrite req v) := by
  intro _ _ _ _ _ _ he _; cases he

theorem Laws.RoundTrip.bewinWrite (req : Requester) (v : Word) : Laws.RoundTrip.Statement (.bewinWrite req v) := by
  intro _ _ _ _ _ _ he _; cases he

theorem Laws.RoundTrip.tgwinWrite (req : Requester) (v : Word) : Laws.RoundTrip.Statement (.tgwinWrite req v) := by
  intro _ _ _ _ _ _ he _; cases he

theorem Laws.RoundTrip.tollgateWindowBoundary  : Laws.RoundTrip.Statement (.tollgateWindowBoundary) := by
  intro _ _ _ _ _ _ he _; cases he

theorem Laws.RoundTrip.channelRequest (ch : Fin 16) (t : Traffic) (group : Nat) : Laws.RoundTrip.Statement (.channelRequest ch t group) := by
  intro _ _ _ _ _ _ he _; cases he

theorem Laws.RoundTrip.leaveGrant (d : Dom) : Laws.RoundTrip.Statement (.leaveGrant d) := by
  intro _ _ _ _ _ _ he _; cases he

theorem Laws.RoundTrip.powercapWrite (req : Requester) (v : Word) : Laws.RoundTrip.Statement (.powercapWrite req v) := by
  intro _ _ _ _ _ _ he _; cases he

theorem Laws.RoundTrip.energyUpdate (m : Meter) (microjoules : Nat) : Laws.RoundTrip.Statement (.energyUpdate m microjoules) := by
  intro _ _ _ _ _ _ he _; cases he

theorem Laws.RoundTrip.bundleIssue (core : Fin 32) : Laws.RoundTrip.Statement (.bundleIssue core) := by
  intro _ _ _ _ _ _ he _; cases he

theorem Laws.RoundTrip.traceRecordAccept (d : Dom) : Laws.RoundTrip.Statement (.traceRecordAccept d) := by
  intro _ _ _ _ _ _ he _; cases he

theorem Laws.RoundTrip.taskBlockStart (core : Fin 32) : Laws.RoundTrip.Statement (.taskBlockStart core) := by
  intro _ _ _ _ _ _ he _; cases he

theorem Laws.RoundTrip.scoreboardResultLand (w : Waiter) : Laws.RoundTrip.Statement (.scoreboardResultLand w) := by
  intro _ _ _ _ _ _ he _; cases he

theorem Laws.RoundTrip.mmaResultLand (core : Fin 32) : Laws.RoundTrip.Statement (.mmaResultLand core) := by
  intro _ _ _ _ _ _ he _; cases he

theorem Laws.RoundTrip.mstestComplete (core : Fin 32) (found : Faults) : Laws.RoundTrip.Statement (.mstestComplete core found) := by
  intro _ _ _ _ _ _ he _; cases he

theorem Laws.RoundTrip.blkldFillComplete (core : Fin 32) : Laws.RoundTrip.Statement (.blkldFillComplete core) := by
  intro _ _ _ _ _ _ he _; cases he

theorem Laws.RoundTrip.copyPieceLand (d : Dom) (copy : Nat) (piece : Nat) : Laws.RoundTrip.Statement (.copyPieceLand d copy piece) := by
  intro _ _ _ _ _ _ he _; cases he

theorem Laws.RoundTrip.copyError (d : Dom) (copy : Nat) (va : Word) : Laws.RoundTrip.Statement (.copyError d copy va) := by
  intro _ _ _ _ _ _ he _; cases he

theorem Laws.RoundTrip.threadWordIssue (unit : Fin 32) : Laws.RoundTrip.Statement (.threadWordIssue unit) := by
  intro _ _ _ _ _ _ he _; cases he

theorem Laws.RoundTrip.threadEnd (t : Tid) : Laws.RoundTrip.Statement (.threadEnd t) := by
  intro _ _ _ _ _ _ he _; cases he

theorem Laws.RoundTrip.drainComplete (t : Tid) : Laws.RoundTrip.Statement (.drainComplete t) := by
  intro _ _ _ _ _ _ he _; cases he

theorem Laws.RoundTrip.semwaitSatisfy (unit : Fin 32) (group : Nat) (sem : Nat) : Laws.RoundTrip.Statement (.semwaitSatisfy unit group sem) := by
  intro _ _ _ _ _ _ he _; cases he

theorem Laws.RoundTrip.swaitSatisfy (w : Waiter) : Laws.RoundTrip.Statement (.swaitSatisfy w) := by
  intro _ _ _ _ _ _ he _; cases he

theorem Laws.RoundTrip.qpushRoom (q : BitVec 13) : Laws.RoundTrip.Statement (.qpushRoom q) := by
  intro _ _ _ _ _ _ he _; cases he

theorem Laws.RoundTrip.barComplete (b : BarPlace) : Laws.RoundTrip.Statement (.barComplete b) := by
  intro _ _ _ _ _ _ he _; cases he

theorem Laws.RoundTrip.queryReportReady (t : Tid) (choice : Nat) : Laws.RoundTrip.Statement (.queryReportReady t choice) := by
  intro _ _ _ _ _ _ he _; cases he

theorem Laws.RoundTrip.tlbinvComplete (idx : Nat) : Laws.RoundTrip.Statement (.tlbinvComplete idx) := by
  intro _ _ _ _ _ _ he _; cases he

theorem Laws.RoundTrip.capturePreimageWritten (slot : Nat) (page : BitVec 64) : Laws.RoundTrip.Statement (.capturePreimageWritten slot page) := by
  intro _ _ _ _ _ _ he _; cases he

theorem Laws.RoundTrip.snapshotWrite (core : Fin 32) : Laws.RoundTrip.Statement (.snapshotWrite core) := by
  intro _ _ _ _ _ _ he _; cases he

theorem Laws.RoundTrip.heartbeatTimeout (d : Dom) : Laws.RoundTrip.Statement (.heartbeatTimeout d) := by
  intro _ _ _ _ _ _ he _; cases he

theorem Laws.RoundTrip.watchdogTimeout (d : Dom) : Laws.RoundTrip.Statement (.watchdogTimeout d) := by
  intro _ _ _ _ _ _ he _; cases he

theorem Laws.RoundTrip.uncorrectableError (p : EccPlace) : Laws.RoundTrip.Statement (.uncorrectableError p) := by
  intro _ _ _ _ _ _ he _; cases he

theorem Laws.RoundTrip.correctableError (src : Byte) (count : Nat) : Laws.RoundTrip.Statement (.correctableError src count) := by
  intro _ _ _ _ _ _ he _; cases he

theorem Laws.RoundTrip.domainFailed (d : Dom) (reason : Fin 6) : Laws.RoundTrip.Statement (.domainFailed d reason) := by
  intro _ _ _ _ _ _ he _; cases he

theorem Laws.RoundTrip.reeveLockstepMismatch  : Laws.RoundTrip.Statement (.reeveLockstepMismatch) := by
  intro _ _ _ _ _ _ he _; cases he

theorem Laws.RoundTrip.safetyFrameRepeat  : Laws.RoundTrip.Statement (.safetyFrameRepeat) := by
  intro _ _ _ _ _ _ he _; cases he

theorem Laws.RoundTrip.safetyTxReady (req : Requester) (slot : Fin 16) : Laws.RoundTrip.Statement (.safetyTxReady req slot) := by
  intro _ _ _ _ _ _ he _; cases he

theorem Laws.RoundTrip.safetyTxComplete (slot : Fin 16) (status : Fin 3) : Laws.RoundTrip.Statement (.safetyTxComplete slot status) := by
  intro _ _ _ _ _ _ he _; cases he

theorem Laws.RoundTrip.safetyRxFrame (ctl : Bool) (f : CanFrame) : Laws.RoundTrip.Statement (.safetyRxFrame ctl f) := by
  intro _ _ _ _ _ _ he _; cases he

theorem Laws.RoundTrip.debugStop (req : Requester) (d : Dom) : Laws.RoundTrip.Statement (.debugStop req d) := by
  intro _ _ _ _ _ _ he _; cases he

theorem Laws.RoundTrip.debugStep (req : Requester) (d : Dom) : Laws.RoundTrip.Statement (.debugStep req d) := by
  intro _ _ _ _ _ _ he _; cases he

theorem Laws.RoundTrip.debugRun (req : Requester) (d : Dom) : Laws.RoundTrip.Statement (.debugRun req d) := by
  intro _ _ _ _ _ _ he _; cases he

theorem Laws.RoundTrip.traceRpWrite (req : Requester) (part : Fin 64) (v : Word) : Laws.RoundTrip.Statement (.traceRpWrite req part v) := by
  intro _ _ _ _ _ _ he _; cases he

theorem Laws.RoundTrip.traceDescriptorWrite (req : Requester) (part : Fin 64) (bytes : List Byte) : Laws.RoundTrip.Statement (.traceDescriptorWrite req part bytes) := by
  intro _ _ _ _ _ _ he _; cases he

theorem Laws.RoundTrip.queueConfigure (req : Requester) (q : BitVec 13) (bytes : List Byte) : Laws.RoundTrip.Statement (.queueConfigure req q bytes) := by
  intro _ _ _ _ _ _ he _; cases he

theorem Laws.RoundTrip.queueClose (req : Requester) (q : BitVec 13) : Laws.RoundTrip.Statement (.queueClose req q) := by
  intro _ _ _ _ _ _ he _; cases he

theorem Laws.RoundTrip.ingressFrameEnd (port : Fin 8) (vc : Fin 16) : Laws.RoundTrip.Statement (.ingressFrameEnd port vc) := by
  intro _ _ _ _ _ _ he _; cases he

theorem Laws.RoundTrip.ingressEventPacket (port : Fin 8) (vc : Fin 16) (events : List CamEvent) : Laws.RoundTrip.Statement (.ingressEventPacket port vc events) := by
  intro _ _ _ _ _ _ he _; cases he

theorem Laws.RoundTrip.ingressChannelEnable (req : Requester) (port : Fin 8) (vc : Fin 16) (bytes : List Byte) : Laws.RoundTrip.Statement (.ingressChannelEnable req port vc bytes) := by
  intro _ _ _ _ _ _ he _; cases he

theorem Laws.RoundTrip.regionEntryApply (req : Requester) (idx : Fin 64) (last : Word) : Laws.RoundTrip.Statement (.regionEntryApply req idx last) := by
  intro _ _ _ _ _ _ he _; cases he

theorem Laws.RoundTrip.partitionEntryApply (req : Requester) (idx : Fin 64) (ctrl : Byte) : Laws.RoundTrip.Statement (.partitionEntryApply req idx ctrl) := by
  intro _ _ _ _ _ _ he _; cases he

theorem Laws.RoundTrip.hartPartitionWrite (req : Requester) (hart : Fin 16) (v : Word) : Laws.RoundTrip.Statement (.hartPartitionWrite req hart v) := by
  intro _ _ _ _ _ _ he _; cases he

theorem Laws.RoundTrip.invalidateWindowVa (req : Requester) (asid : BitVec 16) : Laws.RoundTrip.Statement (.invalidateWindowVa req asid) := by
  intro _ _ _ _ _ _ he _; cases he

theorem Laws.RoundTrip.invalidateWindowAsid (req : Requester) (asid : BitVec 16) : Laws.RoundTrip.Statement (.invalidateWindowAsid req asid) := by
  intro _ _ _ _ _ _ he _; cases he

theorem Laws.RoundTrip.invalidateWindowAll (req : Requester) : Laws.RoundTrip.Statement (.invalidateWindowAll req) := by
  intro _ _ _ _ _ _ he _; cases he

theorem Laws.RoundTrip.attest (req : Requester) : Laws.RoundTrip.Statement (.attest req) := by
  intro _ _ _ _ _ _ he _; cases he

theorem Laws.RoundTrip.extend (req : Requester) (reg : Fin 8) : Laws.RoundTrip.Statement (.extend req reg) := by
  intro _ _ _ _ _ _ he _; cases he

theorem Laws.RoundTrip.attestComplete  : Laws.RoundTrip.Statement (.attestComplete) := by
  intro _ _ _ _ _ _ he _; cases he

theorem Laws.RoundTrip.pcieInboundRequest (pa : Nat) (k : OutKind) : Laws.RoundTrip.Statement (.pcieInboundRequest pa k) := by
  intro _ _ _ _ _ _ he _; cases he

theorem Laws.RoundTrip.pcieLinkChange (up : Bool) (rate : Fin 8) (lanes : Fin 16) : Laws.RoundTrip.Statement (.pcieLinkChange up rate lanes) := by
  intro _ _ _ _ _ _ he _; cases he

theorem Laws.RoundTrip.ethTailWrite (req : Requester) (mac : Fin 2) (tx : Bool) (ring : Fin 4) (v : Word) : Laws.RoundTrip.Statement (.ethTailWrite req mac tx ring v) := by
  intro _ _ _ _ _ _ he _; cases he

theorem Laws.RoundTrip.ethTxComplete (mac : Fin 2) (ring : Fin 4) : Laws.RoundTrip.Statement (.ethTxComplete mac ring) := by
  intro _ _ _ _ _ _ he _; cases he

theorem Laws.RoundTrip.ethRxFrame (mac : Fin 2) (frame : List Byte) (fcsOk : Bool) : Laws.RoundTrip.Statement (.ethRxFrame mac frame fcsOk) := by
  intro _ _ _ _ _ _ he _; cases he

theorem Laws.RoundTrip.ethLinkChange (mac : Fin 2) (up : Bool) : Laws.RoundTrip.Statement (.ethLinkChange mac up) := by
  intro _ _ _ _ _ _ he _; cases he

theorem Laws.RoundTrip.heartbeat (d : Dom) : Laws.RoundTrip.Statement (.heartbeat d) := by
  intro _ _ _ _ _ _ he _; cases he

theorem Laws.RoundTrip.hintinvComplete (t : Tid) : Laws.RoundTrip.Statement (.hintinvComplete t) := by
  intro _ _ _ _ _ _ he _; cases he

theorem Laws.RoundTrip.hartMemoryAccess (h : Fin 16) (pa : Nat) (k : HartAccess) : Laws.RoundTrip.Statement (.hartMemoryAccess h pa k) := by
  intro _ _ _ _ _ _ he _; cases he

theorem Laws.RoundTrip.csi2Packet (port : Fin 8) (p : CsiPacket) : Laws.RoundTrip.Statement (.csi2Packet port p) := by
  intro _ _ _ _ _ _ he _; cases he

end Sys2Proof
end

