-- ==== Sys2Proof/Certificates/Slice0/Obligations.lean ====
section
/-!
DEFINITION. The statements for the provers.
-/
open Sys2Proof Sys2Proof.Machine

/-- O1. Integer sums and products, LIH and NOP. Rests on choices of the model: when a thread's results are there (log 8). (spec/04_scalar_vector.md: Integer scalar operations, spec/01_machine.md: When results become visible, spec/02_encoding.md: The opcode map) -/
def Obligations.IntegerSums : Prop :=
  ∀ (s : State) (d : Fin 64) (a b : Opd),
    exec (.add (.sx d) a b) s = .next (s.withScalar 1 d (s.ri a + s.ri b))
    ∧ exec (.sub (.sx d) a b) s = .next (s.withScalar 1 d (s.ri a - s.ri b))
    ∧ (∀ imm : BitVec 20, exec (.addi (.sx d) a imm) s = .next (s.withScalar 1 d (s.ri a + imm.signExtend 64)))
    ∧ (∀ imm : BitVec 20, exec (.lih (.sx d) a imm) s = .next (s.withScalar 1 d ((s.ri a <<< 20) + imm.setWidth 64)))
    ∧ exec (.mul (.sx d) a b) s = .next (s.withScalar 3 d (s.ri a * s.ri b))
    ∧ exec (.mulh (.sx d) a b) s
        = .next (s.withScalar 3 d (((s.ri a).signExtend 128 * (s.ri b).signExtend 128).extractLsb' 64 64))
    ∧ exec (.mulhn (.sx d) a b) s
        = .next (s.withScalar 3 d (((s.rn a).setWidth 128 * (s.rn b).setWidth 128).extractLsb' 64 64))
    ∧ (∀ sh : Fin 8, exec (.addsh (.sx d) a b sh) s = .next (s.withScalar 1 d (s.ri a + (s.ri b <<< sh.val))))
    ∧ exec .nop s = .next (match s.cur with
        | .core _ _ => s
        | .thr u => s.setThread u { s.thread u with pc := (s.thread u).pc + 8 })

/-- O2. Bitwise ops, shifts and rotates. Rests on choices of the model: when a thread's results are there (log 8). (spec/04_scalar_vector.md: Integer scalar operations) -/
def Obligations.IntegerLogicAndShifts : Prop :=
  ∀ (s : State) (d : Fin 64) (a b : Opd),
    exec (.and (.sx d) a b) s = .next (s.withScalar 1 d (s.ri a &&& s.ri b))
    ∧ exec (.or (.sx d) a b) s = .next (s.withScalar 1 d (s.ri a ||| s.ri b))
    ∧ exec (.xor (.sx d) a b) s = .next (s.withScalar 1 d (s.ri a ^^^ s.ri b))
    ∧ (∀ imm : BitVec 12,
        exec (.andi (.sx d) a imm) s = .next (s.withScalar 1 d (s.ri a &&& imm.signExtend 64))
        ∧ exec (.ori (.sx d) a imm) s = .next (s.withScalar 1 d (s.ri a ||| imm.signExtend 64))
        ∧ exec (.xori (.sx d) a imm) s = .next (s.withScalar 1 d (s.ri a ^^^ imm.signExtend 64)))
    ∧ exec (.shl (.sx d) a b) s = .next (s.withScalar 1 d (s.ri a <<< (s.ri b &&& 63)))
    ∧ exec (.shr (.sx d) a b) s = .next (s.withScalar 1 d (s.ri a >>> (s.ri b &&& 63)))
    ∧ exec (.sra (.sx d) a b) s = .next (s.withScalar 1 d ((s.ri a).sshiftRight (s.ri b &&& 63).toNat))
    ∧ (∀ sh : Fin 64,
        exec (.shli (.sx d) a sh) s = .next (s.withScalar 1 d (s.ri a <<< sh.val))
        ∧ exec (.shri (.sx d) a sh) s = .next (s.withScalar 1 d (s.ri a >>> sh.val))
        ∧ exec (.srai (.sx d) a sh) s = .next (s.withScalar 1 d ((s.ri a).sshiftRight sh.val)))
    ∧ exec (.rol (.sx d) a b) s = .next (s.withScalar 1 d ((s.ri a).rotateLeft (s.ri b &&& 63).toNat))
    ∧ exec (.ror (.sx d) a b) s = .next (s.withScalar 1 d ((s.ri a).rotateRight (s.ri b &&& 63).toNat))

/-- O3. Minima, maxima, comparisons and SEL. Rests on choices of the model: when a thread's results are there (log 8). (spec/04_scalar_vector.md: Integer scalar operations) -/
def Obligations.IntegerComparisons : Prop :=
  ∀ (s : State) (d : Fin 64) (a b : Opd),
    exec (.min (.sx d) a b) s = .next (s.withScalar 1 d (if (s.ri a).slt (s.ri b) then s.ri a else s.ri b))
    ∧ exec (.max (.sx d) a b) s = .next (s.withScalar 1 d (if (s.ri a).slt (s.ri b) then s.ri b else s.ri a))
    ∧ exec (.minn (.sx d) a b) s = .next (s.withScalar 1 d (if s.rn a < s.rn b then s.rn a else s.rn b))
    ∧ exec (.maxn (.sx d) a b) s = .next (s.withScalar 1 d (if s.rn a < s.rn b then s.rn b else s.rn a))
    ∧ exec (.seq (.sx d) a b) s = .next (s.withScalar 1 d (if s.ri a = s.ri b then 1 else 0))
    ∧ exec (.sne (.sx d) a b) s = .next (s.withScalar 1 d (if s.ri a = s.ri b then 0 else 1))
    ∧ exec (.slt (.sx d) a b) s = .next (s.withScalar 1 d (if (s.ri a).slt (s.ri b) then 1 else 0))
    ∧ exec (.sltn (.sx d) a b) s = .next (s.withScalar 1 d (if s.rn a < s.rn b then 1 else 0))
    ∧ (∀ imm : BitVec 20,
        exec (.slti (.sx d) a imm) s = .next (s.withScalar 1 d (if (s.ri a).slt (imm.signExtend 64) then 1 else 0)))
    ∧ (∀ (n : Fin 8) (inv : Bool),
        exec (.sel (.sx d) a b n inv) s
          = .next (s.withScalar 1 d (if (s.rp n).getLsbD 0 = !inv then s.ri a else s.ri b)))

/-- O4. Division never traps: results of DIV, REM, DIVN and REMN. Rests on choices of the model: when a thread's results are there (log
8). (spec/04_scalar_vector.md: Integer scalar operations) -/
def Obligations.DivisionNeverTraps : Prop :=
  ∀ (s : State) (d : Fin 64) (a b : Opd),
    exec (.div (.sx d) a b) s
      = .next (s.withScalar 12 d
          (if s.ri b = 0 then 0xFFFFFFFFFFFFFFFF
           else if s.ri a = 0x8000000000000000 ∧ s.ri b = -1 then s.ri a
           else BitVec.ofInt 64 ((s.ri a).toInt.tdiv (s.ri b).toInt)))
    ∧ exec (.rem (.sx d) a b) s
      = .next (s.withScalar 12 d
          (if s.ri b = 0 then s.ri a
           else if s.ri a = 0x8000000000000000 ∧ s.ri b = -1 then 0
           else BitVec.ofInt 64 ((s.ri a).toInt - (s.ri b).toInt * (s.ri a).toInt.tdiv (s.ri b).toInt)))
    ∧ exec (.divn (.sx d) a b) s = .next (s.withScalar 12 d (if s.rn b = 0 then 0xFFFFFFFFFFFFFFFF else s.rn a / s.rn b))
    ∧ exec (.remn (.sx d) a b) s = .next (s.withScalar 12 d (if s.rn b = 0 then s.rn a else s.rn a % s.rn b))

/-- O5. CLZ, CTZ and POPC count bits. Rests on choices of the model: when a thread's results are there (log 8). (spec/04_scalar_vector.md: Integer scalar operations) -/
def Obligations.BitCounts : Prop :=
  ∀ (s : State) (d : Fin 64) (a : Opd),
    (∃ n : Nat, exec (.clz (.sx d) a) s = .next (s.withScalar 1 d (BitVec.ofNat 64 n))
      ∧ (s.ri a = 0 → n = 64)
      ∧ (s.ri a ≠ 0 → n < 64 ∧ (s.ri a).getLsbD (63 - n) = true ∧ ∀ i < n, (s.ri a).getLsbD (63 - i) = false))
    ∧ (∃ n : Nat, exec (.ctz (.sx d) a) s = .next (s.withScalar 1 d (BitVec.ofNat 64 n))
      ∧ (s.ri a = 0 → n = 64)
      ∧ (s.ri a ≠ 0 → n < 64 ∧ (s.ri a).getLsbD n = true ∧ ∀ i < n, (s.ri a).getLsbD i = false))
    ∧ exec (.popc (.sx d) a) s
        = .next (s.withScalar 1 d (BitVec.ofNat 64 ((List.range 64).countP fun i => (s.ri a).getLsbD i)))

/-- O6. BFX, BFI and SEXT bit by bit. Rests on choices of the model: when a thread's results are there (log 8). (spec/04_scalar_vector.md: Integer scalar operations) -/
def Obligations.BitFields : Prop :=
  ∀ (s : State) (d : Fin 64) (a : Opd),
    (∀ pos len1 : Fin 64,
      (∃ v : Word, exec (.bfx (.sx d) a pos len1) s = .next (s.withScalar 1 d v)
        ∧ ∀ i < 64, v.getLsbD i = (decide (i < len1.val + 1) && (s.ri a).getLsbD (pos.val + i)))
      ∧ (∃ v : Word, exec (.bfi (.sx d) a pos len1) s = .next (s.withScalar 1 d v)
        ∧ ∀ i < 64, v.getLsbD i =
            if pos.val ≤ i ∧ i < pos.val + (len1.val + 1) then (s.ri a).getLsbD (i - pos.val) else (s.ri (.sx d)).getLsbD i))
    ∧ exec (.sext (.sx d) a .i8) s = .next (s.withScalar 1 d (((s.ri a).setWidth 8).signExtend 64))
    ∧ exec (.sext (.sx d) a .i16) s = .next (s.withScalar 1 d (((s.ri a).setWidth 16).signExtend 64))
    ∧ exec (.sext (.sx d) a .i32) s = .next (s.withScalar 1 d (((s.ri a).setWidth 32).signExtend 64))
    ∧ exec (.sext (.sx d) a .n8) s = .next (s.withScalar 1 d (((s.ri a).setWidth 8).setWidth 64))
    ∧ exec (.sext (.sx d) a .n16) s = .next (s.withScalar 1 d (((s.ri a).setWidth 16).setWidth 64))
    ∧ exec (.sext (.sx d) a .n32) s = .next (s.withScalar 1 d (((s.ri a).setWidth 32).setWidth 64))

/-- O7. Scalar floating-point arithmetic: results, flags and the trap of enabled flags. Rests on choices of the model: when a thread's
results are there (log 8); draws of one bundle in slot order (log 55). (spec/04_scalar_vector.md: Scalar floating point, spec/03_formats.md: The FMT register, spec/01_machine.md: When results become visible) -/
def Obligations.FloatingArithmetic : Prop :=
  ∀ (s : State) (t : FpTy) (d : Fin 64) (a b : Opd),
    let x := s.rf t a
    let y := s.rf t b
    FpStep (.fadd t (.sx d) a b) s 4 d (addVal t.ty (decode t.ty x) (decode t.ty y))
    ∧ FpStep (.fsub t (.sx d) a b) s 4 d (addVal t.ty (decode t.ty x) (decode t.ty y).neg)
    ∧ FpStep (.fmul t (.sx d) a b) s 5 d (mulVal t.ty (decode t.ty x) (decode t.ty y))
    ∧ FpStep (.ffma t (.sx d) a b) s 5 d
        (fmaVal t.ty (decode t.ty x) (decode t.ty y) (decode t.ty (s.rf t (.sx d))))
    ∧ FpStep (.fmin t (.sx d) a b) s 4 d (minMaxCode t.ty false x y)
    ∧ FpStep (.fmax t (.sx d) a b) s 4 d (minMaxCode t.ty true x y)
    ∧ FpStep (.feq t (.sx d) a b) s 4 d ⟨if (fpCmp t.ty .eq x y).1 then 1 else 0, (fpCmp t.ty .eq x y).2⟩
    ∧ FpStep (.flt t (.sx d) a b) s 4 d ⟨if (fpCmp t.ty .lt x y).1 then 1 else 0, (fpCmp t.ty .lt x y).2⟩
    ∧ FpStep (.fle t (.sx d) a b) s 4 d ⟨if (fpCmp t.ty .le x y).1 then 1 else 0, (fpCmp t.ty .le x y).2⟩
    ∧ (∀ m : SgnMode, FpStep (.fsgn m t (.sx d) a b) s 1 d (fpSgn t.ty m x y))
    ∧ (∀ p q r : Frac, 0 < p.den → 0 < q.den → 0 < r.den → p.num ≠ 0 → q.num ≠ 0 → r.num ≠ 0 →
      let sum : Frac → Frac → Frac := fun p q => ⟨p.num * q.den + q.num * p.den, p.den * q.den⟩
      let prod : Frac := ⟨p.num * q.num, p.den * q.den⟩
      let once : Frac → Rnd := fun x => if x.num = 0 then ⟨0, 0⟩ else round t.ty .ne x
      let inf : Bool → Rnd := fun n => ⟨infCode t.ty n, 0⟩
      addVal t.ty (.fin p) (.fin q) = once (sum p q)
      ∧ mulVal t.ty (.fin p) (.fin q) = round t.ty .ne prod
      ∧ fmaVal t.ty (.fin p) (.fin q) (.fin r) = once (sum prod r)
      ∧ (∀ n m : Bool,
        addVal t.ty (.fin p) (.zero n) = round t.ty .ne p ∧ addVal t.ty (.zero n) (.fin p) = round t.ty .ne p
        ∧ fmaVal t.ty (.fin p) (.fin q) (.zero n) = round t.ty .ne prod
        ∧ fmaVal t.ty (.zero n) (.fin q) (.fin r) = round t.ty .ne r ∧ fmaVal t.ty (.fin p) (.zero n) (.fin r) = round t.ty .ne r
        ∧ addVal t.ty (.inf n) (.fin p) = inf n ∧ addVal t.ty (.fin p) (.inf n) = inf n ∧ addVal t.ty (.inf n) (.inf n) = inf n
        ∧ mulVal t.ty (.inf n) (.fin p) = inf (n != decide (p.num < 0)) ∧ mulVal t.ty (.fin p) (.inf n) = inf (n != decide (p.num < 0))
        ∧ mulVal t.ty (.inf n) (.inf m) = inf (n != m)))

/-- O8. FCVT under FMT and FCLASS. Rests on choices of the model: when a thread's results are there (log 8); draws of one bundle in slot
order (log 55); which conversions narrow (log 53). (spec/04_scalar_vector.md: Scalar floating point, spec/03_formats.md: Stochastic rounding, spec/03_formats.md: Rounding) -/
def Obligations.ConversionAndClass : Prop :=
  ∀ (s : State) (d : Fin 64) (a : Opd),
    (∀ t2 t1 : Ty,
      let v := decode t1 ((s.rd t1 a).toNat % 2 ^ width t1)
      let stoch := s.fmt.getLsbD 17 && !t2.isInt && narrowing t1 t2
      (stoch = false →
        let r := convert t2 (rmodeOf (s.fmt.extractLsb' 15 2).toNat) v
        FpStep (.fcvt t2 t1 (.sx d) a) s 4 d ⟨convWord t2 r.code, r.fl⟩)
      ∧ (stoch = true →
        let g := genStep s.gen.1 s.gen.2
        let r := roundStoch t2 v (g.1.setWidth 32).toNat
        (s.flagsQuiet r.fl →
          exec (.fcvt t2 t1 (.sx d) a) s = .next ((s.setGen g.2).withScalarFp 4 d (convWord t2 r.code) r.fl))
        ∧ (¬ s.flagsQuiet r.fl → exec (.fcvt t2 t1 (.sx d) a) s = .next (s.takeTrap s.cur ⟨0x19, r.fl.setWidth 64⟩))))
    ∧ (∀ t : FpTy, exec (.fclass t (.sx d) a) s
        = .next (s.withScalar 4 d (match decode t.ty (s.rf t a) with
            | .inf true => 1
            | .inf false => 0x80
            | .zero true => 0x08
            | .zero false => 0x10
            | .nan true => 0x100
            | .nan false => 0x200
            | .fin q =>
              if q.abs.lt (magVal t.ty (minNCode t.ty)) then (if q.isNeg then 0x04 else 0x20)
              else if q.isNeg then 0x02 else 0x40)))

/-- O9. Infinities, zeros and NaN operands of floating-point arithmetic. (R127) -/
def Obligations.SpecialOperandsOfArithmetic : Prop :=
  ∀ (t : FpTy) (v w : FVal) (n m : Bool),
    let nan : BitVec 5 → Rnd := fun fl => ⟨canon t.ty, fl⟩
    addVal t.ty (.inf n) (.inf !n) = nan 16
    ∧ mulVal t.ty (.inf n) (.zero m) = nan 16
    ∧ mulVal t.ty (.zero n) (.inf m) = nan 16
    ∧ fmaVal t.ty (.inf n) (.zero m) v = nan 16
    ∧ fmaVal t.ty (.zero n) (.inf m) v = nan 16
    ∧ addVal t.ty (.zero n) (.zero !n) = ⟨0, 0⟩
    ∧ addVal t.ty (.zero true) (.zero true) = ⟨2 ^ (width t.ty - 1), 0⟩
    ∧ (∀ q : Frac, q.num ≠ 0 → addVal t.ty (.fin q) (.fin q.neg) = ⟨0, 0⟩)
    ∧ addVal t.ty (.nan n) v = nan (if n = true ∨ v = .nan true then 16 else 0)
    ∧ addVal t.ty v (.nan n) = nan (if n = true ∨ v = .nan true then 16 else 0)
    ∧ mulVal t.ty (.nan n) v = nan (if n = true ∨ v = .nan true then 16 else 0)
    ∧ mulVal t.ty v (.nan n) = nan (if n = true ∨ v = .nan true then 16 else 0)
    ∧ (zeroInf v w = false → fmaVal t.ty v w (.nan n) = nan (if n = true ∨ v = .nan true ∨ w = .nan true then 16 else 0))
    ∧ fmaVal t.ty (.nan n) v w = nan (if n = true ∨ v = .nan true ∨ w = .nan true then 16 else 0)
    ∧ fmaVal t.ty v (.nan n) w = nan (if n = true ∨ v = .nan true ∨ w = .nan true then 16 else 0)
    ∧ (∀ q : Frac, mulVal t.ty (.zero n) (.fin q) = ⟨if n != q.isNeg then 2 ^ (width t.ty - 1) else 0, 0⟩)

/-- O10. FMIN, FMAX and the eight compare conditions on numbers, zeros and NaN. Rests on choices of the model: when a thread's results are
there (log 8). (spec/04_scalar_vector.md: Scalar floating point) -/
def Obligations.NumberWins : Prop :=
  ∀ (t : FpTy) (a b : Nat), a < 2 ^ width t.ty → b < 2 ^ width t.ty →
    let va := decode t.ty a
    let vb := decode t.ty b
    let sig : BitVec 5 := if va = .nan true ∨ vb = .nan true then 16 else 0
    let nanA := va = .nan true ∨ va = .nan false
    let nanB := vb = .nan true ∨ vb = .nan false
    let real : FVal → Frac := fun v => match v with
      | .fin q => q
      | _ => ⟨0, 1⟩
    let less : FVal → FVal → Prop := fun v w => match v, w with
      | .inf n, .inf m => n = true ∧ m = false
      | .inf n, _ => n = true
      | _, .inf m => m = false
      | v, w => (real v).num * (real w).den < (real w).num * (real v).den
    let answers : CmpC → Bool → Prop := fun c o => fpCmp t.ty c a b = (o, 0)
    (∀ mx : Bool,
      (nanA ∧ nanB → minMaxCode t.ty mx a b = ⟨canon t.ty, sig⟩)
      ∧ (nanA ∧ ¬ nanB → minMaxCode t.ty mx a b = ⟨b, sig⟩)
      ∧ (¬ nanA ∧ nanB → minMaxCode t.ty mx a b = ⟨a, sig⟩)
      ∧ (¬ nanA ∧ ¬ nanB → (minMaxCode t.ty mx a b).fl = 0
          ∧ ((minMaxCode t.ty mx a b).code = a ∨ (minMaxCode t.ty mx a b).code = b)))
    ∧ minMaxCode t.ty false (2 ^ (width t.ty - 1)) 0 = ⟨2 ^ (width t.ty - 1), 0⟩
    ∧ minMaxCode t.ty false 0 (2 ^ (width t.ty - 1)) = ⟨2 ^ (width t.ty - 1), 0⟩
    ∧ minMaxCode t.ty true (2 ^ (width t.ty - 1)) 0 = ⟨0, 0⟩
    ∧ minMaxCode t.ty true 0 (2 ^ (width t.ty - 1)) = ⟨0, 0⟩
    ∧ (nanA ∨ nanB → fpCmp t.ty .lt a b = (false, 16) ∧ fpCmp t.ty .le a b = (false, 16) ∧ fpCmp t.ty .eq a b = (false, sig))
    ∧ (nanA ∨ nanB → fpCmp t.ty .gt a b = (false, 16) ∧ fpCmp t.ty .ge a b = (false, 16) ∧ fpCmp t.ty .ne a b = (true, sig)
        ∧ fpCmp t.ty .un a b = (true, sig) ∧ fpCmp t.ty .or a b = (false, sig))
    ∧ (¬ nanA ∧ ¬ nanB →
        answers .un false ∧ answers .or true
        ∧ (less va vb → minMaxCode t.ty false a b = ⟨a, 0⟩ ∧ minMaxCode t.ty true a b = ⟨b, 0⟩
            ∧ answers .lt true ∧ answers .le true ∧ answers .gt false ∧ answers .ge false ∧ answers .eq false ∧ answers .ne true)
        ∧ (less vb va → minMaxCode t.ty false a b = ⟨b, 0⟩ ∧ minMaxCode t.ty true a b = ⟨a, 0⟩
            ∧ answers .lt false ∧ answers .le false ∧ answers .gt true ∧ answers .ge true ∧ answers .eq false ∧ answers .ne true)
        ∧ (¬ less va vb ∧ ¬ less vb va →
            answers .lt false ∧ answers .le true ∧ answers .gt false ∧ answers .ge true ∧ answers .eq true ∧ answers .ne false))
    ∧ fpCmp t.ty .eq 0 (2 ^ (width t.ty - 1)) = (true, 0)

/-- O11. RoundNE gives the nearest value of the type, ties to the even code, and no flag on an exact value. (spec/03_formats.md: Rounding) -/
def Obligations.RoundingIsNearest : Prop :=
  ∀ (t : Ty) (x : Frac), (t.isFloat = true ∧ t ≠ .e8m0) → 0 < x.den → x.num ≠ 0 → (round t .ne x).fl &&& 4 = 0 →
    let r := round t .ne x
    let y := r.code % 2 ^ (width t - 1)
    y ≤ maxFCode t
    ∧ r.code = (if x.isNeg && (y != 0 || hasNegZero t) then 2 ^ (width t - 1) + y else y)
    ∧ (∀ m ≤ maxFCode t, (Frac.dist x.abs (magVal t y)).le (Frac.dist x.abs (magVal t m)) = true)
    ∧ (∀ m ≤ maxFCode t, m ≠ y → (Frac.dist x.abs (magVal t y)).eq (Frac.dist x.abs (magVal t m)) = true → y % 2 = 0)
    ∧ r.fl = (if (magVal t y).eq x.abs then 0 else if x.abs.lt (magVal t (minNCode t)) then 3 else 1)

/-- O12. PSET and PLOG write a predicate. Rests on choices of the model: when a thread's results are there (log 8). (spec/04_scalar_vector.md: Predicates, spec/01_machine.md: When results become visible) -/
def Obligations.PredicateOps : Prop :=
  ∀ (s : State) (pd : Fin 8),
    (∀ (m : PsetMode) (e : Fin 4) (a : Opd), ∃ x : Pred,
      exec (.pset m e pd a) s = .next (s.withPred 1 pd x)
      ∧ ∀ i < 128, x.getLsbD i = (match m with
          | .all => decide (s.ri a ≠ 0)
          | .first => decide (BitVec.ofNat 64 (i / 2 ^ e.val) < s.ri a)
          | .bits => decide (i / 2 ^ e.val < 64) && (s.ri a).getLsbD (i / 2 ^ e.val)))
    ∧ (∀ pa pb : Fin 8,
      exec (.plog .and pd pa pb) s = .next (s.withPred 1 pd (s.rp pa &&& s.rp pb))
      ∧ exec (.plog .or pd pa pb) s = .next (s.withPred 1 pd (s.rp pa ||| s.rp pb))
      ∧ exec (.plog .xor pd pa pb) s = .next (s.withPred 1 pd (s.rp pa ^^^ s.rp pb))
      ∧ exec (.plog .andn pd pa pb) s = .next (s.withPred 1 pd (s.rp pa &&& ~~~s.rp pb))
      ∧ exec (.plog .orn pd pa pb) s = .next (s.withPred 1 pd (s.rp pa ||| ~~~s.rp pb))
      ∧ exec (.plog .not pd pa pb) s = .next (s.withPred 1 pd (~~~s.rp pa)))

/-- O13. SRD writes the special register it names, zero-extended. Rests on choices of the model: when a thread's results are there (log 8);
the slot order of reads (log 104); CYCLE 0 in the first cycle (log 105); PTIME of a die (logs 6, 82). (spec/01_machine.md: Special registers, spec/04_scalar_vector.md: Special-register access, spec/09_time_trace.md: Package time) -/
def Obligations.SpecialRegistersRead : Prop :=
  ∀ (s : State) (d : Fin 64),
    let reads : BitVec 12 → Word → Prop := fun n v => exec (.srd (.sx d) n) s = .next (s.withScalar 1 d v)
    let card := s.cardAt s.cur
    reads 0x012 (BitVec.ofNat 64 (Card.jobid card))
    ∧ reads 0x013 (BitVec.ofNat 64 (Card.part card))
    ∧ reads 0x014 (if Card.world card then 1 else 0)
    ∧ reads 0x010 (BitVec.ofNat 64 ((s.eng s.cur.dom).cycle s.ptime))
    ∧ reads 0x020 (BitVec.ofNat 64 (s.energyOf s.cur))
    ∧ reads 0x021 (s.eng s.cur.dom).freeze
    ∧ reads 0x043 (BitVec.ofNat 64 (s.cfg 0x10 8))
    ∧ (let die := Dom.die s.cur.dom
       let last := mget (0, 0) s.dieClock die
       (last.2 = s.ptime → reads 0x011 (BitVec.ofNat 64 last.1))
       ∧ (32 ≤ s.ptime → s.ptime < 2 ^ 63 → last.2 < s.ptime → last.1 ≤ last.2 + 32 →
         ∃ t : Nat,
           exec (.srd (.sx d) 0x011) s
             = .next (({ s with free := s.free + 1, dieClock := mset (0, 0) s.dieClock die (t, s.ptime) } : State).withScalar 1 d
                 (BitVec.ofNat 64 t))
           ∧ s.ptime ≤ t + 32 ∧ t ≤ s.ptime + 32 ∧ last.1 ≤ t ∧ (last.2 + 16 ≤ s.ptime → last.1 < t)))
    ∧ (match s.cur with
      | .core c _ =>
        let x := s.core c
        reads 0x000 (x.arch.fmt.setWidth 64)
        ∧ reads 0x001 (BitVec.ofNat 64 ((s.shape c).1 + (s.shape c).2 * 256))
        ∧ reads 0x002 (BitVec.ofNat 64 (x.fmapstat (s.shape c)))
        ∧ reads 0x003 (x.arch.suspect.setWidth 64)
        ∧ reads 0x004 (x.arch.fflags.setWidth 64)
        ∧ reads 0x015 (BitVec.ofNat 64 x.gpos)
        ∧ reads 0x022 (BitVec.ofNat 64 x.eng.granted)
        ∧ reads 0x030 (x.tcause.setWidth 64)
        ∧ reads 0x031 x.tpc
        ∧ reads 0x032 x.tval
        ∧ reads 0x035 (BitVec.ofNat 64 (x.gst + x.cpy * 2 ^ 9 + x.undoCount * 2 ^ 16 + (if x.ssat then 2 ^ 31 else 0)))
        ∧ reads 0x040 x.arch.rnga
        ∧ reads 0x041 x.arch.rngb
        ∧ reads 0x042 (x.arch.lutsel.setWidth 64)
        ∧ reads 0x044 (x.arch.drift.setWidth 64)
      | .thr t =>
        let x := s.thread t
        let g := s.group t.unit t.group
        reads 0x000 (x.fmt.setWidth 64)
        ∧ reads 0x004 (x.fflags.setWidth 64)
        ∧ reads 0x015 (BitVec.ofNat 64 (t.thread + g.idx * 2 ^ 16))
        ∧ reads 0x022 (BitVec.ofNat 64 g.granted)
        ∧ reads 0x030 (x.tcause.setWidth 64)
        ∧ reads 0x031 x.tpc
        ∧ reads 0x032 x.tval
        ∧ reads 0x033 x.tmask
        ∧ reads 0x034 g.thandler
        ∧ reads 0x035 (if g.ssat then 0x80000000 else 0)
        ∧ reads 0x040 x.rnga
        ∧ reads 0x041 x.rngb
        ∧ reads 0x042 (g.lutsel.setWidth 64)
        ∧ reads 0x044 (g.drift.setWidth 64))

/-- O14. SETFMT and SWR refuse an FMT value with an illegal field and keep FMT. (R112) -/
def Obligations.FmtWritesRefused : Prop :=
  ∀ (s : State) (a : Opd),
    let f : BitVec 32 := (s.ri a).setWidth 32
    let okTypes : List (BitVec 5) := [0x00, 0x04, 0x11, 0x12, 0x13, 0x14, 0x15, 0x16, 0x17, 0x18, 0x19]
    let refused : Prop := f.extractLsb' 0 5 ∉ okTypes ∨ f.extractLsb' 5 5 ∉ okTypes ∨ 2 ≤ (f.extractLsb' 10 2).toNat
      ∨ 4 ≤ (f.extractLsb' 12 3).toNat ∨ f.extractLsb' 24 8 ≠ 0
    (refused → exec (.swr 0x000 a) s = .next (s.takeTrap s.cur ⟨0x04, f.setWidth 64⟩)
      ∧ exec (.setfmt a) s = .next (s.takeTrap s.cur ⟨0x04, f.setWidth 64⟩))
    ∧ (¬ refused → match s.cur with
      | .core c _ =>
        let t := s.setCore c { s.core c with arch := { (s.core c).arch with fmtPend := (s.core c).arch.fmtPend ++ [(f, 4)] } }
        exec (.swr 0x000 a) s = .next t ∧ exec (.setfmt a) s = .next t
      | .thr u => exec (.swr 0x000 a) s = .next (s.setThread u { s.thread u with fmt := f, pc := (s.thread u).pc + 8 }))

/-- O15. SWR writes the special register it names, on a core, in a thread and in a group. Rests on choices of the model: the words of a
cycle in slot or lane order, the effects of its end withheld (log 2); SWR at the end of the cycle (log 134); the highest lane of a
group (log 69). (spec/04_scalar_vector.md: Special-register access, spec/01_machine.md: When results become visible) -/
def Obligations.SpecialRegistersWritten : Prop :=
  ∀ (s : State) (a : Opd),
    let v := s.ri a
    (∀ (c : Fin 32) (k : Fin 8), s.cur = .core c k →
      exec (.swr 0x042 a) s = .next (s.setCore c { s.core c with
        arch := { (s.core c).arch with lutPend := (s.core c).arch.lutPend ++ [(v.setWidth 2, 4)] } })
      ∧ (∀ n ∈ ([0x003, 0x004, 0x030, 0x031, 0x032, 0x035, 0x040, 0x041, 0x044] : List (BitVec 12)),
          exec (.swr n a) s = .next { s with deferred := s.deferred ++ [(s.cur, .swr n.toNat v)] })
      ∧ s.endEff c (.swr 0x003 v) = s.setCore c { s.core c with
          arch := { (s.core c).arch with suspect := (s.core c).arch.suspect &&& ~~~(v.setWidth 8) } }
      ∧ s.endEff c (.swr 0x004 v) = s.setCore c { s.core c with arch := { (s.core c).arch with fflags := v.setWidth 5 } }
      ∧ s.endEff c (.swr 0x030 v) = s.setCore c { s.core c with tcause := v.setWidth 8 }
      ∧ s.endEff c (.swr 0x031 v) = s.setCore c { s.core c with tpc := v }
      ∧ s.endEff c (.swr 0x032 v) = s.setCore c { s.core c with tval := v }
      ∧ s.endEff c (.swr 0x035 v) = s.setCore c { s.core c with ssat := (s.core c).ssat && !v.getLsbD 31 }
      ∧ s.endEff c (.swr 0x040 v) = s.setCore c { s.core c with arch := { (s.core c).arch with rnga := v } }
      ∧ s.endEff c (.swr 0x041 v) = s.setCore c { s.core c with arch := { (s.core c).arch with rngb := v } }
      ∧ s.endEff c (.swr 0x044 v) = s.setCore c { s.core c with arch := { (s.core c).arch with drift := v.setWidth 32 }, armed := [] })
    ∧ (∀ u : Tid, s.cur = .thr u →
      let x := s.thread u
      let on : Thread → Host.Outcome State Fault Refusal := fun y => .next (s.setThread u { y with pc := x.pc + 8 })
      exec (.swr 0x004 a) s = on { x with fflags := v.setWidth 5 }
      ∧ exec (.swr 0x030 a) s = on { x with tcause := v.setWidth 8 }
      ∧ exec (.swr 0x031 a) s = on { x with tpc := v }
      ∧ exec (.swr 0x032 a) s = on { x with tval := v }
      ∧ exec (.swr 0x040 a) s = on { x with rnga := v }
      ∧ exec (.swr 0x041 a) s = on { x with rngb := v }
      ∧ (∀ n ∈ ([0x034, 0x035, 0x042, 0x044] : List (BitVec 12)),
          let g := s.group u.unit u.group
          exec (.swr n a) s
            = .next ((s.setGroup u.unit u.group { g with staged := g.staged ++ [(u.thread, n.toNat, v)] }).setThread u
                { x with pc := x.pc + 8 }))
      ∧ (∀ g : Group,
          g.swr 0x034 v = { g with thandler := v }
          ∧ g.swr 0x035 v = { g with ssat := g.ssat && !v.getLsbD 31 }
          ∧ g.swr 0x042 v = { g with lutsel := v.setWidth 2 }
          ∧ g.swr 0x044 v = { g with drift := v.setWidth 32, armed := [] }))

/-- O16. RNGN steps the generator once, RNGJ advances it 2^k steps, RNGF writes the exact value q times 2^-p of a step. Rests on choices of
the model: when a thread's results are there (log 8); draws of one bundle in slot order (log 55). (spec/04_scalar_vector.md: The generator) -/
def Obligations.GeneratorOps : Prop :=
  ∀ (s : State) (d : Fin 64),
    let a := s.gen.1
    let b := s.gen.2
    let t := a ^^^ (a <<< 23)
    let n := t ^^^ b ^^^ (t >>> 17) ^^^ (b >>> 26)
    exec (.rngn (.sx d)) s = .next ((s.setGen (b, n)).withScalar 1 d (n + b))
    ∧ (∀ k : Fin 128, let g := genSteps (2 ^ k.val) s.gen; exec (.rngj (.sx d) (.imm k)) s = .next ((s.setGen g).withScalar 8 d g.1))
    ∧ (∀ o : Opd, let g := genSteps (2 ^ ((s.ri o).toNat % 128)) s.gen
        exec (.rngj (.sx d) (.reg o)) s = .next ((s.setGen g).withScalar 8 d g.1))
    ∧ (∀ ty : FpTy,
        let r := genStep a b
        let p : Nat := match ty with
          | .f32 => 24
          | .f16 => 11
          | .bf16 => 8
        let q := (r.1 >>> (64 - p)).toNat
        ∃ code : Nat,
          exec (.rngf ty (.sx d)) s = .next ((s.setGen r.2).withScalar 4 d (BitVec.ofNat 64 code))
          ∧ (q = 0 → code = 0)
          ∧ (q ≠ 0 → ∃ x : Frac, decode ty.ty code = .fin x ∧ x.num * (2 ^ p : Nat) = q * (x.den : Int)))

/-- O17. Element-wise integer vector ops write each active element and keep every other bit. (spec/04_scalar_vector.md: Vector operations, spec/01_machine.md: Bundle-form state) -/
def Obligations.VectorIntegerElements : Prop :=
  ∀ (s : State) (v : VHdr) (d : Fin 64) (a b : Opd),
    let w := vw v.ty
    let n := v.w.bits / w
    let m := width v.ty
    let x : Nat → Nat := s.elemAt v.ty a
    let y : Nat → Nat := s.elemAt v.ty b
    let xi : Nat → Int := fun j => if v.ty.isSigned then (BitVec.ofNat m (x j)).toInt else x j
    let yi : Nat → Int := fun j => if v.ty.isSigned then (BitVec.ofNat m (y j)).toInt else y j
    let clip : Int → Nat := fun r => ofInt m (if v.sat then max (minI v.ty) (min (maxI v.ty) r) else r)
    let on : Nat → Bool := fun j => (s.rp v.p).getLsbD (w * j / 8)
    let elems : (Nat → Nat) → Nat → Option Nat := fun f j => if on j then some (f j) else none
    (v.ty.isInt = true →
      VecStep (.vadd v (.vec d) a b) s 2 d w n (elems fun j => clip (xi j + yi j)) 0
      ∧ VecStep (.vsub v (.vec d) a b) s 2 d w n (elems fun j => clip (xi j - yi j)) 0
      ∧ VecStep (.vmul v (.vec d) a b) s 3 d w n (elems fun j => clip (xi j * yi j)) 0
      ∧ VecStep (.vmulh v (.vec d) a b) s 3 d w n (elems fun j => ofInt m (xi j * yi j / 2 ^ m)) 0
      ∧ VecStep (.vmin v (.vec d) a b) s 2 d w n (elems fun j => ofInt m (min (xi j) (yi j))) 0
      ∧ VecStep (.vmax v (.vec d) a b) s 2 d w n (elems fun j => ofInt m (max (xi j) (yi j))) 0
      ∧ VecStep (.vabs v (.vec d) a) s 2 d w n (elems fun j => clip (xi j).natAbs) 0
      ∧ VecStep (.vand v (.vec d) a b) s 2 d w n (elems fun j => x j &&& y j) 0
      ∧ VecStep (.vor v (.vec d) a b) s 2 d w n (elems fun j => x j ||| y j) 0
      ∧ VecStep (.vxor v (.vec d) a b) s 2 d w n (elems fun j => x j ^^^ y j) 0
      ∧ VecStep (.vshl v (.vec d) a b) s 2 d w n (elems fun j => clip (xi j * 2 ^ (y j % m))) 0
      ∧ VecStep (.vshr v (.vec d) a b) s 2 d w n (elems fun j => x j >>> (y j % m)) 0
      ∧ VecStep (.vsra v (.vec d) a b) s 2 d w n (elems fun j => ofInt m ((BitVec.ofNat m (x j)).toInt / 2 ^ (y j % m))) 0
      ∧ VecStep (.vpcnt v (.vec d) a) s 2 d w n (elems fun j => (List.range m).countP fun i => (x j).testBit i) 0)
    ∧ VecStep (.vmov v (.vec d) a) s 2 d w n (elems x) 0
    ∧ (∀ (h : Bool) (c : Fin 32) (k : Fin 8), s.cur = .core c k → exec (.vnop h) s = .next s)

/-- O18. Element-wise floating-point vector ops and VCVT. Rests on choices of the model: which conversions narrow (log 53); draws of one
bundle in slot order (log 55). (spec/04_scalar_vector.md: Vector operations, spec/03_formats.md: Stochastic rounding) -/
def Obligations.VectorFloatingElements : Prop :=
  ∀ (s : State) (v : VHdr) (d : Fin 64) (a b : Opd),
    let w := vw v.ty
    let n := v.w.bits / w
    let x : Nat → FVal := fun j => decode v.ty (s.elemAt v.ty a j)
    let y : Nat → FVal := fun j => decode v.ty (s.elemAt v.ty b j)
    let z : Nat → FVal := fun j => decode v.ty (s.elemAt v.ty (.vec d) j)
    let on : Nat → Bool := fun j => (s.rp v.p).getLsbD (w * j / 8)
    let step : Instr → State → Nat → Nat → (Nat → Rnd) → Prop := fun i s' lat n f =>
      ∀ (c : Fin 32) (k : Fin 8), s.cur = .core c k →
        ∃ mask q : Vec,
          exec i s = .next (s'.setCore c { s'.core c with flight := (s'.core c).flight ++
            ((lat, .vreg d mask q) :: if orFlags n on (fun j => (f j).fl) = 0 then [] else [(lat, .flags (orFlags n on fun j => (f j).fl))]) })
          ∧ ∀ (old : Vec) (j : Nat), w * (j + 1) ≤ 1024 →
              vecElem (underMask old mask q) w j = if j < n ∧ on j = true then (f j).code % 2 ^ w else vecElem old w j
    (v.ty.isFp = true →
      step (.vfadd v (.vec d) a b) s 4 n (fun j => addVal v.ty (x j) (y j))
      ∧ step (.vfsub v (.vec d) a b) s 4 n (fun j => addVal v.ty (x j) (y j).neg)
      ∧ step (.vfmul v (.vec d) a b) s 5 n (fun j => mulVal v.ty (x j) (y j))
      ∧ step (.vfma v (.vec d) a b) s 5 n (fun j => fmaVal v.ty (x j) (y j) (z j))
      ∧ step (.vfmin v (.vec d) a b) s 4 n (fun j => minMaxCode v.ty false (s.elemAt v.ty a j) (s.elemAt v.ty b j))
      ∧ step (.vfmax v (.vec d) a b) s 4 n (fun j => minMaxCode v.ty true (s.elemAt v.ty a j) (s.elemAt v.ty b j))
      ∧ step (.vabs v (.vec d) a) s 2 n (fun j => fpSgn v.ty .abs (s.elemAt v.ty a j) 0))
    ∧ (∀ t1 : Ty,
      let n := v.w.bits / max (vw t1) w
      let e : Nat → Nat := s.elemAt t1 a
      let stoch := s.fmt.getLsbD 17 && !v.ty.isInt && narrowing t1 v.ty
      (t1.isInt = true ∧ v.ty.isInt = true → step (.vcvt v t1 (.vec d) a) s 4 n (fun j =>
        ⟨ofInt (width v.ty) (if v.sat then max (minI v.ty) (min (maxI v.ty) (elemInt t1 (e j))) else elemInt t1 (e j)), 0⟩))
      ∧ (¬ (t1.isInt = true ∧ v.ty.isInt = true) → stoch = false → step (.vcvt v t1 (.vec d) a) s 4 n (fun j =>
        convert v.ty (rmodeOf (s.fmt.extractLsb' 15 2).toNat) (decode t1 (e j))))
      ∧ (stoch = true →
        let draws := s.genDraws ((n + 1) / 2)
        step (.vcvt v t1 (.vec d) a) draws.2 4 n (fun j =>
          roundStoch v.ty (decode t1 (e j)) ((draws.1.getD (j / 2) 0).toNat / 2 ^ (32 * (j % 2)) % 2 ^ 32))))

/-- O19. VCMP and VFCMP set all predicate bits of each active element to the outcome. (spec/04_scalar_vector.md: Vector operations, spec/04_scalar_vector.md: Predicates) -/
def Obligations.VectorCompares : Prop :=
  ∀ (s : State) (v : VHdr) (pd : Fin 8) (a b : Opd) (cc : CmpC) (c : Fin 32) (k : Fin 8), s.cur = .core c k →
    let w := vw v.ty
    let n := v.w.bits / w
    let x : Nat → Nat := s.elemAt v.ty a
    let y : Nat → Nat := s.elemAt v.ty b
    let on : Nat → Bool := fun j => (s.rp v.p).getLsbD (w * j / 8)
    let put : Instr → Nat → (Nat → Bool) → BitVec 5 → Prop := fun i lat out fl =>
      ∃ mask q : Pred,
        exec i s = .next (if pd = 0 ∧ fl = 0 then s else s.setCore c { s.core c with flight := (s.core c).flight ++
          ((if pd = 0 then [] else [(lat, .preg pd mask q)]) ++ if fl = 0 then [] else [(lat, .flags fl)]) })
        ∧ ∀ (old : Pred) (i : Nat), i < 128 → (underMask old mask q).getLsbD i =
            if 8 * i / w < n ∧ on (8 * i / w) = true then out (8 * i / w) else old.getLsbD i
    (v.ty.isInt = true →
      (cc = .eq → put (.vcmp v cc pd a b) 2 (fun j => elemInt v.ty (x j) == elemInt v.ty (y j)) 0)
      ∧ (cc = .ne → put (.vcmp v cc pd a b) 2 (fun j => elemInt v.ty (x j) != elemInt v.ty (y j)) 0)
      ∧ (cc = .lt → put (.vcmp v cc pd a b) 2 (fun j => decide (elemInt v.ty (x j) < elemInt v.ty (y j))) 0)
      ∧ (cc = .le → put (.vcmp v cc pd a b) 2 (fun j => decide (elemInt v.ty (x j) ≤ elemInt v.ty (y j))) 0)
      ∧ (cc = .gt → put (.vcmp v cc pd a b) 2 (fun j => decide (elemInt v.ty (x j) > elemInt v.ty (y j))) 0)
      ∧ (cc = .ge → put (.vcmp v cc pd a b) 2 (fun j => decide (elemInt v.ty (x j) ≥ elemInt v.ty (y j))) 0))
    ∧ (v.ty.isFp = true →
      put (.vfcmp v cc pd a b) 4 (fun j => (fpCmp v.ty cc (x j) (y j)).1) (orFlags n on fun j => (fpCmp v.ty cc (x j) (y j)).2))

/-- O20. Vector data movement: VSEL, VSPLAT, VEXT, VINS, VPERM, VSLIDE, VZIP, VUNZIP, VCPRS, VIOTA. Rests on choices of the model: the
words of a cycle in slot or lane order, the effects of its end withheld (log 2). (spec/04_scalar_vector.md: Vector operations) -/
def Obligations.VectorDataMovement : Prop :=
  ∀ (s : State) (v : VHdr) (d : Fin 64) (a b : Opd),
    let w := vw v.ty
    let n := v.w.bits / w
    let m := width v.ty
    let x : Nat → Nat := s.elemAt v.ty a
    let y : Nat → Nat := s.elemAt v.ty b
    let sa : Nat := (s.rd v.ty a).toNat % 2 ^ m
    let k : Nat := (s.ri b).toNat % n
    let at' : Nat → Int := fun j => (j : Int) + (s.ri b).toInt
    let on : Nat → Bool := fun j => (s.rp v.p).getLsbD (w * j / 8)
    let act := (List.range n).filter on
    let elems : (Nat → Nat) → Nat → Option Nat := fun f j => if on j then some (f j) else none
    VecStep (.vsel v (.vec d) a b) s 2 d w n (fun j => some (if on j then x j else y j)) 0
    ∧ VecStep (.vsplat v (.vec d) a) s 2 d w n (elems fun _ => sa) 0
    ∧ VecStep (.vins v (.vec d) a b) s 2 d w n (fun j => if j = k ∧ on j = true then some sa else none) 0
    ∧ VecStep (.vperm v (.vec d) a b) s 2 d w n (elems fun j => x (y j % n)) 0
    ∧ VecStep (.vslide v (.vec d) a b) s 2 d w n (elems fun j => if 0 ≤ at' j ∧ at' j < n then x (at' j).toNat else 0) 0
    ∧ VecStep (.vzip v (.vec d) a b) s 2 d w n (elems fun j => if j % 2 = 0 then x (j / 2) else y (j / 2)) 0
    ∧ VecStep (.vunzip v (.vec d) a b) s 2 d w n (elems fun j => if j < n / 2 then x (2 * j) else y (2 * (j - n / 2))) 0
    ∧ VecStep (.vcprs v (.vec d) a) s 2 d w n (fun j => (act[j]?).map x) 0
    ∧ (v.ty.isInt = true → VecStep (.viota v (.vec d)) s 2 d w n (fun j => some (((List.range j).countP on) % 2 ^ m)) 0)
    ∧ (∀ (c : Fin 32) (q : Fin 8), s.cur = .core c q →
      exec (.vext v (.sx d) a b) s = .next (if on k then s.withScalar 2 d
          (if v.ty.isSigned then (BitVec.ofNat m (x k)).signExtend 64 else BitVec.ofNat 64 (x k)) else s))

/-- O21. VDOT4, VACCRD and VACCWR. (spec/04_scalar_vector.md: Vector operations, spec/05_matrix.md: Accumulator tiles) -/
def Obligations.DotProductsAndTileRows : Prop :=
  ∀ (s : State) (v : VHdr) (d : Fin 64) (a b : Opd),
    let n := v.w.bits / 32
    let on : Nat → Bool := fun j => (s.rp v.p).getLsbD (4 * j)
    let row := (s.ri b).toNat % 32
    (v.ty = .i8 ∨ v.ty = .n8 →
      let t32 : Ty := if v.ty = .i8 then .i32 else .n32
      let byte : Opd → Nat → Int := fun o j => elemInt v.ty (vecElem (s.rv v.ty o) 8 j)
      let sum : Nat → Int := fun j => elemInt t32 (vecElem (s.rv v.ty (.vec d)) 32 j) + byte a (4 * j) * byte b (4 * j)
        + byte a (4 * j + 1) * byte b (4 * j + 1) + byte a (4 * j + 2) * byte b (4 * j + 2) + byte a (4 * j + 3) * byte b (4 * j + 3)
      VecStep (.vdot4 v (.vec d) a b) s 5 d 32 n
        (fun j => if on j then some (ofInt 32 (if v.sat then max (minI t32) (min (maxI t32) (sum j)) else sum j)) else none) 0)
    ∧ (v.ty = .i32 ∨ v.ty = .n32 ∨ v.ty = .f32 → ∀ t : Fin 16,
      VecStep (.vaccrd v (.vec d) (.acc t) b) s 3 d 32 n
        (fun j => if on j then some ((s.tileCur t).getD (32 * row + j) 0).toNat else none) 0
      ∧ (∀ (c : Fin 32) (k : Fin 8), s.cur = .core c k →
        exec (.vaccwr v (.acc t) a b) s = .next (s.setCore c { s.core c with flight := (s.core c).flight ++
          [(3, .acc t (((List.range n).filter on).map fun j => (32 * row + j, BitVec.ofNat 32 (vecElem (s.rv v.ty a) 32 j))))] })))

/-- O22. RDADD, RDMAX and RDMIN: the value over the active elements, and how it enters a latch. (spec/04_scalar_vector.md: Reduction latches) -/
def Obligations.ReductionsIntoLatches : Prop :=
  ∀ (s : State) (v : VHdr) (ps : Fin 4) (a : Opd) (c : Fin 32) (k : Fin 8), s.cur = .core c k →
    let w := vw v.ty
    let n := v.w.bits / w
    let on : Nat → Bool := fun j => (s.rp v.p).getLsbD (w * j / 8)
    let xi : Nat → Int := fun j => elemInt v.ty (s.elemAt v.ty a j)
    let vals := ((List.range n).filter on).map xi
    let codes := (List.range n).map fun j => if on j then some ((latchElem v.ty (s.elemAt v.ty a j) : Nat) : Int) else none
    let put : Nat → Option Int → BitVec 5 → State := fun op r fl => match r with
      | none => s
      | some x => s.setCore c { s.core c with flight := (s.core c).flight ++
          ((6, .latch ps.val op v.ty v.sat x) :: if fl = 0 then [] else [(6, .flags fl)]) }
    (v.ty.isInt = true →
      exec (.rdadd v ps a) s = .next (put 0 (if vals = [] then none else some vals.sum) 0)
      ∧ exec (.rdmax v ps a) s = .next (put 1 vals.max? 0)
      ∧ exec (.rdmin v ps a) s = .next (put 2 vals.min? 0))
    ∧ (v.ty.isFp = true →
      exec (.rdadd v ps a) s = .next (put 0 (tree 0 true (Nat.log2 n) codes).1 (tree 0 true (Nat.log2 n) codes).2)
      ∧ exec (.rdmax v ps a) s = .next (put 1 (tree 1 true (Nat.log2 n) codes).1 (tree 1 true (Nat.log2 n) codes).2)
      ∧ exec (.rdmin v ps a) s = .next (put 2 (tree 2 true (Nat.log2 n) codes).1 (tree 2 true (Nat.log2 n) codes).2))
    ∧ (∀ (x : Core) (ty : Ty) (sat : Bool) (r : Int), ty.isInt = true →
      let old : Option Word := mget none x.arch.ps ps
      let num : Word → Int := fun l => if ty.isSigned then l.toInt else l.toNat
      let lo : Int := if ty.isSigned then -(2 ^ 63) else 0
      let hi : Int := if ty.isSigned then 2 ^ 63 - 1 else 2 ^ 64 - 1
      let fit : Int → Word := fun y => BitVec.ofInt 64 (if sat then max lo (min hi y) else y)
      let set : Word → Core := fun l => { x with arch := { x.arch with ps := mset none x.arch.ps ps (some l) } }
      x.land (.latch ps.val 0 ty sat r) = set (fit (match old with
        | none => r
        | some l => num l + r))
      ∧ x.land (.latch ps.val 1 ty sat r) = set (fit (match old with
        | none => r
        | some l => max (num l) r))
      ∧ x.land (.latch ps.val 2 ty sat r) = set (fit (match old with
        | none => r
        | some l => min (num l) r)))
    ∧ (∀ (x : Core) (ty : Ty) (sat : Bool) (code : Nat), ty.isFp = true → code < 2 ^ 32 →
      let fit : Rnd := match decode .f32 code with
        | .nan g => ⟨0x7FC00000, if g then 16 else 0⟩
        | _ => ⟨code, 0⟩
      let q : (Nat → Nat → Rnd) → Rnd := fun f => match mget none x.arch.ps ps with
        | none => fit
        | some l => f (l.toNat % 2 ^ 32) code
      let set : Rnd → Core := fun r => { x with
        arch := { x.arch with ps := mset none x.arch.ps ps (some (BitVec.ofNat 64 r.code)), fflags := x.arch.fflags ||| r.fl } }
      x.land (.latch ps.val 0 ty sat (code : Nat)) = set (q (fpAdd .f32))
      ∧ x.land (.latch ps.val 1 ty sat (code : Nat)) = set (q (minMaxCode .f32 true))
      ∧ x.land (.latch ps.val 2 ty sat (code : Nat)) = set (q (minMaxCode .f32 false)))

/-- O23. RDMOV moves a latch out and empties it. (spec/04_scalar_vector.md: Reduction latches) -/
def Obligations.LatchesRead : Prop :=
  ∀ (s : State) (v : VHdr) (d : Fin 64) (ps : Fin 4) (c : Fin 32) (k : Fin 8), s.cur = .core c k →
    v.ty = .i32 ∨ v.ty = .n32 ∨ v.ty = .i64 ∨ v.ty = .n64 ∨ v.ty = .f32 →
    let x : Word := (mget none (s.core c).arch.ps ps).getD 0
    let t := s.setCore c { s.core c with arch := { (s.core c).arch with ps := mset none (s.core c).arch.ps ps none } }
    exec (.rdmov v (.sx d) ps) s = .next (t.withScalar 2 d
        (if v.ty = .i32 then (x.setWidth 32).signExtend 64 else if v.ty = .n32 ∨ v.ty = .f32 then (x.setWidth 32).setWidth 64 else x))
    ∧ ((s.rp v.p).getLsbD 0 = false → exec (.rdmov v (.vec d) ps) s = .next t)
    ∧ ((s.rp v.p).getLsbD 0 = true → ∃ mask q : Vec,
        exec (.rdmov v (.vec d) ps) s
          = .next (t.setCore c { t.core c with flight := (t.core c).flight ++ [(2, .vreg d mask q)] })
        ∧ ∀ (old : Vec) (j : Nat), width v.ty * (j + 1) ≤ 1024 →
            vecElem (underMask old mask q) (width v.ty) j = if j = 0 then x.toNat % 2 ^ width v.ty else vecElem old (width v.ty) j)

/-- O24. FRCP to FSIGM, FDIV and FLUT apply a function of one value: eight elements of a core, one source of a thread. Rests on choices of
the model: when a thread's results are there (log 8); how the rounded values are computed (log 58); t at -0 (log 132). (spec/04_scalar_vector.md: Special functions, spec/04_scalar_vector.md: Activation tables) -/
def Obligations.SpecialFunctions : Prop :=
  ∀ (s : State) (h : Bool) (p : Fin 8) (d : Fin 64) (a b : Opd),
    let on : Nat → Bool := fun j => (s.rp p).getLsbD (4 * j)
    let x : Nat → Nat := s.elemAt .f32 a
    let y : Nat → Nat := s.elemAt .f32 b
    let vec : Instr → (Nat → Rnd) → Prop := fun i f =>
      VecStep i s 8 d 32 8 (fun j => if on j then some (f j).code else none) (orFlags 8 on fun j => (f j).fl)
    let thr : Instr → Rnd → Prop := fun i r => ∀ u : Tid, s.cur = .thr u → FpStep i s 8 d r
    let both : (Opd → Opd → Instr) → (FVal → Rnd) → Prop := fun i f =>
      vec (i (.vec d) a) (fun j => f (decode .f32 (x j))) ∧ thr (i (.sx d) a) (f (decode .f32 ((s.rd .f32 a).toNat % 2 ^ 32)))
    both (.frcp h p) sfRcp
    ∧ both (.frsq h p) sfRsq
    ∧ both (.fsqrt h p) sfSqrt
    ∧ both (.fexp2 h p) sfExp2
    ∧ both (.flog2 h p) sfLog2
    ∧ both (.fsin h p) sfSin
    ∧ both (.fcos h p) sfCos
    ∧ both (.ftanh h p) sfTanh
    ∧ both (.fsigm h p) sfSigm
    ∧ vec (.fdiv h p (.vec d) a b) (fun j => sfDiv (decode .f32 (x j)) (decode .f32 (y j)))
    ∧ thr (.fdiv h p (.sx d) a b) (sfDiv (decode .f32 ((s.rd .f32 a).toNat % 2 ^ 32)) (decode .f32 ((s.rd .f32 b).toNat % 2 ^ 32)))
    ∧ vec (.flut h p (.vec d) a) (fun j => flutWith s.activeTable (x j))
    ∧ thr (.flut h p (.sx d) a) (flutWith s.activeTable ((s.rd .f32 a).toNat % 2 ^ 32))
    ∧ (∀ z : Nat, flutWith none z = ⟨0x7FC00000, 16⟩)

/-- O25. The special functions at special values and points; FDIV, FRCP and exact roots at all finite operands. Rests on choices of the
model: how the rounded values are computed (log 58). (spec/04_scalar_vector.md: Special functions) -/
def Obligations.SpecialFunctionTable : Prop :=
  let nan : Rnd := ⟨0x7FC00000, 16⟩
  let inf : Bool → FVal := .inf
  let zero : Bool → FVal := .zero
  let at' : (FVal → Rnd) → Rnd → Rnd → Rnd → Rnd → Prop := fun f a b c d =>
    f (inf true) = a ∧ f (zero true) = b ∧ f (zero false) = c ∧ f (inf false) = d
      ∧ f (.nan true) = nan ∧ f (.nan false) = ⟨0x7FC00000, 0⟩
  at' sfRcp ⟨0x80000000, 0⟩ ⟨0xFF800000, 8⟩ ⟨0x7F800000, 8⟩ ⟨0, 0⟩
  ∧ at' sfRsq nan ⟨0xFF800000, 8⟩ ⟨0x7F800000, 8⟩ ⟨0, 0⟩
  ∧ at' sfSqrt nan ⟨0x80000000, 0⟩ ⟨0, 0⟩ ⟨0x7F800000, 0⟩
  ∧ at' sfExp2 ⟨0, 0⟩ ⟨0x3F800000, 0⟩ ⟨0x3F800000, 0⟩ ⟨0x7F800000, 0⟩
  ∧ at' sfLog2 nan ⟨0xFF800000, 8⟩ ⟨0xFF800000, 8⟩ ⟨0x7F800000, 0⟩
  ∧ at' sfSin nan ⟨0x80000000, 0⟩ ⟨0, 0⟩ nan
  ∧ at' sfCos nan ⟨0x3F800000, 0⟩ ⟨0x3F800000, 0⟩ nan
  ∧ at' sfTanh ⟨0xBF800000, 0⟩ ⟨0x80000000, 0⟩ ⟨0, 0⟩ ⟨0x3F800000, 0⟩
  ∧ at' sfSigm ⟨0, 0⟩ ⟨0x3F000000, 0⟩ ⟨0x3F000000, 0⟩ ⟨0x3F800000, 0⟩
  ∧ (∀ n m : Bool, sfDiv (zero n) (zero m) = nan ∧ sfDiv (inf n) (inf m) = nan)
  ∧ (∀ (q : Frac) (m : Bool), sfDiv (.fin q) (zero m) = ⟨if q.isNeg != m then 0xFF800000 else 0x7F800000, 8⟩)
  ∧ (∀ q : Frac, q.num < 0 → sfRsq (.fin q) = nan ∧ sfSqrt (.fin q) = nan ∧ sfLog2 (.fin q) = nan)
  ∧ (∀ (q : Frac) (n m : Bool), sfDiv (inf n) (.fin q) = ⟨if n != q.isNeg then 0xFF800000 else 0x7F800000, 0⟩
      ∧ sfDiv (.fin q) (inf n) = ⟨if q.isNeg != n then 0x80000000 else 0, 0⟩
      ∧ sfDiv (zero n) (.fin q) = ⟨if n != q.isNeg then 0x80000000 else 0, 0⟩
      ∧ sfDiv (zero n) (inf m) = ⟨if n != m then 0x80000000 else 0, 0⟩
      ∧ sfDiv (inf n) (zero m) = ⟨if n != m then 0xFF800000 else 0x7F800000, 0⟩)
  ∧ (∀ x y : Frac, 0 < x.den → 0 < y.den → x.num ≠ 0 → y.num ≠ 0 →
      sfDiv (.fin x) (.fin y)
        = round .f32 .ne ⟨if y.num < 0 then -(x.num * y.den) else x.num * y.den, x.den * y.num.natAbs⟩
      ∧ sfRcp (.fin y) = round .f32 .ne ⟨if y.num < 0 then -(y.den : Int) else y.den, y.num.natAbs⟩)
  ∧ (∀ n k : Nat, 0 < n → k ≤ 400 → sfSqrt (.fin ⟨(n * n : Nat), 4 ^ k⟩) = round .f32 .ne ⟨n, 2 ^ k⟩)
  ∧ sfSqrt (.fin ⟨4, 1⟩) = ⟨0x40000000, 0⟩ ∧ sfExp2 (.fin ⟨3, 1⟩) = ⟨0x41000000, 0⟩
  ∧ sfLog2 (.fin ⟨8, 1⟩) = ⟨0x40400000, 0⟩ ∧ sfRcp (.fin ⟨2, 1⟩) = ⟨0x3F000000, 0⟩

/-- O26. LUTLD refuses a bound slot, then a bad address or image, and else loads the whole table; LUTSEL selects. Rests on choices of the
model: when a thread's results are there (log 8); one access of 1,600 bytes and its address type (log 133). (spec/04_scalar_vector.md: Activation tables, spec/12_recovery.md: Pre-emption save and restore) -/
def Obligations.ActivationTableLoads : Prop :=
  ∀ (s : State) (d : Fin 64) (a : Opd) (n : Fin 4),
    let addr := (s.rn a).toNat
    let slot := s.lutAt s.cur.dom n
    let other : Prop := ∃ z, slot = some z ∧ z.owner.isSome = true ∧ z.owner ≠ s.lutOwner s.cur
    let status : State → Nat → State := fun t x => match t.cur with
      | .core c _ => t.setCore c { t.core c with
          sb := (t.core c).sb ++ [⟨if d = 0 then [] else [.sreg d (BitVec.ofNat 64 x)], false, none⟩] }
      | .thr _ => t.withScalar 0 d (BitVec.ofNat 64 x)
    (other → exec (.lutld (.sx d) a n) s = .next (status s 1))
    ∧ (¬ other → addr % 64 ≠ 0 → exec (.lutld (.sx d) a n) s = .next (status s 2))
    ∧ (¬ other → addr % 64 = 0 → ∀ (bs : List Byte) (t : State), s.load (s.ctx s.cur) addr 1600 64 = .ok (bs, t) →
      let bad : Prop := fieldAt bs 0 4 ≠ 0x42544C41 ∨ fieldAt bs 4 2 ≠ 1 ∨ fieldAt bs 6 2 ≠ 0
        ∨ isNonfin (decode .f32 (fieldAt bs 8 4)) = true ∨ isNonfin (decode .f32 (fieldAt bs 12 4)) = true
        ∨ isZeroVal (decode .f32 (fieldAt bs 12 4)) = true ∨ (decode .f32 (fieldAt bs 12 4)).isNeg = true ∨ fieldAt bs 16 48 ≠ 0
      (bad → exec (.lutld (.sx d) a n) s = .next (status t 2))
      ∧ (¬ bad → ∀ (c : Fin 32) (k : Fin 8), s.cur = .core c k → exec (.lutld (.sx d) a n) s
          = .next (status { t with deferred := t.deferred ++ [(t.cur, .lutld n bs)] } 0))
      ∧ (¬ bad → ∀ u : Tid, s.cur = .thr u →
          let x := t.thread u
          (∀ l : List Busy, d ≠ 0 → x.busy = l ++ [⟨[d.val], none⟩] →
            exec (.lutld (.sx d) a n) s = .next (status (t.setThread u { x with busy := l ++ [⟨[d.val], some (n.val, bs)⟩] }) 0))
          ∧ ((d = 0 ∨ ∀ (l : List Busy) (b : Busy), x.busy = l ++ [b] → b.regs ≠ [d.val] ∨ b.lut ≠ none) →
            exec (.lutld (.sx d) a n) s = .next (status (t.modEng (.unit u.unit) fun e =>
              { e with luts := minsert (merase e.luts n) n ⟨some (.group u.group), bs⟩ }) 0))))
    ∧ (∀ (u : Tid) (l r : List Busy) (b : Busy), (s.thread u).busy = l ++ b :: r →
      let t : State := match b.lut with
        | some (k, bs) => s.modEng (.unit u.unit) fun e => { e with luts := minsert (merase e.luts k) k ⟨some (.group u.group), bs⟩ }
        | none => s
      exec (.scoreboardResultLand (.thread u l.length)) s = .next (t.setThread u { t.thread u with busy := l ++ r }))
    ∧ (¬ other → addr % 64 = 0 → ∀ f : Fail, s.load (s.ctx s.cur) addr 1600 64 = .error f →
      exec (.lutld (.sx d) a n) s = .next (f.st.takeTrap f.st.cur f.trap))
    ∧ (∀ (c : Fin 32) (k : Fin 8), s.cur = .core c k → exec (.lutsel n) s = .next (s.setCore c
        { s.core c with arch := { (s.core c).arch with lutPend := (s.core c).arch.lutPend ++ [(BitVec.ofNat 2 n, 4)] } }))
    ∧ (∀ u : Tid, s.cur = .thr u → exec (.lutsel n) s = .next ((s.setGroup u.unit u.group
        { s.group u.unit u.group with staged := (s.group u.unit u.group).staged ++ [(u.thread, 0x042, BitVec.ofNat 64 n)] }).setThread u
          { s.thread u with pc := (s.thread u).pc + 8 }))

/-- O27. MMA: its checks in order, and its issue as one tile result. Rests on choices of the model: panels read at issue (log 11). (spec/05_matrix.md: MMA, spec/05_matrix.md: Formats an MMA accepts, spec/05_matrix.md: Operand panels) -/
def Obligations.MmaChecksAndIssue : Prop :=
  ∀ (s : State) (h cz sat : Bool) (d ct : Fin 16) (a b : Opd) (c : Fin 32) (k : Fin 8), s.cur = .core c k →
    let x := s.core c
    let m := mmaFmt x.arch.fmt
    let i : Instr := .mma h cz sat (.acc d) a b ct
    let int8 : List Ty := [.i8, .n8]
    let half : List Ty := [.f16, .bf16]
    let byte : List Ty := [.e4m3, .e5m2, .e3m2, .e2m3, .m8, .m6]
    let listed : Prop :=
      (m.f32 = false ∧ m.a ∈ int8 ∧ m.b ∈ int8 ∧ m.sa = false ∧ m.sb = false)
      ∨ (m.f32 = true ∧ m.a ∈ half ∧ m.b ∈ half ∧ m.sa = false ∧ m.sb = false)
      ∨ (m.f32 = true ∧ (m.a ∈ byte ∨ m.a = .i8 ∧ m.sa = true) ∧ (m.b ∈ byte ∨ m.b = .i8 ∧ m.sb = true))
      ∨ (m.f32 = true ∧ m.a = .e2m1 ∧ m.b = .e2m1)
    let peer : Word → Nat := fun p => if p.getLsbD 24 then c.val / 8 * 8 + (p.extractLsb' 21 3).toNat else c
    let off : Word → Nat := fun p => (p.extractLsb' 0 21).toNat
    let good : Word → Bool → Prop := fun p sc =>
      p.extractLsb' 25 39 = 0 ∧ off p % 64 = 0 ∧ (p.getLsbD 24 = true → (s.core (peer p)).job = x.job)
        ∧ off p + (if sc then 2176 else 2048) ≤ (s.core (peer p)).scratchSize
    let tval : Word → Word → Word := fun p side =>
      (p &&& 0x1FFFFFF) + side + (if p.extractLsb' 25 39 = 0 then 0 else 0x200000000)
    let clean : Word → Nat → Bool → Option Nat := fun p n sc => s.panelPoison (peer p) (off p) n (m.k / 32) sc
    let own : Word → Nat → Bool → List (Nat × Nat) := fun p n sc => if peer p = c.val then
      (off p, 64 * n) :: (if sc then (List.range n).map fun r => (off p + 2048 + 4 * r, m.k / 32) else []) else []
    let pa := s.ri a
    let pb := s.ri b
    let sh := s.shape c
    (¬ listed → exec i s = .next (s.takeTrap s.cur ⟨0x04, x.arch.fmt.setWidth 64 + 0x100000000⟩))
    ∧ (listed → ¬ good pa m.sa → exec i s = .next (s.takeTrap s.cur ⟨0x0E, tval pa 0⟩))
    ∧ (listed → good pa m.sa → ¬ good pb m.sb → exec i s = .next (s.takeTrap s.cur ⟨0x0E, tval pb 0x100000000⟩))
    ∧ (listed → good pa m.sa → good pb m.sb →
      (∀ o, clean pa sh.1 m.sa = some o → exec i s = .next (s.takeTrap s.cur ⟨0x13, BitVec.ofNat 64 o⟩))
      ∧ (∀ o, clean pa sh.1 m.sa = none → clean pb sh.2 m.sb = some o → exec i s = .next (s.takeTrap s.cur ⟨0x13, BitVec.ofNat 64 o⟩))
      ∧ (clean pa sh.1 m.sa = none → clean pb sh.2 m.sb = none →
        exec i s = .next (s.setCore c { x with
          lastMma := some (x.eng.cycle s.ptime - (c.val - (s.gangLive c).headD c)),
          sm := x.sm ++ [{ smOfElems
              (mmaElems m sh (s.core (peer pa)).scratch (s.core (peer pb)).scratch (off pa) (off pb) cz sat (x.smTile ct))
              d (x.arch.fmt.getLsbD 18) (x.arch.pc.setWidth 64) with
            reads := own pa sh.1 m.sa ++ own pb sh.2 m.sb }] })))

/-- O28. Every element of an MMA: exact integer sums, and the windowed floating sum. Rests on choices of the model: Invalid by a NaN or by
two infinities (log 106). (spec/05_matrix.md: MMA) -/
def Obligations.MmaElementValues : Prop :=
  (∀ (m : MmaFmt) (sh : Nat × Nat) (ma mb : List Host.Cell) (oa ob : Nat) (cz sat : Bool) (ct : List (BitVec 32)),
    let es := mmaElems m sh ma mb oa ob cz sat ct
    es.map (·.idx) = (List.range sh.1).flatMap (fun i => (List.range sh.2).map fun j => 32 * i + j)
    ∧ (m.f32 = false → m.a = .i8 ∨ m.a = .n8 → m.b = .i8 ∨ m.b = .n8 → m.sa = false → m.sb = false →
      ∀ i < sh.1, ∀ j < sh.2,
        let c : Int := if cz then 0 else (ct.getD (32 * i + j) 0).toInt
        let sum : Int := c + ((List.range 64).map fun k =>
          elemInt m.a (byteAt ma (oa + 64 * i + k)).toNat * elemInt m.b (byteAt mb (ob + 64 * j + k)).toNat).sum
        (⟨32 * i + j, BitVec.ofInt 32 (if sat then max (-(2 ^ 31)) (min (2 ^ 31 - 1) sum) else sum), 0, false, false⟩ : MmaElem) ∈ es)
    ∧ (m.f32 = true → ∀ i < sh.1, ∀ j < sh.2, ∃ e ∈ es, e.idx = 32 * i + j ∧
        let c : FVal := if cz then .zero false else decode .f32 (ct.getD (32 * i + j) 0).toNat
        let terms := (List.range m.k).map fun k =>
          mmaTerm ((panelRow ma oa i m.k m.a m.sa).getD k (.zero false)) ((panelRow mb ob j m.k m.b m.sb).getD k (.zero false))
        e.val = BitVec.ofNat 32 (accF (terms ++ [c])).code ∧ e.fl = (accF (terms ++ [c])).fl
        ∧ e.nonfin = (terms ++ [c]).any isNonfin))
  ∧ (∀ (n : Bool) (v : FVal), mmaTerm (.zero n) v = .zero false ∧ mmaTerm v (.zero n) = .zero false)
  ∧ (∀ l : List FVal, (∃ g, FVal.nan g ∈ l) → (accF l).code = 0x7FC00000)
  ∧ (∀ l : List FVal, (∀ g, FVal.nan g ∉ l) →
      ((FVal.inf true ∈ l ∧ FVal.inf false ∈ l) → accF l = ⟨0x7FC00000, 16⟩)
      ∧ ((FVal.inf true ∉ l ∧ FVal.inf false ∈ l) → accF l = ⟨0x7F800000, 0⟩)
      ∧ ((FVal.inf true ∈ l ∧ FVal.inf false ∉ l) → accF l = ⟨0xFF800000, 0⟩))
  ∧ (∀ l : List FVal, (∀ v ∈ l, ∃ n, v = .zero n) → accF l = ⟨0, 0⟩)
  ∧ (∀ (l r : List FVal) (n : Bool), accF (l ++ .zero n :: r) = accF (l ++ r))
  ∧ (∀ (l : List Frac) (e : Int),
      (∀ q ∈ l, 0 < q.den ∧ q.num ≠ 0 ∧ q.abs.lt (Frac.pow2 (e + 1)) = true) → (∃ q ∈ l, (Frac.pow2 e).le q.abs = true) →
      let w := e - 99
      let cut : Frac → Int := fun q => (q.num * (2 ^ (-w).toNat : Nat)).tdiv (q.den * 2 ^ w.toNat : Nat)
      let total := (l.map cut).sum
      let sum : Frac := ⟨total * (2 ^ w.toNat : Nat), 2 ^ (-w).toNat⟩
      let r : Rnd := if total = 0 then ⟨0, 0⟩ else round .f32 .ne sum
      accF (l.map .fin) = ⟨r.code, r.fl ||| (if sum.eq (l.foldl (fun x q => x.add q) ⟨0, 1⟩) then 0 else 1)⟩)
  ∧ (∀ (ma : List Host.Cell) (off r k i : Nat) (t : Ty) (sc : Bool),
      i < k → i * (if t = .e2m1 then 4 else if t = .f16 ∨ t = .bf16 then 16 else 8) < 512 →
      t ∈ ([.i8, .n8, .f16, .bf16, .e4m3, .e5m2, .e3m2, .e2m3, .m8, .m6, .e2m1] : List Ty) →
      let at' : Nat → Nat := fun j => (byteAt ma (off + 64 * r + j)).toNat
      let code : Nat := if t = .f16 ∨ t = .bf16 then at' (2 * i) + 256 * at' (2 * i + 1)
        else if t = .e2m1 then at' (i / 2) / 16 ^ (i % 2) % 16 else at' i % 2 ^ width t
      let x := (byteAt ma (off + 2048 + 4 * r + i / 32)).toNat
      (panelRow ma off r k t sc)[i]? = some (if sc = false then decode t code else match decode t code with
        | .zero n => .zero n
        | .nan g => .nan g
        | .inf n => if x = 0xFF then .nan false else .inf n
        | .fin q => if x = 0xFF then .nan false
            else .fin ((Frac.pow2 ((x : Int) - 127)).mul (if t = .i8 then q.mul (Frac.pow2 (-6)) else q))))

/-- O29. ACCZ and ACCCP on the tile pipeline, and how a tile result lands. (spec/05_matrix.md: ACCZ, ACCCP and SETFMT, spec/05_matrix.md: Accumulator tiles, spec/12_recovery.md: The checkpoint interval) -/
def Obligations.TileOps : Prop :=
  (∀ (s : State) (h : Bool) (d a : Fin 16) (c : Fin 32) (k : Fin 8), s.cur = .core c k →
    let x := s.core c
    let put : List (BitVec 32) → Host.Outcome State Fault Refusal := fun es =>
      .next (s.setCore c { x with sm := x.sm ++ [⟨d, (List.range es.length).zip es, 0, 0, none, x.arch.pc.setWidth 64, []⟩] })
    exec (.accz h (.acc d)) s = put (List.replicate 1024 0)
    ∧ exec (.acccp h false (.acc d) (.acc a)) s = put (x.smTile a)
    ∧ exec (.acccp h true (.acc d) (.acc a)) s
        = put ((List.range 1024).map fun i => (x.smTile a).getD (32 * (i % 32) + i / 32) 0)
    ∧ exec (.xnop h) s = .next s)
  ∧ (∀ (s : State) (h : Bool) (u : Tid), s.cur = .thr u →
    exec (.xnop h) s = .next (s.setThread u { s.thread u with pc := (s.thread u).pc + 8 }))
  ∧ (∀ (x : Core) (e : SmEntry),
    (∀ t, t ≠ e.tile → (x.landSm e).tile t = x.tile t)
    ∧ (∀ i, (∀ q ∈ e.elems, q.1 ≠ i) → ((x.landSm e).tile e.tile)[i]? = (x.tile e.tile)[i]?)
    ∧ (∀ i v, (e.elems.map (·.1)).Nodup → (i, v) ∈ e.elems → i < (x.tile e.tile).length → ((x.landSm e).tile e.tile)[i]? = some v)
    ∧ (x.landSm e).arch = { x.arch with fflags := x.arch.fflags ||| e.fl, suspect := x.arch.suspect ||| e.suspect }
    ∧ (mget none x.tileCopies e.tile = none → mget none (x.landSm e).tileCopies e.tile = some (x.tile e.tile)))

/-- O30. TWB, TWN and TWE: a grid of tiles that covers the matrix once, returned one by one. Rests on choices of the model: the choice of
TWN is a free value (log 6). (spec/05_matrix.md: The tile walker) -/
def Obligations.TileWalker : Prop :=
  (∀ (s : State) (h : Bool) (d : Fin 64) (a : Opd) (c : Fin 32) (k : Fin 8), s.cur = .core c k →
    let x := s.core c
    let w := x.arch.walker
    let sh := s.shape c
    let rows := ((s.ri a).extractLsb' 0 16).toNat
    let cols := ((s.ri a).extractLsb' 16 16).toNat
    let tiles := gridTiles 0 0 rows cols sh.1 sh.2
    let walk : State → Walker → State := fun t v => t.setCore c { t.core c with arch := { (t.core c).arch with walker := v } }
    exec (.twb h (.sx d) a) s = .next ((walk s ⟨true, rows, cols, tiles⟩).withScalar 3 d (BitVec.ofNat 64 tiles.length))
    ∧ (w.active = false ∨ w.tiles = [] → exec (.twn h (.sx d)) s = .next (s.withScalar 3 d 0x8000000000000000))
    ∧ (w.active = true → w.tiles ≠ [] → ∃ (i : Nat) (q : Nat × Nat × Nat × Nat) (t : State), w.tiles[i]? = some q
        ∧ exec (.twn h (.sx d)) s = .next ((walk t { w with tiles := w.tiles.take i ++ w.tiles.drop (i + 1) }).withScalar 3 d
            (BitVec.ofNat 64 (q.1 + q.2.1 * 2 ^ 16 + q.2.2.1 * 2 ^ 32 + q.2.2.2 * 2 ^ 40)))
        ∧ (t = s ∨ ∃ p, t = { s with free := s.free + 1 }.setCore c { x with picks := p }))
    ∧ exec (.twe h (.sx d)) s = .next ((walk s ⟨false, 0, 0, []⟩).withScalar 3 d
        (BitVec.ofNat 64 (if w.active then w.tiles.length else 0))))
  ∧ (∀ rows cols m n : Nat, 0 < m → 0 < n →
    let ts := gridTiles 0 0 rows cols m n
    (∀ q ∈ ts, q.2.2.1 ≤ m ∧ q.2.2.2 ≤ n ∧ 0 < q.2.2.1 ∧ 0 < q.2.2.2 ∧ q.1 + q.2.2.1 ≤ rows ∧ q.2.1 + q.2.2.2 ≤ cols)
    ∧ (∀ i < rows, ∀ j < cols,
        (ts.filter fun q => decide (q.1 ≤ i ∧ i < q.1 + q.2.2.1 ∧ q.2.1 ≤ j ∧ j < q.2.1 + q.2.2.2)).length = 1))

/-- O31. MSTEST and FMAPRD, and the shape that a fault map gives. Rests on choices of the model: FMAPRD 2 after a remap (log 107); the
order in which faults enter the map (log 108). (spec/05_matrix.md: MSTEST and FMAPRD, spec/05_matrix.md: The physical array and its fault map) -/
def Obligations.ArrayTestsAndShape : Prop :=
  (∀ (s : State) (h : Bool) (d : Fin 64) (c : Fin 32) (k : Fin 8), s.cur = .core c k →
    let x := s.core c
    exec (.mstestQuick (.sx d)) s = .next (s.setCore c { x with mstest := some (false, d.val, x.arch.pc.setWidth 64) })
    ∧ exec (.mstestFull (.sx d)) s = .next (s.setCore c { x with mstest := some (true, d.val, x.arch.pc.setWidth 64) })
    ∧ exec (.fmaprd h (.sx d) 0) s = .next (s.withScalar 3 d (x.fmap.row.setWidth 64))
    ∧ exec (.fmaprd h (.sx d) 1) s = .next (s.withScalar 3 d (x.fmap.col.setWidth 64))
    ∧ exec (.fmaprd h (.sx d) 2) s = .next (s.withScalar 3 d (x.fmap.last.setWidth 64))
    ∧ exec (.fmaprd h (.sx d) 3) s = .next (s.withScalar 3 d 0))
  ∧ (∀ f : FaultMap,
    let ok : BitVec 34 → Nat := fun m => (List.range 34).countP fun i => !m.getLsbD i
    let size : Nat → Nat := fun n => (([32, 28, 24, 16] : List Nat).find? (· ≤ n)).getD 0
    f.shape = (size (ok f.row), size (ok f.col)))
  ∧ (∀ (s : State) (c : Nat), ∀ j ∈ s.gangOf c, (s.shape c).1 ≤ (s.core j).fmap.shape.1 ∧ (s.shape c).2 ≤ (s.core j).fmap.shape.2)
  ∧ (∀ (s : State) (c : Nat), (s.gangOf c) ≠ [] →
      (∃ j ∈ s.gangOf c, (s.shape c).1 = (s.core j).fmap.shape.1) ∧ (∃ j ∈ s.gangOf c, (s.shape c).2 = (s.core j).fmap.shape.2))

/-- O32. Branches, calls and returns: targets, conditions and links. Rests on choices of the model: when a thread's results are there (log
8). (spec/10_progress.md: Control, launch, wait, barrier and power instructions, spec/01_machine.md: When results become visible) -/
def Obligations.BranchesCallsAndReturns : Prop :=
  ∀ (s : State) (off : BitVec 19) (a : Opd) (b : Cond),
    (¬ s.Holds b → exec (.brc b off) s = .next s.moveOn)
    ∧ (∀ (c : Fin 32) (k : Fin 8), s.cur = .core c k →
      let x := s.core c
      let go : BitVec 32 → List (Nat × Land) → Host.Outcome State Fault Refusal := fun target landing => .next (s.setCore c
        { x with flight := x.flight ++ landing, arch := { x.arch with redir := x.arch.redir ++ [(target, 3)] } })
      let o1 := x.arch.pc + BitVec.ofNat 32 x.len
      let o2 := o1 + BitVec.ofNat 32 (s.bundleLen c o1)
      let link := (o2 + BitVec.ofNat 32 (s.bundleLen c o2)).setWidth 64
      exec (.br none off) s = go (x.arch.pc + off.signExtend 32) []
      ∧ exec (.br (some a) off) s = go ((s.ri a).setWidth 32 + off.signExtend 32) []
      ∧ (s.Holds b → exec (.brc b off) s = go (x.arch.pc + off.signExtend 32) [])
      ∧ exec (.call none off) s = go (x.arch.pc + off.signExtend 32) [(1, .sreg 63 link)]
      ∧ exec (.call (some a) off) s = go ((s.ri a).setWidth 32 + off.signExtend 32) [(1, .sreg 63 link)]
      ∧ exec (.ret a) s = go ((s.ri a).setWidth 32) [])
    ∧ (∀ u : Tid, s.cur = .thr u →
      let x := s.thread u
      exec (.br none off) s = .next (s.setThread u { x with pc := x.pc + 8 * off.signExtend 64 })
      ∧ exec (.br (some a) off) s = .next (s.setThread u { x with pc := s.ri a + 8 * off.signExtend 64 })
      ∧ (s.Holds b → exec (.brc b off) s = .next (s.setThread u { x with pc := x.pc + 8 * off.signExtend 64 }))
      ∧ exec (.call none off) s
          = .next (s.setThread u { x with x := mset 0 x.x 63 (x.pc + 8), pc := x.pc + 8 * off.signExtend 64 })
      ∧ exec (.call (some a) off) s
          = .next (s.setThread u { x with x := mset 0 x.x 63 (x.pc + 8), pc := s.ri a + 8 * off.signExtend 64 })
      ∧ exec (.ret a) s = .next (s.setThread u { x with pc := s.ri a }))

/-- O33. MARK and TRCEV: the records they emit and the state MARK leaves. Rests on choices of the model: a full armed set (log 88);
latencies of ops without a register result (log 67). (spec/09_time_trace.md: Drift markers and TRCEV) -/
def Obligations.MarksAndTraceEvents : Prop :=
  ∀ (s : State) (code : Byte) (a b : Opd) (n : BitVec 19),
    exec (.trcev code a) s = .next (s.emitAt s.cur code.toNat 3 false ((s.ri a).toNat % 2 ^ 24) 0 0).moveOn
    ∧ exec (.trcevFull code a b) s = .next (s.emitAt s.cur code.toNat 3 true ((s.ri a).toNat % 2 ^ 32)
        ((s.ri b).toNat % 2 ^ 19) ((s.ri b).toNat / 2 ^ 19 % 2)).moveOn
    ∧ (let now := (s.eng s.cur.dom).cycle s.ptime
       let use : List Nat → Nat → List Nat := fun l id => (id :: l.filter fun y => y != id).take 16
       let drift : Option (Nat × Nat) → Int := fun r => match r with
         | some q => (now : Int) - q.1 - n.toNat
         | none => 0
       let armed : Option (Nat × Nat) → BitVec 32 → List Nat → List Nat := fun r limit l => match r with
         | some q => if limit = 0 then l else if limit.toNat < (drift r).natAbs then use l q.2 else l.filter fun y => y != q.2
         | none => l
       let rec' : Option (Nat × Nat) → State := fun r => s.emitAt s.cur 0x18 2 false
         (code.toNat + (max (-(2 ^ 14)) (min (2 ^ 14 - 1) (drift r)) % 2 ^ 15).toNat * 2 ^ 8 + (if r = none then 2 ^ 23 else 0)) 0 0
       (∀ (c : Fin 32) (k : Fin 8), s.cur = .core c k →
         let x := s.core c
         let l := armed x.markRef x.arch.drift x.armed
         exec (.mark code n) s = .next ((rec' x.markRef).modCore c fun y =>
           { y with markRef := some (now, code.toNat), armed := if code.toNat ∈ l then use l code.toNat else l,
                    stallTrace := decide (code.toNat ∈ l) }))
       ∧ (∀ u : Tid, s.cur = .thr u →
         let g := s.group u.unit u.group
         let r := (s.thread u).markRef
         let l := armed r g.drift g.armed
         exec (.mark code n) s = .next (State.moveOn (((rec' r).modThread u fun y =>
             { y with markRef := some (now, code.toNat), stallTrace := decide (code.toNat ∈ l) }).modGroup u.unit u.group
           fun g => { g with armed := if code.toNat ∈ l then use l code.toNat else l }))))

/-- O34. LAUNCH, LEAVE, JEND and SEMSIG: withheld on a core, at once in a thread. Rests on choices of the model: latencies (log 67); what a
wider release does (log 122); the sum of LEAVE (log 160). (spec/10_progress.md: Control, launch, wait, barrier and power instructions, spec/10_progress.md: Current, leave and energy, spec/01_machine.md: Bundle-form state) -/
def Obligations.LaunchEndAndSignal : Prop :=
  ∀ (s : State) (a : Opd) (sem : Byte) (n : BitVec 11) (rem : Bool),
    let add := min (s.rn a).toNat 65535
    let want : Nat → Nat := fun top => min ((s.ri a).toNat + n.toNat) top
    let request : Dom → Nat → Nat → Nat → Beadle := fun d g i w => { s.beadle with leaves :=
      (s.beadle.leaves.filter fun l => !(l.dom == d && l.group == g && l.thread == i && !l.resume))
        ++ [{ dom := d, group := g, thread := i, units := w, at' := s.ptime, resume := false }] }
    (∀ (c : Fin 32) (k j : Fin 8), s.cur = .core c k →
      exec (.launch a) s = .next (s.withEff (.launch ((s.ri a).extractLsb' 0 32 |>.setWidth 64)))
      ∧ exec .jend s = .next (s.withEff (.jend false))
      ∧ exec .jendBlk s = .next (s.withEff (.jend true))
      ∧ exec (.semsig sem a j false) s = .next (s.withEff (.signal c sem.toNat add))
      ∧ (let dest := c.val / 8 * 8 + j.val
         ((s.core c).job ≠ none ∧ (s.core dest).job = (s.core c).job →
            exec (.semsig sem a j true) s = .next (s.withEff (.signal dest sem.toNat add)))
         ∧ ((s.core c).job = none ∨ (s.core dest).job ≠ (s.core c).job →
            exec (.semsig sem a j true) s = .next (s.takeTrap s.cur ⟨0x04, 0⟩)))
      ∧ (want 32 ≤ (s.core c).eng.granted → exec (.leave a n) s
            = .next ((s.modCore c fun x => { x with eng := { x.eng with granted := want 32 } }).emitAt s.cur 0x1B 6 false (want 32) 0 0))
      ∧ ((s.core c).eng.granted < want 32 → exec (.leave a n) s
            = .next ({ s with beadle := request (.core c) 0 0 (want 32) }.modCore c fun x => { x with wait := .leave (want 32) })))
    ∧ (∀ (u : Tid) (j : Fin 8), s.cur = .thr u →
      let g := s.group u.unit u.group
      exec (.semsig sem a j rem) s = .next (s.modGroup u.unit u.group fun g =>
          { g with sem := mset 0 g.sem sem.toNat (min 65535 (mget 0 g.sem sem.toNat + add)),
                   ssat := g.ssat || decide (65535 < mget 0 g.sem sem.toNat + add) }).moveOn
      ∧ exec .jend s = .next (s.heldBy u .jend)
      ∧ exec .jendBlk s = .next (s.heldBy u .jend)
      ∧ (let out := s.releaseAt (.unit u.unit) .device
         let id := (s.ri a).toNat % 2 ^ 32
         (out.findJob id = none → exec (.launch a) s = .next (out.takeTrap out.cur ⟨0x1A, BitVec.ofNat 64 (1 + id * 2 ^ 32)⟩))
         ∧ (∀ (m : Nat) (z : Slot), out.findJob id = some m → out.slot m = some z →
            let own := out.cardAt out.cur
            let why : Nat := if Card.spor z.card = false then 2
              else if Card.part z.card ≠ Card.part own ∨ Card.world z.card ≠ Card.world own then 3 else if z.retiring then 4 else 0
            (why ≠ 0 → exec (.launch a) s = .next (out.takeTrap out.cur ⟨0x1A, BitVec.ofNat 64 (why + id * 2 ^ 32)⟩))
            ∧ (why = 0 → exec (.launch a) s = .next
                ((out.newFlow.2.emitJob 0x60 own 0x38 0 id out.newFlow.1 0).takeRelease m out.newFlow.1).moveOn)))
      ∧ (want 16 ≤ g.granted → exec (.leave a n) s
            = .next ((s.modGroup u.unit u.group fun g => { g with granted := want 16 }).emitAt s.cur 0x1B 6 false (want 16) 0 0).moveOn)
      ∧ (g.granted < want 16 → exec (.leave a n) s
            = .next ({ s with beadle := request (.unit u.unit) u.group u.thread (want 16) }.heldBy u (.leave (want 16)))))

/-- O35. SEMWAIT, YIELD and BAR of a thread, BAR of a core. Rests on choices of the model: arrival at a job barrier (log 113); the fence of
a barrier (log 114). (spec/10_progress.md: Control, launch, wait, barrier and power instructions, spec/10_progress.md: Lanes and threads) -/
def Obligations.WaitsAndBarriers : Prop :=
  ∀ (s : State) (a : Opd) (n : Byte) (id : Fin 16),
    (∀ (c : Fin 32) (k : Fin 8), s.cur = .core c k →
      exec (.barJob id) s = .next (s.withEff (.bar id))
      ∧ exec .yield s = .next s ∧ exec (.semwait n a) s = .next s ∧ exec (.barGroup id) s = .next s ∧ exec (.barBlock id) s = .next s)
    ∧ (∀ u : Tid, s.cur = .thr u →
      let g := s.group u.unit u.group
      let have' := mget 0 g.sem n.toNat
      let k := min (s.rn a).toNat 65535
      let first := ∀ q ∈ g.semq, q.1 ≠ n.toNat
      let others := ((s.unit u.unit).tids u.unit).filter fun q => q.thread % 64 == u.thread % 64 && q != u && s.threadReady q
      let ahead := s.moveOn
      (k = 0 → exec (.semwait n a) s = .next ahead)
      ∧ (k ≠ 0 ∧ first ∧ k ≤ have' → exec (.semwait n a) s
            = .next (s.modGroup u.unit u.group fun g => { g with sem := mset 0 g.sem n.toNat (have' - k) }).moveOn)
      ∧ (k ≠ 0 ∧ ¬ (first ∧ k ≤ have') → exec (.semwait n a) s
            = .next ((s.modGroup u.unit u.group fun g => { g with semq := g.semq ++ [(n.toNat, u.thread)] }).heldBy u (.sem n.toNat k)))
      ∧ (others = [] → exec .yield s = .next ahead)
      ∧ (others ≠ [] → exec .yield s = .next (ahead.heldBy u (.yield (others.map tidKey) 64)))
      ∧ exec (.barGroup id) s = .next
          ((s.modGroup u.unit u.group fun g => { g with bars := g.bars ++ [(0, id.val, u.thread)] }).heldBy u (.bar 0 id))
      ∧ exec (.barBlock id) s = .next
          ((s.modGroup u.unit u.group fun g => { g with bars := g.bars ++ [(1, id.val, u.thread)] }).heldBy u (.bar 1 id)))

/-- O36. CHECK, TRAP, SVC, BKPT and TRET. Rests on choices of the model: BKPT of a thread (log 56). (spec/12_recovery.md: Trap instructions, spec/12_recovery.md: Trap causes, spec/04_scalar_vector.md: CHECK and duplicated operations) -/
def Obligations.TrapInstructions : Prop :=
  ∀ (s : State) (code : BitVec 11) (b : TrapCond) (o p : Opd),
    let holds : Prop := match b with
      | .always => True
      | .cond b => s.Holds b
    let quiet := (Card.trace (s.cardAt s.cur)).testBit 7 = false ∨ (s.eng s.cur.dom).stepping = true
    (s.ri o = s.ri p → exec (.check o p) s = .next s.moveOn)
    ∧ (s.ri o ≠ s.ri p → exec (.check o p) s = .next (s.takeTrap s.cur ⟨0x20, s.ri o ^^^ s.ri p⟩))
    ∧ (holds → exec (.trap b code) s = .next (s.takeTrap s.cur ⟨0x30, code.setWidth 64⟩))
    ∧ (¬ holds → exec (.trap b code) s = .next s.moveOn)
    ∧ (quiet → exec (.bkpt code) s = .next s.moveOn)
    ∧ (∀ (c : Fin 32) (k : Fin 8), s.cur = .core c k →
      exec (.svc code) s = .next (s.withEff (.svc code.toNat))
      ∧ (¬ quiet → exec (.bkpt code) s = .next (s.takeTrap s.cur ⟨0x32, code.setWidth 64⟩))
      ∧ exec .tret s = .next s)
    ∧ (∀ u : Tid, s.cur = .thr u →
      let x := s.thread u
      exec (.svc code) s = .next (s.takeTrap s.cur ⟨0x31, code.setWidth 64⟩)
      ∧ (¬ quiet → exec (.bkpt code) s = .next
          ((s.setThread u { x with pc := x.pc + 8, tcause := 0x32, tpc := x.pc + 8, tval := code.setWidth 64 }).stopUnit u.unit 2))
      ∧ (x.inHandler = true → exec .tret s = .next (s.setThread u { x with inHandler := false, pc := x.tpc }))
      ∧ (x.inHandler = false → exec .tret s = .next (s.takeTrap s.cur ⟨0x04, 0⟩)))

/-- O37. A trap of a thread enters its group's handler; a trap of a core rolls it back and records its cause. Rests on choices of the
model: the checkpoint of a gang (log 48); TPC at a commit (log 50); a waiting trap beside JEND (log 102); fields of the poison
record (log 139). (spec/12_recovery.md: Thread-form traps, spec/12_recovery.md: The checkpoint interval, spec/12_recovery.md: Trap causes) -/
def Obligations.TrapEntry : Prop :=
  (∀ (s : State) (u : Tid) (cause : Nat) (tval : Word),
    let x := s.thread u
    cause < 256 → (s.group u.unit u.group).thandler ≠ 0 → x.inHandler = false → x.wait = .none →
    (s.eng (.unit u.unit)).tstop = false → (s.eng (.unit u.unit)).stepping = false →
    let t := s.takeTrap (.thr u) ⟨cause, tval⟩
    let y := t.thread u
    y.pc = (s.group u.unit u.group).thandler
    ∧ y.tcause = BitVec.ofNat 8 cause
    ∧ y.tval = tval
    ∧ y.tpc = (if cause = 0x30 ∨ cause = 0x31 ∨ cause = 0x32 then x.pc + 8 else x.pc)
    ∧ y.tmask = (1 : Word) <<< (u.thread % 64)
    ∧ y.inHandler = true
    ∧ y.x = x.x ∧ y.p = x.p ∧ y.fmt = x.fmt ∧ y.fflags = x.fflags ∧ y.rnga = x.rnga ∧ y.rngb = x.rngb
    ∧ (∀ v : Tid, v ≠ u → (t.thread v).pc = (s.thread v).pc ∧ (t.thread v).x = (s.thread v).x))
  ∧ (∀ (s : State) (c : Fin 32) (k : Fin 8) (cause : Nat) (tval : Word),
    let x := s.core c
    s.gangOf c = [c.val] → s.pairPos c = none → x.eng.stepping = false → x.eng.tstop = false → s.deferred = [] →
    disposition cause = .resume →
    let t := s.takeTrap (.core c k) ⟨cause, tval⟩
    let y := t.core c
    y.tcause = BitVec.ofNat 8 cause ∧ y.tval = tval ∧ y.tpc = x.arch.pc.setWidth 64
    ∧ y.arch = x.shadow ∧ y.withheld = [] ∧ y.sb = [] ∧ y.sm = [] ∧ y.undo = [] ∧ y.job = x.job
    ∧ t.latch = [] ∧ t.aborted = true
    ∧ (∀ j : Nat, j ≠ c.val → (t.core j).arch = (s.core j).arch ∧ (t.core j).scratch = (s.core j).scratch))

/-- O38. LD, ST, LDS and STS: address, checks, value and what a store leaves. Rests on choices of the model: when a thread's results are
there (log 8); stores to control words (log 39); the lowest poisoned byte (log 111); what a wider release does (log 122). (spec/08_memory_ops.md: Addresses and common fields, spec/08_memory_ops.md: Loads and stores, spec/07_ordering.md: Scopes and orders, spec/12_recovery.md: Supervision and restart) -/
def Obligations.ScalarLoadsAndStores : Prop :=
  ∀ (s : State) (m : MemMod) (d : Fin 64) (o a b : Opd),
    let n := 2 ^ m.size.val
    let addr := (s.ri a + (s.ri b <<< m.sh.val)).toNat
    let k := s.ctx s.cur
    let val : List Byte → Word := fun bs =>
      if m.sx then BitVec.ofInt 64 (BitVec.ofNat (8 * bs.length) (leNat bs)).toInt else BitVec.ofNat 64 (leNat bs)
    let sa := if isAcq m.ord then s.acquireAt k.dom m.scope else s
    let mine := s.local' s.cur
    (∀ f, sa.access k .load addr n 1 = .error f → Traps (.ld m (.sx d) a b) s f)
    ∧ (∀ ps s1, sa.access k .load addr n 1 = .ok (ps, s1) →
        (piecesExt ps = true ∧ s1.pairCur = some 1 → exec (.ld m (.sx d) a b) s = .next s1.takeMirror.moveOn)
        ∧ (¬ (piecesExt ps = true ∧ s1.pairCur = some 1) →
          (∀ f, s1.readPieces k ps = .error f → Traps (.ld m (.sx d) a b) s f)
          ∧ (∀ bs s2, s1.readPieces k ps = .ok (bs, s2) →
              exec (.ld m (.sx d) a b) s = .next (s2.memWord d (val bs) (piecesExt ps) (piecesExt ps)))))
    ∧ (∀ f, s.access k .store addr n 1 = .error f → Traps (.st m o a b) s f)
    ∧ (∀ ps s1, s.access k .store addr n 1 = .ok (ps, s1) →
        let rel : State → State := fun t => if isRel m.ord then t.releaseAt k.dom m.scope else t
        let s2 := rel s1
        let cells := (pieceBytes ps).zip (leBytes n (s2.ri o).toNat)
        exec (.st m o a b) s = .next (match s.cur with
          | .core c _ => rel ((s2.withEff (.store cells)).modCore c fun x => { x with gst := x.gst + 1 })
          | .thr _ => (rel (s2.storeBytes k cells)).moveOn))
    ∧ (mine.2.1 < addr + n →
        exec (.lds m (.sx d) a b) s = .next (s.takeTrap s.cur ⟨0x0E, BitVec.ofNat 64 addr⟩)
        ∧ exec (.sts m o a b) s = .next (s.takeTrap s.cur ⟨0x0E, BitVec.ofNat 64 addr⟩))
    ∧ (addr + n ≤ mine.2.1 →
        (∀ i, localPoison mine.2.2 addr n = some i → exec (.lds m (.sx d) a b) s = .next (s.takeTrap s.cur ⟨0x13, BitVec.ofNat 64 i⟩))
        ∧ (localPoison mine.2.2 addr n = none → exec (.lds m (.sx d) a b) s = .next (s.withScalar 4 d (val (readBytes mine.1 addr n))))
        ∧ exec (.sts m o a b) s = .next (match s.cur with
            | .core _ _ => s.withEff (.scr (cellsOf addr (leBytes n (s.ri o).toNat)))
            | .thr _ => (s.storeLocal s.cur addr (leBytes n (s.ri o).toNat)).moveOn))

/-- O39. LDV, STV, LDVG, STVS, TLD, TST, ACCST, ACCLD, PREF and MNOP on a core. Rests on choices of the model: elements of TLD and TST (log
19); what stays in an L1 (log 12). (spec/08_memory_ops.md: Loads and stores, spec/08_memory_ops.md: Gathers, scatters and tiles, spec/08_memory_ops.md: Accumulator rows, spec/08_memory_ops.md: Addresses and common fields) -/
def Obligations.VectorAndTileTransfers : Prop :=
  (∀ (s : State) (h : Bool), exec (.mnop h) s = .next s.moveOn)
  ∧ (∀ (s : State) (h l2 : Bool) (a b : Opd),
    let k := s.ctx s.cur
    let at' := (s.ri a + s.ri b).toNat
    (∀ f, s.access k .pref at' 1 1 = .error f → exec (.pref h l2 a b) s = .next s.moveOn)
    ∧ (∀ ps s1, s.access k .pref at' 1 1 = .ok (ps, s1) →
        (l2 = true → exec (.pref h l2 a b) s = .next s1.moveOn)
        ∧ (l2 = false → (∀ q ∈ ps, q.hit = true ∨ q.x.attr.mt ≠ 0 ∨ isWindow q.x.pa = true) → exec (.pref h l2 a b) s = .next s1.moveOn)
        ∧ (∀ q, ps = [q] → l2 = false → s1.inBlock k.dom (q.x.pa / 64) = true → exec (.pref h l2 a b) s = .next s1.moveOn)
        ∧ (∀ q, ps = [q] → l2 = false → q.hit = false → q.x.attr.mt = 0 → isWindow q.x.pa = false →
            s1.inBlock k.dom (q.x.pa / 64) = false →
            exec (.pref h l2 a b) s = .next (s1.fillLine k q.x).2.moveOn)))
  ∧ (∀ (s : State) (v : VMod) (e8 : Bool) (sh rows : Fin 4) (d : Fin 64) (o a b : Opd) (hh : Bool) (first count1 : Fin 32) (t : Fin 16)
      (c : Fin 32) (slot : Fin 8), s.cur = .core c slot →
    let x := s.core c
    let k := s.ctx s.cur
    let n := v.w.bits / 8
    let p := s.rp v.p
    let off := (s.ri a + s.ri b).toNat
    let w := if e8 then 64 else 32
    let elems := ((List.range (v.w.bits / w)).filter fun j => p.getLsbD (w * j / 8)).map fun j =>
      (j, (s.ri a + BitVec.ofNat 64 (vecElem (s.rv (if e8 then .n64 else .n32) b) w j * 2 ^ sh.val)).toNat)
    let bytes := ((List.range n).filter fun i => p.getLsbD i).map fun i =>
      (i, (s.ri a + BitVec.ofNat 64 (i / (n / 2 ^ rows.val)) * s.ri b + BitVec.ofNat 64 (i % (n / 2 ^ rows.val))).toNat)
    let land : Instr → Nat → List (Nat × Nat) → Nat → Prop := fun i w es sz =>
      (∀ f, s.accessAll k .load (es.map fun e => (e.2, sz)) = .error f → Traps i s f)
      ∧ (∀ ps s1, s.accessAll k .load (es.map fun e => (e.2, sz)) = .ok (ps, s1) →
          (ps.any piecesExt = true ∧ s1.pairCur = some 1 → exec i s = .next (match (s1.core c).mirrored with
            | e :: rest => s1.setCore c { s1.core c with mirrored := rest, sb := (s1.core c).sb ++ [e] }
            | [] => s1))
          ∧ (¬ (ps.any piecesExt = true ∧ s1.pairCur = some 1) → ∀ f, s1.readAll k ps = .error f → Traps i s f)
          ∧ (¬ (ps.any piecesExt = true ∧ s1.pairCur = some 1) → ∀ bs s2, s1.readAll k ps = .ok (bs, s2) → ∃ mask y : Vec,
              exec i s = .next (s2.putResult c { lands := [.vreg d mask y], ext := ps.any piecesExt, blk := none } (ps.any piecesExt))
              ∧ ∀ (old : Vec) (j : Nat), w * (j + 1) ≤ 1024 → vecElem (underMask old mask y) w j =
                  (match (es.zip bs).find? fun q => q.1.1 == j with
                   | some q => leNat q.2 % 2 ^ w
                   | none => vecElem old w j)))
    let send : Instr → List (Nat × Nat) → Nat → (Nat → List Byte) → Nat → Prop := fun i es sz data count =>
      (∀ f, s.accessAll k .store (es.map fun e => (e.2, sz)) = .error f → Traps i s f)
      ∧ (∀ ps s1, s.accessAll k .store (es.map fun e => (e.2, sz)) = .ok (ps, s1) →
          let cells := (es.zip ps).flatMap fun q => (pieceBytes q.2).zip (data q.1.1)
          exec i s = .next ((if cells = [] then s1 else s1.withEff (.store cells)).modCore c fun x => { x with gst := x.gst + count }))
    (x.scratchSize < off + n → exec (.ldv v (.vec d) a b) s = .next (s.takeTrap s.cur ⟨0x0E, BitVec.ofNat 64 off⟩)
        ∧ exec (.stv v o a b) s = .next (s.takeTrap s.cur ⟨0x0E, BitVec.ofNat 64 off⟩))
    ∧ (off + n ≤ x.scratchSize → (∀ i < n, p.getLsbD i = true → (off + i) / 64 ∉ x.poison) →
        VecStep (.ldv v (.vec d) a b) s 5 d 8 n (fun i => if p.getLsbD i then some (byteAt x.scratch (off + i)).toNat else none) 0)
    ∧ (off + n ≤ x.scratchSize → ∀ i < n, p.getLsbD i = true → (off + i) / 64 ∈ x.poison →
        (∀ j < i, p.getLsbD j = true → (off + j) / 64 ∉ x.poison) →
        exec (.ldv v (.vec d) a b) s = .next (s.takeTrap s.cur ⟨0x13, BitVec.ofNat 64 (off + i)⟩))
    ∧ (off + n ≤ x.scratchSize →
        let cells : List Host.Cell := ((List.range n).filter fun i => p.getLsbD i).map fun i => (off + i, BitVec.ofNat 8 (vecElem (s.rv .i8 o) 8 i))
        exec (.stv v o a b) s = .next (if cells = [] then s else s.withEff (.scr cells)))
    ∧ land (.ldvg v e8 sh (.vec d) a b) w elems (w / 8)
    ∧ land (.tld v rows (.vec d) a b) 8 bytes 1
    ∧ send (.stvs v e8 sh o a b) elems (w / 8) (fun j => leBytes (w / 8) (vecElem (s.rv .n64 o) w j)) elems.length
    ∧ send (.tst v rows o a b) bytes 1 (fun i => [BitVec.ofNat 8 (vecElem (s.rv .i8 o) 8 i)]) (activeRows p v.w rows)
    ∧ (let at' := (s.ri a).toNat
       let len := 128 * (count1.val + 1)
       (at' % 64 ≠ 0 → exec (.accst hh first count1 a (.acc t)) s = .next (s.takeTrap s.cur ⟨0x09, s.ri a⟩)
          ∧ exec (.accld hh first count1 (.acc t) a) s = .next (s.takeTrap s.cur ⟨0x09, s.ri a⟩))
       ∧ (at' % 64 = 0 → x.scratchSize < at' + len →
            exec (.accst hh first count1 a (.acc t)) s = .next (s.takeTrap s.cur ⟨0x0E, s.ri a⟩)
            ∧ exec (.accld hh first count1 (.acc t) a) s = .next (s.takeTrap s.cur ⟨0x0E, s.ri a⟩))
       ∧ (at' % 64 = 0 → at' + len ≤ x.scratchSize →
            exec (.accst hh first count1 a (.acc t)) s = .next (s.withEff (.scr (cellsOf at'
              ((((x.tile t).drop (32 * first.val)).take (32 * (count1.val + 1))).flatMap fun e => leBytes 4 e.toNat))))
            ∧ (∀ o, localPoison x.poison at' len = some o →
                exec (.accld hh first count1 (.acc t) a) s = .next (s.takeTrap s.cur ⟨0x13, BitVec.ofNat 64 o⟩))
            ∧ (localPoison x.poison at' len = none → exec (.accld hh first count1 (.acc t) a) s = .next (s.setCore c
                { x with sm := x.sm ++ [⟨t, (List.range (32 * (count1.val + 1))).map fun i =>
                    (32 * first.val + i, BitVec.ofNat 32 (fieldAt (readBytes x.scratch at' len) (4 * i) 4)), 0, 0, none, x.arch.pc.setWidth 64, []⟩] })))))

/-- O40. BLKLD, BLKREL, CPY, CPYM, SYNCSET and SWAIT. Rests on choices of the model: when a thread's results are there (log 8); BLKLD of
PEER and IO ranges (log 57); MASK of a thread (log 84); an ended core (log 101). (spec/08_memory_ops.md: Load-blocks, spec/08_memory_ops.md: Copies, spec/08_memory_ops.md: Sync words, spec/07_ordering.md: Bundle form) -/
def Obligations.LoadBlocksCopiesAndSyncWords : Prop :=
  (∀ (s : State) (d : Fin 64) (a : Opd) (n1 : Fin 64) (c : Fin 32) (slot : Fin 8), s.cur = .core c slot →
    let n := n1.val + 1
    let k := s.ctx s.cur
    (∀ f, s.access k .load (s.ri a).toNat (64 * n) 64 = .error f → Traps (.blkld (.sx d) a n1) s f)
    ∧ (∀ ps t, s.access k .load (s.ri a).toNat (64 * n) 64 = .ok (ps, t) →
        let x := t.core c
        let trap : Nat → Prop := fun r => exec (.blkld (.sx d) a n1) s = .next (t.takeTrap t.cur ⟨0x14, BitVec.ofNat 64 r⟩)
        let again := ps.any fun q => x.blockLines.contains (q.x.pa / 64)
        let many := t.l1Cap (.core c) / 2 < x.blockLines.length + n
        ((∀ i < 16, x.arch.blkLive.getLsbD i = true) → trap 1)
        ∧ (∀ i < 16, x.arch.blkLive.getLsbD i = false → (∀ j < i, x.arch.blkLive.getLsbD j = true) →
            (again = true → trap 2) ∧ (again = false → many → trap 3)
            ∧ (again = false → ¬ many → ∃ b : Block, b.lines.map (·.pline) = ps.map (fun q => q.x.pa / 64) ∧ b.filled = false ∧
                exec (.blkld (.sx d) a n1) s = .next ((t.setCore c
                  { x with blocks := mset none x.blocks i (some b),
                           arch := { x.arch with blkLive := x.arch.blkLive ||| (1 <<< i) },
                           sb := x.sb ++ [{ lands := if d = 0 then [] else [.sreg d (BitVec.ofNat 64 i)], ext := false, blk := some i }] }).fitL1 (.core c)))))
    ∧ (let h := (s.ri a).toNat
       let x := s.core c
       (16 ≤ h ∨ x.arch.blkLive.getLsbD (h % 16) = false ∨ x.arch.blkRel.getLsbD (h % 16) = true →
          exec (.blkrel a) s = .next (s.takeTrap s.cur ⟨0x14, 4⟩))
       ∧ (h < 16 → x.arch.blkLive.getLsbD h = true → x.arch.blkRel.getLsbD h = false →
          exec (.blkrel a) s = .next ((s.setCore c
            { x with arch := { x.arch with blkRel := x.arch.blkRel ||| (1 <<< h) }, gst := x.gst + 1 }).withEff (.blkrel h)))))
  ∧ (∀ (s : State) (h : Bool) (dir : CpyDir) (mask : Byte) (d a b : Opd),
    let cmd := s.ri d
    let sg := dir = .g2l ∨ dir = .g2g
    let dg := dir = .l2g ∨ dir = .g2g
    let thr := match s.cur with
      | .core .. => false
      | .thr _ => true
    let why := s.copyReason cmd sg dg false ((¬ sg ∧ s.peerAbsent (s.ri a)) ∨ (¬ dg ∧ s.peerAbsent (s.ri b)))
      ((¬ sg ∧ localBits (s.ri a) thr) ∨ (¬ dg ∧ localBits (s.ri b) thr))
    let k := s.ctx s.cur
    let starts : Instr → State → CopyEnd → List CopyEnd → Prop := fun i t src dsts => ∃ cp : Copy,
      cp.cmd = cmd ∧ cp.src = src ∧ cp.dsts = dsts ∧ cp.failed = none ∧ cp.issuer = t.cur
      ∧ (∀ q, q ∈ cp.left ↔ q.1 < dsts.length ∧ q.2 < pieceCount (cmdElems cmd) (pieceElems ((cmdDst cmd).getD .i8) (dsts.any CopyEnd.packed)))
      ∧ (∀ (c : Fin 32) (slot : Fin 8), t.cur = .core c slot →
          exec i s = .next ((t.withEff (.copy cp)).modCore c fun x => { x with cpy := x.cpy + 1 }))
      ∧ (∀ u : Tid, t.cur = .thr u →
          (512 ≤ (t.unit u.unit).eng.copies.length → exec i s = .next (t.heldBy u .copySlot))
          ∧ ((t.unit u.unit).eng.copies.length < 512 → exec i s = .next (t.startCopy (.unit u.unit) cp).moveOn))
    (∀ r, why = some r → exec (.cpy h dir d a b) s = .next (s.takeTrap s.cur ⟨0x15, BitVec.ofNat 64 r⟩))
    ∧ (why = none →
        (∀ f, s.copyRange k .load sg (s.ri a) (sideBytes (cmdSrc cmd) sg cmd) = .error f → Traps (.cpy h dir d a b) s f)
        ∧ (∀ src t, s.copyRange k .load sg (s.ri a) (sideBytes (cmdSrc cmd) sg cmd) = .ok (src, t) →
            (∀ f, t.copyRange k .store dg (s.ri b) (sideBytes (cmdDst cmd) dg cmd) = .error f → Traps (.cpy h dir d a b) s f)
            ∧ (∀ dst t2, t.copyRange k .store dg (s.ri b) (sideBytes (cmdDst cmd) dg cmd) = .ok (dst, t2) →
                starts (.cpy h dir d a b) t2 src [dst])))
    ∧ (let ts := s.maskTargets mask.toNat
       let whyM := s.copyReason cmd true false true (ts = [] ∨ none ∈ ts) (localBits (s.ri b) true)
       let off := (s.ri b).toNat % 2 ^ 21
       let parts := ts.filterMap id
       (∀ r, whyM = some r → exec (.cpym h mask d a b) s = .next (s.takeTrap s.cur ⟨0x15, BitVec.ofNat 64 r⟩))
       ∧ (whyM = none →
          (∀ f, s.copyRange k .load true (s.ri a) (sideBytes (cmdSrc cmd) true cmd) = .error f → Traps (.cpym h mask d a b) s f)
          ∧ (∀ src t, s.copyRange k .load true (s.ri a) (sideBytes (cmdSrc cmd) true cmd) = .ok (src, t) →
              let small := ∃ p ∈ parts, t.shareSize ((s.jobOf s.cur).getD 0) p < off + sideBytes (cmdDst cmd) false cmd
              (small → exec (.cpym h mask d a b) s = .next (t.takeTrap t.cur ⟨0x0E, BitVec.ofNat 64 off⟩))
              ∧ (¬ small → starts (.cpym h mask d a b) t src (parts.map (·.at' off)))))))
  ∧ (∀ (s : State) (sc : Scope) (ord : Ord) (d : Fin 64) (a b : Opd),
    let off := (s.ri a).toNat
    let mine := s.local' s.cur
    let gen := (s.ri b).toNat % 2 ^ 16
    (off % 8 ≠ 0 → exec (.syncset a b) s = .next (s.takeTrap s.cur ⟨0x09, s.ri a⟩)
        ∧ exec (.swait sc ord (.sx d) a b) s = .next (s.takeTrap s.cur ⟨0x09, s.ri a⟩))
    ∧ (off % 8 = 0 → mine.2.1 < off + 8 → exec (.syncset a b) s = .next (s.takeTrap s.cur ⟨0x0E, s.ri a⟩)
        ∧ exec (.swait sc ord (.sx d) a b) s = .next (s.takeTrap s.cur ⟨0x0E, s.ri a⟩))
    ∧ (off % 8 = 0 → off + 8 ≤ mine.2.1 →
        let word := leBytes 8 ((s.ri b).toNat % 2 ^ 24 + (s.ri b).toNat / 2 ^ 48 * 2 ^ 48)
        let held := leNat (readBytes mine.1 off 8)
        let acq := if isAcq ord then s.acquireAt s.cur.dom sc else s
        exec (.syncset a b) s = .next (match s.cur with
          | .core _ _ => s.withEff (.scr (cellsOf off word))
          | .thr _ => (s.storeLocal s.cur off word).moveOn)
        ∧ (∀ o, localPoison mine.2.2 off 8 = some o →
            exec (.swait sc ord (.sx d) a b) s = .next (s.takeTrap s.cur ⟨0x13, BitVec.ofNat 64 o⟩))
        ∧ (localPoison mine.2.2 off 8 = none →
            (∀ (c : Fin 32) (slot : Fin 8), s.cur = .core c slot →
                exec (.swait sc ord (.sx d) a b) s = .next (acq.memWord d (BitVec.ofNat 64 held) false false))
            ∧ (∀ u : Tid, s.cur = .thr u →
                (reached held gen = true → exec (.swait sc ord (.sx d) a b) s = .next (acq.memWord d (BitVec.ofNat 64 held) false false))
                ∧ (reached held gen = false →
                    exec (.swait sc ord (.sx d) a b) s = .next (s.heldBy u (.sync off gen d (isAcq ord) sc)))))))

/-- O41. Atomics: what each writes of the old value, and its result. Rests on choices of the model: when a thread's results are there (log
8); PEER and IO targets (log 63); the order of checks of LOCAL atomics (log 64); what a release does (log 122); load-blocks (log
123). (spec/08_memory_ops.md: Atomics, spec/07_ordering.md: PEER and IO mappings) -/
def Obligations.AtomicReadModifyWrite : Prop :=
  ∀ (s : State) (m : AtMod) (sgn : Bool) (d : Fin 64) (a b : Opd),
    let n := if m.wide then 8 else 4
    let y := (s.ri b).toNat % 2 ^ (8 * n)
    let signed : Nat → Int := fun x => (BitVec.ofNat (8 * n) x).toInt
    let less : Nat → Nat → Prop := fun x z => if sgn then signed x < signed z else x < z
    let plain : Nat → List (Opd × Word) := fun o => [(.sx d, BitVec.ofNat 64 o)]
    let res : Nat → List (Opd × Word) := fun o => [(.sx d, if sgn then BitVec.ofInt 64 (signed o) else BitVec.ofNat 64 o)]
    AtomicStep (.aadd m (.sx d) a b) s m.scope m.ord m.loc true a n (fun o => some ((o + y) % 2 ^ (8 * n))) plain
    ∧ (∀ f : Nat → Option Nat, (∀ o, (less y o → f o = some y) ∧ (¬ less y o → f o = some o)) →
        AtomicStep (.amin m sgn (.sx d) a b) s m.scope m.ord m.loc false a n f res)
    ∧ (∀ f : Nat → Option Nat, (∀ o, (less o y → f o = some y) ∧ (¬ less o y → f o = some o)) →
        AtomicStep (.amax m sgn (.sx d) a b) s m.scope m.ord m.loc false a n f res)
    ∧ AtomicStep (.aand m (.sx d) a b) s m.scope m.ord m.loc false a n (fun o => some (o &&& y)) plain
    ∧ AtomicStep (.aor m (.sx d) a b) s m.scope m.ord m.loc false a n (fun o => some (o ||| y)) plain
    ∧ AtomicStep (.axor m (.sx d) a b) s m.scope m.ord m.loc false a n (fun o => some (o ^^^ y)) plain
    ∧ AtomicStep (.aswp m (.sx d) a b) s m.scope m.ord m.loc true a n (fun _ => some y) plain
    ∧ AtomicStep (.acas m (.sx d) a b) s m.scope m.ord m.loc true a n
        (fun o => if o = (s.ri (.sx d)).toNat % 2 ^ (8 * n) then some y else none) plain
    ∧ (∀ (e q : Fin 64), e.val % 2 = 0 → q.val % 2 = 0 →
        let pair : Fin 64 → Nat := fun r => (s.ri (.sx r)).toNat + (s.ri (.sx (fin 64 (r.val + 1)))).toNat * 2 ^ 64
        AtomicStep (.acas2 m.scope m.ord m.loc (.sx e) a (.sx q)) s m.scope m.ord m.loc true a 16
          (fun o => if o = pair e then some (pair q) else none)
          (fun o => [(.sx e, BitVec.ofNat 64 o), (.sx (fin 64 (e.val + 1)), BitVec.ofNat 64 (o / 2 ^ 64))]))
    ∧ (∀ t : FpTy,
        let z := width t.ty / 8
        AtomicStep (.afadd m.scope m.ord m.loc t (.sx d) a b) s m.scope m.ord m.loc false a z
          (fun o => some (fpAdd t.ty o ((s.rd t.ty b).toNat % 2 ^ (8 * z))).code) plain)

/-- O42. FENCE, DRAIN, CLEAN, INV, TGLD, TGST and TLBINV. Rests on choices of the model: when a thread's results are there (log 8); CLEAN
and INV by virtual range (log 60); FENCE with an acquire part (log 65); the tag region (log 118); the record of a world failure
(log 119); what a release does (log 122). (spec/08_memory_ops.md: Fences and cache maintenance, spec/08_memory_ops.md: Tags, spec/08_memory_ops.md: TLBINV, spec/11_isolation.md: TLBINV, spec/07_ordering.md: Scopes and orders) -/
def Obligations.FencesTagsAndInvalidation : Prop :=
  ∀ (s : State) (sc : Scope) (ord : Ord) (d : Fin 64) (o a b : Opd) (x16 : Bool),
    let k := s.ctx s.cur
    let lo := (s.ri a).toNat
    let len := (s.rn b).toNat
    let wide := ¬ (sc = .thread ∨ sc = .core)
    let meet : Line → Bool := fun l => l.asid == k.asid && l.world == k.world && l.meets lo len
    let gran := if x16 then 512 else 1
    (∀ va, rangeBad lo len = some va → exec (.clean a b) s = .next (s.takeTrap s.cur ⟨0x08, BitVec.ofNat 64 va⟩)
        ∧ exec (.inv a b) s = .next (s.takeTrap s.cur ⟨0x08, BitVec.ofNat 64 va⟩))
    ∧ (rangeBad lo len = none → exec (.inv a b) s = .next (s.dropLines k.dom meet).moveOn)
    ∧ (∀ f, s.access k .tagLoad lo gran gran = .error f → Traps (.tgld x16 (.sx d) a) s f)
    ∧ (∀ ps t, s.access k .tagLoad lo gran gran = .ok (ps, t) →
        (∀ (l r : List XByte) (x : XByte), tagBytes x16 ps = l ++ x :: r → t.secure x.pa = true → k.world = false → (∀ y ∈ l, t.secure y.pa = false) →
          exec (.tgld x16 (.sx d) a) s = .next
            ((t.noteWorld k.world [x.pa]).takeTrap (t.noteWorld k.world [x.pa]).cur ⟨0x12, BitVec.ofNat 64 x.va⟩))
        ∧ ((∀ x ∈ tagBytes x16 ps, t.secure x.pa = true → k.world = true) → exec (.tgld x16 (.sx d) a) s
        = .next (t.memWord d (BitVec.ofNat 64 ((tagBytes x16 ps).foldr (fun x acc => t.ownTag x.pa + 16 * acc) 0)) false false)))
    ∧ (∀ f, s.access k .tagStore lo gran gran = .error f → Traps (.tgst x16 o a) s f)
    ∧ (k.priv = false → exec (.tlbinvVa a b) s = .next (s.takeTrap s.cur ⟨0x0D, 0⟩)
        ∧ exec (.tlbinvAsid b) s = .next (s.takeTrap s.cur ⟨0x0D, 0⟩) ∧ exec .tlbinvAll s = .next (s.takeTrap s.cur ⟨0x0D, 0⟩))
    ∧ (∀ (c : Fin 32) (slot : Fin 8), s.cur = .core c slot →
        exec (.fence sc ord) s = .next (s.withEff (.drain sc))
        ∧ exec (.drain sc) s = .next (s.withEff (.drain sc))
        ∧ (rangeBad lo len = none → exec (.clean a b) s
            = .next ((s.withEff (.clean lo len)).modCore c fun x => { x with gst := x.gst + 1 }))
        ∧ (∀ ps t, s.access k .tagStore lo gran gran = .ok (ps, t) → exec (.tgst x16 o a) s
            = .next ((t.withEff (.tags ((tagBytes x16 ps).zipIdx.map fun q => (q.1, (t.ri o).toNat / 2 ^ (4 * q.2) % 16)))).modCore c
                fun x => { x with gst := x.gst + 1 }))
        ∧ (k.priv = true → s.pairCur ≠ some 1 →
            let gone : InvForm → State := fun f => ((s.releaseAt k.dom .device).invalidate f k.world (.core c)).modCore c fun x => { x with wait := .tlbinv }
            exec (.tlbinvVa a b) s = .next (gone (.va (lo / 2 ^ 12 % 2 ^ 36 * 4096) ((s.ri b).toNat % 2 ^ 16)))
            ∧ exec (.tlbinvAsid b) s = .next (gone (.asid ((s.ri b).toNat % 2 ^ 16)))
            ∧ exec .tlbinvAll s = .next (gone .all)))
    ∧ (∀ u : Tid, s.cur = .thr u →
        let dom : Dom := .unit u.unit
        let back := if wide then (s.landCopies dom).cleanAll dom else s
        let after : State → State := fun t => if wide ∧ (ord = .acq ∨ ord = .ar) then t.dropAll dom else t
        exec (.fence sc ord) s = .next (after (if ord = .rel ∨ ord = .ar then back else s)).moveOn
        ∧ exec (.drain sc) s = .next (back.heldBy u .drain)
        ∧ (rangeBad lo len = none → exec (.clean a b) s = .next (s.cleanLines dom meet).moveOn)
        ∧ (∀ ps t, s.access k .tagStore lo gran gran = .ok (ps, t) → exec (.tgst x16 o a) s
            = .next (((tagBytes x16 ps).zipIdx.map fun q => (q.1, (t.ri o).toNat / 2 ^ (4 * q.2) % 16)).foldl
                (fun s c => s.putTag k c.1 c.2) t).moveOn)
        ∧ (k.priv = true →
            let gone : InvForm → State := fun f => ((s.releaseAt dom .device).invalidate f k.world (.thread u)).heldBy u .tlbinv
            exec (.tlbinvVa a b) s = .next (gone (.va (lo / 2 ^ 12 % 2 ^ 36 * 4096) ((s.ri b).toNat % 2 ^ 16)))
            ∧ exec (.tlbinvAsid b) s = .next (gone (.asid ((s.ri b).toNat % 2 ^ 16)))
            ∧ exec .tlbinvAll s = .next (gone .all)))

/-- O43. QPUSH, QPOP and QTRY: checks, order, drops and waits. Rests on choices of the model: when a thread's results are there (log 8);
what a release does (log 122); a queue closed under a waiting push (log 35); the QDROP record (log 68); what a QPUSH at a full
queue waits for (log 87); the status register among D (log 137). (spec/08_memory_ops.md: Channel queues, spec/07_ordering.md: Engines other than the issuing pipeline) -/
def Obligations.QueueOps : Prop :=
  ∀ (s : State) (sc : Scope) (ord : Ord) (d a b : Opd), s.pairCur ≠ some 1 →
    let id := s.ri a
    let q := id.toNat
    let e := match s.cur with
      | .core c _ => s.modCore c fun x => { x with pushOn := none }
      | .thr _ => s
    let rel : State → State := fun t => match t.cur with
      | .core _ _ => t.releaseAt t.cur.dom .device
      | .thr _ => if isRel ord then t.releaseAt t.cur.dom sc else t
    let before := rel e
    let was := rel s
    let got : State → State := fun t => if isAcq ord then t.acquireAt s.cur.dom sc else t
    let shut := match s.cur with
      | .core c _ => (s.core c).pushOn = some (q % 2 ^ 13, true)
      | .thr _ => False
    (shut → exec (.qpush sc ord d a) s = .next (s.takeTrap s.cur ⟨0x17, BitVec.ofNat 64 (q % 2 ^ 13 + 5 * 2 ^ 16)⟩))
    ∧ (∀ r, ¬ shut → s.queueReason id true = some r →
        exec (.qpush sc ord d a) s = .next (s.takeTrap s.cur ⟨0x17, BitVec.ofNat 64 (q % 2 ^ 13 + r * 2 ^ 16)⟩))
    ∧ (∀ r, s.queueReason id false = some r →
        exec (.qpop sc ord d a b) s = .next (s.takeTrap s.cur ⟨0x17, BitVec.ofNat 64 (q % 2 ^ 13 + r * 2 ^ 16)⟩)
        ∧ exec (.qtry sc ord d a b) s = .next (s.takeTrap s.cur ⟨0x17, BitVec.ofNat 64 (q % 2 ^ 13 + r * 2 ^ 16)⟩))
    ∧ (¬ shut → s.queueReason id true = none →
        let u := before.queue q
        u.waiters = [] →
        let item := u.pack (before.pushSource d u.pushBytes)
        let drop : Queue := { u with drops := min (u.drops + 1) (2 ^ 32 - 1) }
        (u.items.length < u.cap →
            exec (.qpush sc ord d a) s = .next ((before.setQueue q { u with items := u.items ++ [item] }).queueSem q).moveOn)
        ∧ (u.cap ≤ u.items.length → u.fullp = 0 →
            exec (.qpush sc ord d a) s = .next ((before.setQueue q drop).emitAt s.cur 0x28 4 false q 0 0).moveOn)
        ∧ (u.cap ≤ u.items.length → u.fullp = 1 →
            exec (.qpush sc ord d a) s = .next
              (((before.setQueue q { drop with items := u.items.drop 1 ++ [item] }).queueSem q).emitAt s.cur 0x28 4 false q 0 0).moveOn)
        ∧ (∀ t : Tid, s.cur = .thr t → u.cap ≤ u.items.length → 2 ≤ u.fullp →
            exec (.qpush sc ord d a) s = .next (before.heldBy t (.push q))))
    ∧ (∀ (w : Tid) (ws : List Tid), ¬ shut → s.queueReason id true = none →
        let u := before.queue q
        u.waiters = w :: ws →
        exec (.qpush sc ord d a) s = .next
          (((before.setQueue q { u with waiters := ws }).handOff q w (u.pack (before.pushSource d u.pushBytes))).moveOn))
    ∧ (s.queueReason id false = none → ∀ (i : List Byte) (rest : List (List Byte)),
        let u := was.queue q
        u.items = i :: rest →
        let t := (got (was.setQueue q { u with items := rest, drops := 0 })).popResult d b (some (u.unpack i))
          (BitVec.ofNat 64 (min rest.length 65535 * 2 ^ 16 + min u.drops (2 ^ 32 - 1) * 2 ^ 32))
        exec (.qpop sc ord d a b) s = .next t.moveOn ∧ exec (.qtry sc ord d a b) s = .next t.moveOn)
    ∧ (s.queueReason id false = none →
        let u := was.queue q
        u.items = [] →
        let t := (got (was.setQueue q { u with drops := 0 })).popResult d b none (BitVec.ofNat 64 (1 + min u.drops (2 ^ 32 - 1) * 2 ^ 32))
        exec (.qtry sc ord d a b) s = .next t.moveOn
        ∧ (∀ (c : Fin 32) (slot : Fin 8), s.cur = .core c slot → exec (.qpop sc ord d a b) s = .next t.moveOn)
        ∧ (∀ v : Tid, s.cur = .thr v → exec (.qpop sc ord d a b) s
            = .next ((was.setQueue q { u with waiters := u.waiters ++ [v] }).heldBy v (.pop q (opdNum d) (opdNum b) (isAcq ord) sc))))

/-- O44. A write at the home agent: its bytes read back, no other byte changes, no secure byte for a non-secure request, no tag byte. Rests
on choices of the model: the tag region (log 118); the record of a world failure (log 119); the integrity mark (log 141). (spec/11_isolation.md: Worlds, spec/11_isolation.md: Encryption and integrity, spec/07_ordering.md: Where data lives) -/
def Obligations.HomeMemoryFrame : Prop :=
  ∀ (s : State) (world : Bool) (cells : List Host.Cell) (pa : Nat),
    s.homeWrite world cells = (if ∀ c ∈ cells, s.secure c.1 = true → world = true then s
      else s.noteWorld world (cells.map (·.1))).writeSectors world cells
    ∧ (∀ (l r : List Host.Cell) (v : Byte), cells = l ++ (pa, v) :: r → (∀ c ∈ r, c.1 ≠ pa) →
        ¬ (s.tagBase ≤ pa / 64 * 64 ∧ pa / 64 * 64 < s.capacity) → ¬ (s.tagBase ≤ pa ∧ pa < s.capacity) →
        (s.secure pa = true → world = true) →
        (mget 0 s.poisoned (pa / 64) = 0 ∧ (s.secure pa = true → pa / 64 ∈ s.sealed)
          ∨ ∀ i < 64, ∃ c ∈ cells, c.1 = pa / 64 * 64 + i) →
        byteAt (s.writeSectors world cells).mem pa = v
        ∧ ∀ w : Bool, (s.secure pa = true → w = true) → (s.writeSectors world cells).homeByte w pa = (v, none))
    ∧ ((∀ c ∈ cells, c.1 ≠ pa) → ∀ w : Bool, (s.writeSectors world cells).homeByte w pa = s.homeByte w pa)
    ∧ (s.secure pa = true → world = false →
        byteAt (s.writeSectors world cells).mem pa = byteAt s.mem pa
        ∧ ∀ w : Bool, (s.writeSectors world cells).homeByte w pa = s.homeByte w pa)
    ∧ (s.tagBase ≤ pa → pa < s.capacity →
        byteAt (s.writeSectors world cells).mem pa = byteAt s.mem pa ∧ ∀ w : Bool, ((s.writeSectors world cells).homeByte w pa).1 = 0)

/-- O45. A rollback returns every scratchpad byte of the interval. (spec/12_recovery.md: The checkpoint interval) -/
def Obligations.RollbackUndoesScratchpadStores : Prop :=
  ∀ (s : State) (c : Nat) (cells : List Host.Cell),
    let t := s.storeScratch c cells
    (∀ at' : Nat, byteAt ((t.core c).rollback).scratch at' = byteAt ((s.core c).rollback).scratch at')
    ∧ (∀ at' : Nat, (∀ q ∈ cells, q.1 ≠ at') → byteAt (t.core c).scratch at' = byteAt (s.core c).scratch at')
    ∧ (∀ (at' : Nat) (v : Byte) (l r : List Host.Cell), cells = l ++ (at', v) :: r → (∀ q ∈ r, q.1 ≠ at') → byteAt (t.core c).scratch at' = v)
    ∧ (t.core c).arch = (s.core c).arch
    ∧ (let r := (t.core c).rollback
       r.arch = (s.core c).shadow ∧ r.withheld = [] ∧ r.sb = [] ∧ r.sm = [] ∧ r.flight = (s.core c).shadowFlight ∧ r.undo = [])

/-- O46. RAYQ, RAYW, RAYAH and HINTINV of a thread, and the reports and completions they wait for. Rests on choices of the model: when a
thread's results are there (log 8); every child that is not empty is entered (log 59); NOHINT fills nothing (log 136). (spec/06_traversal.md: Queries, spec/06_traversal.md: Any-hit, spec/06_traversal.md: The leaf hint table) -/
def Obligations.QueriesAndHints : Prop :=
  ∀ (s : State) (u : Tid) (sph fast nohint opq : Bool) (q : Fin 64) (h r a : Opd) (d : Fin 64), s.cur = .thr u →
    let x := s.thread u
    let reg : Nat → Nat := fun i => if q.val + i = 0 then 0 else (mget 0 x.x (q.val + i)).toNat
    let begin' : Bool → Nat → Query → Prop := fun sphere radius y =>
      y.sphere = sphere ∧ y.radius = (if radius = 2 ^ 31 then 0 else radius)
      ∧ y.o = (reg 0 % 2 ^ 32, reg 0 / 2 ^ 32, reg 1 % 2 ^ 32) ∧ y.tmin = reg 1 / 2 ^ 32
      ∧ y.d = (reg 2 % 2 ^ 32, reg 2 / 2 ^ 32, reg 3 % 2 ^ 32) ∧ y.tmax = reg 3 / 2 ^ 32
      ∧ y.handle = s.ri h ∧ y.fast = fast ∧ y.nohint = nohint ∧ y.opq = opq ∧ y.pending = none ∧ y.delivered = [] ∧ y.accepted = none
      ∧ y.best = none ∧ y.count = 0 ∧ y.seen = [] ∧ y.header = none ∧ y.hint = none
      ∧ (let wild : Nat → Prop := fun c => c / 2 ^ 23 % 256 = 255
         let bad : Prop :=
           wild (reg 0 % 2 ^ 32) ∨ wild (reg 0 / 2 ^ 32) ∨ wild (reg 1 % 2 ^ 32) ∨ wild (reg 1 / 2 ^ 32)
           ∨ wild (reg 2 % 2 ^ 32) ∨ wild (reg 2 / 2 ^ 32) ∨ wild (reg 3 % 2 ^ 32) ∨ wild (reg 3 / 2 ^ 32)
           ∨ (f32Real (reg 3 / 2 ^ 32)).lt (f32Real (reg 1 / 2 ^ 32)) = true
           ∨ (if sphere then wild radius ∨ 2 ^ 31 < radius
              else reg 2 % 2 ^ 31 = 0 ∧ reg 2 / 2 ^ 32 % 2 ^ 31 = 0 ∧ reg 3 % 2 ^ 31 = 0)
         (bad → y.report = some .bad) ∧ (¬ bad → y.report = none))
    (x.query ≠ none → exec (.rayqRay (.sx q) h fast nohint opq) s = .next (s.takeTrap s.cur ⟨0x18, 1⟩)
        ∧ exec (.rayqSph r (.sx q) h fast nohint opq) s = .next (s.takeTrap s.cur ⟨0x18, 1⟩))
    ∧ (x.query = none →
        (∃ y, begin' false 0 y ∧ exec (.rayqRay (.sx q) h fast nohint opq) s = .next (s.setThread u { x with query := some y, pc := x.pc + 8 }))
        ∧ (∃ y, begin' true ((s.ri r).toNat % 2 ^ 32) y
            ∧ exec (.rayqSph r (.sx q) h fast nohint opq) s = .next (s.setThread u { x with query := some y, pc := x.pc + 8 }))
        ∧ exec (.rayw (.sx d)) s = .next (s.putReport u d 0x7F800000 7 0 0 0).moveOn)
    ∧ (x.query.bind (·.pending) = none →
        exec .rayahIgnore s = .next (s.takeTrap s.cur ⟨0x18, 2⟩) ∧ exec .rayahAccept s = .next (s.takeTrap s.cur ⟨0x18, 2⟩))
    ∧ (∀ y, x.query = some y →
        (∀ c, y.pending = some c →
            exec .rayahIgnore s = .next (s.setThread u { x with query := some { y with pending := none }, pc := x.pc + 8 })
            ∧ exec .rayahAccept s = .next (s.setThread u
                { x with query := some { y with pending := none, accepted := leastHit y.accepted (some c) }, pc := x.pc + 8 })
            ∧ exec (.rayw (.sx d)) s = .next (s.putHit u d 2 c y.count).moveOn)
        ∧ (y.pending = none → y.report = none → exec (.rayw (.sx d)) s = .next (s.heldBy u (.query d)))
        ∧ (∀ c, y.pending = none → y.report = some (.candidate c) →
            let n := min (y.count + 1) (2 ^ 32 - 1)
            let y' : Query := { y with report := none, pending := some c, delivered := y.delivered ++ [(c.gid, c.pid)], count := n }
            exec (.rayw (.sx d)) s = .next ((s.putHit u d 2 c n).modThread u fun z => { z with query := some y', pc := z.pc + 8 }))
        ∧ (∀ c, y.pending = none → y.report = some (.hit c) →
            exec (.rayw (.sx d)) s = .next (((s.putHit u d 1 c y.count).fillHint u y c.leaf).closeQuery u y.count).moveOn)
        ∧ (y.pending = none → y.report = some .miss →
            exec (.rayw (.sx d)) s = .next ((s.putReport u d 0x7F800000 0 (2 ^ 64 - 1) 0 y.count).closeQuery u y.count).moveOn)
        ∧ (∀ off, y.pending = none → y.report = some (.malformed off) →
            exec (.rayw (.sx d)) s = .next ((s.putReport u d 0x7F800000 3 off 0 y.count).closeQuery u y.count).moveOn)
        ∧ (y.pending = none → y.report = some .bad →
            exec (.rayw (.sx d)) s = .next ((s.putReport u d 0x7F800000 5 0 0 0).closeQuery u y.count).moveOn)
        ∧ (∀ c va, y.pending = none → y.report = some (.fault c va) →
            exec (.rayw (.sx d)) s = .next ((s.modQuery u fun z => { z with report := none }).takeTrap s.cur ⟨c, BitVec.ofNat 64 va⟩)))
    ∧ (let part := Card.part (s.cardAt s.cur)
       exec (.hintinv a) s = .next ((s.dropHints fun e => e.part == part && e.saddr == (s.ri a).toNat / 2 ^ 6 % 2 ^ 42).heldBy u .hintinv)
       ∧ exec .hintinvAll s = .next ((s.dropHints fun e => e.part == part).heldBy u .hintinv)
       ∧ (∀ (p : Hint → Bool) (v : Nat), v < 32 → ((s.dropHints p).unit v).hints = (s.unit v).hints.filter fun e => !p e))
    ∧ (∀ (v : Tid) (choice : Nat),
        let y := s.thread v
        (y.wait = .hintinv → exec (.hintinvComplete v) s = .next (s.wakeDone v))
        ∧ (y.wait ≠ .hintinv → exec (.hintinvComplete v) s = .next s)
        ∧ (y.query = none → exec (.queryReportReady v choice) s = .next s)
        ∧ (∀ z, y.query = some z →
            (z.report ≠ none ∨ z.pending ≠ none → exec (.queryReportReady v choice) s = .next s)
            ∧ (∀ (n : Nat) (y : Query), z.report = none → z.pending = none →
                let r := s.reportQuery v z choice
                (r.thread v).wait = .query n → (r.thread v).query = some y →
                let now : State → Prop := fun t => exec (.queryReportReady v choice) s = .next (t.wakeDone v)
                y.pending = none →
                (∀ c, y.report = some (.candidate c) →
                    let m := min (y.count + 1) (2 ^ 32 - 1)
                    now ((r.putHit v n 2 c m).modQuery v fun q =>
                      { q with report := none, pending := some c, delivered := q.delivered ++ [(c.gid, c.pid)], count := m }))
                ∧ (∀ c, y.report = some (.hit c) → now (((r.putHit v n 1 c y.count).fillHint v y c.leaf).closeQuery v y.count))
                ∧ (y.report = some .miss → now ((r.putReport v n 0x7F800000 0 (2 ^ 64 - 1) 0 y.count).closeQuery v y.count))
                ∧ (∀ off, y.report = some (.malformed off) → now ((r.putReport v n 0x7F800000 3 off 0 y.count).closeQuery v y.count))
                ∧ (y.report = some .bad → now ((r.putReport v n 0x7F800000 5 0 0 0).closeQuery v y.count))
                ∧ (∀ c va, y.report = some (.fault c va) → exec (.queryReportReady v choice) s = .next
                    (((r.modQuery v fun q => { q with report := none }).threadTrap v c (BitVec.ofNat 64 va)).fillTmask v.unit)))
            ∧ (z.report = none → z.pending = none → (∀ n, ((s.reportQuery v z choice).thread v).wait ≠ .query n) →
                exec (.queryReportReady v choice) s = .next (s.reportQuery v z choice))))

/-- O47. ISAMP, CMSAMP and CMSEG: descriptors, borders, statuses and where the answers go. Rests on choices of the model: when a thread's
results are there (log 8); the page fault of descriptors (log 20); the sign of a zero cost (log 109). (spec/06_traversal.md: Image sampling, spec/06_traversal.md: Layered cost maps) -/
def Obligations.SamplingOps : Prop :=
  ∀ (s : State) (u : Tid) (a b : Opd) (e p : Fin 64), s.cur = .thr u → e.val % 2 = 0 → p.val % 2 = 0 →
    let k := s.ctx s.cur
    let nan := 0x7FC00000
    let d : Opd := .sx e
    let at' := s.ri a
    let lo := (s.ri b).toNat % 2 ^ 32
    let hi := (s.ri b).toNat / 2 ^ 32
    let fin' : Nat → Prop := fun c => f32Fin c = true
    let two : State → Nat → Nat → Nat → State := fun t c n g => (t.putPair d (pair32 c n) (BitVec.ofNat 64 g)).moveOn
    let none' := (s.putPair d (pair32 nan nan) (pair32 nan nan)).moveOn
    let acq := s.acquireAt k.dom .device
    let p0 := s.getX u p
    let p1 := s.getX u (p + 1)
    (at'.toNat % 32 ≠ 0 → exec (.isamp d a b) s = .next none')
    ∧ (at'.toNat % 32 = 0 →
        (∀ f, s.sampleLoad k at'.toNat 32 = .error f → Traps (.isamp d a b) s f)
        ∧ (∀ img t, s.sampleLoad k at'.toNat 32 = .ok (img, t) →
            let n := texelChans (fieldAt img 16 1)
            (texelMapBad img = true → exec (.isamp d a b) s = .next (t.putPair d (pair32 nan nan) (pair32 nan nan)).moveOn)
            ∧ (texelMapBad img = false → ¬ (fin' lo ∧ fin' hi) →
                exec (.isamp d a b) s = .next (t.putChans d (List.replicate n nan)).moveOn)
            ∧ (texelMapBad img = false → fin' lo → fin' hi →
                (∀ f, t.texels k img (sampleTaps (fieldAt img 18 1 == 1) lo hi) = .error f → Traps (.isamp d a b) s f)
                ∧ (∀ l t2, t.texels k img (sampleTaps (fieldAt img 18 1 == 1) lo hi) = .ok (l, t2) →
                    exec (.isamp d a b) s = .next
                      (t2.putChans d ((List.range n).map fun c => blendChan (l.map fun y => (y.1, y.2.getD c (.zero false))))).moveOn))))
    ∧ (at'.toNat % 128 ≠ 0 → exec (.cmsamp d a b) s = .next (two s nan 2 0) ∧ exec (.cmseg d a (.sx p)) s = .next (two s nan 0 0))
    ∧ (at'.toNat % 128 = 0 →
        (∀ f, acq.sampleLoad k at'.toNat 128 = .error f → Traps (.cmsamp d a b) s f ∧ Traps (.cmseg d a (.sx p)) s f)
        ∧ (∀ m t, acq.sampleLoad k at'.toNat 128 = .ok (m, t) →
            let gen := fieldAt m 64 8
            let outside := quiet32 (fieldAt m 44 4)
            (mapBad m = true → exec (.cmsamp d a b) s = .next (two t nan 2 0) ∧ exec (.cmseg d a (.sx p)) s = .next (two t nan 0 0))
            ∧ (mapBad m = false →
                (¬ (fin' lo ∧ fin' hi) → exec (.cmsamp d a b) s = .next (two t nan 2 0))
                ∧ (fin' lo → fin' hi →
                    let x := cellPos m lo 32
                    let y := cellPos m hi 36
                    let i := (f32Real x).floor
                    let j := (f32Real y).floor
                    let inside := fin' x ∧ fin' y ∧ 0 ≤ i ∧ 0 ≤ j ∧ i < mapWidth m ∧ j < mapHeight m
                    (¬ inside → exec (.cmsamp d a b) s = .next (two t outside 1 gen))
                    ∧ (inside → (∀ f, t.cellCost k m i.toNat j.toNat = .error f → Traps (.cmsamp d a b) s f)
                        ∧ (∀ c t2, t.cellCost k m i.toNat j.toNat = .ok (c, t2) → exec (.cmsamp d a b) s = .next (two t2 c 0 gen))))
                ∧ (let ends := [p0 % 2 ^ 32, p0 / 2 ^ 32, p1 % 2 ^ 32, p1 / 2 ^ 32]
                   ((∃ c ∈ ends, ¬ fin' c) → exec (.cmseg d a (.sx p)) s = .next (two t nan 0 0))
                   ∧ ((∀ c ∈ ends, fin' c) →
                      let x0 := cellPos m (p0 % 2 ^ 32) 32
                      let y0 := cellPos m (p0 / 2 ^ 32) 36
                      let x1 := cellPos m (p1 % 2 ^ 32) 32
                      let y1 := cellPos m (p1 / 2 ^ 32) 36
                      (fin' x0 ∧ fin' y0 ∧ fin' x1 ∧ fin' y1 →
                        let cells := segmentCells m (f32Real x0) (f32Real y0) (f32Real x1) (f32Real y1)
                        let first := if cells.1.length < cells.2 then some outside else none
                        (∀ f, t.cellsCost k m cells.1 first = .error f → Traps (.cmseg d a (.sx p)) s f)
                        ∧ (∀ c t2, t.cellsCost k m cells.1 first = .ok (c, t2) →
                            exec (.cmseg d a (.sx p)) s = .next (two t2 (c.getD outside) cells.2 gen)))
                      ∧ (¬ (fin' x0 ∧ fin' y0 ∧ fin' x1 ∧ fin' y1) →
                        let all := (List.range (mapWidth m)).flatMap fun i => (List.range (mapHeight m)).map fun j => (i, j)
                        (∀ f, t.cellsCost k m all (some outside) = .error f → Traps (.cmseg d a (.sx p)) s f)
                        ∧ (∀ c t2, t.cellsCost k m all (some outside) = .ok (c, t2) →
                            exec (.cmseg d a (.sx p)) s = .next (two t2 (c.getD outside) (2 ^ 32 - 1) gen))))))))

/-- O48. Rails, bring-up stages, tests of engines, time and register writes: when each event acts and what it does. Rests on choices of the
model: an event whose conditions fail (log 1); the payload and the stages (logs 29, 25); the logs' sectors (log 152); self tests
and CLUST (log 30); PTIME steps (log 44); what the rails leave (log 77); FMAPRD 2 and the order of faults (logs 107, 108); PTIME
held at 0 (log 127); steps and the reference (logs 153, 154); PTP fields (log 155); a release turned away (log 145). (spec/00_scope.md: The package, spec/13_boundary.md: Stages, spec/13_boundary.md: Reduced service, spec/09_time_trace.md: Package time, spec/12_recovery.md: Supervision and restart, spec/05_matrix.md: MSTEST and FMAPRD, spec/11_isolation.md: Privilege and control regions) -/
def Obligations.PowerBootAndTime : Prop :=
  ∀ (s : State) (die : Fin 3) (kind : ImageKind) (tr : BitVec 16) (d : Dom) (res : TestResult) (c : Fin 32) (found : Faults)
    (ptp delta : Nat) (esec : Word) (next : TimeState) (rate : Int) (p : Fin 2) (frame : List Byte) (mhz : BitVec 16)
    (req : Requester) (pa : Nat) (v : Word),
    let r := s.reeve
    let same : Instr → Prop := fun i => exec i s = .next s
    (r.rails = true → same .powerOn)
    ∧ (r.rails = false → same .powerOff
        ∧ ∃ t, exec .powerOn s = .next t ∧ t.reeve.rails = true ∧ t.reeve.stage = 0 ∧ t.reeve.boots = r.boots + 1 ∧ t.mem = [] ∧ t.cores = []
          ∧ t.units = [] ∧ t.ptime = 0 ∧ t.flash = s.flash ∧ t.defects = s.defects)
    ∧ (r.rails = true → ∃ t, exec .powerOff s = .next t ∧ t.reeve.rails = false ∧ t.mem = [] ∧ t.cores = [] ∧ t.flash = s.flash)
    ∧ exec (.thermalTrip die) s = .next { s with reeve := { r with thermtripN := false } }
    ∧ (s.imageDue kind = false → same (.imageVerify kind))
    ∧ (s.imageDue kind = true →
        (s.directory = none → exec (.imageVerify kind) s = .next { s with reeve := { r with failcode := 1 } })
        ∧ (∀ dir, s.directory = some dir →
            (s.readImage (fieldAt dir (kindNo kind * 8) 8) kind = none →
              exec (.imageVerify kind) s = .next { s with reeve := { r with failcode := BitVec.ofNat 4 (kindNo kind) } })
            ∧ (∀ i, s.readImage (fieldAt dir (kindNo kind * 8) 8) kind = some i → exec (.imageVerify kind) s = .next (s.useImage kind i))))
    ∧ (∀ i : Image, i.payload.length ≤ 786432 → (s.useImage .firmware i).reeve.fwOk = true)
    ∧ (r.failcode ≠ 0 ∨ (r.stage ≠ 1 ∧ r.stage ≠ 2) ∨ (r.stage = 2 ∧ r.trained ≠ 0) → same (.memoryTrainingComplete tr))
    ∧ (let fit : Prop := s.cfg 4 2 = 0xFFFF ∧ (s.cfg 6 2 = 128 ∨ s.cfg 6 2 = 256)
       let t : State := { s with reeve := { r with stage := 2, trained := tr } }
       (r.failcode = 0 → r.stage = 1 → ¬ fit →
          exec (.memoryTrainingComplete tr) s = .next { s with reeve := { r with stage := 2, failcode := 4 } })
       ∧ (r.failcode = 0 → r.trained = 0 → (r.stage = 1 ∧ fit ∨ r.stage = 2) → exec (.memoryTrainingComplete tr) s
            = .next (if tr = 0xFFFF then t.openLogs else { t with reeve := { t.reeve with failcode := 4 } })))
    ∧ (r.stage ≠ 4 ∨ r.failcode ≠ 0 ∨ r.trained ≠ 0xFFFF ∨ (∃ e ∈ allDoms, s.tested e = false) → same .stageFullEntry)
    ∧ (r.stage = 4 → r.failcode = 0 → r.trained = 0xFFFF → (∀ e ∈ allDoms, s.tested e = true) →
        let t : State := { s with reeve := { r with stage := 5, memrate := 144 } }
        let t := t.rebindAll fun _ => true
        let t := (t.residents.map (·.1)).foldl State.releaseTurned t
        exec .stageFullEntry s = .next ((List.range 32).foldl (fun x k =>
          if (x.core k).job = none ∧ (x.core k).eng.mhz = 800 then x.setClock (.core (fin 32 k)) 1600 else x) t))
    ∧ (∀ n z at' flow, s.slot n = some z → z.turned = some (at', flow) →
        (at' ≠ s.ptime → s.releaseTurned n = s)
        ∧ (at' = s.ptime → Card.spor z.card = false → s.releaseTurned n
            = (s.modSlot n fun z => { z with skip := z.skip - 1, turned := none }).releaseCard n at' flow))
    ∧ (r.halted = true ∨ r.stage.toNat < 3 ∨ s.tested d = true → same (.selfTestComplete d res))
    ∧ (let logged : Dom → State := fun e => match (s.eng e).failed with
         | some why => s.errorLog (s.eng e).world e.src 4 0 0 0 0 why
         | none => s
       r.halted = false → 3 ≤ r.stage.toNat →
       (∀ u : Fin 32, s.tested (.unit u) = false → exec (.selfTestComplete (.unit u) res) s
          = .next (if res.pass then (logged (.unit u)).admitEngine (.unit u) else (logged (.unit u)).retireEngine (.unit u)))
       ∧ (s.tested (.core c) = false →
        let t := (logged (.core c)).testArray c res.faults
        exec (.selfTestComplete (.core c) res) s = .next (if (t.core c).fmap.legal then t.admitEngine (.core c) else t.retireEngine (.core c))))
    ∧ (r.halted = true ∨ (s.core c).job ≠ none ∨ s.usable 0 c = false → same (.backgroundMstest c found))
    ∧ (r.halted = false → (s.core c).job = none → s.usable 0 c = true →
        let t := s.testArray c found
        exec (.backgroundMstest c found) s = .next (if (t.core c).fmap.legal then t.rebindShape c
          else t.modEng (.core c) fun e => { e with failed := if e.failed = none then some 5 else e.failed }))
    ∧ ((s.core c).mstest = none → same (.mstestComplete c found))
    ∧ (∀ (full : Bool) (e : Nat) (tpc : Word), (s.core c).mstest = some (full, e, tpc) →
        let f := (s.core c).fmap
        let rep := f.report (f.lines (s.found c found))
        let t := (s.testArray c found).modCore c fun x =>
          { x with mstest := none, arch := { x.arch with s := mset 0 x.arch.s e (rep.setWidth 64) } }
        rep.getLsbD 1 = false →
          ((t.core c).eng.stepping = false ∨ (t.core c).intervalAdv = 0 → exec (.mstestComplete c found) s = .next t)
          ∧ ((t.core c).eng.stepping = true → (t.core c).intervalAdv ≠ 0 → exec (.mstestComplete c found) s = .next (t.stepCommit c)))
    ∧ (let may : Prop := r.halted = false ∧ r.counting = true ∧ r.stage.toNat ≤ 3 ∧ r.timeState = .locked ∧ r.stepped = false
         ∧ (s.ptime + delta) % 16000000000 = ptp % 16000000000
       (¬ may → same (.ptimeStep ptp delta esec))
       ∧ (may → ∃ t, exec (.ptimeStep ptp delta esec) s = .next t ∧ t.ptime = s.ptime + delta
          ∧ t.reeve = { r with stepped := true, esec := esec } ∧ t.mem = s.mem))
    ∧ (let may : Prop := r.halted = false ∧ r.timeSrc ≠ 3 ∧ next ≠ r.timeState ∧ next ≠ .free ∧ (r.timeState = .free → next = .locking)
       (¬ may → same (.timebaseStateChange next))
       ∧ (may → ∃ t, exec (.timebaseStateChange next) s = .next t ∧ t.reeve.timeState = next))
    ∧ (let may : Prop := r.timeSrc = p.val ∧ r.cfg ≠ [] ∧ r.halted = false ∧ (s.cfg 0x0B 1).testBit p.val = true
         ∧ s.isPtp frame = true ∧ 64 ≤ frame.length + 4 ∧ frame.length + 4 ≤ 9600
       (¬ may → same (.ptpMessage p frame rate))
       ∧ (may → ∃ t, exec (.ptpMessage p frame rate) s = .next t
          ∧ t.reeve.ppm = (if s.ptpHeard frame then max (-200) (min 200 rate) else r.ppm)
          ∧ (mget Mac.reset t.bnd.macs p).reeve = (mget Mac.reset s.bnd.macs p).reeve ++ [frame]))
    ∧ (r.halted = true ∨ r.timeSrc ≠ 2 → same (.ppsEdge rate))
    ∧ (r.halted = false → r.timeSrc = 2 → exec (.ppsEdge rate) s = .next { s with reeve := { r with ppm := max (-200) (min 200 rate) } })
    ∧ ((s.eng d).mhz = mhz.toNat → same (.clockChange d mhz))
    ∧ (∃ t, exec (.clockChange d mhz) s = .next t ∧ (t.eng d).mhz = mhz.toNat ∧ (t.eng d).cycle t.ptime = (s.eng d).cycle s.ptime)
    ∧ (isControl pa = false ∨ pa % 8 ≠ 0 ∨ s.reqPriv req = false → same (.registerWrite req pa v))
    ∧ (s.reqPriv req = true → exec (.registerWrite req (Config.ctlBase + 2 * 2 ^ 24) v) s = exec (.bewinWrite req v) s
        ∧ exec (.registerWrite req (Config.ctlBase + 16 * 2 ^ 24) v) s = exec (.powercapWrite req v) s)

/-- O49. Cards: commands, releases, dispatch, pre-emption, the server, completion, misses and demotion. Rests on choices of the model: the
placing of best-effort jobs (log 73); the windows of the server (logs 74, 161); moves of saved jobs (log 131); a submit while the
job is live (log 97); malformed window words (log 98); a core that begins to wait (log 117). (spec/10_progress.md: Registering and submitting, spec/10_progress.md: Release and dispatch, spec/10_progress.md: Pre-emption, spec/10_progress.md: Deadlines, overruns and completion, spec/10_progress.md: Admission, spec/12_recovery.md: Pre-emption save and restore) -/
def Obligations.CardCommandsAndReleases : Prop :=
  ∀ (s : State) (req : Requester) (card : BitVec 44) (n : Nat) (cls : EngClass) (place : List (Fin 32)) (c : Fin 32) (d : Dom),
    let same : Instr → Prop := fun i => exec i s = .next s
    let world := s.reqWorld req
    let pa := card.toNat
    let bytes := (s.homeRead world pa 128).1
    let off := s.reqPriv req = false ∨ s.reeve.stage.toNat < 3 ∨ pa % 128 ≠ 0 ∨ (s.secure pa = true ∧ world = false)
    let reply : State → Nat → Host.Outcome State Fault Refusal := fun t w => .next (t.homeWrite world (cellsOf (pa + 120) (leBytes 8 w)))
    let now := s.ptime
    (off → same (.register req card) ∧ same (.submit req card) ∧ same (.retire req card) ∧ same (.abort req card))
    ∧ (¬ off →
        (let r := s.registerCard world bytes
         exec (.register req card) s = reply r.2.2 (r.1 + r.2.1 * 2 ^ 8)
         ∧ (cardOk bytes = false ∨ s.partEn (Card.part bytes) = false → r = (0x10, 0, s))
         ∧ (r.1 = 1 → ∃ z, r.2.2.slot r.2.1 = some z ∧ z.card = bytes ∧ z.state = .none ∧ z.retiring = false))
        ∧ (s.findJob (Card.jobid bytes) = none →
            exec (.submit req card) s = reply s 0x11 ∧ exec (.retire req card) s = reply s 0x11 ∧ exec (.abort req card) s = reply s 0x11)
        ∧ (∀ m z, s.findJob (Card.jobid bytes) = some m → s.slot m = some z →
            (Card.world z.card ≠ world →
              exec (.submit req card) s = reply s 0x17 ∧ exec (.retire req card) s = reply s 0x17 ∧ exec (.abort req card) s = reply s 0x17)
            ∧ (Card.world z.card = world →
              (Card.spor z.card = false → exec (.submit req card) s = reply s (0x18 + m * 2 ^ 8 + z.skip * 2 ^ 32))
              ∧ (Card.spor z.card = true → z.retiring = false →
                  let t := s.takeRelease m 0
                  exec (.submit req card) s = reply t (0x02 + m * 2 ^ 8 + ((t.slot m).map (·.skip)).getD z.skip * 2 ^ 32))
              ∧ (z.retiring = true → exec (.retire req card) s = reply s (0x19 + m * 2 ^ 8 + z.skip * 2 ^ 32))
              ∧ (z.retiring = false → z.state ≠ .none → exec (.retire req card) s = reply
                  (s.modSlot m fun z => { z with retiring := true, nextRelease := none, deferred := none }) (0x03 + m * 2 ^ 8 + z.skip * 2 ^ 32))
              ∧ (z.state = .none → exec (.abort req card) s = reply s (0x1A + m * 2 ^ 8 + z.skip * 2 ^ 32))
              ∧ (z.state ≠ .none → z.endStatus ≠ none → exec (.abort req card) s = reply s (0x04 + m * 2 ^ 8 + z.skip * 2 ^ 32))
              ∧ (z.state ≠ .none → z.endStatus = none →
                  let t := s.finishJob m 3 0
                  exec (.abort req card) s = reply t (0x04 + m * 2 ^ 8 + ((t.slot m).map (·.skip)).getD z.skip * 2 ^ 32)))))
    ∧ (s.slot n = none → same (.periodicRelease n) ∧ same (.deferredRelease n) ∧ same (.jobComplete n) ∧ same (.deadlineMiss n)
        ∧ same (.cyclesDemotion n))
    ∧ (∀ z, s.slot n = some z →
        (exec (.periodicRelease n) s = exec (.periodicRelease n) (s.completeJob n))
        ∧ (z.nextRelease = none → s.jobDone n z = false → same (.periodicRelease n))
        ∧ (z.deferred = none → same (.deferredRelease n))
        ∧ (∀ at', z.nextRelease = some at' → s.jobDone n z = false →
            (now < at' ∨ z.retiring = true → same (.periodicRelease n))
            ∧ (at' ≤ now → z.retiring = false → ∃ t y, exec (.periodicRelease n) s = .next t ∧ t.slot n = some y
                ∧ y.nextRelease = some (at' + Card.period z.card) ∧ y.card = z.card
                ∧ (z.state = .none ∧ s.mayRelease z.card = true → y.state = .released ∧ y.release = at' ∧ y.skip = z.skip
                    ∧ y.deadline = (if Card.deadline z.card = 0 then 0 else at' + Card.deadline z.card))
                ∧ (¬ (z.state = .none ∧ s.mayRelease z.card = true) → y.state = z.state ∧ y.skip = min (z.skip + 1) (2 ^ 32 - 1))))
        ∧ (∀ at', z.deferred = some at' →
            (now < at' ∨ z.retiring = true ∨ z.state ≠ .none → same (.deferredRelease n))
            ∧ (at' ≤ now → z.retiring = false → z.state = .none →
                ∃ t y, exec (.deferredRelease n) s = .next t ∧ t.slot n = some y ∧ y.state = .released ∧ y.release = at' ∧ y.deferred = none))
        ∧ (s.jobDone n z = false → same (.jobComplete n))
        ∧ (s.jobDone n z = true → ∃ t, exec (.jobComplete n) s = .next t ∧
            (z.retiring = true → t.slot n = none) ∧ (z.retiring = false → ∃ y, t.slot n = some y ∧ y.state = .none ∧ y.engines = []))
        ∧ (z.live = false ∨ z.missed = true ∨ z.deadline = 0 ∨ now < z.deadline ∨ (now = z.deadline ∧ s.jobDone n z = true) →
            same (.deadlineMiss n))
        ∧ (z.live = true → z.missed = false → z.deadline ≠ 0 → z.deadline ≤ now → ¬ (now = z.deadline ∧ s.jobDone n z = true) →
            let t := (s.settleServers.emitJob 0x60 z.card 0x0D 0 (min (z.freezeTo now / 16) (2 ^ 32 - 1)) 0 0).modSlot n fun z => { z with missed := true }
            let low := t.modSlot n fun z => { z with bestEffort := true }
            exec (.deadlineMiss n) s = .next (if Card.miss z.card = 0 then t.finishJob n 2 0x28 else if Card.miss z.card = 1 then low
              else low.jobTrap n 0x28 (BitVec.ofNat 64 z.deadline)))
        ∧ (let past := ∃ i < z.engines.length, Card.cycles z.card ≤ s.partCycles n z i
           let due := z.live = true ∧ z.holds = true ∧ z.deadline ≠ 0 ∧ z.demoted = false ∧ past
           (¬ due → same (.cyclesDemotion n))
           ∧ (due → exec (.cyclesDemotion n) s = .next (s.settleServers.modSlot n fun z => { z with demoted := true, bestEffort := true }))))
    ∧ (let k := clsNo cls
       let t := s.settleServer k
       let jobs := ((t.residents.filter fun e => Card.eng e.2.card == k && e.2.ready).map (·.1)).foldl (fun l n => t.insertKey n l) []
       let w := s.ptime / s.beadle.bewin * s.beadle.bewin
       (s.reeve.halted = true ∨ s.reeve.stage.toNat < (if k = 0 then 4 else 5) → exec (.dispatch cls place) s = .next t)
       ∧ (s.reeve.halted = false → (if k = 0 then 4 else 5) ≤ s.reeve.stage.toNat →
            exec (.dispatch cls place) s = .next (t.runChoice (t.evaluate (place.map (·.val)) jobs [])))
       ∧ exec (.serverBudgetExhausted cls) s = .next t
       ∧ (s.reeve.counting = false ∨ (s.beadle.server k).2.1 = some w → exec (.serverWindowBoundary cls) s = .next t)
       ∧ (s.reeve.counting = true → (s.beadle.server k).2.1 ≠ some w → ∃ u, exec (.serverWindowBoundary cls) s = .next u
            ∧ u.beadle.server k = (s.beadle.bemin.toNat * s.beadle.bewin * ((List.range 32).filter fun e => t.usable k e).length / 64, some w, now)))
    ∧ (((s.core c).preempt = none → same (.advanceModeTimeout c))
       ∧ (∀ at', (s.core c).preempt = some (at', true) → same (.advanceModeTimeout c))
       ∧ (∀ at', (s.core c).preempt = some (at', false) →
            let due := at' + Card.pbound (s.cardAt (.core c 0)) - 12288
            (now < due ∨ (s.core c).holdsForSave = true → same (.advanceModeTimeout c))
            ∧ (due ≤ now → (s.core c).holdsForSave = false → exec (.advanceModeTimeout c) s
                = .next ((c.val :: s.gangLive c).foldl (fun t j => t.modCore j fun x => { x with preempt := x.preempt.map fun p => (p.1, true) }) s))))
    ∧ (let owner : Option Nat := match d with
         | .core c => (s.core c).job
         | .unit u => (s.residents.find? fun e => e.2.state == .saving && Card.eng e.2.card != 0 && e.2.engines.contains u.val).map (·.1)
       (owner = none → same (.preemptionComplete d))
       ∧ (∀ m z, owner = some m → s.slot m = some z →
            (z.state ≠ .saving ∨ z.endStatus ≠ none ∨ s.partsEnded m z = true → same (.preemptionComplete d))
            ∧ (z.state = .saving → z.endStatus = none → s.partsEnded m z = false → Card.eng z.card ≠ 0 →
                exec (.preemptionComplete d) s = .next (if s.jobCopies m then s else (s.settleServer 1).saveJob m false))
            ∧ (z.state = .saving → z.endStatus = none → s.partsEnded m z = false → Card.eng z.card = 0 →
                let forced := z.engines.any fun e => (s.core e).part != .ended && !(s.core e).holdsForSave
                ((∃ e ∈ z.engines, (s.core e).savable = false ∧ s.gangWaits e = false) → same (.preemptionComplete d))
                ∧ ((∀ e ∈ z.engines, (s.core e).savable = true ∨ s.gangWaits e = true) →
                    exec (.preemptionComplete d) s = .next ((s.settleServer 0).saveJob m forced)))))

/-- O50. Beadle's and Tollgate's fields, register writes, channel accounts, LEAVE grants, the power cap and energy. Rests on choices of the
model: the bases of control regions (log 17); OVERRUN once (log 75); requests above LEAVEMAX (log 159); energy of a unit (logs 80,
128); traffic of requesters (log 112). (spec/10_progress.md: Tollgate, spec/10_progress.md: Current, leave and energy, spec/10_progress.md: Release and dispatch, spec/13_boundary.md: Interfaces) -/
def Obligations.ControlFieldsAndAccounts : Prop :=
  ∀ (s : State) (req : Requester) (v : Word) (ch : Fin 16) (tr : Traffic) (who : Payer) (d : Dom) (uj gi : Nat) (c : Fin 32) (pa : Nat),
    let b := s.beadle
    let same : Instr → Prop := fun i => exec i s = .next s
    let priv := s.reqPriv req = true
    let dead := s.anyCard (fun c => Card.deadline c != 0) = true
    let toll := s.anyCard (fun c => Card.budget c != 0) = true
    let win := 16000 ≤ v.toNat ∧ v.toNat ≤ 16000000
    let cap := v.toNat % 256
    (¬ priv ∨ dead ∨ 32 < v.toNat % 64 → same (.beminWrite req v))
    ∧ (priv → ¬ dead → v.toNat % 64 ≤ 32 → exec (.beminWrite req v) s = .next { s with beadle := { b with bemin := v.setWidth 6 } })
    ∧ (¬ priv ∨ dead ∨ ¬ win → same (.bewinWrite req v))
    ∧ (priv → ¬ dead → win → exec (.bewinWrite req v) s = .next { s with beadle := { b with bewin := v.toNat } })
    ∧ (¬ priv ∨ toll ∨ ¬ win ∨ 16000000000 % v.toNat ≠ 0 → same (.tgwinWrite req v))
    ∧ (priv → ¬ toll → win → 16000000000 % v.toNat = 0 → exec (.tgwinWrite req v) s = .next { s with beadle := { b with tgwin := v.toNat } })
    ∧ (¬ priv → same (.powercapWrite req v))
    ∧ (priv → cap < 60 ∨ 160 < cap → exec (.powercapWrite req v) s = .next { s with beadle := { b with powerStatus := 1 } })
    ∧ (priv → 60 ≤ cap → cap ≤ 160 → exec (.powercapWrite req v) s = .next
        (if poolUnits cap < s.reservedUnits then { s with beadle := { b with powerStatus := 2 } }
         else { s with beadle := { b with powercap := v.setWidth 8, powerStatus := 0 } }))
    ∧ (let w := s.ptime / b.tgwin * b.tgwin
       let opened := if w = b.tgStart then s else b.heldReqs.foldl (fun s r => s.serve r.1 r.2)
         { s with beadle := { b with tgStart := w, accounts := [], heldReqs := [] } }
       exec .tollgateWindowBoundary s = .next opened
       ∧ (opened.payerOf tr gi = none → exec (.channelRequest ch tr gi) s = .next opened)
       ∧ (∀ p, opened.payerOf tr gi = some p → exec (.channelRequest ch tr gi) s = .next (opened.serve ch p)))
    ∧ (let no := match who with
         | .job n => n % 4096
         | .pool p => 4096 + p.val
       let key := ch.val * 8192 + no
       let a := mget Account.reset b.accounts key
       let urgent := ∃ n z, who = .job n ∧ s.slot n = some z ∧ (z.state = .saving ∨ z.state = .saved ∨ z.resuming = true)
       let free := s.payerBudget who = 0 ∨ a.spent < s.payerBudget who ∨ urgent
       let paid := mset Account.reset b.accounts key { a with spent := a.spent + 64 }
       (free → s.serve ch who = { s with beadle := { b with accounts := paid, charged := mset 0 b.charged no (mget 0 b.charged no + 64) } })
       ∧ (¬ free → mget Account.reset (s.serve ch who).beadle.accounts key = { a with held := true }
            ∧ (ch.val, who) ∈ (s.serve ch who).beadle.heldReqs))
    ∧ ((∀ l ∈ b.leaves, l.dom = d → s.leaveFits l = false) → same (.leaveGrant d))
    ∧ (∀ pre l rest, b.leaves = pre ++ l :: rest → (∀ m ∈ pre, ¬ (m.dom = d ∧ s.leaveFits m = true)) → l.dom = d → s.leaveFits l = true →
        ∃ t, exec (.leaveGrant d) s = .next t ∧ t.beadle.leaves = pre ++ rest
          ∧ (match d with
             | .core k => (t.core k).eng.granted = l.units ∧ (t.core k).wait = (match l.resume, (s.core k).wait with
                | false, .leave _ => .none
                | _, w => w)
             | .unit u =>
                let v : Tid := ⟨u, l.group, l.thread⟩
                (t.group u l.group).granted = l.units
                ∧ (l.resume = false → ∀ n, (s.thread v).wait = .leave n →
                    (t.thread v).wait = .none ∧ (t.thread v).pc = (s.thread v).pc + 8)
                ∧ ((l.resume = true ∨ ∀ n, (s.thread v).wait ≠ .leave n) →
                    (t.thread v).wait = (s.thread v).wait ∧ (t.thread v).pc = (s.thread v).pc)))
    ∧ (let job : Option Nat := match d with
         | .core c => (s.core c).job
         | .unit u => ((s.unit u).groups.findSome? fun g => g.2).map (·.job)
       (job.bind s.slot = none → same (.energyUpdate (.engine d) uj))
       ∧ (∀ n z, job = some n → s.slot n = some z →
            let i := Card.enidx z.card
            ∃ t, exec (.energyUpdate (.engine d) uj) s = .next t
              ∧ mget 0 t.beadle.counters i = mget 0 b.counters i + BitVec.ofNat 64 uj
              ∧ t.slot n = some { z with energy := z.energy + uj }))
    ∧ (let total := (b.charged.map fun e => e.2).sum
       exec (.energyUpdate .memory uj) s = .next (b.charged.foldl (fun s e => if e.1 < 4096 then s.addEnergy e.1 (uj * e.2 / total) else s)
         { s with beadle := { b with charged := [] } }))
    ∧ (let off := (pa - Config.ctlBase) % 2 ^ 24
       let w := windowOf pa
       (isControl pa = false ∨ pa % 8 ≠ 0 ∨ ¬ priv → same (.registerWrite req pa v))
       ∧ (isControl pa = true → pa % 8 = 0 → priv → off = 0 →
            let writes : Instr → Prop := fun i => exec (.registerWrite req pa v) s = exec i s
            (w = 1 → writes (.beminWrite req v)) ∧ (w = 2 → writes (.bewinWrite req v)) ∧ (w = 3 → writes (.tgwinWrite req v))
            ∧ (w = 14 → writes (.hartPartitionWrite req 0 v)) ∧ (w = 16 → writes (.powercapWrite req v)))
       ∧ (∃ t, exec (.registerWrite req pa v) s = .next t))

/-- O51. Issue: task blocks, bundles and thread words: what holds them, what traps, and what issuing leaves. Rests on choices of the model:
fetch at the home agent (log 18); check 0x10 (log 47); lanes (log 69); task-block entries (log 70); dictionaries (log 71); de-
preference (log 110); gangs (log 129); a header wait at its commit (log 130). (spec/01_machine.md: Units of work, spec/01_machine.md: When results become visible, spec/02_encoding.md: The header, spec/02_encoding.md: Decode checks, spec/10_progress.md: Lanes and threads, spec/10_progress.md: Current, leave and energy, spec/10_progress.md: Task blocks and gangs, spec/12_recovery.md: The checkpoint interval, spec/12_recovery.md: Supervision and restart) -/
def Obligations.BundlesThreadsAndBlocksIssue : Prop :=
  ∀ (s : State) (c : Fin 32) (u : Fin 32),
    let x := s.core c
    let same : Instr → Prop := fun i => exec i s = .next s
    let goes : Instr → State → Prop := fun i t => exec i s = .next t
    let g := s.gangLive c
    ((∀ n, x.part ≠ .block n) ∨ g.head? ≠ some c.val ∨ (∃ j ∈ g, (s.core j).part ≠ x.part ∨ s.blockReady j = false) → same (.taskBlockStart c))
    ∧ (∀ n, x.part = .block n → g.head? = some c.val → (∀ j ∈ g, (s.core j).part = .block n ∧ s.blockReady j = true) →
        let va := (Card.tblist (s.cardAt (.core c 0)) + 32 * n) % 2 ^ 64
        (∀ f, s.fetchCode (.core c 0) va 32 = .error f → goes (.taskBlockStart c) (f.st.issueTrap c f.trap))
        ∧ (∀ bs t, s.fetchCode (.core c 0) va 32 = .ok (bs, t) →
            let bad := (∃ b ∈ bs.drop 20, b ≠ 0) ∨ 4096 < va % 4096 + 32
            let short := ∃ j ∈ g, ∃ q ∈ entryConds bs, mget 0 (t.core j).sem q.1 < condSum (entryConds bs) q.1
            (bad → goes (.taskBlockStart c) (t.issueTrap c ⟨0x05, BitVec.ofNat 64 va⟩))
            ∧ (¬ bad → short → goes (.taskBlockStart c) (g.foldl (fun s j => s.stall j 2) t))
            ∧ (¬ bad → ¬ short → goes (.taskBlockStart c) (t.beginBlocks c n bs g))
            ∧ (g = [c.val] → (t.core c).dict = (t.core c).job → t.beginBlocks c n bs g = t.beginBlock c n bs)
            ∧ (let y := (t.beginBlock c n bs).core c
               y.part = .running ∧ y.entry = n ∧ y.blockFirst = true ∧ y.blockAdv = 0 ∧ y.dcyc = fieldAt bs 4 4
               ∧ y.arch.pc = BitVec.ofNat 32 (fieldAt bs 0 4) ∧ y.arch.redir = [] ∧ y.arch.held = [] ∧ y.arch.ps = []
               ∧ y.arch.walker = Walker.reset ∧ y.shadow = y.arch)))
    ∧ (s.coreReady c = false → same (.bundleIssue c))
    ∧ (s.coreReady c = true → ∀ at', x.goAt = some at' →
        let off : State → State := fun t => t.modCore c fun x => { x with goAt := none, forward := none }
        let p := s.probe c x.forward
        (p.holds = true → goes (.bundleIssue c) (((g.filter fun j => j != c.val).foldl (fun s j => s.holdWith j p) s).takeProbe c p))
        ∧ (∀ tr t, p = .trap tr t → goes (.bundleIssue c) ((off t).issueTrap c tr))
        ∧ (∀ h len l w commits b t, p = .issue h len l w commits b t → goes (.bundleIssue c) ((off t).issueBundle c h len l w commits)))
    ∧ (s.coreReady c = true → x.goAt = none →
        let others := g.filter fun j => j != c.val
        let p := s.probe c none
        (p.holds = true → goes (.bundleIssue c) ((others.foldl (fun s j => s.holdWith j p) s).takeProbe c p))
        ∧ (∀ tr t, p = .trap tr t → goes (.bundleIssue c) (t.issueTrap c tr))
        ∧ (∀ h len l w commits b t, p = .issue h len l w commits b t →
            let fwd := if redundantCard (s.cardAt (.core c 0)) then none else some (b, len)
            let hold := (s.afterPushes c l).gangHold fwd others
            (hold = none → goes (.bundleIssue c) ((t.armGang c fwd others).issueBundle c h len l w commits))
            ∧ (∀ j q, hold = some (j, q) → j ∈ others ∧ q.holds = true
                ∧ goes (.bundleIssue c) ((((c.val :: others).filter fun i => i != j).foldl (fun s i => s.holdWith i q) s).takeProbe j q))))
    ∧ (s.coreReady c = true → x.goAt = none → g.filter (fun j => j != c.val) = [] →
        (x.trec ≠ [] → goes (.bundleIssue c) (s.stall c 4))
        ∧ (∀ k, x.trec = [] → x.wait = .leave k → goes (.bundleIssue c) (s.stall c 6))
        ∧ (x.trec = [] → x.wait = .none → x.dict ≠ x.job →
            goes (.bundleIssue c) (match (s.stall c 5).loadDict c with
              | .error f => f.st.issueTrap c f.trap
              | .ok t => t))
        ∧ (x.trec = [] → x.wait = .none → x.dict = x.job →
            (∀ f, s.fetchBundle c = .error f → goes (.bundleIssue c) (f.st.issueTrap c f.trap))
            ∧ (∀ b len t, s.fetchBundle c = .ok (b, len, t) →
                let h := headerOf b
                let y := t.core c
                let l := bundleOps h.pres b y.arch.held
                let ops := l.map SlotOp.op
                let check := bundleCheck h (y.blockFirst && !y.reissue) l
                let ticked := { t.setCore c (y.tick false) with cur := .core c 0 }
                let now := y.eng.clock t.ptime
                let weight := 4 + (l.map fun o => bundleWeight (RawOp.ofBits o.bits)).sum
                let past := 256 + 48 * y.eng.granted < y.eng.recent now + weight
                (∀ chk n, check = some (chk, n) → goes (.bundleIssue c) (t.issueTrap c ⟨checkCause .bundle chk,
                    BitVec.ofNat 64 (checkTval chk n (checkExtra chk (RawOp.ofBits (slotOf b n))))⟩))
                ∧ (check = none → h.kind = 1 → y.reissue = false →
                    (y.quiet = false → goes (.bundleIssue c) (s.stall c (if y.mstest.isSome then 7 else 1)))
                    ∧ (y.quiet = true → y.eng.stepping = false → (y.tick true).flight ≠ [] →
                        goes (.bundleIssue c) (t.issueTrap c ⟨0x02, BitVec.ofNat 64 (checkTval 0x10 0 0)⟩))
                    ∧ (y.quiet = true → (y.tick true).flight = [] → t.semAt c h.wsem.toNat < h.wth → goes (.bundleIssue c) (s.stall c 2)))
                ∧ (check = none → h.kind = 0 → y.reissue = false →
                    (∀ k, ticked.opsWait c ops = some k → k ≠ 10 → goes (.bundleIssue c) (s.stall c k))
                    ∧ (ticked.opsWait c ops = none →
                        (∀ n, ticked.overflow c false ops = some n → goes (.bundleIssue c) (t.issueTrap c ⟨0x23, BitVec.ofNat 64 n⟩))
                        ∧ (ticked.overflow c false ops = none →
                            (past → goes (.bundleIssue c) (s.freezeCycle c))
                            ∧ (¬ past → l ≠ [] → ∃ t', goes (.bundleIssue c) t'
                                ∧ t'.latch = l.map (fun o => ⟨.core c (fin 8 o.slot), o.bits.setWidth 64⟩)
                                ∧ t'.cur = .core c 0 ∧ t'.aborted = false ∧ (t'.core c).len = len ∧ (t'.core c).reissue = false
                                ∧ (t'.core c).eng.lastIssue = some now)))))))
    ∧ (let v := s.unit u
       let now := v.eng.clock s.ptime
       let all := v.tids u
       let ready := all.filter s.threadReady
       let picks := s.chosen ready
       let weight := 8 + (picks.map fun t => threadWeight (RawOp.ofBits (ThreadWord.ofBits (s.peekWord t)).op)).sum
       let past := 1536 + 192 * v.granted < v.eng.recent now + weight
       let off := s.reeve.halted = true ∨ v.eng.lastIssue = some now ∨ v.eng.stopped ≠ none
       (off → same (.threadWordIssue u))
       ∧ (¬ off → ∀ t rest, picks = t :: rest →
            (past → goes (.threadWordIssue u) (s.modEng (.unit u) fun e =>
              { e with freeze := e.freeze + 1, freezeRun := e.freezeRun + 1, lastIssue := some now }))
            ∧ (¬ past →
                let s0 := (picks.map fun t => (s.group u t.group).job).eraseDups.foldl (fun s n => s.firstIssue (some n)) s
                let s1 := (s0.endFreeze t).modEng (.unit u) fun e => e.weigh now weight s0.ptime
                let s2 := all.foldl (fun s t => (s.schedule ready picks t).yieldCycle ready picks t) s1
                let s3 := s2.modUnit u fun v => { v with dueCount := v.dueCount + 1 }
                goes (.threadWordIssue u) (s3.issueThreads u picks))))
    ∧ (∀ t, s.operandWait t = true → s.threadReady t = false)
    ∧ (x.job = none ∨ x.snapDue = false → same (.snapshotWrite c))
    ∧ (∀ j, x.job = some j → x.snapDue = true →
        ((∃ y ∈ x.eng.copies, y.job = j ∧ y.part = x.idx) → same (.snapshotWrite c))
        ∧ (∀ z, s.slot j = some z → (∀ y ∈ x.eng.copies, ¬ (y.job = j ∧ y.part = x.idx)) →
            ∃ t k, goes (.snapshotWrite c) t ∧ mget none k x.idx ≠ none ∧ (t.slot j).map (·.snapCore) = some k))

/-- O52. Landings and the ends of waits: results, tiles, copies, barriers, semaphores, syncs, queues, removals. Rests on choices of the
model: when a thread's results are there (log 8); signals to a saved core (log 61); a completed job's memory (log 76); captures
(log 66); held records (logs 120, 151); poison of copies (log 121); refills (log 124). (spec/01_machine.md: When results become visible, spec/05_matrix.md: Tile ops, spec/08_memory_ops.md: Load-blocks, spec/08_memory_ops.md: Copies, spec/08_memory_ops.md: Sync words, spec/08_memory_ops.md: Channel queues, spec/10_progress.md: Lanes and threads, spec/10_progress.md: Control, launch, wait, barrier and power instructions, spec/11_isolation.md: TLBINV, spec/09_time_trace.md: Buffers and filters, spec/09_time_trace.md: Replay capture) -/
def Obligations.ResultsLandAndWaitsEnd : Prop :=
  ∀ (s : State) (c : Fin 32) (i j : Nat) (d : Dom) (va : Word) (t : Tid) (q : BitVec 13) (u : Fin 32) (g sem : Nat) (id : Fin 16),
    let x := s.core c
    let y := s.thread t
    let same : Instr → Prop := fun i => exec i s = .next s
    let goes : Instr → State → Prop := fun i t => exec i s = .next t
    let live : Nat → Prop := fun n => ∃ z, s.slot n = some z ∧ z.endStatus = none
    (x.sb[i]? = none → same (.scoreboardResultLand (.core c i)))
    ∧ (y.busy[i]? = none → goes (.scoreboardResultLand (.thread t i)) (s.modThread t fun y => { y with busy := dropAt y.busy i }))
    ∧ (∀ b, y.busy[i]? = some b → goes (.scoreboardResultLand (.thread t i))
        ((match b.lut with
          | some (k, bs) => s.takeImage t k bs
          | none => s).modThread t fun y => { y with busy := dropAt y.busy i }))
    ∧ (∀ e, x.sb[i]? = some e →
        (e.blk ≠ none → same (.scoreboardResultLand (.core c i)))
        ∧ (e.blk = none → goes (.scoreboardResultLand (.core c i)) (s.setCore c (e.lands.foldl Core.land { x with sb := dropAt x.sb i }))))
    ∧ (x.sm = [] → same (.mmaResultLand c))
    ∧ (∀ e rest, x.sm = e :: rest →
        (∀ v, e.bound = some v → goes (.mmaResultLand c) (s.coreTrap c 0x21 v e.tpc))
        ∧ (e.bound = none → goes (.mmaResultLand c) (s.setCore c ({ x with sm := rest }.landSm e))))
    ∧ ((∀ e ∈ x.sb, e.blk = none) → same (.blkldFillComplete c))
    ∧ (∀ k n b, x.fillDue = some (k, n) → mget none x.blocks n = some b → ∃ t l, goes (.blkldFillComplete c) t
        ∧ mget none (t.core c).blocks n = some { b with lines := l, filled := true } ∧ l.length = b.lines.length)
    ∧ ((s.eng d).copies[i]? = none → same (.copyPieceLand d i j) ∧ same (.copyError d i va))
    ∧ (∀ e, (s.eng d).copies[i]? = some e →
        (e.left[j]? = none ∨ e.failed ≠ none ∨ copyBehind (s.eng d).copies i = true → same (.copyPieceLand d i j))
        ∧ (∀ pc, e.left[j]? = some pc → e.failed = none → copyBehind (s.eng d).copies i = false →
            let k := s.ctxCard d (s.cardOf e.job)
            let dst := (cmdDst e.cmd).getD .i8
            let place := e.dsts.getD pc.1 (.glob [])
            let lo := pc.2 * pieceElems dst place.packed
            let n := min (pieceElems dst place.packed) (cmdElems e.cmd - lo)
            let s0 := s.noteReads k (e.reads pc.2 lo n)
            let fails : Nat → Prop := fun a => goes (.copyPieceLand d i j) (s0.modCopy d i fun e => { e with failed := some a })
            (∀ a, s0.pieceCodes k e pc.2 lo n = .error a → fails a)
            ∧ (∀ codes, s0.pieceCodes k e pc.2 lo n = .ok codes →
                let bs := packElems dst place.packed (codes.map (convertCopy ((cmdSrc e.cmd).getD .i8) dst))
                let st := s0.copyStore k e.job place (layoutBytes dst place.packed lo) bs
                (∀ a, st = .error a → fails a)
                ∧ (∀ s1, st = .ok s1 →
                    let left := dropAt e.left j
                    let more := left.any fun r => r.2 == pc.2
                    let s2 := s1.modCopy d i fun e =>
                      { e with left := left, got := if more then minsert (merase e.got pc.2) pc.2 codes else merase e.got pc.2 }
                    let s3 := (if e.multi then (e.syncs.drop pc.1).take 1 else e.syncs).foldl (fun s p => s.countLanding e.job bs.length p) s2
                    goes (.copyPieceLand d i j)
                      (if left = [] then (e.sems.foldl (fun s p => s.signalPlace e.job p) s3).endCopy d i else s3))))
        ∧ (let gone := (s.emitAt e.issuer 0x29 4 false 0x16 0 0).endCopy d i
           let a := e.failed.getD va.toNat
           (¬ live e.job → goes (.copyError d i va) gone)
           ∧ (∀ c' k, live e.job → e.issuer = .core c' k → goes (.copyError d i va) (gone.copyTrapCore e a))
           ∧ (∀ t', live e.job → e.issuer = .thr t' → goes (.copyError d i va) (gone.copyTrapThread t' e a))))
    ∧ (y.wait ≠ .jend ∨ s.threadCopies t ≠ [] → same (.threadEnd t))
    ∧ (y.wait = .jend → s.threadCopies t = [] →
        ∃ s', goes (.threadEnd t) s' ∧ (s'.thread t).ended = true ∧ (s'.thread t).query = none ∧ (s'.thread t).pendTraps = [])
    ∧ (y.wait ≠ .drain ∨ s.threadCopies t ≠ [] → same (.drainComplete t))
    ∧ (y.wait = .drain → s.threadCopies t = [] → goes (.drainComplete t) (s.wakeDone t))
    ∧ ((∀ e ∈ (s.group u g).semq, e.1 ≠ sem) → same (.semwaitSatisfy u g sem))
    ∧ (∀ n rest k l, (s.group u g).semq = (sem, n) :: rest → (s.thread ⟨u, g, n⟩).wait = .sem l k →
        let v := mget 0 (s.group u g).sem sem
        (v < k → same (.semwaitSatisfy u g sem))
        ∧ (k ≤ v → goes (.semwaitSatisfy u g sem) ((s.setGroup u g
            { s.group u g with sem := mset 0 (s.group u g).sem sem (v - k), semq := rest }).wakeDone ⟨u, g, n⟩)))
    ∧ same (.swaitSatisfy (.core c i))
    ∧ (∀ off gen r acq sc bs, y.wait = .sync off gen r acq sc → s.loadLocal (.thr t) off 8 = .ok bs →
        (reached (leNat bs) gen = false → same (.swaitSatisfy (.thread t i)))
        ∧ (reached (leNat bs) gen = true → goes (.swaitSatisfy (.thread t i))
            (((if acq then s.acquireAt (.unit t.unit) sc else s).putX t r (BitVec.ofNat 64 (leNat bs))).wakeDone t)))
    ∧ (let w := s.queue q.toNat
       (w.cap ≤ w.items.length → w.waiters = [] → same (.qpushRoom q))
       ∧ (w.items.length < w.cap ∨ w.waiters ≠ [] → goes (.qpushRoom q)
            ((s.allTids.filter fun t => (s.thread t).wait == .push q.toNat).foldl State.wake s)))
    ∧ ((∃ b ∈ (s.group u g).expects 0 id, b ∉ (s.group u g).bars) → same (.barComplete (.group u g id)))
    ∧ ((∀ b ∈ (s.group u g).expects 0 id, b ∈ (s.group u g).bars) →
        goes (.barComplete (.group u g id)) (s.openBar u g 0 id false))
    ∧ (let gs := s.jobGroups i
       let wide := (gs.map (·.1)).eraseDups.length != 1
       ((∃ p ∈ gs, s.barFull p.1 p.2 1 id = false) → same (.barComplete (.block i id)))
       ∧ ((∀ p ∈ gs, s.barFull p.1 p.2 1 id = true) → goes (.barComplete (.block i id))
            (gs.foldl (fun s p => s.openBar p.1 p.2 1 id wide) (if wide then gs.foldl (fun s p => s.releaseAt (.unit p.1) .device) s else s))))
    ∧ (s.slot i = none → same (.barComplete (.job i id)))
    ∧ (∀ z, s.slot i = some z →
        let cs := (List.range 32).filter fun c => (s.core c).job == some i && (s.core c).part != .ended
        (z.state ≠ .running ∨ (∃ k ∈ cs, (id.val, (s.core k).idx) ∉ z.bars) → same (.barComplete (.job i id)))
        ∧ (z.state = .running → (∀ k ∈ cs, (id.val, (s.core k).idx) ∈ z.bars) → ∃ t, goes (.barComplete (.job i id)) t
            ∧ (∃ z', t.slot i = some z' ∧ z'.bars = z.bars.filter fun b => b.1 != id.val)
            ∧ (∀ k ∈ cs, (t.core k).wait = (match (s.core k).wait with
                | .bar l => if l.erase id.val = [] then .none else .bar (l.erase id.val)
                | w => w))
            ∧ (∀ k < 32, k ∉ cs → t.core k = s.core k)))
    ∧ (s.iso.removals[i]? = none → same (.tlbinvComplete i))
    ∧ (∀ r, s.iso.removals[i]? = some r →
        let gone := { s with iso := { s.iso with removals := dropAt s.iso.removals i } }
        (s.removalDone r = false → same (.tlbinvComplete i))
        ∧ (s.removalDone r = true →
            (∀ c', r.waiter = .core c' → (s.core c').wait = .tlbinv →
              goes (.tlbinvComplete i) (gone.setCore c' { s.core c' with wait := .none }))
            ∧ (∀ t', r.waiter = .thread t' → (s.thread t').wait = .tlbinv → goes (.tlbinvComplete i) (gone.wakeDone t'))
            ∧ (r.waiter = .window → s.iso.invHeld = [] → goes (.tlbinvComplete i)
                { s with iso := { s.iso with removals := dropAt s.iso.removals i, invBusy := false } })))
    ∧ (x.trec = [] → same (.traceRecordAccept (.core c)))
    ∧ (∀ r rest, x.trec = r :: rest →
        let w := s.offerHeld r
        (w.1 = false → same (.traceRecordAccept (.core c)))
        ∧ (w.1 = true → goes (.traceRecordAccept (.core c)) ((w.2.modCore c fun x => { x with trec := rest }).settleCore c)))
    ∧ (∀ k : Nat × Nat × Nat, (s.unit u).traceq = [k] →
        let v : Tid := ⟨u, k.1, k.2.1⟩
        ((s.thread v).trec = [] → same (.traceRecordAccept (.unit u)))
        ∧ (∀ r rest, (s.thread v).trec = r :: rest →
            let w := s.offerHeld r
            (w.1 = false → same (.traceRecordAccept (.unit u)))
            ∧ (w.1 = true →
                let t := (w.2.modThread v fun y => { y with trec := rest }).modUnit u fun x => { x with traceq := x.traceq.erase k }
                goes (.traceRecordAccept (.unit u)) (if rest = [] then t.threadStall v 4 (t.thread v).heldSince else t))))
    ∧ (∀ (r : List Byte), let p := recPlace r
        let d := s.tdesc p.1
        let w := s.offer p.1 p.2.1 p.2.2 r
        (d.takes p.2.2 = false → s.offerHeld r = (true, s))
        ∧ (d.takes p.2.2 = true → s.offerHeld r = if w.1 = false ∧ d.mode ≠ 2 then (true, w.2.loseRec p.1) else w))
    ∧ (s.slot i = none → same (.capturePreimageWritten i va))
    ∧ (∀ z, s.slot i = some z →
        ((∀ e ∈ z.touched, e.1 ≠ va.toNat) → same (.capturePreimageWritten i va))
        ∧ (∀ bs rest, z.touched = (va.toNat, bs) :: rest → ∃ t, goes (.capturePreimageWritten i va) t
            ∧ ∀ z', t.slot i = some z' → ∀ e ∈ z'.touched, e.1 ≠ va.toNat))

/-- O53. Failures, errors, Reeve's halt and safety bus, debug stop, step and run, trace descriptors, queue configuration. Rests on choices
of the model: the log's world (log 32); local errors (log 33); queue descriptors (logs 34, 156); trace descriptors (log 36); steps
and areas (logs 37, 38); the safety bus (log 43); logs of traps (log 54); records of a run (logs 78, 157); steps of R439 (log
142); DROPS (log 138); the watchdog (log 143). (spec/12_recovery.md: Errors and poison, spec/12_recovery.md: Supervision and restart, spec/13_boundary.md: Interfaces, spec/09_time_trace.md: Debug, spec/09_time_trace.md: Buffers and filters, spec/08_memory_ops.md: Channel queues, spec/11_isolation.md: Privilege and control regions) -/
def Obligations.SupervisionSafetyDebugAndTrace : Prop :=
  ∀ (s : State) (req : Requester) (d : Dom) (c : Fin 32) (u : Fin 32) (n off pa : Nat) (src : Byte) (reason : Fin 6) (slot : Fin 16)
    (st : Fin 3) (ctl : Bool) (f : CanFrame) (part : Fin 64) (v : Word) (bytes : List Byte) (q : BitVec 13),
    let r := s.reeve
    let e := s.eng d
    let same : Instr → Prop := fun i => exec i s = .next s
    let goes : Instr → State → Prop := fun i t => exec i s = .next t
    let able := e.inService = true ∧ e.failed = none ∧ r.halted = false
    let failed : Nat → State := fun k => s.modEng d fun e => { e with failed := some k }
    let priv := s.reqPriv req = true
    let debug := priv ∧ r.halted = false
    goes (.heartbeat d) (s.modEng d fun e => { e with heartbeat := s.ptime })
    ∧ (¬ able → same (.heartbeatTimeout d) ∧ same (.watchdogTimeout d) ∧ same (.uncorrectableError (.engine d)))
    ∧ (able → goes (.uncorrectableError (.engine d)) (failed 3)
        ∧ (s.ptime < e.heartbeat + 320000 → same (.heartbeatTimeout d))
        ∧ (e.heartbeat + 320000 ≤ s.ptime → goes (.heartbeatTimeout d) (failed 1))
        ∧ (s.ptime < e.progress + 1600000 → same (.watchdogTimeout d))
        ∧ (∀ k, d = .core k → s.watchExempt k = true → same (.watchdogTimeout d))
        ∧ (∀ k, d = .core k → s.watchExempt k = false → e.progress + 1600000 ≤ s.ptime → goes (.watchdogTimeout d) (failed 2))
        ∧ (∀ k, d = .unit k →
            let ready := ∃ t ∈ (s.unit k).tids k, s.threadReady t = true
            (e.stopped ≠ none ∨ ¬ ready → same (.watchdogTimeout d))
            ∧ (e.stopped = none → ready → e.progress + 1600000 ≤ s.ptime → goes (.watchdogTimeout d) (failed 2))))
    ∧ (off < (s.core c).scratchSize → goes (.uncorrectableError (.localBlock (.core c) off))
        ((s.setCore c { s.core c with poison := insertNat (s.core c).poison (off / 64) }).errorLog (s.eng (.core c)).world
          (Dom.src (.core c)) 2 0x13 0 0 off 0))
    ∧ (mget 0 s.poisoned (pa / 64) = 0 → goes (.uncorrectableError (.sector pa))
        (State.errorLog { s with poisoned := mset 0 s.poisoned (pa / 64) 0x10 } (s.secure pa) 0x61 2 0x10 0 0 pa 0))
    ∧ (let k := mget (0, 0) r.corrected src.toNat
       let due := k.2 = 0 ∨ k.2 + 16000000 ≤ s.ptime + 1
       (¬ due → goes (.correctableError src n) { s with reeve := { r with corrected := mset (0, 0) r.corrected src.toNat (k.1 + n, k.2) } })
       ∧ (due → ∃ t, goes (.correctableError src n) t ∧ mget (0, 0) t.reeve.corrected src.toNat = (0, s.ptime + 1)))
    ∧ (r.halted = true ∨ e.failed ≠ some reason.val ∨ e.inService = false → same (.domainFailed d reason))
    ∧ (r.halted = false → e.failed = some reason.val → e.inService = true →
        let log : State → State := fun s => s.errorLog e.world d.src 4 0 0 0 0 reason.val
        let s0 := log (s.fence d)
        let jobs := s.jobsOn d
        let s1 := if jobs = [] then log s0 else s0
        let lose : State → Nat × Slot → State := fun s j => match d with
          | .core c => if j.2.state = .saved ∧ 4 ≤ reason.val then (s.moveShares j.1 c).stepLog d j.1 else s.loseJob d j.1 j.2
          | .unit _ => s.loseJob d j.1 j.2
        let s2 := (log ((jobs.foldl lose s1).resetDom d)).countService
        goes (.domainFailed d reason) (match d with
          | .core c => s2.rebindAll fun z => Card.eng z.card == 0 && z.home.contains c.val
          | .unit u => s2.rebindAll fun z => Card.eng z.card == 1 && z.home.contains u.val))
    ∧ (let t := (s.resetDom (.core c)).core c
       t.arch = Core.reset.arch ∧ t.job = none ∧ t.scratch = [] ∧ t.undo = [] ∧ t.withheld = [] ∧ t.fmap = (s.core c).fmap
         ∧ t.eng.failed = (s.core c).eng.failed)
    ∧ (r.halted = true → same .reeveLockstepMismatch ∧ same (.safetyTxComplete slot st) ∧ same (.safetyRxFrame ctl f))
    ∧ (let out := r.canOut ++ [(0, s.safeFrame), (1, s.safeFrame)]
       (r.halted = false → goes .reeveLockstepMismatch
          { s with reeve := { r with halted := true, safestateN := false, canOut := out, safetySent := s.ptime } })
       ∧ (r.halted = false ∨ s.ptime < r.safetySent + 160000000 → same .safetyFrameRepeat)
       ∧ (r.halted = true → r.safetySent + 160000000 ≤ s.ptime → goes .safetyFrameRepeat
            { s with reeve := { r with canOut := out, safetySent := s.ptime } }))
    ∧ (¬ (priv ∧ s.reqWorld req = true) → same (.safetyTxReady req slot))
    ∧ (priv → s.reqWorld req = true → goes (.safetyTxReady req slot)
        (s.setTx slot (putField (s.txSlot slot) 88 1 (fieldAt (s.txSlot slot) 88 1 / 2 * 2 + 1))))
    ∧ (((∃ i < slot.val, txReady (s.txSlot i) = true) ∨ txReady (s.txSlot slot) = false) → same (.safetyTxComplete slot st))
    ∧ (r.halted = false → (∀ i < slot.val, txReady (s.txSlot i) = false) → txReady (s.txSlot slot) = true →
        let b := s.txSlot slot
        let k := fieldAt b 88 1
        let b1 := putField (putField (putField b 88 1 (k / 2 * 2)) 89 1 st.val) 96 8 s.ptime
        let sent := b.take 88
        (st ≠ 0 → goes (.safetyTxComplete slot st) (s.setTx slot b1))
        ∧ (st = 0 → ∃ t, goes (.safetyTxComplete slot st) t ∧ t.txSlot slot = b1
            ∧ t.reeve.canOut = r.canOut ++ (if bit k 2 then [(0, sent), (1, sent)] else if bit k 1 then [(1, sent)] else [(0, sent)])))
    ∧ (let full : Nat → Bool := fun i => bit (fieldAt (mget (zeros 128) r.rxSlots i) 88 1) 0
       r.halted = false →
        ((∀ i < 32, full i = true) → goes (.safetyRxFrame ctl f)
            { s with reeve := { r with rxDrops := min (r.rxDrops + 1) (2 ^ 64 - 1) } })
        ∧ (∀ i < 32, full i = false → (∀ j < i, full j = true) →
            let b := putBytes (zeros 128) 0 ((f.bytes ++ zeros 88).take 88)
            goes (.safetyRxFrame ctl f) { s with reeve :=
              { r with rxSlots := mset (zeros 128) r.rxSlots i (putField (putField b 88 1 (1 + 2 * b2n ctl)) 96 8 s.ptime) } }))
    ∧ (¬ debug ∨ e.stopped ≠ none → same (.debugStop req d))
    ∧ (¬ debug ∨ e.stopped = none → same (.debugStep req d) ∧ same (.debugRun req d))
    ∧ (debug → (s.core c).eng.stopped = none → goes (.debugStop req (.core c)) ((s.rollback c 0x39).stopCore c 1))
    ∧ (debug → (s.unit u).eng.stopped = none → goes (.debugStop req (.unit u)) (s.stopUnit u 1))
    ∧ (debug → (s.core c).eng.stopped ≠ none →
        goes (.debugStep req (.core c)) (((s.reload (.core c)).withGang (.core c)).foldl
          (fun s e => s.modEng e fun x => { x with stepping := true, stepStatus := 0 }) (s.reload (.core c)))
        ∧ (let t := ((s.reload (.core c)).withGang (.core c)).foldl
             (fun s e => s.modEng e fun x => { x with stopped := none, stepping := false, progress := s.ptime }) (s.reload (.core c))
           goes (.debugRun req (.core c)) ((t.gangOf c).foldl (fun s j => s.emitAt (.core (fin 32 j) 0) 0x30 7 true 0 0 0) t)))
    ∧ (debug → (s.unit u).eng.stopped ≠ none →
        let t := (s.reload (.unit u)).modEng (.unit u) fun x => { x with stepping := true, stepStatus := 0 }
        goes (.debugStep req (.unit u)) (t.issueThreads u (t.selected u)))
    ∧ (¬ priv → same (.traceRpWrite req part v) ∧ same (.traceDescriptorWrite req part bytes) ∧ same (.queueConfigure req q bytes)
        ∧ same (.queueClose req q))
    ∧ (priv →
        (∃ t, goes (.traceRpWrite req part v) t ∧ (t.tdesc part).rp.toNat = min v.toNat (s.tdesc part).wp.toNat
          ∧ (t.tdesc part).wp = (s.tdesc part).wp)
        ∧ (let b := (bytes ++ zeros 64).take 64
           let m := fieldAt b 9 1
           let old := s.tdesc part
           let b1 := putField b 9 1 (m % 4 + (if s.reqWorld req then bit m 2 else old.secure).toNat * 4 + m / 16 * 16)
           let moved := fieldAt old.desc 0 9 ≠ fieldAt b1 0 9 ∨ fieldAt old.desc 12 2 ≠ fieldAt b1 12 2 ∨ old.status = 1
           (traceBad b1 = true → ∃ t, goes (.traceDescriptorWrite req part bytes) t ∧ (t.tdesc part).status = 1 ∧ (t.tdesc part).desc = b1)
           ∧ (traceBad b1 = false → moved → ∃ t, goes (.traceDescriptorWrite req part bytes) t
                ∧ t.tdesc part = { desc := b1, wp := 0, rp := 0, faultva := 0, lost := 0, gapLost := 0, gapFault := false, susp := false, status := 0,
                                   rused := if fieldAt b 60 4 = 0 then 0 else old.rused }))
        ∧ (let x := s.queue q.toNat
           (x.valid = false → same (.queueClose req q))
           ∧ (x.valid = true → goes (.queueClose req q) (s.closeQueue q.toNat))
           ∧ (let b := queueDesc bytes
                let open' := if x.valid then s.closeQueue q.toNat else s
                let k := open'.queueStatus q.toNat b
                ∃ t y, goes (.queueConfigure req q bytes) t ∧ t = open'.setQueue q.toNat y ∧ y.items = [] ∧ y.drops = 0 ∧ y.waiters = []
                  ∧ y.desc = putField (putField b 0 1 (fieldAt b 0 1 / 2 * 2 + (if k = 0 then 1 else 0))) 1 1 k)))

/-- O54. Region and partition tables, invalidation, attestation, outside accesses, Ethernet, ingress: who may, and what each event leaves.
Rests on choices of the model: the bases of control regions (log 17); reserved and staged fields (logs 22 to 24); held CMD words
(log 27); ingress frames (log 40); long frames (logs 41, 146); PTP fields (log 155); the report's buffer (log 42); a hart above
capacity (log 45); what outside agents read (log 95). (spec/11_isolation.md: Worlds, spec/11_isolation.md: Partitions, spec/11_isolation.md: TLBINV, spec/13_boundary.md: The capability list, spec/13_boundary.md: Interfaces, spec/07_ordering.md: PEER and IO mappings) -/
def Obligations.IsolationTablesAndBoundary : Prop :=
  ∀ (s : State) (req : Requester) (idx p : Fin 64) (last : Word) (ctrl : Byte) (hart : Fin 16) (v : Word) (asid : BitVec 16) (reg : Fin 8)
    (pa : Nat) (io : Bool) (k : OutKind) (up : Bool) (rate : Fin 8) (lanes : Fin 16) (mac : Fin 2) (tx : Bool) (ring : Fin 4) (frame : List Byte) (fcs : Bool)
    (port : Fin 8) (vc : Fin 16) (bytes : List Byte) (dt : Byte) (evs : List CamEvent),
    let same : Instr → Prop := fun i => exec i s = .next s
    let goes : Instr → State → Prop := fun i t => exec i s = .next t
    let priv := s.reqPriv req = true
    let sec := s.reqWorld req = true
    let r := s.reeve
    (let old := mget (0, 0) s.iso.regions idx
     let new := ((mget none s.iso.stagedFirst idx).getD old.1, last)
     let t := { s with iso := { s.iso with stagedFirst := mset none s.iso.stagedFirst idx none } }
     let ok := bit old.2.toNat 2 = false ∧ regionOk new = true ∧ ∀ e ∈ s.iso.regions, e.1 ≠ idx.val → regionsMeet new e.2 = false
     (¬ (priv ∧ sec) → same (.regionEntryApply req idx last))
     ∧ (priv → sec → ¬ ok → goes (.regionEntryApply req idx last) t)
     ∧ (priv → sec → ok → goes (.regionEntryApply req idx last) (t.setRegions (mset (0, 0) s.iso.regions idx new))
          ∧ (t.setRegions (mset (0, 0) s.iso.regions idx new)).iso.regions = mset (0, 0) s.iso.regions idx new))
    ∧ (let old := s.part p
       let new := putBytes (s.partStage p) 0 [ctrl, 0]
       let mine := priv ∧ (sec ∨ (s.partWorld p = false ∧ bit ctrl.toNat 1 = false))
       let put : List Byte → State := fun e => { s with iso :=
         { s.iso with parts := mset (zeros 32) s.iso.parts p e, stagedPart := mset none s.iso.stagedPart p none } }
       let st := s.partsStatus (mset (zeros 32) s.iso.parts p new)
       (¬ mine → same (.partitionEntryApply req p ctrl))
       ∧ (mine → partBad new = true → goes (.partitionEntryApply req p ctrl) (put (putField old 1 1 1)))
       ∧ (mine → partBad new = false → s.partBusy p old new = true → goes (.partitionEntryApply req p ctrl) (put (putField old 1 1 2)))
       ∧ (mine → partBad new = false → s.partBusy p old new = false →
            let ways : List Byte → Nat := fun e => if entryEn e then fieldAt e 2 1 else 0
            (st ≠ 0 → goes (.partitionEntryApply req p ctrl) (put (putField old 1 1 st)))
            ∧ (st = 0 → ways old = ways new → goes (.partitionEntryApply req p ctrl) ((put new).portWorlds p))
            ∧ (st = 0 → ways old ≠ ways new →
                goes (.partitionEntryApply req p ctrl) (((put new).portWorlds p).dropHints fun h => h.part == p.val))))
    ∧ (let n := v.toNat % 64
       (¬ priv ∨ s.partWorld n ≠ r.hartSec.getLsbD hart → same (.hartPartitionWrite req hart v))
       ∧ (priv → s.partWorld n = r.hartSec.getLsbD hart → goes (.hartPartitionWrite req hart v)
            { s with iso := { s.iso with hartPart := mset 0 s.iso.hartPart hart (BitVec.ofNat 64 n) } }))
    ∧ (let win : Instr → InvForm → Nat → Prop := fun i form w =>
         let cmd := BitVec.ofNat 64 w
         (¬ priv → same i)
         ∧ (priv → s.iso.invBusy = true → goes i
              { s with iso := { s.iso with invHeld := s.iso.invHeld ++ [(s.iso.invAddr, cmd, s.reqWorld req)] } })
         ∧ (priv → s.iso.invBusy = false → goes i
              (State.invalidate { s with iso := { s.iso with invCmd := cmd, invBusy := true } } form (s.reqWorld req) .window))
       win (.invalidateWindowVa req asid) (.va (bits s.iso.invAddr.toNat 47 12 * 4096) asid.toNat) (asid.toNat * 2 ^ 16)
       ∧ win (.invalidateWindowAsid req asid) (.asid asid.toNat) (1 + asid.toNat * 2 ^ 16)
       ∧ win (.invalidateWindowAll req) .all 2)
    ∧ (¬ priv ∨ r.halted = true → same (.attest req) ∧ same (.extend req reg))
    ∧ (priv → r.halted = false →
        let at' := r.attReport.toNat
        let inWorld := at' % 64 = 0 ∧ s.secure at' = s.reqWorld req ∧ s.secure (at' + 30815) = s.reqWorld req
        (r.attPending ≠ none → goes (.attest req) (s.attSet 1))
        ∧ (r.attPending = none → ¬ inWorld → goes (.attest req) (s.attSet 3))
        ∧ (r.attPending = none → inWorld → goes (.attest req) { s with reeve :=
            { r with attStatus := 2, attPending := some (at', (r.attNonce ++ zeros 64).take 64, s.reqWorld req) } })
        ∧ (¬ sec ∨ reg.val < 4 → goes (.extend req reg) (s.attSet 3))
        ∧ (sec → 4 ≤ reg.val → r.attPending ≠ none → goes (.extend req reg) (s.attSet 1))
        ∧ (sec → 4 ≤ reg.val → r.attPending = none →
            goes (.extend req reg) ((s.extend reg ((r.attDigest ++ zeros 64).take 64)).attSet 0)))
    ∧ (r.attPending = none → same .attestComplete)
    ∧ (∀ a n w, r.attPending = some (a, n, w) → ∃ t, goes .attestComplete t ∧ t.reeve.attPending = none ∧ t.reeve.attStatus = 0)
    ∧ (r.hartsOn = false ∨ isWindow pa = true → same (.hartMemoryAccess hart pa ⟨io, k⟩))
    ∧ (r.hartsOn = true → isWindow pa = false →
        let w := r.hartSec.getLsbD hart
        (pa < s.capacity → goes (.hartMemoryAccess hart pa ⟨io, k⟩) ((s.hartReserve hart w pa k).outAccess w pa k))
        ∧ (s.capacity ≤ pa → goes (.hartMemoryAccess hart pa ⟨io, k⟩) (s.outPeer pa io k)))
    ∧ (∀ w b n,
        let hold : Nat × Nat → State := fun q => { s with bnd := { s.bnd with reserve := mset (0, 0) s.bnd.reserve hart q } }
        (s.outOk w pa (.lr n) = true → s.hartReserve hart w pa (.lr n) = hold (pa, n))
        ∧ (s.outOk w pa (.sc b) = true → s.hartReserve hart w pa (.sc b)
            = if mget (0, 0) s.bnd.reserve hart = (pa, b.length) then (hold (0, 0)).homeWrite w (cellsOf pa b) else hold (0, 0)))
    ∧ (let link := bit s.bnd.pcieLink.toNat 0
       (link = false ∨ isWindow pa = true ∨ s.capacity ≤ pa ∨ OutKind.pcie k = false → same (.pcieInboundRequest pa k))
       ∧ (link = true → isWindow pa = false → pa < s.capacity → OutKind.pcie k = true → goes (.pcieInboundRequest pa k) (s.outAccess false pa k)))
    ∧ (let link := bit s.bnd.pcieLink.toNat 0
       (io = false → link = false → OutKind.pcie k = true → outAtomicOk k pa = true → s.outPeer pa io k = s.peerLost (OutKind.peerCount k))
       ∧ (∀ b, io = true ∨ link = true → OutKind.pcie (.store b) = true → outAtomicOk (.store b) pa = true →
            s.outPeer pa io (.store b) = { s with bnd := { s.bnd with peer := writeBytes s.bnd.peer pa b } }))
    ∧ (∀ w b n, s.outAccess w pa (.load n) = s
        ∧ (((w = true ∨ ∀ i < b.length, s.secure (pa + i) = false) → s.outAccess w pa (.store b) = s.homeWrite w (cellsOf pa b))
        ∧ (w = false → (∃ i < b.length, s.secure (pa + i) = true) → s.outAccess w pa (.store b) = s)))
    ∧ (up = true → rate.val = 0 ∨ 6 < rate.val ∨ lanes.val = 0 ∨ 8 < lanes.val → same (.pcieLinkChange up rate lanes))
    ∧ (up = false → goes (.pcieLinkChange up rate lanes) { s with bnd := { s.bnd with pcieLink := 0 } })
    ∧ (up = true → 1 ≤ rate.val → rate.val ≤ 6 → 1 ≤ lanes.val → lanes.val ≤ 8 → goes (.pcieLinkChange up rate lanes)
        { s with bnd := { s.bnd with pcieLink := BitVec.ofNat 64 (1 + rate.val * 2 + lanes.val * 16) } })
    ∧ goes (.ethLinkChange mac up) (s.setMac mac { s.mac mac with link := up })
    ∧ (let m := s.mac mac
       let x := m.ring tx ring
       (¬ priv → same (.ethTailWrite req mac tx ring v))
       ∧ (priv → goes (.ethTailWrite req mac tx ring v) (s.setMac mac (m.setRing tx ring { x with tail := v.toNat % 2 ^ x.log2n.toNat })))
       ∧ (s.macOn mac = false ∨ (m.ring true ring).head = (m.ring true ring).tail → same (.ethTxComplete mac ring))
       ∧ (s.macOn mac = true → (m.ring true ring).head ≠ (m.ring true ring).tail →
            let y := m.ring true ring
            let d := s.dmaRead y.desc 32
            (bit (fieldAt d.1 10 1) 0 = false → goes (.ethTxComplete mac ring) d.2)
            ∧ (bit (fieldAt d.1 10 1) 0 = true → m.link = false → goes (.ethTxComplete mac ring)
                ((d.2.setMac mac (m.setRing true ring { y with drops := satInc y.drops })).returnDesc mac true ring (putField d.1 11 1 1)))
            ∧ (bit (fieldAt d.1 10 1) 0 = true → bit (fieldAt d.1 10 1) 2 = false → m.link = true →
                let f := d.2.dmaRead (fieldAt d.1 0 8) (fieldAt d.1 8 2)
                let p := f.1 ++ zeros (60 - f.1.length)
                (9600 < f.1.length + 4 → goes (.ethTxComplete mac ring) (f.2.returnDesc mac true ring (putField (putField d.1 11 1 0) 11 1 1)))
                ∧ (f.1.length + 4 ≤ 9600 → goes (.ethTxComplete mac ring)
                  ((f.2.setMac mac { m with sent := m.sent ++ [p ++ leBytes 4 (crc32 p).toNat] }).returnDesc mac true ring
                    (putField d.1 11 1 0)))))
       ∧ (let ptp := r.timeSrc = mac.val ∧ r.cfg ≠ [] ∧ r.halted = false ∧ bit (s.cfg 0x0B 1) mac.val = true ∧ s.isPtp frame = true
          let n := rxRing frame
          let y := m.ring false n
          let takes := s.macOn mac = true ∧ m.link = true ∧ m.accepts frame = true
          let d := s.dmaRead y.desc 32
          let fits := 60 ≤ frame.length ∧ frame.length ≤ 9596
          (¬ fits → same (.ethRxFrame mac frame fcs))
          ∧ (fits → ptp → goes (.ethRxFrame mac frame fcs) (if fcs then s.setMac mac { m with reeve := m.reeve ++ [frame] } else s))
          ∧ (fits → ¬ ptp → ¬ takes → same (.ethRxFrame mac frame fcs))
          ∧ (fits → ¬ ptp → takes → y.head = y.tail →
              goes (.ethRxFrame mac frame fcs) (s.setMac mac (m.setRing false n { y with drops := satInc y.drops })))
          ∧ (fits → ¬ ptp → takes → y.head ≠ y.tail →
              (bit (fieldAt d.1 10 1) 0 = false →
                goes (.ethRxFrame mac frame fcs) (d.2.setMac mac (m.setRing false n { y with drops := satInc y.drops })))
              ∧ (bit (fieldAt d.1 10 1) 0 = true →
                let room := fieldAt d.1 8 2
                let st := if fcs = false then 1 else if room < frame.length then 2 else 0
                goes (.ethRxFrame mac frame fcs) ((d.2.homeWrite false (cellsOf (fieldAt d.1 0 8) (frame.take room))).returnDesc mac false n
                  (putField (putField (putField d.1 8 2 frame.length) 11 1 st) 16 8 s.ptime))))))
    ∧ (let x := s.port port
       let e := x.chan vc
       let f := x.at' vc
       (¬ priv ∨ s.reqWorld req ≠ x.world → same (.ingressChannelEnable req port vc bytes))
       ∧ (priv → s.reqWorld req = x.world →
            let b := (bytes ++ zeros 32).take 32
            let b1 := if s.chanOk x b then b else putField b 0 1 (fieldAt b 0 1 / 2 * 2)
            goes (.ingressChannelEnable req port vc bytes)
              (s.setPort port { x with chans := mset (zeros 32) x.chans vc b1, frame := mset (0, 0, 0, 0) x.frame vc (0, 0, 0, 0) }))
       ∧ (let images := x.on vc false = true ∧ fieldAt e 1 1 ≠ 0x30
          (¬ images → same (.csi2Packet port (.frameStart vc)) ∧ same (.csi2Packet port (.line vc dt bytes))
            ∧ same (.ingressFrameEnd port vc))
          ∧ (images →
            goes (.csi2Packet port (.frameStart vc)) (s.setPort port (x.setAt' vc (f.1, f.2.1, s.ptime, 0)))
            ∧ (dt.toNat ≠ fieldAt e 1 1 ∨ fieldAt e 16 4 / fieldAt e 20 4 ≤ f.2.2.2 → same (.csi2Packet port (.line vc dt bytes)))
            ∧ (dt.toNat = fieldAt e 1 1 → f.2.2.2 < fieldAt e 16 4 / fieldAt e 20 4 → goes (.csi2Packet port (.line vc dt bytes))
                ((s.homeWrite x.world (cellsOf (fieldAt e 8 8 + f.2.1 * fieldAt e 16 4 + f.2.2.2 * fieldAt e 20 4)
                  (bytes.take (fieldAt e 20 4)))).setPort port (x.setAt' vc (f.1, f.2.1, f.2.2.1, f.2.2.2 + 1))))
            ∧ (let w := s.portPush port (fieldAt e 2 2) (leBytes 4 f.1 ++ leBytes 4 f.2.1 ++ leBytes 8 f.2.2.1)
               goes (.ingressFrameEnd port vc) (w.2.setPort port (IngressPort.setAt'
                 { x with frames := if w.1 then satInc x.frames else x.frames } vc
                 ((f.1 + 1) % 2 ^ 32, if w.1 then (f.2.1 + 1) % fieldAt e 4 4 else f.2.1, f.2.2.1, 0))))))
       ∧ goes (.csi2Packet port .errored) (if x.en then s.setPort port { x with pkterr := satInc x.pkterr } else s)
       ∧ (x.on vc true = false ∨ fieldAt e 1 1 ≠ 0x30 → same (.ingressEventPacket port vc evs))
       ∧ (x.on vc true = true → fieldAt e 1 1 = 0x30 → goes (.ingressEventPacket port vc evs)
            (evs.foldl (fun s e => (s.portPush port (fieldAt (x.chan vc) 2 2) (camItem e s.ptime)).2) s)))

/-- O55. The state after reset, and what a core and its special registers hold when a job starts on it. Rests on choices of the model:
registers without a reset value (log 4). (spec/13_boundary.md: Stages, spec/01_machine.md: State and the promises, spec/01_machine.md: Special registers, spec/01_machine.md: Units of work) -/
def Obligations.ResetAndJobStart : Prop :=
  (let s := State.reset
   s.ptime = 0 ∧ s.reeve.rails = true ∧ s.reeve.stage = 0 ∧ s.reeve.failcode = 0 ∧ s.reeve.memrate = 72 ∧ s.reeve.halted = false
    ∧ s.residents = [] ∧ s.beadle.tgwin = 160000 ∧ s.beadle.bemin = 4 ∧ (∀ d ∈ allDoms, (s.eng d).inService = false)
    ∧ s.iso.regions = [] ∧ MemOk s)
  ∧ (∀ (s : State) (c : Fin 32) (slot idx : Nat) (zero : Bool),
    let x := (s.startCore c slot idx zero).core c
    x.job = some slot ∧ x.idx = idx ∧ x.part = .block 0
    ∧ (∀ n, mget 0 x.arch.s n = 0 ∧ mget 0 x.arch.v n = 0 ∧ mget 0 x.arch.p n = 0 ∧ mget none x.arch.ps n = none ∧ mget 0 x.sem n = 0
        ∧ x.tile n = List.replicate 1024 0)
    ∧ x.arch.fmt = 0 ∧ x.arch.fflags = 0 ∧ x.arch.suspect = 0 ∧ x.arch.lutsel = 0 ∧ x.arch.drift = 0 ∧ x.arch.rnga = 0 ∧ x.arch.rngb = 0
    ∧ x.tcause = 0 ∧ x.tpc = 0 ∧ x.tval = 0 ∧ x.ssat = false ∧ x.gst = 0 ∧ x.cpy = 0 ∧ x.undoCount = 0
    ∧ x.arch.held = [] ∧ x.arch.walker.active = false ∧ x.blocks = [] ∧ x.flight = [] ∧ x.sb = [] ∧ x.sm = []
    ∧ x.eng.freeze = 0 ∧ x.eng.granted = 0 ∧ x.fmap = (s.core c).fmap)

/-- O56. A step executes the next fetched word's op, or the next event of the schedule, or lets time pass. Rests on choices of the model:
the schedule of events (log 1); one word a step (log 2); pre-images first (log 66); how a program comes to run (log 15); PTIME
held at 0 (log 127). (spec/02_encoding.md: The thread word, spec/02_encoding.md: Decode checks, spec/01_machine.md: Two forms, spec/12_recovery.md: Trap causes) -/
def Obligations.StepRunsTheDecodedOp : Prop :=
  ∀ (s : State) (f : Fetched) (rest : List Fetched),
    let run := { s with latch := rest, cur := f.agent }
    let ends : State → State := fun t => if t.latch = [] then t.finishCycle f.agent else t
    let after : Host.Outcome State Fault Refusal → Host.Outcome State Fault Refusal := fun o => match o with
      | .next t => .next (ends t)
      | .fault r => .fault r
      | .refused r => .refused r
    let waits : State → Host.Outcome State Fault Refusal → Host.Outcome State Fault Refusal := fun was o => match o with
      | .next t => .next (if t.preimage = none then t else was.withTouched t)
      | .fault r => .fault r
      | .refused r => .refused r
    (∀ w l, s.posted = w :: l → step s = exec (.registerWrite w.1 w.2.1 w.2.2) { s with posted := l })
    ∧ (∀ m ms, s.posted = [] → s.marked = m :: ms → step s = .next s.releaseMarked)
    ∧ (∀ p, s.posted = [] → s.marked = [] → s.preimage = some p → step s = exec (.capturePreimageWritten p.1 (BitVec.ofNat 64 p.2)) s)
    ∧ (s.posted = [] → s.marked = [] → s.preimage = none →
    (∀ c k, s.latch = f :: rest → f.agent = .core c k →
        (∀ i, decodeOp .bundle 64 256 k (RawOp.ofBits (f.word.setWidth 44)) = .ok i → step s = waits s (after (exec i run)))
        ∧ (∀ n, decodeOp .bundle 64 256 k (RawOp.ofBits (f.word.setWidth 44)) = .error n → ∃ v,
            step s = .next (ends (run.takeTrap f.agent ⟨if n = 0x05 ∨ n = 0x06 ∨ n = 0x11 then 0x04 else if n = 0x20 ∨ n = 0x21 then 0x01 else 0x02,
              v⟩))))
    ∧ (∀ u, s.latch = f :: rest → f.agent = .thr u →
        let g := s.group u.unit u.group
        let p := (ThreadWord.ofBits f.word).p
        let set := p.extractLsb' 0 3 = 0 ∨ (s.thread u).p.getLsbD (p.toNat % 8) = true
        let holds := if p.getLsbD 3 then ¬ set else set
        (∀ i, decodeWord g.regs g.nsem f.word = .ok i →
          (holds → step s = waits s (after (exec i run))) ∧ (¬ holds → step s = .next (ends run.moveOn)))
        ∧ (∀ n, decodeWord g.regs g.nsem f.word = .error n → ∃ v,
            step s = .next (ends (run.takeTrap f.agent ⟨if n = 0x05 ∨ n = 0x06 ∨ n = 0x11 then 0x04 else if n = 0x20 ∨ n = 0x21 then 0x01 else 0x03,
              v⟩))))
    ∧ (∀ x l i, s.latch = [] → s.inputs = x :: l → x.act = .event i → s.reeve.rails = true →
        let at' : List Stimulus → State := fun q =>
          if s.reeve.counting then { s with inputs := q, ptime := s.ptime + x.dt } else { s with inputs := q }
        step s = waits (at' ({ x with dt := 0 } :: l)) (exec i (at' l)))
    ∧ (s.latch = [] → s.inputs = [] → s.reeve.rails = true → s.reeve.counting = true → step s = .next { s with ptime := s.ptime + 1 })
    ∧ (s.latch = [] → s.inputs = [] → s.reeve.rails = true → s.reeve.counting = false → step s = .next s))
    ∧ (∀ (u : Tid) (bs : List Byte) (t : State), (s.thread u).ended = false → (s.thread u).pendTraps = [] → (s.thread u).pc.toNat % 8 = 0 →
        s.fetchCode (.thr u) (s.thread u).pc.toNat 8 = .ok (bs, t) →
        s.fetchThread u = { t with latch := t.latch ++ [⟨.thr u, BitVec.ofNat 64 (leNat bs)⟩] })

/-- O57. The words that the spec writes out decode to the ops they stand for. (spec/02_encoding.md: The slot op, spec/02_encoding.md: The header, spec/02_encoding.md: The opcode map, spec/04_scalar_vector.md: Predicates, spec/04_scalar_vector.md: Reduction latches, spec/05_matrix.md: ACCZ, ACCCP and SETFMT, spec/05_matrix.md: MMA, spec/06_traversal.md: Queries, spec/08_memory_ops.md: Loads and stores, spec/09_time_trace.md: Drift markers and TRCEV, spec/10_progress.md: Control, launch, wait, barrier and power instructions, spec/12_recovery.md: Trap instructions) -/
def Obligations.WordsOfTheSpecDecode : Prop :=
  let op : Nat → Nat → Except Nat Instr := fun slot w => decodeOp .bundle 64 256 slot (RawOp.ofBits (BitVec.ofNat 44 w))
  op 0 0x01050607000 = .ok (.add (.sx 5) (.sx 6) (.sx 7))
  ∧ op 1 0x03090900010 = .ok (.addi (.sx 9) (.sx 9) 16)
  ∧ op 0 0x37030900005 = .ok (.pset .first 1 3 (.sx 9))
  ∧ op 5 0x84000500000 = .ok (.setfmt (.sx 5))
  ∧ op 5 0x8182000B400 = .ok (.mma false true false (.acc 2) (.sx 0) (.sx 11) 0)
  ∧ op 5 0x81820C0D080 = .ok (.mma false false false (.acc 2) (.sx 12) (.sx 13) 2)
  ∧ op 5 0x980109FF7D0 = .ok (.brc (.nz (.sx 9)) 0x7FFD0)
  ∧ op 5 0x980315FF7FF = .ok (.brc (.ge (.sx 21)) 0x7FFFF)
  ∧ op 5 0x9B1100004B0 = .ok (.mark 17 1200)
  ∧ op 5 0x9C000708485 = .ok (.trcevFull 0x85 (.sx 7) (.sx 8))
  ∧ op 5 0xA009E100380 = .ok (.semsig 9 (.imm 1) 3 true)
  ∧ op 5 0x9D000000018 = .ok (.leave (.sx 0) 24)
  ∧ op 6 0xE7000809000 = .ok (.tlbinvVa (.sx 8) (.sx 9))
  ∧ op 6 0xE7000000002 = .ok .tlbinvAll
  ∧ op 5 0xA406000002A = .ok (.trap .always 0x2A)
  ∧ op 5 0xA401090002A = .ok (.trap (.cond (.nz (.sx 9))) 0x2A)
  ∧ op 4 0x66014A00410 = .ok (.rdadd ⟨false, .w1024, 0, false, .f32⟩ 1 (.vec 10))
  ∧ decodeWord 64 256 0x2800001050607000 = .ok (.add (.sx 5) (.sx 6) (.sx 7))
  ∧ decodeWord 64 256 0x00000C105060746A = .ok (.ld ⟨false, .device, .acq, 2, true, 2⟩ (.sx 5) (.sx 6) (.sx 7))
  ∧ decodeWord 64 256 0x00000A8051049600 = .ok (.rayqSph (.sx 5) (.sx 16) (.kreg 9) true false false)
  ∧ headerOf 0x50410303 = { pres := 3, wsem := 3, wth := 1, ssem := 4, sinc := 1, kind := 1 }

/-- O58. Decoding the encoding of every well-formed op gives the op back, in both forms. (spec/02_encoding.md: The slot op, spec/02_encoding.md: Operands, spec/02_encoding.md: The thread word, spec/02_encoding.md: Decode checks, spec/02_encoding.md: The opcode map) -/
def Obligations.EncodingRoundTrip : Prop :=
  ∀ (i : Instr) (regs nsem : Nat) (r : RawOp), encode i = some r →
    (∀ slot : Fin 8, WellFormed .bundle regs nsem i = true → slotClass slot = r.opc.toNat / 64 → i.slotOk slot = true →
      decodeOp .bundle regs nsem slot (RawOp.ofBits r.toBits) = .ok i)
    ∧ (WellFormed .thread regs nsem i = true → ∀ (p : BitVec 4) (y c : Bool),
      let w := ThreadWord.toBits { p := p, y := y, c := c, zero := 0, op := r.toBits }
      decodeWord regs nsem w = .ok i ∧ (ThreadWord.ofBits w).p = p)

/-- O59. Every step answers a next state and keeps the stored memories in their canonical form. Rests on choices of the model: the schedule
of events (log 1). (spec/07_ordering.md: Where data lives, spec/01_machine.md: State and the promises) -/
def Obligations.EveryStepGoesOnAndKeepsMemory : Prop :=
  ∀ s : State, ∃ t, step s = .next t ∧ (MemOk s → MemOk t)

/-- O60. What sources supply, when results land, and when a redirect takes effect. Rests on choices of the model: when a thread's results
are there (log 8); operand kinds (log 14). (spec/02_encoding.md: Operands, spec/01_machine.md: Bundle-form state, spec/01_machine.md: Thread-form state, spec/01_machine.md: When results become visible) -/
def Obligations.SourcesLandingsAndDelays : Prop :=
  (∀ (s : State) (t : Ty) (n : Fin 64),
    s.rd t (.sx 0) = 0 ∧ s.rp 0 = BitVec.allOnes 128
    ∧ (∀ c k, s.cur = .core c k → (n ≠ 0 → s.rd t (.sx n) = mget 0 (s.core c).arch.s n) ∧ s.rv t (.vec n) = mget 0 (s.core c).arch.v n)
    ∧ (∀ u, s.cur = .thr u → (n ≠ 0 → s.rd t (.sx n) = mget 0 (s.thread u).x n)
        ∧ ∀ k : Fin 160, s.rd t (.kreg k) = mget 0 (s.group u.unit u.group).k k))
  ∧ (∀ (s : State) (c : Fin 32) (t : Ty),
    let v := s.rd t (.imm c)
    let w := width t
    let ints : List Int := [0, 1, 2, 3, 4, 5, 6, 7, 8, 16, 32, 64, 128, 256, -1, -2]
    let f32s : List Nat := [0, 0x3F800000, 0x40000000, 0x40400000, 0x40800000, 0x40A00000, 0x40C00000, 0x40E00000, 0x41000000, 0x41800000,
      0x42000000, 0x42800000, 0x43000000, 0x43800000, 0xBF800000, 0xC0000000, 0x3F000000, 0x3E800000, 0x3E000000, 0xBF000000,
      0x40490FDB, 0x3FC90FDB, 0x40C90FDB, 0x3F317218, 0x3FB8AA3B, 0x7F800000, 0xFF800000, 0x7FC00000, 0x7F7FFFFF, 0x00800000]
    let f16s : List Nat := [0, 0x3C00, 0x4000, 0x4200, 0x4400, 0x4500, 0x4600, 0x4700, 0x4800, 0x4C00, 0x5000, 0x5400, 0x5800, 0x5C00,
      0xBC00, 0xC000, 0x3800, 0x3400, 0x3000, 0xB800, 0x4248, 0x3E48, 0x4648, 0x398C, 0x3DC5, 0x7C00, 0xFC00, 0x7E00, 0x7BFF, 0x0400]
    let bf16s : List Nat := [0, 0x3F80, 0x4000, 0x4040, 0x4080, 0x40A0, 0x40C0, 0x40E0, 0x4100, 0x4180, 0x4200, 0x4280, 0x4300, 0x4380,
      0xBF80, 0xC000, 0x3F00, 0x3E80, 0x3E00, 0xBF00, 0x4049, 0x3FC9, 0x40C9, 0x3F31, 0x3FB9, 0x7F80, 0xFF80, 0x7FC0, 0x7F7F, 0x0080]
    (t ∈ ([.i8, .i16, .i32, .i64, .n8, .n16, .n32, .n64] : List Ty) →
      (∀ x, ints[c.val]? = some x → v = BitVec.ofNat 64 (x % (2 ^ w : Nat)).toNat)
      ∧ (c = 30 → v = if t ∈ ([.i8, .i16, .i32, .i64] : List Ty) then BitVec.ofNat 64 (2 ^ (w - 1)) else 0)
      ∧ (c = 31 → v = if t ∈ ([.i8, .i16, .i32, .i64] : List Ty) then BitVec.ofNat 64 (2 ^ (w - 1) - 1) else BitVec.ofNat 64 (2 ^ w - 1)))
    ∧ (∀ x, (t = .f32 → f32s[c.val]? = some x → v = BitVec.ofNat 64 x)
        ∧ (t = .f16 → f16s[c.val]? = some x → v = BitVec.ofNat 64 x)
        ∧ (t = .bf16 → bf16s[c.val]? = some x → v = BitVec.ofNat 64 x))
    ∧ (t ∈ ([.i8, .i16, .i32, .i64, .n8, .n16, .n32, .n64, .f32, .f16, .bf16] : List Ty) → ∀ j, w * (j + 1) ≤ 1024 →
        vecElem (s.rv t (.imm c)) w j = v.toNat % 2 ^ w))
  ∧ (∀ (x : Core) (n k : Nat) (v : Word) (mask vec : Vec) (pm pv : Pred) (commit : Bool),
    let late : Land → Bool := fun e => match e with
      | .latch .. | .flags _ => true
      | _ => false
    let s' := mget 0 (x.tick commit).arch.s n
    (x.tick commit).flight = (x.flight.filter fun e => decide (2 ≤ e.1) || (!commit && late e.2)).map (fun e => (e.1 - 1, e.2))
    ∧ ((∀ e ∈ x.flight, e.1 ≤ 1 → ∀ w, e.2 ≠ .sreg n w) → s' = mget 0 x.arch.s n)
    ∧ (∀ l r, x.flight = l ++ (k, .sreg n v) :: r → k ≤ 1 → (∀ e ∈ r, e.1 ≤ 1 → ∀ w, e.2 ≠ .sreg n w) → s' = v)
    ∧ (∀ l r, x.flight = l ++ (k, .vreg n mask vec) :: r → k ≤ 1 → (∀ e ∈ l ++ r, e.1 ≤ 1 → ∀ m w, e.2 ≠ .vreg n m w) →
        mget 0 (x.tick commit).arch.v n = underMask (mget 0 x.arch.v n) mask vec)
    ∧ ((∀ e ∈ x.flight, e.1 ≤ 1 → ∀ m w, e.2 ≠ .vreg n m w) → mget 0 (x.tick commit).arch.v n = mget 0 x.arch.v n)
    ∧ (∀ l r, x.flight = l ++ (k, .preg n pm pv) :: r → k ≤ 1 → (∀ e ∈ l ++ r, e.1 ≤ 1 → ∀ m w, e.2 ≠ .preg n m w) →
        mget 0 (x.tick commit).arch.p n = underMask (mget 0 x.arch.p n) pm pv)
    ∧ ((∀ e ∈ x.flight, e.1 ≤ 1 → ∀ m w, e.2 ≠ .preg n m w) → mget 0 (x.tick commit).arch.p n = mget 0 x.arch.p n)
    ∧ (x.tick false).arch.fflags = x.arch.fflags
    ∧ ((∀ e ∈ x.flight, e.1 ≤ 1 → ∀ a b c d g, e.2 ≠ .latch a b c d g) → ∀ i < 5,
        (x.tick false).landLate.arch.fflags.getLsbD i = (x.arch.fflags.getLsbD i || x.flight.any fun e => decide (e.1 ≤ 1) && match e.2 with
          | .flags f => f.getLsbD i
          | _ => false)))
  ∧ (∀ (a : Arch) (target : BitVec 32) (len : Nat),
    ((∀ e ∈ a.redir, 2 ≤ e.2) → (a.nextPc len).pc = a.pc + BitVec.ofNat 32 len)
    ∧ (∀ l r, a.redir = l ++ (target, 1) :: r → (∀ e ∈ l, 2 ≤ e.2) → (a.nextPc len).pc = target)
    ∧ (a.nextPc len).redir = (a.redir.filter fun e => decide (2 ≤ e.2)).map (fun e => (e.1, e.2 - 1))
    ∧ (a.redir = [] → (a.nextPc len).pc = a.pc + BitVec.ofNat 32 len)
    ∧ (a.redir = [(target, 3)] →
        let b := a.nextPc len
        let c := b.nextPc len
        b.pc = a.pc + BitVec.ofNat 32 len ∧ c.pc = b.pc + BitVec.ofNat 32 len
        ∧ (c.nextPc len).pc = target ∧ (c.nextPc len).redir = []))
end

