-- ==== Sys2Proof/Tests/Slice0.lean ====
section
/-!
SUPPORT. Tests: ill-formed terms that WellFormed refuses, one written word for each constructor of a slot op, single steps on small states
with results worked out from the spec, and for each statement with hypotheses a state and operands that meet them.
-/
namespace Sys2Proof.Tests
open Sys2Proof.Machine

/-! ### Well-formedness and decode checks -/

/-- One term for each check that WellFormed makes, refused by it. -/
theorem test_wellformed_refuses :
    WellFormed .thread 64 256 (.setfmt (.sx 5)) = false                                   -- 0x06: bundle form only (R80)
    ∧ WellFormed .bundle 64 256 .tret = false                                             -- 0x06: thread form only
    ∧ WellFormed .bundle 64 256 .powerOn = false                                          -- a device event is no slot op
    ∧ WellFormed .thread 64 256 (.mnop true) = false                                      -- 0x08: no hold in thread form (R76)
    ∧ WellFormed .bundle 64 256 (.vadd ⟨false, .w256, 0, false, .f32⟩ (.vec 1) (.vec 2) (.vec 3)) = false  -- 0x0B (R142)
    ∧ WellFormed .bundle 64 256 (.fcvt .i8 .i8 (.sx 1) (.sx 2)) = false                   -- 0x0B (R129)
    ∧ WellFormed .bundle 64 256 (.add (.vec 1) (.sx 2) (.sx 3)) = false                   -- 0x0C: a v register as destination
    ∧ WellFormed .bundle 64 256 (.add (.sx 1) (.imm 16) (.sx 3)) = false                  -- 0x0C: 0.5 has no integer value (R65)
    ∧ WellFormed .thread 32 256 (.add (.sx 32) (.sx 2) (.sx 3)) = false                   -- 0x0C: x32 of 32 registers (R24)
    ∧ WellFormed .thread 64 256 (.rayw (.sx 6)) = false                                   -- 0x0C: not a multiple of 4
    ∧ WellFormed .bundle 64 256 (.ld ⟨false, .device, .acq, 3, false, 0⟩ (.sx 1) (.sx 2) (.sx 3)) = false  -- 0x0D (R268)
    ∧ WellFormed .bundle 64 256 (.ld ⟨false, .thread, .rlx, 3, true, 0⟩ (.sx 1) (.sx 2) (.sx 3)) = false   -- 0x0D: SX on 8 bytes
    ∧ WellFormed .bundle 64 256 (.accst false 4 28 (.sx 1) (.acc 0)) = false              -- 0x0D: rows past 31 (R275)
    ∧ WellFormed .thread 64 256 (.cpym false 0x10 (.sx 1) (.sx 2) (.sx 3)) = false        -- 0x0D: MASK[7:4] (R280)
    ∧ WellFormed .bundle 64 256 (.mma false true false (.acc 2) (.sx 1) (.sx 2) 1) = false -- 0x0D: CT with CZ = 1 (R168)
    ∧ WellFormed .thread 64 8 (.semwait 8 (.sx 1)) = false                                -- 0x1A: semaphore 8 of 8 (R27)
    ∧ WellFormed .bundle 64 256 (.swr 0x010 (.sx 1)) = false                              -- 0x11: CYCLE is read only (R30)
    ∧ WellFormed .bundle 64 256 (.srd (.sx 1) 0x033) = false := by                        -- 0x11: TMASK is thread form only
  decide

/-- The op that a slot of a bundle holds. -/
def slot (n : Nat) (w : BitVec 44) : Option Instr := (decodeOp .bundle 64 256 n (RawOp.ofBits w)).toOption
/-- The op of a thread word. -/
def thr (w : BitVec 44) : Option Instr := (decodeOp .thread 64 256 0 (RawOp.ofBits w)).toOption

set_option maxRecDepth 20000
set_option Elab.async false

/-- Words written out field by field (OPC D A B MOD) from R122 to R125, and R62 for the operands. -/
theorem test_scalar_words_a :
    slot 0 0x00000000000 = some (.nop)
    ∧ slot 0 0x01050607000 = some (.add (.sx 5) (.sx 6) (.sx 7))
    ∧ slot 0 0x02050607000 = some (.sub (.sx 5) (.sx 6) (.sx 7))
    ∧ slot 0 0x05050607000 = some (.mul (.sx 5) (.sx 6) (.sx 7))
    ∧ slot 0 0x06050607000 = some (.mulh (.sx 5) (.sx 6) (.sx 7))
    ∧ slot 0 0x07050607000 = some (.mulhn (.sx 5) (.sx 6) (.sx 7))
    ∧ slot 0 0x08050607000 = some (.div (.sx 5) (.sx 6) (.sx 7))
    ∧ slot 0 0x09050607000 = some (.divn (.sx 5) (.sx 6) (.sx 7))
    ∧ slot 0 0x0A050607000 = some (.rem (.sx 5) (.sx 6) (.sx 7))
    ∧ slot 0 0x0B050607000 = some (.remn (.sx 5) (.sx 6) (.sx 7))
    ∧ slot 0 0x0C050607000 = some (.and (.sx 5) (.sx 6) (.sx 7))
    ∧ slot 0 0x0D050607000 = some (.or (.sx 5) (.sx 6) (.sx 7))
    ∧ slot 0 0x0E050607000 = some (.xor (.sx 5) (.sx 6) (.sx 7))
    ∧ slot 0 0x12050607000 = some (.shl (.sx 5) (.sx 6) (.sx 7))
    ∧ slot 0 0x13050607000 = some (.shr (.sx 5) (.sx 6) (.sx 7))
    ∧ slot 0 0x14050607000 = some (.sra (.sx 5) (.sx 6) (.sx 7))
    ∧ slot 0 0x18050607000 = some (.rol (.sx 5) (.sx 6) (.sx 7))
    ∧ slot 0 0x19050607000 = some (.ror (.sx 5) (.sx 6) (.sx 7))
    ∧ slot 0 0x1A050607000 = some (.min (.sx 5) (.sx 6) (.sx 7)) := by
  and_intros <;> rfl

/-- Words written out field by field (OPC D A B MOD) from R122 to R125, and R62 for the operands. -/
theorem test_scalar_words_b :
    slot 0 0x1B050607000 = some (.max (.sx 5) (.sx 6) (.sx 7))
    ∧ slot 0 0x1C050607000 = some (.minn (.sx 5) (.sx 6) (.sx 7))
    ∧ slot 0 0x1D050607000 = some (.maxn (.sx 5) (.sx 6) (.sx 7))
    ∧ slot 0 0x1E050607000 = some (.seq (.sx 5) (.sx 6) (.sx 7))
    ∧ slot 0 0x1F050607000 = some (.sne (.sx 5) (.sx 6) (.sx 7))
    ∧ slot 0 0x20050607000 = some (.slt (.sx 5) (.sx 6) (.sx 7))
    ∧ slot 0 0x21050607000 = some (.sltn (.sx 5) (.sx 6) (.sx 7))
    ∧ slot 0 0x03050612345 = some (.addi (.sx 5) (.sx 6) 0x12345)
    ∧ slot 0 0x04050012345 = some (.lih (.sx 5) (.sx 0) 0x12345)
    ∧ slot 0 0x22050680000 = some (.slti (.sx 5) (.sx 6) 0x80000)
    ∧ slot 0 0x0F050600FF0 = some (.andi (.sx 5) (.sx 6) 0xFF0)
    ∧ slot 0 0x1005060000F = some (.ori (.sx 5) (.sx 6) 0x00F)
    ∧ slot 0 0x11050600800 = some (.xori (.sx 5) (.sx 6) 0x800)
    ∧ slot 0 0x1505060003F = some (.shli (.sx 5) (.sx 6) 63)
    ∧ slot 0 0x16050600001 = some (.shri (.sx 5) (.sx 6) 1)
    ∧ slot 0 0x17050600020 = some (.srai (.sx 5) (.sx 6) 32)
    ∧ slot 0 0x230506E100B = some (.sel (.sx 5) (.sx 6) (.imm 1) 3 true)
    ∧ slot 0 0x24050600000 = some (.clz (.sx 5) (.sx 6))
    ∧ slot 0 0x25050600000 = some (.ctz (.sx 5) (.sx 6)) := by
  and_intros <;> rfl

/-- Words written out field by field (OPC D A B MOD) from R122 to R125, and R62 for the operands. -/
theorem test_scalar_words_c :
    slot 0 0x26050600000 = some (.popc (.sx 5) (.sx 6))
    ∧ slot 0 0x270506001C4 = some (.bfx (.sx 5) (.sx 6) 4 7)
    ∧ slot 0 0x280506000FC = some (.bfi (.sx 5) (.sx 6) 60 3)
    ∧ slot 0 0x29050600005 = some (.sext (.sx 5) (.sx 6) .n16)
    ∧ slot 0 0x2A050607003 = some (.addsh (.sx 5) (.sx 6) (.sx 7) 3) := by
  and_intros <;> rfl

/-- Words written out field by field (OPC D A B MOD) from R119, R129 to R132, R139, and R62 for the operands. -/
theorem test_float_and_system_words_a :
    slot 0 0x2B050607001 = some (.fadd .f16 (.sx 5) (.sx 6) (.sx 7))
    ∧ slot 0 0x2C050607000 = some (.fsub .f32 (.sx 5) (.sx 6) (.sx 7))
    ∧ slot 0 0x2D050607002 = some (.fmul .bf16 (.sx 5) (.sx 6) (.sx 7))
    ∧ slot 0 0x2E050607000 = some (.ffma .f32 (.sx 5) (.sx 6) (.sx 7))
    ∧ slot 0 0x2F050607001 = some (.fmin .f16 (.sx 5) (.sx 6) (.sx 7))
    ∧ slot 0 0x30050607002 = some (.fmax .bf16 (.sx 5) (.sx 6) (.sx 7))
    ∧ slot 0 0x31050607000 = some (.feq .f32 (.sx 5) (.sx 6) (.sx 7))
    ∧ slot 0 0x32050607001 = some (.flt .f16 (.sx 5) (.sx 6) (.sx 7))
    ∧ slot 0 0x33050607002 = some (.fle .bf16 (.sx 5) (.sx 6) (.sx 7))
    ∧ slot 0 0x34050600213 = some (.fcvt .e4m3 .f32 (.sx 5) (.sx 6))
    ∧ slot 0 0x35050607005 = some (.fsgn .jn .f16 (.sx 5) (.sx 6) (.sx 7))
    ∧ slot 0 0x36050600002 = some (.fclass .bf16 (.sx 5) (.sx 6))
    ∧ slot 0 0x37030900005 = some (.pset .first 1 3 (.sx 9))
    ∧ slot 0 0x38030102003 = some (.plog .andn 3 1 2)
    ∧ slot 0 0x39000506000 = some (.check (.sx 5) (.sx 6))
    ∧ slot 0 0x3A050000011 = some (.srd (.sx 5) 0x011)
    ∧ slot 0 0x3B000500042 = some (.swr 0x042 (.sx 5))
    ∧ slot 0 0x3C050000000 = some (.rngn (.sx 5))
    ∧ slot 0 0x3D050000001 = some (.rngf .f16 (.sx 5)) := by
  and_intros <;> rfl

/-- Words written out field by field (OPC D A B MOD) from R119, R129 to R132, R139, and R62 for the operands. -/
theorem test_float_and_system_words_b :
    slot 0 0x3E0500000C0 = some (.rngj (.sx 5) (.imm 64))
    ∧ slot 0 0x3E050600000 = some (.rngj (.sx 5) (.reg (.sx 6))) := by
  and_intros <;> rfl

/-- Words written out field by field (OPC D A B MOD) from R60, R143, R145, R148 to R151, and R62 for the operands. -/
theorem test_vector_words_a :
    slot 2 0x40000000800 = some (.vnop true)
    ∧ slot 2 0x414A4B4C4E1 = some (.vadd ⟨false, .w1024, 3, true, .i16⟩ (.vec 10) (.vec 11) (.vec 12))
    ∧ slot 2 0x424A4B4C202 = some (.vsub ⟨false, .w512, 0, false, .i32⟩ (.vec 10) (.vec 11) (.vec 12))
    ∧ slot 2 0x434A4B4C003 = some (.vmul ⟨false, .w256, 0, false, .i64⟩ (.vec 10) (.vec 11) (.vec 12))
    ∧ slot 2 0x444A4B4CC06 = some (.vmulh ⟨true, .w1024, 0, false, .n32⟩ (.vec 10) (.vec 11) (.vec 12))
    ∧ slot 2 0x454A4B4C440 = some (.vmin ⟨false, .w1024, 1, false, .i8⟩ (.vec 10) (.vec 11) (.vec 12))
    ∧ slot 2 0x464A4B4C404 = some (.vmax ⟨false, .w1024, 0, false, .n8⟩ (.vec 10) (.vec 11) (.vec 12))
    ∧ slot 2 0x474A4B00421 = some (.vabs ⟨false, .w1024, 0, true, .i16⟩ (.vec 10) (.vec 11))
    ∧ slot 2 0x484A4B4C407 = some (.vand ⟨false, .w1024, 0, false, .n64⟩ (.vec 10) (.vec 11) (.vec 12))
    ∧ slot 2 0x494A4B4C405 = some (.vor ⟨false, .w1024, 0, false, .n16⟩ (.vec 10) (.vec 11) (.vec 12))
    ∧ slot 2 0x4A4A4B4C400 = some (.vxor ⟨false, .w1024, 0, false, .i8⟩ (.vec 10) (.vec 11) (.vec 12))
    ∧ slot 2 0x4B4A4B4C422 = some (.vshl ⟨false, .w1024, 0, true, .i32⟩ (.vec 10) (.vec 11) (.vec 12))
    ∧ slot 2 0x4C4A4B4C402 = some (.vshr ⟨false, .w1024, 0, false, .i32⟩ (.vec 10) (.vec 11) (.vec 12))
    ∧ slot 2 0x4D4A4B4C401 = some (.vsra ⟨false, .w1024, 0, false, .i16⟩ (.vec 10) (.vec 11) (.vec 12))
    ∧ slot 2 0x4E4A4B4C410 = some (.vfadd ⟨false, .w1024, 0, false, .f32⟩ (.vec 10) (.vec 11) (.vec 12))
    ∧ slot 2 0x4F4A4B4C411 = some (.vfsub ⟨false, .w1024, 0, false, .f16⟩ (.vec 10) (.vec 11) (.vec 12))
    ∧ slot 2 0x504A4B4C412 = some (.vfmul ⟨false, .w1024, 0, false, .bf16⟩ (.vec 10) (.vec 11) (.vec 12))
    ∧ slot 2 0x514A4B4C210 = some (.vfma ⟨false, .w512, 0, false, .f32⟩ (.vec 10) (.vec 11) (.vec 12))
    ∧ slot 2 0x524A4B4C410 = some (.vfmin ⟨false, .w1024, 0, false, .f32⟩ (.vec 10) (.vec 11) (.vec 12)) := by
  and_intros <;> rfl

/-- Words written out field by field (OPC D A B MOD) from R60, R143, R145, R148 to R151, and R62 for the operands. -/
theorem test_vector_words_b :
    slot 2 0x534A4B4C410 = some (.vfmax ⟨false, .w1024, 0, false, .f32⟩ (.vec 10) (.vec 11) (.vec 12))
    ∧ slot 2 0x54134B4C400 = some (.vcmp ⟨false, .w1024, 0, false, .i8⟩ .lt 3 (.vec 11) (.vec 12))
    ∧ slot 2 0x55314B4C410 = some (.vfcmp ⟨false, .w1024, 0, false, .f32⟩ .un 1 (.vec 11) (.vec 12))
    ∧ slot 2 0x564A4B4C413 = some (.vsel ⟨false, .w1024, 0, false, .e4m3⟩ (.vec 10) (.vec 11) (.vec 12))
    ∧ slot 2 0x574A4B10412 = some (.vcvt ⟨false, .w1024, 0, false, .bf16⟩ .f32 (.vec 10) (.vec 11))
    ∧ slot 2 0x584A0500402 = some (.vsplat ⟨false, .w1024, 0, false, .i32⟩ (.vec 10) (.sx 5))
    ∧ slot 2 0x59054A06402 = some (.vext ⟨false, .w1024, 0, false, .i32⟩ (.sx 5) (.vec 10) (.sx 6))
    ∧ slot 2 0x5A4A0506402 = some (.vins ⟨false, .w1024, 0, false, .i32⟩ (.vec 10) (.sx 5) (.sx 6))
    ∧ slot 2 0x5B4A4B4C400 = some (.vperm ⟨false, .w1024, 0, false, .i8⟩ (.vec 10) (.vec 11) (.vec 12))
    ∧ slot 2 0x5C4A4B06402 = some (.vslide ⟨false, .w1024, 0, false, .i32⟩ (.vec 10) (.vec 11) (.sx 6))
    ∧ slot 2 0x5D4A4B4C401 = some (.vzip ⟨false, .w1024, 0, false, .i16⟩ (.vec 10) (.vec 11) (.vec 12))
    ∧ slot 2 0x5E4A4B4C401 = some (.vunzip ⟨false, .w1024, 0, false, .i16⟩ (.vec 10) (.vec 11) (.vec 12))
    ∧ slot 2 0x5F4A4B00481 = some (.vcprs ⟨false, .w1024, 2, false, .i16⟩ (.vec 10) (.vec 11))
    ∧ slot 2 0x604A4B00403 = some (.vpcnt ⟨false, .w1024, 0, false, .i64⟩ (.vec 10) (.vec 11))
    ∧ slot 2 0x614A0000406 = some (.viota ⟨false, .w1024, 0, false, .n32⟩ (.vec 10))
    ∧ slot 2 0x624A4B4C420 = some (.vdot4 ⟨false, .w1024, 0, true, .i8⟩ (.vec 10) (.vec 11) (.vec 12))
    ∧ slot 2 0x634A8305410 = some (.vaccrd ⟨false, .w1024, 0, false, .f32⟩ (.vec 10) (.acc 3) (.sx 5))
    ∧ slot 2 0x64834A05402 = some (.vaccwr ⟨false, .w1024, 0, false, .i32⟩ (.acc 3) (.vec 10) (.sx 5))
    ∧ slot 2 0x654A4B0041A = some (.vmov ⟨false, .w1024, 0, false, .e8m0⟩ (.vec 10) (.vec 11)) := by
  and_intros <;> rfl

/-- Words written out field by field (OPC D A B MOD) from R60, R143, R145, R148 to R151, and R62 for the operands. -/
theorem test_vector_words_c :
    slot 4 0x66014A00410 = some (.rdadd ⟨false, .w1024, 0, false, .f32⟩ 1 (.vec 10))
    ∧ slot 4 0x67024A00422 = some (.rdmax ⟨false, .w1024, 0, true, .i32⟩ 2 (.vec 10))
    ∧ slot 4 0x68034A00007 = some (.rdmin ⟨false, .w256, 0, false, .n64⟩ 3 (.vec 10))
    ∧ slot 4 0x69050200003 = some (.rdmov ⟨false, .w256, 0, false, .i64⟩ (.sx 5) 2) := by
  and_intros <;> rfl

/-- Words written out field by field (OPC D A B MOD) from R152, R168, R177, R178, R183, and R62 for the operands. -/
theorem test_matrix_words_a :
    slot 5 0x80000000800 = some (.xnop true)
    ∧ slot 5 0x8182000B420 = some (.mma false true true (.acc 2) (.sx 0) (.sx 11) 0)
    ∧ slot 5 0x82850000800 = some (.accz true (.acc 5))
    ∧ slot 5 0x83828300001 = some (.acccp false true (.acc 2) (.acc 3))
    ∧ slot 5 0x84000500000 = some (.setfmt (.sx 5))
    ∧ slot 5 0x85050600000 = some (.twb false (.sx 5) (.sx 6))
    ∧ slot 5 0x86050000000 = some (.twn false (.sx 5))
    ∧ slot 5 0x87050000800 = some (.twe true (.sx 5))
    ∧ slot 5 0x88050000000 = some (.mstestQuick (.sx 5))
    ∧ slot 5 0x88050000001 = some (.mstestFull (.sx 5))
    ∧ slot 5 0x89050000002 = some (.fmaprd false (.sx 5) 2)
    ∧ slot 5 0x8A4A4B000C0 = some (.frcp false 3 (.vec 10) (.vec 11))
    ∧ slot 5 0x8B4A4B000C0 = some (.frsq false 3 (.vec 10) (.vec 11))
    ∧ slot 5 0x8C4A4B000C0 = some (.fsqrt false 3 (.vec 10) (.vec 11))
    ∧ slot 5 0x8E4A4B000C0 = some (.fexp2 false 3 (.vec 10) (.vec 11))
    ∧ slot 5 0x8F4A4B000C0 = some (.flog2 false 3 (.vec 10) (.vec 11))
    ∧ slot 5 0x904A4B000C0 = some (.fsin false 3 (.vec 10) (.vec 11))
    ∧ slot 5 0x914A4B000C0 = some (.fcos false 3 (.vec 10) (.vec 11))
    ∧ slot 5 0x924A4B000C0 = some (.ftanh false 3 (.vec 10) (.vec 11)) := by
  and_intros <;> rfl

/-- Words written out field by field (OPC D A B MOD) from R152, R168, R177, R178, R183, and R62 for the operands. -/
theorem test_matrix_words_b :
    slot 5 0x934A4B000C0 = some (.fsigm false 3 (.vec 10) (.vec 11))
    ∧ slot 5 0x944A4B000C0 = some (.flut false 3 (.vec 10) (.vec 11))
    ∧ slot 5 0x8D4A4B4C840 = some (.fdiv true 1 (.vec 10) (.vec 11) (.vec 12))
    ∧ slot 5 0x95050600002 = some (.lutld (.sx 5) (.sx 6) 2)
    ∧ slot 5 0x96000000003 = some (.lutsel 3) := by
  and_intros <;> rfl

/-- Words written out field by field (OPC D A B MOD) from R321, R367, R424, and R62 for the operands. -/
theorem test_control_words :
    slot 5 0x970000FF7F0 = some (.br none 0x7FFF0)
    ∧ slot 5 0x97010500004 = some (.br (some (.sx 5)) 4)
    ∧ slot 5 0x982C0001002 = some (.brc (.p 5) 0x802)
    ∧ slot 5 0x980109FF7D0 = some (.brc (.nz (.sx 9)) 0x7FFD0)
    ∧ slot 5 0x99000000010 = some (.call none 16)
    ∧ slot 5 0x9A003F00000 = some (.ret (.sx 63))
    ∧ slot 5 0x9B1100004B0 = some (.mark 17 1200)
    ∧ slot 5 0x9C0007000FF = some (.trcev 0xFF (.sx 7))
    ∧ slot 5 0x9C000708485 = some (.trcevFull 0x85 (.sx 7) (.sx 8))
    ∧ slot 5 0x9D000500018 = some (.leave (.sx 5) 24)
    ∧ slot 5 0x9E000500000 = some (.launch (.sx 5))
    ∧ slot 5 0x9F000000000 = some (.jend)
    ∧ slot 5 0x9F000000001 = some (.jendBlk)
    ∧ slot 5 0xA009E100380 = some (.semsig 9 (.imm 1) 3 true)
    ∧ slot 5 0xA3000000025 = some (.barJob 5)
    ∧ slot 5 0xA406000002A = some (.trap .always 0x2A)
    ∧ slot 5 0xA41D00007FF = some (.trap (.cond (.np 3)) 0x7FF)
    ∧ slot 5 0xA6000000123 = some (.svc 0x123)
    ∧ slot 5 0xA70000007FF = some (.bkpt 0x7FF) := by
  and_intros <;> rfl

/-- Words written out field by field (OPC D A B MOD) from R200 to R221, R367, R424, and R62 for the operands. -/
theorem test_thread_words :
    thr 0xA1050600000 = some (.semwait 5 (.sx 6))
    ∧ thr 0xA2000000000 = some (.yield)
    ∧ thr 0xA300000000F = some (.barGroup 15)
    ∧ thr 0xA3000000010 = some (.barBlock 0)
    ∧ thr 0xA5000000000 = some (.tret)
    ∧ thr 0xA8000448300 = some (.rayqRay (.sx 4) (.kreg 8) true true false)
    ∧ thr 0xA8051049600 = some (.rayqSph (.sx 5) (.sx 16) (.kreg 9) true false false)
    ∧ thr 0xA9080000000 = some (.rayw (.sx 8))
    ∧ thr 0xAA000000000 = some (.rayahIgnore)
    ∧ thr 0xAA000000001 = some (.rayahAccept)
    ∧ thr 0xAB000600000 = some (.hintinv (.sx 6))
    ∧ thr 0xAB000000001 = some (.hintinvAll)
    ∧ thr 0xAC04DF07000 = some (.isamp (.sx 4) (.kreg 159) (.sx 7))
    ∧ thr 0xAD040607000 = some (.cmsamp (.sx 4) (.sx 6) (.sx 7))
    ∧ thr 0xAE040608000 = some (.cmseg (.sx 4) (.sx 6) (.sx 8))
    ∧ thr 0xC105060746A = some (.ld ⟨false, .device, .acq, 2, true, 2⟩ (.sx 5) (.sx 6) (.sx 7)) := by
  and_intros <;> rfl

/-- Words written out field by field (OPC D A B MOD) from R267 to R280, and R62 for the operands. -/
theorem test_memory_words :
    slot 6 0xC0000000800 = some (.mnop true)
    ∧ slot 6 0xC105060702B = some (.ld ⟨false, .thread, .rlx, 2, true, 3⟩ (.sx 5) (.sx 6) (.sx 7))
    ∧ slot 6 0xC20506E0030 = some (.st ⟨false, .thread, .rlx, 3, false, 0⟩ (.sx 5) (.sx 6) (.imm 0))
    ∧ slot 7 0xC3050607808 = some (.lds ⟨true, .thread, .rlx, 0, true, 0⟩ (.sx 5) (.sx 6) (.sx 7))
    ∧ slot 7 0xC4050607011 = some (.sts ⟨false, .thread, .rlx, 1, false, 1⟩ (.sx 5) (.sx 6) (.sx 7))
    ∧ slot 6 0xC54A06074C0 = some (.ldv ⟨false, .w1024, 3⟩ (.vec 10) (.sx 6) (.sx 7))
    ∧ slot 6 0xC64A0607200 = some (.stv ⟨false, .w512, 0⟩ (.vec 10) (.sx 6) (.sx 7))
    ∧ slot 6 0xC74A064C438 = some (.ldvg ⟨false, .w1024, 0⟩ true 3 (.vec 10) (.sx 6) (.vec 12))
    ∧ slot 6 0xC84A064C410 = some (.stvs ⟨false, .w1024, 0⟩ false 2 (.vec 10) (.sx 6) (.vec 12))
    ∧ slot 6 0xC94A0607430 = some (.tld ⟨false, .w1024, 0⟩ 3 (.vec 10) (.sx 6) (.sx 7))
    ∧ slot 6 0xCA4A06075D0 = some (.tst ⟨false, .w1024, 7⟩ 1 (.vec 10) (.sx 6) (.sx 7))
    ∧ slot 6 0xCB0006830DC = some (.accst false 3 28 (.sx 6) (.acc 3))
    ∧ slot 6 0xCC8306007C0 = some (.accld false 31 0 (.acc 3) (.sx 6))
    ∧ slot 6 0xCD05060003F = some (.blkld (.sx 5) (.sx 6) 63)
    ∧ slot 6 0xCE000600000 = some (.blkrel (.sx 6))
    ∧ slot 6 0xCF050607600 = some (.cpy false .l2l (.sx 5) (.sx 6) (.sx 7))
    ∧ slot 6 0xD00506070A5 = some (.cpym false 0xA5 (.sx 5) (.sx 6) (.sx 7))
    ∧ slot 6 0xD1000607000 = some (.syncset (.sx 6) (.sx 7))
    ∧ slot 6 0xD2050607440 = some (.swait .device .acq (.sx 5) (.sx 6) (.sx 7)) := by
  and_intros <;> rfl

/-- Words written out field by field (OPC D A B MOD) from R285, R267, R406, and R62 for the operands. -/
theorem test_atomic_words_a :
    slot 6 0xD30506070F4 = some (.aadd ⟨.thread, .ar, true, true⟩ (.sx 5) (.sx 6) (.sx 7))
    ∧ slot 6 0xD60506073A0 = some (.aand ⟨.die, .rel, false, false⟩ (.sx 5) (.sx 6) (.sx 7))
    ∧ slot 6 0xD7050607230 = some (.aor ⟨.cluster, .rlx, true, false⟩ (.sx 5) (.sx 6) (.sx 7))
    ∧ slot 6 0xD8050607460 = some (.axor ⟨.device, .acq, false, false⟩ (.sx 5) (.sx 6) (.sx 7))
    ∧ slot 6 0xD90506075F0 = some (.aswp ⟨.peer, .ar, true, false⟩ (.sx 5) (.sx 6) (.sx 7))
    ∧ slot 6 0xDA0506076E0 = some (.acas ⟨.io, .ar, false, false⟩ (.sx 5) (.sx 6) (.sx 7))
    ∧ slot 6 0xD4050607428 = some (.amin ⟨.device, .rlx, false, false⟩ true (.sx 5) (.sx 6) (.sx 7))
    ∧ slot 6 0xD50506074B0 = some (.amax ⟨.device, .rel, true, false⟩ false (.sx 5) (.sx 6) (.sx 7))
    ∧ slot 6 0xDB0406084C0 = some (.acas2 .device .ar false (.sx 4) (.sx 6) (.sx 8))
    ∧ slot 6 0xDC050607498 = some (.afadd .device .rel false .bf16 (.sx 5) (.sx 6) (.sx 7))
    ∧ slot 6 0xDD0000004C0 = some (.fence .device .ar)
    ∧ slot 6 0xDE000000100 = some (.drain .core)
    ∧ slot 6 0xDF000607000 = some (.clean (.sx 6) (.sx 7))
    ∧ slot 6 0xE0000607000 = some (.inv (.sx 6) (.sx 7))
    ∧ slot 6 0xE14A0600080 = some (.qpush .thread .rel (.vec 10) (.sx 6))
    ∧ slot 6 0xE24A0607140 = some (.qpop .core .acq (.vec 10) (.sx 6) (.sx 7))
    ∧ slot 6 0xE34A0607400 = some (.qtry .device .rlx (.vec 10) (.sx 6) (.sx 7))
    ∧ slot 7 0xE4050600001 = some (.tgld true (.sx 5) (.sx 6))
    ∧ slot 7 0xE5050600000 = some (.tgst false (.sx 5) (.sx 6)) := by
  and_intros <;> rfl

/-- Words written out field by field (OPC D A B MOD) from R285, R267, R406, and R62 for the operands. -/
theorem test_atomic_words_b :
    slot 7 0xE6000607801 = some (.pref true true (.sx 6) (.sx 7))
    ∧ slot 6 0xE7000809000 = some (.tlbinvVa (.sx 8) (.sx 9))
    ∧ slot 6 0xE7000009001 = some (.tlbinvAsid (.sx 9))
    ∧ slot 6 0xE7000000002 = some (.tlbinvAll) := by
  and_intros <;> rfl

/-- The check that a decoder reports. -/
def reported : Except Nat Instr → Option Nat
  | .ok _ => none
  | .error c => some c
def slotCheck (n : Nat) (w : BitVec 44) : Option Nat := reported (decodeOp .bundle 64 256 n (RawOp.ofBits w))
def threadCheck (nsem : Nat) (w : BitVec 44) : Option Nat := reported (decodeOp .thread 64 nsem 0 (RawOp.ofBits w))

/-- Words that break one check of R77 each, with the check that the decoder reports. -/
theorem test_decode_reports_the_check :
    slotCheck 0 0x41000000000 = some 0x04                  -- a vector op in S0
    ∧ slotCheck 0 0x3F000000000 = some 0x05                -- unassigned
    ∧ threadCheck 256 0x41000000000 = some 0x06                -- vector class in thread form
    ∧ slotCheck 2 0x66014A00410 = some 0x07                -- RDADD in V0
    ∧ slotCheck 7 0xD30506070F0 = some 0x07                -- AADD in M1
    ∧ slotCheck 5 0x84000500800 = some 0x08                -- SETFMT held
    ∧ slotCheck 2 0x414A4B4C600 = some 0x09                -- W = 11
    ∧ slotCheck 2 0x414A4B4C408 = some 0x0B                -- TYPE 0x08
    ∧ slotCheck 0 0x01950607000 = some 0x0C                -- operand code 0x95
    ∧ slotCheck 0 0x24050695000 = some 0x0D                -- unused B of CLZ (R58's example)
    ∧ slotCheck 0 0x01050607001 = some 0x0D                -- undefined MOD bit of ADD
    ∧ slotCheck 5 0x8182000B480 = some 0x0D                -- CT of an MMA with CZ = 1 (R168)
    ∧ slotCheck 5 0x9B1101004B0 = some 0x0C                -- A of MARK (R321)
    ∧ slotCheck 5 0x9C010708485 = some 0x0C                -- D of TRCEV (R321)
    ∧ threadCheck 8 0xA108E100000 = some 0x1A                  -- semaphore 8 of 8
    ∧ slotCheck 0 0x3B000500010 = some 0x11                -- SWR to CYCLE
    ∧ reported (decodeWord 64 256 0x0000100001050607) = some 0x19                                  -- bit 44 of a thread word
    ∧ slot 0 0x00FFFFFFFFF = some .nop ∧ slot 6 0xC0FFFFFF7FF = some (.mnop false) := by  -- NOPs ignore their fields (R82)
  decide

/-- The two readings the host asks for, on the word of R73's examples and on a slot op. -/
theorem test_table_words :
    decodeTableWord 64 0x2800001050607000 = some (.add (.sx 5) (.sx 6) (.sx 7))
    ∧ decodeTableWord 44 0x01050607000 = some (.add (.sx 5) (.sx 6) (.sx 7))
    ∧ decodeTableWord 48 0x84000500000 = some (.setfmt (.sx 5)) ∧ decodeTableWord 48 0xA5000000000 = some .tret := by
  decide


/-- Tables of ASID 0 at 0x1000 to 0x4000, each first entry naming the next, and a leaf for the 4 KB page 0 at frame 0x5000. -/
def tables : State :=
  let e (at' v : Nat) : List Host.Cell := (cellsOf at' (leBytes 8 v)).filter fun c => c.2 != 0
  { State.reset with mem := e 0x1000 0x2001 ++ e 0x2000 0x3001 ++ e 0x3000 0x4001 ++ e 0x4000 0x500F ++ e 0x80000 0x1001,
                     iso := { State.reset.iso with astN := 0x80001 } }
/-- The physical address of VA 0x34 for core 0, and the state its translation leaves. -/
def found (s : State) : Option (Nat × State) := (s.translate (s.ctx (.core 0 0)) 0x34 false false).map fun r => (r.1.pa, r.2)

/-- R396, R397, R406: a walk sets A and fills the caches; with the address-space entry gone and the TLB entry evicted the walk cache still
serves, and after a removal of everything nothing does. -/
theorem test_walk_cache :
    ((found tables).map fun r => (r.1, byteAt r.2.mem 0x4000, (mget [] r.2.iso.walks 0).length)) = some (0x5034, 0x4F, 4)
    ∧ (let stale := (found tables).map fun r => State.hardware { r.2 with mem := setByte r.2.mem 0x80000 0 } (.evictTlb 0 0)
       (stale.bind fun s => (found s).map (·.1)) = some 0x5034
       ∧ (stale.bind fun s => (found (s.removeEntries .all false)).map (·.1)) = none) := by
  decide +kernel

/-- R180: on a map with as many healthy rows as columns a faulty cell costs its column, and the next one then its row; a cell on a line of the
map costs nothing more. -/
theorem test_fault_cells :
    let f := Core.reset.fmap
    f.lines ⟨0, 0, [(5, 7)]⟩ = (0, 0x80) ∧ f.lines ⟨0, 0, [(5, 7), (6, 8)]⟩ = (0x40, 0x80)
    ∧ (f.take (f.lines ⟨0, 0, [(5, 7)]⟩)).lines ⟨0, 0, [(5, 7)]⟩ = (0, 0x80)
    ∧ ((f.take (f.lines ⟨0, 0, [(5, 7)]⟩)).report (0, 0x80)) = 0x0101 := by
  decide +kernel

/-! ### Single steps: results worked out from the spec -/

/-- The state after an outcome. -/
def after (o : Host.Outcome State Fault Refusal) : Option State :=
  match o with
  | .next t => some t
  | _ => none

/-- Reset with core 0 running slot 0, its architectural state and scratchpad as given. -/
def onCore (a : Arch → Arch) (scratch : List Host.Cell := []) : State :=
  { State.reset with cur := .core 0 0 }.modCore 0 fun x => { x with arch := a x.arch, scratch := scratch, scratchSize := 4096 }

/-- Reset with thread 0 of group 0 on unit 0 running, its x registers given. -/
def onThread (x : Map Word) : State :=
  { State.reset with cur := .thr ⟨0, 0, 0⟩ }.modThread ⟨0, 0, 0⟩ fun t => { t with x := x, pc := 0x1000 }

/-- What an op of core 0 puts in flight. -/
def flies (i : Instr) (s : State) : Option (List (Nat × Land)) := (after (exec i s)).map fun t => (t.core 0).flight
/-- A register of thread 0 after an op. -/
def leaves (i : Instr) (s : State) (r : Nat) : Option Word := (after (exec i s)).map fun t => mget 0 (t.thread ⟨0, 0, 0⟩).x r
/-- A core whose s registers are given. -/
def regsCore (l : Map Word) : State := onCore fun a => { a with s := l }

/-- R122: sums wrap; a shift counts b[5:0]; MULH is signed. -/
theorem test_integer_ops :
    flies (.add (.sx 5) (.sx 6) (.imm 2)) (regsCore [(6, 0xFFFFFFFFFFFFFFFF)]) = some [(1, .sreg 5 1)]
    ∧ flies (.sub (.sx 5) (.sx 6) (.sx 7)) (regsCore [(6, 1), (7, 3)]) = some [(1, .sreg 5 0xFFFFFFFFFFFFFFFE)]
    ∧ flies (.shl (.sx 5) (.imm 1) (.sx 7)) (regsCore [(7, 65)]) = some [(1, .sreg 5 2)]
    ∧ flies (.sra (.sx 5) (.sx 6) (.imm 14)) (regsCore [(6, 0x8000000000000000)]) = some [(1, .sreg 5 0xFFFFFFFFFFFFFFFF)]
    ∧ flies (.mulh (.sx 5) (.sx 6) (.imm 2)) (regsCore [(6, 0x8000000000000000)]) = some [(3, .sreg 5 0xFFFFFFFFFFFFFFFF)]
    ∧ flies (.mulhn (.sx 5) (.sx 6) (.imm 2)) (regsCore [(6, 0x8000000000000000)]) = some [(3, .sreg 5 1)]
    ∧ flies (.rol (.sx 5) (.sx 6) (.imm 1)) (regsCore [(6, 0x8000000000000001)]) = some [(1, .sreg 5 3)] := by
  decide +kernel

/-- R123: the corners of division. -/
theorem test_division_corners :
    flies (.div (.sx 5) (.sx 6) (.imm 14)) (regsCore [(6, 0x8000000000000000)]) = some [(12, .sreg 5 0x8000000000000000)]
    ∧ flies (.rem (.sx 5) (.sx 6) (.imm 14)) (regsCore [(6, 0x8000000000000000)]) = some [(12, .sreg 5 0)]
    ∧ flies (.div (.sx 5) (.sx 6) (.imm 0)) (regsCore [(6, 7)]) = some [(12, .sreg 5 0xFFFFFFFFFFFFFFFF)]
    ∧ flies (.rem (.sx 5) (.sx 6) (.imm 2)) (regsCore [(6, 0xFFFFFFFFFFFFFFF9)]) = some [(12, .sreg 5 0xFFFFFFFFFFFFFFFF)]
    ∧ flies (.remn (.sx 5) (.sx 6) (.imm 0)) (regsCore [(6, 7)]) = some [(12, .sreg 5 7)] := by
  decide +kernel

/-- R125's example: the last LIH of the chain; BFX, BFI past bit 63, SEXT. -/
theorem test_bit_fields :
    flies (.lih (.sx 5) (.sx 5) 0xBCDEF) (regsCore [(5, 0x000000123456789A)]) = some [(1, .sreg 5 0x0123456789ABCDEF)]
    ∧ flies (.bfx (.sx 5) (.sx 6) 60 7) (regsCore [(6, 0xA000000000000000)]) = some [(1, .sreg 5 0xA)]
    ∧ flies (.bfi (.sx 5) (.sx 6) 60 7) (regsCore [(5, 0x1111111111111111), (6, 0xFF)]) = some [(1, .sreg 5 0xF111111111111111)]
    ∧ flies (.sext (.sx 5) (.sx 6) .i8) (regsCore [(6, 0x180)]) = some [(1, .sreg 5 0xFFFFFFFFFFFFFF80)]
    ∧ flies (.clz (.sx 5) (.sx 6)) (regsCore []) = some [(1, .sreg 5 64)] := by
  decide +kernel

/-- R100 and R129: −6.5 converts to e4m3 0xCD; R94: an Inexact sum; R128: a number beats a quiet NaN; R130: the class of −0. -/
theorem test_scalar_float :
    flies (.fcvt .e4m3 .f32 (.sx 5) (.sx 6)) (regsCore [(6, 0xC0D00000)]) = some [(4, .sreg 5 0xCD)]
    ∧ flies (.fadd .f32 (.sx 5) (.sx 6) (.imm 1)) (regsCore [(6, 0x4B800000)]) = some [(4, .sreg 5 0x4B800000), (4, .flags 1)]
    ∧ flies (.fmin .f32 (.sx 5) (.sx 6) (.imm 27)) (regsCore [(6, 0x40400000)]) = some [(4, .sreg 5 0x40400000)]
    ∧ flies (.fclass .f16 (.sx 5) (.sx 6)) (regsCore [(6, 0x8000)]) = some [(4, .sreg 5 8)]
    ∧ flies (.fmul .f16 (.sx 5) (.imm 16) (.imm 3)) (regsCore []) = some [(5, .sreg 5 0x3E00)] := by
  decide +kernel

/-- R131's example: PSET.first of 2-byte elements with 3 sets bits 0 to 5. R138's: RNGN from the seeds 1 and 2. -/
theorem test_predicate_and_generator :
    flies (.pset .first 1 3 (.sx 9)) (regsCore [(9, 3)]) = some [(1, .preg 3 (BitVec.allOnes 128) 0x3F)]
    ∧ flies (.rngn (.sx 5)) (onCore fun a => { a with rnga := 1, rngb := 2 }) = some [(1, .sreg 5 0x800045)]
    ∧ ((after (exec (.rngn (.sx 5)) (onCore fun a => { a with rnga := 1, rngb := 2 }))).map fun t => (t.core 0).arch.rnga) = some 2 := by
  decide +kernel

/-- R146's example of VDOT4 (14), and a saturating i8 sum under a predicate that leaves element 1 alone (R20, R142). -/
theorem test_vector_ops :
    flies (.vdot4 ⟨false, .w256, 1, false, .i8⟩ (.vec 1) (.vec 2) (.vec 3))
        (onCore fun a => { a with v := [(1, 10), (2, 0x0403FE01), (3, 0x08F90605)], p := [(1, 1)] })
      = some [(5, .vreg 1 0xFFFFFFFF 14)]
    ∧ flies (.vadd ⟨false, .w256, 1, true, .i8⟩ (.vec 1) (.vec 2) (.vec 3))
        (onCore fun a => { a with v := [(2, 0x017F), (3, 0x0101)], p := [(1, 1)] }) = some [(2, .vreg 1 0xFF 0x7F)]
    ∧ flies (.vcmp ⟨false, .w256, 1, false, .n16⟩ .lt 2 (.vec 2) (.vec 3))
        (onCore fun a => { a with v := [(2, 0x7FFF), (3, 0x8000)], p := [(1, 3)] }) = some [(2, .preg 2 3 3)] := by
  decide +kernel

/-- R151's example: the tree of RDADD over 2^24 and seven ones. -/
theorem test_reduction_tree :
    (tree 0 true 3 ([0x4B800000, 0x3F800000, 0x3F800000, 0x3F800000, 0x3F800000, 0x3F800000, 0x3F800000, 0x3F800000].map some)).1
      = some 0x4B800003 := by
  decide +kernel

/-- R157's example: FLUT at 0.3125 in segment 66 gives 0x3EE00000, and a slot without a table gives NaN and Invalid. -/
theorem test_flut_example :
    flutWith (some (leBytes 4 0x42544C41 ++ leBytes 4 1 ++ leBytes 4 0xC1000000 ++ leBytes 4 0x41000000 ++ zeros 48
        ++ zeros 792 ++ (leBytes 4 0x3E800000 ++ leBytes 4 0x3F000000 ++ leBytes 4 0xBE800000) ++ zeros 732)) 0x3EA00000
      = ⟨0x3EE00000, 0⟩
    ∧ flutWith none 0x3EA00000 = ⟨0x7FC00000, 16⟩ := by
  decide +kernel

/-- The exact value of a code is num / den. -/
def codeIs (t : Ty) (code : Nat) (num : Int) (den : Nat) : Bool :=
  match decode t code with
  | .fin q => q.eq ⟨num, den⟩
  | _ => false

/-- R98's example: m8 0x58 is 3 and 0xA8 is −0.375; R90's: e4m3 0xCD is −6.5. -/
theorem test_decoded_values :
    codeIs .m8 0x58 3 1 = true ∧ codeIs .m8 0xA8 (-3) 8 = true ∧ codeIs .e4m3 0xCD (-13) 2 = true := by
  decide +kernel

/-- The table of R100: −6.5 in each of the ten types. -/
theorem test_rounding_table :
    [Ty.f32, .f16, .bf16, .e4m3, .e5m2, .e3m2, .e2m3, .e2m1, .m8, .m6].map (fun t => (round t .ne ⟨-13, 2⟩).code)
      = [0xC0D00000, 0xC680, 0xC0D0, 0xCD, 0xC6, 0x36, 0x3D, 0xF, 0xE5, 0x39] := by
  decide +kernel

/-- R180's example: one faulty row keeps M = 32, three leave M = 28. -/
theorem test_array_shape :
    FaultMap.shape ⟨0x20, 0, 0, 0⟩ = (32, 32) ∧ FaultMap.shape ⟨0x61, 0, 0, 0⟩ = (28, 32) := by
  decide +kernel

/-- R189's example: TWB of 64 by 32 with full tiles has two tiles. -/
theorem test_tile_walk :
    flies (.twb false (.sx 5) (.sx 6)) (regsCore [(6, 0x200040)]) = some [(3, .sreg 5 2)] := by
  decide +kernel

/-- R176's example: the MMA element whose C falls partly below the window of the cancelling products. -/
theorem test_mma_window :
    (accF [mmaTerm (decode .bf16 0x30C0) (decode .bf16 0x3100), .zero false]).code = 0x22400000
    ∧ accF [mmaTerm (decode .bf16 0x4980) (decode .bf16 0x4980), mmaTerm (decode .bf16 0x4980) (decode .bf16 0xC980), decode .f32 0x22400000]
        = ⟨0x22000000, 1⟩ := by
  decide +kernel

/-- R203's example: t = 2, b1 = 0.25, b2 = 0.5. -/
theorem test_ray_triangle :
    rayTriangle (0, 0, 0) (0, 0, 0x3F800000) 0 0x42C80000 (0xBF800000, 0xBF800000, 0x40000000) (0x3F800000, 0xBF800000, 0x40000000)
        (0, 0x3F800000, 0x40000000) = some (0x40000000, 0x3E800000, 0x3F000000) := by
  decide +kernel

/-- A page of the first 2 MB, its own image, that anyone may read, write and fetch. -/
def page : TlbEntry :=
  { vbase := 0, log := 21, gran := 0, pbase := 0, attr := ⟨21, true, true, true, 0, false, false, false, false⟩, a := true, d := true,
    asid := 0, world := false }
/-- The page in the TLBs of cluster 0 and quad 0, and memory as given. -/
def mapped (s : State) (mem : List Host.Cell := []) : State := { s with mem := mem, iso := { s.iso with tlbs := [(0, [page]), (4, [page])] } }

/-- R270: a sign-extended byte load of a thread; R285: an AADD answers the old value and adds at the home agent. -/
theorem test_thread_memory :
    leaves (.ld ⟨false, .device, .acq, 0, true, 0⟩ (.sx 5) (.sx 6) (.sx 0)) (mapped (onThread [(6, 0x100)]) [(0x100, 0x80)]) 5
      = some 0xFFFFFFFFFFFFFF80
    ∧ leaves (.aadd ⟨.device, .ar, false, false⟩ (.sx 5) (.sx 6) (.imm 1)) (mapped (onThread [(6, 0x100)]) [(0x100, 0xFF)]) 5 = some 0xFF
    ∧ ((after (exec (.aadd ⟨.device, .ar, false, false⟩ (.sx 5) (.sx 6) (.imm 1)) (mapped (onThread [(6, 0x100)]) [(0x100, 0xFF)]))).map
        fun t => t.mem) = some [(0x101, 1)] := by
  decide +kernel

/-- R265 step 3 and R395: an unmapped load of a thread enters the handler with cause 0x0A, the address in TVAL and its own address in TPC. -/
theorem test_thread_page_fault :
    ((after (exec (.ld ⟨false, .thread, .rlx, 3, false, 0⟩ (.sx 5) (.sx 6) (.sx 0))
        ((onThread [(6, 0x100)]).modGroup 0 0 fun g => { g with thandler := 0x4000 }))).map fun t =>
          let y := t.thread ⟨0, 0, 0⟩
          (y.pc, y.tcause, y.tval, y.tpc, y.inHandler)) = some (0x4000, 0x0A, 0x100, 0x1000, true) := by
  decide +kernel

/-- R243: a store of core 0 changes no memory when it issues; R270 for LDS of scratchpad. -/
theorem test_core_memory :
    ((after (exec (.st ⟨false, .thread, .rlx, 0, false, 0⟩ (.imm 7) (.imm 13) (.sx 0)) (mapped (onCore id)))).map fun t =>
        (t.mem, t.deferred.length, (t.core 0).gst)) = some ([], 1, 1)
    ∧ flies (.lds ⟨false, .thread, .rlx, 1, false, 0⟩ (.sx 5) (.imm 8) (.sx 0)) (onCore id [(8, 0x34), (9, 0x12)]) = some [(4, .sreg 5 0x1234)] := by
  decide +kernel

/-- R368's example: BRC.nz by −48 at 0x40 redirects to 0x10 after two more bundles; R424: TRET of a thread returns to TPC. -/
theorem test_control :
    ((after (exec (.brc (.nz (.sx 9)) 0x7FFD0) (onCore fun a => { a with s := [(9, 1)], pc := 0x40 }))).map fun t =>
        (t.core 0).arch.redir) = some [(0x10, 3)]
    ∧ ((after (exec .tret ((onThread []).modThread ⟨0, 0, 0⟩ fun t => { t with inHandler := true, tpc := 0x2008 }))).map fun t =>
        ((t.thread ⟨0, 0, 0⟩).pc, (t.thread ⟨0, 0, 0⟩).inHandler)) = some (0x2008, false)
    ∧ ((after (exec (.trap .always 0x2A) ((onThread []).modGroup 0 0 fun g => { g with thandler := 0x4000 }))).map fun t =>
        ((t.thread ⟨0, 0, 0⟩).tcause, (t.thread ⟨0, 0, 0⟩).tval, (t.thread ⟨0, 0, 0⟩).tpc)) = some (0x30, 0x2A, 0x1008) := by
  decide +kernel

/-- R366 of events: no card in slot 3 leaves the state alone, and PTIME, held at 0 until an engine is released (R303),
moves on where no event is due. -/
theorem test_events :
    ((after (exec (.deadlineMiss 3) State.reset)).map fun t => t.ptime) = some 0
    ∧ ((after (step State.reset)).map fun t => t.ptime) = some 0
    ∧ ((after (step { State.reset with reeve := { State.reset.reeve with counting := true } })).map fun t => t.ptime) = some 1
    ∧ ((after (exec .reeveLockstepMismatch State.reset)).map fun t => (t.reeve.halted, t.reeve.safestateN, t.reeve.canOut.length))
      = some (true, false, 2) := by
  decide +kernel

/-- The step after withFetchWord runs the word as the first of a machine in reset: LIH of 5 lands on core 0 in the next advance cycle; a
thread word writes thread 0's x5. -/
theorem test_fetch_word :
    ((after (step (State.reset.withFetchWord 48 0x04050000005))).map fun t => (t.latch, (t.core 0).flight)) = some ([], [(1, .sreg 5 5)])
    ∧ ((after (step (State.reset.withFetchWord 64 0x0000004050000005))).map fun t => mget 0 (t.thread ⟨0, 0, 0⟩).x 5) = some 5 := by
  decide +kernel


/-! ### Witnesses: for each statement with hypotheses, states and operands that meet them, clause by clause -/

/-- Is an outcome of a check good? -/
def isOk {ε α : Type} : Except ε α → Bool
  | .ok _ => true
  | .error _ => false

theorem ok_of {ε α : Type} {e : Except ε α} (h : isOk e = true) : ∃ x, e = .ok x := by
  cases e with
  | ok x => exact ⟨x, rfl⟩
  | error _ => cases h

theorem error_of {ε α : Type} {e : Except ε α} (h : isOk e = false) : ∃ f, e = .error f := by
  cases e with
  | error f => exact ⟨f, rfl⟩
  | ok _ => cases h

/-- A thread with a trap on Inexact enabled (FMT TEN). -/
def trapping : State := (onThread [(6, 0x4B800000)]).modThread ⟨0, 0, 0⟩ fun t => { t with fmt := 0x00F80000 }

theorem witness_BitCounts : (regsCore []).ri (.sx 6) = 0 ∧ (regsCore [(6, 1)]).ri (.sx 6) ≠ 0 := by decide +kernel

theorem witness_FloatingArithmetic :
    (regsCore []).flagsQuiet 1 ∧ (onThread []).flagsQuiet 1 ∧ ¬ trapping.flagsQuiet 1
    ∧ (addVal .f32 (decode .f32 (trapping.rf .f32 (.sx 6))) (decode .f32 (trapping.rf .f32 (.imm 1)))).fl = 1 := by
  refine ⟨trivial, ?_, ?_, by decide +kernel⟩
  · show ((onThread []).thread ⟨0, 0, 0⟩).fmt.extractLsb' 19 5 &&& 1 = 0; decide +kernel
  · show ¬ (trapping.thread ⟨0, 0, 0⟩).fmt.extractLsb' 19 5 &&& 1 = 0; decide +kernel

theorem witness_ConversionAndClass :
    let stoch : State := onCore fun a => { a with fmt := 0x20000 }
    ((regsCore []).fmt.getLsbD 17 && !Ty.e4m3.isInt && narrowing .f32 .e4m3) = false
    ∧ (stoch.fmt.getLsbD 17 && !Ty.e4m3.isInt && narrowing .f32 .e4m3) = true
    ∧ (stoch.fmt.getLsbD 17 && !Ty.i8.isInt && narrowing .f32 .i8) = false ∧ stoch.flagsQuiet 1 ∧ ¬ trapping.flagsQuiet 1 := by
  refine ⟨by decide +kernel, by decide +kernel, by decide +kernel, trivial, ?_⟩
  show ¬ (trapping.thread ⟨0, 0, 0⟩).fmt.extractLsb' 19 5 &&& 1 = 0; decide +kernel

theorem witness_SpecialOperandsOfArithmetic : (⟨1, 1⟩ : Frac).num ≠ 0 ∧ zeroInf (.inf true) (.inf false) = false := by decide

theorem witness_NumberWins :
    decode .f32 0x7FA00000 = .nan true ∧ decode .f32 0x7FC00000 = .nan false ∧ decode .f32 0 = .zero false
    ∧ decode .bf16 0xFFFF = .nan false ∧ (0xFFFF : Nat) < 2 ^ width Ty.bf16 := by decide +kernel

theorem witness_RoundingIsNearest :
    (round .e2m1 .ne ⟨5, 4⟩).fl &&& 4 = 0 ∧ Ty.isFloat .e2m1 = true ∧ maxFCode .e2m1 = 7
    ∧ (Frac.dist (⟨5, 4⟩ : Frac).abs (magVal .e2m1 2)).eq (Frac.dist (⟨5, 4⟩ : Frac).abs (magVal .e2m1 3)) = true
    ∧ (round .f32 .ne ⟨1, 3⟩).fl &&& 4 = 0 := by decide +kernel

theorem witness_SpecialRegistersRead :
    let s : State := { regsCore [] with ptime := 32 }
    (mget (0, 0) s.dieClock (Dom.die s.cur.dom)) = (0, 0) ∧ 32 ≤ s.ptime ∧ s.ptime < 2 ^ 63 := by decide +kernel

theorem witness_FmtWritesRefused :
    ((regsCore [(6, 0x0A)]).ri (.sx 6)).setWidth 32 = (0x0A : BitVec 32)                     -- AFMT 0x0A is no type of an operand
    ∧ ((regsCore [(6, 0x1673)]).ri (.sx 6)).setWidth 32 = (0x1673 : BitVec 32)               -- R113's example
    ∧ (0x0A : BitVec 32).extractLsb' 0 5 ∉ ([0x00, 0x04, 0x11, 0x12, 0x13, 0x14, 0x15, 0x16, 0x17, 0x18, 0x19] : List (BitVec 5))
    ∧ ¬ ((0x1673 : BitVec 32).extractLsb' 0 5 ∉ ([0x00, 0x04, 0x11, 0x12, 0x13, 0x14, 0x15, 0x16, 0x17, 0x18, 0x19] : List (BitVec 5))
      ∨ (0x1673 : BitVec 32).extractLsb' 5 5 ∉ ([0x00, 0x04, 0x11, 0x12, 0x13, 0x14, 0x15, 0x16, 0x17, 0x18, 0x19] : List (BitVec 5))
      ∨ 2 ≤ ((0x1673 : BitVec 32).extractLsb' 10 2).toNat ∨ 4 ≤ ((0x1673 : BitVec 32).extractLsb' 12 3).toNat
      ∨ (0x1673 : BitVec 32).extractLsb' 24 8 ≠ 0) := by decide +kernel

/-- The hypotheses on the running agent that most statements share: a core's slot, a unit's thread. -/
theorem witness_agents : (regsCore []).cur = .core 0 0 ∧ (onThread []).cur = .thr ⟨0, 0, 0⟩ := by decide +kernel

theorem witness_SpecialRegistersWritten :
    (regsCore []).cur = .core 0 0 ∧ (onThread []).cur = .thr ⟨0, 0, 0⟩
    ∧ (0x044 : BitVec 12) ∈ ([0x003, 0x004, 0x030, 0x031, 0x032, 0x035, 0x040, 0x041, 0x044] : List (BitVec 12))
    ∧ (0x034 : BitVec 12) ∈ ([0x034, 0x035, 0x042, 0x044] : List (BitVec 12)) := by decide +kernel

theorem witness_GeneratorOps : (genStep 0 0).1 >>> 40 = 0 ∧ ((genStep 1 2).1 <<< 40) >>> 40 ≠ 0 ∧ ((genStep 0 1).1 >>> 40).toNat = 0 := by
  decide +kernel

theorem witness_VectorIntegerElements :
    (regsCore []).cur = .core 0 0 ∧ Ty.isInt .i8 = true ∧ Ty.isInt .n64 = true ∧ 64 * (15 + 1) ≤ 1024 := by decide +kernel

theorem witness_VectorFloatingElements :
    (regsCore []).cur = .core 0 0 ∧ Ty.isFp .bf16 = true ∧ (Ty.isInt .i8 = true ∧ Ty.isInt .i16 = true)
    ∧ ¬ (Ty.isInt .f32 = true ∧ Ty.isInt .i16 = true)
    ∧ ((onCore fun a => { a with fmt := 0x20000 }).fmt.getLsbD 17 && !Ty.bf16.isInt && narrowing .f32 .bf16) = true := by decide +kernel

theorem witness_VectorCompares :
    (regsCore []).cur = .core 0 0 ∧ Ty.isInt .i16 = true ∧ Ty.isFp .f16 = true ∧ (127 : Nat) < 128 ∧ 8 * 127 / 16 = 63 := by decide +kernel

theorem witness_VectorDataMovement : (regsCore []).cur = .core 0 0 ∧ Ty.isInt .n8 = true ∧ (0 : Int) ≤ 127 ∧ 8 * (127 + 1) ≤ 1024 := by
  decide +kernel

theorem witness_DotProductsAndTileRows :
    (regsCore []).cur = .core 0 0 ∧ (Ty.n8 = .i8 ∨ Ty.n8 = .n8) ∧ (Ty.f32 = .i32 ∨ Ty.f32 = .n32 ∨ Ty.f32 = .f32) ∧ 32 * (31 + 1) ≤ 1024 := by
  decide +kernel

theorem witness_ReductionsIntoLatches :
    (regsCore []).cur = .core 0 0 ∧ Ty.isInt .i32 = true ∧ Ty.isFp .f32 = true ∧ (2 ^ 32 - 1 : Nat) < 2 ^ 32 := by decide +kernel

theorem witness_LatchesRead :
    (regsCore []).cur = .core 0 0 ∧ ((regsCore []).rp 0).getLsbD 0 = true ∧ ((regsCore []).rp 1).getLsbD 0 = false
    ∧ width .n64 * (15 + 1) ≤ 1024 := by decide +kernel

theorem witness_SpecialFunctions :
    (regsCore []).cur = .core 0 0 ∧ (onThread []).cur = .thr ⟨0, 0, 0⟩ ∧ (onThread []).flagsQuiet 8 ∧ ¬ trapping.flagsQuiet 8 := by
  refine ⟨by decide +kernel, by decide +kernel, ?_, ?_⟩
  · show ((onThread []).thread ⟨0, 0, 0⟩).fmt.extractLsb' 19 5 &&& 8 = 0; decide +kernel
  · show ¬ (trapping.thread ⟨0, 0, 0⟩).fmt.extractLsb' 19 5 &&& 8 = 0; decide +kernel

theorem witness_SpecialFunctionTable : (⟨-1, 3⟩ : Frac).num < 0 := by decide

/-- A table image: magic, version, LO −8, ISTEP 8, and zero coefficients. -/
def tableImage : List Byte :=
  leBytes 4 0x42544C41 ++ leBytes 4 1 ++ leBytes 4 0xC1000000 ++ leBytes 4 0x41000000
/-- The image at 0x1000, as cells. -/
def tableAt : List Host.Cell := (cellsOf 0x1000 tableImage).filter fun c => c.2 != 0

/-- Core 0 with slot 1 bound to another job's owner. -/
def boundSlot : State := (regsCore [(6, 0x1000)]).modCore 0 fun x =>
  { x with eng := { x.eng with luts := [(1, ⟨some (.core 7), []⟩)] } }


theorem witness_ActivationTableLoads :
    let free := mapped (regsCore [(6, 0x1000), (7, 0x1020), (8, 0x200000)]) tableAt
    let addr : Opd → Nat := fun o => (free.rn o).toNat
    (∃ z, boundSlot.lutAt boundSlot.cur.dom 1 = some z ∧ z.owner.isSome = true ∧ z.owner ≠ boundSlot.lutOwner boundSlot.cur)
    ∧ free.lutAt free.cur.dom 1 = none
    ∧ addr (.sx 7) % 64 ≠ 0 ∧ addr (.sx 6) % 64 = 0 ∧ addr (.sx 8) % 64 = 0
    ∧ (∃ x, free.load (free.ctx free.cur) (addr (.sx 6)) 1600 64 = .ok x)
    ∧ (∃ f, free.load (free.ctx free.cur) (addr (.sx 8)) 1600 64 = .error f)
    ∧ (fieldAt tableImage 0 4 = 0x42544C41 ∧ fieldAt tableImage 4 2 = 1 ∧ isNonfin (decode .f32 (fieldAt tableImage 8 4)) = false
        ∧ (decode .f32 (fieldAt tableImage 12 4)).isNeg = false ∧ isZeroVal (decode .f32 (fieldAt tableImage 12 4)) = false)
    ∧ free.cur = .core 0 0 ∧ (mapped (onThread [])).cur = .thr ⟨0, 0, 0⟩ := by
  refine ⟨⟨_, rfl, by decide +kernel, by decide +kernel⟩, by decide +kernel, by decide +kernel, by decide +kernel, by decide +kernel,
    ok_of (by decide +kernel), error_of (by decide +kernel), by decide +kernel, by decide +kernel, by decide +kernel⟩

/-- Core 0 with an FMT, two panel addresses and a poisoned block. -/
def matrixCore (fmt : BitVec 32) (a b : Word) (poison : List Nat := []) : State :=
  (onCore fun x => { x with fmt := fmt, s := [(10, a), (11, b)] }).modCore 0 fun x => { x with poison := poison }

theorem witness_MmaChecksAndIssue :
    let s := matrixCore 0 0 0x800
    let scaled := matrixCore 0x1673 0 0x800
    let badA := matrixCore 0 0x40 0x1000            -- past the 4,096 bytes of the scratchpad by its last row
    let hurt := matrixCore 0 0 0x800 [1]
    let hurtB := matrixCore 0 0 0x800 [0x20]
    s.cur = .core 0 0
    ∧ mmaFmt (s.core 0).arch.fmt = ⟨.i8, .i8, false, false, false⟩ ∧ (mmaFmt (scaled.core 0).arch.fmt).sa = true
    ∧ mmaFmt ((matrixCore 0x400 0 0).core 0).arch.fmt = ⟨.i8, .i8, true, false, false⟩  -- integers into f32, unscaled: no listed format
    ∧ (s.ri (.sx 10)).extractLsb' 25 39 = 0 ∧ ((s.ri (.sx 11)).extractLsb' 0 21).toNat + 2048 ≤ (s.core 0).scratchSize
    ∧ ¬ ((badA.ri (.sx 11)).extractLsb' 0 21).toNat + 2048 ≤ (badA.core 0).scratchSize
    ∧ s.panelPoison 0 0 32 2 false = none ∧ s.panelPoison 0 0x800 32 2 false = none
    ∧ hurt.panelPoison 0 0 32 2 false = some 64
    ∧ hurtB.panelPoison 0 0 32 2 false = none ∧ hurtB.panelPoison 0 0x800 32 2 false = some 0x800 := by
  decide +kernel

theorem witness_MmaElementValues :
    (mmaFmt 0).f32 = false ∧ (mmaFmt 0).a = .i8 ∧ (mmaFmt 0x1673).f32 = true ∧ (31 : Nat) < 32
    ∧ FVal.nan true ∈ [FVal.nan true] ∧ (∀ v ∈ [FVal.zero true], ∃ n, v = .zero n)
    ∧ (∀ g, FVal.nan g ∉ [FVal.inf true, .inf false]) ∧ FVal.inf true ∈ [FVal.inf true, .inf false] := by
  refine ⟨by decide, by decide, by decide, by decide, by decide, ?_, ?_, by decide⟩
  · intro v hv; exact ⟨true, by simpa using hv⟩
  · intro g; cases g <;> decide

theorem witness_TileOps :
    (regsCore []).cur = .core 0 0 ∧ (onThread []).cur = .thr ⟨0, 0, 0⟩
    ∧ (let e : SmEntry := ⟨3, [(1023, 7)], 0, 0, none, 0, []⟩
       (e.elems.map (·.1)).Nodup ∧ (1023, (7 : BitVec 32)) ∈ e.elems ∧ 1023 < (Core.reset.tile e.tile).length
         ∧ mget none Core.reset.tileCopies e.tile = none ∧ (∀ q ∈ e.elems, q.1 ≠ 0)) := by
  decide +kernel

theorem witness_TileWalker :
    let w : Walker := ⟨true, 64, 32, [(0, 0, 32, 32), (32, 0, 32, 32)]⟩
    ((onCore fun a => { a with walker := w }).core 0).arch.walker.active = true
    ∧ ((onCore fun a => { a with walker := w }).core 0).arch.walker.tiles ≠ []
    ∧ ((regsCore []).core 0).arch.walker.active = false ∧ (0 : Nat) < 16 ∧ (63 : Nat) < 64 ∧ (31 : Nat) < 32 := by
  decide +kernel

theorem witness_ArrayTestsAndShape : (regsCore []).cur = .core 0 0 ∧ 0 ∈ (regsCore []).gangOf 0 := by decide +kernel

theorem witness_BranchesCallsAndReturns :
    (regsCore [(9, 1)]).Holds (.nz (.sx 9)) ∧ ¬ (regsCore [(9, 1)]).Holds (.z (.sx 9))
    ∧ (onThread [(9, 0x8000000000000000)]).Holds (.lt (.sx 9)) ∧ ¬ (onThread []).Holds (.p 1) := by
  refine ⟨?_, ?_, ?_, ?_⟩
  · show (regsCore [(9, 1)]).ri (.sx 9) ≠ 0; decide +kernel
  · show ¬ (regsCore [(9, 1)]).ri (.sx 9) = 0; decide +kernel
  · show ((onThread [(9, 0x8000000000000000)]).ri (.sx 9)).toInt < 0; decide +kernel
  · show ¬ (onThread []).pb 1 = true; decide +kernel

/-- Core 0 and core 1 with cards in slots, as a job's cores have. -/
def twoCores (a b : Option Nat) : State :=
  ((regsCore [(6, 1)]).modCore 0 fun x => { x with job := a }).modCore 1 fun x => { x with job := b }

theorem witness_LaunchEndAndSignal :
    ((twoCores (some 0) (some 0)).core 0).job ≠ none ∧ ((twoCores (some 0) (some 0)).core 1).job = ((twoCores (some 0) (some 0)).core 0).job
    ∧ ((twoCores (some 0) (some 1)).core 1).job ≠ ((twoCores (some 0) (some 1)).core 0).job
    ∧ min (((regsCore []).ri (.sx 0)).toNat + (0 : BitVec 11).toNat) 32 ≤ ((regsCore []).core 0).eng.granted
    ∧ ((regsCore []).core 0).eng.granted < min (((regsCore []).ri (.sx 0)).toNat + (33 : BitVec 11).toNat) 32
    ∧ min (((onThread []).ri (.sx 0)).toNat + (0 : BitVec 11).toNat) 16 ≤ ((onThread []).group 0 0).granted
    ∧ ((onThread []).group 0 0).granted < min (((onThread []).ri (.sx 0)).toNat + (17 : BitVec 11).toNat) 16
    ∧ ((onThread []).cleanAll (.unit 0)).findJob 5 = none := by
  decide +kernel

/-- Thread 0 of a group of 65 threads, so that threads 0 and 64 share a lane. -/
def lanePair : State :=
  let t : Thread := ((onThread []).thread ⟨0, 0, 0⟩)
  { (onThread []) with units := [(0, { (onThread []).unit 0 with groups := [(0, some { (onThread []).group 0 0 with size := 65, started := true, threads := [(0, t), (64, t)] })] })] }

theorem witness_WaitsAndBarriers :
    let s := (onThread [(6, 3)]).modGroup 0 0 fun g => { g with sem := [(2, 3)], semq := [] }
    let q := (onThread [(6, 3)]).modGroup 0 0 fun g => { g with sem := [(2, 3)], semq := [(2, 7)] }
    min (s.rn (.sx 0)).toNat 65535 = 0 ∧ min (s.rn (.sx 6)).toNat 65535 = 3
    ∧ (∀ e ∈ (s.group 0 0).semq, e.1 ≠ 2) ∧ 3 ≤ mget 0 (s.group 0 0).sem 2
    ∧ ¬ (∀ e ∈ (q.group 0 0).semq, e.1 ≠ 2)
    ∧ ((s.unit 0).tids 0).filter (fun q => q.thread % 64 == 0 && q != ⟨0, 0, 0⟩ && s.threadReady q) = []
    ∧ ((lanePair.unit 0).tids 0).filter (fun q => q.thread % 64 == 0 && q != ⟨0, 0, 0⟩ && lanePair.threadReady q) ≠ [] := by
  decide +kernel

theorem witness_TrapInstructions :
    (regsCore [(5, 1), (6, 1), (7, 2)]).ri (.sx 5) = (regsCore [(5, 1), (6, 1), (7, 2)]).ri (.sx 6)
    ∧ (regsCore [(5, 1), (6, 1), (7, 2)]).ri (.sx 5) ≠ (regsCore [(5, 1), (6, 1), (7, 2)]).ri (.sx 7)
    ∧ (Card.trace ((regsCore []).cardAt (regsCore []).cur)).testBit 7 = false
    ∧ ((onThread []).thread ⟨0, 0, 0⟩).inHandler = false
    ∧ (((onThread []).modThread ⟨0, 0, 0⟩ fun t => { t with inHandler := true }).thread ⟨0, 0, 0⟩).inHandler = true := by
  decide +kernel

theorem witness_TrapEntry :
    let s := (onThread []).modGroup 0 0 fun g => { g with thandler := 0x4000 }
    255 < 256 ∧ (s.group 0 0).thandler ≠ 0 ∧ (s.thread ⟨0, 0, 0⟩).inHandler = false ∧ (s.thread ⟨0, 0, 0⟩).wait = .none
    ∧ (s.eng (.unit 0)).tstop = false ∧ (s.eng (.unit 0)).stepping = false
    ∧ (regsCore []).gangOf 0 = [0] ∧ (regsCore []).pairPos 0 = none ∧ ((regsCore []).core 0).eng.stepping = false
    ∧ ((regsCore []).core 0).eng.tstop = false ∧ (regsCore []).deferred = [] ∧ disposition 0x31 = .resume := by
  decide +kernel


/-- The page and an IO page above it, at 2 MB. -/
def withIo (s : State) (mem : List Host.Cell := []) : State :=
  let io : TlbEntry := { page with vbase := 0x200000, gran := 1, pbase := 0x200000, attr := { page.attr with mt := 2 } }
  { s with mem := mem, iso := { s.iso with tlbs := [(0, [page, io]), (4, [page, io])] } }

/-- A card's 128 bytes with some fields set: offset, bytes, value. -/
def cardWith (l : List (Nat × Nat × Nat)) : List Byte := l.foldl (fun b f => putField b f.1 f.2.1 f.2.2) (zeros 128)
/-- A card made resident in a slot. -/
def resident (s : State) (n : Nat) (card : List Byte) (f : Slot → Slot := id) : State := s.setSlot n (some (f (s.newSlot card [] [])))

/-- Core 1 as the shadow of a redundant pair (GANG 1, RESTART 2) of the job in slot 0. -/
def shadowCore : State :=
  { (resident (withIo (regsCore [])) 0 (cardWith [(4, 1, 0x04), (5, 1, 0x20)])) with cur := .core 1 0 }
    |>.modCore 1 fun x => { x with job := some 0, arch := { x.arch with s := [(6, 0x200000)] } }

theorem witness_ScalarLoadsAndStores :
    let s := mapped (regsCore [(6, 0x100), (7, 0x200000), (8, 4096), (9, 4089)])
    let bad : State := { s with poisoned := [(4, 0x10)] }
    let hurt := s.modCore 0 fun x => { x with poison := [63] }
    (∃ f, s.access (s.ctx s.cur) .load 0x200000 8 1 = .error f) ∧ (∃ p, s.access (s.ctx s.cur) .load 0x1FFFF8 8 1 = .ok p)
    ∧ (∃ f, s.access (s.ctx s.cur) .store 0x200000 8 1 = .error f) ∧ (∃ p, s.access (s.ctx s.cur) .store 0x1FFFF8 8 1 = .ok p)
    ∧ (∃ p, shadowCore.access (shadowCore.ctx shadowCore.cur) .load 0x200000 8 1 = .ok p) ∧ shadowCore.pairCur = some 1
    ∧ s.pairCur = none
    ∧ (∃ p, bad.access (bad.ctx bad.cur) .load 0x100 8 1 = .ok p) ∧ (∃ f, bad.load (bad.ctx bad.cur) 0x100 8 1 = .error f)
    ∧ (∃ x, s.load (s.ctx s.cur) 0x100 8 1 = .ok x)
    ∧ (s.local' s.cur).2.1 < (s.ri (.sx 9)).toNat + 8 ∧ ¬ (s.local' s.cur).2.1 < 4088 + 8
    ∧ localPoison (hurt.local' hurt.cur).2.2 4088 8 = some 4088 ∧ localPoison (s.local' s.cur).2.2 4088 8 = none := by
  and_intros <;> first | decide +kernel | exact error_of (by decide +kernel) | exact ok_of (by decide +kernel)

/-- An IO access of the shadow is external, as the clauses on the mirrored result ask. -/
theorem witness_shadow_external :
    ((shadowCore.access (shadowCore.ctx shadowCore.cur) .load 0x200000 8 1).toOption.map fun p => (piecesExt p.1, p.2.pairCur))
      = some (true, some 1) := by
  decide +kernel

theorem witness_VectorAndTileTransfers :
    let s := mapped (onCore fun a => { a with p := [(1, 1)], s := [(6, 0x100), (7, 0x200000)] })
    let k := s.ctx s.cur
    s.cur = .core 0 0
    ∧ (∃ f, s.access k .pref 0x200000 1 1 = .error f) ∧ (∃ p, s.access k .pref 0x100 1 1 = .ok p)
    ∧ ((s.access k .pref 0x100 1 1).toOption.map fun p => p.1.map fun q => (q.hit, q.x.attr.mt, isWindow q.x.pa)) = some [(false, 0, false)]
    ∧ (((withIo s).access k .pref 0x200000 1 1).toOption.map fun p => p.1.map fun q => q.x.attr.mt) = some [2]
    ∧ (∃ f, s.accessAll k .load [(0x200000, 4)] = .error f) ∧ (∃ p, s.accessAll k .load [(0x100, 4), (0x1FC, 4)] = .ok p)
    ∧ (∃ f, s.accessAll k .store [(0x200000, 4)] = .error f) ∧ (∃ p, s.accessAll k .store [(0x100, 1)] = .ok p)
    ∧ (s.core 0).scratchSize < 3969 + 128 ∧ 3968 + 128 ≤ (s.core 0).scratchSize
    ∧ (s.rp 1).getLsbD 0 = true ∧ (s.rp 1).getLsbD 1 = false
    ∧ ¬ ((s.ri (.sx 6)).toNat % 64 ≠ 0) ∧ (s.ri (.imm 1)).toNat % 64 ≠ 0
    ∧ (s.core 0).scratchSize < (s.ri (.sx 7)).toNat + 128 := by
  and_intros <;> first | decide +kernel | exact error_of (by decide +kernel) | exact ok_of (by decide +kernel)

/-- A copy command: 64 i8 elements to i8, no sync, no semaphore (R278). -/
def plainCopy : Word := 64
/-- Core 0 with live and releasing marks of load-blocks. -/
def blocksCore (live rel : BitVec 16) : State :=
  mapped (onCore fun a => { a with blkLive := live, blkRel := rel, s := [(6, 0x1000), (8, plainCopy)] })

theorem witness_LoadBlocksCopiesAndSyncWords :
    let s := blocksCore 0 0
    let k := s.ctx s.cur
    let sync := onThread [(6, 8), (7, 4)]
    let sync' := sync.modGroup 0 0 fun g => { g with smemSize := 16 }
    (∃ f, s.access k .load 0x200000 64 64 = .error f) ∧ (∃ p, s.access k .load 0x1000 64 64 = .ok p)
    ∧ (∀ i < 16, (0xFFFF : BitVec 16).getLsbD i = true) ∧ (0x0001 : BitVec 16).getLsbD 1 = false
    ∧ ¬ s.l1Cap (.core 0) / 2 < 0 + 1 ∧ s.l1Cap (.core 0) / 2 = 16352 ∧ (s.core 0).blockLines = []
    ∧ (16 ≤ (s.ri (.sx 6)).toNat) ∧ ((blocksCore 0xFFFF 0).core 0).arch.blkLive.getLsbD 15 = true
    ∧ ((blocksCore 0xFFFF 0).core 0).arch.blkRel.getLsbD 15 = false
    ∧ s.copyReason (s.ri (.sx 8)) true false false false false = none
    ∧ s.copyReason 0 true false false false false = some 1
    ∧ (∃ f, s.copyRange k .load true 0x200000 64 = .error f) ∧ (∃ x, s.copyRange k .load true 0x1000 64 = .ok x)
    ∧ (∃ f, s.copyRange k .store false 4033 64 = .error f) ∧ (∃ x, s.copyRange k .store false 4032 64 = .ok x)
    ∧ s.maskTargets 0 = [] ∧ (s.maskTargets 0x01).length = 1 ∧ none ∉ s.maskTargets 0x01
    ∧ s.copyReason plainCopy true false true false false = none
    ∧ s.shareSize 0 (.core 0 0) < 4033 + 64
    ∧ (sync.ri (.sx 7)).toNat % 8 ≠ 0 ∧ (sync.local' sync.cur).2.1 < (sync.ri (.sx 6)).toNat + 8
    ∧ (sync'.ri (.sx 6)).toNat + 8 ≤ (sync'.local' sync'.cur).2.1 ∧ localPoison (sync'.local' sync'.cur).2.2 8 8 = none
    ∧ reached (leNat (readBytes (sync'.local' sync'.cur).1 8 8)) 0 = true
    ∧ reached (leNat (readBytes (sync'.local' sync'.cur).1 8 8)) 1 = false
    ∧ ((onThread []).unit 0).eng.copies.length < 512 := by
  and_intros <;> first | decide +kernel | exact error_of (by decide +kernel) | exact ok_of (by decide +kernel)

theorem witness_AtomicReadModifyWrite :
    let s := mapped (onThread [(6, 0x100), (7, 0x102), (8, 8), (5, 0xFFFFFFFF)])
    let io := withIo (onThread [(6, 0x200000)])
    let k := s.ctx s.cur
    let loc := s.modGroup 0 0 fun g => { g with smemSize := 16 }
    shadowCore.pairCur = some 1 ∧ s.pairCur ≠ some 1
    ∧ (s.ri (.sx 7)).toNat % 4 ≠ 0 ∧ (s.ri (.sx 6)).toNat % 4 = 0
    ∧ (∃ e, s.loadLocal s.cur 8 4 = .error e) ∧ (∃ bs, loc.loadLocal loc.cur 12 4 = .ok bs)
    ∧ (∃ e, s.access k .atomic 0x102 4 4 = .error e) ∧ (∃ p, s.access k .atomic 0x100 4 4 = .ok p)
    ∧ (s.atomicRefused [⟨0x100, 0x100, page.attr⟩] true).1 = false
    ∧ (io.atomicRefused [⟨0x200000, 0x200000, { page.attr with mt := 2 }⟩] true).1 = true
    ∧ (∃ x, s.atomicRead k 0x100 [⟨0x100, 0x100, page.attr⟩] = .ok x)
    ∧ ((BitVec.ofNat 32 0xFFFFFFFF).toInt < (BitVec.ofNat 32 0).toInt) ∧ (6 : Fin 64).val % 2 = 0 := by
  and_intros <;> first | decide +kernel | exact error_of (by decide +kernel) | exact ok_of (by decide +kernel)

/-- A state whose partition 0 has PRIV = 1. -/
def privileged (s : State) : State := { s with iso := { s.iso with parts := [(0, putField (zeros 32) 0 1 5)] } }

theorem witness_FencesTagsAndInvalidation :
    let s := mapped (onThread [(6, 0x200), (7, 0x0010000000000000)])
    let k := s.ctx s.cur
    rangeBad (s.ri (.sx 7)).toNat 1 = some 0x0010000000000000 ∧ rangeBad (s.ri (.sx 7)).toNat 0 = none
    ∧ rangeBad (s.ri (.sx 6)).toNat 64 = none
    ∧ (∃ f, s.access k .tagLoad 0x200000 1 1 = .error f) ∧ (∃ p, s.access k .tagLoad 0x200 512 512 = .ok p)
    ∧ (∃ f, s.access k .tagStore 0x204 512 512 = .error f) ∧ (∃ p, s.access k .tagStore 0x200 512 512 = .ok p)
    ∧ k.priv = false ∧ ((privileged s).ctx s.cur).priv = true ∧ (privileged (regsCore [])).pairCur ≠ some 1
    ∧ ((privileged (regsCore [])).ctx (.core 0 0)).priv = true := by
  and_intros <;> first | decide +kernel | exact error_of (by decide +kernel) | exact ok_of (by decide +kernel)

/-- A queue of one-byte items, 2 places, with the full policy given and items waiting. -/
def oneQueue (fullp : Nat) (items : List (List Byte)) (waiters : List Tid := []) : Queue :=
  { desc := putField (putField (putField (zeros 64) 0 1 (1 + 4 * fullp)) 4 2 1) 8 4 2, items := items, drops := 0, waiters := waiters }

theorem witness_QueueOps :
    let s : Queue → State := fun q => (onThread [(6, 5)]).setQueue 5 q
    (s (oneQueue 0 [])).pairCur ≠ some 1
    ∧ (onThread [(6, 5)]).queueReason 5 true = some 2
    ∧ (s (oneQueue 0 [])).queueReason 5 true = none ∧ (s (oneQueue 0 [])).queueReason 5 false = none
    ∧ (oneQueue 0 [[1]]).items.length < (oneQueue 0 [[1]]).cap
    ∧ (oneQueue 0 [[1], [2]]).cap ≤ (oneQueue 0 [[1], [2]]).items.length ∧ (oneQueue 0 [[1], [2]]).fullp = 0
    ∧ (oneQueue 1 [[1], [2]]).fullp = 1 ∧ 2 ≤ (oneQueue 2 [[1], [2]]).fullp
    ∧ ((s (oneQueue 0 [] [⟨0, 0, 0⟩])).queue 5).waiters = [⟨0, 0, 0⟩] ∧ ((s (oneQueue 0 [[1]])).queue 5).items = [[1]] := by
  decide +kernel

theorem witness_HomeMemoryFrame :
    let s : State := { State.reset with iso := { State.reset.iso with regions := [(0, (0x200000, 0x200003))] } }
    s.secure 0x200000 = true ∧ s.secure 0x3FFFFF = true ∧ s.secure 0x400000 = false
    ∧ (∀ c ∈ ([(0x100, 1)] : List Host.Cell), c.1 ≠ 0x101) := by
  decide +kernel

theorem witness_RollbackUndoesScratchpadStores :
    (∀ q ∈ ([(4, 7)] : List Host.Cell), q.1 ≠ 5) ∧ ([(4, 7)] : List Host.Cell) = [] ++ [(4, 7)] := by
  decide

/-- A query on thread 0 with a report and a pending candidate. -/
def withQuery (report : Option Report) (pending : Option Hit) : State :=
  (onThread []).modThread ⟨0, 0, 0⟩ fun t => { t with query := some { (onThread []).queryAt ⟨0, 0, 0⟩ false 0 4 0 false false false with
    report := report, pending := pending } }

/-- Report and pending candidate of thread 0's open query. -/
def queryOf (s : State) : Option (Option Report × Option Hit) := (s.thread ⟨0, 0, 0⟩).query.map fun y => (y.report, y.pending)
def someHit : Hit := ⟨0x40000000, 0, 3, 0, 0, 64⟩

theorem witness_QueriesAndHints :
    (onThread []).cur = .thr ⟨0, 0, 0⟩ ∧ queryOf (onThread []) = none ∧ queryOf (withQuery none none) = some (none, none)
    ∧ queryOf (withQuery none (some someHit)) = some (none, some someHit)
    ∧ queryOf (withQuery (some (.candidate someHit)) none) = some (some (.candidate someHit), none)
    ∧ queryOf (withQuery (some (.hit someHit)) none) = some (some (.hit someHit), none)
    ∧ queryOf (withQuery (some .miss) none) = some (some .miss, none)
    ∧ queryOf (withQuery (some (.malformed 64)) none) = some (some (.malformed 64), none)
    ∧ queryOf (withQuery (some .bad) none) = some (some .bad, none)
    ∧ queryOf (withQuery (some (.fault 0x0A 0x100)) none) = some (some (.fault 0x0A 0x100), none) := by
  decide +kernel

theorem witness_QueriesAndHints_waits :
    (((onThread []).modThread ⟨0, 0, 0⟩ fun t => { t with wait := .hintinv }).thread ⟨0, 0, 0⟩).wait = .hintinv
    ∧ ((onThread []).thread ⟨0, 0, 0⟩).wait = .none ∧ (31 : Nat) < 32 := by
  decide +kernel

/-- An image descriptor (R218) and a cost-map descriptor (R222) in memory: a 1 by 1 n8 map of one layer at 0x400. -/
def mapBytes : List Byte := (([(0, 4, 0x4D434C41), (4, 1, 1), (5, 1, 4), (8, 4, 1), (12, 4, 1), (16, 4, 1), (40, 4, 0x3F800000),
  (44, 4, 0x7F800000), (72, 8, 0x400)] : List (Nat × Nat × Nat)).foldl (fun b f => putField b f.1 f.2.1 f.2.2) (zeros 128))
def mapState (x y : Nat) : State :=
  mapped (onThread [(6, 0x200), (7, BitVec.ofNat 64 (x + y * 2 ^ 32)), (8, 0x210)]) ((cellsOf 0x200 mapBytes).filter fun c => c.2 != 0)

theorem witness_SamplingOps :
    let s := mapState 0 0
    let k := s.ctx s.cur
    s.cur = .thr ⟨0, 0, 0⟩ ∧ (4 : Fin 64).val % 2 = 0
    ∧ (s.ri (.sx 8)).toNat % 32 ≠ 0 ∧ (s.ri (.sx 6)).toNat % 32 = 0 ∧ (s.ri (.sx 8)).toNat % 128 ≠ 0 ∧ (s.ri (.sx 6)).toNat % 128 = 0
    ∧ (∃ f, s.sampleLoad k 0x200000 32 = .error f) ∧ (∃ x, s.sampleLoad k 0x200 128 = .ok x)
    ∧ mapBad mapBytes = false ∧ mapBad (zeros 128) = true ∧ texelMapBad (zeros 32) = true
    ∧ f32Fin 0 = true ∧ f32Fin 0x7F800000 = false
    ∧ cellPos mapBytes 0 32 = 0 ∧ (f32Real 0).floor = 0 ∧ mapWidth mapBytes = 1 ∧ ¬ (f32Real 0x3F800000).floor < mapWidth mapBytes
    ∧ (∃ x, s.cellCost k mapBytes 0 0 = .ok x) ∧ (∃ x, s.cellsCost k mapBytes [(0, 0)] none = .ok x) := by
  and_intros <;> first | decide +kernel | exact error_of (by decide +kernel) | exact ok_of (by decide +kernel)


/-- Reset with Reeve's fields changed. -/
def withReeve (f : Reeve → Reeve) : State := { State.reset with reeve := f State.reset.reeve }
/-- A configuration payload with one field set. -/
def cfgWith (l : List (Nat × Nat × Nat)) : List Byte := l.foldl (fun b f => putField b f.1 f.2.1 f.2.2) (zeros 4096)
/-- All engines tested and in service, at a bring-up stage. -/
def serving (stage : BitVec 3) : State :=
  allDoms.foldl (fun s d => s.modEng d fun e => { e with inService := true })
    (withReeve fun r => { r with stage := stage, trained := 0xFFFF, timeState := .locked, counting := true, hartsOn := true })

/-- A directory whose CRC is good, at flash offset 0, naming a configuration image at 0x100. -/
def directoryBytes : List Byte :=
  let b := putField (putField (putField (zeros 64) 0 4 0x52494C41) 4 2 1) 8 8 0x100
  putField b 60 4 (crc32 (b.take 60)).toNat
/-- The header of a configuration image without payload. -/
def imageHeader : List Byte := putField (putField (putField (zeros 128) 0 4 0x4D494C41) 4 1 1) 6 2 1
/-- A flash with the directory, and the image header where asked. -/
def flashed (image : Bool) : State :=
  { State.reset with flash := ((cellsOf 0 directoryBytes) ++ (if image then cellsOf 0x100 imageHeader else [])).filter fun c => c.2 != 0 }

theorem witness_boot_images :
    State.reset.imageDue .config = true ∧ State.reset.imageDue .boot = false ∧ State.reset.directory = none
    ∧ (flashed false).directory = some directoryBytes ∧ fieldAt directoryBytes (kindNo .config * 8) 8 = 0x100
    ∧ (flashed false).readImage 0x100 .config = none := by
  decide +kernel

/-- An image is read where its signature verifies (the algorithm is outside the spec, log 7). -/
theorem witness_boot_image_read
    (h : Config.slhVerify ((readBytes (flashed true).flash 0x100 128).drop 16 |>.take 64)
      (readBytes (flashed true).flash 0x100 (128 + fieldAt (readBytes (flashed true).flash 0x100 128) 8 8))
      (readBytes (flashed true).flash (0x100 + 128 + fieldAt (readBytes (flashed true).flash 0x100 128) 8 8) 29792) = true) :
    ∃ i, (flashed true).readImage 0x100 .config = some i := by
  unfold State.readImage
  rw [if_neg (by decide +kernel)]
  simp only [h, Bool.and_self, ↓reduceIte]
  exact ⟨_, rfl⟩

theorem witness_PowerBootAndTime :
    let s := serving 3
    State.reset.reeve.rails = true ∧ (withReeve fun r => { r with rails := false }).reeve.rails = false
    ∧ (withReeve fun r => { r with stage := 1 }).reeve.stage = 1 ∧ (withReeve fun r => { r with stage := 1 }).reeve.failcode = 0
    ∧ (serving 4).reeve.stage = 4 ∧ allDoms.all (serving 4).tested = true ∧ State.reset.tested (.core 31) = false
    ∧ (withReeve fun r => { r with stage := 3 }).reeve.halted = false ∧ (withReeve fun r => { r with stage := 3 }).tested (.unit 0) = false
    ∧ (s.core 0).job = none ∧ s.usable 0 0 = true ∧ State.reset.usable 0 0 = false
    ∧ ((regsCore []).core 0).mstest = none ∧ (((regsCore []).modCore 0 fun x => { x with mstest := some (true, 5, 0) }).core 0).mstest = some (true, 5, 0)
    ∧ ((s.core 0).fmap.report ((s.core 0).fmap.lines (s.found 0 noFaults))).getLsbD 1 = false := by
  decide +kernel

theorem witness_PowerBootAndTime_time :
    let s := serving 3
    let ptp := withReeve fun r => { r with cfg := cfgWith [(9, 1, 1)] }
    let pps := withReeve fun r => { r with cfg := cfgWith [(9, 1, 2)] }
    s.reeve.timeState = .locked ∧ s.reeve.stepped = false ∧ (s.ptime + 16) % 16000000000 = 16 % 16000000000
    ∧ (s.ptime + 16) % 16000000000 ≠ 17 % 16000000000 ∧ State.reset.reeve.timeState = .free ∧ State.reset.cfg 9 1 ≠ 3
    ∧ ptp.cfg 9 1 = (1 : Fin 2).val ∧ ptp.reeve.cfg ≠ [] ∧ pps.cfg 9 1 = 2
    ∧ (State.reset.eng (.core 0)).mhz ≠ (1 : BitVec 16).toNat
    ∧ isControl (Config.ctlBase + 2 * 2 ^ 24) = true ∧ isControl 0 = false ∧ (Config.ctlBase + 4) % 8 ≠ 0
    ∧ State.reset.reqPriv .reeve = true ∧ State.reset.reqPriv .pcie = false := by
  decide +kernel

/-- A state where cards may be commanded, a card's bytes at 0x1000 and a resident card of the same JOBID in slot 2. -/
def commanded (f : Slot → Slot) (spor : Nat) : State :=
  let card := cardWith [(0, 4, 9), (4, 1, 32 + spor * 128), (16, 8, 100)]
  resident { serving 3 with mem := [(0x1000, 9)], ptime := 1000 } 2 card f

theorem witness_CardCommandsAndReleases :
    let req : Requester := .hart 0 true
    let s := commanded id 1
    State.reset.reqPriv (.hart 0 false) = false ∧ State.reset.reeve.stage.toNat < 3 ∧ (0x1004 : Nat) % 128 ≠ 0
    ∧ s.reqPriv req = true ∧ ¬ s.reeve.stage.toNat < 3 ∧ (0x1000 : Nat) % 128 = 0 ∧ s.secure 0x1000 = false
    ∧ cardOk (s.homeRead false 0x1000 128).1 = false
    ∧ (serving 3).findJob (Card.jobid (s.homeRead false 0x1000 128).1) = none
    ∧ s.findJob (Card.jobid (s.homeRead false 0x1000 128).1) = some 2
    ∧ ((s.slot 2).map fun z => (Card.world z.card, Card.spor z.card, z.retiring, z.state, z.endStatus)) = some (false, true, false, .none, none)
    ∧ (((commanded (fun z => { z with retiring := true }) 0).slot 2).map fun z => (Card.spor z.card, z.retiring)) = some (false, true)
    ∧ (((commanded (fun z => { z with state := .running, endStatus := some 0 }) 0).slot 2).map fun z => (z.state, z.endStatus))
        = some (.running, some 0)
    ∧ s.slot 3 = none := by
  decide +kernel

theorem witness_CardCommandsAndReleases_due :
    let due := commanded (fun z => { z with nextRelease := some 1000, deferred := some 1000 }) 0
    let late := commanded (fun z => { z with nextRelease := some 1001, deferred := some 1001 }) 0
    let busy := commanded (fun z => { z with nextRelease := some 1000, state := .running }) 0
    let missing := commanded (fun z => { z with state := .released, deadline := 1000 }) 0
    ((due.slot 2).map fun z => (z.nextRelease, z.deferred)) = some (some 1000, some 1000) ∧ due.ptime = 1000
    ∧ ((late.slot 2).map fun z => z.nextRelease) = some (some 1001)
    ∧ ((due.slot 2).map fun z => due.mayRelease z.card) = some true
    ∧ ((busy.slot 2).map fun z => (z.state, z.retiring)) = some (.running, false)
    ∧ ((missing.slot 2).map fun z => (z.live, z.missed, z.deadline, missing.jobDone 2 z)) = some (true, false, 1000, false)
    ∧ ((due.slot 2).map fun z => due.jobDone 2 z) = some false := by
  decide +kernel

/-- Slot 2's job running on core 0, its card as given. -/
def onEngine (card : List Byte) (f : Slot → Slot) (g : Core → Core) : State :=
  (resident { serving 5 with ptime := 1000 } 2 card (fun z => f { z with state := .running, engines := [0], deadline := 5000 })).modCore 0
    fun x => g { x with job := some 2 }

theorem witness_CardCommandsAndReleases_running :
    let done := onEngine (cardWith []) id fun x => { x with part := .ended }
    let saving := onEngine (cardWith []) (fun z => { z with state := .saving }) fun x => { x with part := .running, reissue := true, preempt := some (900, false) }
    let stuck := onEngine (cardWith []) (fun z => { z with state := .saving }) fun x => { x with part := .running }
    let vision := onEngine (cardWith [(4, 1, 1)]) (fun z => { z with state := .saving }) id
    ((done.slot 2).map fun z => (done.jobDone 2 z, z.holds, z.live)) = some (true, true, true)
    ∧ ((done.slot 2).map fun z => decide (Card.cycles z.card ≤ done.partCycles 2 z 0)) = some true
    ∧ ((saving.slot 2).map fun z => (z.state, z.endStatus, saving.partsEnded 2 z, Card.eng z.card)) = some (.saving, none, false, 0)
    ∧ (saving.core 0).holdsForSave = true ∧ (saving.core 0).preempt = some (900, false)
    ∧ (stuck.core 0).savable = false ∧ (stuck.core 0).preempt = none
    ∧ ((vision.slot 2).map fun z => Card.eng z.card) = some 1
    ∧ (done.reeve.halted = false ∧ 4 ≤ done.reeve.stage.toNat ∧ State.reset.reeve.stage.toNat < 4)
    ∧ done.reeve.counting = true ∧ (done.beadle.server 0).2.1 ≠ some (done.ptime / done.beadle.bewin * done.beadle.bewin) ∧ State.reset.reeve.counting = false
    ∧ (({ done with beadle := done.beadle.setServer 0 (0, some 0, 0) } : State).beadle.server 0).2.1
        = some (done.ptime / done.beadle.bewin * done.beadle.bewin) := by
  decide +kernel

theorem witness_ControlFieldsAndAccounts :
    let s := State.reset
    let owned := onEngine (cardWith [(24, 8, 1), (40, 4, 64)]) id id
    let spent : State := { owned with beadle := { owned.beadle with accounts := [(2, { Account.reset with spent := 64 })] } }
    let leave := (serving 5).modCore 0 fun x => { x with wait := .leave 2 }
    let asked : State := { leave with beadle := { leave.beadle with powercap := 160, leaves := [{ dom := .core 0, group := 0, thread := 0, units := 2, at' := 0, resume := false }] } }
    s.reqPriv .reeve = true ∧ s.reqPriv .pcie = false
    ∧ s.anyCard (fun c => Card.deadline c != 0) = false ∧ owned.anyCard (fun c => Card.deadline c != 0) = true
    ∧ s.anyCard (fun c => Card.budget c != 0) = false ∧ owned.anyCard (fun c => Card.budget c != 0) = true
    ∧ (16000 ≤ (16000 : Word).toNat ∧ (16000 : Word).toNat ≤ 16000000) ∧ 16000000000 % 16000 = 0 ∧ 16000000000 % 16001 ≠ 0
    ∧ (60 ≤ (60 : Word).toNat % 256 ∧ (160 : Word).toNat % 256 ≤ 160) ∧ 160 < (161 : Word).toNat % 256
    ∧ owned.payerBudget (.job 2) = 64 ∧ (mget Account.reset spent.beadle.accounts (0 * 8192 + 2)).spent = 64
    ∧ (asked.beadle.leaves.map fun l => (l.units, l.resume, asked.leaveFits l)) = [(2, false, true)] ∧ (asked.core 0).wait = .leave 2
    ∧ ((owned.core 0).job.bind owned.slot).isSome = true ∧ (s.core 0).job.bind s.slot = none := by
  decide +kernel


/-- Core 0 running slot 0 at a bundle whose words lie in its dictionary image: an index stream of zeros, and a page for its code. -/
def fetching (f : Core → Core) : State :=
  (resident (mapped { serving 5 with cur := .core 0 0 } []) 0 (cardWith [(112, 8, 0x800)])).modCore 0 fun x =>
    f { x with job := some 0, part := .running, dict := some 0 }

theorem witness_BundlesThreadsAndBlocksIssue_core :
    let traced := fetching fun x => { x with trec := [[]] }
    let left := fetching fun x => { x with wait := .leave 2 }
    let block := fetching fun x => { x with part := .block 0 }
    ((fetching id).core 0).part = .running ∧ (block.core 0).part = .block 0 ∧ block.blockReady 0 = true ∧ (withReeve fun r => { r with halted := true }).blockReady 0 = false
    ∧ (fetching id).coreReady 0 = true ∧ State.reset.coreReady 0 = false ∧ traced.coreReady 0 = true ∧ (traced.core 0).trec ≠ []
    ∧ left.coreReady 0 = true ∧ (left.core 0).wait = .leave 2 ∧ (left.core 0).trec = [] ∧ ((fetching id).core 0).dict = ((fetching id).core 0).job
    ∧ (∃ x, block.fetchCode (.core 0 0) (Card.tblist (block.cardAt (.core 0 0)) % 2 ^ 64) 32 = .ok x)
    ∧ (∃ f, block.fetchCode (.core 0 0) 0x200000 32 = .error f) := by
  and_intros <;> first | decide +kernel | exact error_of (by decide +kernel) | exact ok_of (by decide +kernel)

/-- A bundle of KIND 00 with ADD in S0 (R47, R50), and one of KIND 10. -/
def addBundle : Nat := 1 + 0x01050607000 * 2 ^ 32
def badBundle : Nat := 2 ^ 31
/-- The same core with one bundle in its dictionary. -/
def holding (b : Nat) (f : Core → Core) : State := fetching fun x => f { x with entries := [b] }
/-- What the clauses on a fetched bundle ask of it: its failed check, KIND, reissue, wait, interval limit passed, current limit passed, ops. -/
def bundleFacts (s : State) : Option ((Bool × Nat × Bool) × (Bool × Bool × Bool × Nat)) :=
  (s.fetchBundle 0).toOption.map fun r =>
    let t := r.2.2
    let h := headerOf r.1
    let y := t.core 0
    let l := bundleOps h.pres r.1 y.arch.held
    let ops := l.map SlotOp.op
    let ticked : State := { t.setCore 0 (y.tick false) with cur := .core 0 0 }
    let weight := 4 + (l.map fun o => bundleWeight (RawOp.ofBits o.bits)).sum
    (((bundleCheck h (y.blockFirst && !y.reissue) l).isSome, h.kind, y.reissue), ((ticked.opsWait 0 ops).isSome, (ticked.overflow 0 false ops).isSome,
      decide (256 + 48 * y.eng.granted < y.eng.recent (y.eng.cycle t.ptime) + weight), l.length))

theorem witness_BundlesThreadsAndBlocksIssue_bundle :
    bundleFacts (holding addBundle id) = some ((false, 0, false), (false, false, false, 1))
    ∧ bundleFacts (holding addBundle fun x => { x with eng := { x.eng with hist := [(x.eng.cycle 0, 300)] } })
        = some ((false, 0, false), (false, false, true, 1))
    ∧ (bundleFacts (holding badBundle id)).map (·.1.1) = some true
    ∧ (bundleFacts (holding addBundle fun x => { x with sb := [⟨[.sreg 6 0], false, none⟩] })).map (·.2.1) = some true
    ∧ (∃ f, (fetching id).fetchBundle 0 = .error f) := by
  and_intros <;> first | decide +kernel | exact error_of (by decide +kernel)

/-- Unit 0 with thread 0 of one group ready. -/
def oneThread (f : VUnit → VUnit) : State :=
  let g := (onThread []).group 0 0
  let v := (onThread []).unit 0
  { onThread [] with units := [(0, f { v with groups := [(0, some { g with size := 1, started := true })] })] }

/-- Thread 0 of unit 0 at the word add x1, x5, x6 (R73), with results of some registers to land. -/
def addNext (busy : List Busy) : State :=
  (mapped (oneThread id) [(0x1001, 0x60), (0x1002, 0x50), (0x1003, 0x10), (0x1004, 0x10)]).modThread ⟨0, 0, 0⟩ fun t => { t with busy := busy }

/-- R364: the word waits while a register that it names is to land, and no longer. -/
theorem witness_BundlesThreadsAndBlocksIssue_operand :
    (addNext [⟨[7], none⟩, ⟨[5], none⟩]).operandWait ⟨0, 0, 0⟩ = true ∧ (addNext [⟨[7], none⟩]).operandWait ⟨0, 0, 0⟩ = false
    ∧ ((after (exec (.scoreboardResultLand (.thread ⟨0, 0, 0⟩ 1)) (addNext [⟨[7], none⟩, ⟨[5], none⟩]))).map fun s => s.threadReady ⟨0, 0, 0⟩) = some true := by
  decide +kernel

theorem witness_BundlesThreadsAndBlocksIssue_thread :
    let s := oneThread id
    let heavy := oneThread fun v => { v with eng := { v.eng with hist := [(0, 2000)] } }
    let used := oneThread fun v => { v with eng := { v.eng with lastIssue := some 0 } }
    s.chosen (((s.unit 0).tids 0).filter s.threadReady) = [⟨0, 0, 0⟩]
    ∧ s.reeve.halted = false ∧ (s.unit 0).eng.lastIssue = none ∧ (s.unit 0).eng.stopped = none
    ∧ 1536 + 192 * (heavy.unit 0).granted < (heavy.unit 0).eng.recent 0 + 8 ∧ ¬ 1536 + 192 * (s.unit 0).granted < (s.unit 0).eng.recent 0 + 8 + 8
    ∧ (used.unit 0).eng.lastIssue = some ((used.unit 0).eng.cycle used.ptime)
    ∧ ((fetching id).core 0).job = some 0 ∧ ((fetching fun x => { x with snapDue := true }).core 0).snapDue = true
    ∧ ((fetching id).core 0).snapDue = false ∧ ((fetching id).core 0).eng.copies = [] := by
  decide +kernel

/-- Core 0 with one entry in each of its queues of landings. -/
def landing : State :=
  (regsCore []).modCore 0 fun x => { x with
    sb := [⟨[.sreg 5 7], false, none⟩, ⟨[], false, some 3⟩], sm := [⟨0, [(0, 1)], 0, 0, none, 0, []⟩, ⟨0, [], 0, 0, some 5, 0, []⟩], trec := [[1], [2]],
    blocks := [(3, some { base := 0, count := 1, asid := 0, world := false, lines := [], filled := false })] }
/-- A copy of 8 i8 elements between two places of core 0's share, one piece left. -/
def oneCopy (f : Copy → Copy) : State :=
  (resident { serving 5 with cur := .core 0 0 } 0 (cardWith [])).modCore 0 fun x => { x with
    scratchSize := 4096, job := some 0,
    eng := { x.eng with copies := [f ⟨8, .core 0 0, [.core 0 64], [], [], false, [(0, 0)], [], 0, false, 0, 0, 0, .core 0 0, 0, none⟩] } }

theorem witness_ResultsLandAndWaitsEnd_core :
    let k := (oneCopy id).ctxCard (.core 0) ((oneCopy id).cardOf 0)
    let c : Copy := ⟨8, .core 0 0, [.core 0 64], [], [], false, [(0, 0)], [], 0, false, 0, 0, 0, .core 0 0, 0, none⟩
    let hurt := (oneCopy id).modCore 0 fun x => { x with poison := [0] }
    (landing.core 0).sb[2]? = none ∧ ((landing.core 0).sb[0]?.map (·.blk)) = some none ∧ ((landing.core 0).sb[1]?.map (·.blk)) = some (some 3)
    ∧ (landing.core 0).sm ≠ [] ∧ ((regsCore []).core 0).sm = [] ∧ (∀ e ∈ ((regsCore []).core 0).sb, e.blk = none)
    ∧ (landing.core 0).fillDue = some (1, 3) ∧ (mget none (landing.core 0).blocks 3).isSome = true
    ∧ ((oneCopy id).eng (.core 0)).copies[1]? = none ∧ ((oneCopy id).eng (.core 0)).copies[0]? = some c
    ∧ (((oneCopy fun y => { y with failed := some 4 }).eng (.core 0)).copies[0]?.map (·.failed)) = some (some 4)
    ∧ ((oneCopy id).slot 0).isSome = true ∧ ((oneCopy id).slot 0).map (·.endStatus) = some none ∧ (oneCopy id).slot 1 = none
    ∧ isOk ((oneCopy id).pieceCodes k c 0 0 8) = true ∧ isOk (hurt.pieceCodes k c 0 0 8) = false
    ∧ isOk ((oneCopy id).copyStore k 0 (.core 0 64) 0 (zeros 8)) = true := by
  and_intros <;> decide +kernel

theorem witness_ResultsLandAndWaitsEnd_thread :
    let waits : Wait → State := fun w => (onThread []).modThread ⟨0, 0, 0⟩ fun t => { t with wait := w }
    let sem := ((onThread []).modGroup 0 0 fun g => { g with semq := [(2, 0)], sem := [(2, 3)] }).modThread ⟨0, 0, 0⟩
      fun t => { t with wait := .sem 2 3 }
    let sync := ((onThread []).modGroup 0 0 fun g => { g with smemSize := 8 }).modThread ⟨0, 0, 0⟩ fun t => { t with wait := .sync 0 0 5 true .core }
    let bar := oneThread fun v => { v with groups := v.groups.map fun e => (e.1, e.2.map fun g => { g with bars := [(0, 3, 0)] }) }
    ((waits .jend).thread ⟨0, 0, 0⟩).wait = .jend ∧ (waits .jend).threadCopies ⟨0, 0, 0⟩ = [] ∧ ((waits .drain).thread ⟨0, 0, 0⟩).wait = .drain
    ∧ ((waits .none).thread ⟨0, 0, 0⟩).wait = .none
    ∧ (sem.group 0 0).semq = [(2, 0)] ∧ (sem.thread ⟨0, 0, 0⟩).wait = .sem 2 3 ∧ ¬ mget 0 (sem.group 0 0).sem 2 < 3
    ∧ mget 0 ((sem.modGroup 0 0 fun g => { g with sem := [(2, 2)] }).group 0 0).sem 2 < 3
    ∧ (sync.thread ⟨0, 0, 0⟩).wait = .sync 0 0 5 true .core ∧ isOk (sync.loadLocal (.thr ⟨0, 0, 0⟩) 0 8) = true
    ∧ reached 0 0 = true ∧ reached 0 1 = false
    ∧ (oneQueue 0 [[1], [2]]).cap ≤ (oneQueue 0 [[1], [2]]).items.length ∧ (oneQueue 0 []).items.length < (oneQueue 0 []).cap
    ∧ (bar.group 0 0).expects 0 3 = [(0, 3, 0)] ∧ (∀ b ∈ (bar.group 0 0).expects 0 3, b ∈ (bar.group 0 0).bars)
    ∧ (∃ b ∈ (bar.group 0 0).expects 0 4, b ∉ (bar.group 0 0).bars) := by
  and_intros <;> decide +kernel

/-- Core 0 waiting for its TLBINV, the removal with what it still waits for. -/
def removing (cores : List Nat) (w : InvWaiter) : State :=
  let s := (regsCore []).modCore 0 fun x => { x with wait := .tlbinv }
  { s with iso := { s.iso with removals := [{ (s.removal .all false w) with cores := cores }] } }

theorem witness_ResultsLandAndWaitsEnd_device :
    ((removing [] (.core 0)).iso.removals[0]?.map fun r => (r.waiter, (removing [] (.core 0)).removalDone r)) = some (.core 0, true)
    ∧ ((removing [1] (.core 0)).iso.removals[0]?.map fun r => (removing [1] (.core 0)).removalDone r) = some false
    ∧ ((removing [] .window).iso.removals[0]?.map (·.waiter)) = some .window ∧ (removing [] .window).iso.invHeld = []
    ∧ (removing [] .window).iso.removals[1]? = none ∧ ((removing [] (.core 0)).core 0).wait = .tlbinv
    ∧ (landing.core 0).trec = [[1], [2]] ∧ (landing.offer 0 0 false [1]).1 = true
    ∧ ((resident State.reset 4 (cardWith []) fun z => { z with touched := [(5, [])] }).slot 4).map (·.touched) = some [(5, [])]
    ∧ State.reset.slot 4 = none := by
  decide +kernel


/-- Engine 0 in service on each side, its fields changed, at PTIME 1600000. -/
def watched (f : Eng → Eng) : State :=
  (({ serving 5 with ptime := 1600000 } : State).modEng (.core 0) fun e => f { e with heartbeat := 0, progress := 0 }).modEng (.unit 0)
    fun e => f { e with heartbeat := 0, progress := 0 }

theorem witness_SupervisionSafetyDebugAndTrace_failures :
    let busy := (watched id).modCore 0 fun x => { x with job := some 0, part := .running }
    let down := watched fun e => { e with failed := some 3 }
    let edge (n : Nat) : State := { watched id with ptime := n }
    ((busy.eng (.core 0)).inService = true ∧ (busy.eng (.core 0)).failed = none ∧ busy.reeve.halted = false)
    ∧ (State.reset.eng (.core 0)).inService = false ∧ (edge 319999).ptime < 0 + 320000 ∧ 0 + 320000 ≤ (edge 320000).ptime
    ∧ (edge 1599999).ptime < (busy.eng (.core 0)).progress + 1600000 ∧ (busy.eng (.core 0)).progress + 1600000 ≤ busy.ptime
    ∧ (watched id).watchExempt 0 = true ∧ busy.watchExempt 0 = false
    ∧ (∀ t ∈ ((watched id).unit 0).tids 0, (watched id).threadReady t = false)
    ∧ 4095 < ((regsCore []).core 0).scratchSize ∧ mget 0 State.reset.poisoned (64 / 64) = 0
    ∧ (State.reset.ptime + 1 = 1 ∧ (mget (0, 0) State.reset.reeve.corrected 3).2 = 0)
    ∧ ¬ ((5, 7).2 = 0 ∨ (5, 7).2 + 16000000 ≤ 16000005 + 1) ∧ ((5, 7).2 + 16000000 ≤ 16000006 + 1)
    ∧ (down.reeve.halted = false ∧ (down.eng (.core 0)).failed = some (3 : Fin 6).val ∧ (down.eng (.core 0)).inService = true)
    ∧ (watched id).reeve.halted = false ∧ (withReeve fun r => { r with halted := true }).reeve.halted = true := by
  and_intros <;> decide +kernel

/-- Transmit slots 0 and 1, ready as given; every receive slot below n full. -/
def mailbox (a b : Bool) (n : Nat) : State := withReeve fun r =>
  { r with txSlots := [(0, putField (zeros 128) 88 1 (if a then 1 else 2)), (1, putField (zeros 128) 88 1 (if b then 5 else 4))],
           rxSlots := (List.range n).map fun i => (i, putField (zeros 128) 88 1 1) }

theorem witness_SupervisionSafetyDebugAndTrace_safety :
    let silent := withReeve fun r => { r with halted := true, safetySent := 0 }
    let full (s : State) (i : Nat) := bit (fieldAt (mget (zeros 128) s.reeve.rxSlots i) 88 1) 0
    silent.reeve.halted = true ∧ silent.ptime < silent.reeve.safetySent + 160000000
    ∧ silent.reeve.safetySent + 160000000 ≤ ({ silent with ptime := 160000000 } : State).ptime
    ∧ State.reset.reqPriv .reeve = true ∧ State.reset.reqWorld .reeve = true ∧ ¬ (State.reset.reqPriv .pcie = true ∧ State.reset.reqWorld .pcie = true)
    ∧ (∃ i < (1 : Fin 16).val, txReady ((mailbox true true 0).txSlot i) = true) ∧ txReady ((mailbox false false 0).txSlot 1) = false
    ∧ ((∀ i < (1 : Fin 16).val, txReady ((mailbox false true 0).txSlot i) = false) ∧ txReady ((mailbox false true 0).txSlot 1) = true)
    ∧ (bit (fieldAt ((mailbox false true 0).txSlot 1) 88 1) 2 = true ∧ (0 : Fin 3) = 0 ∧ (1 : Fin 3) ≠ 0)
    ∧ (∀ i < 32, full (mailbox true true 32) i = true)
    ∧ (full (mailbox true true 31) 31 = false ∧ ∀ j < 31, full (mailbox true true 31) j = true) := by
  and_intros <;> decide +kernel

/-- A trace descriptor of 4 KB at address 0, in effect at partition 0. -/
def ringed (status : Nat) : State :=
  State.reset.setTdesc 0 { desc := putField (zeros 64) 8 1 12, wp := 16, rp := 0, faultva := 0, lost := 0, gapLost := 0, gapFault := false, susp := false,
                           status := status, rused := 0 }

theorem witness_SupervisionSafetyDebugAndTrace_debug :
    let stopped := State.reset.modEng (.core 0) fun e => { e with stopped := some 1 }
    let stoppedUnit := State.reset.modEng (.unit 0) fun e => { e with stopped := some 1 }
    let ok := putField (zeros 64) 8 1 12
    let moved : State → List Byte → Prop := fun s b => fieldAt (s.tdesc 0).desc 0 9 ≠ fieldAt b 0 9 ∨ fieldAt (s.tdesc 0).desc 12 2 ≠ fieldAt b 12 2
      ∨ (s.tdesc 0).status = 1
    (State.reset.reqPriv .reeve = true ∧ State.reset.reeve.halted = false ∧ (State.reset.eng (.core 0)).stopped = none)
    ∧ (stopped.core 0).eng.stopped ≠ none ∧ (stoppedUnit.unit 0).eng.stopped ≠ none ∧ State.reset.reqPriv .pcie ≠ true
    ∧ traceBad (zeros 64) = true ∧ traceBad ok = false ∧ traceBad (putField ok 8 1 30) = false ∧ traceBad (putField ok 8 1 31) = true
    ∧ ((ringed 1).tdesc 0).status = 1 ∧ fieldAt ((ringed 0).tdesc 0).desc 0 9 ≠ fieldAt (putField ok 8 1 13) 0 9
    ∧ fieldAt ((ringed 0).tdesc 0).desc 0 9 = fieldAt ok 0 9 ∧ min (17 : Word).toNat ((ringed 0).tdesc 0).wp.toNat = 16
    ∧ (State.reset.queue 5).valid = false ∧ ((State.reset.setQueue 5 (oneQueue 0 [])).queue 5).valid = true := by
  decide +kernel

/-- Reset with one region entry in effect and the FIRST of entry 1 staged. -/
def regions (lock : Bool) (first : Word) : State :=
  { State.reset with iso := { State.reset.iso with regions := [(0, (0, if lock then 5 else 1))], stagedFirst := [(1, some first)] } }

theorem witness_IsolationTablesAndBoundary_tables :
    let ok (s : State) (idx : Nat) (new : Word × Word) : Bool := !bit (mget (0, 0) s.iso.regions idx).2.toNat 2 && regionOk new
      && s.iso.regions.all fun e => e.1 == idx || !regionsMeet new e.2
    let en := putField (zeros 32) 0 1 1
    let waysA := putField (putField (zeros 32) 0 1 1) 4 4 1
    let waysB := putField (putField (zeros 32) 0 1 3) 4 4 1
    let used := (serving 5).setQueue 5 (oneQueue 0 [])
    ok (regions false 0x200000) 1 (0x200000, 0x200001) = true            -- the 2 MB above entry 0
    ∧ ok (regions false 0) 1 (0, 1) = false                              -- meets entry 0
    ∧ ok (regions true 0) 0 (0, 1) = false                               -- LOCK
    ∧ regionOk (0x200000, 1) = false                                     -- LAST below FIRST
    ∧ regionOk (0, 0x10) = false ∧ regionOk (0x100000, 0x200001) = false  -- reserved bit; FIRST not of 2 MB
    ∧ partBad (putField (zeros 32) 0 1 8) = true ∧ partBad (putField (zeros 32) 2 1 9) = true ∧ partBad (putField (zeros 32) 2 1 8) = false
    ∧ State.reset.partBusy 0 en (zeros 32) = false ∧ used.partBusy 0 en (zeros 32) = true
    ∧ State.reset.partsStatus [(0, waysA), (1, waysB)] = 3 ∧ State.reset.partsStatus [(0, waysA)] = 0
    ∧ State.reset.partWorld 0 = State.reset.reeve.hartSec.getLsbD 0
    ∧ State.reset.partWorld 0 ≠ (withReeve fun r => { r with hartSec := 1 }).reeve.hartSec.getLsbD 0
    ∧ (serving 3).reqPriv (.hart 0 true) = true ∧ (serving 3).reqWorld (.hart 0 true) = false
    ∧ (State.reset.iso.invBusy = false ∧ ({ State.reset.iso with invBusy := true } : Iso).invBusy = true) := by
  and_intros <;> decide +kernel

theorem witness_IsolationTablesAndBoundary_requests :
    let pend := withReeve fun r => { r with attPending := some (0, [], false) }
    let harts : State := { serving 5 with reeve := { (serving 5).reeve with hartsOn := true, cfg := cfgWith [(6, 2, 32)] } }
    let linked : State := { serving 5 with bnd := { State.reset.bnd with pcieLink := 1 } }
    State.reset.reeve.attPending = none ∧ pend.reeve.attPending = some (0, [], false)
    ∧ ((64 : Nat) % 64 = 0 ∧ State.reset.secure 64 = State.reset.reqWorld (.hart 0 true)
        ∧ State.reset.secure (64 + 30815) = State.reset.reqWorld (.hart 0 true))
    ∧ State.reset.secure 64 ≠ State.reset.reqWorld .reeve ∧ (3 : Fin 8).val < 4 ∧ 4 ≤ (4 : Fin 8).val
    ∧ harts.reeve.hartsOn = true ∧ isWindow 0 = false ∧ isWindow (2 ^ 43) = true ∧ isWindow (2 ^ 43 + 2 ^ 29) = false
    ∧ 0 < harts.capacity ∧ harts.capacity ≤ 2 ^ 42 ∧ bit linked.bnd.pcieLink.toNat 0 = true ∧ bit State.reset.bnd.pcieLink.toNat 0 = false
    ∧ (∀ i < 4, State.reset.secure (0 + i) = false)
    ∧ (∃ i < 4, ({ State.reset with iso := { State.reset.iso with regions := [(0, (0, 3))] } } : State).secure (0 + i) = true) := by
  and_intros <;> decide +kernel

/-- MAC 0 enabled, its link as given, descriptors at 0 (of CTRL as given) and one of two owned; a port with channel 0 as given. -/
def wired (up : Bool) (ctl room : Nat) (head : Nat) : State :=
  let d := putField (putField (putField (zeros 32) 0 8 0x1000) 8 2 room) 10 1 ctl
  let ring : EthRing := { State.reset.mac 0 |>.ring false 0 with base := 0, log2n := 1, head := head, tail := 1 }
  let s := withReeve fun r => { r with cfg := cfgWith [(0x0B, 1, 1)] }
  { s.setMac 0 { State.reset.mac 0 with ctrl := 5, link := up, tx := [(0, ring)], rx := [(0, ring)] }
      with mem := (cellsOf 0 d).filter fun c => c.2 != 0 }

/-- Port 0 enabled, channel 0 taking RAW8 (0x2A) lines of 64 bytes, 2 of them a frame, in the mode given. -/
def camera (ev : Bool) (chan : List Byte) : State := State.reset.setPort 0 { State.reset.port 0 with ctrl := if ev then 3 else 1, chans := [(0, chan)] }
def channel : List Byte :=
  putField (putField (putField (putField (putField (zeros 32) 0 1 1) 1 1 0x2A) 4 4 2) 16 4 4096) 20 4 2048

theorem witness_IsolationTablesAndBoundary_frames :
    let frame : List Byte := zeros 12 ++ [0x08, 0x00] ++ zeros 46
    let ptp : List Byte := zeros 12 ++ [0x88, 0xF7] ++ zeros 46
    (wired true 1 64 0).macOn 0 = true ∧ State.reset.macOn 0 = false
    ∧ (((wired true 1 64 0).mac 0).ring true 0).head ≠ (((wired true 1 64 0).mac 0).ring true 0).tail
    ∧ (((wired true 1 64 1).mac 0).ring true 0).head = (((wired true 1 64 1).mac 0).ring true 0).tail
    ∧ bit (fieldAt ((wired true 1 64 0).dmaRead (((wired true 1 64 0).mac 0).ring true 0).desc 32).1 10 1) 0 = true
    ∧ bit (fieldAt ((wired true 1 64 0).dmaRead (((wired true 1 64 0).mac 0).ring true 0).desc 32).1 10 1) 2 = false
    ∧ bit (fieldAt ((wired true 0 64 0).dmaRead (((wired true 0 64 0).mac 0).ring true 0).desc 32).1 10 1) 0 = false
    ∧ ((wired false 1 64 0).mac 0).link = false ∧ ((wired true 1 64 0).mac 0).link = true
    ∧ ((wired true 1 64 0).mac 0).accepts frame = true ∧ rxRing frame = 0
    ∧ (true = true ∧ (wired true 1 64 0).cfg 9 1 = (0 : Fin 2).val ∧ (wired true 1 64 0).reeve.cfg ≠ [] ∧ (wired true 1 64 0).reeve.halted = false
        ∧ bit ((wired true 1 64 0).cfg 0x0B 1) 0 = true ∧ (wired true 1 64 0).isPtp ptp = true)
    ∧ (wired true 1 64 0).isPtp frame = false := by
  and_intros <;> decide +kernel

theorem witness_IsolationTablesAndBoundary_ports :
    let x := (camera false channel).port 0
    State.reset.reqWorld (.hart 0 true) = x.world ∧ State.reset.reqWorld .reeve ≠ x.world
    ∧ x.on 0 false = true ∧ x.on 0 true = false ∧ ((camera true channel).port 0).on 0 true = true ∧ x.on 1 false = false
    ∧ (0x2A : Byte).toNat = fieldAt (x.chan 0) 1 1 ∧ (0x2B : Byte).toNat ≠ fieldAt (x.chan 0) 1 1
    ∧ fieldAt (x.chan 0) 16 4 / fieldAt (x.chan 0) 20 4 = 2 ∧ (x.at' 0).2.2.2 < 2 := by
  decide +kernel

/-- What a latched word makes of a state. -/
def latched (s : State) (a : Agent) (w : Word) : State := { s with latch := [⟨a, w⟩] }

theorem witness_StepRunsTheDecodedOp :
    let add : Word := 0x01050607000
    (latched (regsCore []) (.core 0 0) add).latch = [⟨.core 0 0, add⟩]
    ∧ (decodeOp .bundle 64 256 0 (RawOp.ofBits (add.setWidth 44))).toOption.isSome = true
    ∧ (decodeOp .bundle 64 256 2 (RawOp.ofBits (add.setWidth 44))).toOption.isSome = false
    ∧ (decodeWord 64 256 add).toOption.isSome = true ∧ (decodeWord 64 256 (add + 2 ^ 44)).toOption.isSome = false
    ∧ ((ThreadWord.ofBits add).p = 0 ∧ (ThreadWord.ofBits (add + 8 * 2 ^ 60)).p.getLsbD 3 = true)
    ∧ (((onThread []).thread ⟨0, 0, 0⟩).p.getLsbD 1 = false)
    ∧ (({ State.reset with inputs := [⟨0, .event .powerOn⟩] } : State).inputs = [⟨0, .event .powerOn⟩] ∧ State.reset.latch = []
        ∧ State.reset.reeve.rails = true)
    ∧ (((mapped (onThread [])).thread ⟨0, 0, 0⟩).ended = false ∧ ((mapped (onThread [])).thread ⟨0, 0, 0⟩).pendTraps = []
        ∧ ((mapped (onThread [])).thread ⟨0, 0, 0⟩).pc.toNat % 8 = 0)
    ∧ isOk ((mapped (onThread [])).fetchCode (.thr ⟨0, 0, 0⟩) 0x1000 8) = true := by
  and_intros <;> decide +kernel

theorem witness_EncodingRoundTrip :
    let i : Instr := .add (.sx 63) (.imm 14) (.sx 5)
    ((encode i).map fun r => (r.opc.toNat / 64, slotClass 1)) = some (0, 0) ∧ i.slotOk 1 = true
    ∧ WellFormed .bundle 64 256 i = true ∧ WellFormed .thread 64 256 i = true
    ∧ (encode .powerOn).isSome = false := by
  decide +kernel

theorem witness_EveryStepGoesOnAndKeepsMemory : MemOk State.reset ∧ MemOk (wired true 1 64 0) := by
  refine ⟨⟨?_, ?_, ?_⟩, ⟨?_, ?_, ?_⟩⟩ <;> decide +kernel

theorem witness_SourcesLandingsAndDelays :
    let x : Core := { Core.reset with flight := [(2, .sreg 5 7)] }
    let a : Arch := { Core.reset.arch with redir := [(64, 3)] }
    (regsCore []).cur = .core 0 0 ∧ (onThread []).cur = .thr ⟨0, 0, 0⟩ ∧ (63 : Fin 64) ≠ 0
    ∧ ((8 : Fin 32).val ≤ 8 ∧ ¬ 9 ≤ (8 : Fin 32).val) ∧ (9 ≤ (9 : Fin 32).val ∧ ¬ (9 : Fin 32).val ≤ 8) ∧ (9 ≤ (13 : Fin 32).val ∧ (13 : Fin 32).val ≤ 13)
    ∧ (x.flight = [(0 + 2, .sreg 5 7)] ∧ (x.tick false).flight = [(1, .sreg 5 7)])
    ∧ a.redir = [(64, 3)] ∧ Core.reset.arch.redir = []
    ∧ (State.reset.rd .i64 (.imm 9) = 16 ∧ State.reset.rd .i64 (.imm 13) = 256) := by
  decide +kernel

/-! ### Witnesses of the clauses on releases, gangs, windows and what a step does first -/

/-- The line at 0x100 of the page, clean. -/
def line4 : Line :=
  { vline := 4, pline := 4, asid := 0, world := false, attr := page.attr, tags := (0, 0), data := [], dirty := 0, poison := none }
/-- Core 0 with that line in its live load-block 3. -/
def blockHeld : State :=
  let b : Block := { base := 0x100, count := 1, asid := 0, world := false, filled := true, lines := [line4] }
  (blocksCore 8 0).modCore 0 fun x => { x with blocks := [(3, some b)] }
/-- The first 2 MB secure. -/
def secured (s : State) : State := { s with iso := { s.iso with regions := [(0, (0, 3))] } }

theorem witness_VectorAndTileTransfers_block :
    blockHeld.inBlock (.core 0) 4 = true ∧ blockHeld.inBlock (.core 0) 5 = false
    ∧ ((blockHeld.access (blockHeld.ctx blockHeld.cur) .pref 0x100 1 1).toOption.map fun p => p.1.map fun q => (q.x.pa / 64, q.hit))
        = some [(4, true)] := by
  decide +kernel

theorem witness_FencesTagsAndInvalidation_world :
    let s := secured (mapped (onThread [(6, 0x200)]))
    ((s.access (s.ctx s.cur) .tagLoad 0x200 512 512).toOption.map fun p =>
        ((tagBytes true p.1).length, (tagBytes true p.1).map fun x => p.2.secure x.pa)) = some (16, List.replicate 16 true)
    ∧ (s.ctx s.cur).world = false ∧ (mapped (onThread [])).secure 0x200 = false := by
  decide +kernel

theorem witness_QueueOps_closed :
    let s := (regsCore [(6, 5)]).setQueue 5 (oneQueue 2 [[1], [2]])
    let shut := s.modCore 0 fun x => { x with pushOn := some (5, true) }
    shut.cur = .core 0 0 ∧ (shut.core 0).pushOn = some (5, true) ∧ (s.core 0).pushOn = none ∧ s.pairCur ≠ some 1
    ∧ s.queueReason 5 true = none ∧ ((s.releaseAt (.core 0) .device).queue 5).items = [[1], [2]] := by
  decide +kernel

theorem witness_HomeMemoryFrame_tags :
    let s := withReeve fun r => { r with cfg := cfgWith [(6, 2, 128)] }
    s.tagBase ≤ s.tagBase ∧ s.tagBase < s.capacity ∧ s.capacity - 1 < s.capacity ∧ s.tagBase ≤ s.capacity - 1 := by
  decide +kernel

theorem witness_PowerBootAndTime_stepped :
    let s := (regsCore []).modCore 0 fun x => { x with mstest := some (true, 5, 0), intervalAdv := 1, eng := { x.eng with stepping := true } }
    let t := s.testArray 0 noFaults
    (t.core 0).eng.stepping = true ∧ (t.core 0).intervalAdv ≠ 0 ∧ ((regsCore []).core 0).eng.stepping = false := by
  decide +kernel

theorem witness_CardCommandsAndReleases_late :
    let done := onEngine (cardWith []) (fun z => { z with deadline := 1000, nextRelease := some 1000 }) fun x => { x with part := .ended }
    let late := onEngine (cardWith []) (fun z => { z with deadline := 999 }) fun x => { x with part := .ended }
    ((done.slot 2).map fun z => (done.jobDone 2 z, z.live, z.deadline)) = some (true, true, 1000) ∧ done.ptime = 1000
    ∧ ((late.slot 2).map fun z => (late.jobDone 2 z, z.live, z.missed, z.deadline)) = some (true, true, false, 999) ∧ late.ptime = 1000 := by
  decide +kernel

theorem witness_ControlFieldsAndAccounts_requests :
    let owned := onEngine (cardWith [(24, 8, 1), (40, 4, 64)]) id id
    let later : State := { owned with ptime := 160000, beadle := { owned.beadle with heldReqs := [(3, .job 2)] } }
    let spent : State := { owned with beadle := { owned.beadle with accounts := [(2, { Account.reset with spent := 64 })], charged := [(2, 128)] } }
    let saved := onEngine (cardWith [(40, 4, 64)]) (fun z => { z with state := .saving }) id
    owned.ptime / owned.beadle.tgwin * owned.beadle.tgwin = owned.beadle.tgStart
    ∧ later.ptime / later.beadle.tgwin * later.beadle.tgwin = 160000 ∧ later.beadle.tgStart = 0
    ∧ owned.payerOf (.engine (.core 0)) 0 = some (.job 2) ∧ owned.payerOf (.engine (.core 1)) 0 = none
    ∧ owned.payerOf (.preempt 2) 0 = none ∧ saved.payerOf (.preempt 2) 0 = some (.job 2)
    ∧ spent.payerBudget (.job 2) = 64 ∧ ((saved.slot 2).map (·.state)) = some .saving ∧ (spent.beadle.charged.map (·.2)).sum = 128
    ∧ owned.reqPriv .reeve = true ∧ isControl (Config.ctlBase + 14 * 2 ^ 24) = true ∧ windowOf (Config.ctlBase + 14 * 2 ^ 24) = 14
    ∧ isControl 0 = false := by
  decide +kernel

/-- Cores 0 and 1 as a gang of the job in slot 0, the bundle in the dictionary of position 0. -/
def gang (f : Core → Core) : State :=
  let put (s : State) (c : Nat) (g : Core → Core) : State := s.modCore c fun x => g { x with job := some 0, part := .running, dict := some 0, entries := [addBundle] }
  put (put (resident (mapped { serving 5 with cur := .core 0 0 } []) 0 (cardWith [(4, 1, 4), (112, 8, 0x800)])) 0 id) 1 fun x => f { x with gpos := 1 }
/-- Would the probe issue its bundle? -/
def issues : Probe → Option Nat
  | .issue _ _ _ _ _ b _ => some b
  | _ => none

theorem witness_BundlesThreadsAndBlocksIssue_gang :
    let held := gang fun x => { x with trec := [[]] }
    let due := gang fun x => { x with goAt := some 0, forward := some (addBundle, 8) }
    let block := (gang fun x => { x with part := .block 2 }).modCore 0 fun x => { x with part := .block 2 }
    (gang id).gangLive 0 = [0, 1] ∧ (gang id).coreReady 0 = true ∧ (gang id).coreReady 1 = false ∧ ((gang id).core 0).goAt = none
    ∧ issues ((gang id).probe 0 none) = some addBundle ∧ issues ((gang id).probe 1 (some (addBundle, 8))) = some addBundle
    ∧ ((held.probe 1 (some (addBundle, 8))).holds = true) ∧ (((gang id).modCore 0 fun x => { x with trec := [[]] }).probe 0 none).holds = true
    ∧ due.coreReady 1 = true ∧ (due.core 1).goAt = some 0
    ∧ block.gangLive 0 = [0, 1] ∧ block.blockReady 0 = true ∧ block.blockReady 1 = true
    ∧ ((gang fun x => { x with part := .block 2 }).core 0).part ≠ .block 2 ∧ redundantCard ((gang id).cardAt (.core 0 0)) = false := by
  decide +kernel

theorem witness_ResultsLandAndWaitsEnd_order :
    let c : Copy := ⟨8, .core 0 0, [.core 0 64], [], [], false, [(0, 0)], [], 0, false, 0, 0, 0, .core 0 0, 0, none⟩
    copyBehind [c] 0 = false ∧ copyBehind [c, { c with src := .core 0 64 }] 1 = true ∧ copyBehind [c, { c with src := .core 0 72 }] 1 = false := by
  decide +kernel

theorem witness_IsolationTablesAndBoundary_reserved :
    let s : State := { State.reset with bnd := { State.reset.bnd with reserve := [(3, (0x100, 4))] } }
    s.outOk false 0x100 (.lr 4) = true ∧ s.outOk false 0x100 (.sc [1, 2, 3, 4]) = true ∧ s.outOk false 0x102 (.lr 4) = false
    ∧ mget (0, 0) s.bnd.reserve 3 = (0x100, 4) ∧ mget (0, 0) s.bnd.reserve 4 ≠ (0x100, 4)
    ∧ OutKind.pcie (.lr 4) = false ∧ OutKind.pcie (.swap [0, 0, 0, 0]) = true
    ∧ (∃ i < [(0 : Byte)].length, (secured s).secure (0x100 + i) = true) ∧ (∀ i < [(0 : Byte)].length, s.secure (0x100 + i) = false) := by
  decide +kernel

theorem witness_StepRunsTheDecodedOp_first :
    let w : Requester × Nat × Word := (.reeve, Config.ctlBase + 2 * 2 ^ 24, 16000)
    let posted : State := { State.reset with posted := [w] }
    let seen := resident State.reset 4 (cardWith []) fun z => { z with touched := [(0x1000, [])] }
    posted.posted = w :: [] ∧ State.reset.posted = [] ∧ State.reset.preimage = none ∧ seen.posted = [] ∧ seen.preimage = some (4, 0x1000)
    ∧ ((after (step posted)).map fun t => (t.beadle.bewin, t.posted)) = some (16000, []) := by
  decide +kernel

theorem witness_PowerBootAndTime_turned :
    let s := resident (withReeve fun r => { r with stage := 4 }) 4 (cardWith []) fun z => { z with turned := some (0, 0), skip := 1 }
    ((s.slot 4).bind (·.turned)) = some (0, 0) ∧ (0 : Nat) = s.ptime ∧ ((s.slot 4).map fun z => Card.spor z.card) = some false
    ∧ (((s.releaseTurned 4).slot 4).map fun z => (z.skip, z.turned, z.state)) = some (0, none, .released)
    ∧ (((s.later 1).modSlot 4 fun z => { z with turned := some (1, 0) }).slot 4).map (·.turned) = some (some (1, 0)) := by
  decide +kernel

/-! ### Witnesses of the clauses on finite values, images, panels, barriers, holds and what a step waits for -/

theorem witness_FloatingArithmetic_finite :
    (0 < (⟨3, 4⟩ : Frac).den ∧ (⟨3, 4⟩ : Frac).num ≠ 0) ∧ (0 < (⟨-3, 4⟩ : Frac).den ∧ (⟨-3, 4⟩ : Frac).num ≠ 0)
    ∧ ((3 : Int) * 4 + -3 * 4 = 0) ∧ ((3 : Int) * 4 + 3 * 4 ≠ 0) := by
  decide

theorem witness_NumberWins_ordered :
    let real (c : Nat) : Frac := (decode .f32 c).real
    (0x3F800000 : Nat) < 2 ^ width .f32 ∧ (real 0x3F800000).num * (real 0x40000000).den < (real 0x40000000).num * (real 0x3F800000).den
    ∧ (decode .f32 0xFF800000 = .inf true ∧ decode .f32 0x7F800000 = .inf false) ∧ decode .f32 0x80000000 = .zero true
    ∧ decode .f32 0x3F800000 ≠ .nan true ∧ decode .f32 0x7F800001 = .nan true := by
  decide +kernel

theorem witness_SpecialFunctionTable_finite :
    0 < (⟨1, 1⟩ : Frac).den ∧ (⟨1, 1⟩ : Frac).num ≠ 0 ∧ (⟨-3, 1⟩ : Frac).num ≠ 0 ∧ (0 : Nat) < 2 ∧ (400 : Nat) ≤ 400 := by
  decide

theorem witness_ActivationTableLoads_thread :
    let u : Tid := ⟨0, 0, 0⟩
    let s := (mapped (onThread [(6, 0x1000)]) tableAt).modThread u fun t => { t with busy := [⟨[5], none⟩] }
    let sent := (onThread []).modThread u fun t => { t with busy := [⟨[7], none⟩, ⟨[5], some (1, [9])⟩] }
    s.cur = .thr u ∧ isOk (s.load (s.ctx s.cur) 0x1000 1600 64) = true ∧ (s.thread u).busy = [] ++ [⟨[(5 : Fin 64).val], none⟩]
    ∧ (s.thread u).busy ≠ [⟨[(6 : Fin 64).val], none⟩]
    ∧ (sent.thread u).busy = [⟨[7], none⟩] ++ ⟨[5], some (1, [9])⟩ :: [] ∧ (5 : Fin 64) ≠ 0 := by
  decide +kernel

/-- R155: the image reaches the slot when the status lands, not before. -/
theorem test_image_lands :
    let u : Tid := ⟨0, 0, 0⟩
    let sent := (onThread []).modThread u fun t => { t with busy := [⟨[5], some (1, [9])⟩] }
    (sent.lutAt (.unit 0) 1).map (·.data) = none
    ∧ ((after (exec (.scoreboardResultLand (.thread u 0)) sent)).bind fun t => (t.lutAt (.unit 0) 1).map (·.data)) = some [9] := by
  decide +kernel

theorem witness_MmaElementValues_finite :
    (∀ q ∈ ([⟨3, 4⟩, ⟨-1, 2⟩] : List Frac), 0 < q.den ∧ q.num ≠ 0 ∧ q.abs.lt (Frac.pow2 (-1 + 1)) = true)
    ∧ (∃ q ∈ ([⟨3, 4⟩, ⟨-1, 2⟩] : List Frac), (Frac.pow2 (-1)).le q.abs = true) ∧ 127 * 4 < 512 ∧ 31 * 16 < 512 ∧ 63 * 8 < 512 := by
  decide

theorem witness_ArrayTestsAndShape_attained : (regsCore []).gangOf 0 ≠ [] := by decide +kernel

theorem witness_LaunchEndAndSignal_resident :
    let with' (spor : Nat) (f : Slot → Slot) : State := resident (onThread []) 2 (cardWith [(0, 4, 9), (4, 1, 32 + spor * 128)]) f
    let facts (s : State) : Option (Nat × Bool × Bool × Bool × Nat) :=
      let out := s.releaseAt (.unit 0) .device
      (out.findJob 9).bind fun m => (out.slot m).map fun z =>
        (m, Card.spor z.card, Card.world z.card == Card.world (out.cardAt out.cur), z.retiring, Card.part (out.cardAt out.cur))
    facts (with' 1 id) = some (2, true, true, false, 0) ∧ (facts (with' 0 id)).map (·.2.1) = some false
    ∧ (facts (with' 1 fun z => { z with retiring := true })).map (·.2.2.2.1) = some true
    ∧ ((with' 1 id).releaseAt (.unit 0) .device).findJob 8 = none := by
  decide +kernel

theorem witness_VectorAndTileTransfers_poison :
    let s := mapped (onCore fun a => { a with p := [(1, 2)] })
    let hurt := s.modCore 0 fun x => { x with poison := [1] }
    (63 + 32 ≤ (hurt.core 0).scratchSize) ∧ (hurt.rp 1).getLsbD 1 = true ∧ (63 + 1) / 64 ∈ (hurt.core 0).poison
    ∧ (∀ j < 1, (hurt.rp 1).getLsbD j = false) ∧ localPoison (hurt.core 0).poison 0 128 = some 64 := by
  decide +kernel

theorem witness_VectorAndTileTransfers_shadow :
    ((shadowCore.accessAll (shadowCore.ctx shadowCore.cur) .load [(0x200000, 8)]).toOption.map fun p => (p.1.any piecesExt, p.2.pairCur))
      = some (true, some 1) ∧ ((shadowCore.accessAll (shadowCore.ctx shadowCore.cur) .load []).toOption.map fun p => p.1.any piecesExt) = some false := by
  decide +kernel

theorem witness_LoadBlocksCopiesAndSyncWords_poison :
    let hurt := (regsCore [(6, 64)]).modCore 0 fun x => { x with poison := [1] }
    (hurt.ri (.sx 6)).toNat % 8 = 0 ∧ 64 + 8 ≤ (hurt.local' hurt.cur).2.1 ∧ localPoison (hurt.local' hurt.cur).2.2 64 8 = some 64 := by
  decide +kernel

theorem witness_HomeMemoryFrame_read :
    let cells : List Host.Cell := [(0x41, 1), (0x42, 2), (0x41, 3)]
    let s : State := { State.reset with poisoned := [(1, 0x10)] }
    cells = [(0x41, 1), (0x42, 2)] ++ (0x41, 3) :: [] ∧ (∀ c ∈ ([] : List Host.Cell), c.1 ≠ 0x41)
    ∧ ¬ (State.reset.tagBase ≤ 0x41 / 64 * 64 ∧ 0x41 / 64 * 64 < State.reset.capacity) ∧ ¬ (State.reset.tagBase ≤ 0x41 ∧ 0x41 < State.reset.capacity)
    ∧ State.reset.secure 0x41 = false ∧ mget 0 State.reset.poisoned (0x41 / 64) = 0 ∧ mget 0 s.poisoned (0x41 / 64) ≠ 0
    ∧ (∀ i < 64, ∃ c ∈ (List.range 64).map (fun i => ((64 + i, 7) : Host.Cell)), c.1 = 0x41 / 64 * 64 + i)
    ∧ (secured State.reset).secure 0x41 = true ∧ 0x41 / 64 ∈ ({ State.reset with sealed := [1] } : State).sealed := by
  and_intros <;> decide +kernel

/-- R404: bytes written read back, and a whole sector written clears its poison. -/
theorem test_home_write_reads_back :
    (State.reset.writeSectors false [(0x41, 1), (0x42, 2), (0x41, 3)]).homeByte false 0x41 = (3, none)
    ∧ (({ State.reset with poisoned := [(1, 0x10)] } : State).writeSectors false ((List.range 64).map fun i => (64 + i, 7))).homeByte true 0x7F
        = (7, none) := by
  decide +kernel

theorem witness_RollbackUndoesScratchpadStores_each :
    ([(4, 7), (5, 8), (4, 9)] : List Host.Cell) = [(4, 7)] ++ (5, 8) :: [(4, 9)] ∧ ∀ q ∈ ([(4, 9)] : List Host.Cell), q.1 ≠ 5 := by
  decide

theorem witness_QueriesAndHints_invalid :
    (0x7F800000 : Nat) / 2 ^ 23 % 256 = 255 ∧ (0x3F800000 : Nat) / 2 ^ 23 % 256 ≠ 255 ∧ (2 : Nat) ^ 31 < 0x80000001
    ∧ (f32Real 0).lt (f32Real 0x3F800000) = true ∧ (0x80000000 : Nat) % 2 ^ 31 = 0 := by
  decide +kernel

/-- A RAYW that waits, its query invalid: the report that R201 gives is ready at once and is taken (R202). -/
theorem witness_QueriesAndHints_report :
    let u : Tid := ⟨0, 0, 0⟩
    let s := (withQuery none none).modThread u fun t => { t with wait := .query 5 }
    let z := ((s.thread u).query).getD ((onThread []).queryAt u false 0 4 0 false false false)
    let r := s.reportQuery u z 0
    queryOf s = some (none, none) ∧ (r.thread u).wait = .query 5 ∧ (queryOf r).isSome = true ∧ ((queryOf r).map (·.2)) = some none := by
  decide +kernel

theorem witness_PowerBootAndTime_training :
    let fit := withReeve fun r => { r with stage := 1, cfg := cfgWith [(4, 2, 0xFFFF), (6, 2, 128)] }
    let under := withReeve fun r => { r with stage := 2 }
    (fit.reeve.failcode = 0 ∧ fit.reeve.stage = 1 ∧ fit.reeve.trained = 0 ∧ fit.cfg 4 2 = 0xFFFF ∧ fit.cfg 6 2 = 128)
    ∧ (withReeve fun r => { r with stage := 1 }).cfg 4 2 ≠ 0xFFFF ∧ (under.reeve.stage = 2 ∧ under.reeve.trained = 0)
    ∧ (serving 2).reeve.trained ≠ 0 ∧ State.reset.reeve.stage ≠ 1 := by
  decide +kernel

theorem witness_PowerBootAndTime_clock :
    let s := serving 3
    let frame : List Byte := zeros 12 ++ [0x88, 0xF7] ++ zeros 46
    let ptp : State := withReeve fun r => { r with cfg := cfgWith [(0x0B, 1, 1)] }
    (s.reeve.halted = false ∧ s.reeve.counting = true ∧ s.reeve.stage.toNat ≤ 3 ∧ s.reeve.timeState = .locked ∧ s.reeve.stepped = false)
    ∧ (State.reset.reeve.timeSrc ≠ 3 ∧ TimeState.locking ≠ State.reset.reeve.timeState)
    ∧ (ptp.reeve.timeSrc = (0 : Fin 2).val ∧ ptp.reeve.cfg ≠ [] ∧ (ptp.cfg 0x0B 1).testBit 0 = true ∧ ptp.isPtp frame = true
        ∧ 64 ≤ frame.length + 4 ∧ frame.length + 4 ≤ 9600 ∧ ptp.ptpHeard frame = true)
    ∧ ptp.ptpHeard (zeros 12 ++ [0x88, 0xF7] ++ putField (zeros 46) 4 1 9) = false
    ∧ (withReeve fun r => { r with timeSrc := 2 }).reeve.timeSrc = 2 := by
  decide +kernel

theorem witness_CardCommandsAndReleases_gang :
    let asked := onEngine (cardWith []) (fun z => { z with state := .saving }) fun x => { x with part := .running, preempt := some (900, false) }
    let waits := asked.modCore 0 fun x => { x with wait := .leave 2 }
    (asked.core 0).holdsForSave = false ∧ (asked.core 0).preempt = some (900, false) ∧ asked.gangLive 0 = [0]
    ∧ (asked.core 0).savable = false ∧ asked.gangWaits 0 = false
    ∧ ((waits.slot 2).map fun z => z.engines.all fun e => (waits.core e).savable || waits.gangWaits e) = some true := by
  decide +kernel

/-- The covered request of core 0, still to be granted, goes before the unit's, which is the first that no reservation covers. -/
theorem witness_ControlFieldsAndAccounts_order :
    let l (d : Dom) (n : Nat) (r : Bool) : LeaveReq := { dom := d, group := 0, thread := 0, units := n, at' := 0, resume := r }
    let s := ((resident (oneThread id) 2 (cardWith [(24, 8, 1), (59, 1, 4)])).modCore 0 fun x => { x with job := some 2 })
      |>.modThread ⟨0, 0, 0⟩ fun t => { t with wait := .leave 2 }
    let asked : State := { s with beadle := { s.beadle with powercap := 160, leaves := [l (.core 0) 3 false, l (.unit 0) 2 false, l (.core 1) 1 true] } }
    asked.leaveFits (l (.core 0) 3 false) = true ∧ asked.leaveFits (l (.core 1) 1 true) = false
    ∧ (∀ m ∈ [l (.core 0) 3 false], ¬ (m.dom = .unit 0 ∧ asked.leaveFits m = true)) ∧ asked.leaveFits (l (.unit 0) 2 false) = true
    ∧ (asked.thread ⟨0, 0, 0⟩).wait = .leave 2
    ∧ ((after (exec (.leaveGrant (.unit 0)) asked)).map fun t => ((t.group 0 0).granted, (t.thread ⟨0, 0, 0⟩).wait, t.beadle.leaves.length))
        = some (2, .none, 2) := by
  decide +kernel

theorem witness_BundlesThreadsAndBlocksIssue_hold :
    let due := gang fun x => { x with goAt := some 0, forward := some (addBundle, 8) }
    let late := gang fun x => { x with goAt := some 0, forward := some (addBundle, 8), wait := .leave 2 }
    let bad := gang fun x => { x with goAt := some 0, forward := some (badBundle, 8) }
    let l (s : State) := bundleOps (headerOf addBundle).pres addBundle (s.core 0).arch.held
    issues (due.probe 1 (due.core 1).forward) = some addBundle ∧ (late.probe 1 (late.core 1).forward).holds = true
    ∧ (bad.probe 1 (bad.core 1).forward).holds = false ∧ issues (bad.probe 1 (bad.core 1).forward) = none
    ∧ (((gang id).afterPushes 0 (l (gang id))).gangHold (some (addBundle, 8)) [1]).isNone = true
    ∧ ((((gang fun x => { x with trec := [[]] })).afterPushes 0 (l (gang id))).gangHold (some (addBundle, 8)) [1]).map (·.1) = some 1 := by
  and_intros <;> decide +kernel

theorem witness_ResultsLandAndWaitsEnd_bars :
    let b := oneThread fun v => { v with groups := v.groups.map fun e => (e.1, e.2.map fun g => { g with bars := [(1, 3, 0)] }) }
    let job := (b.group 0 0).job
    let run := onEngine (cardWith []) (fun z => { z with bars := [(4, 0)] }) fun x => { x with part := .running, wait := .bar [4, 5] }
    (b.jobGroups job) = [(0, 0)] ∧ b.barFull 0 0 1 3 = true ∧ b.barFull 0 0 1 4 = false
    ∧ ((run.slot 2).map fun z => (z.state, z.bars)) = some (.running, [(4, 0)])
    ∧ ((List.range 32).filter fun c => (run.core c).job == some 2 && (run.core c).part != .ended) = [0] ∧ (run.core 0).idx = 0
    ∧ ((after (exec (.barComplete (.job 2 4)) run)).map fun t => (t.core 0).wait) = some (.bar [5]) := by
  and_intros <;> decide +kernel

theorem witness_ResultsLandAndWaitsEnd_held :
    let u : Tid := ⟨0, 0, 0⟩
    let held := ((onThread []).modThread u fun t => { t with trec := [zeros 32] }).modUnit 0 fun v => { v with traceq := [(0, 0, 0)] }
    let put (d : List Byte) (st : Nat) : TraceDesc :=
      { desc := d, wp := 0, rp := 0, faultva := 0, lost := 0, gapLost := 0, gapFault := false, susp := false, status := st, rused := 0 }
    (held.unit 0).traceq = [(0, 0, 0)] ∧ (held.thread u).trec = zeros 32 :: [] ∧ ((onThread []).thread u).trec = []
    ∧ (put (putField (zeros 64) 9 1 1) 1).takes false = false ∧ (put (putField (zeros 64) 9 1 1) 0).takes false = true
    ∧ (put (putField (zeros 64) 9 1 1) 0).takes true = false
    ∧ (held.offerHeld (zeros 32)).1 = true ∧ recPlace (zeros 32) = (0, 0, false) := by
  decide +kernel

theorem witness_SupervisionSafetyDebugAndTrace_unit :
    let busy := ({ oneThread fun v => { v with eng := { v.eng with inService := true, failed := none, stopped := none, progress := 0 } } with ptime := 1600000 } : State)
    (∃ t ∈ (busy.unit 0).tids 0, busy.threadReady t = true) ∧ (busy.unit 0).eng.stopped = none
    ∧ (busy.unit 0).eng.progress + 1600000 ≤ busy.ptime ∧ (watched id).jobsOn (.core 0) = [] := by
  and_intros <;> decide +kernel

theorem witness_IsolationTablesAndBoundary_links :
    bit State.reset.bnd.pcieLink.toNat 0 = false ∧ OutKind.pcie (.load 4) = true ∧ outAtomicOk (.load 4) 0 = true
    ∧ outAtomicOk (.store [1]) 3 = true ∧ outAtomicOk (.swap [0, 0, 0, 0]) 2 = false
    ∧ fieldAt (((camera true (putField channel 1 1 0x30)).port 0).chan 0) 1 1 = 0x30
    ∧ ((camera true (putField channel 1 1 0x30)).port 0).on 0 true = true
    ∧ (9600 < 9597 + 4) ∧ (9596 + 4 ≤ 9600) := by
  decide +kernel

/-- The effects that a mark held back follow the posted writes (R244), and an op whose access touches a captured page first waits (R328). -/
theorem witness_StepRunsTheDecodedOp_waits :
    let m : Marked := ⟨0, true, [.signal 0 3 2], false⟩
    let held : State := { (regsCore []) with marked := [m] }
    let seen := resident State.reset 4 (cardWith []) fun z => { z with touched := [(0x1000, [])] }
    held.posted = [] ∧ held.marked = m :: [] ∧ State.reset.marked = [] ∧ seen.preimage ≠ none
    ∧ ((after (step held)).map fun t => (mget 0 (t.core 0).sem 3, t.marked)) = some (2, []) := by
  decide +kernel

theorem witness_SourcesLandingsAndDelays_many :
    let fl : List (Nat × Land) := [(1, .sreg 5 7), (1, .sreg 6 8), (3, .sreg 5 9), (1, .flags 2)]
    fl = [(1, .sreg 5 7)] ++ (1, .sreg 6 8) :: [(3, .sreg 5 9), (1, .flags 2)] ∧ (3 : Nat) ≤ 31
    ∧ (∀ e ∈ ([(1, .sreg 5 7)] : List (Nat × Land)), ∀ m w, e.2 ≠ .vreg 5 m w)
    ∧ ([(64, 2), (80, 1), (96, 3)] : List (BitVec 32 × Nat)) = [(64, 2)] ++ (80, 1) :: [(96, 3)]
    ∧ (∀ e ∈ ([(64, 2)] : List (BitVec 32 × Nat)), 2 ≤ e.2) ∧ width .i8 * (127 + 1) ≤ 1024 ∧ width .i64 * (15 + 1) ≤ 1024 := by
  refine ⟨rfl, by decide, ?_, rfl, ?_, by decide, by decide⟩
  · intro e he m w; simp at he; subst he; simp
  · intro e he; simp at he; subst he; decide

end Sys2Proof.Tests
end

