-- ==== Sys2Proof/Proofs/FmtWrites.lean ====
section
/-!
Writes of FMT: the illegal values of R112 field by field, what a refused and a legal write leave, and O14.
-/
namespace Sys2Proof.Machine

/-! ### The illegal values -/

/-- The codes that AFMT and BFMT may hold: i8, n8 and 0x11 to 0x19 (R112). -/
def operandTypeCodes : List (BitVec 5) := [0x00, 0x04, 0x11, 0x12, 0x13, 0x14, 0x15, 0x16, 0x17, 0x18, 0x19]

/-- The cases of R112, in the fields of R111; the model's own test is `fmtRefused`. -/
def FmtIllegal (f : BitVec 32) : Prop :=
  f.extractLsb' 0 5 ∉ operandTypeCodes ∨ f.extractLsb' 5 5 ∉ operandTypeCodes ∨ 2 ≤ (f.extractLsb' 10 2).toNat
    ∨ 4 ≤ (f.extractLsb' 12 3).toNat ∨ f.extractLsb' 24 8 ≠ 0

theorem bits_toNat_eq_extractLsb' {w : Nat} (x : BitVec w) (lo n : Nat) :
    bits x.toNat (lo + n) lo = (x.extractLsb' lo (n + 1)).toNat := by
  rw [bits, BitVec.extractLsb'_toNat, Nat.shiftRight_eq_div_pow, show lo + n + 1 - lo = n + 1 by omega]

/-- The model's test of a type code, as `fmtRefused` writes it. -/
theorem operandTypeCode_test (c : BitVec 5) :
    (c.toNat == 0x00 || c.toNat == 0x04 || (0x11 ≤ c.toNat && c.toNat ≤ 0x19)) = decide (c ∈ operandTypeCodes) := by
  revert c; decide

theorem fmtRefused_iff (f : BitVec 32) : fmtRefused f = true ↔ FmtIllegal f := by
  have hA : bits f.toNat 4 0 = (f.extractLsb' 0 5).toNat := bits_toNat_eq_extractLsb' f 0 4
  have hB : bits f.toNat 9 5 = (f.extractLsb' 5 5).toNat := bits_toNat_eq_extractLsb' f 5 4
  have hAcct : bits f.toNat 11 10 = (f.extractLsb' 10 2).toNat := bits_toNat_eq_extractLsb' f 10 1
  have hScale : bits f.toNat 14 12 = (f.extractLsb' 12 3).toNat := bits_toNat_eq_extractLsb' f 12 2
  have hTop : bits f.toNat 31 24 = (f.extractLsb' 24 8).toNat := bits_toNat_eq_extractLsb' f 24 7
  have hZero : (f.extractLsb' 24 8).toNat ≠ 0 ↔ f.extractLsb' 24 8 ≠ 0 := by
    rw [Ne, Ne, BitVec.toNat_eq]; rfl
  simp only [fmtRefused, FmtIllegal, hA, hB, hAcct, hScale, hTop, operandTypeCode_test, ← hZero, Bool.or_eq_true, Bool.not_eq_true',
    decide_eq_true_eq, decide_eq_false_iff_not, bne_iff_ne, or_assoc]

/-! ### What a write leaves -/

/-- An op that fails with a 32-bit value takes its trap with that value in TVAL[31:0] and zero above. -/
theorem answer_trapRes_setWidth (s : State) (cause : Nat) (f : BitVec 32) :
    answer (trapRes s cause f.toNat) = .next (s.takeTrap s.cur ⟨cause, f.setWidth 64⟩) := by
  rw [← BitVec.ofNat_toNat]; rfl

/-- SETFMT and SWR to FMT are one operation (R112, R137, R178). -/
theorem exec_swr_fmt_eq_setfmt (s : State) (a : Opd) : exec (.swr 0x000 a) s = exec (.setfmt a) s := rfl

theorem exec_setfmt_of_ok {s t : State} {a : Opd} (h : s.writeFmt (s.ri a) = .ok t) : exec (.setfmt a) s = .next t.advance := by
  show execSetfmt a s = _
  rw [execSetfmt, h]; rfl

theorem exec_setfmt_of_error {s : State} {a : Opd} {e : Fail} (h : s.writeFmt (s.ri a) = .error e) :
    exec (.setfmt a) s = answer (.error e) := by
  show execSetfmt a s = _
  rw [execSetfmt, h]

theorem State.writeFmt_of_refused (s : State) {v : Word} (h : fmtRefused (v.setWidth 32) = true) :
    s.writeFmt v = trapRes s 0x04 (v.setWidth 32 : BitVec 32).toNat := if_pos h

theorem State.writeFmt_core {s : State} {v : Word} (h : fmtRefused (v.setWidth 32) = false) {c : Fin 32} {k : Fin 8}
    (hc : s.cur = .core c k) :
    s.writeFmt v = .ok (s.modArch c fun x => { x with fmtPend := x.fmtPend ++ [(v.setWidth 32, 4)] }) := by
  simp only [State.writeFmt, h, hc, Bool.false_eq_true, if_false]

theorem State.writeFmt_thread {s : State} {v : Word} (h : fmtRefused (v.setWidth 32) = false) {u : Tid} (hu : s.cur = .thr u) :
    s.writeFmt v = .ok (s.modThread u fun x => { x with fmt := v.setWidth 32 }) := by
  simp only [State.writeFmt, h, hu, Bool.false_eq_true, if_false]

theorem exec_setfmt_of_refused {s : State} {a : Opd} (h : fmtRefused ((s.ri a).setWidth 32) = true) :
    exec (.setfmt a) s = .next (s.takeTrap s.cur ⟨0x04, ((s.ri a).setWidth 32 : BitVec 32).setWidth 64⟩) :=
  (exec_setfmt_of_error (s.writeFmt_of_refused h)).trans (answer_trapRes_setWidth s 0x04 _)

/-- A legal write on a core enters the four-bundle shadow (R44). -/
theorem exec_setfmt_core {s : State} {a : Opd} (h : fmtRefused ((s.ri a).setWidth 32) = false) {c : Fin 32} {k : Fin 8}
    (hc : s.cur = .core c k) :
    exec (.setfmt a) s = .next (s.setCore c { s.core c with
      arch := { (s.core c).arch with fmtPend := (s.core c).arch.fmtPend ++ [((s.ri a).setWidth 32, 4)] } }) := by
  rw [exec_setfmt_of_ok (State.writeFmt_core h hc), State.advance, State.modArch_cur, hc]
  rfl

/-- A legal write in a thread takes effect at once, and the thread goes on to its next word (R17, R113). -/
theorem exec_setfmt_thread {s : State} {a : Opd} (h : fmtRefused ((s.ri a).setWidth 32) = false) {u : Tid} (hu : s.cur = .thr u) :
    exec (.setfmt a) s = .next (s.setThread u { s.thread u with fmt := (s.ri a).setWidth 32, pc := (s.thread u).pc + 8 }) := by
  rw [exec_setfmt_of_ok (State.writeFmt_thread h hu)]
  simp only [State.advance, State.modThread, State.setThread_cur, hu, State.thread_setThread_same, State.setThread_setThread]

/-- Settles O14: both ops are SETFMT's write, whose test is R112's list of cases. -/
theorem fmtWritesRefused : Obligations.FmtWritesRefused := by
  intro s a
  refine ⟨fun hr => ?_, fun hl => ?_⟩
  · have h := exec_setfmt_of_refused ((fmtRefused_iff _).2 hr)
    exact ⟨h, h⟩
  · have h : fmtRefused ((s.ri a).setWidth 32) = false := Bool.eq_false_iff.2 (mt (fmtRefused_iff _).1 hl)
    split
    next c k hc => exact ⟨exec_setfmt_core h hc, exec_setfmt_core h hc⟩
    next u hu => exact exec_setfmt_thread h hu

end Sys2Proof.Machine
end

