-- ==== Sys2Proof/Proofs/SpecialOperands.lean ====
section
/-!
Floating-point arithmetic on infinities, zeros and NaNs (R94, R127): what addition, multiplication and the fused product answer on a NaN,
on an invalid pair and on an exact zero, and O9.
-/
namespace Sys2Proof.Machine

/-! ### The scalar types and a signed zero's code -/

theorem isInt_ty (t : FpTy) : t.ty.isInt = false := by cases t <;> rfl

theorem hasNegZero_ty (t : FpTy) : hasNegZero t.ty = true := by cases t <;> rfl

theorem withSign_zero {t : Ty} (h : hasNegZero t = true) (n : Bool) : withSign t n 0 = if n then 2 ^ (width t - 1) else 0 := by
  simp only [withSign, signBit, h, Bool.or_true, Bool.and_true, Nat.add_zero]

/-- Conversion keeps a zero and its sign, with no flag (R107). -/
theorem roundNE_zero {t : Ty} (h : t.isInt = false) (n : Bool) : roundNE t (.zero n) = ⟨withSign t n 0, 0⟩ := by
  simp only [roundNE, convert, h, Bool.false_eq_true, if_false]

/-! ### NaN operands -/

theorem sigFlag_eq_ite (v : FVal) : sigFlag v = if v = .nan true then 16 else 0 := by
  cases v with
  | nan n => cases n <;> rfl
  | inf n => rfl
  | zero n => rfl
  | fin q => rfl

/-- Invalid is one flag, however many operands raise it. -/
theorem invalid_or_invalid (p q : Prop) [Decidable p] [Decidable q] :
    ((if p then 16 else 0) ||| (if q then 16 else 0) : BitVec 5) = if p ∨ q then 16 else 0 := by
  by_cases hp : p
  · rw [if_pos hp, if_pos (Or.inl hp)]
    split <;> rfl
  · simp only [hp, false_or, if_false]
    exact BitVec.zero_or

theorem addVal_of_isNan (t : Ty) {a b : FVal} (h : (a.isNan || b.isNan) = true) :
    addVal t a b = ⟨canon t, if a = .nan true ∨ b = .nan true then 16 else 0⟩ := by
  rw [show addVal t a b = nanRnd t (sigFlag a ||| sigFlag b) from if_pos h, nanRnd, sigFlag_eq_ite, sigFlag_eq_ite, invalid_or_invalid]

theorem mulVal_of_isNan (t : Ty) {a b : FVal} (h : (a.isNan || b.isNan) = true) :
    mulVal t a b = ⟨canon t, if a = .nan true ∨ b = .nan true then 16 else 0⟩ := by
  rw [show mulVal t a b = nanRnd t (sigFlag a ||| sigFlag b) from if_pos h, nanRnd, sigFlag_eq_ite, sigFlag_eq_ite, invalid_or_invalid]

theorem fmaVal_of_isNan (t : Ty) {a b c : FVal} (hz : zeroInf a b = false) (h : (a.isNan || b.isNan || c.isNan) = true) :
    fmaVal t a b c = ⟨canon t, if (a = .nan true ∨ b = .nan true) ∨ c = .nan true then 16 else 0⟩ := by
  rw [fmaVal, if_neg (Bool.eq_false_iff.1 hz), if_pos h, nanRnd, sigFlag_eq_ite, sigFlag_eq_ite, sigFlag_eq_ite, invalid_or_invalid,
    invalid_or_invalid]

theorem zeroInf_nan_left (n : Bool) (v : FVal) : zeroInf (.nan n) v = false := rfl

theorem zeroInf_nan_right (v : FVal) (n : Bool) : zeroInf v (.nan n) = false := by cases v <;> rfl

/-! ### Invalid pairs -/

theorem addVal_inf_not (t : Ty) (n : Bool) : addVal t (.inf n) (.inf !n) = ⟨canon t, 16⟩ := by cases n <;> rfl

/-- 0 × ∞ is tested before the operands' NaNs, so it is Invalid with any third operand (R127). -/
theorem fmaVal_of_zeroInf (t : Ty) {a b : FVal} (h : zeroInf a b = true) (c : FVal) : fmaVal t a b c = ⟨canon t, 16⟩ := if_pos h

/-! ### Exact zeros -/

theorem addVal_zero_zero (t : Ty) (n m : Bool) : addVal t (.zero n) (.zero m) = ⟨withSign t (n && m) 0, 0⟩ := rfl

theorem Frac.add_neg_isZero (q : Frac) : (q.add q.neg).isZero = true := by
  have hsum : q.add q.neg = ⟨q.num + -q.num, q.den⟩ := if_pos rfl
  rw [hsum, Int.add_right_neg]
  rfl

/-- A finite value and its negation sum to +0 (R127). -/
theorem addVal_fin_neg {t : Ty} (h : t.isInt = false) (q : Frac) : addVal t (.fin q) (.fin q.neg) = ⟨0, 0⟩ :=
  calc addVal t (.fin q) (.fin q.neg)
    _ = roundNE t (FVal.ofFrac (q.add q.neg)) := rfl
    _ = roundNE t (.zero false) := by rw [FVal.ofFrac, if_pos q.add_neg_isZero]
    _ = ⟨0, 0⟩ := roundNE_zero h false

theorem mulVal_zero_fin (t : Ty) (n : Bool) (q : Frac) : mulVal t (.zero n) (.fin q) = ⟨withSign t (n != q.isNeg) 0, 0⟩ := rfl

/-- Settles O9: the NaN clauses are R94's flags, where only the fused product tests its pair before them, and each zero is formed with
its own sign. -/
theorem specialOperandsOfArithmetic : Obligations.SpecialOperandsOfArithmetic := by
  intro t v w n m nan
  refine ⟨addVal_inf_not t.ty n, rfl, rfl, fmaVal_of_zeroInf t.ty rfl v, fmaVal_of_zeroInf t.ty rfl v, ?oppositeZeros, ?negativeZeros,
    fun q _ => addVal_fin_neg (isInt_ty t) q, ?addNanLeft, ?addNanRight, ?mulNanLeft, ?mulNanRight, fun hz => ?fmaNanAddend, ?fmaNanLeft,
    ?fmaNanRight, fun q => ?zeroProduct⟩
  case oppositeZeros => rw [addVal_zero_zero, Bool.and_not_self]; rfl
  case negativeZeros => rw [addVal_zero_zero, withSign_zero (hasNegZero_ty t)]; rfl
  case addNanLeft => simp only [nan, addVal_of_isNan t.ty (a := .nan n) (b := v) rfl, FVal.nan.injEq]
  case addNanRight => simp only [nan, addVal_of_isNan t.ty (a := v) (b := .nan n) (Bool.or_true _), FVal.nan.injEq, or_comm]
  case mulNanLeft => simp only [nan, mulVal_of_isNan t.ty (a := .nan n) (b := v) rfl, FVal.nan.injEq]
  case mulNanRight => simp only [nan, mulVal_of_isNan t.ty (a := v) (b := .nan n) (Bool.or_true _), FVal.nan.injEq, or_comm]
  case fmaNanAddend => simp only [nan, fmaVal_of_isNan t.ty (c := .nan n) hz (Bool.or_true _), FVal.nan.injEq, or_comm]
  case fmaNanLeft => simp only [nan, fmaVal_of_isNan t.ty (zeroInf_nan_left n v) (c := w) rfl, FVal.nan.injEq, or_assoc]
  case fmaNanRight =>
    have hNan : (v.isNan || (FVal.nan n).isNan || w.isNan) = true := congrArg (· || w.isNan) (Bool.or_true v.isNan)
    simp only [nan, fmaVal_of_isNan t.ty (zeroInf_nan_right v n) hNan, FVal.nan.injEq, or_left_comm, or_assoc]
  case zeroProduct => rw [mulVal_zero_fin, withSign_zero (hasNegZero_ty t)]

end Sys2Proof.Machine
end

