-- ==== Sys2Proof/Proofs/RoundTrip.lean ====
section
/-!
The round trip of the encoding over every constructor, for slot ops and for thread words (R58, R73), and O58.
-/
namespace Sys2Proof

/-- Every operation's encoding decodes to it: a device event has no encoding. -/
theorem Laws.RoundTrip.all : ∀ i : Instr, Laws.RoundTrip.Statement i
  | .nop => Laws.RoundTrip.nop
  | .add d a b => Laws.RoundTrip.add d a b
  | .sub d a b => Laws.RoundTrip.sub d a b
  | .addi d a imm => Laws.RoundTrip.addi d a imm
  | .lih d a imm => Laws.RoundTrip.lih d a imm
  | .mul d a b => Laws.RoundTrip.mul d a b
  | .mulh d a b => Laws.RoundTrip.mulh d a b
  | .mulhn d a b => Laws.RoundTrip.mulhn d a b
  | .div d a b => Laws.RoundTrip.div d a b
  | .divn d a b => Laws.RoundTrip.divn d a b
  | .rem d a b => Laws.RoundTrip.rem d a b
  | .remn d a b => Laws.RoundTrip.remn d a b
  | .and d a b => Laws.RoundTrip.and d a b
  | .or d a b => Laws.RoundTrip.or d a b
  | .xor d a b => Laws.RoundTrip.xor d a b
  | .andi d a imm => Laws.RoundTrip.andi d a imm
  | .ori d a imm => Laws.RoundTrip.ori d a imm
  | .xori d a imm => Laws.RoundTrip.xori d a imm
  | .shl d a b => Laws.RoundTrip.shl d a b
  | .shr d a b => Laws.RoundTrip.shr d a b
  | .sra d a b => Laws.RoundTrip.sra d a b
  | .shli d a sh => Laws.RoundTrip.shli d a sh
  | .shri d a sh => Laws.RoundTrip.shri d a sh
  | .srai d a sh => Laws.RoundTrip.srai d a sh
  | .rol d a b => Laws.RoundTrip.rol d a b
  | .ror d a b => Laws.RoundTrip.ror d a b
  | .min d a b => Laws.RoundTrip.min d a b
  | .max d a b => Laws.RoundTrip.max d a b
  | .minn d a b => Laws.RoundTrip.minn d a b
  | .maxn d a b => Laws.RoundTrip.maxn d a b
  | .seq d a b => Laws.RoundTrip.seq d a b
  | .sne d a b => Laws.RoundTrip.sne d a b
  | .slt d a b => Laws.RoundTrip.slt d a b
  | .sltn d a b => Laws.RoundTrip.sltn d a b
  | .slti d a imm => Laws.RoundTrip.slti d a imm
  | .sel d a b n inv => Laws.RoundTrip.sel d a b n inv
  | .clz d a => Laws.RoundTrip.clz d a
  | .ctz d a => Laws.RoundTrip.ctz d a
  | .popc d a => Laws.RoundTrip.popc d a
  | .bfx d a pos len1 => Laws.RoundTrip.bfx d a pos len1
  | .bfi d a pos len1 => Laws.RoundTrip.bfi d a pos len1
  | .sext d a t => Laws.RoundTrip.sext d a t
  | .addsh d a b sh => Laws.RoundTrip.addsh d a b sh
  | .fadd t d a b => Laws.RoundTrip.fadd t d a b
  | .fsub t d a b => Laws.RoundTrip.fsub t d a b
  | .fmul t d a b => Laws.RoundTrip.fmul t d a b
  | .ffma t d a b => Laws.RoundTrip.ffma t d a b
  | .fmin t d a b => Laws.RoundTrip.fmin t d a b
  | .fmax t d a b => Laws.RoundTrip.fmax t d a b
  | .feq t d a b => Laws.RoundTrip.feq t d a b
  | .flt t d a b => Laws.RoundTrip.flt t d a b
  | .fle t d a b => Laws.RoundTrip.fle t d a b
  | .fcvt t2 t1 d a => Laws.RoundTrip.fcvt t2 t1 d a
  | .fsgn m t d a b => Laws.RoundTrip.fsgn m t d a b
  | .fclass t d a => Laws.RoundTrip.fclass t d a
  | .pset m e pd a => Laws.RoundTrip.pset m e pd a
  | .plog op pd pa pb => Laws.RoundTrip.plog op pd pa pb
  | .check a b => Laws.RoundTrip.check a b
  | .srd d n => Laws.RoundTrip.srd d n
  | .swr n a => Laws.RoundTrip.swr n a
  | .rngn d => Laws.RoundTrip.rngn d
  | .rngf t d => Laws.RoundTrip.rngf t d
  | .rngj d k => Laws.RoundTrip.rngj d k
  | .vnop h => Laws.RoundTrip.vnop h
  | .vadd v d a b => Laws.RoundTrip.vadd v d a b
  | .vsub v d a b => Laws.RoundTrip.vsub v d a b
  | .vmul v d a b => Laws.RoundTrip.vmul v d a b
  | .vmulh v d a b => Laws.RoundTrip.vmulh v d a b
  | .vmin v d a b => Laws.RoundTrip.vmin v d a b
  | .vmax v d a b => Laws.RoundTrip.vmax v d a b
  | .vabs v d a => Laws.RoundTrip.vabs v d a
  | .vand v d a b => Laws.RoundTrip.vand v d a b
  | .vor v d a b => Laws.RoundTrip.vor v d a b
  | .vxor v d a b => Laws.RoundTrip.vxor v d a b
  | .vshl v d a b => Laws.RoundTrip.vshl v d a b
  | .vshr v d a b => Laws.RoundTrip.vshr v d a b
  | .vsra v d a b => Laws.RoundTrip.vsra v d a b
  | .vfadd v d a b => Laws.RoundTrip.vfadd v d a b
  | .vfsub v d a b => Laws.RoundTrip.vfsub v d a b
  | .vfmul v d a b => Laws.RoundTrip.vfmul v d a b
  | .vfma v d a b => Laws.RoundTrip.vfma v d a b
  | .vfmin v d a b => Laws.RoundTrip.vfmin v d a b
  | .vfmax v d a b => Laws.RoundTrip.vfmax v d a b
  | .vcmp v c pd a b => Laws.RoundTrip.vcmp v c pd a b
  | .vfcmp v c pd a b => Laws.RoundTrip.vfcmp v c pd a b
  | .vsel v d a b => Laws.RoundTrip.vsel v d a b
  | .vcvt v t1 d a => Laws.RoundTrip.vcvt v t1 d a
  | .vsplat v d a => Laws.RoundTrip.vsplat v d a
  | .vext v d a b => Laws.RoundTrip.vext v d a b
  | .vins v d a b => Laws.RoundTrip.vins v d a b
  | .vperm v d a b => Laws.RoundTrip.vperm v d a b
  | .vslide v d a b => Laws.RoundTrip.vslide v d a b
  | .vzip v d a b => Laws.RoundTrip.vzip v d a b
  | .vunzip v d a b => Laws.RoundTrip.vunzip v d a b
  | .vcprs v d a => Laws.RoundTrip.vcprs v d a
  | .vpcnt v d a => Laws.RoundTrip.vpcnt v d a
  | .viota v d => Laws.RoundTrip.viota v d
  | .vdot4 v d a b => Laws.RoundTrip.vdot4 v d a b
  | .vaccrd v d a b => Laws.RoundTrip.vaccrd v d a b
  | .vaccwr v d a b => Laws.RoundTrip.vaccwr v d a b
  | .vmov v d a => Laws.RoundTrip.vmov v d a
  | .rdadd v ps a => Laws.RoundTrip.rdadd v ps a
  | .rdmax v ps a => Laws.RoundTrip.rdmax v ps a
  | .rdmin v ps a => Laws.RoundTrip.rdmin v ps a
  | .rdmov v d ps => Laws.RoundTrip.rdmov v d ps
  | .xnop h => Laws.RoundTrip.xnop h
  | .mma h cz sat d a b ct => Laws.RoundTrip.mma h cz sat d a b ct
  | .accz h d => Laws.RoundTrip.accz h d
  | .acccp h tr d a => Laws.RoundTrip.acccp h tr d a
  | .setfmt a => Laws.RoundTrip.setfmt a
  | .twb h d a => Laws.RoundTrip.twb h d a
  | .twn h d => Laws.RoundTrip.twn h d
  | .twe h d => Laws.RoundTrip.twe h d
  | .mstestQuick d => Laws.RoundTrip.mstestQuick d
  | .mstestFull d => Laws.RoundTrip.mstestFull d
  | .fmaprd h d n => Laws.RoundTrip.fmaprd h d n
  | .frcp h p d a => Laws.RoundTrip.frcp h p d a
  | .frsq h p d a => Laws.RoundTrip.frsq h p d a
  | .fsqrt h p d a => Laws.RoundTrip.fsqrt h p d a
  | .fdiv h p d a b => Laws.RoundTrip.fdiv h p d a b
  | .fexp2 h p d a => Laws.RoundTrip.fexp2 h p d a
  | .flog2 h p d a => Laws.RoundTrip.flog2 h p d a
  | .fsin h p d a => Laws.RoundTrip.fsin h p d a
  | .fcos h p d a => Laws.RoundTrip.fcos h p d a
  | .ftanh h p d a => Laws.RoundTrip.ftanh h p d a
  | .fsigm h p d a => Laws.RoundTrip.fsigm h p d a
  | .flut h p d a => Laws.RoundTrip.flut h p d a
  | .lutld d a n => Laws.RoundTrip.lutld d a n
  | .lutsel n => Laws.RoundTrip.lutsel n
  | .br base off => Laws.RoundTrip.br base off
  | .brc c off => Laws.RoundTrip.brc c off
  | .call base off => Laws.RoundTrip.call base off
  | .ret a => Laws.RoundTrip.ret a
  | .mark id n => Laws.RoundTrip.mark id n
  | .trcev code a => Laws.RoundTrip.trcev code a
  | .trcevFull code a b => Laws.RoundTrip.trcevFull code a b
  | .leave a n => Laws.RoundTrip.leave a n
  | .launch a => Laws.RoundTrip.launch a
  | .jend => Laws.RoundTrip.jend
  | .jendBlk => Laws.RoundTrip.jendBlk
  | .semsig n a k rem => Laws.RoundTrip.semsig n a k rem
  | .semwait n a => Laws.RoundTrip.semwait n a
  | .yield => Laws.RoundTrip.yield
  | .barGroup id => Laws.RoundTrip.barGroup id
  | .barBlock id => Laws.RoundTrip.barBlock id
  | .barJob id => Laws.RoundTrip.barJob id
  | .trap c code => Laws.RoundTrip.trap c code
  | .tret => Laws.RoundTrip.tret
  | .svc code => Laws.RoundTrip.svc code
  | .bkpt code => Laws.RoundTrip.bkpt code
  | .rayqRay q h fast nohint opq => Laws.RoundTrip.rayqRay q h fast nohint opq
  | .rayqSph r1 q h fast nohint opq => Laws.RoundTrip.rayqSph r1 q h fast nohint opq
  | .rayw d => Laws.RoundTrip.rayw d
  | .rayahIgnore => Laws.RoundTrip.rayahIgnore
  | .rayahAccept => Laws.RoundTrip.rayahAccept
  | .hintinv a => Laws.RoundTrip.hintinv a
  | .hintinvAll => Laws.RoundTrip.hintinvAll
  | .isamp d a b => Laws.RoundTrip.isamp d a b
  | .cmsamp d a b => Laws.RoundTrip.cmsamp d a b
  | .cmseg d a b => Laws.RoundTrip.cmseg d a b
  | .mnop h => Laws.RoundTrip.mnop h
  | .ld m d a b => Laws.RoundTrip.ld m d a b
  | .st m d a b => Laws.RoundTrip.st m d a b
  | .lds m d a b => Laws.RoundTrip.lds m d a b
  | .sts m d a b => Laws.RoundTrip.sts m d a b
  | .ldv v d a b => Laws.RoundTrip.ldv v d a b
  | .stv v d a b => Laws.RoundTrip.stv v d a b
  | .ldvg v e8 sh d a b => Laws.RoundTrip.ldvg v e8 sh d a b
  | .stvs v e8 sh d a b => Laws.RoundTrip.stvs v e8 sh d a b
  | .tld v rows d a b => Laws.RoundTrip.tld v rows d a b
  | .tst v rows d a b => Laws.RoundTrip.tst v rows d a b
  | .accst h first count1 a b => Laws.RoundTrip.accst h first count1 a b
  | .accld h first count1 d a => Laws.RoundTrip.accld h first count1 d a
  | .blkld d a n1 => Laws.RoundTrip.blkld d a n1
  | .blkrel a => Laws.RoundTrip.blkrel a
  | .cpy h dir d a b => Laws.RoundTrip.cpy h dir d a b
  | .cpym h mask d a b => Laws.RoundTrip.cpym h mask d a b
  | .syncset a b => Laws.RoundTrip.syncset a b
  | .swait scope ord d a b => Laws.RoundTrip.swait scope ord d a b
  | .aadd m d a b => Laws.RoundTrip.aadd m d a b
  | .amin m sgn d a b => Laws.RoundTrip.amin m sgn d a b
  | .amax m sgn d a b => Laws.RoundTrip.amax m sgn d a b
  | .aand m d a b => Laws.RoundTrip.aand m d a b
  | .aor m d a b => Laws.RoundTrip.aor m d a b
  | .axor m d a b => Laws.RoundTrip.axor m d a b
  | .aswp m d a b => Laws.RoundTrip.aswp m d a b
  | .acas m d a b => Laws.RoundTrip.acas m d a b
  | .acas2 scope ord loc d a b => Laws.RoundTrip.acas2 scope ord loc d a b
  | .afadd scope ord loc t d a b => Laws.RoundTrip.afadd scope ord loc t d a b
  | .fence scope ord => Laws.RoundTrip.fence scope ord
  | .drain scope => Laws.RoundTrip.drain scope
  | .clean a b => Laws.RoundTrip.clean a b
  | .inv a b => Laws.RoundTrip.inv a b
  | .qpush scope ord d a => Laws.RoundTrip.qpush scope ord d a
  | .qpop scope ord d a b => Laws.RoundTrip.qpop scope ord d a b
  | .qtry scope ord d a b => Laws.RoundTrip.qtry scope ord d a b
  | .tgld x16 d a => Laws.RoundTrip.tgld x16 d a
  | .tgst x16 d a => Laws.RoundTrip.tgst x16 d a
  | .pref h l2 a b => Laws.RoundTrip.pref h l2 a b
  | .tlbinvVa a b => Laws.RoundTrip.tlbinvVa a b
  | .tlbinvAsid b => Laws.RoundTrip.tlbinvAsid b
  | .tlbinvAll => Laws.RoundTrip.tlbinvAll
  | .registerWrite req pa v => Laws.RoundTrip.registerWrite req pa v
  | .powerOn => Laws.RoundTrip.powerOn
  | .powerOff => Laws.RoundTrip.powerOff
  | .thermalTrip die => Laws.RoundTrip.thermalTrip die
  | .imageVerify kind => Laws.RoundTrip.imageVerify kind
  | .memoryTrainingComplete trained => Laws.RoundTrip.memoryTrainingComplete trained
  | .stageFullEntry => Laws.RoundTrip.stageFullEntry
  | .selfTestComplete d r1 => Laws.RoundTrip.selfTestComplete d r1
  | .backgroundMstest core found => Laws.RoundTrip.backgroundMstest core found
  | .ptimeStep ptp delta e => Laws.RoundTrip.ptimeStep ptp delta e
  | .timebaseStateChange next => Laws.RoundTrip.timebaseStateChange next
  | .ptpMessage port frame ppm => Laws.RoundTrip.ptpMessage port frame ppm
  | .ppsEdge ppm => Laws.RoundTrip.ppsEdge ppm
  | .clockChange d mhz => Laws.RoundTrip.clockChange d mhz
  | .register req card => Laws.RoundTrip.register req card
  | .submit req card => Laws.RoundTrip.submit req card
  | .retire req card => Laws.RoundTrip.retire req card
  | .abort req card => Laws.RoundTrip.abort req card
  | .periodicRelease slot => Laws.RoundTrip.periodicRelease slot
  | .deferredRelease slot => Laws.RoundTrip.deferredRelease slot
  | .dispatch cls place => Laws.RoundTrip.dispatch cls place
  | .advanceModeTimeout core => Laws.RoundTrip.advanceModeTimeout core
  | .preemptionComplete d => Laws.RoundTrip.preemptionComplete d
  | .serverWindowBoundary cls => Laws.RoundTrip.serverWindowBoundary cls
  | .serverBudgetExhausted cls => Laws.RoundTrip.serverBudgetExhausted cls
  | .jobComplete slot => Laws.RoundTrip.jobComplete slot
  | .deadlineMiss slot => Laws.RoundTrip.deadlineMiss slot
  | .cyclesDemotion slot => Laws.RoundTrip.cyclesDemotion slot
  | .beminWrite req v => Laws.RoundTrip.beminWrite req v
  | .bewinWrite req v => Laws.RoundTrip.bewinWrite req v
  | .tgwinWrite req v => Laws.RoundTrip.tgwinWrite req v
  | .tollgateWindowBoundary => Laws.RoundTrip.tollgateWindowBoundary
  | .channelRequest ch t group => Laws.RoundTrip.channelRequest ch t group
  | .leaveGrant d => Laws.RoundTrip.leaveGrant d
  | .powercapWrite req v => Laws.RoundTrip.powercapWrite req v
  | .energyUpdate m microjoules => Laws.RoundTrip.energyUpdate m microjoules
  | .bundleIssue core => Laws.RoundTrip.bundleIssue core
  | .traceRecordAccept d => Laws.RoundTrip.traceRecordAccept d
  | .taskBlockStart core => Laws.RoundTrip.taskBlockStart core
  | .scoreboardResultLand w => Laws.RoundTrip.scoreboardResultLand w
  | .mmaResultLand core => Laws.RoundTrip.mmaResultLand core
  | .mstestComplete core found => Laws.RoundTrip.mstestComplete core found
  | .blkldFillComplete core => Laws.RoundTrip.blkldFillComplete core
  | .copyPieceLand d copy piece => Laws.RoundTrip.copyPieceLand d copy piece
  | .copyError d copy va => Laws.RoundTrip.copyError d copy va
  | .threadWordIssue unit => Laws.RoundTrip.threadWordIssue unit
  | .threadEnd t => Laws.RoundTrip.threadEnd t
  | .drainComplete t => Laws.RoundTrip.drainComplete t
  | .semwaitSatisfy unit group sem => Laws.RoundTrip.semwaitSatisfy unit group sem
  | .swaitSatisfy w => Laws.RoundTrip.swaitSatisfy w
  | .qpushRoom q => Laws.RoundTrip.qpushRoom q
  | .barComplete b => Laws.RoundTrip.barComplete b
  | .queryReportReady t choice => Laws.RoundTrip.queryReportReady t choice
  | .tlbinvComplete idx => Laws.RoundTrip.tlbinvComplete idx
  | .capturePreimageWritten slot page => Laws.RoundTrip.capturePreimageWritten slot page
  | .snapshotWrite core => Laws.RoundTrip.snapshotWrite core
  | .heartbeatTimeout d => Laws.RoundTrip.heartbeatTimeout d
  | .watchdogTimeout d => Laws.RoundTrip.watchdogTimeout d
  | .uncorrectableError p => Laws.RoundTrip.uncorrectableError p
  | .correctableError src count => Laws.RoundTrip.correctableError src count
  | .domainFailed d reason => Laws.RoundTrip.domainFailed d reason
  | .reeveLockstepMismatch => Laws.RoundTrip.reeveLockstepMismatch
  | .safetyFrameRepeat => Laws.RoundTrip.safetyFrameRepeat
  | .safetyTxReady req slot => Laws.RoundTrip.safetyTxReady req slot
  | .safetyTxComplete slot status => Laws.RoundTrip.safetyTxComplete slot status
  | .safetyRxFrame ctl f => Laws.RoundTrip.safetyRxFrame ctl f
  | .debugStop req d => Laws.RoundTrip.debugStop req d
  | .debugStep req d => Laws.RoundTrip.debugStep req d
  | .debugRun req d => Laws.RoundTrip.debugRun req d
  | .traceRpWrite req part v => Laws.RoundTrip.traceRpWrite req part v
  | .traceDescriptorWrite req part bytes => Laws.RoundTrip.traceDescriptorWrite req part bytes
  | .queueConfigure req q bytes => Laws.RoundTrip.queueConfigure req q bytes
  | .queueClose req q => Laws.RoundTrip.queueClose req q
  | .ingressFrameEnd port vc => Laws.RoundTrip.ingressFrameEnd port vc
  | .ingressEventPacket port vc events => Laws.RoundTrip.ingressEventPacket port vc events
  | .ingressChannelEnable req port vc bytes => Laws.RoundTrip.ingressChannelEnable req port vc bytes
  | .regionEntryApply req idx last => Laws.RoundTrip.regionEntryApply req idx last
  | .partitionEntryApply req idx ctrl => Laws.RoundTrip.partitionEntryApply req idx ctrl
  | .hartPartitionWrite req hart v => Laws.RoundTrip.hartPartitionWrite req hart v
  | .invalidateWindowVa req asid => Laws.RoundTrip.invalidateWindowVa req asid
  | .invalidateWindowAsid req asid => Laws.RoundTrip.invalidateWindowAsid req asid
  | .invalidateWindowAll req => Laws.RoundTrip.invalidateWindowAll req
  | .attest req => Laws.RoundTrip.attest req
  | .extend req reg => Laws.RoundTrip.extend req reg
  | .attestComplete => Laws.RoundTrip.attestComplete
  | .pcieInboundRequest pa k => Laws.RoundTrip.pcieInboundRequest pa k
  | .pcieLinkChange up rate lanes => Laws.RoundTrip.pcieLinkChange up rate lanes
  | .ethTailWrite req mac tx ring v => Laws.RoundTrip.ethTailWrite req mac tx ring v
  | .ethTxComplete mac ring => Laws.RoundTrip.ethTxComplete mac ring
  | .ethRxFrame mac frame fcsOk => Laws.RoundTrip.ethRxFrame mac frame fcsOk
  | .ethLinkChange mac up => Laws.RoundTrip.ethLinkChange mac up
  | .heartbeat d => Laws.RoundTrip.heartbeat d
  | .hintinvComplete t => Laws.RoundTrip.hintinvComplete t
  | .hartMemoryAccess h pa k => Laws.RoundTrip.hartMemoryAccess h pa k
  | .csi2Packet port p => Laws.RoundTrip.csi2Packet port p

/-- The fields of a thread word are those it was put together from (R73). -/
theorem ThreadWord.ofBits_toBits (t : ThreadWord) : ThreadWord.ofBits t.toBits = t := by
  obtain ⟨p, y, c, zero, op⟩ := t
  simp only [ThreadWord.ofBits, ThreadWord.toBits, ThreadWord.mk.injEq]
  refine ⟨?_, ?_, ?_, ?_, ?_⟩
  · ext i hi; simp; grind
  · simp; grind
  · simp; grind
  · ext i hi; simp; grind
  · ext i hi; simp; grind

/-- A thread word with clear reserved bits decodes as its op does, whatever its predicate field and its hints (R73, R76). -/
theorem decodeWord_toBits (regs nsem : Nat) (p : BitVec 4) (y c : Bool) (op : Op44) :
    decodeWord regs nsem (ThreadWord.toBits ⟨p, y, c, 0, op⟩) = decodeOp .thread regs nsem 0 (RawOp.ofBits op) := by
  rw [decodeWord, ThreadWord.ofBits_toBits]
  rfl

/-- Settles O58: a bundle's slot is the one the statement names, and a thread word's op is decoded in slot 0 of no bundle. -/
theorem encodingRoundTrip : Obligations.EncodingRoundTrip := by
  intro i regs nsem r he
  refine ⟨fun slot hw hclass hslot => ?_, fun hw p y c => ⟨?_, ?_⟩⟩
  · exact Laws.RoundTrip.all i .bundle regs nsem slot r hw he fun _ => ⟨hclass, hslot⟩
  · rw [decodeWord_toBits]
    exact Laws.RoundTrip.all i .thread regs nsem 0 r hw he fun h => nomatch h
  · rw [ThreadWord.ofBits_toBits]

end Sys2Proof
end

