-- ==== Sys2Proof/Proofs/StepGoesOn.lean ====
section
/-!
Every operation, every event and every step answers a next state, and a step keeps the stored memories in their canonical form; O59.
-/
namespace Sys2Proof.Machine

/-- An outcome that is a next state. -/
def Answers (o : Out) : Prop := ∃ t, o = .next t

theorem answers_next (t : State) : Answers (.next t) := ⟨t, rfl⟩

/-- An op that fails a check takes its trap, which is a next state too (R413). -/
theorem answers_answer (r : Res) : Answers (answer r) := by
  cases r with
  | ok t => exact ⟨t, rfl⟩
  | error f => exact ⟨f.st.takeTrap f.st.cur f.trap, rfl⟩

theorem answers_ite {p : Prop} [Decidable p] {a b : Out} (ha : Answers a) (hb : Answers b) : Answers (if p then a else b) := by
  split
  · exact ha
  · exact hb

/-! ### Register writes -/

theorem State.writeQueue_answers (s : State) (req : Requester) (q off : Nat) (v : Word) : Answers (s.writeQueue req q off v) :=
  answers_ite (answers_next _) (answers_ite (answers_next _) (answers_ite (answers_next _) (answers_ite (answers_next _) (answers_next _))))

theorem State.writePort_answers (s : State) (req : Requester) (p off : Nat) (v : Word) : Answers (s.writePort req p off v) :=
  answers_ite (answers_next _) (answers_ite (answers_next _) (answers_ite (answers_ite (answers_next _) (answers_next _)) (answers_next _)))

theorem State.writeAttest_answers (s : State) (req : Requester) (off : Nat) (v : Word) : Answers (s.writeAttest req off v) := by
  unfold State.writeAttest
  refine answers_ite (answers_next _) (answers_ite ?_ (answers_ite (answers_next _) (answers_ite (answers_next _)
    (answers_ite (answers_next _) (answers_next _)))))
  split
  next => exact answers_ite (answers_next _) (answers_next _)
  next => exact answers_next _
  next => exact answers_next _

theorem State.writeMac_answers (s : State) (req : Requester) (i off : Nat) (v : Word) : Answers (s.writeMac req i off v) :=
  answers_ite (answers_next _) (answers_ite (answers_next _) (answers_ite (answers_next _)
    (answers_ite (answers_ite (answers_next _) (answers_next _)) (answers_next _))))

theorem State.writePart_answers (s : State) (req : Requester) (p off : Nat) (v : Word) : Answers (s.writePart req p off v) :=
  answers_ite (answers_next _) (answers_next _)

theorem State.writeTraceWindow_answers (s : State) (req : Requester) (off : Nat) (v : Word) : Answers (s.writeTraceWindow req off v) :=
  answers_ite (answers_next _) (answers_ite (answers_next _) (answers_next _))

theorem State.writeDebug_answers (s : State) (req : Requester) (d : Dom) (v : Word) : Answers (s.writeDebug req d v) := by
  unfold State.writeDebug
  refine answers_ite (answers_next _) ?_
  dsimp only
  split <;> exact answers_next _

theorem State.writeDebugWindow_answers (s : State) (req : Requester) (off : Nat) (v : Word) : Answers (s.writeDebugWindow req off v) :=
  answers_ite (answers_next _) (State.writeDebug_answers _ _ _ _)

theorem State.writeRegionWindow_answers (s : State) (req : Requester) (off : Nat) (v : Word) : Answers (s.writeRegionWindow req off v) :=
  answers_ite (answers_next _) (answers_ite (answers_next _) (answers_next _))

theorem State.writeFabric_answers (s : State) (req : Requester) (w off : Nat) (v : Word) : Answers (s.writeFabric req w off v) := by
  unfold State.writeFabric
  split
  case h_1 => exact answers_next _
  case h_2 | h_3 | h_4 => exact answers_ite (answers_next _) (answers_next _)
  case h_5 | h_6 => exact answers_ite (State.writeQueue_answers _ _ _ _ _) (answers_next _)
  case h_7 => exact State.writeTraceWindow_answers _ _ _ _
  case h_8 => exact State.writeDebugWindow_answers _ _ _ _

theorem State.writeIsolation_answers (s : State) (req : Requester) (w off : Nat) (v : Word) : Answers (s.writeIsolation req w off v) := by
  unfold State.writeIsolation
  split
  case h_1 => exact State.writeRegionWindow_answers _ _ _ _
  case h_2 => exact answers_ite (State.writePart_answers _ _ _ _ _) (answers_next _)
  case h_5 | h_7 => exact answers_ite (answers_next _) (answers_next _)
  case h_3 | h_4 | h_6 | h_8 => exact answers_next _

theorem State.writeBoundary_answers (s : State) (req : Requester) (w off : Nat) (v : Word) : Answers (s.writeBoundary req w off v) := by
  unfold State.writeBoundary
  split
  case h_1 => exact answers_next _
  case h_2 => exact State.writePort_answers _ _ _ _ _
  case h_3 => exact State.writeAttest_answers _ _ _ _
  case h_4 | h_5 => exact State.writeMac_answers _ _ _ _ _
  case h_6 | h_7 => exact answers_next _

theorem execRegisterWrite_answers (req : Requester) (pa : Nat) (v : Word) (s : State) : Answers (execRegisterWrite req pa v s) :=
  answers_ite (answers_next _) (answers_ite (State.writeFabric_answers _ _ _ _ _)
    (answers_ite (State.writeIsolation_answers _ _ _ _ _) (State.writeBoundary_answers _ _ _ _ _)))

/-! ### The events that test first -/

theorem execQueryReportReady_answers (t : Tid) (choice : Nat) (s : State) : Answers (execQueryReportReady t choice s) := by
  unfold execQueryReportReady
  split
  next => exact answers_next _
  next q _ =>
    refine answers_ite (answers_next _) ?_
    dsimp only
    split
    next => split <;> exact answers_next _
    next => exact answers_next _

theorem execHintinvComplete_answers (t : Tid) (s : State) : Answers (execHintinvComplete t s) := answers_ite (answers_next _) (answers_next _)

/-! ### Every operation and event -/

/-- A slot op answers its result or its trap, an event the state it leaves. -/
theorem exec_answers (i : Instr) (s : State) : Answers (exec i s) := by
  cases i
  case nop | add | sub | addi | lih | mul | mulh | mulhn | div | divn | rem | remn | and | or | xor | andi | ori | xori | shl |
      shr | sra | shli | shri | srai | rol | ror | min | max | minn | maxn | seq | sne | slt | sltn | slti | sel | clz | ctz |
      popc | bfx | bfi | sext | addsh | fadd | fsub | fmul | ffma | fmin | fmax | feq | flt | fle | fcvt | fsgn | fclass | pset |
      plog | check | srd | swr | rngn | rngf | rngj | vnop | vadd | vsub | vmul | vmulh | vmin | vmax | vabs | vand | vor | vxor |
      vshl | vshr | vsra | vfadd | vfsub | vfmul | vfma | vfmin | vfmax | vcmp | vfcmp | vsel | vcvt | vsplat | vext | vins |
      vperm | vslide | vzip | vunzip | vcprs | vpcnt | viota | vdot4 | vaccrd | vaccwr | vmov | rdadd | rdmax | rdmin | rdmov |
      xnop | mma | accz | acccp | setfmt | twb | twn | twe | mstestQuick | mstestFull | fmaprd | frcp | frsq | fsqrt | fdiv |
      fexp2 | flog2 | fsin | fcos | ftanh | fsigm | flut | lutld | lutsel | br | brc | call | ret | mark | trcev | trcevFull |
      leave | launch | jend | jendBlk | semsig | semwait | yield | barGroup | barBlock | barJob | trap | tret | svc | bkpt |
      rayqRay | rayqSph | rayw | rayahIgnore | rayahAccept | hintinv | hintinvAll | isamp | cmsamp | cmseg | mnop | ld | st | lds
      | sts | ldv | stv | ldvg | stvs | tld | tst | accst | accld | blkld | blkrel | cpy | cpym | syncset | swait | aadd | amin |
      amax | aand | aor | axor | aswp | acas | acas2 | afadd | fence | drain | clean | inv | qpush | qpop | qtry | tgld | tgst |
      pref | tlbinvVa | tlbinvAsid | tlbinvAll =>
    dsimp only [exec]
    exact answers_answer _
  case powerOn | powerOff | thermalTrip | imageVerify | memoryTrainingComplete | stageFullEntry | selfTestComplete |
      backgroundMstest | ptimeStep | timebaseStateChange | ptpMessage | ppsEdge | clockChange | register | submit | retire | abort
      | periodicRelease | deferredRelease | dispatch | advanceModeTimeout | preemptionComplete | serverWindowBoundary |
      serverBudgetExhausted | jobComplete | deadlineMiss | cyclesDemotion | beminWrite | bewinWrite | tgwinWrite |
      tollgateWindowBoundary | channelRequest | leaveGrant | powercapWrite | energyUpdate | bundleIssue | traceRecordAccept |
      taskBlockStart | scoreboardResultLand | mmaResultLand | mstestComplete | blkldFillComplete | copyPieceLand | copyError |
      threadWordIssue | threadEnd | drainComplete | semwaitSatisfy | swaitSatisfy | qpushRoom | barComplete | tlbinvComplete |
      capturePreimageWritten | snapshotWrite | heartbeatTimeout | watchdogTimeout | uncorrectableError | correctableError |
      domainFailed | reeveLockstepMismatch | safetyFrameRepeat | safetyTxReady | safetyTxComplete | safetyRxFrame | debugStop |
      debugStep | debugRun | traceRpWrite | traceDescriptorWrite | queueConfigure | queueClose | ingressFrameEnd |
      ingressEventPacket | ingressChannelEnable | regionEntryApply | partitionEntryApply | hartPartitionWrite | invalidateWindowVa
      | invalidateWindowAsid | invalidateWindowAll | attest | extend | attestComplete | pcieInboundRequest | pcieLinkChange |
      ethTailWrite | ethTxComplete | ethRxFrame | ethLinkChange | heartbeat | hartMemoryAccess | csi2Packet =>
    exact answers_next _
  case registerWrite req pa v => exact execRegisterWrite_answers req pa v s
  case queryReportReady t choice => exact execQueryReportReady_answers t choice s
  case hintinvComplete t => exact execHintinvComplete_answers t s

/-! ### Steps -/

/-- An act that awaits pre-images leaves the memory as it was before it (R328). -/
theorem awaitFrames_answers {before : State} {o : Out} (h : Answers o) : Answers (awaitFrames before o) := by
  obtain ⟨t, rfl⟩ := h
  exact answers_ite (answers_next _) (answers_next _)

theorem awaitFrames_memOk {before : State} {o : Out} {t : State} (e : awaitFrames before o = .next t) (hb : MemOk before)
    (ho : ∀ u, o = .next u → MemOk u) : MemOk t := by
  cases o with
  | next u =>
    simp only [awaitFrames] at e
    split at e
    · obtain rfl := Host.Outcome.next.inj e
      exact hb
    · obtain rfl := Host.Outcome.next.inj e
      exact ho _ rfl
  | fault r => cases e
  | refused r => cases e

theorem settleOut_answers {a : Agent} {o : Out} (h : Answers o) : Answers (settleOut a o) := by
  obtain ⟨t, rfl⟩ := h
  exact answers_next _

theorem step_answers (s : State) : Answers (step s) := by
  unfold step
  split
  next w rest _ => exact exec_answers _ _
  next =>
    split
    next => exact answers_next _
    next =>
      split
      next p _ => exact answers_next _
      next =>
        split
        next f rest _ =>
          split
          next i s' _ => exact awaitFrames_answers (settleOut_answers (exec_answers i s'))
          next => exact answers_next _
        next =>
          split
          next x rest _ =>
            split
            next i _ => exact answers_ite (awaitFrames_answers (exec_answers i _)) (answers_next _)
            next => exact answers_next _
          next => exact answers_next _

theorem step_memOk {s t : State} (h : MemOk s) (e : step s = .next t) : MemOk t := by
  unfold step at e
  split at e
  next w rest _ => exact exec_memOk _ (s := { s with posted := rest }) h e
  next =>
    split at e
    next => exact Host.Outcome.next.inj e ▸ State.releaseMarked_memOk h
    next =>
      split at e
      next p _ => exact execCapturePreimageWritten_memOk _ _ h e
      next =>
        split at e
        next f rest _ =>
          split at e
          next i s' hi =>
            exact awaitFrames_memOk e h fun u hu =>
              settleOut_memOk _ _ (fun v hv => exec_memOk i (State.ready_memOk_op f rest h hi) hv) hu
          next s' hi => exact Host.Outcome.next.inj e ▸ State.settle_memOk _ (State.ready_memOk_skip f rest h hi)
        next =>
          split at e
          next x rest _ =>
            split at e
            next i _ =>
              split at e
              · exact awaitFrames_memOk e (State.take_memOk _ _ h) fun u hu => exec_memOk i (State.take_memOk _ _ h) hu
              · exact Host.Outcome.next.inj e ▸ State.take_memOk _ _ h
            next => exact Host.Outcome.next.inj e ▸ State.hardware_memOk _ (State.take_memOk _ _ h)
          next => exact Host.Outcome.next.inj e ▸ State.idle_memOk h

/-- Settles O59: the step's own case split, over `exec_answers` for the next state and `exec_memOk` for the memories. -/
theorem everyStepGoesOnAndKeepsMemory : Obligations.EveryStepGoesOnAndKeepsMemory := fun s =>
  (step_answers s).imp fun _ e => ⟨e, fun h => step_memOk h e⟩

end Sys2Proof.Machine
end

