-- ==== Sys2Proof/Proofs/IntegerOps.lean ====
section
/-!
Integer scalar operations (R122 to R125): the value that each meaning writes, in the terms of bit vectors, and O1 to O6.
-/
namespace Sys2Proof.Machine

/-! ### Results of the shared forms -/

theorem answer_op1 (s : State) (n : Nat) (d : Fin 64) (a : Opd) (f : Word → Word) :
    answer (s.op1 n (.sx d) a f) = .next (s.withScalar n d (f (s.ri a))) := answer_result _ _ _ _

theorem answer_op2 (s : State) (n : Nat) (d : Fin 64) (a b : Opd) (f : Word → Word → Word) :
    answer (s.op2 n (.sx d) a b f) = .next (s.withScalar n d (f (s.ri a) (s.ri b))) := answer_result _ _ _ _

theorem answer_op2n (s : State) (n : Nat) (d : Fin 64) (a b : Opd) (f : Word → Word → Word) :
    answer (s.op2n n (.sx d) a b f) = .next (s.withScalar n d (f (s.rn a) (s.rn b))) := answer_result _ _ _ _

/-- An op that meets no check and leaves nothing moves on. -/
theorem answer_done (s : State) : answer s.done = .next s.moveOn := rfl

theorem State.moveOn_core {s : State} {c : Fin 32} {k : Fin 8} (hc : s.cur = .core c k) : s.moveOn = s := by
  rw [State.moveOn, hc]

theorem State.moveOn_thr {s : State} {u : Tid} (hu : s.cur = .thr u) :
    s.moveOn = s.setThread u { s.thread u with pc := (s.thread u).pc + 8 } := by
  rw [State.moveOn, hu]

/-- Two spellings of one condition choose alike. -/
theorem ite_of_iff {α : Type} {p q : Prop} [Decidable p] [Decidable q] {x y : α} (h : p ↔ q) :
    (if p then x else y) = if q then x else y := ite_congr (propext h) (fun _ => rfl) fun _ => rfl

/-! ### Products, shifts and immediates -/

theorem lih_eq (x : Word) (imm : BitVec 20) : BitVec.ofNat 64 (x.toNat * 2 ^ 20 + imm.toNat) = (x <<< 20) + imm.setWidth 64 := by
  apply BitVec.eq_of_toNat_eq
  simp [Nat.shiftLeft_eq]

theorem mulHigh_eq (x y : Word) : mulHigh x y = (x.signExtend 128 * y.signExtend 128).extractLsb' 64 64 := by
  have hprod : x.signExtend 128 * y.signExtend 128 = BitVec.ofInt 128 (x.toInt * y.toInt) := (BitVec.ofInt_mul _ _).symm
  rw [hprod, mulHigh]
  generalize x.toInt * y.toInt = p
  apply BitVec.eq_of_toNat_eq
  simp only [BitVec.toNat_ofInt, BitVec.extractLsb'_toNat, Nat.shiftRight_eq_div_pow]
  omega

theorem mulHighN_eq (x y : Word) : mulHighN x y = (x.setWidth 128 * y.setWidth 128).extractLsb' 64 64 := by
  have hx := x.isLt
  have hy := y.isLt
  have hxy : x.toNat * y.toNat < 2 ^ 128 := by
    calc x.toNat * y.toNat < 2 ^ 64 * 2 ^ 64 := Nat.mul_lt_mul'' hx hy
      _ = 2 ^ 128 := rfl
  apply BitVec.eq_of_toNat_eq
  simp only [mulHighN, BitVec.toNat_ofNat, BitVec.extractLsb'_toNat, BitVec.toNat_mul, BitVec.toNat_setWidth, Nat.shiftRight_eq_div_pow,
    Nat.mod_eq_of_lt (show x.toNat < 2 ^ 128 by omega), Nat.mod_eq_of_lt (show y.toNat < 2 ^ 128 by omega), Nat.mod_eq_of_lt hxy]

theorem shlW_eq (x : Word) (n : Nat) : shlW x n = x <<< n := by
  apply BitVec.eq_of_toNat_eq
  simp [shlW, Nat.shiftLeft_eq]

theorem shrW_eq (x : Word) (n : Nat) : shrW x n = x >>> n := by
  apply BitVec.eq_of_toNat_eq
  have hle : x.toNat / 2 ^ n ≤ x.toNat := Nat.div_le_self _ _
  have hlt := x.isLt
  rw [shrW, BitVec.toNat_ofNat, BitVec.toNat_ushiftRight, Nat.shiftRight_eq_div_pow]
  exact Nat.mod_eq_of_lt (Nat.lt_of_le_of_lt hle hlt)

theorem sraW_eq (x : Word) (n : Nat) : sraW x n = x.sshiftRight n := by
  rw [sraW, BitVec.sshiftRight, Int.shiftRight_eq_div_pow]
  norm_cast

/-- The shift distance is the low six bits (R122). -/
theorem shiftOf_eq (y : Word) : shiftOf y = (y &&& 63).toNat := by
  rw [shiftOf, BitVec.toNat_and, show ((63 : Word).toNat) = 2 ^ 6 - 1 from rfl, Nat.and_two_pow_sub_one_eq_mod]

theorem imm20_eq (i : BitVec 20) : imm20 i = i.signExtend 64 := rfl

theorem imm12_eq (i : BitVec 12) : imm12 i = i.signExtend 64 := rfl

/-- Settles O1: each sum and product is its shared form's result with the value above; NOP only moves on. -/
theorem integerSums : Obligations.IntegerSums := by
  intro s d a b
  simp only [exec, execAdd, execSub, execAddi, execLih, execMul, execMulh, execMulhn, execAddsh, execNop, answer_op1, answer_op2,
    answer_op2n, answer_done, imm20_eq, lih_eq, mulHigh_eq, mulHighN_eq, shlW_eq, implies_true, true_and] <;> rfl

/-- Settles O2: a shift by a register takes its low six bits, a shift by an immediate the immediate. -/
theorem integerLogicAndShifts : Obligations.IntegerLogicAndShifts := by
  intro s d a b
  simp only [exec, execAnd, execOr, execXor, execAndi, execOri, execXori, execShl, execShr, execSra, execShli, execShri, execSrai, execRol,
    execRor, answer_op1, answer_op2, imm12_eq, shlW_eq, shrW_eq, sraW_eq, shiftOf_eq, BitVec.shiftLeft_eq', BitVec.ushiftRight_eq',
    implies_true, and_self]

/-! ### Comparisons -/

theorem minS_eq (x y : Word) : (if x.toInt ≤ y.toInt then x else y) = if x.slt y then x else y := by
  simp only [BitVec.slt, decide_eq_true_eq]
  rcases Int.lt_trichotomy x.toInt y.toInt with h | h | h
  · rw [if_pos (Int.le_of_lt h), if_pos h]
  · rw [if_pos (Int.le_of_eq h), if_neg (by omega), BitVec.eq_of_toInt_eq h]
  · rw [if_neg (by omega), if_neg (by omega)]

theorem maxS_eq (x y : Word) : (if x.toInt ≤ y.toInt then y else x) = if x.slt y then y else x := by
  simp only [BitVec.slt, decide_eq_true_eq]
  rcases Int.lt_trichotomy x.toInt y.toInt with h | h | h
  · rw [if_pos (Int.le_of_lt h), if_pos h]
  · rw [if_pos (Int.le_of_eq h), if_neg (by omega), BitVec.eq_of_toInt_eq h]
  · rw [if_neg (by omega), if_neg (by omega)]

theorem minU_eq (x y : Word) : (if x.toNat ≤ y.toNat then x else y) = if x < y then x else y := by
  simp only [BitVec.lt_def]
  rcases Nat.lt_trichotomy x.toNat y.toNat with h | h | h
  · rw [if_pos (Nat.le_of_lt h), if_pos h]
  · rw [if_pos (Nat.le_of_eq h), if_neg (by omega), BitVec.eq_of_toNat_eq h]
  · rw [if_neg (by omega), if_neg (by omega)]

theorem maxU_eq (x y : Word) : (if x.toNat ≤ y.toNat then y else x) = if x < y then y else x := by
  simp only [BitVec.lt_def]
  rcases Nat.lt_trichotomy x.toNat y.toNat with h | h | h
  · rw [if_pos (Nat.le_of_lt h), if_pos h]
  · rw [if_pos (Nat.le_of_eq h), if_neg (by omega), BitVec.eq_of_toNat_eq h]
  · rw [if_neg (by omega), if_neg (by omega)]

@[simp] theorem truth_decide (p : Prop) [Decidable p] : truth (decide p) = if p then 1 else 0 := by
  by_cases h : p <;> simp [truth, h]

theorem selCond_iff (s : State) (n : Fin 8) (inv : Bool) : (s.pb n != inv) = true ↔ (s.rp n).getLsbD 0 = !inv := by
  cases inv <;> simp [State.pb]

/-- Settles O3: a comparison's truth value is 1 or 0, and the lesser and the greater of equal sources are one word. -/
theorem integerComparisons : Obligations.IntegerComparisons := by
  intro s d a b
  simp only [exec, execMin, execMax, execMinn, execMaxn, execSeq, execSne, execSlt, execSltn, execSlti, answer_op1, answer_op2, answer_op2n,
    minS_eq, maxS_eq, minU_eq, maxU_eq, truth_decide, BitVec.slt, BitVec.lt_def, ne_eq, ite_not, decide_eq_true_eq,
    BitVec.toInt_signExtend_of_le (show 20 ≤ 64 by decide), implies_true, true_and]
  intro n inv
  simp only [execSel, answer_op2, selCond_iff]

/-! ### Division -/

theorem toInt_eq_minI (x : Word) : x.toInt = minI .i64 ↔ x = 0x8000000000000000 :=
  ⟨fun h => BitVec.eq_of_toInt_eq h, fun h => by rw [h] <;> rfl⟩

theorem toInt_eq_neg_one (x : Word) : x.toInt = -1 ↔ x = -1 := ⟨fun h => BitVec.eq_of_toInt_eq h, fun h => by rw [h] <;> rfl⟩

theorem divU_eq (x y : Word) : divU x y = if y = 0 then 0xFFFFFFFFFFFFFFFF else x / y := by
  have hquot : BitVec.ofNat 64 (x.toNat / y.toNat) = x / y := BitVec.eq_of_toNat_eq (by
    rw [BitVec.toNat_ofNat, BitVec.toNat_udiv]
    exact Nat.mod_eq_of_lt (Nat.lt_of_le_of_lt (Nat.div_le_self _ _) x.isLt))
  rw [divU, hquot] <;> rfl

theorem remU_eq (x y : Word) : remU x y = if y = 0 then x else x % y := by
  have hrem : BitVec.ofNat 64 (x.toNat % y.toNat) = x % y := BitVec.eq_of_toNat_eq (by
    rw [BitVec.toNat_ofNat, BitVec.toNat_umod]
    exact Nat.mod_eq_of_lt (Nat.lt_of_le_of_lt (Nat.mod_le _ _) x.isLt))
  rw [remU, hrem]

/-- Settles O4: the overflow of a signed division is the least dividend over −1 (R123). -/
theorem divisionNeverTraps : Obligations.DivisionNeverTraps := by
  intro s d a b
  simp only [exec, execDiv, execRem, execDivn, execRemn, answer_op2, answer_op2n, divS, remS, divU_eq, remU_eq, toInt_eq_minI,
    toInt_eq_neg_one, and_self, and_true] <;> rfl

/-! ### Bit counts -/

theorem bit_toNat {w : Nat} (x : BitVec w) (i : Nat) : bit x.toNat i = x.getLsbD i := by
  rw [bit, BitVec.getLsbD, Nat.testBit_eq_decide_div_mod_eq] <;> rfl

/-- The first of 64 places with a bit set: 64 where none is. -/
theorem find_range_getD_spec (p : Nat → Bool) :
    ((∀ i < 64, p i = false) → ((List.range 64).find? p).getD 64 = 64)
    ∧ ((∃ i < 64, p i = true) → ((List.range 64).find? p).getD 64 < 64 ∧ p (((List.range 64).find? p).getD 64) = true
        ∧ ∀ i < ((List.range 64).find? p).getD 64, p i = false) := by
  cases h : (List.range 64).find? p with
  | none =>
    have hnone : ∀ i < 64, p i = false := by simpa using h
    refine ⟨fun _ => rfl, fun ⟨i, hi, hp⟩ => ?_⟩
    rw [hnone i hi] at hp
    cases hp
  | some n =>
    obtain ⟨hp, hn, hbelow⟩ := List.find?_range_eq_some.1 h
    have hlt : n < 64 := List.mem_range.1 hn
    have hbelow' : ∀ i < n, p i = false := fun i hi => by simpa using hbelow i hi
    refine ⟨fun hall => ?_, fun _ => ⟨hlt, hp, hbelow'⟩⟩
    rw [hall n hlt] at hp
    cases hp

theorem exists_getLsbD_of_ne_zero {x : Word} (h : x ≠ 0) : ∃ i < 64, x.getLsbD i = true := by
  refine Classical.byContradiction fun hnone => h (BitVec.eq_of_getLsbD_eq fun i hi => ?_)
  simpa using fun ht => hnone ⟨i, hi, ht⟩

theorem popcount_eq (x : Word) : popcount 64 x.toNat = (List.range 64).countP fun i => x.getLsbD i := by
  simp only [popcount, bit_toNat, List.countP_eq_length_filter]

/-- Settles O5: a count of zeros is the first place, from its end, at which a bit is set. -/
theorem bitCounts : Obligations.BitCounts := by
  intro s d a
  simp only [exec, execClz, execCtz, execPopc, answer_op1, clz64, ctz64, popcount_eq, bit_toNat]
  refine ⟨⟨_, rfl, fun hz => ?_, fun hnz => ?_⟩, ⟨_, rfl, fun hz => ?_, fun hnz => ?_⟩, trivial⟩
  · exact (find_range_getD_spec _).1 fun i _ => by simp [hz]
  · obtain ⟨i, hi, hb⟩ := exists_getLsbD_of_ne_zero hnz
    exact (find_range_getD_spec fun i => (s.ri a).getLsbD (63 - i)).2 ⟨63 - i, by omega, by rwa [show 63 - (63 - i) = i by omega]⟩
  · exact (find_range_getD_spec _).1 fun i _ => by simp [hz]
  · exact (find_range_getD_spec _).2 (exists_getLsbD_of_ne_zero hnz)

/-! ### Bit fields -/

theorem bfxW_getLsbD (x : Word) (pos len : Nat) {i : Nat} (hi : i < 64) :
    (bfxW x pos len).getLsbD i = (decide (i < len) && x.getLsbD (pos + i)) := by
  simp only [bfxW, BitVec.getLsbD_ofNat, hi, Nat.testBit_mod_two_pow, Nat.testBit_div_two_pow, decide_true, Bool.true_and,
    Nat.add_comm i pos] <;> rfl

theorem fieldMask_getLsbD (pos len : Nat) {i : Nat} (hi : i < 64) :
    (BitVec.ofNat 64 ((2 ^ len - 1) * 2 ^ pos)).getLsbD i = decide (pos ≤ i ∧ i < pos + len) := by
  simp only [BitVec.getLsbD_ofNat, hi, Nat.testBit_mul_two_pow, Nat.testBit_two_pow_sub_one, decide_true, Bool.true_and]
  by_cases h : pos ≤ i <;> simp [h]; omega

theorem fieldBits_getLsbD (x : Word) (pos len : Nat) {i : Nat} (hi : i < 64) (h : pos ≤ i ∧ i < pos + len) :
    (BitVec.ofNat 64 (x.toNat % 2 ^ len * 2 ^ pos)).getLsbD i = x.getLsbD (i - pos) := by
  simp only [BitVec.getLsbD_ofNat, hi, Nat.testBit_mul_two_pow, Nat.testBit_mod_two_pow, h.1, show i - pos < len by omega, decide_true,
    Bool.true_and] <;> rfl

theorem bfiW_getLsbD (d x : Word) (pos len : Nat) {i : Nat} (hi : i < 64) :
    (bfiW d x pos len).getLsbD i = if pos ≤ i ∧ i < pos + len then x.getLsbD (i - pos) else d.getLsbD i := by
  simp only [bfiW, BitVec.getLsbD_or, BitVec.getLsbD_and, BitVec.getLsbD_not, hi, fieldMask_getLsbD pos len hi]
  by_cases h : pos ≤ i ∧ i < pos + len
  · simp [h, fieldBits_getLsbD x pos len hi h]
  · simp [h]

theorem toSigned_eq_toInt (w n : Nat) : toSigned w n = (BitVec.ofNat w n).toInt := by
  rw [toSigned, BitVec.toInt_eq_toNat_cond, BitVec.toNat_ofNat]
  cases w with
  | zero => simp [Nat.mod_one]
  | succ w =>
    have h : 2 * (n % 2 ^ (w + 1)) < 2 ^ (w + 1) ↔ n % 2 ^ (w + 1) < 2 ^ w := by rw [Nat.pow_succ]; omega
    simp only [h, Nat.add_sub_cancel]

theorem ofInt_toSigned (w : Nat) (x : Word) : BitVec.ofInt 64 (toSigned w x.toNat) = (x.setWidth w).signExtend 64 := by
  rw [toSigned_eq_toInt, BitVec.signExtend]
  congr 2
  exact BitVec.eq_of_toNat_eq (by simp)

/-- Settles O6: BFX and BFI bit by bit, SEXT through `toSigned_eq_toInt`. -/
theorem bitFields : Obligations.BitFields := by
  intro s d a
  simp only [exec, execBfx, execBfi, execSext, answer_op1, sextW, ofInt_toSigned]
  refine ⟨fun pos len1 => ⟨⟨_, rfl, fun i hi => bfxW_getLsbD _ _ _ hi⟩, ⟨_, rfl, fun i hi => bfiW_getLsbD _ _ _ _ hi⟩⟩,
    trivial, trivial, trivial, ?_, ?_, ?_⟩ <;>
  · congr 2
    exact BitVec.eq_of_toNat_eq (by simp)

end Sys2Proof.Machine
end

