-- ==== Sys2Proof/Proofs/Rationals.lean ====
section
/-!
The exact fractions of the formats as rational numbers: each operation and test of `Frac` is that of the rationals where the denominators are
positive, and rounding depends on a fraction's value only.
-/
namespace Sys2Proof.Machine

/-- The rational number that a fraction writes. -/
def Frac.val (a : Frac) : Rat := a.num / a.den

/-- The comparison of two rational numbers. -/
def ratCmp (p q : Rat) : Ordering := if p < q then .lt else if q < p then .gt else .eq

theorem ratCmp_eq_lt {p q : Rat} : ratCmp p q = .lt ↔ p < q := by grind [ratCmp]

theorem ratCmp_eq_gt {p q : Rat} : ratCmp p q = .gt ↔ q < p := by grind [ratCmp]

theorem ratCmp_eq_eq {p q : Rat} : ratCmp p q = .eq ↔ p = q := by grind [ratCmp]

namespace Frac

/-! ### Denominators -/

theorem pow2_den_pos (k : Int) : 0 < (pow2 k).den := by
  unfold pow2
  split
  · exact Nat.one_pos
  · exact Nat.two_pow_pos _

theorem scaled_den_pos (m : Nat) (k : Int) : 0 < (scaled m k).den := by
  unfold scaled
  split
  · exact Nat.one_pos
  · exact Nat.two_pow_pos _

theorem mul_den_pos {a b : Frac} (ha : 0 < a.den) (hb : 0 < b.den) : 0 < (a.mul b).den := Nat.mul_pos ha hb

theorem add_den_pos {a b : Frac} (ha : 0 < a.den) (hb : 0 < b.den) : 0 < (a.add b).den := by
  unfold add
  split
  · exact ha
  · split
    · exact hb
    · split
      · exact ha
      · exact Nat.mul_pos ha hb

theorem sub_den_pos {a b : Frac} (ha : 0 < a.den) (hb : 0 < b.den) : 0 < (a.sub b).den := add_den_pos ha (b := b.neg) hb

/-! ### Values -/

theorem den_ne_zero {a : Frac} (ha : 0 < a.den) : (a.den : Rat) ≠ 0 := by exact_mod_cast Nat.ne_of_gt ha

theorem den_cast_pos {a : Frac} (ha : 0 < a.den) : (0 : Rat) < a.den := by exact_mod_cast ha

theorem val_mul_den {a : Frac} (ha : 0 < a.den) : a.val * a.den = a.num := Rat.div_mul_cancel (den_ne_zero ha)

@[simp] theorem val_int (x : Int) : (int x).val = x := by
  have h := val_mul_den (a := int x) Nat.one_pos
  rwa [show (((int x).den : Nat) : Rat) = 1 from rfl, Rat.mul_one] at h

theorem val_scaled (m : Nat) (k : Int) : (scaled m k).val = m * (2 : Rat) ^ k := by
  have h := val_mul_den (scaled_den_pos m k)
  unfold scaled at h ⊢
  split at h
  next hk =>
    obtain ⟨n, rfl⟩ := Int.eq_ofNat_of_zero_le hk
    rw [if_pos hk]
    simp only [Int.toNat_natCast, Rat.intCast_natCast, Rat.natCast_mul, Rat.natCast_pow, Rat.natCast_ofNat] at h ⊢
    rw [Rat.zpow_natCast]
    grind
  next hk =>
    obtain ⟨n, hn⟩ := Int.eq_ofNat_of_zero_le (show 0 ≤ -k by omega)
    obtain rfl : k = -(n : Int) := by omega
    rw [if_neg hk, Rat.zpow_neg, Rat.zpow_natCast, ← Rat.div_def]
    simp only [val, Int.neg_neg, Int.toNat_natCast, Rat.intCast_natCast, Rat.natCast_pow, Rat.natCast_ofNat]

theorem val_pow2 (k : Int) : (pow2 k).val = (2 : Rat) ^ k := by
  have h : pow2 k = scaled 1 k := by simp only [pow2, scaled, Nat.one_mul]; rfl
  rw [h, val_scaled, show ((1 : Nat) : Rat) = 1 from rfl, Rat.one_mul]

@[simp] theorem val_mul (a b : Frac) : (a.mul b).val = a.val * b.val := by
  simp only [val, mul, Rat.intCast_mul, Rat.natCast_mul]
  grind

@[simp] theorem val_neg (a : Frac) : a.neg.val = -a.val := by
  simp only [val, neg, Rat.intCast_neg]
  grind

theorem val_nonneg_iff {a : Frac} (ha : 0 < a.den) : 0 ≤ a.val ↔ 0 ≤ a.num := by
  have hd := den_cast_pos ha
  rw [← Rat.intCast_nonneg, ← val_mul_den ha]
  exact ⟨fun h => Rat.mul_nonneg h (Rat.le_of_lt hd), fun h => Rat.le_of_mul_le_mul_right (by rwa [Rat.zero_mul]) hd⟩

theorem val_abs {a : Frac} (ha : 0 < a.den) : a.abs.val = a.val.abs := by
  rcases Int.le_total 0 a.num with h | h
  · rw [Rat.abs_of_nonneg ((val_nonneg_iff ha).2 h), abs, Int.natAbs_of_nonneg h]
  · have hneg : 0 ≤ a.neg.val := (val_nonneg_iff (a := a.neg) ha).2 (Int.neg_nonneg_of_nonpos h)
    rw [val_neg] at hneg
    rw [← Rat.abs_neg, Rat.abs_of_nonneg hneg, ← val_neg, abs, neg, Int.ofNat_natAbs_of_nonpos h]

theorem val_add {a b : Frac} (ha : 0 < a.den) (hb : 0 < b.den) : (a.add b).val = a.val + b.val := by
  have ha' := den_ne_zero ha
  have hb' := den_ne_zero hb
  unfold add
  split
  next h =>
    simp only [val, Rat.intCast_add, h]
    grind
  next =>
    split
    next hd =>
      obtain ⟨k, hk⟩ := Nat.dvd_of_mod_eq_zero hd
      simp only [val, hk, Nat.mul_div_cancel_left k ha, Rat.intCast_add, Rat.intCast_mul, Rat.intCast_natCast, Rat.natCast_mul] at hb' ⊢
      grind
    next =>
      split
      next hd =>
        obtain ⟨k, hk⟩ := Nat.dvd_of_mod_eq_zero hd
        simp only [val, hk, Nat.mul_div_cancel_left k hb, Rat.intCast_add, Rat.intCast_mul, Rat.intCast_natCast, Rat.natCast_mul] at ha' ⊢
        grind
      next =>
        simp only [val, Rat.intCast_add, Rat.intCast_mul, Rat.intCast_natCast, Rat.natCast_mul]
        grind

theorem val_sub {a b : Frac} (ha : 0 < a.den) (hb : 0 < b.den) : (a.sub b).val = a.val - b.val := by
  rw [sub, val_add ha (b := b.neg) hb, val_neg, Rat.sub_eq_add_neg]

/-! ### Tests -/

theorem le_iff {a b : Frac} (ha : 0 < a.den) (hb : 0 < b.den) : a.le b = true ↔ a.val ≤ b.val := by
  have hpos := Rat.mul_pos (den_cast_pos ha) (den_cast_pos hb)
  have ha' := val_mul_den ha
  have hb' := val_mul_den hb
  rw [le, decide_eq_true_eq, ← Rat.intCast_le_intCast, Rat.intCast_mul, Rat.intCast_mul, Rat.intCast_natCast, Rat.intCast_natCast, ← ha',
    ← hb', show a.val * a.den * b.den = a.val * (a.den * b.den) by grind, show b.val * b.den * a.den = b.val * (a.den * b.den) by grind]
  exact ⟨fun h => Rat.le_of_mul_le_mul_right h hpos, fun h => Rat.mul_le_mul_of_nonneg_right h (Rat.le_of_lt hpos)⟩

theorem lt_iff {a b : Frac} (ha : 0 < a.den) (hb : 0 < b.den) : a.lt b = true ↔ a.val < b.val := by
  have h := le_iff hb ha
  rw [le, decide_eq_true_eq] at h
  rw [lt, decide_eq_true_eq, ← Int.not_le, h, Rat.not_le]

theorem eq_iff {a b : Frac} (ha : 0 < a.den) (hb : 0 < b.den) : a.eq b = true ↔ a.val = b.val := by
  have hab := le_iff ha hb
  have hba := le_iff hb ha
  rw [le, decide_eq_true_eq] at hab hba
  rw [eq, decide_eq_true_eq, Rat.le_antisymm_iff, ← hab, ← hba]
  omega

theorem isNeg_iff {a : Frac} (ha : 0 < a.den) : a.isNeg = true ↔ a.val < 0 := by
  rw [isNeg, decide_eq_true_eq, ← Int.not_le, ← val_nonneg_iff ha, Rat.not_le]

theorem num_eq_zero_iff {a : Frac} (ha : 0 < a.den) : a.num = 0 ↔ a.val = 0 := by
  have h := eq_iff ha (b := int 0) Nat.one_pos
  rw [val_int, eq, decide_eq_true_eq, int, Int.zero_mul, Int.natCast_one, Int.mul_one] at h
  exact h

theorem cmp_eq_ratCmp {a b : Frac} (ha : 0 < a.den) (hb : 0 < b.den) : a.cmp b = ratCmp a.val b.val := by
  simp only [cmp, ratCmp, lt_iff ha hb, lt_iff hb ha]

end Frac

/-! ### Magnitudes of codes -/

theorem ieeeMag_den_pos (t : Ty) (m : Nat) : 0 < (ieeeMag t m).den := by
  unfold ieeeMag
  dsimp only
  split <;> exact Frac.scaled_den_pos _ _

theorem taperedMag_den_pos (w m : Nat) : 0 < (taperedMag w m).den := by
  unfold taperedMag
  dsimp only
  split
  · exact Frac.scaled_den_pos _ _
  · exact Frac.pow2_den_pos _

theorem magVal_den_pos (t : Ty) (m : Nat) : 0 < (magVal t m).den := by
  unfold magVal
  split
  · exact Nat.one_pos
  · split
    · exact taperedMag_den_pos _ _
    · exact ieeeMag_den_pos _ _

theorem virtV_den_pos (t : Ty) : 0 < (virtV t).den := by
  unfold virtV
  split
  · exact Frac.pow2_den_pos _
  · exact Frac.pow2_den_pos _
  · exact ieeeMag_den_pos _ _

/-! ### Rounding depends on the value only -/

theorem searchMag_congr (t : Ty) {p q : Frac} (hp : 0 < p.den) (hq : 0 < q.den) (h : p.val = q.val) (i m : Nat) :
    searchMag t p i m = searchMag t q i m := by
  induction i generalizing m with
  | zero => rfl
  | succ i ih =>
    have hle : (magVal t (m + 2 ^ i)).le p = (magVal t (m + 2 ^ i)).le q := by
      rw [Bool.eq_iff_iff, Frac.le_iff (magVal_den_pos _ _) hp, Frac.le_iff (magVal_den_pos _ _) hq, h]
    simp only [searchMag, hle, ih]

/-- Two spellings of one value round alike. -/
theorem round_congr (t : Ty) (rm : RMode) {x y : Frac} (hx : 0 < x.den) (hy : 0 < y.den) (h : x.val = y.val) :
    round t rm x = round t rm y := by
  have hxa : 0 < x.abs.den := hx
  have hya : 0 < y.abs.den := hy
  have hval : x.abs.val = y.abs.val := by rw [Frac.val_abs hx, Frac.val_abs hy, h]
  have hneg : x.isNeg = y.isNeg := by rw [Bool.eq_iff_iff, Frac.isNeg_iff hx, Frac.isNeg_iff hy, h]
  have hle {a : Frac} (ha : 0 < a.den) : a.le x.abs = a.le y.abs := by
    rw [Bool.eq_iff_iff, Frac.le_iff ha hxa, Frac.le_iff ha hya, hval]
  have heq {a : Frac} (ha : 0 < a.den) : a.eq x.abs = a.eq y.abs := by
    rw [Bool.eq_iff_iff, Frac.eq_iff ha hxa, Frac.eq_iff ha hya, hval]
  have hlt {a : Frac} (ha : 0 < a.den) : x.abs.lt a = y.abs.lt a := by
    rw [Bool.eq_iff_iff, Frac.lt_iff hxa ha, Frac.lt_iff hya ha, hval]
  have hcmp {a b : Frac} (ha : 0 < a.den) (hb : 0 < b.den) : (x.abs.sub a).cmp (b.sub x.abs) = (y.abs.sub a).cmp (b.sub y.abs) := by
    rw [Frac.cmp_eq_ratCmp (Frac.sub_den_pos hxa ha) (Frac.sub_den_pos hb hxa),
      Frac.cmp_eq_ratCmp (Frac.sub_den_pos hya ha) (Frac.sub_den_pos hb hya), Frac.val_sub hxa ha, Frac.val_sub hb hxa,
      Frac.val_sub hya ha, Frac.val_sub hb hya, hval]
  have hhi (m : Nat) : 0 < (if m = maxFCode t then virtV t else magVal t (m + 1)).den := by
    split
    · exact virtV_den_pos t
    · exact magVal_den_pos t _
  simp only [round, hneg, hle (virtV_den_pos t), searchMag_congr t hxa hya hval, heq (magVal_den_pos t _),
    hcmp (magVal_den_pos t _) (hhi _), hlt (magVal_den_pos t _)]

end Sys2Proof.Machine
end

