-- ==== Sys2Proof/Proofs/FloatingOps.lean ====
section
/-!
Scalar floating point (R113, R126 to R130): arithmetic on finite values and infinities, minima, maxima and comparisons of codes, the
conversion under FMT, and O7, O8 and O10.
-/
namespace Sys2Proof.Machine

/-! ### Arithmetic on finite values and infinities -/

/-- A finite nonzero value is rounded once, to nearest even. -/
theorem roundNE_fin {t : Ty} (h : t.isInt = false) (q : Frac) : roundNE t (.fin q) = round t .ne q := by
  simp only [roundNE, convert, h, Bool.false_eq_true, if_false]

/-- An exact sum is rounded once; an exact zero is +0 (R127). -/
theorem roundNE_ofFrac (t : FpTy) {q r : Frac} (hq : 0 < q.den) (hr : 0 < r.den) (h : q.val = r.val) :
    roundNE t.ty (FVal.ofFrac q) = if r.num = 0 then ⟨0, 0⟩ else round t.ty .ne r := by
  have hzero : q.num = 0 ↔ r.num = 0 := by rw [Frac.num_eq_zero_iff hq, Frac.num_eq_zero_iff hr, h]
  simp only [FVal.ofFrac, Frac.isZero, decide_eq_true_eq, hzero]
  split
  · exact roundNE_zero (isInt_ty t) false
  · rw [roundNE_fin (isInt_ty t), round_congr _ _ hq hr h]

/-- The sum over the product of the denominators, as the statements write it. -/
theorem val_crossSum {p q : Frac} (hp : 0 < p.den) (hq : 0 < q.den) :
    (p.add q).val = (⟨p.num * q.den + q.num * p.den, p.den * q.den⟩ : Frac).val := by
  have hp' := Frac.den_ne_zero hp
  have hq' := Frac.den_ne_zero hq
  rw [Frac.val_add hp hq]
  simp only [Frac.val, Rat.intCast_add, Rat.intCast_mul, Rat.intCast_natCast, Rat.natCast_mul]
  grind

theorem val_zero_one : (⟨0, 1⟩ : Frac).val = 0 := Frac.val_int 0

theorem val_add_zero {p : Frac} (hp : 0 < p.den) : (p.add ⟨0, 1⟩).val = p.val := by
  rw [Frac.val_add hp Nat.one_pos, val_zero_one, Rat.add_zero]

theorem val_zero_add {p : Frac} (hp : 0 < p.den) : ((⟨0, 1⟩ : Frac).add p).val = p.val := by
  rw [Frac.val_add Nat.one_pos hp, val_zero_one, Rat.zero_add]

theorem addVal_fin_fin (t : FpTy) {p q : Frac} (hp : 0 < p.den) (hq : 0 < q.den) :
    addVal t.ty (.fin p) (.fin q) = if p.num * q.den + q.num * p.den = 0 then ⟨0, 0⟩
      else round t.ty .ne ⟨p.num * q.den + q.num * p.den, p.den * q.den⟩ :=
  roundNE_ofFrac t (Frac.add_den_pos hp hq) (Nat.mul_pos hp hq) (val_crossSum hp hq)

theorem addVal_fin_zero (t : FpTy) {p : Frac} (hp : 0 < p.den) (h : p.num ≠ 0) (n : Bool) :
    addVal t.ty (.fin p) (.zero n) = round t.ty .ne p :=
  (roundNE_ofFrac t (Frac.add_den_pos hp Nat.one_pos) hp (val_add_zero hp)).trans (if_neg h)

theorem addVal_zero_fin (t : FpTy) {p : Frac} (hp : 0 < p.den) (h : p.num ≠ 0) (n : Bool) :
    addVal t.ty (.zero n) (.fin p) = round t.ty .ne p :=
  (roundNE_ofFrac t (Frac.add_den_pos Nat.one_pos hp) hp (val_zero_add hp)).trans (if_neg h)

theorem addVal_inf_inf (t : Ty) (n : Bool) : addVal t (.inf n) (.inf n) = ⟨infCode t n, 0⟩ := by cases n <;> rfl

/-- Settles O7: every op is the scalar completion of its result (`fpDone_eq`), and arithmetic is one rounding of the exact value. -/
theorem floatingArithmetic : Obligations.FloatingArithmetic := by
  intro s t d a b x y
  refine ⟨fpDone_eq .., fpDone_eq .., fpDone_eq .., fpDone_eq .., fpDone_eq .., fpDone_eq .., fpDone_eq .., fpDone_eq .., fpDone_eq ..,
    fun m => fpDone_eq .., ?_⟩
  intro p q r hp hq hr hp0 hq0 hr0 sum prod once inf
  have hprod0 : prod.num ≠ 0 := Int.mul_ne_zero hp0 hq0
  have hprod : 0 < prod.den := Nat.mul_pos hp hq
  refine ⟨addVal_fin_fin t hp hq, roundNE_fin (isInt_ty t) prod, addVal_fin_fin t hprod hr, fun n m => ⟨addVal_fin_zero t hp hp0 n,
    addVal_zero_fin t hp hp0 n, addVal_fin_zero t hprod hprod0 _, addVal_zero_fin t hr hr0 _, addVal_zero_fin t hr hr0 _, rfl, rfl,
    addVal_inf_inf t.ty n, rfl, ?_, rfl⟩⟩
  show (⟨infCode t.ty (p.isNeg != n), 0⟩ : Rnd) = _
  rw [bne_comm] <;> rfl

/-! ### FCVT and FCLASS -/

theorem State.flagsQuiet_core {s : State} {c : Fin 32} {k : Fin 8} (hc : s.cur = .core c k) (fl : BitVec 5) : s.flagsQuiet fl := by
  simp only [State.flagsQuiet, hc]

theorem State.flagsQuiet_thr {s : State} {u : Tid} (hu : s.cur = .thr u) (fl : BitVec 5) :
    s.flagsQuiet fl ↔ (s.thread u).fmt.extractLsb' 19 5 &&& fl = 0 := by
  simp only [State.flagsQuiet, hu]

theorem State.fpDone_core {s : State} {c : Fin 32} {k : Fin 8} (hc : s.cur = .core c k) (n : Nat) (d : Opd) (r : Rnd) :
    s.fpDone n d r = ((s.wr n d (BitVec.ofNat 64 r.code)).raise n r.fl).done := by
  simp only [State.fpDone, hc]

theorem State.fpDone_thr {s : State} {u : Tid} (hu : s.cur = .thr u) (n : Nat) (d : Opd) (r : Rnd) :
    s.fpDone n d r = if (s.thread u).fmt.extractLsb' 19 5 &&& r.fl = 0 then ((s.wr n d (BitVec.ofNat 64 r.code)).raise n r.fl).done
      else trapRes s 0x19 r.fl.toNat := by
  simp only [State.fpDone, hu, ten_eq]

theorem fpDone_of_quiet {s : State} {r : Rnd} (h : s.flagsQuiet r.fl) (n : Nat) (d : Fin 64) :
    s.fpDone n (.sx d) r = .ok (s.withScalarFp n d r.code r.fl) := by
  have hok : ∃ t, s.fpDone n (.sx d) r = .ok t := by
    cases hc : s.cur with
    | core c k => exact ⟨_, State.fpDone_core hc n _ r⟩
    | thr u => exact ⟨_, (State.fpDone_thr hc n _ r).trans (if_pos ((State.flagsQuiet_thr hc _).1 h))⟩
  obtain ⟨t, ht⟩ := hok
  have hnext : answer (.ok t) = .next (s.withScalarFp n d r.code r.fl) := ht ▸ (fpDone_eq s n d r).1 h
  rw [ht, Host.Outcome.next.inj hnext]

theorem fpDone_of_not_quiet {s : State} {r : Rnd} (h : ¬ s.flagsQuiet r.fl) (n : Nat) (d : Fin 64) :
    s.fpDone n (.sx d) r = trapRes s 0x19 r.fl.toNat := by
  cases hc : s.cur with
  | core c k => exact absurd (State.flagsQuiet_core hc _) h
  | thr u => exact (State.fpDone_thr hc n _ r).trans (if_neg (mt (State.flagsQuiet_thr hc _).2 h))

/-- The trap of enabled flags, with the flags in TVAL (R113). -/
theorem answer_trapRes_flags (s : State) (fl : BitVec 5) :
    answer (trapRes s 0x19 fl.toNat) = .next (s.takeTrap s.cur ⟨0x19, fl.setWidth 64⟩) := by
  rw [← BitVec.ofNat_toNat] <;> rfl

/-- TEN is the thread's own, which a draw does not touch. -/
theorem State.setGen_flagsQuiet (s : State) (g : Word × Word) (fl : BitVec 5) : (s.setGen g).flagsQuiet fl ↔ s.flagsQuiet fl := by
  unfold State.setGen State.flagsQuiet
  cases h : s.cur with
  | core c k => simp only [State.modArch_cur, h]
  | thr u => simp only [State.modThread_cur, h, State.thread_modThread_same]

/-- An op that draws completes with its generator moved on, or traps with the generator as it was (R113). -/
theorem answer_drawn {s s' : State} (r : Rnd) (n : Nat) (d : Fin 64) (hq : s'.flagsQuiet r.fl ↔ s.flagsQuiet r.fl) :
    let o := answer (match s'.fpDone n (.sx d) r with
      | .ok q => .ok q
      | .error f => .error { f with st := s })
    (s.flagsQuiet r.fl → o = .next (s'.withScalarFp n d r.code r.fl))
    ∧ (¬ s.flagsQuiet r.fl → o = .next (s.takeTrap s.cur ⟨0x19, r.fl.setWidth 64⟩)) := by
  refine ⟨fun h => ?_, fun h => ?_⟩
  · rw [fpDone_of_quiet (hq.2 h)] <;> rfl
  · rw [fpDone_of_not_quiet (mt hq.1 h)]
    exact answer_trapRes_flags s r.fl

theorem execFcvt_of_not_stoch {s : State} {t2 t1 : Ty} {d : Fin 64} {a : Opd}
    (h : (s.fmt.getLsbD 17 && !t2.isInt && narrowing t1 t2) = false) :
    execFcvt t2 t1 (.sx d) a s = answer (match s.fpDone 4 (.sx d)
        ⟨convWord t2 (convert t2 (rmodeOf (s.fmt.extractLsb' 15 2).toNat) (decode t1 ((s.rd t1 a).toNat % 2 ^ width t1))).code,
          (convert t2 (rmodeOf (s.fmt.extractLsb' 15 2).toNat) (decode t1 ((s.rd t1 a).toNat % 2 ^ width t1))).fl⟩ with
      | .ok q => .ok q
      | .error f => .error { f with st := s }) := by
  have hr : bits s.fmt.toNat 16 15 = (s.fmt.extractLsb' 15 2).toNat := bits_toNat_eq_extractLsb' s.fmt 15 1
  simp only [execFcvt, convertFmt, bit_toNat, hr, h, Bool.false_eq_true, if_false] <;> rfl

theorem execFcvt_of_stoch {s : State} {t2 t1 : Ty} {d : Fin 64} {a : Opd}
    (h : (s.fmt.getLsbD 17 && !t2.isInt && narrowing t1 t2) = true) :
    let g := genStep s.gen.1 s.gen.2
    let r := roundStoch t2 (decode t1 ((s.rd t1 a).toNat % 2 ^ width t1)) (g.1.setWidth 32).toNat
    execFcvt t2 t1 (.sx d) a s = answer (match (s.setGen g.2).fpDone 4 (.sx d) ⟨convWord t2 r.code, r.fl⟩ with
      | .ok q => .ok q
      | .error f => .error { f with st := s }) := by
  have hdraw (x : Word) : drawOf [x] 0 = (x.setWidth 32).toNat := by simp [drawOf]
  simp only [execFcvt, convertFmt, bit_toNat, h, if_true, State.genNext, hdraw] <;> rfl

theorem fpClass_eq (t : Ty) (x : Nat) : BitVec.ofNat 64 (fpClass t x) = (match decode t x with
    | .inf true => 1
    | .inf false => 0x80
    | .zero true => 0x08
    | .zero false => 0x10
    | .nan true => 0x100
    | .nan false => 0x200
    | .fin q =>
      if q.abs.lt (magVal t (minNCode t)) then (if q.isNeg then 0x04 else 0x20)
      else if q.isNeg then 0x02 else 0x40 : Word) := by
  unfold fpClass
  cases decode t x with
  | nan n => cases n <;> rfl
  | inf n => cases n <;> rfl
  | zero n => cases n <;> rfl
  | fin q =>
    dsimp only
    cases q.isNeg <;> cases q.abs.lt (magVal t (minNCode t)) <;> rfl

/-- Settles O8: FCVT is the completion of its conversion, drawn where FMT says so; FCLASS raises nothing. -/
theorem conversionAndClass : Obligations.ConversionAndClass := by
  intro s d a
  refine ⟨?fcvt, fun t => (answer_result ..).trans (by rw [fpClass_eq] <;> rfl)⟩
  intro t2 t1 v stoch
  constructor
  · intro h r
    have hx : exec (.fcvt t2 t1 (.sx d) a) s = _ := execFcvt_of_not_stoch h
    rw [FpStep, hx]
    exact answer_drawn (s := s) (s' := s) ⟨convWord t2 r.code, r.fl⟩ 4 d Iff.rfl
  · intro h g r
    have hx : exec (.fcvt t2 t1 (.sx d) a) s = _ := execFcvt_of_stoch h
    rw [hx]
    exact answer_drawn (s := s) (s' := s.setGen g.2) ⟨convWord t2 r.code, r.fl⟩ 4 d (s.setGen_flagsQuiet _ _)

/-! ### Minima, maxima and comparisons (R128) -/

/-- Of two values that are no NaN, the first is the lesser: infinities at the ends, zeros as 0. -/
def FVal.Less (v w : FVal) : Prop :=
  match v, w with
  | .inf n, .inf m => n = true ∧ m = false
  | .inf n, _ => n = true
  | _, .inf m => m = false
  | v, w => v.real.num * w.real.den < w.real.num * v.real.den

theorem Frac.cmp_eq_lt_iff (a b : Frac) : a.cmp b = .lt ↔ a.num * b.den < b.num * a.den := by
  simp only [Frac.cmp, Frac.lt, decide_eq_true_eq]
  split
  next h => exact ⟨fun _ => h, fun _ => rfl⟩
  next h => split <;> exact ⟨nofun, fun h' => absurd h' h⟩

theorem Frac.cmp_eq_gt_iff (a b : Frac) : a.cmp b = .gt ↔ b.num * a.den < a.num * b.den := by
  simp only [Frac.cmp, Frac.lt, decide_eq_true_eq]
  split
  next h => exact ⟨nofun, fun h' => absurd h (Int.lt_asymm h')⟩
  next =>
    split
    next h => exact ⟨fun _ => h, fun _ => rfl⟩
    next h => exact ⟨nofun, fun h' => absurd h' h⟩

theorem cmpVal_eq_lt_iff {v w : FVal} (hv : v.isNan = false) (hw : w.isNan = false) : cmpVal v w = .lt ↔ v.Less w := by
  cases v with
  | nan n => cases hv
  | inf n =>
    cases w with
    | nan m => cases hw
    | inf m => cases n <;> cases m <;> simp [cmpVal, FVal.Less]
    | zero m | fin q => cases n <;> simp [cmpVal, FVal.Less]
  | zero n | fin q =>
    cases w with
    | nan m => cases hw
    | inf m => cases m <;> simp [cmpVal, FVal.Less]
    | zero m | fin r => exact Frac.cmp_eq_lt_iff _ _

theorem cmpVal_eq_gt_iff {v w : FVal} (hv : v.isNan = false) (hw : w.isNan = false) : cmpVal v w = .gt ↔ w.Less v := by
  cases v with
  | nan n => cases hv
  | inf n =>
    cases w with
    | nan m => cases hw
    | inf m => cases n <;> cases m <;> simp [cmpVal, FVal.Less]
    | zero m | fin q => cases n <;> simp [cmpVal, FVal.Less]
  | zero n | fin q =>
    cases w with
    | nan m => cases hw
    | inf m => cases m <;> simp [cmpVal, FVal.Less]
    | zero m | fin r => exact Frac.cmp_eq_gt_iff _ _

theorem FVal.isNan_iff (v : FVal) : v.isNan = true ↔ v = .nan true ∨ v = .nan false := by
  cases v with
  | nan n => cases n <;> simp [FVal.isNan]
  | inf n | zero n | fin q => simp [FVal.isNan]

theorem sigFlag_or (v w : FVal) : sigFlag v ||| sigFlag w = if v = .nan true ∨ w = .nan true then 16 else 0 := by
  rw [sigFlag_eq_ite, sigFlag_eq_ite, invalid_or_invalid]

theorem ltSigned_of_less {v w : FVal} (hv : v.isNan = false) (hw : w.isNan = false) (h : v.Less w) :
    ltSigned v w = true ∧ ltSigned w v = false := by
  rw [ltSigned, ltSigned, (cmpVal_eq_lt_iff hv hw).2 h, (cmpVal_eq_gt_iff hw hv).2 h]
  exact ⟨rfl, rfl⟩

section
variable {t : Ty} {a b : Nat}

theorem minMaxCode_numbers (ha : a < 2 ^ width t) (hb : b < 2 ^ width t) (hA : (decode t a).isNan = false) (hB : (decode t b).isNan = false)
    (mx : Bool) :
    minMaxCode t mx a b = ⟨if mx then (if ltSigned (decode t a) (decode t b) then b else a)
      else if ltSigned (decode t b) (decode t a) then b else a, 0⟩ := by
  have hfl : sigFlag (decode t a) ||| sigFlag (decode t b) = 0 := by
    rw [sigFlag_or, if_neg]
    rintro (h | h)
    · rw [h] at hA; cases hA
    · rw [h] at hB; cases hB
  have hmod (p : Bool) : (if p then b else a) % 2 ^ width t = if p then b else a := by
    cases p
    · exact Nat.mod_eq_of_lt ha
    · exact Nat.mod_eq_of_lt hb
  simp only [minMaxCode, hA, hB, hfl, hmod, Bool.and_self, Bool.false_eq_true, if_false]
  cases mx <;> rfl

theorem fpCmp_nan (h : ((decode t a).isNan || (decode t b).isNan) = true) :
    let sig : BitVec 5 := sigFlag (decode t a) ||| sigFlag (decode t b)
    fpCmp t .lt a b = (false, 16) ∧ fpCmp t .le a b = (false, 16) ∧ fpCmp t .eq a b = (false, sig) ∧ fpCmp t .gt a b = (false, 16)
    ∧ fpCmp t .ge a b = (false, 16) ∧ fpCmp t .ne a b = (true, sig) ∧ fpCmp t .un a b = (true, sig) ∧ fpCmp t .or a b = (false, sig) := by
  simp only [fpCmp, h, Bool.not_true, Bool.false_and, Bool.true_or, if_true, and_self]

theorem fpCmp_numbers (hA : (decode t a).isNan = false) (hB : (decode t b).isNan = false) (c : CmpC) :
    fpCmp t c a b = (match c with
      | .eq => cmpVal (decode t a) (decode t b) == .eq
      | .ne => cmpVal (decode t a) (decode t b) != .eq
      | .lt => cmpVal (decode t a) (decode t b) == .lt
      | .le => cmpVal (decode t a) (decode t b) != .gt
      | .gt => cmpVal (decode t a) (decode t b) == .gt
      | .ge => cmpVal (decode t a) (decode t b) != .lt
      | .un => false
      | .or => true, 0) := by
  have hfl : sigFlag (decode t a) ||| sigFlag (decode t b) = 0 := by
    rw [sigFlag_or, if_neg]
    rintro (h | h)
    · rw [h] at hA; cases hA
    · rw [h] at hB; cases hB
  simp only [fpCmp, hA, hB, hfl, Bool.or_self, Bool.not_false, Bool.true_and, Bool.false_or, Bool.false_eq_true, if_false]
  cases c <;> rfl

end

/-- Settles O10: a NaN operand is sorted out first; of two numbers `cmpVal` decides, which is `FVal.Less` or its converse. -/
theorem numberWins : Obligations.NumberWins := by
  intro t a b ha hb va vb sig nanA nanB real less answers
  have hless (v w : FVal) : less v w ↔ v.Less w := by cases v <;> cases w <;> exact Iff.rfl
  have hsig : sigFlag va ||| sigFlag vb = sig := sigFlag_or va vb
  have hA : va.isNan = true ↔ nanA := va.isNan_iff
  have hB : vb.isNan = true ↔ nanB := vb.isNan_iff
  have hA' : ¬ nanA → va.isNan = false := fun h => Bool.eq_false_iff.2 (mt hA.1 h)
  have hB' : ¬ nanB → vb.isNan = false := fun h => Bool.eq_false_iff.2 (mt hB.1 h)
  have hnan (h : nanA ∨ nanB) := fpCmp_nan (t := t.ty) (a := a) (b := b) (Bool.or_eq_true_iff.2 (h.imp hA.2 hB.2))
  rw [hsig] at hnan
  refine ⟨fun mx => ⟨fun ⟨h, h'⟩ => ?bothNan, fun ⟨h, h'⟩ => ?leftNan, fun ⟨h, h'⟩ => ?rightNan, fun ⟨h, h'⟩ => ?noNan⟩,
    by cases t <;> rfl, by cases t <;> rfl, by cases t <;> rfl, by cases t <;> rfl, fun h => ?ordered, fun h => ?others,
    fun ⟨h, h'⟩ => ?numbers, by cases t <;> rfl⟩
  case bothNan => simp only [minMaxCode, hA.2 h, hB.2 h', hsig, Bool.and_self, if_true, nanRnd, va, vb]
  case leftNan =>
    simp only [minMaxCode, hA.2 h, hB' h', hsig, Bool.and_false, Bool.false_eq_true, if_false, if_true, Nat.mod_eq_of_lt hb, va, vb]
  case rightNan =>
    simp only [minMaxCode, hA' h, hB.2 h', hsig, Bool.and_true, Bool.false_eq_true, if_false, if_true, Nat.mod_eq_of_lt ha, va, vb]
  case noNan =>
    rw [minMaxCode_numbers ha hb (hA' h) (hB' h')]
    refine ⟨rfl, ?_⟩
    dsimp only
    split <;> split <;> simp
  case ordered =>
    obtain ⟨hlt, hle, heq, -⟩ := hnan h
    exact ⟨hlt, hle, heq⟩
  case others =>
    obtain ⟨-, -, -, hgt, hge, hne, hun, hor⟩ := hnan h
    exact ⟨hgt, hge, hne, hun, hor⟩
  case numbers =>
    have hcmp := fpCmp_numbers (hA' h) (hB' h')
    have hmm := minMaxCode_numbers ha hb (hA' h) (hB' h')
    simp only [hless, ← cmpVal_eq_lt_iff (hA' h) (hB' h'), ← cmpVal_eq_gt_iff (hA' h) (hB' h'), answers]
    refine ⟨hcmp .un, hcmp .or, fun hlt => ?less, fun hgt => ?greater, fun ⟨hnlt, hngt⟩ => ?equal⟩
    case less =>
      obtain ⟨hs, hs'⟩ := ltSigned_of_less (hA' h) (hB' h') ((cmpVal_eq_lt_iff (hA' h) (hB' h')).1 hlt)
      simp only [va, vb] at hlt hs hs'
      simp [hcmp, hmm, hlt, hs, hs']
    case greater =>
      obtain ⟨hs, hs'⟩ := ltSigned_of_less (hB' h') (hA' h) ((cmpVal_eq_gt_iff (hA' h) (hB' h')).1 hgt)
      simp only [va, vb] at hgt hs hs'
      simp [hcmp, hmm, hgt, hs, hs']
    case equal =>
      have heq : cmpVal (decode t.ty a) (decode t.ty b) = .eq := by
        cases hc : cmpVal (decode t.ty a) (decode t.ty b) with
        | lt => exact absurd hc hnlt
        | gt => exact absurd hc hngt
        | eq => rfl
      simp [hcmp, heq]

end Sys2Proof.Machine
end

