-- ==== Sys2Proof/Proofs/Rounding.lean ====
section
/-!
Rounding to nearest (R105): the magnitudes of a type rise with their codes, the search finds the last one that is not above the value,
and O11.
-/
namespace Sys2Proof.Machine

/-- The value of magnitude code m. -/
def mag (t : Ty) (m : Nat) : Rat := (magVal t m).val

/-! ### Magnitudes rise with their codes -/

theorem ieeeMag_val (t : Ty) (m : Nat) :
    (ieeeMag t m).val = if m / 2 ^ (fracBias t).1 = 0 then ((m % 2 ^ (fracBias t).1 : Nat) : Rat) * 2 ^ (1 - (fracBias t).2 - (fracBias t).1)
      else ((2 ^ (fracBias t).1 + m % 2 ^ (fracBias t).1 : Nat) : Rat)
        * 2 ^ ((m / 2 ^ (fracBias t).1 : Nat) - (fracBias t).2 - (fracBias t).1) := by
  unfold ieeeMag
  dsimp only
  split <;> exact Frac.val_scaled _ _

theorem mag_eq_ieeeMag {t : Ty} (h : isTapered t = false) (m : Nat) : mag t m = (ieeeMag t m).val := by
  unfold mag magVal
  split
  next h0 =>
    have hzero : (0 : Rat) = (ieeeMag t 0).val := by
      rw [ieeeMag_val, Nat.zero_div, if_pos rfl, Nat.zero_mod, show ((0 : Nat) : Rat) = 0 from rfl, Rat.zero_mul]
    rw [h0, ← hzero]
    exact Frac.val_int 0
  next => rw [if_neg (by rw [h]; exact Bool.false_ne_true)]

/-- Within a binade the fraction rises; from the last code of one binade to the first of the next the exponent does. -/
theorem ieeeMag_lt_succ (t : Ty) (m : Nat) : (ieeeMag t m).val < (ieeeMag t (m + 1)).val := by
  rw [ieeeMag_val, ieeeMag_val]
  generalize (fracBias t).1 = fb
  generalize (fracBias t).2 = bias
  have hpos : 0 < 2 ^ fb := Nat.two_pow_pos fb
  have hz (k : Int) : (0 : Rat) < 2 ^ k := Rat.zpow_pos (by decide)
  have hm : 2 ^ fb * (m / 2 ^ fb) + m % 2 ^ fb = m := Nat.div_add_mod m _
  have hf : m % 2 ^ fb < 2 ^ fb := Nat.mod_lt _ hpos
  generalize he : m / 2 ^ fb = e at *
  generalize hr : m % 2 ^ fb = r at *
  rcases Nat.lt_or_ge (r + 1) (2 ^ fb) with hlt | hge
  · have he' : (m + 1) / 2 ^ fb = e := by rw [← hm, Nat.add_assoc, Nat.mul_add_div hpos, Nat.div_eq_of_lt hlt, Nat.add_zero]
    have hr' : (m + 1) % 2 ^ fb = r + 1 := by rw [← hm, Nat.add_assoc, Nat.mul_add_mod, Nat.mod_eq_of_lt hlt]
    rw [he', hr']
    split
    · exact Rat.mul_lt_mul_of_pos_right (by exact_mod_cast Nat.lt_succ_self r) (hz _)
    · exact Rat.mul_lt_mul_of_pos_right (by exact_mod_cast Nat.lt_succ_self (2 ^ fb + r)) (hz _)
  · have hr1 : r + 1 = 2 ^ fb := by omega
    have he' : (m + 1) / 2 ^ fb = e + 1 := by rw [← hm, Nat.add_assoc, hr1, Nat.mul_add_div hpos, Nat.div_self hpos]
    have hr' : (m + 1) % 2 ^ fb = 0 := by rw [← hm, Nat.add_assoc, hr1, Nat.mul_add_mod, Nat.mod_self]
    rw [he', hr', if_neg (Nat.succ_ne_zero e), Nat.add_zero]
    split
    next h0 =>
      rw [h0]
      have hexp : (((0 + 1 : Nat) : Int) - bias - fb) = 1 - bias - fb := by omega
      rw [hexp]
      exact Rat.mul_lt_mul_of_pos_right (by exact_mod_cast (by omega : r < 2 ^ fb)) (hz _)
    next =>
      have hexp : (((e + 1 : Nat) : Int) - bias - fb) = (e - bias - fb) + 1 := by omega
      rw [hexp, Rat.zpow_add_one (by decide), Rat.mul_comm _ (2 : Rat), ← Rat.mul_assoc]
      refine Rat.mul_lt_mul_of_pos_right ?_ (hz _)
      have : 2 ^ fb + r < 2 ^ fb * 2 := by omega
      exact_mod_cast this

theorem taperedMag_lt_succ {t : Ty} (h : isTapered t = true) :
    ∀ m < maxFCode t, (magVal t m).lt (magVal t (m + 1)) = true := by
  cases t
  case m8 | m6 => decide
  all_goals cases h

theorem mag_lt_succ (t : Ty) {m : Nat} (h : m < maxFCode t) : mag t m < mag t (m + 1) := by
  cases ht : isTapered t with
  | true => exact (Frac.lt_iff (magVal_den_pos _ _) (magVal_den_pos _ _)).1 (taperedMag_lt_succ ht m h)
  | false => rw [mag_eq_ieeeMag ht, mag_eq_ieeeMag ht]; exact ieeeMag_lt_succ t m

theorem mag_lt {t : Ty} {m n : Nat} (hn : n ≤ maxFCode t) (h : m < n) : mag t m < mag t n := by
  induction n with
  | zero => omega
  | succ n ih =>
    rcases Nat.lt_succ_iff_lt_or_eq.1 h with hlt | rfl
    · exact Std.lt_trans (ih (by omega) hlt) (mag_lt_succ t hn)
    · exact mag_lt_succ t hn

theorem mag_le {t : Ty} {m n : Nat} (hn : n ≤ maxFCode t) (h : m ≤ n) : mag t m ≤ mag t n := by
  rcases Nat.lt_or_eq_of_le h with hlt | rfl
  · exact Rat.le_of_lt (mag_lt hn hlt)
  · exact Rat.le_refl

@[simp] theorem mag_zero (t : Ty) : mag t 0 = 0 := Frac.val_int 0

/-! ### The search -/

/-- The search answers the last code, of those its remaining bits can reach, whose value is not above q. -/
theorem searchMag_spec {t : Ty} {q : Frac} (hq : 0 < q.den) (i m : Nat) (hm : m ≤ maxFCode t) (hle : mag t m ≤ q.val) :
    searchMag t q i m ≤ maxFCode t ∧ mag t (searchMag t q i m) ≤ q.val
    ∧ ∀ k ≤ maxFCode t, searchMag t q i m < k → k < m + 2 ^ i → q.val < mag t k := by
  induction i generalizing m with
  | zero => exact ⟨hm, hle, fun k _ h h' => by simp only [searchMag, Nat.pow_zero] at h h'; omega⟩
  | succ i ih =>
    have hpow : 2 ^ (i + 1) = 2 ^ i + 2 ^ i := by rw [Nat.pow_succ]; omega
    simp only [searchMag, Bool.and_eq_true, decide_eq_true_eq, Frac.le_iff (magVal_den_pos _ _) hq]
    by_cases hc : m + 2 ^ i ≤ maxFCode t ∧ mag t (m + 2 ^ i) ≤ q.val
    · have hc' : m + 2 ^ i ≤ maxFCode t ∧ (magVal t (m + 2 ^ i)).val ≤ q.val := hc
      rw [if_pos hc']
      obtain ⟨h1, h2, h3⟩ := ih (m + 2 ^ i) hc.1 hc.2
      exact ⟨h1, h2, fun k hk hlt hb => h3 k hk hlt (by omega)⟩
    · have hc' : ¬ (m + 2 ^ i ≤ maxFCode t ∧ (magVal t (m + 2 ^ i)).val ≤ q.val) := hc
      rw [if_neg hc']
      obtain ⟨h1, h2, h3⟩ := ih m hm hle
      refine ⟨h1, h2, fun k hk hlt hb => ?_⟩
      rcases Nat.lt_or_ge k (m + 2 ^ i) with hk' | hk'
      · exact h3 k hk hlt hk'
      · exact Std.lt_of_lt_of_le (Rat.not_le.1 fun h => hc ⟨Nat.le_trans hk' hk, h⟩) (mag_le hk hk')

theorem maxFCode_lt_signBit {t : Ty} (h : t.isFloat = true) : maxFCode t < signBit t := by
  revert h
  cases t <;> decide

/-- The greatest magnitude code whose value is at most q. -/
theorem searchMag_greatest {t : Ty} (ht : t.isFloat = true) {q : Frac} (hq : 0 < q.den) (h0 : 0 ≤ q.val) :
    let m := searchMag t q (width t - 1) 0
    m ≤ maxFCode t ∧ mag t m ≤ q.val ∧ ∀ k ≤ maxFCode t, m < k → q.val < mag t k := by
  obtain ⟨h1, h2, h3⟩ := searchMag_spec (t := t) hq (width t - 1) 0 (Nat.zero_le _) (by rwa [mag_zero])
  refine ⟨h1, h2, fun k hk hlt => h3 k hk hlt ?_⟩
  have := maxFCode_lt_signBit ht
  rw [signBit] at this
  omega

/-! ### The nearest value -/

/-- Magnitude code y is nearest to q among the type's; where another is as near, y is even. -/
def Nearest (t : Ty) (q : Rat) (y : Nat) : Prop :=
  y ≤ maxFCode t ∧ ∀ m ≤ maxFCode t, (q - mag t y).abs ≤ (q - mag t m).abs ∧ (m ≠ y → (q - mag t y).abs = (q - mag t m).abs → y % 2 = 0)

section
variable {t : Ty} {q : Rat} {lo : Nat} (hlo : lo ≤ maxFCode t) (hle : mag t lo ≤ q) (habove : ∀ k ≤ maxFCode t, lo < k → q < mag t k)
include hlo hle habove

/-- The lower neighbour is nearest where the upper one is farther, or as far and odd, or beyond the type. -/
theorem nearest_lower (h : lo < maxFCode t → q - mag t lo < mag t (lo + 1) - q ∨ (q - mag t lo = mag t (lo + 1) - q ∧ lo % 2 = 0)) :
    Nearest t q lo := by
  refine ⟨hlo, fun m hm => ?_⟩
  rw [Rat.abs_of_nonneg ((Rat.le_iff_sub_nonneg _ _).1 hle)]
  rcases Nat.lt_trichotomy m lo with hlt | rfl | hgt
  · have hmag := mag_lt hlo hlt
    rw [Rat.abs_of_nonneg (by grind)]
    exact ⟨by grind, fun _ he => by grind⟩
  · rw [Rat.abs_of_nonneg ((Rat.le_iff_sub_nonneg _ _).1 hle)]
    exact ⟨Rat.le_refl, fun hne => absurd rfl hne⟩
  · have hq := habove m hm hgt
    have hmag := mag_le hm hgt
    rw [Rat.abs_of_nonpos (by grind)]
    rcases h (by omega) with hd | ⟨hd, heven⟩
    · exact ⟨by grind, fun _ he => by grind⟩
    · exact ⟨by grind, fun _ _ => heven⟩

/-- The upper neighbour is nearest where the lower one is farther, or as far and odd. -/
theorem nearest_upper (hlt : lo < maxFCode t)
    (h : mag t (lo + 1) - q < q - mag t lo ∨ (q - mag t lo = mag t (lo + 1) - q ∧ lo % 2 = 1)) : Nearest t q (lo + 1) := by
  refine ⟨hlt, fun m hm => ?_⟩
  have hq := habove (lo + 1) hlt (Nat.lt_succ_self lo)
  rw [Rat.abs_of_nonpos (by grind)]
  rcases Nat.lt_trichotomy m (lo + 1) with hml | rfl | hmg
  · have hmag := mag_le hlo (Nat.lt_succ_iff.1 hml)
    rw [Rat.abs_of_nonneg (by grind)]
    rcases h with hd | ⟨hd, hodd⟩
    · exact ⟨by grind, fun _ he => by grind⟩
    · exact ⟨by grind, fun _ _ => by omega⟩
  · rw [Rat.abs_of_nonpos (by grind)]
    exact ⟨Rat.le_refl, fun hne => absurd rfl hne⟩
  · have hmag := mag_lt hm hmg
    rw [Rat.abs_of_nonpos (by grind)]
    exact ⟨by grind, fun _ he => by grind⟩

end

/-! ### Round with NE -/

theorem overflow_flag (t : Ty) (rm : RMode) (neg : Bool) : (overflow t rm neg).fl &&& 4 ≠ 0 := by
  show (5 : BitVec 5) &&& 4 ≠ 0
  decide

/-- Round with NE below overflow: a nearest magnitude with the sign, and flags where it is not the value. -/
theorem round_ne_spec {t : Ty} (ht : t.isFloat = true) {x : Frac} (hx : 0 < x.den) (hfl : (round t .ne x).fl &&& 4 = 0) :
    ∃ y, Nearest t x.val.abs y
      ∧ round t .ne x = ⟨withSign t x.isNeg y, if mag t y = x.val.abs then 0 else if x.abs.lt (magVal t (minNCode t)) then 3 else 1⟩ := by
  have hxa : 0 < x.abs.den := hx
  have hval := Frac.val_abs hx
  obtain ⟨hlo, hle, habove⟩ := searchMag_greatest ht hxa (by rw [hval]; exact Rat.abs_nonneg)
  generalize hm : searchMag t x.abs (width t - 1) 0 = lo at hlo hle habove
  rw [hval] at hle habove
  unfold round at hfl ⊢
  dsimp only at hfl ⊢
  rw [hm] at hfl ⊢
  split at hfl
  next => exact absurd hfl (overflow_flag _ _ _)
  next hv =>
  rw [if_neg hv]
  split at hfl
  next heq =>
    rw [if_pos heq]
    rw [Frac.eq_iff (magVal_den_pos _ _) hxa, hval] at heq
    have heq' : mag t lo = x.val.abs := heq
    refine ⟨lo, nearest_lower hlo hle habove fun hlt => .inl ?_, by rw [if_pos heq']⟩
    have := habove (lo + 1) hlt (Nat.lt_succ_self lo)
    grind
  next heq =>
    rw [if_neg heq]
    have hne : mag t lo ≠ x.val.abs := fun h => heq ((Frac.eq_iff (magVal_den_pos _ _) hxa).2 (h.trans hval.symm))
    have hcmp (hlt : lo < maxFCode t) :
        (x.abs.sub (magVal t lo)).cmp ((if lo = maxFCode t then virtV t else magVal t (lo + 1)).sub x.abs)
          = ratCmp (x.val.abs - mag t lo) (mag t (lo + 1) - x.val.abs) := by
      rw [if_neg (Nat.ne_of_lt hlt), Frac.cmp_eq_ratCmp (Frac.sub_den_pos hxa (magVal_den_pos _ _)) (Frac.sub_den_pos (magVal_den_pos _ _) hxa),
        Frac.val_sub hxa (magVal_den_pos _ _), Frac.val_sub (magVal_den_pos _ _) hxa, hval] <;> rfl
    generalize (x.abs.sub (magVal t lo)).cmp ((if lo = maxFCode t then virtV t else magVal t (lo + 1)).sub x.abs) = c at hfl hcmp ⊢
    have hlower (h : takeUpper .ne x.isNeg c (lo % 2 == 1) = false) : Nearest t x.val.abs lo :=
      nearest_lower hlo hle habove fun hlt => by
        have hc := hcmp hlt
        cases c with
        | lt => exact .inl (ratCmp_eq_lt.1 hc.symm)
        | gt => cases h
        | eq => exact .inr ⟨ratCmp_eq_eq.1 hc.symm, by simpa [takeUpper] using h⟩
    have hupper (h : takeUpper .ne x.isNeg c (lo % 2 == 1) = true) (hlt : lo < maxFCode t) : Nearest t x.val.abs (lo + 1) :=
      nearest_upper hlo hle habove hlt (by
        have hc := hcmp hlt
        cases c with
        | lt => cases h
        | gt => exact .inl (ratCmp_eq_gt.1 hc.symm)
        | eq => exact .inr ⟨ratCmp_eq_eq.1 hc.symm, by simpa [takeUpper] using h⟩)
    cases hup : takeUpper .ne x.isNeg c (lo % 2 == 1) with
    | false =>
      simp only [Bool.false_eq_true, if_false]
      exact ⟨lo, hlower hup, by rw [if_neg hne, if_neg (Nat.not_lt.2 hlo)]⟩
    | true =>
      simp only [hup, if_true] at hfl ⊢
      split at hfl
      next => exact absurd hfl (overflow_flag _ _ _)
      next hy =>
        have hlt : lo < maxFCode t := by omega
        have habv := habove (lo + 1) hlt (Nat.lt_succ_self lo)
        exact ⟨lo + 1, hupper hup hlt, by rw [if_neg hy, if_neg (Rat.ne_of_gt habv)]⟩

/-! ### Exact values -/

theorem mag_lt_virtV {t : Ty} (ht : t.isFloat = true) {m : Nat} (hm : m ≤ maxFCode t) : mag t m < (virtV t).val := by
  refine Std.lt_of_le_of_lt (mag_le (Nat.le_refl _) hm) ?_
  cases t
  case m8 | m6 => exact (Frac.lt_iff (magVal_den_pos _ _) (virtV_den_pos _)).1 (by decide)
  case f32 | f16 | bf16 | e4m3 | e5m2 | e3m2 | e2m3 | e2m1 => rw [mag_eq_ieeeMag rfl]; exact ieeeMag_lt_succ _ _
  all_goals cases ht

theorem mag_injective {t : Ty} {m n : Nat} (hm : m ≤ maxFCode t) (hn : n ≤ maxFCode t) (h : mag t m = mag t n) : m = n := by
  rcases Nat.lt_trichotomy m n with hlt | heq | hgt
  · exact absurd h (Rat.ne_of_lt (mag_lt hn hlt))
  · exact heq
  · exact absurd h (Rat.ne_of_gt (mag_lt hm hgt))

/-- A value of the type rounds to its own code, with no flag, in every mode. -/
theorem round_exact {t : Ty} (ht : t.isFloat = true) (rm : RMode) {x : Frac} (hx : 0 < x.den) {m : Nat} (hm : m ≤ maxFCode t)
    (h : mag t m = x.val.abs) : round t rm x = ⟨withSign t x.isNeg m, 0⟩ := by
  have hxa : 0 < x.abs.den := hx
  have hval := Frac.val_abs hx
  have hv : ¬ (virtV t).le x.abs = true := by
    rw [Frac.le_iff (virtV_den_pos t) hxa, hval, ← h]
    exact Rat.not_le.2 (mag_lt_virtV ht hm)
  obtain ⟨hlo, hle, habove⟩ := searchMag_greatest ht hxa (by rw [hval]; exact Rat.abs_nonneg)
  have hge : m ≤ searchMag t x.abs (width t - 1) 0 := Nat.not_lt.1 fun hlt => by
    have := habove m hm hlt
    rw [hval, h] at this
    exact Rat.lt_irrefl this
  have hsearch : searchMag t x.abs (width t - 1) 0 = m :=
    mag_injective hlo hm (Rat.le_antisymm (by rw [h, ← hval]; exact hle) (mag_le hlo hge))
  have heq : (magVal t m).eq x.abs = true := (Frac.eq_iff (magVal_den_pos _ _) hxa).2 (h.trans hval.symm)
  unfold round
  dsimp only
  rw [if_neg hv, hsearch, if_pos heq]

/-- The magnitude code under a sign is read back. -/
theorem withSign_mod {t : Ty} (ht : t.isFloat = true) (neg : Bool) {y : Nat} (h : y ≤ maxFCode t) :
    withSign t neg y % 2 ^ (width t - 1) = y := by
  have hlt : y < 2 ^ (width t - 1) := Nat.lt_of_le_of_lt h (maxFCode_lt_signBit ht)
  unfold withSign signBit
  split
  · rw [Nat.add_mod_left, Nat.mod_eq_of_lt hlt]
  · exact Nat.mod_eq_of_lt hlt

theorem val_dist {x : Frac} (hx : 0 < x.den) (t : Ty) (m : Nat) : (Frac.dist x.abs (magVal t m)).val = (x.val.abs - mag t m).abs := by
  have hxa : 0 < x.abs.den := hx
  rw [Frac.dist, Frac.val_abs (Frac.sub_den_pos hxa (magVal_den_pos _ _)), Frac.val_sub hxa (magVal_den_pos _ _), Frac.val_abs hx] <;> rfl

theorem dist_den_pos {x : Frac} (hx : 0 < x.den) (t : Ty) (m : Nat) : 0 < (Frac.dist x.abs (magVal t m)).den :=
  Frac.sub_den_pos (a := x.abs) hx (magVal_den_pos t m)

/-- Settles O11: `round_ne_spec` in the statement's own distances. -/
theorem roundingIsNearest : Obligations.RoundingIsNearest := by
  intro t x ht hx _ hfl r y
  obtain ⟨y', hnear, hround⟩ := round_ne_spec ht.1 hx hfl
  obtain ⟨hmax, hbest⟩ := hnear
  have hxa : 0 < x.abs.den := hx
  have hcode : r.code = withSign t x.isNeg y' := congrArg Rnd.code hround
  have hflag : r.fl = _ := congrArg Rnd.fl hround
  have hy : y = y' := by rw [← withSign_mod ht.1 x.isNeg hmax, ← hcode]
  rw [hy]
  refine ⟨hmax, hcode, fun m hm => ?_, fun m hm hne he => ?_, ?_⟩
  · rw [Frac.le_iff (dist_den_pos hx t _) (dist_den_pos hx t _), val_dist hx, val_dist hx]
    exact (hbest m hm).1
  · rw [Frac.eq_iff (dist_den_pos hx t _) (dist_den_pos hx t _), val_dist hx, val_dist hx] at he
    exact (hbest m hm).2 hne he
  · simp only [hflag, Frac.eq_iff (magVal_den_pos _ _) hxa, Frac.val_abs hx] <;> rfl

end Sys2Proof.Machine
end

