-- ==== Sys2Proof/Proofs/PredicatesAndRegisters.lean ====
section
/-!
Predicate ops (R131, R132), special registers (R29, R136, R137) and the generator (R138, R139): O12, O13, O15 and O16.
-/
namespace Sys2Proof.Machine

/-! ### Predicate results -/

theorem answer_pred (s : State) (lat : Nat) (d : Fin 8) (x : Pred) :
    answer (s.wp lat d (BitVec.allOnes 128) x).done = .next (s.withPred lat d x) := by
  unfold State.wp State.done State.advance State.withPred answer
  cases h : s.cur with
  | core c k =>
    by_cases hd : d = 0
    · simp only [hd, if_true, h]
    · simp only [hd, if_false, State.put, State.modCore, State.setCore_cur, h]
  | thr u =>
    by_cases hd : d = 0
    · simp only [hd, if_true, h, State.modThread]
    · simp only [hd, if_false, h, State.modThread, State.setThread_cur, State.thread_setThread_same, State.setThread_setThread]

/-- Place k of the bits that a list gives, lowest first. -/
theorem testBit_foldr_bits (p : Nat → Bool) (l : List Nat) (k : Nat) (hk : k < l.length) :
    (l.foldr (fun i acc => (if p i then 1 else 0) + 2 * acc) 0).testBit k = p l[k] := by
  induction l generalizing k with
  | nil => exact absurd hk (Nat.not_lt_zero k)
  | cons i l ih =>
    rw [List.foldr_cons]
    generalize hacc : List.foldr _ 0 l = acc at ih ⊢
    have hbit : (if p i then 1 else 0) < 2 := by split <;> decide
    cases k with
    | zero =>
      rw [Nat.testBit_zero, Nat.add_mul_mod_self_left, Nat.mod_eq_of_lt hbit, List.getElem_cons_zero]
      cases p i <;> rfl
    | succ k =>
      rw [Nat.testBit_succ, Nat.add_mul_div_left _ _ (by decide), Nat.div_eq_of_lt hbit, Nat.zero_add, List.getElem_cons_succ]
      exact ih k (Nat.lt_of_succ_lt_succ hk)

theorem psetPred_getLsbD (m : PsetMode) (a : Word) (e : Nat) {i : Nat} (hi : i < 128) :
    (psetPred m a e).getLsbD i = psetActive m a (i / e) := by
  rw [psetPred, BitVec.getLsbD_ofNat, testBit_foldr_bits (fun i => psetActive m a (i / e)) _ i (by simpa using hi), List.getElem_range]
  simp [hi]

theorem psetActive_eq (m : PsetMode) (a : Word) {j : Nat} (hj : j < 128) : psetActive m a j = (match m with
    | .all => decide (a ≠ 0)
    | .first => decide (BitVec.ofNat 64 j < a)
    | .bits => decide (j < 64) && a.getLsbD j) := by
  cases m with
  | all => exact Bool.eq_iff_iff.2 (by simp [psetActive])
  | first =>
    have hmod : j % 2 ^ 64 = j := Nat.mod_eq_of_lt (by omega)
    simp only [psetActive, BitVec.lt_def, BitVec.toNat_ofNat, hmod]
  | bits => simp only [psetActive, bit_toNat]

/-- Settles O12: PSET's predicate bit by bit, PLOG's function bit by bit. -/
theorem predicateOps : Obligations.PredicateOps := by
  intro s pd
  refine ⟨fun m e a => ⟨_, answer_pred .., fun i hi => ?_⟩, fun pa pb =>
    ⟨answer_pred .., answer_pred .., answer_pred .., answer_pred .., answer_pred .., answer_pred ..⟩⟩
  rw [psetPred_getLsbD _ _ _ hi, psetActive_eq _ _ (Nat.lt_of_le_of_lt (Nat.div_le_self _ _) hi)] <;> cases m <;> rfl

/-! ### Special registers -/

/-- SRD of a register whose reading changes nothing. -/
theorem exec_srd_of {s : State} {n : BitVec 12} {v : Word} (h : s.srdRead n.toNat = (v, s)) (d : Fin 64) :
    exec (.srd (.sx d) n) s = .next (s.withScalar 1 d v) := by
  have hx : exec (.srd (.sx d) n) s = answer ((s.srdRead n.toNat).2.result 1 (.sx d) (s.srdRead n.toNat).1) := rfl
  rw [hx, h]
  exact answer_result _ _ _ _

/-- The die's copy stays within 32 ticks of the master, never runs back, and rises over 16 ticks (R302, R306). -/
theorem diePtime_spec (s : State) (die : Nat) (hne : (mget (0, 0) s.dieClock die).2 < s.ptime) :
    let last := mget (0, 0) s.dieClock die
    ∃ t, s.diePtime die = (t, { s with free := s.free + 1, dieClock := mset (0, 0) s.dieClock die (t, s.ptime) })
      ∧ (32 ≤ s.ptime → last.1 ≤ last.2 + 32 → s.ptime ≤ t + 32 ∧ t ≤ s.ptime + 32) ∧ last.1 ≤ t
      ∧ (last.2 + 16 ≤ s.ptime → last.1 < t) := by
  intro last
  refine ⟨max (last.1 + if last.2 + 16 ≤ s.ptime then 1 else 0) (s.ptime + s.draw.1.toNat % 65 - 32), if_neg (Nat.ne_of_lt hne),
    fun h32 hlast => ?_, ?_, fun h16 => ?_⟩
  · have hx : s.draw.1.toNat % 65 < 65 := Nat.mod_lt _ (by decide)
    have hl : last.2 < s.ptime := hne
    split <;> constructor <;> omega
  · split <;> omega
  · rw [if_pos h16]
    omega

/-- The registers that each form has for itself (R29). -/
theorem srdRead_core {s : State} {c : Fin 32} {k : Fin 8} (h : s.cur = .core c k) :
    let x := s.core c
    s.srdRead 0x000 = (x.arch.fmt.setWidth 64, s)
    ∧ s.srdRead 0x001 = (BitVec.ofNat 64 ((s.shape c).1 + (s.shape c).2 * 256), s)
    ∧ s.srdRead 0x002 = (BitVec.ofNat 64 (x.fmapstat (s.shape c)), s)
    ∧ s.srdRead 0x003 = (x.arch.suspect.setWidth 64, s)
    ∧ s.srdRead 0x004 = (x.arch.fflags.setWidth 64, s)
    ∧ s.srdRead 0x015 = (BitVec.ofNat 64 x.gpos, s)
    ∧ s.srdRead 0x022 = (BitVec.ofNat 64 x.eng.granted, s)
    ∧ s.srdRead 0x030 = (x.tcause.setWidth 64, s)
    ∧ s.srdRead 0x031 = (x.tpc, s)
    ∧ s.srdRead 0x032 = (x.tval, s)
    ∧ s.srdRead 0x035 = (BitVec.ofNat 64 (x.gst + x.cpy * 2 ^ 9 + x.undoCount * 2 ^ 16 + (if x.ssat then 2 ^ 31 else 0)), s)
    ∧ s.srdRead 0x040 = (x.arch.rnga, s)
    ∧ s.srdRead 0x041 = (x.arch.rngb, s)
    ∧ s.srdRead 0x042 = (x.arch.lutsel.setWidth 64, s)
    ∧ s.srdRead 0x044 = (x.arch.drift.setWidth 64, s) := by
  simp only [State.srdRead, State.fmt, State.gpos, State.leavegnt, Core.ckstat, h, BitVec.ofNat_toNat, Nat.reducePow, and_self]

theorem srdRead_thread {s : State} {t : Tid} (h : s.cur = .thr t) :
    let x := s.thread t
    let g := s.group t.unit t.group
    s.srdRead 0x000 = (x.fmt.setWidth 64, s)
    ∧ s.srdRead 0x004 = (x.fflags.setWidth 64, s)
    ∧ s.srdRead 0x015 = (BitVec.ofNat 64 (t.thread + g.idx * 2 ^ 16), s)
    ∧ s.srdRead 0x022 = (BitVec.ofNat 64 g.granted, s)
    ∧ s.srdRead 0x030 = (x.tcause.setWidth 64, s)
    ∧ s.srdRead 0x031 = (x.tpc, s)
    ∧ s.srdRead 0x032 = (x.tval, s)
    ∧ s.srdRead 0x033 = (x.tmask, s)
    ∧ s.srdRead 0x034 = (g.thandler, s)
    ∧ s.srdRead 0x035 = (if g.ssat then 0x80000000 else 0, s)
    ∧ s.srdRead 0x040 = (x.rnga, s)
    ∧ s.srdRead 0x041 = (x.rngb, s)
    ∧ s.srdRead 0x042 = (g.lutsel.setWidth 64, s)
    ∧ s.srdRead 0x044 = (g.drift.setWidth 64, s) := by
  simp only [State.srdRead, State.fmt, State.gpos, State.leavegnt, h, BitVec.ofNat_toNat, true_and, and_true]
  split <;> rfl

/-- Settles O13: each number's own reading; PTIME is the die's copy. -/
theorem specialRegistersRead : Obligations.SpecialRegistersRead := by
  intro s d reads card
  refine ⟨exec_srd_of rfl d, exec_srd_of rfl d, exec_srd_of ?world d, exec_srd_of rfl d, exec_srd_of rfl d, exec_srd_of rfl d,
    exec_srd_of rfl d, ⟨fun h => exec_srd_of ?same d, fun h32 _ hlt hlast => ?ptime⟩, ?own⟩
  case world =>
    show (BitVec.ofNat 64 (if Card.world card then 1 else 0), s) = _
    split <;> rfl
  case same =>
    show (BitVec.ofNat 64 (s.diePtime (Dom.die s.cur.dom)).1, (s.diePtime (Dom.die s.cur.dom)).2) = _
    rw [show s.diePtime (Dom.die s.cur.dom) = _ from if_pos h]
  case ptime =>
    obtain ⟨t, ht, hbound, hback, hrise⟩ := diePtime_spec s (Dom.die s.cur.dom) hlt
    obtain ⟨hlow, hhigh⟩ := hbound h32 hlast
    refine ⟨t, ?_, hlow, hhigh, hback, hrise⟩
    have hx : exec (.srd (.sx d) 0x011) s
        = answer ((s.diePtime (Dom.die s.cur.dom)).2.result 1 (.sx d) (BitVec.ofNat 64 (s.diePtime (Dom.die s.cur.dom)).1)) := rfl
    rw [hx, ht]
    exact answer_result _ _ _ _
  case own =>
    split
    next c k hc =>
      obtain ⟨h0, h1, h2, h3, h4, h15, h22, h30, h31, h32, h35, h40, h41, h42, h44⟩ := srdRead_core hc
      exact ⟨exec_srd_of h0 d, exec_srd_of h1 d, exec_srd_of h2 d, exec_srd_of h3 d, exec_srd_of h4 d, exec_srd_of h15 d,
        exec_srd_of h22 d, exec_srd_of h30 d, exec_srd_of h31 d, exec_srd_of h32 d, exec_srd_of h35 d, exec_srd_of h40 d,
        exec_srd_of h41 d, exec_srd_of h42 d, exec_srd_of h44 d⟩
    next t ht =>
      obtain ⟨h0, h4, h15, h22, h30, h31, h32, h33, h34, h35, h40, h41, h42, h44⟩ := srdRead_thread ht
      exact ⟨exec_srd_of h0 d, exec_srd_of h4 d, exec_srd_of h15 d, exec_srd_of h22 d, exec_srd_of h30 d, exec_srd_of h31 d,
        exec_srd_of h32 d, exec_srd_of h33 d, exec_srd_of h34 d, exec_srd_of h35 d, exec_srd_of h40 d, exec_srd_of h41 d,
        exec_srd_of h42 d, exec_srd_of h44 d⟩

/-! ### SWR -/

/-- A write that a core withholds to the end of its cycle (R137). -/
theorem exec_swr_core {s : State} {c : Fin 32} {k : Fin 8} (hc : s.cur = .core c k) {n : BitVec 12} (h0 : n.toNat ≠ 0) (h42 : n.toNat ≠ 0x042)
    (a : Opd) : exec (.swr n a) s = .next { s with deferred := s.deferred ++ [(s.cur, .swr n.toNat (s.ri a))] } := by
  have hx : exec (.swr n a) s = answer (s.swrAt n.toNat (s.ri a)) := rfl
  rw [hx, State.swrAt, if_neg h0, if_neg h42, hc]
  simp only [State.defer, State.done, State.advance, hc, answer]

/-- A write of a thread's own register, at once (R137). -/
theorem exec_swr_thread {s : State} {u : Tid} (hu : s.cur = .thr u) {n : BitVec 12} (h0 : n.toNat ≠ 0) (h42 : n.toNat ≠ 0x042)
    (hg : isGroupReg n.toNat = false) (a : Opd) :
    exec (.swr n a) s = .next (s.setThread u { (s.thread u).swr n.toNat (s.ri a) with pc := ((s.thread u).swr n.toNat (s.ri a)).pc + 8 }) := by
  have hx : exec (.swr n a) s = answer (s.swrAt n.toNat (s.ri a)) := rfl
  rw [hx, State.swrAt, if_neg h0, if_neg h42, hu]
  simp only [hg, Bool.false_eq_true, if_false, State.done, State.advance, State.modThread, State.setThread_cur, hu, answer,
    State.thread_setThread_same, State.setThread_setThread]

theorem State.thread_modGroup {s : State} {u : Tid} {f : Group → Group} (h : ∀ g, (f g).threads = g.threads) :
    (s.modGroup u.unit u.group f).thread u = s.thread u := by
  simp only [State.thread, State.group_modGroup, and_self, if_true, h]

/-- A write of a group register, staged to the end of the unit's cycle (R137, R156). -/
theorem answer_stage {s : State} {u : Tid} (hu : s.cur = .thr u) (n : Nat) (v : Word) :
    answer (s.stage u n v).done = .next ((s.setGroup u.unit u.group { s.group u.unit u.group with
      staged := (s.group u.unit u.group).staged ++ [(u.thread, n, v)] }).setThread u { s.thread u with pc := (s.thread u).pc + 8 }) := by
  have hcur : (s.stage u n v).cur = .thr u := hu
  have hthread : (s.stage u n v).thread u = s.thread u := State.thread_modGroup fun _ => rfl
  simp only [answer, State.done, State.advance, hcur, State.modThread, hthread] <;> rfl

theorem exec_swr_group {s : State} {u : Tid} (hu : s.cur = .thr u) {n : BitVec 12} (h0 : n.toNat ≠ 0) (hg : isGroupReg n.toNat = true)
    (a : Opd) : exec (.swr n a) s = answer (s.stage u n.toNat (s.ri a)).done := by
  have hx : exec (.swr n a) s = answer (s.swrAt n.toNat (s.ri a)) := rfl
  rw [hx, State.swrAt, if_neg h0]
  split
  next h42 => rw [h42, State.selectLut, hu]
  next => rw [hu]

/-- Settles O15: a core's write is withheld, a thread's own takes effect at once, a group's is staged. -/
theorem specialRegistersWritten : Obligations.SpecialRegistersWritten := by
  intro s a v
  refine ⟨fun c k hc => ⟨?lutsel, fun n hn => ?withheld, rfl, rfl, rfl, rfl, rfl, rfl, rfl, rfl, rfl⟩, fun u hu => ?thread⟩
  case lutsel =>
    have hx : exec (.swr 0x042 a) s = answer (s.selectLut (s.ri a)).done := rfl
    rw [hx, State.selectLut, hc]
    simp only [answer, State.done, State.advance, State.modArch_cur, hc] <;> rfl
  case withheld =>
    simp only [List.mem_cons, List.not_mem_nil, or_false] at hn
    refine exec_swr_core hc ?_ ?_ a <;> rcases hn with rfl | rfl | rfl | rfl | rfl | rfl | rfl | rfl | rfl <;> decide
  case thread =>
    have own {n : BitVec 12} (h0 : n.toNat ≠ 0) (h42 : n.toNat ≠ 0x042) (hg : isGroupReg n.toNat = false) := exec_swr_thread hu h0 h42 hg a
    refine ⟨own (by decide) (by decide) rfl, own (by decide) (by decide) rfl, own (by decide) (by decide) rfl,
      own (by decide) (by decide) rfl, own (by decide) (by decide) rfl, own (by decide) (by decide) rfl, fun n hn => ?_,
      fun g => ⟨rfl, rfl, rfl, rfl⟩⟩
    simp only [List.mem_cons, List.not_mem_nil, or_false] at hn
    refine (exec_swr_group hu ?_ ?_ a).trans (answer_stage hu _ _) <;> rcases hn with rfl | rfl | rfl | rfl <;> decide

/-! ### The generator as a linear map -/

/-- A map of 128 bits that keeps exclusive or. -/
def Linear (f : BitVec 128 → BitVec 128) : Prop := ∀ x y, f (x ^^^ y) = f x ^^^ f y

theorem Linear.zero {f : BitVec 128 → BitVec 128} (h : Linear f) : f 0 = 0 := by
  have := h 0 0
  rwa [BitVec.xor_self, BitVec.xor_self] at this

theorem linear_stepBits : Linear stepBits := by
  intro x y
  simp only [stepBits, genStep, BitVec.extractLsb'_xor, BitVec.shiftLeft_xor_distrib, BitVec.ushiftRight_xor_distrib]
  generalize BitVec.extractLsb' 0 64 x = a
  generalize BitVec.extractLsb' 64 64 x = b
  generalize BitVec.extractLsb' 0 64 y = c
  generalize BitVec.extractLsb' 64 64 y = d
  rw [BitVec.xor_append]
  have hsum (p q r s : Word) : (p ^^^ q) ^^^ (r ^^^ s) = (p ^^^ r) ^^^ (q ^^^ s) := by ac_rfl
  rw [hsum a c, hsum (a >>> 17) (c >>> 17), hsum _ _ b d, hsum _ _ (_ ^^^ _) (_ ^^^ _), hsum _ _ (b >>> 26) (d >>> 26)]

/-- The generator's step on 128 bits, n times. -/
def bitSteps (n : Nat) (x : BitVec 128) : BitVec 128 :=
  match n with
  | 0 => x
  | n + 1 => bitSteps n (stepBits x)

theorem linear_bitSteps (n : Nat) : Linear (bitSteps n) := by
  induction n with
  | zero => exact fun x y => rfl
  | succ n ih =>
    intro x y
    rw [bitSteps, bitSteps, bitSteps, linear_stepBits, ih]

theorem bitSteps_add (m n : Nat) (x : BitVec 128) : bitSteps (m + n) x = bitSteps n (bitSteps m x) := by
  induction m generalizing x with
  | zero => rw [Nat.zero_add, bitSteps]
  | succ m ih => rw [Nat.succ_add, bitSteps, bitSteps, ih]

/-- The unit vector of bit i. -/
def unitBit (i : Nat) : BitVec 128 := (1 : BitVec 128) <<< i

/-- The sum of the chosen unit vectors below n is x below n. -/
theorem getLsbD_foldl_units (x : BitVec 128) (n : Nat) (hn : n ≤ 128) (j : Nat) :
    ((List.range n).foldl (fun acc i => if x.getLsbD i then acc ^^^ unitBit i else acc) 0).getLsbD j
      = (decide (j < n) && x.getLsbD j) := by
  induction n with
  | zero => simp
  | succ n ih =>
    have hunit : (unitBit n).getLsbD j = decide (j = n) := by
      rw [show unitBit n = BitVec.twoPow 128 n from rfl, BitVec.getLsbD_twoPow, decide_eq_true (show n < 128 by omega), Bool.true_and]
      exact decide_eq_decide.2 eq_comm
    rw [List.range_succ, List.foldl_append, List.foldl_cons, List.foldl_nil]
    by_cases hx : x.getLsbD n
    · rw [if_pos hx, BitVec.getLsbD_xor, ih (by omega), hunit]
      rcases Nat.lt_trichotomy j n with h | rfl | h
      · simp [h, Nat.ne_of_lt h, Nat.lt_succ_of_lt h]
      · simp [hx]
      · simp [Nat.lt_asymm h, Nat.ne_of_gt h, show ¬ j < n + 1 by omega]
    · rw [if_neg hx, ih (by omega)]
      rcases Nat.lt_trichotomy j n with h | rfl | h
      · simp [h, Nat.lt_succ_of_lt h]
      · simp [hx]
      · simp [Nat.lt_asymm h, show ¬ j < n + 1 by omega]

theorem foldl_units (x : BitVec 128) : (List.range 128).foldl (fun acc i => if x.getLsbD i then acc ^^^ unitBit i else acc) 0 = x :=
  BitVec.eq_of_getLsbD_eq fun j hj => by rw [getLsbD_foldl_units x 128 (Nat.le_refl _), decide_eq_true hj, Bool.true_and]

theorem Linear.foldl {f : BitVec 128 → BitVec 128} (h : Linear f) (x : BitVec 128) (l : List Nat) (y : BitVec 128) :
    f (l.foldl (fun acc i => if x.getLsbD i then acc ^^^ unitBit i else acc) y)
      = l.foldl (fun acc i => if x.getLsbD i then acc ^^^ f (unitBit i) else acc) (f y) := by
  induction l generalizing y with
  | nil => rfl
  | cons i l ih =>
    rw [List.foldl_cons, List.foldl_cons, ih]
    by_cases hx : x.getLsbD i
    · rw [if_pos hx, if_pos hx, h]
    · rw [if_neg hx, if_neg hx]

/-- A linear map is given by its images of the unit vectors. -/
theorem applyCols_linear {f : BitVec 128 → BitVec 128} (h : Linear f) (x : BitVec 128) :
    applyCols ((List.range 128).map fun i => f (unitBit i)) x = f x := by
  have hzip : (List.range 128).zip ((List.range 128).map fun i => f (unitBit i)) = (List.range 128).map fun i => (i, f (unitBit i)) :=
    List.map_prod_left_eq_zip.symm
  rw [applyCols, hzip, List.foldl_map]
  calc _ = (List.range 128).foldl (fun acc i => if x.getLsbD i then acc ^^^ f (unitBit i) else acc) (f 0) := by rw [h.zero]
    _ = f x := by rw [← h.foldl, foldl_units]

/-- The columns of 2^k steps are those of the step iterated 2^k times. -/
theorem jumpCols_eq (k : Nat) : jumpCols k = (List.range 128).map fun i => bitSteps (2 ^ k) (unitBit i) := by
  induction k with
  | zero => rfl
  | succ k ih =>
    rw [jumpCols, ih, List.map_map]
    refine List.map_congr_left fun i _ => ?_
    rw [Function.comp_apply, applyCols_linear (linear_bitSteps _), ← bitSteps_add, ← Nat.two_mul, ← Nat.pow_succ']

/-- The two words of a generator as the 128 bits of the linear map. -/
def genBits (g : Word × Word) : BitVec 128 := g.2 ++ g.1

theorem extract_genBits (g : Word × Word) : (genBits g).extractLsb' 0 64 = g.1 ∧ (genBits g).extractLsb' 64 64 = g.2 :=
  ⟨BitVec.extractLsb'_append_eq_right, BitVec.extractLsb'_append_eq_left⟩

theorem stepBits_genBits (g : Word × Word) : stepBits (genBits g) = genBits (genStep g.1 g.2).2 := by
  obtain ⟨hlo, hhi⟩ := extract_genBits g
  rw [stepBits, hlo, hhi] <;> rfl

theorem bitSteps_genBits (n : Nat) (g : Word × Word) : bitSteps n (genBits g) = genBits (genSteps n g) := by
  induction n generalizing g with
  | zero => rfl
  | succ n ih => rw [bitSteps, stepBits_genBits, ih, genSteps]

/-- A jump is its single steps (R139). -/
theorem genJump_eq (k : Nat) (g : Word × Word) : genJump k g = genSteps (2 ^ k) g := by
  obtain ⟨hlo, hhi⟩ := extract_genBits (genSteps (2 ^ k) g)
  have h : applyCols (jumpCols k) (g.2 ++ g.1) = genBits (genSteps (2 ^ k) g) := by
    rw [jumpCols_eq, applyCols_linear (linear_bitSteps _)]
    exact bitSteps_genBits _ _
  rw [genJump, h, hlo, hhi]

/-! ### RNGF -/

/-- The value of the code with exponent field E and significand M, the hidden bit among M's. -/
theorem ieeeMag_fields (t : Ty) {E M : Nat} (hE : E ≠ 0) (hM : 2 ^ (fracBias t).1 ≤ M) (hM' : M < 2 ^ ((fracBias t).1 + 1)) :
    (ieeeMag t (2 ^ (fracBias t).1 * E + (M - 2 ^ (fracBias t).1))).val = (M : Rat) * 2 ^ ((E : Int) - (fracBias t).2 - (fracBias t).1) := by
  rw [ieeeMag_val]
  generalize (fracBias t).1 = fb at *
  have hlt : M - 2 ^ fb < 2 ^ fb := by rw [Nat.pow_succ] at hM'; omega
  rw [Nat.mul_add_div (Nat.two_pow_pos fb), Nat.div_eq_of_lt hlt, Nat.add_zero, Nat.mul_add_mod, Nat.mod_eq_of_lt hlt, if_neg hE,
    Nat.add_sub_cancel' hM]

/-- RNGF keeps a fraction's bits and one; every multiple of 2^-p below 1 is a normal value of the type. -/
theorem rngBits_spec (t : FpTy) : rngBits t = (fracBias t.ty).1 + 1 ∧ ∃ bias : Nat, (fracBias t.ty).2 = bias ∧ rngBits t < bias
    ∧ 2 ^ (fracBias t.ty).1 * bias ≤ maxFCode t.ty := by
  cases t
  case f32 => exact ⟨rfl, 127, by decide⟩
  case f16 => exact ⟨rfl, 15, by decide⟩
  case bf16 => exact ⟨rfl, 127, by decide⟩

theorem exists_dyadic_code (t : FpTy) {q : Nat} (hq : q ≠ 0) (hlt : q < 2 ^ rngBits t) :
    ∃ m ≤ maxFCode t.ty, m ≠ 0 ∧ mag t.ty m = (q : Rat) * 2 ^ (-(rngBits t : Int)) := by
  obtain ⟨hp, bias, hbias, hb, hmax⟩ := rngBits_spec t
  rw [hp] at hlt hb
  have he : Nat.log2 q < (fracBias t.ty).1 + 1 := (Nat.log2_lt hq).2 hlt
  have hlow : 2 ^ Nat.log2 q ≤ q := Nat.log2_self_le hq
  have hhigh : q < 2 ^ (Nat.log2 q + 1) := Nat.lt_log2_self
  generalize Nat.log2 q = e at *
  have hM : 2 ^ (fracBias t.ty).1 ≤ q * 2 ^ ((fracBias t.ty).1 - e) := by
    calc 2 ^ (fracBias t.ty).1 = 2 ^ e * 2 ^ ((fracBias t.ty).1 - e) := by rw [← Nat.pow_add]; congr 1; omega
      _ ≤ _ := Nat.mul_le_mul_right _ hlow
  have hM' : q * 2 ^ ((fracBias t.ty).1 - e) < 2 ^ ((fracBias t.ty).1 + 1) := by
    calc q * 2 ^ ((fracBias t.ty).1 - e) < 2 ^ (e + 1) * 2 ^ ((fracBias t.ty).1 - e) := Nat.mul_lt_mul_of_pos_right hhigh (Nat.two_pow_pos _)
      _ = _ := by rw [← Nat.pow_add]; congr 1; omega
  obtain ⟨E, hE⟩ : ∃ E, E + ((fracBias t.ty).1 + 1) = e + bias := ⟨e + bias - ((fracBias t.ty).1 + 1), by omega⟩
  have hE0 : E ≠ 0 := by omega
  refine ⟨2 ^ (fracBias t.ty).1 * E + (q * 2 ^ ((fracBias t.ty).1 - e) - 2 ^ (fracBias t.ty).1), ?_, ?_, ?_⟩
  · refine Nat.le_trans ?_ hmax
    have hEb : E + 1 ≤ bias := by omega
    rw [Nat.pow_succ] at hM'
    calc _ ≤ 2 ^ (fracBias t.ty).1 * E + 2 ^ (fracBias t.ty).1 := by omega
      _ = 2 ^ (fracBias t.ty).1 * (E + 1) := by rw [Nat.mul_succ]
      _ ≤ _ := Nat.mul_le_mul_left _ hEb
  · have : 0 < 2 ^ (fracBias t.ty).1 * E := Nat.mul_pos (Nat.two_pow_pos _) (Nat.pos_of_ne_zero hE0)
    omega
  · rw [mag_eq_ieeeMag (by cases t <;> rfl), ieeeMag_fields t.ty hE0 hM hM', hbias, hp, Rat.natCast_mul, Rat.natCast_pow,
      Rat.natCast_ofNat, Rat.mul_assoc, ← Rat.zpow_natCast, ← Rat.zpow_add (by decide)]
    congr 2
    omega

/-- A nonzero magnitude code of a scalar type decodes to its value. -/
theorem decode_magnitude (t : FpTy) {m : Nat} (hm : m ≤ maxFCode t.ty) (h0 : m ≠ 0) : decode t.ty m = .fin (magVal t.ty m) := by
  have hft : t.ty.isFloat = true := by cases t <;> rfl
  have hlt : m < 2 ^ (width t.ty - 1) := Nat.lt_of_le_of_lt hm (maxFCode_lt_signBit hft)
  have hle : 2 ^ (width t.ty - 1) ≤ 2 ^ width t.ty := Nat.pow_le_pow_right (by decide) (Nat.sub_le _ _)
  have hsign : bit m (width t.ty - 1) = false := by rw [bit, Nat.div_eq_of_lt hlt] <;> rfl
  have hclass : t.ty.isInt = false ∧ (t.ty == .e8m0) = false ∧ isTapered t.ty = false := by cases t <;> decide
  simp only [decode, hclass, Nat.mod_eq_of_lt (Nat.lt_of_lt_of_le hlt hle), Nat.mod_eq_of_lt hlt, hsign, hm, h0, if_true, if_false,
    Bool.false_eq_true, signed, magVal]

theorem exec_rngf (s : State) (t : FpTy) (d : Fin 64) :
    let r := genStep s.gen.1 s.gen.2
    let q := r.1.toNat / 2 ^ (64 - rngBits t)
    exec (.rngf t (.sx d)) s = .next ((s.setGen r.2).withScalar 4 d
      (BitVec.ofNat 64 (if q = 0 then 0 else (round t.ty .ne (Frac.scaled q (-(rngBits t : Int)))).code))) :=
  answer_result _ _ _ _

/-- The rounding that RNGF's definition names is exact (R139). -/
theorem round_dyadic (t : FpTy) {q : Nat} (hq : q ≠ 0) (hlt : q < 2 ^ rngBits t) :
    ∃ x : Frac, decode t.ty (round t.ty .ne (Frac.scaled q (-(rngBits t : Int)))).code = .fin x
      ∧ x.num * (2 ^ rngBits t : Nat) = q * (x.den : Int) := by
  obtain ⟨m, hm, h0, hmag⟩ := exists_dyadic_code t hq hlt
  have hpos : 0 < (Frac.scaled q (-(rngBits t : Int))).den := Frac.scaled_den_pos _ _
  have hval : (Frac.scaled q (-(rngBits t : Int))).val = (q : Rat) * 2 ^ (-(rngBits t : Int)) := Frac.val_scaled _ _
  have hnonneg : (0 : Rat) ≤ (q : Rat) * 2 ^ (-(rngBits t : Int)) :=
    Rat.mul_nonneg Rat.natCast_nonneg (Rat.zpow_nonneg (by decide))
  have hneg : (Frac.scaled q (-(rngBits t : Int))).isNeg = false := by
    rw [Bool.eq_false_iff, Ne, Frac.isNeg_iff hpos, hval]
    exact Rat.not_lt.2 hnonneg
  rw [round_exact (by cases t <;> rfl) .ne hpos hm (by rw [hval, hmag, Rat.abs_of_nonneg hnonneg]), hneg]
  refine ⟨magVal t.ty m, decode_magnitude t hm h0, ?_⟩
  have hcross := Frac.val_mul_den (magVal_den_pos t.ty m)
  have h2 : (2 : Rat) ^ rngBits t ≠ 0 := Rat.ne_of_gt (Rat.pow_pos (by decide))
  rw [show (magVal t.ty m).val = _ from hmag, Rat.zpow_neg, Rat.zpow_natCast] at hcross
  rw [← Rat.intCast_inj, Rat.intCast_mul, Rat.intCast_mul, ← hcross]
  simp only [Rat.intCast_natCast, Rat.natCast_pow, Rat.natCast_ofNat]
  grind

/-- Settles O16: RNGJ's jump is its single steps (`genJump_eq`), RNGF's rounding is exact (`round_dyadic`). -/
theorem generatorOps : Obligations.GeneratorOps := by
  intro s d a b t n
  refine ⟨answer_result _ _ _ _, fun k => ?_, fun o => ?_, fun ty => ?_⟩
  · have h : exec (.rngj (.sx d) (.imm k)) s = _ := answer_result (s.setGen (genJump k.val s.gen)) 8 d (genJump k.val s.gen).1
    rw [genJump_eq] at h
    exact h
  · have h : exec (.rngj (.sx d) (.reg o)) s = _ :=
      answer_result (s.setGen (genJump ((s.ri o).toNat % 128) s.gen)) 8 d (genJump ((s.ri o).toNat % 128) s.gen).1
    rw [genJump_eq] at h
    exact h
  · intro r p q
    have hp : p = rngBits ty := by cases ty <;> rfl
    have hq : q = r.1.toNat / 2 ^ (64 - rngBits ty) := by
      show (r.1 >>> (64 - p)).toNat = _
      rw [hp, BitVec.toNat_ushiftRight, Nat.shiftRight_eq_div_pow]
    have hlt : q < 2 ^ rngBits ty := by
      rw [hq, Nat.div_lt_iff_lt_mul (Nat.two_pow_pos _), ← Nat.pow_add]
      refine Nat.lt_of_lt_of_le r.1.isLt (Nat.pow_le_pow_right (by decide) ?_)
      cases ty <;> decide
    refine ⟨_, exec_rngf s ty d, fun h => ?_, fun h => ?_⟩
    · rw [hq] at h
      exact if_pos h
    · rw [if_neg (by rwa [hq] at h), hp, ← hq]
      exact round_dyadic ty h hlt

end Sys2Proof.Machine
end

