-- ==== Sys2Proof/Proofs/VectorElements.lean ====
section
/-!
Element-wise vector ops (R141 to R145): vector results as functions of the element's number, the integer and floating elements, compares,
and O17, O18 and O19.
-/
namespace Sys2Proof.Machine

/-! ### Lists by element number -/

theorem getD_map_range {β : Type} (f : Nat → β) (n j : Nat) (z : β) : ((List.range n).map f).getD j z = if j < n then f j else z := by
  rw [List.getD_eq_getElem?_getD, List.getElem?_map]
  by_cases h : j < n
  · rw [List.getElem?_range h, if_pos h] <;> rfl
  · rw [List.getElem?_eq_none (by simpa using h), if_neg h] <;> rfl

theorem elems_eq (s : State) (t : Ty) (o : Opd) (n : Nat) : s.elems t o n = (List.range n).map (s.elemAt t o) := by
  rw [State.elems, velems, List.map_map] <;> rfl

theorem zipWith_map_range {α β γ : Type} (f : α → β → γ) (x : Nat → α) (y : Nat → β) (n : Nat) :
    List.zipWith f ((List.range n).map x) ((List.range n).map y) = (List.range n).map fun j => f (x j) (y j) := by
  rw [List.zipWith_map, List.zipWith_self]

theorem elemAt_lt (s : State) (t : Ty) (o : Opd) (j : Nat) : s.elemAt t o j < 2 ^ width t := Nat.mod_lt _ (Nat.two_pow_pos _)

/-! ### Vector results -/

/-- A vector result with flags on a core: what is put in flight, and what it leaves in the register when it lands (R20, R39, R120). -/
theorem answer_wvElems_raise {s : State} {c : Fin 32} {k : Fin 8} (hc : s.cur = .core c k) (lat : Nat) (d : Fin 64) (w : Nat)
    (xs : List (Option Nat)) (fl : BitVec 5) :
    ∃ mask x : Vec,
      answer ((s.wvElems lat (.vec d) w xs).raise lat fl).done = .next (s.setCore c
        { s.core c with flight := (s.core c).flight ++ ((lat, .vreg d mask x) :: if fl = 0 then [] else [(lat, .flags fl)]) })
      ∧ ∀ (old : Vec) (j : Nat), w * (j + 1) ≤ 1024 →
          vecElem (underMask old mask x) w j = (match xs.getD j none with
            | some y => y % 2 ^ w
            | none => vecElem old w j) := by
  refine ⟨(vbuild w xs).1, (vbuild w xs).2, ?_, fun old j hj => vecElem_underMask w xs old j hj⟩
  simp only [answer, State.done, State.advance, State.wvElems, State.wv, State.raise, hc]
  by_cases hf : fl = 0
  · simp only [hf, if_true, State.put, State.modCore, State.setCore_cur, hc]
  · simp only [hf, if_false, State.put, State.modCore, State.setCore_cur, hc, State.core_setCore, State.setCore_setCore, if_true,
      List.append_assoc, List.cons_append, List.nil_append]

/-- The elements of a vector result where the predicate governs them. -/
def governedElems (n : Nat) (on : Nat → Bool) (g : Nat → Nat) : List (Option Nat) :=
  (List.range n).map fun j => if on j then some (g j) else none

theorem governed_map_range (s : State) (v : VHdr) (n : Nat) (g : Nat → Nat) :
    s.governed v ((List.range n).map g) = governedElems n (fun j => active (s.rp v.p) (vw v.ty) j) g := by
  rw [State.governed, List.length_map, List.length_range, governedElems]
  refine List.map_congr_left fun j hj => ?_
  rw [getD_map_range, if_pos (List.mem_range.1 hj)]

/-- A vector result with no flag. -/
theorem vecStep_of_elems {i : Instr} {s : State} {lat : Nat} {d : Fin 64} {w n : Nat} {g new : Nat → Option Nat}
    (he : exec i s = answer (s.wvElems lat (.vec d) w ((List.range n).map g)).done) (hg : ∀ j < n, g j = new j) :
    VecStep i s lat d w n new 0 := by
  intro c k hc
  obtain ⟨mask, x, hx, hold⟩ := answer_wvElems_raise hc lat d w ((List.range n).map g) 0
  refine ⟨mask, x, he.trans hx, fun old j hj => ?_⟩
  rw [hold old j hj, getD_map_range]
  by_cases h : j < n
  · rw [if_pos h, if_pos h, hg j h] <;> rfl
  · rw [if_neg h, if_neg h]

section
variable {i : Instr} {s : State} {lat : Nat} {v : VHdr} {d : Fin 64} {a b : Opd} {g : Nat → Nat}

theorem vecStep_vmap1 {f : Nat → Nat} (he : exec i s = answer (s.vmap1 lat v (.vec d) a f)) (hg : ∀ j, f (s.elemAt v.ty a j) = g j) :
    VecStep i s lat d (vw v.ty) (v.w.bits / vw v.ty)
      (fun j => if (s.rp v.p).getLsbD (vw v.ty * j / 8) then some (g j) else none) 0 := by
  rw [State.vmap1, elems_eq, List.map_map, governed_map_range] at he
  exact vecStep_of_elems he fun j _ => by simp only [active, Function.comp_apply, hg]

theorem vecStep_vmap2 {f : Nat → Nat → Nat} (he : exec i s = answer (s.vmap2 lat v (.vec d) a b f))
    (hg : ∀ j, f (s.elemAt v.ty a j) (s.elemAt v.ty b j) = g j) :
    VecStep i s lat d (vw v.ty) (v.w.bits / vw v.ty)
      (fun j => if (s.rp v.p).getLsbD (vw v.ty * j / 8) then some (g j) else none) 0 := by
  rw [State.vmap2, elems_eq, elems_eq, zipWith_map_range, governed_map_range] at he
  exact vecStep_of_elems he fun j _ => by simp only [active, hg]

theorem vecStep_vmove {n : Nat} (he : exec i s = answer (s.vmove lat v (.vec d) ((List.range n).map g))) :
    VecStep i s lat d (vw v.ty) n (fun j => if (s.rp v.p).getLsbD (vw v.ty * j / 8) then some (g j) else none) 0 := by
  rw [State.vmove, governed_map_range] at he
  exact vecStep_of_elems he fun _ _ => rfl

end

/-! ### Integer elements -/

theorem elemInt_elemAt (s : State) (t : Ty) (o : Opd) (j : Nat) :
    elemInt t (s.elemAt t o j) = if t.isSigned then (BitVec.ofNat (width t) (s.elemAt t o j)).toInt else s.elemAt t o j := by
  rw [elemInt, toSigned_eq_toInt, Nat.mod_eq_of_lt (elemAt_lt s t o j)]

theorem minI_le_maxI (t : Ty) : minI t ≤ maxI t := by cases t <;> decide

theorem sat_eq_clamp (t : Ty) (y : Int) : sat t y = max (minI t) (min (maxI t) y) := by
  have := minI_le_maxI t
  unfold sat
  split
  · omega
  · split <;> omega

/-- The pattern of an element's integer is the element. -/
theorem ofInt_elemInt {t : Ty} {x : Nat} (hx : x < 2 ^ width t) : ofInt (width t) (elemInt t x) = x := by
  have hw : (0 : Int) < (2 ^ width t : Nat) := by exact_mod_cast Nat.two_pow_pos (width t)
  have hmod : ((x : Int) % (2 ^ width t : Nat)).toNat = x := by
    rw [Int.emod_eq_of_lt (Int.natCast_nonneg x) (by exact_mod_cast hx), Int.toNat_natCast]
  unfold ofInt elemInt toSigned
  rw [Nat.mod_eq_of_lt hx]
  split
  · split
    · exact hmod
    · rw [Int.sub_emod_right]
      exact hmod
  · exact hmod

theorem min_elem {t : Ty} {x y : Nat} (hx : x < 2 ^ width t) (hy : y < 2 ^ width t) :
    (if elemInt t x ≤ elemInt t y then x else y) = ofInt (width t) (min (elemInt t x) (elemInt t y)) := by
  split
  next h => rw [Int.min_eq_left h, ofInt_elemInt hx]
  next h => rw [Int.min_eq_right (by omega), ofInt_elemInt hy]

theorem max_elem {t : Ty} {x y : Nat} (hx : x < 2 ^ width t) (hy : y < 2 ^ width t) :
    (if elemInt t x ≤ elemInt t y then y else x) = ofInt (width t) (max (elemInt t x) (elemInt t y)) := by
  split
  next h => rw [Int.max_eq_right h, ofInt_elemInt hy]
  next h => rw [Int.max_eq_left (by omega), ofInt_elemInt hx]

theorem isFp_of_isInt {t : Ty} (h : t.isInt = true) : t.isFp = false := by cases t <;> first | rfl | cases h

/-- Settles O17: each op is its function of the source elements (`vecStep_vmap2`), in the statement's own integers. -/
theorem vectorIntegerElements : Obligations.VectorIntegerElements := by
  intro s v d a b
  dsimp only
  simp only [← elemInt_elemAt]
  refine ⟨fun ht => ?ints, vecStep_vmap1 (by rw [exec, execVmov]) fun j => rfl, fun h c k hc => ?vnop⟩
  case vnop =>
    rw [exec, execVnop, State.done, State.advance, hc] <;> rfl
  case ints =>
    refine ⟨vecStep_vmap2 (by rw [exec, execVadd]) fun j => ?_, vecStep_vmap2 (by rw [exec, execVsub]) fun j => ?_,
      vecStep_vmap2 (by rw [exec, execVmul]) fun j => ?_, vecStep_vmap2 (by rw [exec, execVmulh]) fun j => rfl,
      vecStep_vmap2 (by rw [exec, execVmin]) fun j => min_elem (elemAt_lt ..) (elemAt_lt ..),
      vecStep_vmap2 (by rw [exec, execVmax]) fun j => max_elem (elemAt_lt ..) (elemAt_lt ..),
      vecStep_vmap1 (by rw [exec, execVabs, isFp_of_isInt ht, if_neg Bool.false_ne_true]) fun j => ?_,
      vecStep_vmap2 (by rw [exec, execVand]) fun j => rfl, vecStep_vmap2 (by rw [exec, execVor]) fun j => rfl,
      vecStep_vmap2 (by rw [exec, execVxor]) fun j => rfl, vecStep_vmap2 (by rw [exec, execVshl]) fun j => ?_,
      vecStep_vmap2 (by rw [exec, execVshr]) fun j => (Nat.shiftRight_eq_div_pow _ _).symm,
      vecStep_vmap2 (by rw [exec, execVsra]) fun j => ?vsra, vecStep_vmap1 (by rw [exec, execVpcnt]) fun j => ?vpcnt⟩
    case vsra => rw [toSigned_eq_toInt]
    case vpcnt =>
      simp only [popcount, bit, List.countP_eq_length_filter, Nat.testBit_eq_decide_div_mod_eq] <;> rfl
    all_goals rw [intElem, sat_eq_clamp]

/-! ### Floating elements (R142, R145) -/

theorem foldl_congr_mem {α β : Type} {f g : β → α → β} {l : List α} (h : ∀ b, ∀ a ∈ l, f b a = g b a) (b : β) :
    l.foldl f b = l.foldl g b := by
  induction l generalizing b with
  | nil => rfl
  | cons a l ih =>
    rw [List.foldl_cons, List.foldl_cons, h b a List.mem_cons_self]
    exact ih (fun b a ha => h b a (List.mem_cons_of_mem _ ha)) _

/-- What a rounded vector result puts in flight on a core, and what lands (R20, R120): the drawing state is the one it is issued in. -/
theorem answer_vrounds {s' : State} {c : Fin 32} {k : Fin 8} (hc : s'.cur = .core c k) (lat : Nat) (d : Fin 64) (p : Fin 8) (w n : Nat)
    (r : Nat → Rnd) :
    let on : Nat → Bool := fun j => (s'.rp p).getLsbD (w * j / 8)
    ∃ mask q : Vec,
      answer (s'.vrounds lat (.vec d) p w ((List.range n).map r)) = .next (s'.setCore c { s'.core c with flight := (s'.core c).flight ++
        ((lat, .vreg d mask q) :: if orFlags n on (fun j => (r j).fl) = 0 then [] else [(lat, .flags (orFlags n on fun j => (r j).fl))]) })
      ∧ ∀ (old : Vec) (j : Nat), w * (j + 1) ≤ 1024 →
          vecElem (underMask old mask q) w j = if j < n ∧ on j = true then (r j).code % 2 ^ w else vecElem old w j := by
  intro on
  have hget : ∀ j ∈ List.range n, ((List.range n).map r).getD j ⟨0, 0⟩ = r j := fun j hj => by
    rw [getD_map_range, if_pos (List.mem_range.1 hj)]
  have hfl : ((List.range n).filter fun j => active (s'.rp p) w j).foldl
      (fun f j => f ||| (((List.range n).map r).getD j ⟨0, 0⟩).fl) 0 = orFlags n on fun j => (r j).fl := by
    rw [List.foldl_filter, orFlags]
    refine foldl_congr_mem (fun f j hj => ?_) 0
    rw [hget j hj] <;> rfl
  have helems : (List.range n).map (fun j => if active (s'.rp p) w j then some (((List.range n).map r).getD j ⟨0, 0⟩).code else none)
      = governedElems n on fun j => (r j).code := by
    rw [governedElems]
    refine List.map_congr_left fun j hj => ?_
    rw [hget j hj] <;> rfl
  simp only [State.vrounds, List.length_map, List.length_range, hfl, helems]
  obtain ⟨mask, q, hx, hold⟩ := answer_wvElems_raise hc lat d w (governedElems n on fun j => (r j).code) (orFlags n on fun j => (r j).fl)
  refine ⟨mask, q, hx, fun old j hj => ?_⟩
  rw [hold old j hj, governedElems, getD_map_range]
  by_cases h : j < n
  · rw [if_pos h]
    cases hon : on j <;> simp [h]
  · rw [if_neg h, if_neg (fun hh => h hh.1)]

/-- A generator step leaves the predicates and the running agent. -/
theorem State.rp_setGen (s : State) (g : Word × Word) (n : Fin 8) : (s.setGen g).rp n = s.rp n := by
  unfold State.setGen
  cases h : s.cur with
  | core c k => simp only [State.rp, State.modArch_cur, h, State.core_modArch, if_true]
  | thr u => simp only [State.rp, State.modThread_cur, h, State.thread_modThread_same]

theorem State.cur_setGen (s : State) (g : Word × Word) : (s.setGen g).cur = s.cur := by
  unfold State.setGen
  split <;> rfl

theorem State.genDraws_keeps (s : State) (n : Nat) (p : Fin 8) : (s.genDraws n).2.cur = s.cur ∧ (s.genDraws n).2.rp p = s.rp p := by
  induction n generalizing s with
  | zero => exact ⟨rfl, rfl⟩
  | succ n ih =>
    obtain ⟨hcur, hrp⟩ := ih s.genNext.2
    exact ⟨hcur.trans (s.cur_setGen _), hrp.trans (s.rp_setGen _ _)⟩

section
variable {s : State} {v : VHdr} {d a b : Opd} {n : Nat}

theorem vfmap2_eq (lat : Nat) (f : Ty → Nat → Nat → Rnd) :
    s.vfmap2 lat v d a b f = s.vrounds lat d v.p (vw v.ty)
      ((List.range (vcount v)).map fun j => f v.ty (s.elemAt v.ty a j) (s.elemAt v.ty b j)) := by
  rw [State.vfmap2, elems_eq, elems_eq, zipWith_map_range]

theorem execVfma_eq : execVfma v d a b s = answer (s.vrounds 5 d v.p (vw v.ty)
    ((List.range (vcount v)).map fun j => fpFma v.ty (s.elemAt v.ty a j) (s.elemAt v.ty b j) (s.elemAt v.ty d j))) := by
  simp only [execVfma, elems_eq, zipWith_map_range]

theorem execVabs_of_fp (h : v.ty.isFp = true) : execVabs v d a s = answer (s.vrounds 2 d v.p (vw v.ty)
    ((List.range (vcount v)).map fun j => fpSgn v.ty .abs (s.elemAt v.ty a j) 0)) := by
  rw [execVabs, if_pos h, elems_eq, List.map_map] <;> rfl

theorem execVcvt_of_ints {t1 : Ty} (h1 : t1.isInt = true) (h2 : v.ty.isInt = true) : execVcvt v t1 d a s = answer (s.vrounds 4 d v.p (vw v.ty)
    ((List.range (v.w.bits / max (vw t1) (vw v.ty))).map fun j => ⟨intElem v (elemInt t1 (s.elemAt t1 a j)), 0⟩)) := by
  simp only [execVcvt, elems_eq, h1, h2, Bool.and_self, if_true, List.map_map] <;> rfl

theorem execVcvt_of_not_stoch {t1 : Ty} (h : ¬ (t1.isInt = true ∧ v.ty.isInt = true))
    (hs : (s.fmt.getLsbD 17 && !v.ty.isInt && narrowing t1 v.ty) = false) : execVcvt v t1 d a s = answer (s.vrounds 4 d v.p (vw v.ty)
    ((List.range (v.w.bits / max (vw t1) (vw v.ty))).map fun j =>
      convert v.ty (rmodeOf (s.fmt.extractLsb' 15 2).toNat) (decode t1 (s.elemAt t1 a j)))) := by
  have hr : bits s.fmt.toNat 16 15 = (s.fmt.extractLsb' 15 2).toNat := bits_toNat_eq_extractLsb' s.fmt 15 1
  have hint : (t1.isInt && v.ty.isInt) = false := by rw [Bool.eq_false_iff, Ne, Bool.and_eq_true]; exact h
  simp only [execVcvt, elems_eq, hint, convertFmt, bit_toNat, hs, hr, Bool.false_eq_true, if_false]
  congr 2
  exact List.map_congr_left fun j hj => by rw [getD_map_range, if_pos (List.mem_range.1 hj)]

theorem execVcvt_of_stoch {t1 : Ty} (hs : (s.fmt.getLsbD 17 && !v.ty.isInt && narrowing t1 v.ty) = true) :
    let n := v.w.bits / max (vw t1) (vw v.ty)
    let draws := s.genDraws ((n + 1) / 2)
    execVcvt v t1 d a s = answer (draws.2.vrounds 4 d v.p (vw v.ty) ((List.range n).map fun j =>
      roundStoch v.ty (decode t1 (s.elemAt t1 a j)) ((draws.1.getD (j / 2) 0).toNat / 2 ^ (32 * (j % 2)) % 2 ^ 32))) := by
  have hint : (t1.isInt && v.ty.isInt) = false := by
    cases h : v.ty.isInt
    · exact Bool.and_false _
    · simp [h] at hs
  simp only [execVcvt, elems_eq, hint, convertFmt, bit_toNat, hs, Bool.false_eq_true, if_false, if_true]
  congr 2
  exact List.map_congr_left fun j hj => by rw [getD_map_range, if_pos (List.mem_range.1 hj)] <;> rfl

end

/-- Settles O18: each op is a rounded vector result (`answer_vrounds`) of its elements' function. -/
theorem vectorFloatingElements : Obligations.VectorFloatingElements := by
  intro s v d a b w n x y z on step
  have rounds {i : Instr} {s' : State} {lat m : Nat} {f g : Nat → Rnd}
      (he : exec i s = answer (s'.vrounds lat (.vec d) v.p (vw v.ty) ((List.range m).map f))) (hcur : s'.cur = s.cur)
      (hrp : s'.rp v.p = s.rp v.p) (hg : f = g) : step i s' lat m g := by
    intro c k hc
    subst hg
    have h := answer_vrounds (hcur.trans hc) lat d v.p (vw v.ty) m f
    rw [hrp, ← he] at h
    exact h
  refine ⟨fun hfp => ⟨rounds (by rw [exec, execVfadd, vfmap2_eq] <;> rfl) rfl rfl rfl,
    rounds (by rw [exec, execVfsub, vfmap2_eq] <;> rfl) rfl rfl rfl,
    rounds (by rw [exec, execVfmul, vfmap2_eq] <;> rfl) rfl rfl rfl, rounds (by rw [exec, execVfma_eq] <;> rfl) rfl rfl rfl,
    rounds (by rw [exec, execVfmin, vfmap2_eq] <;> rfl) rfl rfl rfl, rounds (by rw [exec, execVfmax, vfmap2_eq] <;> rfl) rfl rfl rfl,
    rounds (by rw [exec, execVabs_of_fp hfp] <;> rfl) rfl rfl rfl⟩, ?_⟩
  intro t1 m e stoch
  refine ⟨fun ⟨h1, h2⟩ => rounds (by rw [exec, execVcvt_of_ints h1 h2]) rfl rfl ?_,
    fun h hs => rounds (by rw [exec, execVcvt_of_not_stoch h hs]) rfl rfl rfl, fun hs => ?_⟩
  · funext j
    rw [intElem, sat_eq_clamp]
  · exact rounds (by rw [exec, execVcvt_of_stoch hs]) (s.genDraws_keeps _ v.p).1 (s.genDraws_keeps _ v.p).2 rfl

/-! ### Compares (R143) -/

/-- The predicate elements of a compare: all ones or all zeros where the governing predicate is set. -/
def outcomes (w n : Nat) (on out : Nat → Bool) : List (Option Nat) :=
  (List.range n).map fun j => if on j then some (if out j then 2 ^ w - 1 else 0) else none

theorem underMask_outcomes {w : Nat} (hw : 0 < w) (n : Nat) (on out : Nat → Bool) (old : Pred) {i : Nat} (hi : i < 128) :
    (underMask old ((vbuild w (outcomes w n on out)).1.setWidth 128) ((vbuild w (outcomes w n on out)).2.setWidth 128)).getLsbD i
      = if i / w < n ∧ on (i / w) = true then out (i / w) else old.getLsbD i := by
  have hdm : w * (i / w) + i % w = i := Nat.div_add_mod i w
  obtain ⟨hmask, hnew⟩ := vbuild_getLsbD w (outcomes w n on out) (i / w) (i % w) (Nat.mod_lt i hw) (by omega)
  rw [hdm, outcomes, getD_map_range] at hmask hnew
  simp only [underMask, BitVec.getLsbD_or, BitVec.getLsbD_and, BitVec.getLsbD_not, BitVec.getLsbD_setWidth, hi, decide_true, Bool.true_and,
    outcomes, hmask, hnew]
  by_cases hn : i / w < n
  · cases hon : on (i / w)
    · simp [hn]
    · cases hout : out (i / w) <;> simp [hn, Nat.mod_lt i hw]
  · simp [hn]

/-- A compare's predicate and flags, by element number. -/
theorem vcompare_eq (s : State) (lat : Nat) (v : VHdr) (pd : Fin 8) (a b : Opd) (f : Nat → Nat → Bool × BitVec 5) :
    s.vcompare lat v pd a b f =
      ((s.wp lat pd
          ((vbuild (vw v.ty / 8) (outcomes (vw v.ty / 8) (vcount v) (active (s.rp v.p) (vw v.ty))
            fun j => (f (s.elemAt v.ty a j) (s.elemAt v.ty b j)).1)).1.setWidth 128)
          ((vbuild (vw v.ty / 8) (outcomes (vw v.ty / 8) (vcount v) (active (s.rp v.p) (vw v.ty))
            fun j => (f (s.elemAt v.ty a j) (s.elemAt v.ty b j)).1)).2.setWidth 128)).raise lat
        (orFlags (vcount v) (active (s.rp v.p) (vw v.ty)) fun j => (f (s.elemAt v.ty a j) (s.elemAt v.ty b j)).2)).done := by
  have hget : ∀ j ∈ List.range (vcount v), ((List.range (vcount v)).map fun j => f (s.elemAt v.ty a j) (s.elemAt v.ty b j)).getD j (false, 0)
      = f (s.elemAt v.ty a j) (s.elemAt v.ty b j) := fun j hj => by
    rw [getD_map_range, if_pos (List.mem_range.1 hj)]
  have hfl : ((List.range (vcount v)).filter fun j => active (s.rp v.p) (vw v.ty) j).foldl
      (fun g j => g ||| (((List.range (vcount v)).map fun j => f (s.elemAt v.ty a j) (s.elemAt v.ty b j)).getD j (false, 0)).2) 0
      = orFlags (vcount v) (active (s.rp v.p) (vw v.ty)) fun j => (f (s.elemAt v.ty a j) (s.elemAt v.ty b j)).2 := by
    rw [List.foldl_filter]
    refine foldl_congr_mem (fun g j hj => ?_) 0
    rw [hget j hj]
  have helems : (List.range (vcount v)).map (fun j => if active (s.rp v.p) (vw v.ty) j then
      some (if (((List.range (vcount v)).map fun j => f (s.elemAt v.ty a j) (s.elemAt v.ty b j)).getD j (false, 0)).1
        then 2 ^ (vw v.ty / 8) - 1 else 0) else none)
      = outcomes (vw v.ty / 8) (vcount v) (active (s.rp v.p) (vw v.ty)) fun j => (f (s.elemAt v.ty a j) (s.elemAt v.ty b j)).1 := by
    refine List.map_congr_left fun j hj => ?_
    rw [hget j hj]
  simp only [State.vcompare, elems_eq, zipWith_map_range, List.length_map, List.length_range]
  rw [hfl, helems]

/-- A predicate result with flags on a core. -/
theorem answer_wp_raise {s : State} {c : Fin 32} {k : Fin 8} (hc : s.cur = .core c k) (lat : Nat) (pd : Fin 8) (mask q : Pred)
    (fl : BitVec 5) :
    answer ((s.wp lat pd mask q).raise lat fl).done
      = .next (if pd = 0 ∧ fl = 0 then s else s.setCore c { s.core c with flight := (s.core c).flight ++
          ((if pd = 0 then [] else [(lat, .preg pd mask q)]) ++ if fl = 0 then [] else [(lat, .flags fl)]) }) := by
  simp only [answer, State.done, State.advance, State.wp, State.raise]
  by_cases hp : pd = 0
  · by_cases hf : fl = 0
    · simp only [hp, hf, if_true, and_self, hc]
    · simp only [hp, hf, if_true, if_false, and_false, State.put, State.modCore, State.setCore_cur, hc, List.nil_append]
  · by_cases hf : fl = 0
    · simp only [hp, hf, if_true, if_false, false_and, State.put, State.modCore, State.setCore_cur, hc, List.append_nil]
    · simp only [hp, hf, if_false, false_and, State.put, State.modCore, State.setCore_cur, hc, State.core_setCore,
        State.setCore_setCore, if_true, List.append_assoc]

/-- A compare on a core: what it puts in flight, and what it leaves in the predicate when it lands. -/
theorem answer_vcompare {s : State} {c : Fin 32} {k : Fin 8} (hc : s.cur = .core c k) (lat : Nat) (v : VHdr) (pd : Fin 8) (a b : Opd)
    (f : Nat → Nat → Bool × BitVec 5) (hw : 8 ∣ vw v.ty) (h0 : 0 < vw v.ty) :
    let on : Nat → Bool := fun j => (s.rp v.p).getLsbD (vw v.ty * j / 8)
    let r : Nat → Bool × BitVec 5 := fun j => f (s.elemAt v.ty a j) (s.elemAt v.ty b j)
    let fl := orFlags (vcount v) on fun j => (r j).2
    ∃ mask q : Pred,
      answer (s.vcompare lat v pd a b f) = .next (if pd = 0 ∧ fl = 0 then s else s.setCore c { s.core c with flight := (s.core c).flight ++
          ((if pd = 0 then [] else [(lat, .preg pd mask q)]) ++ if fl = 0 then [] else [(lat, .flags fl)]) })
      ∧ ∀ (old : Pred) (i : Nat), i < 128 → (underMask old mask q).getLsbD i =
          if 8 * i / vw v.ty < vcount v ∧ on (8 * i / vw v.ty) = true then (r (8 * i / vw v.ty)).1 else old.getLsbD i := by
  intro on r fl
  rw [vcompare_eq]
  refine ⟨_, _, answer_wp_raise hc lat pd _ _ fl, fun old i hi => ?_⟩
  have hdiv : 8 * i / vw v.ty = i / (vw v.ty / 8) := by
    obtain ⟨m, hm⟩ := hw
    rw [hm, Nat.mul_div_mul_left _ _ (by decide), Nat.mul_div_cancel_left _ (by decide)]
  rw [hdiv]
  exact underMask_outcomes (Nat.div_pos (Nat.le_of_dvd h0 hw) (by decide)) _ _ _ old hi

theorem vw_of_number {t : Ty} (h : t.isInt = true ∨ t.isFp = true) : 8 ∣ vw t ∧ 0 < vw t := by
  cases t <;> first | exact ⟨by decide, by decide⟩ | exact absurd h (by decide)

theorem orFlags_zero (n : Nat) (on : Nat → Bool) : orFlags n on (fun _ => 0) = 0 := by
  unfold orFlags
  induction n with
  | zero => rfl
  | succ n ih => rw [List.range_succ, List.foldl_append, ih, List.foldl_cons, List.foldl_nil]; simp

/-- Settles O19: both ops are a compare (`answer_vcompare`) with their outcome. -/
theorem vectorCompares : Obligations.VectorCompares := by
  intro s v pd a b cc c k hc
  dsimp only
  refine ⟨fun ht => ?_, fun hf => ?_⟩
  · obtain ⟨hw, h0⟩ := vw_of_number (Or.inl ht)
    obtain ⟨mask, q, hx, hold⟩ := answer_vcompare hc 2 v pd a b (fun x y => (intCmp v.ty cc x y, 0)) hw h0
    rw [orFlags_zero] at hx
    refine ⟨?_, ?_, ?_, ?_, ?_, ?_⟩ <;>
    · intro hcc
      subst hcc
      exact ⟨mask, q, hx, hold⟩
  · obtain ⟨hw, h0⟩ := vw_of_number (Or.inr hf)
    exact answer_vcompare hc 4 v pd a b (fpCmp v.ty cc) hw h0

end Sys2Proof.Machine
end

