-- ==== Sys2Proof/Proofs/VectorMoves.lean ====
section
/-!
Vector ops that move elements, dot products and tile rows (R144, R146 to R148): lists taken in turn, elements read by position, and
O20 and O21.
-/
namespace Sys2Proof.Machine

/-! ### Element counts and positions -/

theorem count_even (w : VW) (t : Ty) : 2 ∣ w.bits / vw t ∧ 0 < w.bits / vw t := by
  cases w <;> cases t <;> decide

theorem vcount_even (v : VHdr) : 2 ∣ vcount v ∧ 0 < vcount v := count_even v.w v.ty

theorem interleave_map_range (f g : Nat → Nat) (m : Nat) :
    interleave ((List.range m).map f) ((List.range m).map g)
      = (List.range (2 * m)).map fun j => if j % 2 = 0 then f (j / 2) else g (j / 2) := by
  induction m generalizing f g with
  | zero => rfl
  | succ m ih =>
    have h2 : 2 * (m + 1) = 2 * m + 1 + 1 := by omega
    simp only [h2, List.range_succ_eq_map, List.map_cons, List.map_map, interleave, ih]
    refine congrArg (List.cons _) (congrArg (List.cons _) (List.map_congr_left fun j _ => ?_))
    have hm : (j + 1 + 1) % 2 = j % 2 := by omega
    have hd : (j + 1 + 1) / 2 = j / 2 + 1 := by omega
    simp only [Function.comp_apply, Nat.succ_eq_add_one, hm, hd]

theorem evens_map_range (f : Nat → Nat) (m : Nat) : evens ((List.range (2 * m)).map f) = (List.range m).map fun j => f (2 * j) := by
  induction m generalizing f with
  | zero => rfl
  | succ m ih =>
    have h2 : 2 * (m + 1) = 2 * m + 1 + 1 := by omega
    simp only [h2, List.range_succ_eq_map, List.map_cons, List.map_map, evens]
    exact congrArg (List.cons _) (ih ((f ∘ Nat.succ) ∘ Nat.succ))

/-- Element j of a list of elements, where j is one of them. -/
theorem getD_elems (s : State) (t : Ty) (o : Opd) {n j : Nat} (hj : j < n) : (s.elems t o n).getD j 0 = s.elemAt t o j := by
  rw [elems_eq, getD_map_range, if_pos hj]

section
variable {s : State} {v : VHdr} {d : Fin 64} {a b : Opd}

/-- A governed move of elements given by position. -/
theorem vecStep_vmove_of {i : Instr} {lat : Nat} {xs : List Nat} {g : Nat → Nat} (he : exec i s = answer (s.vmove lat v (.vec d) xs))
    (hx : xs = (List.range (vcount v)).map g) :
    VecStep i s lat d (vw v.ty) (v.w.bits / vw v.ty)
      (fun j => if (s.rp v.p).getLsbD (vw v.ty * j / 8) then some (g j) else none) 0 := by
  subst hx
  exact vecStep_vmove he

theorem vecStep_vzip : VecStep (.vzip v (.vec d) a b) s 2 d (vw v.ty) (v.w.bits / vw v.ty)
    (fun j => if (s.rp v.p).getLsbD (vw v.ty * j / 8) then
      some (if j % 2 = 0 then s.elemAt v.ty a (j / 2) else s.elemAt v.ty b (j / 2)) else none) 0 := by
  refine vecStep_vmove_of (by rw [exec, execVzip]) ?_
  obtain ⟨m, hm⟩ := (vcount_even v).1
  rw [elems_eq, elems_eq, ← List.map_take, ← List.map_take, List.take_range, Nat.min_eq_left (Nat.div_le_self _ _), interleave_map_range,
    Nat.mul_div_cancel' (vcount_even v).1]

theorem vecStep_vunzip : VecStep (.vunzip v (.vec d) a b) s 2 d (vw v.ty) (v.w.bits / vw v.ty)
    (fun j => if (s.rp v.p).getLsbD (vw v.ty * j / 8) then
      some (if j < v.w.bits / vw v.ty / 2 then s.elemAt v.ty a (2 * j) else s.elemAt v.ty b (2 * (j - v.w.bits / vw v.ty / 2)))
      else none) 0 := by
  refine vecStep_vmove_of (by rw [exec, execVunzip]) ?_
  obtain ⟨m, hm⟩ := (vcount_even v).1
  change _ = (List.range (vcount v)).map fun j => if j < vcount v / 2 then _ else s.elemAt v.ty b (2 * (j - vcount v / 2))
  have hhalf : 2 * m / 2 = m := by omega
  rw [elems_eq, elems_eq, hm, evens_map_range, evens_map_range, hhalf, Nat.two_mul, List.range_add, List.map_append, List.map_map]
  refine congr (congrArg HAppend.hAppend (List.map_congr_left fun j hj => ?_)) (List.map_congr_left fun j _ => ?_)
  · rw [if_pos (List.mem_range.1 hj)]
  · simp only [Function.comp_apply, if_neg (Nat.not_lt.2 (Nat.le_add_right m j)), Nat.add_sub_cancel_left]

theorem vecStep_vslide : VecStep (.vslide v (.vec d) a b) s 2 d (vw v.ty) (v.w.bits / vw v.ty)
    (fun j => if (s.rp v.p).getLsbD (vw v.ty * j / 8) then
      some (if 0 ≤ (j : Int) + (s.ri b).toInt ∧ (j : Int) + (s.ri b).toInt < (v.w.bits / vw v.ty : Nat)
        then s.elemAt v.ty a ((j : Int) + (s.ri b).toInt).toNat else 0) else none) 0 := by
  refine vecStep_vmove_of (by rw [exec, execVslide]) (List.map_congr_left fun j _ => ?_)
  change _ = if 0 ≤ (j : Int) + (s.ri b).toInt ∧ (j : Int) + (s.ri b).toInt < (vcount v : Nat) then _ else 0
  split
  next h => exact getD_elems s v.ty a (by omega)
  next => rfl

theorem vecStep_vperm : VecStep (.vperm v (.vec d) a b) s 2 d (vw v.ty) (v.w.bits / vw v.ty)
    (fun j => if (s.rp v.p).getLsbD (vw v.ty * j / 8) then
      some (s.elemAt v.ty a (s.elemAt v.ty b j % (v.w.bits / vw v.ty))) else none) 0 := by
  refine vecStep_vmove_of (by rw [exec, execVperm]) ?_
  rw [elems_eq s v.ty b, List.map_map]
  exact List.map_congr_left fun j _ => getD_elems s v.ty a (Nat.mod_lt _ (vcount_even v).2)

theorem vecStep_vcprs : VecStep (.vcprs v (.vec d) a) s 2 d (vw v.ty) (v.w.bits / vw v.ty)
    (fun j => (((List.range (v.w.bits / vw v.ty)).filter fun j => (s.rp v.p).getLsbD (vw v.ty * j / 8))[j]?).map (s.elemAt v.ty a)) 0 := by
  refine vecStep_of_elems (by rw [exec, execVcprs] <;> rfl) fun j _ => ?_
  refine Option.map_congr fun i hi => getD_elems s v.ty a ?_
  have := List.mem_of_getElem? hi
  exact List.mem_range.1 (List.mem_filter.1 this).1

/-- An element's code extended by its type to a word (R117, R129). -/
theorem ofNat_convWord {t : Ty} {x : Nat} (hx : x < 2 ^ width t) : BitVec.ofNat 64 (convWord t x) =
    if t.isSigned then (BitVec.ofNat (width t) x).signExtend 64 else BitVec.ofNat 64 x := by
  unfold convWord
  split
  next h =>
    have hofInt : ∀ z : Int, BitVec.ofNat 64 (ofInt 64 z) = BitVec.ofInt 64 z := fun z =>
      BitVec.eq_of_toNat_eq (by rw [BitVec.toNat_ofNat, BitVec.toNat_ofInt, ofInt, Nat.mod_eq_of_lt] <;> omega)
    rw [hofInt, toSigned_eq_toInt, BitVec.signExtend]
  next => rw [Nat.mod_eq_of_lt hx]

end

/-- Settles O20: each op is an element write by position. -/
theorem vectorDataMovement : Obligations.VectorDataMovement := by
  intro s v d a b
  refine ⟨?vsel, ?vsplat, ?vins, vecStep_vperm, vecStep_vslide, vecStep_vzip, vecStep_vunzip, vecStep_vcprs, fun _ => ?viota,
    fun c q hc => ?vext⟩
  · exact vecStep_of_elems (by rw [exec, execVsel, State.vall, List.map_map] <;> rfl) fun j hj => by
      have hj' : j < vcount v := hj
      simp only [Function.comp_apply, getD_elems s v.ty _ hj', active]
  · exact vecStep_vmove_of (by rw [exec, execVsplat]) (by rw [List.map_const', List.length_range])
  · exact vecStep_of_elems (by rw [exec, execVins] <;> rfl) fun j _ => by
      simp only [Bool.and_eq_true, decide_eq_true_eq, active] <;> rfl
  · exact vecStep_of_elems (by rw [exec, execViota, State.vall, List.map_map] <;> rfl) fun j _ => by
      rw [List.countP_eq_length_filter] <;> rfl
  · have hk : (s.ri b).toNat % vcount v < vcount v := Nat.mod_lt _ (vcount_even v).2
    have hx : exec (.vext v (.sx d) a b) s = answer
        (if active (s.rp v.p) (vw v.ty) ((s.ri b).toNat % vcount v) then s.result 2 (.sx d) (BitVec.ofNat 64
          (convWord v.ty ((s.elems v.ty a (vcount v)).getD ((s.ri b).toNat % vcount v) 0))) else s.done) := rfl
    rw [hx, getD_elems s v.ty a hk, ofNat_convWord (elemAt_lt ..), apply_ite answer, answer_result, answer_done, apply_ite Host.Outcome.next]
    simp only [State.moveOn, hc]
    rfl

/-! ### VDOT4 and tile rows (R147, R148) -/

/-- A byte of a 32-bit element is the byte element at its place. -/
theorem byte_vecElem (x : Vec) (j i : Nat) (hi : i < 4) : vecElem x 32 j / 2 ^ (8 * i) % 256 = vecElem x 8 (4 * j + i) := by
  have hsplit : 2 ^ 32 = 2 ^ (8 * i) * 2 ^ (32 - 8 * i) := by rw [← Nat.pow_add]; congr 1; omega
  have hbyte : (256 : Nat) ∣ 2 ^ (32 - 8 * i) := ⟨2 ^ (24 - 8 * i), by rw [show 256 = 2 ^ 8 from rfl, ← Nat.pow_add]; congr 1; omega⟩
  have hplace : 8 * (4 * j + i) = 32 * j + 8 * i := by omega
  simp only [vecElem]
  rw [hsplit, Nat.mod_mul_right_div_self, Nat.mod_mod_of_dvd _ hbyte, Nat.div_div_eq_div_mul, ← Nat.pow_add, hplace] <;> rfl

theorem dot4_vecElem (v : VHdr) (x y z : Vec) (j : Nat) :
    let t32 : Ty := if v.ty.isSigned then .i32 else .n32
    let byte : Vec → Nat → Int := fun x j => elemInt v.ty (vecElem x 8 j)
    let sum := elemInt t32 (vecElem z 32 j) + byte x (4 * j) * byte y (4 * j)
        + byte x (4 * j + 1) * byte y (4 * j + 1) + byte x (4 * j + 2) * byte y (4 * j + 2) + byte x (4 * j + 3) * byte y (4 * j + 3)
    dot4 v (vecElem z 32 j) (vecElem x 32 j) (vecElem y 32 j)
      = ofInt 32 (if v.sat then max (minI t32) (min (maxI t32) sum) else sum) := by
  have h0 (x : Vec) : vecElem x 32 j / 2 ^ (8 * 0) % 256 = vecElem x 8 (4 * j) := byte_vecElem x j 0 (by decide)
  simp only [dot4, h0, byte_vecElem _ j 1 (by decide), byte_vecElem _ j 2 (by decide), byte_vecElem _ j 3 (by decide), sat_eq_clamp]

/-- Settles O21: VDOT4 and VACCRD as element writes, VACCWR as one landing on the tile. -/
theorem dotProductsAndTileRows : Obligations.DotProductsAndTileRows := by
  intro s v d a b
  have h4 : ∀ j, active (s.rp v.p) 32 j = (s.rp v.p).getLsbD (4 * j) := fun j => by rw [active]; congr 1; omega
  refine ⟨fun ht => ?dot4, fun ht t => ?tile⟩
  case dot4 =>
    refine vecStep_of_elems (g := fun j => if (s.rp v.p).getLsbD (4 * j) then
      some (dot4 v (vecElem (s.rv v.ty (.vec d)) 32 j) (vecElem (s.rv v.ty a) 32 j) (vecElem (s.rv v.ty b) 32 j)) else none) ?_ fun j _ => ?_
    · rw [exec, execVdot4]
      simp only [velems, zipWith_map_range]
      refine congrArg (fun xs => answer (s.wvElems 5 (.vec d) 32 xs).done) (List.map_congr_left fun j hj => ?_)
      rw [h4, getD_map_range, if_pos (List.mem_range.1 hj)]
    · rw [dot4_vecElem]
      obtain h | h := ht <;> rw [h] <;> rfl
  case tile =>
    have hw : vw v.ty = 32 := by obtain h | h | h := ht <;> rw [h] <;> rfl
    have hwidth : width v.ty = 32 := by obtain h | h | h := ht <;> rw [h] <;> rfl
    refine ⟨?_, fun c k hc => ?_⟩
    · refine vecStep_of_elems (g := fun j => if (s.rp v.p).getLsbD (4 * j) then
        some ((s.tileCur t).getD (32 * ((s.ri b).toNat % 32) + j) 0).toNat else none) ?_ fun j _ => rfl
      rw [exec, execVaccrd, State.vmove, governed_map_range, governedElems, hw, vcount, hw]
      simp only [h4] <;> rfl
    · rw [exec, execVaccwr, vcount, hw]
      simp only [h4, answer_done, State.putCur, hc, State.put, State.moveOn, State.modCore, State.setCore_cur, tileNo]
      refine congrArg (fun xs => Host.Outcome.next (s.setCore c { s.core c with flight := (s.core c).flight ++ [(3, .acc t xs)] }))
        (List.map_congr_left fun j hj => ?_)
      have hj' : j < v.w.bits / 32 := List.mem_range.1 (List.mem_filter.1 hj).1
      rw [getD_elems s v.ty a hj', State.elemAt, hw, hwidth, vecElem, Nat.mod_mod]

end Sys2Proof.Machine
end

