-- ==== Sys2Proof/Proofs/Latches.lean ====
section
/-!
Reduction latches (R149 to R151): an integer tree as one fold of its operation, what a value does to its latch, the read of a latch, and
O22 and O23.
-/
namespace Sys2Proof.Machine

theorem or_noFlags (f : BitVec 5) : f ||| 0 = f := BitVec.or_zero

/-! ### The integer tree -/

/-- The operation of an integer tree: 0 add, 1 maximum, else minimum (R149). -/
def treeInt (op : Nat) (x y : Int) : Int :=
  match op with
  | 0 => x + y
  | 1 => max x y
  | _ => min x y

theorem treeCombine_int (op : Nat) (x y : Int) : treeCombine op false x y = (treeInt op x y, 0) := by
  obtain _ | _ | op := op <;> rfl

theorem treeInt_assoc (op : Nat) : Std.Associative (treeInt op) := ⟨fun x y z => by
  obtain _ | _ | op := op
  · exact Int.add_assoc x y z
  · exact Int.max_assoc x y z
  · exact Int.min_assoc x y z⟩

/-- The values that are there, combined in order. -/
def treeTotal (op : Nat) (l : List (Option Int)) : Option Int := l.foldr (Option.merge (treeInt op)) none

theorem treeLevel_int (op m : Nat) (l : List (Option Int)) (hl : l.length = 2 * m) :
    (treeLevel op false l).2 = 0 ∧ (treeLevel op false l).1.length = m ∧ treeTotal op (treeLevel op false l).1 = treeTotal op l := by
  induction m generalizing l with
  | zero =>
    rw [List.length_eq_zero_iff.1 hl]
    exact ⟨rfl, rfl, rfl⟩
  | succ m ih =>
    obtain _ | ⟨x, _ | ⟨y, t⟩⟩ := l
    · cases hl
    · simp at hl
      omega
    · obtain ⟨hf, hlen, htot⟩ := ih t (by simp at hl; omega)
      have hmerge : treeLevel op false (x :: y :: t)
          = (Option.merge (treeInt op) x y :: (treeLevel op false t).1, (treeLevel op false t).2) := by
        cases x <;> cases y <;> simp [treeLevel, treeCombine_int]
      have := treeInt_assoc op
      have hassoc : Std.Associative (Option.merge (treeInt op)) := inferInstance
      rw [hmerge]
      refine ⟨hf, congrArg (· + 1) hlen, ?_⟩
      exact (congrArg (Option.merge (treeInt op) (Option.merge (treeInt op) x y)) htot).trans (hassoc.assoc _ _ _)

theorem tree_int (op k : Nat) (l : List (Option Int)) (hl : l.length = 2 ^ k) : tree op false k l = (treeTotal op l, 0) := by
  induction k generalizing l with
  | zero =>
    obtain ⟨x, rfl⟩ := List.length_eq_one_iff.1 hl
    cases x <;> rfl
  | succ k ih =>
    obtain ⟨hf, hlen, htot⟩ := treeLevel_int op (2 ^ k) l (by rw [hl, Nat.pow_succ, Nat.mul_comm])
    rw [tree, ih _ hlen, hf, htot, or_noFlags]

theorem treeTotal_governed (op : Nat) (on : Nat → Bool) (x : Nat → Int) (l : List Nat) :
    treeTotal op (l.map fun j => if on j then some (x j) else none) = treeTotal op (((l.filter on).map x).map some) := by
  induction l with
  | nil => rfl
  | cons j l ih =>
    unfold treeTotal at ih ⊢
    cases h : on j <;> simp [h, ih]

theorem treeTotal_add (l : List Int) : treeTotal 0 (l.map some) = if l = [] then none else some l.sum := by
  induction l with
  | nil => rfl
  | cons x l ih =>
    unfold treeTotal at ih ⊢
    rw [List.map_cons, List.foldr_cons, ih]
    by_cases h : l = []
    · simp [h]
    · simp [h, treeInt]

theorem treeTotal_max (l : List Int) : treeTotal 1 (l.map some) = l.max? := by
  induction l with
  | nil => rfl
  | cons x l ih =>
    unfold treeTotal at ih ⊢
    rw [List.map_cons, List.foldr_cons, ih, List.max?_cons]
    cases l.max? <;> rfl

theorem treeTotal_min (l : List Int) : treeTotal 2 (l.map some) = l.min? := by
  induction l with
  | nil => rfl
  | cons x l ih =>
    unfold treeTotal at ih ⊢
    rw [List.map_cons, List.foldr_cons, ih, List.min?_cons]
    cases l.min? <;> rfl

/-! ### Reductions and latches -/

theorem two_pow_log2_vcount (v : VHdr) : 2 ^ Nat.log2 (vcount v) = vcount v := by
  have h : ∀ (w : VW) (t : Ty), 2 ^ Nat.log2 (w.bits / vw t) = w.bits / vw t := fun w t => by cases w <;> cases t <;> decide
  exact h v.w v.ty

/-- A latch's value on its way, with its flags (R149). -/
def State.sendLatch (s : State) (c : Nat) (ps op : Nat) (v : VHdr) (r : Option Int × BitVec 5) : State :=
  match r.1 with
  | none => s
  | some x => s.setCore c { s.core c with flight := (s.core c).flight ++
      ((6, .latch ps op v.ty v.sat x) :: if r.2 = 0 then [] else [(6, .flags r.2)]) }

theorem answer_reduce {s : State} {c : Fin 32} {k : Fin 8} (hc : s.cur = .core c k) (op : Nat) (v : VHdr) (ps : Fin 4) (a : Opd) :
    answer (s.reduce op v ps a) = .next (s.sendLatch c ps op v (tree op v.ty.isFp (Nat.log2 (vcount v)) ((List.range (vcount v)).map fun j =>
      if (s.rp v.p).getLsbD (vw v.ty * j / 8) then
        some (if v.ty.isFp then (latchElem v.ty (s.elemAt v.ty a j) : Int) else elemInt v.ty (s.elemAt v.ty a j)) else none))) := by
  have hes : ((List.range (vcount v)).map fun i =>
      if active (s.rp v.p) (vw v.ty) i then
        some (if v.ty.isFp then (latchElem v.ty ((s.elems v.ty a (vcount v)).getD i 0) : Int)
          else elemInt v.ty ((s.elems v.ty a (vcount v)).getD i 0))
      else none)
      = (List.range (vcount v)).map fun j => if (s.rp v.p).getLsbD (vw v.ty * j / 8) then
        some (if v.ty.isFp then (latchElem v.ty (s.elemAt v.ty a j) : Int) else elemInt v.ty (s.elemAt v.ty a j)) else none :=
    List.map_congr_left fun j hj => by rw [getD_elems s v.ty a (List.mem_range.1 hj), active]
  unfold State.reduce State.sendLatch
  dsimp only
  rw [hes]
  generalize tree op v.ty.isFp (Nat.log2 (vcount v)) _ = r
  obtain ⟨_ | x, fl⟩ := r
  next => simp only [answer_done, State.moveOn, hc]
  next =>
    simp only [answer_done, State.moveOn, State.putCur, State.raise, hc, State.put, State.modCore]
    by_cases hf : fl = 0
    · simp only [hf, if_true, State.setCore_cur, hc]
    · simp only [hf, if_false, State.setCore_cur, hc, State.core_setCore, State.setCore_setCore, if_true,
        List.append_assoc, List.cons_append, List.nil_append]

/-- An integer value reaching its latch (R150). -/
theorem land_latch_int (x : Core) (ps : Fin 4) (op : Nat) {ty : Ty} (hty : ty.isInt = true) (sat : Bool) (r : Int) :
    let num : Word → Int := fun l => if ty.isSigned then l.toInt else l.toNat
    let lo : Int := if ty.isSigned then -(2 ^ 63) else 0
    let hi : Int := if ty.isSigned then 2 ^ 63 - 1 else 2 ^ 64 - 1
    let y : Int := match (mget none x.arch.ps ps : Option Word) with
      | none => r
      | some l => treeInt op (num l) r
    x.land (.latch ps.val op ty sat r) = { x with arch := { x.arch with
      ps := mset none x.arch.ps ps (some (BitVec.ofInt 64 (if sat then max lo (min hi y) else y))) } } := by
  intro num lo hi y
  have hfit (z : Int) : fitLatch ty sat z = (BitVec.ofInt 64 (if sat then max lo (min hi z) else z), 0) := by
    simp only [fitLatch, isFp_of_isInt hty, Bool.false_eq_true, if_false, sat_eq_clamp]
    cases hs : ty.isSigned <;> simp only [lo, hi, hs] <;> rfl
  have hcomb : combineLatch (mget none x.arch.ps ps) op ty sat r = (BitVec.ofInt 64 (if sat then max lo (min hi y) else y), 0) := by
    unfold combineLatch
    cases hl : (mget none x.arch.ps ps : Option Word) with
    | none => simp only [hfit, y, hl]
    | some l =>
      simp only [isFp_of_isInt hty, Bool.false_eq_true, if_false, hfit, y, hl]
      obtain _ | _ | op := op <;> rfl
  simp only [Core.land, hcomb, or_noFlags]

/-- The operation of a floating tree on f32 codes: 0 add, 1 maximum, else minimum (R149). -/
def treeFp (op : Nat) : Nat → Nat → Rnd :=
  match op with
  | 0 => fpAdd .f32
  | 1 => minMaxCode .f32 true
  | _ => minMaxCode .f32 false

/-- An f32 code reaching its latch (R150). -/
theorem land_latch_fp (x : Core) (ps : Fin 4) (op : Nat) {ty : Ty} (hty : ty.isFp = true) (sat : Bool) {code : Nat} (hcode : code < 2 ^ 32) :
    let r : Rnd := match (mget none x.arch.ps ps : Option Word) with
      | none => match decode .f32 code with
        | .nan g => ⟨0x7FC00000, if g then 16 else 0⟩
        | _ => ⟨code, 0⟩
      | some l => treeFp op (l.toNat % 2 ^ 32) code
    x.land (.latch ps.val op ty sat (code : Nat)) = { x with arch := { x.arch with
      ps := mset none x.arch.ps ps (some (BitVec.ofNat 64 r.code)), fflags := x.arch.fflags ||| r.fl } } := by
  intro r
  have hcomb : combineLatch (mget none x.arch.ps ps) op ty sat (code : Nat) = (BitVec.ofNat 64 r.code, r.fl) := by
    unfold combineLatch
    cases hl : (mget none x.arch.ps ps : Option Word) with
    | none =>
      simp only [fitLatch, hty, if_true, Int.toNat_natCast, r, hl, Nat.mod_eq_of_lt hcode]
      cases decode .f32 code <;> rfl
    | some l =>
      simp only [hty, if_true, Int.toNat_natCast, r, hl]
      obtain _ | _ | op := op <;> rfl
  simp only [Core.land, hcomb]

/-- Settles O22: a reduction is its tree (`answer_reduce`), an integer tree one fold (`tree_int`), and a landing one combination. -/
theorem reductionsIntoLatches : Obligations.ReductionsIntoLatches := by
  intro s v ps a c k hc
  refine ⟨fun hint => ?ints, fun hfp => ?fps, fun x ty sat r hty => ?landInt, fun x ty sat code hty hcode => ?landFp⟩
  case ints =>
    have hnot := isFp_of_isInt hint
    have htree (op : Nat) : answer (s.reduce op v ps a) = .next (s.sendLatch c ps op v (treeTotal op
        ((((List.range (vcount v)).filter fun j => (s.rp v.p).getLsbD (vw v.ty * j / 8)).map fun j =>
          elemInt v.ty (s.elemAt v.ty a j)).map some), 0)) := by
      rw [answer_reduce hc, hnot, tree_int _ _ _ (by rw [List.length_map, List.length_range, two_pow_log2_vcount])]
      simp only [Bool.false_eq_true, if_false, treeTotal_governed]
    refine ⟨?_, ?_, ?_⟩
    · rw [exec, execRdadd, htree, treeTotal_add] <;> rfl
    · rw [exec, execRdmax, htree, treeTotal_max] <;> rfl
    · rw [exec, execRdmin, htree, treeTotal_min] <;> rfl
  case fps =>
    refine ⟨?_, ?_, ?_⟩
    · rw [exec, execRdadd, answer_reduce hc, hfp] <;> rfl
    · rw [exec, execRdmax, answer_reduce hc, hfp] <;> rfl
    · rw [exec, execRdmin, answer_reduce hc, hfp] <;> rfl
  case landInt =>
    exact ⟨land_latch_int x ps 0 hty sat r, land_latch_int x ps 1 hty sat r, land_latch_int x ps 2 hty sat r⟩
  case landFp =>
    exact ⟨land_latch_fp x ps 0 hty sat hcode, land_latch_fp x ps 1 hty sat hcode, land_latch_fp x ps 2 hty sat hcode⟩

/-! ### RDMOV (R151) -/

theorem latchWord_eq {t : Ty} (ht : t = .i32 ∨ t = .n32 ∨ t = .i64 ∨ t = .n64 ∨ t = .f32) (x : Word) :
    latchWord t x = if t = .i32 then (x.setWidth 32).signExtend 64 else if t = .n32 ∨ t = .f32 then (x.setWidth 32).setWidth 64 else x := by
  have hlow : BitVec.ofNat 32 (x.toNat % 2 ^ 32) = x.setWidth 32 := BitVec.eq_of_toNat_eq (by simp)
  have hzero : BitVec.ofNat 64 (x.toNat % 2 ^ 32) = (x.setWidth 32).setWidth 64 := BitVec.eq_of_toNat_eq (by simp)
  have hlt : x.toNat % 2 ^ 32 < 2 ^ 32 := Nat.mod_lt _ (by decide)
  obtain rfl | rfl | rfl | rfl | rfl := ht
  · exact (ofNat_convWord (t := .i32) hlt).trans (congrArg (BitVec.signExtend 64) hlow)
  · exact (ofNat_convWord (t := .n32) hlt).trans hzero
  · rfl
  · rfl
  · exact (ofNat_convWord (t := .f32) hlt).trans hzero

/-- Settles O23. -/
theorem latchesRead : Obligations.LatchesRead := by
  intro s v d ps c k hc hty
  dsimp only
  generalize hx : (mget none (s.core c).arch.ps ps).getD (0 : Word) = x
  generalize ht : s.setCore c { s.core c with arch := { (s.core c).arch with ps := mset none (s.core c).arch.ps ps none } } = t
  have htake : s.takeLatch ps.val = (x, t) := by
    rw [State.takeLatch, hc, ← hx, ← ht] <;> rfl
  have htc : t.cur = .core c k := by rwa [← ht]
  refine ⟨?_, fun hp => ?_, fun hp => ?_⟩
  · have hx : exec (.rdmov v (.sx d) ps) s = answer ((s.takeLatch ps.val).2.result 2 (.sx d) (latchWord v.ty (s.takeLatch ps.val).1)) := rfl
    rw [hx, htake, answer_result, latchWord_eq hty]
  · simp only [exec, execRdmov, hp, Bool.false_eq_true, if_false, htake, answer_done, State.moveOn, htc]
  · have hx : exec (.rdmov v (.vec d) ps) s
        = answer (t.wvElems 2 (.vec d) (width v.ty) [some (x.toNat % 2 ^ width v.ty)]).done := by
      simp only [exec, execRdmov, hp, if_true, htake]
    obtain ⟨mask, q, hput, hold⟩ := answer_wvElems_raise htc 2 d (width v.ty) [some (x.toNat % 2 ^ width v.ty)] 0
    refine ⟨mask, q, hx.trans hput, fun old j hj => ?_⟩
    rw [hold old j hj]
    obtain _ | j := j
    · simp
    · simp

end Sys2Proof.Machine
end

