-- ==== Sys2Proof/Proofs/SpecialFunctions.lean ====
section
/-!
Special functions and activation tables (R152 to R157, R434): their issue, their values at special operands, exact roots, the load of a
table, and O24, O25 and O26.
-/
namespace Sys2Proof.Machine

/-! ### Issue (R152) -/

/-- A vector op of a core that gives rounded elements. -/
theorem vecStep_of_vrounds {i : Instr} {s : State} {lat : Nat} {d : Fin 64} {p : Fin 8} {w n : Nat} {r : Nat → Rnd}
    (he : ∀ (c : Fin 32) (k : Fin 8), s.cur = .core c k → exec i s = answer (s.vrounds lat (.vec d) p w ((List.range n).map r))) :
    VecStep i s lat d w n (fun j => if (s.rp p).getLsbD (w * j / 8) then some (r j).code else none)
      (orFlags n (fun j => (s.rp p).getLsbD (w * j / 8)) fun j => (r j).fl) := by
  intro c k hc
  obtain ⟨mask, q, hx, hold⟩ := answer_vrounds hc lat d p w n r
  refine ⟨mask, q, (he c k hc).trans hx, fun old j hj => ?_⟩
  rw [hold old j hj]
  by_cases hn : j < n
  · cases hon : (s.rp p).getLsbD (w * j / 8) <;> simp [hn, hon]
  · simp [hn]

section
variable {s : State} {p : Fin 8} {d : Fin 64} {a b : Opd} {i : Instr}

theorem byte_place (j : Nat) : 32 * j / 8 = 4 * j := by omega

theorem vecStep_special {f : Nat → Rnd} (he : exec i s = answer (s.special p (.vec d) a f)) :
    VecStep i s 8 d 32 8 (fun j => if (s.rp p).getLsbD (4 * j) then some (f (s.elemAt .f32 a j)).code else none)
      (orFlags 8 (fun j => (s.rp p).getLsbD (4 * j)) fun j => (f (s.elemAt .f32 a j)).fl) := by
  have h := vecStep_of_vrounds (i := i) (s := s) (lat := 8) (d := d) (p := p) (w := 32) (n := 8) (r := fun j => f (s.elemAt .f32 a j))
    fun c k hc => by rw [he, State.special, hc, elems_eq, List.map_map] <;> rfl
  simp only [byte_place] at h
  exact h

theorem vecStep_special2 {f : Nat → Nat → Rnd} (he : exec i s = answer (s.special2 p (.vec d) a b f)) :
    VecStep i s 8 d 32 8 (fun j => if (s.rp p).getLsbD (4 * j) then some (f (s.elemAt .f32 a j) (s.elemAt .f32 b j)).code else none)
      (orFlags 8 (fun j => (s.rp p).getLsbD (4 * j)) fun j => (f (s.elemAt .f32 a j) (s.elemAt .f32 b j)).fl) := by
  have h := vecStep_of_vrounds (i := i) (s := s) (lat := 8) (d := d) (p := p) (w := 32) (n := 8)
    (r := fun j => f (s.elemAt .f32 a j) (s.elemAt .f32 b j)) fun c k hc => by
      rw [he, State.special2, hc]
      simp only [elems_eq, zipWith_map_range]
  simp only [byte_place] at h
  exact h

theorem fpStep_special {u : Tid} (hu : s.cur = .thr u) {f : Nat → Rnd} (he : exec i s = answer (s.special p (.sx d) a f)) :
    FpStep i s 8 d (f ((s.rd .f32 a).toNat % 2 ^ 32)) := by
  rw [State.special, hu] at he
  rw [FpStep, he]
  exact fpDone_eq ..

theorem fpStep_special2 {u : Tid} (hu : s.cur = .thr u) {f : Nat → Nat → Rnd} (he : exec i s = answer (s.special2 p (.sx d) a b f)) :
    FpStep i s 8 d (f ((s.rd .f32 a).toNat % 2 ^ 32) ((s.rd .f32 b).toNat % 2 ^ 32)) := by
  rw [State.special2, hu] at he
  rw [FpStep, he]
  exact fpDone_eq ..

end

/-- An op of one source in both forms. -/
theorem special_both {s : State} {p : Fin 8} {d : Fin 64} {a : Opd} {i : Opd → Opd → Instr} {f : FVal → Rnd}
    (he : ∀ d' : Opd, exec (i d' a) s = answer (s.special p d' a fun x => f (decode .f32 x))) :
    VecStep (i (.vec d) a) s 8 d 32 8 (fun j => if (s.rp p).getLsbD (4 * j) then some (f (decode .f32 (s.elemAt .f32 a j))).code else none)
        (orFlags 8 (fun j => (s.rp p).getLsbD (4 * j)) fun j => (f (decode .f32 (s.elemAt .f32 a j))).fl)
      ∧ ∀ u : Tid, s.cur = .thr u → FpStep (i (.sx d) a) s 8 d (f (decode .f32 ((s.rd .f32 a).toNat % 2 ^ 32))) :=
  ⟨vecStep_special (f := fun x => f (decode .f32 x)) (he _), fun _ hu => fpStep_special (f := fun x => f (decode .f32 x)) hu (he _)⟩

/-- Settles O24: every op is `special` of its function. -/
theorem specialFunctions : Obligations.SpecialFunctions := by
  intro s h p d a b
  refine ⟨special_both fun _ => rfl, special_both fun _ => rfl, special_both fun _ => rfl, special_both fun _ => rfl,
    special_both fun _ => rfl, special_both fun _ => rfl, special_both fun _ => rfl, special_both fun _ => rfl, special_both fun _ => rfl,
    ?_, ?_, ?_, ?_, fun z => rfl⟩
  · exact vecStep_special2 (f := fun x y => sfDiv (decode .f32 x) (decode .f32 y)) rfl
  · exact fun u hu => fpStep_special2 (f := fun x y => sfDiv (decode .f32 x) (decode .f32 y)) hu rfl
  · exact vecStep_special (f := flutWith s.activeTable) rfl
  · exact fun u hu => fpStep_special (f := flutWith s.activeTable) hu rfl

/-! ### Values (R153) -/

/-- Newton's iteration from above ends at the root: it falls while it is above, and never falls below. -/
theorem sqrtIter_square {n : Nat} (hn : 0 < n) (g : Nat) (hg : n ≤ g) : Nat.sqrt.iter (n * n) g = n := by
  induction g using Nat.strongRecOn with
  | ind g ih =>
    have hg0 : 0 < g := Nat.lt_of_lt_of_le hn hg
    rw [Nat.sqrt.iter]
    rcases Nat.lt_or_eq_of_le hg with hlt | rfl
    · have hbelow : n * n / g < g := (Nat.div_lt_iff_lt_mul hg0).2 (Nat.mul_lt_mul_of_lt_of_lt hlt hlt)
      have habove : 2 * n - g ≤ n * n / g := by
        have hprod : n * n - (g - n) * (g - n) = (n + (g - n)) * (n - (g - n)) := Nat.mul_self_sub_mul_self_eq _ _
        rw [Nat.le_div_iff_mul_le hg0, show 2 * n - g = n - (g - n) by omega, Nat.mul_comm]
        rw [Nat.add_sub_cancel' hg] at hprod
        exact hprod ▸ Nat.sub_le _ _
      rw [dif_pos (by omega)]
      exact ih _ (by omega) (by omega)
    · rw [Nat.mul_div_cancel _ hn, dif_neg (by omega)]

theorem sqrt_square (n : Nat) : Nat.sqrt (n * n) = n := by
  rw [Nat.sqrt]
  split
  next h =>
    obtain _ | _ | n := n
    · rfl
    · rfl
    · exact absurd (Nat.le_trans (Nat.mul_le_mul (Nat.le_add_left 2 n) (Nat.le_add_left 2 n)) h) (by decide)
  next h =>
    have hn : 0 < n := Nat.pos_of_ne_zero fun h0 => h (by rw [h0]; decide)
    refine sqrtIter_square hn _ ?_
    have hlog : n * n < 2 ^ (Nat.log2 (n * n) + 1) := Nat.lt_log2_self
    have hpow : 2 ^ (Nat.log2 (n * n) + 1) ≤ 2 ^ (Nat.log2 (n * n) / 2 + 1) * 2 ^ (Nat.log2 (n * n) / 2 + 1) := by
      rw [← Nat.pow_add]
      exact Nat.pow_le_pow_right (by decide) (by omega)
    rw [Nat.one_shiftLeft]
    exact Nat.le_of_lt (Nat.mul_self_lt_mul_self_iff.1 (Nat.lt_of_lt_of_le hlog hpow))

/-- The rational n·2^j over 2^(k+j) is n over 2^k. -/
theorem val_scaleUp (n j k : Nat) : (⟨(n * 2 ^ j : Nat), 2 ^ (k + j)⟩ : Frac).val = (⟨n, 2 ^ k⟩ : Frac).val := by
  refine (Frac.eq_iff (Nat.two_pow_pos _) (Nat.two_pow_pos _)).1 (decide_eq_true ?_)
  dsimp only
  rw [← Int.natCast_mul, ← Int.natCast_mul, Nat.pow_add, Nat.mul_assoc, Nat.mul_comm (2 ^ j)]

theorem four_pow (n : Nat) : 4 ^ n = 2 ^ n * 2 ^ n := Nat.mul_pow 2 2 n

theorem sqrtRound_square {n k : Nat} (hk : k ≤ 400) : sqrtRound ⟨(n * n : Nat), 4 ^ k⟩ = round .f32 .ne ⟨n, 2 ^ k⟩ := by
  obtain ⟨p, j, hp, hpj⟩ : ∃ p j, p = 400 ∧ p = k + j := ⟨400, 400 - k, rfl, by omega⟩
  have hroot : Nat.sqrt (n * n * 4 ^ p / 4 ^ k) = n * 2 ^ j := by
    rw [hpj, Nat.pow_add, ← Nat.mul_assoc, Nat.mul_right_comm, Nat.mul_div_cancel _ (Nat.pow_pos (by decide)), four_pow,
      Nat.mul_mul_mul_comm, sqrt_square]
  have hends : sqrtEnds ⟨(n * n : Nat), 4 ^ k⟩ p = (⟨(n * 2 ^ j : Nat), 2 ^ p⟩, ⟨(n * 2 ^ j : Nat), 2 ^ p⟩) := by
    simp only [sqrtEnds, Int.toNat_natCast, hroot]
    rw [if_pos]
    rw [hpj, Nat.pow_add, four_pow j, Nat.mul_mul_mul_comm n, Nat.mul_comm (4 ^ k), Nat.mul_assoc]
  have hval : (⟨(n * 2 ^ j : Nat), 2 ^ p⟩ : Frac).val = (⟨n, 2 ^ k⟩ : Frac).val := by rw [hpj, val_scaleUp]
  rw [sqrtRound, ← hp, hends]
  dsimp only
  rw [if_pos ((Frac.eq_iff (Nat.two_pow_pos p) (Nat.two_pow_pos p)).2 rfl)]
  exact round_congr .f32 .ne (Nat.two_pow_pos p) (Nat.two_pow_pos k) hval

theorem isNeg_of_num_neg {q : Frac} (h : q.num < 0) : q.isNeg = true := decide_eq_true h

/-- Settles O25: the table's rows by evaluation, quotients and roots by the value of the rational that is rounded. -/
theorem specialFunctionTable : Obligations.SpecialFunctionTable := by
  refine ⟨?_, ?_, ?_, ?_, ?_, ?_, ?_, ?_, ?_, ?_, ?_, fun q hq => ?_, fun q n m => ?_, fun x y hx hy hx0 hy0 => ⟨?_, ?_⟩, fun n k hn hk => ?_,
    ?_, ?_, ?_, ?_⟩
  iterate 9 exact ⟨rfl, rfl, rfl, rfl, rfl, rfl⟩
  · intro n m
    cases n <;> cases m <;> exact ⟨rfl, rfl⟩
  · intro q m
    simp only [sfDiv, divZero, FVal.isNeg]
    cases q.isNeg <;> cases m <;> rfl
  · simp only [sfRsq, sfSqrt, sfLog2, isNeg_of_num_neg hq, if_true]
    exact ⟨rfl, rfl, rfl⟩
  · simp only [sfDiv, FVal.isNeg]
    cases q.isNeg <;> cases n <;> cases m <;> exact ⟨rfl, rfl, rfl, rfl, rfl⟩
  · rfl
  · refine (round_congr .f32 .ne ?_ ?_ ?_ : round .f32 .ne ((Frac.int 1).div y) = _)
    · exact Nat.mul_pos Nat.one_pos (Int.natAbs_pos.2 hy0)
    · exact Int.natAbs_pos.2 hy0
    · simp [Frac.div, Frac.int]
  · have hneg : (⟨(n * n : Nat), 4 ^ k⟩ : Frac).isNeg = false := decide_eq_false (Int.not_lt.2 (Int.natCast_nonneg _))
    rw [sfSqrt, hneg, if_neg Bool.false_ne_true, sqrtRound_square hk]
  · decide +kernel
  · decide +kernel
  · decide +kernel
  · decide +kernel

/-! ### Activation tables (R155, R156, R434) -/

/-- A status of LUTLD: scoreboarded on a core, written at once in a thread (R37, R41). -/
theorem answer_scored (t : State) (d : Fin 64) (v : Word) :
    answer (t.scored (.sx d) v false).done = .next (match t.cur with
      | .core c _ => t.setCore c { t.core c with sb := (t.core c).sb ++ [⟨if d = 0 then [] else [.sreg d v], false, none⟩] }
      | .thr _ => t.withScalar 0 d v) := by
  rw [answer_done]
  cases hc : t.cur with
  | core c k =>
    simp only [State.scored, State.putSb, State.modCore, hc, State.moveOn, State.setCore_cur]
  | thr u =>
    have h := answer_result t 0 d v
    rw [State.result, answer_done] at h
    simpa only [State.scored, hc] using h

theorem imageBad_iff (bs : List Byte) : imageBad bs = true ↔ fieldAt bs 0 4 ≠ 0x42544C41 ∨ fieldAt bs 4 2 ≠ 1 ∨ fieldAt bs 6 2 ≠ 0
    ∨ isNonfin (decode .f32 (fieldAt bs 8 4)) = true ∨ isNonfin (decode .f32 (fieldAt bs 12 4)) = true
    ∨ isZeroVal (decode .f32 (fieldAt bs 12 4)) = true ∨ (decode .f32 (fieldAt bs 12 4)).isNeg = true ∨ fieldAt bs 16 48 ≠ 0 := by
  simp only [imageBad, Bool.or_eq_true, bne_iff_ne, or_assoc]

/-- Is the slot that a LUTLD names bound to another owner (R434)? -/
def State.lutTaken (s : State) (n : Nat) : Bool :=
  match s.lutAt s.cur.dom n with
  | some z => z.owner.isSome && z.owner != s.lutOwner s.cur
  | none => false

theorem State.lutTaken_iff (s : State) (n : Nat) :
    s.lutTaken n = true ↔ ∃ z, s.lutAt s.cur.dom n = some z ∧ z.owner.isSome = true ∧ z.owner ≠ s.lutOwner s.cur := by
  unfold State.lutTaken
  cases s.lutAt s.cur.dom n with
  | none => simp
  | some z => simp

section
variable {s t : State} {d : Opd} {addr : Word} {n : Nat} {bs : List Byte}

/-- LUTLD by the outcome of its checks. -/
theorem lutld_eq : s.lutld d addr n =
    if s.lutTaken n then (s.scored d (BitVec.ofNat 64 1) false).done
    else if addr.toNat % 64 != 0 then (s.scored d (BitVec.ofNat 64 2) false).done
    else match s.load (s.ctx s.cur) addr.toNat 1600 64 with
      | .error f => .error f
      | .ok (bs, t) =>
        if imageBad bs then (t.scored d (BitVec.ofNat 64 2) false).done
        else match s.cur with
          | .core _ _ => ((t.defer (.lutld n bs)).scored d (BitVec.ofNat 64 0) false).done
          | .thr u => ((t.imageOf u (xNumbers (opdReg d)) n bs).scored d (BitVec.ofNat 64 0) false).done := rfl

theorem lutld_of_taken (h : s.lutTaken n = true) : s.lutld d addr n = (s.scored d (BitVec.ofNat 64 1) false).done := by
  rw [lutld_eq, if_pos h]

theorem lutld_of_misaligned (h : ¬ s.lutTaken n = true) (ha : addr.toNat % 64 ≠ 0) :
    s.lutld d addr n = (s.scored d (BitVec.ofNat 64 2) false).done := by
  rw [lutld_eq, if_neg h, if_pos (bne_iff_ne.2 ha)]

theorem lutld_of_fault (h : ¬ s.lutTaken n = true) (ha : addr.toNat % 64 = 0) {f : Fail}
    (hl : s.load (s.ctx s.cur) addr.toNat 1600 64 = .error f) : s.lutld d addr n = .error f := by
  rw [lutld_eq, if_neg h, if_neg (by simpa using ha), hl]

theorem lutld_of_load (h : ¬ s.lutTaken n = true) (ha : addr.toNat % 64 = 0)
    (hl : s.load (s.ctx s.cur) addr.toNat 1600 64 = .ok (bs, t)) :
    s.lutld d addr n = if imageBad bs then (t.scored d (BitVec.ofNat 64 2) false).done
      else match s.cur with
        | .core _ _ => ((t.defer (.lutld n bs)).scored d (BitVec.ofNat 64 0) false).done
        | .thr u => ((t.imageOf u (xNumbers (opdReg d)) n bs).scored d (BitVec.ofNat 64 0) false).done := by
  rw [lutld_eq, if_neg h, if_neg (by simpa using ha), hl]

end

theorem xNumbers_sx (d : Fin 64) : xNumbers (opdReg (.sx d)) = if d = 0 then [] else [d.val] := by
  obtain ⟨_ | d, hd⟩ := d <;> rfl

/-- The image waits with the newest word's results where that word writes the status register alone. -/
theorem imageOf_waits {t : State} {u : Tid} {d : Fin 64} {l : List Busy} (hd : d ≠ 0) (hl : (t.thread u).busy = l ++ [⟨[d.val], none⟩])
    (n : Nat) (bs : List Byte) : t.imageOf u (xNumbers (opdReg (.sx d))) n bs
      = t.setThread u { t.thread u with busy := l ++ [⟨[d.val], some (n, bs)⟩] } := by
  rw [State.imageOf, hl, List.getLast?_concat, xNumbers_sx, if_neg hd]
  simp [State.modThread, hl]

/-- Elsewhere the image reaches its slot at once. -/
theorem imageOf_now {t : State} {u : Tid} {d : Fin 64} {n : Nat} {bs : List Byte}
    (h : d = 0 ∨ ∀ (l : List Busy) (b : Busy), (t.thread u).busy = l ++ [b] → b.regs ≠ [d.val] ∨ b.lut ≠ none) :
    t.imageOf u (xNumbers (opdReg (.sx d))) n bs = t.takeImage u n bs := by
  rw [State.imageOf, xNumbers_sx]
  cases hlast : (t.thread u).busy.getLast? with
  | none => rfl
  | some b =>
    obtain ⟨l, hl⟩ := List.getLast?_eq_some_iff.1 hlast
    refine if_neg fun hh => ?_
    simp only [Bool.and_eq_true, bne_iff_ne, beq_iff_eq, Option.isNone_iff_eq_none] at hh
    obtain ⟨⟨hne, hregs⟩, hlut⟩ := hh
    have hd : d ≠ 0 := fun h0 => hne (if_pos h0)
    rw [if_neg hd] at hregs
    exact (h.resolve_left hd l b hl).elim (fun hr => hr hregs) fun hr => hr hlut

theorem thread_modEng (s : State) (d : Dom) (f : Eng → Eng) (u : Tid) : (s.modEng d f).thread u = s.thread u := by
  cases d with
  | core c => rfl
  | unit v =>
    have hgroups : ((s.modEng (.unit v) f).unit u.unit).groups = (s.unit u.unit).groups := by
      simp only [State.modEng, State.unit, State.modUnit_units, mget_mset]
      split
      next h => rw [h]
      next => rfl
    simp only [State.thread, State.group, hgroups]

theorem dropAt_append {α : Type} (l r : List α) (b : α) : dropAt (l ++ b :: r) l.length = l ++ r := by
  induction l with
  | nil => rfl
  | cons a l ih => exact congrArg (a :: ·) ih

theorem setWidth_slot (n : Fin 4) : (BitVec.ofNat 64 n.val).setWidth 2 = BitVec.ofNat 2 n := by revert n; decide

/-- Settles O26: LUTLD by the outcome of its checks, the landing of a word's results, and LUTSEL. -/
theorem activationTableLoads : Obligations.ActivationTableLoads := by
  intro s d a n addr slot other status
  have hother : s.lutTaken n = true ↔ other := s.lutTaken_iff n
  have hx : exec (.lutld (.sx d) a n) s = answer (s.lutld (.sx d) (s.rn a) n) := rfl
  have hstatus (t : State) (x : Nat) : answer (t.scored (.sx d) (BitVec.ofNat 64 x) false).done = .next (status t x) := answer_scored ..
  simp only [← hother, hx]
  refine ⟨fun h => ?_, fun h ha => ?_, fun h ha bs t hl => ?_, fun u l r b hb => ?_, fun h ha f hl => ?_, fun c k hc => ?_, fun u hu => ?_⟩
  · rw [lutld_of_taken h, hstatus]
  · rw [lutld_of_misaligned h ha, hstatus]
  · rw [lutld_of_load h ha hl]
    refine ⟨fun hbad => ?_, fun hbad c k hc => ?_, fun hbad u hu => ?_⟩
    · rw [if_pos ((imageBad_iff bs).2 hbad), hstatus]
    all_goals rw [if_neg fun hb' => hbad ((imageBad_iff bs).1 hb')]
    · rw [hc]
      exact hstatus _ _
    · rw [hu]
      refine ⟨fun l hd hb => ?_, fun hn => ?_⟩
      · dsimp only
        rw [imageOf_waits hd hb, hstatus]
      · dsimp only
        rw [imageOf_now hn, hstatus] <;> rfl
  · have hget : (s.thread u).busy[l.length]? = some b := by rw [hb]; simp
    have hbusy (k : Nat) (bs : List Byte) : ((s.takeImage u k bs).thread u).busy = l ++ b :: r := by
      rw [State.takeImage, thread_modEng, hb]
    rw [exec, execScoreboardResultLand, State.landBusy, hget, Option.bind_some]
    rcases b.lut with _ | ⟨k, bs⟩
    · simp only [State.modThread, hb, dropAt_append]
    · simp only [State.modThread, hbusy, dropAt_append] <;> rfl
  · rw [lutld_of_fault h ha hl]
    rfl
  · have hxs : exec (.lutsel n) s = answer (s.selectLut (BitVec.ofNat 64 n.val)).done := rfl
    rw [hxs, answer_done, State.selectLut, hc]
    rw [setWidth_slot]
    exact congrArg Host.Outcome.next (State.moveOn_core hc)
  · have hxs : exec (.lutsel n) s = answer (s.selectLut (BitVec.ofNat 64 n.val)).done := rfl
    rw [hxs, State.selectLut, hu]
    exact answer_stage hu _ _

end Sys2Proof.Machine
end

