-- ==== Sys2Proof/Proofs/MatrixOps.lean ====
section
/-!
The matrix array's ops (R158 to R190): the checks and the issue of an MMA, tile results, the tile walker, tests and shapes, and O27, O29,
O30 and O31.
-/
namespace Sys2Proof.Machine

theorem answer_done_core {s t : State} {c : Fin 32} {k : Fin 8} (hc : s.cur = .core c k) (ht : t.cur = s.cur) : answer t.done = .next t :=
  congrArg Host.Outcome.next (State.moveOn_core (ht.trans hc))

theorem answer_trapRes (s : State) (cause tval : Nat) :
    answer (trapRes s cause tval) = .next (s.takeTrap s.cur ⟨cause, BitVec.ofNat 64 tval⟩) := rfl

theorem State.onCore_core {s : State} {c : Fin 32} {k : Fin 8} (hc : s.cur = .core c k) (f : Nat → Res) : s.onCore f = f c := by
  rw [State.onCore, hc]

/-! ### MMA: checks and issue (R163, R167) -/

theorem MmaFmt.legal_iff (m : MmaFmt) : m.legal = true ↔
    (m.f32 = false ∧ m.a ∈ ([.i8, .n8] : List Ty) ∧ m.b ∈ ([.i8, .n8] : List Ty) ∧ m.sa = false ∧ m.sb = false)
    ∨ (m.f32 = true ∧ m.a ∈ ([.f16, .bf16] : List Ty) ∧ m.b ∈ ([.f16, .bf16] : List Ty) ∧ m.sa = false ∧ m.sb = false)
    ∨ (m.f32 = true ∧ (m.a ∈ ([.e4m3, .e5m2, .e3m2, .e2m3, .m8, .m6] : List Ty) ∨ m.a = .i8 ∧ m.sa = true)
        ∧ (m.b ∈ ([.e4m3, .e5m2, .e3m2, .e2m3, .m8, .m6] : List Ty) ∨ m.b = .i8 ∧ m.sb = true))
    ∨ (m.f32 = true ∧ m.a = .e2m1 ∧ m.b = .e2m1) := by
  have hbyte (t : Ty) : isMmaByte t = true ↔ t ∈ ([.e4m3, .e5m2, .e3m2, .e2m3, .m8, .m6] : List Ty) := by cases t <;> decide
  cases h : m.f32 <;>
    simp only [MmaFmt.legal, h, Bool.not_false, Bool.not_true, Bool.false_eq_true, if_true, if_false, Bool.and_eq_true, Bool.or_eq_true,
      beq_iff_eq, hbyte, List.mem_cons, List.not_mem_nil, or_false, Bool.not_eq_true', true_and, false_and, and_assoc, or_assoc,
      reduceCtorEq, false_or]

theorem panelCore_eq (c : Fin 32) (p : Word) :
    panelCore c p = if p.getLsbD 24 then c.val / 8 * 8 + (p.extractLsb' 21 3).toNat else c := by
  rw [panelCore, bit_toNat, bits_toNat_eq_extractLsb' p 21 2]

theorem panelBad_iff (s : State) (c : Fin 32) (p : Word) (sc : Bool) :
    ¬ s.panelBad c p sc = true ↔ p.extractLsb' 25 39 = 0 ∧ (p.extractLsb' 0 21).toNat % 64 = 0
      ∧ (p.getLsbD 24 = true → (s.core (panelCore c p)).job = (s.core c).job)
      ∧ (p.extractLsb' 0 21).toNat + (if sc then 2176 else 2048) ≤ (s.core (panelCore c p)).scratchSize := by
  have hhi : bits p.toNat 63 25 = (p.extractLsb' 25 39).toNat := bits_toNat_eq_extractLsb' p 25 38
  have hlo : bits p.toNat 20 0 = (p.extractLsb' 0 21).toNat := bits_toNat_eq_extractLsb' p 0 20
  have hz : (p.extractLsb' 25 39).toNat = 0 ↔ p.extractLsb' 25 39 = 0 := by rw [BitVec.toNat_eq] <;> rfl
  simp only [State.panelBad, hhi, hlo, bit_toNat, panelBytes, Bool.or_eq_true, Bool.and_eq_true, bne_iff_ne, decide_eq_true_eq, not_or,
    Classical.not_not, hz, not_and, Nat.not_lt, and_assoc, ne_eq]

theorem panelTval_eq (p : Word) (isB : Bool) : BitVec.ofNat 64 (panelTval p isB) =
    (p &&& 0x1FFFFFF) + (if isB then 0x100000000 else 0) + (if p.extractLsb' 25 39 = 0 then 0 else 0x200000000) := by
  have hhi : bits p.toNat 63 25 = (p.extractLsb' 25 39).toNat := bits_toNat_eq_extractLsb' p 25 38
  have hlo : bits p.toNat 24 0 = (p.extractLsb' 0 25).toNat := bits_toNat_eq_extractLsb' p 0 24
  have hz : bits p.toNat 63 25 = 0 ↔ p.extractLsb' 25 39 = 0 := by rw [hhi, BitVec.toNat_eq] <;> rfl
  have hmask : BitVec.ofNat 64 (p.extractLsb' 0 25).toNat = p &&& 0x1FFFFFF := by
    have hand : p.toNat &&& 0x1FFFFFF = p.toNat % 2 ^ 25 := Nat.and_two_pow_sub_one_eq_mod _ 25
    refine BitVec.eq_of_toNat_eq ?_
    rw [BitVec.toNat_and, BitVec.toNat_ofNat, BitVec.extractLsb'_toNat, Nat.shiftRight_zero]
    exact (Nat.mod_eq_of_lt (by omega)).trans hand.symm
  rw [panelTval, BitVec.ofNat_add, BitVec.ofNat_add, hlo, hmask, apply_ite (BitVec.ofNat 64), apply_ite (BitVec.ofNat 64)]
  simp only [bne_iff_ne, hz, ne_eq, ite_not] <;> rfl

/-- Settles O27: the checks in the order of the definition, then the issue. -/
theorem mmaChecksAndIssue : Obligations.MmaChecksAndIssue := by
  intro s h cz sat d ct a b c k hc x m i int8 half byte listed peer off good tval clean own pa pb sh
  have hx : exec i s = answer (s.mma c cz sat (.acc d) a b ct) := by
    have hx' : exec i s = answer (s.onCore fun c => s.mma c cz sat (.acc d) a b ct.val) := rfl
    rw [hx', State.onCore_core hc]
  have hlisted : m.legal = true ↔ listed := m.legal_iff
  have hpeer (p : Word) : panelCore c p = peer p := panelCore_eq c p
  have hgood (p : Word) (sc : Bool) : ¬ s.panelBad c p sc = true ↔ good p sc := by
    rw [panelBad_iff, hpeer]
  have hoff (p : Word) : bits p.toNat 20 0 = off p := bits_toNat_eq_extractLsb' p 0 20
  have hmma : s.mma c cz sat (.acc d) a b ct = if !m.legal then trapRes s 0x04 (x.arch.fmt.toNat + 2 ^ 32)
      else if s.panelBad c pa m.sa then trapRes s 0x0E (panelTval pa false)
      else if s.panelBad c pb m.sb then trapRes s 0x0E (panelTval pb true)
      else match clean pa sh.1 m.sa with
        | some o => trapRes s 0x13 o
        | none => match clean pb sh.2 m.sb with
          | some o => trapRes s 0x13 o
          | none => (s.setCore c { x with
              lastMma := some (x.eng.cycle s.ptime - (c.val - (s.gangLive c).headD c)),
              sm := x.sm ++ [{ smOfElems
                  (mmaElems m sh (s.core (peer pa)).scratch (s.core (peer pb)).scratch (off pa) (off pb) cz sat (x.smTile ct))
                  d (x.arch.fmt.getLsbD 18) (x.arch.pc.setWidth 64) with
                reads := own pa sh.1 m.sa ++ own pb sh.2 m.sb }] }).done := by
    simp only [clean, own, ← hpeer, ← hoff, ← bit_toNat] <;> rfl
  rw [hx, hmma]
  refine ⟨fun hl => ?_, fun hl ha => ?_, fun hl ha hb => ?_, fun hl ha hb => ⟨fun o ho => ?_, fun o h1 h2 => ?_, fun h1 h2 => ?_⟩⟩
  · have hl' : (!m.legal) = true := by rw [Bool.not_eq_true', Bool.eq_false_iff, Ne, hlisted]; exact hl
    rw [if_pos hl', answer_trapRes, BitVec.ofNat_add, BitVec.ofNat_toNat] <;> rfl
  all_goals
    have hl' : ¬ (!m.legal) = true := by rw [Bool.not_eq_true', hlisted.2 hl]; exact Bool.false_ne_true.symm
    rw [if_neg hl']
  · rw [if_pos (Classical.not_not.1 (mt (hgood pa m.sa).1 ha)), answer_trapRes, panelTval_eq] <;> rfl
  all_goals rw [if_neg ((hgood pa m.sa).2 ha)]
  · rw [if_pos (Classical.not_not.1 (mt (hgood pb m.sb).1 hb)), answer_trapRes, panelTval_eq] <;> rfl
  all_goals rw [if_neg ((hgood pb m.sb).2 hb)]
  · rw [ho]
    exact answer_trapRes ..
  · rw [h1, h2]
    exact answer_trapRes ..
  · rw [h1, h2]
    exact answer_done_core hc rfl

/-! ### Tile results (R159, R160, R172, R413) -/

theorem setAt_eq_set {α : Type} (l : List α) (i : Nat) (a : α) : setAt l i a = l.set i a := by
  induction l generalizing i with
  | nil => rfl
  | cons b l ih => cases i with
    | zero => rfl
    | succ i => exact congrArg (b :: ·) (ih i)

section
variable {α : Type} (es : List (Nat × α)) (l : List α)

theorem getElem?_foldl_setAt_of_absent {i : Nat} (h : ∀ q ∈ es, q.1 ≠ i) : (es.foldl (fun l q => setAt l q.1 q.2) l)[i]? = l[i]? := by
  induction es generalizing l with
  | nil => rfl
  | cons q es ih =>
    rw [List.foldl_cons, ih _ fun r hr => h r (List.mem_cons_of_mem q hr), setAt_eq_set,
      List.getElem?_set_ne (h q List.mem_cons_self)]

theorem getElem?_foldl_setAt_of_mem {i : Nat} {v : α} (hd : (es.map (·.1)).Nodup) (h : (i, v) ∈ es) (hi : i < l.length) :
    (es.foldl (fun l q => setAt l q.1 q.2) l)[i]? = some v := by
  induction es generalizing l with
  | nil => cases h
  | cons q es ih =>
    obtain ⟨hq, hd⟩ := List.nodup_cons.1 hd
    rw [List.foldl_cons, setAt_eq_set]
    rcases List.mem_cons.1 h with rfl | h
    · rw [getElem?_foldl_setAt_of_absent _ _ fun r hr heq => hq (List.mem_map.2 ⟨r, hr, heq⟩), List.getElem?_set_self hi]
    · exact ih _ hd h (by rwa [List.length_set])

end

theorem Core.tile_landSm (x : Core) (e : SmEntry) (t : Nat) :
    (x.landSm e).tile t = if t = e.tile then e.elems.foldl (fun l q => setAt l q.1 q.2) (x.tile e.tile) else x.tile t := by
  change mget _ (mset _ x.acc e.tile _) t = _
  rw [mget_mset]
  by_cases h : t = e.tile
  · rw [if_pos h.symm, if_pos h]
  · rw [if_neg (Ne.symm h), if_neg h] <;> rfl

/-- Settles O29. -/
theorem tileOps : Obligations.TileOps := by
  refine ⟨fun s h d a c k hc => ?_, fun s h u hu => ?_, fun x e => ⟨fun t ht => ?_, fun i hi => ?_, fun i v hd hv hi => ?_, rfl, fun hcopy => ?_⟩⟩
  · have put (es : List (BitVec 32)) : answer (s.putTile c d es).done = .next (s.setCore c { s.core c with sm := (s.core c).sm ++
        [⟨d, (List.range es.length).zip es, 0, 0, none, (s.core c).arch.pc.setWidth 64, []⟩] }) := answer_done_core hc rfl
    refine ⟨?_, ?_, ?_, ?_⟩
    · rw [exec, execAccz, State.onCore_core hc]
      exact put _
    · rw [exec, execAcccp, State.onCore_core hc]
      exact put _
    · rw [exec, execAcccp, State.onCore_core hc]
      exact put _
    · rw [exec, execXnop]
      exact answer_done_core hc rfl
  · rw [exec, execXnop, answer_done, State.moveOn_thr hu]
  · rw [Core.tile_landSm, if_neg ht]
  · rw [Core.tile_landSm, if_pos rfl, getElem?_foldl_setAt_of_absent _ _ hi]
  · rw [Core.tile_landSm, if_pos rfl, getElem?_foldl_setAt_of_mem _ _ hd hv hi]
  · have hcopies : (x.landSm e).tileCopies = mset none x.tileCopies e.tile (some (x.tile e.tile)) := by
      simp only [Core.landSm, Core.setTile, hcopy]
    rw [hcopies, mget_mset_same]

/-! ### The tile walker (R188 to R190) -/

theorem sum_indicator (a k : Nat) : ((List.range a).map fun p => if p = k then 1 else 0).sum = if k < a then 1 else 0 := by
  induction a with
  | zero => rfl
  | succ a ih =>
    rw [List.range_succ, List.map_append, List.sum_append, ih, List.map_singleton, List.sum_singleton]
    grind

/-- Of the cells of a grid, exactly one is the cell named. -/
theorem countP_cell (a k b l : Nat) :
    ((List.range a).flatMap fun p => (List.range b).map fun q => (p, q)).countP (fun x => decide (x.1 = k ∧ x.2 = l))
      = if k < a ∧ l < b then 1 else 0 := by
  have hrow (p : Nat) : ((List.range b).map fun q => (p, q)).countP (fun x => decide (x.1 = k ∧ x.2 = l))
      = if p = k then (if l < b then 1 else 0) else 0 := by
    rw [List.countP_map]
    by_cases hp : p = k
    · have hcount := (List.nodup_range (n := b)).count (a := l)
      change List.countP (fun x => decide (x = l)) _ = _ at hcount
      simp only [List.mem_range] at hcount
      simp only [hp, if_true, true_and, ← hcount, Function.comp_def]
    · simp [hp, Function.comp_def]
  rw [List.countP_flatMap]
  simp only [Function.comp_def, hrow]
  by_cases hl : l < b
  · simp only [hl, if_true, and_true, sum_indicator]
  · simp only [hl, if_false, and_false, ite_self, List.map_const', List.sum_replicate_nat, Nat.mul_zero]

/-- A number lies in the interval of its quotient alone. -/
theorem mem_interval_iff {m i p h : Nat} (hm : 0 < m) (hi : i < h) : p * m ≤ i ∧ i < p * m + min m (h - p * m) ↔ p = i / m := by
  rw [eq_comm, Nat.div_eq_iff hm]
  have : p * m + m - 1 + 1 = p * m + m := by omega
  omega

theorem gridTiles_eq {m n : Nat} (hm : 0 < m) (hn : 0 < n) (h w : Nat) : gridTiles 0 0 h w m n =
    ((List.range ((h + m - 1) / m)).flatMap fun p => (List.range ((w + n - 1) / n)).map fun q => (p, q)).map fun x =>
      (x.1 * m, x.2 * n, min m (h - x.1 * m), min n (w - x.2 * n)) := by
  have h0 : (decide (m = 0) || decide (n = 0)) = false := by
    rw [decide_eq_false (Nat.ne_of_gt hm), decide_eq_false (Nat.ne_of_gt hn)] <;> rfl
  simp only [gridTiles, h0, Bool.false_eq_true, if_false, List.map_flatMap, List.map_map, Nat.zero_add, Function.comp_def]

theorem place_lt {m h p : Nat} (hm : 0 < m) : p < (h + m - 1) / m ↔ p * m < h := by
  rw [← Nat.succ_le_iff, Nat.le_div_iff_mul_le hm, Nat.succ_mul]
  omega

theorem dropAt_eq {α : Type} (l : List α) (i : Nat) : dropAt l i = l.take i ++ l.drop (i + 1) := by
  induction l generalizing i with
  | nil => simp [dropAt]
  | cons a l ih => cases i with
    | zero => rfl
    | succ i => exact congrArg (a :: ·) (ih i)

theorem getD_of_lt {α : Type} {l : List α} {i : Nat} (d : α) (h : i < l.length) : l.getD i d = l[i] := by
  rw [List.getD_eq_getElem?_getD, List.getElem?_eq_getElem h, Option.getD_some]

/-- A pick is one of the tiles, and only the record of it and the free-value counter change. -/
theorem pickTile_spec (s : State) (c : Nat) {n : Nat} (hn : 0 < n) : (s.pickTile c n).1 < n ∧
    ((s.pickTile c n).2 = s ∨ ∃ p, (s.pickTile c n).2 = { s with free := s.free + 1 }.setCore c { s.core c with picks := p }) := by
  unfold State.pickTile
  dsimp only
  split
  · exact ⟨Nat.mod_lt _ hn, Or.inr ⟨_, rfl⟩⟩
  · split
    · exact ⟨Nat.mod_lt _ hn, Or.inl rfl⟩
    · exact ⟨Nat.mod_lt _ hn, Or.inr ⟨_, rfl⟩⟩

/-- Settles O30: the ops by their cases, the cover by the cell that a row and column lie in (`countP_cell`). -/
theorem tileWalker : Obligations.TileWalker := by
  refine ⟨fun s h d a c k hc => ?_, fun rows cols m n hm hn => ⟨fun q hq => ?_, fun i hi j hj => ?_⟩⟩
  · intro x w sh rows cols tiles walk
    have hrows : bits (s.ri a).toNat 15 0 = rows := bits_toNat_eq_extractLsb' _ 0 15
    have hcols : bits (s.ri a).toNat 31 16 = cols := bits_toNat_eq_extractLsb' _ 16 15
    refine ⟨?_, fun hw => ?_, fun hact hw => ?_, ?_⟩
    · rw [exec, execTwb, State.onCore_core hc]
      dsimp only
      rw [answer_result, hrows, hcols] <;> rfl
    · rw [exec, execTwn, State.onCore_core hc]
      dsimp only
      have hnone : (!w.active || decide (w.tiles = [])) = true := by simpa using hw
      rw [if_pos hnone, answer_result] <;> rfl
    · have hlen : 0 < w.tiles.length := List.length_pos_iff.2 hw
      obtain ⟨hi, ht⟩ := pickTile_spec s c hlen
      refine ⟨_, w.tiles[(s.pickTile c w.tiles.length).1], _, List.getElem?_eq_getElem hi, ?_, ht⟩
      rw [exec, execTwn, State.onCore_core hc]
      dsimp only
      have hsome : ¬ (!w.active || decide (w.tiles = [])) = true := by simp [hact, hw]
      rw [if_neg hsome, answer_result, dropAt_eq, getD_of_lt _ hi] <;> rfl
    · rw [exec, execTwe, State.onCore_core hc]
      dsimp only
      rw [answer_result] <;> rfl
  · rw [gridTiles_eq hm hn] at hq
    simp only [List.mem_map, List.mem_flatMap, List.mem_range] at hq
    obtain ⟨_, ⟨p, hp, r, hr, rfl⟩, rfl⟩ := hq
    rw [place_lt hm] at hp
    rw [place_lt hn] at hr
    dsimp only
    omega
  · rw [← List.countP_eq_length_filter, gridTiles_eq hm hn, List.countP_map]
    have hcell : (fun q : Nat × Nat × Nat × Nat => decide (q.1 ≤ i ∧ i < q.1 + q.2.2.1 ∧ q.2.1 ≤ j ∧ j < q.2.1 + q.2.2.2)) ∘
        (fun x : Nat × Nat => (x.1 * m, x.2 * n, min m (rows - x.1 * m), min n (cols - x.2 * n)))
        = fun x => decide (x.1 = i / m ∧ x.2 = j / n) := by
      funext x
      simp only [Function.comp_apply, ← mem_interval_iff hm hi, ← mem_interval_iff hn hj, and_assoc]
    rw [hcell, countP_cell, if_pos]
    exact ⟨(place_lt hm).2 (Nat.lt_of_le_of_lt (Nat.div_mul_le_self i m) hi), (place_lt hn).2 (Nat.lt_of_le_of_lt (Nat.div_mul_le_self j n) hj)⟩

/-! ### Tests and shapes (R179 to R187) -/

theorem side_eq (h : Nat) : side h = (([32, 28, 24, 16] : List Nat).find? (· ≤ h)).getD 0 := by
  unfold side
  grind

theorem side_le (h : Nat) : side h ≤ 32 := by
  unfold side
  grind

theorem foldl_min_pair {α : Type} (f : α → Nat × Nat) (l : List α) (a : Nat × Nat) :
    l.foldl (fun m j => (min m.1 (f j).1, min m.2 (f j).2)) a
      = (l.foldl (fun m j => min m (f j).1) a.1, l.foldl (fun m j => min m (f j).2) a.2) := by
  induction l generalizing a with
  | nil => rfl
  | cons j l ih => exact ih _

/-- The least size over a gang, side by side. -/
theorem State.shape_eq (s : State) (c : Nat) : s.shape c =
    ((s.gangOf c).foldl (fun m j => min m (s.core j).fmap.shape.1) 32, (s.gangOf c).foldl (fun m j => min m (s.core j).fmap.shape.2) 32) := by
  unfold State.shape
  exact foldl_min_pair (fun j => (s.core j).fmap.shape) (s.gangOf c) (32, 32)

theorem foldl_min_le {α : Type} (f : α → Nat) (l : List α) (a : Nat) : l.foldl (fun m j => min m (f j)) a ≤ a
    ∧ ∀ j ∈ l, l.foldl (fun m j => min m (f j)) a ≤ f j := by
  induction l generalizing a with
  | nil => simp
  | cons j l ih =>
    obtain ⟨h1, h2⟩ := ih (min a (f j))
    refine ⟨Nat.le_trans h1 (Nat.min_le_left _ _), fun q hq => ?_⟩
    rcases List.mem_cons.1 hq with rfl | hq
    · exact Nat.le_trans h1 (Nat.min_le_right _ _)
    · exact h2 q hq

theorem foldl_min_mem {α : Type} (f : α → Nat) (l : List α) (a : Nat) :
    l.foldl (fun m j => min m (f j)) a = a ∨ ∃ j ∈ l, l.foldl (fun m j => min m (f j)) a = f j := by
  induction l generalizing a with
  | nil => exact Or.inl rfl
  | cons j l ih =>
    rcases ih (min a (f j)) with h | ⟨q, hq, h⟩
    · rcases Nat.le_total a (f j) with hm | hm
      · exact Or.inl (h.trans (Nat.min_eq_left hm))
      · exact Or.inr ⟨j, List.mem_cons_self, h.trans (Nat.min_eq_right hm)⟩
    · exact Or.inr ⟨q, List.mem_cons_of_mem j hq, h⟩

/-- The least of values none above the start is one of them. -/
theorem exists_eq_foldl_min {α : Type} (f : α → Nat) {l : List α} {a : Nat} (hl : l ≠ []) (ha : ∀ j ∈ l, f j ≤ a) :
    ∃ j ∈ l, l.foldl (fun m j => min m (f j)) a = f j := by
  rcases foldl_min_mem f l a with h | h
  · obtain ⟨j, hj⟩ := List.exists_mem_of_ne_nil l hl
    exact ⟨j, hj, h.trans (Nat.le_antisymm (h ▸ (foldl_min_le f l a).2 j hj) (ha j hj))⟩
  · exact h

theorem exec_fmaprd {s : State} {c : Fin 32} {k : Fin 8} (hc : s.cur = .core c k) (h : Bool) (d : Fin 64) (n : Fin 4) :
    exec (.fmaprd h (.sx d) n) s = .next (s.withScalar 3 d (BitVec.ofNat 64 (match n with
      | 0 => (s.core c).fmap.row.toNat
      | 1 => (s.core c).fmap.col.toNat
      | 2 => (s.core c).fmap.last.toNat
      | 3 => 0))) := by
  rw [exec, execFmaprd, State.onCore_core hc]
  dsimp only
  rw [answer_result]
  match n with
  | 0 => rfl
  | 1 => rfl
  | 2 => rfl
  | 3 => rfl

/-- Settles O31: the ops by their cases, the shape as the least over the gang. -/
theorem arrayTestsAndShape : Obligations.ArrayTestsAndShape := by
  refine ⟨fun s h d c k hc => ⟨?_, ?_, ?_, ?_, ?_, ?_⟩, fun f => ?_, fun s c j hj => ?_, fun s c hne => ?_⟩
  · rw [exec, execMstestQuick, State.beginTest, State.onCore_core hc]
    exact answer_done_core hc rfl
  · rw [exec, execMstestFull, State.beginTest, State.onCore_core hc]
    exact answer_done_core hc rfl
  · rw [exec_fmaprd hc, BitVec.ofNat_toNat]
  · rw [exec_fmaprd hc, BitVec.ofNat_toNat]
  · rw [exec_fmaprd hc, BitVec.ofNat_toNat]
  · rw [exec_fmaprd hc] <;> rfl
  · simp only [FaultMap.shape, healthy, side_eq, List.countP_eq_length_filter]
  · rw [State.shape_eq]
    exact ⟨(foldl_min_le _ _ _).2 j hj, (foldl_min_le _ _ _).2 j hj⟩
  · rw [State.shape_eq]
    exact ⟨exists_eq_foldl_min _ hne fun j _ => side_le _, exists_eq_foldl_min _ hne fun j _ => side_le _⟩

end Sys2Proof.Machine
end

