-- ==== Sys2Proof/Proofs/MatrixValues.lean ====
section
/-!
The values of an MMA's elements (R161, R162, R169 to R171): panel rows byte by byte, exact integer sums, the windowed floating sum, and
O28.
-/
namespace Sys2Proof.Machine

/-! ### Panel rows (R161, R162) -/

theorem byte_leNat (bs : List Byte) (j : Nat) : leNat bs / 2 ^ (8 * j) % 2 ^ 8 = (bs.getD j 0).toNat := by
  induction bs generalizing j with
  | nil => simp [leNat]
  | cons b bs ih =>
    have hb : b.toNat < 2 ^ 8 := b.isLt
    cases j with
    | zero => simp only [leNat, Nat.mul_zero, Nat.pow_zero, Nat.div_one, List.getD_cons_zero]; omega
    | succ j =>
      have hpow : 2 ^ (8 * (j + 1)) = 2 ^ 8 * 2 ^ (8 * j) := by rw [← Nat.pow_add]; congr 1; omega
      have hdiv : leNat (b :: bs) / 2 ^ 8 = leNat bs := by simp only [leNat]; omega
      rw [hpow, ← Nat.div_div_eq_div_mul, hdiv, ih, List.getD_cons_succ]

theorem getD_readBytes (m : List Host.Cell) (a n : Nat) {j : Nat} (hj : j < n) : (readBytes m a n).getD j 0 = byteAt m (a + j) := by
  induction n generalizing a j with
  | zero => omega
  | succ n ih => cases j with
    | zero => rfl
    | succ j => rw [readBytes, List.getD_cons_succ, ih _ (by omega), Nat.add_right_comm, Nat.add_assoc]

theorem byte_readNat (m : List Host.Cell) (a : Nat) {n j : Nat} (hj : j < n) : readNat m a n / 2 ^ (8 * j) % 2 ^ 8 = (byteAt m (a + j)).toNat := by
  rw [readNat, byte_leNat, getD_readBytes m a n hj]

/-- The code of element i of a row, from the row's bytes (R161). -/
theorem rowCode_eq (m : List Host.Cell) (a i : Nat) {t : Ty}
    (hi : i * (if t = .e2m1 then 4 else if t = .f16 ∨ t = .bf16 then 16 else 8) < 512)
    (ht : t ∈ ([.i8, .n8, .f16, .bf16, .e4m3, .e5m2, .e3m2, .e2m3, .m8, .m6, .e2m1] : List Ty)) :
    readNat m a 64 / 2 ^ (layoutBits t false * i) % 2 ^ width t =
      if t = .f16 ∨ t = .bf16 then (byteAt m (a + 2 * i)).toNat + 256 * (byteAt m (a + (2 * i + 1))).toNat
      else if t = .e2m1 then (byteAt m (a + i / 2)).toNat / 16 ^ (i % 2) % 16 else (byteAt m (a + i)).toNat % 2 ^ width t := by
  have hbyte (h : i < 64) (k : Nat) (hk : k ≤ 8) : readNat m a 64 / 2 ^ (8 * i) % 2 ^ k = (byteAt m (a + i)).toNat % 2 ^ k := by
    rw [← byte_readNat m a h, Nat.mod_mod_of_dvd _ (Nat.pow_dvd_pow 2 hk)]
  have hhalf (h : i < 32) : readNat m a 64 / 2 ^ (16 * i) % 2 ^ 16
      = (byteAt m (a + 2 * i)).toNat + 256 * (byteAt m (a + (2 * i + 1))).toNat := by
    rw [← byte_readNat m a (show 2 * i < 64 by omega), ← byte_readNat m a (show 2 * i + 1 < 64 by omega),
      show 8 * (2 * i) = 16 * i by omega, show 8 * (2 * i + 1) = 16 * i + 8 by omega, Nat.pow_add, ← Nat.div_div_eq_div_mul]
    omega
  have hnibble (h : i < 128) : readNat m a 64 / 2 ^ (4 * i) % 2 ^ 4 = (byteAt m (a + i / 2)).toNat / 16 ^ (i % 2) % 16 := by
    rw [← byte_readNat m a (show i / 2 < 64 by omega)]
    obtain ⟨q, h0 | h1⟩ : ∃ q, i = 2 * q ∨ i = 2 * q + 1 := ⟨i / 2, by omega⟩
    · rw [show i / 2 = q by omega, show i % 2 = 0 by omega, show 4 * i = 8 * q by omega, Nat.pow_zero]
      omega
    · rw [show i / 2 = q by omega, show i % 2 = 1 by omega, show 4 * i = 8 * q + 4 by omega, Nat.pow_one, Nat.pow_add, ← Nat.div_div_eq_div_mul]
      omega
  simp only [List.mem_cons, List.not_mem_nil, or_false] at ht
  rcases ht with rfl | rfl | rfl | rfl | rfl | rfl | rfl | rfl | rfl | rfl | rfl
  case inr.inr.inl | inr.inr.inr.inl => exact hhalf (by simp at hi; omega)
  case inr.inr.inr.inr.inr.inr.inr.inr.inr.inr => exact hnibble (by simp at hi; omega)
  all_goals exact hbyte (by simp at hi; omega) _ (by decide)

theorem scaledVal_eq (t : Ty) (sc : Bool) (x code : Nat) : scaledVal t sc x code =
    if sc = false then decode t code else match decode t code with
        | .zero n => .zero n
        | .nan g => .nan g
        | .inf n => if x = 0xFF then .nan false else .inf n
        | .fin q => if x = 0xFF then .nan false
            else .fin ((Frac.pow2 ((x : Int) - 127)).mul (if t = .i8 then q.mul (Frac.pow2 (-6)) else q)) := by
  cases sc
  · rfl
  · simp only [scaledVal, Bool.not_true, Bool.false_eq_true, if_false, reduceCtorEq, beq_iff_eq, scaleOf] <;> rfl

/-! ### The elements (R169, R170) -/

/-- The element of row i and column j. -/
def mmaElemAt (m : MmaFmt) (ma mb : List Host.Cell) (oa ob : Nat) (cz sat : Bool) (ct : List (BitVec 32)) (i j : Nat) : MmaElem :=
  if m.f32 then mmaElemF m (32 * i + j) (panelRow ma oa i m.k m.a m.sa) (panelRow mb ob j m.k m.b m.sb)
    (rowScales ma oa i (m.k / 32) m.sa) (rowScales mb ob j (m.k / 32) m.sb) cz (ct.getD (32 * i + j) 0)
  else mmaElemI (32 * i + j) (panelRow ma oa i m.k m.a m.sa) (panelRow mb ob j m.k m.b m.sb) cz (ct.getD (32 * i + j) 0) sat

section
variable {m : MmaFmt} {sh : Nat × Nat} {ma mb : List Host.Cell} {oa ob : Nat} {cz sat : Bool} {ct : List (BitVec 32)}

theorem mmaElems_eq : mmaElems m sh ma mb oa ob cz sat ct
    = (List.range sh.1).flatMap fun i => (List.range sh.2).map fun j => mmaElemAt m ma mb oa ob cz sat ct i j := by
  simp only [mmaElems, List.flatMap_map, List.map_map] <;> rfl

theorem mmaElemAt_mem {i j : Nat} (hi : i < sh.1) (hj : j < sh.2) :
    mmaElemAt m ma mb oa ob cz sat ct i j ∈ mmaElems m sh ma mb oa ob cz sat ct := by
  rw [mmaElems_eq]
  exact List.mem_flatMap.2 ⟨i, List.mem_range.2 hi, List.mem_map.2 ⟨j, List.mem_range.2 hj, rfl⟩⟩

theorem mmaElemAt_idx (i j : Nat) : (mmaElemAt m ma mb oa ob cz sat ct i j).idx = 32 * i + j := by
  unfold mmaElemAt
  split <;> rfl

end

theorem panelRow_terms (f : FVal → FVal → FVal) (ma mb : List Host.Cell) (oa ob i j k : Nat) (t1 t2 : Ty) (s1 s2 : Bool) :
    List.zipWith f (panelRow ma oa i k t1 s1) (panelRow mb ob j k t2 s2)
      = (List.range k).map fun n => f ((panelRow ma oa i k t1 s1).getD n (.zero false)) ((panelRow mb ob j k t2 s2).getD n (.zero false)) := by
  simp only [panelRow, zipWith_map_range, getD_map_range]
  exact List.map_congr_left fun n hn => by rw [if_pos (List.mem_range.1 hn), if_pos (List.mem_range.1 hn)]

/-! ### Exact integer sums (R170) -/

/-- The integer that a byte of an unscaled integer panel holds. -/
theorem decode_real_byte {t : Ty} (ht : t = .i8 ∨ t = .n8) (b : Byte) : ((decode t b.toNat).real).num = elemInt t b.toNat := by
  have hint : t.isInt = true := by obtain rfl | rfl := ht <;> rfl
  have hmod : b.toNat % 2 ^ width t % 2 ^ width t = b.toNat % 2 ^ width t := Nat.mod_mod _ _
  simp only [decode, hint, if_true, elemInt, toSigned, hmod]
  by_cases hz : (if t.isSigned = true then
      (if b.toNat % 2 ^ width t < 2 ^ (width t - 1) then ((b.toNat % 2 ^ width t : Nat) : Int)
        else (b.toNat % 2 ^ width t : Nat) - (2 ^ width t : Nat)) else ((b.toNat % 2 ^ width t : Nat) : Int)) = 0
  · rw [if_pos hz, hz] <;> rfl
  · rw [if_neg hz] <;> rfl

theorem panelRow_real {t : Ty} (ht : t = .i8 ∨ t = .n8) (m : List Host.Cell) (off r : Nat) :
    (panelRow m off r 64 t false).map (fun v => v.real.num)
      = (List.range 64).map fun k => elemInt t (byteAt m (off + 64 * r + k)).toNat := by
  simp only [panelRow, List.map_map]
  refine List.map_congr_left fun k hk => ?_
  have hk' := List.mem_range.1 hk
  have hcode : readNat m (off + 64 * r) 64 / 2 ^ (layoutBits t false * k) % 2 ^ width t = (byteAt m (off + 64 * r + k)).toNat := by
    obtain rfl | rfl := ht <;> exact byte_readNat m _ hk'
  simp only [Function.comp_apply, hcode]
  exact decode_real_byte ht _

theorem mmaElemI_eq {t1 t2 : Ty} (h1 : t1 = .i8 ∨ t1 = .n8) (h2 : t2 = .i8 ∨ t2 = .n8) (ma mb : List Host.Cell) (oa ob i j idx : Nat)
    (cz sat : Bool) (cbits : BitVec 32) :
    mmaElemI idx (panelRow ma oa i 64 t1 false) (panelRow mb ob j 64 t2 false) cz cbits sat =
      let sum : Int := (if cz then 0 else cbits.toInt) + ((List.range 64).map fun k =>
          elemInt t1 (byteAt ma (oa + 64 * i + k)).toNat * elemInt t2 (byteAt mb (ob + 64 * j + k)).toNat).sum
      ⟨idx, BitVec.ofInt 32 (if sat then max (-(2 ^ 31)) (min (2 ^ 31 - 1) sum) else sum), 0, false, false⟩ := by
  have hterms : List.zipWith (fun a b => (a.real.mul b.real).num) (panelRow ma oa i 64 t1 false) (panelRow mb ob j 64 t2 false)
      = (List.range 64).map fun k =>
          elemInt t1 (byteAt ma (oa + 64 * i + k)).toNat * elemInt t2 (byteAt mb (ob + 64 * j + k)).toNat := by
    rw [← zipWith_map_range, ← panelRow_real h1, ← panelRow_real h2, List.zipWith_map] <;> rfl
  simp only [mmaElemI, hterms, accI, sat_eq_clamp, ← List.sum_eq_foldl] <;> rfl

/-! ### The windowed sum (R171) -/

theorem any_isNan_iff (l : List FVal) : l.any FVal.isNan = true ↔ ∃ g, FVal.nan g ∈ l := by
  rw [List.any_eq_true]
  constructor
  · rintro ⟨v, hv, hn⟩
    cases v with
    | nan g => exact ⟨g, hv⟩
    | _ => cases hn
  · rintro ⟨g, hg⟩
    exact ⟨_, hg, rfl⟩

theorem infs_eq (l : List FVal) : infs l = (decide (FVal.inf false ∈ l), decide (FVal.inf true ∈ l)) := by
  simp [infs, List.any_beq']

/-- The finite values among members. -/
def finites (l : List FVal) : List Frac := l.filterMap fun v => match v with
  | .fin q => some q
  | _ => none

theorem accF_of_numbers {l : List FVal} (hnan : ∀ g, FVal.nan g ∉ l) (hpos : FVal.inf false ∉ l) (hneg : FVal.inf true ∉ l) :
    accF l = match finites l with
      | [] => { code := 0, fl := 0 }
      | q :: qs =>
        let e := qs.foldl (fun m x => max m (expOf x)) (expOf q)
        let s := (finites l).foldl (fun acc x => acc.add (truncBelow x (e - 99))) (Frac.int 0)
        let exact := (finites l).foldl (fun acc x => acc.add x) (Frac.int 0)
        let cut : BitVec 5 := if s.eq exact then 0 else 1
        if s.isZero then { code := 0, fl := cut }
        else { round .f32 .ne s with fl := (round .f32 .ne s).fl ||| cut } := by
  have h1 : ¬ l.any FVal.isNan = true := by rw [any_isNan_iff]; exact fun ⟨g, hg⟩ => hnan g hg
  unfold accF
  simp only [h1, infs_eq, hpos, hneg, decide_false, Bool.false_and, Bool.false_eq_true, if_false]
  rfl

theorem accF_zeros {l : List FVal} (hl : ∀ v ∈ l, ∃ n, v = .zero n) : accF l = ⟨0, 0⟩ := by
  have absent {v : FVal} (hv : ∀ n, v ≠ .zero n) : v ∉ l := fun h => (hl v h).elim hv
  have hfin : finites l = [] := List.filterMap_eq_nil_iff.2 fun v hv => by obtain ⟨n, rfl⟩ := hl v hv; rfl
  rw [accF_of_numbers (fun g => absent (by simp)) (absent (by simp)) (absent (by simp)), hfin]

theorem accF_drop_zero (l r : List FVal) (n : Bool) : accF (l ++ .zero n :: r) = accF (l ++ r) := by
  simp [accF, infs, FVal.isNan, sigFlag]

/-! ### Powers of two -/

theorem two_zpow_pos (k : Int) : (0 : Rat) < 2 ^ k := Rat.zpow_pos (by decide)

theorem two_zpow_add (a b : Int) : (2 : Rat) ^ (a + b) = 2 ^ a * 2 ^ b := Rat.zpow_add (by decide) a b

theorem two_zpow_natCast (k : Nat) : (2 : Rat) ^ (k : Int) = (2 ^ k : Nat) := by
  rw [Rat.zpow_natCast, Rat.natCast_pow, Rat.natCast_ofNat]

theorem two_zpow_le {a b : Int} (h : a ≤ b) : (2 : Rat) ^ a ≤ 2 ^ b := by
  obtain ⟨n, rfl⟩ := Int.le.dest h
  have hn : ((1 : Nat) : Rat) ≤ (2 ^ n : Nat) := Rat.natCast_le_natCast.2 (Nat.two_pow_pos n)
  have hmul := Rat.mul_le_mul_of_nonneg_left hn (Rat.le_of_lt (two_zpow_pos a))
  rw [two_zpow_add, two_zpow_natCast]
  rwa [show ((1 : Nat) : Rat) = 1 from rfl, Rat.mul_one] at hmul

theorem lt_of_two_zpow_lt {a b : Int} (h : (2 : Rat) ^ a < 2 ^ b) : a < b :=
  Int.not_le.1 fun hle => Rat.not_le.2 h (two_zpow_le hle)

theorem two_zpow_log2_le {n : Nat} (hn : n ≠ 0) : (2 : Rat) ^ (Nat.log2 n : Int) ≤ n :=
  two_zpow_natCast _ ▸ Rat.natCast_le_natCast.2 (Nat.log2_self_le hn)

theorem lt_two_zpow_log2 (n : Nat) : (n : Rat) < 2 ^ ((Nat.log2 n : Int) + 1) :=
  (two_zpow_natCast (Nat.log2 n + 1)).symm ▸ Rat.natCast_lt_natCast.2 Nat.lt_log2_self

section
variable {q : Frac}

/-- The exponent of a nonzero value is that of its binade (R105). -/
theorem expOf_spec (hd : 0 < q.den) (hn : q.num ≠ 0) : (2 : Rat) ^ expOf q ≤ q.val.abs ∧ q.val.abs < 2 ^ (expOf q + 1) := by
  have hmul : q.abs.val * q.den = q.num.natAbs := Frac.val_mul_den (a := q.abs) hd
  have hdq : (0 : Rat) < q.den := Frac.den_cast_pos hd
  have hnlo := two_zpow_log2_le (Int.natAbs_ne_zero.2 hn)
  have hnhi := lt_two_zpow_log2 q.num.natAbs
  have hdlo := two_zpow_log2_le (Nat.ne_of_gt hd)
  have hdhi := lt_two_zpow_log2 q.den
  have hexp : expOf q = if (Frac.pow2 ((Nat.log2 q.num.natAbs : Int) - Nat.log2 q.den)).le q.abs
      then (Nat.log2 q.num.natAbs : Int) - Nat.log2 q.den else (Nat.log2 q.num.natAbs : Int) - Nat.log2 q.den - 1 := rfl
  have hle := Frac.le_iff (Frac.pow2_den_pos ((Nat.log2 q.num.natAbs : Int) - Nat.log2 q.den)) (show 0 < q.abs.den from hd)
  rw [← Frac.val_abs hd, hexp]
  rw [Frac.val_pow2] at hle
  generalize (Nat.log2 q.num.natAbs : Int) = ln at *
  generalize (Nat.log2 q.den : Int) = ld at *
  split
  next h =>
    refine ⟨hle.1 h, Rat.lt_of_mul_lt_mul_right (c := q.den) ?_ (Rat.le_of_lt hdq)⟩
    refine Std.lt_of_lt_of_le (hmul ▸ hnhi) ?_
    calc (2 : Rat) ^ (ln + 1) = 2 ^ (ln - ld + 1) * 2 ^ ld := by rw [← two_zpow_add, show ln - ld + 1 + ld = ln + 1 by omega]
      _ ≤ 2 ^ (ln - ld + 1) * q.den := Rat.mul_le_mul_of_nonneg_left hdlo (Rat.le_of_lt (two_zpow_pos _))
  next h =>
    refine ⟨Rat.le_of_mul_le_mul_right (c := q.den) ?_ hdq, ?_⟩
    · calc 2 ^ (ln - ld - 1) * (q.den : Rat)
          ≤ 2 ^ (ln - ld - 1) * 2 ^ (ld + 1) := Rat.mul_le_mul_of_nonneg_left (Rat.le_of_lt hdhi) (Rat.le_of_lt (two_zpow_pos _))
        _ = 2 ^ ln := by rw [← two_zpow_add, show ln - ld - 1 + (ld + 1) = ln by omega]
        _ ≤ q.abs.val * q.den := hmul ▸ hnlo
    · rw [Int.sub_add_cancel]
      exact Rat.not_le.1 (mt hle.2 h)

theorem expOf_le (hd : 0 < q.den) (hn : q.num ≠ 0) {e : Int} (h : q.val.abs < 2 ^ (e + 1)) : expOf q ≤ e := by
  have := lt_of_two_zpow_lt (Std.lt_of_le_of_lt (expOf_spec hd hn).1 h)
  omega

theorem le_expOf (hd : 0 < q.den) (hn : q.num ≠ 0) {e : Int} (h : (2 : Rat) ^ e ≤ q.val.abs) : e ≤ expOf q := by
  have := lt_of_two_zpow_lt (Std.lt_of_le_of_lt h (expOf_spec hd hn).2)
  omega

/-- A value cut toward zero at a power of two is a whole number of them (R105). -/
theorem val_truncBelow (w : Int) :
    (truncBelow q w).val = (q.num * (2 ^ (-w).toNat : Nat)).tdiv (q.den * 2 ^ w.toNat : Nat) * 2 ^ w := by
  have hfloor : (q.abs.div (Frac.pow2 w)).floor = ((q.num.natAbs * 2 ^ (-w).toNat / (q.den * 2 ^ w.toNat) : Nat) : Int) := by
    unfold Frac.floor Frac.div Frac.pow2
    split
    next h =>
      have h0 : (-w).toNat = 0 := by omega
      have hpos : ¬ ((2 ^ w.toNat : Nat) : Int) < 0 := Int.not_lt.2 (Int.natCast_nonneg _)
      simp only [Frac.abs, h0, hpos, if_false, Int.natAbs_natCast, Nat.pow_zero, Nat.mul_one, Int.natCast_one, Int.mul_one,
        Int.natCast_ediv]
    next h =>
      have h0 : w.toNat = 0 := by omega
      have hone : ¬ (1 : Int) < 0 := by decide
      simp only [Frac.abs, h0, hone, if_false, Int.natAbs_one, Nat.pow_zero, Nat.mul_one, Int.natCast_mul, Int.natCast_ediv]
  have hcut : (q.num * (2 ^ (-w).toNat : Nat)).tdiv (q.den * 2 ^ w.toNat : Nat)
      = if q.num < 0 then -((q.num.natAbs * 2 ^ (-w).toNat / (q.den * 2 ^ w.toNat) : Nat) : Int)
        else ((q.num.natAbs * 2 ^ (-w).toNat / (q.den * 2 ^ w.toNat) : Nat) : Int) := by
    split
    next h =>
      have hnum : q.num = -(q.num.natAbs : Int) := by omega
      rw [hnum, Int.neg_mul, Int.neg_tdiv, ← Int.natCast_mul, ← Int.ofNat_tdiv, Int.natAbs_neg, Int.natAbs_natCast]
    next h =>
      have hnum : q.num = (q.num.natAbs : Int) := by omega
      rw [hnum, ← Int.natCast_mul, ← Int.ofNat_tdiv, Int.natAbs_natCast]
  unfold truncBelow
  rw [hfloor, hcut]
  unfold signed Frac.isNeg
  simp only [decide_eq_true_eq]
  split
  · rw [Frac.val_neg, Frac.val_mul, Frac.val_int, Frac.val_pow2]
    rw [Rat.intCast_neg, Rat.neg_mul]
  · rw [Frac.val_mul, Frac.val_int, Frac.val_pow2]

theorem truncBelow_den_pos (q : Frac) (w : Int) : 0 < (truncBelow q w).den := by
  unfold truncBelow signed
  split <;> exact Frac.mul_den_pos Nat.one_pos (Frac.pow2_den_pos w)

/-- A multiple of a power of two, its exponent split by sign. -/
theorem val_split (t w : Int) : (⟨t * (2 ^ w.toNat : Nat), 2 ^ (-w).toNat⟩ : Frac).val = t * 2 ^ w := by
  have hden : ((2 ^ (-w).toNat : Nat) : Rat) ≠ 0 := Frac.den_ne_zero (a := ⟨0, 2 ^ (-w).toNat⟩) (Nat.two_pow_pos _)
  have hmul : _ * ((2 ^ (-w).toNat : Nat) : Rat) = _ := Frac.val_mul_den (a := ⟨t * (2 ^ w.toNat : Nat), 2 ^ (-w).toNat⟩) (Nat.two_pow_pos _)
  have hsplit : ((2 ^ w.toNat : Nat) : Rat) = 2 ^ w * (2 ^ (-w).toNat : Nat) := by
    rw [← two_zpow_natCast, ← two_zpow_natCast, ← two_zpow_add, show w + ((-w).toNat : Int) = (w.toNat : Int) by omega]
  rw [Rat.intCast_mul, Rat.intCast_natCast, hsplit] at hmul
  grind

end

theorem noFlags_or (f : BitVec 5) : 0 ||| f = f := BitVec.zero_or

theorem foldl_max_eq {α : Type} (f : α → Int) {l : List α} {a e : Int} (ha : a ≤ e) (hle : ∀ q ∈ l, f q ≤ e)
    (he : a = e ∨ ∃ q ∈ l, f q = e) :
    l.foldl (fun m x => max m (f x)) a = e := by
  induction l generalizing a with
  | nil => exact he.resolve_right fun ⟨q, hq, _⟩ => List.not_mem_nil hq
  | cons q l ih =>
    have hq := hle q List.mem_cons_self
    refine ih (Int.max_le.2 ⟨ha, hq⟩) (fun r hr => hle r (List.mem_cons_of_mem q hr)) ?_
    rcases he with he | ⟨r, hr, he⟩
    · exact Or.inl (show max a (f q) = e by omega)
    · rcases List.mem_cons.1 hr with rfl | hr
      · exact Or.inl (show max a (f r) = e by omega)
      · exact Or.inr ⟨r, hr, he⟩

theorem val_foldl_add (f : Frac → Frac) (l : List Frac) {a : Frac} (ha : 0 < a.den) (hl : ∀ q ∈ l, 0 < (f q).den) :
    0 < (l.foldl (fun acc x => acc.add (f x)) a).den
    ∧ (l.foldl (fun acc x => acc.add (f x)) a).val = a.val + (l.map fun q => (f q).val).sum := by
  induction l generalizing a with
  | nil => exact ⟨ha, (Rat.add_zero _).symm⟩
  | cons q l ih =>
    have hq := hl q List.mem_cons_self
    obtain ⟨hd, hv⟩ := ih (Frac.add_den_pos ha hq) fun r hr => hl r (List.mem_cons_of_mem q hr)
    refine ⟨hd, hv.trans ?_⟩
    rw [Frac.val_add ha hq, List.map_cons, List.sum_cons, Rat.add_assoc]

theorem sum_map_intCast_mul (g : Frac → Int) (k : Rat) (l : List Frac) :
    (l.map fun q => (g q : Rat) * k).sum = ((l.map g).sum : Int) * k := by
  induction l with
  | nil => exact (Rat.zero_mul k).symm
  | cons q l ih => rw [List.map_cons, List.map_cons, List.sum_cons, List.sum_cons, ih, Rat.intCast_add, Rat.add_mul]

theorem finites_map_fin (l : List Frac) : finites (l.map .fin) = l := by
  induction l with
  | nil => rfl
  | cons q l ih => exact congrArg (q :: ·) ih

/-- The windowed sum of finite members (R171), by the value of what is rounded. -/
theorem accF_window (l : List Frac) (e : Int) (hl : ∀ q ∈ l, 0 < q.den ∧ q.num ≠ 0 ∧ q.abs.lt (Frac.pow2 (e + 1)) = true)
    (he : ∃ q ∈ l, (Frac.pow2 e).le q.abs = true) :
    let w := e - 99
    let cut : Frac → Int := fun q => (q.num * (2 ^ (-w).toNat : Nat)).tdiv (q.den * 2 ^ w.toNat : Nat)
    let total := (l.map cut).sum
    let sum : Frac := ⟨total * (2 ^ w.toNat : Nat), 2 ^ (-w).toNat⟩
    let r : Rnd := if total = 0 then ⟨0, 0⟩ else round .f32 .ne sum
    accF (l.map .fin) = ⟨r.code, r.fl ||| (if sum.eq (l.foldl (fun x q => x.add q) ⟨0, 1⟩) then 0 else 1)⟩ := by
  intro w cut total sum r
  have hexp : ∀ q ∈ l, expOf q ≤ e := fun q hq => by
    obtain ⟨hd, hn, hlt⟩ := hl q hq
    rw [Frac.lt_iff (show 0 < q.abs.den from hd) (Frac.pow2_den_pos _), Frac.val_abs hd, Frac.val_pow2] at hlt
    exact expOf_le hd hn hlt
  have hmax : ∃ q ∈ l, expOf q = e := by
    obtain ⟨q, hq, hle⟩ := he
    obtain ⟨hd, hn, -⟩ := hl q hq
    rw [Frac.le_iff (Frac.pow2_den_pos _) (show 0 < q.abs.den from hd), Frac.val_abs hd, Frac.val_pow2] at hle
    exact ⟨q, hq, Int.le_antisymm (hexp q hq) (le_expOf hd hn hle)⟩
  have hcutden : ∀ q ∈ l, 0 < (truncBelow q w).den := fun q _ => truncBelow_den_pos q w
  obtain ⟨hsden, hsval⟩ := val_foldl_add (fun q => truncBelow q w) l (a := Frac.int 0) Nat.one_pos hcutden
  have hsumden : 0 < sum.den := Nat.two_pow_pos _
  have hval : sum.val = (l.foldl (fun acc x => acc.add (truncBelow x w)) (Frac.int 0)).val := by
    rw [hsval]
    simp only [val_truncBelow]
    rw [Frac.val_int, sum_map_intCast_mul, val_split]
    exact (Rat.zero_add _).symm
  rw [accF_of_numbers (by simp) (by simp) (by simp), finites_map_fin]
  obtain _ | ⟨q, qs⟩ := l
  · obtain ⟨q, hq, -⟩ := hmax
    cases hq
  · have hfold : qs.foldl (fun m x => max m (expOf x)) (expOf q) = e := by
      refine foldl_max_eq expOf (hexp q List.mem_cons_self) (fun r hr => hexp r (List.mem_cons_of_mem q hr)) ?_
      obtain ⟨r, hr, hre⟩ := hmax
      rcases List.mem_cons.1 hr with rfl | hr
      · exact Or.inl hre
      · exact Or.inr ⟨r, hr, hre⟩
    have hzero : ((q :: qs).foldl (fun acc x => acc.add (truncBelow x w)) (Frac.int 0)).isZero = true
        ↔ total = 0 := by
      rw [Frac.isZero, decide_eq_true_eq, Frac.num_eq_zero_iff hsden, ← hval, ← Frac.num_eq_zero_iff hsumden]
      rw [show sum.num = total * (2 ^ w.toNat : Nat) from rfl, Int.mul_eq_zero,
        or_iff_left (Int.natCast_ne_zero.2 (Nat.ne_of_gt (Nat.two_pow_pos _)))]
    have hround := round_congr .f32 .ne hsumden hsden hval
    have hexact : 0 < ((q :: qs).foldl (fun acc x => acc.add x) (Frac.int 0)).den :=
      (val_foldl_add id (q :: qs) (a := Frac.int 0) Nat.one_pos fun x hx => (hl x hx).1).1
    have heq : ((q :: qs).foldl (fun acc x => acc.add (truncBelow x w)) (Frac.int 0)).eq
        ((q :: qs).foldl (fun acc x => acc.add x) (Frac.int 0)) = sum.eq ((q :: qs).foldl (fun acc x => acc.add x) (Frac.int 0)) := by
      rw [Bool.eq_iff_iff, Frac.eq_iff hsden hexact, Frac.eq_iff hsumden hexact, hval]
    simp only [hfold]
    rw [show e - 99 = w from rfl, heq]
    by_cases ht : total = 0
    · rw [if_pos (hzero.2 ht)]
      simp only [r, if_pos ht, noFlags_or] <;> rfl
    · rw [if_neg (mt hzero.1 ht), ← hround]
      simp only [r, if_neg ht] <;> rfl

/-- Settles O28. -/
theorem mmaElementValues : Obligations.MmaElementValues := by
  refine ⟨fun m sh ma mb oa ob cz sat ct => ⟨?_, fun hf ha hb hsa hsb i hi j hj => ?_, fun hf i hi j hj => ?_⟩, fun n v => ?_,
    fun l hl => ?_, fun l hl => ⟨fun ⟨hn, hp⟩ => ?_, fun ⟨hn, hp⟩ => ?_, fun ⟨hn, hp⟩ => ?_⟩, fun l hl => ?_,
    fun l r n => ?_, fun l e hl he => ?_,
    fun ma off r k i t sc hk hi ht => ?_⟩
  · simp only [mmaElems_eq, List.map_flatMap, List.map_map, Function.comp_def, mmaElemAt_idx]
  · have hk : m.k = 64 := by obtain h | h := ha <;> rw [MmaFmt.k, h] <;> rfl
    have h := mmaElemAt_mem (m := m) (ma := ma) (mb := mb) (oa := oa) (ob := ob) (cz := cz) (sat := sat) (ct := ct) hi hj
    rw [mmaElemAt, hf, if_neg Bool.false_ne_true, hk, hsa, hsb, mmaElemI_eq ha hb] at h
    exact h
  · refine ⟨_, mmaElemAt_mem hi hj, mmaElemAt_idx i j, ?_⟩
    rw [mmaElemAt, if_pos hf, mmaElemF, panelRow_terms]
    exact ⟨rfl, rfl, rfl⟩
  · constructor
    · rfl
    · cases v <;> rfl
  · rw [accF, if_pos ((any_isNan_iff l).2 hl)] <;> rfl
  iterate 3
    · have h1 : ¬ l.any FVal.isNan = true := by rw [any_isNan_iff]; exact fun ⟨g, hg⟩ => hl g hg
      simp [accF, h1, infs_eq, hn, hp] <;> rfl
  · exact accF_zeros hl
  · exact accF_drop_zero l r n
  · exact accF_window l e hl he
  · have hget : (panelRow ma off r k t sc)[i]? = some (scaledVal t sc (byteAt ma (off + 2048 + 4 * r + i / 32)).toNat
        (readNat ma (off + 64 * r) 64 / 2 ^ (layoutBits t false * i) % 2 ^ width t)) := by
      rw [panelRow, List.getElem?_map, List.getElem?_range hk] <;> rfl
    rw [hget, rowCode_eq _ _ _ hi ht, scaledVal_eq] <;> rfl

end Sys2Proof.Machine
end

