-- ==== Sys2Proof/Proofs/ControlOps.lean ====
section
/-!
Branches, marks, launches, waits and trap instructions (R321 to R324, R343, R367 to R376, R424 to R428): conditions and targets, the record
and the state that MARK leaves, requests for units, and O32 to O36.
-/
namespace Sys2Proof.Machine

/-! ### Completion and waits -/

section
variable {s t : State} {c : Fin 32} {k : Fin 8} {u : Tid}

theorem answer_defer_core (hc : s.cur = .core c k) (e : Eff) : answer (s.defer e).done = .next (s.withEff e) :=
  answer_done_core hc rfl

theorem answer_waitAt (hu : t.cur = .thr u) (w : Wait) : answer (t.waitAt w) = .next (t.heldBy u w) := by
  rw [State.waitAt, hu] <;> rfl

end

/-! ### Branches (R368, R369) -/

theorem condHolds_iff (s : State) (b : Cond) : s.condHolds b = true ↔ s.Holds b := by
  cases b <;> simp [State.condHolds, State.Holds]

section
variable {s t : State} {c : Fin 32} {k : Fin 8} {u : Tid}

theorem branchTarget_core (hc : s.cur = .core c k) (base : Option Opd) (off : BitVec 19) : (s.branchTarget base off).setWidth 32 =
    (match base with
      | some a => (s.ri a).setWidth 32
      | none => (s.core c).arch.pc) + off.signExtend 32 := by
  rw [State.branchTarget, hc]
  exact BitVec.setWidth_setWidth_of_le _ (by decide)

theorem branchTarget_thr (hu : s.cur = .thr u) (base : Option Opd) (off : BitVec 19) : s.branchTarget base off =
    (match base with
      | some a => s.ri a
      | none => (s.thread u).pc) + 8 * off.signExtend 64 := by
  have hoff : BitVec.ofInt 64 (off.toInt * 8) = 8 * off.signExtend 64 := by
    rw [BitVec.ofInt_mul, BitVec.mul_comm] <;> rfl
  rw [State.branchTarget, hu, hoff] <;> rfl

theorem answer_branchTo_core (hc : s.cur = .core c k) (target : Word) : answer (s.branchTo target) = .next (s.setCore c
    { s.core c with arch := { (s.core c).arch with redir := (s.core c).arch.redir ++ [(target.setWidth 32, 3)] } }) := by
  rw [State.branchTo, hc] <;> rfl

theorem answer_branchTo_thr (hu : s.cur = .thr u) (target : Word) :
    answer (s.branchTo target) = .next (s.setThread u { s.thread u with pc := target }) := by
  rw [State.branchTo, hu] <;> rfl

end

/-- Settles O32: each op is its target (`branchTarget_core`, `branchTarget_thr`) put among the redirections or made the next word. -/
theorem branchesCallsAndReturns : Obligations.BranchesCallsAndReturns := by
  intro s off a b
  have hbrc : exec (.brc b off) s = answer (if s.condHolds b then s.branchTo (s.branchTarget none off) else s.done) := rfl
  refine ⟨fun hb => ?_, fun c k hc => ?_, fun u hu => ?_⟩
  · rw [hbrc, if_neg (mt (condHolds_iff s b).1 hb), answer_done]
  · have hbr (base : Option Opd) : exec (.br base off) s = answer (s.branchTo (s.branchTarget base off)) := rfl
    intro x go o1 o2 link
    have hgo (target : Word) : answer (s.branchTo target) = go (target.setWidth 32) [] := by
      rw [answer_branchTo_core hc]
      simp only [go, List.append_nil] <;> rfl
    have hlink : s.wr 1 (.sx 63) s.linkValue = s.setCore c { x with flight := x.flight ++ [(1, .sreg 63 link)] } := by
      rw [State.wr, if_neg (by decide), State.linkValue, hc] <;> rfl
    have hcall (base : Option Opd) : exec (.call base off) s = go ((s.branchTarget base off).setWidth 32) [(1, .sreg 63 link)] := by
      have hcur : (s.setCore c { x with flight := x.flight ++ [(1, .sreg 63 link)] }).cur = .core c k := hc
      rw [exec, execCall, hlink, answer_branchTo_core hcur]
      simp only [State.core_setCore, if_true, State.setCore_setCore] <;> rfl
    refine ⟨?_, ?_, fun hb => ?_, ?_, ?_, ?_⟩
    · rw [hbr, hgo, branchTarget_core hc]
    · rw [hbr, hgo, branchTarget_core hc]
    · rw [hbrc, if_pos ((condHolds_iff s b).2 hb), hgo, branchTarget_core hc]
    · rw [hcall, branchTarget_core hc]
    · rw [hcall, branchTarget_core hc]
    · rw [exec, execRet, hgo]
  · have hbr (base : Option Opd) : exec (.br base off) s = answer (s.branchTo (s.branchTarget base off)) := rfl
    intro x
    have hlink : s.wr 1 (.sx 63) s.linkValue = s.setThread u { x with x := mset 0 x.x 63 (x.pc + 8) } := by
      rw [State.wr, if_neg (by decide), State.linkValue, hu] <;> rfl
    have hcall (base : Option Opd) : exec (.call base off) s
        = .next (s.setThread u { x with x := mset 0 x.x 63 (x.pc + 8), pc := s.branchTarget base off }) := by
      have hcur : (s.setThread u { x with x := mset 0 x.x 63 (x.pc + 8) }).cur = .thr u := hu
      rw [exec, execCall, hlink, answer_branchTo_thr hcur, State.thread_setThread_same, State.setThread_setThread]
    refine ⟨?_, ?_, fun hb => ?_, ?_, ?_, ?_⟩
    · rw [hbr, answer_branchTo_thr hu, branchTarget_thr hu]
    · rw [hbr, answer_branchTo_thr hu, branchTarget_thr hu]
    · rw [hbrc, if_pos ((condHolds_iff s b).2 hb), answer_branchTo_thr hu, branchTarget_thr hu]
    · rw [hcall, branchTarget_thr hu]
    · rw [hcall, branchTarget_thr hu]
    · rw [exec, execRet, answer_branchTo_thr hu]

/-! ### Marks and trace events (R321 to R324) -/

theorem bits_flow (x : Nat) : bits x 18 0 = x % 2 ^ 19 ∧ bits x 19 19 = x / 2 ^ 19 % 2 := by simp [bits]

/-- Settles O33: what MARK reads, it reads in the state before its record. -/
theorem marksAndTraceEvents : Obligations.MarksAndTraceEvents := by
  intro s code a b n
  refine ⟨?_, ?_, ?_⟩
  · rw [exec, execTrcev, answer_done]
  · rw [exec, execTrcevFull]
    dsimp only
    rw [answer_done, (bits_flow _).1, (bits_flow _).2]
  · intro now use drift armed rec'
    have hcur (evt cls : Nat) (full : Bool) (arg flow role : Nat) : (s.emitAt s.cur evt cls full arg flow role).cur = s.cur :=
      (State.emitAt_run s.cur evt cls full arg flow role (SameRun.refl s)).1
    have hrec (r : Option (Nat × Nat)) : s.emitAt s.cur 0x18 2 false (markArg code.toNat (drift r) r.isNone) 0 0 = rec' r := by
      cases r <;> rfl
    have harmed (r : Option (Nat × Nat)) (limit : BitVec 32) (l : List Nat) : markArmed r (drift r) limit.toNat l = armed r limit l := by
      cases r with
      | none => rfl
      | some q =>
        have hz : limit.toNat = 0 ↔ limit = 0 := by rw [BitVec.toNat_eq] <;> rfl
        simp only [markArmed, armed, hz] <;> rfl
    have hx (r : Option (Nat × Nat)) (limit : BitVec 32) (l : List Nat) (hs : s.markState = (r, limit.toNat, l)) :
        exec (.mark code n) s = answer (((rec' r).setMark (now, code.toNat)
          (if (armed r limit l).contains code.toNat then use (armed r limit l) code.toNat else armed r limit l)
          ((armed r limit l).contains code.toNat)).done) := by
      rw [exec, execMark, hs, ← harmed, ← hrec] <;> rfl
    refine ⟨fun c k hc => ?_, fun u hu => ?_⟩
    · intro x l
      rw [hx x.markRef x.arch.drift x.armed (by rw [State.markState, hc]), State.setMark, hcur, hc]
      dsimp only
      refine (answer_done_core hc ?_).trans ?_
      · exact hcur ..
      · simp only [List.contains_eq_mem, decide_eq_true_eq] <;> rfl
    · intro g r l
      rw [hx r g.drift g.armed (by rw [State.markState, hu]), State.setMark, hcur, hu, answer_done]
      simp only [List.contains_eq_mem, decide_eq_true_eq] <;> rfl

/-! ### Launches, ends and signals (R370 to R372, R376) -/

theorem signalTarget_remote (s : State) (c k : Nat) : s.signalTarget c k true =
    if (s.core c).job ≠ none ∧ (s.core (c / 8 * 8 + k)).job = (s.core c).job then some (c / 8 * 8 + k) else none := by
  simp only [State.signalTarget, Bool.not_true, Bool.false_eq_true, if_false, Bool.and_eq_true, Option.isSome_iff_ne_none, beq_iff_eq]

/-- Why a launch is refused, 0 where it is not (R370). -/
def launchWhy (z : Slot) (own : List Byte) : Nat :=
  if Card.spor z.card = false then 2
  else if Card.part z.card ≠ Card.part own ∨ Card.world z.card ≠ Card.world own then 3 else if z.retiring then 4 else 0

theorem launch_of_resident {s : State} {id m : Nat} {z : Slot} (hm : s.findJob id = some m) (hz : s.slot m = some z) (own : List Byte) :
    s.launch own id = if launchWhy z own = 0 then .ok ((s.newFlow.2.emitJob 0x60 own 0x38 0 id s.newFlow.1 0).takeRelease m s.newFlow.1)
      else .error (launchWhy z own) := by
  simp only [State.launch, hm, hz, launchWhy, Bool.not_eq_true', Bool.or_eq_true, bne_iff_ne]
  grind

theorem semAdd_eq (v n : Nat) : semAdd v n = (min 65535 (v + n), decide (65535 < v + n)) := by
  unfold semAdd
  split
  next h => rw [Nat.min_eq_left (Nat.le_of_lt h), decide_eq_true h]
  next h => rw [Nat.min_eq_right (Nat.not_lt.1 h), decide_eq_false h]

theorem low32 (x : Word) : BitVec.ofNat 64 (x.toNat % 2 ^ 32) = (x.extractLsb' 0 32).setWidth 64 :=
  BitVec.eq_of_toNat_eq (by simp)

/-- Settles O34. -/
theorem launchEndAndSignal : Obligations.LaunchEndAndSignal := by
  intro s a sem n rem add want request
  refine ⟨fun c k j hc => ?_, fun u j hu => ?_⟩
  · have hsem (rem : Bool) : exec (.semsig sem a j rem) s = answer (match s.signalTarget c j.val rem with
        | some j => (s.defer (.signal j sem.toNat add)).done
        | none => trapRes s 0x04 0) := by
      rw [exec, execSemsig, hc] <;> rfl
    have hleave : exec (.leave a n) s = answer (if want 32 ≤ (s.core c).eng.granted then (s.grantTo (.core c k) (want 32)).done
        else ((s.askLeave (.core c k) (want 32)).modCore c fun x => { x with wait := .leave (want 32) }).done) := by
      rw [exec, execLeave, hc] <;> rfl
    refine ⟨?_, ?_, ?_, ?_, ⟨fun h => ?_, fun h => ?_⟩, fun h => ?_, fun h => ?_⟩
    · rw [exec, execLaunch, hc]
      exact (answer_defer_core hc _).trans (by rw [low32])
    · rw [exec, execJend, State.jobEnd, hc]
      exact answer_defer_core hc _
    · rw [exec, execJendBlk, State.jobEnd, hc]
      exact answer_defer_core hc _
    · rw [hsem]
      exact answer_defer_core hc _
    · rw [hsem, signalTarget_remote, if_pos h]
      exact answer_defer_core hc _
    · rw [hsem, signalTarget_remote, if_neg (by grind)]
      exact answer_trapRes ..
    · rw [hleave, if_pos h, hc]
      refine answer_done_core hc ?_
      exact (State.emitAt_run _ 0x1B 6 false (want 32) 0 0 (SameRun.refl _)).1
    · rw [hleave, if_neg (Nat.not_le.2 h)]
      exact answer_done_core hc rfl
  · intro g
    have hleave : exec (.leave a n) s = answer (if want 16 ≤ g.granted then (s.grantTo (.thr u) (want 16)).done
        else (s.askLeave (.thr u) (want 16)).waitAt (.leave (want 16))) := by
      rw [exec, execLeave, hu] <;> rfl
    refine ⟨?_, ?_, ?_, ?_, fun h => ?_, fun h => ?_⟩
    · rw [exec, execSemsig, hu]
      refine (answer_done _).trans ?_
      simp only [State.signalGroup, semAdd_eq] <;> rfl
    · rw [exec, execJend, State.jobEnd, hu]
      exact answer_waitAt hu _
    · rw [exec, execJendBlk, State.jobEnd, hu]
      exact answer_waitAt hu _
    · intro out id
      have hx : exec (.launch a) s = answer (match out.launch (out.cardAt out.cur) id with
          | .ok s => s.done
          | .error r => trapRes out 0x1A (launchTval r id)) := by
        rw [exec, execLaunch, hu] <;> rfl
      have htval (r : Nat) : launchTval r id = r + id * 2 ^ 32 := by rw [launchTval, Nat.mod_eq_of_lt (Nat.mod_lt _ (by decide))]
      refine ⟨fun hn => ?_, fun m z hm hz => ⟨fun hw => ?_, fun hw => ?_⟩⟩
      · have hl : out.launch (out.cardAt out.cur) id = .error 1 := by rw [State.launch, hn]
        rw [hx, hl]
        exact (answer_trapRes ..).trans (by rw [htval])
      · have hw' : launchWhy z (out.cardAt out.cur) ≠ 0 := hw
        rw [hx, launch_of_resident hm hz, if_neg hw']
        exact (answer_trapRes ..).trans (by rw [htval] <;> rfl)
      · have hw' : launchWhy z (out.cardAt out.cur) = 0 := hw
        rw [hx, launch_of_resident hm hz, if_pos hw']
        exact answer_done _
    · rw [hleave, if_pos h, hu]
      exact answer_done _
    · rw [hleave, if_neg (Nat.not_le.2 h)]
      refine answer_waitAt ?_ _
      exact hu

/-! ### Waits and barriers (R373 to R375) -/

/-- Settles O35. -/
theorem waitsAndBarriers : Obligations.WaitsAndBarriers := by
  intro s a n id
  refine ⟨fun c k hc => ⟨?_, ?_, ?_, ?_, ?_⟩, fun u hu => ?_⟩
  · exact answer_defer_core hc _
  · rw [exec, execYield, hc]
    exact answer_done_core hc rfl
  · rw [exec, execSemwait, hc]
    exact answer_done_core hc rfl
  · rw [exec, execBarGroup, State.arrive, hc]
    exact answer_done_core hc rfl
  · rw [exec, execBarBlock, State.arrive, hc]
    exact answer_done_core hc rfl
  · intro g have' k first others ahead
    have hfirst : (g.semq.any fun q => q.1 == n.toNat) = false ↔ first := by
      simp [first, List.any_eq_false]
    have hsem : exec (.semwait n a) s = answer (if k = 0 then (s.acquireAt (.unit u.unit) .core).done
       else if !(g.semq.any fun q => q.1 == n.toNat) && k ≤ have' then
         ((s.modGroup u.unit u.group fun g => { g with sem := mset 0 g.sem n.toNat (mget 0 g.sem n.toNat - k) }).acquireAt (.unit u.unit) .core).done
       else (s.modGroup u.unit u.group fun g => { g with semq := g.semq ++ [(n.toNat, u.thread)] }).waitAt (.sem n.toNat k)) := by
      rw [exec, execSemwait, hu] <;> rfl
    have hyield : exec .yield s = answer (if others = [] then s.done else s.advance.waitAt (.yield (others.map tidKey) 64)) := by
      rw [exec, execYield, hu]
    have harrive (level id : Nat) : answer (s.arrive level id) = .next ((s.modGroup u.unit u.group fun g =>
        { g with bars := g.bars ++ [(level, id, u.thread)] }).heldBy u (.bar level id)) := by
      rw [State.arrive, hu]
      refine answer_waitAt ?_ _
      exact hu
    refine ⟨fun hk => ?_, fun ⟨hk, hf, hle⟩ => ?_, fun ⟨hk, hn⟩ => ?_, fun ho => ?_, fun ho => ?_, harrive 0 id, harrive 1 id⟩
    · rw [hsem, if_pos hk]
      exact answer_done _
    · have hc : (!(g.semq.any fun q => q.1 == n.toNat) && decide (k ≤ have')) = true := by simp [hfirst.2 hf, hle]
      rw [hsem, if_neg hk, if_pos hc]
      exact answer_done _
    · have hc : ¬ (!(g.semq.any fun q => q.1 == n.toNat) && decide (k ≤ have')) = true := by
        rw [Bool.and_eq_true, Bool.not_eq_true', hfirst, decide_eq_true_eq]
        exact hn
      rw [hsem, if_neg hk, if_neg hc]
      refine answer_waitAt ?_ _
      exact hu
    · rw [hyield, if_pos ho, answer_done]
    · rw [hyield, if_neg ho]
      refine answer_waitAt (t := s.moveOn) ?_ _
      rw [State.moveOn_thr hu]
      exact hu

/-! ### Trap instructions (R424 to R428) -/

/-- Does a TRAP of this condition trap (R425)? -/
def State.trapTaken (s : State) : TrapCond → Bool
  | .cond c => s.condHolds c
  | .always => true

theorem exec_trap (s : State) (b : TrapCond) (code : BitVec 11) :
    exec (.trap b code) s = answer (if s.trapTaken b then trapRes s 0x30 code.toNat else s.done) := by
  cases b <;> rfl

theorem bit_eq_testBit (x i : Nat) : bit x i = x.testBit i := by
  rw [Nat.testBit_eq_decide_div_mod_eq] <;> rfl

/-- Settles O36. -/
theorem trapInstructions : Obligations.TrapInstructions := by
  intro s code b o p holds quiet
  have hcheck : exec (.check o p) s = answer (if s.ri o = s.ri p then s.done else trapRes s 0x20 (s.ri o ^^^ s.ri p).toNat) := rfl
  have hholds : s.trapTaken b = true ↔ holds := by
    cases b with
    | always => exact iff_of_true rfl trivial
    | cond c => exact condHolds_iff s c
  have hquiet : (!bit (Card.trace (s.cardAt s.cur)) 7 || (s.eng s.cur.dom).stepping) = true ↔ quiet := by
    rw [Bool.or_eq_true, Bool.not_eq_true', bit_eq_testBit]
  refine ⟨fun h => ?_, fun h => ?_, fun h => ?_, fun h => ?_, fun h => ?_, fun c k hc => ⟨?_, fun h => ?_, ?_⟩,
    fun u hu => ⟨?_, fun h => ?_, fun h => ?_, fun h => ?_⟩⟩
  · rw [hcheck, if_pos h, answer_done]
  · rw [hcheck, if_neg h, answer_trapRes, BitVec.ofNat_toNat, BitVec.setWidth_eq]
  · rw [exec_trap, if_pos (hholds.2 h), answer_trapRes, BitVec.ofNat_toNat]
  · rw [exec_trap, if_neg (mt hholds.1 h), answer_done]
  · rw [exec, execBkpt, if_pos (hquiet.2 h), answer_done]
  · rw [exec, execSvc, hc]
    exact answer_defer_core hc _
  · rw [exec, execBkpt, if_neg (mt hquiet.1 h), hc]
    exact (answer_trapRes ..).trans (by rw [BitVec.ofNat_toNat, hc])
  · rw [exec, execTret, hc]
    exact answer_done_core hc rfl
  · rw [exec, execSvc, hu]
    exact (answer_trapRes ..).trans (by rw [BitVec.ofNat_toNat, hu])
  · rw [exec, execBkpt, if_neg (mt hquiet.1 h), hu]
    have hadv : s.advance = s.setThread u { s.thread u with pc := (s.thread u).pc + 8 } := State.moveOn_thr hu
    simp only [hadv, State.modThread, State.thread_setThread_same, State.setThread_setThread, BitVec.ofNat_toNat] <;> rfl
  · rw [exec, execTret, hu]
    simp only [State.trapReturn, h, if_true] <;> rfl
  · rw [exec, execTret, hu]
    simp only [State.trapReturn, h, Bool.false_eq_true, if_false, answer_trapRes, hu] <;> rfl

end Sys2Proof.Machine
end

