-- ==== Sys2Proof/Proofs/SourcesAndLandings.lean ====
section
/-!
Sources and inline constants (R18 to R23, R64, R65, R117), the landings of exposed results (R39, R42, R120) and the redirections of the
program counter (R43, R368), and O60.
-/
namespace Sys2Proof.Machine

/-! ### Inline constants (R64, R65) -/

theorem testBit_vecElem (v : Vec) (w j b : Nat) : (vecElem v w j).testBit b = (decide (b < w) && v.getLsbD (w * j + b)) := by
  unfold vecElem
  rw [← Nat.shiftRight_eq_div_pow, Nat.testBit_mod_two_pow, Nat.testBit_shiftRight] <;> rfl

theorem splat_eq (w x : Nat) : splat w x =
    BitVec.ofNat 1024 (((List.range (1024 / w)).map fun _ => x % 2 ^ w).foldr (fun v acc => v + acc * 2 ^ w) 0) := by
  rw [splat, List.foldr_map]

theorem vecElem_splat (w x j : Nat) (hj : w * (j + 1) ≤ 1024) : vecElem (splat w x) w j = x % 2 ^ w := by
  refine Nat.eq_of_testBit_eq fun b => ?_
  rw [testBit_vecElem, Nat.testBit_mod_two_pow]
  by_cases hb : b < w
  · have hplace : w * j + b < 1024 := by rw [Nat.mul_succ] at hj; omega
    have hcount : j < 1024 / w := (Nat.le_div_iff_mul_le (by omega)).2 (by rw [Nat.mul_comm]; exact hj)
    rw [splat_eq, BitVec.getLsbD_ofNat, digits_testBit w _ _ j b hb, getD_map_range, if_pos hcount, Nat.testBit_mod_two_pow]
    · simp [hb, hplace]
    · intro v hv
      obtain ⟨-, -, rfl⟩ := List.mem_map.1 hv
      exact Nat.mod_lt _ (Nat.two_pow_pos w)
  · simp [hb]

/-! ### Landings (R39, R42, R120) -/

section
variable {n : Nat}

/-- Results landed in order. -/
def Core.landAll (x : Core) (l : List (Nat × Land)) : Core := l.foldl (fun x e => x.land e.2) x

theorem Core.landAll_append (x : Core) (l r : List (Nat × Land)) : x.landAll (l ++ r) = (x.landAll l).landAll r := List.foldl_append

/-- What no landing of the list changes keeps its value. -/
theorem Core.landAll_keeps {β : Type} (get : Core → β) (l : List (Nat × Land)) (x : Core)
    (h : ∀ e ∈ l, ∀ y : Core, get (y.land e.2) = get y) : get (x.landAll l) = get x := by
  induction l generalizing x with
  | nil => rfl
  | cons e l ih => exact (ih _ fun q hq => h q (List.mem_cons_of_mem e hq)).trans (h e List.mem_cons_self x)

theorem Core.land_flight (x : Core) (l : Land) : (x.land l).flight = x.flight := by cases l <;> rfl

theorem Core.land_sreg_of_ne (x : Core) {l : Land} (h : ∀ w, l ≠ .sreg n w) : mget 0 (x.land l).arch.s n = mget 0 x.arch.s n := by
  cases l with
  | sreg m w =>
    have hm : m ≠ n := fun hm => h w (by rw [hm])
    exact mget_mset_ne _ _ _ hm
  | _ => rfl

theorem Core.land_vreg_of_ne (x : Core) {l : Land} (h : ∀ m w, l ≠ .vreg n m w) : mget 0 (x.land l).arch.v n = mget 0 x.arch.v n := by
  cases l with
  | vreg m k w =>
    have hm : m ≠ n := fun hm => h k w (by rw [hm])
    exact mget_mset_ne _ _ _ hm
  | _ => rfl

theorem Core.land_preg_of_ne (x : Core) {l : Land} (h : ∀ m w, l ≠ .preg n m w) : mget 0 (x.land l).arch.p n = mget 0 x.arch.p n := by
  cases l with
  | preg m k w =>
    have hm : m ≠ n := fun hm => h k w (by rw [hm])
    exact mget_mset_ne _ _ _ hm
  | _ => rfl

theorem Core.land_fflags_of_not_late (x : Core) {l : Land} (h : l.late = false) : (x.land l).arch.fflags = x.arch.fflags := by
  cases l with
  | latch => cases h
  | flags => cases h
  | _ => rfl

end

/-- Is a result due now, registers before a commit's end, flags and latches with the commit (R39, R42)? -/
def dueNow (commit : Bool) (e : Nat × Land) : Bool := decide (e.1 ≤ 1) && (commit || !e.2.late)

/-- The results that land in an advance cycle. -/
def Core.due (x : Core) (commit : Bool) : List (Nat × Land) := (x.flight.filter (dueNow commit)).map fun e => (e.1 - 1, e.2)

/-- The results that stay in flight. -/
def Core.stillInFlight (x : Core) (commit : Bool) : List (Nat × Land) :=
  (x.flight.filter fun e => !dueNow commit e).map fun e => (e.1 - 1, e.2)

section
variable (x : Core) (commit : Bool)

theorem sub_one_eq_zero (k : Nat) : (k - 1 == 0) = decide (k ≤ 1) := by
  rw [Bool.eq_iff_iff, beq_iff_eq, decide_eq_true_eq]
  omega

theorem Core.due_eq : (x.flight.map fun e => (e.1 - 1, e.2)).filter (fun e => e.1 == 0 && (commit || !e.2.late)) = x.due commit := by
  rw [List.filter_map, Core.due]
  refine congrArg _ (List.filter_congr fun e _ => ?_)
  simp only [Function.comp_apply, sub_one_eq_zero, dueNow]

theorem Core.stillInFlight_eq :
    (x.flight.map fun e => (e.1 - 1, e.2)).filter (fun e => !(e.1 == 0 && (commit || !e.2.late))) = x.stillInFlight commit := by
  rw [List.filter_map, Core.stillInFlight]
  refine congrArg _ (List.filter_congr fun e _ => ?_)
  simp only [Function.comp_apply, sub_one_eq_zero, dueNow]

/-- What a cycle lands, before FMT and LUTSEL leave their shadows. -/
def Core.landed : Core := { x with flight := x.stillInFlight commit }.landAll (x.due commit)

theorem Core.landed_flight : (x.landed commit).flight = x.stillInFlight commit :=
  Core.landAll_keeps Core.flight _ _ fun e _ y => y.land_flight e.2

theorem Core.tick_spec : (x.tick commit).flight = x.stillInFlight commit ∧ (x.tick commit).arch.s = (x.landed commit).arch.s
    ∧ (x.tick commit).arch.v = (x.landed commit).arch.v ∧ (x.tick commit).arch.p = (x.landed commit).arch.p
    ∧ (x.tick commit).arch.fflags = (x.landed commit).arch.fflags := by
  rw [← x.landed_flight commit]
  unfold Core.tick Core.landed Core.landAll
  simp only [Core.due_eq, Core.stillInFlight_eq, and_self]

theorem mem_due {e : Nat × Land} (he : e ∈ x.due commit) : ∃ k, k ≤ 1 ∧ (k, e.2) ∈ x.flight ∧ (commit = true ∨ e.2.late = false) := by
  obtain ⟨q, hq, rfl⟩ := List.mem_map.1 he
  obtain ⟨hq, hd⟩ := List.mem_filter.1 hq
  simp only [dueNow, Bool.and_eq_true, decide_eq_true_eq, Bool.or_eq_true, Bool.not_eq_true'] at hd
  exact ⟨q.1, hd.1, hq, hd.2⟩

end

section
variable {x : Core} {commit : Bool} {n k : Nat}

/-- A register whose results are none of those due keeps its value. -/
theorem landed_keeps {β : Type} (get : Core → β) (hframe : ∀ (y : Core) (f : List (Nat × Land)), get { y with flight := f } = get y)
    (h : ∀ e ∈ x.flight, e.1 ≤ 1 → ∀ y : Core, get (y.land e.2) = get y) : get (x.landed commit) = get x := by
  refine (Core.landAll_keeps get _ _ fun e he y => ?_).trans (hframe x _)
  obtain ⟨k, hk, hmem, -⟩ := mem_due x commit he
  exact h _ hmem hk y

/-- The core when the results due of the first ones in flight have landed. -/
def Core.landedFirst (x : Core) (commit : Bool) (l : List (Nat × Land)) : Core :=
  Core.landAll { x with flight := x.stillInFlight commit } ((l.filter (dueNow commit)).map fun e => (e.1 - 1, e.2))

/-- A result due among others, later ones of which leave what it writes as it is, is what has landed. -/
theorem landed_of_split {β : Type} (get : Core → β) {l r : List (Nat × Land)} {e : Land} (hx : x.flight = l ++ (k, e) :: r) (hk : k ≤ 1)
    (hlate : e.late = false) (hr : ∀ q ∈ r, q.1 ≤ 1 → ∀ y : Core, get (y.land q.2) = get y) :
    get (x.landed commit) = get ((x.landedFirst commit l).land e) := by
  have hdue : dueNow commit (k, e) = true := by simp [dueNow, hk, hlate]
  rw [Core.landed, Core.due, hx, List.filter_append, List.filter_cons_of_pos hdue, List.map_append, List.map_cons, Core.landAll_append]
  refine Core.landAll_keeps get _ ((x.landedFirst commit l).land e) fun q hq y => ?_
  obtain ⟨p, hp, rfl⟩ := List.mem_map.1 hq
  obtain ⟨hp, hpd⟩ := List.mem_filter.1 hp
  simp only [dueNow, Bool.and_eq_true, decide_eq_true_eq] at hpd
  exact hr p hp hpd.1 y

/-- What the results before it leave as it is, a result due finds. -/
theorem landedFirst_keeps {β : Type} (get : Core → β) (hframe : ∀ (y : Core) (f : List (Nat × Land)), get { y with flight := f } = get y)
    {l : List (Nat × Land)} (h : ∀ q ∈ l, q.1 ≤ 1 → ∀ y : Core, get (y.land q.2) = get y) : get (x.landedFirst commit l) = get x := by
  refine (Core.landAll_keeps get _ _ fun q hq y => ?_).trans (hframe x _)
  obtain ⟨p, hp, rfl⟩ := List.mem_map.1 hq
  obtain ⟨hp, hpd⟩ := List.mem_filter.1 hp
  simp only [dueNow, Bool.and_eq_true, decide_eq_true_eq] at hpd
  exact h p hp hpd.1 y

end

/-- The flags a result raises. -/
def Land.flagBits : Land → BitVec 5
  | .flags f => f
  | _ => 0

theorem landAll_fflags (l : List (Nat × Land)) (x : Core) (h : ∀ e ∈ l, ∀ a b c d g, e.2 ≠ .latch a b c d g) (i : Nat) :
    (x.landAll l).arch.fflags.getLsbD i = (x.arch.fflags.getLsbD i || l.any fun e => e.2.flagBits.getLsbD i) := by
  induction l generalizing x with
  | nil => simp [Core.landAll]
  | cons e l ih =>
    have hland : (x.land e.2).arch.fflags.getLsbD i = (x.arch.fflags.getLsbD i || e.2.flagBits.getLsbD i) := by
      obtain ⟨k, e⟩ := e
      cases e with
      | latch a b c d g => exact absurd rfl (h _ List.mem_cons_self a b c d g)
      | flags f => exact BitVec.getLsbD_or
      | _ => rw [Core.land_fflags_of_not_late x rfl]; simp [Land.flagBits]
    have hrest := ih (x.land e.2) fun q hq => h q (List.mem_cons_of_mem e hq)
    rw [Core.landAll] at hrest
    rw [Core.landAll, List.foldl_cons, hrest, hland, List.any_cons, Bool.or_assoc]

theorem tick_false_fflags (x : Core) : (x.tick false).arch.fflags = x.arch.fflags := by
  obtain ⟨-, -, -, -, hfl⟩ := x.tick_spec false
  rw [hfl]
  refine Core.landAll_keeps (fun y => y.arch.fflags) _ _ fun e he y => y.land_fflags_of_not_late ?_
  obtain ⟨-, -, -, h⟩ := mem_due x false he
  exact h.resolve_left Bool.false_ne_true

/-- Flags and latches due land at the end of their cycle (R120, R151). -/
theorem landLate_fflags (x : Core) (h : ∀ e ∈ x.flight, e.1 ≤ 1 → ∀ a b c d g, e.2 ≠ .latch a b c d g) (i : Nat) :
    (x.tick false).landLate.arch.fflags.getLsbD i
      = (x.arch.fflags.getLsbD i || x.flight.any fun e => decide (e.1 ≤ 1) && e.2.flagBits.getLsbD i) := by
  have hfalse (e : Nat × Land) : dueNow false e = (decide (e.1 ≤ 1) && !e.2.late) := by rw [dueNow, Bool.false_or]
  have hland : (x.tick false).landLate = Core.landAll { x.tick false with flight := (x.tick false).flight.filter fun e => e.1 != 0 }
      ((x.tick false).flight.filter fun e => e.1 == 0) := rfl
  rw [hland, landAll_fflags, (x.tick_spec false).1, Core.stillInFlight]
  · refine congr (congrArg (fun f : BitVec 5 => or (f.getLsbD i)) (tick_false_fflags x)) ?_
    rw [List.any_filter, List.any_map, List.any_filter]
    refine congrArg (x.flight.any) (funext fun e => ?_)
    simp only [Function.comp_apply, hfalse, sub_one_eq_zero]
    cases hl : e.2 <;> simp [Land.late, Land.flagBits]
  · intro e he
    rw [(x.tick_spec false).1, Core.stillInFlight] at he
    obtain ⟨he, h0⟩ := List.mem_filter.1 he
    obtain ⟨q, hq, rfl⟩ := List.mem_map.1 he
    rw [sub_one_eq_zero, decide_eq_true_eq] at h0
    exact h q (List.mem_filter.1 hq).1 h0

/-! ### Redirections (R43, R368) -/

theorem nextPc_eq (a : Arch) (len : Nat) :
    (a.nextPc len).pc = ((a.redir.find? fun e => decide (e.2 ≤ 1)).map (·.1)).getD (a.pc + BitVec.ofNat 32 len)
    ∧ (a.nextPc len).redir = (a.redir.filter fun e => decide (2 ≤ e.2)).map fun e => (e.1, e.2 - 1) := by
  constructor
  · simp only [Arch.nextPc, List.find?_map, Option.map_map, Function.comp_def, sub_one_eq_zero]
  · simp only [Arch.nextPc, List.filter_map]
    refine congrArg _ (List.filter_congr fun e _ => ?_)
    simp only [Function.comp_apply, bne, sub_one_eq_zero, ← decide_not, Nat.not_le] <;> rfl

theorem constBits_float : ∀ c : Fin 32,
    (∀ x, ([0, 0x3F800000, 0x40000000, 0x40400000, 0x40800000, 0x40A00000, 0x40C00000, 0x40E00000, 0x41000000, 0x41800000,
      0x42000000, 0x42800000, 0x43000000, 0x43800000, 0xBF800000, 0xC0000000, 0x3F000000, 0x3E800000, 0x3E000000, 0xBF000000,
      0x40490FDB, 0x3FC90FDB, 0x40C90FDB, 0x3F317218, 0x3FB8AA3B, 0x7F800000, 0xFF800000, 0x7FC00000, 0x7F7FFFFF, 0x00800000]
        : List Nat)[c.val]? = some x → constBits .f32 c = x)
    ∧ (∀ x, ([0, 0x3C00, 0x4000, 0x4200, 0x4400, 0x4500, 0x4600, 0x4700, 0x4800, 0x4C00, 0x5000, 0x5400, 0x5800, 0x5C00,
      0xBC00, 0xC000, 0x3800, 0x3400, 0x3000, 0xB800, 0x4248, 0x3E48, 0x4648, 0x398C, 0x3DC5, 0x7C00, 0xFC00, 0x7E00, 0x7BFF, 0x0400]
        : List Nat)[c.val]? = some x → constBits .f16 c = x)
    ∧ (∀ x, ([0, 0x3F80, 0x4000, 0x4040, 0x4080, 0x40A0, 0x40C0, 0x40E0, 0x4100, 0x4180, 0x4200, 0x4280, 0x4300, 0x4380,
      0xBF80, 0xC000, 0x3F00, 0x3E80, 0x3E00, 0xBF00, 0x4049, 0x3FC9, 0x40C9, 0x3F31, 0x3FB9, 0x7F80, 0xFF80, 0x7FC0, 0x7F7F, 0x0080]
        : List Nat)[c.val]? = some x → constBits .bf16 c = x) := by
  decide +kernel

theorem constBits_int {t : Ty} (ht : t.isInt = true) (c : Fin 32) :
    (∀ x, ([0, 1, 2, 3, 4, 5, 6, 7, 8, 16, 32, 64, 128, 256, -1, -2] : List Int)[c.val]? = some x →
      constBits t c = (x % (2 ^ width t : Nat)).toNat) := by
  intro x hx
  have hc : c.val < 16 := (List.getElem?_eq_some_iff.1 hx).1
  unfold constBits
  dsimp only
  rw [if_pos ht, if_pos hc, List.getD_eq_getElem?_getD, hx] <;> rfl

/-- Settles O60. -/
theorem sourcesLandingsAndDelays : Obligations.SourcesLandingsAndDelays := by
  refine ⟨fun s t n => ⟨rfl, rfl, fun c k hc => ⟨fun hn => ?_, ?_⟩, fun u hu => ⟨fun hn => ?_, fun k => ?_⟩⟩, fun s c t => ?_,
    fun x n k v mask vec pm pv commit => ?_, fun a target len => ?_⟩
  · rw [State.rd, if_neg hn, hc]
  · simp only [State.rv, hc]
  · rw [State.rd, if_neg hn, hu]
  · rw [State.rd, hu]
  · intro v w ints f32s f16s bf16s
    refine ⟨fun ht => ⟨fun x hx => ?_, fun hc => ?_, fun hc => ?_⟩,
      fun x => ⟨fun ht hx => ?_, fun ht hx => ?_, fun ht hx => ?_⟩, fun ht j hj => ?_⟩
    · exact congrArg (BitVec.ofNat 64) (constBits_int (by simp at ht; rcases ht with rfl | rfl | rfl | rfl | rfl | rfl | rfl | rfl <;> rfl) c x hx)
    · subst hc
      simp only [List.mem_cons, List.not_mem_nil, or_false] at ht
      rcases ht with rfl | rfl | rfl | rfl | rfl | rfl | rfl | rfl <;> rfl
    · subst hc
      simp only [List.mem_cons, List.not_mem_nil, or_false] at ht
      rcases ht with rfl | rfl | rfl | rfl | rfl | rfl | rfl | rfl <;> rfl
    · subst ht
      exact congrArg (BitVec.ofNat 64) ((constBits_float c).1 x hx)
    · subst ht
      exact congrArg (BitVec.ofNat 64) ((constBits_float c).2.1 x hx)
    · subst ht
      exact congrArg (BitVec.ofNat 64) ((constBits_float c).2.2 x hx)
    · obtain ⟨hvw, hw⟩ : vw t = w ∧ w ≤ 64 := by
        simp only [List.mem_cons, List.not_mem_nil, or_false] at ht
        rcases ht with rfl | rfl | rfl | rfl | rfl | rfl | rfl | rfl | rfl | rfl | rfl <;> exact ⟨rfl, by decide⟩
      have hrv : s.rv t (.imm c) = splat w (constBits t c) := by rw [← hvw]; cases s.cur <;> simp only [State.rv]
      have hv : v.toNat = constBits t c % 2 ^ 64 := BitVec.toNat_ofNat _ _
      rw [hrv, vecElem_splat _ _ _ hj, hv, Nat.mod_mod_of_dvd _ (Nat.pow_dvd_pow 2 hw)]
  · intro late s'
    obtain ⟨hflight, hs, hv, hp, hfl⟩ := x.tick_spec commit
    have hlate (e : Land) : late e = e.late := by cases e <;> rfl
    simp only [s', hs, hv, hp, hflight]
    refine ⟨?_, fun h => ?_, fun l r hx hk h => ?_, fun l r hx hk h => ?_, fun h => ?_, fun l r hx hk h => ?_, fun h => ?_, ?_, fun h i hi => ?_⟩
    · rw [Core.stillInFlight]
      refine congrArg _ (List.filter_congr fun e _ => ?_)
      have h2 : decide (2 ≤ e.1) = !decide (e.1 ≤ 1) := by simp only [← decide_not, Nat.not_le] <;> rfl
      simp only [dueNow, h2, hlate, Bool.not_and, Bool.not_or, Bool.not_not]
    · exact landed_keeps (fun y => mget 0 y.arch.s n) (fun _ _ => rfl) fun e he h1 y => y.land_sreg_of_ne (h e he h1)
    · rw [landed_of_split (fun y => mget 0 y.arch.s n) hx hk rfl fun e he h1 y => y.land_sreg_of_ne (h e he h1)]
      exact mget_mset_same _ _ _ _
    · rw [landed_of_split (fun y => mget 0 y.arch.v n) hx hk rfl fun e he h1 y =>
        y.land_vreg_of_ne (h e (List.mem_append_right l he) h1)]
      have hold : mget 0 (x.landedFirst commit l).arch.v n = mget 0 x.arch.v n :=
        landedFirst_keeps (fun y => mget 0 y.arch.v n) (fun _ _ => rfl) fun e he h1 y =>
          y.land_vreg_of_ne (h e (List.mem_append_left _ he) h1)
      rw [← hold]
      exact mget_mset_same _ _ _ _
    · exact landed_keeps (fun y => mget 0 y.arch.v n) (fun _ _ => rfl) fun e he h1 y => y.land_vreg_of_ne (h e he h1)
    · rw [landed_of_split (fun y => mget 0 y.arch.p n) hx hk rfl fun e he h1 y =>
        y.land_preg_of_ne (h e (List.mem_append_right l he) h1)]
      have hold : mget 0 (x.landedFirst commit l).arch.p n = mget 0 x.arch.p n :=
        landedFirst_keeps (fun y => mget 0 y.arch.p n) (fun _ _ => rfl) fun e he h1 y =>
          y.land_preg_of_ne (h e (List.mem_append_left _ he) h1)
      rw [← hold]
      exact mget_mset_same _ _ _ _
    · exact landed_keeps (fun y => mget 0 y.arch.p n) (fun _ _ => rfl) fun e he h1 y => y.land_preg_of_ne (h e he h1)
    · exact tick_false_fflags x
    · rw [landLate_fflags x h]
      refine congrArg _ (congrArg (x.flight.any) (funext fun e => ?_))
      cases e.2 <;> simp [Land.flagBits]
  · obtain ⟨hpc, hredir⟩ := nextPc_eq a len
    have hnone (h : ∀ e ∈ a.redir, 2 ≤ e.2) : (a.nextPc len).pc = a.pc + BitVec.ofNat 32 len := by
      have hf : (a.redir.find? fun e => decide (e.2 ≤ 1)) = none := List.find?_eq_none.2 fun e he => by
        have := h e he
        simp
        omega
      rw [hpc, hf] <;> rfl
    refine ⟨hnone, fun l r hl h => ?_, hredir, fun h => hnone fun e he => ?_, fun h => ?_⟩
    · have hf : (a.redir.find? fun e => decide (e.2 ≤ 1)) = some (target, 1) := by
        rw [hl, List.find?_append, List.find?_eq_none.2, Option.none_or]
        · rfl
        · intro e he
          have := h e he
          simp
          omega
      rw [hpc, hf] <;> rfl
    · rw [h] at he
      cases he
    · intro b c
      have step {a : Arch} {k : Nat} (h : a.redir = [(target, k + 2)]) :
          (a.nextPc len).pc = a.pc + BitVec.ofNat 32 len ∧ (a.nextPc len).redir = [(target, k + 1)] := by
        obtain ⟨hpc, hredir⟩ := nextPc_eq a len
        rw [h] at hpc hredir
        exact ⟨hpc.trans (by simp), hredir.trans (by simp)⟩
      obtain ⟨hb, hbr⟩ := step h
      obtain ⟨hc, hcr⟩ := step hbr
      obtain ⟨hd, hdr⟩ := nextPc_eq c len
      rw [hcr] at hd hdr
      exact ⟨hb, hc, hd.trans (by simp), hdr.trans (by simp)⟩

end Sys2Proof.Machine
end

