-- ==== Sys2Proof/Proofs/StepAndReset.lean ====
section
/-!
The state after reset and a job's start (R25, R32, R446), the step by what comes first (log 1, log 2), and the words that the spec writes out:
O55, O56 and O57.
-/
namespace Sys2Proof.Machine

/-! ### A job's start on a core -/

theorem State.writeBack_same {s0 s : State} (l : Line) (h : SameEngines s0 s) : SameEngines s0 (s.writeBack l) := by
  unfold State.writeBack
  split
  · exact h
  · exact State.homeWrite_same _ _ h

theorem State.core_trimL1 (s : State) (c : Fin 32) (n : Nat) :
    (s.trimL1 (.core c) n).core c = { s.core c with eng := { (s.core c).eng with l1 := (s.core c).eng.l1.take n } } := by
  have hcores : (((s.eng (.core c)).l1.drop n).foldl State.writeBack s).core c = s.core c :=
    State.core_of_cores (foldl_same _ _ (fun _ l h => State.writeBack_same l h) (.refl s)).1 c
  simp only [State.trimL1, State.modEng, State.core_modCore, if_true]
  rw [hcores]

/-- Settles O55: every field of the job's start is written by `startCore`; trimming the L1 changes the lines alone. -/
theorem resetAndJobStart : Obligations.ResetAndJobStart := by
  unfold Obligations.ResetAndJobStart
  refine ⟨⟨rfl, rfl, rfl, rfl, rfl, rfl, rfl, rfl, rfl, fun d _ => by cases d <;> rfl, rfl, rfl, rfl, rfl⟩, fun s c slot idx zero => ?_⟩
  have hfin : fin 32 c.val = c := Fin.ext (Nat.mod_eq_of_lt c.isLt)
  simp only [State.startCore, State.fitL1, hfin, State.core_trimL1, State.core_modCore, if_true]
  simp [Core.reset, Arch.reset, Walker.reset, Eng.jobStart, -List.reduceReplicate]
  exact fun n => rfl

/-! ### One step -/

/-- The predicate field of a thread word (R73, R74) by its bits: the number below, the inversion above. -/
theorem predOk_iff (ps : Byte) (p : BitVec 4) :
    predOk ps p.toNat = true ↔
      if p.getLsbD 3 then ¬ (p.extractLsb' 0 3 = 0 ∨ ps.getLsbD (p.toNat % 8) = true)
      else p.extractLsb' 0 3 = 0 ∨ ps.getLsbD (p.toNat % 8) = true := by
  have hnum : ∀ q : BitVec 4, (q.toNat % 8 == 0) = decide (q.extractLsb' 0 3 = 0) := by decide
  have hinv : ∀ q : BitVec 4, (q.toNat < 8) = (q.getLsbD 3 = false) := by decide
  simp only [predOk, hnum, hinv, bit_toNat]
  cases p.getLsbD 3 <;> simp

theorem checkCause_bundle (n : Nat) : checkCause .bundle n =
    if n = 0x05 ∨ n = 0x06 ∨ n = 0x11 then 0x04 else if n = 0x20 ∨ n = 0x21 then 0x01 else 0x02 := by
  grind [checkCause]

theorem checkCause_thread (n : Nat) : checkCause .thread n =
    if n = 0x05 ∨ n = 0x06 ∨ n = 0x11 then 0x04 else if n = 0x20 ∨ n = 0x21 then 0x01 else 0x03 := by
  grind [checkCause]

section
variable {s : State} {f : Fetched} {rest : List Fetched}

/-- With no write posted, no effect held back and no pre-image due, the step is that of the words fetched and the schedule. -/
theorem step_quiet (hp : s.posted = []) (hm : s.marked = []) (hi : s.preimage = none) :
    step s = match s.latch with
      | f :: rest => (match s.ready f rest with
        | .op i s' => awaitFrames s (settleOut f.agent (exec i s'))
        | .skip s' => .next (s'.settle f.agent))
      | [] => (match s.inputs with
        | x :: rest => (match x.act with
          | .event i =>
            if s.powered i then awaitFrames (s.take x ({ x with dt := 0 } :: rest)) (exec i (s.take x rest)) else .next (s.take x rest)
          | a => .next ((s.take x rest).hardware a))
        | [] => .next s.idle) := by
  rw [step, hp, hm, hi] <;> rfl

/-- TVAL of a failed check of a core's slot op (R78). -/
def slotTval (f : Fetched) (k n : Nat) : Word := BitVec.ofNat 64 (checkTval n k (checkExtra n (RawOp.ofBits (f.word.setWidth 44))))

/-- TVAL of a failed check of a thread word (R78). -/
def wordTval (f : Fetched) (n : Nat) : Word := BitVec.ofNat 64 (checkTval n 0 (checkExtra n (RawOp.ofBits (ThreadWord.ofBits f.word).op)))

theorem ready_core {c : Fin 32} {k : Fin 8} (ha : f.agent = .core c k) :
    s.ready f rest = match decodeOp .bundle 64 256 k (RawOp.ofBits (f.word.setWidth 44)) with
      | .ok i => .op i { s with latch := rest, cur := f.agent }
      | .error n => .skip (({ s with latch := rest, cur := f.agent } : State).takeTrap f.agent ⟨checkCause .bundle n, slotTval f k n⟩) := by
  unfold State.ready
  rw [ha] <;> rfl

theorem ready_thr {u : Tid} (ha : f.agent = .thr u) :
    s.ready f rest = match decodeWord (s.group u.unit u.group).regs (s.group u.unit u.group).nsem f.word with
      | .ok i => if predOk (s.thread u).p (ThreadWord.ofBits f.word).p.toNat then .op i { s with latch := rest, cur := f.agent }
          else .skip ({ s with latch := rest, cur := f.agent } : State).moveOn
      | .error n => .skip (({ s with latch := rest, cur := f.agent } : State).takeTrap f.agent ⟨checkCause .thread n, wordTval f n⟩) := by
  simp only [State.ready, ha, State.moveOn, State.thread, State.group, State.unit]
  cases decodeWord _ _ f.word <;> rfl

theorem step_op {i : Instr} {t : State} (hp : s.posted = []) (hm : s.marked = []) (hi : s.preimage = none) (hl : s.latch = f :: rest)
    (hr : s.ready f rest = .op i t) : step s = awaitFrames s (settleOut f.agent (exec i t)) := by
  rw [step_quiet hp hm hi, hl] <;> simp only [hr]

theorem step_skip {t : State} (hp : s.posted = []) (hm : s.marked = []) (hi : s.preimage = none) (hl : s.latch = f :: rest)
    (hr : s.ready f rest = .skip t) : step s = .next (t.settle f.agent) := by
  rw [step_quiet hp hm hi, hl] <;> simp only [hr]

end

/-- Settles O56: `step` branch by branch. -/
theorem stepRunsTheDecodedOp : Obligations.StepRunsTheDecodedOp := by
  unfold Obligations.StepRunsTheDecodedOp
  intro s f rest run ends after waits
  have hwaits : ∀ (was : State) (o : Out), waits was o = awaitFrames was o := fun was o => by
    cases o with
    | next t => simp only [waits, awaitFrames]; cases t.preimage <;> rfl
    | fault r => rfl
    | refused r => rfl
  have hafter : ∀ o : Out, after o = settleOut f.agent o := fun o => by cases o <;> rfl
  refine ⟨fun w l h => ?_, fun m ms hp hm => ?_, fun p hp hm hi => ?_, fun hp hm hi =>
    ⟨fun c k hl ha => ⟨fun i hd => ?_, fun n hd => ⟨slotTval f k n, ?_⟩⟩,
    fun u hl ha => ?_, fun x l i hl hx hact hr => ?_, fun hl hx hr hc => ?_, fun hl hx hr hc => ?_⟩, fun u bs t he ht hpc hf => ?_⟩
  · rw [step, h]
  · rw [step, hp, hm]
  · rw [step, hp, hm, hi] <;> rfl
  · rw [hwaits, hafter, step_op hp hm hi hl (by rw [ready_core ha, hd])]
  · rw [step_skip hp hm hi hl (by rw [ready_core ha, hd]), ← checkCause_bundle] <;> rfl
  · intro g p set holds
    have hpred : predOk (s.thread u).p p.toNat = true ↔ holds := predOk_iff _ _
    refine ⟨fun i hd => ⟨fun hh => ?_, fun hh => ?_⟩, fun n hd => ⟨wordTval f n, ?_⟩⟩
    · rw [hwaits, hafter, step_op hp hm hi hl (by rw [ready_thr ha, hd]; exact if_pos (hpred.2 hh))]
    · rw [step_skip hp hm hi hl (by rw [ready_thr ha, hd]; exact if_neg (mt hpred.1 hh))] <;> rfl
    · rw [step_skip hp hm hi hl (by rw [ready_thr ha, hd]), ← checkCause_thread] <;> rfl
  · intro at'
    have hat : ∀ q, s.take x q = at' q := fun q => by
      cases hc : s.reeve.counting <;> simp [State.take, State.later, at', hr, hc]
    rw [step_quiet hp hm hi, hl, hx] <;> simp only [hact, State.powered, hr, Bool.true_or, if_true, hat, hwaits]
  · rw [step_quiet hp hm hi, hl, hx] <;> simp [State.idle, State.later, hl, hx, hr, hc]
  · rw [step_quiet hp hm hi, hl, hx] <;> simp [State.idle, State.later, hc]
  · simp [State.fetchThread, he, ht, hpc, hf]

/-! ### The spec's example words -/

theorem eq_ok_of_toOption {ε α : Type} {x : Except ε α} {a : α} (h : x.toOption = some a) : x = .ok a := by
  cases x with
  | error e => cases h
  | ok b => exact congrArg Except.ok (Option.some.inj h)

/-- Settles O57: each word is decoded by evaluation. -/
theorem wordsOfTheSpecDecode : Obligations.WordsOfTheSpecDecode := by
  unfold Obligations.WordsOfTheSpecDecode
  intro op
  iterate 20 refine ⟨eq_ok_of_toOption (by decide +kernel), ?_⟩
  decide +kernel

end Sys2Proof.Machine
end

