-- ==== Sys2Proof/Proofs/HomeAndScratchpad.lean ====
section
/-!
The scratchpad's undo log (R412, R415) and writes at the home agent (R379, R390, R402 to R405): O44 and O45.
-/
namespace Sys2Proof.Machine

/-! ### Cells written one after another -/

/-- Cells written in order. -/
def setCells (m : List Host.Cell) (cells : List Host.Cell) : List Host.Cell := cells.foldl (fun m c => setByte m c.1 c.2) m

theorem byteAt_setCells_append (m : List Host.Cell) (l r : List Host.Cell) (a : Nat) (v : Byte) (h : ∀ q ∈ r, q.1 ≠ a) :
    byteAt (setCells m (l ++ (a, v) :: r)) a = v := by
  rw [setCells, List.foldl_append, List.foldl_cons, byteAt_setCells_out _ _ _ h, byteAt_setByte_same]

/-- A byte that every cell given for it writes alike, after the cells. -/
theorem byteAt_setCells_of_forall (m : List Host.Cell) (cells : List Host.Cell) (a : Nat) (v : Byte) (h : ∀ q ∈ cells, q.1 = a → q.2 = v) :
    byteAt (setCells m cells) a = if ∃ q ∈ cells, q.1 = a then v else byteAt m a := by
  induction cells generalizing m with
  | nil => exact (if_neg fun ⟨q, hq, _⟩ => List.not_mem_nil hq).symm
  | cons c cs ih =>
    have hcs := ih (setByte m c.1 c.2) fun q hq => h q (List.mem_cons_of_mem _ hq)
    have hc := h c List.mem_cons_self
    rw [setCells, List.foldl_cons]
    rw [setCells, byteAt_setByte] at hcs
    rw [hcs]
    by_cases ha : c.1 = a
    · rw [if_pos ha, hc ha, ite_self, if_pos ⟨c, List.mem_cons_self, ha⟩]
    · rw [if_neg ha]
      refine ite_congr (propext ?_) (fun _ => rfl) fun _ => rfl
      simp only [List.mem_cons, exists_eq_or_imp, ha, false_or]

/-! ### The undo log (R412) -/

theorem applyUndo_eq (m : List Host.Cell) (undo : List (Nat × List Host.Cell)) : applyUndo m undo = setCells m (undo.flatMap (·.2)) := by
  rw [applyUndo, setCells, List.foldl_flatMap]

/-- Two memories that agree on every byte still do after the same cells. -/
theorem byteAt_setCells_congr {m m' : List Host.Cell} (cells : List Host.Cell) (h : ∀ a, byteAt m a = byteAt m' a) (a : Nat) :
    byteAt (setCells m cells) a = byteAt (setCells m' cells) a := by
  induction cells generalizing m m' with
  | nil => exact h a
  | cons c cs ih => exact ih fun q => by rw [byteAt_setByte, byteAt_setByte, h q]

/-- The undo-log entry of a 128-byte block: the bytes that the cells are about to write there. -/
def undoEntry (m cells : List Host.Cell) (b : Nat) : Nat × List Host.Cell :=
  (b, (cells.filter fun q => q.1 / 128 == b).map fun q => (q.1, byteAt m q.1))

/-- The undo-log entries of a store to a scratchpad, newest first. -/
def undoEntries (m cells : List Host.Cell) : List (Nat × List Host.Cell) :=
  ((cells.map fun q => q.1 / 128).eraseDups.map (undoEntry m cells)).reverse

theorem mem_undoEntries {m cells : List Host.Cell} {c : Host.Cell} :
    c ∈ (undoEntries m cells).flatMap (·.2) ↔ ∃ q ∈ cells, c = (q.1, byteAt m q.1) := by
  simp only [undoEntries, List.mem_flatMap, List.mem_reverse, List.mem_map, List.mem_eraseDups]
  constructor
  · rintro ⟨e, ⟨b, -, rfl⟩, hc⟩
    obtain ⟨q, hq, rfl⟩ := List.mem_map.1 hc
    exact ⟨q, (List.mem_filter.1 hq).1, rfl⟩
  · rintro ⟨q, hq, rfl⟩
    exact ⟨_, ⟨q.1 / 128, ⟨q, hq, rfl⟩, rfl⟩, List.mem_map.2 ⟨q, List.mem_filter.2 ⟨hq, by simp⟩, rfl⟩⟩

/-- The entries of a store undo it. -/
theorem byteAt_undo_store (m cells : List Host.Cell) (a : Nat) :
    byteAt (setCells (setCells m cells) ((undoEntries m cells).flatMap (·.2))) a = byteAt m a := by
  rw [byteAt_setCells_of_forall _ _ a (byteAt m a) fun c hc ha => ?_]
  · split
    · rfl
    · next hnone =>
      refine byteAt_setCells_out _ _ _ fun q hq ha => hnone ⟨_, mem_undoEntries.2 ⟨q, hq, rfl⟩, ha⟩
  · obtain ⟨q, -, rfl⟩ := mem_undoEntries.1 hc
    exact congrArg (byteAt m) ha

theorem State.core_storeScratch (s : State) (c : Nat) (cells : List Host.Cell) : (s.storeScratch c cells).core c =
    { s.core c with
      scratch := setCells (s.core c).scratch cells, undo := undoEntries (s.core c).scratch cells ++ (s.core c).undo,
      undoCount := (s.core c).undoCount + (cells.map fun q => q.1 / 128).eraseDups.length,
      poison := (s.core c).poison.filter fun b => !((List.range 64).all fun i => cells.any fun q => q.1 == b * 64 + i) } := by
  rw [State.storeScratch, State.core_modCore, if_pos rfl] <;> rfl

/-- Settles O45: the newest entries put back what the store overwrote, and the older ones then act on the same bytes. -/
theorem rollbackUndoesScratchpadStores : Obligations.RollbackUndoesScratchpadStores := by
  unfold Obligations.RollbackUndoesScratchpadStores
  intro s c cells t
  have ht : t.core c = _ := State.core_storeScratch s c cells
  rw [ht]
  refine ⟨fun a => ?_, fun a h => byteAt_setCells_out _ _ _ h, fun a v l r hc hr => ?_, rfl, rfl, rfl, rfl, rfl, rfl, rfl⟩
  · simp only [Core.rollback, applyUndo_eq, List.flatMap_append]
    rw [setCells, List.foldl_append]
    exact byteAt_setCells_congr _ (byteAt_undo_store _ _) a
  · exact hc ▸ byteAt_setCells_append _ l r a v hr

/-! ### The home agent: a sector at a time -/

/-- Bytes are read alike where the memories agree. -/
theorem readBytes_congr {m m' : List Host.Cell} {a n : Nat} (h : ∀ q, a ≤ q → q < a + n → byteAt m q = byteAt m' q) :
    readBytes m a n = readBytes m' a n := by
  induction n generalizing a with
  | zero => rfl
  | succ n ih => rw [readBytes, readBytes, h a (Nat.le_refl a) (by omega), ih fun q h1 h2 => h q (by omega) (by omega)]

/-- Two states agree on a sector of memory, its poison and its seal, and on what says how a request finds it. -/
def SectorSame (k : Nat) (s t : State) : Prop :=
  t.iso = s.iso ∧ t.reeve = s.reeve ∧ (∀ a, a / 64 = k → byteAt t.mem a = byteAt s.mem a)
    ∧ mget 0 t.poisoned k = mget 0 s.poisoned k ∧ t.sealed.contains k = s.sealed.contains k

theorem SectorSame.refl (k : Nat) (s : State) : SectorSame k s s := ⟨rfl, rfl, fun _ _ => rfl, rfl, rfl⟩

theorem SectorSame.trans {k : Nat} {s t u : State} (h : SectorSame k s t) (h' : SectorSame k t u) : SectorSame k s u := by
  obtain ⟨hi, hr, hm, hp, hs⟩ := h
  obtain ⟨hi', hr', hm', hp', hs'⟩ := h'
  exact ⟨hi'.trans hi, hr'.trans hr, fun a ha => (hm' a ha).trans (hm a ha), hp'.trans hp, hs'.trans hs⟩

section
variable {k : Nat} {s t : State}

theorem SectorSame.secure (h : SectorSame k s t) (pa : Nat) : t.secure pa = s.secure pa := by rw [State.secure, State.secure, h.1]

theorem SectorSame.tagBase (h : SectorSame k s t) : t.tagBase = s.tagBase := by
  simp only [State.tagBase, State.capacity, State.cfg, h.2.1]

theorem SectorSame.inTags (h : SectorSame k s t) (pa : Nat) : t.inTags pa = s.inTags pa := by
  rw [State.inTags, State.inTags, h.tagBase, State.capacity, State.capacity, State.cfg, State.cfg, h.2.1]

theorem SectorSame.cipherSector (h : SectorSame k s t) : t.cipherSector t.mem k = s.cipherSector s.mem k := by
  obtain ⟨hi, hr, hm, hp, hs⟩ := h
  have hread : readBytes t.mem (k * 64) 64 = readBytes s.mem (k * 64) 64 := readBytes_congr fun q h1 h2 => hm q (by omega)
  simp only [State.cipherSector, hr, hread]

/-- A request finds a byte alike where its sector is alike. -/
theorem SectorSame.homeByte {pa : Nat} (h : SectorSame (pa / 64) s t) (w : Bool) : t.homeByte w pa = s.homeByte w pa := by
  simp only [State.homeByte, h.inTags, h.secure, h.cipherSector, h.2.2.1 pa rfl, h.2.2.2.1, h.2.2.2.2]

end

theorem mem_insertNat {l : List Nat} {x y : Nat} : y ∈ insertNat l x ↔ y = x ∨ y ∈ l := by
  induction l with
  | nil => simp [insertNat]
  | cons z t ih => grind [insertNat]

/-- The addresses of the cells in a sector fill it (R404). -/
def fillsSector (cells : List Host.Cell) : Bool := (cells.map (·.1)).eraseDups.length == 64

/-- The memory that a write of a sector merges with: the sector's contents where they were sealed and no longer are (R405). -/
def State.mergedWith (s : State) (k : Nat) (cells : List Host.Cell) : List Host.Cell :=
  if (!s.secure (k * 64) && s.sealed.contains k) && !fillsSector cells then writeBytes s.mem (k * 64) (s.cipherSector s.mem k) else s.mem

/-- A write of a sector is refused: the tag region, a secure sector for a non-secure request, or a part of a sector that cannot be read. -/
def State.sectorRefuses (s : State) (world : Bool) (k : Nat) (cells : List Host.Cell) : Bool :=
  (s.inTags (k * 64) || (s.secure (k * 64) && !world))
    || ((mget 0 s.poisoned k != 0 || (s.secure (k * 64) && !s.sealed.contains k)) && !fillsSector cells)

theorem State.writeSector_eq (s : State) (world : Bool) (k : Nat) (cells : List Host.Cell) : s.writeSector world k cells =
    if s.sectorRefuses world k cells then s
    else { s with
      mem := setCells (s.mergedWith k cells) cells
      poisoned := if fillsSector cells then mset 0 s.poisoned k 0 else s.poisoned
      sealed := if s.secure (k * 64) then (if fillsSector cells then insertNat s.sealed k else s.sealed)
        else if s.sealed.contains k then s.sealed.filter (· != k) else s.sealed } := by
  unfold State.writeSector State.sectorRefuses
  by_cases h : (s.inTags (k * 64) || (s.secure (k * 64) && !world)) = true
  · simp only [h, Bool.true_or, if_true]
  · simp only [h, Bool.false_or]
    rfl

theorem cipherSector_length (s : State) (m : List Host.Cell) (k : Nat) : (s.cipherSector m k).length = 64 := by
  simp [State.cipherSector]

/-- A write of a sector leaves every other sector. -/
theorem State.writeSector_other (s : State) (world : Bool) {j k : Nat} (cells : List Host.Cell) (hjk : j ≠ k) (hc : ∀ c ∈ cells, c.1 / 64 = j) :
    SectorSame k s (s.writeSector world j cells) := by
  rw [State.writeSector_eq]
  split
  · exact .refl k s
  · refine ⟨rfl, rfl, fun a ha => ?_, ?_, ?_⟩
    · have hcells : ∀ c ∈ cells, c.1 ≠ a := fun c h e => hjk (by rw [← hc c h, e, ha])
      refine (byteAt_setCells_out _ _ _ hcells).trans ?_
      rw [State.mergedWith]
      split
      · exact byteAt_writeBytes_out _ _ _ _ (by rw [cipherSector_length]; omega)
      · rfl
    · dsimp only
      split
      · exact mget_mset_ne _ _ _ hjk
      · rfl
    · dsimp only
      have hk : ∀ l : List Nat, (insertNat l j).contains k = l.contains k := fun l => by
        refine Bool.eq_iff_iff.2 ?_
        simp [mem_insertNat, hjk.symm]
      have hf : ∀ l : List Nat, (l.filter (· != j)).contains k = l.contains k := fun l => by
        refine Bool.eq_iff_iff.2 ?_
        simp [hjk.symm]
      split
      · split
        · exact hk _
        · rfl
      · split
        · exact hf _
        · rfl

theorem nodup_eraseDups (l : List Nat) : l.eraseDups.Nodup := by
  induction h : l.length using Nat.strongRecOn generalizing l with
  | ind n ih =>
    cases l with
    | nil => simp
    | cons a l =>
      rw [List.eraseDups_cons, List.nodup_cons]
      refine ⟨by simp [List.mem_eraseDups], ih _ ?_ _ rfl⟩
      exact h ▸ Nat.lt_succ_of_le (List.length_filter_le _ _)

/-- Cells of one sector fill it exactly where each of its 64 bytes is among them. -/
theorem fillsSector_iff {cells : List Host.Cell} {k : Nat} (hin : ∀ c ∈ cells, c.1 / 64 = k) :
    fillsSector cells = true ↔ ∀ i < 64, ∃ c ∈ cells, c.1 = k * 64 + i := by
  have hall : ((List.range 64).map (k * 64 + ·)).Nodup := 
    List.Pairwise.map _ (fun _ _ h h' => h (Nat.add_left_cancel h')) List.nodup_range
  have hsub : (cells.map (·.1)).eraseDups ⊆ (List.range 64).map (k * 64 + ·) := fun a ha => by
    obtain ⟨c, hc, rfl⟩ := List.mem_map.1 (List.mem_eraseDups.1 ha)
    exact List.mem_map.2 ⟨c.1 % 64, List.mem_range.2 (by omega), by have := hin c hc; omega⟩
  have hdup := nodup_eraseDups (cells.map (·.1))
  have hle := hdup.length_le_of_subset hsub
  rw [List.length_map, List.length_range] at hle
  rw [fillsSector, beq_iff_eq]
  constructor
  · intro h i hi
    have hmem : k * 64 + i ∈ (cells.map (·.1)).eraseDups := Classical.byContradiction fun hnot => by
      have hin : k * 64 + i ∈ (List.range 64).map (k * 64 + ·) := List.mem_map.2 ⟨i, List.mem_range.2 hi, rfl⟩
      have hlen := (List.nodup_cons.2 ⟨hnot, hdup⟩).length_le_of_subset (List.cons_subset.2 ⟨hin, hsub⟩)
      rw [List.length_cons, List.length_map, List.length_range, h] at hlen
      omega
    exact List.mem_map.1 (List.mem_eraseDups.1 hmem)
  · intro h
    have hge := hall.length_le_of_subset (l₂ := (cells.map (·.1)).eraseDups) fun a ha => by
      obtain ⟨i, hi, rfl⟩ := List.mem_map.1 ha
      obtain ⟨c, hc, hci⟩ := h i (List.mem_range.1 hi)
      exact List.mem_eraseDups.2 (List.mem_map.2 ⟨c, hc, hci⟩)
    rw [List.length_map, List.length_range] at hge
    omega

/-- A region entry holds whole sectors (R378). -/
theorem State.secure_sector (s : State) (pa : Nat) : s.secure (pa / 64 * 64) = s.secure pa := by
  have h : ∀ e : Word × Word, regionHas e (pa / 64 * 64) = regionHas e pa := fun e => by
    simp only [regionHas]
    congr 1
    · exact congrArg _ (decide_eq_decide.2 (by omega))
    · exact decide_eq_decide.2 (by omega)
  simp only [State.secure, h]

/-- The tag region holds whole sectors (R390, R400). -/
theorem State.inTags_sector (s : State) (pa : Nat) : s.inTags (pa / 64 * 64) = s.inTags pa := by
  simp only [State.inTags, State.tagBase, State.capacity]
  congr 1
  · exact decide_eq_decide.2 (by omega)
  · exact decide_eq_decide.2 (by omega)

/-- How a request finds a byte in a state whose memory, poison and seals are given. -/
theorem State.homeByte_with (s : State) (m : List Host.Cell) (p : Map Nat) (l : List Nat) (w : Bool) (pa : Nat) :
    ({ s with mem := m, poisoned := p, sealed := l } : State).homeByte w pa =
      if s.inTags pa then (0, none)
      else if s.secure pa && !w then (byteAt m pa, some 0x12)
      else if mget 0 p (pa / 64) != 0 then (byteAt m pa, some (mget 0 p (pa / 64)))
      else if s.secure pa && !l.contains (pa / 64) then (byteAt m pa, some 0x11)
      else if !s.secure pa && l.contains (pa / 64) then ((s.cipherSector m (pa / 64)).getD (pa % 64) 0, none)
      else (byteAt m pa, none) := by
  have hcipher : ({ s with mem := m, poisoned := p, sealed := l } : State).cipherSector m (pa / 64) = s.cipherSector m (pa / 64) := by
    simp only [State.cipherSector]
  unfold State.homeByte
  dsimp only
  rw [hcipher]
  rfl

section
variable {s : State} {world : Bool} {pa : Nat} {cells : List Host.Cell} (hin : ∀ c ∈ cells, c.1 / 64 = pa / 64)
include hin

/-- A byte of the sector that no cell writes is found as before: a part of a sector is written only where the sector can be read. -/
theorem homeByte_writeSector_unwritten (hne : ∀ c ∈ cells, c.1 ≠ pa) (w : Bool) :
    (s.writeSector world (pa / 64) cells).homeByte w pa = s.homeByte w pa := by
  have hfill : fillsSector cells = false := Bool.eq_false_iff.2 fun h => by
    obtain ⟨c, hc, hca⟩ := (fillsSector_iff hin).1 h (pa % 64) (by omega)
    exact hne c hc (by omega)
  rw [State.writeSector_eq]
  split
  · rfl
  · next hr =>
    have hmem : byteAt (setCells (s.mergedWith (pa / 64) cells) cells) pa = byteAt (s.mergedWith (pa / 64) cells) pa :=
      byteAt_setCells_out _ _ _ hne
    have hcipher : byteAt (writeBytes s.mem (pa / 64 * 64) (s.cipherSector s.mem (pa / 64))) pa
        = (s.cipherSector s.mem (pa / 64)).getD (pa % 64) 0 := by
      have hlen : pa % 64 < (s.cipherSector s.mem (pa / 64)).length := by rw [cipherSector_length]; omega
      have h := byteAt_writeBytes_in s.mem (pa / 64 * 64) _ _ hlen
      rwa [show pa / 64 * 64 + pa % 64 = pa by omega, ← getD_of_lt 0] at h
    simp only [State.sectorRefuses, State.secure_sector, State.inTags_sector, hfill, Bool.not_false, Bool.and_true, Bool.or_eq_true,
      Bool.and_eq_true, not_or, Bool.not_eq_true, bne_iff_ne, ne_eq, Classical.not_not, not_and] at hr
    obtain ⟨⟨htag, hworld⟩, hpois, hseal⟩ := hr
    refine (State.homeByte_with s _ _ _ w pa).trans (Eq.trans ?_ (State.homeByte_with s s.mem s.poisoned s.sealed w pa).symm)
    rw [hmem]
    cases hs : s.secure pa with
    | true => simp [State.mergedWith, State.secure_sector, hs, htag, hpois, hfill]
    | false =>
      cases hc : s.sealed.contains (pa / 64) with
      | true => simp_all [State.mergedWith, State.secure_sector]
      | false => simp_all [State.mergedWith, State.secure_sector]

/-- A byte written reads back, without poison, where the sector can be read or is written whole. -/
theorem homeByte_writeSector_written {v : Byte} (hmem : ∀ m, byteAt (setCells m cells) pa = v) (htag : s.inTags pa = false)
    (hworld : s.secure pa = true → world = true)
    (hok : (mget 0 s.poisoned (pa / 64) = 0 ∧ (s.secure pa = true → pa / 64 ∈ s.sealed))
      ∨ ∀ i < 64, ∃ c ∈ cells, c.1 = pa / 64 * 64 + i) :
    byteAt (s.writeSector world (pa / 64) cells).mem pa = v
      ∧ ∀ w : Bool, (s.secure pa = true → w = true) → (s.writeSector world (pa / 64) cells).homeByte w pa = (v, none) := by
  rw [← fillsSector_iff hin] at hok
  have hr : s.sectorRefuses world (pa / 64) cells = false := by
    rw [State.sectorRefuses, State.secure_sector, State.inTags_sector, htag]
    cases hs : s.secure pa <;> cases hf : fillsSector cells <;> simp_all
  rw [State.writeSector_eq, hr, if_neg Bool.false_ne_true]
  refine ⟨hmem _, fun w hw => (State.homeByte_with s _ _ _ w pa).trans ?_⟩
  rw [hmem, htag, State.secure_sector]
  cases hs : s.secure pa with
  | true => cases hf : fillsSector cells <;> simp_all [mem_insertNat]
  | false => cases hf : fillsSector cells <;> cases hc : s.sealed.contains (pa / 64) <;> simp_all

end

/-- A write of a sector that refuses non-secure requests, or of the tag region, leaves the state. -/
theorem State.writeSector_refused (s : State) (world : Bool) (k : Nat) (cells : List Host.Cell)
    (h : s.inTags (k * 64) = true ∨ (s.secure (k * 64) = true ∧ world = false)) : s.writeSector world k cells = s := by
  rw [State.writeSector_eq, if_pos]
  rcases h with h | ⟨h, rfl⟩ <;> simp [State.sectorRefuses, h]

/-! ### A write at the home agent -/

/-- The sectors of some cells written in turn. -/
def State.writeEach (s : State) (world : Bool) (cells : List Host.Cell) (l : List Nat) : State :=
  l.foldl (fun s k => s.writeSector world k (cells.filter fun c => c.1 / 64 == k)) s

theorem inSector (cells : List Host.Cell) (k : Nat) : ∀ c ∈ cells.filter fun c => c.1 / 64 == k, c.1 / 64 = k := fun c hc => by
  simpa using (List.mem_filter.1 hc).2

/-- Sectors not among those written are left. -/
theorem writeEach_other (s : State) (world : Bool) (cells : List Host.Cell) {l : List Nat} {k : Nat} (hk : k ∉ l) :
    SectorSame k s (s.writeEach world cells l) := by
  induction l generalizing s with
  | nil => exact .refl k s
  | cons j l ih =>
    rw [List.mem_cons, not_or] at hk
    exact (State.writeSector_other s world _ (Ne.symm hk.1) (inSector cells j)).trans (ih _ hk.2)

/-- A sector is written once, and found then as after the whole write. -/
theorem writeEach_mem (s : State) (world : Bool) (cells : List Host.Cell) {l : List Nat} {k : Nat} (hl : l.Nodup) (hk : k ∈ l) :
    ∃ u, SectorSame k s u ∧ SectorSame k (u.writeSector world k (cells.filter fun c => c.1 / 64 == k)) (s.writeEach world cells l) := by
  obtain ⟨a, b, rfl⟩ := List.append_of_mem hk
  have hnot := List.perm_middle.nodup_iff.1 hl
  rw [List.nodup_cons, List.mem_append, not_or] at hnot
  refine ⟨s.writeEach world cells a, writeEach_other s world cells hnot.1.1, ?_⟩
  have hsplit : s.writeEach world cells (a ++ k :: b)
      = ((s.writeEach world cells a).writeSector world k (cells.filter fun c => c.1 / 64 == k)).writeEach world cells b := by
    simp only [State.writeEach, List.foldl_append, List.foldl_cons]
  exact hsplit ▸ writeEach_other _ world cells hnot.1.2

/-- The sectors of a write. -/
def sectorsOf (cells : List Host.Cell) : List Nat := (cells.map fun c => c.1 / 64).eraseDups

theorem mem_sectorsOf {cells : List Host.Cell} {k : Nat} : k ∈ sectorsOf cells ↔ ∃ c ∈ cells, c.1 / 64 = k := by
  rw [sectorsOf, List.mem_eraseDups, List.mem_map]

/-- What the write leaves of a byte's sector: as it was, or as the write of its sector leaves it. -/
theorem writeSectors_sector (s : State) (world : Bool) (cells : List Host.Cell) (k : Nat) :
    (SectorSame k s (s.writeSectors world cells) ∧ ∀ c ∈ cells, c.1 / 64 ≠ k)
      ∨ ∃ u, SectorSame k s u
        ∧ SectorSame k (u.writeSector world k (cells.filter fun c => c.1 / 64 == k)) (s.writeSectors world cells) := by
  by_cases hk : k ∈ sectorsOf cells
  · exact .inr (writeEach_mem s world cells (nodup_eraseDups _) hk)
  · exact .inl ⟨writeEach_other s world cells hk, fun c hc h => hk (mem_sectorsOf.2 ⟨c, hc, h⟩)⟩

theorem noteWorld_of_allowed (s : State) (world : Bool) (pas : List Nat) (h : ∀ pa ∈ pas, s.secure pa = true → world = true) :
    s.noteWorld world pas = s := by
  have hnil : (pas.filter fun pa => s.secure pa && !world) = [] := List.filter_eq_nil_iff.2 fun pa hpa => by
    cases hs : s.secure pa
    · simp
    · simp [h pa hpa hs]
  rw [State.noteWorld, hnil]

/-- Settles O44, by the sector of the byte. -/
theorem homeMemoryFrame : Obligations.HomeMemoryFrame := by
  unfold Obligations.HomeMemoryFrame
  intro s world cells pa
  have hsec := writeSectors_sector s world cells (pa / 64)
  refine ⟨?_, fun l r v hc hr htag htag' hworld hok => ?_, fun hne w => ?_, fun hs hw => ?_, fun h1 h2 => ?_⟩
  · rw [State.homeWrite]
    split
    · next h => rw [noteWorld_of_allowed s world _ fun a ha => by obtain ⟨c, hc, rfl⟩ := List.mem_map.1 ha; exact h c hc]
    · rfl
  · rcases hsec with ⟨-, hno⟩ | ⟨u, hu, hw⟩
    · exact absurd rfl (hno (pa, v) (by simp [hc]))
    · have hfilter : (cells.filter fun c => c.1 / 64 == pa / 64)
          = (l.filter fun c => c.1 / 64 == pa / 64) ++ (pa, v) :: r.filter fun c => c.1 / 64 == pa / 64 := by
        rw [hc, List.filter_append, List.filter_cons_of_pos (by simp)]
      have hin : s.inTags pa = false := by simpa [State.inTags] using htag'
      obtain ⟨hm, hb⟩ := homeByte_writeSector_written (s := u) (world := world) (inSector cells (pa / 64)) (v := v)
        (fun m => by rw [hfilter]; exact byteAt_setCells_append _ _ _ _ _ fun q hq => hr q (List.mem_filter.1 hq).1)
        (by rw [hu.inTags, hin]) (by rw [hu.secure]; exact hworld) (by
          rw [hu.secure, hu.2.2.2.1, ← List.contains_iff_mem, hu.2.2.2.2, List.contains_iff_mem]
          exact hok.imp id fun h i hi => by
            obtain ⟨c, hc, hci⟩ := h i hi
            exact ⟨c, List.mem_filter.2 ⟨hc, by rw [beq_iff_eq]; omega⟩, hci⟩)
      exact ⟨(hw.2.2.1 pa rfl).trans hm, fun w h => (hw.homeByte w).trans (hb w (by rw [hu.secure]; exact h))⟩
  · rcases hsec with ⟨hsame, -⟩ | ⟨u, hu, hw⟩
    · exact hsame.homeByte w
    · rw [hw.homeByte, homeByte_writeSector_unwritten (inSector cells (pa / 64)) fun c hc => hne c (List.mem_filter.1 hc).1]
      exact hu.homeByte w
  · have hsame : SectorSame (pa / 64) s (s.writeSectors world cells) := by
      rcases hsec with ⟨hsame, -⟩ | ⟨u, hu, hsw⟩
      · exact hsame
      · rw [State.writeSector_refused _ _ _ _ (.inr ⟨by rw [State.secure_sector, hu.secure, hs], hw⟩)] at hsw
        exact hu.trans hsw
    exact ⟨hsame.2.2.1 pa rfl, hsame.homeByte⟩
  · have htag : s.inTags pa = true := by simp [State.inTags, h1, h2]
    have hsame : SectorSame (pa / 64) s (s.writeSectors world cells) := by
      rcases hsec with ⟨hsame, -⟩ | ⟨u, hu, hsw⟩
      · exact hsame
      · rw [State.writeSector_refused _ _ _ _ (.inl (by rw [State.inTags_sector, hu.inTags, htag]))] at hsw
        exact hu.trans hsw
    refine ⟨hsame.2.2.1 pa rfl, fun w => ?_⟩
    rw [hsame.homeByte, State.homeByte, htag]
    rfl

end Sys2Proof.Machine
end

