-- ==== Sys2Proof/Proofs/RunningAgent.lean ====
section
/-!
Reads and stores of an engine leave the running agent and its cycle alone: the walk of lines and home-agent requests (R228, R231, R243).
-/
namespace Sys2Proof.Machine

theorem SameRun.trans {s t u : State} (h : SameRun s t) (h' : SameRun t u) : SameRun s u := by
  obtain ⟨h1, h2, h3, h4, h5, h6⟩ := h
  obtain ⟨g1, g2, g3, g4, g5, g6⟩ := h'
  exact ⟨g1.trans h1, g2.trans h2, g3.trans h3, g4.trans h4, g5.trans h5, g6.trans h6⟩

theorem State.noteWorld_run {s0 s : State} (world : Bool) (pas : List Nat) (h : SameRun s0 s) : SameRun s0 (s.noteWorld world pas) := by
  unfold State.noteWorld
  split
  · exact h
  · exact .of_engines h (State.errorLog_same _ _ _ _ _ _ _ _ (.refl s))

theorem State.homeFetch_run {s0 s : State} (world : Bool) (pa n : Nat) (h : SameRun s0 s) : SameRun s0 (s.homeFetch world pa n).2 :=
  State.noteWorld_run _ _ h

theorem State.trimL1_run {s0 s : State} (d : Dom) (n : Nat) (h : SameRun s0 s) : SameRun s0 (s.trimL1 d n) :=
  State.modEng_run _ _ (foldl_run _ _ (fun _ l h => State.writeBack_run l h) h)

theorem State.fitL1_run {s0 s : State} (d : Dom) (h : SameRun s0 s) : SameRun s0 (s.fitL1 d) := State.trimL1_run _ _ h

theorem State.dropAll_run {s0 s : State} (d : Dom) (h : SameRun s0 s) : SameRun s0 (s.dropAll d) := State.dropLines_run _ _ h

theorem State.acquireAt_run {s0 s : State} (d : Dom) (sc : Scope) (h : SameRun s0 s) : SameRun s0 (s.acquireAt d sc) := by
  unfold State.acquireAt
  split
  · exact h
  · exact State.dropAll_run _ h

theorem State.fillLine_run {s0 s : State} (k : Ctx) (x : XByte) (h : SameRun s0 s) : SameRun s0 (s.fillLine k x).2 := by
  unfold State.fillLine
  dsimp only
  split
  · exact State.modEng_run _ _ (State.dropLines_run _ _ h)
  · dsimp only
    split
    · exact State.trimL1_run _ _ (State.homeFetch_run _ _ _ (State.dropLines_run _ _ h))
    · exact State.modEng_run _ _ (State.trimL1_run _ _ (State.homeFetch_run _ _ _ (State.dropLines_run _ _ h)))

theorem State.storeByte_run {s0 s : State} (k : Ctx) (x : XByte) (b : Byte) (h : SameRun s0 s) : SameRun s0 (s.storeByte k x b) := by
  unfold State.storeByte
  dsimp only
  split
  · exact State.modCore_run _ _ h
  · have hf : SameRun s0 (match (s.eng k.dom).lineAt k x with
      | some _ => s
      | none => (s.fillLine k x).2) := by
      split
      · exact h
      · exact State.fillLine_run k x h
    split
    · exact .of_engines hf (State.homeWrite_same _ _ (.refl _))
    · exact State.modEng_run _ _ hf

theorem State.storeBytes_run {s0 s : State} (k : Ctx) (bs : List (XByte × Byte)) (h : SameRun s0 s) : SameRun s0 (s.storeBytes k bs) :=
  State.storeExt_run _ _ (State.countPeer_run _ _ (foldl_run _ _ (fun s c h => by
    split
    · exact State.storeByte_run _ _ _ h
    · exact h) h))

theorem State.loadByte_run {s0 s : State} (k : Ctx) (x : XByte) (h : SameRun s0 s) : SameRun s0 (s.loadByte k x).2 := by
  unfold State.loadByte
  dsimp only
  split
  · exact h
  · split
    · exact h
    · split
      · exact h
      · exact State.fillLine_run k x h

theorem State.loadBytes_run {s0 s : State} (k : Ctx) (xs : List XByte) (h : SameRun s0 s) : SameRun s0 (s.loadBytes k xs).2 := by
  induction xs generalizing s with
  | nil => exact h
  | cons x xs ih =>
    rw [State.loadBytes]
    split
    · exact ih (State.loadByte_run k x h)
    · exact ih h

section
variable {s t : State} {k : Ctx} {kind : AccKind} {addr n align : Nat}

theorem State.readPieces_run {ps : List Piece} {bs : List Byte} (h : s.readPieces k ps = .ok (bs, t)) : SameRun s t := by
  have hr := State.loadBytes_run k (pieceBytes ps) (State.countPeer_run (pieceBytes ps) 0 (.refl s))
  unfold State.readPieces at h
  dsimp only at h
  split at h
  · cases h
  · cases h
    split
    · exact State.dropAll_run _ hr
    · exact hr

theorem State.access_run {ps : List Piece} (h : s.access k kind addr n align = .ok (ps, t)) : SameRun s t :=
  .of_engines (.refl s) (State.access_same k kind addr n align (.refl s) h)

theorem State.access_cur {ps : List Piece} (h : s.access k kind addr n align = .ok (ps, t)) : t.cur = s.cur := (State.access_run h).1

end

@[simp] theorem State.acquireAt_cur (s : State) (d : Dom) (sc : Scope) : (s.acquireAt d sc).cur = s.cur := (State.acquireAt_run d sc (.refl s)).1

@[simp] theorem State.releaseAt_cur (s : State) (d : Dom) (sc : Scope) : (s.releaseAt d sc).cur = s.cur := (State.releaseAt_run d sc (.refl s)).1

@[simp] theorem State.storeBytes_cur (s : State) (k : Ctx) (bs : List (XByte × Byte)) : (s.storeBytes k bs).cur = s.cur :=
  (State.storeBytes_run k bs (.refl s)).1

@[simp] theorem State.storeLocal_cur (s : State) (a : Agent) (off : Nat) (bs : List Byte) : (s.storeLocal a off bs).cur = s.cur :=
  (State.storeLocal_run a off bs (.refl s)).1

end Sys2Proof.Machine
end

