-- ==== Sys2Proof/Proofs/ScalarMemory.lean ====
section
/-!
Loads and stores of one register, in memory and in local memory (R265, R266, R269 to R271): O38.
-/
namespace Sys2Proof.Machine

theorem addrOf_eq (s : State) (a b : Opd) (sh : Nat) : s.addrOf a b sh = s.ri a + (s.ri b <<< sh) := by
  rw [State.addrOf, shlW]
  refine congrArg _ (BitVec.eq_of_toNat_eq ?_)
  rw [BitVec.toNat_shiftLeft, Nat.shiftLeft_eq] <;> rfl

theorem loadValue_eq (bs : List Byte) (sx : Bool) : loadValue bs sx =
    if sx then BitVec.ofInt 64 (BitVec.ofNat (8 * bs.length) (leNat bs)).toInt else BitVec.ofNat 64 (leNat bs) := by
  rw [loadValue, toSigned_eq_toInt]

@[simp] theorem State.putResult_cur (t : State) (c : Nat) (e : SbEntry) (mirror : Bool) : (t.putResult c e mirror).cur = t.cur := by
  unfold State.putResult
  dsimp only
  split <;> rfl

/-- A register result of a memory op (R41, R441). -/
theorem answer_memResult (t : State) (d : Fin 64) (v : Word) (ext mirror : Bool) :
    answer (t.memResult (.sx d) v ext mirror).done = .next (t.memWord d v ext mirror) := by
  rw [answer_done]
  cases hc : t.cur with
  | core c k =>
    simp only [State.memResult, State.memWord, hc]
    rw [State.moveOn_core ((State.putResult_cur ..).trans hc)]
    simp only [State.putResult, State.putSb, State.modCore, Bool.and_eq_true, beq_iff_eq]
  | thr u =>
    have h := answer_result t 0 d v
    rw [State.result, answer_done] at h
    simpa only [State.memResult, State.memWord, State.withScalar, hc] using h

section
variable {s : State} {c : Fin 32} {slot : Fin 8} {u : Tid}

theorem State.countGst_core (hc : s.cur = .core c slot) (n : Nat) : s.countGst n = s.modCore c fun x => { x with gst := x.gst + n } := by
  rw [State.countGst, hc]

theorem State.countGst_thr (hu : s.cur = .thr u) (n : Nat) : s.countGst n = s := by rw [State.countGst, hu]

theorem State.storeOut_core (hc : s.cur = .core c slot) (k : Ctx) (ps : List Piece) (bs : List Byte) :
    s.storeOut k ps bs = s.withEff (.store ((pieceBytes ps).zip bs)) := by
  unfold State.storeOut
  rw [hc] <;> rfl

theorem State.storeOut_thr (hu : s.cur = .thr u) (k : Ctx) (ps : List Piece) (bs : List Byte) :
    s.storeOut k ps bs = s.storeBytes k ((pieceBytes ps).zip bs) := by
  unfold State.storeOut
  rw [hu]

/-- Local bytes written by a core at the end of its cycle (R242). -/
theorem State.localOut_core (hc : s.cur = .core c slot) (off : Nat) (bs : List Byte) : s.localOut off bs = s.withEff (.scr (cellsOf off bs)) := by
  unfold State.localOut
  rw [hc] <;> rfl

/-- Local bytes written by a thread at once (R250). -/
theorem State.localOut_thr (hu : s.cur = .thr u) (off : Nat) (bs : List Byte) : s.localOut off bs = s.storeLocal s.cur off bs := by
  unfold State.localOut
  rw [hu]

end

/-! ### The range and the poison of local memory (R266, R436) -/

section
variable {s : State} {off n : Nat}

theorem State.localRange_bad (h : (s.local' s.cur).2.1 < off + n) : s.localRange off n = some (trapRes s 0x0E off) := if_pos h

theorem State.localRange_ok (h : off + n ≤ (s.local' s.cur).2.1) : s.localRange off n = none := if_neg (Nat.not_lt.2 h)

theorem State.loadLocal_eq (a : Agent) : s.loadLocal a off n = if (s.local' a).2.1 < off + n then .error ⟨⟨0x0E, BitVec.ofNat 64 off⟩, s⟩
    else match localPoison (s.local' a).2.2 off n with
      | some o => .error ⟨⟨0x13, BitVec.ofNat 64 o⟩, s⟩
      | none => .ok (readBytes (s.local' a).1 off n) := rfl

theorem State.loadLocal_bad (h : (s.local' s.cur).2.1 < off + n) : s.loadLocal s.cur off n = .error ⟨⟨0x0E, BitVec.ofNat 64 off⟩, s⟩ :=
  if_pos h

theorem State.loadLocal_poison {i : Nat} (h : off + n ≤ (s.local' s.cur).2.1) (hp : localPoison (s.local' s.cur).2.2 off n = some i) :
    s.loadLocal s.cur off n = .error ⟨⟨0x13, BitVec.ofNat 64 i⟩, s⟩ := by
  rw [State.loadLocal_eq, if_neg (Nat.not_lt.2 h), hp]

theorem State.loadLocal_ok (h : off + n ≤ (s.local' s.cur).2.1) (hp : localPoison (s.local' s.cur).2.2 off n = none) :
    s.loadLocal s.cur off n = .ok (readBytes (s.local' s.cur).1 off n) := by
  rw [State.loadLocal_eq, if_neg (Nat.not_lt.2 h), hp]

end

/-! ### LD -/

section
variable (s : State) (m : MemMod) (d a b : Opd)

/-- The state that LD accesses memory in: an acquire has dropped the engine's lines (R235). -/
def State.acquiredFor (s : State) (m : MemMod) : State := if isAcq m.ord then s.acquireAt (s.ctx s.cur).dom m.scope else s

theorem State.ld_of_access_error {f : Fail}
    (h : (s.acquiredFor m).access (s.ctx s.cur) .load (s.addrOf a b m.sh).toNat (2 ^ m.size.val) 1 = .error f) : s.ld m d a b = .error f := by
  simp only [State.acquiredFor] at h
  simp only [State.ld, h]

theorem State.ld_of_access_ok {ps : List Piece} {t : State}
    (h : (s.acquiredFor m).access (s.ctx s.cur) .load (s.addrOf a b m.sh).toNat (2 ^ m.size.val) 1 = .ok (ps, t)) :
    s.ld m d a b = if piecesExt ps && t.pairCur == some 1 then t.takeMirror.done
      else match t.readPieces (s.ctx s.cur) ps with
        | .error f => .error f
        | .ok (bs, u) => (u.memResult d (loadValue bs m.sx) (piecesExt ps) (piecesExt ps)).done := by
  simp only [State.acquiredFor] at h
  simp only [State.ld, h] <;> rfl

end

theorem exec_lds (s : State) (m : MemMod) (d a b : Opd) : exec (.lds m d a b) s = answer
    (match s.loadLocal s.cur (s.addrOf a b m.sh).toNat (2 ^ m.size.val) with
      | .error f => .error f
      | .ok bs => s.result 4 d (loadValue bs m.sx)) := rfl

theorem exec_sts (s : State) (m : MemMod) (d a b : Opd) : exec (.sts m d a b) s = answer
    ((s.localRange (s.addrOf a b m.sh).toNat (2 ^ m.size.val)).getD
      (s.localOut (s.addrOf a b m.sh).toNat (leBytes (2 ^ m.size.val) (s.ri d).toNat)).done) := rfl

/-- Settles O38: LD by its checks and what it reads, ST by its release and what it sends, LDS and STS by the range. -/
theorem scalarLoadsAndStores : Obligations.ScalarLoadsAndStores := by
  unfold Obligations.ScalarLoadsAndStores
  intro s m d o a b n addr k val sa mine
  have haddr : (s.addrOf a b m.sh).toNat = addr := by rw [addrOf_eq]
  have hld : exec (.ld m (.sx d) a b) s = answer (s.ld m (.sx d) a b) := rfl
  have hst : exec (.st m o a b) s = answer (s.st m o a b) := rfl
  refine ⟨fun f hf => ?_, fun ps s1 hok => ?_, fun f hf => ?_, fun ps s1 hok => ?_, fun hlt => ?_, fun hle => ?_⟩
  · rw [Traps, hld, State.ld_of_access_error s m _ a b (f := f) (haddr ▸ hf)] <;> rfl
  · rw [hld, State.ld_of_access_ok s m _ a b (ps := ps) (t := s1) (haddr ▸ hok)]
    have hcond : (piecesExt ps && s1.pairCur == some 1) = true ↔ piecesExt ps = true ∧ s1.pairCur = some 1 := by
      rw [Bool.and_eq_true, beq_iff_eq]
    refine ⟨fun h => ?_, fun h => ⟨fun f hf => ?_, fun bs s2 hr => ?_⟩⟩
    · rw [if_pos (hcond.2 h), answer_done]
    · rw [Traps, hld, State.ld_of_access_ok s m _ a b (ps := ps) (t := s1) (haddr ▸ hok), if_neg (mt hcond.1 h), hf] <;> rfl
    · rw [if_neg (mt hcond.1 h), hr]
      exact (answer_memResult ..).trans (by rw [loadValue_eq])
  · rw [Traps, hst, State.st, haddr]
    dsimp only
    rw [hf] <;> rfl
  · intro rel s2 cells
    have hcur : s1.cur = s.cur := State.access_cur hok
    have hrel : ∀ t : State, (rel t).cur = t.cur := fun t => by
      simp only [rel]
      split
      · exact State.releaseAt_cur ..
      · rfl
    have hs2 : s2.cur = s.cur := (hrel s1).trans hcur
    rw [hst, State.st, haddr]
    dsimp only
    rw [hok]
    change answer (rel ((s2.storeOut k ps (leBytes n (s2.ri o).toNat)).countGst 1)).done = _
    rw [answer_done]
    cases hc : s.cur with
    | core c slot =>
      have hs2c : s2.cur = .core c slot := hs2.trans hc
      have heff : (s2.withEff (.store cells)).cur = .core c slot := hs2c
      rw [State.storeOut_core hs2c, State.countGst_core heff]
      exact congrArg Host.Outcome.next (State.moveOn_core ((hrel _).trans heff))
    | thr u =>
      have hs2u : s2.cur = .thr u := hs2.trans hc
      rw [State.storeOut_thr hs2u, State.countGst_thr ((State.storeBytes_cur ..).trans hs2u)]
  · rw [exec_lds, exec_sts, haddr, State.loadLocal_bad hlt, State.localRange_bad hlt]
    exact ⟨rfl, rfl⟩
  · rw [exec_lds, exec_sts, haddr, State.localRange_ok hle]
    refine ⟨fun i hi => ?_, fun hi => ?_, ?_⟩
    · rw [State.loadLocal_poison hle hi] <;> rfl
    · rw [State.loadLocal_ok hle hi]
      exact (answer_result ..).trans (by rw [loadValue_eq])
    · refine (answer_done _).trans ?_
      cases hc : s.cur with
      | core c slot =>
        rw [State.localOut_core hc]
        exact congrArg Host.Outcome.next (State.moveOn_core (s := s.withEff _) hc)
      | thr u => rw [State.localOut_thr hc, hc]

end Sys2Proof.Machine
end

