-- ==== Sys2Proof/Proofs/VectorMemory.lean ====
section
/-!
Vector, tile and accumulator-row transfers of a core (R266, R272 to R275) and PREF (R291): O39.
-/
namespace Sys2Proof.Machine

/-! ### A vector result under any mask (R20) -/

/-- Under the mask of some elements, an element takes the new value where it is among them. -/
theorem vecElem_underMask_any (w : Nat) (xs : List (Option Nat)) (old new : Vec) (j : Nat) (hj : w * (j + 1) ≤ 1024) :
    vecElem (underMask old (vbuild w xs).1 new) w j = if (xs.getD j none).isSome then vecElem new w j else vecElem old w j := by
  refine Nat.eq_of_testBit_eq fun b => ?_
  rw [testBit_vecElem, apply_ite (fun v => Nat.testBit v b), testBit_vecElem, testBit_vecElem]
  by_cases hb : b < w
  · have hlt : w * j + b < 1024 := by rw [Nat.mul_succ] at hj; omega
    rw [underMask, BitVec.getLsbD_or, BitVec.getLsbD_and, BitVec.getLsbD_and, BitVec.getLsbD_not, (vbuild_getLsbD w xs j b hb hlt).1]
    cases (xs.getD j none).isSome <;> simp [hb, hlt]
  · simp [hb]

/-- Byte j of a vector formed from the bytes of a range (R272). -/
theorem vecElem_readNat (m : List Host.Cell) (off : Nat) {n j : Nat} (hj : j < n) (h : 8 * (j + 1) ≤ 1024) :
    vecElem (BitVec.ofNat 1024 (readNat m off n)) 8 j = (byteAt m (off + j)).toNat := by
  rw [← byte_readNat m off hj]
  refine Nat.eq_of_testBit_eq fun b => ?_
  rw [testBit_vecElem, BitVec.getLsbD_ofNat, Nat.testBit_mod_two_pow, Nat.testBit_div_two_pow]
  by_cases hb : b < 8
  · simp [hb, show 8 * j + b < 1024 by omega, Nat.add_comm b]
  · simp [hb]

/-! ### Checks of several elements (R265) -/

theorem chunks_one (p : Nat) : chunks p 2 1 = [(p, 1)] := by
  have h : min 1 (64 - p % 64) = 1 := by omega
  simp [chunks, h]

/-- The pieces of a check are its pieces, in order. -/
theorem step3_sizes {s t : State} {k : Ctx} {kind : AccKind} {prev : Option XByte} {cs : List (Nat × Nat)} {ps : List Piece}
    (h : s.step3 k kind prev cs = .ok (ps, t)) : ps.map (·.n) = cs.map (·.2) := by
  induction cs generalizing s t prev ps with
  | nil => rw [State.step3] at h; cases h; rfl
  | cons e cs ih =>
    obtain ⟨p, n⟩ := e
    unfold State.step3 at h
    dsimp only at h
    split at h
    · cases h
    · split at h
      · next hrest =>
        cases h
        rw [List.map_cons, List.map_cons, ih hrest]
      · cases h

theorem access_sizes {s t : State} {k : Ctx} {kind : AccKind} {addr n align : Nat} {ps : List Piece}
    (h : s.access k kind addr n align = .ok (ps, t)) : ps.map (·.n) = (chunks addr (n / 64 + 2) n).map (·.2) := by
  unfold State.access at h
  dsimp only at h
  split at h
  · cases h
  · split at h
    · cases h
    · split at h
      · cases h
      · next hs =>
        have hps := step3_sizes hs
        split at h
        · cases h
        · split at h
          · cases h; exact hps
          · split at h
            · cases h
            · cases h; exact hps

/-- The predicates that an op reads are the same. -/
theorem SameEngines.rp {s t : State} (h : SameEngines s t) (n : Fin 8) : t.rp n = s.rp n := by
  obtain ⟨hcores, hunits, hcur, -⟩ := h
  have hthread : ∀ u : Tid, t.thread u = s.thread u := fun u => by
    rw [State.thread, State.thread, State.group, State.group, State.unit_of_units hunits]
  unfold State.rp
  rw [hcur]
  cases s.cur with
  | core c k => simp only [State.core_of_cores hcores]
  | thr u => simp only [hthread]

/-- A check of one byte finds one byte. -/
theorem access_byte {s t : State} {k : Ctx} {kind : AccKind} {addr align : Nat} {ps : List Piece}
    (h : s.access k kind addr 1 align = .ok (ps, t)) : ∃ y, pieceBytes ps = [y] := by
  have hn := access_sizes h
  rw [show (1 : Nat) / 64 + 2 = 2 from rfl, chunks_one] at hn
  obtain ⟨q, rfl⟩ : ∃ q, ps = [q] := List.length_eq_one_iff.1 (by simpa using congrArg List.length hn)
  have hq : q.n = 1 := by simpa using hn
  exact ⟨_, by rw [pieceBytes, List.flatMap_singleton, hq, List.range_one, List.map_singleton]⟩

section
variable {k : Ctx} {kind : AccKind}

/-- Checks change no engine. -/
theorem accessAll_same {s t : State} {l : List (Nat × Nat)} {ps : List (List Piece)} (h : s.accessAll k kind l = .ok (ps, t)) :
    ∀ {s0 : State}, SameEngines s0 s → SameEngines s0 t := by
  induction l generalizing s t ps with
  | nil => rw [State.accessAll] at h; cases h; exact id
  | cons e l ih =>
    unfold State.accessAll at h
    split at h
    · cases h
    · next ha =>
      split at h
      · cases h
      · next hl =>
        cases h
        exact fun h0 => ih hl (State.access_same _ _ _ _ _ h0 ha)

theorem accessAll_run {s t : State} {l : List (Nat × Nat)} {ps : List (List Piece)} (h : s.accessAll k kind l = .ok (ps, t)) : SameRun s t :=
  .of_engines (.refl s) (accessAll_same h (.refl s))

theorem readAll_run {s t : State} {l : List (List Piece)} {bs : List (List Byte)} (h : s.readAll k l = .ok (bs, t)) : SameRun s t := by
  induction l generalizing s t bs with
  | nil => rw [State.readAll] at h; cases h; exact .refl s
  | cons e l ih =>
    unfold State.readAll at h
    split at h
    · cases h
    · next ha =>
      split at h
      · cases h
      · next hl =>
        cases h
        exact (State.readPieces_run ha).trans (ih hl)

theorem accessAll_bytes {s t : State} {as : List Nat} {ps : List (List Piece)} (h : s.accessAll k kind (as.map fun a => (a, 1)) = .ok (ps, t)) :
    ∀ p ∈ ps, ∃ y, pieceBytes p = [y] := by
  induction as generalizing s t ps with
  | nil => rw [List.map_nil, State.accessAll] at h; cases h; simp
  | cons e l ih =>
    rw [List.map_cons] at h
    unfold State.accessAll at h
    split at h
    · cases h
    · next ha =>
      split at h
      · cases h
      · next hl =>
        cases h
        rintro p (_ | ⟨_, hp⟩)
        · exact access_byte ha
        · exact ih hl p hp

end

/-! ### Gathers and tiles (R273, R274) -/

/-- The elements that the loaded bytes give. -/
def landedElems (n : Nat) (es : List (Nat × Nat)) (bs : List (List Byte)) : List (Option Nat) :=
  (List.range n).map fun j => ((es.zip bs).find? fun q => q.1.1 == j).map fun q => leNat q.2

theorem landedElems_getD {n : Nat} {es : List (Nat × Nat)} (hes : ∀ e ∈ es, e.1 < n) (bs : List (List Byte)) (j : Nat) :
    (landedElems n es bs).getD j none = ((es.zip bs).find? fun q => q.1.1 == j).map fun q => leNat q.2 := by
  rw [landedElems, getD_map_range]
  split
  · rfl
  · next hj =>
    have hnone : ((es.zip bs).find? fun q => q.1.1 == j) = none := List.find?_eq_none.2 fun q hq he => by
      rw [beq_iff_eq] at he
      exact hj (he ▸ hes q.1 (List.of_mem_zip hq).1)
    rw [hnone] <;> rfl

/-- What LDVG and TLD do with their active elements: checks, reads and a scoreboarded vector result. -/
def State.loadElems (s : State) (d : Opd) (w n : Nat) (es : List (Nat × Nat)) (sz : Nat) : Res :=
  let k := s.ctx s.cur
  match s.accessAll k .load (es.map fun e => (e.2, sz)) with
  | .error f => .error f
  | .ok (ps, s) =>
    if ps.any piecesExt && s.pairCur == some 1 then s.takeMirror.done
    else match s.readAll k ps with
      | .error f => .error f
      | .ok (bs, s) =>
        (s.memVec d (vbuild w (landedElems n es bs)).1 (vbuild w (landedElems n es bs)).2 (ps.any piecesExt)).done

section
variable {s : State} {d : Opd} {w n : Nat} {es : List (Nat × Nat)} {sz : Nat}

theorem State.loadElems_error {f : Fail} (hf : s.accessAll (s.ctx s.cur) .load (es.map fun e => (e.2, sz)) = .error f) :
    s.loadElems d w n es sz = .error f := by
  rw [State.loadElems, hf]

theorem State.loadElems_ok {ps : List (List Piece)} {t : State} (hok : s.accessAll (s.ctx s.cur) .load (es.map fun e => (e.2, sz)) = .ok (ps, t)) :
    s.loadElems d w n es sz = if ps.any piecesExt && t.pairCur == some 1 then t.takeMirror.done
      else match t.readAll (s.ctx s.cur) ps with
        | .error f => .error f
        | .ok (bs, s) =>
          (s.memVec d (vbuild w (landedElems n es bs)).1 (vbuild w (landedElems n es bs)).2 (ps.any piecesExt)).done := by
  rw [State.loadElems, hok]

end

theorem exec_ldvg (s : State) (v : VMod) (e8 : Bool) (sh : Fin 4) (d a b : Opd) : exec (.ldvg v e8 sh d a b) s = answer
    (s.loadElems d (if e8 then 64 else 32) (v.w.bits / if e8 then 64 else 32) (s.gatherAddrs v e8 sh a b) ((if e8 then 64 else 32) / 8)) := rfl

theorem exec_tld (s : State) (v : VMod) (rows : Fin 4) (d a b : Opd) : exec (.tld v rows d a b) s = answer
    (s.loadElems d 8 (v.w.bits / 8) (s.tileAddrs v rows a b) 1) := rfl

section
variable {s : State} {c : Fin 32} {slot : Fin 8} (hc : s.cur = .core c slot)
include hc

theorem answer_takeMirror_core : answer s.takeMirror.done = .next (match (s.core c).mirrored with
    | e :: rest => s.setCore c { s.core c with mirrored := rest, sb := (s.core c).sb ++ [e] }
    | [] => s) := by
  have heq : s.takeMirror = (match (s.core c).mirrored with
    | e :: rest => s.setCore c { s.core c with mirrored := rest, sb := (s.core c).sb ++ [e] }
    | [] => s) := by
    unfold State.takeMirror
    rw [hc] <;> rfl
  have hcur : s.takeMirror.cur = .core c slot := by
    rw [heq]
    split <;> exact hc
  rw [answer_done, State.moveOn_core hcur, heq]

theorem answer_memVec_core (d : Fin 64) (mask y : Vec) (ext : Bool) :
    answer (s.memVec (.vec d) mask y ext).done = .next (s.putResult c { lands := [.vreg d mask y], ext := ext, blk := none } ext) := by
  have h : s.memVec (.vec d) mask y ext = s.putResult c { lands := [.vreg d mask y], ext := ext, blk := none } ext := by
    unfold State.memVec
    rw [hc]
  rw [h, answer_done, State.moveOn_core ((State.putResult_cur ..).trans hc)]

/-- What LDVG and TLD do, by the checks, the shadow's turn, the reads and the elements as they land. -/
theorem loadElems_core {i : Instr} {d : Fin 64} {w n : Nat} {es : List (Nat × Nat)} {sz : Nat}
    (hi : exec i s = answer (s.loadElems (.vec d) w n es sz))
    (hes : ∀ e ∈ es, e.1 < n) :
    (∀ f, s.accessAll (s.ctx s.cur) .load (es.map fun e => (e.2, sz)) = .error f → Traps i s f)
      ∧ (∀ ps s1, s.accessAll (s.ctx s.cur) .load (es.map fun e => (e.2, sz)) = .ok (ps, s1) →
          (ps.any piecesExt = true ∧ s1.pairCur = some 1 → exec i s = .next (match (s1.core c).mirrored with
            | e :: rest => s1.setCore c { s1.core c with mirrored := rest, sb := (s1.core c).sb ++ [e] }
            | [] => s1))
          ∧ (¬ (ps.any piecesExt = true ∧ s1.pairCur = some 1) → ∀ f, s1.readAll (s.ctx s.cur) ps = .error f → Traps i s f)
          ∧ (¬ (ps.any piecesExt = true ∧ s1.pairCur = some 1) → ∀ bs s2, s1.readAll (s.ctx s.cur) ps = .ok (bs, s2) → ∃ mask y : Vec,
              exec i s = .next (s2.putResult c { lands := [.vreg d mask y], ext := ps.any piecesExt, blk := none } (ps.any piecesExt))
              ∧ ∀ (old : Vec) (j : Nat), w * (j + 1) ≤ 1024 → vecElem (underMask old mask y) w j =
                  (match (es.zip bs).find? fun q => q.1.1 == j with
                   | some q => leNat q.2 % 2 ^ w
                   | none => vecElem old w j))) := by
  refine ⟨fun f hf => ?_, fun ps s1 hok => ?_⟩
  · rw [Traps, hi, State.loadElems_error hf] <;> rfl
  · have hrun : s1.cur = .core c slot := (accessAll_run hok).1.trans hc
    have hcond : (ps.any piecesExt && s1.pairCur == some 1) = true ↔ ps.any piecesExt = true ∧ s1.pairCur = some 1 := by
      rw [Bool.and_eq_true, beq_iff_eq]
    refine ⟨fun h => ?_, fun h f hf => ?_, fun h bs s2 hr => ?_⟩
    · rw [hi, State.loadElems_ok hok, if_pos (hcond.2 h), answer_takeMirror_core hrun]
    · rw [Traps, hi, State.loadElems_ok hok, if_neg (mt hcond.1 h), hf] <;> rfl
    · refine ⟨(vbuild w (landedElems n es bs)).1, (vbuild w (landedElems n es bs)).2, ?_, fun old j hj => ?_⟩
      · rw [hi, State.loadElems_ok hok, if_neg (mt hcond.1 h), hr]
        exact answer_memVec_core ((readAll_run hr).1.trans hrun) d _ _ _
      · rw [vecElem_underMask w _ old j hj, landedElems_getD hes]
        cases (es.zip bs).find? fun q => q.1.1 == j <;> rfl

end

/-! ### Scatters and tiles stored (R239, R269, R273, R274) -/

section
variable {s : State} {c : Fin 32} {slot : Fin 8} (hc : s.cur = .core c slot)
include hc

/-- Bytes withheld and counted (R243, R269). -/
theorem answer_storeCounted (cells : List (XByte × Byte)) (n : Nat) :
    answer ((if cells = [] then s else s.defer (.store cells)).countGst n).done
      = .next ((if cells = [] then s else s.withEff (.store cells)).modCore c fun x => { x with gst := x.gst + n }) := by
  have hcur : (if cells = [] then s else s.defer (.store cells)).cur = .core c slot := by
    split <;> exact hc
  rw [State.countGst_core hcur, answer_done]
  exact congrArg Host.Outcome.next (State.moveOn_core hcur)

/-- What STVS and TST do, by the checks and the bytes they withhold. -/
theorem storeElems_core {i : Instr} {as : List (Nat × Nat)} {cells : List (List Piece) → List (XByte × Byte)} {count : State → Nat}
    (hi : exec i s = answer (match s.accessAll (s.ctx s.cur) .store as with
      | .error f => .error f
      | .ok (ps, s) => ((if cells ps = [] then s else s.defer (.store (cells ps))).countGst (count s)).done)) :
    (∀ f, s.accessAll (s.ctx s.cur) .store as = .error f → Traps i s f)
      ∧ (∀ ps s1, s.accessAll (s.ctx s.cur) .store as = .ok (ps, s1) →
          exec i s = .next ((if cells ps = [] then s1 else s1.withEff (.store (cells ps))).modCore c fun x =>
            { x with gst := x.gst + count s1 })) := by
  refine ⟨fun f hf => ?_, fun ps s1 hok => ?_⟩
  · rw [Traps, hi, hf] <;> rfl
  · rw [hi, hok]
    exact answer_storeCounted ((accessAll_run hok).1.trans hc) _ _

/-! ### LDV and STV (R272) -/

theorem local_core : s.local' s.cur = ((s.core c).scratch, (s.core c).scratchSize, (s.core c).poison) := by rw [hc] <;> rfl

theorem answer_local_scr (cells : List Host.Cell) :
    answer (if cells = [] then s else s.defer (.scr cells)).done = .next (if cells = [] then s else s.withEff (.scr cells)) := by
  have hcur : (if cells = [] then s else s.defer (.scr cells)).cur = .core c slot := by
    split <;> exact hc
  rw [answer_done, State.moveOn_core hcur] <;> rfl

end

theorem exec_ldv (s : State) (v : VMod) (d a b : Opd) : exec (.ldv v d a b) s = answer
    (match s.localRange (s.addrOf a b 0).toNat (v.w.bits / 8) with
      | some r => r
      | none => match (List.range (v.w.bits / 8)).find? fun i =>
            (s.rp v.p).getLsbD i && (s.local' s.cur).2.2.contains (((s.addrOf a b 0).toNat + i) / 64) with
        | some i => trapRes s 0x13 ((s.addrOf a b 0).toNat + i)
        | none => (s.wv 5 d (byteMask (s.rp v.p) (v.w.bits / 8))
            (BitVec.ofNat 1024 (readNat (s.local' s.cur).1 (s.addrOf a b 0).toNat (v.w.bits / 8)))).done) := rfl

theorem exec_stv (s : State) (v : VMod) (d a b : Opd) : exec (.stv v d a b) s = answer
    (match s.localRange (s.addrOf a b 0).toNat (v.w.bits / 8) with
      | some r => r
      | none =>
        (if maskedCells (s.rp v.p) (s.addrOf a b 0).toNat (v.w.bits / 8) (s.rv .i8 d) = [] then s
          else s.defer (.scr (maskedCells (s.rp v.p) (s.addrOf a b 0).toNat (v.w.bits / 8) (s.rv .i8 d)))).done) := rfl

theorem exec_accst (s : State) (h : Bool) (first count1 : Fin 32) (a b : Opd) : exec (.accst h first count1 a b) s = answer
    (match s.rowsCheck (s.ri a).toNat (count1.val + 1) with
      | some r => r
      | none => (s.localOut (s.ri a).toNat
          ((((s.tileCur (tileNo b)).drop (32 * first.val)).take (32 * (count1.val + 1))).flatMap fun e => leBytes 4 e.toNat)).done) := rfl

theorem exec_accld_core {s : State} {c : Fin 32} {slot : Fin 8} (hc : s.cur = .core c slot) (h : Bool) (first count1 : Fin 32) (d a : Opd) :
    exec (.accld h first count1 d a) s = answer
      (match s.rowsCheck (s.ri a).toNat (count1.val + 1) with
        | some r => r
        | none => match s.loadLocal s.cur (s.ri a).toNat (128 * (count1.val + 1)) with
          | .error f => .error f
          | .ok bs => (s.modCore c fun x => { x with sm := x.sm ++ [⟨tileNo d, (List.range (32 * (count1.val + 1))).map fun i =>
              (32 * first.val + i, BitVec.ofNat 32 (fieldAt bs (4 * i) 4)), 0, 0, none, x.arch.pc.setWidth 64, []⟩] }).done) :=
  congrArg answer (State.onCore_core hc _)

theorem rowsCheck_misaligned {s : State} {off : Nat} (h : off % 64 ≠ 0) (n : Nat) : s.rowsCheck off n = some (trapRes s 0x09 off) :=
  if_pos (bne_iff_ne.2 h)

theorem rowsCheck_aligned {s : State} {off : Nat} (h : off % 64 = 0) (n : Nat) : s.rowsCheck off n = s.localRange off (128 * n) :=
  if_neg (by simp [h])

/-! ### PREF (R291) -/

/-- The pieces that PREF fills lines for. -/
def prefFold (k : Ctx) (ps : List Piece) (s : State) : State :=
  ps.foldl (fun s q => if q.hit || q.x.attr.mt != 0 || isWindow q.x.pa || s.inBlock k.dom (q.x.pa / 64) then s else (s.fillLine k q.x).2) s

theorem exec_pref (s : State) (h l2 : Bool) (a b : Opd) : exec (.pref h l2 a b) s = answer
    (match s.access (s.ctx s.cur) .pref (s.addrOf a b 0).toNat 1 1 with
      | .error _ => s.done
      | .ok (ps, s') => if l2 then s'.done else (prefFold (s.ctx s.cur) ps s').done) := rfl

theorem prefFold_of_held (k : Ctx) {ps : List Piece} (h : ∀ q ∈ ps, q.hit = true ∨ q.x.attr.mt ≠ 0 ∨ isWindow q.x.pa = true) (s : State) :
    prefFold k ps s = s := by
  induction ps with
  | nil => rfl
  | cons q ps ih =>
    have hq : (q.hit || q.x.attr.mt != 0 || isWindow q.x.pa || s.inBlock k.dom (q.x.pa / 64)) = true := by
      rcases h q List.mem_cons_self with h | h | h <;> simp [h]
    rw [prefFold, List.foldl_cons, if_pos hq]
    exact ih fun q hq => h q (List.mem_cons_of_mem _ hq)

/-- Settles O39, op by op. -/
theorem vectorAndTileTransfers : Obligations.VectorAndTileTransfers := by
  unfold Obligations.VectorAndTileTransfers
  refine ⟨fun s h => answer_done s, fun s h l2 a b => ?_, ?_⟩
  · intro k at'
    have haddr : (s.addrOf a b 0).toNat = at' := by rw [addrOf_eq, BitVec.shiftLeft_zero]
    rw [exec_pref, haddr]
    refine ⟨fun f hf => ?_, fun ps s1 hok => ?_⟩
    · rw [hf] <;> rfl
    · rw [hok]
      refine ⟨fun hl => ?_, fun hl hall => ?_, fun q hq hl hb => ?_, fun q hq hl hhit hmt hwin hb => ?_⟩
      · rw [hl] <;> rfl
      · rw [hl]
        exact (answer_done _).trans (by rw [prefFold_of_held k hall])
      · rw [hl, hq]
        refine (answer_done _).trans ?_
        rw [prefFold, List.foldl_cons, List.foldl_nil, if_pos (by rw [hb, Bool.or_true])]
      · rw [hl, hq]
        refine (answer_done _).trans ?_
        rw [prefFold, List.foldl_cons, List.foldl_nil, if_neg (by rw [hb, hhit, hmt, hwin] <;> decide)]
  · intro s v e8 sh rows d o a b hh first count1 t c slot hc x k n p off w elems bytes land send
    have hoff : (s.addrOf a b 0).toNat = off := by rw [addrOf_eq, BitVec.shiftLeft_zero]
    have hlocal : s.local' s.cur = (x.scratch, x.scratchSize, x.poison) := local_core hc
    have hpois : ∀ i, ((s.rp v.p).getLsbD i && x.poison.contains ((off + i) / 64)) = false ↔
        (p.getLsbD i = true → (off + i) / 64 ∉ x.poison) := fun i => by
      rw [Bool.and_eq_false_imp]
      simp [p]
    refine ⟨fun hlt => ?_, fun hle hclean => ?_, fun hle i hi hp hbad hlow => ?_, fun hle => ?_, ?_, ?_, ?_, ?_, ?_⟩
    · have hr : s.localRange off n = some (trapRes s 0x0E off) := State.localRange_bad (by rw [hlocal]; exact hlt)
      rw [exec_ldv, exec_stv, hoff, hr]
      exact ⟨rfl, rfl⟩
    · have hr : s.localRange off n = none := State.localRange_ok (by rw [hlocal]; exact hle)
      have hnone : ((List.range n).find? fun i => (s.rp v.p).getLsbD i && x.poison.contains ((off + i) / 64)) = none :=
        List.find?_eq_none.2 fun i hi => by
          rw [(hpois i).2 (hclean i (List.mem_range.1 hi))]
          decide
      intro c' k' hc'
      cases hc.symm.trans hc'
      refine ⟨byteMask p n, BitVec.ofNat 1024 (readNat x.scratch off n), ?_, fun old j hj => ?_⟩
      · rw [exec_ldv, hoff, hr, hlocal]
        dsimp only
        rw [hnone]
        refine (answer_done _).trans ?_
        simp only [State.wv, hc]
        rw [State.moveOn_core (s := s.put c 5 _) hc] <;> rfl
      · rw [byteMask, vecElem_underMask_any 8 _ old _ j hj, getD_map_range]
        by_cases hjn : j < n
        · cases hpj : p.getLsbD j
          · simp [hjn, hpj]
          · have hv := vecElem_readNat x.scratch off hjn hj
            simp only [hjn, hpj, hv, if_true, Option.isSome_some]
            exact (Nat.mod_eq_of_lt (BitVec.isLt _)).symm
        · simp [hjn]
    · have hr : s.localRange off n = none := State.localRange_ok (by rw [hlocal]; exact hle)
      have hfind : ((List.range n).find? fun i => (s.rp v.p).getLsbD i && x.poison.contains ((off + i) / 64)) = some i := by
        rw [List.find?_range_eq_some]
        refine ⟨by rw [show (s.rp v.p).getLsbD i = true from hp, Bool.true_and]; exact List.contains_iff_mem.2 hbad,
          List.mem_range.2 hi, fun j hj => ?_⟩
        rw [(hpois j).2 (hlow j hj)] <;> rfl
      rw [exec_ldv, hoff, hr, hlocal]
      dsimp only
      rw [hfind] <;> rfl
    · intro cells
      have hr : s.localRange off n = none := State.localRange_ok (by rw [hlocal]; exact hle)
      rw [exec_stv, hoff, hr]
      exact answer_local_scr hc cells
    · exact loadElems_core hc (exec_ldvg ..) fun e he => by
        obtain ⟨j, hj, rfl⟩ := List.mem_map.1 he
        exact List.mem_range.1 (List.mem_filter.1 hj).1
    · exact loadElems_core hc (exec_tld ..) fun e he => by
        obtain ⟨j, hj, rfl⟩ := List.mem_map.1 he
        exact List.mem_range.1 (List.mem_filter.1 hj).1
    · exact storeElems_core hc (i := .stvs v e8 sh o a b) (cells := fun ps => (elems.zip ps).flatMap fun q =>
        (pieceBytes q.2).zip (leBytes (w / 8) (vecElem (s.rv .n64 o) w q.1.1))) (count := fun _ => elems.length) rfl
    · obtain ⟨herr, hok⟩ := storeElems_core hc (i := .tst v rows o a b) (as := bytes.map fun e => (e.2, 1)) (cells := fun ps =>
        (bytes.zip ps).flatMap fun q => (pieceBytes q.2).map fun y => (y, BitVec.ofNat 8 (vecElem (s.rv .i8 o) 8 q.1.1)))
        (count := fun t => activeRows (t.rp v.p) v.w rows) rfl
      refine ⟨herr, fun ps s1 h => ?_⟩
      have hmap : (bytes.map (·.2)).map (fun a => (a, 1)) = bytes.map fun e => (e.2, 1) := List.map_map ..
      have hbytes := accessAll_bytes (as := bytes.map (·.2)) (hmap ▸ h)
      have hcells : ((bytes.zip ps).flatMap fun q => (pieceBytes q.2).zip [BitVec.ofNat 8 (vecElem (s.rv .i8 o) 8 q.1.1)])
          = (bytes.zip ps).flatMap fun q => (pieceBytes q.2).map fun y => (y, BitVec.ofNat 8 (vecElem (s.rv .i8 o) 8 q.1.1)) :=
        congrArg List.flatten (List.map_congr_left fun q hq => by
          obtain ⟨y, hy⟩ := hbytes q.2 (List.of_mem_zip hq).2
          rw [hy] <;> rfl)
      intro cells
      have hrp : s1.rp v.p = p := (accessAll_same h (.refl s)).rp v.p
      exact (hok ps s1 h).trans (by simp only [cells, hcells, hrp])
    · intro at' len
      have hat : BitVec.ofNat 64 at' = s.ri a := BitVec.ofNat_toNat .. |>.trans (BitVec.setWidth_eq _)
      refine ⟨fun hmis => ?_, fun hal hlt => ?_, fun hal hle => ⟨?_, fun o ho => ?_, fun ho => ?_⟩⟩
      · rw [exec_accst, exec_accld_core hc, rowsCheck_misaligned hmis]
        refine ⟨(answer_trapRes ..).trans ?_, (answer_trapRes ..).trans ?_⟩ <;> rw [hat]
      · have hr : s.localRange at' len = some (trapRes s 0x0E at') := State.localRange_bad (by rw [hlocal]; exact hlt)
        rw [exec_accst, exec_accld_core hc, rowsCheck_aligned hal, hr]
        refine ⟨(answer_trapRes ..).trans ?_, (answer_trapRes ..).trans ?_⟩ <;> rw [hat]
      · have hr : s.localRange at' len = none := State.localRange_ok (by rw [hlocal]; exact hle)
        rw [exec_accst, rowsCheck_aligned hal, hr]
        refine (answer_done _).trans ?_
        rw [State.localOut_core hc, State.moveOn_core (s := s.withEff _) hc, State.tileCur, hc] <;> rfl
      · have hr : s.localRange at' len = none := State.localRange_ok (by rw [hlocal]; exact hle)
        have hload : s.loadLocal s.cur at' len = .error ⟨⟨0x13, BitVec.ofNat 64 o⟩, s⟩ :=
          State.loadLocal_poison (by rw [hlocal]; exact hle) (by rw [hlocal]; exact ho)
        rw [exec_accld_core hc, rowsCheck_aligned hal, hr]
        dsimp only
        rw [hload] <;> rfl
      · have hr : s.localRange at' len = none := State.localRange_ok (by rw [hlocal]; exact hle)
        have hload : s.loadLocal s.cur at' len = .ok (readBytes x.scratch at' len) := by
          have h := State.loadLocal_ok (s := s) (off := at') (n := len) (by rw [hlocal]; exact hle) (by rw [hlocal]; exact ho)
          rwa [hlocal] at h
        rw [exec_accld_core hc, rowsCheck_aligned hal, hr]
        dsimp only
        rw [hload]
        exact answer_done_core hc rfl

end Sys2Proof.Machine
end

