-- ==== Sys2Proof/Proofs/BlocksAndCopies.lean ====
section
/-!
Load-blocks (R276, R277), copies (R278 to R281) and sync words (R283, R284): O40.
-/
namespace Sys2Proof.Machine

/-! ### BLKLD and BLKREL -/

section
variable {s : State} {c : Fin 32} {slot : Fin 8} (hc : s.cur = .core c slot)
include hc

theorem ctx_dom_core : (s.ctx s.cur).dom = .core c := by rw [hc] <;> rfl

theorem exec_blkld (d a : Opd) (n1 : Fin 64) : exec (.blkld d a n1) s = answer (s.blkld c d (s.ri a).toNat (n1.val + 1)) :=
  congrArg answer (State.onCore_core hc _)

theorem exec_blkrel (a : Opd) : exec (.blkrel a) s = answer
    (if 16 ≤ (s.ri a).toNat || !(s.core c).arch.blkLive.getLsbD ((s.ri a).toNat % 16) || (s.core c).arch.blkRel.getLsbD ((s.ri a).toNat % 16)
      then trapRes s 0x14 4
      else (((s.modArch c fun y => { y with blkRel := y.blkRel ||| ((1 : BitVec 16) <<< ((s.ri a).toNat % 16)) }).defer
        (.blkrel ((s.ri a).toNat % 16))).countGst 1).done) :=
  congrArg answer (State.onCore_core hc _)

end

/-- The free block number that BLKLD finds (R276). -/
def Core.freeBlock (x : Core) : Option Nat := (List.range 16).find? fun i => !x.arch.blkLive.getLsbD i

/-- The block that BLKLD starts. -/
def blockFor (k : Ctx) (base n : Nat) (ps : List Piece) : Block :=
  { base := base, count := n, asid := k.asid, world := k.world,
    lines := ps.map fun q => { vline := q.x.va / 64, pline := q.x.pa / 64, asid := k.asid, world := k.world, attr := q.x.attr, tags := (0, 0),
                               data := [], dirty := 0, poison := none },
    filled := false }

theorem State.blkld_error {s : State} {c : Nat} {d : Opd} {base n : Nat} {f : Fail} (h : s.access (s.ctx s.cur) .load base (64 * n) 64 = .error f) :
    s.blkld c d base n = .error f := by
  rw [State.blkld, h]

theorem State.blkld_ok {s t : State} {c : Nat} {d : Fin 64} {base n : Nat} {ps : List Piece}
    (h : s.access (s.ctx s.cur) .load base (64 * n) 64 = .ok (ps, t)) : s.blkld c (.sx d) base n =
      match (t.core c).freeBlock with
      | none => trapRes t 0x14 1
      | some i =>
        if (ps.map fun q => q.x.pa / 64).any fun l => (t.core c).blockLines.contains l then trapRes t 0x14 2
        else if t.l1Cap (s.ctx s.cur).dom / 2 < (t.core c).blockLines.length + n then trapRes t 0x14 3
        else ((t.modCore c fun x =>
          { x with blocks := mset none x.blocks i (some (blockFor (s.ctx s.cur) base n ps)),
                   arch := { x.arch with blkLive := x.arch.blkLive ||| ((1 : BitVec 16) <<< i) },
                   sb := x.sb ++ [{ lands := if d = 0 then [] else [.sreg d (BitVec.ofNat 64 i)], ext := false, blk := some i }] }).fitL1
            (s.ctx s.cur).dom).done := by
  rw [State.blkld, h] <;> rfl

/-- BLKLD of a core (R276): its checks, then its faults in the order of their reasons, then the lowest free number on its way. -/
theorem blkld_core (s : State) (d : Fin 64) (a : Opd) (n1 : Fin 64) (c : Fin 32) (slot : Fin 8) (hc : s.cur = .core c slot) :
    let n := n1.val + 1
    let k := s.ctx s.cur
    (∀ f, s.access k .load (s.ri a).toNat (64 * n) 64 = .error f → Traps (.blkld (.sx d) a n1) s f)
    ∧ (∀ ps t, s.access k .load (s.ri a).toNat (64 * n) 64 = .ok (ps, t) →
        let x := t.core c
        let trap : Nat → Prop := fun r => exec (.blkld (.sx d) a n1) s = .next (t.takeTrap t.cur ⟨0x14, BitVec.ofNat 64 r⟩)
        let again := ps.any fun q => x.blockLines.contains (q.x.pa / 64)
        let many := t.l1Cap (.core c) / 2 < x.blockLines.length + n
        ((∀ i < 16, x.arch.blkLive.getLsbD i = true) → trap 1)
        ∧ (∀ i < 16, x.arch.blkLive.getLsbD i = false → (∀ j < i, x.arch.blkLive.getLsbD j = true) →
            (again = true → trap 2) ∧ (again = false → many → trap 3)
            ∧ (again = false → ¬ many → ∃ b : Block, b.lines.map (·.pline) = ps.map (fun q => q.x.pa / 64) ∧ b.filled = false ∧
                exec (.blkld (.sx d) a n1) s = .next ((t.setCore c
                  { x with blocks := mset none x.blocks i (some b),
                           arch := { x.arch with blkLive := x.arch.blkLive ||| (1 <<< i) },
                           sb := x.sb ++ [{ lands := if d = 0 then [] else [.sreg d (BitVec.ofNat 64 i)], ext := false, blk := some i }] }).fitL1
                    (.core c))))) := by
  intro n k
  refine ⟨fun f hf => ?_, fun ps t hok => ?_⟩
  · rw [Traps, exec_blkld hc, State.blkld_error hf] <;> rfl
  · intro x trap again many
    have hany : ((ps.map fun q => q.x.pa / 64).any fun l => x.blockLines.contains l) = again := List.any_map ..
    have hexec : exec (.blkld (.sx d) a n1) s = answer (match x.freeBlock with
      | none => trapRes t 0x14 1
      | some i =>
        if again then trapRes t 0x14 2
        else if many then trapRes t 0x14 3
        else ((t.modCore c fun x =>
          { x with blocks := mset none x.blocks i (some (blockFor k (s.ri a).toNat n ps)),
                   arch := { x.arch with blkLive := x.arch.blkLive ||| ((1 : BitVec 16) <<< i) },
                   sb := x.sb ++ [{ lands := if d = 0 then [] else [.sreg d (BitVec.ofNat 64 i)], ext := false, blk := some i }] }).fitL1
            (.core c)).done) := by
      rw [exec_blkld hc, State.blkld_ok hok, ctx_dom_core hc, hany]
    refine ⟨fun hall => ?_, fun i hi hfree hlow => ?_⟩
    · have hnone : x.freeBlock = none := List.find?_eq_none.2 fun i hi => by
        rw [hall i (List.mem_range.1 hi)]
        decide
      simp only [trap]
      rw [hexec, hnone] <;> rfl
    · have hsome : x.freeBlock = some i := by
        rw [Core.freeBlock, List.find?_range_eq_some]
        exact ⟨by rw [hfree] <;> rfl, List.mem_range.2 hi, fun j hj => by rw [hlow j hj] <;> rfl⟩
      rw [hsome] at hexec
      refine ⟨fun h => ?_, fun h hm => ?_, fun h hm => ⟨blockFor k (s.ri a).toNat n ps, List.map_map .., rfl, ?_⟩⟩
      · simp only [trap]
        rw [hexec, h] <;> rfl
      · simp only [trap]
        rw [hexec, h]
        dsimp only
        rw [if_neg Bool.false_ne_true, if_pos hm] <;> rfl
      · rw [hexec, h]
        dsimp only
        rw [if_neg Bool.false_ne_true, if_neg hm]
        have hcur : t.cur = .core c slot := (State.access_cur hok).trans hc
        exact answer_done_core hcur (State.fitL1_run (.core c) (State.modCore_run c _ (.refl t))).1

/-- Two changes of a core around an effect that its bundle withholds. -/
theorem modCore_defer_modArch (s : State) (c : Nat) (f : Arch → Arch) (g : Core → Core) (e : Eff) :
    ((s.modArch c f).defer e).modCore c g = (s.setCore c (g { s.core c with arch := f (s.core c).arch })).withEff e := by
  rw [State.modCore, State.core_defer, State.core_modArch, if_pos rfl]
  exact congrArg (fun t : State => t.withEff e) (State.setCore_setCore s c _ _)

theorem blkrel_core (s : State) (a : Opd) (c : Fin 32) (slot : Fin 8) (hc : s.cur = .core c slot) :
    let h := (s.ri a).toNat
    let x := s.core c
    (16 ≤ h ∨ x.arch.blkLive.getLsbD (h % 16) = false ∨ x.arch.blkRel.getLsbD (h % 16) = true →
      exec (.blkrel a) s = .next (s.takeTrap s.cur ⟨0x14, 4⟩))
    ∧ (h < 16 → x.arch.blkLive.getLsbD h = true → x.arch.blkRel.getLsbD h = false →
      exec (.blkrel a) s = .next ((s.setCore c
        { x with arch := { x.arch with blkRel := x.arch.blkRel ||| (1 <<< h) }, gst := x.gst + 1 }).withEff (.blkrel h))) := by
  intro h x
  have hbad : (16 ≤ h || !x.arch.blkLive.getLsbD (h % 16) || x.arch.blkRel.getLsbD (h % 16)) = true ↔
      16 ≤ h ∨ x.arch.blkLive.getLsbD (h % 16) = false ∨ x.arch.blkRel.getLsbD (h % 16) = true := by
    simp [or_assoc]
  refine ⟨fun h => ?_, fun hlt hlive hrel => ?_⟩
  · rw [exec_blkrel hc, if_pos (hbad.2 h)] <;> rfl
  · have hmod : h % 16 = h := Nat.mod_eq_of_lt hlt
    have hok : ¬ (16 ≤ h ∨ x.arch.blkLive.getLsbD (h % 16) = false ∨ x.arch.blkRel.getLsbD (h % 16) = true) := by
      rw [hmod, hlive, hrel]
      simpa using hlt
    rw [exec_blkrel hc, if_neg (mt hbad.1 hok), hmod]
    have hcur : (((s.modArch c fun y => { y with blkRel := y.blkRel ||| ((1 : BitVec 16) <<< h) }).defer (.blkrel h))).cur = .core c slot := hc
    rw [State.countGst_core hcur, answer_done]
    refine congrArg Host.Outcome.next (Eq.trans (State.moveOn_core (c := c) (k := slot) hcur) ?_)
    exact modCore_defer_modArch ..

/-! ### Copies (R278 to R281) -/

/-- The copy that a command starts. -/
def State.copyFor (s : State) (cmd : Word) (src : CopyEnd) (dsts syncs sems : List CopyEnd) (multi : Bool) : Copy :=
  { cmd := cmd, src := src, dsts := dsts, syncs := if cmdSync cmd then syncs else [], sems := if cmdSem cmd then sems else [],
    multi := multi,
    left := (List.range (pieceCount (cmdElems cmd) (pieceElems ((cmdDst cmd).getD .i8) (dsts.any CopyEnd.packed)))).flatMap fun p =>
      (List.range dsts.length).map fun i => (i, p),
    got := [], asid := (s.ctx s.cur).asid, world := (s.ctx s.cur).world, job := (s.jobOf s.cur).getD 0,
    part := (match s.cur with
      | .core n _ => (s.core n).idx
      | .thr t => (s.group t.unit t.group).idx),
    tpc := (match s.cur with
      | .core c _ => (s.core c).arch.pc.setWidth 64
      | .thr t => (s.thread t).pc),
    issuer := s.cur, seq := 0, failed := none }

theorem State.issueCopy_eq (s : State) (cmd : Word) (src : CopyEnd) (dsts syncs sems : List CopyEnd) (multi : Bool) :
    s.issueCopy cmd src dsts syncs sems multi = match s.cur with
      | .core n _ => ((s.defer (.copy (s.copyFor cmd src dsts syncs sems multi))).modCore n fun x => { x with cpy := x.cpy + 1 }).done
      | .thr t => if 512 ≤ (s.unit t.unit).eng.copies.length then s.waitAt .copySlot
          else (s.startCopy (.unit t.unit) (s.copyFor cmd src dsts syncs sems multi)).done := rfl

theorem mem_copyFor_left {s : State} {cmd : Word} {src : CopyEnd} {dsts syncs sems : List CopyEnd} {multi : Bool} (q : Nat × Nat) :
    q ∈ (s.copyFor cmd src dsts syncs sems multi).left ↔ q.1 < dsts.length
      ∧ q.2 < pieceCount (cmdElems cmd) (pieceElems ((cmdDst cmd).getD .i8) (dsts.any CopyEnd.packed)) := by
  obtain ⟨i, p⟩ := q
  simp only [State.copyFor, List.mem_flatMap, List.mem_map, List.mem_range, Prod.mk.injEq]
  exact ⟨fun ⟨_, hp, _, hi, h1, h2⟩ => ⟨h1 ▸ hi, h2 ▸ hp⟩, fun ⟨hi, hp⟩ => ⟨p, hp, i, hi, rfl, rfl⟩⟩

/-- A checked copy (R269, R281): withheld and counted by a core; started by a thread, or its word held while every slot is taken. -/
theorem issueCopy_starts {i : Instr} {s t : State} {cmd : Word} {src : CopyEnd} {dsts syncs sems : List CopyEnd} {multi : Bool}
    (hi : exec i s = answer (t.issueCopy cmd src dsts syncs sems multi)) : ∃ cp : Copy,
      cp.cmd = cmd ∧ cp.src = src ∧ cp.dsts = dsts ∧ cp.failed = none ∧ cp.issuer = t.cur
      ∧ (∀ q, q ∈ cp.left ↔ q.1 < dsts.length
        ∧ q.2 < pieceCount (cmdElems cmd) (pieceElems ((cmdDst cmd).getD .i8) (dsts.any CopyEnd.packed)))
      ∧ (∀ (c : Fin 32) (slot : Fin 8), t.cur = .core c slot →
          exec i s = .next ((t.withEff (.copy cp)).modCore c fun x => { x with cpy := x.cpy + 1 }))
      ∧ (∀ u : Tid, t.cur = .thr u →
          (512 ≤ (t.unit u.unit).eng.copies.length → exec i s = .next (t.heldBy u .copySlot))
          ∧ ((t.unit u.unit).eng.copies.length < 512 → exec i s = .next (t.startCopy (.unit u.unit) cp).moveOn)) := by
  refine ⟨t.copyFor cmd src dsts syncs sems multi, rfl, rfl, rfl, rfl, rfl, mem_copyFor_left, fun c slot hc => ?_,
    fun u hu => ⟨fun h => ?_, fun h => ?_⟩⟩
  · rw [hi, State.issueCopy_eq, hc]
    exact answer_done_core hc rfl
  · rw [hi, State.issueCopy_eq, hu]
    dsimp only
    rw [if_pos h]
    exact answer_waitAt hu _
  · rw [hi, State.issueCopy_eq, hu]
    dsimp only
    rw [if_neg (Nat.not_le.2 h)]
    exact answer_done _

theorem bits_20_0 (p : Word) : bits p.toNat 20 0 = p.toNat % 2 ^ 21 := by rw [bits, Nat.pow_zero, Nat.div_one]

/-- CPY (R279): the lowest reason, else the ranges, else the copy. -/
theorem cpy_eq (s : State) (h : Bool) (dir : CpyDir) (d a b : Opd) :
    let cmd := s.ri d
    let sg := dir = .g2l ∨ dir = .g2g
    let dg := dir = .l2g ∨ dir = .g2g
    let thr := match s.cur with
      | .core .. => false
      | .thr _ => true
    let why := s.copyReason cmd sg dg false ((¬ sg ∧ s.peerAbsent (s.ri a)) ∨ (¬ dg ∧ s.peerAbsent (s.ri b)))
      ((¬ sg ∧ localBits (s.ri a) thr) ∨ (¬ dg ∧ localBits (s.ri b) thr))
    exec (.cpy h dir d a b) s = answer (match why with
      | some r => trapRes s 0x15 r
      | none =>
        match s.copyRange (s.ctx s.cur) .load sg (s.ri a) (sideBytes (cmdSrc cmd) sg cmd) with
        | .error f => .error f
        | .ok (src, t) => match t.copyRange (s.ctx s.cur) .store dg (s.ri b) (sideBytes (cmdDst cmd) dg cmd) with
          | .error f => .error f
          | .ok (dst, u) => u.issueCopy cmd src [dst] [u.ownPlace (cmdSwoff cmd)] [u.semPlace cmd] false) := by
  have hexec : exec (.cpy h dir d a b) s = answer (s.cpy dir (s.ri b) (s.ri a) (s.ri d)) := rfl
  intro cmd sg dg thr why
  have hsg : (dir == .g2l || dir == .g2g) = decide sg := by cases dir <;> rfl
  have hdg : (dir == .l2g || dir == .g2g) = decide dg := by cases dir <;> rfl
  have hside : ∀ x y : Bool, ((!decide sg && x) || (!decide dg && y)) = decide ((¬ sg ∧ x) ∨ (¬ dg ∧ y)) := fun x y => by
    cases dir <;> cases x <;> cases y <;> rfl
  rw [hexec, State.cpy]
  simp only [hsg, hdg, hside]
  rfl

/-- CPYM (R280): the lowest reason, else the ranges, else the copy to every target. -/
theorem cpym_eq (s : State) (h : Bool) (mask : Byte) (d a b : Opd) :
    let cmd := s.ri d
    let ts := s.maskTargets mask.toNat
    let off := (s.ri b).toNat % 2 ^ 21
    exec (.cpym h mask d a b) s = answer (match s.copyReason cmd true false true (ts = [] ∨ none ∈ ts) (localBits (s.ri b) true) with
      | some r => trapRes s 0x15 r
      | none =>
        match s.copyRange (s.ctx s.cur) .load true (s.ri a) (sideBytes (cmdSrc cmd) true cmd) with
        | .error f => .error f
        | .ok (src, t) =>
          if (ts.filterMap id).any fun p => t.shareSize ((s.jobOf s.cur).getD 0) p < off + sideBytes (cmdDst cmd) false cmd then trapRes t 0x0E off
          else t.issueCopy cmd src ((ts.filterMap id).map (·.at' off)) ((ts.filterMap id).map (·.at' (cmdSwoff cmd)))
            ((ts.filterMap id).map (·.at' (cmdSidx cmd))) true) := by
  have hexec : exec (.cpym h mask d a b) s = answer (s.cpym mask.toNat (s.ri b) (s.ri a) (s.ri d)) := rfl
  intro cmd ts off
  have hbad : (decide (ts = []) || ts.any Option.isNone) = decide (ts = [] ∨ none ∈ ts) := by
    rw [Bool.eq_iff_iff]
    simp
  rw [hexec, State.cpym]
  simp only [bits_20_0]
  rw [hbad] <;> rfl

/-! ### Sync words (R283, R284) -/

theorem syncCheck_misaligned {s : State} {off : Nat} (h : off % 8 ≠ 0) : s.syncCheck off = some (trapRes s 0x09 off) := if_pos (bne_iff_ne.2 h)

theorem syncCheck_aligned {s : State} {off : Nat} (h : off % 8 = 0) : s.syncCheck off = s.localRange off 8 := if_neg (by simp [h])

theorem exec_syncset (s : State) (a b : Opd) : exec (.syncset a b) s = answer ((s.syncCheck (s.ri a).toNat).getD
    (s.localOut (s.ri a).toNat (leBytes 8 ((s.ri b).toNat % 2 ^ 24 + (s.ri b).toNat / 2 ^ 48 * 2 ^ 48))).done) := by
  have hlo : bits (s.ri b).toNat 23 0 = (s.ri b).toNat % 2 ^ 24 := by rw [bits, Nat.pow_zero, Nat.div_one]
  have hhi : bits (s.ri b).toNat 63 48 = (s.ri b).toNat / 2 ^ 48 := Nat.mod_eq_of_lt (by have := (s.ri b).isLt; omega)
  rw [← hlo, ← hhi] <;> rfl

/-- SWAIT by its checks and its own sync word (R284). -/
def State.swaitHeld (s : State) (sc : Scope) (ord : Ord) (d : Fin 64) (off gen held : Nat) : Res :=
  let ends := ((if isAcq ord then s.acquireAt s.cur.dom sc else s).memResult (.sx d) (BitVec.ofNat 64 held) false false).done
  match s.cur with
  | .core .. => ends
  | .thr _ => if reached held gen then ends else s.waitAt (.sync off gen d (isAcq ord) sc)

theorem exec_swait (s : State) (sc : Scope) (ord : Ord) (d : Fin 64) (a b : Opd) : exec (.swait sc ord (.sx d) a b) s = answer
    (match s.syncCheck (s.ri a).toNat with
      | some r => r
      | none => match s.loadLocal s.cur (s.ri a).toNat 8 with
        | .error f => .error f
        | .ok bs => s.swaitHeld sc ord d (s.ri a).toNat ((s.ri b).toNat % 2 ^ 16) (leNat bs)) := rfl

theorem answer_swaitHeld_core {s : State} {c : Fin 32} {slot : Fin 8} (hc : s.cur = .core c slot) (sc : Scope) (ord : Ord) (d : Fin 64)
    (off gen held : Nat) : answer (s.swaitHeld sc ord d off gen held)
      = .next ((if isAcq ord then s.acquireAt s.cur.dom sc else s).memWord d (BitVec.ofNat 64 held) false false) := by
  rw [← answer_memResult, State.swaitHeld]
  split
  · rfl
  · next u hu => cases hc.symm.trans hu

theorem answer_swaitHeld_thr {s : State} {u : Tid} (hu : s.cur = .thr u) (sc : Scope) (ord : Ord) (d : Fin 64) (off gen held : Nat) :
    (reached held gen = true → answer (s.swaitHeld sc ord d off gen held)
        = .next ((if isAcq ord then s.acquireAt s.cur.dom sc else s).memWord d (BitVec.ofNat 64 held) false false))
      ∧ (reached held gen = false → answer (s.swaitHeld sc ord d off gen held) = .next (s.heldBy u (.sync off gen d (isAcq ord) sc))) := by
  have h : s.swaitHeld sc ord d off gen held = if reached held gen
      then ((if isAcq ord then s.acquireAt s.cur.dom sc else s).memResult (.sx d) (BitVec.ofNat 64 held) false false).done
      else s.waitAt (.sync off gen d (isAcq ord) sc) := by
    rw [State.swaitHeld]
    split
    · next c slot hc => cases hu.symm.trans hc
    · rfl
  rw [h]
  refine ⟨fun hr => ?_, fun hr => ?_⟩
  · rw [if_pos hr]
    exact answer_memResult ..
  · rw [if_neg (by rw [hr]; decide)]
    exact answer_waitAt hu _

/-- SYNCSET and SWAIT (R283, R284). -/
theorem syncWords (s : State) (sc : Scope) (ord : Ord) (d : Fin 64) (a b : Opd) :
    let off := (s.ri a).toNat
    let mine := s.local' s.cur
    let gen := (s.ri b).toNat % 2 ^ 16
    (off % 8 ≠ 0 → exec (.syncset a b) s = .next (s.takeTrap s.cur ⟨0x09, s.ri a⟩)
        ∧ exec (.swait sc ord (.sx d) a b) s = .next (s.takeTrap s.cur ⟨0x09, s.ri a⟩))
    ∧ (off % 8 = 0 → mine.2.1 < off + 8 → exec (.syncset a b) s = .next (s.takeTrap s.cur ⟨0x0E, s.ri a⟩)
        ∧ exec (.swait sc ord (.sx d) a b) s = .next (s.takeTrap s.cur ⟨0x0E, s.ri a⟩))
    ∧ (off % 8 = 0 → off + 8 ≤ mine.2.1 →
        let word := leBytes 8 ((s.ri b).toNat % 2 ^ 24 + (s.ri b).toNat / 2 ^ 48 * 2 ^ 48)
        let held := leNat (readBytes mine.1 off 8)
        let acq := if isAcq ord then s.acquireAt s.cur.dom sc else s
        exec (.syncset a b) s = .next (match s.cur with
          | .core _ _ => s.withEff (.scr (cellsOf off word))
          | .thr _ => (s.storeLocal s.cur off word).moveOn)
        ∧ (∀ o, localPoison mine.2.2 off 8 = some o →
            exec (.swait sc ord (.sx d) a b) s = .next (s.takeTrap s.cur ⟨0x13, BitVec.ofNat 64 o⟩))
        ∧ (localPoison mine.2.2 off 8 = none →
            (∀ (c : Fin 32) (slot : Fin 8), s.cur = .core c slot →
                exec (.swait sc ord (.sx d) a b) s = .next (acq.memWord d (BitVec.ofNat 64 held) false false))
            ∧ (∀ u : Tid, s.cur = .thr u →
                (reached held gen = true → exec (.swait sc ord (.sx d) a b) s = .next (acq.memWord d (BitVec.ofNat 64 held) false false))
                ∧ (reached held gen = false →
                    exec (.swait sc ord (.sx d) a b) s = .next (s.heldBy u (.sync off gen d (isAcq ord) sc)))))) := by
  intro off mine gen
  have hoff : BitVec.ofNat 64 off = s.ri a := (BitVec.ofNat_toNat ..).trans (BitVec.setWidth_eq _)
  have htrap : ∀ cause, answer (trapRes s cause off) = .next (s.takeTrap s.cur ⟨cause, s.ri a⟩) := fun cause => by rw [answer_trapRes, hoff]
  rw [exec_syncset, exec_swait]
  refine ⟨fun h => ?_, fun h hlt => ?_, fun h hle => ?_⟩
  · rw [syncCheck_misaligned h]
    exact ⟨htrap _, htrap _⟩
  · rw [syncCheck_aligned h, State.localRange_bad hlt]
    exact ⟨htrap _, htrap _⟩
  · intro word held acq
    rw [syncCheck_aligned h, State.localRange_ok hle]
    refine ⟨?_, fun o ho => ?_, fun hnone => ?_⟩
    · refine (answer_done _).trans ?_
      cases hc : s.cur with
      | core c slot =>
        rw [State.localOut_core hc]
        exact congrArg Host.Outcome.next (State.moveOn_core (s := s.withEff _) hc)
      | thr u => rw [State.localOut_thr hc, hc]
    · rw [State.loadLocal_poison hle ho] <;> rfl
    · rw [State.loadLocal_ok hle hnone]
      dsimp only
      exact ⟨fun c slot hc => answer_swaitHeld_core hc sc ord d off gen held, fun u hu => answer_swaitHeld_thr hu sc ord d off gen held⟩

/-- Settles O40, from the ops' own lemmas above and CPY's and CPYM's checks in order. -/
theorem loadBlocksCopiesAndSyncWords : Obligations.LoadBlocksCopiesAndSyncWords := by
  unfold Obligations.LoadBlocksCopiesAndSyncWords
  refine ⟨fun s d a n1 c slot hc => ?_, fun s h dir mask d a b => ?_, syncWords⟩
  · obtain ⟨herr, hok⟩ := blkld_core s d a n1 c slot hc
    exact ⟨herr, hok, blkrel_core s a c slot hc⟩
  · intro cmd sg dg thr why k starts
    have hcpy : exec (.cpy h dir d a b) s = answer (match why with
      | some r => trapRes s 0x15 r
      | none => match s.copyRange k .load sg (s.ri a) (sideBytes (cmdSrc cmd) sg cmd) with
        | .error f => .error f
        | .ok (src, t) => match t.copyRange k .store dg (s.ri b) (sideBytes (cmdDst cmd) dg cmd) with
          | .error f => .error f
          | .ok (dst, u) => u.issueCopy cmd src [dst] [u.ownPlace (cmdSwoff cmd)] [u.semPlace cmd] false) := cpy_eq s h dir d a b
    refine ⟨fun r hr => ?_, fun hnone => ?_, ?_⟩
    · rw [hcpy, hr] <;> rfl
    · rw [hnone] at hcpy
      refine ⟨fun f hf => ?_, fun src t hs => ?_⟩
      · rw [Traps, hcpy, hf] <;> rfl
      · rw [hs] at hcpy
        dsimp only at hcpy
        refine ⟨fun f hf => ?_, fun dst t2 hd => ?_⟩
        · rw [Traps, hcpy, hf] <;> rfl
        · rw [hd] at hcpy
          exact issueCopy_starts hcpy
    · intro ts whyM off parts
      have hcpym : exec (.cpym h mask d a b) s = answer (match whyM with
        | some r => trapRes s 0x15 r
        | none => match s.copyRange k .load true (s.ri a) (sideBytes (cmdSrc cmd) true cmd) with
          | .error f => .error f
          | .ok (src, t) =>
            if parts.any fun p => t.shareSize ((s.jobOf s.cur).getD 0) p < off + sideBytes (cmdDst cmd) false cmd then trapRes t 0x0E off
            else t.issueCopy cmd src (parts.map (·.at' off)) (parts.map (·.at' (cmdSwoff cmd))) (parts.map (·.at' (cmdSidx cmd))) true) :=
        cpym_eq s h mask d a b
      refine ⟨fun r hr => ?_, fun hnone => ?_⟩
      · rw [hcpym, hr] <;> rfl
      · rw [hnone] at hcpym
        refine ⟨fun f hf => ?_, fun src t hs => ?_⟩
        · rw [Traps, hcpym, hf] <;> rfl
        · intro small
          rw [hs] at hcpym
          dsimp only at hcpym
          have hsmall : (parts.any fun p => t.shareSize ((s.jobOf s.cur).getD 0) p < off + sideBytes (cmdDst cmd) false cmd) = true ↔ small := by
            simp [small]
          refine ⟨fun h => ?_, fun h => ?_⟩
          · rw [hcpym, if_pos (hsmall.2 h)] <;> rfl
          · rw [if_neg (mt hsmall.1 h)] at hcpym
            exact issueCopy_starts hcpym

end Sys2Proof.Machine
end

