-- ==== Sys2Proof/Proofs/AtomicOps.lean ====
section
/-!
Atomics (R262, R285 to R288): one lemma for every atomic, then each op's function of the old value: O41.
-/
namespace Sys2Proof.Machine

/-- The register results of an atomic reach registers, and the op completes. -/
def State.atomicDone (s : State) (ext : Bool) (rs : List (Opd × Word)) : Res := (s.atomicResult rs ext).done

section
variable {s : State} {sc : Scope} {ord : Ord} {loc peerOk : Bool} {a : Opd} {n : Nat} {f : Nat → Option Nat} {res : Nat → List (Opd × Word)}

theorem atomic_mirrored (h : s.pairCur = some 1) : s.atomic sc ord loc peerOk a n f res = s.takeMirror.done :=
  if_pos (beq_iff_eq.2 h)

/-- An atomic in LOCAL form (R286). -/
theorem atomic_local (h : s.pairCur ≠ some 1) (hloc : loc = true) : s.atomic sc ord loc peerOk a n f res =
    if (s.ri a).toNat % n != 0 then trapRes s 0x09 (s.ri a).toNat
    else match s.loadLocal s.cur (s.ri a).toNat n with
      | .error e => .error e
      | .ok bs =>
        State.atomicDone (match f (leNat bs) with
          | none => s
          | some x => match s.cur with
            | .core _ _ => s.withEff (.loc (cellsOf (s.ri a).toNat (leBytes n x)))
            | .thr _ => s.storeLocal s.cur (s.ri a).toNat (leBytes n x)) false (res (leNat bs)) := by
  unfold State.atomic
  rw [if_neg (by rwa [beq_iff_eq]), if_pos hloc] <;> rfl

/-- An atomic at the home agent or a PEER target, after its checks (R286, R262). -/
theorem atomic_global (h : s.pairCur ≠ some 1) (hloc : loc = false) : s.atomic sc ord loc peerOk a n f res =
    match s.access (s.ctx s.cur) .atomic (s.ri a).toNat n n with
    | .error e => .error e
    | .ok (ps, t) =>
      if (t.atomicRefused (pieceBytes ps) peerOk).1 then trapRes (t.atomicRefused (pieceBytes ps) peerOk).2 0x0F (s.ri a).toNat
      else match ((t.atomicRefused (pieceBytes ps) peerOk).2.opRelease (s.ctx s.cur).dom (atomicScope ps sc) ord).atomicRead (s.ctx s.cur)
          (s.ri a).toNat (pieceBytes ps) with
        | .error e => .error e
        | .ok (bs, u) =>
          let w := match f (leNat bs) with
            | none => u
            | some x => u.atomicWrite (s.ctx s.cur) ((pieceBytes ps).zip (leBytes n x))
          State.atomicDone (if isAcq ord then w.acquireAt (s.ctx s.cur).dom (atomicScope ps sc) else w) (piecesExt ps) (res (leNat bs)) := by
  unfold State.atomic
  rw [if_neg (by rwa [beq_iff_eq]), if_neg (by rw [hloc]; exact Bool.false_ne_true)] <;> rfl

/-- Every atomic does what `AtomicStep` says with its own function and results. -/
theorem atomicStep_of {i : Instr} (hi : exec i s = answer (s.atomic sc ord loc peerOk a n f res)) :
    AtomicStep i s sc ord loc peerOk a n f res := by
  have haddr : BitVec.ofNat 64 (s.ri a).toNat = s.ri a := (BitVec.ofNat_toNat ..).trans (BitVec.setWidth_eq _)
  have hend : ∀ (t : State) ext o, answer (t.atomicDone ext (res o)) = .next (t.atomicResult (res o) ext).moveOn := fun t ext o => answer_done _
  refine ⟨fun h => ?_, fun ⟨h, hloc⟩ => ?_, fun ⟨h, hloc⟩ => ?_⟩
  · rw [hi, atomic_mirrored h, answer_done]
  · rw [atomic_local h hloc] at hi
    refine ⟨fun hmis => ?_, fun hal e he => ?_, fun hal bs hbs => ?_⟩
    · rw [Traps, hi, if_pos (bne_iff_ne.2 hmis), answer_trapRes, haddr]
    · rw [Traps, hi, if_neg (by simp [hal]), he] <;> rfl
    · rw [if_neg (by simp [hal]), hbs] at hi
      dsimp only at hi
      refine ⟨fun hf => ?_, fun x hf => ?_⟩
      · rw [hi, hf, hend]
      · rw [hi, hf, hend] <;> rfl
  · rw [atomic_global h hloc] at hi
    refine ⟨fun e he => ?_, fun ps s1 hok => ?_⟩
    · rw [Traps, hi, he] <;> rfl
    · rw [hok] at hi
      dsimp only at hi
      intro xs s2 sc' s3 done
      refine ⟨fun href => ?_, fun href => ?_⟩
      · rw [Traps, hi, if_pos href, answer_trapRes, haddr]
      · rw [if_neg (by rw [href]; exact Bool.false_ne_true)] at hi
        have hs3 : (s1.atomicRefused (pieceBytes ps) peerOk).2.opRelease (s.ctx s.cur).dom (atomicScope ps sc) ord = s3 := rfl
        rw [hs3] at hi
        refine ⟨fun e he => ?_, fun bs s4 hr => ?_⟩
        · rw [Traps, hi, he] <;> rfl
        · rw [hr] at hi
          dsimp only at hi
          refine ⟨fun hf => ?_, fun x hf => ?_⟩
          · rw [hi, hf, hend] <;> rfl
          · rw [hi, hf, hend] <;> rfl

end

/-- Settles O41: each op through `atomicStep_of`, its function and results read as the spec writes them. -/
theorem atomicReadModifyWrite : Obligations.AtomicReadModifyWrite := by
  unfold Obligations.AtomicReadModifyWrite
  intro s m sgn d a b n y signed less plain res
  have hless : ∀ x z, atLess sgn (atBytes m) x z = true ↔ less x z := fun x z => by
    rw [atLess, toSigned_eq_toInt, toSigned_eq_toInt]
    cases sgn
    · exact decide_eq_true_iff
    · exact decide_eq_true_iff
  have hpick : ∀ (f : Nat → Option Nat) (p : Nat → Bool), (∀ o, (p o = true → f o = some y) ∧ (¬ p o = true → f o = some o)) →
      f = fun o => some (if p o then y else o) := fun f p h => funext fun o => by
    split
    · next hp => exact (h o).1 hp
    · next hp => exact (h o).2 hp
  have hres : ∀ o, (if sgn then BitVec.ofInt 64 (toSigned (8 * atBytes m) o) else BitVec.ofNat 64 o) =
      if sgn then BitVec.ofInt 64 (signed o) else BitVec.ofNat 64 o := fun o => by rw [toSigned_eq_toInt] <;> rfl
  refine ⟨atomicStep_of rfl, fun f hf => atomicStep_of ?_, fun f hf => atomicStep_of ?_, atomicStep_of rfl, atomicStep_of rfl,
    atomicStep_of rfl, atomicStep_of rfl, atomicStep_of rfl, fun e q _ _ => atomicStep_of rfl, fun t => atomicStep_of rfl⟩
  · rw [hpick f (fun o => atLess sgn (atBytes m) y o) fun o => by simpa only [hless] using hf o]
    simp only [res, ← hres]
    rfl
  · rw [hpick f (fun o => atLess sgn (atBytes m) o y) fun o => by simpa only [hless] using hf o]
    simp only [res, ← hres]
    rfl

end Sys2Proof.Machine
end

