-- ==== Sys2Proof/Proofs/FencesAndTags.lean ====
section
/-!
Fences and cache maintenance (R289, R290), tags (R292, R400) and TLBINV (R406, R407): O42.
-/
namespace Sys2Proof.Machine

theorem wide_iff (sc : Scope) : (sc == .thread || sc == .core) = true ↔ sc = .thread ∨ sc = .core := by
  rw [Bool.or_eq_true, beq_iff_eq, beq_iff_eq]

theorem acquireAt_eq (s : State) (d : Dom) (sc : Scope) :
    s.acquireAt d sc = if ¬ (sc = .thread ∨ sc = .core) then s.dropAll d else s := by
  rw [State.acquireAt, ite_of_iff (wide_iff sc), ite_not]

theorem releaseAt_eq (s : State) (d : Dom) (sc : Scope) :
    s.releaseAt d sc = if ¬ (sc = .thread ∨ sc = .core) then (s.landCopies d).cleanAll d else s := by
  rw [State.releaseAt, ite_of_iff (wide_iff sc), ite_not]

theorem isAcq_iff (ord : Ord) : isAcq ord = true ↔ ord = .acq ∨ ord = .ar := by rw [isAcq, Bool.or_eq_true, beq_iff_eq, beq_iff_eq]

theorem isRel_iff (ord : Ord) : isRel ord = true ↔ ord = .rel ∨ ord = .ar := by rw [isRel, Bool.or_eq_true, beq_iff_eq, beq_iff_eq]

/-! ### Tags -/

theorem range_filterMap_eq_zipIdx {α β : Type} (xs : List α) (f : α → Nat → β) (k : Nat) :
    ((List.range xs.length).filterMap fun i => xs[i]?.map fun x => f x (k + i)) = (xs.zipIdx k).map fun q => f q.1 q.2 := by
  induction xs generalizing k with
  | nil => rfl
  | cons x xs ih =>
    simp only [List.length_cons, List.range_succ_eq_map, List.filterMap_cons, List.getElem?_cons_zero, Option.map_some, Nat.add_zero,
      List.filterMap_map, Function.comp_def, Nat.succ_eq_add_one, List.getElem?_cons_succ, List.zipIdx_cons, List.map_cons, ← ih]
    refine congrArg (fun g => _ :: (List.range xs.length).filterMap g) (funext fun i => ?_)
    rw [show k + (i + 1) = k + 1 + i by omega]

/-- The tags that TGST writes (R292). -/
def tagCells (x16 : Bool) (ps : List Piece) (v : Nat) : List (XByte × Nat) :=
  (tagBytes x16 ps).zipIdx.map fun q => (q.1, v / 2 ^ (4 * q.2) % 16)

theorem exec_tgst (s : State) (x16 : Bool) (d a : Opd) : exec (.tgst x16 d a) s = answer
    (match s.access (s.ctx s.cur) .tagStore (s.ri a).toNat (if x16 then 512 else 1) (if x16 then 512 else 1) with
      | .error f => .error f
      | .ok (ps, t) => match t.cur with
        | .core _ _ => ((t.defer (.tags (tagCells x16 ps (t.ri d).toNat))).countGst 1).done
        | .thr _ => ((tagCells x16 ps (t.ri d).toNat).foldl (fun s' c => s'.putTag (s.ctx s.cur) c.1 c.2) t).done) := by
  have hcells : ∀ ps v, ((List.range (tagBytes x16 ps).length).filterMap fun i => (tagBytes x16 ps)[i]?.map fun x =>
      (x, bits v (4 * i + 3) (4 * i))) = tagCells x16 ps v := fun ps v => by
    have h := range_filterMap_eq_zipIdx (tagBytes x16 ps) (fun x i => (x, bits v (4 * i + 3) (4 * i))) 0
    simp only [Nat.zero_add] at h
    refine h.trans (List.map_congr_left fun q _ => ?_)
    rw [bits, show 4 * q.2 + 3 + 1 - 4 * q.2 = 4 by omega] <;> rfl
  simp only [← hcells]
  rfl

theorem exec_tgld (s : State) (x16 : Bool) (d a : Opd) : exec (.tgld x16 d a) s = answer
    (match s.access (s.ctx s.cur) .tagLoad (s.ri a).toNat (if x16 then 512 else 1) (if x16 then 512 else 1) with
      | .error f => .error f
      | .ok (ps, t) => match (tagBytes x16 ps).find? fun x => t.secure x.pa && !(s.ctx s.cur).world with
        | some x => trapRes (t.noteWorld (s.ctx s.cur).world [x.pa]) 0x12 x.va
        | none => (t.memResult d (BitVec.ofNat 64 ((tagBytes x16 ps).foldr (fun x acc => t.ownTag x.pa + 16 * acc) 0)) false false).done) := rfl

/-! ### Removals leave the running agent -/

theorem SameRun.withIso {s0 s : State} (iso : Iso) (h : SameRun s0 s) : SameRun s0 { s with iso := iso } := h

theorem State.removeEntries_run {s0 s : State} (f : InvForm) (mine : Bool) (h : SameRun s0 s) : SameRun s0 (s.removeEntries f mine) :=
  foldl_run _ _ (fun _ _ h => State.dropLines_run _ _ h) (h.withIso _)

theorem State.invalidate_run {s0 s : State} (f : InvForm) (mine : Bool) (w : InvWaiter) (h : SameRun s0 s) : SameRun s0 (s.invalidate f mine w) := by
  have hgone := State.removeEntries_run f mine h
  cases w with
  | core c => exact (State.modCore_run c _ hgone).withIso _
  | thread t => exact hgone.withIso _
  | window => exact hgone.withIso _

/-! ### TLBINV -/

section
variable {s : State} {f : InvForm}

theorem tlbinv_refused (h : (s.ctx s.cur).priv = false) : answer (s.tlbinv f) = .next (s.takeTrap s.cur ⟨0x0D, 0⟩) := by
  rw [State.tlbinv, h] <;> rfl

theorem tlbinv_core {c : Fin 32} {slot : Fin 8} (hc : s.cur = .core c slot) (hp : (s.ctx s.cur).priv = true) (hpair : s.pairCur ≠ some 1) :
    answer (s.tlbinv f) = .next (((s.releaseAt (s.ctx s.cur).dom .device).invalidate f (s.ctx s.cur).world (.core c)).modCore c fun x =>
      { x with wait := .tlbinv }) := by
  have hrel : (s.releaseAt (s.ctx s.cur).dom .device).cur = .core c slot := (State.releaseAt_cur ..).trans hc
  rw [State.tlbinv, hp]
  dsimp only
  rw [if_neg (by decide), if_neg (by rwa [beq_iff_eq]), hrel]
  exact answer_done_core hc ((State.modCore_run c _ (State.invalidate_run f _ _ (State.releaseAt_run _ _ (.refl s)))).1)

theorem tlbinv_thr {u : Tid} (hu : s.cur = .thr u) (hp : (s.ctx s.cur).priv = true) :
    answer (s.tlbinv f) = .next (((s.releaseAt (.unit u.unit) .device).invalidate f (s.ctx s.cur).world (.thread u)).heldBy u .tlbinv) := by
  have hdom : (s.ctx s.cur).dom = .unit u.unit := by rw [hu] <;> rfl
  have hpair : s.pairCur = none := by rw [State.pairCur, hu]
  have hrel : (s.releaseAt (.unit u.unit) .device).cur = .thr u := (State.releaseAt_cur ..).trans hu
  rw [State.tlbinv, hp, hdom, hpair]
  dsimp only
  rw [if_neg (by decide), if_neg (by decide), hrel]
  exact answer_waitAt (((State.invalidate_run f _ _ (State.releaseAt_run _ _ (.refl s)))).1.trans hu) _

end

theorem bits_15_0 (p : Word) : bits p.toNat 15 0 = p.toNat % 2 ^ 16 := by rw [bits, Nat.pow_zero, Nat.div_one]

theorem exec_tlbinvVa (s : State) (a b : Opd) : exec (.tlbinvVa a b) s
    = answer (s.tlbinv (.va ((s.ri a).toNat / 2 ^ 12 % 2 ^ 36 * 4096) ((s.ri b).toNat % 2 ^ 16))) := by
  rw [← bits_15_0] <;> rfl

theorem exec_tlbinvAsid (s : State) (b : Opd) : exec (.tlbinvAsid b) s = answer (s.tlbinv (.asid ((s.ri b).toNat % 2 ^ 16))) := by
  rw [← bits_15_0] <;> rfl

theorem exec_tlbinvAll (s : State) : exec .tlbinvAll s = answer (s.tlbinv .all) := rfl

/-! ### FENCE, DRAIN, CLEAN and INV -/

theorem exec_fence_thr {s : State} {u : Tid} (hu : s.cur = .thr u) (sc : Scope) (ord : Ord) : exec (.fence sc ord) s = answer
    (let t := if isRel ord then s.releaseAt (.unit u.unit) sc else s
     (if isAcq ord then t.acquireAt (.unit u.unit) sc else t).done) := by
  have h : exec (.fence sc ord) s = execFence sc ord s := rfl
  rw [h, execFence, hu]

theorem exec_drain_thr {s : State} {u : Tid} (hu : s.cur = .thr u) (sc : Scope) :
    exec (.drain sc) s = answer ((s.releaseAt (.unit u.unit) sc).waitAt .drain) := by
  have h : exec (.drain sc) s = execDrain sc s := rfl
  rw [h, execDrain, hu]

theorem exec_fence_core {s : State} {c : Fin 32} {slot : Fin 8} (hc : s.cur = .core c slot) (sc : Scope) (ord : Ord) :
    exec (.fence sc ord) s = .next (s.withEff (.drain sc)) := by
  have h : exec (.fence sc ord) s = execFence sc ord s := rfl
  rw [h, execFence, hc]
  exact answer_defer_core hc _

theorem exec_drain_core {s : State} {c : Fin 32} {slot : Fin 8} (hc : s.cur = .core c slot) (sc : Scope) :
    exec (.drain sc) s = .next (s.withEff (.drain sc)) := by
  have h : exec (.drain sc) s = execDrain sc s := rfl
  rw [h, execDrain, hc]
  exact answer_defer_core hc _

/-- The lines of the issuer's address space and world that meet a range (R290). -/
def Ctx.meets (k : Ctx) (lo n : Nat) (l : Line) : Bool := l.asid == k.asid && l.world == k.world && l.meets lo n

theorem exec_clean (s : State) (a b : Opd) : exec (.clean a b) s = answer
    (match rangeBad (s.ri a).toNat (s.rn b).toNat with
      | some va => trapRes s 0x08 va
      | none => match s.cur with
        | .core _ _ => ((s.defer (.clean (s.ri a).toNat (s.rn b).toNat)).countGst 1).done
        | .thr _ => (s.cleanLines (s.ctx s.cur).dom ((s.ctx s.cur).meets (s.ri a).toNat (s.rn b).toNat)).done) := rfl

theorem exec_clean_thr {s : State} {u : Tid} {a b : Opd} (hu : s.cur = .thr u) (hok : rangeBad (s.ri a).toNat (s.rn b).toNat = none) :
    exec (.clean a b) s
      = answer (s.cleanLines (s.ctx s.cur).dom ((s.ctx s.cur).meets (s.ri a).toNat (s.rn b).toNat)).done := by
  rw [exec_clean, hok]
  dsimp only
  split
  · next c slot hc => cases hu.symm.trans hc
  · rfl

theorem exec_inv (s : State) (a b : Opd) : exec (.inv a b) s = answer
    (match rangeBad (s.ri a).toNat (s.rn b).toNat with
      | some va => trapRes s 0x08 va
      | none => (s.dropLines (s.ctx s.cur).dom ((s.ctx s.cur).meets (s.ri a).toNat (s.rn b).toNat)).done) := rfl

/-- An effect withheld and counted against the interval (R243, R269). -/
theorem answer_defer_counted {s : State} {c : Fin 32} {slot : Fin 8} (hc : s.cur = .core c slot) (e : Eff) :
    answer ((s.defer e).countGst 1).done = .next ((s.withEff e).modCore c fun x => { x with gst := x.gst + 1 }) := by
  rw [State.countGst_core (s := s.defer e) hc]
  exact answer_done_core hc rfl

/-- Settles O42, op by op. -/
theorem fencesTagsAndInvalidation : Obligations.FencesTagsAndInvalidation := by
  unfold Obligations.FencesTagsAndInvalidation
  intro s sc ord d o a b x16 k lo len wide meet gran
  refine ⟨fun va hva => ?_, fun hok => ?_, fun f hf => ?_, fun ps t hok => ⟨fun l r x hx hsec hw hl => ?_, fun hall => ?_⟩, fun f hf => ?_,
    fun hp => ?_, fun c slot hc => ?_, fun u hu => ?_⟩
  · rw [exec_clean, exec_inv, hva]
    exact ⟨rfl, rfl⟩
  · rw [exec_inv, hok] <;> rfl
  · rw [Traps, exec_tgld, hf] <;> rfl
  · have hfind : ((tagBytes x16 ps).find? fun x => t.secure x.pa && !(s.ctx s.cur).world) = some x := by
      have hnone : (l.find? fun x => t.secure x.pa && !(s.ctx s.cur).world) = none := List.find?_eq_none.2 fun y hy => by simp [hl y hy]
      have hpos : (t.secure x.pa && !(s.ctx s.cur).world) = true := by rw [hsec, show (s.ctx s.cur).world = false from hw] <;> rfl
      have hcons : ((x :: r).find? fun x => t.secure x.pa && !(s.ctx s.cur).world) = some x := List.find?_cons_of_pos hpos
      rw [hx, List.find?_append, hnone, hcons] <;> rfl
    rw [exec_tgld, hok]
    dsimp only
    rw [hfind] <;> rfl
  · have hfind : ((tagBytes x16 ps).find? fun x => t.secure x.pa && !(s.ctx s.cur).world) = none := List.find?_eq_none.2 fun y hy => by
      cases hs : t.secure y.pa
      · simp
      · simp [show (s.ctx s.cur).world = true from hall y hy hs]
    rw [exec_tgld, hok]
    dsimp only
    rw [hfind]
    exact answer_memResult ..
  · rw [Traps, exec_tgst, hf] <;> rfl
  · rw [exec_tlbinvVa, exec_tlbinvAsid, exec_tlbinvAll]
    exact ⟨tlbinv_refused hp, tlbinv_refused hp, tlbinv_refused hp⟩
  · refine ⟨exec_fence_core hc sc ord, exec_drain_core hc sc, fun hok => ?_, fun ps t hok => ?_, fun hp hpair => ?_⟩
    · rw [exec_clean, hok, hc]
      exact answer_defer_counted hc _
    · have hct : t.cur = .core c slot := (State.access_cur hok).trans hc
      rw [exec_tgst, hok]
      dsimp only
      rw [hct]
      exact answer_defer_counted hct _
    · rw [exec_tlbinvVa, exec_tlbinvAsid, exec_tlbinvAll]
      exact ⟨tlbinv_core hc hp hpair, tlbinv_core hc hp hpair, tlbinv_core hc hp hpair⟩
  · intro dom back after
    have hdom : (s.ctx s.cur).dom = dom := by rw [hu] <;> rfl
    have hback : s.releaseAt dom sc = back := releaseAt_eq ..
    refine ⟨?_, ?_, fun hok => ?_, fun ps t hok => ?_, fun hp => ?_⟩
    · rw [exec_fence_thr hu]
      have hafter : ∀ t : State, (if isAcq ord then t.acquireAt dom sc else t) = after t := fun t => by
        simp only [after, wide, acquireAt_eq, ite_of_iff (isAcq_iff ord)]
        by_cases ha : ord = .acq ∨ ord = .ar
        · simp only [ha, if_true, and_true]
        · simp only [ha, if_false, and_false]
      have hrel : (if isRel ord then s.releaseAt dom sc else s) = if ord = .rel ∨ ord = .ar then back else s := by
        rw [hback]
        exact ite_of_iff (isRel_iff ord)
      refine (answer_done _).trans ?_
      rw [← hrel, ← hafter]
    · rw [exec_drain_thr hu, hback]
      exact answer_waitAt (by rw [← hback, State.releaseAt_cur, hu]) _
    · rw [exec_clean_thr hu hok, hdom]
      exact answer_done _
    · have hut : t.cur = .thr u := (State.access_cur hok).trans hu
      rw [exec_tgst, hok]
      dsimp only
      rw [hut] <;> rfl
    · rw [exec_tlbinvVa, exec_tlbinvAsid, exec_tlbinvAll]
      exact ⟨tlbinv_thr hu hp, tlbinv_thr hu hp, tlbinv_thr hu hp⟩

end Sys2Proof.Machine
end

