-- ==== Sys2Proof/Proofs/QueueOperations.lean ====
section
/-!
QPUSH, QPOP and QTRY (R245, R295 to R299): O43.
-/
namespace Sys2Proof.Machine

theorem endPush_cur (s : State) : s.endPush.cur = s.cur := by
  unfold State.endPush
  split <;> rfl

theorem opRelease_cur (s : State) (d : Dom) (sc : Scope) (ord : Ord) : (s.opRelease d sc ord).cur = s.cur := by
  unfold State.opRelease
  split
  · exact State.releaseAt_cur ..
  · split
    · exact State.releaseAt_cur ..
    · rfl

theorem queueSem_cur (s : State) (q : Nat) : (s.queueSem q).cur = s.cur := by
  unfold State.queueSem
  split
  · exact (State.signalCore_run _ _ _ (.refl s)).1
  · rfl

/-! ### What a push does to its queue (R296, R298) -/

section
variable {s : State} {q : Nat} {item : List Byte}

theorem push_waiter {t : Tid} {ws : List Tid} (h : (s.queue q).waiters = t :: ws) :
    s.push q item = some ((s.setQueue q { s.queue q with waiters := ws }).handOff q t item) := by
  unfold State.push
  dsimp only
  split
  · next hw =>
    cases h.symm.trans hw
    rfl
  · next hw => cases h.symm.trans hw

variable (h : (s.queue q).waiters = [])
include h

theorem push_room (hlt : (s.queue q).items.length < (s.queue q).cap) :
    s.push q item = some ((s.setQueue q { s.queue q with items := (s.queue q).items ++ [item] }).queueSem q) := by
  unfold State.push
  dsimp only
  split
  · next hw => cases h.symm.trans hw
  · exact if_pos hlt

variable (hle : (s.queue q).cap ≤ (s.queue q).items.length)
include hle

theorem push_full : s.push q item = match (s.queue q).fullp with
    | 0 => some (s.setQueue q (s.queue q).drop)
    | 1 => some ((s.setQueue q { (s.queue q).drop with items := (s.queue q).items.drop 1 ++ [item] }).queueSem q)
    | _ => none := by
  unfold State.push
  dsimp only
  split
  · next hw => cases h.symm.trans hw
  · exact if_neg (Nat.not_lt.2 hle)

theorem push_blocked (hf : 2 ≤ (s.queue q).fullp) : s.push q item = none := by
  rw [push_full h hle]
  split
  · omega
  · omega
  · rfl

end

/-! ### QPUSH -/

/-- The state that QPUSH pushes in: its wait for room over, and after the release that it asks for (R245). -/
def State.pushIn (s : State) (sc : Scope) (ord : Ord) : State := s.endPush.opRelease s.endPush.cur.dom sc ord

theorem pushIn_cur (s : State) (sc : Scope) (ord : Ord) : (s.pushIn sc ord).cur = s.cur := (opRelease_cur ..).trans (endPush_cur s)

/-- QPUSH's refusal: its queue was closed while it waited, or a check fails (R295). -/
def State.pushReason (s : State) (id : Word) : Option Nat := if s.pushClosed (id.toNat % 2 ^ 13) then some 5 else s.queueReason id true

/-- Is a push to a queue of a state a drop: no waiter, and no room (R296)? -/
def State.pushDrops (t : State) (q : Nat) : Bool := (t.queue q).waiters = [] && (t.queue q).cap ≤ (t.queue q).items.length

theorem pushDrops_iff (t : State) (q : Nat) :
    t.pushDrops q = true ↔ (t.queue q).waiters = [] ∧ (t.queue q).cap ≤ (t.queue q).items.length := by
  rw [State.pushDrops, Bool.and_eq_true, decide_eq_true_eq, decide_eq_true_eq]

section
variable {s : State} {sc : Scope} {ord : Ord} {d a : Opd}

theorem exec_qpush (hp : s.pairCur ≠ some 1) : exec (.qpush sc ord d a) s = answer (match s.pushReason (s.ri a) with
    | some r => trapRes s 0x17 (queueTval (s.ri a) r)
    | none =>
      let t := s.pushIn sc ord
      let u := t.queue (s.ri a).toNat
      match t.push (s.ri a).toNat (u.pack (t.pushSource d u.pushBytes)) with
      | some v => (if u.waiters = [] && u.cap ≤ u.items.length then v.emitAt v.cur 0x28 4 false (s.ri a).toNat 0 0 else v).done
      | none => t.waitAt (.push (s.ri a).toNat)) := by
  have h : exec (.qpush sc ord d a) s = execQpush sc ord d a s := rfl
  rw [h, execQpush]
  dsimp only
  rw [if_neg (by rwa [beq_iff_eq])] <;> rfl

section
variable (hp : s.pairCur ≠ some 1) (hr : s.pushReason (s.ri a) = none) {v : State}
  (hv : (s.pushIn sc ord).push (s.ri a).toNat (((s.pushIn sc ord).queue (s.ri a).toNat).pack
    ((s.pushIn sc ord).pushSource d ((s.pushIn sc ord).queue (s.ri a).toNat).pushBytes)) = some v)
include hp hr hv

/-- A push that places its item or hands it over. -/
theorem exec_qpush_kept (hno : ¬ (s.pushIn sc ord).pushDrops (s.ri a).toNat = true) : exec (.qpush sc ord d a) s = .next v.moveOn := by
  rw [exec_qpush hp, hr]
  dsimp only
  rw [hv]
  exact (answer_done _).trans (congrArg (fun t : State => Host.Outcome.next t.moveOn) (if_neg hno))

/-- A push that drops an item, with its record (R313). -/
theorem exec_qpush_drop (hd : (s.pushIn sc ord).pushDrops (s.ri a).toNat = true) (hcur : v.cur = s.cur) :
    exec (.qpush sc ord d a) s = .next (v.emitAt s.cur 0x28 4 false (s.ri a).toNat 0 0).moveOn := by
  rw [exec_qpush hp, hr, ← hcur]
  dsimp only
  rw [hv]
  exact (answer_done _).trans (congrArg (fun t : State => Host.Outcome.next t.moveOn) (if_pos hd))

end

theorem exec_qpush_none (hp : s.pairCur ≠ some 1) (hr : s.pushReason (s.ri a) = none) {t : Tid} (ht : s.cur = .thr t)
    (hv : (s.pushIn sc ord).push (s.ri a).toNat (((s.pushIn sc ord).queue (s.ri a).toNat).pack
      ((s.pushIn sc ord).pushSource d ((s.pushIn sc ord).queue (s.ri a).toNat).pushBytes)) = none) :
    exec (.qpush sc ord d a) s = .next ((s.pushIn sc ord).heldBy t (.push (s.ri a).toNat)) := by
  rw [exec_qpush hp, hr]
  dsimp only
  rw [hv]
  exact answer_waitAt ((pushIn_cur ..).trans ht) _

end

/-! ### QPOP and QTRY -/

/-- The state that QPOP and QTRY pop in: after the release that they ask for (R245). -/
def State.popIn (s : State) (sc : Scope) (ord : Ord) : State := s.opRelease s.cur.dom sc ord

theorem popIn_cur (s : State) (sc : Scope) (ord : Ord) : (s.popIn sc ord).cur = s.cur := opRelease_cur ..

/-- The acquire that a pop asks for (R297). -/
def State.popGot (s : State) (sc : Scope) (ord : Ord) (t : State) : State := if isAcq ord then t.acquireAt s.cur.dom sc else t

section
variable {s : State} {waits : Bool} {sc : Scope} {ord : Ord} {d a b : Opd} (hp : s.pairCur ≠ some 1)
include hp

theorem pop_eq : s.pop waits sc ord d a b = match s.queueReason (s.ri a) false with
    | some r => trapRes s 0x17 (queueTval (s.ri a) r)
    | none =>
      let t := s.popIn sc ord
      let u := t.queue (s.ri a).toNat
      let acq (v : State) : State := if isAcq ord then v.acquireAt t.cur.dom sc else v
      match u.items with
      | i :: rest => ((acq (t.setQueue (s.ri a).toNat { u with items := rest, drops := 0 })).popResult d b (some (u.unpack i))
          (popStatus false rest.length u.drops)).done
      | [] => match t.cur, waits with
        | .thr v, true =>
          (t.setQueue (s.ri a).toNat { u with waiters := u.waiters ++ [v] }).waitAt (.pop (s.ri a).toNat (opdNum d) (opdNum b) (isAcq ord) sc)
        | _, _ => ((acq (t.setQueue (s.ri a).toNat { u with drops := 0 })).popResult d b none (popStatus true 0 u.drops)).done := by
  rw [State.pop, if_neg (by rwa [beq_iff_eq])] <;> rfl

theorem pop_refused {r : Nat} (hr : s.queueReason (s.ri a) false = some r) :
    answer (s.pop waits sc ord d a b) = .next (s.takeTrap s.cur ⟨0x17, BitVec.ofNat 64 ((s.ri a).toNat % 2 ^ 13 + r * 2 ^ 16)⟩) := by
  rw [pop_eq hp, hr] <;> rfl

variable (hr : s.queueReason (s.ri a) false = none)
include hr

/-- The oldest item delivered with its status (R297). -/
theorem pop_item {i : List Byte} {rest : List (List Byte)} (hi : ((s.popIn sc ord).queue (s.ri a).toNat).items = i :: rest) :
    answer (s.pop waits sc ord d a b) = .next
      (((s.popGot sc ord) ((s.popIn sc ord).setQueue (s.ri a).toNat
        { (s.popIn sc ord).queue (s.ri a).toNat with items := rest, drops := 0 })).popResult d b
          (some (((s.popIn sc ord).queue (s.ri a).toNat).unpack i))
          (popStatus false rest.length ((s.popIn sc ord).queue (s.ri a).toNat).drops)).moveOn := by
  rw [pop_eq hp, hr]
  dsimp only
  split
  · next hw =>
    cases hi.symm.trans hw
    rw [popIn_cur]
    exact answer_done _
  · next hw => cases hi.symm.trans hw

variable (hi : ((s.popIn sc ord).queue (s.ri a).toNat).items = [])
include hi

theorem pop_empty : s.pop waits sc ord d a b = match (s.popIn sc ord).cur, waits with
    | .thr v, true => ((s.popIn sc ord).setQueue (s.ri a).toNat { (s.popIn sc ord).queue (s.ri a).toNat with
          waiters := ((s.popIn sc ord).queue (s.ri a).toNat).waiters ++ [v] }).waitAt
        (.pop (s.ri a).toNat (opdNum d) (opdNum b) (isAcq ord) sc)
    | _, _ => ((s.popGot sc ord ((s.popIn sc ord).setQueue (s.ri a).toNat { (s.popIn sc ord).queue (s.ri a).toNat with drops := 0 })).popResult
        d b none (popStatus true 0 ((s.popIn sc ord).queue (s.ri a).toNat).drops)).done := by
  rw [pop_eq hp, hr]
  dsimp only
  split
  · next hw => cases hi.symm.trans hw
  · rw [State.popGot, popIn_cur]

/-- QTRY of an empty queue, and a core's QPOP: status 1 (R297). -/
theorem pop_empty_done (hdone : (∃ c slot, s.cur = .core c slot) ∨ waits = false) : answer (s.pop waits sc ord d a b) = .next
    ((s.popGot sc ord ((s.popIn sc ord).setQueue (s.ri a).toNat { (s.popIn sc ord).queue (s.ri a).toNat with drops := 0 })).popResult
      d b none (popStatus true 0 ((s.popIn sc ord).queue (s.ri a).toNat).drops)).moveOn := by
  rw [pop_empty hp hr hi, popIn_cur]
  split
  · next v hv =>
    rcases hdone with ⟨c, slot, hc⟩ | h
    · cases hc.symm.trans hv
    · cases h
  · exact answer_done _

/-- A thread's QPOP of an empty queue joins its waiters (R298). -/
theorem pop_empty_waits {v : Tid} (hv : s.cur = .thr v) : answer (s.pop true sc ord d a b) = .next
    (((s.popIn sc ord).setQueue (s.ri a).toNat { (s.popIn sc ord).queue (s.ri a).toNat with
        waiters := ((s.popIn sc ord).queue (s.ri a).toNat).waiters ++ [v] }).heldBy v
      (.pop (s.ri a).toNat (opdNum d) (opdNum b) (isAcq ord) sc)) := by
  rw [pop_empty hp hr hi, popIn_cur, hv]
  exact answer_waitAt (t := State.setQueue _ _ _) ((popIn_cur ..).trans hv) _

end

/-- A queue closed while a core waited for room in it (R295). -/
theorem pushClosed_iff (s : State) (q : Nat) : s.pushClosed q = true ↔ match s.cur with
    | .core c _ => (s.core c).pushOn = some (q, true)
    | .thr _ => False := by
  unfold State.pushClosed
  cases s.cur with
  | core c k => exact beq_iff_eq
  | thr u => exact Bool.false_eq_true.to_iff

/-- Settles O43: QPUSH by its refusal, the waiter and the room; QPOP and QTRY by the oldest item. -/
theorem queueOps : Obligations.QueueOps := by
  unfold Obligations.QueueOps
  intro s sc ord d a b hp id q e rel before was got shut
  have hshut : s.pushClosed (q % 2 ^ 13) = true ↔ shut := pushClosed_iff s _
  have hbefore : s.pushIn sc ord = before := rfl
  have hbcur : before.cur = s.cur := pushIn_cur s sc ord
  have hwas : s.popIn sc ord = was := rfl
  have hwcur : was.cur = s.cur := popIn_cur s sc ord
  have hreason : ¬ shut → s.queueReason id true = none → s.pushReason id = none := fun h hr => by
    rw [State.pushReason, if_neg (mt hshut.1 h), hr]
  refine ⟨fun h => ?_, fun r h hr => ?_, fun r hr => ?_, fun h hr => ?_, fun w ws h hr => ?_, fun hr i rest => ?_, fun hr => ?_⟩
  · rw [exec_qpush hp, State.pushReason, if_pos (hshut.2 h)] <;> rfl
  · rw [exec_qpush hp, State.pushReason, if_neg (mt hshut.1 h), hr] <;> rfl
  · exact ⟨pop_refused hp hr, pop_refused hp hr⟩
  · intro u hw item drop
    refine ⟨fun hlt => ?_, fun hle hf => ?_, fun hle hf => ?_, fun t ht hle hf => ?_⟩
    · have hroom : ¬ before.pushDrops q = true := fun hd => Nat.not_lt.2 ((pushDrops_iff _ _).1 hd).2 hlt
      exact exec_qpush_kept hp (hreason h hr) (push_room hw hlt) hroom
    · have hpush : before.push q item = some (before.setQueue q drop) := by rw [push_full hw hle, hf] <;> rfl
      exact exec_qpush_drop hp (hreason h hr) hpush ((pushDrops_iff before q).2 ⟨hw, hle⟩) hbcur
    · have hpush : before.push q item = some ((before.setQueue q { drop with items := u.items.drop 1 ++ [item] }).queueSem q) := by
        rw [push_full hw hle, hf] <;> rfl
      exact exec_qpush_drop hp (hreason h hr) hpush ((pushDrops_iff before q).2 ⟨hw, hle⟩) ((queueSem_cur ..).trans hbcur)
    · exact exec_qpush_none hp (hreason h hr) ht (push_blocked hw hle hf)
  · intro u hw
    have hno : ¬ before.pushDrops q = true := fun hd => List.cons_ne_nil _ _ (hw.symm.trans ((pushDrops_iff _ _).1 hd).1)
    exact exec_qpush_kept hp (hreason h hr) (push_waiter hw) hno
  · intro u hi t
    have hstatus : popStatus false rest.length u.drops = BitVec.ofNat 64 (min rest.length 65535 * 2 ^ 16 + min u.drops (2 ^ 32 - 1) * 2 ^ 32) := by
      rw [popStatus, if_neg Bool.false_ne_true, Nat.zero_add]
    have hpop : ∀ waits, answer (s.pop waits sc ord d a b) = .next t.moveOn := fun waits => by
      rw [pop_item hp hr hi]
      exact congrArg (fun v => Host.Outcome.next (State.moveOn (State.popResult _ d b _ v))) hstatus
    exact ⟨hpop true, hpop false⟩
  · intro u hi t
    have hstatus : popStatus true 0 u.drops = BitVec.ofNat 64 (1 + min u.drops (2 ^ 32 - 1) * 2 ^ 32) := rfl
    exact ⟨pop_empty_done hp hr hi (.inr rfl), fun c slot hc => pop_empty_done hp hr hi (.inl ⟨c, slot, hc⟩),
      fun v hv => pop_empty_waits hp hr hi hv⟩

end Sys2Proof.Machine
end

