-- ==== Sys2Proof/Proofs/TrapEntry.lean ====
section
/-!
The entry of a trap (R418, R420): what a thread's entry into its handler, and a core's rollback with its cause, leave as it was (O37).
-/

namespace Sys2Proof.Machine

/-- A unit's fields beside its groups leave every group. -/
theorem State.group_modUnit_of_groups (s : State) (u : Nat) {f : VUnit → VUnit} (h : (f (s.unit u)).groups = (s.unit u).groups) (v g : Nat) :
    (s.modUnit u f).group v g = s.group v g := by
  rw [State.group, State.group, State.unit_modUnit]
  by_cases hu : u = v
  · rw [if_pos hu, h, hu]
  · rw [if_neg hu]

/-- What the records and landings around a thread's trap keep: all of the thread but its results in flight and the records it holds, every
other thread, the handler of its group, and how its unit is stopped. -/
structure EntryKeeps (u : Tid) (s t : State) : Prop where
  own : ∃ b l n, t.thread u = { s.thread u with busy := b, trec := l, heldSince := n }
  others : ∀ v, v ≠ u → t.thread v = s.thread v
  handler : (t.group u.unit u.group).thandler = (s.group u.unit u.group).thandler
  tstop : (t.eng (.unit u.unit)).tstop = (s.eng (.unit u.unit)).tstop
  stepping : (t.eng (.unit u.unit)).stepping = (s.eng (.unit u.unit)).stepping

section
variable {u : Tid} {s t r : State}

theorem EntryKeeps.trans (h : EntryKeeps u s t) (h' : EntryKeeps u t r) : EntryKeeps u s r where
  own := by
    obtain ⟨b, l, n, e⟩ := h.own
    obtain ⟨b', l', n', e'⟩ := h'.own
    exact ⟨b', l', n', by rw [e', e]⟩
  others := fun v hv => (h'.others v hv).trans (h.others v hv)
  handler := h'.handler.trans h.handler
  tstop := h'.tstop.trans h.tstop
  stepping := h'.stepping.trans h.stepping

theorem EntryKeeps.of_units (h : t.units = s.units) : EntryKeeps u s t := by
  have hg : ∀ v g, t.group v g = s.group v g := fun v g => by rw [State.group, State.group, State.unit_of_units h]
  have ht : ∀ v, t.thread v = s.thread v := fun v => by rw [State.thread, State.thread, hg]
  have he : t.eng (.unit u.unit) = s.eng (.unit u.unit) := congrArg VUnit.eng (State.unit_of_units h _)
  exact ⟨⟨_, _, _, ht u⟩, fun v _ => ht v, by rw [hg], by rw [he], by rw [he]⟩

theorem EntryKeeps.modUnit {f : VUnit → VUnit} (hg : ∀ v, (f v).groups = v.groups) (ht : ∀ v, (f v).eng.tstop = v.eng.tstop)
    (hs : ∀ v, (f v).eng.stepping = v.eng.stepping) (w : Nat) : EntryKeeps u s (s.modUnit w f) := by
  have hgr : ∀ v g, (s.modUnit w f).group v g = s.group v g := s.group_modUnit_of_groups w (hg _)
  have hth : ∀ v, (s.modUnit w f).thread v = s.thread v := fun v => by rw [State.thread, State.thread, hgr]
  have he : (s.modUnit w f).eng (.unit u.unit) = (if w = u.unit then f (s.unit w) else s.unit u.unit).eng :=
    congrArg VUnit.eng (State.unit_modUnit ..)
  refine ⟨⟨_, _, _, hth u⟩, fun v _ => hth v, by rw [hgr], ?_, ?_⟩
  · rw [he]; split
    · next h => rw [ht, h] <;> rfl
    · rfl
  · rw [he]; split
    · next h => rw [hs, h] <;> rfl
    · rfl

theorem EntryKeeps.modThread {f : Thread → Thread} (h : ∃ b l n, f (s.thread u) = { s.thread u with busy := b, trec := l, heldSince := n }) :
    EntryKeeps u s (s.modThread u f) where
  own := by rw [State.thread_modThread_same]; exact h
  others := fun v hv => State.thread_modThread_ne s f hv
  handler := by
    rw [State.modThread, State.group_setThread, if_pos ⟨rfl, rfl⟩]
  tstop := congrArg Eng.tstop (State.unit_setThread s u _ _).1
  stepping := congrArg Eng.stepping (State.unit_setThread s u _ _).1

theorem EntryKeeps.takeImages (l : List (Nat × List Byte)) : EntryKeeps u s (l.foldl (fun s e => s.takeImage u e.1 e.2) s) := by
  induction l generalizing s with
  | nil => exact .of_units rfl
  | cons e l ih =>
    have h : s.takeImage u e.1 e.2 = s.modUnit u.unit fun v => { v with eng := { v.eng with
        luts := minsert (merase v.eng.luts e.1) e.1 { owner := some (.group u.group), data := e.2 } } } := rfl
    refine EntryKeeps.trans (t := s.takeImage u e.1 e.2) ?_ ih
    rw [h]
    exact .modUnit (f := fun v => { v with eng := { v.eng with luts := minsert (merase v.eng.luts e.1) e.1 ⟨some (.group u.group), e.2⟩ } })
      (fun _ => rfl) (fun _ => rfl) (fun _ => rfl) u.unit

theorem State.landAllBusy_keeps (u : Tid) (s : State) : EntryKeeps u s (s.landAllBusy u) :=
  (EntryKeeps.takeImages _).trans (.modThread ⟨_, _, _, rfl⟩)

theorem State.emitAt_keeps (u : Tid) (s : State) (evt cls : Nat) (full : Bool) (arg flow role : Nat) :
    EntryKeeps u s (s.emitAt (.thr u) evt cls full arg flow role) := by
  unfold State.emitAt
  dsimp only
  split
  · exact .of_units rfl
  · obtain ⟨t, ht, e | ⟨c, k, l, e, -⟩ | ⟨v, l, n, q, hv, e⟩⟩ := State.emit_cases s _ (some (.thr u))
    · rw [e]; exact .of_units ht.2.1
    · cases e
    · cases hv
      rw [e]
      refine ((EntryKeeps.of_units ht.2.1).trans (.modThread (f := fun x => { x with trec := l, heldSince := n }) ⟨_, _, _, rfl⟩)).trans ?_
      exact .modUnit (f := fun v => { v with traceq := q }) (fun _ => rfl) (fun _ => rfl) (fun _ => rfl) _

theorem State.consumed_same (s : State) (a : Agent) (cause : Nat) (tval : Word) : SameEngines s (s.consumed a cause tval) := by
  unfold State.consumed
  split
  · exact State.errorLog_same _ _ _ _ _ _ _ _ (.refl s)
  · exact .refl s

/-- The state a thread's trap enters its handler from. -/
def State.atTrap (s : State) (u : Tid) (cause : Nat) (tval : Word) : State := ((s.wake u).consumed (.thr u) cause tval).landAllBusy u

theorem State.atTrap_keeps (h : (s.thread u).wait = .none) (cause : Nat) (tval : Word) : EntryKeeps u s (s.atTrap u cause tval) := by
  have hw : s.wake u = s := if_pos h
  rw [State.atTrap, hw]
  exact (EntryKeeps.of_units (State.consumed_same s (.thr u) cause tval).2.1).trans (State.landAllBusy_keeps u _)

/-- The thread that a trap leaves in its handler (R420, R421). -/
def Thread.enters (x y : Thread) (thandler : Word) (t cause : Nat) (tval : Word) : Thread :=
  { y with tcause := BitVec.ofNat 8 cause,
           tpc := if cause == 0x30 || cause == 0x31 || cause == 0x32 then x.pc + 8 else x.pc,
           tval := tval, pc := thandler, tmask := laneBit t, inHandler := true }

/-- A trap of a thread that is in no handler, whose group has one and whose unit is neither stopped by traps nor stepped (R420). -/
theorem State.threadTrap_enters (cause : Nat) (tval : Word) (hstop : ((s.atTrap u cause tval).eng (.unit u.unit)).tstop = false)
    (hstep : ((s.atTrap u cause tval).eng (.unit u.unit)).stepping = false) (hin : ((s.atTrap u cause tval).thread u).inHandler = false)
    (hh : ((s.atTrap u cause tval).group u.unit u.group).thandler ≠ 0) :
    let a := s.atTrap u cause tval
    s.threadTrap u cause tval = ((a.emitAt (.thr u) 0x12 1 false cause 0 0).modThread u fun y =>
        (a.thread u).enters y (a.group u.unit u.group).thandler u.thread cause tval).modUnit u.unit fun v =>
      { v with trapped := v.trapped ++ [((a.thread u).pc, u.group, u.thread)] } := by
  have hc : ¬ (((s.atTrap u cause tval).thread u).inHandler || decide (((s.atTrap u cause tval).group u.unit u.group).thandler = 0)) = true := by
    rw [hin, decide_eq_false hh]; exact Bool.false_ne_true
  have h : s.threadTrap u cause tval = if ((s.atTrap u cause tval).eng (.unit u.unit)).tstop then _ else
      if ((s.atTrap u cause tval).thread u).inHandler || decide (((s.atTrap u cause tval).group u.unit u.group).thandler = 0) then _ else
      if ((s.atTrap u cause tval).eng (.unit u.unit)).stepping then _ else _ := rfl
  rw [h, if_neg (hstop ▸ Bool.false_ne_true), if_neg hc, if_neg (hstep ▸ Bool.false_ne_true)] <;> rfl

end

/-! ### A core's trap -/

section
variable {s t : State} {c : Fin 32}

/-- All of a core but the trace records it holds, and every other core. -/
def CoreKeeps (c : Fin 32) (s t : State) : Prop := (∃ l, t.core c = { s.core c with trec := l })
  ∧ ∀ j : Nat, j ≠ c.val → t.core j = s.core j

theorem State.emitAt_core_keeps (s : State) (c : Fin 32) (k : Fin 8) (evt cls : Nat) (full : Bool) (arg flow role : Nat) :
    CoreKeeps c s (s.emitAt (.core c k) evt cls full arg flow role) := by
  have hsame : ∀ {t : State}, t.cores = s.cores → CoreKeeps c s t := fun h =>
    ⟨⟨_, State.core_of_cores h _⟩, fun j _ => State.core_of_cores h j⟩
  unfold State.emitAt
  dsimp only
  split
  · exact hsame rfl
  · obtain ⟨t, ht, e | ⟨d, k', l, hd, e⟩ | ⟨v, l, n, q, hv, e⟩⟩ := State.emit_cases s _ (some (.core c k))
    · rw [e]; exact hsame ht.1
    · cases hd
      refine ⟨⟨l, ?_⟩, fun j hj => ?_⟩
      · rw [State.core_of_cores e.1, State.core_modCore, if_pos rfl, State.core_of_cores ht.1]
      · rw [State.core_of_cores e.1, State.core_modCore, if_neg (Ne.symm hj), State.core_of_cores ht.1]
    · cases hv

theorem State.writeSector_beadle (s : State) (world : Bool) (k : Nat) (cells : List Host.Cell) :
    (s.writeSector world k cells).beadle = s.beadle := by
  rw [State.writeSector_eq]
  split <;> rfl

theorem State.writeSectors_beadle (s : State) (world : Bool) (cells : List Host.Cell) : (s.writeSectors world cells).beadle = s.beadle := by
  have h : ∀ (l : List Nat) (s : State),
      (l.foldl (fun s k => s.writeSector world k (cells.filter fun c => c.1 / 64 == k)) s).beadle = s.beadle := fun l => by
    induction l with
    | nil => exact fun _ => rfl
    | cons k l ih => exact fun s => (ih _).trans (State.writeSector_beadle ..)
  exact h _ s

theorem State.errorLog_beadle (s : State) (sec : Bool) (src kind cause part jobid addr info : Nat) :
    (s.errorLog sec src kind cause part jobid addr info).beadle = s.beadle := by
  have hr : ∀ (t : State) (r : Reeve), t.beadle = s.beadle → { t with reeve := r }.beadle = s.beadle := fun _ _ h => h
  unfold State.errorLog
  dsimp only
  by_cases hz : s.cfg 0x50 4 = 0
  · rw [if_pos hz]
  · rw [if_neg hz]
    exact hr _ _ ((State.writeSectors_beadle ..).trans (State.writeSectors_beadle ..))

theorem State.consumed_beadle (s : State) (a : Agent) (cause : Nat) (tval : Word) : (s.consumed a cause tval).beadle = s.beadle := by
  unfold State.consumed
  split
  · exact State.errorLog_beadle ..
  · rfl

theorem State.gangOf_congr (hc : t.cores = s.cores) (hb : t.beadle = s.beadle) (c : Nat) : t.gangOf c = s.gangOf c := by
  have hj : ∀ j, (t.core j).job = (s.core j).job := fun j => by rw [State.core_of_cores hc]
  have hs : ∀ n, t.cardOf n = s.cardOf n := fun n => by rw [State.cardOf, State.cardOf, State.slot, State.slot, hb]
  unfold State.gangOf
  simp only [hj, hs]

/-- One change, that made twice is made once, of the cores of a list. -/
theorem State.core_foldl_modCore {f : Core → Core} (hf : ∀ x, f (f x) = f x) (l : List Nat) (s : State) (q : Nat) :
    (l.foldl (fun s j => s.modCore j f) s).core q = if q ∈ l then f (s.core q) else s.core q := by
  induction l generalizing s with
  | nil => rfl
  | cons j l ih =>
    rw [List.foldl_cons, ih, State.core_modCore]
    by_cases hj : j = q
    · subst hj
      simp [hf]
    · simp [hj, Ne.symm hj]

/-- A core's trap registers written (R418). -/
def Core.trapped (cause : Nat) (tval tpc : Word) (x : Core) : Core := { x with tcause := BitVec.ofNat 8 cause, tval := tval, tpc := tpc }

/-- The cores that take a trap of a core: itself, of a redundant pair both (R441). -/
theorem State.trapRegs_eq (s : State) (c cause : Nat) (tval tpc : Word) : ∃ l : List Nat, c ∈ l ∧
    s.trapRegs c cause tval tpc = l.foldl (fun s j => s.modCore j (Core.trapped cause tval tpc)) s := by
  have h : s.trapRegs c cause tval tpc = (match s.pairPos c with
    | some p => [c - p, c - p + 1]
    | none => [c]).foldl (fun s j => s.modCore j (Core.trapped cause tval tpc)) s := rfl
  refine ⟨_, ?_, h⟩
  split
  · next p hp =>
    have hmod : p = c % 2 := by
      unfold State.pairPos at hp
      split at hp
      · cases hp
      · split at hp
        · exact (Option.some.inj hp).symm
        · cases hp
    simp only [List.mem_cons, List.not_mem_nil, or_false]
    omega
  · exact List.mem_singleton_self c

/-- The trap registers of a core written: no other core's registers or scratchpad change. -/
theorem State.core_trapRegs (s : State) (c cause : Nat) (tval tpc : Word) :
    (s.trapRegs c cause tval tpc).core c = (s.core c).trapped cause tval tpc ∧ ∀ j : Nat,
      ((s.trapRegs c cause tval tpc).core j).arch = (s.core j).arch ∧ ((s.trapRegs c cause tval tpc).core j).scratch = (s.core j).scratch := by
  obtain ⟨l, hc, h⟩ := s.trapRegs_eq c cause tval tpc
  have hf : ∀ x, Core.trapped cause tval tpc (Core.trapped cause tval tpc x) = Core.trapped cause tval tpc x := fun _ => rfl
  rw [h]
  refine ⟨by rw [State.core_foldl_modCore hf, if_pos hc], fun j => ?_⟩
  rw [State.core_foldl_modCore hf]
  split <;> exact ⟨rfl, rfl⟩

/-- A trap of a core alone whose cause resumes it: rolled back, with its trap registers written (R415, R418). -/
theorem State.coreTrap_resume {cause : Nat} (hg : s.gangOf c = [c.val]) (hstep : (s.core c).eng.stepping = false)
    (hstop : (s.core c).eng.tstop = false) (hd : disposition cause = .resume) (tval tpc : Word) :
    s.coreTrap c cause tval tpc = ((s.consumed (.core (fin 32 c) 0) cause tval).rollbackRec c cause).trapRegs c cause tval tpc := by
  have hsame := s.consumed_same (.core (fin 32 c) 0) cause tval
  have hgang := (State.gangOf_congr hsame.1 (s.consumed_beadle ..) c).trans hg
  have hroll : (s.consumed (.core (fin 32 c) 0) cause tval).rollback c cause = (s.consumed (.core (fin 32 c) 0) cause tval).rollbackRec c cause := by
    rw [State.rollback, hgang]
    rfl
  unfold State.coreTrap
  simp only [hstep, hstop, hd, hroll, Bool.false_eq_true, if_false]

/-- A core alone rolled back with its ROLLBACK record (R415). -/
theorem State.rollbackRec_core (s : State) (c : Fin 32) (cause : Nat) : ∃ l,
    (s.rollbackRec c cause).core c = Core.rollback { s.core c with trec := l }
      ∧ ∀ j : Nat, j ≠ c.val → (s.rollbackRec c cause).core j = s.core j := by
  obtain ⟨⟨l, hl⟩, hne⟩ := s.emitAt_core_keeps c 0 0x11 1 false cause 0 0
  have hr : ∀ j, (s.rollbackRec c cause).core j =
      ((s.emitAt (.core c 0) 0x11 1 false cause 0 0).modCore c Core.rollback).core j := fun j => by
    rw [State.rollbackRec, fin_val]; rfl
  refine ⟨l, by rw [hr, State.core_modCore, if_pos rfl, hl], fun j hj => ?_⟩
  rw [hr, State.core_modCore, if_neg (Ne.symm hj), hne j hj]

theorem State.coreTrapEnd_run (h : SameEngines s t) (c cause : Nat) (tval tpc : Word) :
    SameRun s ((t.rollbackRec c cause).trapRegs c cause tval tpc) := by
  obtain ⟨l, -, e⟩ := (t.rollbackRec c cause).trapRegs_eq c cause tval tpc
  have he : SameRun s (t.emitAt (.core (fin 32 c) 0) 0x11 1 false cause 0 0) := State.emitAt_run _ _ _ _ _ _ _ ((SameRun.refl s).of_engines h)
  have hr : SameRun s (t.rollbackRec c cause) := State.modCore_run c Core.rollback he
  rw [e]
  exact foldl_run _ _ (fun _ j hs => State.modCore_run j _ hs) hr

end

/-- Settles O37: a thread's trap keeps what the records and landings before it keep; a core's is one rollback and its registers. -/
theorem trapEntry : Obligations.TrapEntry := by
  unfold Obligations.TrapEntry
  constructor
  · intro s u cause tval x _ hh hin hw hstop hstep t y
    have ha := State.atTrap_keeps hw cause tval
    obtain ⟨b, l, n, hx⟩ := ha.own
    obtain ⟨b', l', n', hy⟩ := (ha.trans ((s.atTrap u cause tval).emitAt_keeps u 0x12 1 false cause 0 0)).own
    have hothers := (ha.trans ((s.atTrap u cause tval).emitAt_keeps u 0x12 1 false cause 0 0)).others
    have ht : t = _ := State.threadTrap_enters cause tval (ha.tstop.trans hstop) (ha.stepping.trans hstep) (by rw [hx]; exact hin)
      (by rw [ha.handler]; exact hh)
    have hunit : ∀ (r : State) (q : VUnit → List (Word × Nat × Nat)) (v : Tid),
        (r.modUnit u.unit fun v => { v with trapped := q v }).thread v = r.thread v := fun r q v => by
      rw [State.thread, State.thread, State.group_modUnit_of_groups _ _ rfl]
    have hown : y = x.enters { x with busy := b', trec := l', heldSince := n' } (s.group u.unit u.group).thandler u.thread cause tval := by
      have h : y = ((s.atTrap u cause tval).thread u).enters (((s.atTrap u cause tval).emitAt (.thr u) 0x12 1 false cause 0 0).thread u)
          ((s.atTrap u cause tval).group u.unit u.group).thandler u.thread cause tval := by
        rw [show y = t.thread u from rfl, ht, hunit, State.thread_modThread_same]
      rw [h, hy, ha.handler, hx]
      rfl
    rw [hown]
    refine ⟨rfl, rfl, rfl, ?_, rfl, rfl, rfl, rfl, rfl, rfl, rfl, rfl, fun v hv => ?_⟩
    · simp only [Thread.enters, Bool.or_eq_true, beq_iff_eq, or_assoc]
    · have h : t.thread v = s.thread v := by
        rw [ht, hunit, State.thread_modThread_ne _ _ hv, hothers v hv]
      exact ⟨congrArg Thread.pc h, congrArg Thread.x h⟩
  · intro s c k cause tval x hg hp hstep hstop hd hres t y
    let b : State := { s with latch := [], deferred := [] }
    have ht : t = { b.coreTrap c cause tval (x.arch.pc.setWidth 64) with aborted := true } := by
      rw [show t = s.takeTrap (.core c k) ⟨cause, tval⟩ from rfl, State.takeTrap]
      simp only [hd, List.foldl_nil]
      rfl
    rw [State.coreTrap_resume (s := b) hg hstep hstop hres] at ht
    have hsame := b.consumed_same (.core (fin 32 c) 0) cause tval
    have hcore : ∀ j, (b.consumed (.core (fin 32 c) 0) cause tval).core j = s.core j := State.core_of_cores hsame.1
    obtain ⟨l, hroll, hne⟩ := (b.consumed (.core (fin 32 c) 0) cause tval).rollbackRec_core c cause
    obtain ⟨hregs, hrest⟩ := ((b.consumed (.core (fin 32 c) 0) cause tval).rollbackRec c cause).core_trapRegs c cause tval (x.arch.pc.setWidth 64)
    have hown : y = (Core.rollback { x with trec := l }).trapped cause tval (x.arch.pc.setWidth 64) := by
      rw [show y = t.core c from rfl, ht]
      rw [hroll, hcore] at hregs
      exact hregs
    have hlatch : t.latch = [] := by
      rw [ht]
      exact (State.coreTrapEnd_run hsame c cause tval _).2.1
    rw [hown, hlatch]
    refine ⟨rfl, rfl, rfl, rfl, rfl, rfl, rfl, rfl, rfl, rfl, by rw [ht], fun j hj => ?_⟩
    have h := hrest j
    rw [hne j hj, hcore] at h
    rw [ht]
    exact h

end Sys2Proof.Machine
end

