-- ==== Sys2Proof/Proofs/Queries.lean ====
section
/-!
Queries (spec/06_traversal.md R200 to R219): RAYQ, RAYW, RAYAH, HINTINV and the events that end their waits (O46).
-/

namespace Sys2Proof.Machine

/-! ### f32 codes -/

/-- The value of an f32 code by its magnitude code (R92). -/
theorem decode_f32 (c : Nat) : decode .f32 c =
    if c % 2 ^ 31 ≤ 0x7F7FFFFF then (if c % 2 ^ 31 = 0 then .zero (bit c 31) else .fin (signed (bit c 31) (ieeeMag .f32 (c % 2 ^ 31))))
    else if c % 2 ^ 31 = 0x7F800000 then .inf (bit c 31) else .nan (!bit (c % 2 ^ 31) 22) := by
  have hm : c % 2 ^ 32 % 2 ^ 31 = c % 2 ^ 31 := Nat.mod_mod_of_dvd c ⟨2, rfl⟩
  have hs : bit (c % 2 ^ 32) 31 = bit c 31 := by
    unfold bit
    congr 1
    omega
  have h : decode .f32 c = if c % 2 ^ 32 % 2 ^ 31 ≤ 0x7F7FFFFF then
      (if c % 2 ^ 32 % 2 ^ 31 = 0 then .zero (bit (c % 2 ^ 32) 31) else
        .fin (signed (bit (c % 2 ^ 32) 31) (ieeeMag .f32 (c % 2 ^ 32 % 2 ^ 31))))
      else if (c % 2 ^ 32 % 2 ^ 31 == 0x7F800000) = true then .inf (bit (c % 2 ^ 32) 31) else .nan (!bit (c % 2 ^ 32 % 2 ^ 31) 22) := rfl
  simp only [h, hm, hs, beq_iff_eq]

/-- An f32 code is finite exactly where its exponent field is not all ones. -/
theorem f32Fin_iff (c : Nat) : f32Fin c = true ↔ c / 2 ^ 23 % 256 ≠ 255 := by
  rw [f32Fin, decode_f32]
  by_cases h : c % 2 ^ 31 ≤ 0x7F7FFFFF
  · have : c / 2 ^ 23 % 256 ≠ 255 := by omega
    refine iff_of_true ?_ this
    rw [if_pos h]
    by_cases h0 : c % 2 ^ 31 = 0
    · rw [if_pos h0]
    · rw [if_neg h0]
  · have : c / 2 ^ 23 % 256 = 255 := by omega
    refine iff_of_false ?_ (Classical.not_not.2 this)
    rw [if_neg h]
    by_cases h1 : c % 2 ^ 31 = 0x7F800000
    · rw [if_pos h1]; exact Bool.false_ne_true
    · rw [if_neg h1]; exact Bool.false_ne_true

/-- The magnitude of a nonzero f32 code is positive. -/
theorem ieeeMag_f32_pos {m : Nat} (h : m ≠ 0) (hm : m ≤ 0x7F7FFFFF) : 0 < (ieeeMag .f32 m).num := by
  have hpos : 0 < (ieeeMag .f32 m).val := by
    rw [← mag_eq_ieeeMag rfl, ← mag_zero .f32]
    exact mag_lt hm (Nat.pos_of_ne_zero h)
  have hden := ieeeMag_den_pos .f32 m
  have hnonneg := (Frac.val_nonneg_iff hden).1 (Rat.le_of_lt hpos)
  have hne := mt (Frac.num_eq_zero_iff hden).1 (Rat.ne_of_gt hpos)
  omega

/-- A finite f32 code's value is zero exactly where its magnitude code is. -/
theorem f32Real_isZero_iff {c : Nat} (h : f32Fin c = true) : (f32Real c).isZero = true ↔ c % 2 ^ 31 = 0 := by
  have hc : c % 2 ^ 31 ≤ 0x7F7FFFFF := by have := (f32Fin_iff c).1 h; omega
  rw [f32Real, decode_f32, if_pos hc, Frac.isZero, decide_eq_true_iff]
  split
  · next h0 => exact iff_of_true rfl h0
  · next h0 =>
    have := ieeeMag_f32_pos h0 hc
    refine iff_of_false ?_ h0
    cases bit c 31
    · exact Int.ne_of_gt this
    · exact Int.ne_of_lt (Int.neg_neg_of_pos this)

/-- A finite f32 code's value is negative exactly where its sign is set and its magnitude code is not zero. -/
theorem f32Real_isNeg_iff {c : Nat} (h : f32Fin c = true) (hlt : c < 2 ^ 32) : (f32Real c).isNeg = true ↔ 2 ^ 31 < c := by
  have hc : c % 2 ^ 31 ≤ 0x7F7FFFFF := by have := (f32Fin_iff c).1 h; omega
  rw [f32Real, decode_f32, if_pos hc, Frac.isNeg, decide_eq_true_iff]
  split
  · next h0 => exact iff_of_false (Int.lt_irrefl _) (by omega)
  · next h0 =>
    have := ieeeMag_f32_pos h0 hc
    cases hb : bit c 31
    · have hs : ¬ 2 ^ 31 < c := by simp [bit] at hb; omega
      exact iff_of_false (Int.not_lt.2 (Int.le_of_lt this)) hs
    · have hs : 2 ^ 31 < c := by simp [bit] at hb; omega
      exact iff_of_true (Int.neg_neg_of_pos this) hs

/-! ### RAYQ (R200, R201) -/

/-- A running thread changed, and its word past. -/
theorem State.moveOn_modThread {s : State} {u : Tid} (hu : s.cur = .thr u) (f : Thread → Thread) :
    (s.modThread u f).moveOn = s.modThread u fun z => { f z with pc := (f z).pc + 8 } := by
  rw [State.moveOn_thr (s := s.modThread u f) hu, State.thread_modThread_same, State.modThread, State.setThread_setThread]
  rfl

section
variable {s : State} {u : Tid} (hu : s.cur = .thr u)

/-- The query that RAYQ opens: as R200 takes it from the operands, an invalid one with its report (R201). -/
def State.openedQuery (s : State) (u : Tid) (sphere : Bool) (radius : Nat) (q : Fin 64) (h : Opd) (fast nohint opq : Bool) : Query :=
  let x := s.queryAt u sphere radius q.val (s.ri h) fast nohint opq
  { x with report := if x.invalid then some .bad else none }

include hu

theorem rayq_open (hq : (s.thread u).query ≠ none) (sphere : Bool) (radius : Nat) (q h : Opd) (fast nohint opq : Bool) :
    answer (s.rayq sphere radius q h fast nohint opq) = .next (s.takeTrap s.cur ⟨0x18, 1⟩) := by
  have h1 : s.rayq sphere radius q h fast nohint opq = trapRes s 0x18 1 := by
    rw [State.rayq, hu]
    exact if_pos (Option.isSome_iff_ne_none.2 hq)
  rw [h1]
  rfl

theorem rayq_opens (hq : (s.thread u).query = none) (sphere : Bool) (radius : Nat) (q : Fin 64) (h : Opd) (fast nohint opq : Bool) :
    answer (s.rayq sphere radius (.sx q) h fast nohint opq) = .next (s.setThread u { s.thread u with
      query := some (s.openedQuery u sphere radius q h fast nohint opq), pc := (s.thread u).pc + 8 }) := by
  have h1 : s.rayq sphere radius (.sx q) h fast nohint opq =
      (s.modThread u fun y => { y with query := some (s.openedQuery u sphere radius q h fast nohint opq) }).done := by
    rw [State.rayq, hu]
    exact if_neg (by rw [hq]; exact Bool.false_ne_true)
  rw [h1, answer_done, State.moveOn_modThread hu]
  rfl

end

/-- A sphere's radius is invalid where it is no finite number or a negative one (R201). -/
theorem radius_invalid_iff {r : Nat} (hlt : r < 2 ^ 32) :
    (!f32Fin (if r = 2 ^ 31 then 0 else r) || (f32Real (if r = 2 ^ 31 then 0 else r)).isNeg) = true ↔ ¬ f32Fin r = true ∨ 2 ^ 31 < r := by
  by_cases h : r = 2 ^ 31
  · subst h
    decide
  · rw [if_neg h]
    cases hf : f32Fin r
    · simp
    · simp [f32Real_isNeg_iff hf hlt]

/-- A ray's finite direction is invalid where it is zero (R201). -/
theorem direction_invalid_iff {d : Nat × Nat × Nat} (h : finite3 d = true) :
    ([0, 1, 2].all fun a => (f32Real (axisOf d a)).isZero) = true ↔ d.1 % 2 ^ 31 = 0 ∧ d.2.1 % 2 ^ 31 = 0 ∧ d.2.2 % 2 ^ 31 = 0 := by
  obtain ⟨⟨h1, h2⟩, h3⟩ : (f32Fin d.1 = true ∧ f32Fin d.2.1 = true) ∧ f32Fin d.2.2 = true := by simpa [finite3] using h
  simp only [List.all_cons, List.all_nil, Bool.and_true, Bool.and_eq_true]
  exact and_congr (f32Real_isZero_iff h1) (and_congr (f32Real_isZero_iff h2) (f32Real_isZero_iff h3))

/-- A query is invalid exactly where R201 says, of the radius that its operands hold. -/
theorem Query.invalid_iff {y : Query} {r : Nat} (hr : y.radius = if r = 2 ^ 31 then 0 else r) (hlt : r < 2 ^ 32) : y.invalid = true ↔
    ¬ finite3 y.o = true ∨ ¬ finite3 y.d = true ∨ ¬ f32Fin y.tmin = true ∨ ¬ f32Fin y.tmax = true
      ∨ (f32Real y.tmax).lt (f32Real y.tmin) = true
      ∨ (if y.sphere then ¬ f32Fin r = true ∨ 2 ^ 31 < r else y.d.1 % 2 ^ 31 = 0 ∧ y.d.2.1 % 2 ^ 31 = 0 ∧ y.d.2.2 % 2 ^ 31 = 0) := by
  unfold Query.invalid
  rw [hr]
  by_cases hd : finite3 y.d = true
  · cases hs : y.sphere
    · simp only [Bool.or_eq_true, Bool.not_eq_true', direction_invalid_iff hd, Bool.not_eq_true, or_assoc, Bool.false_eq_true, if_false]
    · have h := radius_invalid_iff hlt
      simp only [Bool.or_eq_true, Bool.not_eq_true', Bool.not_eq_true, or_assoc, if_true] at h ⊢
      rw [h]
  · simp only [Bool.or_eq_true, Bool.not_eq_true', Bool.not_eq_true, hd, true_or, or_true]

/-- R201 of the four words that a query's operand registers hold. -/
theorem Query.invalid_words_iff {y : Query} {r : Nat} {w : Nat → Nat} (hr : y.radius = if r = 2 ^ 31 then 0 else r) (hlt : r < 2 ^ 32)
    (ho : y.o = (w 0 % 2 ^ 32, w 0 / 2 ^ 32, w 1 % 2 ^ 32)) (hlo : y.tmin = w 1 / 2 ^ 32)
    (hd : y.d = (w 2 % 2 ^ 32, w 2 / 2 ^ 32, w 3 % 2 ^ 32)) (hhi : y.tmax = w 3 / 2 ^ 32) : y.invalid = true ↔
    ¬ f32Fin (w 0 % 2 ^ 32) = true ∨ ¬ f32Fin (w 0 / 2 ^ 32) = true ∨ ¬ f32Fin (w 1 % 2 ^ 32) = true ∨ ¬ f32Fin (w 1 / 2 ^ 32) = true
      ∨ ¬ f32Fin (w 2 % 2 ^ 32) = true ∨ ¬ f32Fin (w 2 / 2 ^ 32) = true ∨ ¬ f32Fin (w 3 % 2 ^ 32) = true ∨ ¬ f32Fin (w 3 / 2 ^ 32) = true
      ∨ (f32Real (w 3 / 2 ^ 32)).lt (f32Real (w 1 / 2 ^ 32)) = true
      ∨ (if y.sphere then ¬ f32Fin r = true ∨ 2 ^ 31 < r else w 2 % 2 ^ 31 = 0 ∧ w 2 / 2 ^ 32 % 2 ^ 31 = 0 ∧ w 3 % 2 ^ 31 = 0) := by
  have hmod : ∀ n : Nat, n % 2 ^ 32 % 2 ^ 31 = n % 2 ^ 31 := fun n => Nat.mod_mod_of_dvd n ⟨2, rfl⟩
  rw [Query.invalid_iff hr hlt, ho, hlo, hd, hhi]
  simp only [finite3, Bool.and_eq_true, Classical.not_and_iff_not_or_not, or_assoc, hmod]
  grind

/-! ### RAYW and RAYAH (R207, R212) -/

section
variable {s t : State} {u : Tid} {d : Fin 64}

@[simp] theorem State.putX_cur (s : State) (u : Tid) (n : Nat) (v : Word) : (s.putX u n v).cur = s.cur := by
  unfold State.putX
  split <;> rfl

@[simp] theorem State.putReport_cur (s : State) (u : Tid) (d tcode status w1 w2 w3 : Nat) :
    (s.putReport u d tcode status w1 w2 w3).cur = s.cur := by
  rw [State.putReport, State.putX_cur, State.putX_cur, State.putX_cur, State.putX_cur]

variable (hu : s.cur = .thr u)
include hu

theorem rayw_closed (hq : (s.thread u).query = none) :
    exec (.rayw (.sx d)) s = .next (s.putReport u d 0x7F800000 7 0 0 0).moveOn := by
  have h : exec (.rayw (.sx d)) s = answer (match s.cur with
    | .core .. => s.done
    | .thr t => match (s.thread t).query with
      | none => (s.putReport t d 0x7F800000 7 0 0 0).done
      | some q => if q.pending.isNone && q.report.isNone then s.waitAt (.query d)
        else match s.deliverQuery t d q with
          | .ok s => s.done
          | .error f => .error f) := rfl
  rw [h, hu]
  dsimp only
  rw [hq] <;> rfl

theorem rayw_open {y : Query} (hq : (s.thread u).query = some y) : exec (.rayw (.sx d)) s =
    answer (if y.pending.isNone && y.report.isNone then s.waitAt (.query d) else match s.deliverQuery u d y with
      | .ok s => s.done
      | .error f => .error f) := by
  have h : exec (.rayw (.sx d)) s = answer (match s.cur with
    | .core .. => s.done
    | .thr t => match (s.thread t).query with
      | none => (s.putReport t d 0x7F800000 7 0 0 0).done
      | some q => if q.pending.isNone && q.report.isNone then s.waitAt (.query d)
        else match s.deliverQuery t d q with
          | .ok s => s.done
          | .error f => .error f) := rfl
  rw [h, hu]
  dsimp only
  rw [hq]

theorem rayw_waits {y : Query} (hq : (s.thread u).query = some y) (hp : y.pending = none) (hr : y.report = none) :
    exec (.rayw (.sx d)) s = .next (s.heldBy u (.query d)) := by
  rw [rayw_open hu hq, hp, hr]
  exact answer_waitAt hu _

theorem rayw_delivers {y : Query} (hq : (s.thread u).query = some y) (hany : (y.pending.isNone && y.report.isNone) = false)
    (hd : s.deliverQuery u d y = .ok t) : exec (.rayw (.sx d)) s = .next t.moveOn := by
  rw [rayw_open hu hq, if_neg (hany ▸ Bool.false_ne_true), hd]
  rfl

theorem rayw_faults {y : Query} {f : Fail} (hq : (s.thread u).query = some y) (hany : (y.pending.isNone && y.report.isNone) = false)
    (hd : s.deliverQuery u d y = .error f) : exec (.rayw (.sx d)) s = .next (f.st.takeTrap f.st.cur f.trap) := by
  rw [rayw_open hu hq, if_neg (hany ▸ Bool.false_ne_true), hd]
  rfl

theorem resolve_none (hq : (s.thread u).query.bind (·.pending) = none) (accept : Bool) :
    answer (s.resolve accept) = .next (s.takeTrap s.cur ⟨0x18, 2⟩) := by
  have h : s.resolve accept = trapRes s 0x18 2 := by
    rw [State.resolve, hu]
    dsimp only
    rw [hq]
  rw [h]
  rfl

theorem resolve_some {y : Query} {c : Hit} (hq : (s.thread u).query = some y) (hp : y.pending = some c) (accept : Bool) :
    answer (s.resolve accept) = .next (s.setThread u { s.thread u with
      query := some { y with pending := none, accepted := if accept then leastHit y.accepted (some c) else y.accepted },
      pc := (s.thread u).pc + 8 }) := by
  have hb : (s.thread u).query.bind (·.pending) = some c := by rw [hq]; exact hp
  have h : s.resolve accept = (s.modQuery u fun q =>
      { q with pending := none, accepted := if accept then leastHit q.accepted (some c) else q.accepted }).done := by
    rw [State.resolve, hu]
    dsimp only
    rw [hb]
  rw [h, answer_done, State.modQuery, State.moveOn_modThread hu, State.modThread, hq]
  rfl

end

/-! What RAYW delivers of a query with no candidate pending (R207, R208). -/

section
variable {s : State} {u : Tid} {d : Nat} {q : Query}

theorem deliver_pending {c : Hit} (hp : q.pending = some c) : s.deliverQuery u d q = .ok (s.putHit u d 2 c q.count) := by
  rw [State.deliverQuery, hp]

variable (hp : q.pending = none)
include hp

theorem deliver_candidate {c : Hit} (hr : q.report = some (.candidate c)) : s.deliverQuery u d q =
    .ok ((s.putHit u d 2 c (min (q.count + 1) (2 ^ 32 - 1))).modQuery u fun z => { z with
      report := none, pending := some c, delivered := z.delivered ++ [(c.gid, c.pid)], count := min (q.count + 1) (2 ^ 32 - 1) }) := by
  rw [State.deliverQuery, hp, hr]

theorem deliver_hit {c : Hit} (hr : q.report = some (.hit c)) :
    s.deliverQuery u d q = .ok (((s.putHit u d 1 c q.count).fillHint u q c.leaf).closeQuery u q.count) := by
  rw [State.deliverQuery, hp, hr]

theorem deliver_miss (hr : q.report = some .miss) :
    s.deliverQuery u d q = .ok ((s.putReport u d 0x7F800000 0 (2 ^ 64 - 1) 0 q.count).closeQuery u q.count) := by
  rw [State.deliverQuery, hp, hr]
  rfl

theorem deliver_malformed {off : Nat} (hr : q.report = some (.malformed off)) :
    s.deliverQuery u d q = .ok ((s.putReport u d 0x7F800000 3 off 0 q.count).closeQuery u q.count) := by
  rw [State.deliverQuery, hp, hr]
  rfl

theorem deliver_bad (hr : q.report = some .bad) :
    s.deliverQuery u d q = .ok ((s.putReport u d 0x7F800000 5 0 0 0).closeQuery u q.count) := by
  rw [State.deliverQuery, hp, hr]
  rfl

theorem deliver_fault {c va : Nat} (hr : q.report = some (.fault c va)) :
    s.deliverQuery u d q = .error ⟨⟨c, BitVec.ofNat 64 va⟩, s.modQuery u fun z => { z with report := none }⟩ := by
  rw [State.deliverQuery, hp, hr]
  rfl

end

@[simp] theorem State.putX_query (s : State) (u : Tid) (n : Nat) (v : Word) : ((s.putX u n v).thread u).query = (s.thread u).query := by
  unfold State.putX
  split
  · rfl
  · rw [State.thread_modThread_same]

theorem State.putHit_query (s : State) (u : Tid) (d status : Nat) (h : Hit) (count : Nat) :
    ((s.putHit u d status h count).thread u).query = (s.thread u).query := by
  rw [State.putHit, State.putReport, State.putX_query, State.putX_query, State.putX_query, State.putX_query]

/-! ### HINTINV (R218) -/

/-- Hints that meet a test leave a unit. -/
def VUnit.dropHints (p : Hint → Bool) (v : VUnit) : VUnit := { v with hints := v.hints.filter fun h => !p h }

theorem State.unit_foldl_dropHints (p : Hint → Bool) (l : List Nat) (s : State) (v : Nat) :
    (l.foldl (fun s u => s.modUnit u (VUnit.dropHints p)) s).unit v = if v ∈ l then (s.unit v).dropHints p else s.unit v := by
  have hf : ∀ v : VUnit, VUnit.dropHints p (VUnit.dropHints p v) = VUnit.dropHints p v := fun v => by
    simp [VUnit.dropHints, List.filter_filter]
  induction l generalizing s with
  | nil => rfl
  | cons j l ih =>
    rw [List.foldl_cons, ih, State.unit_modUnit]
    by_cases hj : j = v
    · subst hj
      simp [hf]
    · simp [hj, Ne.symm hj]

theorem State.unit_dropHints (s : State) (p : Hint → Bool) {v : Nat} (hv : v < 32) :
    ((s.dropHints p).unit v).hints = (s.unit v).hints.filter fun e => !p e := by
  have h : s.dropHints p = (List.range 32).foldl (fun s u => s.modUnit u (VUnit.dropHints p)) s := rfl
  rw [h, State.unit_foldl_dropHints, if_pos (List.mem_range.2 hv)]
  rfl

theorem State.dropHints_cur (s : State) (p : Hint → Bool) : (s.dropHints p).cur = s.cur :=
  (foldl_run (fun s u => s.modUnit u (VUnit.dropHints p)) (List.range 32) (fun _ u h => State.modUnit_run u _ h) (SameRun.refl s)).1

/-! ### The events that end the waits -/

section
variable {s : State} {u : Tid} {choice : Nat}

theorem not_reported : ¬ ((none : Option Report).isSome || (none : Option Hit).isSome) = true := Bool.false_ne_true

theorem queryReportReady_eq (s : State) (u : Tid) (choice : Nat) : exec (.queryReportReady u choice) s =
    match (s.thread u).query with
    | none => .next s
    | some q => if q.report.isSome || q.pending.isSome then .next s
      else match ((s.reportQuery u q choice).thread u).wait, ((s.reportQuery u q choice).thread u).query with
        | .query d, some y => match (s.reportQuery u q choice).deliverQuery u d y with
          | .ok t => .next (t.wakeDone u)
          | .error f => .next ((f.st.threadTrap u f.trap.cause f.trap.tval).fillTmask u.unit)
        | _, _ => .next (s.reportQuery u q choice) := rfl

variable {z : Query} (hz : (s.thread u).query = some z)
include hz

theorem queryReportReady_reported (h : z.report ≠ none ∨ z.pending ≠ none) : exec (.queryReportReady u choice) s = .next s := by
  rw [queryReportReady_eq, hz]
  exact if_pos (by simpa [Option.isSome_iff_ne_none] using h)

variable (hr : z.report = none) (hp : z.pending = none)
include hr hp

theorem queryReportReady_kept (hw : ∀ n, ((s.reportQuery u z choice).thread u).wait ≠ .query n) :
    exec (.queryReportReady u choice) s = .next (s.reportQuery u z choice) := by
  rw [queryReportReady_eq, hz]
  dsimp only
  rw [hr, hp, if_neg not_reported]
  split
  · next n _ h _ => exact absurd h (hw n)
  · rfl

variable {n : Nat} {y : Query} (hw : ((s.reportQuery u z choice).thread u).wait = .query n)
  (hy : ((s.reportQuery u z choice).thread u).query = some y)
include hw hy

theorem queryReportReady_delivers {t : State} (hd : (s.reportQuery u z choice).deliverQuery u n y = .ok t) :
    exec (.queryReportReady u choice) s = .next (t.wakeDone u) := by
  rw [queryReportReady_eq, hz]
  dsimp only
  rw [hr, hp, if_neg not_reported, hw, hy]
  dsimp only
  rw [hd]

theorem queryReportReady_faults {f : Fail} (hd : (s.reportQuery u z choice).deliverQuery u n y = .error f) :
    exec (.queryReportReady u choice) s = .next ((f.st.threadTrap u f.trap.cause f.trap.tval).fillTmask u.unit) := by
  rw [queryReportReady_eq, hz]
  dsimp only
  rw [hr, hp, if_neg not_reported, hw, hy]
  dsimp only
  rw [hd]

end

theorem rayw_candidate {s : State} {u : Tid} (hu : s.cur = .thr u) {y : Query} {c : Hit} (d : Fin 64) (hy : (s.thread u).query = some y)
    (hp : y.pending = none) (hr : y.report = some (.candidate c)) :
    let n := min (y.count + 1) (2 ^ 32 - 1)
    exec (.rayw (.sx d)) s = .next ((s.putHit u d 2 c n).modThread u fun z => { z with
      query := some { y with report := none, pending := some c, delivered := y.delivered ++ [(c.gid, c.pid)], count := n }, pc := z.pc + 8 }) := by
  intro n
  have hany : (y.pending.isNone && y.report.isNone) = false := by rw [hp, hr] <;> rfl
  have hq : ((s.putHit u d 2 c n).thread u).query = some y := (State.putHit_query ..).trans hy
  rw [rayw_delivers hu hy hany (deliver_candidate hp hr), State.modQuery,
    State.moveOn_modThread (s := s.putHit u d 2 c _) ((State.putReport_cur ..).trans hu)]
  simp only [State.modThread, hq, Option.map_some, n]

/-- Settles O46: RAYQ by the query it opens, RAYW by what it delivers, the events by the waits they end. -/
theorem queriesAndHints : Obligations.QueriesAndHints := by
  unfold Obligations.QueriesAndHints
  intro s u sph fast nohint opq q h r a d hu x reg begin'
  have hopen : ∀ sphere radius, radius < 2 ^ 32 → begin' sphere radius (s.openedQuery u sphere radius q h fast nohint opq) := by
    intro sphere radius hlt
    refine ⟨rfl, rfl, rfl, rfl, rfl, rfl, rfl, rfl, rfl, rfl, rfl, rfl, rfl, rfl, rfl, rfl, rfl, rfl, ?_⟩
    intro wild bad
    have hwild : ∀ c, wild c ↔ ¬ f32Fin c = true := fun c => by rw [f32Fin_iff, Classical.not_not]
    have hbad : (s.queryAt u sphere radius q.val (s.ri h) fast nohint opq).invalid = true ↔ bad := by
      rw [Query.invalid_words_iff (w := reg) rfl hlt rfl rfl rfl rfl]
      simp only [bad, hwild]
      rfl
    have hreport : (s.openedQuery u sphere radius q h fast nohint opq).report =
      if (s.queryAt u sphere radius q.val (s.ri h) fast nohint opq).invalid then some .bad else none := rfl
    exact ⟨fun hb => by rw [hreport, if_pos (hbad.2 hb)], fun hb => by rw [hreport, if_neg (fun e => hb (hbad.1 e))]⟩
  refine ⟨fun hq => ⟨rayq_open hu hq .., rayq_open hu hq ..⟩, fun hq => ⟨⟨_, hopen false 0 (by decide), rayq_opens hu hq ..⟩,
    ⟨_, hopen true _ (Nat.mod_lt _ (by decide)), rayq_opens hu hq ..⟩, rayw_closed hu hq⟩,
    fun hq => ⟨resolve_none hu hq false, resolve_none hu hq true⟩, fun y hy => ?_, ?_, fun v choice => ?_⟩
  · have hany : y.report ≠ none → (y.pending.isNone && y.report.isNone) = false := fun h => by
      rw [Bool.and_eq_false_iff]
      exact .inr (Option.isNone_eq_false_iff.2 (Option.isSome_iff_ne_none.2 h))
    have hdone : ∀ {t : State} {p : Report}, y.report = some p → s.deliverQuery u d y = .ok t → exec (.rayw (.sx d)) s = .next t.moveOn :=
      fun hr hd => rayw_delivers hu hy (hany (hr ▸ Option.some_ne_none _)) hd
    refine ⟨fun c hp => ⟨resolve_some hu hy hp false, resolve_some hu hy hp true, ?_⟩, fun hp hr => rayw_waits hu hy hp hr, fun c hp hr => ?_,
      fun c hp hr => hdone hr (deliver_hit hp hr), fun hp hr => hdone hr (deliver_miss hp hr),
      fun off hp hr => hdone hr (deliver_malformed hp hr), fun hp hr => hdone hr (deliver_bad hp hr), fun c va hp hr => ?_⟩
    · exact rayw_delivers hu hy (by rw [hp] <;> rfl) (deliver_pending hp)
    · exact rayw_candidate hu d hy hp hr
    · rw [rayw_faults hu hy (hany (hr ▸ Option.some_ne_none _)) (deliver_fault hp hr)]
      rfl
  · intro part
    refine ⟨answer_waitAt ((State.dropHints_cur ..).trans hu) _, ?_, fun p v hv => s.unit_dropHints p hv⟩
    have h1 : exec .hintinvAll s = answer ((s.dropHints fun e => e.part == part && true).waitAt .hintinv) := rfl
    rw [h1]
    simp only [Bool.and_true]
    exact answer_waitAt ((State.dropHints_cur ..).trans hu) _
  · intro y
    refine ⟨fun hw => if_pos hw, fun hw => if_neg hw, fun hq => by rw [queryReportReady_eq, hq], fun z hz => ⟨queryReportReady_reported hz, ?_,
      fun hr hp hw => queryReportReady_kept hz hr hp hw⟩⟩
    intro n y hr hp r hw hy now hyp
    refine ⟨fun c h => queryReportReady_delivers hz hr hp hw hy (deliver_candidate hyp h),
      fun c h => queryReportReady_delivers hz hr hp hw hy (deliver_hit hyp h),
      fun h => queryReportReady_delivers hz hr hp hw hy (deliver_miss hyp h),
      fun off h => queryReportReady_delivers hz hr hp hw hy (deliver_malformed hyp h),
      fun h => queryReportReady_delivers hz hr hp hw hy (deliver_bad hyp h),
      fun c va h => ?_⟩
    have hf := queryReportReady_faults hz hr hp hw hy (deliver_fault hyp h)
    exact hf

end Sys2Proof.Machine
end

