-- ==== Sys2Proof/Proofs/Sampling.lean ====
section
/-!
Image sampling and cost maps (spec/06_traversal.md R220 to R225): ISAMP, CMSAMP and CMSEG by what their reads answer (O47).
-/

namespace Sys2Proof.Machine

/-! ### ISAMP (R221) -/

section
variable {s t : State} {d : Opd} {addr uv : Word} {img : List Byte}

theorem isamp_misaligned (h : addr.toNat % 32 ≠ 0) :
    s.isamp d addr uv = (s.putPair d (pair32 0x7FC00000 0x7FC00000) (pair32 0x7FC00000 0x7FC00000)).done := by
  rw [State.isamp, if_pos (bne_iff_ne.2 h)]
  rfl

variable (ha : addr.toNat % 32 = 0)
include ha

theorem isamp_fault {f : Fail} (h : s.sampleLoad (s.ctx s.cur) addr.toNat 32 = .error f) : s.isamp d addr uv = .error f := by
  rw [State.isamp, if_neg (by simp [ha])]
  dsimp only
  rw [h]

variable (h : s.sampleLoad (s.ctx s.cur) addr.toNat 32 = .ok (img, t))
include h

theorem isamp_read : s.isamp d addr uv = if texelMapBad img then (t.putPair d (pair32 0x7FC00000 0x7FC00000) (pair32 0x7FC00000 0x7FC00000)).done
    else if !f32Fin (uv.toNat % 2 ^ 32) || !f32Fin (uv.toNat / 2 ^ 32) then
      (t.putChans d (List.replicate (texelChans (fieldAt img 16 1)) 0x7FC00000)).done
    else match t.texels (s.ctx s.cur) img (sampleTaps (fieldAt img 18 1 == 1) (uv.toNat % 2 ^ 32) (uv.toNat / 2 ^ 32)) with
      | .error f => .error f
      | .ok (l, t2) => (t2.putChans d ((List.range (texelChans (fieldAt img 16 1))).map fun c =>
          blendChan (l.map fun e => (e.1, e.2.getD c (.zero false))))).done := by
  rw [State.isamp, if_neg (by simp [ha])]
  dsimp only
  rw [h] <;> rfl

end

/-! ### Cost maps (R223 to R225) -/

/-- A cost-map op's answer in its pair of registers. -/
def State.putCost (s : State) (d : Opd) (cost n gen : Nat) : State := s.putPair d (pair32 cost n) (BitVec.ofNat 64 gen)

section
variable {s t : State} {d : Opd} {addr : Word} {m : List Byte}

theorem readMap_misaligned {k : Ctx} (h : addr.toNat % 128 ≠ 0) : s.readMap k addr = .ok (none, s) := if_pos (bne_iff_ne.2 h)

theorem readMap_fault {k : Ctx} {f : Fail} (ha : addr.toNat % 128 = 0)
    (h : (s.acquireAt k.dom .device).sampleLoad k addr.toNat 128 = .error f) : s.readMap k addr = .error f := by
  rw [State.readMap, if_neg (by simp [ha]), h]

theorem readMap_bad {k : Ctx} (ha : addr.toNat % 128 = 0) (h : (s.acquireAt k.dom .device).sampleLoad k addr.toNat 128 = .ok (m, t))
    (hb : mapBad m = true) : s.readMap k addr = .ok (none, t) := by
  rw [State.readMap, if_neg (by simp [ha]), h]
  dsimp only
  rw [if_pos hb]

theorem readMap_good {k : Ctx} (ha : addr.toNat % 128 = 0) (h : (s.acquireAt k.dom .device).sampleLoad k addr.toNat 128 = .ok (m, t))
    (hb : mapBad m = false) : s.readMap k addr = .ok (some m, t) := by
  rw [State.readMap, if_neg (by simp [ha]), h]
  dsimp only
  rw [if_neg (hb ▸ Bool.false_ne_true)]

theorem cmsamp_fault {f : Fail} (xy : Word) (h : s.readMap (s.ctx s.cur) addr = .error f) : s.cmsamp d addr xy = .error f := by
  rw [State.cmsamp]
  dsimp only
  rw [h]

theorem cmsamp_none (xy : Word) (h : s.readMap (s.ctx s.cur) addr = .ok (none, t)) : s.cmsamp d addr xy = (t.putCost d 0x7FC00000 2 0).done := by
  rw [State.cmsamp]
  dsimp only
  rw [h] <;> rfl

theorem cmsamp_read (xy : Word) (h : s.readMap (s.ctx s.cur) addr = .ok (some m, t)) : s.cmsamp d addr xy =
    if !f32Fin (xy.toNat % 2 ^ 32) || !f32Fin (xy.toNat / 2 ^ 32) then (t.putCost d 0x7FC00000 2 0).done
    else if !f32Fin (cellPos m (xy.toNat % 2 ^ 32) 32) || !f32Fin (cellPos m (xy.toNat / 2 ^ 32) 36)
        || (f32Real (cellPos m (xy.toNat % 2 ^ 32) 32)).floor < 0 || (f32Real (cellPos m (xy.toNat / 2 ^ 32) 36)).floor < 0
        || (mapWidth m : Int) ≤ (f32Real (cellPos m (xy.toNat % 2 ^ 32) 32)).floor
        || (mapHeight m : Int) ≤ (f32Real (cellPos m (xy.toNat / 2 ^ 32) 36)).floor then
      (t.putCost d (quiet32 (fieldAt m 44 4)) 1 (fieldAt m 64 8)).done
    else match t.cellCost (s.ctx s.cur) m (f32Real (cellPos m (xy.toNat % 2 ^ 32) 32)).floor.toNat
        (f32Real (cellPos m (xy.toNat / 2 ^ 32) 36)).floor.toNat with
      | .error f => .error f
      | .ok (c, t2) => (t2.putCost d c 0 (fieldAt m 64 8)).done := by
  rw [State.cmsamp]
  dsimp only
  rw [h] <;> rfl

theorem cmseg_fault {f : Fail} (p0 p1 : Word) (h : s.readMap (s.ctx s.cur) addr = .error f) : s.cmseg d addr p0 p1 = .error f := by
  rw [State.cmseg]
  dsimp only
  rw [h]

theorem cmseg_none (p0 p1 : Word) (h : s.readMap (s.ctx s.cur) addr = .ok (none, t)) :
    s.cmseg d addr p0 p1 = (t.putCost d 0x7FC00000 0 0).done := by
  rw [State.cmseg]
  dsimp only
  rw [h] <;> rfl

/-- The cells over which CMSEG takes the greatest cost, how many the segment meets, and the cost that stands before them (R224). -/
def segCells (m : List Byte) (x0 y0 x1 y1 : Nat) : (List (Nat × Nat) × Nat) × Option Nat :=
  let infinite := [x0, x1, y0, y1].any fun c => !f32Fin c
  let cells := if infinite then ((List.range (mapWidth m)).flatMap fun i => (List.range (mapHeight m)).map fun j => (i, j), 2 ^ 32 - 1)
    else segmentCells m (f32Real x0) (f32Real y0) (f32Real x1) (f32Real y1)
  (cells, if infinite || cells.1.length < cells.2 then some (quiet32 (fieldAt m 44 4)) else none)

theorem cmseg_read (p0 p1 : Word) (h : s.readMap (s.ctx s.cur) addr = .ok (some m, t)) : s.cmseg d addr p0 p1 =
    if [p0.toNat % 2 ^ 32, p0.toNat / 2 ^ 32, p1.toNat % 2 ^ 32, p1.toNat / 2 ^ 32].any fun c => !f32Fin c then (t.putCost d 0x7FC00000 0 0).done
    else
      let g := segCells m (cellPos m (p0.toNat % 2 ^ 32) 32) (cellPos m (p0.toNat / 2 ^ 32) 36)
        (cellPos m (p1.toNat % 2 ^ 32) 32) (cellPos m (p1.toNat / 2 ^ 32) 36)
      match t.cellsCost (s.ctx s.cur) m g.1.1 g.2 with
      | .error f => .error f
      | .ok (c, t2) => (t2.putCost d (c.getD (quiet32 (fieldAt m 44 4))) g.1.2 (fieldAt m 64 8)).done := by
  rw [State.cmseg]
  dsimp only
  rw [h] <;> rfl

end

theorem getX_lt (s : State) (u : Tid) (n : Nat) : s.getX u n < 2 ^ 64 := by
  unfold State.getX
  split
  · decide
  · exact BitVec.isLt _

theorem exec_cmseg {s : State} {u : Tid} (hu : s.cur = .thr u) (d a : Opd) (p : Fin 64) : exec (.cmseg d a (.sx p)) s =
    answer (s.cmseg d (s.ri a) (BitVec.ofNat 64 (s.getX u p.val)) (BitVec.ofNat 64 (s.getX u (p.val + 1)))) := by
  have h : exec (.cmseg d a (.sx p)) s = answer (match s.cur with
    | .core .. => s.done
    | .thr t => s.cmseg d (s.ri a) (BitVec.ofNat 64 (s.getX t p.val)) (BitVec.ofNat 64 (s.getX t (p.val + 1)))) := rfl
  rw [h, hu]

theorem segCells_finite {m : List Byte} {x0 y0 x1 y1 : Nat} (h : f32Fin x0 = true ∧ f32Fin y0 = true ∧ f32Fin x1 = true ∧ f32Fin y1 = true) :
    let cells := segmentCells m (f32Real x0) (f32Real y0) (f32Real x1) (f32Real y1)
    segCells m x0 y0 x1 y1 = (cells, if cells.1.length < cells.2 then some (quiet32 (fieldAt m 44 4)) else none) := by
  obtain ⟨h1, h2, h3, h4⟩ := h
  simp [segCells, h1, h2, h3, h4]

theorem segCells_infinite {m : List Byte} {x0 y0 x1 y1 : Nat}
    (h : ¬ (f32Fin x0 = true ∧ f32Fin y0 = true ∧ f32Fin x1 = true ∧ f32Fin y1 = true)) : segCells m x0 y0 x1 y1 =
      (((List.range (mapWidth m)).flatMap fun i => (List.range (mapHeight m)).map fun j => (i, j), 2 ^ 32 - 1), some (quiet32 (fieldAt m 44 4))) := by
  have hinf : ([x0, x1, y0, y1].any fun c => !f32Fin c) = true := by
    simp only [List.any_cons, List.any_nil, Bool.or_eq_true, Bool.not_eq_true', Bool.or_false]
    simp only [Bool.not_eq_true, Classical.not_and_iff_not_or_not] at h
    grind
  simp only [segCells, hinf, if_true, Bool.true_or]

/-- Settles O47: each op by the read of its descriptor, then by what the descriptor says of its operands. -/
theorem samplingOps : Obligations.SamplingOps := by
  unfold Obligations.SamplingOps
  intro s u a b e p hu he hp k nan d at' lo hi fin' two none' acq p0 p1
  have hfin : ∀ x y, (!f32Fin x || !f32Fin y) = true ↔ ¬ (fin' x ∧ fin' y) := fun x y => by
    simp only [fin', Bool.or_eq_true, Bool.not_eq_true', Classical.not_and_iff_not_or_not, Bool.not_eq_true]
  have hisamp : exec (.isamp d a b) s = answer (s.isamp d (s.ri a) (s.ri b)) := rfl
  have hcmsamp : exec (.cmsamp d a b) s = answer (s.cmsamp d (s.ri a) (s.ri b)) := rfl
  have hcmseg : exec (.cmseg d a (.sx p)) s = answer (s.cmseg d (s.ri a) (BitVec.ofNat 64 p0) (BitVec.ofNat 64 p1)) := exec_cmseg hu d a p
  have hp0 : (BitVec.ofNat 64 p0).toNat = p0 := Nat.mod_eq_of_lt (getX_lt ..)
  have hp1 : (BitVec.ofNat 64 p1).toNat = p1 := Nat.mod_eq_of_lt (getX_lt ..)
  refine ⟨fun h => by rw [hisamp, isamp_misaligned h] <;> rfl, fun h => ⟨fun f hf => ?_, fun img t ht => ?_⟩, fun h => ⟨?_, ?_⟩,
    fun h => ⟨fun f hf => ⟨?_, ?_⟩, fun m t ht => ?_⟩⟩
  · rw [Traps, hisamp, isamp_fault h hf] <;> rfl
  · intro n
    have hr := isamp_read (d := d) (uv := s.ri b) h ht
    refine ⟨fun hb => ?_, fun hb hn => ?_, fun hb h1 h2 => ⟨fun f hf => ?_, fun l t2 hl => ?_⟩⟩
    · rw [hisamp, hr, if_pos hb] <;> rfl
    · rw [hisamp, hr, if_neg (hb ▸ Bool.false_ne_true), if_pos ((hfin ..).2 hn)] <;> rfl
    · have hno := mt (hfin lo hi).1 (Classical.not_not.2 ⟨h1, h2⟩)
      rw [Traps, hisamp, hr, if_neg (hb ▸ Bool.false_ne_true), if_neg hno, hf] <;> rfl
    · have hno := mt (hfin lo hi).1 (Classical.not_not.2 ⟨h1, h2⟩)
      rw [hisamp, hr, if_neg (hb ▸ Bool.false_ne_true), if_neg hno, hl] <;> rfl
  · rw [hcmsamp, cmsamp_none _ (readMap_misaligned h)] <;> rfl
  · rw [hcmseg, cmseg_none _ _ (readMap_misaligned h)] <;> rfl
  · rw [Traps, hcmsamp, cmsamp_fault _ (readMap_fault h hf)] <;> rfl
  · rw [Traps, hcmseg, cmseg_fault _ _ (readMap_fault h hf)] <;> rfl
  · intro gen outside
    refine ⟨fun hb => ⟨?_, ?_⟩, fun hb => ⟨fun hn => ?_, fun h1 h2 => ?_, ?_⟩⟩
    · rw [hcmsamp, cmsamp_none _ (readMap_bad h ht hb)] <;> rfl
    · rw [hcmseg, cmseg_none _ _ (readMap_bad h ht hb)] <;> rfl
    · rw [hcmsamp, cmsamp_read _ (readMap_good h ht hb), if_pos ((hfin ..).2 hn)] <;> rfl
    · intro x y i j inside
      have hno := mt (hfin lo hi).1 (Classical.not_not.2 ⟨h1, h2⟩)
      have hin : (!f32Fin x || !f32Fin y || decide (i < 0) || decide (j < 0) || decide ((mapWidth m : Int) ≤ i)
          || decide ((mapHeight m : Int) ≤ j)) = true ↔ ¬ inside := by
        simp only [inside, fin', Bool.or_eq_true, Bool.not_eq_true', decide_eq_true_eq, Bool.not_eq_true,
          Classical.not_and_iff_not_or_not, Int.not_le, Int.not_lt, or_assoc]
      have hr := cmsamp_read (d := d) (s.ri b) (readMap_good h ht hb)
      rw [if_neg hno] at hr
      refine ⟨fun hn => ?_, fun hy => ⟨fun f hf => ?_, fun c t2 hc => ?_⟩⟩
      · rw [hcmsamp, hr, if_pos (hin.2 hn)] <;> rfl
      · rw [Traps, hcmsamp, hr, if_neg (mt hin.1 (Classical.not_not.2 hy)), hf] <;> rfl
      · rw [hcmsamp, hr, if_neg (mt hin.1 (Classical.not_not.2 hy)), hc] <;> rfl
    · intro ends
      have hends : (ends.any fun c => !f32Fin c) = true ↔ ∃ c ∈ ends, ¬ fin' c := by
        simp only [List.any_eq_true, Bool.not_eq_true', fin', Bool.not_eq_true]
      have hr := cmseg_read (d := d) (BitVec.ofNat 64 p0) (BitVec.ofNat 64 p1) (readMap_good h ht hb)
      rw [hp0, hp1] at hr
      refine ⟨fun hn => ?_, fun hall => ?_⟩
      · rw [hcmseg, hr, if_pos (hends.2 hn)] <;> rfl
      · rw [if_neg (mt hends.1 (by simpa using hall))] at hr
        refine ⟨fun hf => ?_, fun hf => ?_⟩
        · intro cells first
          rw [segCells_finite hf] at hr
          refine ⟨fun f hc => ?_, fun c t2 hc => ?_⟩
          · rw [Traps, hcmseg, hr]
            dsimp only
            rw [hc] <;> rfl
          · rw [hcmseg, hr]
            dsimp only
            rw [hc] <;> rfl
        · intro all
          rw [segCells_infinite hf] at hr
          refine ⟨fun f hc => ?_, fun c t2 hc => ?_⟩
          · rw [Traps, hcmseg, hr]
            dsimp only
            rw [hc] <;> rfl
          · rw [hcmseg, hr]
            dsimp only
            rw [hc] <;> rfl

end Sys2Proof.Machine
end

