-- ==== Sys2Proof/Proofs/Quiet.lean ====
section
/-!
What a trace record, an error record and a checked access leave alone beside the engines: the queues, Beadle's state, the jobs' slots but for
the pages they note as touched (R328), and Reeve's state but for the places of its error logs (R437).
-/

namespace Sys2Proof.Machine

theorem State.slot_modSlot (s : State) (n q : Nat) (f : Slot → Slot) : (s.modSlot n f).slot q = if n = q then (s.slot n).map f else s.slot q := by
  unfold State.modSlot
  split
  · next z hz => rw [State.slot_setSlot, hz] <;> rfl
  · next hz =>
    split
    · next h => rw [← h, hz] <;> rfl
    · rfl

theorem State.modSlot_beadle (s : State) (n : Nat) (f : Slot → Slot) :
    (s.modSlot n f).beadle = { s.beadle with slots := (s.modSlot n f).beadle.slots } := by
  unfold State.modSlot
  split <;> rfl

/-- A slot without the pages that its job has touched. -/
def Slot.still (z : Slot) : Slot := { z with touched := [] }

/-- Both states have the same engines and the rest of the device but memory, translations, trace buffers and logs. -/
structure Quiet (s t : State) : Prop where
  engines : SameEngines s t
  queues : t.queues = s.queues
  flash : t.flash = s.flash
  defects : t.defects = s.defects
  reeve : ∃ a b, t.reeve = { s.reeve with elogS := a, elogN := b }
  beadle : t.beadle = { s.beadle with slots := t.beadle.slots }
  slots : ∀ n, (t.slot n).map Slot.still = (s.slot n).map Slot.still

theorem Quiet.refl (s : State) : Quiet s s := ⟨.refl s, rfl, rfl, rfl, ⟨_, _, rfl⟩, rfl, fun _ => rfl⟩

theorem Quiet.trans {s t u : State} (h : Quiet s t) (h' : Quiet t u) : Quiet s u where
  engines := by
    obtain ⟨h1, h2, h3, h4, h5, h6, h7, h8⟩ := h.engines
    obtain ⟨k1, k2, k3, k4, k5, k6, k7, k8⟩ := h'.engines
    exact ⟨k1.trans h1, k2.trans h2, k3.trans h3, k4.trans h4, k5.trans h5, k6.trans h6, k7.trans h7, k8.trans h8⟩
  queues := h'.queues.trans h.queues
  flash := h'.flash.trans h.flash
  defects := h'.defects.trans h.defects
  reeve := by
    obtain ⟨a, b, e⟩ := h.reeve
    obtain ⟨a', b', e'⟩ := h'.reeve
    exact ⟨a', b', by rw [e', e]⟩
  beadle := by rw [h'.beadle, h.beadle]
  slots := fun n => (h'.slots n).trans (h.slots n)

theorem foldl_quiet {α : Type} (f : State → α → State) (l : List α) {s0 s : State} (h : ∀ s a, Quiet s0 s → Quiet s0 (f s a))
    (hs : Quiet s0 s) : Quiet s0 (l.foldl f s) := by
  induction l generalizing s with
  | nil => exact hs
  | cons a l ih => exact ih (h s a hs)

section
variable {s0 s : State}

theorem State.writeSector_quiet (world : Bool) (n : Nat) (cells : List Host.Cell) (h : Quiet s0 s) : Quiet s0 (s.writeSector world n cells) := by
  rw [State.writeSector_eq]
  split
  · exact h
  · exact { h with }

theorem State.writeSectors_quiet (world : Bool) (cells : List Host.Cell) (h : Quiet s0 s) : Quiet s0 (s.writeSectors world cells) := by
  have hw := foldl_quiet (fun s k => s.writeSector world k (cells.filter fun c => c.1 / 64 == k)) (cells.map fun c => c.1 / 64).eraseDups
    (fun _ _ h => State.writeSector_quiet _ _ _ h) h
  exact { hw with }

theorem Quiet.logged (h : Quiet s0 s) (a b : Nat) : Quiet s0 { s with reeve := { s.reeve with elogS := a, elogN := b } } := by
  obtain ⟨x, y, e⟩ := h.reeve
  exact { h with reeve := ⟨a, b, by rw [e]⟩ }

theorem State.errorLog_quiet (sec : Bool) (src kind cause part jobid addr info : Nat) (h : Quiet s0 s) :
    Quiet s0 (s.errorLog sec src kind cause part jobid addr info) := by
  have hr : ∀ (u : State) (n : Nat), Quiet s0 u →
      Quiet s0 { u with reeve := if sec then { u.reeve with elogS := n + 1 } else { u.reeve with elogN := n + 1 } } := fun u n h => by
    cases sec
    · exact h.logged u.reeve.elogS (n + 1)
    · exact h.logged (n + 1) u.reeve.elogN
  unfold State.errorLog
  dsimp only
  by_cases hz : s.cfg 0x50 4 = 0
  · rw [if_pos hz]; exact h
  · rw [if_neg hz]
    exact hr _ _ (State.writeSectors_quiet _ _ (State.writeSectors_quiet _ _ h))

theorem State.noteWorld_quiet (world : Bool) (pas : List Nat) (h : Quiet s0 s) : Quiet s0 (s.noteWorld world pas) := by
  unfold State.noteWorld
  split
  · exact h
  · exact State.errorLog_quiet _ _ _ _ _ _ _ _ h

theorem State.homeWrite_quiet (world : Bool) (cells : List Host.Cell) (h : Quiet s0 s) : Quiet s0 (s.homeWrite world cells) := by
  unfold State.homeWrite
  exact State.writeSectors_quiet _ _ (State.noteWorld_quiet _ _ h)

/-- A slot changed in the pages that its job has touched. -/
theorem Quiet.touched {f : Slot → Slot} (hf : ∀ z, (f z).still = z.still) (n : Nat) (h : Quiet s0 s) : Quiet s0 (s.modSlot n f) where
  engines := State.modSlot_same _ _ h.engines
  queues := by rw [State.modSlot_queues, h.queues]
  flash := by rw [State.modSlot_flash, h.flash]
  defects := by rw [State.modSlot_defects, h.defects]
  reeve := by rw [State.modSlot_reeve]; exact h.reeve
  beadle := by rw [State.modSlot_beadle, h.beadle]
  slots := fun q => by
    rw [← h.slots q, State.slot_modSlot]
    split
    · next e =>
      subst e
      cases s.slot n
      · rfl
      · exact congrArg some (hf _)
    · rfl

theorem State.touch_quiet (k : Ctx) (ps : List Piece) (h : Quiet s0 s) : Quiet s0 (s.touch k ps) := by
  unfold State.touch
  split
  · exact h
  · refine foldl_quiet _ _ (fun s q h => ?_) h
    split
    · exact h
    · refine Quiet.touched (fun z => ?_) _ h
      split <;> rfl

theorem State.putLeaf_quiet (w : Bool) (lf : Leaf) (e : Nat) (h : Quiet s0 s) : Quiet s0 (s.putLeaf w lf e) := by
  unfold State.putLeaf
  split
  · exact h
  · exact State.homeWrite_quiet _ _ h

variable {t : State} {x : XByte}

theorem State.fillTlb_quiet (n : Nat) (k : Ctx) (va : Nat) (write pref : Bool) (h : Quiet s0 s)
    (e : s.fillTlb n k va write pref = some (x, t)) : Quiet s0 t := by
  unfold State.fillTlb at e
  have hk : ∀ l, Quiet s0 (s.keepWalk n l) := fun _ => { h with }
  split at e
  · cases e
  · next lf found _ =>
    simp only [Option.some.injEq, Prod.mk.injEq] at e
    obtain ⟨-, rfl⟩ := e
    exact { State.putLeaf_quiet k.world lf _ (hk found) with }

theorem State.translateIn_quiet (k : Ctx) (va : Nat) (write pref : Bool) (h : Quiet s0 s)
    (e : s.translateIn k va write pref = some (x, t)) : Quiet s0 t := by
  unfold State.translateIn at e
  dsimp only at e
  split at e
  · split at e
    · refine State.fillTlb_quiet _ _ _ _ _ ?_ e
      exact { h with }
    · obtain ⟨-, rfl⟩ := Prod.mk.inj (Option.some.inj e)
      exact h
  · exact State.fillTlb_quiet _ _ _ _ _ h e

theorem State.translate_quiet (k : Ctx) (va : Nat) (write pref : Bool) (h : Quiet s0 s)
    (e : s.translate k va write pref = some (x, t)) : Quiet s0 t := by
  unfold State.translate at e
  split at e
  · exact State.translateIn_quiet _ _ _ _ h e
  · split at e
    · cases e
    · split at e
      · obtain ⟨-, rfl⟩ := Prod.mk.inj (Option.some.inj e)
        exact h
      · split at e
        · next e' =>
          split at e
          · cases e
          · obtain ⟨-, rfl⟩ := Prod.mk.inj (Option.some.inj e)
            exact State.translateIn_quiet _ _ _ _ h e'
        · cases e

theorem State.step3_quiet (k : Ctx) (kind : AccKind) (prev : Option XByte) (cs : List (Nat × Nat)) (h : Quiet s0 s)
    {r : List Piece} (e : s.step3 k kind prev cs = .ok (r, t)) : Quiet s0 t := by
  induction cs generalizing s r t prev with
  | nil => unfold State.step3 at e; grind
  | cons x l ih =>
    unfold State.step3 at e
    (try dsimp only at e)
    (repeat' split at e) <;> grind -ring -linarith -lia [→ State.translate_quiet]

theorem State.access_quiet (k : Ctx) (kind : AccKind) (addr n align : Nat) (h : Quiet s0 s) {ps : List Piece}
    (e : s.access k kind addr n align = .ok (ps, t)) : Quiet s0 t := by
  unfold State.access at e
  dsimp only at e
  split at e
  · cases e
  · split at e
    · cases e
    · split at e
      · cases e
      · next hs =>
        have hq := State.step3_quiet _ _ _ _ h hs
        split at e
        · cases e
        · split at e
          · cases e; exact State.touch_quiet _ _ hq
          · split at e
            · cases e
            · cases e; exact State.touch_quiet _ _ hq

theorem State.traceStore_quiet (src asid part : Nat) (world : Bool) (va : Nat) (bs : List Byte) (h : Quiet s0 s)
    (e : s.traceStore src asid part world va bs = .ok t) : Quiet s0 t := by
  unfold State.traceStore at e
  dsimp only at e
  split at e
  · cases e
  · next ha =>
    cases e
    exact State.homeWrite_quiet _ _ (State.access_quiet _ _ _ _ _ h ha)

theorem State.setTdesc_quiet (p : Nat) (d : TraceDesc) (h : Quiet s0 s) : Quiet s0 (s.setTdesc p d) := { h with }

theorem State.setTsrc_quiet (p n : Nat) (x : TraceSrc) (h : Quiet s0 s) : Quiet s0 (s.setTsrc p n x) := { h with }

theorem State.ringWrite_quiet (part src : Nat) (world : Bool) (bs : List Byte) (h : Quiet s0 s)
    (e : s.ringWrite part src world bs = .ok (some t)) : Quiet s0 t := by
  unfold State.ringWrite at e
  grind -ring -linarith -lia [→ State.traceStore_quiet, State.setTdesc_quiet]

theorem State.loseRec_quiet (part : Nat) (h : Quiet s0 s) : Quiet s0 (s.loseRec part) := State.setTdesc_quiet _ _ h

theorem State.suspendTrace_quiet (part va : Nat) (h : Quiet s0 s) : Quiet s0 (s.suspendTrace part va) := State.setTdesc_quiet _ _ h

theorem State.wroteRec_quiet (part src : Nat) (bs : List Byte) (h : Quiet s0 s) : Quiet s0 (s.wroteRec part src bs) := State.setTsrc_quiet _ _ _ h

theorem State.offer_quiet (part src : Nat) (world : Bool) (bs : List Byte) (h : Quiet s0 s) : Quiet s0 (s.offer part src world bs).2 := by
  unfold State.offer
  grind -ring -linarith -lia [State.loseRec_quiet, → State.ringWrite_quiet, State.setTsrc_quiet, State.setTdesc_quiet, State.suspendTrace_quiet,
    State.wroteRec_quiet]

theorem State.stampFor_quiet (src : Nat) (h : Quiet s0 s) : Quiet s0 (s.stampFor src).2 := by
  unfold State.stampFor State.diePtime State.draw
  dsimp only
  (repeat' split) <;> exact { h with }

/-- What a record leaves (R316 to R319): beside what is quiet, its emitter may hold it. -/
theorem State.emit_quiet (s : State) (r : Rec) (who : Option Agent) : ∃ t, Quiet s t ∧
    (s.emit r who = t ∨ ∃ a bs, who = some a ∧ s.emit r who = t.holdRec r.part bs a) := by
  unfold State.emit
  split
  · exact ⟨s, .refl s, .inl rfl⟩
  · dsimp only
    have h1 := fun x => State.setTsrc_quiet r.part r.src x (State.stampFor_quiet r.src (Quiet.refl s))
    have h3 := fun x bs => State.offer_quiet r.part r.src r.world bs (h1 x)
    split
    · next a e =>
      obtain ⟨rfl, -⟩ := Option.filter_eq_some_iff.mp e
      exact ⟨_, h1 _, .inr ⟨_, _, rfl, rfl⟩⟩
    · split
      · exact ⟨_, h3 _ _, .inl rfl⟩
      · split
        · split
          · exact ⟨_, h3 _ _, .inr ⟨_, _, rfl, rfl⟩⟩
          · exact ⟨_, State.loseRec_quiet _ (h3 _ _), .inl rfl⟩
        · exact ⟨_, State.loseRec_quiet _ (h3 _ _), .inl rfl⟩

/-- A record that no engine holds up is quiet (R317, R319). -/
theorem State.emit_none_quiet (r : Rec) (h : Quiet s0 s) : Quiet s0 (s.emit r none) := by
  obtain ⟨t, ht, e | ⟨a, bs, hw, -⟩⟩ := s.emit_quiet r none
  · rw [e]; exact h.trans ht
  · cases hw

end

/-! ### What a record leaves of each engine (R319) -/

section
variable (s : State) (r : Rec) (who : Option Agent)

theorem State.emit_core (c : Nat) : ∃ l, (s.emit r who).core c = { s.core c with trec := l } := by
  obtain ⟨t, ht, e | ⟨d, k, l, -, e⟩ | ⟨u, l, n, q, -, e⟩⟩ := State.emit_cases s r who
  · exact ⟨_, by rw [e, State.core_of_cores ht.1]⟩
  · refine ⟨if d.val = c then l else (s.core c).trec, ?_⟩
    rw [State.core_of_cores e.1, State.core_modCore]
    split
    · next h => rw [← h, State.core_of_cores ht.1]
    · rw [State.core_of_cores ht.1]
  · exact ⟨_, by rw [e]; exact State.core_of_cores ht.1 c⟩

theorem State.emit_group (v g : Nat) : ∃ m, (s.emit r who).group v g = { s.group v g with threads := m } := by
  have hsame : ∀ {a b : State}, a.units = b.units → a.group v g = b.group v g := fun h => by
    rw [State.group, State.group, State.unit_of_units h]
  obtain ⟨t, ht, e | ⟨d, k, l, -, e⟩ | ⟨u, l, n, q, -, e⟩⟩ := State.emit_cases s r who
  · exact ⟨_, by rw [e, hsame ht.2.1]⟩
  · exact ⟨_, by rw [hsame (e.2.1.trans ht.2.1)]⟩
  · have h : (s.emit r who).group v g = (t.modThread u fun x => { x with trec := l, heldSince := n }).group v g := by
      rw [e, State.group, State.group, State.unit_modUnit]
      split
      · next h => rw [h]
      · rfl
    rw [h, State.modThread, State.group_setThread]
    split
    · exact ⟨_, by rw [hsame ht.2.1]⟩
    · exact ⟨_, by rw [hsame ht.2.1]⟩

theorem State.emit_thread (v : Tid) : ∃ l n, (s.emit r who).thread v = { s.thread v with trec := l, heldSince := n } := by
  have hsame : ∀ {a b : State}, a.units = b.units → a.thread v = b.thread v := fun h => by
    rw [State.thread, State.thread, State.group, State.group, State.unit_of_units h]
  obtain ⟨t, ht, e | ⟨d, k, l, -, e⟩ | ⟨u, l, n, q, -, e⟩⟩ := State.emit_cases s r who
  · exact ⟨_, _, by rw [e, hsame ht.2.1]⟩
  · exact ⟨_, _, by rw [hsame (e.2.1.trans ht.2.1)]⟩
  · have h : (s.emit r who).thread v = (t.modThread u fun x => { x with trec := l, heldSince := n }).thread v := by
      rw [e, State.thread, State.thread, State.group, State.group, State.unit_modUnit]
      split
      · next h => rw [h]
      · rfl
    rw [h]
    by_cases hv : v = u
    · subst hv
      exact ⟨l, n, by rw [State.thread_modThread_same, hsame ht.2.1]⟩
    · exact ⟨_, _, by rw [State.thread_modThread_ne _ _ hv, hsame ht.2.1]⟩

theorem State.settleCore_beadle (s : State) (c : Nat) : (s.settleCore c).beadle = { s.beadle with slots := (s.settleCore c).beadle.slots } := by
  unfold State.settleCore
  split
  · exact State.modSlot_beadle ..
  · rfl

theorem State.holdRec_beadle (s : State) (part : Nat) (bs : List Byte) (a : Agent) :
    (s.holdRec part bs a).beadle = { s.beadle with slots := (s.holdRec part bs a).beadle.slots } := by
  cases a with
  | core c k => exact State.settleCore_beadle ..
  | thr t => rfl

theorem State.emit_beadle : (s.emit r who).beadle = { s.beadle with slots := (s.emit r who).beadle.slots } := by
  obtain ⟨t, ht, e | ⟨a, bs, -, e⟩⟩ := s.emit_quiet r who
  · rw [e]; exact ht.beadle
  · rw [e, State.holdRec_beadle, ht.beadle]

end

section
variable (s : State) (a : Agent) (evt cls : Nat) (full : Bool) (arg flow role : Nat)

/-- A record of the job an agent runs is a record, or nothing where it runs no job. -/
theorem State.emitAt_cases : (∃ r, s.emitAt a evt cls full arg flow role = s.emit r (some a)) ∨ s.emitAt a evt cls full arg flow role = s := by
  unfold State.emitAt
  dsimp only
  split
  · exact .inr rfl
  · exact .inl ⟨_, rfl⟩

theorem State.emitAt_core (c : Nat) : ∃ l, (s.emitAt a evt cls full arg flow role).core c = { s.core c with trec := l } := by
  obtain ⟨r, e⟩ | e := s.emitAt_cases a evt cls full arg flow role
  · rw [e]; exact s.emit_core r (some a) c
  · rw [e]; exact ⟨_, rfl⟩

theorem State.emitAt_group (v g : Nat) : ∃ m, (s.emitAt a evt cls full arg flow role).group v g = { s.group v g with threads := m } := by
  obtain ⟨r, e⟩ | e := s.emitAt_cases a evt cls full arg flow role
  · rw [e]; exact s.emit_group r (some a) v g
  · rw [e]; exact ⟨_, rfl⟩

theorem State.emitAt_thread (v : Tid) : ∃ l n, (s.emitAt a evt cls full arg flow role).thread v = { s.thread v with trec := l, heldSince := n } := by
  obtain ⟨r, e⟩ | e := s.emitAt_cases a evt cls full arg flow role
  · rw [e]; exact s.emit_thread r (some a) v
  · rw [e]; exact ⟨_, _, rfl⟩

theorem State.emitAt_beadle : (s.emitAt a evt cls full arg flow role).beadle =
    { s.beadle with slots := (s.emitAt a evt cls full arg flow role).beadle.slots } := by
  obtain ⟨r, e⟩ | e := s.emitAt_cases a evt cls full arg flow role
  · rw [e]; exact s.emit_beadle r (some a)
  · rw [e]

end

/-! ### The end of a thread's wait -/

section
variable (s : State) (t : Tid)

theorem State.threadStall_thread (cause since : Nat) :
    ∃ l n, (s.threadStall t cause since).thread t = { s.thread t with trec := l, heldSince := n } := by
  unfold State.threadStall
  dsimp only
  split
  · exact s.emitAt_thread ..
  · exact ⟨_, _, rfl⟩

theorem State.threadStall_group (cause since v g : Nat) : ∃ m, (s.threadStall t cause since).group v g = { s.group v g with threads := m } := by
  unfold State.threadStall
  dsimp only
  split
  · exact s.emitAt_group ..
  · exact ⟨_, rfl⟩

theorem State.threadStall_beadle (cause since : Nat) :
    (s.threadStall t cause since).beadle = { s.beadle with slots := (s.threadStall t cause since).beadle.slots } := by
  unfold State.threadStall
  dsimp only
  split
  · exact s.emitAt_beadle ..
  · rfl

theorem State.wake_thread : ∃ l n, (s.wake t).thread t = { s.thread t with wait := .none, trec := l, heldSince := n } := by
  unfold State.wake
  dsimp only
  split
  · next h => exact ⟨_, _, by rw [← h]⟩
  · obtain ⟨l, n, e⟩ := s.threadStall_thread t (s.thread t).wait.cause (s.thread t).waitSince
    exact ⟨l, n, by rw [State.thread_modThread_same, e]⟩

theorem State.wake_group (v g : Nat) : ∃ m, (s.wake t).group v g = { s.group v g with threads := m } := by
  unfold State.wake
  dsimp only
  split
  · exact ⟨_, rfl⟩
  · obtain ⟨m, e⟩ := s.threadStall_group t (s.thread t).wait.cause (s.thread t).waitSince v g
    rw [State.modThread, State.group_setThread]
    split
    · exact ⟨_, by rw [e]⟩
    · exact ⟨m, e⟩

theorem State.wake_beadle : (s.wake t).beadle = { s.beadle with slots := (s.wake t).beadle.slots } := by
  unfold State.wake
  dsimp only
  split
  · rfl
  · exact s.threadStall_beadle t _ _

theorem State.wakeDone_thread : ∃ l n, (s.wakeDone t).thread t =
    { s.thread t with wait := .none, pc := (s.thread t).pc + 8, arrived := 0, trec := l, heldSince := n } := by
  obtain ⟨l, n, e⟩ := s.wake_thread t
  exact ⟨l, n, by rw [State.wakeDone, State.thread_modThread_same, e]⟩

theorem State.wakeDone_group (v g : Nat) : ∃ m, (s.wakeDone t).group v g = { s.group v g with threads := m } := by
  obtain ⟨m, e⟩ := s.wake_group t v g
  rw [State.wakeDone, State.modThread, State.group_setThread]
  split
  · exact ⟨_, by rw [e]⟩
  · exact ⟨m, e⟩

theorem State.wakeDone_beadle : (s.wakeDone t).beadle = { s.beadle with slots := (s.wakeDone t).beadle.slots } := s.wake_beadle t

end

end Sys2Proof.Machine
end

