-- ==== Sys2Proof/Proofs/PowerAndTime.lean ====
section
/-!
Rails, stages, tests of engines, time and clocks (spec/13_boundary.md, spec/09_time_trace.md): each event by its guard, and what it leaves (O48).
-/

namespace Sys2Proof.Machine

/-! ### Stages (R447 to R457) -/

theorem State.verified_fwOk (s : State) : s.verified.reeve.fwOk = s.reeve.fwOk := by
  have hcores : ∀ (f : Nat → Core → Core) (l : List Nat) (t : State), (l.foldl (fun s c => s.modCore c (f c)) t).reeve = t.reeve := fun f l => by
    induction l with
    | nil => exact fun _ => rfl
    | cons c l ih => exact fun t => ih _
  unfold State.verified
  split
  · dsimp only
    split
    · unfold State.cfgApply
      dsimp only
      rw [hcores]
    · rfl
  · rfl

theorem useImage_firmware {s : State} {i : Image} (h : i.payload.length ≤ 786432) : (s.useImage .firmware i).reeve.fwOk = true := by
  rw [State.useImage, if_pos h]
  exact State.verified_fwOk _

section
variable {s : State}

/-- Memory training has nothing to begin. -/
theorem beginTraining_eq (h : s.reeve.stage ≠ 1 ∨ s.reeve.failcode ≠ 0) : s.beginTraining = s :=
  if_pos (by simpa only [Bool.or_eq_true, bne_iff_ne] using h)

theorem beginTraining_begins (h1 : s.reeve.stage = 1) (hf : s.reeve.failcode = 0) : s.beginTraining =
    if s.cfg 4 2 = 0xFFFF ∧ (s.cfg 6 2 = 128 ∨ s.cfg 6 2 = 256) then { s with reeve := { s.reeve with stage := 2 } }
    else { s with reeve := { s.reeve with stage := 2, failcode := 4 } } := by
  have h : s.beginTraining = if s.reeve.stage != 1 || s.reeve.failcode != 0 then s
      else if s.cfg 4 2 == 0xFFFF && (s.cfg 6 2 == 128 || s.cfg 6 2 == 256) then { s with reeve := { s.reeve with stage := 2 } }
      else { s with reeve := { s.reeve with stage := 2, failcode := 4 } } := rfl
  rw [h, if_neg (by simp [h1, hf])]
  simp only [Bool.and_eq_true, Bool.or_eq_true, beq_iff_eq]

/-- The end of training (R452), from what its beginning leaves. -/
theorem trainingComplete_eq (s : State) (tr : BitVec 16) : exec (.memoryTrainingComplete tr) s = .next
    (if s.beginTraining.reeve.stage != 2 || s.beginTraining.reeve.failcode != 0 || s.beginTraining.reeve.trained != 0 then s.beginTraining
     else if tr == 0xFFFF then State.openLogs { s.beginTraining with reeve := { s.beginTraining.reeve with trained := tr } }
     else { s.beginTraining with reeve := { s.beginTraining.reeve with trained := tr, failcode := 4 } }) := rfl

theorem trainingComplete_same {tr : BitVec 16}
    (h : s.reeve.failcode ≠ 0 ∨ (s.reeve.stage ≠ 1 ∧ s.reeve.stage ≠ 2) ∨ (s.reeve.stage = 2 ∧ s.reeve.trained ≠ 0)) :
    exec (.memoryTrainingComplete tr) s = .next s := by
  have hb : s.beginTraining = s := beginTraining_eq (by
    rcases h with hf | ⟨h1, -⟩ | ⟨h2, -⟩
    · exact .inr hf
    · exact .inl h1
    · exact .inl (by rw [h2]; decide))
  rw [trainingComplete_eq, hb, if_pos]
  simp only [Bool.or_eq_true, bne_iff_ne]
  grind

theorem trainingComplete_unfit {tr : BitVec 16} (hf : s.reeve.failcode = 0) (h1 : s.reeve.stage = 1)
    (hfit : ¬ (s.cfg 4 2 = 0xFFFF ∧ (s.cfg 6 2 = 128 ∨ s.cfg 6 2 = 256))) :
    exec (.memoryTrainingComplete tr) s = .next { s with reeve := { s.reeve with stage := 2, failcode := 4 } } := by
  rw [trainingComplete_eq, beginTraining_begins h1 hf, if_neg hfit]
  rfl

theorem trainingComplete_trains {tr : BitVec 16} (hf : s.reeve.failcode = 0) (ht : s.reeve.trained = 0)
    (h : (s.reeve.stage = 1 ∧ s.cfg 4 2 = 0xFFFF ∧ (s.cfg 6 2 = 128 ∨ s.cfg 6 2 = 256)) ∨ s.reeve.stage = 2) :
    exec (.memoryTrainingComplete tr) s = .next (if tr = 0xFFFF then State.openLogs { s with reeve := { s.reeve with stage := 2, trained := tr } }
      else { s with reeve := { s.reeve with stage := 2, trained := tr, failcode := 4 } }) := by
  have hb : s.beginTraining = { s with reeve := { s.reeve with stage := 2 } } := by
    rcases h with ⟨h1, hfit⟩ | h2
    · rw [beginTraining_begins h1 hf, if_pos hfit]
    · rw [beginTraining_eq (.inl (by rw [h2]; decide)), ← h2]
  rw [trainingComplete_eq, hb, if_neg (by simp [hf, ht])]
  simp only [beq_iff_eq]

end

/-! ### Entry of full service, and the tests of engines (R453, R180 to R186) -/

section
variable {s : State}

/-- The clock of an idle core raised (R453). -/
def State.raiseIdle (x : State) (k : Nat) : State :=
  if (x.core k).job = none ∧ (x.core k).eng.mhz = 800 then x.setClock (.core (fin 32 k)) 1600 else x

theorem raiseIdle_eq : (fun (x : State) (k : Nat) => if (x.core k).job.isNone && (x.core k).eng.mhz = 800 then x.setClock (.core (fin 32 k)) 1600
    else x) = State.raiseIdle := by
  funext x k
  simp only [State.raiseIdle, Bool.and_eq_true, Option.isNone_iff_eq_none, decide_eq_true_eq]

theorem stageFullEntry_eq (s : State) : exec .stageFullEntry s = .next
    (if s.reeve.stage != 4 || s.reeve.failcode != 0 || s.reeve.trained != 0xFFFF || !allDoms.all s.tested then s
     else
       let t := State.rebindAll { s with reeve := { s.reeve with stage := 5, memrate := 144 } } fun _ => true
       (List.range 32).foldl State.raiseIdle ((t.residents.map (·.1)).foldl State.releaseTurned t)) := by
  rw [← raiseIdle_eq]
  rfl

theorem allTested_iff : (!allDoms.all s.tested) = true ↔ ∃ e ∈ allDoms, s.tested e = false := by
  simp only [Bool.not_eq_true', List.all_eq_false, Bool.not_eq_true]

/-- An engine declared failed is logged as it comes back to its test (R439). -/
def State.logFailed (s : State) (d : Dom) : State := match (s.eng d).failed with
  | some why => s.errorLog (s.eng d).world d.src 4 0 0 0 0 why
  | none => s

theorem selfTestComplete_eq (s : State) (d : Dom) (res : TestResult) : exec (.selfTestComplete d res) s = .next
    (if s.reeve.halted || s.reeve.stage.toNat < 3 || s.tested d then s
     else match d with
       | .core c => if (((s.logFailed d).testArray c res.faults).core c).fmap.legal then ((s.logFailed d).testArray c res.faults).admitEngine d
         else ((s.logFailed d).testArray c res.faults).retireEngine d
       | .unit _ => if res.pass then (s.logFailed d).admitEngine d else (s.logFailed d).retireEngine d) := by
  have hlog : (if (s.eng d).failed.isSome then s.errorLog (s.eng d).world d.src 4 0 0 0 0 ((s.eng d).failed.getD 0) else s) = s.logFailed d := by
    rw [State.logFailed]
    cases (s.eng d).failed with
    | none => exact if_neg Bool.false_ne_true
    | some why => exact if_pos rfl
  rw [← hlog]
  rfl

theorem mstestComplete_known {c : Fin 32} {found : Faults} {full : Bool} {e : Nat} {tpc : Word} (hm : (s.core c).mstest = some (full, e, tpc))
    (hnew : ((s.core c).fmap.report ((s.core c).fmap.lines (s.found c found))).getLsbD 1 = false) :
    let t := (s.testArray c found).modCore c fun x => { x with mstest := none, arch := { x.arch with
      s := mset 0 x.arch.s e (((s.core c).fmap.report ((s.core c).fmap.lines (s.found c found))).setWidth 64) } }
    exec (.mstestComplete c found) s = .next (if (t.core c).eng.stepping && (t.core c).intervalAdv != 0 then t.stepCommit c else t) := by
  intro t
  have ht : ((s.testArray c found).modCore c fun x => { x with mstest := none }).modCore c (fun x =>
      x.land (.sreg e (((s.core c).fmap.report ((s.core c).fmap.lines (s.found c found))).setWidth 64))) = t := by
    simp only [t, State.modCore, State.setCore_setCore, State.core_setCore, if_true, Core.land]
  have h : exec (.mstestComplete c found) s = .next (match (s.core c).mstest with
    | none => s
    | some (_, d, tpc) =>
      let v := (s.core c).fmap.report ((s.core c).fmap.lines (s.found c found))
      if !v.getLsbD 1 then
        let s := ((s.testArray c found).modCore c fun x => { x with mstest := none }).modCore c fun x => x.land (.sreg d (v.setWidth 64))
        if (s.core c).eng.stepping && (s.core c).intervalAdv != 0 then s.stepCommit c else s
      else
        let gang := s.gangOf c
        let s := s.coreTrap c 0x24 (v.setWidth 64) tpc
        let s := s.testArray c found
        let s := s.emitAt (.core (fin 32 c) 0) 0x13 1 false (s.core c).fmap.gen.toNat 0 0
        let s := (gang.foldl (fun s j => s.modCore j fun x => { x with retries := 0 }) s).remapJob c
        let s := if (s.core c).job.isNone then s else gang.foldl State.splitWalker s
        s.rebindShape c) := rfl
  rw [h, hm]
  dsimp only
  rw [if_pos (by rw [hnew] <;> rfl), ht]

end

/-! ### Time and clocks (R300 to R306) -/

section
variable {s : State}

/-- A record leaves every engine (R319). -/
theorem State.emit_eng (s : State) (r : Rec) (who : Option Agent) (d : Dom) : (s.emit r who).eng d = s.eng d := by
  have hsame : ∀ {a b : State}, SameEngines a b → b.eng d = a.eng d := fun h => by
    cases d
    · exact congrArg Core.eng (State.core_of_cores h.1 _)
    · exact congrArg VUnit.eng (State.unit_of_units h.2.1 _)
  obtain ⟨t, ht, e | ⟨c, k, l, -, e⟩ | ⟨u, l, n, q, -, e⟩⟩ := State.emit_cases s r who
  · rw [e, hsame ht]
  · rw [hsame e, ← hsame ht]
    cases d with
    | core c' =>
      rw [State.eng, State.eng, State.core_modCore]
      split
      · next h => rw [h]
      · rfl
    | unit u' => rfl
  · rw [e, ← hsame ht]
    cases d with
    | core c' => rfl
    | unit u' =>
      rw [State.eng, State.eng, State.unit_modUnit]
      split
      · next h => exact h ▸ (State.unit_setThread ..).1
      · exact (State.unit_setThread ..).1

theorem State.emit_ptime (s : State) (r : Rec) (who : Option Agent) : (s.emit r who).ptime = s.ptime := by
  obtain ⟨t, ht, e | ⟨c, k, l, -, e⟩ | ⟨u, l, n, q, -, e⟩⟩ := State.emit_cases s r who
  · rw [e]; exact ht.2.2.2.2.2.2.1
  · exact (State.modCore_run c _ ((SameRun.refl s).of_engines ht)).of_engines e |>.2.2.2.2.1
  · rw [e]; exact ht.2.2.2.2.2.2.1

/-- A clock's change (R320): the frequency, with the engine's cycles as they were. -/
theorem State.setClock_keeps (s : State) (d : Dom) (mhz : Nat) :
    ((s.setClock d mhz).eng d).mhz = mhz ∧ ((s.setClock d mhz).eng d).cycle (s.setClock d mhz).ptime = (s.eng d).cycle s.ptime := by
  have hset : ∀ t : State, t.eng d = s.eng d → t.ptime = s.ptime → ∀ u : State, u = ((t.fullNext d.src).modEng d fun e =>
      { e with cycAcc := e.cycle t.ptime, clockAcc := e.clock t.ptime, since := t.ptime, mhz := mhz }) →
      (u.eng d).mhz = mhz ∧ (u.eng d).cycle u.ptime = (s.eng d).cycle s.ptime := by
    intro t he hp u hu
    have heng : (t.fullNext d.src).eng d = s.eng d := by rw [← he]; cases d <;> rfl
    rw [hu, State.eng_modEng_same, State.modEng_ptime, heng, hp]
    refine ⟨rfl, ?_⟩
    have hpt : (t.fullNext d.src).ptime = s.ptime := hp
    simp only [Eng.cycle, hpt, Nat.sub_self, Nat.zero_mul, Nat.zero_div, Nat.add_zero]
  unfold State.setClock
  dsimp only
  split
  · next h => exact ⟨h, rfl⟩
  · split
    · exact hset _ (State.emit_eng ..) (State.emit_ptime ..) _ rfl
    · exact hset s rfl rfl _ rfl

/-- The time state set: no record that the change emits touches it (R304, R320). -/
theorem State.setTimeState_timeState (s : State) (next : TimeState) : (s.setTimeState next).reeve.timeState = next := by
  have h : Quiet { s with reeve := { s.reeve with timeState := next, stepped := s.reeve.stepped || s.reeve.timeState == .locked } }
      (s.setTimeState next) := foldl_quiet _ _ (fun _ _ h => State.emit_none_quiet _ h) (.refl _)
  obtain ⟨a, b, e⟩ := h.reeve
  rw [e]

theorem timeNext_iff (a b : TimeState) : timeNext a b = true ↔ b ≠ a ∧ b ≠ .free ∧ (a = .free → b = .locking) := by
  cases a <;> cases b <;> decide

end

/-! ### Register writes (R383) -/

/-- The base of a control window is in a control region, aligned, and names that window. -/
theorem control_window {k : Nat} (h : k < 31) : isControl (Config.ctlBase + k * 2 ^ 24) = true ∧ (Config.ctlBase + k * 2 ^ 24) % 8 = 0
    ∧ windowOf (Config.ctlBase + k * 2 ^ 24) = k ∧ (Config.ctlBase + k * 2 ^ 24 - Config.ctlBase) % 2 ^ 24 = 0 := by
  have hw : windowOf (Config.ctlBase + k * 2 ^ 24) = k := by
    rw [windowOf, Nat.add_sub_cancel_left, Nat.mul_div_cancel _ (by decide)]
  refine ⟨?_, ?_, hw, ?_⟩
  · simp only [isControl, isWindow, hw, Bool.and_eq_true, decide_eq_true_eq, bne_iff_ne]
    omega
  · rw [Config.ctlBase]; omega
  · rw [Nat.add_sub_cancel_left, Nat.mul_mod_left]

theorem registerWrite_eq (s : State) (req : Requester) (pa : Nat) (v : Word) : exec (.registerWrite req pa v) s =
    if !isControl pa || pa % 8 != 0 || !s.reqPriv req then .next s
    else if windowOf pa < 8 then s.writeFabric req (windowOf pa) ((pa - Config.ctlBase) % 2 ^ 24) v
    else if windowOf pa < 17 then s.writeIsolation req (windowOf pa) ((pa - Config.ctlBase) % 2 ^ 24) v
    else s.writeBoundary req (windowOf pa) ((pa - Config.ctlBase) % 2 ^ 24) v := rfl

theorem registerWrite_refused {s : State} {req : Requester} {pa : Nat} (h : isControl pa = false ∨ pa % 8 ≠ 0 ∨ s.reqPriv req = false) (v : Word) :
    exec (.registerWrite req pa v) s = .next s := by
  rw [registerWrite_eq, if_pos]
  simp only [Bool.or_eq_true, Bool.not_eq_true', bne_iff_ne]
  grind

theorem registerWrite_eq_of_control {s : State} {req : Requester} {pa : Nat} (hc : isControl pa = true) (ha : pa % 8 = 0)
    (hp : s.reqPriv req = true) (v : Word) : exec (.registerWrite req pa v) s =
    if windowOf pa < 8 then s.writeFabric req (windowOf pa) ((pa - Config.ctlBase) % 2 ^ 24) v
    else if windowOf pa < 17 then s.writeIsolation req (windowOf pa) ((pa - Config.ctlBase) % 2 ^ 24) v
    else s.writeBoundary req (windowOf pa) ((pa - Config.ctlBase) % 2 ^ 24) v := by
  rw [registerWrite_eq, if_neg (by simp [hc, ha, hp])]

/-- Settles O48: each event by its guard, then by what it leaves. -/
theorem powerBootAndTime : Obligations.PowerBootAndTime := by
  unfold Obligations.PowerBootAndTime
  intro s die kind tr d res c found ptp delta esec next rate p frame mhz req pa v r same
  refine ⟨fun h => ?_, fun h => ⟨?_, ?_⟩, fun h => ?_, rfl, fun h => ?_, fun h => ⟨fun hd => ?_, fun dir hd => ⟨fun hi => ?_, fun i hi => ?_⟩⟩,
    fun i hi => useImage_firmware hi, trainingComplete_same, ?_, fun h => ?_, fun h4 hf ht hall => ?_, ?_, fun h => ?_, ?_, fun h => ?_,
    fun hh hj hu => ?_, fun h => ?_, ?_, ?_, ?_, ?_, fun h => ?_, fun hh hs => ?_, fun h => ?_, ?_, ?_, fun hp => ⟨?_, ?_⟩⟩
  -- power on and off
  · exact congrArg Host.Outcome.next (if_pos h)
  · exact congrArg Host.Outcome.next (if_neg (h ▸ Bool.false_ne_true))
  · exact ⟨_, congrArg Host.Outcome.next (if_neg (h ▸ Bool.false_ne_true)), rfl, rfl, rfl, rfl, rfl, rfl, rfl, rfl, rfl⟩
  · exact ⟨_, congrArg Host.Outcome.next (if_pos h), rfl, rfl, rfl, rfl⟩
  -- images
  · exact congrArg Host.Outcome.next (if_pos (by rw [h] <;> rfl))
  · exact congrArg Host.Outcome.next ((if_neg (by rw [h]; decide)).trans (by rw [hd] <;> rfl))
  · refine congrArg Host.Outcome.next ((if_neg (by rw [h]; decide)).trans ?_)
    rw [hd]
    dsimp only
    rw [hi] <;> rfl
  · refine congrArg Host.Outcome.next ((if_neg (by rw [h]; decide)).trans ?_)
    rw [hd]
    dsimp only
    rw [hi]
  -- training
  · intro fit t
    exact ⟨fun hf h1 hfit => trainingComplete_unfit hf h1 hfit, fun hf ht h => trainingComplete_trains hf ht h⟩
  -- full service
  · refine (stageFullEntry_eq s).trans (congrArg Host.Outcome.next (if_pos ?_))
    simp only [Bool.or_eq_true, bne_iff_ne, allTested_iff, or_assoc]
    exact h
  · refine (stageFullEntry_eq s).trans (congrArg Host.Outcome.next (if_neg ?_))
    simp only [Bool.or_eq_true, bne_iff_ne, allTested_iff, not_or, Classical.not_not, not_exists, not_and, Bool.not_eq_false]
    exact ⟨⟨⟨h4, hf⟩, ht⟩, hall⟩
  · intro n z at' flow hz ht
    have hr : s.releaseTurned n = if at' != s.ptime then s else
        if Card.spor z.card then (s.modSlot n fun z => { z with skip := z.skip - 1, turned := none }).takeRelease n flow
        else (s.modSlot n fun z => { z with skip := z.skip - 1, turned := none }).releaseCard n at' flow := by
      rw [State.releaseTurned, hz]
      dsimp only
      rw [ht]
    refine ⟨fun h => ?_, fun h hs => ?_⟩
    · rw [hr, if_pos (bne_iff_ne.2 h)]
    · rw [hr, if_neg (by simp [h]), if_neg (hs ▸ Bool.false_ne_true)]
  -- tests
  · refine (selfTestComplete_eq s d res).trans (congrArg Host.Outcome.next (if_pos ?_))
    simpa only [Bool.or_eq_true, decide_eq_true_eq, or_assoc] using h
  · intro logged hh hstage
    have hgo : ∀ e, s.tested e = false → ¬ (s.reeve.halted || decide (s.reeve.stage.toNat < 3) || s.tested e) = true := fun e he => by
      rw [show s.reeve.halted = false from hh, he, decide_eq_false (Nat.not_lt.2 hstage)]
      exact Bool.false_ne_true
    refine ⟨fun u hu => ?_, fun hc => ?_⟩
    · exact (selfTestComplete_eq s (.unit u) res).trans (congrArg Host.Outcome.next (if_neg (hgo _ hu)))
    · exact (selfTestComplete_eq s (.core c) res).trans (congrArg Host.Outcome.next (if_neg (hgo _ hc)))
  · refine congrArg Host.Outcome.next (if_pos ?_)
    simpa only [Bool.or_eq_true, Bool.not_eq_true', Option.isSome_iff_ne_none, or_assoc] using h
  · refine congrArg Host.Outcome.next ((if_neg ?_).trans ?_)
    · rw [show s.reeve.halted = false from hh, hj, hu]; decide
    · simp only [Option.isNone_iff_eq_none]
  · refine congrArg Host.Outcome.next ?_
    rw [State.mstestDone, h]
  · intro full e tpc hm f rep t hnew
    have hm' := mstestComplete_known hm hnew
    refine ⟨fun h => ?_, fun h1 h2 => ?_⟩
    · rw [hm', if_neg]
      simpa only [Bool.and_eq_true, bne_iff_ne, not_and, Classical.not_not, ← Bool.not_eq_true, Decidable.imp_iff_not_or] using h
    · rw [hm', if_pos]
      simpa only [Bool.and_eq_true, bne_iff_ne] using And.intro h1 h2
  -- time
  · intro may
    have hmay : (s.reeve.halted || !s.reeve.counting || decide (3 < s.reeve.stage.toNat) || s.reeve.timeState != .locked || s.reeve.stepped
        || (s.ptime + delta) % 16000000000 != ptp % 16000000000) = true ↔ ¬ may := by
      simp only [may, r, Bool.or_eq_true, Bool.not_eq_true', decide_eq_true_eq, bne_iff_ne,
        Classical.not_and_iff_not_or_not, Bool.not_eq_false, Bool.not_eq_true,
        Nat.not_le, or_assoc, ne_eq]
    exact ⟨fun h => congrArg Host.Outcome.next (if_pos (hmay.2 h)),
      fun h => ⟨_, congrArg Host.Outcome.next (if_neg (mt hmay.1 (Classical.not_not.2 h))), rfl, rfl, rfl⟩⟩
  · intro may
    have hmay : (s.reeve.halted || !timeNext s.reeve.timeState next || decide (s.reeve.timeSrc = 3)) = true ↔ ¬ may := by
      have hn : timeNext s.reeve.timeState next = false ↔ ¬ (next ≠ r.timeState ∧ next ≠ .free ∧ (r.timeState = .free → next = .locking)) := by
        rw [← timeNext_iff, Bool.not_eq_true]
      simp only [Bool.or_eq_true, Bool.not_eq_true', decide_eq_true_eq, hn]
      simp only [may, r, Classical.not_and_iff_not_or_not, Bool.not_eq_false, Classical.not_not]
      grind
    exact ⟨fun h => congrArg Host.Outcome.next (if_pos (hmay.2 h)),
      fun h => ⟨_, congrArg Host.Outcome.next (if_neg (mt hmay.1 (Classical.not_not.2 h))), State.setTimeState_timeState ..⟩⟩
  · intro may
    have hmay : (!s.clockOn p || !s.isPtp frame || !macCarries frame.length) = true ↔ ¬ may := by
      simp only [State.clockOn, macCarries, bit_eq_testBit, may, r, Bool.or_eq_true, Bool.not_eq_true', Bool.and_eq_false_iff,
        decide_eq_false_iff_not, beq_eq_false_iff_ne, bne_eq_false_iff_eq, Classical.not_and_iff_not_or_not,
        Bool.not_eq_true, Classical.not_not, ne_eq,
        Bool.not_eq_false, Bool.not_eq_false', or_assoc]
    refine ⟨fun h => congrArg Host.Outcome.next (if_pos (hmay.2 h)),
      fun h => ⟨_, congrArg Host.Outcome.next (if_neg (mt hmay.1 (Classical.not_not.2 h))), ?_, ?_⟩⟩
    · by_cases hh : s.ptpHeard frame = true
      · rw [if_pos hh]
        exact congrArg (fun t : State => t.reeve.ppm) (if_pos hh)
      · rw [if_neg hh]
        refine (congrArg (fun t : State => t.reeve.ppm) (if_neg ?_)).trans ?_
        · exact hh
        · rfl
    · dsimp only
      split <;> exact congrArg Mac.reeve (mget_mset_same ..)
  · refine congrArg Host.Outcome.next (if_pos ?_)
    simpa only [Bool.or_eq_true, bne_iff_ne] using h
  · refine congrArg Host.Outcome.next (if_neg ?_)
    rw [show s.reeve.halted = false from hh, show s.reeve.timeSrc = 2 from hs]
    decide
  -- clocks and register writes
  · exact congrArg Host.Outcome.next (if_pos h)
  · exact ⟨_, rfl, s.setClock_keeps d mhz.toNat⟩
  · exact fun h => registerWrite_refused h v
  · obtain ⟨hc, ha, hw, ho⟩ := control_window (k := 2) (by decide)
    rw [registerWrite_eq_of_control hc ha hp, hw, ho]
    rfl
  · obtain ⟨hc, ha, hw, ho⟩ := control_window (k := 16) (by decide)
    rw [registerWrite_eq_of_control hc ha hp, hw, ho]
    rfl

end Sys2Proof.Machine
end

