-- ==== Sys2Proof/Proofs/ControlFields.lean ====
section
/-!
Fields of Beadle and Tollgate, channel accounts, LEAVE grants, the power cap and energy (spec/10_progress.md R340, R350 to R356), and writes of
control registers (R383) (O50).
-/

namespace Sys2Proof.Machine

/-! ### Channel accounts (R350 to R352) -/

section
variable (s : State) (ch : Nat) (who : Payer)

/-- The account of a payer at a channel. -/
def accountKey : Nat := ch * 8192 + payerNo who

theorem serve_eq : s.serve ch who =
    if decide (s.payerBudget who = 0) || decide ((mget Account.reset s.beadle.accounts (accountKey ch who)).spent < s.payerBudget who)
        || s.preTraffic who then
      { s with beadle := { s.beadle with
        accounts := mset Account.reset s.beadle.accounts (accountKey ch who) { mget Account.reset s.beadle.accounts (accountKey ch who) with
          spent := (mget Account.reset s.beadle.accounts (accountKey ch who)).spent + 64 }
        charged := mset 0 s.beadle.charged (payerNo who) (mget 0 s.beadle.charged (payerNo who) + 64) } }
    else
      let t := if s.heldOnce who then s else s.overrun ch who
      { t with beadle := { t.beadle with
        accounts := mset Account.reset t.beadle.accounts (accountKey ch who)
          { mget Account.reset s.beadle.accounts (accountKey ch who) with held := true }
        heldReqs := t.beadle.heldReqs ++ [(ch, who)] } } := rfl

theorem preTraffic_iff : s.preTraffic who = true ↔
    ∃ n z, who = .job n ∧ s.slot n = some z ∧ (z.state = .saving ∨ z.state = .saved ∨ z.resuming = true) := by
  cases who with
  | pool p => exact ⟨fun h => (by cases h), fun ⟨n, z, h, _⟩ => (by cases h)⟩
  | job n =>
    have he : s.preTraffic (.job n) = match s.slot n with
      | some z => z.state == .saving || z.state == .saved || z.resuming
      | none => false := rfl
    rw [he]
    constructor
    · intro h
      split at h
      · next z hz => exact ⟨n, z, rfl, hz, by simpa [or_assoc] using h⟩
      · cases h
    · rintro ⟨m, z, hm, hz, h⟩
      cases hm
      rw [hz]
      simpa [or_assoc] using h

end

/-! ### LEAVE grants (R355, R356) -/

/-- The first member of a list that meets a test, and the list without it. -/
theorem find_erase_of_append {α : Type} [DecidableEq α] {p : α → Bool} {pre rest : List α} {l : α} (hpre : ∀ m ∈ pre, p m = false) (hl : p l = true) :
    (pre ++ l :: rest).find? p = some l ∧ (pre ++ l :: rest).erase l = pre ++ rest := by
  have hnot : l ∉ pre := fun h => by rw [hpre l h] at hl; cases hl
  refine ⟨?_, ?_⟩
  · rw [List.find?_append, List.find?_eq_none.2 (fun m hm => by rw [hpre m hm]; exact Bool.false_ne_true), List.find?_cons_of_pos hl]
    rfl
  · rw [List.erase_append_right _ hnot, List.erase_cons_head]

/-- A core's wait for LEAVE ends. -/
def CoreWait.endLeave : CoreWait → CoreWait
  | .leave _ => .none
  | w => w

/-- The grant of a request's units, its issuer still to go on (R355). -/
def State.grantUnits (s : State) (l : LeaveReq) : State :=
  State.grantTo { s with beadle := { s.beadle with leaves := s.beadle.leaves.erase l } } l.agent l.units

theorem leaveGrant_found {s : State} {d : Dom} {l : LeaveReq} (h : (s.beadle.leaves.find? fun l => l.dom == d && s.leaveFits l) = some l) :
    exec (.leaveGrant d) s = .next (if l.resume then s.grantUnits l else match l.agent with
      | .core c _ => (s.grantUnits l).modCore c fun x => { x with wait := x.wait.endLeave }
      | .thr t => match ((s.grantUnits l).thread t).wait with
        | .leave _ => (s.grantUnits l).wakeDone t
        | _ => s.grantUnits l) := by
  have he : exec (.leaveGrant d) s = .next (match s.beadle.leaves.find? fun l => l.dom == d && s.leaveFits l with
    | none => s
    | some l => if l.resume then s.grantUnits l else match l.agent with
      | .core c _ => (s.grantUnits l).modCore c fun x => { x with wait := x.wait.endLeave }
      | .thr t => match ((s.grantUnits l).thread t).wait with
        | .leave _ => (s.grantUnits l).wakeDone t
        | _ => s.grantUnits l) := rfl
  rw [he, h]

theorem leaveGrant_none {s : State} {d : Dom} (h : (s.beadle.leaves.find? fun l => l.dom == d && s.leaveFits l) = none) :
    exec (.leaveGrant d) s = .next s := by
  rw [exec, execLeaveGrant, h]

section
variable (s : State) (l : LeaveReq)

theorem grantTo_core (c : Fin 32) (k : Fin 8) (n : Nat) : s.grantTo (.core c k) n =
    (s.modEng (.core c) fun e => { e with granted := n }).emitAt (.core c k) 0x1B 6 false n 0 0 := rfl

theorem grantTo_thr (t : Tid) (n : Nat) : s.grantTo (.thr t) n =
    (s.modGroup t.unit t.group fun g => { g with granted := n }).emitAt (.thr t) 0x1B 6 false n 0 0 := rfl

theorem grantUnits_leaves : (s.grantUnits l).beadle.leaves = s.beadle.leaves.erase l := by
  have h : ∀ t : State, t.beadle = { s.beadle with leaves := s.beadle.leaves.erase l } →
      (t.emitAt l.agent 0x1B 6 false l.units 0 0).beadle.leaves = s.beadle.leaves.erase l := fun t ht => by
    rw [State.emitAt_beadle, ht]
  rw [State.grantUnits]
  cases ha : l.agent with
  | core c k => rw [grantTo_core, ← ha]; exact h _ rfl
  | thr t => rw [grantTo_thr, ← ha]; exact h _ rfl

theorem grantUnits_core {c : Fin 32} (hd : l.dom = .core c) : ∃ tr, (s.grantUnits l).core c =
    { s.core c with eng := { (s.core c).eng with granted := l.units }, trec := tr } := by
  have ha : l.agent = .core c 0 := by rw [LeaveReq.agent, hd]
  rw [State.grantUnits, ha, grantTo_core]
  obtain ⟨tr, e⟩ := State.emitAt_core (State.modEng { s with beadle := { s.beadle with leaves := s.beadle.leaves.erase l } } (.core c)
    fun e => { e with granted := l.units }) (.core c 0) 0x1B 6 false l.units 0 0 c
  refine ⟨tr, ?_⟩
  rw [e, State.modEng, State.core_modCore, if_pos rfl]
  rfl

theorem grantUnits_unit {u : Fin 32} (hd : l.dom = .unit u) : ((s.grantUnits l).group u l.group).granted = l.units
    ∧ ∃ tr n, (s.grantUnits l).thread ⟨u, l.group, l.thread⟩ = { s.thread ⟨u, l.group, l.thread⟩ with trec := tr, heldSince := n } := by
  have ha : l.agent = .thr ⟨u, l.group, l.thread⟩ := by rw [LeaveReq.agent, hd]
  rw [State.grantUnits, ha, grantTo_thr]
  dsimp only
  generalize hb : State.modGroup { s with beadle := { s.beadle with leaves := s.beadle.leaves.erase l } } u l.group
    (fun g => { g with granted := l.units }) = b
  have hg : b.group u l.group = { s.group u l.group with granted := l.units } := by
    rw [← hb, State.group_modGroup, if_pos ⟨rfl, rfl⟩]
    rfl
  obtain ⟨m, e⟩ := b.emitAt_group (.thr ⟨u, l.group, l.thread⟩) 0x1B 6 false l.units 0 0 u l.group
  obtain ⟨tr, n, e'⟩ := b.emitAt_thread (.thr ⟨u, l.group, l.thread⟩) 0x1B 6 false l.units 0 0 ⟨u, l.group, l.thread⟩
  refine ⟨by rw [e, hg], tr, n, ?_⟩
  rw [e', State.thread, State.thread]
  dsimp only
  rw [hg]

end

/-- A grant to a core: its units, and the core goes on (R355). -/
theorem leaveGrant_core {s : State} {k : Fin 32} {l : LeaveReq}
    (h : (s.beadle.leaves.find? fun l => l.dom == .core k && s.leaveFits l) = some l) (hd : l.dom = .core k) :
    ∃ t, exec (.leaveGrant (.core k)) s = .next t ∧ t.beadle.leaves = s.beadle.leaves.erase l ∧ (t.core k).eng.granted = l.units
      ∧ (t.core k).wait = (match l.resume, (s.core k).wait with
          | false, .leave _ => .none
          | _, w => w) := by
  have ha : l.agent = .core k 0 := by rw [LeaveReq.agent, hd]
  obtain ⟨tr, hc⟩ := grantUnits_core s l hd
  rw [leaveGrant_found h, ha]
  cases hr : l.resume
  · refine ⟨_, rfl, grantUnits_leaves s l, ?_, ?_⟩
    · rw [if_neg Bool.false_ne_true, State.core_modCore, if_pos rfl, hc]
    · rw [if_neg Bool.false_ne_true, State.core_modCore, if_pos rfl, hc]
      cases (s.core k).wait <;> rfl
  · exact ⟨_, rfl, grantUnits_leaves s l, by rw [if_pos rfl, hc], by rw [if_pos rfl, hc]⟩

/-- A grant to a unit's group: its units, and the thread that waits for them goes on (R355, R376). -/
theorem leaveGrant_unit {s : State} {u : Fin 32} {l : LeaveReq}
    (h : (s.beadle.leaves.find? fun l => l.dom == .unit u && s.leaveFits l) = some l) (hd : l.dom = .unit u) :
    let v : Tid := ⟨u, l.group, l.thread⟩
    ∃ t, exec (.leaveGrant (.unit u)) s = .next t ∧ t.beadle.leaves = s.beadle.leaves.erase l ∧ (t.group u l.group).granted = l.units
      ∧ (l.resume = false → ∀ n, (s.thread v).wait = .leave n → (t.thread v).wait = .none ∧ (t.thread v).pc = (s.thread v).pc + 8)
      ∧ ((l.resume = true ∨ ∀ n, (s.thread v).wait ≠ .leave n) → (t.thread v).wait = (s.thread v).wait ∧ (t.thread v).pc = (s.thread v).pc) := by
  intro v
  have ha : l.agent = .thr v := by rw [LeaveReq.agent, hd]
  obtain ⟨hg, tr, n, hv⟩ := grantUnits_unit s l hd
  have hstays : ((s.grantUnits l).thread v).wait = (s.thread v).wait ∧ ((s.grantUnits l).thread v).pc = (s.thread v).pc := by
    rw [show (s.grantUnits l).thread v = _ from hv]
    exact ⟨rfl, rfl⟩
  have hl := grantUnits_leaves s l
  rw [leaveGrant_found h, ha]
  by_cases hgo : l.resume = false ∧ ∃ n, (s.thread v).wait = .leave n
  · obtain ⟨hr, k, hk⟩ := hgo
    obtain ⟨tr', n', hw⟩ := (s.grantUnits l).wakeDone_thread v
    obtain ⟨m, hm⟩ := (s.grantUnits l).wakeDone_group v u l.group
    refine ⟨(s.grantUnits l).wakeDone v, ?_, ?_, ?_, fun _ _ _ => ?_, fun hn => ?_⟩
    · rw [if_neg (hr ▸ Bool.false_ne_true)]
      dsimp only
      rw [hstays.1, hk]
    · rw [State.wakeDone_beadle]; exact hl
    · rw [hm]; exact hg
    · rw [hw, hstays.2]; exact ⟨rfl, rfl⟩
    · rcases hn with h | h
      · rw [hr] at h; cases h
      · exact absurd hk (h k)
  · refine ⟨s.grantUnits l, ?_, hl, hg, fun hr k hk => absurd ⟨hr, k, hk⟩ hgo, fun _ => hstays⟩
    cases hr : l.resume
    · rw [if_neg Bool.false_ne_true]
      dsimp only
      split
      · next k hk => exact absurd ⟨hr, k, hstays.1 ▸ hk⟩ hgo
      · rfl
    · rw [if_pos rfl]

/-! ### Energy (R383) -/

theorem addEnergy_none {s : State} {n : Nat} (h : s.slot n = none) (uj : Nat) : s.addEnergy n uj = s := by
  rw [State.addEnergy, h]

theorem addEnergy_some {s : State} {n : Nat} {z : Slot} (h : s.slot n = some z) (uj : Nat) :
    mget 0 (s.addEnergy n uj).beadle.counters (Card.enidx z.card) = mget 0 s.beadle.counters (Card.enidx z.card) + BitVec.ofNat 64 uj
      ∧ (s.addEnergy n uj).slot n = some { z with energy := z.energy + uj } := by
  have he : s.addEnergy n uj = let t := s.modSlot n fun z => { z with energy := z.energy + uj }
      { t with beadle := { t.beadle with
        counters := mset 0 t.beadle.counters (Card.enidx z.card) (mget 0 s.beadle.counters (Card.enidx z.card) + BitVec.ofNat 64 uj) } } := by
    rw [State.addEnergy, h]
  rw [he]
  refine ⟨mget_mset_same .., ?_⟩
  exact (State.slot_modSlot s n n _).trans (by rw [if_pos rfl, h] <;> rfl)

/-- The slot of the job that an engine's measured energy goes to (R383). -/
def State.energyJob (s : State) : Dom → Option Nat
  | .core c => (s.core c).job
  | .unit u => ((s.unit u).groups.findSome? fun g => g.2).map (·.job)

theorem energyUpdate_engine (s : State) (d : Dom) (uj : Nat) : exec (.energyUpdate (.engine d) uj) s = .next (match s.energyJob d with
    | none => s
    | some n => s.addEnergy n uj) := by
  cases d <;> rfl

theorem energyUpdate_none {s : State} {d : Dom} (h : (s.energyJob d).bind s.slot = none) (uj : Nat) :
    exec (.energyUpdate (.engine d) uj) s = .next s := by
  rw [energyUpdate_engine]
  cases hj : s.energyJob d with
  | none => rfl
  | some n => rw [hj] at h; exact congrArg Host.Outcome.next (addEnergy_none h uj)

/-- Settles O50: fields by their guards, accounts by the account of a payer, grants by the first request that fits. -/
theorem controlFieldsAndAccounts : Obligations.ControlFieldsAndAccounts := by
  unfold Obligations.ControlFieldsAndAccounts
  intro s req v ch tr who d uj gi c pa b same priv dead toll win cap
  have hpriv : (!s.reqPriv req) = true ↔ ¬ priv := by simp only [priv, Bool.not_eq_true', Bool.not_eq_true]
  have hwin : v.toNat < 16000 ∨ 16000000 < v.toNat ↔ ¬ win := by simp only [win]; omega
  refine ⟨fun h => ?_, fun hp hd h => ?_, fun h => ?_, fun hp hd h => ?_, fun h => ?_, fun hp hd h hm => ?_, fun h => ?_, fun hp h => ?_,
    fun hp h1 h2 => ?_, ?_, ?_, fun h => ?_, ?_, ?_, ?_, ?_⟩
  -- fields
  · refine congrArg Host.Outcome.next (if_pos ?_)
    simpa only [Bool.or_eq_true, decide_eq_true_eq, hpriv, or_assoc] using h
  · refine congrArg Host.Outcome.next (if_neg ?_)
    simp only [Bool.or_eq_true, decide_eq_true_eq, hpriv, not_or, Classical.not_not, Nat.not_lt]
    exact ⟨⟨hp, hd⟩, h⟩
  · refine congrArg Host.Outcome.next (if_pos ?_)
    simpa only [Bool.or_eq_true, decide_eq_true_eq, hpriv, or_assoc, hwin] using h
  · refine congrArg Host.Outcome.next (if_neg ?_)
    simp only [Bool.or_eq_true, decide_eq_true_eq, hpriv, or_assoc, hwin, not_or, Classical.not_not]
    exact ⟨hp, hd, h⟩
  · refine congrArg Host.Outcome.next (if_pos ?_)
    simp only [Bool.or_eq_true, decide_eq_true_eq, bne_iff_ne, hpriv]
    grind
  · refine congrArg Host.Outcome.next (if_neg ?_)
    simp only [Bool.or_eq_true, decide_eq_true_eq, bne_iff_ne, hpriv]
    grind
  -- the power cap
  · exact congrArg Host.Outcome.next (if_pos (hpriv.2 h))
  · refine congrArg Host.Outcome.next ((if_neg (mt hpriv.1 (Classical.not_not.2 hp))).trans (if_pos ?_))
    simpa only [Bool.or_eq_true, decide_eq_true_eq] using h
  · refine congrArg Host.Outcome.next ((if_neg (mt hpriv.1 (Classical.not_not.2 hp))).trans ((if_neg ?_).trans ?_))
    · simp only [Bool.or_eq_true, decide_eq_true_eq]
      omega
    · have hcap : BitVec.ofNat 8 (v.toNat % 256) = v.setWidth 8 := BitVec.eq_of_toNat_eq (by simp)
      rw [hcap]
  -- Tollgate's window and accounts
  · intro w opened
    have he : exec (.channelRequest ch tr gi) s = .next (match opened.payerOf tr gi with
      | none => opened
      | some who => opened.serve ch who) := rfl
    exact ⟨rfl, fun h => by rw [he, h], fun p h => by rw [he, h]⟩
  · intro no key a urgent free paid
    have hno : payerNo who = no := by cases who <;> rfl
    have hfree : (decide (s.payerBudget who = 0) || decide ((mget Account.reset s.beadle.accounts (accountKey ch who)).spent < s.payerBudget who)
        || s.preTraffic who) = true ↔ free := by
      simp only [Bool.or_eq_true, decide_eq_true_eq, preTraffic_iff, or_assoc, accountKey, hno]
      rfl
    have he := serve_eq s ch who
    simp only [accountKey, hno] at he hfree
    refine ⟨fun h => ?_, fun h => ?_⟩
    · rw [he, if_pos (hfree.2 h)]
    · rw [he, if_neg (mt hfree.1 h)]
      exact ⟨mget_mset_same .., List.mem_append_right _ (List.mem_singleton_self _)⟩
  -- LEAVE grants
  · have hf : (s.beadle.leaves.find? fun l => l.dom == d && s.leaveFits l) = none := List.find?_eq_none.2 fun l hl e => by
      obtain ⟨h1, h2⟩ := Bool.and_eq_true_iff.1 e
      rw [h l hl (beq_iff_eq.1 h1)] at h2
      cases h2
    exact leaveGrant_none hf
  · intro pre l rest hl hpre hdom hfit
    obtain ⟨hfind, herase⟩ := find_erase_of_append (p := fun l => l.dom == d && s.leaveFits l) (rest := rest)
      (fun m hm => by
        rw [Bool.eq_false_iff]
        exact fun e => hpre m hm ⟨beq_iff_eq.1 (Bool.and_eq_true_iff.1 e).1, (Bool.and_eq_true_iff.1 e).2⟩)
      (Bool.and_eq_true_iff.2 ⟨beq_iff_eq.2 hdom, hfit⟩)
    rw [← hl] at hfind herase
    cases d with
    | core k =>
      obtain ⟨t, ht, hleaves, hg, hw⟩ := leaveGrant_core hfind hdom
      exact ⟨t, ht, hleaves.trans herase, hg, hw⟩
    | unit u =>
      obtain ⟨t, ht, hleaves, hg, hw⟩ := leaveGrant_unit hfind hdom
      exact ⟨t, ht, hleaves.trans herase, hg, hw⟩
  -- energy
  · intro job
    have hjob : s.energyJob d = job := by cases d <;> rfl
    refine ⟨fun h => energyUpdate_none (hjob ▸ h) uj, fun n z hn hz => ?_⟩
    exact ⟨_, (energyUpdate_engine s d uj).trans (by rw [hjob, hn]), addEnergy_some hz uj⟩
  · intro total
    rfl
  -- control registers
  · intro off w
    refine ⟨fun h => ?_, fun hc ha hp ho => ?_, execRegisterWrite_answers req pa v s⟩
    · refine registerWrite_refused ?_ v
      simpa only [priv, Bool.not_eq_true] using h
    · have hw := registerWrite_eq_of_control hc ha hp v
      rw [show (pa - Config.ctlBase) % 2 ^ 24 = 0 from ho] at hw
      refine ⟨fun h => ?_, fun h => ?_, fun h => ?_, fun h => ?_, fun h => ?_⟩ <;>
        exact hw.trans (by rw [show windowOf pa = _ from h] <;> rfl)

end Sys2Proof.Machine
end

