-- ==== Sys2Proof/Proofs/LandingsAndWaits.lean ====
section
/-!
Landings and the ends of waits (spec/01_machine.md R41, spec/07_ordering.md, spec/08_memory_ops.md, spec/10_progress.md): each event by what it
finds, and what it then leaves (O52).
-/

namespace Sys2Proof.Machine

/-! ### The scoreboard and load-blocks (R41, R277) -/

section
variable {s : State} {c : Fin 32}

theorem sbLand_none {i : Nat} (h : (s.core c).sb[i]? = none) : exec (.scoreboardResultLand (.core c i)) s = .next s := by
  have he : exec (.scoreboardResultLand (.core c i)) s = .next (match (s.core c).sb[i]? with
    | some e => if e.blk.isNone then s.landSb c i else s
    | none => s) := rfl
  rw [he, h]

theorem sbLand_some {i : Nat} {e : SbEntry} (h : (s.core c).sb[i]? = some e) : exec (.scoreboardResultLand (.core c i)) s = .next
    (if e.blk.isNone then s.setCore c (e.lands.foldl Core.land { s.core c with sb := dropAt (s.core c).sb i }) else s) := by
  have he : exec (.scoreboardResultLand (.core c i)) s = .next (match (s.core c).sb[i]? with
    | some e => if e.blk.isNone then s.landSb c i else s
    | none => s) := rfl
  rw [he, h]
  dsimp only
  rw [State.landSb, h]
  rfl

theorem fillDue_none {x : Core} (h : ∀ e ∈ x.sb, e.blk = none) : x.fillDue = none := by
  rw [Core.fillDue, List.findSome?_eq_none_iff]
  intro i hi
  have hi' : i < x.sb.length := List.mem_range.1 hi
  rw [List.getElem?_eq_getElem hi', Option.bind_some, h _ (List.getElem_mem hi')]
  rfl

/-- A result's landings leave the blocks. -/
theorem foldl_land_blocks (l : List Land) (x : Core) : (l.foldl Core.land x).blocks = x.blocks := by
  induction l generalizing x with
  | nil => rfl
  | cons a l ih => rw [List.foldl_cons, ih]; cases a <;> rfl

theorem State.landSb_blocks (s : State) (c i : Nat) : ((s.landSb c i).core c).blocks = (s.core c).blocks := by
  unfold State.landSb
  split
  · rfl
  · rw [State.core_modCore, if_pos rfl, foldl_land_blocks]

/-- The lines of a load-block as they are filled, one by one (R277). -/
def fillStep (k : Ctx) (a : List Line × State) (l : Line) : List Line × State :=
  let f := a.2.fillBlockLine k ⟨l.vline * 64, l.pline * 64, l.attr⟩
  (a.1 ++ [f.1], f.2)

theorem foldl_fillStep_length (k : Ctx) (l : List Line) (a : List Line × State) : (l.foldl (fillStep k) a).1.length = a.1.length + l.length := by
  induction l generalizing a with
  | nil => rfl
  | cons x l ih => rw [List.foldl_cons, ih, fillStep]; simp only [List.length_append, List.length_cons, List.length_nil]; omega

theorem blkldFill_eq {k n : Nat} {b : Block} (hk : (s.core c).fillDue = some (k, n)) (hb : mget none (s.core c).blocks n = some b) :
    exec (.blkldFillComplete c) s = .next
      (let r := b.lines.foldl (fillStep (s.ctx (.core c 0))) ([], s)
       (r.2.modCore c fun x => { x with blocks := mset none x.blocks n (some { b with lines := r.1, filled := true }) }).landSb c k) := by
  have he : exec (.blkldFillComplete c) s = .next (match (s.core c).fillDue with
    | none => s
    | some (i, n) => match mget none (s.core c).blocks n with
      | none => s
      | some b => (((b.lines.foldl (fillStep (s.ctx (.core c 0))) ([], s)).2).modCore c fun x => { x with
          blocks := mset none x.blocks n
            (some { b with lines := (b.lines.foldl (fillStep (s.ctx (.core c 0))) ([], s)).1, filled := true }) }).landSb c i) := rfl
  rw [he, hk]
  dsimp only
  rw [hb]

theorem blkldFill_none (h : (s.core c).fillDue = none) : exec (.blkldFillComplete c) s = .next s := by
  rw [exec, execBlkldFillComplete, h]

end

/-! ### Copies (R281, R282) -/

theorem copyError_none {s : State} {d : Dom} {i : Nat} (h : (s.eng d).copies[i]? = none) (va : Word) : exec (.copyError d i va) s = .next s := by
  rw [exec, execCopyError, h]

section
variable {s : State} {d : Dom} {i j : Nat} {e : Copy} (he : (s.eng d).copies[i]? = some e)
include he

theorem landPiece_idle (h : e.left[j]? = none ∨ e.failed ≠ none ∨ copyBehind (s.eng d).copies i = true) : s.landPiece d i j = s := by
  rw [State.landPiece, he]
  dsimp only
  rcases h with h | h
  · rw [h]
  · cases hl : e.left[j]? with
    | none => rfl
    | some q => exact if_pos (by simpa only [Bool.or_eq_true, Option.isSome_iff_ne_none] using h)

theorem landPiece_of_left {pc : Nat × Nat} (hl : e.left[j]? = some pc) (hf : e.failed = none) (hb : copyBehind (s.eng d).copies i = false) :
    s.landPiece d i j =
      let k := s.ctxCard d (s.cardOf e.job)
      let dst := (cmdDst e.cmd).getD .i8
      let place := e.dsts.getD pc.1 (.glob [])
      let lo := pc.2 * pieceElems dst place.packed
      let n := min (pieceElems dst place.packed) (cmdElems e.cmd - lo)
      let s := s.noteReads k (e.reads pc.2 lo n)
      match s.pieceCodes k e pc.2 lo n with
      | .error va => s.modCopy d i fun c => { c with failed := some va }
      | .ok codes =>
        let bs := packElems dst place.packed (codes.map (convertCopy ((cmdSrc e.cmd).getD .i8) dst))
        match s.copyStore k e.job place (layoutBytes dst place.packed lo) bs with
        | .error va => s.modCopy d i fun c => { c with failed := some va }
        | .ok s =>
          let left := dropAt e.left j
          let more := left.any fun r => r.2 == pc.2
          let s := s.modCopy d i fun c =>
            { c with left := left, got := if more then minsert (merase c.got pc.2) pc.2 codes else merase c.got pc.2 }
          let s := (if e.multi then (e.syncs.drop pc.1).take 1 else e.syncs).foldl (fun s p => s.countLanding e.job bs.length p) s
          if left = [] then (e.sems.foldl (fun s p => s.signalPlace e.job p) s).endCopy d i else s := by
  rw [State.landPiece, he]
  dsimp only
  rw [hl]
  dsimp only
  rw [hf, hb]
  rfl

theorem copyError_eq (va : Word) : exec (.copyError d i va) s = .next
    (let gone := (s.emitAt e.issuer 0x29 4 false 0x16 0 0).endCopy d i
     if !(((s.slot e.job).map fun z => z.endStatus.isNone) == some true) then gone
     else match e.issuer with
       | .core .. => gone.copyTrapCore e (e.failed.getD va.toNat)
       | .thr t => gone.copyTrapThread t e (e.failed.getD va.toNat)) := by
  rw [exec, execCopyError, he] <;> rfl

end

theorem slotLive_iff (s : State) (n : Nat) :
    ((s.slot n).map fun z => z.endStatus.isNone) == some true ↔ ∃ z, s.slot n = some z ∧ z.endStatus = none := by
  cases s.slot n with
  | none => simp
  | some z => simp

/-! ### Threads' waits (R298, R345, R373) -/

section
variable {s : State}

theorem landBusy_eq (t : Tid) (i : Nat) {o : Option Busy} (h : (s.thread t).busy[i]? = o) : s.landBusy t i =
    (match o.bind (·.lut) with
     | some e => s.takeImage t e.1 e.2
     | none => s).modThread t fun x => { x with busy := dropAt x.busy i } := by
  subst h
  rfl

theorem mmaLand_nil {c : Fin 32} (h : (s.core c).sm = []) : exec (.mmaResultLand c) s = .next s := by
  rw [exec, execMmaResultLand, h]

theorem mmaLand_cons {c : Fin 32} {e : SmEntry} {rest : List SmEntry} (h : (s.core c).sm = e :: rest) : exec (.mmaResultLand c) s = .next
    (match e.bound with
     | some v => s.coreTrap c 0x21 v e.tpc
     | none => s.modCore c fun x => { x with sm := rest }.landSm e) := by
  have he : exec (.mmaResultLand c) s = .next (match (s.core c).sm with
    | [] => s
    | e :: rest => match e.bound with
      | some v => s.coreTrap c 0x21 v e.tpc
      | none => s.modCore c fun x => { x with sm := rest }.landSm e) := rfl
  rw [he, h]

theorem semwait_none {u : Fin 32} {g sem : Nat} (h : ∀ e ∈ (s.group u g).semq, e.1 ≠ sem) : exec (.semwaitSatisfy u g sem) s = .next s := by
  have hf : ((s.group u g).semq.find? fun q => q.1 == sem) = none :=
    List.find?_eq_none.2 fun e he => by simpa only [beq_iff_eq] using h e he
  rw [exec, execSemwaitSatisfy]
  dsimp only
  rw [hf]

theorem semwait_head {u : Fin 32} {g sem n l k : Nat} {rest : List (Nat × Nat)} (hq : (s.group u g).semq = (sem, n) :: rest)
    (hw : (s.thread ⟨u, g, n⟩).wait = .sem l k) : exec (.semwaitSatisfy u g sem) s = .next
      (if mget 0 (s.group u g).sem sem < k then s
       else (s.setGroup u g { s.group u g with sem := mset 0 (s.group u g).sem sem (mget 0 (s.group u g).sem sem - k), semq := rest }).wakeDone
         ⟨u, g, n⟩) := by
  have hf : ((s.group u g).semq.find? fun q => q.1 == sem) = some (sem, n) := by
    rw [hq]; exact List.find?_cons_of_pos (beq_self_eq_true sem)
  have hr : (s.group u g).semq.erase (sem, n) = rest := by rw [hq, List.erase_cons_head]
  have he : exec (.semwaitSatisfy u g sem) s = .next (match (s.group u g).semq.find? fun q => q.1 == sem with
    | none => s
    | some q => match (s.thread ⟨u, g, q.2⟩).wait with
      | .sem _ k => if mget 0 (s.group u g).sem sem < k then s
        else (s.setGroup u g { s.group u g with
          sem := mset 0 (s.group u g).sem sem (mget 0 (s.group u g).sem sem - k), semq := (s.group u g).semq.erase q }).wakeDone ⟨u, g, q.2⟩
      | _ => s) := rfl
  rw [he, hf]
  dsimp only
  rw [hw]
  dsimp only
  rw [hr]

theorem swait_thread {t : Tid} {i off gen r : Nat} {acq : Bool} {sc : Scope} {bs : List Byte} (hw : (s.thread t).wait = .sync off gen r acq sc)
    (hb : s.loadLocal (.thr t) off 8 = .ok bs) : exec (.swaitSatisfy (.thread t i)) s = .next (if !reached (leNat bs) gen then s
      else ((if acq then s.acquireAt (.unit t.unit) sc else s).putX t r (BitVec.ofNat 64 (leNat bs))).wakeDone t) := by
  have he : exec (.swaitSatisfy (.thread t i)) s = .next (match (s.thread t).wait with
    | .sync off gen d acq sc => match s.loadLocal (.thr t) off 8 with
      | .error f => (s.threadTrap t f.trap.cause f.trap.tval).fillTmask t.unit
      | .ok bs => if !reached (leNat bs) gen then s
        else (((if acq then s.acquireAt (.unit t.unit) sc else s).putX t d (BitVec.ofNat 64 (leNat bs)))).wakeDone t
    | _ => s) := rfl
  rw [he, hw]
  dsimp only
  rw [hb]

/-! ### Barriers (R374) -/

/-- One change of each core of a list without repetition. -/
theorem State.core_foldl_modCore_nodup (f : Core → Core) {l : List Nat} (h : l.Nodup) (s : State) (q : Nat) :
    (l.foldl (fun s j => s.modCore j f) s).core q = if q ∈ l then f (s.core q) else s.core q := by
  induction l generalizing s with
  | nil => rfl
  | cons j l ih =>
    obtain ⟨hj, hl⟩ := List.nodup_cons.1 h
    rw [List.foldl_cons, ih hl, State.core_modCore]
    by_cases hq : j = q
    · subst hq
      simp [hj]
    · simp [hq, Ne.symm hq]

theorem foldl_modCore_beadle (f : Core → Core) (l : List Nat) (s : State) : (l.foldl (fun s j => s.modCore j f) s).beadle = s.beadle := by
  induction l generalizing s with
  | nil => rfl
  | cons j l ih => exact ih _

theorem barFull_iff (s : State) (u : Fin 32) (g level id : Nat) :
    s.barFull u g level id = true ↔ ∀ b ∈ (s.group u g).expects level id, b ∈ (s.group u g).bars := by
  simp only [State.barFull, List.all_eq_true, List.contains_iff_mem]

theorem barGroup_eq (s : State) (u : Fin 32) (g : Nat) (id : Fin 16) :
    exec (.barComplete (.group u g id)) s = .next (if s.barFull u g 0 id then s.openBar u g 0 id false else s) := rfl

theorem barBlock_eq (s : State) (i : Nat) (id : Fin 16) : exec (.barComplete (.block i id)) s = .next
    (let gs := s.jobGroups i
     let wide := (gs.map (·.1)).eraseDups.length != 1
     if !gs.all fun p => s.barFull p.1 p.2 1 id then s
     else gs.foldl (fun s p => s.openBar p.1 p.2 1 id wide) (if wide then gs.foldl (fun s p => s.releaseAt (.unit p.1) .device) s else s)) := rfl

/-- The cores of a job whose parts have not ended. -/
def State.coresOf (s : State) (n : Nat) : List Nat := (List.range 32).filter fun c => (s.core c).job == some n && (s.core c).part != .ended

theorem barJob_none {i : Nat} (h : s.slot i = none) (id : Fin 16) : exec (.barComplete (.job i id)) s = .next s := by
  rw [exec, execBarComplete]
  dsimp only
  rw [h]

theorem barJob_eq {i : Nat} {z : Slot} (hz : s.slot i = some z) (id : Fin 16) : exec (.barComplete (.job i id)) s = .next
    (if z.state != .running || !(s.coresOf i).all fun c => z.bars.contains (id.val, (s.core c).idx) then s
     else (s.coresOf i).foldl (fun s c => s.modCore c fun x => { x with wait := x.wait.passBar id.val })
       (s.modSlot i fun z => { z with bars := z.bars.filter fun x => x.1 != id.val })) := by
  have he : exec (.barComplete (.job i id)) s = .next (match s.slot i with
    | none => s
    | some z => if z.state != .running || !(s.coresOf i).all fun c => z.bars.contains (id.val, (s.core c).idx) then s
      else (s.coresOf i).foldl (fun s c => s.modCore c fun x => { x with wait := x.wait.passBar id.val })
        (s.modSlot i fun z => { z with bars := z.bars.filter fun x => x.1 != id.val })) := rfl
  rw [he, hz]

/-! ### Removals and held records (R319, R407) -/

theorem tlbinvComplete_none {i : Nat} (h : s.iso.removals[i]? = none) : exec (.tlbinvComplete i) s = .next s := by
  rw [exec, execTlbinvComplete, h]

theorem tlbinvComplete_eq {i : Nat} {r : Removal} (h : s.iso.removals[i]? = some r) : exec (.tlbinvComplete i) s = .next
    (if !s.removalDone r then s
     else
       let gone := { s with iso := { s.iso with removals := dropAt s.iso.removals i } }
       match r.waiter with
       | .core c => gone.modCore c fun x => { x with wait := if x.wait == .tlbinv then .none else x.wait }
       | .thread t => if (gone.thread t).wait == .tlbinv then gone.wakeDone t else gone
       | .window => match s.iso.invHeld with
         | [] => { s with iso := { s.iso with removals := dropAt s.iso.removals i, invBusy := false } }
         | (addr, cmd, w) :: rest => State.startInv { s with iso := { s.iso with
             removals := dropAt s.iso.removals i, invBusy := false, invHeld := rest } } addr cmd w) := by
  rw [exec, execTlbinvComplete, h] <;> rfl

theorem acceptCore_nil {c : Nat} (h : (s.core c).trec = []) : s.acceptCore c = s := by
  rw [State.acceptCore, h]

theorem acceptCore_cons {c : Nat} {r : List Byte} {rest : List (List Byte)} (h : (s.core c).trec = r :: rest) : s.acceptCore c =
    if !(s.offerHeld r).1 then s else ((s.offerHeld r).2.modCore c fun x => { x with trec := rest }).settleCore c := by
  rw [State.acceptCore, h]

theorem acceptThread_single (u : Fin 32) (k : Nat × Nat × Nat) : s.acceptThread u [] [k] =
    match (s.thread ⟨u, k.1, k.2.1⟩).trec with
    | [] => s
    | r :: rest => if !(s.offerHeld r).1 then s
      else
        let t := ((s.offerHeld r).2.modThread ⟨u, k.1, k.2.1⟩ fun x => { x with trec := rest }).modUnit u fun v =>
          { v with traceq := v.traceq.erase k }
        if rest = [] then t.threadStall ⟨u, k.1, k.2.1⟩ 4 (t.thread ⟨u, k.1, k.2.1⟩).heldSince else t := rfl

theorem offerHeld_eq (r : List Byte) : s.offerHeld r =
    if !(s.tdesc (recPlace r).1).takes (recPlace r).2.2 then (true, s)
    else if !(s.offer (recPlace r).1 (recPlace r).2.1 (recPlace r).2.2 r).1 && (s.tdesc (recPlace r).1).mode != 2 then
      (true, (s.offer (recPlace r).1 (recPlace r).2.1 (recPlace r).2.2 r).2.loseRec (recPlace r).1)
    else s.offer (recPlace r).1 (recPlace r).2.1 (recPlace r).2.2 r := rfl

theorem preimage_none {i : Nat} (h : s.slot i = none) (va : Word) : exec (.capturePreimageWritten i va) s = .next s := by
  rw [exec, execCapturePreimageWritten, h]

theorem preimage_eq {i : Nat} {z : Slot} (hz : s.slot i = some z) (va : Word) : exec (.capturePreimageWritten i va) s = .next
    (match z.touched.find? fun e => e.1 == va.toNat with
     | none => s
     | some e => (s.capWrite i (s.capSrc i) 0x3D (e.1 * 4096) e.2).modSlot i fun z =>
         { z with capture := z.capture.map fun l => insertNat l e.1, touched := z.touched.filter fun q => q.1 != e.1 }) := by
  have he : exec (.capturePreimageWritten i va) s = .next (match s.slot i with
    | none => s
    | some z => match z.touched.find? fun e => e.1 == va.toNat with
      | none => s
      | some e => (s.capWrite i (s.capSrc i) 0x3D (e.1 * 4096) e.2).modSlot i fun z =>
          { z with capture := z.capture.map fun l => insertNat l e.1, touched := z.touched.filter fun q => q.1 != e.1 }) := rfl
  rw [he, hz]

end

/-- Settles O52: each landing and each end of a wait by what it finds. -/
theorem resultsLandAndWaitsEnd : Obligations.ResultsLandAndWaitsEnd := by
  unfold Obligations.ResultsLandAndWaitsEnd
  intro s c i j d va t q u g sem id x y same goes live
  refine ⟨fun h => sbLand_none h, fun h => ?_, fun b h => ?_, fun e h => ⟨fun hb => ?_, fun hb => ?_⟩, fun h => ?_, fun e rest h => ?_,
    fun h => blkldFill_none (fillDue_none h), fun k n b hk hb => ?_, fun h => ?_, fun e he => ⟨fun h => ?_, fun pc hl hf hb => ?_, ?_⟩,
    fun h => ?_, fun h hc => ?_, fun h => ?_, fun h hc => ?_, fun h => semwait_none h, fun n rest k l hq hw => ?_, rfl,
    fun off gen r acq sc bs hw hb => ?_, ?_, fun h => ?_, fun h => ?_, ?_, fun h => ?_, fun z hz => ?_, fun h => ?_, fun r hr => ?_, fun h => ?_,
    fun r rest h => ?_, fun k hk => ?_, fun r => ?_, fun h => ?_, fun z hz => ?_⟩
  -- results
  · refine congrArg Host.Outcome.next (?_ : s.landBusy t i = _)
    rw [landBusy_eq t i h] <;> rfl
  · refine congrArg Host.Outcome.next (?_ : s.landBusy t i = _)
    rw [landBusy_eq t i h, Option.bind_some]
    cases b.lut <;> rfl
  · refine (sbLand_some h).trans (congrArg Host.Outcome.next (if_neg ?_))
    rwa [Option.isNone_iff_eq_none]
  · exact (sbLand_some h).trans (congrArg Host.Outcome.next (if_pos (Option.isNone_iff_eq_none.2 hb)))
  -- tiles and load-blocks
  · exact mmaLand_nil h
  · have he := mmaLand_cons h
    exact ⟨fun v hv => he.trans (by rw [hv]), fun hv => he.trans (by rw [hv] <;> rfl)⟩
  · refine ⟨_, (b.lines.foldl (fillStep (s.ctx (.core c 0))) ([], s)).1, blkldFill_eq hk hb, ?_, ?_⟩
    · rw [State.landSb_blocks, State.core_modCore, if_pos rfl]
      dsimp only
      rw [mget_mset_same]
    · rw [foldl_fillStep_length, List.length_nil, Nat.zero_add]
  -- copies
  · refine ⟨congrArg Host.Outcome.next ?_, ?_⟩
    · rw [State.landPiece, h]
    · exact copyError_none h va
  · exact congrArg Host.Outcome.next (landPiece_idle he h)
  · have hp := landPiece_of_left he hl hf hb
    intro k dst place lo n s0 fails
    refine ⟨fun a ha => congrArg Host.Outcome.next ?_, fun codes hcodes => ?_⟩
    · rw [hp]
      dsimp only
      rw [ha]
    · intro bs st
      refine ⟨fun a ha => congrArg Host.Outcome.next ?_, fun s1 hs => ?_⟩
      · dsimp only [st, bs, s0, k, dst, place, lo, n] at ha
        rw [hp]
        dsimp only
        rw [hcodes]
        dsimp only
        rw [ha]
      · dsimp only [st, bs, s0, k, dst, place, lo, n] at hs
        refine congrArg Host.Outcome.next ?_
        rw [hp]
        dsimp only
        rw [hcodes]
        dsimp only
        rw [hs]
  · intro gone a
    have hlive := slotLive_iff s e.job
    refine ⟨fun hn => (copyError_eq he va).trans ?_, fun c' k hlv hi => (copyError_eq he va).trans ?_,
      fun t' hlv hi => (copyError_eq he va).trans ?_⟩
    · refine congrArg Host.Outcome.next (if_pos ?_)
      rw [Bool.not_eq_true', Bool.eq_false_iff]
      exact mt hlive.1 hn
    · dsimp only [gone, a]
      rw [if_neg (by rw [hlive.2 hlv]; exact Bool.false_ne_true), hi]
    · dsimp only [gone, a]
      rw [if_neg (by rw [hlive.2 hlv]; exact Bool.false_ne_true), hi]
  -- threads
  · refine congrArg Host.Outcome.next (if_pos ?_)
    rwa [Bool.or_eq_true, bne_iff_ne, bne_iff_ne]
  · refine ⟨_, congrArg Host.Outcome.next (if_neg ?_), ?_⟩
    · rw [Bool.or_eq_true, bne_iff_ne, bne_iff_ne, not_or, Classical.not_not, Classical.not_not]
      exact ⟨h, hc⟩
    · rw [State.thread_modThread_same]
      exact ⟨rfl, rfl, rfl⟩
  · refine congrArg Host.Outcome.next (if_pos ?_)
    rwa [Bool.or_eq_true, bne_iff_ne, bne_iff_ne]
  · refine congrArg Host.Outcome.next (if_neg ?_)
    rw [Bool.or_eq_true, bne_iff_ne, bne_iff_ne, not_or, Classical.not_not, Classical.not_not]
    exact ⟨h, hc⟩
  · intro v
    have he := semwait_head hq hw
    exact ⟨fun h => he.trans (congrArg Host.Outcome.next (if_pos h)), fun h => he.trans (congrArg Host.Outcome.next (if_neg (Nat.not_lt.2 h)))⟩
  · have he := swait_thread (i := i) hw hb
    exact ⟨fun h => he.trans (congrArg Host.Outcome.next (if_pos (by rw [h]; rfl))),
      fun h => he.trans (congrArg Host.Outcome.next (if_neg (by rw [h]; exact Bool.false_ne_true)))⟩
  -- queues
  · intro w
    have he : exec (.qpushRoom q) s = .next (if w.items.length < w.cap || w.waiters != [] then
      (s.allTids.filter fun t => (s.thread t).wait == .push q.toNat).foldl State.wake s else s) := rfl
    refine ⟨fun h hw => he.trans (congrArg Host.Outcome.next (if_neg ?_)), fun h => he.trans (congrArg Host.Outcome.next (if_pos ?_))⟩
    · rw [Bool.or_eq_true, decide_eq_true_eq, bne_iff_ne, not_or, Classical.not_not]
      exact ⟨Nat.not_lt.2 h, hw⟩
    · rwa [Bool.or_eq_true, decide_eq_true_eq, bne_iff_ne]
  -- barriers
  · refine (barGroup_eq s u g id).trans (congrArg Host.Outcome.next (if_neg ?_))
    rw [barFull_iff]
    exact fun hall => h.elim fun b hb => hb.2 (hall b hb.1)
  · exact (barGroup_eq s u g id).trans (congrArg Host.Outcome.next (if_pos ((barFull_iff ..).2 h)))
  · intro gs wide
    refine ⟨fun h => (barBlock_eq s i id).trans (congrArg Host.Outcome.next (if_pos ?_)),
      fun h => (barBlock_eq s i id).trans (congrArg Host.Outcome.next (if_neg ?_))⟩
    · obtain ⟨p, hp, hn⟩ := h
      rw [Bool.not_eq_true', List.all_eq_false]
      exact ⟨p, hp, by rw [hn]; exact Bool.false_ne_true⟩
    · rw [Bool.not_eq_true', Bool.not_eq_false, List.all_eq_true]
      exact h
  · exact barJob_none h id
  · intro cs
    have hne : (z.state != .running || !cs.all fun c => z.bars.contains (id.val, (s.core c).idx)) = true ↔
        (z.state ≠ .running ∨ ∃ k ∈ cs, (id.val, (s.core k).idx) ∉ z.bars) := by
      simp only [Bool.or_eq_true, bne_iff_ne, Bool.not_eq_true', List.all_eq_false, List.contains_iff_mem, ne_eq]
    have hbar := State.core_foldl_modCore_nodup (fun x => { x with wait := x.wait.passBar id.val }) (l := cs) (List.nodup_range.filter _)
      (s.modSlot i fun z => { z with bars := z.bars.filter fun x => x.1 != id.val })
    have hcore (k : Nat) : (s.modSlot i fun z => { z with bars := z.bars.filter fun x => x.1 != id.val }).core k = s.core k := by
      rw [State.core, State.modSlot_cores, State.core]
    simp only [hcore] at hbar
    refine ⟨fun h => (barJob_eq hz id).trans (congrArg Host.Outcome.next (if_pos (hne.2 h))), fun hrun hall =>
      ⟨_, (barJob_eq hz id).trans (congrArg Host.Outcome.next (if_neg (mt hne.1 ?_))), ?_, fun k hk => ?_, fun k hk hkc => ?_⟩⟩
    · rintro (h | ⟨k, hk, h⟩)
      · exact h hrun
      · exact h (hall k hk)
    · refine ⟨{ z with bars := z.bars.filter fun x => x.1 != id.val }, ?_, rfl⟩
      rw [State.slot, foldl_modCore_beadle]
      exact (State.slot_modSlot ..).trans (by rw [if_pos rfl, hz]; rfl)
    · exact congrArg Core.wait ((hbar k).trans (if_pos hk))
    · exact (hbar k).trans (if_neg hkc)
  -- removals
  · exact tlbinvComplete_none h
  · have he := tlbinvComplete_eq hr
    intro gone
    refine ⟨fun h => he.trans (congrArg Host.Outcome.next (if_pos (by rw [h]; rfl))), fun h => ?_⟩
    rw [h, Bool.not_true, if_neg Bool.false_ne_true] at he
    dsimp only at he
    refine ⟨fun c' hw hc => he.trans ?_, fun t' hw ht => he.trans ?_, fun hw hh => he.trans ?_⟩
    · rw [hw]
      refine congrArg (fun w => Host.Outcome.next (gone.setCore c' { s.core c' with wait := w })) (if_pos ?_)
      exact beq_iff_eq.2 hc
    · rw [hw]
      exact congrArg Host.Outcome.next (if_pos (beq_iff_eq.2 ht))
    · rw [hw]
      dsimp only
      rw [hh]
  -- held records
  · exact congrArg Host.Outcome.next (acceptCore_nil h)
  · intro w
    have he : exec (.traceRecordAccept (.core c)) s = .next (s.acceptCore c) := rfl
    rw [acceptCore_cons h] at he
    exact ⟨fun hn => he.trans (congrArg Host.Outcome.next (if_pos (by rw [show (s.offerHeld r).1 = false from hn]; rfl))),
      fun hy => he.trans (congrArg Host.Outcome.next (if_neg (by rw [show (s.offerHeld r).1 = true from hy]; exact Bool.false_ne_true)))⟩
  · intro v
    have he : exec (.traceRecordAccept (.unit u)) s = .next (s.acceptThread u [] (s.unit u).traceq) := rfl
    rw [hk, acceptThread_single] at he
    refine ⟨fun h => ?_, fun r rest h => ?_⟩
    · rw [h] at he
      exact he
    · intro w
      rw [h] at he
      dsimp only at he
      exact ⟨fun hn => he.trans (congrArg Host.Outcome.next (if_pos (by rw [show (s.offerHeld r).1 = false from hn]; rfl))),
        fun hy => he.trans (congrArg Host.Outcome.next (if_neg (by rw [show (s.offerHeld r).1 = true from hy]; exact Bool.false_ne_true)))⟩
  · intro p d w
    refine ⟨fun h => (offerHeld_eq r).trans (if_pos (by rw [show (s.tdesc (recPlace r).1).takes _ = false from h]; rfl)), fun h =>
      (offerHeld_eq r).trans ((if_neg (by rw [show (s.tdesc (recPlace r).1).takes _ = true from h]; exact Bool.false_ne_true)).trans
        (ite_of_iff ?_))⟩
    rw [Bool.and_eq_true, Bool.not_eq_true', bne_iff_ne]
  -- pre-images
  · exact preimage_none h va
  · have he := preimage_eq hz va
    refine ⟨fun h => ?_, fun bs rest h => ?_⟩
    · rw [List.find?_eq_none.2 fun e hm => by simpa only [beq_iff_eq] using h e hm] at he
      exact he
    · rw [h, List.find?_cons_of_pos (p := fun e : Nat × List Byte => e.1 == va.toNat) (beq_self_eq_true va.toNat)] at he
      refine ⟨_, he, fun z' hz' e hm => ?_⟩
      rw [State.slot_modSlot, if_pos rfl] at hz'
      obtain ⟨y, -, rfl⟩ := Option.map_eq_some_iff.1 hz'
      exact bne_iff_ne.1 (List.mem_filter.1 hm).2

end Sys2Proof.Machine
end

