-- ==== Sys2Proof/Proofs/Supervision.lean ====
section
/-!
Failures, errors, the safety bus, debug, trace descriptors and queue configuration (spec/12_recovery.md R438 to R444, spec/13_boundary.md,
spec/09_time_trace.md, spec/08_memory_ops.md): each event by its guard (O53).
-/

namespace Sys2Proof.Machine

variable {s : State}

/-! ### Failures and errors (R438 to R440) -/

theorem declareFailed_able {d : Dom} (hi : (s.eng d).inService = true) (hf : (s.eng d).failed = none) (hh : s.reeve.halted = false) (k : Nat) :
    s.declareFailed d k = s.modEng d fun e => { e with failed := some k } :=
  if_pos (by rw [hi, hf, hh]; rfl)

theorem declareFailed_not {d : Dom} (h : ¬ ((s.eng d).inService = true ∧ (s.eng d).failed = none ∧ s.reeve.halted = false)) (k : Nat) :
    s.declareFailed d k = s := by
  refine if_neg (mt (fun h' => ?_) h)
  simpa only [Bool.and_eq_true, Option.isNone_iff_eq_none, Bool.not_eq_true', and_assoc] using h'

/-- An engine that need make no progress (R439). -/
def State.idleDom (s : State) : Dom → Bool
  | .core c => s.watchExempt c
  | .unit u => (s.unit u).eng.stopped.isSome || ((s.unit u).tids u).all fun t => !s.threadReady t

theorem watchdog_eq (d : Dom) : exec (.watchdogTimeout d) s = .next
    (if !s.idleDom d && (s.eng d).progress + 1600000 ≤ s.ptime then s.declareFailed d 2 else s) := by
  cases d <;> rfl

theorem watchdog_idle {d : Dom} (h : s.idleDom d = true) : exec (.watchdogTimeout d) s = .next s := by
  rw [watchdog_eq, h]
  rfl

theorem watchdog_early {d : Dom} (h : s.ptime < (s.eng d).progress + 1600000) : exec (.watchdogTimeout d) s = .next s := by
  rw [watchdog_eq, decide_eq_false (Nat.not_le.2 h), Bool.and_false]
  rfl

theorem watchdog_due {d : Dom} (h : s.idleDom d = false) (hp : (s.eng d).progress + 1600000 ≤ s.ptime) :
    exec (.watchdogTimeout d) s = .next (s.declareFailed d 2) := by
  rw [watchdog_eq, h, decide_eq_true hp]
  rfl

theorem idleDom_unit_iff (u : Fin 32) :
    s.idleDom (.unit u) = false ↔ (s.unit u).eng.stopped = none ∧ ∃ t ∈ (s.unit u).tids u, s.threadReady t = true := by
  simp only [State.idleDom, Bool.or_eq_false_iff, Option.isSome_eq_false_iff, Option.isNone_iff_eq_none, List.all_eq_false, Bool.not_eq_true',
    Bool.not_eq_false]

/-- A job lost with a domain, or the saved share of a core's job that is kept elsewhere (R442). -/
def loseOn (d : Dom) (reason : Nat) (s : State) (j : Nat × Slot) : State :=
  match d with
  | .core c => if j.2.state == .saved && 4 ≤ reason then (s.moveShares j.1 c).stepLog d j.1 else s.loseJob d j.1 j.2
  | .unit _ => s.loseJob d j.1 j.2

/-- A failed domain fenced, its jobs dealt with by `lose`, the domain reset, and the cards homed there bound again (R439 to R441). -/
def State.failDomain (s : State) (d : Dom) (reason : Nat) (lose : State → Nat × Slot → State) : State :=
  let log : State → State := fun t => t.errorLog (s.eng d).world d.src 4 0 0 0 0 reason
  let s0 := log (s.fence d)
  let s1 := if s.jobsOn d = [] then log s0 else s0
  (log (((s.jobsOn d).foldl lose s1).resetDom d)).countService.rebindAll fun z => match d with
    | .core c => Card.eng z.card == 0 && z.home.contains c.val
    | .unit u => Card.eng z.card == 1 && z.home.contains u.val

theorem domainFailed_eq {d : Dom} {reason : Fin 6} (hh : s.reeve.halted = false) (hf : (s.eng d).failed = some reason.val)
    (hi : (s.eng d).inService = true) : exec (.domainFailed d reason) s = .next (s.failDomain d reason (loseOn d reason.val)) := by
  refine congrArg Host.Outcome.next ((if_neg ?_).trans ?_)
  · rw [hh, hf, hi]
    simp
  · cases d <;> rfl

/-! ### The safety bus (R444) -/

theorem sendSafe_eq (s : State) : s.sendSafe = { s with reeve := { s.reeve with
    canOut := s.reeve.canOut ++ [(0, s.safeFrame), (1, s.safeFrame)], safetySent := s.ptime } } := by
  rw [← List.singleton_append (l := [(1, s.safeFrame)]), ← List.append_assoc]
  rfl

/-- The frame of a slot on the controllers that its control byte names (R444). -/
def State.txSend (s : State) (slot : Fin 16) : State :=
  if bit (fieldAt (s.txSlot slot) 88 1) 2 then (s.canSend 0 ((s.txSlot slot).take 88)).canSend 1 ((s.txSlot slot).take 88)
  else s.canSend (b2n (bit (fieldAt (s.txSlot slot) 88 1) 1)) ((s.txSlot slot).take 88)

theorem txSend_ptime (slot : Fin 16) : (s.txSend slot).ptime = s.ptime := by
  unfold State.txSend
  split <;> rfl

theorem txSend_canOut (slot : Fin 16) : (s.txSend slot).reeve.canOut = s.reeve.canOut ++
    (if bit (fieldAt (s.txSlot slot) 88 1) 2 then [(0, (s.txSlot slot).take 88), (1, (s.txSlot slot).take 88)]
     else if bit (fieldAt (s.txSlot slot) 88 1) 1 then [(1, (s.txSlot slot).take 88)] else [(0, (s.txSlot slot).take 88)]) := by
  unfold State.txSend
  split
  · exact List.append_assoc ..
  · cases bit (fieldAt (s.txSlot slot) 88 1) 1 <;> rfl

theorem txComplete_eq (slot : Fin 16) (st : Fin 3) : exec (.safetyTxComplete slot st) s = .next
    (if s.reeve.halted || (List.range 16).find? (fun i => txReady (s.txSlot i)) != some slot.val then s
     else
       let t := if st != 0 then s else s.txSend slot
       t.setTx slot (putField (putField (putField (s.txSlot slot) 88 1 (fieldAt (s.txSlot slot) 88 1 / 2 * 2)) 89 1 st.val) 96 8 t.ptime)) := rfl

/-- A received frame in slot `i` (R444). -/
def State.rxStore (s : State) (ctl : Bool) (f : CanFrame) (i : Nat) : State :=
  let b := putField (putField (putBytes (zeros 128) 0 ((f.bytes ++ zeros 88).take 88)) 88 1 (1 + 2 * b2n ctl)) 96 8 s.ptime
  { s with reeve := { s.reeve with rxSlots := mset (zeros 128) s.reeve.rxSlots i b } }

theorem rxFrame_eq (ctl : Bool) (f : CanFrame) : exec (.safetyRxFrame ctl f) s = .next (if s.reeve.halted then s
    else match (List.range 32).find? fun i => !bit (fieldAt (mget (zeros 128) s.reeve.rxSlots i) 88 1) 0 with
      | none => { s with reeve := { s.reeve with rxDrops := min (s.reeve.rxDrops + 1) (2 ^ 64 - 1) } }
      | some i => s.rxStore ctl f i) := rfl

/-- The slot that is sent next: the lowest ready one. -/
theorem txNext_iff (slot : Fin 16) : (List.range 16).find? (fun i => txReady (s.txSlot i)) = some slot.val ↔
    txReady (s.txSlot slot) = true ∧ ∀ i < slot.val, txReady (s.txSlot i) = false := by
  rw [List.find?_range_eq_some]
  simp only [List.mem_range, slot.isLt, true_and, Bool.not_eq_true']

/-! ### Trace descriptors and queues -/

theorem tdesc_setTdesc (p : Nat) (d : TraceDesc) : (s.setTdesc p d).tdesc p = d := mget_mset_same ..

/-- The descriptor's bytes as they are kept: only a secure requester chooses the secure bit (R325). -/
def State.newDesc (s : State) (req : Requester) (part : Fin 64) (bytes : List Byte) : List Byte :=
  let b := (bytes ++ zeros 64).take 64
  let m := fieldAt b 9 1
  putField b 9 1 (m % 4 + (if (if s.reqWorld req then bit m 2 else (s.tdesc part).secure) then 4 else 0) + m / 16 * 16)

theorem traceDescriptor_eq {req : Requester} (hp : s.reqPriv req = true) (part : Fin 64) (bytes : List Byte) :
    exec (.traceDescriptorWrite req part bytes) s = .next
      (let d := s.tdesc part
       let b := (bytes ++ zeros 64).take 64
       let b' := s.newDesc req part bytes
       let susp := d.susp && bit (fieldAt b 9 1) 3
       let rused := if fieldAt b 60 4 = 0 then 0 else d.rused
       if fieldAt d.desc 0 9 == fieldAt b' 0 9 && fieldAt d.desc 12 2 == fieldAt b' 12 2 && d.status != 1 && !traceBad b' then
         (if d.susp && !susp then s.freshSources part true else s).setTdesc part
           { d with desc := b', susp := susp, status := if susp then 2 else 0, rused := rused
                    rp := BitVec.ofNat 64 (min (fieldAt b 24 8) d.wp.toNat) }
       else (s.freshSources part false).setTdesc part
         { desc := b', wp := 0, rp := 0, faultva := 0, lost := 0, gapLost := 0, gapFault := false, susp := false
           status := if traceBad b' then 1 else 0, rused := rused }) := by
  refine congrArg Host.Outcome.next (if_neg ?_)
  rw [hp]
  exact Bool.false_ne_true

/-- Settles O53: supervision, the safety bus, debug and descriptors by their guards. -/
theorem supervisionSafetyDebugAndTrace : Obligations.SupervisionSafetyDebugAndTrace := by
  unfold Obligations.SupervisionSafetyDebugAndTrace
  intro s req d c u n off pa src reason slot st ctl f part v bytes q r e same goes able failed priv debug
  have hdebug : s.debugOk req = false ↔ ¬ debug := by
    rw [← Bool.not_eq_true, State.debugOk, Bool.and_eq_true, Bool.not_eq_true']
  have hstop (d : Dom) (hd : debug) (hs : (s.eng d).stopped = none) : ¬ (!s.debugOk req || (s.eng d).stopped.isSome) = true := by
    simp only [Bool.or_eq_true, Bool.not_eq_true', hdebug, Option.isSome_iff_ne_none]
    exact fun h => h.elim (fun h => h hd) fun h => h hs
  have hstep (d : Dom) (hd : debug) (hs : (s.eng d).stopped ≠ none) : ¬ (!s.debugOk req || (s.eng d).stopped.isNone) = true := by
    simp only [Bool.or_eq_true, Bool.not_eq_true', hdebug, Option.isNone_iff_eq_none]
    exact fun h => h.elim (fun h => h hd) hs
  refine ⟨rfl, fun h => ⟨?_, ?_, ?_⟩, fun ⟨hi, hf, hh⟩ => ⟨?_, fun h => ?_, fun h => ?_, fun h => ?_, ?_, ?_, ?_⟩, fun h => ?_,
    fun h => ?_, ?_, fun h => ?_, fun hh hf hi => ?_, ?_, fun h => ⟨?_, ?_, ?_⟩, ⟨fun h => ?_, fun h => ?_, fun h ht => ?_⟩,
    fun h => ?_, fun hp hw => ?_, fun h => ?_, fun hh hl hr => ?_,
    ?_, fun h => ?_, fun h => ⟨?_, ?_⟩, fun hd hs => ?_, fun hd hs => ?_, fun hd hs => ⟨?_, ?_⟩, fun hd hs => ?_, fun h => ⟨?_, ?_, ?_, ?_⟩,
    fun hp => ⟨?_, ?_, ?_⟩⟩
  -- failures
  · refine congrArg Host.Outcome.next ?_
    split
    · exact declareFailed_not h 1
    · rfl
  · refine (watchdog_eq d).trans (congrArg Host.Outcome.next ?_)
    split
    · exact declareFailed_not h 2
    · rfl
  · exact congrArg Host.Outcome.next (declareFailed_not h 3)
  · exact congrArg Host.Outcome.next (declareFailed_able hi hf hh 3)
  · exact congrArg Host.Outcome.next (if_neg (Nat.not_le.2 h))
  · exact congrArg Host.Outcome.next ((if_pos h).trans (declareFailed_able hi hf hh 1))
  · exact watchdog_early h
  · rintro k rfl h
    exact watchdog_idle h
  · rintro k rfl h hp
    exact (watchdog_due (d := .core k) h hp).trans (congrArg Host.Outcome.next (declareFailed_able hi hf hh 2))
  · rintro k rfl ready
    have hidle := idleDom_unit_iff (s := s) k
    refine ⟨fun h => watchdog_idle ?_, fun hs hr hp => (watchdog_due (hidle.2 ⟨hs, hr⟩) hp).trans
      (congrArg Host.Outcome.next (declareFailed_able hi hf hh 2))⟩
    rw [← Bool.not_eq_false, hidle]
    exact fun ⟨h1, h2⟩ => h.elim (fun h => h h1) fun h => h h2
  -- errors
  · exact congrArg (fun t : State => Host.Outcome.next (t.errorLog (s.eng (.core c)).world (Dom.src (.core c)) 2 0x13 0 0 off 0)) (if_pos h)
  · have he : exec (.uncorrectableError (.sector pa)) s = .next
        (let t := if mget 0 s.poisoned (pa / 64) = 0 then { s with poisoned := mset 0 s.poisoned (pa / 64) 0x10 } else s
         t.errorLog (t.secure pa) 0x61 2 0x10 0 0 pa 0) := rfl
    rw [if_pos h] at he
    exact he
  · intro k due
    have hd : (decide (k.2 = 0) || decide (k.2 + 16000000 ≤ s.ptime + 1)) = true ↔ due := by
      rw [Bool.or_eq_true, decide_eq_true_eq, decide_eq_true_eq]
    refine ⟨fun h => congrArg Host.Outcome.next (if_neg (mt hd.1 h)), fun h => ⟨_, congrArg Host.Outcome.next (if_pos (hd.2 h)), ?_⟩⟩
    dsimp only
    rw [mget_mset_same]
  -- a failed domain
  · refine congrArg Host.Outcome.next (if_pos ?_)
    simpa only [Bool.or_eq_true, bne_iff_ne, Bool.not_eq_true', or_assoc] using h
  · have he := domainFailed_eq hh hf hi
    intro log s0 jobs s1 lose
    have hl : loseOn d reason.val = lose := by
      funext s j
      cases d
      · refine ite_of_iff ?_
        rw [Bool.and_eq_true, beq_iff_eq, decide_eq_true_eq]
      · rfl
    rw [hl] at he
    cases d <;> exact he
  · rw [State.resetDom, State.core_modCore, if_pos rfl]
    exact ⟨rfl, rfl, rfl, rfl, rfl, rfl, rfl⟩
  -- Reeve's halt and the safety bus
  · exact congrArg Host.Outcome.next (if_pos h)
  · refine congrArg Host.Outcome.next (if_pos ?_)
    rw [Bool.or_eq_true]
    exact .inl h
  · exact congrArg Host.Outcome.next (if_pos h)
  · refine congrArg Host.Outcome.next ((if_neg (Bool.eq_false_iff.1 h)).trans ?_)
    rw [sendSafe_eq]
    rfl
  · refine congrArg Host.Outcome.next (if_neg ?_)
    rw [Bool.and_eq_true, decide_eq_true_eq]
    exact fun ⟨h1, h2⟩ => h.elim (fun h => by rw [h1] at h; cases h) fun h => absurd h2 (Nat.not_le.2 h)
  · exact congrArg Host.Outcome.next ((if_pos (Bool.and_eq_true_iff.2 ⟨h, decide_eq_true ht⟩)).trans (sendSafe_eq s))
  · refine congrArg Host.Outcome.next (if_neg ?_)
    rwa [Bool.and_eq_true]
  · exact congrArg Host.Outcome.next (if_pos (Bool.and_eq_true_iff.2 ⟨hp, hw⟩))
  · refine (txComplete_eq slot st).trans (congrArg Host.Outcome.next (if_pos ?_))
    rw [Bool.or_eq_true, bne_iff_ne, ne_eq, txNext_iff]
    refine .inr fun ⟨h1, h2⟩ => ?_
    rcases h with ⟨i, hi, h⟩ | h
    · rw [h2 i hi] at h; cases h
    · rw [h1] at h; cases h
  · intro b k b1 sent
    have he := txComplete_eq (s := s) slot st
    rw [if_neg (by rw [show s.reeve.halted = false from hh, (txNext_iff slot).2 ⟨hr, hl⟩]; simp)] at he
    refine ⟨fun h => ?_, fun h => ?_⟩
    · rw [if_pos (by simpa using h)] at he
      exact he
    · rw [if_neg (by simpa using h)] at he
      refine ⟨_, he, ?_, ?_⟩
      · exact (mget_mset_same (zeros 128) _ slot.val _).trans (congrArg (putField _ 96 8) (txSend_ptime slot))
      · exact txSend_canOut slot
  · intro full h
    have he := rxFrame_eq (s := s) ctl f
    rw [if_neg (Bool.eq_false_iff.1 h)] at he
    refine ⟨fun hall => ?_, fun i hi hn hbelow => ?_⟩
    · rw [List.find?_eq_none.2 fun i hi => by rw [show bit _ 0 = true from hall i (List.mem_range.1 hi)]; exact Bool.false_ne_true] at he
      exact he
    · have hf : ((List.range 32).find? fun i => !full i) = some i :=
        List.find?_range_eq_some.2 ⟨by rw [hn]; rfl, List.mem_range.2 hi, fun j hj => by rw [hbelow j hj]; rfl⟩
      rw [hf] at he
      exact he
  -- debug
  · refine congrArg Host.Outcome.next (if_pos ?_)
    simpa only [Bool.or_eq_true, Bool.not_eq_true', hdebug, Option.isSome_iff_ne_none] using h
  · refine congrArg Host.Outcome.next (if_pos ?_)
    simpa only [Bool.or_eq_true, Bool.not_eq_true', hdebug, Option.isNone_iff_eq_none] using h
  · refine congrArg Host.Outcome.next (if_pos ?_)
    simpa only [Bool.or_eq_true, Bool.not_eq_true', hdebug, Option.isNone_iff_eq_none] using h
  · exact congrArg Host.Outcome.next (if_neg (hstop (.core c) hd hs))
  · exact congrArg Host.Outcome.next (if_neg (hstop (.unit u) hd hs))
  · exact congrArg Host.Outcome.next (if_neg (hstep (.core c) hd hs))
  · exact congrArg Host.Outcome.next (if_neg (hstep (.core c) hd hs))
  · exact congrArg Host.Outcome.next (if_neg (hstep (.unit u) hd hs))
  -- descriptors
  · exact congrArg Host.Outcome.next (if_neg h)
  · exact congrArg Host.Outcome.next (if_pos (by rw [Bool.eq_false_iff.2 h]; rfl))
  · exact congrArg Host.Outcome.next (if_pos (by rw [Bool.eq_false_iff.2 h]; rfl))
  · exact congrArg Host.Outcome.next (if_neg (by rw [Bool.eq_false_iff.2 h]; exact Bool.false_ne_true))
  · refine ⟨_, congrArg Host.Outcome.next (if_pos hp), ?_, ?_⟩
    · rw [tdesc_setTdesc]
      dsimp only
      split
      · next h => exact (Nat.min_eq_left h).symm
      · next h => exact (Nat.min_eq_right (Nat.le_of_not_le h)).symm
    · rw [tdesc_setTdesc]
  · intro b m old b1 moved
    have he := traceDescriptor_eq (s := s) hp part bytes
    have hb : s.newDesc req part bytes = b1 := by
      simp only [State.newDesc, b1, m, b, old]
      cases (if s.reqWorld req then bit (fieldAt ((bytes ++ zeros 64).take 64) 9 1) 2 else (s.tdesc part).secure) <;> rfl
    rw [hb] at he
    dsimp only at he
    refine ⟨fun hbad => ?_, fun hok hm => ?_⟩
    · rw [hbad, Bool.not_true, Bool.and_false, if_neg Bool.false_ne_true] at he
      exact ⟨_, he, congrArg TraceDesc.status (tdesc_setTdesc ..), congrArg TraceDesc.desc (tdesc_setTdesc ..)⟩
    · rw [if_neg] at he
      · refine ⟨_, he, (tdesc_setTdesc ..).trans ?_⟩
        rw [hok]
        rfl
      · simp only [Bool.and_eq_true, beq_iff_eq, bne_iff_ne]
        rintro ⟨⟨⟨h1, h2⟩, h3⟩, -⟩
        exact hm.elim (fun h => h h1) fun h => h.elim (fun h => h h2) h3
  · intro x
    refine ⟨fun h => ?_, fun h => ?_, ?_⟩
    · exact congrArg Host.Outcome.next (if_neg (by rw [Bool.and_eq_true]; exact fun e => Bool.eq_false_iff.1 h e.2))
    · exact congrArg Host.Outcome.next (if_pos (Bool.and_eq_true_iff.2 ⟨hp, h⟩))
    · intro b open' k
      exact ⟨_, _, congrArg Host.Outcome.next (if_neg (by rw [show s.reqPriv req = true from hp]; exact Bool.false_ne_true)), rfl, rfl, rfl, rfl, rfl⟩

end Sys2Proof.Machine
end

