-- ==== Sys2Proof/Proofs/Boundary.lean ====
section
/-!
Isolation tables, attestation, and the package's outside: harts, PCI Express, Ethernet and ingress (spec/11_isolation.md, spec/13_boundary.md):
each event by who may and what it finds (O54).
-/

namespace Sys2Proof.Machine

variable {s : State}

/-! ### Tables -/

/-- The status of a partition entry that is applied (R387). -/
def State.partStatus (s : State) (p : Nat) (old new : List Byte) : Nat :=
  if partBad new then 1 else if s.partBusy p old new then 2 else s.partsStatus (mset (zeros 32) s.iso.parts p new)

/-- A partition entry in place of what is staged for it. -/
def State.putPart (s : State) (p : Nat) (e : List Byte) : State :=
  { s with iso := { s.iso with parts := mset (zeros 32) s.iso.parts p e, stagedPart := mset none s.iso.stagedPart p none } }

theorem partitionApply_eq (req : Requester) (p : Fin 64) (ctrl : Byte) : exec (.partitionEntryApply req p ctrl) s = .next
    (let old := s.part p
     let new := putBytes (s.partStage p) 0 [ctrl, 0]
     let st := s.partStatus p old new
     if !s.reqPriv req || (!s.reqWorld req && (s.partWorld p || bit ctrl.toNat 1)) then s
     else if st != 0 then s.putPart p (putField old 1 1 st)
     else
       let t := (s.putPart p new).portWorlds p
       let ways (e : List Byte) : Nat := if entryEn e then fieldAt e 2 1 else 0
       if ways old = ways new then t else t.dropHints (fun h => h.part == p.val)) := rfl

/-! ### The invalidation window (R407) -/

theorem writeInv_not {req : Requester} (h : s.reqPriv req ≠ true) (cmd : Word) : s.writeInv req cmd = s := by
  refine if_pos ?_
  rw [Bool.eq_false_iff.2 h]
  rfl

theorem writeInv_some {req : Requester} {cmd : Word} {f : InvForm} (hp : s.reqPriv req = true) (hf : invForm s.iso.invAddr cmd = some f) :
    s.writeInv req cmd = if s.iso.invBusy then { s with iso := { s.iso with invHeld := s.iso.invHeld ++ [(s.iso.invAddr, cmd, s.reqWorld req)] } }
      else State.invalidate { s with iso := { s.iso with invCmd := cmd, invBusy := true } } f (s.reqWorld req) .window := by
  rw [State.writeInv, hp, hf, State.startInv, hf]
  rfl

theorem invForm_va (addr : Word) (asid : BitVec 16) : invForm addr (BitVec.ofNat 64 (asid.toNat * 2 ^ 16)) =
    some (.va (bits addr.toNat 47 12 * 4096) asid.toNat) := by
  have ha := asid.isLt
  have hc : (BitVec.ofNat 64 (asid.toNat * 2 ^ 16)).toNat = asid.toNat * 2 ^ 16 := by
    rw [BitVec.toNat_ofNat]; exact Nat.mod_eq_of_lt (by omega)
  have h0 : bits (asid.toNat * 2 ^ 16) 1 0 = 0 := by rw [bits]; omega
  have h1 : bits (asid.toNat * 2 ^ 16) 31 16 = asid.toNat := by rw [bits]; omega
  rw [invForm, hc, h0, h1] <;> rfl

theorem invForm_asid (addr : Word) (asid : BitVec 16) : invForm addr (BitVec.ofNat 64 (1 + asid.toNat * 2 ^ 16)) = some (.asid asid.toNat) := by
  have ha := asid.isLt
  have hc : (BitVec.ofNat 64 (1 + asid.toNat * 2 ^ 16)).toNat = 1 + asid.toNat * 2 ^ 16 := by
    rw [BitVec.toNat_ofNat]; exact Nat.mod_eq_of_lt (by omega)
  have h0 : bits (1 + asid.toNat * 2 ^ 16) 1 0 = 1 := by rw [bits]; omega
  have h1 : bits (1 + asid.toNat * 2 ^ 16) 31 16 = asid.toNat := by rw [bits]; omega
  rw [invForm, hc, h0, h1] <;> rfl

theorem invForm_all (addr : Word) : invForm addr (BitVec.ofNat 64 2) = some .all := by
  rw [invForm]
  rfl

/-! ### Outside accesses -/

theorem outOk_store_iff (w : Bool) (pa : Nat) (b : List Byte) :
    s.outOk w pa (.store b) = true ↔ (w = true ∨ ∀ i < b.length, s.secure (pa + i) = false) := by
  simp only [State.outOk, outAtomicOk, Bool.true_and, Bool.or_eq_true, List.all_eq_true, List.mem_range, Bool.not_eq_true', OutKind.width]

theorem outAccess_load (w : Bool) (pa n : Nat) : s.outAccess w pa (.load n) = s := by
  unfold State.outAccess
  dsimp only
  split <;> rfl

theorem outAccess_store (w : Bool) (pa : Nat) (b : List Byte) : s.outAccess w pa (.store b) =
    if s.outOk w pa (.store b) then s.homeWrite w (cellsOf pa b) else s := by
  rw [State.outAccess]
  cases s.outOk w pa (.store b) <;> rfl

theorem attestComplete_eq {a : Nat} {n : List Byte} {w : Bool} (h : s.reeve.attPending = some (a, n, w)) : exec .attestComplete s = .next
    (let b := s.reportBody n
     let t := (s.homeWrite w (cellsOf a (b ++ Config.slhSign identitySeeds b))).attSet 0
     { t with reeve := { t.reeve with attPending := none } }) := by
  rw [exec, execAttestComplete, h]

/-! ### Ethernet -/

theorem ethTx_eq (mac : Fin 2) (ring : Fin 4) : exec (.ethTxComplete mac ring) s = .next
    (let m := s.mac mac
     let y := m.ring true ring
     if !s.macOn mac || y.head = y.tail then s
     else
       let d := s.dmaRead y.desc 32
       let c := fieldAt d.1 10 1
       if !bit c 0 then d.2
       else if !m.link then
         (d.2.setMac mac (m.setRing true ring { y with drops := satInc y.drops })).returnDesc mac true ring (putField d.1 11 1 1)
       else
         let f := d.2.dmaRead (fieldAt d.1 0 8) (fieldAt d.1 8 2)
         let g := if bit c 2 && bit c 3 then f.2.oneStep f.1 (fieldAt d.1 12 2) else f.1
         let e := putField d.1 11 1 0
         let e := if bit c 2 then putField e 16 8 f.2.ptime else e
         if 9600 < g.length + 4 then f.2.returnDesc mac true ring (putField e 11 1 1)
         else (f.2.setMac mac (m.send g)).returnDesc mac true ring e) := by
  rw [exec, execEthTxComplete]

theorem ethRx_eq (mac : Fin 2) (frame : List Byte) (fcs : Bool) : exec (.ethRxFrame mac frame fcs) s = .next
    (let m := s.mac mac
     let n := rxRing frame
     let y := m.ring false n
     if !macCarries frame.length then s
     else if s.clockOn mac && s.isPtp frame then
       if fcs then s.setMac mac { m with reeve := m.reeve ++ [frame] } else s
     else if !s.macOn mac || !m.link || !m.accepts frame then s
     else if y.head = y.tail then s.setMac mac (m.setRing false n { y with drops := satInc y.drops })
     else
       let d := s.dmaRead y.desc 32
       if !bit (fieldAt d.1 10 1) 0 then d.2.setMac mac (m.setRing false n { y with drops := satInc y.drops })
       else
         let room := fieldAt d.1 8 2
         (d.2.homeWrite false (cellsOf (fieldAt d.1 0 8) (frame.take room))).returnDesc mac false n
           (putField (putField (putField d.1 8 2 frame.length) 11 1 (if !fcs then 1 else if room < frame.length then 2 else 0)) 16 8 s.ptime)) := rfl

theorem macCarries_iff (n : Nat) : macCarries n = true ↔ 60 ≤ n ∧ n ≤ 9596 := by
  rw [macCarries, Bool.and_eq_true, decide_eq_true_eq, decide_eq_true_eq]
  omega

theorem clockOn_iff (i : Nat) : s.clockOn i = true ↔
    s.reeve.timeSrc = i ∧ s.reeve.cfg ≠ [] ∧ s.reeve.halted = false ∧ bit (s.cfg 0x0B 1) i = true := by
  simp only [State.clockOn, Bool.and_eq_true, beq_iff_eq, bne_iff_ne, Bool.not_eq_true', and_assoc, ne_eq]

theorem linkRuns_iff (rate : Fin 8) (lanes : Fin 16) :
    linkRuns rate lanes = true ↔ 1 ≤ rate.val ∧ rate.val ≤ 6 ∧ 1 ≤ lanes.val ∧ lanes.val ≤ 8 := by
  simp only [linkRuns, Bool.and_eq_true, decide_eq_true_eq, and_assoc]

theorem imaging_iff (x : IngressPort) (v : Nat) : x.imaging v = true ↔ x.on v false = true ∧ fieldAt (x.chan v) 1 1 ≠ 0x30 := by
  rw [IngressPort.imaging, Bool.and_eq_true, bne_iff_ne]

/-- Settles O54: tables, windows, ports and rings by who may and what they hold. -/
theorem isolationTablesAndBoundary : Obligations.IsolationTablesAndBoundary := by
  unfold Obligations.IsolationTablesAndBoundary
  intro s req idx p last ctrl hart v asid reg pa io k up rate lanes mac tx ring frame fcs port vc bytes dt evs same goes priv sec r
  have hpriv : (!s.reqPriv req) = true ↔ ¬ priv := by rw [Bool.not_eq_true', ← Bool.not_eq_true]
  have hsec : (!s.reqWorld req) = true ↔ ¬ sec := by rw [Bool.not_eq_true', ← Bool.not_eq_true]
  refine ⟨?_, ?_, ?_, ?_, fun h => ⟨?_, ?_⟩, fun hp hh => ?_, fun h => ?_, fun a n w h => ?_, fun h => ?_, fun hon hwin => ?_, fun w b n => ?_,
    ?_, ?_, fun w b n => ⟨outAccess_load w pa n, fun h => ?_, fun hw h => ?_⟩, fun hup h => ?_, fun h => ?_, fun hup h1 h2 h3 h4 => ?_, rfl, ?_, ?_⟩
  -- region entries
  · intro old new t ok
    have hbad : (bit old.2.toNat 2 || !regionOk new || s.iso.regions.any (fun e => e.1 != idx.val && regionsMeet new e.2)) = true ↔ ¬ ok := by
      simp only [ok, Bool.or_eq_true, Bool.not_eq_true', List.any_eq_true, Bool.and_eq_true, bne_iff_ne,
        Classical.not_and_iff_not_or_not, Classical.not_forall, Bool.not_eq_false, Bool.not_eq_true, exists_prop, or_assoc]
    refine ⟨fun h => congrArg Host.Outcome.next (if_pos ?_), fun hp hs hok => congrArg Host.Outcome.next ((if_neg ?_).trans (if_pos (hbad.2 hok))),
      fun hp hs hok => ⟨congrArg Host.Outcome.next ((if_neg ?_).trans (if_neg (mt hbad.1 (Classical.not_not.2 hok)))), rfl⟩⟩
    · rwa [Bool.or_eq_true, hpriv, hsec, ← Classical.not_and_iff_not_or_not]
    · rw [Bool.or_eq_true, hpriv, hsec, ← Classical.not_and_iff_not_or_not, Classical.not_not]; exact ⟨hp, hs⟩
    · rw [Bool.or_eq_true, hpriv, hsec, ← Classical.not_and_iff_not_or_not, Classical.not_not]; exact ⟨hp, hs⟩
  -- partition entries
  · intro old new mine put st
    have he := partitionApply_eq (s := s) req p ctrl
    dsimp only at he
    have hmine : (!s.reqPriv req || (!s.reqWorld req && (s.partWorld p || bit ctrl.toNat 1))) = true ↔ ¬ mine := by
      simp only [mine, Bool.or_eq_true, Bool.and_eq_true, hpriv, hsec, Classical.not_and_iff_not_or_not, not_or, Bool.not_eq_false]
    refine ⟨fun h => he.trans (congrArg Host.Outcome.next (if_pos (hmine.2 h))), fun hm hb => ?_, fun hm hb hu => ?_, fun hm hb hu => ?_⟩
    · have hst : s.partStatus p old new = 1 := if_pos hb
      rw [if_neg (mt hmine.1 (Classical.not_not.2 hm)), show s.partStatus p.val (s.part p) (putBytes (s.partStage p) 0 [ctrl, 0]) = 1 from hst] at he
      exact he
    · have hst : s.partStatus p old new = 2 := (if_neg (Bool.eq_false_iff.1 hb)).trans (if_pos hu)
      rw [if_neg (mt hmine.1 (Classical.not_not.2 hm)), show s.partStatus p.val (s.part p) (putBytes (s.partStage p) 0 [ctrl, 0]) = 2 from hst] at he
      exact he
    · have hst : s.partStatus p old new = st := (if_neg (Bool.eq_false_iff.1 hb)).trans (if_neg (Bool.eq_false_iff.1 hu))
      rw [if_neg (mt hmine.1 (Classical.not_not.2 hm)), show s.partStatus p.val (s.part p) (putBytes (s.partStage p) 0 [ctrl, 0]) = st from hst] at he
      intro ways
      refine ⟨fun h => he.trans (congrArg Host.Outcome.next (if_pos (bne_iff_ne.2 h))), fun h hw => ?_, fun h hw => ?_⟩
      · exact he.trans (congrArg Host.Outcome.next ((if_neg (by rw [h]; exact Bool.false_ne_true)).trans (if_pos hw)))
      · exact he.trans (congrArg Host.Outcome.next ((if_neg (by rw [h]; exact Bool.false_ne_true)).trans (if_neg hw)))
  -- harts' partitions
  · intro n
    refine ⟨fun h => congrArg Host.Outcome.next (if_pos ?_), fun hp hw => congrArg Host.Outcome.next (if_neg ?_)⟩
    · rwa [Bool.or_eq_true, hpriv, bne_iff_ne]
    · rw [Bool.or_eq_true, hpriv, bne_iff_ne]
      exact fun h => h.elim (fun h => h hp) fun h => h hw
  -- the invalidation window
  · intro win
    have hall : ∀ (i : Instr) (form : InvForm) (w : Nat), exec i s = .next (s.writeInv req (BitVec.ofNat 64 w)) →
        invForm s.iso.invAddr (BitVec.ofNat 64 w) = some form → win i form w := fun i form w he hf => by
      refine ⟨fun h => he.trans (congrArg Host.Outcome.next (writeInv_not h _)), fun hp hb => he.trans (congrArg Host.Outcome.next ?_),
        fun hp hb => he.trans (congrArg Host.Outcome.next ?_)⟩
      · rw [writeInv_some hp hf, if_pos hb]
      · rw [writeInv_some hp hf, if_neg (Bool.eq_false_iff.1 hb)]
    exact ⟨hall _ _ _ rfl (invForm_va ..), hall _ _ _ rfl (invForm_asid ..), hall _ _ _ rfl (invForm_all _)⟩
  -- attestation
  · refine congrArg Host.Outcome.next (if_pos ?_)
    rwa [Bool.or_eq_true, hpriv]
  · refine congrArg Host.Outcome.next (if_pos ?_)
    rwa [Bool.or_eq_true, hpriv]
  · intro at' inWorld
    have hgo : ¬ (!s.reqPriv req || s.reeve.halted) = true := by
      rw [Bool.or_eq_true, hpriv]
      exact fun h => h.elim (fun h => h hp) (Bool.eq_false_iff.1 hh)
    have hin : (at' % 64 != 0 || s.secure at' != s.reqWorld req || s.secure (at' + 30815) != s.reqWorld req) = true ↔ ¬ inWorld := by
      simp only [inWorld, Bool.or_eq_true, bne_iff_ne, Classical.not_and_iff_not_or_not, or_assoc, ne_eq]
    have hreg : (!s.reqWorld req || decide (reg.val < 4)) = true ↔ (¬ sec ∨ reg.val < 4) := by rw [Bool.or_eq_true, hsec, decide_eq_true_eq]
    have hfree (h : s.reeve.attPending = none) : ¬ s.reeve.attPending.isSome = true := by rw [h]; exact Bool.false_ne_true
    have hmay (hs : sec) (h4 : 4 ≤ reg.val) : ¬ (!s.reqWorld req || decide (reg.val < 4)) = true :=
      mt hreg.1 fun h => h.elim (fun h => h hs) (Nat.not_lt.2 h4)
    refine ⟨fun h => ?_, fun h hi => ?_, fun h hi => ?_, fun h => ?_, fun hs h4 h => ?_, fun hs h4 h => ?_⟩
    · exact congrArg Host.Outcome.next ((if_neg hgo).trans (if_pos (Option.isSome_iff_ne_none.2 h)))
    · exact congrArg Host.Outcome.next ((if_neg hgo).trans ((if_neg (hfree h)).trans (if_pos (hin.2 hi))))
    · exact congrArg Host.Outcome.next ((if_neg hgo).trans ((if_neg (hfree h)).trans (if_neg (mt hin.1 (Classical.not_not.2 hi)))))
    · exact congrArg Host.Outcome.next ((if_neg hgo).trans (if_pos (hreg.2 h)))
    · exact congrArg Host.Outcome.next ((if_neg hgo).trans ((if_neg (hmay hs h4)).trans (if_pos (Option.isSome_iff_ne_none.2 h))))
    · exact congrArg Host.Outcome.next ((if_neg hgo).trans ((if_neg (hmay hs h4)).trans (if_neg (hfree h))))
  · rw [show same _ ↔ exec .attestComplete s = .next s from .rfl, exec, execAttestComplete, show s.reeve.attPending = none from h]
  · exact ⟨_, attestComplete_eq h, rfl, rfl⟩
  -- harts and PCI Express
  · refine congrArg Host.Outcome.next (if_pos ?_)
    rwa [Bool.or_eq_true, Bool.not_eq_true']
  · intro w
    have hgo : ¬ (!s.reeve.hartsOn || isWindow pa) = true := by
      rw [show s.reeve.hartsOn = true from hon, hwin]
      exact Bool.false_ne_true
    exact ⟨fun h => congrArg Host.Outcome.next ((if_neg hgo).trans (if_pos h)),
      fun h => congrArg Host.Outcome.next ((if_neg hgo).trans (if_neg (Nat.not_lt.2 h)))⟩
  · intro hold
    refine ⟨fun h => if_neg (by rw [h]; exact Bool.false_ne_true), fun h => (if_neg (by rw [h]; exact Bool.false_ne_true)).trans ?_⟩
    exact ite_of_iff beq_iff_eq
  · intro link
    have hlink : (!link || isWindow pa || decide (s.capacity ≤ pa) || !OutKind.pcie k) = true ↔
        (link = false ∨ isWindow pa = true ∨ s.capacity ≤ pa ∨ OutKind.pcie k = false) := by
      simp only [Bool.or_eq_true, Bool.not_eq_true', decide_eq_true_eq, or_assoc]
    refine ⟨fun h => congrArg Host.Outcome.next (if_pos (hlink.2 h)), fun h1 h2 h3 h4 => congrArg Host.Outcome.next (if_neg (mt hlink.1 ?_))⟩
    rw [h1, h2, h4]
    simpa using h3
  · intro link
    refine ⟨fun hi hl hk ha => ?_, fun b hl hk ha => ?_⟩
    · rw [State.outPeer, hk, ha, hi, show bit s.bnd.pcieLink.toNat 0 = false from hl]
      rfl
    · rw [State.outPeer, hk, ha]
      refine (if_neg Bool.false_ne_true).trans (if_neg ?_)
      rw [Bool.and_eq_true, Bool.not_eq_true', Bool.not_eq_true']
      rintro ⟨h1, h2⟩
      rcases hl with h | h
      · rw [h1] at h; cases h
      · exact absurd (h2.symm.trans h) Bool.false_ne_true
  · rw [outAccess_store, if_pos ((outOk_store_iff ..).2 h)]
  · rw [outAccess_store, if_neg]
    rw [outOk_store_iff, hw]
    obtain ⟨i, hi, hsec⟩ := h
    rintro (h | h)
    · cases h
    · rw [h i hi] at hsec; cases hsec
  · refine congrArg Host.Outcome.next (if_pos ?_)
    rw [hup, Bool.true_and, Bool.not_eq_true', ← Bool.not_eq_true, linkRuns_iff]
    omega
  · rw [h]
    rfl
  · refine congrArg Host.Outcome.next ((if_neg ?_).trans ?_)
    · rw [hup, (linkRuns_iff ..).2 ⟨h1, h2, h3, h4⟩]
      exact Bool.false_ne_true
    · rw [hup]
      rfl
  -- Ethernet
  · intro m x
    refine ⟨fun h => congrArg Host.Outcome.next (if_neg h), fun h => congrArg Host.Outcome.next (if_pos h), fun h => ?_, fun hon hne => ?_, ?_⟩
    · refine (ethTx_eq mac ring).trans (congrArg Host.Outcome.next (if_pos ?_))
      rwa [Bool.or_eq_true, Bool.not_eq_true', decide_eq_true_eq]
    · have he := ethTx_eq (s := s) mac ring
      dsimp only at he
      rw [if_neg (by rw [hon, decide_eq_false hne]; exact Bool.false_ne_true)] at he
      intro y d
      refine ⟨fun hc => ?_, fun hc hl => ?_, fun hc ht hl => ?_⟩
      · rw [if_pos (by rw [show bit _ 0 = false from hc]; rfl)] at he
        exact he
      · rw [if_neg (by rw [show bit _ 0 = true from hc]; exact Bool.false_ne_true),
          if_pos (by rw [show (s.mac mac).link = false from hl]; rfl)] at he
        exact he
      · rw [if_neg (by rw [show bit _ 0 = true from hc]; exact Bool.false_ne_true),
          if_neg (by rw [show (s.mac mac).link = true from hl]; exact Bool.false_ne_true), show bit _ 2 = false from ht, Bool.false_and,
          if_neg Bool.false_ne_true, if_neg Bool.false_ne_true] at he
        intro f q
        exact ⟨fun h => he.trans (congrArg Host.Outcome.next (if_pos h)), fun h => he.trans (congrArg Host.Outcome.next (if_neg (Nat.not_lt.2 h)))⟩
    · intro ptp n y takes d fits
      have he := ethRx_eq (s := s) mac frame fcs
      dsimp only at he
      have hfits : macCarries frame.length = true ↔ fits := macCarries_iff _
      have hptp : (s.clockOn mac && s.isPtp frame) = true ↔ ptp := by
        rw [Bool.and_eq_true, clockOn_iff, and_assoc, and_assoc, and_assoc]
      have htakes : (!s.macOn mac || !m.link || !m.accepts frame) = true ↔ ¬ takes := by
        simp only [takes, Bool.or_eq_true, Bool.not_eq_true', Classical.not_and_iff_not_or_not, Bool.not_eq_true, or_assoc]
      have hin (h : fits) : ¬ (!macCarries frame.length) = true := by rw [hfits.2 h]; exact Bool.false_ne_true
      refine ⟨fun h => he.trans (congrArg Host.Outcome.next (if_pos ?_)), fun h hp => ?_, fun h hp ht => ?_,
        fun h hp ht hh => ?_, fun h hp ht hh => ?_⟩
      · rwa [Bool.not_eq_true', ← Bool.not_eq_true, hfits]
      · exact he.trans (congrArg Host.Outcome.next ((if_neg (hin h)).trans (if_pos (hptp.2 hp))))
      · exact he.trans (congrArg Host.Outcome.next ((if_neg (hin h)).trans ((if_neg (mt hptp.1 hp)).trans (if_pos (htakes.2 ht)))))
      · exact he.trans (congrArg Host.Outcome.next ((if_neg (hin h)).trans ((if_neg (mt hptp.1 hp)).trans
          ((if_neg (mt htakes.1 (Classical.not_not.2 ht))).trans (if_pos hh)))))
      · rw [if_neg (hin h), if_neg (mt hptp.1 hp), if_neg (mt htakes.1 (Classical.not_not.2 ht)), if_neg hh] at he
        refine ⟨fun hc => ?_, fun hc => ?_⟩
        · rw [if_pos (by rw [show bit _ 0 = false from hc]; rfl)] at he
          exact he
        · rw [if_neg (by rw [show bit _ 0 = true from hc]; exact Bool.false_ne_true)] at he
          intro room st
          refine he.trans ?_
          cases fcs <;> rfl
  -- ingress
  · intro x e f
    have himg (v : Nat) : (!x.imaging v) = true ↔ ¬ (x.on v false = true ∧ fieldAt (x.chan v) 1 1 ≠ 0x30) := by
      rw [Bool.not_eq_true', ← Bool.not_eq_true, imaging_iff]
    refine ⟨fun h => congrArg Host.Outcome.next (if_pos ?_), fun hp hw => ?_, ?_, rfl, fun h => congrArg Host.Outcome.next (if_pos ?_),
      fun h h3 => congrArg Host.Outcome.next (if_neg ?_)⟩
    · rwa [Bool.or_eq_true, hpriv, bne_iff_ne]
    · intro b b1
      refine congrArg Host.Outcome.next (if_neg ?_)
      rw [Bool.or_eq_true, hpriv, bne_iff_ne]
      exact fun h => h.elim (fun h => h hp) fun h => h hw
    · intro images
      refine ⟨fun h => ⟨?_, ?_, ?_⟩, fun h => ⟨?_, fun hd => ?_, fun hd hl => ?_, ?_⟩⟩
      · refine congrArg Host.Outcome.next (if_neg ?_)
        rwa [imaging_iff]
      · refine congrArg Host.Outcome.next (if_pos ?_)
        rw [Bool.or_eq_true, Bool.or_eq_true, himg]
        exact .inl (.inl h)
      · exact congrArg Host.Outcome.next (if_pos ((himg vc).2 h))
      · exact congrArg Host.Outcome.next (if_pos ((imaging_iff x vc).2 h))
      · refine congrArg Host.Outcome.next (if_pos ?_)
        rw [Bool.or_eq_true, Bool.or_eq_true, bne_iff_ne, decide_eq_true_eq, or_assoc]
        exact .inr hd
      · refine congrArg Host.Outcome.next (if_neg ?_)
        rw [Bool.or_eq_true, Bool.or_eq_true, bne_iff_ne, decide_eq_true_eq, himg]
        exact fun h' => h'.elim (fun h' => h'.elim (fun h' => h' h) fun h' => h' hd) (Nat.not_le.2 hl)
      · exact congrArg Host.Outcome.next (if_neg (mt (himg vc).1 (Classical.not_not.2 h)))
    · rwa [Bool.or_eq_true, Bool.not_eq_true', bne_iff_ne]
    · rw [Bool.or_eq_true, Bool.not_eq_true', bne_iff_ne, h]
      exact fun h' => h'.elim (fun h' => by cases h') fun h' => h' h3

end Sys2Proof.Machine
end

