-- ==== Sys2Proof/Proofs/ResidentCards.lean ====
section
/-!
SUPPORT. What the end of a job (R344, R349, R350) leaves of Beadle's table: every slot still holds its card, retiring or not as before.
-/

namespace Sys2Proof.Machine

/-- A slot's card, and whether it is retiring. -/
def Slot.ident (z : Slot) : List Byte × Bool := (z.card, z.retiring)

/-- Both states hold the same cards in the same slots. -/
structure SameCards (s t : State) : Prop where
  slots : ∀ n, (t.slot n).map Slot.ident = (s.slot n).map Slot.ident

theorem SameCards.refl (s : State) : SameCards s s := ⟨fun _ => rfl⟩

theorem foldl_cards {α : Type} (f : State → α → State) (l : List α) {s0 s : State} (h : ∀ s a, SameCards s0 s → SameCards s0 (f s a))
    (hs : SameCards s0 s) : SameCards s0 (l.foldl f s) := by
  induction l generalizing s with
  | nil => exact hs
  | cons a l ih => exact ih (h s a hs)

/-- Values changed by one function are found changed. -/
theorem mget_map_values {β : Type} (f : β → β) (m : Map (Option β)) (n : Nat) :
    mget none (m.map fun e => (e.1, e.2.map f)) n = (mget none m n).map f := by
  induction m with
  | nil => rfl
  | cons e m ih =>
    rw [List.map_cons, mget_cons, ih]
    obtain ⟨k, b⟩ := e
    rw [mget_cons]
    split <;> rfl

section
variable {s0 s t : State}

/-! ### Operations that leave the table -/

theorem SameCards.of_slots (h : SameCards s0 s) (he : t.beadle.slots = s.beadle.slots) : SameCards s0 t := .mk fun n => by
  rw [← h.slots n, State.slot, State.slot, he]

theorem Quiet.cards (h : SameCards s0 s) (hq : Quiet s t) : SameCards s0 t := .mk fun n => by
  have hs := congrArg (Option.map Slot.ident) (hq.slots n)
  simp only [Option.map_map] at hs
  exact hs.trans (h.slots n)

theorem State.modSlot_cards {f : Slot → Slot} (hf : ∀ z, (f z).ident = z.ident) (n : Nat) (h : SameCards s0 s) :
    SameCards s0 (s.modSlot n f) := .mk fun q => by
  rw [State.slot_modSlot, ← h.slots q]
  split
  · next e =>
    subst e
    rw [Option.map_map]
    exact congrArg (fun g => Option.map g (s.slot n)) (funext hf)
  · rfl

theorem State.modCore_cards (c : Nat) (f : Core → Core) (h : SameCards s0 s) : SameCards s0 (s.modCore c f) := h.of_slots rfl

theorem State.modUnit_cards (u : Nat) (f : VUnit → VUnit) (h : SameCards s0 s) : SameCards s0 (s.modUnit u f) := h.of_slots rfl

theorem State.modGroup_cards (u g : Nat) (f : Group → Group) (h : SameCards s0 s) : SameCards s0 (s.modGroup u g f) :=
  h.of_slots (by rw [State.modGroup_beadle])

theorem State.modThread_cards (v : Tid) (f : Thread → Thread) (h : SameCards s0 s) : SameCards s0 (s.modThread v f) :=
  h.of_slots (by rw [State.modThread_beadle])

theorem State.modEng_cards (d : Dom) (f : Eng → Eng) (h : SameCards s0 s) : SameCards s0 (s.modEng d f) :=
  h.of_slots (by rw [State.modEng_beadle])

theorem State.dropLeaves_cards (p : LeaveReq → Bool) (h : SameCards s0 s) : SameCards s0 (s.dropLeaves p) := h.of_slots rfl

theorem State.leaveQueues_cards (p : Tid → Bool) (h : SameCards s0 s) : SameCards s0 (s.leaveQueues p) := h.of_slots rfl

theorem State.rollbackCore_cards (c : Nat) (h : SameCards s0 s) : SameCards s0 (s.rollbackCore c) := h.of_slots rfl

theorem State.settleServer_cards (k : Nat) (h : SameCards s0 s) : SameCards s0 (s.settleServer k) := by
  refine h.of_slots ?_
  unfold State.settleServer Beadle.setServer
  dsimp only
  split <;> rfl

theorem State.settleServers_cards (h : SameCards s0 s) : SameCards s0 s.settleServers :=
  State.settleServer_cards 1 (State.settleServer_cards 0 h)

theorem State.homeWrite_cards (world : Bool) (cells : List Host.Cell) (h : SameCards s0 s) : SameCards s0 (s.homeWrite world cells) :=
  Quiet.cards h (State.homeWrite_quiet world cells (.refl s))

theorem State.writeBack_cards (l : Line) (h : SameCards s0 s) : SameCards s0 (s.writeBack l) := by
  unfold State.writeBack
  split
  · exact h
  · exact State.homeWrite_cards _ _ h

/-! ### Records and their holders (R319) -/

theorem State.settleFreeze_cards (n : Nat) (h : SameCards s0 s) : SameCards s0 (s.settleFreeze n) := by
  unfold State.settleFreeze
  refine State.modSlot_cards (fun z => ?_) n h
  (repeat' split) <;> rfl

theorem State.holdRec_cards (part : Nat) (bs : List Byte) (a : Agent) (h : SameCards s0 s) : SameCards s0 (s.holdRec part bs a) := by
  cases a with
  | core c k =>
    unfold State.holdRec State.settleCore
    dsimp only
    split
    · exact State.settleFreeze_cards _ (State.modCore_cards _ _ h)
    · exact State.modCore_cards _ _ h
  | thr v =>
    unfold State.holdRec
    exact State.modUnit_cards _ _ (State.modThread_cards _ _ h)

theorem State.emit_cards (r : Rec) (who : Option Agent) (h : SameCards s0 s) : SameCards s0 (s.emit r who) := by
  obtain ⟨t, hq, e | ⟨a, bs, -, e⟩⟩ := s.emit_quiet r who
  · rw [e]; exact Quiet.cards h hq
  · rw [e]; exact State.holdRec_cards _ _ _ (Quiet.cards h hq)

theorem State.emitAt_cards (a : Agent) (evt cls : Nat) (full : Bool) (arg flow role : Nat) (h : SameCards s0 s) :
    SameCards s0 (s.emitAt a evt cls full arg flow role) := by
  obtain ⟨r, e⟩ | e := State.emitAt_cases s a evt cls full arg flow role
  · rw [e]; exact State.emit_cards _ _ h
  · rw [e]; exact h

theorem State.emitJob_cards (src : Nat) (card : List Byte) (evt cls arg flow role : Nat) (h : SameCards s0 s) :
    SameCards s0 (s.emitJob src card evt cls arg flow role) := State.emit_cards _ none h

theorem State.loseHeld_cards (l : List (List Byte)) (h : SameCards s0 s) : SameCards s0 (s.loseHeld l) := by
  refine foldl_cards _ l (fun s bs h => ?_) h
  split
  · exact h.of_slots rfl
  · exact h

theorem State.threadStall_cards (v : Tid) (cause since : Nat) (h : SameCards s0 s) : SameCards s0 (s.threadStall v cause since) := by
  unfold State.threadStall
  dsimp only
  split
  · exact State.emitAt_cards _ _ _ _ _ _ _ h
  · exact h

/-! ### Engines taken out of a job (R344) -/

theorem State.endStall_cards (c : Nat) (h : SameCards s0 s) : SameCards s0 (s.endStall c) := by
  unfold State.endStall
  dsimp only
  refine State.modCore_cards _ _ ?_
  have h1 : SameCards s0 (match (s.core c).stallRun with
      | some (cause, since) =>
        if (s.core c).stallTrace && 8 ≤ (s.core c).eng.cycle s.ptime - since then
          s.emitAt (.core (fin 32 c) 0) 0x19 2 false (cause + min ((s.core c).eng.cycle s.ptime - since) 65535 * 2 ^ 8) 0 0 else s
      | none => s) := by
    split
    · split
      · exact State.emitAt_cards _ _ _ _ _ _ _ h
      · exact h
    · exact h
  split
  · exact h1
  · exact State.emitAt_cards _ _ _ _ _ _ _ h1

theorem State.rollbackRec_cards (c cause : Nat) (h : SameCards s0 s) : SameCards s0 (s.rollbackRec c cause) :=
  State.rollbackCore_cards _ (State.emitAt_cards _ _ _ _ _ _ _ h)

theorem State.freeBlocks_cards (c : Nat) (h : SameCards s0 s) : SameCards s0 (s.freeBlocks c) := by
  unfold State.freeBlocks
  exact State.modCore_cards _ _ (foldl_cards _ _ (fun _ l h => State.writeBack_cards l h) h)

theorem State.endCore_cards (c : Nat) (h : SameCards s0 s) : SameCards s0 (s.endCore c) := by
  unfold State.endCore
  exact State.modCore_cards _ _ (State.dropLeaves_cards _ (State.freeBlocks_cards _ (State.modCore_cards _ _
    (State.rollbackCore_cards _ (State.endStall_cards _ h)))))

theorem State.endOperandWait_cards (v : Tid) (h : SameCards s0 s) : SameCards s0 (s.endOperandWait v) := by
  unfold State.endOperandWait
  split
  · exact h
  · exact State.modThread_cards _ _ (State.threadStall_cards _ _ _ h)

theorem State.endWaits_cards (u g : Nat) (h : SameCards s0 s) : SameCards s0 (s.endWaits u g) := by
  refine foldl_cards _ _ (fun s e h => ?_) h
  dsimp only
  split
  · exact State.endOperandWait_cards _ h
  · exact State.threadStall_cards _ _ _ (State.endOperandWait_cards _ h)

theorem State.endFreeze_cards (v : Tid) (h : SameCards s0 s) : SameCards s0 (s.endFreeze v) := by
  unfold State.endFreeze
  dsimp only
  split
  · exact h
  · exact State.modEng_cards _ _ (State.emitAt_cards _ _ _ _ _ _ _ h)

theorem State.endGroup_cards (u g : Nat) (h : SameCards s0 s) : SameCards s0 (s.endGroup u g) := by
  unfold State.endGroup
  exact State.modUnit_cards _ _ (State.modGroup_cards _ _ _ (State.dropLeaves_cards _ (State.leaveQueues_cards _
    (State.loseHeld_cards _ (State.endWaits_cards _ _ (State.endFreeze_cards _ h))))))

theorem State.spendRuns_cards (n : Nat) (h : SameCards s0 s) : SameCards s0 (s.spendRuns n) := by
  unfold State.spendRuns
  refine State.modSlot_cards ?_ n h
  exact fun _ => rfl

theorem State.endParts_cards (n cause : Nat) (h : SameCards s0 s) : SameCards s0 (s.endParts n cause) := by
  unfold State.endParts
  refine State.settleFreeze_cards _ (foldl_cards _ _ (fun s i h => ?_) (State.spendRuns_cards _ h))
  dsimp only
  split
  · split
    · refine State.modCore_cards _ _ (State.loseHeld_cards _ (State.endCore_cards _ ?_))
      split
      · exact State.rollbackRec_cards _ _ h
      · exact h
    · exact h
  · exact State.endGroup_cards _ _ h

theorem State.finishJob_cards (n status cause : Nat) (h : SameCards s0 s) : SameCards s0 (s.finishJob n status cause) := by
  unfold State.finishJob
  refine State.modSlot_cards ?_ n (State.endParts_cards _ _ (State.settleServers_cards h))
  exact fun _ => rfl

theorem State.takeMiss_cards (n : Nat) (z : Slot) (h : SameCards s0 s) : SameCards s0 (s.takeMiss n z) := by
  have h1 := State.modSlot_cards (f := fun z => { z with missed := true }) (fun _ => rfl) n
    (State.emitJob_cards 0x60 z.card 0x0D 0 (min (z.freezeTo s.ptime / 16) (2 ^ 32 - 1)) 0 0 (State.settleServers_cards h))
  unfold State.takeMiss
  dsimp only
  split
  · exact State.finishJob_cards _ _ _ h1
  · refine State.modSlot_cards ?_ n h1
    exact fun _ => rfl

/-! ### Completion (R350) -/

theorem State.cleanAll_cards (d : Dom) (h : SameCards s0 s) : SameCards s0 (s.cleanAll d) := by
  have h1 : SameCards s0 (s.cleanLines d fun _ => true) := by
    unfold State.cleanLines
    exact State.modEng_cards _ _ (foldl_cards _ _ (fun _ l h => State.writeBack_cards l h) h)
  unfold State.cleanAll State.cleanBlocks
  split
  · exact h1
  · exact State.modCore_cards _ _ (foldl_cards _ _ (fun _ l h => State.writeBack_cards l h) h1)

theorem State.performJob_cards (z : Slot) (h : SameCards s0 s) : SameCards s0 (s.performJob z) :=
  foldl_cards _ _ (fun _ _ h => State.cleanAll_cards _ h) h

theorem State.satisfyEdges_cards (n : Nat) (h : SameCards s0 s) : SameCards s0 (s.satisfyEdges n) := .mk fun q => by
  rw [← h.slots q]
  unfold State.satisfyEdges
  rw [State.slot, mget_map_values, Option.map_map]
  rfl

theorem State.step3_cards_err (k : Ctx) (kind : AccKind) (prev : Option XByte) (cs : List (Nat × Nat)) {v : Nat} (h : Quiet s0 s)
    (e : s.step3 k kind prev cs = .error (v, t)) : Quiet s0 t := by
  induction cs generalizing s v t prev with
  | nil => unfold State.step3 at e; cases e
  | cons x l ih =>
    unfold State.step3 at e
    (try dsimp only at e)
    (repeat' split at e) <;> grind -ring -linarith -lia [→ State.translate_quiet]

theorem State.access_quiet_err (k : Ctx) (kind : AccKind) (addr n align : Nat) {f : Fail} (h : Quiet s0 s)
    (e : s.access k kind addr n align = .error f) : Quiet s0 f.st := by
  unfold State.access at e
  dsimp only at e
  split at e
  · cases e; exact h
  · split at e
    · cases e; exact h
    · split at e
      · next hs => cases e; exact State.step3_cards_err _ _ _ _ h hs
      · next hs =>
        have hq := State.step3_quiet _ _ _ _ h hs
        split at e
        · cases e; exact hq
        · split at e
          · cases e
          · split at e
            · cases e; exact hq
            · cases e

theorem State.writeCompletion_cards (z : Slot) (h : SameCards s0 s) : SameCards s0 (s.writeCompletion z) := by
  unfold State.writeCompletion
  split
  · exact h
  · split
    · next t e =>
      unfold State.deviceWrite at e
      dsimp only at e
      split at e
      · cases e
      · next ps u hu =>
        split at e
        · cases e
        · cases e
          exact (State.homeWrite_cards _ _ (Quiet.cards h (State.access_quiet _ _ _ _ _ (.refl s) hu))).of_slots rfl
    · next f e =>
      refine Quiet.cards ?_ (State.errorLog_quiet _ _ _ _ _ _ _ _ (.refl _))
      unfold State.deviceWrite at e
      dsimp only at e
      split at e
      · next hu => cases e; exact Quiet.cards h (State.access_quiet_err _ _ _ _ _ (.refl s) hu)
      · next ps u hu =>
        split at e
        · cases e; exact Quiet.cards h (State.access_quiet _ _ _ _ _ (.refl s) hu)
        · cases e

theorem State.setClock_cards (d : Dom) (mhz : Nat) (h : SameCards s0 s) : SameCards s0 (s.setClock d mhz) := by
  unfold State.setClock
  dsimp only
  split
  · exact h
  · refine State.modEng_cards _ _ ?_
    split
    · exact (State.emit_cards _ _ h : SameCards s0 (State.emitFree ..)).of_slots rfl
    · exact h.of_slots rfl

theorem State.freeEngines_cards (n : Nat) (h : SameCards s0 s) : SameCards s0 (s.freeEngines n) := by
  unfold State.freeEngines
  refine foldl_cards _ _ (fun s i h => ?_) h
  unfold State.freeCore State.freeGroup
  dsimp only
  split
  · split
    · refine State.modCore_cards _ _ ?_
      split
      · exact State.setClock_cards _ _ h
      · exact h
    · exact h
  · exact State.modUnit_cards _ _ h

theorem State.endReplay_cards (n : Nat) (h : SameCards s0 s) : SameCards s0 (s.endReplay n) := by
  unfold State.endReplay
  generalize allDoms = l
  split
  · exact h
  · refine State.modSlot_cards ?_ n ((foldl_cards _ l (fun _ _ h => State.modEng_cards _ _ h) h).of_slots rfl)
    exact fun _ => rfl

/-- A freed slot is empty. -/
theorem State.freeSlot_slot (n : Nat) : (s.freeSlot n).slot n = none := by
  have h0 : ((s.setSlot n none).forgetPayer n).slot n = none := mget_mset_same none s.beadle.slots n none
  have hf (l : List Nat) : ∀ t : State, (l.foldl (fun s c =>
      if (s.core c).dict == some n then s.modCore c fun x => { x with dict := none, entries := [] } else s) t).beadle = t.beadle := by
    induction l with
    | nil => exact fun _ => rfl
    | cons c l ih =>
      intro t
      rw [List.foldl_cons, ih]
      split <;> rfl
  unfold State.freeSlot
  dsimp only
  rw [State.slot, mget_map_values, hf]
  exact congrArg (Option.map _) h0

end

end Sys2Proof.Machine
end

