-- ==== Sys2Proof/Proofs/CardsAndReleases.lean ====
section
/-!
Cards (spec/10_progress.md R336 to R350): commands, releases, dispatch, pre-emption, the server, completion, misses and demotion (O49).
-/

namespace Sys2Proof.Machine

variable {s : State}

/-! ### Commands (R336, R337) -/

theorem command_off {req : Requester} {pa : Nat} (h : s.reqPriv req = false ∨ s.reeve.stage.toNat < 3 ∨ pa % 128 ≠ 0 ∨
    (s.secure pa = true ∧ s.reqWorld req = false)) (cmd : Nat) : s.command req cmd pa = s := by
  refine if_pos ?_
  simp only [Bool.or_eq_true, Bool.not_eq_true', decide_eq_true_eq, bne_iff_ne, Bool.and_eq_true]
  grind

section
variable {req : Requester} {pa : Nat} (hon : ¬ (s.reqPriv req = false ∨ s.reeve.stage.toNat < 3 ∨ pa % 128 ≠ 0 ∨
    (s.secure pa = true ∧ s.reqWorld req = false))) (hpa : pa < 2 ^ 44)
include hon hpa

theorem command_guard : ¬ (!s.reqPriv req || s.reeve.stage.toNat < 3 || pa % 128 != 0 || 2 ^ 44 ≤ pa || (s.secure pa && !s.reqWorld req)) = true := by
  simp only [Bool.or_eq_true, Bool.not_eq_true', decide_eq_true_eq, bne_iff_ne, Bool.and_eq_true]
  have := Nat.not_le.2 hpa
  grind

theorem command_register : s.command req 0 pa =
    (let r := s.registerCard (s.reqWorld req) (s.homeRead (s.reqWorld req) pa 128).1
     r.2.2.answerCard (s.reqWorld req) pa r.1 r.2.1 0) := if_neg (command_guard hon hpa)

theorem command_no_job {cmd : Nat} (hc : cmd ≠ 0) (h : s.findJob (Card.jobid (s.homeRead (s.reqWorld req) pa 128).1) = none) :
    s.command req cmd pa = s.answerCard (s.reqWorld req) pa 0x11 0 0 := by
  refine (if_neg (command_guard hon hpa)).trans ((if_neg hc).trans ?_)
  rw [h]

theorem command_job {cmd m : Nat} {z : Slot} (hc : cmd ≠ 0) (h : s.findJob (Card.jobid (s.homeRead (s.reqWorld req) pa 128).1) = some m)
    (hz : s.slot m = some z) : s.command req cmd pa =
      if Card.world z.card != s.reqWorld req then s.answerCard (s.reqWorld req) pa 0x17 0 0
      else (s.cardCommand cmd m z).2.answerCard (s.reqWorld req) pa (s.cardCommand cmd m z).1 m
        ((((s.cardCommand cmd m z).2.slot m).map (·.skip)).getD z.skip) := by
  refine (if_neg (command_guard hon hpa)).trans ((if_neg hc).trans ?_)
  rw [h]
  dsimp only
  rw [hz]

end

theorem answerCard_status (world : Bool) (pa st : Nat) : s.answerCard world pa st 0 0 = s.homeWrite world (cellsOf (pa + 120) (leBytes 8 st)) := by
  simp only [State.answerCard, Nat.zero_mul, Nat.add_zero]

theorem answerCard_slot (world : Bool) (pa st m : Nat) : s.answerCard world pa st m 0 =
    s.homeWrite world (cellsOf (pa + 120) (leBytes 8 (st + m * 2 ^ 8))) := by
  simp only [State.answerCard, Nat.zero_mul, Nat.add_zero]

theorem registerCard_bad {world : Bool} {card : List Byte} (h : cardOk card = false ∨ s.partEn (Card.part card) = false) :
    s.registerCard world card = (0x10, 0, s) := by
  refine if_pos ?_
  simpa only [Bool.or_eq_true, Bool.not_eq_true'] using h

theorem admission_error {card : List Byte} {st : Nat} (h : s.admission card = .error st) : st ≠ 1 := by
  unfold State.admission at h
  dsimp only at h
  (repeat' split at h) <;> cases h <;> decide

/-- A card that is taken stands in its slot, not released and not retiring (R336). -/
theorem registerCard_taken {world : Bool} {card : List Byte} (h : (s.registerCard world card).1 = 1) :
    ∃ z, (s.registerCard world card).2.2.slot (s.registerCard world card).2.1 = some z ∧ z.card = card ∧ z.state = .none ∧ z.retiring = false := by
  revert h
  unfold State.registerCard
  split
  · intro h; cases h
  · split
    · intro h; cases h
    · dsimp only
      split
      · intro h; cases h
      · split
        · intro h; cases h
        · split
          · intro h; cases h
          · split
            · intro h; cases h
            · split
              · intro h; cases h
              · split
                · next e => exact fun h => absurd h (admission_error e)
                · exact fun _ => ⟨_, (State.slot_setSlot ..).trans (if_pos rfl), rfl, rfl, rfl⟩

/-! ### Completion (R350) -/

theorem completeJob_none {n : Nat} (h : s.slot n = none) : s.completeJob n = s := by
  rw [State.completeJob, h]

theorem completeJob_undone {n : Nat} {z : Slot} (hz : s.slot n = some z) (h : s.jobDone n z = false) : s.completeJob n = s := by
  rw [State.completeJob, hz]
  exact if_pos (by rw [h]; rfl)

/-- What a completed job leaves in its slot: its card idle, or nothing where it was retiring. -/
theorem completeJob_slot {n : Nat} {z : Slot} (hz : s.slot n = some z) (h : s.jobDone n z = true) :
    (z.retiring = true → (s.completeJob n).slot n = none)
      ∧ (z.retiring = false → ∃ y, (s.completeJob n).slot n = some y ∧ y.state = .none ∧ y.engines = []) := by
  have hlate : SameCards s (if z.late s.ptime then s.takeMiss n z else s) := by
    split
    · exact State.takeMiss_cards n z (.refl s)
    · exact .refl s
  have hc : s.completeJob n =
      (let t := if z.late s.ptime then s.takeMiss n z else s
       let z1 := (t.slot n).getD z
       let t := ((t.settleServers.performJob z1).satisfyEdges n).writeCompletion z1
       let t := t.emitJob 0x60 z1.card 0x09 0 (completionStatus z1 + min (z1.freezeTicks / 16000) 0xFFFFFF * 2 ^ 8) 0 0
       let t := ((t.freeEngines n).endReplay n).modSlot n fun z =>
         { z with state := .none, engines := [], owed := [], shares := [], keptCore := [], keptGroup := [], snapCore := [] }
       if z1.retiring then t.freeSlot n else t) := by
    rw [State.completeJob, hz]
    exact if_neg (by rw [h]; exact Bool.false_ne_true)
  rw [hc]
  generalize (if z.late s.ptime then s.takeMiss n z else s) = t at hlate
  dsimp only
  have ht := hlate.slots n
  rw [hz] at ht
  obtain ⟨z1, hz1, hi⟩ := Option.map_eq_some_iff.1 ht
  have hret : z1.retiring = z.retiring := congrArg Prod.snd hi
  rw [hz1, Option.getD_some, hret]
  have hend := State.endReplay_cards n (State.freeEngines_cards n (State.emitJob_cards 0x60 z1.card 0x09 0
    (completionStatus z1 + min (z1.freezeTicks / 16000) 0xFFFFFF * 2 ^ 8) 0 0 (State.writeCompletion_cards z1 (State.satisfyEdges_cards n
      (State.performJob_cards z1 (State.settleServers_cards hlate))))))
  generalize (((((t.settleServers.performJob z1).satisfyEdges n).writeCompletion z1).emitJob 0x60 z1.card 0x09 0
    (completionStatus z1 + min (z1.freezeTicks / 16000) 0xFFFFFF * 2 ^ 8) 0 0).freeEngines n).endReplay n = u at hend ⊢
  have hu := hend.slots n
  rw [hz] at hu
  obtain ⟨y, hy, -⟩ := Option.map_eq_some_iff.1 hu
  refine ⟨fun hr => ?_, fun hr => ?_⟩
  · rw [hr, if_pos rfl]
    exact State.freeSlot_slot n
  · rw [hr, if_neg Bool.false_ne_true]
    refine ⟨{ y with state := .none, engines := [], owed := [], shares := [], keptCore := [], keptGroup := [], snapCore := [] }, ?_, rfl, rfl⟩
    rw [State.slot_modSlot, if_pos rfl, hy]
    rfl

theorem completeJob_again (n : Nat) : (s.completeJob n).completeJob n = s.completeJob n := by
  cases hz : s.slot n with
  | none => rw [completeJob_none hz, completeJob_none hz]
  | some z =>
    cases hd : s.jobDone n z with
    | false => rw [completeJob_undone hz hd, completeJob_undone hz hd]
    | true =>
      obtain ⟨hr, hs⟩ := completeJob_slot hz hd
      cases hret : z.retiring with
      | true => exact completeJob_none (hr hret)
      | false =>
        obtain ⟨y, hy, hst, -⟩ := hs hret
        refine completeJob_undone hy ?_
        rw [State.jobDone, hst]
        rfl

/-! ### Releases (R337, R338) -/

theorem settleServer_slot (k n : Nat) : (s.settleServer k).slot n = s.slot n := by
  unfold State.settleServer State.slot Beadle.setServer
  dsimp only
  split <;> rfl

theorem settleServers_slot (n : Nat) : s.settleServers.slot n = s.slot n := (settleServer_slot 1 n).trans (settleServer_slot 0 n)

theorem modSlot_slot_same {n : Nat} {z : Slot} (hz : s.slot n = some z) (f : Slot → Slot) : (s.modSlot n f).slot n = some (f z) := by
  rw [State.slot_modSlot, if_pos rfl, hz] <;> rfl

/-- The slot of a card just released (R337). -/
theorem releaseCard_slot {n : Nat} {z : Slot} (hz : s.slot n = some z) (time flow : Nat) : ∃ y, (s.releaseCard n time flow).slot n = some y
    ∧ y.state = .released ∧ y.release = time ∧ y.deferred = none ∧ y.skip = z.skip ∧ y.card = z.card ∧ y.nextRelease = z.nextRelease
    ∧ y.deadline = (if Card.deadline z.card = 0 then 0 else time + Card.deadline z.card) :=
  ⟨_, modSlot_slot_same ((settleServers_slot n).trans hz) _, rfl, rfl, rfl, rfl, rfl, rfl, rfl⟩

theorem mayRelease_modSlot (n : Nat) (f : Slot → Slot) (card : List Byte) : (s.modSlot n f).mayRelease card = s.mayRelease card := by
  rw [State.mayRelease, State.modSlot_reeve] <;> rfl

theorem periodicRelease_none {n : Nat} (h : s.slot n = none) : exec (.periodicRelease n) s = .next s := by
  rw [exec, execPeriodicRelease, completeJob_none h]
  dsimp only
  rw [h]

theorem periodicRelease_again (n : Nat) : exec (.periodicRelease n) s = exec (.periodicRelease n) (s.completeJob n) := by
  rw [exec, execPeriodicRelease, exec, execPeriodicRelease, completeJob_again]

theorem periodicRelease_eq {n : Nat} {z : Slot} (hz : s.slot n = some z) (hd : s.jobDone n z = false) : exec (.periodicRelease n) s = .next
    (match z.nextRelease with
     | none => s
     | some t =>
       if s.ptime < t || z.retiring then s
       else
         let s := s.modSlot n fun z => { z with nextRelease := some (t + Card.period z.card) }
         if z.state != .none then s.modSlot n fun z => { z with skip := sat32 z.skip }
         else if !s.mayRelease z.card then s.turnAway n t 0
         else s.releaseCard n t 0) := by
  rw [exec, execPeriodicRelease, completeJob_undone hz hd]
  dsimp only
  rw [hz] <;> rfl

theorem deferredRelease_eq {n : Nat} {z : Slot} (hz : s.slot n = some z) : exec (.deferredRelease n) s = .next
    (match z.deferred with
     | none => s
     | some t => if s.ptime < t || z.retiring || z.state != .none then s else s.releaseCard n t z.flow) := by
  rw [exec, execDeferredRelease, hz] <;> rfl

theorem deadlineMiss_eq {n : Nat} {z : Slot} (hz : s.slot n = some z) : exec (.deadlineMiss n) s = .next
    (if !z.live || z.missed || z.deadline = 0 || s.ptime < z.deadline || (s.ptime = z.deadline && s.jobDone n z) then s
     else if Card.miss z.card < 2 then s.takeMiss n z else (s.takeMiss n z).jobTrap n 0x28 (BitVec.ofNat 64 z.deadline)) := by
  rw [exec, execDeadlineMiss, hz]

theorem cyclesDemotion_eq {n : Nat} {z : Slot} (hz : s.slot n = some z) : exec (.cyclesDemotion n) s = .next
    (if z.live && z.holds && z.deadline != 0 && !z.demoted
        && (List.range z.engines.length).any fun i => Card.cycles z.card ≤ s.partCycles n z i then
       s.settleServers.modSlot n fun z => { z with demoted := true, bestEffort := true }
     else s) := by
  rw [exec, execCyclesDemotion, hz]

theorem server_setServer (b : Beadle) (k : Nat) (x : Nat × Option Nat × Nat) : (b.setServer k x).server k = x := by
  unfold Beadle.setServer Beadle.server
  by_cases hk : k = 0
  · rw [if_pos hk, if_pos hk]
  · rw [if_neg hk, if_neg hk]

theorem settleServer_beadle (k : Nat) : (s.settleServer k).beadle.bewin = s.beadle.bewin ∧ (s.settleServer k).beadle.bemin = s.beadle.bemin
    ∧ ((s.settleServer k).beadle.server k).2.1 = (s.beadle.server k).2.1 := by
  refine ⟨?_, ?_, ?_⟩
  · unfold State.settleServer Beadle.setServer
    dsimp only
    split <;> rfl
  · unfold State.settleServer Beadle.setServer
    dsimp only
    split <;> rfl
  · exact congrArg (fun x => x.2.1) (server_setServer s.beadle k _)

theorem serverWindow_eq (cls : EngClass) : exec (.serverWindowBoundary cls) s = .next
    (let k := clsNo cls
     let t := s.settleServer k
     let w := s.ptime / s.beadle.bewin * s.beadle.bewin
     let budget := s.beadle.bemin.toNat * s.beadle.bewin * ((List.range 32).filter fun e => t.usable k e).length / 64
     if !s.reeve.counting || some w = (s.beadle.server k).2.1 then t
     else { t with beadle := t.beadle.setServer k (budget, some w, s.ptime) }) := by
  obtain ⟨hw, hm, hs⟩ := settleServer_beadle (s := s) (clsNo cls)
  have he : exec (.serverWindowBoundary cls) s = .next
      (let k := clsNo cls
       let t := s.settleServer k
       let w := t.ptime / t.beadle.bewin * t.beadle.bewin
       let budget := t.beadle.bemin.toNat * t.beadle.bewin * ((List.range 32).filter fun e => t.usable k e).length / 64
       if !t.reeve.counting || some w = (t.beadle.server k).2.1 then t
       else { t with beadle := t.beadle.setServer k (budget, some w, t.ptime) }) := rfl
  rw [he]
  dsimp only
  rw [hw, hm, hs]
  rfl

/-! ### Pre-emption (R344) -/

theorem advanceTimeout_other {c : Fin 32} (h : ∀ at', (s.core c).preempt ≠ some (at', false)) : exec (.advanceModeTimeout c) s = .next s := by
  rw [exec, execAdvanceModeTimeout]
  split
  · next at' e => exact absurd e (h at')
  · rfl

theorem advanceTimeout_due {c : Fin 32} {at' : Nat} (h : (s.core c).preempt = some (at', false)) : exec (.advanceModeTimeout c) s = .next
    (if !(s.core c).holdsForSave && at' + Card.pbound (s.cardAt (.core c 0)) - 12288 ≤ s.ptime then
       (c.val :: s.gangLive c).foldl (fun s c => s.modCore c fun x => { x with preempt := x.preempt.map fun p => (p.1, true) }) s
     else s) := by
  rw [exec, execAdvanceModeTimeout, h]

/-- The slot of the job whose pre-emption completes on an engine (R344). -/
def State.preemptOwner (s : State) : Dom → Option Nat
  | .core c => (s.core c).job
  | .unit u => (s.residents.find? fun e => e.2.state == .saving && Card.eng e.2.card != 0 && e.2.engines.contains u.val).map (·.1)

theorem preemption_of_owner (d : Dom) : exec (.preemptionComplete d) s = .next (match s.preemptOwner d with
    | none => s
    | some n => match s.slot n with
      | none => s
      | some z =>
        if z.state != .saving || z.endStatus.isSome || s.partsEnded n z then s
        else if Card.eng z.card = 0 then
          if z.engines.all fun c => (s.core c).savable || s.gangWaits c then
            (s.settleServer 0).saveJob n (z.engines.any fun c => (s.core c).part != .ended && !(s.core c).holdsForSave)
          else s
        else if s.jobCopies n then s
        else (s.settleServer 1).saveJob n false) := by
  cases d <;> rfl

theorem preemption_none {d : Dom} (h : s.preemptOwner d = none) : exec (.preemptionComplete d) s = .next s := by
  rw [preemption_of_owner, h]

theorem preemption_eq {d : Dom} {m : Nat} {z : Slot} (h : s.preemptOwner d = some m) (hz : s.slot m = some z) : exec (.preemptionComplete d) s = .next
    (if z.state != .saving || z.endStatus.isSome || s.partsEnded m z then s
     else if Card.eng z.card = 0 then
       if z.engines.all fun c => (s.core c).savable || s.gangWaits c then
         (s.settleServer 0).saveJob m (z.engines.any fun c => (s.core c).part != .ended && !(s.core c).holdsForSave)
       else s
     else if s.jobCopies m then s
     else (s.settleServer 1).saveJob m false) := by
  rw [preemption_of_owner, h]
  dsimp only
  rw [hz]

/-- Settles O49: each command, release and end of a job by what its card and its engines hold. -/
theorem cardCommandsAndReleases : Obligations.CardCommandsAndReleases := by
  unfold Obligations.CardCommandsAndReleases
  intro s req card n cls place c d same world pa bytes off reply now
  have hpa : pa < 2 ^ 44 := card.isLt
  have hcmd (cmd : Nat) (h : off) : s.command req cmd pa = s := command_off h cmd
  refine ⟨fun h => ⟨?_, ?_, ?_, ?_⟩, fun hon => ⟨?_, fun h => ?_, fun m z hm hz => ?_⟩, fun h => ⟨?_, ?_, ?_, ?_, ?_⟩,
    fun z hz => ⟨?_, fun hn hd => ?_, fun h => ?_, fun at' hn hd => ?_, fun at' hn => ?_, fun h => ?_, fun h => ?_, fun h => ?_,
      fun h1 h2 h3 h4 h5 => ?_, ?_⟩, ?_, ⟨fun h => ?_, fun at' h => ?_, fun at' h => ?_⟩, ?_⟩
  -- commands
  · exact congrArg Host.Outcome.next (hcmd 0 h)
  · exact congrArg Host.Outcome.next (hcmd 1 h)
  · exact congrArg Host.Outcome.next (hcmd 2 h)
  · exact congrArg Host.Outcome.next (hcmd 3 h)
  · exact ⟨congrArg Host.Outcome.next ((command_register hon hpa).trans (answerCard_slot ..)), registerCard_bad, registerCard_taken⟩
  · have hno (cmd : Nat) (hc : cmd ≠ 0) := congrArg (Host.Outcome.next (φ := Fault) (ρ := Refusal))
      ((command_no_job hon hpa hc h).trans (answerCard_status world pa 0x11))
    exact ⟨hno 1 (by decide), hno 2 (by decide), hno 3 (by decide)⟩
  · have hjob (cmd : Nat) (hc : cmd ≠ 0) := command_job hon hpa hc hm hz
    refine ⟨fun hw => ?_, fun hw => ?_⟩
    · have hno (cmd : Nat) (hc : cmd ≠ 0) := congrArg (Host.Outcome.next (φ := Fault) (ρ := Refusal))
        (((hjob cmd hc).trans (if_pos (bne_iff_ne.2 hw))).trans (answerCard_status world pa 0x17))
      exact ⟨hno 1 (by decide), hno 2 (by decide), hno 3 (by decide)⟩
    · have hgo (cmd : Nat) (hc : cmd ≠ 0) {st : Nat} {t : State} (h : s.cardCommand cmd m z = (st, t)) :
          s.command req cmd pa = t.answerCard world pa st m (((t.slot m).map (·.skip)).getD z.skip) := by
        rw [hjob cmd hc, if_neg (by rw [hw, bne_self_eq_false]; exact Bool.false_ne_true), h]
      have hstay (cmd : Nat) (hc : cmd ≠ 0) {st : Nat} (h : s.cardCommand cmd m z = (st, s)) :
          s.command req cmd pa = s.answerCard world pa st m z.skip := by
        rw [hgo cmd hc h, hz] <;> rfl
      refine ⟨fun h => ?_, fun h hr => ?_, fun h => ?_, fun hr hn => ?_, fun h => ?_, fun hn he => ?_, fun hn he => ?_⟩
      · exact congrArg Host.Outcome.next (hstay 1 (by decide) (if_pos (by rw [h]; rfl)))
      · refine congrArg Host.Outcome.next (hgo 1 (by decide) ((if_neg ?_).trans (if_neg ?_)))
        · rw [h]; exact Bool.false_ne_true
        · rw [hr]; exact Bool.false_ne_true
      · exact congrArg Host.Outcome.next (hstay 2 (by decide) (if_pos h))
      · refine congrArg Host.Outcome.next ((hgo 2 (by decide)
          (t := s.modSlot m fun z => { z with retiring := true, nextRelease := none, deferred := none })
          ((if_neg (Bool.eq_false_iff.1 hr)).trans (congrArg (Prod.mk 3) (if_neg hn)))).trans ?_)
        rw [State.slot_modSlot, if_pos rfl, hz] <;> rfl
      · exact congrArg Host.Outcome.next (hstay 3 (by decide) (if_pos h))
      · refine congrArg Host.Outcome.next (hstay 3 (by decide) ((if_neg hn).trans (congrArg (Prod.mk 4) (if_neg ?_))))
        rwa [Option.isNone_iff_eq_none]
      · exact congrArg Host.Outcome.next (hgo 3 (by decide) ((if_neg hn).trans (congrArg (Prod.mk 4) (if_pos (Option.isNone_iff_eq_none.2 he)))))
  -- an empty slot
  · exact periodicRelease_none h
  · rw [show same _ ↔ exec (.deferredRelease n) s = .next s from .rfl, exec, execDeferredRelease, h]
  · exact congrArg Host.Outcome.next (completeJob_none h)
  · rw [show same _ ↔ exec (.deadlineMiss n) s = .next s from .rfl, exec, execDeadlineMiss, h]
  · rw [show same _ ↔ exec (.cyclesDemotion n) s = .next s from .rfl, exec, execCyclesDemotion, h]
  -- releases
  · exact periodicRelease_again n
  · refine (periodicRelease_eq hz hd).trans ?_
    rw [hn]
  · refine (deferredRelease_eq hz).trans ?_
    rw [h]
  · have he := periodicRelease_eq hz hd
    rw [hn] at he
    dsimp only at he
    refine ⟨fun h => he.trans (congrArg Host.Outcome.next (if_pos ?_)), fun hle hr => ?_⟩
    · rwa [Bool.or_eq_true, decide_eq_true_eq]
    · rw [if_neg (by rw [hr, Bool.or_false, decide_eq_true_eq]; exact Nat.not_lt.2 hle)] at he
      have h1 := modSlot_slot_same hz fun z => { z with nextRelease := some (at' + Card.period z.card) }
      by_cases hst : z.state = .none
      · rw [if_neg (by rw [hst]; exact Bool.false_ne_true), mayRelease_modSlot] at he
        by_cases hmay : s.mayRelease z.card = true
        · rw [if_neg (by rw [hmay]; exact Bool.false_ne_true)] at he
          obtain ⟨y, hy, hy1, hy2, -, hy3, hy4, hy5, hy6⟩ := releaseCard_slot h1 at' 0
          exact ⟨_, y, he, hy, hy5, hy4, fun _ => ⟨hy1, hy2, hy3, hy6⟩, fun h => absurd ⟨hst, hmay⟩ h⟩
        · rw [if_pos (by rw [Bool.eq_false_iff.2 hmay]; rfl)] at he
          exact ⟨_, _, he, modSlot_slot_same h1 _, rfl, rfl, fun h => absurd h.2 hmay, fun _ => ⟨rfl, rfl⟩⟩
      · rw [if_pos (bne_iff_ne.2 hst)] at he
        exact ⟨_, _, he, modSlot_slot_same h1 _, rfl, rfl, fun h => absurd h.1 hst, fun _ => ⟨rfl, rfl⟩⟩
  · have he := deferredRelease_eq hz
    rw [hn] at he
    dsimp only at he
    have hwait : (decide (s.ptime < at') || z.retiring || z.state != .none) = true ↔ (now < at' ∨ z.retiring = true ∨ z.state ≠ .none) := by
      rw [Bool.or_eq_true, Bool.or_eq_true, decide_eq_true_eq, bne_iff_ne, or_assoc]
    refine ⟨fun h => he.trans (congrArg Host.Outcome.next (if_pos (hwait.2 h))), fun hle hr hst => ?_⟩
    obtain ⟨y, hy, hy1, hy2, hy3, -⟩ := releaseCard_slot hz at' z.flow
    refine ⟨_, y, he.trans (congrArg Host.Outcome.next (if_neg (mt hwait.1 ?_))), hy, hy1, hy2, hy3⟩
    rintro (h | h | h)
    · exact Nat.not_lt.2 hle h
    · rw [hr] at h; cases h
    · exact h hst
  -- completion and misses
  · exact congrArg Host.Outcome.next (completeJob_undone hz h)
  · exact ⟨_, rfl, completeJob_slot hz h⟩
  · refine (deadlineMiss_eq hz).trans (congrArg Host.Outcome.next (if_pos ?_))
    simpa only [Bool.or_eq_true, Bool.not_eq_true', decide_eq_true_eq, Bool.and_eq_true, or_assoc] using h
  · have he := deadlineMiss_eq hz
    rw [if_neg (by
      simp only [Bool.or_eq_true, Bool.not_eq_true', decide_eq_true_eq, Bool.and_eq_true, h1, h2, Bool.true_eq_false, Bool.false_eq_true, false_or]
      rintro ((h | h) | h)
      · exact h3 h
      · exact Nat.not_lt.2 h4 h
      · exact h5 h)] at he
    intro t low
    refine he.trans (congrArg Host.Outcome.next ?_)
    by_cases hm0 : Card.miss z.card = 0
    · rw [if_pos (by omega), if_pos hm0, State.takeMiss]
      exact if_pos hm0
    · rw [if_neg hm0]
      have hlow : s.takeMiss n z = low := if_neg hm0
      by_cases hm1 : Card.miss z.card = 1
      · rw [if_pos (by omega), if_pos hm1, hlow]
      · rw [if_neg (by omega), if_neg hm1, hlow]
  · intro past due
    have he := cyclesDemotion_eq hz
    have hdue : (z.live && z.holds && z.deadline != 0 && !z.demoted
        && (List.range z.engines.length).any fun i => Card.cycles z.card ≤ s.partCycles n z i) = true ↔ due := by
      simp only [due, past, Bool.and_eq_true, bne_iff_ne, Bool.not_eq_true', List.any_eq_true, List.mem_range, decide_eq_true_eq, and_assoc, ne_eq]
    exact ⟨fun h => he.trans (congrArg Host.Outcome.next (if_neg (mt hdue.1 h))), fun h => he.trans (congrArg Host.Outcome.next (if_pos (hdue.2 h)))⟩
  -- dispatch and the server
  · intro k t jobs w
    refine ⟨fun h => congrArg Host.Outcome.next (if_pos ?_), fun hh hst => congrArg Host.Outcome.next (if_neg ?_), rfl, fun h => ?_, fun hc hw => ?_⟩
    · rwa [Bool.or_eq_true, decide_eq_true_eq]
    · rw [Bool.or_eq_true, decide_eq_true_eq]
      exact fun h => h.elim (Bool.eq_false_iff.1 hh) (Nat.not_lt.2 hst)
    · refine (serverWindow_eq cls).trans (congrArg Host.Outcome.next (if_pos ?_))
      rw [Bool.or_eq_true, Bool.not_eq_true', decide_eq_true_eq]
      exact h.imp id Eq.symm
    · refine ⟨_, (serverWindow_eq cls).trans (congrArg Host.Outcome.next (if_neg ?_)), server_setServer ..⟩
      rw [Bool.or_eq_true, Bool.not_eq_true', decide_eq_true_eq, hc]
      exact fun h => h.elim (fun h => by cases h) fun h => hw h.symm
  -- pre-emption
  · exact advanceTimeout_other fun at' e => by rw [h] at e; cases e
  · exact advanceTimeout_other fun k e => by rw [h] at e; cases e
  · intro due
    have he := advanceTimeout_due h
    have hgo : (!(s.core c).holdsForSave && at' + Card.pbound (s.cardAt (.core c 0)) - 12288 ≤ s.ptime) = true ↔
        ((s.core c).holdsForSave = false ∧ due ≤ now) := by
      rw [Bool.and_eq_true, Bool.not_eq_true', decide_eq_true_eq]
    refine ⟨fun h => he.trans (congrArg Host.Outcome.next (if_neg (mt hgo.1 ?_))),
      fun h1 h2 => he.trans (congrArg Host.Outcome.next (if_pos (hgo.2 ⟨h2, h1⟩)))⟩
    rintro ⟨h1, h2⟩
    rcases h with h | h
    · exact Nat.not_lt.2 h2 h
    · rw [h1] at h; cases h
  · intro owner
    have ho : s.preemptOwner d = owner := by cases d <;> rfl
    refine ⟨fun h => preemption_none (ho.trans h), fun m z hm hz => ?_⟩
    have he := preemption_eq (ho.trans hm) hz
    have hidle : (z.state != .saving || z.endStatus.isSome || s.partsEnded m z) = true ↔
        (z.state ≠ .saving ∨ z.endStatus ≠ none ∨ s.partsEnded m z = true) := by
      rw [Bool.or_eq_true, Bool.or_eq_true, bne_iff_ne, Option.isSome_iff_ne_none, or_assoc]
    have hbusy (h1 : z.state = .saving) (h2 : z.endStatus = none) (h3 : s.partsEnded m z = false) :
        ¬ (z.state != .saving || z.endStatus.isSome || s.partsEnded m z) = true := by
      rw [hidle, h3]
      rintro (h | h | h)
      · exact h h1
      · exact h h2
      · cases h
    refine ⟨fun h => he.trans (congrArg Host.Outcome.next (if_pos (hidle.2 h))), fun h1 h2 h3 h4 => ?_, fun h1 h2 h3 h4 => ?_⟩
    · exact he.trans (congrArg Host.Outcome.next ((if_neg (hbusy h1 h2 h3)).trans (if_neg h4)))
    · rw [if_neg (hbusy h1 h2 h3), if_pos h4] at he
      intro forced
      have hall : (z.engines.all fun c => (s.core c).savable || s.gangWaits c) = true ↔
          ∀ e ∈ z.engines, (s.core e).savable = true ∨ s.gangWaits e = true := by
        simp only [List.all_eq_true, Bool.or_eq_true]
      refine ⟨fun h => he.trans (congrArg Host.Outcome.next (if_neg (mt hall.1 ?_))),
        fun h => he.trans (congrArg Host.Outcome.next (if_pos (hall.2 h)))⟩
      intro h'
      obtain ⟨e, hm, he1, he2⟩ := h
      rcases h' e hm with h | h
      · rw [he1] at h; cases h
      · rw [he2] at h; cases h

end Sys2Proof.Machine
end

