-- ==== Sys2Proof/Proofs/Issue.lean ====
section
/-!
Issue (spec/01_machine.md R35 to R42, spec/10_progress.md R332 to R366, spec/12_recovery.md R411): task blocks, bundles, thread words and
snapshots, each by what holds it, what traps and what it leaves (O51).
-/

namespace Sys2Proof.Machine

variable {s : State}

/-! ### Task blocks (R334 to R336) -/

theorem taskBlock_other {c : Fin 32} (h : ∀ n, (s.core c).part ≠ .block n) : exec (.taskBlockStart c) s = .next s := by
  rw [exec, execTaskBlockStart]
  dsimp only
  split
  · next n e => exact absurd e (h n)
  · rfl

/-- The address of a task block's entry (R334). -/
def State.entryAddr (s : State) (c : Fin 32) (n : Nat) : Nat := (Card.tblist (s.cardAt (.core c 0)) + 32 * n) % 2 ^ 64

theorem taskBlock_eq {c : Fin 32} {n : Nat} (h : (s.core c).part = .block n) : exec (.taskBlockStart c) s = .next
    (if (s.gangLive c).head? != some c.val || !(s.gangLive c).all fun j => (s.core j).part == .block n && s.blockReady j then s
     else match s.fetchCode (.core c 0) (s.entryAddr c n) 32 with
       | .error f => f.st.issueTrap c f.trap
       | .ok (bs, t) =>
         if (bs.drop 20).any (· != 0) || 4096 < s.entryAddr c n % 4096 + 32 then t.issueTrap c ⟨0x05, BitVec.ofNat 64 (s.entryAddr c n)⟩
         else if !(s.gangLive c).all fun j => (t.core j).condsMet bs then (s.gangLive c).foldl (fun s j => s.stall j 2) t
         else t.beginBlocks c n bs (s.gangLive c)) := by
  rw [exec, execTaskBlockStart, h] <;> rfl

theorem taskBlock_waits {c : Fin 32} {n : Nat} (h : (s.core c).part = .block n)
    (hw : (s.gangLive c).head? ≠ some c.val ∨ ∃ j ∈ s.gangLive c, (s.core j).part ≠ .block n ∨ s.blockReady j = false) :
    exec (.taskBlockStart c) s = .next s := by
  refine (taskBlock_eq h).trans (congrArg Host.Outcome.next (if_pos ?_))
  rw [Bool.or_eq_true, bne_iff_ne, Bool.not_eq_true', List.all_eq_false]
  refine hw.imp id fun ⟨j, hj, h⟩ => ⟨j, hj, ?_⟩
  rw [Bool.and_eq_true, beq_iff_eq]
  rintro ⟨h1, h2⟩
  rcases h with h | h
  · exact h h1
  · rw [h2] at h; cases h

theorem taskBlock_ready {c : Fin 32} {n : Nat} (h : (s.core c).part = .block n) (hg : (s.gangLive c).head? = some c.val)
    (hr : ∀ j ∈ s.gangLive c, (s.core j).part = .block n ∧ s.blockReady j = true) : exec (.taskBlockStart c) s = .next
      (match s.fetchCode (.core c 0) (s.entryAddr c n) 32 with
       | .error f => f.st.issueTrap c f.trap
       | .ok (bs, t) =>
         if (bs.drop 20).any (· != 0) || 4096 < s.entryAddr c n % 4096 + 32 then t.issueTrap c ⟨0x05, BitVec.ofNat 64 (s.entryAddr c n)⟩
         else if !(s.gangLive c).all fun j => (t.core j).condsMet bs then (s.gangLive c).foldl (fun s j => s.stall j 2) t
         else t.beginBlocks c n bs (s.gangLive c)) := by
  refine (taskBlock_eq h).trans (congrArg Host.Outcome.next (if_neg ?_))
  rw [Bool.or_eq_true, bne_iff_ne, Bool.not_eq_true', List.all_eq_false]
  rintro (h | ⟨j, hj, h⟩)
  · exact h hg
  · rw [Bool.and_eq_true, beq_iff_eq] at h
    exact h (hr j hj)

theorem condsMet_false_iff (g : List Nat) (bs : List Byte) : (!g.all fun j => (s.core j).condsMet bs) = true ↔
    ∃ j ∈ g, ∃ q ∈ entryConds bs, mget 0 (s.core j).sem q.1 < condSum (entryConds bs) q.1 := by
  simp only [Core.condsMet, Bool.not_eq_true', List.all_eq_false, Bool.not_eq_true, decide_eq_false_iff_not, Nat.not_le]

theorem entryBad_iff (bs : List Byte) (va : Nat) : ((bs.drop 20).any (· != 0) || 4096 < va % 4096 + 32) = true ↔
    ((∃ b ∈ bs.drop 20, b ≠ 0) ∨ 4096 < va % 4096 + 32) := by
  rw [Bool.or_eq_true, decide_eq_true_eq, List.any_eq_true]
  simp only [bne_iff_ne]

theorem beginBlocks_single {c n : Nat} {bs : List Byte} (h : (s.core c).dict = (s.core c).job) : s.beginBlocks c n bs [c] = s.beginBlock c n bs := by
  have hd : s.needDict c true = .ok s := if_pos (by rw [h, beq_self_eq_true]; rfl)
  rw [State.beginBlocks, decide_eq_true rfl, hd]
  rfl

/-! ### Probes (R42, R360, R411) -/

/-- A core held back in a gang is one of the others, and its probe holds it (R366). -/
theorem gangHold_mem {fwd : Option (Nat × Nat)} {l : List Nat} {j : Nat} {q : Probe} (h : s.gangHold fwd l = some (j, q)) :
    j ∈ l ∧ q.holds = true := by
  induction l generalizing s with
  | nil => cases h
  | cons k l ih =>
    have hrec {t : State} (h : t.gangHold fwd l = some (j, q)) : j ∈ k :: l ∧ q.holds = true :=
      ⟨List.mem_cons_of_mem _ (ih h).1, (ih h).2⟩
    unfold State.gangHold at h
    split at h
    · exact hrec h
    · split at h
      · next hp =>
        cases h
        exact ⟨List.mem_cons_self, hp⟩
      · exact hrec h

theorem bundleIssue_not {c : Fin 32} (h : s.coreReady c = false) : exec (.bundleIssue c) s = .next s :=
  congrArg Host.Outcome.next (if_pos (by rw [h]; rfl))

theorem bundleIssue_first {c : Fin 32} (h : s.coreReady c = true) (hg : (s.core c).goAt = none) :
    exec (.bundleIssue c) s = .next (s.gangCycle c ((s.gangLive c).filter (· != c.val))) :=
  congrArg Host.Outcome.next ((if_neg (by rw [h]; exact Bool.false_ne_true)).trans (if_pos (by rw [hg]; rfl)))

/-- The turn of a core behind its gang's first (R366). -/
def State.turnOver (t : State) (c : Nat) : State := t.modCore c fun x => { x with goAt := none, forward := none }

theorem bundleIssue_turn {c : Fin 32} {k : Nat} (h : s.coreReady c = true) (hg : (s.core c).goAt = some k) : exec (.bundleIssue c) s = .next
    (match s.probe c (s.core c).forward with
     | .issue h len l weight commits _ t => (t.turnOver c).issueBundle c h len l weight commits
     | .trap t f => (f.turnOver c).issueTrap c t
     | p => (((s.gangLive c).filter (· != c.val)).foldl (fun s j => s.holdWith j p) s).takeProbe c p) := by
  refine congrArg Host.Outcome.next ((if_neg (by rw [h]; exact Bool.false_ne_true)).trans ((if_neg (by rw [hg]; exact Bool.false_ne_true)).trans ?_))
  cases s.probe c (s.core c).forward <;> rfl

theorem bundleIssue_turn_holds {c : Fin 32} {k : Nat} (h : s.coreReady c = true) (hg : (s.core c).goAt = some k) {p : Probe}
    (hp : s.probe c (s.core c).forward = p) (hh : p.holds = true) : exec (.bundleIssue c) s = .next
      ((((s.gangLive c).filter (· != c.val)).foldl (fun s j => s.holdWith j p) s).takeProbe c p) := by
  rw [bundleIssue_turn h hg, hp]
  cases p with
  | trap => cases hh
  | issue => cases hh
  | idle | load | stall | full | freeze => rfl

theorem gangCycle_holds {c : Nat} {others : List Nat} {p : Probe} (hp : s.probe c none = p) (h : p.holds = true) :
    s.gangCycle c others = (others.foldl (fun s j => s.holdWith j p) s).takeProbe c p := by
  rw [State.gangCycle, hp]
  exact if_pos h

theorem gangCycle_trap {c : Nat} {others : List Nat} {tr : Trap} {t : State} (hp : s.probe c none = .trap tr t) :
    s.gangCycle c others = t.issueTrap c tr := by
  rw [State.gangCycle, hp] <;> rfl

theorem gangCycle_issue {c : Nat} {others : List Nat} {h : Header} {len : Nat} {l : List SlotOp} {w : Nat} {commits : Bool} {b : Nat}
    {t : State} (hp : s.probe c none = .issue h len l w commits b t) : s.gangCycle c others =
      (let fwd := if !redundantCard (s.cardAt (.core (fin 32 c) 0)) then some (b, len) else none
       match (s.afterPushes c l).gangHold fwd others with
       | some (j, q) => (((c :: others).filter (· != j)).foldl (fun s i => s.holdWith i q) s).takeProbe j q
       | none => (t.armGang c fwd others).issueBundle c h len l w commits) := by
  rw [State.gangCycle, hp] <;> rfl

/-! ### Probes of a core alone -/

theorem probe_rec {c : Nat} (h : (s.core c).trec ≠ []) (hg : (s.core c).goAt = none) (fwd : Option (Nat × Nat)) : s.probe c fwd = .stall 4 := by
  refine if_pos ?_
  rw [hg, Bool.and_eq_true, bne_iff_ne]
  exact ⟨h, rfl⟩

section
variable {c : Nat} (h : (s.core c).trec = [])
include h

theorem probe_leave {k : Nat} (hw : (s.core c).wait = .leave k) (fwd : Option (Nat × Nat)) : s.probe c fwd = .stall 6 := by
  refine (if_neg ?_).trans ?_
  · rw [h]; exact Bool.false_ne_true
  · rw [hw]

theorem probe_free (hw : (s.core c).wait = .none) : s.probe c none =
    if (s.core c).dict != (s.core c).job then .load
    else match s.fetchBundle c with
      | .error f => .trap f.trap f.st
      | .ok (b, len, s) =>
        let h := headerOf b
        let l := bundleOps h.pres b (s.core c).arch.held
        match bundleCheck h ((s.core c).blockFirst && !(s.core c).reissue) l with
        | some (chk, n) =>
          .trap ⟨checkCause .bundle chk, BitVec.ofNat 64 (checkTval chk n (checkExtra chk (RawOp.ofBits (slotOf b n))))⟩ s
        | none => s.tryBundle c h len l b := by
  refine (if_neg ?_).trans ?_
  · rw [h]; exact Bool.false_ne_true
  · rw [hw] <;> rfl

end

/-! ### A bundle fetched and checked (R42, R360, R411, R418) -/

section
variable {c len b : Nat} {h : Header} {l : List SlotOp} (hre : (s.core c).reissue = false)
include hre

theorem tryBundle_busy (hk : h.kind = 1) (hq : (s.core c).quiet = false) :
    s.tryBundle c h len l b = .stall (if (s.core c).mstest.isSome then 7 else 1) :=
  if_pos (by rw [hk, hre, hq]; rfl)

/-- What the ops of a bundle that is no checkpoint find: the core's results due have landed (R41). -/
def State.ticked (s : State) (c : Nat) : State := { s.setCore c ((s.core c).tick false) with cur := .core (fin 32 c) 0 }

/-- A checkpoint bundle stops at a result not there, and at a header semaphore below its threshold (R411, R37). -/
theorem tryBundle_commit (hk : h.kind = 1) (hq : (s.core c).quiet = true) {p : Probe} (hp : s.tryBundle c h len l b = p) :
    ((s.core c).eng.stepping = false → ((s.core c).tick true).flight ≠ [] → p = .trap ⟨0x02, BitVec.ofNat 64 (checkTval 0x10 0 0)⟩ s)
      ∧ (((s.core c).tick true).flight = [] → s.waitMet c h = false → p = .stall 2) := by
  have hc : (s.setCore c ((s.core c).tick true)).core c = (s.core c).tick true := (State.core_setCore ..).trans (if_pos rfl)
  have ht : (if (s.core c).reissue then s else s.setCore c ((s.core c).tick (h.kind = 1 && !(s.core c).reissue))) =
      s.setCore c ((s.core c).tick true) := by
    rw [hre, hk] <;> rfl
  rw [State.tryBundle] at hp
  dsimp only at hp
  rw [ht, hc, hk, hre, hq] at hp
  refine ⟨fun hs hf => ?_, fun hf hw => ?_⟩
  · rw [hs] at hp
    exact hp.symm.trans ((if_neg (by decide)).trans (if_pos (by simpa using hf)))
  · rw [hf, hw] at hp
    exact hp.symm.trans ((if_neg (by decide)).trans ((if_neg (by simp)).trans (if_pos (by decide))))

/-- The weight of a bundle (R354). -/
def bundleSum (l : List SlotOp) : Nat := 4 + (l.map fun o => bundleWeight (RawOp.ofBits o.bits)).sum

theorem tryBundle_plain (hk : h.kind = 0) : s.tryBundle c h len l b =
    match (s.ticked c).opsWait c (l.map SlotOp.op) with
    | some k => match if k = 10 then (l.map SlotOp.op).findSome? ((s.ticked c).pushWaits c) else none with
      | some q => .full q
      | none => .stall k
    | none => match (s.ticked c).overflow c false (l.map SlotOp.op) with
      | some n => .trap ⟨0x23, BitVec.ofNat 64 n⟩ s
      | none =>
        if 256 + 48 * (s.core c).eng.granted < (s.core c).eng.recent ((s.core c).eng.clock s.ptime) + bundleSum l then .freeze
        else .issue h len l (bundleSum l) false b (s.ticked c) := by
  rw [State.tryBundle, hre, hk] <;> rfl

theorem tryBundle_waits (hk : h.kind = 0) {k : Nat} (hw : (s.ticked c).opsWait c (l.map SlotOp.op) = some k) (hk10 : k ≠ 10) :
    s.tryBundle c h len l b = .stall k := by
  rw [tryBundle_plain hre hk, hw]
  dsimp only
  rw [if_neg hk10]

theorem tryBundle_over (hk : h.kind = 0) {n : Nat} (hw : (s.ticked c).opsWait c (l.map SlotOp.op) = none)
    (ho : (s.ticked c).overflow c false (l.map SlotOp.op) = some n) : s.tryBundle c h len l b = .trap ⟨0x23, BitVec.ofNat 64 n⟩ s := by
  rw [tryBundle_plain hre hk, hw]
  dsimp only
  rw [ho]

theorem tryBundle_goes (hk : h.kind = 0) (hw : (s.ticked c).opsWait c (l.map SlotOp.op) = none)
    (ho : (s.ticked c).overflow c false (l.map SlotOp.op) = none) : s.tryBundle c h len l b =
      if 256 + 48 * (s.core c).eng.granted < (s.core c).eng.recent ((s.core c).eng.clock s.ptime) + bundleSum l then .freeze
      else .issue h len l (bundleSum l) false b (s.ticked c) := by
  rw [tryBundle_plain hre hk, hw]
  dsimp only
  rw [ho]

end

/-! ### The latch (R42) -/

theorem foldl_due_eng (l : List (Nat × Land)) (x : Core) : (l.foldl (fun x e => x.land e.2) x).eng = x.eng := by
  induction l generalizing x with
  | nil => rfl
  | cons a l ih =>
    obtain ⟨n, a⟩ := a
    rw [List.foldl_cons, ih]
    cases a <;> rfl

theorem Core.tick_eng (x : Core) (commit : Bool) : (x.tick commit).eng = x.eng := foldl_due_eng _ _

/-- A core whose latch is filled: the held ops follow, the bundle's length is noted (R42, R382). -/
theorem fillLatch_core {c : Nat} {l : List SlotOp} (hl : l ≠ []) (h : Header) (len : Nat) : ∃ a, (s.fillLatch c h len l).core c =
    { s.core c with arch := a, len := len, reissue := false, blockFirst := false } := by
  have hcores : ∃ a, (s.fillLatch c h len l).cores =
      (s.setCore c { s.core c with arch := a, len := len, reissue := false, blockFirst := false }).cores := by
    unfold State.fillLatch
    dsimp only
    rw [if_pos (bne_iff_ne.2 hl)]
    exact ⟨_, rfl⟩
  obtain ⟨a, ha⟩ := hcores
  refine ⟨a, ?_⟩
  rw [State.core, ha]
  exact (State.core_setCore ..).trans (if_pos rfl)

theorem fillLatch_ops {c : Fin 32} {l : List SlotOp} (hl : l ≠ []) (h : Header) (len : Nat) :
    (s.fillLatch c h len l).latch = l.map (fun o => ⟨.core c (fin 8 o.slot), o.bits.setWidth 64⟩) ∧ (s.fillLatch c h len l).cur = .core c 0
      ∧ (s.fillLatch c h len l).aborted = false ∧ ((s.fillLatch c h len l).core c).len = len
      ∧ ((s.fillLatch c h len l).core c).reissue = false ∧ ((s.fillLatch c h len l).core c).eng = (s.core c).eng := by
  obtain ⟨a, ha⟩ := fillLatch_core (s := s) (c := c) hl h len
  rw [ha]
  unfold State.fillLatch
  dsimp only
  rw [if_pos (bne_iff_ne.2 hl), fin_val]
  exact ⟨rfl, rfl, rfl, rfl, rfl, rfl⟩

/-- An engine that issues: its job runs, its runs of stalls and freezes end, and its weight counts (R354, R355). -/
def State.weighed (s : State) (c w : Nat) : State :=
  ((s.firstIssue (s.core c).job).endStall c).modCore c fun x => { x with eng := x.eng.weigh ((s.core c).eng.clock s.ptime) w s.ptime }

theorem issueBundle_eq (c : Nat) (h : Header) (len : Nat) (l : List SlotOp) (w : Nat) :
    s.issueBundle c h len l w false = (s.weighed c w).fillLatch c h len l := by
  rw [State.issueBundle]
  exact if_pos rfl

/-- What issuing a bundle's ops leaves: they are the latch, in slot order (R42). -/
theorem issueBundle_plain {c : Fin 32} {l : List SlotOp} (hl : l ≠ []) (h : Header) (len w : Nat) :
    (s.issueBundle c h len l w false).latch = l.map (fun o => ⟨.core c (fin 8 o.slot), o.bits.setWidth 64⟩)
      ∧ (s.issueBundle c h len l w false).cur = .core c 0 ∧ (s.issueBundle c h len l w false).aborted = false
      ∧ ((s.issueBundle c h len l w false).core c).len = len ∧ ((s.issueBundle c h len l w false).core c).reissue = false
      ∧ ((s.issueBundle c h len l w false).core c).eng.lastIssue = some ((s.core c).eng.clock s.ptime) := by
  obtain ⟨h1, h2, h3, h4, h5, h6⟩ := fillLatch_ops (s := s.weighed c w) (c := c) hl h len
  rw [issueBundle_eq]
  refine ⟨h1, h2, h3, h4, h5, ?_⟩
  rw [h6, State.weighed, State.core_modCore, if_pos rfl]
  rfl

/-! ### Snapshots (R443) -/

theorem snapshot_idle {c : Fin 32} (h : (s.core c).job = none) : exec (.snapshotWrite c) s = .next s := by
  rw [exec, execSnapshotWrite]
  dsimp only
  rw [h]

/-- A core whose snapshot is due no more, its data written back. -/
def State.snapCleaned (s : State) (c : Fin 32) : State := (s.cleanAll (.core c)).modCore c fun x => { x with snapDue := false }

/-- A core's areas written for its job's snapshot (R443). -/
def State.savedSnapshot (s : State) (c : Fin 32) (j : Nat) : State :=
  let x := s.core c
  let t := s.snapCleaned c
  let card := t.cardOf j
  let base := t.saveBase j (Card.world card) true + (coreAreaSize + scratchShare (Card.loc card)) * x.idx
  let t := t.putArea (Card.world card) base (t.coreArea c j false true false)
  t.putArea (Card.world card) (base + coreAreaSize) (readBytes x.scratch 0 (scratchShare (Card.loc card)))

theorem savedSnapshot_slot {c : Fin 32} {j : Nat} {z : Slot} (hz : s.slot j = some z) : ∃ z', (s.savedSnapshot c j).slot j = some z' := by
  have h1 : SameCards s (s.savedSnapshot c j) :=
    State.homeWrite_cards _ _ (State.homeWrite_cards _ _ (State.modCore_cards _ _ (State.cleanAll_cards (.core c) (.refl s))))
  have h2 := h1.slots j
  rw [hz] at h2
  obtain ⟨z', hz', -⟩ := Option.map_eq_some_iff.1 h2
  exact ⟨z', hz'⟩

theorem snapshot_eq {c : Fin 32} {j : Nat} (h : (s.core c).job = some j) : exec (.snapshotWrite c) s = .next
    (if !(s.core c).snapDue || !((s.core c).eng.copies.all fun y => y.job != j || y.part != (s.core c).idx) then s
     else (s.savedSnapshot c j).modSlot j fun z =>
       let m := mset none z.snapCore (s.core c).idx (some ((s.savedSnapshot c j).core c).kept)
       { z with snapCore := m, snapshot := (List.range (Card.neng ((s.snapCleaned c).cardOf j))).all fun i => (mget none m i).isSome }) := by
  rw [exec, execSnapshotWrite]
  dsimp only
  rw [h] <;> rfl

/-- Settles O51: task blocks, bundles and thread words by their guards; a bundle's ops are the latch, a snapshot's areas the slot's. -/
theorem bundlesThreadsAndBlocksIssue : Obligations.BundlesThreadsAndBlocksIssue := by
  unfold Obligations.BundlesThreadsAndBlocksIssue
  intro s c u x same goes g
  refine ⟨fun h => ?_, fun n hn hg hr => ?_, bundleIssue_not, fun hr at' hat => ?_, fun hr hat => ?_, fun hr hat ho' => ?_, ?_,
    fun t h => ?_, fun h => ?_, fun j hj hd => ⟨fun h => ?_, fun z hz h => ?_⟩⟩
  -- task blocks
  · by_cases hb : ∃ n, x.part = .block n
    · obtain ⟨n, hn⟩ := hb
      refine taskBlock_waits hn ?_
      rcases h with h | h | h
      · exact absurd hn (h n)
      · exact .inl h
      · rw [hn] at h
        exact .inr h
    · exact taskBlock_other fun n hn => hb ⟨n, hn⟩
  · intro va
    have he := taskBlock_ready hn hg hr
    refine ⟨fun f hf => he.trans ?_, fun bs t hf => ?_⟩
    · rw [show s.fetchCode (.core c 0) (s.entryAddr c n) 32 = .error f from hf]
    · rw [show s.fetchCode (.core c 0) (s.entryAddr c n) 32 = .ok (bs, t) from hf] at he
      dsimp only at he
      intro bad short
      have hbad := entryBad_iff bs va
      have hshort := condsMet_false_iff (s := t) g bs
      refine ⟨fun hb => he.trans (congrArg Host.Outcome.next (if_pos (hbad.2 hb))), fun hb hs => ?_, fun hb hs => ?_, fun hg1 hd => ?_, ?_⟩
      · exact he.trans (congrArg Host.Outcome.next ((if_neg (mt hbad.1 hb)).trans (if_pos (hshort.2 hs))))
      · exact he.trans (congrArg Host.Outcome.next ((if_neg (mt hbad.1 hb)).trans (if_neg (mt hshort.1 hs))))
      · rw [hg1]
        exact beginBlocks_single hd
      · intro y
        have hy : y = _ := (State.core_modCore ..).trans (if_pos rfl)
        rw [hy]
        exact ⟨rfl, rfl, rfl, rfl, rfl, rfl, rfl, rfl, rfl, rfl, rfl⟩
  -- bundles
  · have he := bundleIssue_turn hr hat
    intro off p
    refine ⟨fun h => ?_, fun tr t h => ?_, fun h' len l w commits b t h => ?_⟩
    · exact bundleIssue_turn_holds hr hat rfl h
    · rw [show s.probe c (s.core c).forward = .trap tr t from h] at he
      exact he
    · rw [show s.probe c (s.core c).forward = .issue h' len l w commits b t from h] at he
      exact he
  · have he := bundleIssue_first hr hat
    intro others p
    refine ⟨fun h => he.trans (congrArg Host.Outcome.next (gangCycle_holds rfl h)),
      fun tr t h => he.trans (congrArg Host.Outcome.next (gangCycle_trap h)), fun h' len l w commits b t h => ?_⟩
    rw [gangCycle_issue h, fin_val] at he
    intro fwd hold
    have hf : (if !redundantCard (s.cardAt (.core c 0)) then some (b, len) else none) = fwd := by
      simp only [fwd]
      cases redundantCard (s.cardAt (.core c 0)) <;> rfl
    rw [hf] at he
    dsimp only at he
    refine ⟨fun hn => ?_, fun j q hn => ?_⟩
    · rw [show (s.afterPushes c l).gangHold fwd _ = none from hn] at he
      exact he
    · rw [show (s.afterPushes c l).gangHold fwd _ = some (j, q) from hn] at he
      exact ⟨(gangHold_mem hn).1, (gangHold_mem hn).2, he⟩
  · have hone (p : Probe) (hp : s.probe c none = p) (hh : p.holds = true) : goes (.bundleIssue c) (s.takeProbe c p) := by
      refine (bundleIssue_first hr hat).trans (congrArg Host.Outcome.next ?_)
      rw [show (s.gangLive c).filter (· != c.val) = [] from ho']
      exact gangCycle_holds hp hh
    have htrap (tr : Trap) (t : State) (hp : s.probe c none = .trap tr t) : goes (.bundleIssue c) (t.issueTrap c tr) :=
      (bundleIssue_first hr hat).trans (congrArg Host.Outcome.next (gangCycle_trap hp))
    refine ⟨fun h => hone _ (probe_rec h hat none) rfl, fun k h hw => hone _ (probe_leave h hw none) rfl, fun h hw hdj => ?_, fun h hw hdj =>
      ⟨fun f hf => ?_, fun b len t hf => ?_⟩⟩
    · exact hone .load ((probe_free h hw).trans (if_pos (bne_iff_ne.2 hdj))) rfl
    · have hp := (probe_free h hw).trans (if_neg (by rw [show (s.core c).dict = _ from hdj, bne_self_eq_false]; exact Bool.false_ne_true))
      rw [hf] at hp
      exact htrap _ _ hp
    · have hp := (probe_free h hw).trans (if_neg (by rw [show (s.core c).dict = _ from hdj, bne_self_eq_false]; exact Bool.false_ne_true))
      rw [hf] at hp
      dsimp only at hp
      intro h' y l ops check ticked now weight past
      refine ⟨fun chk n hc => ?_, fun hc hk hre => ⟨fun hq => ?_, fun hq hs hfl => ?_, fun hq hfl hw => ?_⟩,
        fun hc hk hre => ⟨fun k hw hk10 => ?_, fun hw => ⟨fun n ho => ?_, fun ho => ⟨fun hpast => ?_, fun hpast hl => ?_⟩⟩⟩⟩
      · rw [show bundleCheck _ _ _ = some (chk, n) from hc] at hp
        exact htrap _ _ hp
      all_goals rw [show bundleCheck _ _ _ = none from hc] at hp
      · exact hone _ (hp.trans (tryBundle_busy hre hk hq)) rfl
      · exact htrap _ _ (hp.trans ((tryBundle_commit hre hk hq rfl).1 hs hfl))
      · exact hone _ (hp.trans ((tryBundle_commit hre hk hq rfl).2 hfl (decide_eq_false (Nat.not_le.2 hw)))) rfl
      all_goals
        have ht : t.ticked c = ticked := by rw [State.ticked, fin_val]
        rw [← ht] at hw
      · exact hone _ (hp.trans (tryBundle_waits hre hk hw hk10)) rfl
      · rw [← ht] at ho
        exact htrap _ _ (hp.trans (tryBundle_over hre hk hw ho))
      · rw [← ht] at ho
        exact hone _ (hp.trans ((tryBundle_goes hre hk hw ho).trans (if_pos hpast))) rfl
      · rw [← ht] at ho
        have hi := (bundleIssue_first hr hat).trans (congrArg Host.Outcome.next
          (gangCycle_issue (hp.trans ((tryBundle_goes hre hk hw ho).trans (if_neg hpast)))))
        rw [show (s.gangLive c).filter (· != c.val) = [] from ho'] at hi
        have hck : (t.ticked c).core c = y.tick false := (State.core_setCore ..).trans (if_pos rfl)
        obtain ⟨h1, h2, h3, h4, h5, h6⟩ := issueBundle_plain (s := t.ticked c) hl h' len (bundleSum l)
        refine ⟨_, hi, h1, h2, h3, h4, h5, h6.trans ?_⟩
        rw [hck, Core.tick_eng]
        rfl
  -- threads
  · intro v now all ready picks weight past off
    have he (l : List Tid) : l = picks → exec (.threadWordIssue u) s = .next
        (if s.reeve.halted || v.eng.lastIssue == some now || v.eng.stopped.isSome then s
         else match l with
           | [] => (all.foldl (fun s t => (s.schedule ready picks t).yieldCycle ready picks t) s).modEng (.unit u) fun e =>
               { e with lastIssue := some now, progress := if ready = [] then s.ptime else e.progress }
           | t :: _ =>
             if past then s.modEng (.unit u) fun e => { e with freeze := e.freeze + 1, freezeRun := e.freezeRun + 1, lastIssue := some now }
             else
               let s0 := (picks.map fun t => (s.group u t.group).job).eraseDups.foldl (fun s n => s.firstIssue (some n)) s
               let s1 := (s0.endFreeze t).modEng (.unit u) fun e => e.weigh now weight s0.ptime
               let s2 := all.foldl (fun s t => (s.schedule ready picks t).yieldCycle ready picks t) s1
               let s3 := s2.modUnit u fun v => { v with dueCount := v.dueCount + 1 }
               s3.issueThreads u picks) := by
      rintro rfl
      rfl
    have hoff : (s.reeve.halted || v.eng.lastIssue == some now || v.eng.stopped.isSome) = true ↔ off := by
      rw [Bool.or_eq_true, Bool.or_eq_true, beq_iff_eq, Option.isSome_iff_ne_none, or_assoc]
    refine ⟨fun h => (he _ rfl).trans (congrArg Host.Outcome.next (if_pos (hoff.2 h))), fun h t rest hpk => ?_⟩
    have he := (he _ hpk.symm).trans (congrArg Host.Outcome.next (if_neg (mt hoff.1 h)))
    exact ⟨fun hp => he.trans (congrArg Host.Outcome.next (if_pos hp)), fun hp => he.trans (congrArg Host.Outcome.next (if_neg hp))⟩
  · unfold State.threadReady
    split
    · rfl
    · simp only [h, Bool.not_true, Bool.and_false, Bool.false_and]
  -- snapshots
  · rcases h with h | h
    · exact snapshot_idle h
    · cases hj : x.job with
      | none => exact snapshot_idle hj
      | some j => exact (snapshot_eq hj).trans (congrArg Host.Outcome.next (if_pos (by rw [show (s.core c).snapDue = false from h]; rfl)))
  · refine (snapshot_eq hj).trans (congrArg Host.Outcome.next (if_pos ?_))
    rw [Bool.or_eq_true, Bool.not_eq_true' (List.all _ _), List.all_eq_false]
    obtain ⟨y, hy, h1, h2⟩ := h
    exact .inr ⟨y, hy, by simp [h1, h2, x]⟩
  · have he := (snapshot_eq hj).trans (congrArg Host.Outcome.next (if_neg (by
      rw [Bool.or_eq_true, Bool.not_eq_true' (List.all _ _), List.all_eq_false, show (s.core c).snapDue = true from hd]
      rintro (h' | ⟨y, hy, h'⟩)
      · cases h'
      · refine h' ?_
        rw [Bool.or_eq_true, bne_iff_ne, bne_iff_ne, ← Classical.not_and_iff_not_or_not]
        exact h y hy)))
    obtain ⟨z', hz'⟩ := savedSnapshot_slot (c := c) hz
    refine ⟨_, mset none z'.snapCore x.idx (some ((s.savedSnapshot c j).core c).kept), he, ?_, ?_⟩
    · rw [mget_mset_same]
      exact fun h => by cases h
    · rw [State.slot_modSlot, if_pos rfl, hz']
      rfl

end Sys2Proof.Machine
end
